-- ==== Sys2Proof/Word.lean ====
section
/-! DEFINITION. The word types of the NT8 and the list of its 64 lanes. -/

namespace Sys2Proof

/-- An instruction, literal or register word (R22, R100). -/
abbrev Word := BitVec 32

/-- A register pair or an affine base (R25, R100). -/
abbrev DWord := BitVec 64

/-- A byte of memory. -/
abbrev Byte := BitVec 8

/-- One bit per lane of a wave. -/
abbrev LaneMask := BitVec 64

/-- A wave has 64 lanes (00_scope, "Clusters, cores and seats"). -/
abbrev laneCount : Nat := 64

/-- The lanes in ascending order. -/
def allLanes : List Nat := List.range laneCount

end Sys2Proof
end

