-- ==== Sys2Proof/Config.lean ====
section
/-! DEFINITION. What the part fixes as numbers, and the free values: opaque constants without a body,
for what the manual leaves open (R376 and the log). -/

namespace Sys2Proof.Config

/-- The hold-back window D in cycles (R8, R226). -/
def holdback : Nat := 24
/-- Barrel spacing in cycles (R70). -/
def barrel : Nat := 4
/-- A parked split is ready no earlier than this many cycles after its condition holds (R77). -/
def wakeDelay : Nat := 4
/-- A lock bit lapses after this many cycles (R197). -/
def lockLapse : Nat := 4096
/-- A rolled-back region issues nothing for this many cycles (R313). -/
def rollbackStall : Nat := 32
/-- A matrix operation finishes this many cycles after its last occupied cycle (R251). Log entry 50 (DEDUCED). -/
def arrayTail : Nat := 16
/-- The depth of an engine queue (R160). -/
def queueDepth : Nat := 64
/-- The Draw generator after a partition reset (R273). -/
def drawSeed : Word := 0x2545F491
/-- The default partition timeout T (R351). -/
def defaultTimeout : Nat := 16777216
/-- Agreeing executions required after a partition reset (R309). -/
def defaultP : Nat := 4096
/-- Compute dies of the package (R1). -/
def dieCount : Nat := 8
/-- Physical cores of a compute die (R1). -/
def coresPerDie : Nat := 36
/-- Wave slots of a core (R66). -/
def slotsPerCore : Nat := 128
/-- Varying registers of a core (R68). -/
def varyingPerCore : Nat := 16384
/-- Scratchpad bytes of a core (R68). -/
def spadBytes : Nat := 8388608
/-- Tile file bytes of a core (R68). -/
def tileBytes : Nat := 1048576
/-- Resident blocks of a core (R68). -/
def blocksPerCore : Nat := 32
/-- Bytes of HBM (R1, R6): the package's 12 stacks of 48 GB, at physical addresses from 0 of region 0x0.
Log entry 87 (PRESUMED). -/
def hbmBytes : Nat := 576 * 2 ^ 30
/-- The cycles of R7's 300 ns, at the 24 cycles in 14.1 ns of R8. Log entry 7 (DESIGN CHOICE). -/
def launchBound : Nat := 510
/-- Entries of a core's TLB (R206). -/
def tlbEntries : Nat := 2048

/-- FREE: cycles until long operation n may complete (R376). Log entry 7 (DESIGN CHOICE). -/
opaque longLatency : Nat → Nat
/-- FREE: cycles after issue at which lane l of load n takes its value (R226). Log entry 8 (DESIGN CHOICE). -/
opaque loadMoment : Nat → Nat → Nat
/-- FREE: cycles an engine entry takes to start (R376). Log entry 7 (DESIGN CHOICE). -/
opaque engineStart : Nat → Nat
/-- FREE: cycles an engine entry's data transfer takes (R376). Log entry 7 (DESIGN CHOICE). -/
opaque engineTransfer : Nat → Nat
/-- FREE: cycles until write n is applied at its home die (R227, R376). Log entry 7 (DESIGN CHOICE). -/
opaque homeDelay : Nat → Nat
/-- FREE: cycles until write n is applied in the view of die d (R376). Log entry 7 (DESIGN CHOICE). -/
opaque remoteDelay : Nat → Nat → Nat
/-- FREE: whether placement n is made as a redundant pair while a suspect core has room (R328).
Log entry 10 (DESIGN CHOICE). -/
opaque redundantPlace : Nat → Bool
/-- FREE: cycles from the issue of held effect n of a primary until its shadow has produced the matching one (R328).
Log entry 10 (DESIGN CHOICE). -/
opaque shadowDelay : Nat → Nat
/-- FREE: cycles from the placement of block n until its waves may first issue (R376). Log entry 7 (DESIGN CHOICE). -/
opaque launchLatency : Nat → Nat
/-- FREE: cycles until a reduction round's results are written (R376). Log entry 7 (DESIGN CHOICE). -/
opaque fabricDelay : Nat → Nat
/-- FREE: whether a TLB entry that matches is still held at access n (R206). Log entry 9 (DESIGN CHOICE). -/
opaque tlbHolds : Nat → Bool
/-- FREE: cycles that a code line cached in cycle t at address a stays in its L1 code (R146). Log entry 9 (DESIGN CHOICE). -/
opaque codeLife : Nat → Nat → Nat
/-- FREE: cycles the walk and scrub of resolution n take (R304, R305). Log entry 7 (DESIGN CHOICE). -/
opaque scrubDelay : Nat → Nat
/-- FREE: byte k of the body of image n (R343 fixes no layout). Log entry 11 (DESIGN CHOICE). -/
opaque imageBody : Nat → Nat → Byte
/-- FREE: whether granule g of the body of image n holds the k-th tag state of the image (R308, R343).
Log entry 11 (DESIGN CHOICE). -/
opaque imagePart : Nat → Nat → Nat → Bool
/-- FREE: the length in bytes of the body of image n (R343). Log entry 11 (DESIGN CHOICE). -/
opaque imageLength : Nat → Nat
/-- FREE: byte k of a spilled split record (R83 fixes no layout). Log entry 12 (DESIGN CHOICE). -/
opaque splitRecord : Nat → Nat → Byte
/-- FREE: what a loose wave reads from register n of a block (R266 gives no value). Log entry 13 (DESIGN CHOICE). -/
opaque looseReg : Nat → Word
/-- FREE: `trapval` of a trap for whose cause the spec states no value (LOOSE_WAVE, R86; STACK_OVERFLOW of R83).
Log entry 14 (DESIGN CHOICE). -/
opaque openTrapval : Nat → Word
/-- FREE: the detail of a record whose cause's rule states none, by cause code (R210, R330, R337).
Log entry 25 (DESIGN CHOICE). -/
opaque openDetail : Nat → Word
/-- FREE: cycles until packet n of a port stream is acknowledged (R362). Log entry 7 (DESIGN CHOICE). -/
opaque portAck : Nat → Nat
/-- FREE: where the event ring of partition p stands in host memory, in units of 64 bytes (R367 names no address).
Log entry 105 (DESIGN CHOICE). -/
opaque eventRing : Nat → Nat
/-- FREE: one less than the events that the ring of partition p holds (R367). Log entry 105 (DESIGN CHOICE). -/
opaque eventSlots : Nat → Nat
/-- FREE: how many events of partition p the host has taken from its ring by cycle t (R367).
Log entry 105 (DESIGN CHOICE). -/
opaque eventsTaken : Nat → Nat → Nat
/-- FREE: the key that attestation n gives a peer's link stream (R361). Log entry 15 (DESIGN CHOICE). -/
opaque sessionKey : Nat → Nat
/-- FREE: whether the world policy of a command accepts measurements (R361). Log entry 15 (DESIGN CHOICE). -/
opaque policyAccepts : Nat → List Nat → Bool
/-- FREE: the silicon stepping (R366). Log entry 15 (DESIGN CHOICE). -/
opaque stepping : BitVec 16
/-- FREE: whether the signature of the firmware image of hub die h verifies (R9). Log entry 15 (DESIGN CHOICE). -/
opaque firmwareVerifies : Nat → Bool
/-- FREE: the signed device identity (R9). Log entry 15 (DESIGN CHOICE). -/
opaque identity : Nat
/-- FREE: the cause code of the record of a failed bring-up (R363 gives none). Log entry 15 (DESIGN CHOICE). -/
opaque bringUpCause : BitVec 16
/-- FREE: the firmware measurement of hub die h (R361). Log entry 15 (DESIGN CHOICE). -/
opaque firmwareMeasure : Nat → Nat
/-- FREE: the RSA-4096 signature over a report (R9, R361). Log entry 15 (DESIGN CHOICE). -/
opaque signature : List Nat → Nat

end Sys2Proof.Config
end

