-- ==== Sys2Proof/Syntax.lean ====
section
/-! DEFINITION. The instructions and moves of the device: one constructor of `Instr` for each row of the
opcode table. A row with an encoding carries the operands of its word (R22, R23, R28); a row without one is a
move of the device (an event) and carries the names of what it acts on. -/

namespace Sys2Proof

/-- A decoded operand code (R23). A literal code carries its literal words (R24); `reserved` carries a code that
R23 reserves. The numbers of `v`, `s`, `a`, `p`, `t`, `acc`, `fs`, `b` and `q` are register numbers. -/
inductive Operand where
  | v (n : Nat)
  | s (n : Nat)
  | a (n : Nat)
  | p (n : Nat)
  | z
  | lane
  | lit32 (w : Word)
  | lit64 (d : DWord)
  | wid
  | bid
  | live
  | act
  | t (n : Nat)
  | acc (n : Nat)
  | fs (n : Nat)
  | b (n : Nat)
  | q (n : Nat)
  | reserved (c : Byte)
  deriving DecidableEq, Repr

/-- The arguments of a host command (R355, R356, R365, R370, R378), as the fields its bytes hold.
Log entry 66 (DESIGN CHOICE). -/
inductive HostCmd where
  | createContext (world root : Nat) (pkr : DWord) (saveBase saveLen : Nat)
  | launchGrid (ctx rec queue : Nat)
  | save (ctx grid block reason : Nat)
  | launchImage (ctx count arr : Nat)
  | openWindow (ctx base len s0 slot q release aperture : Nat) (reqs : List Nat)
  | closeWindow (base : Nat)
  | configureDeck (deck world c : Nat)
  | keyStream (stream key : Nat)
  | takePeer (entry link policy : Nat)
  | removePeer (entry : Nat)
  | trumpControls (enable : Bool) (p : Nat)
  | wakeFilter (index interval offset mask value : Nat)
  | resetPartition
  | unknown (opcode : Nat)
  deriving DecidableEq, Repr

/-- A 64-byte host command record (R355): the host tag, the bytes that must be zero as one number, and the rest.
Log entry 66 (DESIGN CHOICE). -/
structure HostRecord where
  tag : Word
  pad : Nat
  cmd : HostCmd
  deriving DecidableEq, Repr

/-- The payload of a write, and whether it comes marked poison (R320, R354). -/
structure Payload where
  bytes : List Byte
  bad : Bool := false
  deriving DecidableEq, Repr

/-- A frame of an Ethernet port, for the partition whose security association it comes under (R359, R364). -/
structure EthFrame where
  part : Nat
  bytes : List Byte
  deriving DecidableEq, Repr

/-- What a management command that forms a partition gives it beside its compute dies: the hub die it is homed on, its
timeout where the command sets one, and its share of the HBM (R351). -/
structure FormOrder where
  hub : Nat
  timeout : Option Nat := none
  share : Nat := 0
  deriving DecidableEq, Repr

/-- The stream that a flit comes on, by its partition and roster entry, whether the flit authenticates and whether its
payload comes marked poison (R320, R358, R359). Log entry 84 (DESIGN CHOICE). -/
structure FlitHead where
  part : Nat
  entry : Nat
  auth : Bool
  bad : Bool := false
  deriving DecidableEq, Repr

/-- What a flit of a peer carries (R279, R280, R358): a write to region 0x0 of this device, an arrival at a cohort's
barrier, or a contribution to a reduction round: accumulator elements (`drain`) with their lost indicators, or lane
values. Log entry 84 (DESIGN CHOICE). -/
inductive PeerBody where
  | write (pa : Nat) (data : List Byte)
  | arrive (cohort : Nat)
  | contribute (cohort : Nat) (drain : Bool) (slot ctl : Word) (elems : List (Nat × BitVec 96 × Bool))
      (lanes : List (Nat × DWord))
  deriving DecidableEq, Repr

/-- What the debugger writes of a stopped wave (R350); `read` writes nothing. -/
inductive DebugAccess where
  | read
  | setV (reg lane : Nat) (w : Word)
  | setS (reg : Nat) (w : Word)
  | setA (reg : Nat) (base : DWord) (stride : Word)
  | setP (reg : Nat) (bits : DWord)
  | setPc (entry pc : Nat)
  | setMode (entry : Nat) (mode : BitVec 24)
  | setOmode (entry : Nat) (omode : Byte)
  | setMask (entry : Nat) (mask : BitVec 64)
  | setLive (mask : BitVec 64)
  | setVTag (reg lane : Nat) (tag : BitVec 14)
  | setSTag (reg : Nat) (tag : BitVec 14)
  | setATag (reg : Nat) (tag : BitVec 14)
  | setPTag (reg lane : Nat) (tag : BitVec 14)
  | setWstat (flags : BitVec 9)
  | setSig (w : Word)
  | setFlag (n : Nat) (count : Nat)
  | setWdog (n : Nat)
  | setTrap (cause : BitVec 17) (pc : Nat) (val : Word)
  | setPkr (val : BitVec 64)
  | setFrame (mask : BitVec 64) (mode : BitVec 24) (omode : Byte) (sig : Word) (header word : Nat)
  | setWaiting (frozen : Bool) (n pc : Nat) (mask : BitVec 64) (mode : BitVec 24) (omode : Byte)
  | setWindow (n : Nat)
  | setCounts (spills fills : Word)
  | setCmapix (n : BitVec 9)
  | setKillTag (lane : Nat) (tag : BitVec 12)
  | setTimeHi (w : Word)
  | setBatch (w : Word)
  deriving DecidableEq, Repr

/-- A peer's attestation report (R361). -/
structure PeerReport where
  identity : Nat
  world : Nat
  measures : List Nat
  signed : Bool
  deriving DecidableEq, Repr

/-- The rows of the opcode table. -/
inductive Instr where
  /-- Defined instruction whose only effect is the ILLEGAL_OPCODE trap. (R29) -/
  | ill (d : Byte) (a : Byte) (b : Byte)
  /-- Sets the issuing split's mode register from the instruction word. (R32) -/
  | mode (m : BitVec 24)
  /-- Sets the issuing split's omode register from the B field. (R34) -/
  | omode (o : Byte)
  /-- Issued instruction with no other effect. (R30) -/
  | nop
  /-- Compares sig with the literal word, clears sig, traps with SIGNATURE on a mismatch and ends a Trump region. (R158) -/
  | sigck (sig : Word)
  /-- Checks a dead-register list in its literal and has no architectural effect. (R159) -/
  | rnote (regs : DWord)
  /-- Writes the lowest lane of ACTIVE, as a mask or as an index. (R115) -/
  | elect (d : Operand)
  /-- Yield point that resets the watchdog count and allows pre-emption. (R75) -/
  | yield
  /-- Yield point that parks the split until a condition holds, then continues at a continuation. (R76) -/
  | yieldon (a : Operand) (b : Operand)
  /-- Wave-level end of the wave, performed D cycles after issue once its flags are zero. (R157) -/
  | endWave
  /-- Always traps with cause TRAP and the given code. (R340) -/
  | trap (c : Byte)
  /-- Traps with BREAK, or stops the stop set when a debugger is attached. (R340) -/
  | brk (c : Byte)
  /-- Reads a stable or volatile feature word into a uniform register. (R366) -/
  | qfeat (d : Operand) (a : Operand)
  /-- Reads a numbered system register into D with a clean tag. (R340) -/
  | rdsr (d : Operand) (n : Byte)
  /-- Reads device time bits [31:0] and latches bits [63:32] for the wave's next read of timehi. (R338) -/
  | rdsrTimelo (d : Operand)
  /-- Writes a source value into a writable system register that has no row of its own, such as wstat or cmapix. (R340) -/
  | wrsr (a : Operand) (n : Byte)
  /-- A write to mgrant with revoke clear creates or replaces an on-chip map grant at an index. (R213) -/
  | mgrantCreate (a : Operand)
  /-- A write to mgrant with revoke set ends the grant at an index. (R213) -/
  | mgrantRevoke (a : Operand)
  /-- A write to sig that takes effect after the wrsr's own signature update. (R372) -/
  | sigWrite (a : Operand)
  /-- Replaces the wave's pkr copy at issue and the context's pkr value D cycles later. (R221) -/
  | pkset (a : Operand)
  /-- Integer add, wrapped or saturated. (R122) -/
  | add (d : Operand) (a : Operand) (b : Operand)
  /-- Integer subtract, wrapped or saturated. (R122) -/
  | sub (d : Operand) (a : Operand) (b : Operand)
  /-- Integer negate, wrapped or saturated. (R122) -/
  | neg (d : Operand) (a : Operand)
  /-- Integer multiply, wrapped or saturated. (R122) -/
  | mul (d : Operand) (a : Operand) (b : Operand)
  /-- High half of an integer product. (R122) -/
  | mulhi (d : Operand) (a : Operand) (b : Operand)
  /-- Integer multiply-add formed exactly and reduced once. (R122) -/
  | mad (d : Operand) (a : Operand) (b : Operand)
  /-- Memory-class long integer division truncating toward zero. (R123) -/
  | div (d : Operand) (a : Operand) (b : Operand)
  /-- Memory-class long integer remainder. (R123) -/
  | rem (d : Operand) (a : Operand) (b : Operand)
  /-- Smaller of two integers. (R122) -/
  | min (d : Operand) (a : Operand) (b : Operand)
  /-- Larger of two integers. (R122) -/
  | max (d : Operand) (a : Operand) (b : Operand)
  /-- Integer absolute value. (R122) -/
  | abs (d : Operand) (a : Operand)
  /-- Four-element 8-bit dot product accumulated into D. (R124) -/
  | dot4 (d : Operand) (a : Operand) (b : Operand)
  /-- Reverses the bits of each element. (R125) -/
  | brev (d : Operand) (a : Operand)
  /-- Counts the set bits of each element. (R125) -/
  | popc (d : Operand) (a : Operand)
  /-- Counts the leading zero bits of each element. (R125) -/
  | clz (d : Operand) (a : Operand)
  /-- Integer compare for equality. (R129) -/
  | cmpeq (d : Operand) (a : Operand) (b : Operand)
  /-- Integer compare for inequality. (R129) -/
  | cmpne (d : Operand) (a : Operand) (b : Operand)
  /-- Integer compare, less than. (R129) -/
  | cmplt (d : Operand) (a : Operand) (b : Operand)
  /-- Integer compare, less or equal. (R129) -/
  | cmple (d : Operand) (a : Operand) (b : Operand)
  /-- Bitwise AND. (R126) -/
  | and (d : Operand) (a : Operand) (b : Operand)
  /-- Bitwise OR. (R126) -/
  | or (d : Operand) (a : Operand) (b : Operand)
  /-- Bitwise XOR. (R126) -/
  | xor (d : Operand) (a : Operand) (b : Operand)
  /-- Bitwise NOT. (R126) -/
  | not (d : Operand) (a : Operand)
  /-- Shift left. (R127) -/
  | shl (d : Operand) (a : Operand) (b : Operand)
  /-- Logical shift right. (R127) -/
  | shr (d : Operand) (a : Operand) (b : Operand)
  /-- Arithmetic shift right. (R127) -/
  | sra (d : Operand) (a : Operand) (b : Operand)
  /-- Bit-field extract. (R128) -/
  | bfe (d : Operand) (a : Operand) (b : Operand)
  /-- Bit-field insert into D's old value. (R128) -/
  | bfi (d : Operand) (a : Operand) (b : Operand)
  /-- Floating-point add, rounded once. (R130) -/
  | fadd (d : Operand) (a : Operand) (b : Operand)
  /-- Floating-point subtract. (R130) -/
  | fsub (d : Operand) (a : Operand) (b : Operand)
  /-- Floating-point multiply. (R130) -/
  | fmul (d : Operand) (a : Operand) (b : Operand)
  /-- Fused multiply-add with one rounding. (R130) -/
  | fma (d : Operand) (a : Operand) (b : Operand)
  /-- Inverts the sign bit of each element. (R131) -/
  | fneg (d : Operand) (a : Operand)
  /-- Clears the sign bit of each element. (R131) -/
  | fabs (d : Operand) (a : Operand)
  /-- IEEE minimumNumber. (R132) -/
  | fmin (d : Operand) (a : Operand) (b : Operand)
  /-- IEEE maximumNumber. (R132) -/
  | fmax (d : Operand) (a : Operand) (b : Operand)
  /-- Memory-class long floating-point division, correctly rounded. (R130) -/
  | fdiv (d : Operand) (a : Operand) (b : Operand)
  /-- Memory-class long floating-point square root. (R130) -/
  | fsqrt (d : Operand) (a : Operand)
  /-- Correctly rounded reciprocal. (R133) -/
  | frcp (d : Operand) (a : Operand)
  /-- Correctly rounded reciprocal square root. (R133) -/
  | frsq (d : Operand) (a : Operand)
  /-- Correctly rounded power of two. (R133) -/
  | fexp2 (d : Operand) (a : Operand)
  /-- Correctly rounded base-2 logarithm. (R133) -/
  | flog2 (d : Operand) (a : Operand)
  /-- Correctly rounded sinPi. (R133) -/
  | fsin (d : Operand) (a : Operand)
  /-- Correctly rounded cosPi. (R133) -/
  | fcos (d : Operand) (a : Operand)
  /-- Rounds each element to an integral value in the same format. (R134) -/
  | frnd (d : Operand) (a : Operand)
  /-- Floating-point compare for equality. (R135) -/
  | fcmpeq (d : Operand) (a : Operand) (b : Operand)
  /-- Floating-point compare, less than. (R135) -/
  | fcmplt (d : Operand) (a : Operand) (b : Operand)
  /-- Floating-point compare, less or equal. (R135) -/
  | fcmple (d : Operand) (a : Operand) (b : Operand)
  /-- Floating-point test for unordered operands. (R135) -/
  | fcmpun (d : Operand) (a : Operand) (b : Operand)
  /-- Writes a one-hot class mask for each element. (R136) -/
  | fclass (d : Operand) (a : Operand)
  /-- Complex f32 multiply, each component rounded once. (R137) -/
  | cmul (d : Operand) (a : Operand) (b : Operand)
  /-- Complex f32 multiply-add into D. (R137) -/
  | cmad (d : Operand) (a : Operand) (b : Operand)
  /-- Converts an integer to a float. (R138) -/
  | cvtif (d : Operand) (a : Operand)
  /-- Converts a float to an integer, clamping with INVALID. (R138) -/
  | cvtfi (d : Operand) (a : Operand)
  /-- Converts between float formats, narrowing into or widening from a half. (R139) -/
  | cvtff (d : Operand) (a : Operand) (c : Byte)
  /-- Converts f32 to a narrow target and writes it into a field of D. (R141) -/
  | cvtn8 (d : Operand) (a : Operand) (c : Byte)
  /-- Widens a narrow field of A exactly to f32. (R141) -/
  | cvtw8 (d : Operand) (a : Operand) (c : Byte)
  /-- Bit-exact copy within one register class. (R110) -/
  | mov (d : Operand) (a : Operand)
  /-- Per-lane select of B into D by a predicate. (R113) -/
  | sel (d : Operand) (a : Operand) (b : Operand)
  /-- Copies a value into a register of a higher class. (R111) -/
  | promote (d : Operand) (a : Operand) (b : Operand)
  /-- Copies a varying or affine value into a uniform register, trapping on divergence. (R112) -/
  | demote (d : Operand) (a : Operand)
  /-- Vote: every test in ACTIVE holds. (R114) -/
  | vall (d : Operand) (a : Operand)
  /-- Vote: any test in ACTIVE holds. (R114) -/
  | vany (d : Operand) (a : Operand)
  /-- Vote: every value in ACTIVE is equal. (R114) -/
  | veq (d : Operand) (a : Operand)
  /-- Writes the 64-bit mask of ACTIVE lanes whose test holds. (R115) -/
  | ballot (d : Operand) (a : Operand)
  /-- Reads each lane's value from a lane given by B. (R116) -/
  | shfl (d : Operand) (a : Operand) (b : Operand)
  /-- Shuffle from lane L XOR m. (R116) -/
  | shflx (d : Operand) (a : Operand) (m : Byte)
  /-- Shuffle from lane L + m. (R116) -/
  | shfldn (d : Operand) (a : Operand) (m : Byte)
  /-- Shuffle from lane L − m. (R116) -/
  | shflup (d : Operand) (a : Operand) (m : Byte)
  /-- Predicate AND in ACTIVE lanes. (R117) -/
  | pand (d : Operand) (a : Operand) (b : Operand)
  /-- Predicate OR in ACTIVE lanes. (R117) -/
  | por (d : Operand) (a : Operand) (b : Operand)
  /-- Predicate XOR in ACTIVE lanes. (R117) -/
  | pxor (d : Operand) (a : Operand) (b : Operand)
  /-- Predicate NOT in ACTIVE lanes. (R117) -/
  | pnot (d : Operand) (a : Operand)
  /-- Unconditional jump of the whole split to a header. (R150) -/
  | jmp (o : BitVec 24)
  /-- Branch on predicate set, possibly dividing the split. (R151) -/
  | bp (p : Operand) (o : BitVec 16)
  /-- Branch on predicate clear, possibly dividing the split. (R151) -/
  | bnp (p : Operand) (o : BitVec 16)
  /-- Whole-split branch if any lane's bit is 1. (R152) -/
  | bany (p : Operand) (o : BitVec 16)
  /-- Whole-split branch if every lane's bit is 1. (R152) -/
  | ball (p : Operand) (o : BitVec 16)
  /-- Whole-split branch if no lane's bit is 1. (R152) -/
  | bnone (p : Operand) (o : BitVec 16)
  /-- Wave-level call that writes the link and moves the register window. (R155) -/
  | call (f : Byte) (o : BitVec 16)
  /-- Wave-level return through a link, moving the window back. (R156) -/
  | ret (a : Operand)
  /-- Indirect jump to a 64-bit target. (R153) -/
  | jmpi (a : Operand)
  /-- Indirect wave-level call. (R155) -/
  | calli (f : Byte) (a : Operand)
  /-- Arrives at a block barrier and parks until the generation passes. (R96) -/
  | bar (a : Operand)
  /-- Arrives at a block barrier without parking. (R96) -/
  | barrive (d : Operand) (a : Operand)
  /-- Parks until a barrier generation passes. (R96) -/
  | bwait (a : Operand) (b : Operand)
  /-- Requests new attached or loose waves, granted D cycles later. (R89) -/
  | grow (d : Operand) (a : Operand) (b : Operand)
  /-- A loose wave asks to attach to a block of its grid. (R90) -/
  | attach (d : Operand) (a : Operand)
  /-- Leaves the block, ending the wave or making it loose. (R91) -/
  | detach (a : Operand)
  /-- Reads the block's posted shrink request. (R92) -/
  | shrinkq (d : Operand)
  /-- Reads barrier or block membership counts. (R97) -/
  | bmem (d : Operand) (a : Operand)
  /-- Scratchpad load by offset. (R195) -/
  | lds (d : Operand) (a : Operand)
  /-- Scratchpad store by offset, held for D cycles. (R195) -/
  | sts (a : Operand) (b : Operand)
  /-- Scratchpad load through a layout word. (R195) -/
  | ldsl (d : Operand) (a : Operand) (b : Operand)
  /-- Scratchpad store through a layout word. (R195) -/
  | stsl (d : Operand) (a : Operand) (b : Operand)
  /-- Scratchpad load that takes a bank lock bit per lane. (R196) -/
  | ldlk (d : Operand) (a : Operand)
  /-- Scratchpad store that succeeds only for the lock owner and clears the lock. (R198) -/
  | stul (d : Operand) (a : Operand) (b : Operand)
  /-- Scratchpad atomic add. (R199) -/
  | sadd (d : Operand) (a : Operand) (b : Operand)
  /-- Scratchpad atomic minimum. (R199) -/
  | smin (d : Operand) (a : Operand) (b : Operand)
  /-- Scratchpad atomic maximum. (R199) -/
  | smax (d : Operand) (a : Operand) (b : Operand)
  /-- Scratchpad atomic exchange. (R199) -/
  | sxchg (d : Operand) (a : Operand) (b : Operand)
  /-- Scratchpad atomic compare-and-swap. (R199) -/
  | scas (d : Operand) (a : Operand) (b : Operand)
  /-- Scratchpad atomic AND. (R199) -/
  | sand (d : Operand) (a : Operand) (b : Operand)
  /-- Scratchpad atomic OR. (R199) -/
  | sor (d : Operand) (a : Operand) (b : Operand)
  /-- Global load, checked at issue and written at completion. (R217) -/
  | ld (d : Operand) (a : Operand)
  /-- Global store placed in hold-back. (R217) -/
  | st (a : Operand) (b : Operand)
  /-- Global load that acts as an acquire point. (R217) -/
  | ldacq (d : Operand) (a : Operand)
  /-- Global store that acts as a release point. (R217) -/
  | strel (a : Operand) (b : Operand)
  /-- Global atomic add performed at the home die. (R219) -/
  | gadd (d : Operand) (a : Operand) (b : Operand)
  /-- Global atomic minimum. (R219) -/
  | gmin (d : Operand) (a : Operand) (b : Operand)
  /-- Global atomic maximum. (R219) -/
  | gmax (d : Operand) (a : Operand) (b : Operand)
  /-- Global atomic exchange. (R219) -/
  | gxchg (d : Operand) (a : Operand) (b : Operand)
  /-- Global atomic compare-and-swap. (R219) -/
  | gcas (d : Operand) (a : Operand) (b : Operand)
  /-- Global atomic AND. (R219) -/
  | gand (d : Operand) (a : Operand) (b : Operand)
  /-- Global atomic OR. (R219) -/
  | gor (d : Operand) (a : Operand) (b : Operand)
  /-- Acquire, release or full fence over a scope and storage set. (R234) -/
  | fence (o : Byte)
  /-- Prefetches lines toward the core with no architectural effect. (R220) -/
  | pref (a : Operand) (h : Byte)
  /-- Yield point that parks until an ingress window's committed number reaches n. (R222) -/
  | wseq (d : Operand) (a : Operand) (b : Operand)
  /-- Waits for the wave's stores to leave hold-back and drops stale code lines. (R147) -/
  | icsync
  /-- Enters a matrix multiply-accumulate into qm under format slot N. (R255) -/
  | mma (n : BitVec 3) (d : Operand) (a : Operand) (b : Operand)
  /-- Enters a windowed matrix multiply-accumulate into qm. (R255) -/
  | mmaw (n : BitVec 3) (d : Operand) (a : Operand) (b : Operand)
  /-- Writes a tile configuration and clears its window. (R248) -/
  | tcfg (d : Operand) (a : Operand)
  /-- Writes a tile's window word. (R250) -/
  | twin (d : Operand) (a : Operand)
  /-- Clears an accumulator tile. (R259) -/
  | accz (d : Operand)
  /-- Reads accumulator elements, converted or raw. (R259) -/
  | accrd (d : Operand) (a : Operand) (b : Operand)
  /-- Writes accumulator elements, converted or raw. (R259) -/
  | accwr (d : Operand) (a : Operand) (b : Operand)
  /-- Contributes accumulator rows to a cohort reduction round. (R262) -/
  | mdrain (d : Operand) (a : Operand) (m : BitVec 5) (n : BitVec 3)
  /-- Counts f32 values in the block's histogram. (R260) -/
  | hist (a : Operand)
  /-- Clears the block's histogram. (R260) -/
  | hclr
  /-- Chooses a block scale from the histogram at a percentile. (R260) -/
  | hscale (d : Operand) (a : Operand)
  /-- Quantises 64 f32 lanes into two Q4X blocks of a tile. (R261) -/
  | qcvt (d : Operand) (a : Operand) (m : BitVec 5) (n : BitVec 3)
  /-- Enters a copy from global or map memory into scratchpad. (R168) -/
  | cpin (d : Operand) (a : Operand)
  /-- Enters a copy from scratchpad out to memory. (R168) -/
  | cpout (d : Operand) (a : Operand)
  /-- Supplies one wave's slice of a block-collective copy in. (R172) -/
  | bcpin (d : Operand) (a : Operand)
  /-- Supplies one wave's slice of a block-collective copy out. (R172) -/
  | bcpout (d : Operand) (a : Operand)
  /-- Enters a per-lane gather into scratchpad on qg. (R173) -/
  | gath (d : Operand) (a : Operand) (b : Operand)
  /-- Seals the wave's open batch and returns its number. (R175) -/
  | cseal (d : Operand)
  /-- Yield point that parks until at most n sealed batches are unfinished. (R176) -/
  | cwait (n : Byte)
  /-- Places ordering markers in a set of engine queues. (R180) -/
  | qfence (q : Byte)
  /-- Reads a queue's completed sequence number. (R177) -/
  | qseq (d : Operand) (a : Operand)
  /-- Yield point that arrives at a cohort barrier and parks until its generation is released. (R279) -/
  | cbar (d : Operand) (a : Operand)
  /-- Contributes a varying value to a cohort reduction round. (R280) -/
  | cred (d : Operand) (a : Operand) (b : Operand)
  /-- Sends one 16-byte item per ACTIVE lane toward a deck. (R283) -/
  | dput (a : Operand) (b : Operand)
  /-- Enters a draw of items from a deck's head on qg. (R284) -/
  | dtake (d : Operand) (a : Operand) (b : Operand)
  /-- Releases drawn items and parks until Showdown reports quiescence for a deck set. (R285) -/
  | sdwait (a : Operand)
  /-- Checks a launch record at issue and enqueues a grid D cycles later. (R276) -/
  | launch (d : Operand) (a : Operand) (b : Operand)
  /-- Yield point that parks until a grid completes or is unknown. (R277) -/
  | lwait (d : Operand) (a : Operand)
  /-- Reads a grid's status word. (R277) -/
  | lstat (d : Operand) (a : Operand)
  /-- Leaves the trap handler, retrying or skipping the trapping instruction. (R336) -/
  | tret (k : Byte)
  /-- Sets a block watchpoint from four uniform registers. (R348) -/
  | wpset (a : Operand) (i : Byte)
  /-- Clears watchpoints named by a mask. (R348) -/
  | wpclr (m : Byte)
  /-- Writes a predicate testing tag states without consuming them. (R326) -/
  | pchk (d : Operand) (a : Operand) (m : Byte)
  /-- Writes each lane's tag state as a value. (R326) -/
  | ptag (d : Operand) (a : Operand)
  /-- A split fetches a whole clause through the TLB, or faults and suspends the wave. (R143) -/
  | clauseFetch (w : Nat) (e : Nat)
  /-- A suspended wave fetches its clause again once the page is resident. (R143) -/
  | waveResumeFetch (w : Nat)
  /-- A memory-class long operation completes, writing its results and decrementing its flag. (R38) -/
  | longOpComplete (n : Nat)
  /-- A held store or write leaves hold-back D cycles after issue and is applied in its die's view or bank. (R226) -/
  | holdbackRelease (n : Nat)
  /-- A global write is applied at its home die cache, fixing its coherence place. (R227) -/
  | writeApplyHome (n : Nat)
  /-- Another die's view applies a write after every causally preceding write. (R238) -/
  | writeApplyRemote (n : Nat) (d : Nat)
  /-- A global atomic is performed lane by lane at the home die after hold-back. (R219) -/
  | atomicPerform (n : Nat)
  /-- The bank controller performs a scratchpad atomic after hold-back. (R199) -/
  | spadAtomicPerform (n : Nat)
  /-- An ldlk is performed at the bank D cycles after issue, taking or excluding each lane's lock. (R196) -/
  | ldlkPerform (n : Nat)
  /-- A lane waiting on a lock bit takes it when the bit is cleared. (R196) -/
  | lockWaitGrant (c : Nat) (l : Nat)
  /-- An stul is performed at the bank, writing and unlocking only for owners. (R198) -/
  | stulPerform (n : Nat)
  /-- A lock bit is cleared 4,096 cycles after it was set. (R197) -/
  | lockExpiry (c : Nat) (l : Nat)
  /-- A grow is performed D cycles after issue and places the granted waves. (R89) -/
  | growPerform (n : Nat)
  /-- An attach is performed D cycles after issue and writes its status. (R90) -/
  | attachPerform (n : Nat)
  /-- A detach is performed, leaving the barriers and ending the wave or making it loose. (R91) -/
  | detachPerform (n : Nat)
  /-- An end is performed D cycles after issue and the wave leaves its block. (R157) -/
  | endPerform (n : Nat)
  /-- A wave whose live mask became zero leaves its block D cycles after the killing instruction. (R85) -/
  | deadWaveLeave (n : Nat)
  /-- A bar or barrive arrival is performed D cycles after issue. (R94) -/
  | barrierArrive (n : Nat)
  /-- A parked split becomes ready once its condition has held for 4 cycles. (R77) -/
  | parkedSplitWake (w : Nat) (e : Nat)
  /-- The shrink request is cleared when the pressure ends. (R92) -/
  | shrinkRequestClear (k : Nat)
  /-- A block with no attached waves retires once its entries and held stores are done, freeing its allocations. (R69) -/
  | blockRetire (k : Nat)
  /-- A wave's count reaches 2^w and its next non-yield instruction traps with WATCHDOG. (R79) -/
  | watchdogExpiry (w : Nat)
  /-- A queued request enters its engine queue D cycles after issue and takes a sequence number. (R161) -/
  | engineRequestEnter (n : Nat)
  /-- A block-collective copy enters its queue D cycles after its last slice. (R172) -/
  | collectiveEnter (n : Nat)
  /-- An engine entry at its queue's head reads its descriptor and moves its elements. (R168) -/
  | engineEntryPerform (c : Nat) (q : Nat)
  /-- An engine write leaves the engine hold-back D cycles after it is made. (R178) -/
  | engineWriteRelease (n : Nat)
  /-- An engine entry completes, advancing the completed number, its flag and its batch. (R161) -/
  | engineEntryComplete (c : Nat) (q : Nat)
  /-- Queue-fence markers complete together once every entry ahead has completed. (R180) -/
  | qfenceComplete (n : Nat)
  /-- A reduction round forms when every cohort member has contributed, entering each contribution into qr. (R263) -/
  | roundForm (n : Nat)
  /-- A cbar arrival is performed D cycles after issue and counted in its core's generation. (R279) -/
  | cohortArrivalPerform (n : Nat)
  /-- A dummy core grants its array to the declarer's partnered operation. (R253) -/
  | arrayGrant (c : Nat)
  /-- A matrix operation finishes 16 cycles after its last occupied cycle. (R251) -/
  | arrayOpFinish (c : Nat)
  /-- A held matrix-state write is performed D cycles after issue or after the array finishes. (R247) -/
  | matrixWritePerform (n : Nat)
  /-- The context's pkr value changes D cycles after a pkset issues. (R208) -/
  | pkrContextUpdate (n : Nat)
  /-- A wpset or wpclr takes effect D cycles after issue. (R348) -/
  | watchpointUpdate (n : Nat)
  /-- An ending grant takes effect once every engine entry that resolved it has completed. (R213) -/
  | grantEnd (g : Nat) (x : Nat)
  /-- A launch is performed D cycles after issue: the record is read, checked and the grid enqueued. (R276) -/
  | launchPerform (n : Nat)
  /-- The scheduler places one block or pair from the queue the Draw chooses. (R272) -/
  | placementEvent (p : Nat)
  /-- The scheduler saves out a parked block to make room for a waiting one. (R275) -/
  | saveOut (k : Nat)
  /-- Once no wave is mid-issue the block drains its outstanding work. (R342) -/
  | preemptDraining (k : Nat)
  /-- Once nothing is outstanding the image is written through engine hold-back. (R342) -/
  | preemptWriting (k : Nat)
  /-- The image record is written and the block's allocations, grants and locks are freed. (R342) -/
  | preemptSaved (k : Nat)
  /-- A restored block is placed at its deal position and its waves resume. (R346) -/
  | restorePlacement (p : Nat)
  /-- After the 32-cycle stall the region resumes from its restore point. (R313) -/
  | rollbackResume (c : Nat) (seat : Option Nat)
  /-- A suspect core returns to healthy after 2^24 cycles of redundant execution without mismatch. (R327) -/
  | healthRecover (c : Nat)
  /-- Every 2^20 cycles all hotness counts are halved. (R289) -/
  | hotnessHalve
  /-- An entry without a survivor for 2^24 cycles becomes free. (R294) -/
  | candidateExpiry (d : Nat) (x : Nat)
  /-- A search context finishes running the candidate on a snapshot and compares it. (R295) -/
  | probationCompare (n : Nat)
  /-- A tag's audit finishes rerunning the original on the snapshot. (R303) -/
  | auditComplete (t : Nat)
  /-- A tag unresolved for 2^20 cycles has its audit raised to level 0. (R303) -/
  | auditEscalate (t : Nat)
  /-- Buffered items are appended to their deck when it has room. (R283) -/
  | deckAppend (n : Nat)
  /-- A wave's drawn items are released D cycles after its next dtake or sdwait. (R285) -/
  | deckHoldRelease (n : Nat)
  /-- Showdown reports quiescence when a deck set has no items present, held or in flight. (R285) -/
  | showdownQuiescence (p : Nat) (set : DWord)
  /-- A back-pressured frame write whose timeout expires is dropped and recorded. (R215) -/
  | ingressBackpressureTimeout (p : Nat) (x : Nat)
  /-- Host command 0x01 creates an accelerator context. (R355) -/
  | createContext (p : Nat)
  /-- Host command 0x02 launches a grid from a record. (R355) -/
  | launchGrid (p : Nat)
  /-- Host command 0x03 saves the named blocks of a context or grid. (R370) -/
  | save (p : Nat)
  /-- Host command 0x04 checks image records and queues their blocks for restore. (R378) -/
  | launchImage (p : Nat)
  /-- Once sent packets are acknowledged the key is swapped and waiting writes are sent. (R362) -/
  | streamDrainComplete (x : Nat)
  /-- A drain not finished within T clears the key and closes the stream. (R362) -/
  | streamDrainFail (x : Nat)
  /-- Host command 0x0D resets a partition. (R352) -/
  | resetPartition (p : Nat)
  /-- A command ring without progress for 4T makes the control pair reset the partition. (R352) -/
  | commandRingStall (p : Nat)
  /-- A request not accepted by shared hub logic within T is dropped and recorded. (R351) -/
  | sharedRequestTimeout (n : Nat)
  /-- A hub die idle for interval I gates its control cores. (R365) -/
  | hubDieGate (h : Nat)
  /-- A wake source ungates the hub die's control pair and a worker core. (R365) -/
  | hubDieUngate (h : Nat)
  /-- A buffered sequence-numbered event is written to the partition's event ring when room exists. (R367) -/
  | eventRingWrite (p : Nat)
  /-- A word in an instruction position whose opcode is a dash in the R26 map, or 0xFC in a body position, reaches issue and traps precisely with ILLEGAL_OPCODE. (R29) -/
  | illegalOpcode (w : Word)
  /-- A resolved provisional tag's journal walk and scrub finish, the tag and its snapshot are freed, and waiting settlements and entry freeing proceed. (R304) -/
  | walkAndScrubComplete (t : Nat)
  /-- The control core pages text in and installs a valid entry, or ends the grid. (R144) -/
  | textPageInstall (r : Nat) (pte : Option DWord)
  /-- A background scrub corrects single errors in idle bank cycles. (R185) -/
  | spadScrub (c : Nat) (r : Nat)
  /-- The scheduler posts a shrink request for a block under pressure. (R92) -/
  | shrinkRequestPost (k : Nat) (x : Nat)
  /-- A peer that resets or times out is marked gone and open rounds complete on the survivors. (R281) -/
  | peerGone (p : Nat) (e : Nat)
  /-- The debugger reads or writes a stopped wave's state through the control pair. (R350) -/
  | debugAccess (w : Nat) (x : DebugAccess)
  /-- The debugger resumes stopped waves. (R350) -/
  | debugResume (ws : List Nat)
  /-- The debugger lets one wave issue exactly one instruction. (R350) -/
  | debugStep (w : Nat)
  /-- The control pair invalidates translations on every core and waits for acknowledgements. (R206) -/
  | tlbinv (p : Nat) (asid : Option Nat) (va : Nat) (len : Nat) (pa : Nat) (pte : DWord)
  /-- A head grid becomes eligible once its leases are resident and pinned, or ends with LEASE_UNMAPPED. (R209) -/
  | gridEligible (g : Nat) (missing : Option Nat)
  /-- A pre-emption request is accepted and the block enters stopping. (R341) -/
  | preemptRequest (k : Nat) (r : Nat)
  /-- A strike report discards the region's last 24 cycles and starts a rollback stall. (R312) -/
  | strikeReport (c : Nat) (seat : Option Nat)
  /-- The control pair applies a new margin plan generation. (R331) -/
  | marginPlan (uncovered : List Nat)
  /-- A surviving candidate is installed in its entry in probation. (R291) -/
  | candidateInstall (d : Nat) (x : Nat) (cand : List Word) (guards : List (Nat × Word))
  /-- An admitted requester's write lands in an ingress slot and the gate tracks its granules. (R357) -/
  | ingressFrameWrite (p : Nat) (req : Nat) (off : Nat) (data : Payload)
  /-- A host doorbell write announces the command ring to a worker core. (R355) -/
  | doorbellWrite (p : Nat) (records : List (List Byte))
  /-- Host command 0x05 opens an ingress window and writes its status granule. (R356) -/
  | openIngressWindow (p : Nat)
  /-- Host command 0x06 drops unlanded frames and stops admitting writes. (R357) -/
  | closeIngressWindow (p : Nat)
  /-- Host command 0x07 sets a deck's world and capacity. (R282) -/
  | configureDeck (p : Nat)
  /-- Host command 0x08 stops a stream and starts its drain for rekeying. (R362) -/
  | keyStream (p : Nat)
  /-- Host command 0x09 attests a peer and marks its roster entry present. (R361) -/
  | admitPeer (p : Nat) (report : PeerReport)
  /-- Host command 0x0A removes a roster entry. (R358) -/
  | removePeer (p : Nat)
  /-- Host command 0x0B sets the Trump enable bit and P. (R309) -/
  | trumpControls (p : Nat)
  /-- Host command 0x0C sets a wake filter entry and the idle interval. (R365) -/
  | wakeFilterAndIdleInterval (p : Nat)
  /-- A management command forms a partition of whole compute dies. (R351) -/
  | partitionForm (dies : List Nat) (order : FormOrder)
  /-- A host or peer write arrives over a port and is applied in arrival order. (R240) -/
  | hostInboundWrite (p : Nat) (pa : Nat) (data : List Byte) (bad : Bool)
  /-- A peer link flit arrives with link-level retry. (R358) -/
  | peerFlit (x : Nat) (ok : Bool) (head : FlitHead) (body : PeerBody)
  /-- A flit failing after the retry limit makes the link narrow or fail. (R358) -/
  | linkRetryFail (x : Nat) (fails : Bool)
  /-- An Ethernet packet arrives and is authenticated under its security association. (R359) -/
  | ethernetFrameReceive (h : Nat) (x : Nat) (auth : Bool) (frame : EthFrame)
  /-- A storage read completes, poisoning data units that fail their check. (R359) -/
  | nvmeReadComplete (x : Nat) (pa : Nat) (data : List Byte) (ok : Bool)
  /-- An SPDM request over the DOE mailbox returns a signed measurement report. (R361) -/
  | attestationRequest (p : Nat)
  /-- The control pair halves disagree, stop, and the other hub die's pair takes over. (R353) -/
  | controlMismatch (h : Nat)
  /-- A management command dissolves a partition and frees its compute dies and their fixed cmap, hmap and ncore values. (R351) -/
  | partitionDissolve (p : Nat)
  /-- A hub die is reset after every partition homed there is reset, returning its stopped control pair to service. (R353) -/
  | hubDieReset (h : Nat)
  /-- A debugger attaches to or detaches from a context through the control pair, which switches brk and watchpoint hits between trapping and stopping the stop set. (R340) -/
  | debuggerAttach (x : Nat) (on : Bool)
  /-- A core is reset, which sets rbk, the spstat counts and the issue rotation pointers to their reset values. (R186) -/
  | coreReset (c : Nat)
  /-- A PCIe function is assigned to a confidential guest through TDISP, or released from it, which restricts the commands it accepts to that guest's world. (R360) -/
  | tdispAssign (p : Nat) (world : Option Nat)
  deriving DecidableEq, Repr

end Sys2Proof
end

