-- ==== Sys2Proof/Machine/State.lean ====
section
/-! DEFINITION. The state of the package as plain data: waves, blocks, cores, dies, hub dies, memory, grids,
contexts and partitions, with every register the chapters name, and the machine right after package reset.
Keys: a wave, a block, a grid, a context and a partition are named by numbers that the model hands out; a core is
named die × 64 + core (R367). -/

namespace Sys2Proof.Machine

/-- A finite map by number: keys strictly rising. -/
abbrev Map (α : Type) := List (Nat × α)

/-- A tag state (R319): clean, or provisional or poison with a 12-bit tag. -/
inductive Tag where
  | clean
  | prov (t : BitVec 12)
  | poison (t : BitVec 12)
  deriving DecidableEq, Repr, Inhabited

/-- A uniform register or one lane's value, with its tag state (R100). -/
structure TWord where
  val : Word := 0
  tag : Tag := .clean
  deriving DecidableEq, Repr

/-- A value of up to 64 bits with its tag state. -/
structure TVal where
  val : DWord := 0
  tag : Tag := .clean
  deriving DecidableEq, Repr

/-- A varying register: 64 lane values and the tags of the lanes that are not clean (R100). -/
structure VReg where
  vals : List Word := []
  tags : Map Tag := []
  deriving DecidableEq, Repr

/-- An affine register: 64-bit base, 32-bit signed stride, one tag state (R100). -/
structure AReg where
  base : DWord := 0
  stride : Word := 0
  tag : Tag := .clean
  deriving DecidableEq, Repr

/-- A predicate register: one bit per lane and the tags of the bits that are not clean (R100). -/
structure PReg where
  bits : LaneMask := 0
  tags : Map Tag := []
  deriving DecidableEq, Repr

/-- Causes of traps, block ends, grid ends and records (R333). -/
inductive Cause where
  | illegalOpcode | illegalField | illegalOperand | illegalClause | illegalClass | uniformMask | hazard
  | illegalTarget | illegalType | illegalIssue | looseWave
  | demoteDivergent | affineOverflow | stackOverflow | badReturn | barrierAhead | watchdog | signature | fetchPerm
  | memAlign | accessPerm | keyPerm | world | spadAlign | spadRange | copyAlign | ingress
  | formatSlot | tileConfig | tileShape | illegalCohort | illegalDeck
  | poison | redundancyMismatch | trap | brk | watchpoint
  | leaseViolation | dataFault | copyDesc | copyRange | mapGrant | mdrainMismatch | cohortMismatch | doubleTrap
  | fetchUnmapped | leaseUnmapped
  | strikeRollback | poisonKilled | poisonEgress | trumpCondemned | trumpWithdrawn | pteMalformed | memUncorrected
  | arrayUncorrected | spadUncorrected | spadBankFailed | spadSecondBank | portPoison | ingressCut | ingressDrop
  | rosterLost | imageCheck | controlMismatch
  | bringUp
  | kind (k : Nat)
  deriving DecidableEq, Repr

/-- A register of a wave: varying registers by their logical stack index (R106). -/
inductive RegRef where
  | v (n : Nat) | s (n : Nat) | a (n : Nat) | p (n : Nat) | acc (n : Nat)
  deriving DecidableEq, Repr

/-- Where a long operation writes its results. -/
inductive Dst where
  | none | v (n : Nat) | s (n : Nat) | p (n : Nat)
  deriving DecidableEq, Repr

/-- One lane's result. -/
structure LaneVal where
  lane : Nat
  val : DWord
  tag : Tag := .clean
  deriving DecidableEq, Repr

/-- Who performed a release and how far it reaches (R224, R235): heads a release sequence (R236). -/
structure Head where
  wave : Option Nat := none
  block : Option Nat := none
  die : Nat := 0
  part : Nat := 0
  host : Bool := false
  gate : Bool := false
  scope : Nat := 3
  set : Nat := 7
  clock : List Nat := []
  deriving DecidableEq, Repr

/-- One lane of a load in flight: its address, the cycle at which it takes its value, the value once taken, and the
absorptions of the tags that met in it, until they are recorded (R300). -/
structure LoadLane where
  lane : Nat
  addr : Nat
  moment : Nat
  got : Option TVal := none
  heads : List Head := []
  pairs : List (Nat × Nat) := []
  deriving DecidableEq, Repr

/-- What a long operation of a wave still has to do (R38, R39). -/
inductive OpKind where
  | result (vals : List (LaneVal × BitVec 9))
  | gload (lanes : List LoadLane)
  | sload (block : Nat) (lanes : List LoadLane)
  | answered (vals : Option (List LaneVal)) (sticky : BitVec 9) (heads : List Head)
  | locks (todo : List (Nat × Nat)) (taken : List Nat) (vals : List LaneVal) (heads : List Head)
  | engine (vals : List (Dst × LaneVal)) (sticky : BitVec 9)
  deriving DecidableEq, Repr

/-- A long operation issued and not completed: its flag, its destination set (R40), the queue it enters, the storage
classes it reads as a load or returning atomic (R232, R233), its acquire, whether its performance sets `scope_miss` because
its class is not in its storage set (R225), and the cycle from which it may complete. -/
structure LongOp where
  id : Nat
  flag : Nat
  dests : List RegRef
  dst : Dst
  wide : Bool := false
  queue : Option Nat := none
  reads : Nat := 0
  acquire : Option (Nat × Nat) := none
  miss : Bool := false
  due : Nat := 0
  kind : OpKind
  deriving DecidableEq, Repr

/-- A fetched clause: the address of its header and its words, the header first (R143). -/
structure Clause where
  pc : Nat
  words : List Word
  deriving DecidableEq, Repr

/-- The condition of a parked split (R74); that of `cbar` names the held effect of its arrival (R279). -/
inductive Cond where
  | batches (n : Nat)
  | flags (m : BitVec 12)
  | delay (cycle : Nat)
  | generation (b : Nat) (g : Word)
  | cohort (part idx arrival : Nat) (gen : Option Nat) (dst : Option Nat)
  | grid (h : Nat) (dst : Option Nat)
  | window (base n : Nat) (dst : Option Nat)
  | decks (set : DWord) (after : Nat) (reported : Bool)
  deriving DecidableEq, Repr

/-- A parked split: its condition, where it goes on, whether a run starts there (R288), and the cycle from which it may
resume once the condition has held (R76, R77). -/
structure Park where
  cond : Cond
  target : Option Nat := none
  len : Nat := 1
  runs : Bool := false
  readyAt : Option Nat := none
  deriving DecidableEq, Repr

/-- A split running the words of a Trump entry (R293, R298): the words still to issue, the address of the `sigck`
at which it stops, the provisional tag of the execution if it has one, and the original words of the region. -/
structure TrumpRun where
  entry : Nat
  words : List Word
  stop : Nat
  tag : Option Nat := none
  original : List Word := []
  deriving DecidableEq, Repr

/-- A split (R80): table entry, active mask, mode, omode, the word it stands at, its clause, its run start (R288). -/
structure Split where
  entry : Nat := 0
  mask : LaneMask := BitVec.allOnes 64
  mode : BitVec 24 := 0
  omode : Byte := 0x13
  pc : Nat := 0
  clause : Option Clause := none
  opened : Bool := false
  resume : Option Nat := none
  start : Nat := 0
  park : Option Park := none
  runStart : Nat := 0
  trump : Option TrumpRun := none
  sampled : Option Nat := none
  deriving DecidableEq, Repr

/-- The trap frame (R335). -/
structure Frame where
  splits : List Split := []
  deferred : List Split := []
  mask : LaneMask := 0
  mode : BitVec 24 := 0
  omode : Byte := 0x13
  sig : Word := 0
  entry : Nat := 0
  header : Nat := 0
  word : Nat := 0
  len : Nat := 1
  runStart : Nat := 0
  deriving DecidableEq, Repr

/-- Whether a wave runs (R66, R337, R342, R349); one that is being saved is running, stopped or to step once when the save
is over. -/
inductive RunState where
  | run | debug | oneStep | saving | savingDebug | savingStep | faulted | leaving
  deriving DecidableEq, Repr, Inhabited

/-- An ordering fence or acquire point in progress (R232 to R234). -/
structure Fence where
  waitOps : List Nat := []
  waitHeld : List Nat := []
  set : Nat := 0
  scope : Nat := 3
  acquire : Bool := false
  blocksM : Bool := false
  full : Bool := false
  deriving DecidableEq, Repr

/-- An outstanding text request (R144). -/
structure FetchReq where
  seq : Nat
  page : Nat
  filed : Bool := false
  deriving DecidableEq, Repr

/-- A wave (R66, R84, R100, R106): its place, registers, window, splits, flags, signature, trap registers, batches,
long operations and ordering state. -/
structure Wave where
  core : Nat := 0
  seat : Nat := 0
  slot : Nat := 0
  grid : Nat := 0
  ctx : Nat := 0
  part : Nat := 0
  block : Option Nat := none
  wid : Nat := 0
  v : Map VReg := []
  s : List TWord := []
  a : List AReg := []
  p : List PReg := []
  wbase : Nat := 0
  lo : Nat := 0
  resident : Nat := 64
  spills : Word := 0
  fills : Word := 0
  spillBase : Nat := 0
  spillTop : Nat := 0
  spillArea : Option Nat := none
  spillRecs : Nat := 0
  live : LaneMask := BitVec.allOnes 64
  killTags : Map (BitVec 12) := []
  splits : List Split := []
  deferred : List Split := []
  flags : List Nat := []
  wstat : BitVec 9 := 0
  sig : Word := 0
  wdog : Nat := 0
  trapc : BitVec 17 := 0
  trappc : Nat := 0
  trapval : Word := 0
  frame : Option Frame := none
  skid : Word := 0
  timeHi : Word := 0
  pkr : DWord := 0
  cmapix : BitVec 9 := 0
  batchNo : Word := 0
  openBatch : List Nat := []
  sealed : List (List Nat) := []
  drawn : Map Nat := []
  ops : List LongOp := []
  fetch : Option FetchReq := none
  nextIssue : Nat := 0
  waitTag : Option Nat := none
  waitHeld : Option Nat := none
  state : RunState := .run
  fences : List Fence := []
  clock : List Nat := []
  wrote : List Nat := []
  engineWrote : List Nat := []
  relClock : List Nat := []
  released : List Nat := []
  readHeads : List (Nat × Head) := []
  pendingHit : Option (Nat × Nat × Nat) := none
  skidFrom : Option Nat := none
  fenceHeads : List Head := []
  deriving DecidableEq, Repr, Inhabited

/-- One of a block's barriers (R93). -/
structure Barrier where
  g : Word := 0
  m : Nat := 0
  c : Nat := 0
  j : Nat := 0
  cn : Nat := 0
  deriving DecidableEq, Repr

/-- A member wave of a block with its F and E for the four barriers (R93). -/
structure Member where
  f : List Word := []
  e : List Word := []
  deriving DecidableEq, Repr

/-- An accumulator element (R62): 96 bits, the lost indicator, a tag state. -/
structure AccElem where
  bits : BitVec 96 := 0
  lost : Bool := false
  tag : Tag := .clean
  deriving DecidableEq, Repr

/-- A watchpoint (R348). -/
structure Watch where
  addr : Nat
  len : Nat
  spad : Bool
  onWrite : Bool
  onRead : Bool
  cohort : Option Nat := none
  deriving DecidableEq, Repr

/-- A copy request (R165). -/
structure CopyReq where
  desc : Nat
  coord : List Nat
  layout : List Word
  stream : Bool
  halo : Bool
  length : Nat
  pkr : DWord := 0
  deriving DecidableEq, Repr

/-- An open block-collective copy (R172). -/
structure Collective where
  id : Nat
  out : Bool
  count : Nat
  counted : List Nat
  slices : List (Nat × Nat × Nat × CopyReq)
  empties : List Nat := []
  clock : List Nat := []
  deriving DecidableEq, Repr

/-- The kind of placement of a block (R252, R344). -/
inductive PlaceKind where
  | single | declarer | dummy
  deriving DecidableEq, Repr, Inhabited

/-- Drain states of a pre-empted block that is resident (R342); in state saved it is an image. -/
inductive Drain where
  | stopping | draining | writing
  deriving DecidableEq, Repr

/-- A pre-emption request in progress (R341): reason 0 save-out, 1 command, 2 migration; the save commands it counts
for; while its image is written, the image's number, body address and length. -/
structure Preempt where
  drain : Drain
  reason : Nat
  cmds : List Nat := []
  image : Option (Nat × Nat × Nat) := none
  deriving DecidableEq, Repr

/-- A block resident on a core (R68, R86, R93, R182, R246); `saveAgain` is the cycle from which a block whose image found
no room may be chosen for a save-out again (R78). -/
structure Block where
  grid : Nat := 0
  index : Nat := 0
  core : Nat := 0
  kind : PlaceKind := .single
  partner : Option Nat := none
  order : Nat := 0
  maxWaves : Nat := 1
  members : Map Member := []
  spadBase : Nat := 0
  spadLen : Nat := 0
  tileLen : Nat := 0
  accs : Nat := 0
  vregs : Nat := 0
  barriers : List Barrier := []
  shrink : Nat := 0
  spad : List Host.Cell := []
  spadTags : Map Tag := []
  spadHeads : Map (List Head) := []
  tile : List Host.Cell := []
  tileTags : Map Tag := []
  tconf : Map Word := []
  twind : Map Word := []
  acc : Map AccElem := []
  hist : Map Nat := []
  histTag : Tag := .clean
  watch : Map Watch := []
  collectives : Map Collective := []
  preempt : Option Preempt := none
  saveAgain : Nat := 0
  fault : Bool := false
  retired : Bool := false
  redundant : Option Nat := none
  rounds : List Nat := []
  deriving DecidableEq, Repr, Inhabited

/-- One lane's store: address and data. -/
structure StoreLane where
  lane : Nat
  addr : Nat
  val : DWord
  tag : Tag := .clean
  deriving DecidableEq, Repr

/-- The operation of an atomic (R199, R219). -/
inductive AtomOp where
  | add (sat signed : Bool) | min (signed : Bool) | max (signed : Bool) | xchg | cas | and | or
  deriving DecidableEq, Repr

/-- One lane of an atomic: address, data b and compare value c. -/
structure AtomLane where
  lane : Nat
  addr : Nat
  b : TVal
  c : TVal := {}
  deriving DecidableEq, Repr

/-- A held write to a block's matrix state (R247). -/
inductive MatrixWrite where
  | tconf (t : Nat) (w : Word)
  | twind (t : Nat) (w : Word)
  | tile (bytes : List Host.Cell) (tags : List (Nat × Tag))
  | accClear (t : Nat)
  | acc (elems : List (Nat × AccElem)) (part : Nat)
  | histAdd (bins : List Nat) (tag : Tag)
  | histClear
  deriving DecidableEq, Repr

/-- What an engine write goes to (R168, R212, R264). -/
inductive EngineDest where
  | memory
  | spad (block : Nat)
  | tile (block : Nat)
  | acc (block : Nat)
  | window (wave base : Nat)
  deriving DecidableEq, Repr

/-- What an engine writes to one granule, lane word or accumulator element: its bytes and their tag. Addresses are
physical in memory and offsets in an array. -/
structure EngineWrite where
  dest : EngineDest
  cells : List (Nat × Byte)
  tag : Tag := .clean
  deriving DecidableEq, Repr

/-- The work of an engine entry (R160). -/
inductive Work where
  | copy (out : Bool) (reqs : List (Nat × CopyReq))
  | gather (size offset : Nat) (lanes : List (Nat × Nat))
  | mma (window : Bool) (slot : Word) (acc ta tb : Nat) (ca cb wa : Word)
  | marker (group : Nat)
  | drain (part round : Nat)
  | take (deck : Nat) (p v : Nat) (lanes : List Nat)
  deriving DecidableEq, Repr

/-- How far an entry has come (R161, R251). -/
inductive Stage where
  | waiting | started (at_ : Nat) | releasing
  deriving DecidableEq, Repr

/-- An entry of an engine queue (R160 to R163): the issuing wave's context, ASID and `pkr` copy as they stood at
issue (R211), the operations that complete with it, its state, and the map grants it has resolved (R213). -/
structure Entry where
  id : Nat
  num : Nat := 0
  wave : Nat
  block : Option Nat
  grid : Nat
  ctx : Nat
  pkr : DWord
  clock : List Nat := []
  ops : List (Nat × Nat) := []
  work : Work
  stage : Stage := .waiting
  ready : Nat := 0
  sticky : BitVec 9 := 0
  results : List (Dst × LaneVal) := []
  gain : List Nat := []
  product : List (Nat × List (Nat × AccElem)) := []
  fail : Option (Cause × Nat) := none
  malformed : Bool := false
  grants : List Nat := []
  deriving DecidableEq, Repr

/-- A contribution to a reduction round (R262, R263, R280): an accumulator's rows (`drain`) or lane values; the entry
it becomes; whether it has left its core; the round it has joined and whether its entry has entered `qr`. -/
structure Contribution where
  entry : Entry
  part : Nat
  cohort : Nat
  core : Nat
  drain : Bool
  left : Bool := false
  slot : Word := 0
  ctl : Word := 0
  dest : Nat := 0
  pitch : Nat := 0
  elems : List (Nat × AccElem) := []
  lanes : List LaneVal := []
  dst : Nat := 0
  entered : Bool := false
  deriving DecidableEq, Repr

/-- An event or error record (R330, R367). `core` is compute die × 64 + physical core, with 63 for no core. -/
structure Event where
  src : Nat
  seq : Nat
  time : Nat
  cause : Cause
  severity : Nat := 0
  region : Nat := 0
  tag : Tag := .clean
  addr : Nat := 0
  grid : Nat := 0
  ctx : Nat := 0
  asid : Nat := 0
  core : Option Nat := none
  slot : Option (Nat × Nat) := none
  detail : Nat := 0
  extra : List Nat := []
  deriving DecidableEq, Repr

/-- A release carried by a store or atomic (R231). -/
structure Release where
  scope : Nat
  set : Nat
  deriving DecidableEq, Repr

/-- An effect that leaves its seat D cycles after issue (R88, R226, R316). -/
inductive Effect where
  | gstore (width : Nat) (lanes : List StoreLane) (rel : Option Release) (clock : List Nat)
  | sstore (width : Nat) (lanes : List StoreLane)
  | vstore (bytes : List (Nat × Byte)) (tags : List (Nat × Tag)) (clock : List Nat)
  | gatomic (width : Nat) (op : AtomOp) (lanes : List AtomLane) (rel acq : Option Release) (miss : Bool)
      (clock : List Nat)
  | satomic (width : Nat) (op : AtomOp) (lanes : List AtomLane) (rel acq : Option Release) (miss : Bool)
  | ldlk (width : Nat) (lanes : List (Nat × Nat))
  | stul (width : Nat) (lanes : List StoreLane)
  | matrix (w : MatrixWrite)
  | grow (n : Nat) (loose : Bool) (pc : Nat) (dst : Option Nat) (s : List TWord) (a : List AReg) (clock : List Nat)
  | attach (index : Nat) (dst : Option Nat)
  | detach (loose : Bool)
  | finish
  | dead
  | arrive (b : Nat)
  | arriveTo (b : Nat) (dst : Option Nat)
  | enter (q : Nat) (e : Entry)
  | collective (q : Nat) (id : Nat)
  | markers (set : Byte) (group : Nat)
  | launch (addr q : Nat) (dst : Nat)
  | cohort (idx : Nat)
  | contribute (part idx id : Nat)
  | deckPut (items : List (Nat × List TWord))
  | deckRelease (items : Map Nat)
  | grant (index : Nat) (word : Word) (wbase : Nat)
  | pkrContext (val : DWord)
  | watch (set : List (Nat × Watch)) (clear : Byte)
  | relFence (scope set : Nat)
  | record (part : Nat) (e : Event)
  | splitRecords (first n : Nat)
  | suspect (core : Nat)
  | kills (grid : Nat) (part : Nat) (n : Nat) (e : Event)
  | stop (block : Option Nat) (part : Nat) (e : Event)
  | stopSet (block : Option Nat) (cores : List Nat) (ctx : Nat)
  | engine (entry : Nat) (queue : Nat) (ws : List EngineWrite)
  deriving DecidableEq, Repr

/-- A held effect: when it issued and when it may leave, the wave (or engine) it comes from. -/
structure Held where
  id : Nat
  issued : Nat
  due : Nat
  core : Nat
  seat : Option Nat
  wave : Nat
  block : Option Nat := none
  eff : Effect
  op : Option Nat := none
  deriving DecidableEq, Repr

/-- A write to one granule on its way from the view of its die to its home and to the other views (R227, R238); `whole`
says that it writes all of the granule, `rmw` that it is an atomic's (R236); at its home, the bytes that took only the
granule's new tag state and the release sequences of each byte (R217, R236); `twin` is the same store's write to the
other half of the 64-byte line (R146). -/
structure Flight where
  id : Nat
  bytes : List (Nat × Byte)
  tag : Tag
  whole : Bool
  src : Nat
  seq : Nat
  clock : List Nat
  home : Nat
  pos : Option Nat := none
  todo : List Nat := []
  heads : List Head := []
  wave : Option Nat := none
  rmw : Bool := false
  part : Nat := 0
  homeAt : Nat := 0
  viewAt : Map Nat := []
  spread : List Nat := []
  homeHeads : Map (List Head) := []
  twin : Option Nat := none
  deriving DecidableEq, Repr

/-- A byte at which a die's view differs from the home order: the value it shows, the place of that value in the
coherence order (none while it has no place), and the release sequences it belongs to (R227, R228, R236). -/
structure Lag where
  die : Nat
  addr : Nat
  byte : Byte
  tag : Tag
  pos : Option Nat
  flight : Nat
  heads : List Head
  deriving DecidableEq, Repr

/-- A lock bit: its owner (wave and lane) while it is set, the cycle in which it was set, and the requests that wait
for it in the order they reached the bank: wave, operation, lane (R196). -/
structure Lock where
  owner : Option (Nat × Nat) := none
  at_ : Nat := 0
  waiting : List (Nat × Nat × Nat) := []
  deriving DecidableEq, Repr

/-- A cached translation (R206). -/
structure TlbEntry where
  part : Nat
  asid : Nat
  page : Nat
  level : Nat
  pte : DWord
  deriving DecidableEq, Repr

/-- A line of the L1 code (R142, R146). -/
structure CodeLine where
  addr : Nat
  words : List Word
  at_ : Nat
  deriving DecidableEq, Repr

/-- An engine queue (R160 to R163). -/
structure Queue where
  entries : List Entry := []
  issued : List (Nat × Option Nat) := []
  next : DWord := 0
  completed : DWord := 0
  clock : List Nat := []
  deriving DecidableEq, Repr

/-- A matrix array (R251, R253). -/
structure MatrixArray where
  busy : Option Nat := none
  until_ : Nat := 0
  slaved : Bool := false
  asked : Option Nat := none
  turn : Bool := false
  deriving DecidableEq, Repr

/-- What a search context runs (R73, R295, R303): the audit of a tag or the comparison of a trial, the registers as they
stand, the lanes left out, whether it trapped, the words still to issue, the next cycle it may issue in. -/
structure SearchRun where
  audit : Bool
  id : Nat
  wave : Wave
  left : LaneMask := 0
  trapped : Bool := false
  words : List Word
  next : Nat := 0
  deriving DecidableEq, Repr

/-- A seat's issue state (R70, R72, R73, R119): the rotation pointers of V, SA, M and Q, the cycle in which the V pipes
last chose with the pointer as it stood before, and the two search contexts. -/
structure Seat where
  ptr : List Nat := [17, 17, 17, 17]
  vFrom : Nat × Nat := (0, 17)
  free : List Nat := [0, 0, 0, 0, 0]
  stall : Option Nat := none
  restore : Nat := 0
  search : List (Option SearchRun) := [none, none]
  deriving DecidableEq, Repr

/-- Health of a core (R327). -/
inductive Health where
  | healthy | suspect | quarantined
  deriving DecidableEq, Repr

/-- A core (R66, R160, R183 to R186, R196, R206, R287, R315, R327). A scratchpad error is (bank, 4 × row + byte lane,
pattern), a correction (bank, row, cycle); `healthAt` counts the cycles of redundant execution without a mismatch.
Log entry 1 (DESIGN CHOICE). -/
structure Core where
  health : Health := .healthy
  healthAt : Nat := 0
  rbk : Word := 0
  rollbacks : List (Nat × Nat) := []
  failed : Option Nat := none
  second : Bool := false
  corrected : Nat := 0
  fixes : List (Nat × Nat × Nat) := []
  spadErrors : List (Nat × Nat × Byte) := []
  locks : Map Lock := []
  tlb : List TlbEntry := []
  code : List CodeLine := []
  queues : List Queue := []
  array : MatrixArray := {}
  seats : List Seat := []
  seatTurn : Nat := 0
  hot : List (Nat × Nat) := []
  samples : Map Nat := []
  stall : Option Nat := none
  restore : Nat := 0
  deriving DecidableEq, Repr

/-- A sample of a region's live-ins (R290), a snapshot (R295, R299): the registers and live mask it is evaluated on,
the split's mask, mode and omode, the block index, and the registers a provisional execution has produced. -/
structure Snapshot where
  region : Nat
  wave : Wave
  split : Split
  bid : Nat := 0
  outs : Wave := {}
  deriving DecidableEq, Repr

/-- States of a Trump entry (R294). -/
inductive TrumpState where
  | free | candidate | probation | promoted | withdrawn
  deriving DecidableEq, Repr

/-- A Trump entry (R292), with the words of the region and of the candidate, and the lines the region covers. -/
structure TrumpEntry where
  state : TrumpState := .free
  cls : Nat := 0
  region : Nat := 0
  original : List Word := []
  lines : List Nat := []
  candidate : List Word := []
  origHash : Word := 0
  candSig : Word := 0
  mode : BitVec 24 := 0
  omode : Byte := 0
  guards : List (Nat × Word) := []
  classSet : List Byte := []
  liveIns : List Byte := []
  liveOuts : List Byte := []
  agreeing : Nat := 0
  unresolved : Nat := 0
  at_ : Nat := 0
  writesUniform : Bool := false
  deriving DecidableEq, Repr

/-- A probation comparison (R295): its snapshot, and whether the original has reached its `sigck`. -/
structure Trial where
  id : Nat
  die : Nat
  entry : Nat
  snap : Snapshot
  done : Bool := false
  deriving DecidableEq, Repr

/-- A compute die: its fuse map, home of Trump entries (R4, R271, R287, R298). Log entry 1 (DESIGN CHOICE). -/
structure Die where
  fuses : BitVec 36 := BitVec.allOnes 36
  trump : List TrumpEntry := []
  barred : List (Nat × List Nat) := []
  gen : Word := 0
  samples : List Snapshot := []
  trials : List Trial := []
  writeSeq : Nat := 0
  hotAt : Nat := 0
  deriving DecidableEq, Repr

/-- A run of a journal (R301): storage space, owner, first granule, count. -/
structure Run where
  space : Nat
  owner : Nat
  first : Nat
  count : Nat
  deriving DecidableEq, Repr

/-- How a tag was resolved (R304, R305). -/
inductive Resolution where
  | settled | condemned
  deriving DecidableEq, Repr

/-- A provisional tag in use (R299 to R305). -/
structure ProvTag where
  part : Nat
  die : Nat
  entry : Nat
  snap : Snapshot
  issued : Nat
  absorbed : List Nat := []
  journal : List Run := []
  passed : Bool := false
  resolved : Option Resolution := none
  level : Option Nat := none
  due : Nat := 0
  deriving DecidableEq, Repr

/-- A launch record (R268). -/
structure LaunchRec where
  entry : Nat := 0
  handler : Nat := 0
  size : Nat := 1
  waves : Nat := 1
  maxWaves : Nat := 1
  stack : Nat := 64
  spad : Nat := 0
  tile : Nat := 0
  accs : Nat := 0
  level : Nat := 32
  tickets : Nat := 16
  confine : Bool := false
  search : Nat := 0
  trapPolicy : Bool := false
  coreDeal : Bool := false
  partnered : Bool := false
  idempotent : Bool := false
  watchdog : Nat := 26
  lines : Nat := 4
  world : Nat := 0
  cohort : Nat := 0
  decks : DWord := 0
  cohorts : Nat := 0
  spillBase : Nat := 0
  spillBytes : Nat := 0
  spillAreas : Nat := 0
  slots : List Word := []
  leases : List (Nat × Nat) := []
  deriving DecidableEq, Repr, Inhabited

/-- Array kinds of a map grant (R213). -/
inductive GrantArray where
  | spad | window (wave : Nat) (base : Nat) | tile | acc
  deriving DecidableEq, Repr

/-- A map grant (R213). -/
structure Grant where
  block : Nat
  write : Bool
  arr : GrantArray
  ending : Bool := false
  deriving DecidableEq, Repr

/-- A grid (R272, R277). `todo` counts the blocks dealt so far; `again` lists discarded blocks to place again (R341). -/
structure Grid where
  handle : Nat := 0
  part : Nat := 0
  ctx : Nat := 0
  queue : Nat := 0
  launch : LaunchRec := {}
  state : Nat := 0
  eligible : Bool := false
  nextBlock : Nat := 0
  position : Nat := 0
  again : List Nat := []
  saved : Nat := 0
  error : Bool := false
  kills : Nat := 0
  killLanes : LaneMask := 0
  grants : Map Grant := []
  cohorts : List Nat := []
  areas : List Nat := []
  clock : List Nat := []
  doneClock : List Nat := []
  enqueued : Nat := 0
  deriving DecidableEq, Repr

/-- A context (R205, R208, R355, R366). -/
structure Context where
  part : Nat := 0
  asid : Nat := 0
  world : Nat := 0
  root : Nat := 0
  pkr : DWord := 0
  saveBase : Nat := 0
  saveLen : Nat := 0
  saveNext : Nat := 0
  stable : List Word := []
  debugger : Bool := false
  deriving DecidableEq, Repr

/-- An image of a saved block (R343, R344): the block, its waves, the record's fields. -/
structure Image where
  ctx : Nat
  bid : Nat := 0
  record : Nat
  body : Nat
  bytes : Nat
  seq : Nat
  block : Block
  waves : List (Nat × Wave)
  reason : Nat
  need : Nat
  crc : Word
  stable : List Word
  launched : Bool := false
  deriving DecidableEq, Repr

/-- What the body of an image of body layout 1 holds (R343, R366). -/
structure Saved where
  launch : LaunchRec
  stable : List Word
  block : Block
  waves : List Wave
  deriving DecidableEq, Repr, Inhabited

/-- FREE: what the bytes of an image body spell that this device did not write or that it has launched already; R343 gives
no layout. Log entry 11 (DESIGN CHOICE). -/
opaque Config.imageContents : List Byte → Saved

/-- A peer's contribution to a reduction round (R263, R280). -/
structure PeerPart where
  drain : Bool
  slot : Word := 0
  ctl : Word := 0
  elems : List (Nat × AccElem) := []
  lanes : List LaneVal := []
  deriving DecidableEq, Repr

/-- A cohort entry (R270): its member cores in logical order, its peers, the grids that hold it; the arrivals performed
on each member core and the generations released (R279), the clocks of a generation's arrivals; the contributions whose
rounds have not formed, in issue order, and the rounds formed of each kind (R263, R280); for each peer the generation of
its next arrival, and the contributions it has made to rounds not formed, oldest first; for a peer that returned, the
first generation and rounds it counts for; and the generations (kind 0) and rounds (kinds 1 and 2) that lost a peer, with
the tag of the roster record (R281). -/
structure Cohort where
  members : List Nat := []
  peers : BitVec 16 := 0
  holders : List Nat := []
  arrivals : Map Nat := []
  released : Nat := 0
  relClocks : Map (List Nat) := []
  pending : List Contribution := []
  formedDrain : Nat := 0
  formedRed : Nat := 0
  peerArrivals : Map Nat := []
  peerItems : List (Nat × PeerPart) := []
  since : Map (Nat × Nat × Nat) := []
  lost : List (Nat × Nat × BitVec 12) := []
  deriving DecidableEq, Repr

/-- A reduction round that has formed (R263, R264, R280): its contributions in logical core order, those of its peers in
roster order, the tag of a lost peer, whether the contributions differ, and, once the root has performed it, its flags and
the lane results. -/
structure Round where
  drain : Bool
  items : List Contribution
  peers : List PeerPart := []
  lost : Option (BitVec 12) := none
  mismatch : Bool := false
  performed : Bool := false
  sticky : BitVec 9 := 0
  due : Nat := 0
  deriving DecidableEq, Repr

/-- A roster entry (R358). -/
structure Roster where
  link : Nat := 0
  identity : Nat := 0
  world : Nat := 0
  measures : List Nat := []
  present : Bool := false
  gone : Bool := false
  deriving DecidableEq, Repr

/-- An item of a deck: four words, and the clock of its append (R283, R284). -/
structure Item where
  words : List TWord
  clock : List Nat := []
  deriving DecidableEq, Repr

/-- A deck (R282, R285): its world, its capacity 2^c, the items present, the number held; `flying` holds the groups of
items in the dies' buffers, oldest first: number, die, items. -/
structure Deck where
  world : Nat := 0
  cap : Nat := 0
  items : List Item := []
  heldItems : Nat := 0
  flying : List (Nat × Nat × List Item) := []
  deriving DecidableEq, Repr

/-- The gate's record of a slot (R357): the frame it holds (sequence number, payload length), the bytes that have landed
by their offset in the slot; over a committed frame, the bytes of the next one with their tags until its header is whole. -/
structure SlotState where
  frame : Option (Nat × Nat) := none
  bytes : Map Byte := []
  next : List (Nat × List Byte × Tag) := []
  deriving DecidableEq, Repr

/-- A write that waits at the port for the release word, with the tag of a bad payload (R215, R320). -/
structure GateWait where
  off : Nat
  data : List Byte
  tag : Tag := .clean
  at_ : Nat
  deriving DecidableEq, Repr

/-- An ingress window (R214, R215, R356, R357). -/
structure Window where
  ctx : Nat
  base : Nat
  len : Nat
  s0 : Nat
  slotLog : Nat
  q : Nat
  release : Nat
  aperture : Nat
  reqs : List Nat
  c : Nat
  slots : Map SlotState := []
  waiting : List GateWait := []
  index : Nat := 0
  opened : Bool := true
  deriving DecidableEq, Repr

/-- A save command in progress (R370): its host tag, its reason, whether it names several blocks, the blocks still to
finish, the records written, the status of the last block, the grids of which it takes the next placed block (R342). -/
structure SaveCmd where
  id : Nat
  host : Word
  reason : Nat := 1
  many : Bool
  left : Nat
  written : Nat := 0
  status : Nat := 2
  follow : List Nat := []
  deriving DecidableEq, Repr

/-- A partition (R270 to R272, R282, R309, R338, R351, R355, R358, R363, R365, R367); `share` is its share of the HBM in
bytes, `events` what has been written to its event ring. -/
structure Partition where
  dies : List Nat := []
  hub : Nat := 0
  timeout : Nat := 0
  share : Nat := 0
  cmap : List Nat := []
  hmap : List (Nat × BitVec 36) := []
  born : Nat := 0
  trump : Bool := true
  trumpP : Nat := 4096
  trwd : Nat := 0
  trcond : Nat := 0
  draw : Word := 0
  queues : Map (List Nat) := []
  nextHandle : Nat := 1
  done : List (Nat × Nat × List Nat) := []
  cohorts : Map Cohort := []
  rounds : Map Round := []
  roster : Map Roster := []
  rosterGen : BitVec 16 := 0
  decks : Map Deck := []
  windows : List Window := []
  ready : Bool := false
  failed : Bool := false
  takenOver : Bool := false
  gated : Bool := false
  idle : Nat := 0
  idleSince : Nat := 0
  ring : List HostRecord := []
  progress : Nat := 0
  seqs : Map Nat := []
  pending : List Event := []
  events : List (List Byte) := []
  imageSeq : DWord := 0
  nextTag : Nat := 1
  world : Option Nat := none
  report : List Nat := []
  saves : List SaveCmd := []
  lastPlace : Nat := 0
  deriving DecidableEq, Repr

/-- States of a keyed stream that last (R362): stopping, swapping and failed pass at once. -/
inductive StreamState where
  | draining | opened | closed
  deriving DecidableEq, Repr

/-- A device write to host or peer memory that waits at its port (R240, R302, R362), of a wave or of the engines of a core
(R161), of a context of a world (R360). -/
structure PortWrite where
  id : Nat
  part : Nat
  stream : Nat
  bytes : List (Nat × Byte)
  tag : Tag
  clock : List Nat := []
  wave : Option Nat := none
  at_ : Nat := 0
  level : Nat := 63
  engine : Option Nat := none
  world : Nat := 0
  deriving DecidableEq, Repr

/-- A port stream (R359, R362): its world, its key slot, the key that waits, the nonce counter, the cycle its drain began
and the host tag of the command, the packets it has sent that are not acknowledged, each with the cycle in which it will
be. -/
structure Stream where
  part : Nat
  world : Nat
  key : Option Nat
  newKey : Nat := 0
  nonce : DWord := 0
  state : StreamState := .opened
  at_ : Nat := 0
  host : Word := 0
  sent : List (Nat × PortWrite) := []
  deriving DecidableEq, Repr

/-- A wake filter entry (R364). -/
structure Filter where
  offset : Nat
  mask : Nat
  value : Nat
  deriving DecidableEq, Repr

/-- A peer link port (R358); `dropped` counts the flits that failed authentication (R359). -/
structure Link where
  width : Nat := 16
  failed : Bool := false
  retries : Nat := 0
  dropped : Nat := 0
  deriving DecidableEq, Repr

/-- A hub die (R353, R364, R365). Log entry 85 (DESIGN CHOICE). -/
structure Hub where
  stopped : Bool := false
  gated : Bool := false
  guests : List Nat := []
  filters : Map Filter := []
  heldFrames : List (Nat × List Byte) := []
  dropped : Nat := 0
  waking : Bool := false
  frames : List (Nat × List Byte) := []
  stoppedAt : Nat := 0
  links : List Link := []
  deriving DecidableEq, Repr

/-- The state of a wave as it stood before an issue (R313): the cycle, the wave, its state, the split that issued. -/
structure Undo where
  at_ : Nat
  wave : Nat
  old : Wave
  entry : Option Nat := none
  deriving DecidableEq, Repr

/-- An error that waits to be found: in a granule of the HBM or of a die cache, a symbol of a scratchpad row (core, bank,
4 × row + byte lane, pattern), a lane of a register of a wave, a granule of a tile file, an accumulator element (R184,
R311, R320), or an effect of a redundant block that does not match its shadow's (R329). -/
inductive Upset where
  | memory (granule : Nat)
  | spad (core bank at_ : Nat) (pattern : Byte)
  | reg (wave : Nat) (r : RegRef) (lane : Nat)
  | tile (block granule : Nat)
  | acc (block n : Nat)
  | shadow (block : Nat)
  deriving DecidableEq, Repr

/-- The completion of a long operation of a wave, kept for a rollback (R313): the cycle, what it delivered. -/
structure Arrival where
  at_ : Nat
  wave : Nat
  op : Nat
  kind : OpKind
  deriving DecidableEq, Repr

/-- The machine. A map lists what has been touched: an absent core, die or hub die stands for its default record.
`now` counts package cycles; `nextId` numbers the model's objects and indexes the free values; `cur`
names the split that issues; `inputs` are the moves from outside still to come, each with the cycle before which it does not
come, and `upsets` the errors still to be found, each with the cycle in which it arises. Log entry 16 (DESIGN CHOICE).
Log entry 10 (DESIGN CHOICE). -/
structure State where
  now : Nat
  nextId : Nat
  cur : Option (Nat × Nat)
  inputs : List (Nat × Instr)
  upsets : List (Nat × Upset)
  waves : Map Wave
  blocks : Map Block
  grids : Map Grid
  ctxs : Map Context
  parts : Map Partition
  cores : Map Core
  dies : Map Die
  hubs : Map Hub
  held : List Held
  mem : List Host.Cell
  memTags : Map Tag
  lags : List Lag
  flights : Map Flight
  heads : Map (List Head)
  homeSeq : Nat
  tags : Map ProvTag
  images : Map Image
  streams : Map Stream
  ports : List PortWrite
  mplan : Word
  undo : List Undo
  arrivals : List Arrival
  deriving DecidableEq, Repr

/-- Why the machine stops with a fault. Log entry 81 (DESIGN CHOICE). -/
inductive Fault where
  /-- An agent outside the package names a physical address that R202 does not have (52 bits, regions 0x0 to 0x2):
  HOST_INBOUND_WRITE, PEER_FLIT, NVME_READ_COMPLETE. Safe: no claim about memory follows from it. -/
  | noSuchAddress
  deriving DecidableEq, Repr

/-- Why a step is refused. Log entry 82 (DESIGN CHOICE). -/
inductive Refusal where
  /-- An instruction whose meaning is not written; raised by `exec`. Safe: nothing follows. -/
  | notModelled (mnemonic : String)
  /-- An encoded instruction is asked for while no split issues; raised by every meaning of an encoded row. Safe. -/
  | noIssuer
  /-- A move of the device is asked for while the condition its rule sets does not hold; raised by the meanings of
  the rows without an encoding. Safe: the move is not the device's at that moment. -/
  | notEnabled (mnemonic : String)
  deriving DecidableEq, Repr

/-- The machine right after package reset: no partition is formed, no context exists and no wave is placed
(R351, R355, R66). The values that no rule states are those of log entry 1 and log entry 2.
Log entry 1 (DESIGN CHOICE). -/
def State.reset : State where
  now := 0
  nextId := 0
  cur := none
  inputs := []
  upsets := []
  waves := []
  blocks := []
  grids := []
  ctxs := []
  parts := []
  cores := []
  dies := []
  hubs := []
  held := []
  mem := []
  memTags := []
  lags := []
  flights := []
  heads := []
  homeSeq := 0
  tags := []
  images := []
  streams := []
  ports := []
  mplan := 0
  undo := []
  arrivals := []

end Sys2Proof.Machine
end

