-- ==== Sys2Proof/Machine/Maps.lean ====
section
/-! DEFINITION. Maps by number, the canonical memory list, lists of lanes, and the bit-field, sign-extension and
byte-order helpers every other file uses. -/

namespace Sys2Proof.Machine

/-- The value at key `k`. -/
def mget {α : Type} : Map α → Nat → Option α
  | [], _ => none
  | (i, x) :: r, k => if i = k then some x else mget r k

/-- The value at key `k`, or `d`. -/
def mgetD {α : Type} (m : Map α) (k : Nat) (d : α) : α := (mget m k).getD d

/-- The map with `x` at key `k`; keys stay strictly rising. -/
def mset {α : Type} : Map α → Nat → α → Map α
  | [], k, x => [(k, x)]
  | (i, y) :: r, k, x => if i = k then (k, x) :: r else if k < i then (k, x) :: (i, y) :: r else (i, y) :: mset r k x

/-- The map without key `k`. -/
def mdel {α : Type} : Map α → Nat → Map α
  | [], _ => []
  | (i, y) :: r, k => if i = k then mdel r k else (i, y) :: mdel r k

/-- The map with the value at `k` changed by `f`, if there is one. -/
def mmod {α : Type} (m : Map α) (k : Nat) (f : α → α) : Map α :=
  match mget m k with
  | some x => mset m k (f x)
  | none => m

/-- Keys strictly rising, all above `lo`. -/
def risingFrom {α : Type} : Option Nat → Map α → Bool
  | _, [] => true
  | none, (i, _) :: r => risingFrom (some i) r
  | some lo, (i, _) :: r => decide (lo < i) && risingFrom (some i) r

/-! ### Memory -/

/-- What a byte that nothing has written reads as (log entry 2). Log entry 2 (DESIGN CHOICE). -/
def blankByte : Byte := 0

/-- The byte at address `a`. Log entry 2 (DESIGN CHOICE). -/
def memGet (m : List Host.Cell) (a : Nat) : Byte := mgetD m a blankByte

/-- The memory with byte `b` at address `a`; writing the blank byte removes the entry. -/
def memSet (m : List Host.Cell) (a : Nat) (b : Byte) : List Host.Cell :=
  if b = blankByte then mdel m a else mset m a b

/-- The canonical form of a memory: addresses strictly rising and no entry that reads as a blank byte. -/
def Memory.wf (m : List Host.Cell) : Bool := risingFrom none m && m.all (fun c => c.2 != blankByte)

/-- `n` bytes from address `a`. -/
def memRead (m : List Host.Cell) (a : Nat) : Nat → List Byte
  | 0 => []
  | n + 1 => memGet m a :: memRead m (a + 1) n

/-- Stores bytes at their addresses, in list order. -/
def memWrite (m : List Host.Cell) : List (Nat × Byte) → List Host.Cell
  | [] => m
  | (a, b) :: r => memWrite (memSet m a b) r

/-! ### Byte order (R22): little-endian -/

/-- The number that bytes, the lowest first, hold. -/
def ofBytes : List Byte → Nat
  | [] => 0
  | b :: r => b.toNat + 256 * ofBytes r

/-- The low `n` bytes of a number, the lowest first. -/
def toBytes : Nat → Nat → List Byte
  | 0, _ => []
  | n + 1, x => BitVec.ofNat 8 x :: toBytes n (x / 256)

/-- Bytes with their addresses, from `a` up. -/
def addrBytes (a : Nat) : List Byte → List (Nat × Byte)
  | [] => []
  | b :: r => (a, b) :: addrBytes (a + 1) r

/-- Bits [hi:lo] of a number. -/
def bits (x hi lo : Nat) : Nat := x / 2 ^ lo % 2 ^ (hi + 1 - lo)

/-- Bit `i` of a number. -/
def bitAt (x i : Nat) : Bool := x / 2 ^ i % 2 = 1

/-- The signed value of the low `n` bits of `x`. -/
def signExt (n x : Nat) : Int :=
  let y := x % 2 ^ n
  if y < 2 ^ (n - 1) then (y : Int) else (y : Int) - (2 ^ n : Nat)

/-- The low `n` bits of an integer. -/
def wrapInt (n : Nat) (x : Int) : Nat := (x % ((2 ^ n : Nat) : Int)).toNat

/-! ### Lanes -/

/-- Whether lane `l` is in the mask. -/
def inMask (m : LaneMask) (l : Nat) : Bool := m.getLsbD l

/-- The lanes of a mask in ascending order. -/
def lanesOf (m : LaneMask) : List Nat := allLanes.filter (inMask m)

/-- The mask of the lanes for which `f` holds. -/
def maskOf (f : Nat → Bool) : LaneMask :=
  BitVec.ofNat 64 (allLanes.foldl (fun x l => if f l then x + 2 ^ l else x) 0)

/-- The lowest lane of a mask. -/
def lowestLane (m : LaneMask) : Option Nat := allLanes.find? (inMask m)

/-- The number of lanes in a mask. -/
def laneTotal (m : LaneMask) : Nat := (lanesOf m).length

/-- Element `i` of a list, or `d`. -/
def nth {α : Type} (l : List α) (i : Nat) (d : α) : α := l.getD i d

/-- The list with element `i` replaced; a short list is first filled with `d`. -/
def nthSet {α : Type} (d x : α) : List α → Nat → List α
  | [], 0 => [x]
  | [], n + 1 => d :: nthSet d x [] n
  | _ :: r, 0 => x :: r
  | y :: r, n + 1 => y :: nthSet d x r n

/-- The first `some` of `f` over a list. -/
def firstSome {α β : Type} (f : α → Option β) : List α → Option β
  | [] => none
  | x :: r => match f x with
    | some y => some y
    | none => firstSome f r

/-- The smallest number of a list. -/
def least : List Nat → Option Nat
  | [] => none
  | x :: r => match least r with
    | some y => some (Nat.min x y)
    | none => some x

end Sys2Proof.Machine
end

