-- ==== Sys2Proof/Decode.lean ====
section
/-! DEFINITION. Decoding of instruction words (R22 to R28), total on any words, and the encoder written from the
same tables. -/

namespace Sys2Proof

/-- Why words are no instruction (R29): no word; a field that must be zero is not, with the word; an operand code in
a role that takes one code only, with the word; literal words past the end of the body, with the instruction. -/
inductive DecodeError where
  | noWord
  | illegalField (w : Word)
  | illegalOperand (w : Word)
  | literalPastBody (i : Instr) (w : Word)
  deriving DecidableEq, Repr

/-- The opcode, bits [31:24] (R22). -/
def opcodeOf (w : Word) : Nat := w.toNat / 16777216
/-- The D field, bits [23:16]. -/
def fieldD (w : Word) : Nat := w.toNat / 65536 % 256
/-- The A field, bits [15:8]. -/
def fieldA (w : Word) : Nat := w.toNat / 256 % 256
/-- The B field, bits [7:0]. -/
def fieldB (w : Word) : Nat := w.toNat % 256

/-- The operand of a code (R23), with the literal words that follow the instruction, low word first (R24). -/
def operandOf (c : Nat) (lo hi : Word) : Operand :=
  if c < 0x40 then .v c
  else if c < 0x60 then .s (c - 0x40)
  else if c < 0x70 then .a (c - 0x60)
  else if c < 0x78 then .p (c - 0x70)
  else if c = 0x78 then .z
  else if c = 0x79 then .lane
  else if c = 0x7A then .lit32 lo
  else if c = 0x7B then .lit64 (hi ++ lo)
  else if c = 0x7C then .wid
  else if c = 0x7D then .bid
  else if c = 0x7E then .live
  else if c = 0x7F then .act
  else if c < 0x90 then .t (c - 0x80)
  else if c < 0x98 then .acc (c - 0x90)
  else if c < 0xA0 then .fs (c - 0x98)
  else if c < 0xA4 then .b (c - 0xA0)
  else if 0xA8 ≤ c ∧ c < 0xAF then .q (c - 0xA8)
  else .reserved (BitVec.ofNat 8 c)

/-- The code of an operand (R23). -/
def Operand.code : Operand → Nat
  | .v n => n
  | .s n => 0x40 + n
  | .a n => 0x60 + n
  | .p n => 0x70 + n
  | .z => 0x78
  | .lane => 0x79
  | .lit32 _ => 0x7A
  | .lit64 _ => 0x7B
  | .wid => 0x7C
  | .bid => 0x7D
  | .live => 0x7E
  | .act => 0x7F
  | .t n => 0x80 + n
  | .acc n => 0x90 + n
  | .fs n => 0x98 + n
  | .b n => 0xA0 + n
  | .q n => 0xA8 + n
  | .reserved c => c.toNat

/-- Whether a register number is one of its file (R11, R23), and a reserved code one that R23 reserves. -/
def Operand.inRange : Operand → Bool
  | .v n => decide (n < 64)
  | .s n => decide (n < 32)
  | .a n => decide (n < 16)
  | .p n => decide (n < 8)
  | .t n => decide (n < 16)
  | .acc n => decide (n < 8)
  | .fs n => decide (n < 8)
  | .b n => decide (n < 4)
  | .q n => decide (n < 7)
  | .reserved c => decide (0xA4 ≤ c.toNat ∧ c.toNat < 0xA8 ∨ 0xAF ≤ c.toNat)
  | _ => true

/-- Whether an operand is a literal (R24). -/
def Operand.isLit : Operand → Bool
  | .lit32 _ => true
  | .lit64 _ => true
  | _ => false

/-- The literal words of an operand, low word first (R24). -/
def Operand.lits : Operand → List Word
  | .lit32 w => [w]
  | .lit64 d => [d.setWidth 32, (d >>> 32).setWidth 32]
  | _ => []

/-- The literal words that follow a word, when literal operands stand in the given field. -/
def litsOfCode (c : Nat) : Nat := if c = 0x7A then 1 else if c = 0x7B then 2 else 0

/-- How many literal words follow an instruction word (R24). With two literal codes, which trap, the A field's count
is taken (log entry 3). Log entry 3 (DESIGN CHOICE). -/
def litWords (w : Word) : Nat :=
  match opcodeOf w with
  | 0x04 | 0x05 | 0x0C | 0x0E | 0x0F | 0x12 | 0x1A | 0x1C | 0x1D | 0x1E | 0x27 | 0x34 | 0x35 | 0x39 | 0x3A | 0x3B
  | 0x3C | 0x3D | 0x3E | 0x3F | 0x40 | 0x45 | 0x48 | 0x49 | 0x4A | 0x4B | 0x4C | 0x50 | 0x53 | 0x54 | 0x55 | 0x56
  | 0x57 | 0x59 | 0x5A | 0x5B | 0x5F | 0x67 | 0x68 | 0x69 | 0x70 | 0x71 | 0x74 | 0x75 | 0x77 | 0x80 | 0x84 | 0x90
  | 0x92 | 0x9C | 0xB0 | 0xB1 | 0xB5 | 0xB6 | 0xB8 | 0xB9 | 0xC0 | 0xC1 | 0xC2 | 0xC3 | 0xC8 | 0xD0 | 0xD4 | 0xD6
  | 0xD7 | 0xE1 | 0xE3 | 0xE4 => litsOfCode (fieldA w)
  | 0x08 | 0x10 | 0x11 | 0x13 | 0x14 | 0x15 | 0x16 | 0x17 | 0x18 | 0x19 | 0x1B | 0x20 | 0x21 | 0x22 | 0x23 | 0x24
  | 0x25 | 0x26 | 0x28 | 0x29 | 0x2A | 0x2B | 0x2C | 0x30 | 0x31 | 0x32 | 0x33 | 0x36 | 0x37 | 0x38 | 0x41 | 0x42
  | 0x43 | 0x44 | 0x46 | 0x47 | 0x51 | 0x52 | 0x58 | 0x5C | 0x5D | 0x5E | 0x72 | 0x73 | 0x81 | 0x82 | 0x85 | 0x86
  | 0x87 | 0x88 | 0x89 | 0x8A | 0x8B | 0x8C | 0x91 | 0x93 | 0x94 | 0x95 | 0x96 | 0x97 | 0x98 | 0x99 | 0x9A | 0x9D
  | 0xA0 | 0xA1 | 0xA2 | 0xA3 | 0xA4 | 0xA5 | 0xA6 | 0xA7 | 0xA8 | 0xA9 | 0xAA | 0xAB | 0xAC | 0xAD | 0xAE | 0xAF
  | 0xB3 | 0xB4 | 0xC4 | 0xD1 | 0xD2 | 0xD3 | 0xD5 => if litsOfCode (fieldA w) = 0 then litsOfCode (fieldB w) else litsOfCode (fieldA w)
  | 0x83 => 
    if litsOfCode (fieldD w) = 0 then
      if litsOfCode (fieldA w) = 0 then litsOfCode (fieldB w) else litsOfCode (fieldA w)
    else litsOfCode (fieldD w)
  | _ => 0

/-- The fields of an opcode's word that must be zero (R22, R28), as the places of their low bits. -/
def zeroFields (op : Nat) : List Nat :=
  match op with
  | 0x0C | 0x12 | 0x1A | 0x1C | 0x1D | 0x1E | 0x27 | 0x34 | 0x35 | 0x39 | 0x3A | 0x3B | 0x3C | 0x3D | 0x3E | 0x3F
  | 0x40 | 0x45 | 0x48 | 0x49 | 0x50 | 0x53 | 0x54 | 0x55 | 0x56 | 0x57 | 0x5F | 0x69 | 0x71 | 0x74 | 0x77 | 0x80
  | 0x84 | 0x90 | 0x92 | 0xB0 | 0xB1 | 0xB8 | 0xC0 | 0xC1 | 0xC2 | 0xC3 | 0xC8 | 0xD0 | 0xD6 | 0xD7 | 0xE4 => [0]
  | 0x0D => [8]
  | 0x06 | 0x76 | 0xB2 | 0xC5 => [8, 0]
  | 0x08 | 0x0E | 0x72 | 0x81 | 0x91 | 0x93 | 0x9C | 0xD2 | 0xE1 => [16]
  | 0x04 | 0x05 | 0x0F | 0x67 | 0x68 | 0x70 | 0x75 | 0xB6 | 0xD4 => [16, 0]
  | 0x02 | 0x0A | 0x0B | 0x9B | 0xC6 | 0xC7 | 0xE0 | 0xE2 => [16, 8]
  | 0x03 | 0x07 | 0x09 | 0x9E | 0xB7 => [16, 8, 0]
  | _ => []

/-- Whether the fields of a word that must be zero are zero. -/
def zeroOk (w : Word) : Bool := (zeroFields (opcodeOf w)).all (fun sh => decide (w.toNat / 2 ^ sh % 256 = 0))

/-- The instruction of a word whose zero fields are zero, given the two words that follow it.
Log entry 17 (DEDUCED). -/
def decodeFields (w lo hi : Word) : Except DecodeError Instr :=
  let d := operandOf (fieldD w) lo hi
  let a := operandOf (fieldA w) lo hi
  let b := operandOf (fieldB w) lo hi
  let cd := BitVec.ofNat 8 (fieldD w)
  let cb := BitVec.ofNat 8 (fieldB w)
  match opcodeOf w with
  | 0x00 => .ok (.ill cd (BitVec.ofNat 8 (fieldA w)) cb)
  | 0x01 => .ok (.mode (w.setWidth 24))
  | 0x02 => .ok (.omode cb)
  | 0x03 => .ok .nop
  | 0x04 => if fieldA w = 0x7A then .ok (.sigck lo) else .error (.illegalOperand w)
  | 0x05 => if fieldA w = 0x7B then .ok (.rnote (hi ++ lo)) else .error (.illegalOperand w)
  | 0x06 => .ok (.elect d)
  | 0x07 => .ok .yield
  | 0x08 => .ok (.yieldon a b)
  | 0x09 => .ok .endWave
  | 0x0A => .ok (.trap cb)
  | 0x0B => .ok (.brk cb)
  | 0x0C => .ok (.qfeat d a)
  | 0x0D => if fieldB w = 0x18 then .ok (.rdsrTimelo d) else .ok (.rdsr d cb)
  | 0x0E =>
    if fieldB w = 0x3B then
      match a with
      | .lit32 g => if g.getLsbD 4 then .ok (.mgrantRevoke a) else .ok (.mgrantCreate a)
      | _ => .ok (.mgrantCreate a)
    else if fieldB w = 0xA1 then .ok (.sigWrite a)
    else .ok (.wrsr a cb)
  | 0x0F => .ok (.pkset a)
  | 0x10 => .ok (.add d a b)
  | 0x11 => .ok (.sub d a b)
  | 0x12 => .ok (.neg d a)
  | 0x13 => .ok (.mul d a b)
  | 0x14 => .ok (.mulhi d a b)
  | 0x15 => .ok (.mad d a b)
  | 0x16 => .ok (.div d a b)
  | 0x17 => .ok (.rem d a b)
  | 0x18 => .ok (.min d a b)
  | 0x19 => .ok (.max d a b)
  | 0x1A => .ok (.abs d a)
  | 0x1B => .ok (.dot4 d a b)
  | 0x1C => .ok (.brev d a)
  | 0x1D => .ok (.popc d a)
  | 0x1E => .ok (.clz d a)
  | 0x20 => .ok (.cmpeq d a b)
  | 0x21 => .ok (.cmpne d a b)
  | 0x22 => .ok (.cmplt d a b)
  | 0x23 => .ok (.cmple d a b)
  | 0x24 => .ok (.and d a b)
  | 0x25 => .ok (.or d a b)
  | 0x26 => .ok (.xor d a b)
  | 0x27 => .ok (.not d a)
  | 0x28 => .ok (.shl d a b)
  | 0x29 => .ok (.shr d a b)
  | 0x2A => .ok (.sra d a b)
  | 0x2B => .ok (.bfe d a b)
  | 0x2C => .ok (.bfi d a b)
  | 0x30 => .ok (.fadd d a b)
  | 0x31 => .ok (.fsub d a b)
  | 0x32 => .ok (.fmul d a b)
  | 0x33 => .ok (.fma d a b)
  | 0x34 => .ok (.fneg d a)
  | 0x35 => .ok (.fabs d a)
  | 0x36 => .ok (.fmin d a b)
  | 0x37 => .ok (.fmax d a b)
  | 0x38 => .ok (.fdiv d a b)
  | 0x39 => .ok (.fsqrt d a)
  | 0x3A => .ok (.frcp d a)
  | 0x3B => .ok (.frsq d a)
  | 0x3C => .ok (.fexp2 d a)
  | 0x3D => .ok (.flog2 d a)
  | 0x3E => .ok (.fsin d a)
  | 0x3F => .ok (.fcos d a)
  | 0x40 => .ok (.frnd d a)
  | 0x41 => .ok (.fcmpeq d a b)
  | 0x42 => .ok (.fcmplt d a b)
  | 0x43 => .ok (.fcmple d a b)
  | 0x44 => .ok (.fcmpun d a b)
  | 0x45 => .ok (.fclass d a)
  | 0x46 => .ok (.cmul d a b)
  | 0x47 => .ok (.cmad d a b)
  | 0x48 => .ok (.cvtif d a)
  | 0x49 => .ok (.cvtfi d a)
  | 0x4A => .ok (.cvtff d a cb)
  | 0x4B => .ok (.cvtn8 d a cb)
  | 0x4C => .ok (.cvtw8 d a cb)
  | 0x50 => .ok (.mov d a)
  | 0x51 => .ok (.sel d a b)
  | 0x52 => .ok (.promote d a b)
  | 0x53 => .ok (.demote d a)
  | 0x54 => .ok (.vall d a)
  | 0x55 => .ok (.vany d a)
  | 0x56 => .ok (.veq d a)
  | 0x57 => .ok (.ballot d a)
  | 0x58 => .ok (.shfl d a b)
  | 0x59 => .ok (.shflx d a cb)
  | 0x5A => .ok (.shfldn d a cb)
  | 0x5B => .ok (.shflup d a cb)
  | 0x5C => .ok (.pand d a b)
  | 0x5D => .ok (.por d a b)
  | 0x5E => .ok (.pxor d a b)
  | 0x5F => .ok (.pnot d a)
  | 0x60 => .ok (.jmp (w.setWidth 24))
  | 0x61 => .ok (.bp d (w.setWidth 16))
  | 0x62 => .ok (.bnp d (w.setWidth 16))
  | 0x63 => .ok (.bany d (w.setWidth 16))
  | 0x64 => .ok (.ball d (w.setWidth 16))
  | 0x65 => .ok (.bnone d (w.setWidth 16))
  | 0x66 => .ok (.call cd (w.setWidth 16))
  | 0x67 => .ok (.ret a)
  | 0x68 => .ok (.jmpi a)
  | 0x69 => .ok (.calli cd a)
  | 0x70 => .ok (.bar a)
  | 0x71 => .ok (.barrive d a)
  | 0x72 => .ok (.bwait a b)
  | 0x73 => .ok (.grow d a b)
  | 0x74 => .ok (.attach d a)
  | 0x75 => .ok (.detach a)
  | 0x76 => .ok (.shrinkq d)
  | 0x77 => .ok (.bmem d a)
  | 0x80 => .ok (.lds d a)
  | 0x81 => .ok (.sts a b)
  | 0x82 => .ok (.ldsl d a b)
  | 0x83 => .ok (.stsl d a b)
  | 0x84 => .ok (.ldlk d a)
  | 0x85 => .ok (.stul d a b)
  | 0x86 => .ok (.sadd d a b)
  | 0x87 => .ok (.smin d a b)
  | 0x88 => .ok (.smax d a b)
  | 0x89 => .ok (.sxchg d a b)
  | 0x8A => .ok (.scas d a b)
  | 0x8B => .ok (.sand d a b)
  | 0x8C => .ok (.sor d a b)
  | 0x90 => .ok (.ld d a)
  | 0x91 => .ok (.st a b)
  | 0x92 => .ok (.ldacq d a)
  | 0x93 => .ok (.strel a b)
  | 0x94 => .ok (.gadd d a b)
  | 0x95 => .ok (.gmin d a b)
  | 0x96 => .ok (.gmax d a b)
  | 0x97 => .ok (.gxchg d a b)
  | 0x98 => .ok (.gcas d a b)
  | 0x99 => .ok (.gand d a b)
  | 0x9A => .ok (.gor d a b)
  | 0x9B => .ok (.fence cb)
  | 0x9C => .ok (.pref a cb)
  | 0x9D => .ok (.wseq d a b)
  | 0x9E => .ok .icsync
  | 0xA0 => .ok (.mma 0 d a b)
  | 0xA1 => .ok (.mma 1 d a b)
  | 0xA2 => .ok (.mma 2 d a b)
  | 0xA3 => .ok (.mma 3 d a b)
  | 0xA4 => .ok (.mma 4 d a b)
  | 0xA5 => .ok (.mma 5 d a b)
  | 0xA6 => .ok (.mma 6 d a b)
  | 0xA7 => .ok (.mma 7 d a b)
  | 0xA8 => .ok (.mmaw 0 d a b)
  | 0xA9 => .ok (.mmaw 1 d a b)
  | 0xAA => .ok (.mmaw 2 d a b)
  | 0xAB => .ok (.mmaw 3 d a b)
  | 0xAC => .ok (.mmaw 4 d a b)
  | 0xAD => .ok (.mmaw 5 d a b)
  | 0xAE => .ok (.mmaw 6 d a b)
  | 0xAF => .ok (.mmaw 7 d a b)
  | 0xB0 => .ok (.tcfg d a)
  | 0xB1 => .ok (.twin d a)
  | 0xB2 => .ok (.accz d)
  | 0xB3 => .ok (.accrd d a b)
  | 0xB4 => .ok (.accwr d a b)
  | 0xB5 => .ok (.mdrain d a (BitVec.ofNat 5 (fieldB w / 8)) (BitVec.ofNat 3 (fieldB w % 8)))
  | 0xB6 => .ok (.hist a)
  | 0xB7 => .ok .hclr
  | 0xB8 => .ok (.hscale d a)
  | 0xB9 => .ok (.qcvt d a (BitVec.ofNat 5 (fieldB w / 8)) (BitVec.ofNat 3 (fieldB w % 8)))
  | 0xC0 => .ok (.cpin d a)
  | 0xC1 => .ok (.cpout d a)
  | 0xC2 => .ok (.bcpin d a)
  | 0xC3 => .ok (.bcpout d a)
  | 0xC4 => .ok (.gath d a b)
  | 0xC5 => .ok (.cseal d)
  | 0xC6 => .ok (.cwait cb)
  | 0xC7 => .ok (.qfence cb)
  | 0xC8 => .ok (.qseq d a)
  | 0xD0 => .ok (.cbar d a)
  | 0xD1 => .ok (.cred d a b)
  | 0xD2 => .ok (.dput a b)
  | 0xD3 => .ok (.dtake d a b)
  | 0xD4 => .ok (.sdwait a)
  | 0xD5 => .ok (.launch d a b)
  | 0xD6 => .ok (.lwait d a)
  | 0xD7 => .ok (.lstat d a)
  | 0xE0 => .ok (.tret cb)
  | 0xE1 => .ok (.wpset a cb)
  | 0xE2 => .ok (.wpclr cb)
  | 0xE3 => .ok (.pchk d a cb)
  | 0xE4 => .ok (.ptag d a)
  | _ => .ok (.illegalOpcode w)

/-- The instruction of a word, given the two words that follow it. Log entry 18 (DEDUCED). -/
def decodeWord (w lo hi : Word) : Except DecodeError Instr :=
  if zeroOk w then decodeFields w lo hi else .error (.illegalField w)

/-- Decodes the instruction at the head of a list of words: the instruction and how many words it takes. -/
def decode : List Word → Except DecodeError (Instr × Nat)
  | [] => .error .noWord
  | w :: r =>
    let n := litWords w
    match decodeWord w (r.getD 0 0) (r.getD 1 0) with
    | .error e => .error e
    | .ok i => if r.length < n then .error (.literalPastBody i w) else .ok (i, 1 + n)

/-- Groups bytes into words, the lowest byte first (R22); a last part of a word is dropped. -/
def wordsOfBytes : List Byte → List Word
  | b0 :: b1 :: b2 :: b3 :: r => (b3 ++ b2 ++ b1 ++ b0) :: wordsOfBytes r
  | _ => []

/-- Decodes the instruction at the head of a list of bytes. -/
def decodeBytes (l : List Byte) : Except DecodeError (Instr × Nat) := decode (wordsOfBytes l)

/-- The bytes of an instruction given as a number whose bit 0 is bit 0 of the first word: `n` bytes. -/
def tableBytes : Nat → Nat → List Byte
  | 0, _ => []
  | n + 1, w => BitVec.ofNat 8 w :: tableBytes n (w / 256)

/-- The instruction the decoder reads from the word `w` of `nbits` bits, the bits above being zero. The longest
instruction has three words (R24). -/
def decodeTableWord (nbits w : Nat) : Option Instr :=
  match decodeBytes (tableBytes 12 (w % 2 ^ nbits)) with
  | .ok (i, _) => some i
  | .error _ => none

/-! ### The encoder -/

/-- A word from its four fields (R22). Log entry 17 (DEDUCED). -/
def packWord (op d a b : Nat) : Word := BitVec.ofNat 32 (op * 16777216 + d * 65536 + a * 256 + b)

/-- The instruction word of an encoded row (R26, R28); the rows without an encoding have none. -/
def Instr.word? : Instr → Option Word
  | .ill d a b => some (packWord 0x00 d.toNat a.toNat b.toNat)
  | .mode m => some (0x01#8 ++ m)
  | .omode o => some (packWord 0x02 0x00 0x00 o.toNat)
  | .nop => some (packWord 0x03 0x00 0x00 0x00)
  | .sigck _ => some (packWord 0x04 0 0x7A 0)
  | .rnote _ => some (packWord 0x05 0 0x7B 0)
  | .elect d => some (packWord 0x06 d.code 0x00 0x00)
  | .yield => some (packWord 0x07 0x00 0x00 0x00)
  | .yieldon a b => some (packWord 0x08 0x00 a.code b.code)
  | .endWave => some (packWord 0x09 0x00 0x00 0x00)
  | .trap c => some (packWord 0x0A 0x00 0x00 c.toNat)
  | .brk c => some (packWord 0x0B 0x00 0x00 c.toNat)
  | .qfeat d a => some (packWord 0x0C d.code a.code 0x00)
  | .rdsr d n => some (packWord 0x0D d.code 0x00 n.toNat)
  | .rdsrTimelo d => some (packWord 0x0D d.code 0x00 0x18)
  | .wrsr a n => some (packWord 0x0E 0x00 a.code n.toNat)
  | .mgrantCreate a => some (packWord 0x0E 0x00 a.code 0x3B)
  | .mgrantRevoke a => some (packWord 0x0E 0x00 a.code 0x3B)
  | .sigWrite a => some (packWord 0x0E 0x00 a.code 0xA1)
  | .pkset a => some (packWord 0x0F 0x00 a.code 0x00)
  | .add d a b => some (packWord 0x10 d.code a.code b.code)
  | .sub d a b => some (packWord 0x11 d.code a.code b.code)
  | .neg d a => some (packWord 0x12 d.code a.code 0x00)
  | .mul d a b => some (packWord 0x13 d.code a.code b.code)
  | .mulhi d a b => some (packWord 0x14 d.code a.code b.code)
  | .mad d a b => some (packWord 0x15 d.code a.code b.code)
  | .div d a b => some (packWord 0x16 d.code a.code b.code)
  | .rem d a b => some (packWord 0x17 d.code a.code b.code)
  | .min d a b => some (packWord 0x18 d.code a.code b.code)
  | .max d a b => some (packWord 0x19 d.code a.code b.code)
  | .abs d a => some (packWord 0x1A d.code a.code 0x00)
  | .dot4 d a b => some (packWord 0x1B d.code a.code b.code)
  | .brev d a => some (packWord 0x1C d.code a.code 0x00)
  | .popc d a => some (packWord 0x1D d.code a.code 0x00)
  | .clz d a => some (packWord 0x1E d.code a.code 0x00)
  | .cmpeq d a b => some (packWord 0x20 d.code a.code b.code)
  | .cmpne d a b => some (packWord 0x21 d.code a.code b.code)
  | .cmplt d a b => some (packWord 0x22 d.code a.code b.code)
  | .cmple d a b => some (packWord 0x23 d.code a.code b.code)
  | .and d a b => some (packWord 0x24 d.code a.code b.code)
  | .or d a b => some (packWord 0x25 d.code a.code b.code)
  | .xor d a b => some (packWord 0x26 d.code a.code b.code)
  | .not d a => some (packWord 0x27 d.code a.code 0x00)
  | .shl d a b => some (packWord 0x28 d.code a.code b.code)
  | .shr d a b => some (packWord 0x29 d.code a.code b.code)
  | .sra d a b => some (packWord 0x2A d.code a.code b.code)
  | .bfe d a b => some (packWord 0x2B d.code a.code b.code)
  | .bfi d a b => some (packWord 0x2C d.code a.code b.code)
  | .fadd d a b => some (packWord 0x30 d.code a.code b.code)
  | .fsub d a b => some (packWord 0x31 d.code a.code b.code)
  | .fmul d a b => some (packWord 0x32 d.code a.code b.code)
  | .fma d a b => some (packWord 0x33 d.code a.code b.code)
  | .fneg d a => some (packWord 0x34 d.code a.code 0x00)
  | .fabs d a => some (packWord 0x35 d.code a.code 0x00)
  | .fmin d a b => some (packWord 0x36 d.code a.code b.code)
  | .fmax d a b => some (packWord 0x37 d.code a.code b.code)
  | .fdiv d a b => some (packWord 0x38 d.code a.code b.code)
  | .fsqrt d a => some (packWord 0x39 d.code a.code 0x00)
  | .frcp d a => some (packWord 0x3A d.code a.code 0x00)
  | .frsq d a => some (packWord 0x3B d.code a.code 0x00)
  | .fexp2 d a => some (packWord 0x3C d.code a.code 0x00)
  | .flog2 d a => some (packWord 0x3D d.code a.code 0x00)
  | .fsin d a => some (packWord 0x3E d.code a.code 0x00)
  | .fcos d a => some (packWord 0x3F d.code a.code 0x00)
  | .frnd d a => some (packWord 0x40 d.code a.code 0x00)
  | .fcmpeq d a b => some (packWord 0x41 d.code a.code b.code)
  | .fcmplt d a b => some (packWord 0x42 d.code a.code b.code)
  | .fcmple d a b => some (packWord 0x43 d.code a.code b.code)
  | .fcmpun d a b => some (packWord 0x44 d.code a.code b.code)
  | .fclass d a => some (packWord 0x45 d.code a.code 0x00)
  | .cmul d a b => some (packWord 0x46 d.code a.code b.code)
  | .cmad d a b => some (packWord 0x47 d.code a.code b.code)
  | .cvtif d a => some (packWord 0x48 d.code a.code 0x00)
  | .cvtfi d a => some (packWord 0x49 d.code a.code 0x00)
  | .cvtff d a c => some (packWord 0x4A d.code a.code c.toNat)
  | .cvtn8 d a c => some (packWord 0x4B d.code a.code c.toNat)
  | .cvtw8 d a c => some (packWord 0x4C d.code a.code c.toNat)
  | .mov d a => some (packWord 0x50 d.code a.code 0x00)
  | .sel d a b => some (packWord 0x51 d.code a.code b.code)
  | .promote d a b => some (packWord 0x52 d.code a.code b.code)
  | .demote d a => some (packWord 0x53 d.code a.code 0x00)
  | .vall d a => some (packWord 0x54 d.code a.code 0x00)
  | .vany d a => some (packWord 0x55 d.code a.code 0x00)
  | .veq d a => some (packWord 0x56 d.code a.code 0x00)
  | .ballot d a => some (packWord 0x57 d.code a.code 0x00)
  | .shfl d a b => some (packWord 0x58 d.code a.code b.code)
  | .shflx d a m => some (packWord 0x59 d.code a.code m.toNat)
  | .shfldn d a m => some (packWord 0x5A d.code a.code m.toNat)
  | .shflup d a m => some (packWord 0x5B d.code a.code m.toNat)
  | .pand d a b => some (packWord 0x5C d.code a.code b.code)
  | .por d a b => some (packWord 0x5D d.code a.code b.code)
  | .pxor d a b => some (packWord 0x5E d.code a.code b.code)
  | .pnot d a => some (packWord 0x5F d.code a.code 0x00)
  | .jmp o => some (0x60#8 ++ o)
  | .bp p o => some (packWord 0x61 p.code (o.toNat / 256) (o.toNat % 256))
  | .bnp p o => some (packWord 0x62 p.code (o.toNat / 256) (o.toNat % 256))
  | .bany p o => some (packWord 0x63 p.code (o.toNat / 256) (o.toNat % 256))
  | .ball p o => some (packWord 0x64 p.code (o.toNat / 256) (o.toNat % 256))
  | .bnone p o => some (packWord 0x65 p.code (o.toNat / 256) (o.toNat % 256))
  | .call f o => some (packWord 0x66 f.toNat (o.toNat / 256) (o.toNat % 256))
  | .ret a => some (packWord 0x67 0x00 a.code 0x00)
  | .jmpi a => some (packWord 0x68 0x00 a.code 0x00)
  | .calli f a => some (packWord 0x69 f.toNat a.code 0x00)
  | .bar a => some (packWord 0x70 0x00 a.code 0x00)
  | .barrive d a => some (packWord 0x71 d.code a.code 0x00)
  | .bwait a b => some (packWord 0x72 0x00 a.code b.code)
  | .grow d a b => some (packWord 0x73 d.code a.code b.code)
  | .attach d a => some (packWord 0x74 d.code a.code 0x00)
  | .detach a => some (packWord 0x75 0x00 a.code 0x00)
  | .shrinkq d => some (packWord 0x76 d.code 0x00 0x00)
  | .bmem d a => some (packWord 0x77 d.code a.code 0x00)
  | .lds d a => some (packWord 0x80 d.code a.code 0x00)
  | .sts a b => some (packWord 0x81 0x00 a.code b.code)
  | .ldsl d a b => some (packWord 0x82 d.code a.code b.code)
  | .stsl d a b => some (packWord 0x83 d.code a.code b.code)
  | .ldlk d a => some (packWord 0x84 d.code a.code 0x00)
  | .stul d a b => some (packWord 0x85 d.code a.code b.code)
  | .sadd d a b => some (packWord 0x86 d.code a.code b.code)
  | .smin d a b => some (packWord 0x87 d.code a.code b.code)
  | .smax d a b => some (packWord 0x88 d.code a.code b.code)
  | .sxchg d a b => some (packWord 0x89 d.code a.code b.code)
  | .scas d a b => some (packWord 0x8A d.code a.code b.code)
  | .sand d a b => some (packWord 0x8B d.code a.code b.code)
  | .sor d a b => some (packWord 0x8C d.code a.code b.code)
  | .ld d a => some (packWord 0x90 d.code a.code 0x00)
  | .st a b => some (packWord 0x91 0x00 a.code b.code)
  | .ldacq d a => some (packWord 0x92 d.code a.code 0x00)
  | .strel a b => some (packWord 0x93 0x00 a.code b.code)
  | .gadd d a b => some (packWord 0x94 d.code a.code b.code)
  | .gmin d a b => some (packWord 0x95 d.code a.code b.code)
  | .gmax d a b => some (packWord 0x96 d.code a.code b.code)
  | .gxchg d a b => some (packWord 0x97 d.code a.code b.code)
  | .gcas d a b => some (packWord 0x98 d.code a.code b.code)
  | .gand d a b => some (packWord 0x99 d.code a.code b.code)
  | .gor d a b => some (packWord 0x9A d.code a.code b.code)
  | .fence o => some (packWord 0x9B 0x00 0x00 o.toNat)
  | .pref a h => some (packWord 0x9C 0x00 a.code h.toNat)
  | .wseq d a b => some (packWord 0x9D d.code a.code b.code)
  | .icsync => some (packWord 0x9E 0x00 0x00 0x00)
  | .mma n d a b => some (packWord (0xA0 + n.toNat) d.code a.code b.code)
  | .mmaw n d a b => some (packWord (0xA8 + n.toNat) d.code a.code b.code)
  | .tcfg d a => some (packWord 0xB0 d.code a.code 0x00)
  | .twin d a => some (packWord 0xB1 d.code a.code 0x00)
  | .accz d => some (packWord 0xB2 d.code 0x00 0x00)
  | .accrd d a b => some (packWord 0xB3 d.code a.code b.code)
  | .accwr d a b => some (packWord 0xB4 d.code a.code b.code)
  | .mdrain d a m n => some (packWord 0xB5 d.code a.code (m.toNat * 8 + n.toNat))
  | .hist a => some (packWord 0xB6 0x00 a.code 0x00)
  | .hclr => some (packWord 0xB7 0x00 0x00 0x00)
  | .hscale d a => some (packWord 0xB8 d.code a.code 0x00)
  | .qcvt d a m n => some (packWord 0xB9 d.code a.code (m.toNat * 8 + n.toNat))
  | .cpin d a => some (packWord 0xC0 d.code a.code 0x00)
  | .cpout d a => some (packWord 0xC1 d.code a.code 0x00)
  | .bcpin d a => some (packWord 0xC2 d.code a.code 0x00)
  | .bcpout d a => some (packWord 0xC3 d.code a.code 0x00)
  | .gath d a b => some (packWord 0xC4 d.code a.code b.code)
  | .cseal d => some (packWord 0xC5 d.code 0x00 0x00)
  | .cwait n => some (packWord 0xC6 0x00 0x00 n.toNat)
  | .qfence q => some (packWord 0xC7 0x00 0x00 q.toNat)
  | .qseq d a => some (packWord 0xC8 d.code a.code 0x00)
  | .cbar d a => some (packWord 0xD0 d.code a.code 0x00)
  | .cred d a b => some (packWord 0xD1 d.code a.code b.code)
  | .dput a b => some (packWord 0xD2 0x00 a.code b.code)
  | .dtake d a b => some (packWord 0xD3 d.code a.code b.code)
  | .sdwait a => some (packWord 0xD4 0x00 a.code 0x00)
  | .launch d a b => some (packWord 0xD5 d.code a.code b.code)
  | .lwait d a => some (packWord 0xD6 d.code a.code 0x00)
  | .lstat d a => some (packWord 0xD7 d.code a.code 0x00)
  | .tret k => some (packWord 0xE0 0x00 0x00 k.toNat)
  | .wpset a i => some (packWord 0xE1 0x00 a.code i.toNat)
  | .wpclr m => some (packWord 0xE2 0x00 0x00 m.toNat)
  | .pchk d a m => some (packWord 0xE3 d.code a.code m.toNat)
  | .ptag d a => some (packWord 0xE4 d.code a.code 0x00)
  | .illegalOpcode w => some w
  | .clauseFetch _ _ => none
  | .waveResumeFetch _ => none
  | .longOpComplete _ => none
  | .holdbackRelease _ => none
  | .writeApplyHome _ => none
  | .writeApplyRemote _ _ => none
  | .atomicPerform _ => none
  | .spadAtomicPerform _ => none
  | .ldlkPerform _ => none
  | .lockWaitGrant _ _ => none
  | .stulPerform _ => none
  | .lockExpiry _ _ => none
  | .growPerform _ => none
  | .attachPerform _ => none
  | .detachPerform _ => none
  | .endPerform _ => none
  | .deadWaveLeave _ => none
  | .barrierArrive _ => none
  | .parkedSplitWake _ _ => none
  | .shrinkRequestClear _ => none
  | .blockRetire _ => none
  | .watchdogExpiry _ => none
  | .engineRequestEnter _ => none
  | .collectiveEnter _ => none
  | .engineEntryPerform _ _ => none
  | .engineWriteRelease _ => none
  | .engineEntryComplete _ _ => none
  | .qfenceComplete _ => none
  | .roundForm _ => none
  | .cohortArrivalPerform _ => none
  | .arrayGrant _ => none
  | .arrayOpFinish _ => none
  | .matrixWritePerform _ => none
  | .pkrContextUpdate _ => none
  | .watchpointUpdate _ => none
  | .grantEnd _ _ => none
  | .launchPerform _ => none
  | .placementEvent _ => none
  | .saveOut _ => none
  | .preemptDraining _ => none
  | .preemptWriting _ => none
  | .preemptSaved _ => none
  | .restorePlacement _ => none
  | .rollbackResume _ _ => none
  | .healthRecover _ => none
  | .hotnessHalve => none
  | .candidateExpiry _ _ => none
  | .probationCompare _ => none
  | .auditComplete _ => none
  | .auditEscalate _ => none
  | .deckAppend _ => none
  | .deckHoldRelease _ => none
  | .showdownQuiescence _ _ => none
  | .ingressBackpressureTimeout _ _ => none
  | .createContext _ => none
  | .launchGrid _ => none
  | .save _ => none
  | .launchImage _ => none
  | .streamDrainComplete _ => none
  | .streamDrainFail _ => none
  | .resetPartition _ => none
  | .commandRingStall _ => none
  | .sharedRequestTimeout _ => none
  | .hubDieGate _ => none
  | .hubDieUngate _ => none
  | .eventRingWrite _ => none
  | .walkAndScrubComplete _ => none
  | .textPageInstall _ _ => none
  | .spadScrub _ _ => none
  | .shrinkRequestPost _ _ => none
  | .peerGone _ _ => none
  | .debugAccess _ _ => none
  | .debugResume _ => none
  | .debugStep _ => none
  | .tlbinv _ _ _ _ _ _ => none
  | .gridEligible _ _ => none
  | .preemptRequest _ _ => none
  | .strikeReport _ _ => none
  | .marginPlan _ => none
  | .candidateInstall _ _ _ _ => none
  | .ingressFrameWrite _ _ _ _ => none
  | .doorbellWrite _ _ => none
  | .openIngressWindow _ => none
  | .closeIngressWindow _ => none
  | .configureDeck _ => none
  | .keyStream _ => none
  | .admitPeer _ _ => none
  | .removePeer _ => none
  | .trumpControls _ => none
  | .wakeFilterAndIdleInterval _ => none
  | .partitionForm _ _ => none
  | .hostInboundWrite _ _ _ _ => none
  | .peerFlit _ _ _ _ => none
  | .linkRetryFail _ _ => none
  | .ethernetFrameReceive _ _ _ _ => none
  | .nvmeReadComplete _ _ _ _ => none
  | .attestationRequest _ => none
  | .controlMismatch _ => none
  | .partitionDissolve _ => none
  | .hubDieReset _ => none
  | .debuggerAttach _ _ => none
  | .coreReset _ => none
  | .tdispAssign _ _ => none

/-- The instruction word, zero for a row without an encoding. -/
def Instr.word (i : Instr) : Word := i.word?.getD 0

/-- The literal words of the operands that an instruction's word names, in the order D, A, B (R24). -/
def Instr.lits : Instr → List Word
  | .sigck sig => [sig]
  | .rnote regs => Operand.lits (.lit64 regs)
  | .yieldon a b => a.lits ++ b.lits
  | .qfeat _ a => a.lits
  | .wrsr a _ => a.lits
  | .mgrantCreate a => a.lits
  | .mgrantRevoke a => a.lits
  | .sigWrite a => a.lits
  | .pkset a => a.lits
  | .add _ a b => a.lits ++ b.lits
  | .sub _ a b => a.lits ++ b.lits
  | .neg _ a => a.lits
  | .mul _ a b => a.lits ++ b.lits
  | .mulhi _ a b => a.lits ++ b.lits
  | .mad _ a b => a.lits ++ b.lits
  | .div _ a b => a.lits ++ b.lits
  | .rem _ a b => a.lits ++ b.lits
  | .min _ a b => a.lits ++ b.lits
  | .max _ a b => a.lits ++ b.lits
  | .abs _ a => a.lits
  | .dot4 _ a b => a.lits ++ b.lits
  | .brev _ a => a.lits
  | .popc _ a => a.lits
  | .clz _ a => a.lits
  | .cmpeq _ a b => a.lits ++ b.lits
  | .cmpne _ a b => a.lits ++ b.lits
  | .cmplt _ a b => a.lits ++ b.lits
  | .cmple _ a b => a.lits ++ b.lits
  | .and _ a b => a.lits ++ b.lits
  | .or _ a b => a.lits ++ b.lits
  | .xor _ a b => a.lits ++ b.lits
  | .not _ a => a.lits
  | .shl _ a b => a.lits ++ b.lits
  | .shr _ a b => a.lits ++ b.lits
  | .sra _ a b => a.lits ++ b.lits
  | .bfe _ a b => a.lits ++ b.lits
  | .bfi _ a b => a.lits ++ b.lits
  | .fadd _ a b => a.lits ++ b.lits
  | .fsub _ a b => a.lits ++ b.lits
  | .fmul _ a b => a.lits ++ b.lits
  | .fma _ a b => a.lits ++ b.lits
  | .fneg _ a => a.lits
  | .fabs _ a => a.lits
  | .fmin _ a b => a.lits ++ b.lits
  | .fmax _ a b => a.lits ++ b.lits
  | .fdiv _ a b => a.lits ++ b.lits
  | .fsqrt _ a => a.lits
  | .frcp _ a => a.lits
  | .frsq _ a => a.lits
  | .fexp2 _ a => a.lits
  | .flog2 _ a => a.lits
  | .fsin _ a => a.lits
  | .fcos _ a => a.lits
  | .frnd _ a => a.lits
  | .fcmpeq _ a b => a.lits ++ b.lits
  | .fcmplt _ a b => a.lits ++ b.lits
  | .fcmple _ a b => a.lits ++ b.lits
  | .fcmpun _ a b => a.lits ++ b.lits
  | .fclass _ a => a.lits
  | .cmul _ a b => a.lits ++ b.lits
  | .cmad _ a b => a.lits ++ b.lits
  | .cvtif _ a => a.lits
  | .cvtfi _ a => a.lits
  | .cvtff _ a _ => a.lits
  | .cvtn8 _ a _ => a.lits
  | .cvtw8 _ a _ => a.lits
  | .mov _ a => a.lits
  | .sel _ a b => a.lits ++ b.lits
  | .promote _ a b => a.lits ++ b.lits
  | .demote _ a => a.lits
  | .vall _ a => a.lits
  | .vany _ a => a.lits
  | .veq _ a => a.lits
  | .ballot _ a => a.lits
  | .shfl _ a b => a.lits ++ b.lits
  | .shflx _ a _ => a.lits
  | .shfldn _ a _ => a.lits
  | .shflup _ a _ => a.lits
  | .pand _ a b => a.lits ++ b.lits
  | .por _ a b => a.lits ++ b.lits
  | .pxor _ a b => a.lits ++ b.lits
  | .pnot _ a => a.lits
  | .ret a => a.lits
  | .jmpi a => a.lits
  | .calli _ a => a.lits
  | .bar a => a.lits
  | .barrive _ a => a.lits
  | .bwait a b => a.lits ++ b.lits
  | .grow _ a b => a.lits ++ b.lits
  | .attach _ a => a.lits
  | .detach a => a.lits
  | .bmem _ a => a.lits
  | .lds _ a => a.lits
  | .sts a b => a.lits ++ b.lits
  | .ldsl _ a b => a.lits ++ b.lits
  | .stsl d a b => d.lits ++ a.lits ++ b.lits
  | .ldlk _ a => a.lits
  | .stul _ a b => a.lits ++ b.lits
  | .sadd _ a b => a.lits ++ b.lits
  | .smin _ a b => a.lits ++ b.lits
  | .smax _ a b => a.lits ++ b.lits
  | .sxchg _ a b => a.lits ++ b.lits
  | .scas _ a b => a.lits ++ b.lits
  | .sand _ a b => a.lits ++ b.lits
  | .sor _ a b => a.lits ++ b.lits
  | .ld _ a => a.lits
  | .st a b => a.lits ++ b.lits
  | .ldacq _ a => a.lits
  | .strel a b => a.lits ++ b.lits
  | .gadd _ a b => a.lits ++ b.lits
  | .gmin _ a b => a.lits ++ b.lits
  | .gmax _ a b => a.lits ++ b.lits
  | .gxchg _ a b => a.lits ++ b.lits
  | .gcas _ a b => a.lits ++ b.lits
  | .gand _ a b => a.lits ++ b.lits
  | .gor _ a b => a.lits ++ b.lits
  | .pref a _ => a.lits
  | .wseq _ a b => a.lits ++ b.lits
  | .mma _ _ a b => a.lits ++ b.lits
  | .mmaw _ _ a b => a.lits ++ b.lits
  | .tcfg _ a => a.lits
  | .twin _ a => a.lits
  | .accrd _ a b => a.lits ++ b.lits
  | .accwr _ a b => a.lits ++ b.lits
  | .mdrain _ a _ _ => a.lits
  | .hist a => a.lits
  | .hscale _ a => a.lits
  | .qcvt _ a _ _ => a.lits
  | .cpin _ a => a.lits
  | .cpout _ a => a.lits
  | .bcpin _ a => a.lits
  | .bcpout _ a => a.lits
  | .gath _ a b => a.lits ++ b.lits
  | .qseq _ a => a.lits
  | .cbar _ a => a.lits
  | .cred _ a b => a.lits ++ b.lits
  | .dput a b => a.lits ++ b.lits
  | .dtake _ a b => a.lits ++ b.lits
  | .sdwait a => a.lits
  | .launch _ a b => a.lits ++ b.lits
  | .lwait _ a => a.lits
  | .lstat _ a => a.lits
  | .wpset a _ => a.lits
  | .pchk _ a _ => a.lits
  | .ptag _ a => a.lits
  | _ => []

/-- The words of an instruction: its word and its literal words; none for a row without an encoding. -/
def encode (i : Instr) : List Word :=
  match i.word? with
  | some w => w :: i.lits
  | none => []

/-- Whether an opcode is a dash of the R26 map, or the header's 0xFC, which is no instruction in a body (R29). -/
def reservedOpcode (op : Nat) : Bool :=
  match op with
  | 0x00 | 0x01 | 0x02 | 0x03 | 0x04 | 0x05 | 0x06 | 0x07 | 0x08 | 0x09 | 0x0A | 0x0B | 0x0C | 0x0D | 0x0E | 0x0F
  | 0x10 | 0x11 | 0x12 | 0x13 | 0x14 | 0x15 | 0x16 | 0x17 | 0x18 | 0x19 | 0x1A | 0x1B | 0x1C | 0x1D | 0x1E | 0x20
  | 0x21 | 0x22 | 0x23 | 0x24 | 0x25 | 0x26 | 0x27 | 0x28 | 0x29 | 0x2A | 0x2B | 0x2C | 0x30 | 0x31 | 0x32 | 0x33
  | 0x34 | 0x35 | 0x36 | 0x37 | 0x38 | 0x39 | 0x3A | 0x3B | 0x3C | 0x3D | 0x3E | 0x3F | 0x40 | 0x41 | 0x42 | 0x43
  | 0x44 | 0x45 | 0x46 | 0x47 | 0x48 | 0x49 | 0x4A | 0x4B | 0x4C | 0x50 | 0x51 | 0x52 | 0x53 | 0x54 | 0x55 | 0x56
  | 0x57 | 0x58 | 0x59 | 0x5A | 0x5B | 0x5C | 0x5D | 0x5E | 0x5F | 0x60 | 0x61 | 0x62 | 0x63 | 0x64 | 0x65 | 0x66
  | 0x67 | 0x68 | 0x69 | 0x70 | 0x71 | 0x72 | 0x73 | 0x74 | 0x75 | 0x76 | 0x77 | 0x80 | 0x81 | 0x82 | 0x83 | 0x84
  | 0x85 | 0x86 | 0x87 | 0x88 | 0x89 | 0x8A | 0x8B | 0x8C | 0x90 | 0x91 | 0x92 | 0x93 | 0x94 | 0x95 | 0x96 | 0x97
  | 0x98 | 0x99 | 0x9A | 0x9B | 0x9C | 0x9D | 0x9E | 0xA0 | 0xA1 | 0xA2 | 0xA3 | 0xA4 | 0xA5 | 0xA6 | 0xA7 | 0xA8
  | 0xA9 | 0xAA | 0xAB | 0xAC | 0xAD | 0xAE | 0xAF | 0xB0 | 0xB1 | 0xB2 | 0xB3 | 0xB4 | 0xB5 | 0xB6 | 0xB7 | 0xB8
  | 0xB9 | 0xC0 | 0xC1 | 0xC2 | 0xC3 | 0xC4 | 0xC5 | 0xC6 | 0xC7 | 0xC8 | 0xD0 | 0xD1 | 0xD2 | 0xD3 | 0xD4 | 0xD5
  | 0xD6 | 0xD7 | 0xE0 | 0xE1 | 0xE2 | 0xE3 | 0xE4 => false
  | _ => true

/-- The operands of an instruction, with whether their field takes literal words (R24). -/
def Instr.operands : Instr → List (Operand × Bool)
  | .elect d => [(d, false)]
  | .yieldon a b => [(a, true), (b, true)]
  | .qfeat d a => [(d, false), (a, true)]
  | .rdsr d _ => [(d, false)]
  | .rdsrTimelo d => [(d, false)]
  | .wrsr a _ => [(a, true)]
  | .mgrantCreate a => [(a, true)]
  | .mgrantRevoke a => [(a, true)]
  | .sigWrite a => [(a, true)]
  | .pkset a => [(a, true)]
  | .add d a b => [(d, false), (a, true), (b, true)]
  | .sub d a b => [(d, false), (a, true), (b, true)]
  | .neg d a => [(d, false), (a, true)]
  | .mul d a b => [(d, false), (a, true), (b, true)]
  | .mulhi d a b => [(d, false), (a, true), (b, true)]
  | .mad d a b => [(d, false), (a, true), (b, true)]
  | .div d a b => [(d, false), (a, true), (b, true)]
  | .rem d a b => [(d, false), (a, true), (b, true)]
  | .min d a b => [(d, false), (a, true), (b, true)]
  | .max d a b => [(d, false), (a, true), (b, true)]
  | .abs d a => [(d, false), (a, true)]
  | .dot4 d a b => [(d, false), (a, true), (b, true)]
  | .brev d a => [(d, false), (a, true)]
  | .popc d a => [(d, false), (a, true)]
  | .clz d a => [(d, false), (a, true)]
  | .cmpeq d a b => [(d, false), (a, true), (b, true)]
  | .cmpne d a b => [(d, false), (a, true), (b, true)]
  | .cmplt d a b => [(d, false), (a, true), (b, true)]
  | .cmple d a b => [(d, false), (a, true), (b, true)]
  | .and d a b => [(d, false), (a, true), (b, true)]
  | .or d a b => [(d, false), (a, true), (b, true)]
  | .xor d a b => [(d, false), (a, true), (b, true)]
  | .not d a => [(d, false), (a, true)]
  | .shl d a b => [(d, false), (a, true), (b, true)]
  | .shr d a b => [(d, false), (a, true), (b, true)]
  | .sra d a b => [(d, false), (a, true), (b, true)]
  | .bfe d a b => [(d, false), (a, true), (b, true)]
  | .bfi d a b => [(d, false), (a, true), (b, true)]
  | .fadd d a b => [(d, false), (a, true), (b, true)]
  | .fsub d a b => [(d, false), (a, true), (b, true)]
  | .fmul d a b => [(d, false), (a, true), (b, true)]
  | .fma d a b => [(d, false), (a, true), (b, true)]
  | .fneg d a => [(d, false), (a, true)]
  | .fabs d a => [(d, false), (a, true)]
  | .fmin d a b => [(d, false), (a, true), (b, true)]
  | .fmax d a b => [(d, false), (a, true), (b, true)]
  | .fdiv d a b => [(d, false), (a, true), (b, true)]
  | .fsqrt d a => [(d, false), (a, true)]
  | .frcp d a => [(d, false), (a, true)]
  | .frsq d a => [(d, false), (a, true)]
  | .fexp2 d a => [(d, false), (a, true)]
  | .flog2 d a => [(d, false), (a, true)]
  | .fsin d a => [(d, false), (a, true)]
  | .fcos d a => [(d, false), (a, true)]
  | .frnd d a => [(d, false), (a, true)]
  | .fcmpeq d a b => [(d, false), (a, true), (b, true)]
  | .fcmplt d a b => [(d, false), (a, true), (b, true)]
  | .fcmple d a b => [(d, false), (a, true), (b, true)]
  | .fcmpun d a b => [(d, false), (a, true), (b, true)]
  | .fclass d a => [(d, false), (a, true)]
  | .cmul d a b => [(d, false), (a, true), (b, true)]
  | .cmad d a b => [(d, false), (a, true), (b, true)]
  | .cvtif d a => [(d, false), (a, true)]
  | .cvtfi d a => [(d, false), (a, true)]
  | .cvtff d a _ => [(d, false), (a, true)]
  | .cvtn8 d a _ => [(d, false), (a, true)]
  | .cvtw8 d a _ => [(d, false), (a, true)]
  | .mov d a => [(d, false), (a, true)]
  | .sel d a b => [(d, false), (a, true), (b, true)]
  | .promote d a b => [(d, false), (a, true), (b, true)]
  | .demote d a => [(d, false), (a, true)]
  | .vall d a => [(d, false), (a, true)]
  | .vany d a => [(d, false), (a, true)]
  | .veq d a => [(d, false), (a, true)]
  | .ballot d a => [(d, false), (a, true)]
  | .shfl d a b => [(d, false), (a, true), (b, true)]
  | .shflx d a _ => [(d, false), (a, true)]
  | .shfldn d a _ => [(d, false), (a, true)]
  | .shflup d a _ => [(d, false), (a, true)]
  | .pand d a b => [(d, false), (a, true), (b, true)]
  | .por d a b => [(d, false), (a, true), (b, true)]
  | .pxor d a b => [(d, false), (a, true), (b, true)]
  | .pnot d a => [(d, false), (a, true)]
  | .bp p _ => [(p, false)]
  | .bnp p _ => [(p, false)]
  | .bany p _ => [(p, false)]
  | .ball p _ => [(p, false)]
  | .bnone p _ => [(p, false)]
  | .ret a => [(a, true)]
  | .jmpi a => [(a, true)]
  | .calli _ a => [(a, true)]
  | .bar a => [(a, true)]
  | .barrive d a => [(d, false), (a, true)]
  | .bwait a b => [(a, true), (b, true)]
  | .grow d a b => [(d, false), (a, true), (b, true)]
  | .attach d a => [(d, false), (a, true)]
  | .detach a => [(a, true)]
  | .shrinkq d => [(d, false)]
  | .bmem d a => [(d, false), (a, true)]
  | .lds d a => [(d, false), (a, true)]
  | .sts a b => [(a, true), (b, true)]
  | .ldsl d a b => [(d, false), (a, true), (b, true)]
  | .stsl d a b => [(d, true), (a, true), (b, true)]
  | .ldlk d a => [(d, false), (a, true)]
  | .stul d a b => [(d, false), (a, true), (b, true)]
  | .sadd d a b => [(d, false), (a, true), (b, true)]
  | .smin d a b => [(d, false), (a, true), (b, true)]
  | .smax d a b => [(d, false), (a, true), (b, true)]
  | .sxchg d a b => [(d, false), (a, true), (b, true)]
  | .scas d a b => [(d, false), (a, true), (b, true)]
  | .sand d a b => [(d, false), (a, true), (b, true)]
  | .sor d a b => [(d, false), (a, true), (b, true)]
  | .ld d a => [(d, false), (a, true)]
  | .st a b => [(a, true), (b, true)]
  | .ldacq d a => [(d, false), (a, true)]
  | .strel a b => [(a, true), (b, true)]
  | .gadd d a b => [(d, false), (a, true), (b, true)]
  | .gmin d a b => [(d, false), (a, true), (b, true)]
  | .gmax d a b => [(d, false), (a, true), (b, true)]
  | .gxchg d a b => [(d, false), (a, true), (b, true)]
  | .gcas d a b => [(d, false), (a, true), (b, true)]
  | .gand d a b => [(d, false), (a, true), (b, true)]
  | .gor d a b => [(d, false), (a, true), (b, true)]
  | .pref a _ => [(a, true)]
  | .wseq d a b => [(d, false), (a, true), (b, true)]
  | .mma _ d a b => [(d, false), (a, true), (b, true)]
  | .mmaw _ d a b => [(d, false), (a, true), (b, true)]
  | .tcfg d a => [(d, false), (a, true)]
  | .twin d a => [(d, false), (a, true)]
  | .accz d => [(d, false)]
  | .accrd d a b => [(d, false), (a, true), (b, true)]
  | .accwr d a b => [(d, false), (a, true), (b, true)]
  | .mdrain d a _ _ => [(d, false), (a, true)]
  | .hist a => [(a, true)]
  | .hscale d a => [(d, false), (a, true)]
  | .qcvt d a _ _ => [(d, false), (a, true)]
  | .cpin d a => [(d, false), (a, true)]
  | .cpout d a => [(d, false), (a, true)]
  | .bcpin d a => [(d, false), (a, true)]
  | .bcpout d a => [(d, false), (a, true)]
  | .gath d a b => [(d, false), (a, true), (b, true)]
  | .cseal d => [(d, false)]
  | .qseq d a => [(d, false), (a, true)]
  | .cbar d a => [(d, false), (a, true)]
  | .cred d a b => [(d, false), (a, true), (b, true)]
  | .dput a b => [(a, true), (b, true)]
  | .dtake d a b => [(d, false), (a, true), (b, true)]
  | .sdwait a => [(a, true)]
  | .launch d a b => [(d, false), (a, true), (b, true)]
  | .lwait d a => [(d, false), (a, true)]
  | .lstat d a => [(d, false), (a, true)]
  | .wpset a _ => [(a, true)]
  | .pchk d a _ => [(d, false), (a, true)]
  | .ptag d a => [(d, false), (a, true)]
  | _ => []

/-- Whether the words of an instruction say it: its register numbers are in range, it has an encoding, a literal
stands only where a field takes literal words and at most once, `mode` bits [5:0] are zero as R31 requires, and a
row that names one system register is used for it alone. Log entry 86 (DEDUCED). -/
def Instr.encodable (i : Instr) : Bool :=
  i.word?.isSome && i.operands.all (fun o => o.1.inRange && (o.2 || !o.1.isLit))
    && decide ((i.operands.filter (fun o => o.1.isLit)).length ≤ 1)
    && match i with
      | .mode m => decide (m.toNat % 64 = 0)
      | .rdsr _ n => decide (n.toNat ≠ 0x18)
      | .wrsr _ n => decide (n.toNat ≠ 0x3B ∧ n.toNat ≠ 0xA1)
      | .mgrantCreate (.lit32 g) => !g.getLsbD 4
      | .mgrantRevoke (.lit32 g) => g.getLsbD 4
      | .mgrantRevoke _ => false
      | .illegalOpcode w => reservedOpcode (opcodeOf w)
      | _ => true

end Sys2Proof
end

