-- ==== Sys2Proof/WellFormed.lean ====
section
/-! DEFINITION. Well-formed instructions: those that an encoded word can say. Which operand an instruction accepts in
which role is no matter of form: the device checks it when the instruction issues (R29). -/

namespace Sys2Proof

/-- A well-formed instruction (R22 to R28). Log entry 86 (DEDUCED). -/
def Instr.wf (i : Instr) : Bool := i.encodable

end Sys2Proof
end

