-- ==== Sys2Proof/Machine/Forms.lean ====
section
/-! DEFINITION. The forms of the instructions: which operand each field accepts, in which width, and whether it is
read or written (R23 to R25, R109, R121, R148, R181, R192, R216, R267, R286, R325, R339); field limits (R28); pipes
(R27); latency classes (R39); accepted types (R120); which instructions read the guard and which test the mask. -/

namespace Sys2Proof.Machine

/-- The kinds of operand codes (R23). -/
inductive OpKindR23 where
  | v | s | a | p | z | lane | lit32 | lit64 | wid | bid | live | act | t | acc | fs | b | q
  deriving DecidableEq, Repr

/-- The kind of an operand; none for a reserved code. -/
def opKind : Operand → Option OpKindR23
  | .v _ => some .v
  | .s _ => some .s
  | .a _ => some .a
  | .p _ => some .p
  | .z => some .z
  | .lane => some .lane
  | .lit32 _ => some .lit32
  | .lit64 _ => some .lit64
  | .wid => some .wid
  | .bid => some .bid
  | .live => some .live
  | .act => some .act
  | .t _ => some .t
  | .acc _ => some .acc
  | .fs _ => some .fs
  | .b _ => some .b
  | .q _ => some .q
  | .reserved _ => none

/-- "Value" of R121. -/
def value : List OpKindR23 := [.v, .s, .a, .z, .lane, .lit32, .lit64, .wid, .bid]
/-- A value or a predicate register (R325). -/
def valueP : List OpKindR23 := .p :: value
/-- A value or a predicate operand (R109). -/
def valuePred : List OpKindR23 := [.p, .live, .act] ++ value
/-- A scratchpad address (R192). -/
def address : List OpKindR23 := [.v, .s, .a, .z]
/-- A global address (R216). -/
def memory : List OpKindR23 := [.v, .s, .a, .lit64]
/-- A predicate source (R109). -/
def predSrc : List OpKindR23 := [.p, .live, .act, .z]

/-! ### Fields of `mode` (R31) and of the ordering byte (R33) -/

/-- itype: 0 i32, 1 n32, 2 i16, 3 n16, 4 i8, 5 n8, 6 i64, 7 n64. -/
def itype (m : BitVec 24) : Nat := m.toNat / 2 ^ 21
/-- ftype: 0 f32, 1 f16, 2 bf16, 3 f64. -/
def ftype (m : BitVec 24) : Nat := m.toNat / 2 ^ 18 % 8
/-- Guard enable. -/
def guardOn (m : BitVec 24) : Bool := m.getLsbD 17
/-- Guard predicate. -/
def guardReg (m : BitVec 24) : Nat := m.toNat / 2 ^ 14 % 8
/-- Guard invert. -/
def guardInv (m : BitVec 24) : Bool := m.getLsbD 13
/-- Rounding: 0 rne, 1 rtz, 2 rdn, 3 rup, 4 rna (R47). -/
def rounding (m : BitVec 24) : Nat := m.toNat / 2 ^ 10 % 8
/-- sat. -/
def satOn (m : BitVec 24) : Bool := m.getLsbD 9
/-- aov. -/
def aovOn (m : BitVec 24) : Bool := m.getLsbD 8
/-- ftz. -/
def ftzOn (m : BitVec 24) : Bool := m.getLsbD 7
/-- ws. -/
def wsOn (m : BitVec 24) : Bool := m.getLsbD 6
/-- Semantics of an ordering byte: 0 rlx, 1 acq, 2 rel, 3 ar. -/
def semantics (o : Byte) : Nat := o.toNat / 64
/-- Storage set of an ordering byte: bit 0 scratchpad, bit 1 global, bit 2 on-chip map. -/
def storageSet (o : Byte) : Nat := o.toNat / 8 % 8
/-- Agent scope of an ordering byte: 0 wave, 1 block, 2 die, 3 dev, 4 sys. -/
def scopeOf (o : Byte) : Nat := o.toNat % 8

/-- The width of an integer element in bits (R43). -/
def elemBits (it : Nat) : Nat := if it = 2 ∨ it = 3 then 16 else if it = 4 ∨ it = 5 then 8 else if it < 2 then 32 else 64
/-- Whether an integer type is signed (R43). -/
def isSigned (it : Nat) : Bool := it % 2 = 0
/-- Whether an integer type is 64 bits wide (R25). -/
def wideI (it : Nat) : Bool := decide (6 ≤ it)
/-- Whether an integer type is packed (R43). -/
def packedI (it : Nat) : Bool := decide (2 ≤ it ∧ it < 6)
/-- Whether a float type is packed (R46). -/
def packedF (ft : Nat) : Bool := ft = 1 ∨ ft = 2

/-! ### Operand slots -/

/-- How wide an operand is: one register; a pair where itype, or ftype, is 64 bits wide; always a pair; the result
of a compare; the target of `cvtff`; a pair when uniform (`ballot`); four registers; a layout word (R188); a copy
request (R165) or its queue; a watchpoint descriptor (R348); a value whose type stands in a control word (R280). -/
inductive Width where
  | one | pairI | pairF | pair | cmpI | cmpF | target (t : Nat) | ballot | quad | layout | request | copyQueue | watch
  | wideLit
  deriving DecidableEq, Repr

/-- An operand in its field: the operand, the kinds accepted there, its width, whether it is read and written. -/
structure Slot where
  op : Operand
  allow : List OpKindR23
  width : Width
  rd : Bool
  wr : Bool

/-- What `promote` into an affine register accepts as its stride (R111): a `lit32` only when A is no literal. -/
def strideB (a : Operand) : List OpKindR23 := if a.isLit then [.s, .z] else [.s, .lit32, .z]

/-- The operand slots of an instruction: sources A and B first, then D, then registers its description names.
Log entry 98 (DEDUCED). -/
def slots : Instr → List Slot
  | .elect d =>
    [⟨d, [.p, .s], .one, false, true⟩]
  | .yieldon a b =>
    [⟨a, [.s, .lit32, .z], .one, true, false⟩,
      ⟨b, [.s, .lit32, .z], .one, true, false⟩]
  | .qfeat d a =>
    [⟨a, [.s, .lit32], .one, true, false⟩,
      ⟨d, [.s, .z], .one, false, true⟩]
  | .rdsr d _ =>
    [⟨d, [.s, .z], .one, false, true⟩]
  | .rdsrTimelo d =>
    [⟨d, [.s, .z], .one, false, true⟩]
  | .wrsr a _ =>
    [⟨a, [.s, .lit32], .one, true, false⟩]
  | .mgrantCreate a =>
    [⟨a, [.s, .lit32], .one, true, false⟩]
  | .mgrantRevoke a =>
    [⟨a, [.s, .lit32], .one, true, false⟩]
  | .sigWrite a =>
    [⟨a, [.s, .lit32], .one, true, false⟩]
  | .pkset a =>
    [⟨a, [.s, .lit32, .lit64], .pair, true, false⟩]
  | .add d a b =>
    [⟨a, value, .pairI, true, false⟩,
      ⟨b, value, .pairI, true, false⟩,
      ⟨d, address, .pairI, false, true⟩]
  | .sub d a b =>
    [⟨a, value, .pairI, true, false⟩,
      ⟨b, value, .pairI, true, false⟩,
      ⟨d, address, .pairI, false, true⟩]
  | .neg d a =>
    [⟨a, value, .pairI, true, false⟩,
      ⟨d, address, .pairI, false, true⟩]
  | .mul d a b =>
    [⟨a, value, .pairI, true, false⟩,
      ⟨b, value, .pairI, true, false⟩,
      ⟨d, address, .pairI, false, true⟩]
  | .mulhi d a b =>
    [⟨a, value, .pairI, true, false⟩,
      ⟨b, value, .pairI, true, false⟩,
      ⟨d, [.v, .s, .z], .pairI, false, true⟩]
  | .mad d a b =>
    [⟨a, value, .pairI, true, false⟩,
      ⟨b, value, .pairI, true, false⟩,
      ⟨d, [.v, .s, .z], .pairI, true, true⟩]
  | .div d a b =>
    [⟨a, value, .pairI, true, false⟩,
      ⟨b, value, .pairI, true, false⟩,
      ⟨d, [.v, .s, .z], .pairI, false, true⟩]
  | .rem d a b =>
    [⟨a, value, .pairI, true, false⟩,
      ⟨b, value, .pairI, true, false⟩,
      ⟨d, [.v, .s, .z], .pairI, false, true⟩]
  | .min d a b =>
    [⟨a, value, .pairI, true, false⟩,
      ⟨b, value, .pairI, true, false⟩,
      ⟨d, [.v, .s, .z], .pairI, false, true⟩]
  | .max d a b =>
    [⟨a, value, .pairI, true, false⟩,
      ⟨b, value, .pairI, true, false⟩,
      ⟨d, [.v, .s, .z], .pairI, false, true⟩]
  | .abs d a =>
    [⟨a, value, .pairI, true, false⟩,
      ⟨d, [.v, .s, .z], .pairI, false, true⟩]
  | .dot4 d a b =>
    [⟨a, value, .pairI, true, false⟩,
      ⟨b, value, .pairI, true, false⟩,
      ⟨d, [.v, .s, .z], .pairI, true, true⟩]
  | .brev d a =>
    [⟨a, value, .pairI, true, false⟩,
      ⟨d, [.v, .s, .z], .pairI, false, true⟩]
  | .popc d a =>
    [⟨a, value, .pairI, true, false⟩,
      ⟨d, [.v, .s, .z], .pairI, false, true⟩]
  | .clz d a =>
    [⟨a, value, .pairI, true, false⟩,
      ⟨d, [.v, .s, .z], .pairI, false, true⟩]
  | .cmpeq d a b =>
    [⟨a, value, .pairI, true, false⟩,
      ⟨b, value, .pairI, true, false⟩,
      ⟨d, [.p, .s, .v, .z], .cmpI, false, true⟩]
  | .cmpne d a b =>
    [⟨a, value, .pairI, true, false⟩,
      ⟨b, value, .pairI, true, false⟩,
      ⟨d, [.p, .s, .v, .z], .cmpI, false, true⟩]
  | .cmplt d a b =>
    [⟨a, value, .pairI, true, false⟩,
      ⟨b, value, .pairI, true, false⟩,
      ⟨d, [.p, .s, .v, .z], .cmpI, false, true⟩]
  | .cmple d a b =>
    [⟨a, value, .pairI, true, false⟩,
      ⟨b, value, .pairI, true, false⟩,
      ⟨d, [.p, .s, .v, .z], .cmpI, false, true⟩]
  | .and d a b =>
    [⟨a, value, .pairI, true, false⟩,
      ⟨b, value, .pairI, true, false⟩,
      ⟨d, [.v, .s, .z], .pairI, false, true⟩]
  | .or d a b =>
    [⟨a, value, .pairI, true, false⟩,
      ⟨b, value, .pairI, true, false⟩,
      ⟨d, [.v, .s, .z], .pairI, false, true⟩]
  | .xor d a b =>
    [⟨a, value, .pairI, true, false⟩,
      ⟨b, value, .pairI, true, false⟩,
      ⟨d, [.v, .s, .z], .pairI, false, true⟩]
  | .not d a =>
    [⟨a, value, .pairI, true, false⟩,
      ⟨d, [.v, .s, .z], .pairI, false, true⟩]
  | .shl d a b =>
    [⟨a, value, .pairI, true, false⟩,
      ⟨b, value, .one, true, false⟩,
      ⟨d, address, .pairI, false, true⟩]
  | .shr d a b =>
    [⟨a, value, .pairI, true, false⟩,
      ⟨b, value, .one, true, false⟩,
      ⟨d, [.v, .s, .z], .pairI, false, true⟩]
  | .sra d a b =>
    [⟨a, value, .pairI, true, false⟩,
      ⟨b, value, .one, true, false⟩,
      ⟨d, [.v, .s, .z], .pairI, false, true⟩]
  | .bfe d a b =>
    [⟨a, value, .pairI, true, false⟩,
      ⟨b, value, .one, true, false⟩,
      ⟨d, [.v, .s, .z], .pairI, false, true⟩]
  | .bfi d a b =>
    [⟨a, value, .pairI, true, false⟩,
      ⟨b, value, .one, true, false⟩,
      ⟨d, [.v, .s, .z], .pairI, true, true⟩]
  | .fadd d a b =>
    [⟨a, value, .pairF, true, false⟩,
      ⟨b, value, .pairF, true, false⟩,
      ⟨d, [.v, .s, .z], .pairF, false, true⟩]
  | .fsub d a b =>
    [⟨a, value, .pairF, true, false⟩,
      ⟨b, value, .pairF, true, false⟩,
      ⟨d, [.v, .s, .z], .pairF, false, true⟩]
  | .fmul d a b =>
    [⟨a, value, .pairF, true, false⟩,
      ⟨b, value, .pairF, true, false⟩,
      ⟨d, [.v, .s, .z], .pairF, false, true⟩]
  | .fma d a b =>
    [⟨a, value, .pairF, true, false⟩,
      ⟨b, value, .pairF, true, false⟩,
      ⟨d, [.v, .s, .z], .pairF, true, true⟩]
  | .fneg d a =>
    [⟨a, value, .pairF, true, false⟩,
      ⟨d, [.v, .s, .z], .pairF, false, true⟩]
  | .fabs d a =>
    [⟨a, value, .pairF, true, false⟩,
      ⟨d, [.v, .s, .z], .pairF, false, true⟩]
  | .fmin d a b =>
    [⟨a, value, .pairF, true, false⟩,
      ⟨b, value, .pairF, true, false⟩,
      ⟨d, [.v, .s, .z], .pairF, false, true⟩]
  | .fmax d a b =>
    [⟨a, value, .pairF, true, false⟩,
      ⟨b, value, .pairF, true, false⟩,
      ⟨d, [.v, .s, .z], .pairF, false, true⟩]
  | .fdiv d a b =>
    [⟨a, value, .pairF, true, false⟩,
      ⟨b, value, .pairF, true, false⟩,
      ⟨d, [.v, .s, .z], .pairF, false, true⟩]
  | .fsqrt d a =>
    [⟨a, value, .pairF, true, false⟩,
      ⟨d, [.v, .s, .z], .pairF, false, true⟩]
  | .frcp d a =>
    [⟨a, value, .pairF, true, false⟩,
      ⟨d, [.v, .s, .z], .pairF, false, true⟩]
  | .frsq d a =>
    [⟨a, value, .pairF, true, false⟩,
      ⟨d, [.v, .s, .z], .pairF, false, true⟩]
  | .fexp2 d a =>
    [⟨a, value, .pairF, true, false⟩,
      ⟨d, [.v, .s, .z], .pairF, false, true⟩]
  | .flog2 d a =>
    [⟨a, value, .pairF, true, false⟩,
      ⟨d, [.v, .s, .z], .pairF, false, true⟩]
  | .fsin d a =>
    [⟨a, value, .pairF, true, false⟩,
      ⟨d, [.v, .s, .z], .pairF, false, true⟩]
  | .fcos d a =>
    [⟨a, value, .pairF, true, false⟩,
      ⟨d, [.v, .s, .z], .pairF, false, true⟩]
  | .frnd d a =>
    [⟨a, value, .pairF, true, false⟩,
      ⟨d, [.v, .s, .z], .pairF, false, true⟩]
  | .fcmpeq d a b =>
    [⟨a, value, .pairF, true, false⟩,
      ⟨b, value, .pairF, true, false⟩,
      ⟨d, [.p, .s, .v, .z], .cmpF, false, true⟩]
  | .fcmplt d a b =>
    [⟨a, value, .pairF, true, false⟩,
      ⟨b, value, .pairF, true, false⟩,
      ⟨d, [.p, .s, .v, .z], .cmpF, false, true⟩]
  | .fcmple d a b =>
    [⟨a, value, .pairF, true, false⟩,
      ⟨b, value, .pairF, true, false⟩,
      ⟨d, [.p, .s, .v, .z], .cmpF, false, true⟩]
  | .fcmpun d a b =>
    [⟨a, value, .pairF, true, false⟩,
      ⟨b, value, .pairF, true, false⟩,
      ⟨d, [.p, .s, .v, .z], .cmpF, false, true⟩]
  | .fclass d a =>
    [⟨a, value, .pairF, true, false⟩,
      ⟨d, [.v, .s, .z], .one, false, true⟩]
  | .cmul d a b =>
    [⟨a, [.v, .s, .z, .lit64], .pair, true, false⟩,
      ⟨b, [.v, .s, .z, .lit64], .pair, true, false⟩,
      ⟨d, [.v, .s], .pair, false, true⟩]
  | .cmad d a b =>
    [⟨a, [.v, .s, .z, .lit64], .pair, true, false⟩,
      ⟨b, [.v, .s, .z, .lit64], .pair, true, false⟩,
      ⟨d, [.v, .s], .pair, true, true⟩]
  | .cvtif d a =>
    [⟨a, value, .pairI, true, false⟩,
      ⟨d, [.v, .s, .z], .pairF, false, true⟩]
  | .cvtfi d a =>
    [⟨a, value, .pairF, true, false⟩,
      ⟨d, [.v, .s, .z], .pairI, false, true⟩]
  | .cvtff d a c =>
    [⟨a, value, .pairF, true, false⟩,
      ⟨d, [.v, .s, .z], (.target (c.toNat % 8)), true, true⟩]
  | .cvtn8 d a _ =>
    [⟨a, value, .pairF, true, false⟩,
      ⟨d, [.v, .s, .z], .one, true, true⟩]
  | .cvtw8 d a _ =>
    [⟨a, value, .one, true, false⟩,
      ⟨d, [.v, .s, .z], .pairF, false, true⟩]
  | .mov d a =>
    [⟨a, value, .pairI, true, false⟩,
      ⟨d, address, .pairI, false, true⟩]
  | .sel d a b =>
    [⟨a, [.p, .live, .act], .one, true, false⟩,
      ⟨b, value, .pairI, true, false⟩,
      ⟨d, [.v], .pairI, true, true⟩]
  | .promote (.v n) a _ => [⟨a, value, .pairI, true, false⟩, ⟨.v n, [.v, .a], .pairI, false, true⟩]
  | .promote d a b =>
    [⟨a, value, .pairI, true, false⟩, ⟨b, strideB a, .one, true, false⟩, ⟨d, [.v, .a], .pairI, false, true⟩]
  | .demote d a =>
    [⟨a, [.v, .a], .pairI, true, false⟩,
      ⟨d, [.s, .z], .pairI, false, true⟩]
  | .vall d a =>
    [⟨a, valuePred, .pairI, true, false⟩,
      ⟨d, [.s, .p], .one, false, true⟩]
  | .vany d a =>
    [⟨a, valuePred, .pairI, true, false⟩,
      ⟨d, [.s, .p], .one, false, true⟩]
  | .veq d a =>
    [⟨a, valuePred, .pairI, true, false⟩,
      ⟨d, [.s, .p], .one, false, true⟩]
  | .ballot d a =>
    [⟨a, valuePred, .pairI, true, false⟩,
      ⟨d, [.p, .s], .ballot, false, true⟩]
  | .shfl d a b =>
    [⟨a, value, .pairI, true, false⟩,
      ⟨b, value, .pairI, true, false⟩,
      ⟨d, [.v], .pairI, false, true⟩]
  | .shflx d a _ =>
    [⟨a, value, .pairI, true, false⟩,
      ⟨d, [.v], .pairI, false, true⟩]
  | .shfldn d a _ =>
    [⟨a, value, .pairI, true, false⟩,
      ⟨d, [.v], .pairI, false, true⟩]
  | .shflup d a _ =>
    [⟨a, value, .pairI, true, false⟩,
      ⟨d, [.v], .pairI, false, true⟩]
  | .pand d a b =>
    [⟨a, predSrc, .one, true, false⟩,
      ⟨b, predSrc, .one, true, false⟩,
      ⟨d, [.p], .one, false, true⟩]
  | .por d a b =>
    [⟨a, predSrc, .one, true, false⟩,
      ⟨b, predSrc, .one, true, false⟩,
      ⟨d, [.p], .one, false, true⟩]
  | .pxor d a b =>
    [⟨a, predSrc, .one, true, false⟩,
      ⟨b, predSrc, .one, true, false⟩,
      ⟨d, [.p], .one, false, true⟩]
  | .pnot d a =>
    [⟨a, predSrc, .one, true, false⟩,
      ⟨d, [.p], .one, false, true⟩]
  | .bp p _ =>
    [⟨p, [.p], .one, true, false⟩]
  | .bnp p _ =>
    [⟨p, [.p], .one, true, false⟩]
  | .bany p _ =>
    [⟨p, [.p], .one, true, false⟩]
  | .ball p _ =>
    [⟨p, [.p], .one, true, false⟩]
  | .bnone p _ =>
    [⟨p, [.p], .one, true, false⟩]
  | .call _ _ =>
    [⟨(.s 30), [.s], .pair, false, true⟩]
  | .ret a =>
    [⟨a, [.s], .pair, true, false⟩]
  | .jmpi a =>
    [⟨a, [.s, .lit64], .pair, true, false⟩]
  | .calli _ a =>
    [⟨a, [.s, .lit64], .pair, true, false⟩,
      ⟨(.s 30), [.s], .pair, false, true⟩]
  | .bar a =>
    [⟨a, [.b], .one, true, false⟩]
  | .barrive d a =>
    [⟨a, [.b], .one, true, false⟩,
      ⟨d, [.s, .z], .one, false, true⟩]
  | .bwait a b =>
    [⟨a, [.b], .one, true, false⟩,
      ⟨b, [.s, .lit32], .one, true, false⟩]
  | .grow d a b =>
    [⟨a, [.s, .lit32], .one, true, false⟩,
      ⟨b, [.s, .lit32], .one, true, false⟩,
      ⟨d, [.s, .z], .one, false, true⟩]
  | .attach d a =>
    [⟨a, [.s, .lit32], .one, true, false⟩,
      ⟨d, [.s, .z], .one, false, true⟩]
  | .detach a =>
    [⟨a, [.s, .lit32, .z], .one, true, false⟩]
  | .shrinkq d =>
    [⟨d, [.s], .one, false, true⟩]
  | .bmem d a =>
    [⟨a, [.b, .z], .one, true, false⟩,
      ⟨d, [.s], .one, false, true⟩]
  | .lds d a =>
    [⟨a, address, .one, true, false⟩,
      ⟨d, [.v, .z], .pairI, false, true⟩]
  | .sts a b =>
    [⟨a, address, .one, true, false⟩,
      ⟨b, value, .pairI, true, false⟩]
  | .ldsl d a b =>
    [⟨a, [.s], .layout, true, false⟩,
      ⟨b, [.v, .a, .s, .lit32], .one, true, false⟩,
      ⟨d, [.v, .z], .pairI, false, true⟩]
  | .stsl d a b =>
    [⟨a, [.s], .layout, true, false⟩,
      ⟨b, [.v, .a, .s, .lit32], .one, true, false⟩,
      ⟨d, value, .pairI, true, false⟩]
  | .ldlk d a =>
    [⟨a, address, .one, true, false⟩,
      ⟨d, [.v, .z], .pairI, false, true⟩]
  | .stul d a b =>
    [⟨a, address, .one, true, false⟩,
      ⟨b, value, .pairI, true, false⟩,
      ⟨d, [.p, .z], .one, false, true⟩]
  | .sadd d a b =>
    [⟨a, address, .one, true, false⟩,
      ⟨b, value, .pairI, true, false⟩,
      ⟨d, [.v, .z], .pairI, false, true⟩]
  | .smin d a b =>
    [⟨a, address, .one, true, false⟩,
      ⟨b, value, .pairI, true, false⟩,
      ⟨d, [.v, .z], .pairI, false, true⟩]
  | .smax d a b =>
    [⟨a, address, .one, true, false⟩,
      ⟨b, value, .pairI, true, false⟩,
      ⟨d, [.v, .z], .pairI, false, true⟩]
  | .sxchg d a b =>
    [⟨a, address, .one, true, false⟩,
      ⟨b, value, .pairI, true, false⟩,
      ⟨d, [.v, .z], .pairI, false, true⟩]
  | .scas d a b =>
    [⟨a, address, .one, true, false⟩,
      ⟨b, value, .pairI, true, false⟩,
      ⟨d, [.v, .z], .pairI, true, true⟩]
  | .sand d a b =>
    [⟨a, address, .one, true, false⟩,
      ⟨b, value, .pairI, true, false⟩,
      ⟨d, [.v, .z], .pairI, false, true⟩]
  | .sor d a b =>
    [⟨a, address, .one, true, false⟩,
      ⟨b, value, .pairI, true, false⟩,
      ⟨d, [.v, .z], .pairI, false, true⟩]
  | .ld d a =>
    [⟨a, memory, .pair, true, false⟩,
      ⟨d, [.v, .s, .z], .pairI, false, true⟩]
  | .st a b =>
    [⟨a, memory, .pair, true, false⟩,
      ⟨b, value, .pairI, true, false⟩]
  | .ldacq d a =>
    [⟨a, memory, .pair, true, false⟩,
      ⟨d, [.v, .s, .z], .pairI, false, true⟩]
  | .strel a b =>
    [⟨a, memory, .pair, true, false⟩,
      ⟨b, value, .pairI, true, false⟩]
  | .gadd d a b =>
    [⟨a, memory, .pair, true, false⟩,
      ⟨b, value, .pairI, true, false⟩,
      ⟨d, [.v, .s, .z], .pairI, false, true⟩]
  | .gmin d a b =>
    [⟨a, memory, .pair, true, false⟩,
      ⟨b, value, .pairI, true, false⟩,
      ⟨d, [.v, .s, .z], .pairI, false, true⟩]
  | .gmax d a b =>
    [⟨a, memory, .pair, true, false⟩,
      ⟨b, value, .pairI, true, false⟩,
      ⟨d, [.v, .s, .z], .pairI, false, true⟩]
  | .gxchg d a b =>
    [⟨a, memory, .pair, true, false⟩,
      ⟨b, value, .pairI, true, false⟩,
      ⟨d, [.v, .s, .z], .pairI, false, true⟩]
  | .gcas d a b =>
    [⟨a, memory, .pair, true, false⟩,
      ⟨b, value, .pairI, true, false⟩,
      ⟨d, [.v, .s, .z], .pairI, true, true⟩]
  | .gand d a b =>
    [⟨a, memory, .pair, true, false⟩,
      ⟨b, value, .pairI, true, false⟩,
      ⟨d, [.v, .s, .z], .pairI, false, true⟩]
  | .gor d a b =>
    [⟨a, memory, .pair, true, false⟩,
      ⟨b, value, .pairI, true, false⟩,
      ⟨d, [.v, .s, .z], .pairI, false, true⟩]
  | .pref a _ =>
    [⟨a, memory, .pair, true, false⟩]
  | .wseq d a b =>
    [⟨a, [.s], .pair, true, false⟩,
      ⟨b, [.s, .lit64], .pair, true, false⟩,
      ⟨d, [.s, .z], .pair, false, true⟩]
  | .mma _ d a b =>
    [⟨a, [.t], .one, true, false⟩,
      ⟨b, [.t], .one, true, false⟩,
      ⟨d, [.acc], .one, false, true⟩]
  | .mmaw _ d a b =>
    [⟨a, [.t], .one, true, false⟩,
      ⟨b, [.t], .one, true, false⟩,
      ⟨d, [.acc], .one, false, true⟩]
  | .tcfg d a =>
    [⟨a, [.s, .lit32], .one, true, false⟩,
      ⟨d, [.t], .one, false, true⟩]
  | .twin d a =>
    [⟨a, [.s, .lit32], .one, true, false⟩,
      ⟨d, [.t], .one, false, true⟩]
  | .accz d =>
    [⟨d, [.acc], .one, false, true⟩]
  | .accrd d a b =>
    [⟨a, [.acc], .one, true, false⟩,
      ⟨b, [.s, .lit32], .one, true, false⟩,
      ⟨d, [.v, .z], .one, false, true⟩]
  | .accwr d a b =>
    [⟨a, [.v, .s, .z, .lit32], .one, true, false⟩,
      ⟨b, [.s, .lit32], .one, true, false⟩,
      ⟨d, [.acc], .one, false, true⟩]
  | .mdrain d a m _ =>
    [⟨a, [.s], .pair, true, false⟩,
      ⟨d, [.acc], .one, true, false⟩,
      ⟨(.s m.toNat), [.s], .one, true, false⟩]
  | .hist a =>
    [⟨a, [.v, .s, .z], .one, true, false⟩]
  | .hscale d a =>
    [⟨a, [.s, .lit32], .one, true, false⟩,
      ⟨d, [.s], .one, false, true⟩]
  | .qcvt d a m _ =>
    [⟨a, [.v], .one, true, false⟩,
      ⟨d, [.t], .one, false, true⟩,
      ⟨(.s m.toNat), [.s], .one, true, false⟩]
  | .cpin d a =>
    [⟨a, [.s], .request, true, false⟩,
      ⟨d, [.q], .copyQueue, true, false⟩]
  | .cpout d a =>
    [⟨a, [.s], .request, true, false⟩,
      ⟨d, [.q], .copyQueue, true, false⟩]
  | .bcpin d a =>
    [⟨a, [.s], .request, true, false⟩,
      ⟨d, [.q], .copyQueue, true, false⟩]
  | .bcpout d a =>
    [⟨a, [.s], .request, true, false⟩,
      ⟨d, [.q], .copyQueue, true, false⟩]
  | .gath d a b =>
    [⟨a, [.v, .a, .s], .pair, true, false⟩,
      ⟨b, [.s, .lit32], .one, true, false⟩,
      ⟨d, [.s], .one, true, false⟩]
  | .cseal d =>
    [⟨d, [.s, .z], .one, false, true⟩]
  | .qseq d a =>
    [⟨a, [.q], .one, true, false⟩,
      ⟨d, [.s], .pair, false, true⟩]
  | .cbar d a =>
    [⟨a, [.s, .lit32], .one, true, false⟩,
      ⟨d, [.s, .z], .one, false, true⟩]
  | .cred d a b =>
    [⟨a, value, .wideLit, true, false⟩,
      ⟨b, [.s, .lit32], .one, true, false⟩,
      ⟨d, [.v], .one, false, true⟩]
  | .dput a b =>
    [⟨a, [.v], .quad, true, false⟩,
      ⟨b, [.v, .s, .lit32], .one, true, false⟩]
  | .dtake d a b =>
    [⟨a, [.v], .quad, false, true⟩,
      ⟨b, [.s, .lit32], .one, true, false⟩,
      ⟨d, [.p], .one, false, true⟩]
  | .sdwait a =>
    [⟨a, [.s, .lit64], .pair, true, false⟩]
  | .launch d a b =>
    [⟨a, [.s, .lit64], .pair, true, false⟩,
      ⟨b, [.s, .lit32], .one, true, false⟩,
      ⟨d, [.s], .pair, false, true⟩]
  | .lwait d a =>
    [⟨a, [.s, .lit32], .one, true, false⟩,
      ⟨d, [.s, .z], .one, false, true⟩]
  | .lstat d a =>
    [⟨a, [.s, .lit32], .one, true, false⟩,
      ⟨d, [.s], .one, false, true⟩]
  | .wpset a _ =>
    [⟨a, [.s], .watch, true, false⟩]
  | .pchk d a _ =>
    [⟨a, valueP, .pairI, true, false⟩,
      ⟨d, [.p], .one, false, true⟩]
  | .ptag d a =>
    [⟨a, valueP, .pairI, true, false⟩,
      ⟨d, [.v, .s, .z], .one, false, true⟩]
  | _ => []

/-- Whether an operand of this width is a pair under the mode (R25). -/
def isPair (w : Width) (m : BitVec 24) (op : Operand) : Bool :=
  match w with
  | .pairI => wideI (itype m)
  | .pairF => decide (ftype m = 3)
  | .pair => true
  | .cmpI => (match op with | .v _ => wideI (itype m) | _ => false)
  | .cmpF => (match op with | .v _ => decide (ftype m = 3) | _ => false)
  | .target t => decide (t = 3)
  | .ballot => (match op with | .s _ => true | _ => false)
  | _ => false

/-- Whether an operand code is accepted in its field (R23, R24, R25). -/
def slotOk (m : BitVec 24) (x : Slot) : Bool :=
  x.op.inRange &&
  (match opKind x.op with
    | some k => x.allow.contains k
    | none => false) &&
  (match x.op with
    | .v n =>
      if isPair x.width m x.op then decide (n % 2 = 0) else if x.width = .quad then decide (n % 4 = 0) else true
    | .s n =>
      if isPair x.width m x.op then decide (n % 2 = 0)
      else match x.width with
        | .layout => decide (n ≤ 29)
        | .request => decide (n % 2 = 0 ∧ n ≤ 24)
        | .watch => decide (n % 4 = 0)
        | _ => true
    | .lit64 _ => isPair x.width m x.op || decide (x.width = .wideLit)
    | .q n => if x.width = .copyQueue then decide (n < 4) else true
    | _ => true)

/-- Whether an instruction reads a slot's operand under the mode: `cvtff` reads D only when it narrows into a half of
it (R139). -/
def slotReads (m : BitVec 24) (i : Instr) (x : Slot) : Bool :=
  match i with
  | .cvtff _ _ c => x.rd && (!x.wr || (!packedF (ftype m) && packedF (c.toNat % 8)))
  | _ => x.rd

/-- The registers an operand names, as (code of the file, number): a window index for `v`. -/
def slotRegs (m : BitVec 24) (x : Slot) : List RegRef :=
  let n := if isPair x.width m x.op then 2
    else match x.width with
      | .quad => 4
      | .layout => 3
      | .request => 8
      | .watch => 4
      | _ => 1
  match x.op with
  | .v i => (List.range n).map (fun k => RegRef.v (i + k))
  | .s i => (List.range n).map (fun k => RegRef.s (i + k))
  | .a i => [.a i]
  | .p i => [.p i]
  | .acc i => [.acc i]
  | _ => []

/-! ### Field values (R28, order 2 of R29) -/

/-- A system register number that a chapter defines. -/
def sysDefined (n : Nat) : Bool :=
  decide (0x10 ≤ n ∧ n ≤ 0x16) || n = 0x18 || n = 0x19 || decide (0x20 ≤ n ∧ n ≤ 0x24) || decide (0x28 ≤ n ∧ n ≤ 0x2A)
    || n = 0x30 || decide (0x38 ≤ n ∧ n ≤ 0x3B) || decide (0x40 ≤ n ∧ n ≤ 0x67) || decide (0x70 ≤ n ∧ n ≤ 0x83)
    || decide (0x90 ≤ n ∧ n ≤ 0x93) || decide (0xA0 ≤ n ∧ n ≤ 0xA3)

/-- A system register that `wrsr` may name: `wstat`, `spills`, `fills`, `mgrant`, `cmapix`, `sig`. -/
def sysWritable (n : Nat) : Bool := n = 0x10 || n = 0x28 || n = 0x29 || n = 0x3B || n = 0x80 || n = 0xA1

/-- An ordering byte that R34 accepts. -/
def orderingOk (o : Byte) : Bool := decide (scopeOf o < 5 ∧ storageSet o ≠ 0)

/-- A value held in a field of the word that lies outside its defined set: the `trapval` of ILLEGAL_FIELD. -/
def fieldFault (i : Instr) (m : BitVec 24) : Option Word :=
  let bad (c : Bool) : Option Word := if c then some i.word else none
  match i with
  | .mode w =>
    bad (decide (w.toNat % 64 ≠ 0 ∨ 4 ≤ ftype w ∨ 5 ≤ rounding w) || (!guardOn w && decide (w.toNat / 2 ^ 13 % 16 ≠ 0)))
  | .omode o => bad (!orderingOk o)
  | .fence o => bad (!orderingOk o)
  | .call f _ => bad (decide (63 < f.toNat))
  | .calli f _ => bad (decide (63 < f.toNat))
  | .shflx _ _ k => bad (decide (63 < k.toNat))
  | .shfldn _ _ k => bad (decide (63 < k.toNat))
  | .shflup _ _ k => bad (decide (63 < k.toNat))
  | .cvtff _ _ c =>
    let t := c.toNat % 8
    let h := c.getLsbD 4
    let narrowing := decide ((ftype m = 0 ∨ ftype m = 3) ∧ (t = 1 ∨ t = 2))
    let widening := decide ((ftype m = 1 ∨ ftype m = 2) ∧ (t = 0 ∨ t = 3))
    bad (decide (32 ≤ c.toNat ∨ 4 ≤ t) || c.getLsbD 3 || (h && !(narrowing || widening)))
  | .cvtn8 _ _ c =>
    bad (decide (128 ≤ c.toNat) || !([3, 4, 5, 7, 8].contains (c.toNat % 16))
      || (decide (c.toNat % 16 < 7) && decide (4 ≤ c.toNat / 16 % 8)))
  | .cvtw8 _ _ c =>
    bad (decide (128 ≤ c.toNat) || !([3, 4, 5, 7, 8].contains (c.toNat % 16))
      || (decide (c.toNat % 16 < 7) && decide (4 ≤ c.toNat / 16 % 8)))
  | .cwait n => bad (decide (15 < n.toNat))
  | .qfence q => bad (decide (q.toNat = 0 ∨ 128 ≤ q.toNat))
  | .tret k => bad (decide (1 < k.toNat))
  | .wpset _ k => bad (decide (3 < k.toNat))
  | .wpclr k => bad (decide (k.toNat = 0 ∨ 15 < k.toNat))
  | .pchk _ _ k => bad (decide (k.toNat = 0 ∨ 7 < k.toNat))
  | .pref _ h => bad (decide (1 < h.toNat))
  | .promote (.v _) _ b => bad (decide (b ≠ .v 0))
  | .rdsr _ n => if sysDefined n.toNat then none else some (n.setWidth 32)
  | .wrsr _ n => if sysDefined n.toNat && sysWritable n.toNat then none else some (n.setWidth 32)
  | _ => none

/-- An affine destination given to an opcode outside R102 (R121): it traps with ILLEGAL_CLASS, not with
ILLEGAL_OPERAND. Log entry 19 (DEDUCED). -/
def affineElsewhere (i : Instr) : Bool :=
  let op := opcodeOf i.word
  decide (0x10 ≤ op ∧ op < 0x46 ∨ 0x48 ≤ op ∧ op < 0x50) &&
  (slots i).any (fun x => x.wr && (match x.op with | .a _ => !x.allow.contains .a | _ => false))

/-- An operand code that breaks R23, R24 or R25 (order 3 of R29). Log entry 19 (DEDUCED). -/
def operandFault (i : Instr) (m : BitVec 24) : Bool :=
  !((slots i).all (fun x => slotOk m x || (x.wr && affineElsewhere i))) || decide (1 < (i.operands.filter (fun o => o.2 && o.1.isLit)).length)

/-! ### Pipes (R27) and latency classes (R39) -/

/-- The pipes of a seat. -/
inductive Pipe where
  | v | sa | m | q
  deriving DecidableEq, Repr

/-- Whether an operand is a varying register. -/
def isVarying : Operand → Bool
  | .v _ => true
  | _ => false

/-- The pipe of an instruction (R27). Words that are no instruction issue on SA (log entry 3).
Log entry 3 (DESIGN CHOICE). -/
def pipeOf (i : Instr) : Pipe :=
  let op := opcodeOf i.word
  if 0x10 ≤ op ∧ op < 0x60 then
    if (slots i).any (fun x => isVarying x.op) then .v else .sa
  else if 0x80 ≤ op ∧ op < 0xA0 then .m
  else if 0xA0 ≤ op ∧ op < 0xE0 then .q
  else .sa

/-- The latency classes. -/
inductive Latency where
  | short | memLong | engineLong
  deriving DecidableEq, Repr

/-- The latency class of an instruction (R39). -/
def latencyOf : Instr → Latency
  | .div _ _ _ | .rem _ _ _ | .fdiv _ _ _ | .fsqrt _ _ | .lds _ _ | .ldsl _ _ _ | .ldlk _ _ | .stul _ _ _
  | .ld _ _ | .ldacq _ _ => .memLong
  | .sadd d _ _ | .smin d _ _ | .smax d _ _ | .sxchg d _ _ | .scas d _ _ | .sand d _ _ | .sor d _ _
  | .gadd d _ _ | .gmin d _ _ | .gmax d _ _ | .gxchg d _ _ | .gcas d _ _ | .gand d _ _ | .gor d _ _ =>
    if d = .z then .short else .memLong
  | .cpin _ _ | .cpout _ _ | .bcpin _ _ | .bcpout _ _ | .gath _ _ _ | .mma _ _ _ _ | .mmaw _ _ _ _ | .mdrain _ _ _ _
  | .cred _ _ _ | .dtake _ _ _ => .engineLong
  | _ => .short

/-- Whether a word in a body is an engine-class long operation (R36 step 2). -/
def engineWord (w : Word) : Bool :=
  let op := opcodeOf w
  decide (0xA0 ≤ op ∧ op < 0xB0 ∨ op = 0xB5 ∨ 0xC0 ≤ op ∧ op < 0xC5 ∨ op = 0xD1 ∨ op = 0xD3)

/-- The engine queue an instruction's request enters (R160): 0 to 3 `qc0` to `qc3`, 4 `qm`, 5 `qr`, 6 `qg`. -/
def queueOf : Instr → Option Nat
  | .cpin (.q n) _ | .cpout (.q n) _ | .bcpin (.q n) _ | .bcpout (.q n) _ => some n
  | .mma _ _ _ _ | .mmaw _ _ _ _ => some 4
  | .mdrain _ _ _ _ | .cred _ _ _ => some 5
  | .gath _ _ _ | .dtake _ _ _ => some 6
  | _ => none

/-- The yield points (R74). -/
def isYield : Instr → Bool
  | .yield | .yieldon _ _ | .bar _ | .bwait _ _ | .cbar _ _ | .cwait _ | .lwait _ _ | .sdwait _ | .wseq _ _ _ => true
  | _ => false

/-- The instructions that ignore the guard (R32, R34, R75, R76, R149, R147, R158, R170, R176, R222, R234, R259, R262,
R279, R336, R340, R348), `nop` and the words that only trap among them. -/
def ignoresGuard : Instr → Bool
  | .mode _ | .omode _ | .nop | .sigck _ | .rnote _ | .yield | .yieldon _ _ | .endWave | .trap _ | .brk _
  | .jmp _ | .bp _ _ | .bnp _ _ | .bany _ _ | .ball _ _ | .bnone _ _ | .call _ _ | .ret _ | .jmpi _ | .calli _ _
  | .icsync | .fence _ | .cpin _ _ | .cpout _ _ | .bcpin _ _ | .bcpout _ _ | .cwait _ | .wseq _ _ _ | .accz _
  | .mdrain _ _ _ _ | .cbar _ _ | .tret _ | .wpset _ _ | .wpclr _ | .launch _ _ _ | .ill _ _ _ | .illegalOpcode _ => true
  | _ => false

/-- Mask tests: whether an instruction must own every live lane (R87 with the guard, R155 without it), or is tested
as a uniform write (R104). -/
inductive MaskTest where
  | none | uniform | waveGuarded | waveWhole
  deriving DecidableEq, Repr

/-- The mask test of an instruction (R87, R104, R155, R157, R221, R276, R336, R340, R348). -/
def maskTest (i : Instr) : MaskTest :=
  match i with
  | .bar _ | .barrive _ _ | .bwait _ _ | .grow _ _ _ | .attach _ _ | .detach _ => .waveGuarded
  | .call _ _ | .calli _ _ | .ret _ | .endWave | .tret _ | .launch _ _ _ => .waveWhole
  | .wrsr _ _ | .mgrantCreate _ | .mgrantRevoke _ | .sigWrite _ | .pkset _ | .wpset _ _ | .wpclr _ => .uniform
  | _ => if (slots i).any (fun x => x.wr && (match x.op with | .s _ => true | .a _ => true | _ => false)) then .uniform
    else .none

/-! ### Classes (R101, R102) and types (R120) -/

/-- The class of a value operand: 0 uniform, 1 affine, 2 varying. -/
def rank : Operand → Nat
  | .v _ => 2
  | .a _ => 1
  | .lane => 1
  | _ => 0

/-- Whether every source of a destination's class rule is of its class or a lower one (R101). -/
def ranksOk (d : Operand) (srcs : List Operand) : Bool :=
  match d with
  | .v _ | .s _ | .a _ => srcs.all (fun x => decide (rank x ≤ rank d))
  | _ => true

/-- The affine forms of R102: the destination and the sources may stand together. -/
def affineForm (i : Instr) (m : BitVec 24) : Bool :=
  let typed := decide (itype m < 2 ∨ 6 ≤ itype m)
  match i with
  | .add (.a _) x y | .sub (.a _) x y => typed && decide (rank x ≤ 1 ∧ rank y ≤ 1)
  | .neg (.a _) x => typed && decide (rank x ≤ 1)
  | .mul (.a _) x y => typed && decide (rank x ≤ 1 ∧ rank y ≤ 1 ∧ (rank x = 0 ∨ rank y = 0))
  | .shl (.a _) x y => typed && decide (rank x ≤ 1 ∧ rank y = 0)
  | .mov (.a _) x => typed && decide (rank x = 1)
  | .promote (.a _) x _ => typed && decide (rank x = 0)
  | _ => true

/-- The class rule of an instruction (R101, R102, R109 to R111, R326): true when no ILLEGAL_CLASS applies.
Log entry 19 (DEDUCED). -/
def classOk (i : Instr) (m : BitVec 24) : Bool :=
  affineForm i m && !affineElsewhere i &&
  match i with
  | .mov .z _ => true
  | .mov d a => decide (rank a = rank d)
  | .promote d a _ => decide (rank a < rank d)
  | .demote _ _ | .elect _ => true
  | .vall d a | .vany d a | .veq d a | .ballot d a => ranksOk d [a]
  | .ld d a | .ldacq d a => ranksOk d [a]
  | .gadd d a b | .gmin d a b | .gmax d a b | .gxchg d a b | .gcas d a b | .gand d a b | .gor d a b => ranksOk d [a, b]
  | .ptag d a => ranksOk d [a] && (match d, a with | .s _, .p _ => false | _, _ => true)
  | _ =>
    let op := opcodeOf i.word
    if 0x10 ≤ op ∧ op < 0x50 then
      match (slots i).reverse with
      | x :: _ => ranksOk x.op ((slots i).map (·.op))
      | [] => true
    else true

/-- Whether the mode's type is one the instruction accepts (R120). -/
def typeOk (i : Instr) (m : BitVec 24) : Bool :=
  let it := itype m
  let ft := ftype m
  let oneElem (d : Operand) (packed : Bool) := match d with
    | .p _ => !packed
    | .s _ => !packed
    | _ => true
  match i with
  | .dot4 _ _ _ => decide (it < 2)
  | .bfe _ _ _ | .bfi _ _ _ | .sadd _ _ _ | .smin _ _ _ | .smax _ _ _ | .gadd _ _ _ | .gmin _ _ _ | .gmax _ _ _ =>
    decide (it < 2 ∨ 6 ≤ it)
  | .cmpeq d _ _ | .cmpne d _ _ | .cmplt d _ _ | .cmple d _ _ => oneElem d (packedI it)
  | .fcmpeq d _ _ | .fcmplt d _ _ | .fcmple d _ _ | .fcmpun d _ _ => oneElem d (packedF ft)
  | .frcp _ _ | .frsq _ _ | .fexp2 _ _ | .flog2 _ _ | .fsin _ _ | .fcos _ _ => decide (ft ≠ 3)
  | .cmul _ _ _ | .cmad _ _ _ | .cvtn8 _ _ _ | .cvtw8 _ _ _ => decide (ft = 0)
  | .cvtif _ _ | .cvtfi _ _ =>
    decide ((it < 2 ∨ 6 ≤ it) ∧ (ft = 0 ∨ ft = 3) ∨ (it = 2 ∨ it = 3) ∧ (ft = 1 ∨ ft = 2))
  | _ => true

/-- Cycles for which an instruction occupies its pipe (R119); a scratchpad access is counted by its banks (R183). -/
def occupancy (i : Instr) (m : BitVec 24) : Nat :=
  if pipeOf i ≠ .v then 1
  else match i with
    | .fneg _ _ | .fabs _ _ => 1
    | .mul _ _ _ | .mulhi _ _ _ | .mad _ _ _ | .div _ _ _ | .rem _ _ _ => if wideI (itype m) then 4 else 1
    | .cvtff _ _ c => if ftype m = 3 ∨ c.toNat % 8 = 3 then 4 else 1
    | _ => if 0x30 ≤ opcodeOf i.word ∧ opcodeOf i.word < 0x50 ∧ ftype m = 3 then 4 else 1

end Sys2Proof.Machine
end

