-- ==== Sys2Proof/Machine/Flags.lean ====
section
/-! DEFINITION. Sticky flags (R52, R53), the float formats (R46), and the one rounding step every conversion and
every float result uses (R47 to R50, R55). Values are exact: a sign, a natural number and a power of two. -/

namespace Sys2Proof.Machine

/-! ### Sticky flags of `wstat` (R52) -/

/-- A set of sticky flags. -/
abbrev Sticky := BitVec 9
def fINVALID : Sticky := 1
def fDIVZERO : Sticky := 2
def fOVERFLOW : Sticky := 4
def fUNDERFLOW : Sticky := 8
def fINEXACT : Sticky := 16
def fSAT : Sticky := 32
def fQX : Sticky := 64
def fACCSAT : Sticky := 128
def fMISS : Sticky := 256

/-- `f` if `c` holds, else no flag. -/
def when (c : Bool) (f : Sticky) : Sticky := if c then f else 0

/-! ### Integers (R43, R44) -/

/-- The least value of an integer type of `n` bits. -/
def intMin (signed : Bool) (n : Nat) : Int := if signed then -((2 ^ (n - 1) : Nat) : Int) else 0
/-- The greatest value of an integer type of `n` bits. -/
def intMax (signed : Bool) (n : Nat) : Int := if signed then ((2 ^ (n - 1) : Nat) : Int) - 1 else ((2 ^ n : Nat) : Int) - 1

/-- The integer a bit pattern of `n` bits stands for. -/
def intOf (signed : Bool) (n x : Nat) : Int := if signed then signExt n x else ((x % 2 ^ n : Nat) : Int)

/-- `Wrap` or `Sat` of an exact integer (R21, R44): the bit pattern and the flags. -/
def narrowInt (sat signed : Bool) (n : Nat) (x : Int) : Nat × Sticky :=
  if sat then
    if x < intMin signed n then (wrapInt n (intMin signed n), fSAT)
    else if intMax signed n < x then (wrapInt n (intMax signed n), fSAT)
    else (wrapInt n x, 0)
  else (wrapInt n x, 0)

/-! ### Float formats (R46, R62) -/

/-- How a format ends at the top: IEEE infinities and NaNs, E4M3's one NaN, or nothing (E2M1). -/
inductive Top where
  | ieee | nanOnly | none
  deriving DecidableEq, Repr

/-- A binary format: exponent and fraction widths, bias, and its top. -/
structure Fmt where
  eb : Nat
  fb : Nat
  bias : Int
  top : Top
  deriving DecidableEq, Repr

def f32 : Fmt := ⟨8, 23, 127, .ieee⟩
def f16 : Fmt := ⟨5, 10, 15, .ieee⟩
def bf16 : Fmt := ⟨8, 7, 127, .ieee⟩
def f64 : Fmt := ⟨11, 52, 1023, .ieee⟩
def e4m3 : Fmt := ⟨4, 3, 7, .nanOnly⟩
def e5m2 : Fmt := ⟨5, 2, 15, .ieee⟩
def e2m1 : Fmt := ⟨2, 1, 1, .none⟩
def f96 : Fmt := ⟨15, 80, 16383, .ieee⟩

/-- The width of a format in bits. -/
def Fmt.bits (f : Fmt) : Nat := f.eb + f.fb + 1

/-- The format of an ftype. -/
def fmtOf (ft : Nat) : Fmt := if ft = 0 then f32 else if ft = 1 then f16 else if ft = 2 then bf16 else f64

/-- The value of a float: a NaN with its fraction, an infinity, or (−1)^neg × m × 2^e. -/
inductive FVal where
  | nan (neg : Bool) (frac : Nat)
  | inf (neg : Bool)
  | fin (neg : Bool) (m : Nat) (e : Int)
  deriving DecidableEq, Repr

/-- The value that a bit pattern stands for in a format. -/
def fdecode (f : Fmt) (x : Nat) : FVal :=
  let neg := bitAt x (f.eb + f.fb)
  let ex := x / 2 ^ f.fb % 2 ^ f.eb
  let fr := x % 2 ^ f.fb
  if ex = 2 ^ f.eb - 1 ∧ f.top = .ieee then
    if fr = 0 then .inf neg else .nan neg fr
  else if ex = 2 ^ f.eb - 1 ∧ f.top = .nanOnly ∧ fr = 2 ^ f.fb - 1 then .nan neg fr
  else if ex = 0 then .fin neg fr (1 - f.bias - f.fb)
  else .fin neg (2 ^ f.fb + fr) ((ex : Int) - f.bias - f.fb)

/-- The bit pattern of a sign, an exponent field and a fraction field. -/
def fpack (f : Fmt) (neg : Bool) (ex fr : Nat) : Nat :=
  (if neg then 2 ^ (f.eb + f.fb) else 0) + ex * 2 ^ f.fb + fr

/-- The default NaN (R46). -/
def defaultNaN (f : Fmt) : Nat :=
  match f.top with
  | .nanOnly => fpack f false (2 ^ f.eb - 1) (2 ^ f.fb - 1)
  | _ => fpack f false (2 ^ f.eb - 1) (2 ^ (f.fb - 1))

/-- An infinity. -/
def infinity (f : Fmt) (neg : Bool) : Nat := fpack f neg (2 ^ f.eb - 1) 0

/-- The largest finite magnitude (R46). -/
def maxFinite (f : Fmt) (neg : Bool) : Nat :=
  match f.top with
  | .ieee => fpack f neg (2 ^ f.eb - 2) (2 ^ f.fb - 1)
  | .nanOnly => fpack f neg (2 ^ f.eb - 1) (2 ^ f.fb - 2)
  | .none => fpack f neg (2 ^ f.eb - 1) (2 ^ f.fb - 1)

/-- Whether the fraction of a NaN is that of a signalling NaN (R50). -/
def signalling (f : Fmt) (fr : Nat) : Bool :=
  match f.top with
  | .ieee => !bitAt fr (f.fb - 1)
  | _ => false

/-- The quiet form of a NaN in its format (R50). -/
def quietNaN (f : Fmt) (neg : Bool) (fr : Nat) : Nat :=
  match f.top with
  | .ieee => fpack f neg (2 ^ f.eb - 1) (if bitAt fr (f.fb - 1) then fr else fr + 2 ^ (f.fb - 1))
  | _ => fpack f neg (2 ^ f.eb - 1) fr

/-- A NaN of format `f` carried to format `g` (R50): sign and the most significant payload bits kept, quiet bit set.
Log entry 35 (DEDUCED). -/
def moveNaN (f g : Fmt) (neg : Bool) (fr : Nat) : Nat :=
  let fr' := if g.fb ≤ f.fb then fr / 2 ^ (f.fb - g.fb) else fr * 2 ^ (g.fb - f.fb)
  quietNaN g neg fr'

/-! ### Rounding (R47) -/

/-- Whether a magnitude is rounded up: `odd` is its last bit, `half` and `rest` compare the discarded part. -/
def roundsUp (rm : Nat) (neg odd : Bool) (half rest : Bool) : Bool :=
  if rm = 0 then half && (rest || odd)
  else if rm = 1 then false
  else if rm = 2 then neg && (half || rest)
  else if rm = 3 then !neg && (half || rest)
  else half

/-- `m` (with a part below it if `sticky`) divided by 2^s and rounded: the quotient and whether it is inexact. -/
def roundShift (rm : Nat) (neg : Bool) (m s : Nat) (sticky : Bool) : Nat × Bool :=
  if s = 0 then (if roundsUp rm neg (bitAt m 0) false sticky then m + 1 else m, sticky)
  else
    let q := m / 2 ^ s
    let r := m % 2 ^ s
    let half := decide (2 ^ (s - 1) ≤ r)
    let rest := decide (r % 2 ^ (s - 1) ≠ 0) || sticky
    (if roundsUp rm neg (bitAt q 0) half rest then q + 1 else q, decide (r ≠ 0) || sticky)

/-- A magnitude m × 2^e (with a part below m if `sticky`) rounded to `fb + 1` significant bits and no unit below
2^low: the rounded significand, its unit's exponent, whether it is inexact, whether it is tiny (R47). -/
structure Rounded where
  m : Nat
  e : Int
  inexact : Bool
  tiny : Bool
  deriving DecidableEq, Repr

/-- One rounding step to `fb + 1` bits with least unit 2^low. A sticky part needs at least two bits more than the
result's in m. -/
def roundSig (fb : Nat) (low : Int) (rm : Nat) (neg : Bool) (m : Nat) (e : Int) (sticky : Bool) : Rounded :=
  if m = 0 ∧ sticky = false then ⟨0, low, false, false⟩
  else
    let top := e + (Nat.log2 m : Int)
    let free := top - fb
    let unit := if free < low then low else free
    let at_ (u : Int) : Nat × Bool :=
      if u ≤ e then (m * 2 ^ (e - u).toNat, sticky) else roundShift rm neg m (u - e).toNat sticky
    let r := at_ unit
    let tiny := if free < low then decide ((at_ free).1 < 2 ^ (fb + 1)) || decide (top + 1 < low + fb) else false
    ⟨r.1, unit, r.2, tiny && decide (top < low + fb)⟩

/-- Whether a rounded magnitude exceeds the largest finite one of a format. -/
def tooBig (f : Fmt) (r : Rounded) : Bool :=
  match fdecode f (maxFinite f false) with
  | .fin _ m e => if e ≤ r.e then decide (m < r.m * 2 ^ (r.e - e).toNat) else decide (m * 2 ^ (e - r.e).toNat < r.m)
  | _ => false

/-- The fields of a rounded magnitude that fits a format. -/
def packRounded (f : Fmt) (neg : Bool) (r : Rounded) : Nat :=
  let m := if 2 ^ (f.fb + 1) ≤ r.m then r.m / 2 else r.m
  let e := if 2 ^ (f.fb + 1) ≤ r.m then r.e + 1 else r.e
  if m < 2 ^ f.fb then fpack f neg 0 m
  else fpack f neg (e + f.fb + f.bias).toNat (m - 2 ^ f.fb)

/-- The least unit of a format: the subnormal step. -/
def Fmt.low (f : Fmt) : Int := 1 - f.bias - f.fb

/-- What overflow gives under R47. -/
def overflowed (f : Fmt) (rm : Nat) (neg : Bool) : Nat :=
  if rm = 0 ∨ rm = 4 ∨ (rm = 2 ∧ neg) ∨ (rm = 3 ∧ ¬ neg) then infinity f neg else maxFinite f neg

/-- `Round` of R47 and R49 into an IEEE format: bits and flags. -/
def roundF (f : Fmt) (rm : Nat) (ftz neg : Bool) (m : Nat) (e : Int) (sticky : Bool := false) : Nat × Sticky :=
  let r := roundSig f.fb f.low rm neg m e sticky
  if tooBig f r then (overflowed f rm neg, fOVERFLOW ||| fINEXACT)
  else if ftz && decide (r.m ≠ 0) && decide (r.m < 2 ^ f.fb) then (fpack f neg 0 0, fUNDERFLOW ||| fINEXACT)
  else (packRounded f neg r, when r.inexact fINEXACT ||| when (r.inexact && r.tiny) fUNDERFLOW)

/-- A value read under R49: with ftz a subnormal is a zero of its sign. -/
def flushIn (f : Fmt) (ftz : Bool) (x : FVal) : FVal :=
  match x with
  | .fin neg m e => if ftz && decide (m < 2 ^ f.fb) then .fin neg 0 e else .fin neg m e
  | y => y

/-- A narrow target (R55): a float format, or INT8 and INT4. -/
inductive Narrow where
  | flt (f : Fmt)
  | int (n : Nat)
  deriving DecidableEq, Repr

/-- The target of an element code (R60). -/
def narrowOf (c : Nat) : Narrow :=
  if c = 3 then .flt e4m3 else if c = 4 then .flt e5m2 else if c = 5 then .int 8 else if c = 7 then .flt e2m1
  else .int 4

/-- A magnitude rounded to an integer. -/
def roundInt (rm : Nat) (neg : Bool) (m : Nat) (e : Int) (sticky : Bool := false) : Nat × Bool :=
  if 0 ≤ e then (m * 2 ^ e.toNat, sticky) else roundShift rm neg m (-e).toNat sticky

/-- Conversion of an exact value into a narrow target (R55): bits and flags. `src` is the format a NaN comes from. -/
def toNarrow (t : Narrow) (rm : Nat) (sat : Bool) (src : Fmt) (x : FVal) : Nat × Sticky :=
  match t, x with
  | .int _, .nan _ _ => (0, fINVALID)
  | .int n, .inf neg => (wrapInt n (if neg then intMin true n else intMax true n), fSAT)
  | .int n, .fin neg m e =>
    let r := roundInt rm neg m e
    let v : Int := if neg then -(r.1 : Int) else r.1
    if v < intMin true n then (wrapInt n (intMin true n), fSAT ||| fINEXACT)
    else if intMax true n < v then (wrapInt n (intMax true n), fSAT ||| fINEXACT)
    else (wrapInt n v, when r.2 fINEXACT)
  | .flt f, .nan neg fr =>
    match f.top with
    | .ieee => (moveNaN src f neg fr, when (signalling src fr) fINVALID)
    | .nanOnly => (fpack f neg (2 ^ f.eb - 1) (2 ^ f.fb - 1), when (signalling src fr) fINVALID)
    | .none => (0, fINVALID)
  | .flt f, .inf neg =>
    if sat || decide (f.top = .none) then (maxFinite f neg, fSAT)
    else match f.top with
      | .ieee => (infinity f neg, 0)
      | _ => (fpack f neg (2 ^ f.eb - 1) (2 ^ f.fb - 1), 0)
  | .flt f, .fin neg m e =>
    let r := roundSig f.fb f.low rm neg m e false
    if tooBig f r then
      if sat || decide (f.top = .none) then (maxFinite f neg, fOVERFLOW ||| fINEXACT ||| fSAT)
      else match f.top with
        | .ieee => (overflowed f rm neg, fOVERFLOW ||| fINEXACT)
        | _ => (fpack f neg (2 ^ f.eb - 1) (2 ^ f.fb - 1), fOVERFLOW ||| fINEXACT)
    else (packRounded f neg r, when r.inexact fINEXACT ||| when (r.inexact && r.tiny) fUNDERFLOW)

end Sys2Proof.Machine
end

