-- ==== Sys2Proof/Machine/Num.lean ====
section
/-! DEFINITION. The element operations of R122 to R141 on bit patterns: integer and float arithmetic, the functions
of R133, comparisons and conversions. Every float operation forms its exact value and rounds once (R48). -/

namespace Sys2Proof.Machine

/-! ### Integer elements (R45, R122 to R129) -/

/-- Quotient and remainder of R45 with their flags. -/
def divRem (sat signed : Bool) (n a b : Nat) : Nat × Nat × Sticky × Sticky :=
  let x := intOf signed n a
  let y := intOf signed n b
  if y = 0 then
    let q := if signed then (if 0 ≤ x then intMax true n else intMin true n) else intMax false n
    (wrapInt n q, a % 2 ^ n, fDIVZERO, fDIVZERO)
  else if signed ∧ x = intMin true n ∧ y = -1 then
    if sat then (wrapInt n (intMax true n), 0, fSAT, fSAT) else (wrapInt n x, 0, 0, 0)
  else
    let q := Int.tdiv x y
    (wrapInt n q, wrapInt n (x - q * y), 0, 0)

/-- The `n` bits of `x` in reverse order (R125). -/
def revBits : Nat → Nat → Nat
  | 0, _ => 0
  | n + 1, x => x % 2 * 2 ^ n + revBits n (x / 2)

/-- The number of set bits among the low `n` (R125). -/
def popCount : Nat → Nat → Nat
  | 0, _ => 0
  | n + 1, x => x % 2 + popCount n (x / 2)

/-- The zero bits above the most significant set bit of `n` bits (R125). -/
def leadingZeros (n x : Nat) : Nat := if x % 2 ^ n = 0 then n else n - 1 - Nat.log2 (x % 2 ^ n)

/-- `shl`, `shr`, `sra` of an element by a count (R127). -/
def shiftLeft (n a k : Nat) : Nat := if k < n then a * 2 ^ k % 2 ^ n else 0
def shiftRight (n a k : Nat) : Nat := if k < n then a % 2 ^ n / 2 ^ k else 0
def shiftArith (n a k : Nat) : Nat :=
  let k' := if k < n then k else n - 1
  wrapInt n (signExt n a / ((2 ^ k' : Nat) : Int))

/-- The field that a field word names in `n` bits (R128): offset and width, or none. -/
def fieldOf (n word : Nat) : Option (Nat × Nat) :=
  let o := word % 256
  let w := word / 256 % 256
  if n ≤ o ∨ w = 0 then none else some (o, Nat.min w (n - o))

/-- `bfe` (R128). -/
def bitExtract (signed : Bool) (n a word : Nat) : Nat :=
  match fieldOf n word with
  | none => 0
  | some (o, w) =>
    let f := a / 2 ^ o % 2 ^ w
    if signed then wrapInt n (signExt w f) else f

/-- `bfi` (R128). -/
def bitInsert (n a word c : Nat) : Nat :=
  match fieldOf n word with
  | none => c
  | some (o, w) => c % 2 ^ o + a % 2 ^ w * 2 ^ o + c / 2 ^ (o + w) * 2 ^ (o + w)

/-- `dot4` (R124): the exact sum. -/
def dot4Sum (signed : Bool) (a b c : Nat) : Int :=
  intOf signed 32 c + ((List.range 4).map (fun k =>
    intOf signed 8 (a / 2 ^ (8 * k)) * intOf signed 8 (b / 2 ^ (8 * k)))).foldl (· + ·) 0

/-! ### Exact sums of dyadic numbers -/

/-- A finite value as an integer multiple of 2^e. -/
def signedM (neg : Bool) (m : Nat) : Int := if neg then -(m : Int) else m

/-- x × 2^e + y × 2^g as a multiple of the smaller unit. -/
def addDyadic (x : Int) (e : Int) (y : Int) (g : Int) : Int × Int :=
  if e ≤ g then (x + y * ((2 ^ (g - e).toNat : Nat) : Int), e) else (x * ((2 ^ (e - g).toNat : Nat) : Int) + y, g)

/-- Rounds an exact sum; `zneg` is the sign of an exact zero (R47). -/
def roundSum (f : Fmt) (rm : Nat) (ftz zneg : Bool) (x : Int × Int) : Nat × Sticky :=
  if x.1 = 0 then (fpack f zneg 0 0, 0) else roundF f rm ftz (decide (x.1 < 0)) x.1.natAbs x.2

/-- The sign of an exactly zero sum of terms whose signs are given (R47): the common sign, else −0 only under rdn. -/
def zeroSign (rm : Nat) (n1 n2 : Bool) : Bool := if n1 = n2 then n1 else decide (rm = 2)

/-- The NaN result of R50 for operands in order, if one of them is a NaN: bits and flags. -/
def nanResult (f : Fmt) (xs : List FVal) : Option (Nat × Sticky) :=
  let sig := xs.any (fun x => match x with | .nan _ fr => signalling f fr | _ => false)
  firstSome (fun x => match x with
    | .nan neg fr => some (quietNaN f neg fr, when sig fINVALID)
    | _ => none) xs

/-- Whether a value is a zero. -/
def isZero : FVal → Bool
  | .fin _ m _ => m = 0
  | _ => false
/-- Whether a value is an infinity. -/
def isInf : FVal → Bool
  | .inf _ => true
  | _ => false
/-- The sign of a value. -/
def signOf : FVal → Bool
  | .nan n _ => n
  | .inf n => n
  | .fin n _ _ => n
/-- The value with its sign inverted. -/
def negF : FVal → FVal
  | .nan n f => .nan (!n) f
  | .inf n => .inf (!n)
  | .fin n m e => .fin (!n) m e

/-- What an arithmetic step needs: format, rounding, ftz. -/
structure FEnv where
  f : Fmt
  rm : Nat
  ftz : Bool

/-- A float element read under R49. -/
def FEnv.rd (g : FEnv) (x : Nat) : FVal := flushIn g.f g.ftz (fdecode g.f x)

/-- The default NaN with INVALID (R50). -/
def invalidF (f : Fmt) : Nat × Sticky := (defaultNaN f, fINVALID)

/-- a + b of values that are no NaN (R130). -/
def addF (g : FEnv) (a b : FVal) : Nat × Sticky :=
  match a, b with
  | .inf n, .inf k => if n = k then (infinity g.f n, 0) else invalidF g.f
  | .inf n, _ => (infinity g.f n, 0)
  | _, .inf n => (infinity g.f n, 0)
  | .fin n m e, .fin k p q => roundSum g.f g.rm g.ftz (zeroSign g.rm n k) (addDyadic (signedM n m) e (signedM k p) q)
  | _, _ => invalidF g.f

/-- `fadd` (R130). -/
def faddE (g : FEnv) (x y : Nat) : Nat × Sticky :=
  let a := g.rd x
  let b := g.rd y
  match nanResult g.f [a, b] with
  | some r => r
  | none => addF g a b

/-- `fsub` (R130). -/
def fsubE (g : FEnv) (x y : Nat) : Nat × Sticky :=
  let a := g.rd x
  let b := g.rd y
  match nanResult g.f [a, b] with
  | some r => r
  | none => addF g a (negF b)

/-- `fmul` (R130). -/
def fmulE (g : FEnv) (x y : Nat) : Nat × Sticky :=
  let a := g.rd x
  let b := g.rd y
  match nanResult g.f [a, b] with
  | some r => r
  | none =>
    let s := signOf a != signOf b
    match a, b with
    | .fin _ m e, .fin _ p q => if m * p = 0 then (fpack g.f s 0 0, 0) else roundF g.f g.rm g.ftz s (m * p) (e + q)
    | _, _ => if isZero a || isZero b then invalidF g.f else (infinity g.f s, 0)

/-- `fma` (R130): a × b + c, rounded once. -/
def fmaE (g : FEnv) (x y z : Nat) : Nat × Sticky :=
  let a := g.rd x
  let b := g.rd y
  let c := g.rd z
  let bad := (isZero a && isInf b) || (isInf a && isZero b)
  match nanResult g.f [a, b, c] with
  | some r => (r.1, r.2 ||| when bad fINVALID)
  | none =>
    if bad then invalidF g.f
    else
      let s := signOf a != signOf b
      match a, b, c with
      | .fin _ m e, .fin _ p q, .fin k r t =>
        roundSum g.f g.rm g.ftz (zeroSign g.rm s k) (addDyadic (signedM s (m * p)) (e + q) (signedM k r) t)
      | .fin _ _ _, .fin _ _ _, _ => (infinity g.f (signOf c), 0)
      | _, _, .inf k => if s = k then (infinity g.f s, 0) else invalidF g.f
      | _, _, _ => (infinity g.f s, 0)

/-- A quotient m ÷ p × 2^e with enough bits to round: significand, exponent, whether a part is left. -/
def quotient (bits m p : Nat) (e : Int) : Nat × Int × Bool :=
  let k := bits + Nat.log2 p + 1
  (m * 2 ^ k / p, e - k, decide (m * 2 ^ k % p ≠ 0))

/-- `fdiv` (R130). -/
def fdivE (g : FEnv) (x y : Nat) : Nat × Sticky :=
  let a := g.rd x
  let b := g.rd y
  match nanResult g.f [a, b] with
  | some r => r
  | none =>
    let s := signOf a != signOf b
    match a, b with
    | .fin _ m e, .fin _ p q =>
      if p = 0 then (if m = 0 then invalidF g.f else (infinity g.f s, fDIVZERO))
      else if m = 0 then (fpack g.f s 0 0, 0)
      else
        let r := quotient (g.f.fb + 4) m p (e - q)
        roundF g.f g.rm g.ftz s r.1 r.2.1 r.2.2
    | .fin _ _ _, _ => (fpack g.f s 0 0, 0)
    | _, .fin _ _ _ => (infinity g.f s, 0)
    | _, _ => invalidF g.f

/-- The integer square root, by bits from the top. -/
def isqrtGo : Nat → Nat → Nat → Nat
  | 0, _, r => r
  | k + 1, x, r => if (r + 2 ^ k) * (r + 2 ^ k) ≤ x then isqrtGo k x (r + 2 ^ k) else isqrtGo k x r

/-- The integer square root. -/
def isqrt (x : Nat) : Nat := isqrtGo (Nat.log2 x / 2 + 1) x 0

/-- √(m × 2^e) with at least `bits` bits: significand, exponent, whether a part is left. -/
def rootOf (bits m : Nat) (e : Int) : Nat × Int × Bool :=
  let k := 2 * bits + (if (e - 2 * bits) % 2 = 0 then 0 else 1)
  let y := m * 2 ^ k
  let r := isqrt y
  (r, (e - k) / 2, decide (r * r ≠ y))

/-- `fsqrt` (R130). -/
def fsqrtE (g : FEnv) (x : Nat) : Nat × Sticky :=
  let a := g.rd x
  match nanResult g.f [a] with
  | some r => r
  | none =>
    match a with
    | .fin n m e =>
      if m = 0 then (fpack g.f n 0 0, 0)
      else if n then invalidF g.f
      else
        let r := rootOf (g.f.fb + 4) m e
        roundF g.f g.rm g.ftz false r.1 r.2.1 r.2.2
    | .inf n => if n then invalidF g.f else (infinity g.f false, 0)
    | _ => invalidF g.f

/-- `fneg` and `fabs` (R131). -/
def fsignE (g : FEnv) (clear : Bool) (x : Nat) : Nat × Sticky :=
  let top := 2 ^ (g.f.eb + g.f.fb)
  let y := match fdecode g.f x with
    | .fin n m _ => if g.ftz && decide (m < 2 ^ g.f.fb) then fpack g.f n 0 0 else x % (2 * top)
    | _ => x % (2 * top)
  (if clear then y % top else if y / top % 2 = 1 then y % top else y + top, 0)

/-- a compared with b, both no NaN: −1, 0, 1 with −0 = +0. -/
def cmpF (a b : FVal) : Int :=
  match a, b with
  | .inf n, .inf k => if n = k then 0 else if n then -1 else 1
  | .inf n, _ => if n then -1 else 1
  | _, .inf n => if n then 1 else -1
  | .fin n m e, .fin k p q => Int.sign ((addDyadic (signedM n m) e (-(signedM k p)) q).1)
  | _, _ => 0

/-- The bits of a value read under R49. -/
def flushBits (g : FEnv) (x : Nat) : Nat :=
  match fdecode g.f x with
  | .fin n m _ => if g.ftz && decide (m < 2 ^ g.f.fb) then fpack g.f n 0 0 else x % 2 ^ g.f.bits
  | _ => x % 2 ^ g.f.bits

/-- `fmin` and `fmax` (R132). -/
def fminmaxE (g : FEnv) (hi : Bool) (x y : Nat) : Nat × Sticky :=
  let a := g.rd x
  let b := g.rd y
  let sig (v : FVal) := match v with | .nan _ fr => signalling g.f fr | _ => false
  let fl := when (sig a || sig b) fINVALID
  match a, b with
  | .nan n fr, .nan _ _ => (quietNaN g.f n fr, fl)
  | .nan _ _, _ => (flushBits g y, fl)
  | _, .nan _ _ => (flushBits g x, fl)
  | _, _ =>
    let c := cmpF a b
    let aLow := if c = 0 then signOf a && !signOf b || decide (signOf a = signOf b) else decide (c < 0)
    (flushBits g (if aLow != hi then x else y), fl)

/-- The four float comparisons (R135): 0 equal, 1 less, 2 less or equal, 3 unordered. -/
def fcmpE (g : FEnv) (k : Nat) (x y : Nat) : Bool × Sticky :=
  let a := g.rd x
  let b := g.rd y
  let nan (v : FVal) := match v with | .nan _ _ => true | _ => false
  let sig (v : FVal) := match v with | .nan _ fr => signalling g.f fr | _ => false
  let un := nan a || nan b
  let inv := if k = 1 ∨ k = 2 then un else sig a || sig b
  let r := if k = 3 then un else if un then false else
    if k = 0 then decide (cmpF a b = 0) else if k = 1 then decide (cmpF a b < 0) else decide (cmpF a b ≤ 0)
  (r, when inv fINVALID)

/-- `fclass` (R136). -/
def fclassE (g : FEnv) (x : Nat) : Nat :=
  match g.rd x with
  | .nan _ fr => if signalling g.f fr then 1 else 2
  | .inf n => if n then 4 else 512
  | .fin n m _ =>
    if m = 0 then (if n then 32 else 64)
    else if m < 2 ^ g.f.fb then (if n then 16 else 128)
    else if n then 8 else 256

/-- `frnd` (R134). -/
def frndE (g : FEnv) (x : Nat) : Nat × Sticky :=
  let a := g.rd x
  match nanResult g.f [a] with
  | some r => r
  | none =>
    match a with
    | .fin n m e =>
      if 0 ≤ e then (flushBits g x, 0)
      else
        let r := roundInt g.rm n m e
        if r.1 = 0 then (fpack g.f n 0 0, 0) else ((roundF g.f 0 false n r.1 0).1, 0)
    | _ => (flushBits g x, 0)

/-! ### The functions of R133, in fixed point with 192 bits below the point -/

/-- Bits below the point. -/
def fxBits : Nat := 192
/-- 1 in fixed point. -/
def fxOne : Nat := 2 ^ fxBits
/-- π, cut. -/
def fxPi : Nat := 0x3243f6a8885a308d313198a2e03707344a4093822299f31d0
/-- ln 2, cut. -/
def fxLn2 : Nat := 0xb17217f7d1cf79abc9e3b39803f2f6af40f343267298b62d
/-- Product of fixed-point numbers, cut. -/
def fxMul (x y : Nat) : Nat := x * y / fxOne

/-- Σ x^k ÷ k! from term `t` = x^(k-1) ÷ (k-1)!. -/
def expTerms : Nat → Nat → Nat → Nat → Nat
  | 0, _, _, _ => 0
  | n + 1, x, k, t =>
    let t' := fxMul t x / k
    t' + expTerms n x (k + 1) t'

/-- 2^f for a fraction f. -/
def fxExp2 (f : Nat) : Nat := fxOne + expTerms 60 (fxMul f fxLn2) 1 fxOne

/-- Σ z^(2j+1) ÷ (2j+1). -/
def atanhTerms : Nat → Nat → Nat → Nat → Nat
  | 0, _, _, _ => 0
  | n + 1, zz, j, p => p / (2 * j + 1) + atanhTerms n zz (j + 1) (fxMul p zz)

/-- log2 of x in [1, 2). -/
def fxLog2 (x : Nat) : Nat :=
  let z := (x - fxOne) * fxOne / (x + fxOne)
  2 * atanhTerms 70 (fxMul z z) 0 z * fxOne / (fxLn2 + 1)

/-- Alternating Σ y^k ÷ ((a+1)(a+2)…(a+2k)), cut: cos from a = 0 and sin(x) ÷ x from a = 1. -/
def trigTerms : Nat → Nat → Nat → Nat → Bool → Int
  | 0, _, _, _, _ => 0
  | n + 1, y, a, t, neg =>
    let t' := fxMul t y / ((a + 1) * (a + 2))
    (if neg then -(t' : Int) else t') + trigTerms n y (a + 2) t' (!neg)

/-- cos √y and sin √y ÷ √y. -/
def fxCos (y : Nat) : Nat := ((fxOne : Int) + trigTerms 30 y 0 fxOne true).toNat
def fxSinc (y : Nat) : Nat := ((fxOne : Int) + trigTerms 30 y 1 fxOne true).toNat

/-- The cut by which an approximation from below is made safe. -/
def fxGuard : Nat := 4096

/-- m × 2^e in fixed point, cut. -/
def toFx (m : Nat) (e : Int) : Nat :=
  let k := e + fxBits
  if 0 ≤ k then m * 2 ^ k.toNat else m / 2 ^ (-k).toNat

/-- `fexp2` of a finite operand: significand, exponent, whether a part is left. -/
def exp2Of (neg : Bool) (m : Nat) (e : Int) : Nat × Int × Bool :=
  if m = 0 then (1, 0, false)
  else if 0 ≤ e then
    let n := m * 2 ^ (Nat.min e.toNat 20)
    (1, if neg then -(Nat.min n 100000 : Nat) else (Nat.min n 100000 : Nat), false)
  else
    let k := (-e).toNat
    let n := Nat.min (m / 2 ^ k) 100000
    let r := m % 2 ^ k
    if r = 0 then (1, if neg then -(n : Int) else n, false)
    else if neg then (fxExp2 (toFx (2 ^ k - r) e), -(n : Int) - 1 - fxBits, true)
    else (fxExp2 (toFx r e), (n : Int) - fxBits, true)

/-- `flog2` of m × 2^e, m ≠ 0: sign, significand, exponent, whether a part is left. -/
def log2Of (m : Nat) (e : Int) : Bool × Nat × Int × Bool :=
  let k : Int := e + (Nat.log2 m : Int)
  if m = 2 ^ Nat.log2 m then (decide (k < 0), k.natAbs, 0, false)
  else
    let t : Int := k * (fxOne : Int) + fxLog2 (m * 2 ^ (fxBits - Nat.log2 m))
    if t < 0 then (true, t.natAbs - fxGuard, -(fxBits : Int), true) else (false, t.natAbs, -(fxBits : Int), true)

/-- sin(π t) for 0 < t = m × 2^e ≤ 1/4, from below. -/
def sinSmall (m : Nat) (e : Int) : Nat × Int :=
  let x := toFx m e
  let px := fxMul fxPi x
  (m * (fxMul fxPi (fxSinc (fxMul px px)) - fxGuard), e - fxBits)

/-- cos(π t) for 0 ≤ t = m × 2^e ≤ 1/4, from below. -/
def cosSmall (m : Nat) (e : Int) : Nat × Int :=
  let px := fxMul fxPi (toFx m e)
  (fxCos (fxMul px px) - fxGuard, -(fxBits : Int))

/-- sin(π t) for 0 < t < 1/2, t = m ÷ 2^k. -/
def sinHalf (m k : Nat) : Nat × Int :=
  if 4 * m ≤ 2 ^ k then sinSmall m (-(k : Int)) else cosSmall (2 ^ k - 2 * m) (-(k : Int) - 1)

/-- sin(π a): sign and value; exact results have no part left (R133). -/
def sinPiOf (neg : Bool) (m : Nat) (e : Int) : Bool × Nat × Int × Bool :=
  if 0 ≤ e then (neg, 0, 0, false)
  else
    let k := (-e).toNat
    let t := m % 2 ^ (k + 1)
    let flip := decide (2 ^ k ≤ t)
    let u := t % 2 ^ k
    let w := if 2 ^ k < 2 * u then 2 ^ k - u else u
    if u = 0 then (neg, 0, 0, false)
    else if 2 * w = 2 ^ k then (neg != flip, 1, 0, false)
    else
      let r := sinHalf w k
      (neg != flip, r.1, r.2, true)

/-- cos(π a) (R133). -/
def cosPiOf (m : Nat) (e : Int) : Bool × Nat × Int × Bool :=
  if 0 ≤ e then (decide (m * 2 ^ (Nat.min e.toNat 1) % 2 = 1), 1, 0, false)
  else
    let k := (-e).toNat
    let t := m % 2 ^ (k + 1)
    let u := if 2 ^ k < t then 2 ^ (k + 1) - t else t
    let flip := decide (2 ^ k < 2 * u)
    let w := if flip then 2 ^ k - u else u
    if w = 0 then (flip, 1, 0, false)
    else if 2 * w = 2 ^ k then (false, 0, 0, false)
    else if 4 * w ≤ 2 ^ k then
      let r := cosSmall w (-(k : Int))
      (flip, r.1, r.2, true)
    else
      let r := sinSmall (2 ^ k - 2 * w) (-(k : Int) - 1)
      (flip, r.1, r.2, true)

/-- The functions of R133. -/
inductive Fun where
  | rcp | rsq | exp2 | log2 | sin | cos
  deriving DecidableEq, Repr

/-- A function of R133 on an element. -/
def ffunE (g : FEnv) (k : Fun) (x : Nat) : Nat × Sticky :=
  let a := g.rd x
  let rd (neg : Bool) (m : Nat) (e : Int) (sticky : Bool) : Nat × Sticky :=
    if m = 0 then (fpack g.f neg 0 0, 0) else roundF g.f g.rm g.ftz neg m e sticky
  match nanResult g.f [a] with
  | some r => r
  | none =>
    match k, a with
    | .rcp, .inf n => (fpack g.f n 0 0, 0)
    | .rcp, .fin n m e =>
      if m = 0 then (infinity g.f n, fDIVZERO)
      else
        let r := quotient (g.f.fb + 4) 1 m (-e)
        rd n r.1 r.2.1 r.2.2
    | .rsq, .inf n => if n then invalidF g.f else (fpack g.f false 0 0, 0)
    | .rsq, .fin n m e =>
      if m = 0 then (infinity g.f n, fDIVZERO)
      else if n then invalidF g.f
      else
        let m' := if e % 2 = 0 then m else 2 * m
        let e' := if e % 2 = 0 then e else e - 1
        let h := g.f.fb + 4 + Nat.log2 m'
        let y := 2 ^ (2 * h) / m'
        let r := isqrt y
        rd false r (-(e' / 2) - h) (decide (r * r * m' ≠ 2 ^ (2 * h)))
    | .exp2, .inf n => if n then (fpack g.f false 0 0, 0) else (infinity g.f false, 0)
    | .exp2, .fin n m e =>
      let r := exp2Of n m e
      rd false r.1 r.2.1 r.2.2
    | .log2, .inf n => if n then invalidF g.f else (infinity g.f false, 0)
    | .log2, .fin n m e =>
      if m = 0 then (infinity g.f true, fDIVZERO)
      else if n then invalidF g.f
      else
        let r := log2Of m e
        rd r.1 r.2.1 r.2.2.1 r.2.2.2
    | .sin, .fin n m e =>
      let r := sinPiOf n m e
      rd r.1 r.2.1 r.2.2.1 r.2.2.2
    | .cos, .fin _ m e =>
      let r := cosPiOf m e
      rd r.1 r.2.1 r.2.2.1 r.2.2.2
    | _, _ => invalidF g.f

/-- One component of `cmul` and `cmad` (R137): the products p1 × p2 ± p3 × p4 (+ c), resolved and rounded once. -/
def complexPart (g : FEnv) (order : List FVal) (p1 p2 : FVal) (sub : Bool) (p3 p4 : FVal) (c : Option FVal) :
    Nat × Sticky :=
  match nanResult g.f order with
  | some r => r
  | none =>
    let prod (a b : FVal) : FVal :=
      match a, b with
      | .fin n m e, .fin k p q => .fin (n != k) (m * p) (e + q)
      | _, _ => if isZero a || isZero b then .nan false 0 else .inf (signOf a != signOf b)
    let t1 := prod p1 p2
    let t2 := if sub then negF (prod p3 p4) else prod p3 p4
    let ts := [t1, t2] ++ c.toList
    let nan := ts.any (fun t => match t with | .nan _ _ => true | _ => false)
    let pos := ts.any (fun t => match t with | .inf n => !n | _ => false)
    let neg := ts.any (fun t => match t with | .inf n => n | _ => false)
    if nan || (pos && neg) then invalidF g.f
    else if pos || neg then (infinity g.f neg, 0)
    else
      let sum := ts.foldl (fun (acc : Int × Int) t => match t with
        | .fin n m e => addDyadic acc.1 acc.2 (signedM n m) e
        | _ => acc) (0, 0)
      let signs := ts.map signOf
      let z := if signs.all id then true else if signs.all (!·) then false else decide (g.rm = 2)
      roundSum g.f g.rm g.ftz z sum

/-! ### Conversions (R51, R138 to R141) -/

/-- Integer to float. -/
def cvtifE (g : FEnv) (signed : Bool) (n x : Nat) : Nat × Sticky :=
  let v := intOf signed n x
  if v = 0 then (0, 0) else roundF g.f g.rm g.ftz (decide (v < 0)) v.natAbs 0

/-- Float to integer (R51). -/
def cvtfiE (g : FEnv) (signed : Bool) (n x : Nat) : Nat × Sticky :=
  match g.rd x with
  | .nan _ _ => (0, fINVALID)
  | .inf neg => (wrapInt n (if neg then intMin signed n else intMax signed n), fINVALID)
  | .fin neg m e =>
    let big := decide (0 ≤ e ∧ 64 < e) && decide (m ≠ 0)
    let r := if big then (2 ^ 128, false) else roundInt g.rm neg m e
    let v : Int := if neg then -(r.1 : Int) else r.1
    if v < intMin signed n then (wrapInt n (intMin signed n), fINVALID)
    else if intMax signed n < v then (wrapInt n (intMax signed n), fINVALID)
    else (wrapInt n v, when r.2 fINEXACT)

/-- Float to float (R139); `g` is the target's. -/
def cvtffE (src : Fmt) (g : FEnv) (x : Nat) : Nat × Sticky :=
  match flushIn src g.ftz (fdecode src x) with
  | .nan neg fr => (moveNaN src g.f neg fr, when (signalling src fr) fINVALID)
  | .inf neg => (infinity g.f neg, 0)
  | .fin neg m e => if m = 0 then (fpack g.f neg 0 0, 0) else roundF g.f g.rm g.ftz neg m e

/-- A narrow element to f32 (R141): the exact value; only a signalling E5M2 NaN sets a flag. -/
def cvtw8E (code x : Nat) : Nat × Sticky :=
  match narrowOf code with
  | .int n =>
    let v := signExt n x
    if v = 0 then (0, 0) else ((roundF f32 0 false (decide (v < 0)) v.natAbs 0).1, 0)
  | .flt f =>
    match fdecode f (x % 2 ^ f.bits) with
    | .nan neg fr => (moveNaN f f32 neg fr, when (signalling f fr) fINVALID)
    | .inf neg => (infinity f32 neg, 0)
    | .fin neg m e => if m = 0 then (fpack f32 neg 0 0, 0) else ((roundF f32 0 false neg m e).1, 0)

/-! ### CRC-32C (R317) -/

/-- One bit of the reflected CRC-32C register. -/
def crcBit (c : Nat) : Nat := if c % 2 = 1 then (c / 2) ^^^ 0x82F63B78 else c / 2

/-- One byte fed into the register. -/
def crcByte (c b : Nat) : Nat := crcBit (crcBit (crcBit (crcBit (crcBit (crcBit (crcBit (crcBit (c ^^^ b))))))))

/-- `Crc(c, x)`: the four bytes of a word, low byte first (R317). -/
def crc (c x : Word) : Word :=
  let n := x.toNat
  BitVec.ofNat 32 (crcByte (crcByte (crcByte (crcByte c.toNat (n % 256)) (n / 256 % 256)) (n / 65536 % 256))
    (n / 16777216 % 256))

/-- `Crc` of words in order. -/
def crcWords (c : Word) (l : List Word) : Word := l.foldl crc c

/-- One step of an xorshift generator with shifts 13, 17 and 5 (R273, R298). -/
def xorshift (x : Word) : Word :=
  let x := x ^^^ (x <<< 13)
  let x := x ^^^ (x >>> 17)
  x ^^^ (x <<< 5)

end Sys2Proof.Machine
end

