-- ==== Sys2Proof/Machine/Tags.lean ====
section
/-! DEFINITION. Tag states: their bits, `Merge` (R21, R319), the absorptions a merge records (R300), and how a tag is
seen once its resolution is posted or when it is not issued (R307). -/

namespace Sys2Proof.Machine

/-- The 14 bits of a tag state (R319): [13:12] state, [11:0] tag. -/
def tagBits : Tag → Nat
  | .clean => 0
  | .prov t => 0x1000 + t.toNat
  | .poison t => 0x2000 + t.toNat

/-- Whether 14 bits are no tag state: the reserved state 3, or a tag 0x000 with a state that has none (R319). -/
def badTag (x : Nat) : Bool := decide (x / 0x1000 % 4 = 3 ∨ (x / 0x1000 % 4 ≠ 0 ∧ x % 0x1000 = 0))

/-- The tag state of 14 bits; bits that are none read as poison with the tag `t` of the record written for them (R319).
Log entry 10 (DESIGN CHOICE). -/
def tagOfBits (t : BitVec 12) (x : Nat) : Tag :=
  if badTag x then .poison t
  else match x / 0x1000 % 4 with
    | 0 => .clean
    | 1 => .prov (BitVec.ofNat 12 x)
    | _ => .poison (BitVec.ofNat 12 x)

/-- `Merge` of two tag states (R21): the higher state, and within it the lower tag. -/
def mergeTag : Tag → Tag → Tag
  | .clean, y => y
  | x, .clean => x
  | .prov a, .prov b => if b.toNat < a.toNat then .prov b else .prov a
  | .prov _, .poison b => .poison b
  | .poison a, .prov _ => .poison a
  | .poison a, .poison b => if b.toNat < a.toNat then .poison b else .poison a

/-- `Merge` of a list. -/
def mergeTags (l : List Tag) : Tag := l.foldl mergeTag .clean

/-- The absorptions of a merge (R300): pairs (a, b) where provisional a is the result and provisional b, b above a,
was an input. -/
def absorptions (l : List Tag) : List (Nat × Nat) :=
  match mergeTags l with
  | .prov a => l.filterMap (fun t => match t with
      | .prov b => if a = b then none else some (a.toNat, b.toNat)
      | _ => none)
  | _ => []

/-- How a tag state of a partition is seen now (R307): the resolved state once the resolution is posted, poison for a
tag that is not issued in the partition. -/
def seeTag (tags : Map ProvTag) (part : Nat) : Tag → Tag
  | .prov t =>
    match mget tags t.toNat with
    | none => .poison t
    | some r =>
      if r.part = part then
        match r.resolved with
        | none => .prov t
        | some .settled => .clean
        | some .condemned => .poison t
      else .poison t
  | x => x

/-- How the partition that issued a tag sees it (R307). -/
def seeOwn (tags : Map ProvTag) (t : Tag) : Tag :=
  match t with
  | .prov x => seeTag tags ((mgetD (tags.map (fun r => (r.1, r.2.part))) x.toNat 0)) t
  | y => y

/-- Records absorptions in the absorption sets of their tags (R300). -/
def absorb (tags : Map ProvTag) : List (Nat × Nat) → Map ProvTag
  | [] => tags
  | (a, b) :: r =>
    absorb (mmod tags a (fun x => if x.absorbed.contains b then x else { x with absorbed := b :: x.absorbed })) r

/-- The tag of a granule or lane in a sparse list of tags. -/
def tagAt (m : Map Tag) (k : Nat) : Tag := mgetD m k .clean

/-- A sparse list of tags with one changed; clean tags are not listed. -/
def tagSet (m : Map Tag) (k : Nat) (t : Tag) : Map Tag :=
  match t with
  | .clean => mdel m k
  | x => mset m k x

end Sys2Proof.Machine
end

