-- ==== Sys2Proof/Machine/Operands.lean ====
section
/-! DEFINITION. Reading every operand form (R23 to R25, R100, R101, R105, R118) and writing every destination
(R104, R105, R118) of a wave. -/

namespace Sys2Proof.Machine

/-- What an instruction sees when it issues: its wave and split, itself and its length in words, ACTIVE (R21), the
values of `wid` and `bid` (R86), whether its uniform write writes nothing (R104), how tags are seen (R307), and the
wave as it stood before the issue (R313). -/
structure Ctx where
  uid : Nat
  i : Instr
  len : Nat
  w : Wave
  sp : Split
  act : LaneMask
  wid : Word
  bid : Word
  skip : Bool
  see : Tag → Tag
  old : Wave

/-- The 64 lanes of a varying register, zero where never written (R100). -/
def vregOf (w : Wave) (n : Nat) : VReg := mgetD w.v (w.wbase + n) {}
/-- A lane of a varying register. -/
def vLane (r : VReg) (l : Nat) : TWord := ⟨nth r.vals l 0, tagAt r.tags l⟩
/-- A uniform register. -/
def sReg (w : Wave) (n : Nat) : TWord := nth w.s n {}
/-- An affine register. -/
def aReg (w : Wave) (n : Nat) : AReg := nth w.a n {}
/-- A predicate register. -/
def pReg (w : Wave) (n : Nat) : PReg := nth w.p n {}

/-- Two words as a pair, the first one low (R25). -/
def pairVal (lo hi : TWord) : TVal := ⟨hi.val ++ lo.val, mergeTag lo.tag hi.tag⟩

/-- The value of an affine base and stride in a lane (R101). -/
def affineLane (base : DWord) (stride : Word) (l : Nat) : DWord := base + BitVec.ofNat 64 l * stride.signExtend 64

/-- The value of an operand in a lane: 64 bits wide if `wide`, else its 32-bit value zero-extended. `sx` says whether
a wide `lit32` is sign-extended (R24). -/
def readLane (c : Ctx) (x : Operand) (wide sx : Bool) (l : Nat) : TVal :=
  let r : TVal := match x with
    | .v n =>
      let lo := vLane (vregOf c.w n) l
      if wide then pairVal lo (vLane (vregOf c.w (n + 1)) l) else ⟨lo.val.setWidth 64, lo.tag⟩
    | .s n => if wide then pairVal (sReg c.w n) (sReg c.w (n + 1)) else ⟨(sReg c.w n).val.setWidth 64, (sReg c.w n).tag⟩
    | .a n =>
      let r := aReg c.w n
      let y := affineLane r.base r.stride l
      ⟨if wide then y else (y.setWidth 32).setWidth 64, r.tag⟩
    | .lane => ⟨BitVec.ofNat 64 l, .clean⟩
    | .lit32 w => ⟨if wide && sx then w.signExtend 64 else w.setWidth 64, .clean⟩
    | .lit64 d => ⟨d, .clean⟩
    | .wid => ⟨c.wid.setWidth 64, .clean⟩
    | .bid => ⟨c.bid.setWidth 64, .clean⟩
    | .p n => ⟨if inMask (pReg c.w n).bits l then 1 else 0, tagAt (pReg c.w n).tags l⟩
    | .live => ⟨if inMask c.w.live l then 1 else 0, .clean⟩
    | .act => ⟨if inMask (c.sp.mask &&& c.w.live) l then 1 else 0, .clean⟩
    | _ => ⟨0, .clean⟩
  ⟨r.val, c.see r.tag⟩

/-- Whether an integer operand is 64 bits wide under the mode, and whether `lit32` is sign-extended (R24). -/
def readI (c : Ctx) (x : Operand) (l : Nat) : TVal := readLane c x (wideI (itype c.sp.mode)) (itype c.sp.mode = 6) l
/-- A float operand under the mode; `lit32` in an `f64` operation is zero-extended (R24). -/
def readF (c : Ctx) (x : Operand) (l : Nat) : TVal := readLane c x (ftype c.sp.mode = 3) false l
/-- A 32-bit operand. -/
def read32 (c : Ctx) (x : Operand) (l : Nat) : TVal := readLane c x false false l
/-- A pair, whatever the type. -/
def readPair (c : Ctx) (x : Operand) (l : Nat) : TVal := readLane c x true false l
/-- The value of a uniform operand. -/
def readU (c : Ctx) (x : Operand) : Word := (read32 c x 0).val.setWidth 32
/-- The value of a uniform pair. -/
def readUPair (c : Ctx) (x : Operand) : DWord := (readPair c x 0).val
/-- The tag of a uniform operand, or of a uniform pair. -/
def tagU (c : Ctx) (x : Operand) (wide : Bool) : Tag := (readLane c x wide false 0).tag

/-- The absorptions of the halves of a pair operand that meet as it is read in some lanes (R300, R323). -/
def pairHalves (c : Ctx) (ls : List Nat) (x : Operand) : List (Nat × Nat) :=
  match x with
  | .v n => ls.flatMap (fun l => absorptions [c.see (vLane (vregOf c.w n) l).tag, c.see (vLane (vregOf c.w (n + 1)) l).tag])
  | .s n => if ls.isEmpty then [] else absorptions [c.see (sReg c.w n).tag, c.see (sReg c.w (n + 1)).tag]
  | _ => []

/-- A predicate operand as a mask and its tags by lane. -/
def readPred (c : Ctx) (x : Operand) (l : Nat) : Bool × Tag :=
  let r := readLane c x false false l
  (r.val != 0, r.tag)

/-! ### Writing -/

/-- The result of one lane: its value, the tags of every value read for it, the flags it raises. -/
abbrev LaneRes := DWord × List Tag × Sticky

/-- A register with lane `l` set. -/
def vRegSet (r : VReg) (l : Nat) (x : TWord) : VReg :=
  { vals := nthSet 0 x.val r.vals l, tags := tagSet r.tags l x.tag }

/-- A wave with varying register `n` of its window replaced. -/
def setV (w : Wave) (n : Nat) (r : VReg) : Wave := { w with v := mset w.v (w.wbase + n) r }
/-- A wave with uniform register `n` written. -/
def setS (w : Wave) (n : Nat) (x : TWord) : Wave := { w with s := nthSet {} x w.s n }
/-- A wave with a uniform pair written. -/
def setSPair (w : Wave) (n : Nat) (x : TVal) : Wave :=
  setS (setS w n ⟨x.val.setWidth 32, x.tag⟩) (n + 1) ⟨(x.val >>> 32).setWidth 32, x.tag⟩
/-- A wave with affine register `n` written. -/
def setA (w : Wave) (n : Nat) (x : AReg) : Wave := { w with a := nthSet {} x w.a n }
/-- A wave with predicate register `n` written. -/
def setP (w : Wave) (n : Nat) (x : PReg) : Wave := { w with p := nthSet {} x w.p n }

/-- A varying register with the lanes of a mask taken from `f`. -/
def vRegMap (r : VReg) (m : LaneMask) (f : Nat → Word × Tag) : VReg :=
  { vals := allLanes.map (fun l => if inMask m l then (f l).1 else nth r.vals l 0)
    tags := (lanesOf m).foldl (fun t l => tagSet t l (f l).2) r.tags }

/-- What an instruction on registers does: the wave it leaves, the flags it raises, the absorptions it records. -/
structure Alu where
  w : Wave
  sticky : Sticky := 0
  pairs : List (Nat × Nat) := []

/-- Writes per-lane results into a destination (R104, R105, R118). `wide` says whether a value is a pair. -/
def writeLanes (c : Ctx) (d : Operand) (wide : Bool) (f : Nat → LaneRes) : Alu :=
  let ls := lanesOf c.act
  let flags := ls.foldl (fun x l => x ||| (f l).2.2) 0
  let pairs := ls.flatMap (fun l => absorptions (f l).2.1)
  match d with
  | .v n =>
    let lo := vRegMap (vregOf c.w n) c.act (fun l => ((f l).1.setWidth 32, mergeTags (f l).2.1))
    let w := setV c.w n lo
    let w := if wide then
        setV w (n + 1) (vRegMap (vregOf c.w (n + 1)) c.act (fun l => (((f l).1 >>> 32).setWidth 32, mergeTags (f l).2.1)))
      else w
    { w := w, sticky := flags, pairs := pairs }
  | .s n =>
    if c.skip then { w := c.w }
    else
      let r := f 0
      let t := mergeTags r.2.1
      { w := if wide then setSPair c.w n ⟨r.1, t⟩ else setS c.w n ⟨r.1.setWidth 32, t⟩
        sticky := r.2.2, pairs := absorptions r.2.1 }
  | .p n =>
    let old := pReg c.w n
    let m := maskOf (fun l => if inMask c.act l then (f l).1 != 0 else inMask old.bits l)
    { w := setP c.w n { bits := m, tags := ls.foldl (fun t l => tagSet t l (mergeTags (f l).2.1)) old.tags }
      sticky := flags, pairs := pairs }
  | _ => { w := c.w, sticky := flags }

/-- A half of a pair (R25): the register named, or the one after it. -/
def halfReg (d : Operand) (h : Nat) : Operand :=
  match d with
  | .v n => .v (n + h)
  | .s n => .s (n + h)
  | x => x

/-- The results a long operation will write (R123): one per lane of ACTIVE, or one for a uniform destination, each
with its flags. -/
def longResults (c : Ctx) (d : Operand) (f : Nat → LaneRes) : List (LaneVal × Sticky) × List (Nat × Nat) :=
  let one (l : Nat) : LaneVal × Sticky := (⟨l, (f l).1, mergeTags (f l).2.1⟩, (f l).2.2)
  match d with
  | .s _ => if c.skip then ([], []) else ([one 0], absorptions (f 0).2.1)
  | _ => ((lanesOf c.act).map one, (lanesOf c.act).flatMap (fun l => absorptions (f l).2.1))

/-- The destination of a long operation as its completion writes it: the logical register of a varying one. -/
def dstOf (c : Ctx) : Operand → Dst
  | .v n => .v (c.w.wbase + n)
  | .s n => if c.skip then .none else .s n
  | .p n => .p n
  | _ => .none

/-- Writes one lane's result of a completed long operation; a lane that has left the live mask is not written. -/
def writeDone (w : Wave) (d : Dst) (wide : Bool) (x : LaneVal) : Wave :=
  match d with
  | .none => w
  | .s n => if wide then setSPair w n ⟨x.val, x.tag⟩ else setS w n ⟨x.val.setWidth 32, x.tag⟩
  | .p n =>
    if inMask w.live x.lane then
      let old := pReg w n
      setP w n { bits := maskOf (fun l => if l = x.lane then x.val != 0 else inMask old.bits l)
                 tags := tagSet old.tags x.lane x.tag }
    else w
  | .v n =>
    if inMask w.live x.lane then
      let w1 := { w with v := mset w.v n (vRegSet (mgetD w.v n {}) x.lane ⟨x.val.setWidth 32, x.tag⟩) }
      if wide then
        { w1 with v := mset w1.v (n + 1) (vRegSet (mgetD w1.v (n + 1) {}) x.lane ⟨(x.val >>> 32).setWidth 32, x.tag⟩) }
      else w1
    else w

end Sys2Proof.Machine
end

