-- ==== Sys2Proof/Machine/Ops.lean ====
section
/-! DEFINITION. The operations every meaning shares: access to the state's maps, error records, hold-back, the issue
of an instruction with the tests of R29 in their order, taking a trap and entering a handler (R334, R335), the return
from one (R336), the stop of a block or loose wave (R337), consumption of tags (R321, R322), and the end of an issue. -/

namespace Sys2Proof.Machine

/-! ### The maps of the state -/

/-- A wave; absent ones read as the default record. -/
def waveOf (s : State) (u : Nat) : Wave := mgetD s.waves u {}
/-- A block. -/
def blockOf (s : State) (k : Nat) : Block := mgetD s.blocks k {}
/-- A grid. -/
def gridOf (s : State) (g : Nat) : Grid := mgetD s.grids g {}
/-- A context. -/
def ctxOf (s : State) (c : Nat) : Context := mgetD s.ctxs c {}
/-- A partition. -/
def partOf (s : State) (p : Nat) : Partition := mgetD s.parts p {}
/-- A core: die × 64 + physical core. -/
def coreOf (s : State) (c : Nat) : Core := mgetD s.cores c {}
/-- A compute die. -/
def dieOf (s : State) (d : Nat) : Die := mgetD s.dies d {}
/-- A hub die. -/
def hubOf (s : State) (h : Nat) : Hub := mgetD s.hubs h {}

/-- The state with a wave stored. -/
def putWave (s : State) (u : Nat) (w : Wave) : State := { s with waves := mset s.waves u w }
/-- The state with a wave changed, if it exists. -/
def modWave (s : State) (u : Nat) (f : Wave → Wave) : State := { s with waves := mmod s.waves u f }
/-- The state with a block stored. -/
def putBlock (s : State) (k : Nat) (b : Block) : State := { s with blocks := mset s.blocks k b }
/-- The state with a block changed, if it exists. -/
def modBlock (s : State) (k : Nat) (f : Block → Block) : State := { s with blocks := mmod s.blocks k f }
/-- The state with a grid changed, if it exists. -/
def modGrid (s : State) (g : Nat) (f : Grid → Grid) : State := { s with grids := mmod s.grids g f }
/-- The state with a context changed, if it exists. -/
def modCtx (s : State) (c : Nat) (f : Context → Context) : State := { s with ctxs := mmod s.ctxs c f }
/-- The state with a partition changed, if it exists. -/
def modPart (s : State) (p : Nat) (f : Partition → Partition) : State := { s with parts := mmod s.parts p f }
/-- The state with a core changed. -/
def modCore (s : State) (c : Nat) (f : Core → Core) : State := { s with cores := mset s.cores c (f (coreOf s c)) }
/-- The state with a compute die changed. -/
def modDie (s : State) (d : Nat) (f : Die → Die) : State := { s with dies := mset s.dies d (f (dieOf s d)) }
/-- The state with a hub die changed. -/
def modHub (s : State) (h : Nat) (f : Hub → Hub) : State := { s with hubs := mset s.hubs h (f (hubOf s h)) }

/-- The compute die of a core. -/
def dieOfCore (c : Nat) : Nat := c / 64

/-- Engine queue `q` of a core (R160). -/
def queueAt (c : Core) (q : Nat) : Queue := nth c.queues q {}
/-- The core with a queue changed. -/
def setQueue (c : Core) (q : Nat) (x : Queue) : Core := { c with queues := nthSet {} x c.queues q }
/-- A seat of a core. -/
def seatAt (c : Core) (n : Nat) : Seat := nth c.seats n {}
/-- The core with a seat changed. -/
def setSeat (c : Core) (n : Nat) (x : Seat) : Core := { c with seats := nthSet {} x c.seats n }

/-- The running split in a table entry (R80). -/
def splitOf (w : Wave) (e : Nat) : Option Split := w.splits.find? (fun x => decide (x.entry = e))
/-- The wave with the running split of the same table entry replaced. -/
def setSplit (w : Wave) (sp : Split) : Wave :=
  { w with splits := w.splits.map (fun x => if x.entry = sp.entry then sp else x) }

/-- Every split of a wave: the running ones, the deferred ones, and those frozen in a trap frame (R83, R335). -/
def allSplits (w : Wave) : List Split := w.splits ++ w.deferred ++ w.frame.elim [] (fun f => f.splits ++ f.deferred)
/-- The wave with every split changed. -/
def everySplit (f : Split → Split) (w : Wave) : Wave :=
  { w with splits := w.splits.map f, deferred := w.deferred.map f
           frame := w.frame.map (fun x => { x with splits := x.splits.map f, deferred := x.deferred.map f }) }

/-! ### Causes (R333) -/

/-- The code of a cause. -/
def Cause.code : Cause → Nat
  | .illegalOpcode => 0x01 | .illegalField => 0x02 | .illegalOperand => 0x03 | .illegalClause => 0x04
  | .illegalClass => 0x05 | .uniformMask => 0x06 | .hazard => 0x07 | .illegalTarget => 0x08 | .illegalType => 0x09
  | .illegalIssue => 0x0A | .looseWave => 0x0B | .demoteDivergent => 0x10 | .affineOverflow => 0x11
  | .stackOverflow => 0x12 | .badReturn => 0x13 | .barrierAhead => 0x14 | .watchdog => 0x15 | .signature => 0x16
  | .fetchPerm => 0x17 | .memAlign => 0x20 | .accessPerm => 0x21 | .keyPerm => 0x22 | .world => 0x23
  | .spadAlign => 0x24 | .spadRange => 0x25 | .copyAlign => 0x26 | .ingress => 0x27 | .formatSlot => 0x30
  | .tileConfig => 0x31 | .tileShape => 0x32 | .illegalCohort => 0x33 | .illegalDeck => 0x34 | .poison => 0x38
  | .redundancyMismatch => 0x39 | .trap => 0x3A | .brk => 0x3B | .watchpoint => 0x3C | .leaseViolation => 0x40
  | .dataFault => 0x41 | .copyDesc => 0x42 | .copyRange => 0x43 | .mapGrant => 0x44 | .mdrainMismatch => 0x45
  | .cohortMismatch => 0x46 | .doubleTrap => 0x47 | .fetchUnmapped => 0x50 | .leaseUnmapped => 0x51
  | .strikeRollback => 0x60 | .poisonKilled => 0x61 | .poisonEgress => 0x62 | .trumpCondemned => 0x63
  | .trumpWithdrawn => 0x64 | .pteMalformed => 0x65 | .memUncorrected => 0x66 | .arrayUncorrected => 0x67
  | .spadUncorrected => 0x68 | .spadBankFailed => 0x69 | .spadSecondBank => 0x6A | .portPoison => 0x6B
  | .ingressCut => 0x6C | .ingressDrop => 0x6D | .rosterLost => 0x6E | .imageCheck => 0x6F
  | .controlMismatch => 0x70 | .bringUp => Config.bringUpCause.toNat | .kind k => 0x80 + k

/-- Whether a trap that a handler takes writes a record all the same (R333). -/
def Cause.alwaysRecords : Cause → Bool
  | .signature | .world | .redundancyMismatch => true
  | _ => false

/-! ### Vector clocks (R238): one entry per compute die -/

/-- The entry of a die. -/
def clockAt (c : List Nat) (d : Nat) : Nat := nth c d 0
/-- The larger of two clocks, entry by entry. -/
def clockJoin : List Nat → List Nat → List Nat
  | [], y => y
  | x, [] => x
  | a :: x, b :: y => Nat.max a b :: clockJoin x y
/-- A clock with the entry of a die raised. -/
def clockRaise (c : List Nat) (d n : Nat) : List Nat := nthSet 0 (Nat.max n (clockAt c d)) c d

/-! ### Events and error records (R330, R367) -/

/-- A buffer of events cut to 256: events of severity 0 are dropped first, the oldest of them first (R367).
Log entry 73 (DEDUCED). -/
def trimEvents (l : List Event) : List Event :=
  if l.length ≤ 256 then l
  else match l.findIdx? (fun e => decide (e.severity = 0)) with
    | some k => l.take k ++ l.drop (k + 1)
    | none => l.take 256

/-- Posts an event of a partition: its source numbers it, the device time counter dates it. -/
def postEvent (s : State) (p : Nat) (e : Event) : State :=
  modPart s p (fun x =>
    { x with seqs := mset x.seqs e.src (mgetD x.seqs e.src 0 + 1)
             pending := trimEvents (x.pending ++ [{ e with seq := mgetD x.seqs e.src 0, time := s.now - x.born }]) })

/-- Bytes cut or filled with zeros to a length. -/
def fitBytes (n : Nat) (l : List Byte) : List Byte := (l ++ List.replicate n 0).take n

/-- Bytes 20 to 63 of an error record (R330). The other events use the same places, but for the completion of a host
command: what the command adds stands from byte 20 on (R355, R370, R378), the host tag in bytes 56 to 59, the status in
byte 60. Log entry 67 (DEDUCED). -/
def eventBody (e : Event) : List Byte :=
  match e.cause, e.extra with
  | .kind 5, host :: more => fitBytes 36 (more.flatMap (toBytes 4)) ++ toBytes 4 host ++ toBytes 1 e.detail ++ toBytes 3 0
  | _, _ =>
    let die := e.core.elim 0xFF (· / 64)
    let core := e.core.elim 0xFF (fun c => if c % 64 = 63 then 0xFF else c % 64)
    toBytes 1 (64 * e.severity) ++ toBytes 1 e.region ++ toBytes 2 (tagBits e.tag) ++ toBytes 8 e.addr ++ toBytes 4 e.grid ++
    toBytes 2 e.ctx ++ toBytes 2 (e.asid % 4096) ++ toBytes 1 die ++ toBytes 1 core ++
    toBytes 1 (e.slot.elim 0xFF (fun x => 16 * x.1 + x.2)) ++ toBytes 1 0 ++ toBytes 4 e.detail ++
    fitBytes 16 (e.extra.map (BitVec.ofNat 8))

/-- The 64 bytes of an event (R330, R367), little-endian. -/
def eventBytes (e : Event) : List Byte :=
  toBytes 8 e.seq ++ toBytes 8 e.time ++ toBytes 2 e.src ++ toBytes 2 e.cause.code ++ eventBody e

/-- The next tag of a partition for poison it creates: 0x001 to 0xDFF in rising order (R320). -/
def newTag (s : State) (p : Nat) : BitVec 12 × State :=
  let t := (partOf s p).nextTag
  (BitVec.ofNat 12 t, modPart s p (fun x => { x with nextTag := if t = 0xDFF then 1 else t + 1 }))

/-- An error record of a wave: its source is the wave's compute die. -/
def waveEvent (s : State) (w : Wave) (cause : Cause) (severity : Nat) : Event :=
  { src := dieOfCore w.core, seq := 0, time := 0, cause := cause, severity := severity
    grid := (gridOf s w.grid).handle, ctx := w.ctx, asid := (ctxOf s w.ctx).asid
    core := some w.core, slot := some (w.seat, w.slot) }

/-- An error record of a partition's home hub die. -/
def hubEvent (s : State) (p : Nat) (cause : Cause) (severity : Nat) : Event :=
  { src := 0x1000 + (partOf s p).hub, seq := 0, time := 0, cause := cause, severity := severity }

/-! ### Hold-back (R88, R226, R316) -/

/-- Whether the shadow of a held effect's block has produced the effects that match it and the wave's older ones: each is
released only after it matches (R328). Log entry 10 (DESIGN CHOICE). -/
def matched (s : State) (h : Held) : Bool :=
  match h.block with
  | some k => (blockOf s k).redundant.isNone || s.held.all (fun x =>
      !decide (x.wave = h.wave ∧ x.id ≤ h.id) || decide (x.issued + Config.shadowDelay x.id ≤ s.now))
  | none => true

/-- Whether the oldest unmatched effect of a redundant block has been held for 24 cycles: the primary issues nothing
(R328). -/
def shadowHolds (s : State) (w : Wave) : Bool :=
  w.block.isSome &&
  s.held.any (fun h => decide (h.block = w.block ∧ h.issued + Config.holdback ≤ s.now) && !matched s h)

/-- Holds an effect of a wave for D cycles; `op` names the long operation that waits for it. The answer is the
effect's number. -/
def hold (s : State) (u : Nat) (eff : Effect) (op : Option Nat) : Nat × State :=
  let w := waveOf s u
  (s.nextId, { s with
    nextId := s.nextId + 1
    held := s.held ++ [{ id := s.nextId, issued := s.now, due := s.now + Config.holdback, core := w.core
                         seat := some w.seat, wave := u, block := w.block, eff := eff, op := op }] })

/-- A held effect by its number. -/
def heldOf (s : State) (n : Nat) : Option Held := s.held.find? (fun x => decide (x.id = n))
/-- The state without a held effect. -/
def dropHeld (s : State) (n : Nat) : State := { s with held := s.held.filter (fun x => !decide (x.id = n)) }

/-- A counter that saturates at 2^32 − 1, raised by `n` (R108). -/
def satAdd (x : Word) (n : Nat) : Word := BitVec.ofNat 32 (Nat.min (2 ^ 32 - 1) (x.toNat + n))

/-! ### The cost of an issue: pipes, rotation, undo log -/

/-- The place of a pipe's rotation pointer in a seat. -/
def pipeIndex : Pipe → Nat
  | .v => 0
  | .sa => 1
  | .m => 2
  | .q => 3

/-- The pipe an issue occupies: V0 if it is free, else V1, SA, M or Q. -/
def freeIndex (x : Seat) (now : Nat) : Pipe → Nat
  | .v => if nth x.free 0 0 ≤ now then 0 else 1
  | .sa => 2
  | .m => 3
  | .q => 4

/-- A seat after an issue: the rotation moves to the slot (R72) and the pipe is occupied (R119). -/
def chargeSeat (x : Seat) (now : Nat) (p : Pipe) (slot n : Nat) : Seat :=
  { x with vFrom := if pipeIndex p = 0 ∧ x.vFrom.1 ≠ now then (now, nth x.ptr 0 17) else x.vFrom
           ptr := nthSet 17 slot x.ptr (pipeIndex p)
           free := nthSet 0 (now + n) x.free (freeIndex x now p) }

/-- Whether what was logged of a wave in a cycle may still be needed: for two windows, and while an effect of its seat that
is as old is held (R313, R329). -/
def keepsLog (s : State) (w : Wave) (at_ : Nat) : Bool :=
  decide (s.now < at_ + 2 * Config.holdback) ||
  s.held.any (fun h => decide (h.core = w.core ∧ h.seat = some w.seat ∧ h.issued ≤ at_))

/-- The undo log with the wave as it stands and the split that issues; what no rollback needs any more is dropped
(R313). -/
def logUndo (s : State) (u : Nat) (w : Wave) (e : Option Nat) : List Undo :=
  s.undo.filter (fun x => keepsLog s x.old x.at_) ++ [{ at_ := s.now, wave := u, old := w, entry := e }]

/-- The state charged with the issue of an instruction: the seat's pipe and pointer, and the undo log. -/
def charge (s : State) (c : Ctx) : State :=
  { modCore s c.old.core (fun x =>
      setSeat x c.old.seat (chargeSeat (seatAt x c.old.seat) s.now (pipeOf c.i) c.old.slot (occupancy c.i c.sp.mode))) with
    undo := logUndo s c.uid c.old (some c.sp.entry) }

/-! ### Traps (R334 to R337) -/

/-- Stops a wave whose trap no handler takes: the wave issues nothing more, and its block (or the loose wave itself)
faults when the stop leaves the seat (R316, R337). The record names the tag consumed (R330). -/
def stopWave (s : State) (u : Nat) (cause : Cause) (addr detail : Nat) (tag : Tag := .clean) : State :=
  let w := waveOf s u
  let e := { waveEvent s w cause 3 with addr := addr, detail := detail, tag := tag }
  (hold (modWave s u (fun w => { w with state := .faulted })) u (.stop w.block w.part e) none).2

/-- The split records of a number of frozen or deferred splits that lie in the spill area (R83).
Log entry 12 (DESIGN CHOICE). -/
def recordsOf (n : Nat) : Nat := n - 8

/-- The splits frozen in a trap frame: their records lie below those of the handler's own deferred splits (R335). -/
def frozenSplits (w : Wave) : Nat :=
  match w.frame with
  | some f => f.splits.length + f.deferred.length
  | none => 0

/-- The wave with fewer deferred splits: the records that leave the spill area for it are filled (R83).
Log entry 75 (DEDUCED). -/
def fewerDeferred (w : Wave) (l : List Split) : Wave :=
  let recs := recordsOf (frozenSplits w + l.length)
  { w with deferred := l, spillRecs := recs, fills := satAdd w.fills (w.spillRecs - recs) }

/-- The wave in its handler (R335): the frame keeps the other splits, the trapping split's mask, mode and omode, the
signature and the resume position; one split over the live lanes stands at the handler. -/
def enterHandler (w : Wave) (sp : Split) (handler pc len : Nat) : Wave :=
  let hdr := match sp.clause with
    | some c => c.pc
    | none => sp.resume.getD pc
  let recs := recordsOf (w.splits.length - 1 + w.deferred.length)
  { w with
    spillRecs := recs, spills := satAdd w.spills (recs - w.spillRecs)
    frame := some { splits := w.splits.filter (fun x => !decide (x.entry = sp.entry)), deferred := w.deferred
                    mask := sp.mask, mode := sp.mode, omode := sp.omode, sig := w.sig, entry := sp.entry
                    header := hdr, word := (pc - hdr) / 4, len := len, runStart := sp.runStart }
    sig := 0
    deferred := []
    splits := [{ entry := sp.entry, mask := w.live, pc := handler, start := 2, runStart := handler }] }

/-- The tag a trap has consumed: that of POISON, in bits [11:0] of its `trapval` (R322, R330). -/
def trapTag (cause : Cause) (val : Word) : Tag := if cause = .poison then .poison (val.setWidth 12) else .clean

/-- Taking a trap: the ONE operation for every trap cause (R334). `pc` and `val` are `trappc` and `trapval`, `noskip`
says that no instruction can be skipped (R338), `back` is the word at which the split resumes and `len` the trapping
instruction with its literals in words. Log entry 26 (DEDUCED). -/
def takeTrapAt (s : State) (u : Nat) (sp : Split) (cause : Cause) (val : Word) (pc : Nat) (noskip : Bool) (back len : Nat) :
    State :=
  let w := waveOf s u
  let g := gridOf s w.grid
  let w1 := { w with
    trapc := BitVec.ofNat 17 (cause.code + if noskip then 0x10000 else 0), trappc := pc, trapval := val, wdog := 0, waitTag := none
    nextIssue := s.now + Config.barrel }
  let s1 := putWave s u w1
  match w.frame with
  | some _ => stopWave s1 u .doubleTrap pc cause.code (trapTag cause val)
  | none =>
    if g.launch.handler = 0 then stopWave s1 u cause pc val.toNat (trapTag cause val)
    else
      let w2 := enterHandler w1 sp g.launch.handler back len
      let s2 := if w.spillRecs < w2.spillRecs then
          (hold (putWave s1 u w2) u (.splitRecords (w.spillRecs + 1) (w2.spillRecs - w.spillRecs)) none).2
        else putWave s1 u w2
      if cause.alwaysRecords then
        (hold s2 u (.record w.part { waveEvent s w cause 2 with addr := pc, detail := val.toNat }) none).2
      else s2

/-- A trap of an instruction: the split resumes at it. -/
def takeTrap (s : State) (u : Nat) (sp : Split) (cause : Cause) (val : Word) (pc : Nat) (noskip : Bool) (len : Nat) : State :=
  takeTrapAt s u sp cause val pc noskip pc len

/-- The splits of a trap frame put back, with `sig`, and the trapping split at its resume position: the trapping word,
or the word `skip` words after it (R336). -/
def leaveHandler (w : Wave) (f : Frame) (skip : Nat) : Wave :=
  let pc := f.header + 4 * (f.word + skip)
  let sp : Split := { entry := f.entry, mask := f.mask &&& w.live, mode := f.mode, omode := f.omode, pc := pc
                      resume := if pc = f.header then none else some f.header, runStart := pc }
  let alive (l : List Split) := (l.map (fun x => { x with mask := x.mask &&& w.live })).filter (fun x => x.mask != 0)
  let recs := recordsOf (alive f.deferred).length
  { w with spillRecs := recs, fills := satAdd w.fills (w.spillRecs - recs)
           frame := none, sig := f.sig, splits := alive (sp :: f.splits), deferred := alive f.deferred }

/-! ### Consumption (R149, R321, R322) -/

/-- What consuming tags comes to: the wave waits on a provisional tag, traps with POISON, or goes on with the lanes
that survive. -/
inductive Consumed where
  | waits (t : Nat)
  | traps (val : Word)
  | goes (dead : Map (BitVec 12))

/-- The lowest provisional tag among some tags. -/
def lowestProv (l : List Tag) : Option Nat :=
  least (l.filterMap (fun t => match t with
    | .prov x => some x.toNat
    | _ => none))

/-- The lowest poison tag among some tags. -/
def lowestPoison (l : List Tag) : Option Nat :=
  least (l.filterMap (fun t => match t with
    | .poison x => some x.toNat
    | _ => none))

/-- Consumes the tags `f l` in each lane of `m` under the trap policy or the kill policy (R268). `whole` says that a
uniform operand is consumed by every lane. Log entry 23 (DEDUCED). -/
def consume (trapPolicy : Bool) (m : LaneMask) (f : Nat → List Tag) (whole : Bool) : Consumed :=
  let ls := lanesOf m
  match lowestProv (ls.flatMap f) with
  | some t => .waits t
  | none =>
    let dead := ls.filterMap (fun l => (lowestPoison (f l)).map (fun t => (l, BitVec.ofNat 12 t)))
    match dead with
    | [] => .goes []
    | (l, _) :: _ =>
      if trapPolicy then
        let tag := (lowestPoison (ls.flatMap f)).getD 0
        .traps (BitVec.ofNat 32 ((if whole then 0x40000 else l * 4096) + tag))
      else .goes dead

/-- The wave with lanes killed: they leave the live mask and every split, splits without lanes are removed, the tag
each lane consumed becomes its kill tag (R85, R322). Log entry 24 (DEDUCED). -/
def killLanes (w : Wave) (dead : Map (BitVec 12)) : Wave :=
  let gone := maskOf (fun l => (mget dead l).isSome)
  let keep (l : List Split) := (l.map (fun x => { x with mask := x.mask &&& ~~~gone })).filter (fun x => x.mask != 0)
  fewerDeferred { w with live := w.live &&& ~~~gone
                         killTags := dead.foldl (fun m x => mset m x.1 x.2) w.killTags
                         splits := keep w.splits } (keep w.deferred)

/-- Records a kill with the grid, one for the instruction (R322), and ends a wave whose last lane died: it issues nothing more and leaves its
block D cycles later (R85). -/
def afterKill (s : State) (u : Nat) (dead : Map (BitVec 12)) (pc : Nat) : State :=
  match dead with
  | [] => s
  | (_, t0) :: _ =>
    let w := waveOf s u
    let tag := ((least (dead.map (fun x => x.2.toNat))).map (BitVec.ofNat 12)).getD t0
    let mask := maskOf (fun l => (mget dead l).isSome)
    let e := { waveEvent s w .poisonKilled 2 with
      tag := .poison tag, addr := pc, detail := 1, extra := toBytes 8 mask.toNat |>.map (·.toNat) }
    let s1 := (hold s u (.kills w.grid w.part 1 e) none).2
    if w.live = 0 then
      (hold (modWave s1 u (fun w => { w with splits := [], deferred := [], state := .leaving })) u .dead none).2
    else s1

/-! ### The tests of an issue (R29) -/

/-- The guarded lanes: ACTIVE (R21, R32). -/
def activeMask (w : Wave) (sp : Split) (i : Instr) : LaneMask :=
  let m := sp.mask &&& w.live
  if guardOn sp.mode && !ignoresGuard i then
    let b := (pReg w (guardReg sp.mode)).bits
    m &&& (if guardInv sp.mode then ~~~b else b)
  else m

/-- Whether an incomplete operation of the wave will write one of these registers, the operations of queue `q`
excepted (R40). -/
def busyReg (w : Wave) (q : Option Nat) (rs : List RegRef) : Bool :=
  w.ops.any (fun o => !(o.queue.isSome && decide (o.queue = q)) && o.dests.any (fun r => rs.contains r))

/-- A window register by its logical index (R106). -/
def logical (w : Wave) : RegRef → RegRef
  | .v n => .v (w.wbase + n)
  | r => r

/-- The lowest window register that an incomplete operation will write. -/
def lowestVarying (w : Wave) : Option Nat :=
  least (w.ops.flatMap (fun o => o.dests.filterMap (fun r => match r with
    | .v n => some (n - w.wbase)
    | _ => none)))

/-- The control word of a `cred` in B, its bits as they stand (R280). -/
def credControl (w : Wave) : Operand → Nat
  | .s n => (sReg w n).val.toNat
  | .lit32 x => x.toNat
  | _ => 0

/-- Whether a type of `cred` takes pairs. -/
def credWide (x : Nat) : Bool := decide (3 ≤ bits x 15 12)

/-- The registers a slot names as the instruction will use them: a wide `cred` uses the upper halves of its pairs too
(R40, R280). -/
def usedRegs (w : Wave) (sp : Split) (i : Instr) (x : Slot) : List RegRef :=
  match i with
  | .cred _ _ b =>
    if credWide (credControl w b) then slotRegs sp.mode { x with width := if x.width = .wideLit ∨ x.wr then .pair else x.width }
    else slotRegs sp.mode x
  | _ => slotRegs sp.mode x

/-- The registers that an instruction reads beside its operands: `grow` copies the uniform and affine ones (R89). -/
def copiedRegs : Instr → List Operand
  | .grow _ _ _ => (List.range 32).map Operand.s ++ (List.range 16).map Operand.a
  | _ => []

/-- The operand code at which an instruction meets an incomplete operation (R40): a `call`, `ret` or `calli` reports
the varying register; else A, B and D are looked at in this order, then the registers that `grow` copies, and the guard
last, which the word does not name and so the same-queue exception does not cover. Log entry 20 (DEDUCED). -/
def hazardOf (w : Wave) (sp : Split) (i : Instr) : Option Nat :=
  let hits := (slots i).filterMap (fun x =>
    if busyReg w (queueOf i) ((usedRegs w sp i x).map (logical w)) then some x.op.code else none)
  let guard := if guardOn sp.mode && !ignoresGuard i && busyReg w none [.p (guardReg sp.mode)]
    then some (0x70 + guardReg sp.mode) else none
  let frame := match i with
    | .call _ _ | .calli _ _ | .ret _ => lowestVarying w
    | _ => none
  let copied := (copiedRegs i).find? (fun x => busyReg w none (slotRegs sp.mode ⟨x, [], .one, true, false⟩))
  ((frame.or hits.head?).or (copied.map (·.code))).or guard

/-- Whether a mask test fails (R87, R104, R155). -/
def maskFails (w : Wave) (sp : Split) (i : Instr) : Bool :=
  match maskTest i with
  | .none => false
  | .uniform => activeMask w sp i != w.live && !wsOn sp.mode
  | .waveGuarded => activeMask w sp i != w.live
  | .waveWhole => sp.mask &&& w.live != w.live

/-- The words left in the body from the split's word on; a Trump run has no body (R293). -/
def roomInBody (sp : Split) : Nat :=
  match sp.trump, sp.clause with
  | none, some c => c.words.length - (sp.pc - c.pc) / 4
  | _, _ => 17

/-- The watchdog limit of a wave's grid (R79). -/
def watchdogLimit (s : State) (w : Wave) : Nat := (gridOf s w.grid).launch.watchdog

/-- The first cause of orders 1 to 7 that applies before the guard is consumed (R29), with its `trapval`.
Log entry 21 (DEDUCED). -/
def issueCause (s : State) (w : Wave) (sp : Split) (i : Instr) : Option (Cause × Word) :=
  match i with
  | .ill _ _ _ => some (.illegalOpcode, i.word)
  | .illegalOpcode x => some (.illegalOpcode, x)
  | _ =>
    match fieldFault i sp.mode with
    | some v => some (.illegalField, v)
    | none =>
      if operandFault i sp.mode then some (.illegalOperand, i.word)
      else if roomInBody sp < 1 + i.lits.length then some (.illegalClause, i.word)
      else if !classOk i sp.mode then some (.illegalClass, i.word)
      else if maskFails w sp i then some (.uniformMask, i.word)
      else match hazardOf w sp i with
        | some c => some (.hazard, BitVec.ofNat 32 c)
        | none =>
          if !isYield i && decide (2 ^ watchdogLimit s w ≤ w.wdog) then
            some (.watchdog, BitVec.ofNat 32 (watchdogLimit s w))
          else if !typeOk i sp.mode then some (.illegalType, sp.mode.setWidth 32)
          else none

/-! ### Waits: an instruction that does not issue yet (R66, R71) -/

/-- The storage classes of a wave's accesses to its scratchpad: those of the on-chip map too while a map grant names the
scratchpad (R225, R230). Log entry 88 (DEDUCED). -/
def spadClass (s : State) (w : Wave) : Nat :=
  if (gridOf s w.grid).grants.any (fun g => decide (some g.2.block = w.block ∧ g.2.arr = .spad)) then 5 else 1

/-- Whether some registers of a wave lie in a window that a map grant names (R213, R230). -/
def inGrant (s : State) (u : Nat) (w : Wave) (rs : List RegRef) : Bool :=
  (gridOf s w.grid).grants.any (fun g => match g.2.arr with
    | .window v base => decide (v = u) && rs.any (fun r => match r with
        | .v n => decide (base ≤ n ∧ n < base + 64)
        | _ => false)
    | _ => false)

/-- Whether an instruction accesses a window of its wave that a map grant names: accesses of the on-chip map class (R225,
R230). -/
def touchesGrant (s : State) (u : Nat) (w : Wave) (sp : Split) (i : Instr) : Bool :=
  inGrant s u w ((slots i).flatMap (fun x => (usedRegs w sp i x).map (logical w)))

/-- The storage classes an instruction accesses as an access of the wave (R225): engine instructions reach all. -/
def accessClasses (s : State) (w : Wave) (i : Instr) : Nat :=
  let op := opcodeOf i.word
  if 0x80 ≤ op ∧ op < 0x90 then spadClass s w
  else if 0x90 ≤ op ∧ op < 0x9B ∨ op = 0x9D then 2
  else if 0xA0 ≤ op ∧ op < 0xE0 then 7
  else 0

/-- Whether an instruction is an atomic (R199, R219). -/
def isAtomic (i : Instr) : Bool :=
  let op := opcodeOf i.word
  decide (0x86 ≤ op ∧ op ≤ 0x8C ∨ 0x94 ≤ op ∧ op ≤ 0x9A)

/-- The release part of an instruction: its scope and storage set (R231, R233). -/
def releaseOf (sp : Split) (i : Instr) : Option (Nat × Nat) :=
  match i with
  | .strel _ _ => some (scopeOf sp.omode, storageSet sp.omode)
  | .fence o => if 2 ≤ semantics o then some (scopeOf o, storageSet o) else none
  | _ => if isAtomic i && decide (2 ≤ semantics sp.omode) then some (scopeOf sp.omode, storageSet sp.omode) else none

/-- The acquire part of an instruction: its scope and storage set (R231, R232). -/
def acquireOf (sp : Split) (i : Instr) : Option (Nat × Nat) :=
  match i with
  | .ldacq _ _ => some (scopeOf sp.omode, storageSet sp.omode)
  | .fence o => if semantics o % 2 = 1 then some (scopeOf o, storageSet o) else none
  | _ => if isAtomic i && decide (semantics sp.omode % 2 = 1) then some (scopeOf sp.omode, storageSet sp.omode) else none

/-- A release or acquire part that is dropped where it is an access's whose class is not in its storage set (R225). -/
def ordersOwn (s : State) (w : Wave) (i : Instr) (x : Option (Nat × Nat)) : Option (Nat × Nat) :=
  match i with
  | .fence _ => x
  | _ => x.filter (fun p => decide (p.2 &&& accessClasses s w i ≠ 0))

/-- Whether some incomplete access of a wave that a release has to follow is to a class of a set: loads and returning
atomics (R233), and with the on-chip map operations that write a granted window (R230). -/
def readsLeft (s : State) (u : Nat) (w : Wave) (set : Nat) : Bool :=
  w.ops.any (fun o => decide (o.reads &&& set ≠ 0) || (decide (set &&& 4 ≠ 0) && inGrant s u w o.dests))


/-- Whether a held effect is a store to some class (R147), or an atomic that a load of its bytes would wait for. -/
def isStore : Effect → Bool
  | .gstore _ _ _ _ | .sstore _ _ | .vstore _ _ _ | .stul _ _ | .gatomic _ _ _ _ _ _ _ => true
  | _ => false

/-- Whether the flight of a write has been applied in the view of a die. -/
def appliedAt (f : Flight) (d : Nat) : Bool :=
  if f.home = d then f.pos.isSome else !f.todo.contains d

/-- The dies whose views an `ar` fence waits for: those that hold an agent within the scope (R224, R234). -/
def scopeDies (s : State) (w : Wave) (scope : Nat) : List Nat :=
  if scope ≤ 2 then [dieOfCore w.core] else (partOf s w.part).dies

/-- Whether a fence of wave `u` has completed: the reads before it are complete, the effects it waits for have left,
and for a full fence over global storage the wave's writes are applied in every view within the scope and have left
their ports (R232, R234). -/
def fenceDone (s : State) (u : Nat) (w : Wave) (f : Fence) : Bool :=
  f.waitOps.all (fun n => !w.ops.any (fun o => decide (o.id = n))) &&
  f.waitHeld.all (fun n => (heldOf s n).isNone) &&
  (!f.full || decide (f.set &&& 2 = 0) ||
    (s.flights.all (fun x => !decide (x.2.wave = some u) || (scopeDies s w f.scope).all (appliedAt x.2)) &&
     s.ports.all (fun x => !decide (x.wave = some u))))

/-- Whether an acquire over the on-chip map that has not completed comes before an access to a granted window: on every
pipe, since nothing else orders a register read after a map write (R230, R232). -/
def mapBarred (s : State) (u : Nat) (w : Wave) : Bool :=
  w.ops.any (fun o => o.acquire.any (fun p => decide (p.2 &&& 4 ≠ 0))) ||
  w.fences.any (fun f => decide (f.set &&& 4 ≠ 0) && !fenceDone s u w f)

/-- Whether an issued collective or request leaves no place in an engine queue (R162). -/
def queueRoom (s : State) (w : Wave) (q : Nat) : Bool :=
  let c := coreOf s w.core
  let x := queueAt c q
  let taken := x.entries.length + x.issued.length
  let holds (k : Option Nat) : Nat :=
    (x.entries.filter (fun e => decide (e.block = k))).length + (x.issued.filter (fun e => decide (e.2 = k))).length
  if q < 4 then
    let others := s.blocks.filter (fun b => decide (b.2.core = w.core) && !decide (some b.1 = w.block))
    let reserved := others.foldl (fun n b => n + (2 - holds (some b.1))) 0
    decide (holds w.block < 2) || decide (taken + reserved < Config.queueDepth)
  else decide (taken < Config.queueDepth)

/-- The flag a long operation counts on: flag A or flag B of its clause (R35, R39). -/
def flagOf (sp : Split) (i : Instr) : Nat :=
  let h := match sp.clause with
    | some c => (c.words.headD 0).toNat
    | none => 0
  match latencyOf i with
  | .engineLong => bits h 7 4
  | _ => bits h 11 8

/-- Whether a long operation counts on a flag that stands at 63 (R38). -/
def flagFull (w : Wave) (sp : Split) (i : Instr) : Bool :=
  decide (latencyOf i ≠ .short) && decide (63 ≤ nth w.flags (flagOf sp i) 0)

/-- Whether the next instruction of a split has to wait before it issues. A flag that stands at 63 holds nothing back here: a
long operation that will trap, or be a no-op, issues all the same (R38, R71). Log entry 89 (DEDUCED). -/
def mustWait (s : State) (u : Nat) (w : Wave) (sp : Split) (i : Instr) : Bool :=
  let engine := decide (pipeOf i = .q)
  (match i with
    | .grow _ _ _ | .launch _ _ _ => readsLeft s u w 7
    | .cbar _ _ => readsLeft s u w 6
    | .detach _ | .endWave => w.flags.any (fun x => decide (x ≠ 0))
    | .icsync => s.held.any (fun h => decide (h.wave = u) && isStore h.eff)
    | _ => false) ||
  (match ordersOwn s w i (releaseOf sp i) with
    | some (_, set) => readsLeft s u w set
    | none => false) ||
  (mapBarred s u w && touchesGrant s u w sp i) ||
  ((decide (pipeOf i = .m) || engine) &&
    (w.ops.any (fun o => o.acquire.isSome) ||
     w.fences.any (fun f => (f.blocksM || decide (accessClasses s w i &&& f.set ≠ 0)) && !fenceDone s u w f)))

end Sys2Proof.Machine
end

