-- ==== Sys2Proof/Machine/Issue.lean ====
section
/-! DEFINITION. The issue of an encoded instruction: the tests of R29 in their order, the consumption of the guard and
of the operands of an instruction, and the end of an issue: the signature (R317), the watchdog count (R79), barrel
spacing (R70) and the split's next word. -/

namespace Sys2Proof.Machine

/-- The wave waits: it looks again in the next cycle (R66). -/
def stall (s : State) (u : Nat) : State := modWave s u (fun w => { w with nextIssue := s.now + 1 })

/-- The wave waits for the resolution of a provisional tag (R149). -/
def stallOn (s : State) (u t : Nat) : State :=
  modWave s u (fun w => { w with nextIssue := s.now + 1, waitTag := some t })

/-- The issuing instruction traps, with `trappc` at its word (R29). -/
def trapAt (s : State) (c : Ctx) (cause : Cause) (val : Word) : State :=
  takeTrap (charge s c) c.uid c.sp cause val c.sp.pc false c.len

/-- The issuing instruction traps with a cause for which the spec states no `trapval` (R86, R83): a free value.
Log entry 14 (DESIGN CHOICE). -/
def trapOpen (s : State) (c : Ctx) (cause : Cause) : State :=
  trapAt { s with nextId := s.nextId + 1 } c cause (Config.openTrapval s.nextId)

/-- The term of `sig` that stands for the lanes: the halves of (mask OR NOT live) combined (R317). -/
def maskTerm (mask live : LaneMask) : Word :=
  let m := mask ||| ~~~live
  m.setWidth 32 ^^^ (m >>> 32).setWidth 32

/-- The wave's signature after an issue (R317). Trump candidate words do not enter it one by one (R293). -/
def nextSig (c : Ctx) : Word :=
  match c.sp.trump with
  | some _ => c.w.sig
  | none => crc (crc c.w.sig c.i.word) (maskTerm c.sp.mask c.w.live)

/-- The watchdog count after an issue (R79). -/
def nextWdog (c : Ctx) : Nat :=
  match c.sp.trump with
  | some _ => c.w.wdog
  | none => if isYield c.i then 0 else c.w.wdog + 1

/-- The split at the next word of its body, or at the word after a full body (R36, R42). -/
def stepOver (sp : Split) (n : Nat) : Split :=
  match sp.trump with
  | some t => { sp with trump := some { t with words := t.words.drop n } }
  | none =>
    let pc := sp.pc + 4 * n
    match sp.clause with
    | some cl =>
      if cl.words.length ≤ (pc - cl.pc) / 4 then { sp with pc := pc, clause := none, opened := false, start := 0 }
      else { sp with pc := pc }
    | none => { sp with pc := pc }

/-- The split at a header, its clause abandoned (R42). -/
def standAt (sp : Split) (pc : Nat) : Split :=
  { sp with pc := pc, clause := none, opened := false, resume := none, start := 0 }

/-- The lowest free entry of the split table. -/
def freeEntry (w : Wave) : Option Nat := (List.range 4).find? (fun e => (splitOf w e).isNone)

/-- Pops deferred splits, the most recent first, while the table has room (R83); records beyond the eighth are read
back from the spill area and counted in `fills`. -/
def popDeferred : Nat → Wave → Wave
  | 0, w => w
  | n + 1, w =>
    match w.deferred, freeEntry w with
    | x :: r, some e =>
      popDeferred n { fewerDeferred w r with splits := w.splits ++ [{ x with entry := e }] }
    | _, _ => w

/-- Whether a split stands at a header, its clause not opened. -/
def standsAt (h : Nat) (x : Split) : Bool :=
  decide (x.pc = h) && x.resume.isNone && !x.opened && x.park.isNone && x.trump.isNone

/-- Whether two splits at one header merge. Log entry 75 (DEDUCED). -/
def mergesWith (sp x : Split) : Bool :=
  decide (x.mode = sp.mode ∧ x.omode = sp.omode) && standsAt sp.pc x

/-- A split `sp` that arrives at a header meets the others of the wave there, itself no longer among them: the merged
split takes the lowest table entry, or stays deferred where none of them runs; one split event for each merge enters the
signature (R82, R317), and the run starts there (R288). Log entry 75 (DEDUCED). -/
def meetAt (w : Wave) (sp : Split) (e : Option Nat) : Wave :=
  let run := w.splits.filter (mergesWith sp)
  let back := w.deferred.filter (mergesWith sp)
  let rest := w.deferred.filter (fun x => !mergesWith sp x)
  let base := if sp.clause.isSome then sp else run.headD sp
  let m : Split := { base with
    mask := (run ++ back).foldl (fun k x => k ||| x.mask) sp.mask, runStart := sp.pc, sampled := none }
  let w1 := { w with sig := (run ++ back).foldl (fun g _ => crc g 0xFFFFFFFF) w.sig }
  match least (e.toList ++ run.map (fun x => x.entry)) with
  | some n =>
    popDeferred 4 (fewerDeferred { w1 with
      splits := { m with entry := n } :: w.splits.filter (fun x => !mergesWith sp x) } rest)
  | none => fewerDeferred w1 (m :: rest)

/-- The wave after a split has been compared at its header: the records of deferred splits that stand there and do not merge
are filled for the comparison and counted, and stay deferred (R83). Log entry 75 (DEDUCED). -/
def countCompared (w : Wave) (sp : Split) : Wave :=
  let n := ((w.deferred.drop 8).filter (fun x => standsAt sp.pc x && !mergesWith sp x)).length
  { w with fills := satAdd w.fills n }

/-- The wave after the running split of an entry meets the others at its header. -/
def mergeAt (w : Wave) (e : Nat) : Wave :=
  match splitOf w e with
  | none => w
  | some sp =>
    let others := w.splits.filter (fun x => decide (x.entry ≠ e))
    let w1 := countCompared w sp
    if (others ++ w.deferred).any (mergesWith sp) then meetAt { w1 with splits := others } sp (some e) else w1

/-- Whether a split has come to a header that it has not fetched. -/
def arrives (sp : Split) : Bool := sp.clause.isNone && standsAt sp.pc sp

/-- The wave after its split deferred last meets the others at the header it has come to (R82, R151). -/
def mergeDeferred (w : Wave) : Wave :=
  match w.deferred with
  | sp :: r =>
    if !arrives sp then w
    else
      let w1 := countCompared w sp
      if (w.splits ++ r).any (mergesWith sp) then meetAt { w1 with deferred := r } sp none else w1
  | [] => w

/-- A register an instruction writes, merged with a tag in the lanes of `m` (R299); with the absorptions. -/
def stampReg (m : LaneMask) (t : Tag) (x : Wave × List (Nat × Nat)) (r : RegRef) : Wave × List (Nat × Nat) :=
  let w := x.1
  match r with
  | .v n =>
    let old := vregOf w n
    let tags := (lanesOf m).foldl (fun g l => tagSet g l (mergeTag (tagAt g l) t)) old.tags
    (setV w n { old with tags := tags }, x.2 ++ (lanesOf m).flatMap (fun l => absorptions [tagAt old.tags l, t]))
  | .p n =>
    let old := pReg w n
    let tags := (lanesOf m).foldl (fun g l => tagSet g l (mergeTag (tagAt g l) t)) old.tags
    (setP w n { old with tags := tags }, x.2 ++ (lanesOf m).flatMap (fun l => absorptions [tagAt old.tags l, t]))
  | .s n =>
    if m = 0 then x else (setS w n { sReg w n with tag := mergeTag (sReg w n).tag t }, x.2 ++ absorptions [(sReg w n).tag, t])
  | .a n =>
    if m = 0 then x else (setA w n { aReg w n with tag := mergeTag (aReg w n).tag t }, x.2 ++ absorptions [(aReg w n).tag, t])
  | .acc _ => x

/-- The registers an instruction of a split writes. -/
def writtenRegs (c : Ctx) : List RegRef := ((slots c.i).filter (fun x => x.wr)).flatMap (slotRegs c.sp.mode)

/-- The lanes of a register that an instruction writes: `ballot` and `elect` write all of a predicate (R115). -/
def writtenLanes (c : Ctx) : LaneMask :=
  match c.i with
  | .ballot (.p _) _ | .elect (.p _) => if c.skip then 0 else BitVec.allOnes 64
  | _ => c.act

/-- The tag of the provisional execution that an instruction belongs to. -/
def runTag (c : Ctx) : Option Nat := c.sp.trump.bind (fun r => r.tag)

/-- What a candidate word of a provisional execution wrote carries the execution's tag (R299). -/
def stampRun (c : Ctx) (w : Wave) : Wave × List (Nat × Nat) :=
  match runTag c with
  | some t => (writtenRegs c).foldl (stampReg (writtenLanes c) (.prov (BitVec.ofNat 12 t))) (w, [])
  | none => (w, [])

/-- A register of one wave copied into another. -/
def copyReg (from_ : Wave) (w : Wave) (r : RegRef) : Wave :=
  match r with
  | .v n => setV w n (vregOf from_ n)
  | .s n => setS w n (sReg from_ n)
  | .a n => setA w n (aReg from_ n)
  | .p n => setP w n (pReg from_ n)
  | .acc _ => w

/-- The values a provisional execution has produced are in its snapshot (R299). -/
def recordRun (c : Ctx) (w : Wave) (tags : Map ProvTag) : Map ProvTag :=
  match runTag c with
  | some t => mmod tags t (fun r => { r with snap := { r.snap with outs := (writtenRegs c).foldl (copyReg w) r.snap.outs } })
  | none => tags

/-- The operands that an instruction reads as pairs in the lanes of ACTIVE; the shuffles read other lanes. -/
def pairsRead (c : Ctx) : List Operand :=
  match c.i with
  | .cred _ a b => if credWide (credControl c.w b) then [a] else []
  | .shfl _ _ b => if wideI (itype c.sp.mode) then [b] else []
  | .shflx _ _ _ | .shfldn _ _ _ | .shflup _ _ _ => []
  | i => ((slots i).filter (fun x => slotReads c.sp.mode i x && isPair x.width c.sp.mode x.op)).map (·.op)

/-- Ends an issue: the wave `w` with the signature, the count and spacing of the issue, flags raised, the split moved
by `f`, absorptions recorded, those of the halves of pairs among them. -/
def finishBy (s : State) (c : Ctx) (w : Wave) (sticky : Sticky) (pairs : List (Nat × Nat)) (f : Split → Split) : State :=
  let st := stampRun c w
  let w1 := { st.1 with
    sig := nextSig c, wdog := nextWdog c, nextIssue := s.now + Config.barrel, wstat := w.wstat ||| sticky, waitTag := none
    splits := w.splits.map (fun x => if x.entry = c.sp.entry then f x else x) }
  let s1 := charge s c
  let halves := (pairsRead c).flatMap (pairHalves c (lanesOf c.act))
  { putWave s1 c.uid (popDeferred 4 w1) with tags := recordRun c w (absorb s1.tags (pairs ++ halves ++ st.2)) }

/-- Ends an issue at the next word. -/
def finish (s : State) (c : Ctx) (w : Wave) (sticky : Sticky) (pairs : List (Nat × Nat)) : State :=
  finishBy s c w sticky pairs (fun sp => stepOver sp c.len)

/-- Ends an issue that changed nothing of the wave but its place. -/
def finishNop (s : State) (c : Ctx) : State := finish s c c.w 0 []

/-- Ends the issue of an instruction on registers: its trap or its result. -/
def finishAlu (s : State) (c : Ctx) (r : Except (Cause × Word) Alu) : State :=
  match r with
  | .error x => trapAt s c x.1 x.2
  | .ok x => finish s c x.w x.sticky x.pairs

/-- What the instruction sees once lanes have been killed: ACTIVE is what is left of it, and a uniform or affine write
writes nothing if that is empty (R21, R104, R322). -/
def surviving (c : Ctx) (w : Wave) (sp : Split) : Ctx :=
  { c with w := w, sp := sp, act := c.act &&& sp.mask, skip := decide (c.act &&& sp.mask = 0) }

/-- Goes on after lanes were killed: with the survivors, or with no effect where the split has none (R85, R149). -/
def killThen (s : State) (c : Ctx) (dead : Map (BitVec 12)) (k : State → Ctx → State) : State :=
  match dead with
  | [] => k s c
  | _ =>
    let s1 := afterKill (putWave s c.uid (killLanes c.w dead)) c.uid dead c.sp.pc
    let w := waveOf s1 c.uid
    match splitOf w c.sp.entry with
    | none => finish s1 { c with w := w } w 0 []
    | some sp => k s1 (surviving c w sp)

/-- Consumes tags in the lanes of `m`, then goes on (R149, R321, R322). Log entry 23 (DEDUCED). -/
def consumeThen (s : State) (c : Ctx) (m : LaneMask) (f : Nat → List Tag) (whole : Bool)
    (k : State → Ctx → State) : State :=
  match consume (gridOf s c.w.grid).launch.trapPolicy m f whole with
  | .waits t => stallOn s c.uid t
  | .traps v => trapAt s c .poison v
  | .goes dead => killThen s c dead k

/-- Consumes one tag in every lane of the split, as a uniform operand is consumed (R149, R322). -/
def consumeAll (s : State) (c : Ctx) (tags : List Tag) (k : State → Ctx → State) : State :=
  consumeThen s c (c.sp.mask &&& c.w.live) (fun _ => tags) true k

/-- How the issue of an instruction begins. -/
inductive Issue where
  | refuse
  | done (s : State)
  | go (c : Ctx) (s : State)

/-- `wid` and `bid` of a wave (R86). -/
def widOf (w : Wave) : Word :=
  match w.block with
  | some _ => BitVec.ofNat 32 w.wid
  | none => 0xFFFFFFFF
/-- The block index a wave reads. -/
def bidOf (s : State) (w : Wave) : Word :=
  match w.block with
  | some k => BitVec.ofNat 32 (blockOf s k).index
  | none => 0xFFFFFFFF

/-- What an instruction of a split sees. -/
def ctxFor (s : State) (u : Nat) (w : Wave) (sp : Split) (i : Instr) : Ctx :=
  let m := activeMask w sp i
  { uid := u, i := i, len := 1 + i.lits.length, w := w, sp := sp, act := m, wid := widOf w, bid := bidOf s w
    skip := decide (m = 0), see := seeTag s.tags w.part, old := w }

/-- The tag of the guard bit of a lane. -/
def guardTag (c : Ctx) (l : Nat) : List Tag := [c.see (tagAt (pReg c.w (guardReg c.sp.mode)).tags l)]

/-- Begins the issue of the instruction at the split that issues: waits, the tests of R29, and the consumption of the
guard (R321), that of a guarded `pref` among them. Log entry 103 (DEDUCED). -/
def issue (i : Instr) (s : State) : Issue :=
  match s.cur with
  | none => .refuse
  | some (u, e) =>
    match mget s.waves u with
    | none => .refuse
    | some w =>
      match splitOf w e with
      | none => .refuse
      | some sp =>
        if mustWait s u w sp i then .done (stall s u)
        else
          let c := ctxFor s u w sp i
          match issueCause s w sp i with
          | some x => .done (trapAt s c x.1 x.2)
          | none =>
            if guardOn sp.mode && !ignoresGuard i then
              match consume (gridOf s w.grid).launch.trapPolicy (sp.mask &&& w.live) (guardTag c) false with
              | .waits t => .done (stallOn s u t)
              | .traps v => .done (trapAt s c .poison v)
              | .goes [] => .go c s
              | .goes (x :: r) =>
                let s1 := afterKill (putWave s u (killLanes w (x :: r))) u (x :: r) sp.pc
                let w1 := waveOf s1 u
                match splitOf w1 e with
                | none => .done (finish s1 { c with w := w1 } w1 0 [])
                | some sp1 => .go (surviving c w1 sp1) s1
            else .go c s

/-- The state `t` that a long operation's issue leaves, unless the issue raised its flag above 63: then the operation
does not issue (R38). One that trapped, waits or was a no-op has not raised its flag. Log entry 89 (DEDUCED). -/
def unlessFull (s t : State) (u : Nat) (w : Wave) (sp : Split) (i : Instr) : State :=
  if flagFull w sp i && decide (nth w.flags (flagOf sp i) 0 < nth (waveOf t u).flags (flagOf sp i) 0) then stall s u else t

/-- An encoded instruction: its issue, then its own meaning `k`. -/
def run (i : Instr) (s : State) (k : State → Ctx → State) : Host.Outcome State Fault Refusal :=
  match issue i s with
  | .refuse => .refused .noIssuer
  | .done s1 => .next s1
  | .go c s1 => .next (unlessFull s (k s1 c) c.uid c.old c.sp i)

/-- An instruction on registers: its issue, then the trap or result of `f`. -/
def runAlu (i : Instr) (s : State) (f : Ctx → Except (Cause × Word) Alu) : Host.Outcome State Fault Refusal :=
  run i s (fun s1 c => finishAlu s1 c (f c))

end Sys2Proof.Machine
end

