-- ==== Sys2Proof/Machine/Integer.lean ====
section
/-! DEFINITION. Integer instructions (R122 to R129): elements, affine forms (R102, R103), comparisons, and the long divisions (R123). -/

namespace Sys2Proof.Machine

/-- Applies `f` to each element of `n` bits of a value of `wd` bits; `f` is given the element's place. -/
def elements (n wd : Nat) (f : Nat → Nat × Sticky) : Nat × Sticky :=
  (List.range (wd / n)).foldl (fun x k =>
    let r := f k
    (x.1 + r.1 % 2 ^ n * 2 ^ (n * k), x.2 ||| r.2)) (0, 0)

/-- An element of a value. -/
def elemOf (n k : Nat) (x : DWord) : Nat := x.toNat / 2 ^ (n * k) % 2 ^ n

/-- The width in bits of a register or pair of the integer type. -/
def intWidth (c : Ctx) : Nat := if wideI (itype c.sp.mode) then 64 else 32

/-- One lane of an integer instruction: `f` on the elements of the operands (R118). -/
def intLane (c : Ctx) (xs : List Operand) (f : List Nat → Nat × Sticky) (l : Nat) : LaneRes :=
  let vs := xs.map (fun x => readI c x l)
  let n := elemBits (itype c.sp.mode)
  let r := elements n (intWidth c) (fun k => f (vs.map (fun v => elemOf n k v.val)))
  (BitVec.ofNat 64 r.1, vs.map (·.tag), r.2)

/-- The result of an integer instruction in a destination that is no affine register. -/
def intOut (c : Ctx) (d : Operand) (f : Nat → LaneRes) : Except (Cause × Word) Alu :=
  .ok (writeLanes c d (wideI (itype c.sp.mode)) f)

/-- An exact integer result reduced by `Sat` or `Wrap` (R44). -/
def intReduce (c : Ctx) (x : Int) : Nat × Sticky :=
  narrowInt (satOn c.sp.mode) (isSigned (itype c.sp.mode)) (elemBits (itype c.sp.mode)) x

/-- An element as an integer under the type. -/
def intElem (c : Ctx) (x : Nat) : Int := intOf (isSigned (itype c.sp.mode)) (elemBits (itype c.sp.mode)) x

/-- An instruction on the integers of one operand. -/
def int1 (c : Ctx) (d a : Operand) (f : Int → Nat × Sticky) : Except (Cause × Word) Alu :=
  intOut c d (intLane c [a] (fun v => f (intElem c (v.getD 0 0))))

/-- An instruction on the integers of two operands. -/
def int2 (c : Ctx) (d a b : Operand) (f : Int → Int → Nat × Sticky) : Except (Cause × Word) Alu :=
  intOut c d (intLane c [a, b] (fun v => f (intElem c (v.getD 0 0)) (intElem c (v.getD 1 0))))

/-! ### Affine destinations (R102, R103) -/

/-- Base, stride and tag of an affine or uniform source; a 32-bit uniform is extended under the type. -/
def affineSrc (c : Ctx) (x : Operand) : DWord × Word × Tag :=
  match x with
  | .a n => ((aReg c.w n).base, (aReg c.w n).stride, c.see (aReg c.w n).tag)
  | .lane => (0, 1, .clean)
  | x =>
    let v := readI c x 0
    (if itype c.sp.mode = 0 then (v.val.setWidth 32).signExtend 64 else v.val, 0, v.tag)

/-- The exact value of a lane of an affine or uniform source under the type. -/
def affineExact (c : Ctx) (x : Operand) (l : Nat) : Int := intElem c (readI c x l).val.toNat

/-- Writes an affine destination: the stride that leaves 32 bits under a 64-bit type traps, and so does a live lane
whose exact value leaves the type while `aov` or `sat` is set (R102, R103). Log entry 29 (DEDUCED).
Log entry 96 (DEDUCED). -/
def affineOut (c : Ctx) (n : Nat) (base : DWord) (stride : Int) (tags : List Tag) (exact_ : Nat → Int) :
    Except (Cause × Word) Alu :=
  if c.skip then .ok { w := c.w }
  else if wideI (itype c.sp.mode) && decide (stride < -(2 ^ 31 : Int) ∨ (2 ^ 31 : Int) ≤ stride) then
    .error (.affineOverflow, 64)
  else
    let sg := isSigned (itype c.sp.mode)
    let bits := elemBits (itype c.sp.mode)
    let bad := if aovOn c.sp.mode || satOn c.sp.mode then
        (lanesOf c.w.live).find? (fun l => decide (exact_ l < intMin sg bits ∨ intMax sg bits < exact_ l))
      else none
    match bad with
    | some l => .error (.affineOverflow, BitVec.ofNat 32 l)
    | none =>
      .ok { w := setA c.w n { base := base, stride := BitVec.ofInt 32 stride, tag := mergeTags tags }
            pairs := absorptions tags }

/-- Whether destination `z` makes an instruction of R102 affine: its highest source is (R101). -/
def affineZ (m : BitVec 24) (d : Operand) (xs : List Operand) : Bool :=
  decide (d = .z) && !packedI (itype m) && xs.any (fun x => decide (rank x = 1)) && xs.all (fun x => decide (rank x ≤ 1))

/-- An affine result that no register takes: only the tests of R102 and R103, and no flag (R23, R101, R103). -/
def affineTests (c : Ctx) (stride : Int) (exact_ : Nat → Int) : Except (Cause × Word) Alu :=
  (affineOut { c with skip := false } 0 0 stride [] exact_).map (fun _ => { w := c.w })

/-- `add` on registers. -/
def addOf (c : Ctx) (d a b : Operand) : Except (Cause × Word) Alu :=
  let x := affineSrc c a
  let y := affineSrc c b
  let stride := x.2.1.toInt + y.2.1.toInt
  let exact_ (l : Nat) := affineExact c a l + affineExact c b l
  match d with
  | .a n => affineOut c n (x.1 + y.1) stride [x.2.2, y.2.2] exact_
  | d => if affineZ c.sp.mode d [a, b] then affineTests c stride exact_ else int2 c d a b (fun x y => intReduce c (x + y))

/-- `sub` on registers. -/
def subOf (c : Ctx) (d a b : Operand) : Except (Cause × Word) Alu :=
  let x := affineSrc c a
  let y := affineSrc c b
  let stride := x.2.1.toInt - y.2.1.toInt
  let exact_ (l : Nat) := affineExact c a l - affineExact c b l
  match d with
  | .a n => affineOut c n (x.1 - y.1) stride [x.2.2, y.2.2] exact_
  | d => if affineZ c.sp.mode d [a, b] then affineTests c stride exact_ else int2 c d a b (fun x y => intReduce c (x - y))

/-- `neg` on registers. -/
def negOf (c : Ctx) (d a : Operand) : Except (Cause × Word) Alu :=
  let x := affineSrc c a
  let exact_ (l : Nat) := -affineExact c a l
  match d with
  | .a n => affineOut c n (-x.1) (-x.2.1.toInt) [x.2.2] exact_
  | d => if affineZ c.sp.mode d [a] then affineTests c (-x.2.1.toInt) exact_ else int1 c d a (fun x => intReduce c (-x))

/-- The factor a uniform source is in an affine product. -/
def factorOf (c : Ctx) (x : Operand) : Int :=
  if wideI (itype c.sp.mode) then intElem c (readI c x 0).val.toNat else (affineSrc c x).1.toInt

/-- `mul` on registers: in the affine form the uniform source is the factor. -/
def mulOf (c : Ctx) (d a b : Operand) : Except (Cause × Word) Alu :=
  let p := if rank b = 0 then (a, b) else (b, a)
  let x := affineSrc c p.1
  let u := affineSrc c p.2
  let stride := x.2.1.toInt * factorOf c p.2
  let exact_ (l : Nat) := affineExact c a l * affineExact c b l
  match d with
  | .a n => affineOut c n (x.1 * u.1) stride [x.2.2, u.2.2] exact_
  | d =>
    if affineZ c.sp.mode d [a, b] && decide (rank p.2 = 0) then affineTests c stride exact_
    else int2 c d a b (fun x y => intReduce c (x * y))

/-- `mulhi` on registers. -/
def mulhiOf (c : Ctx) (d a b : Operand) : Except (Cause × Word) Alu :=
  let n := elemBits (itype c.sp.mode)
  int2 c d a b (fun x y => (wrapInt n (Int.fdiv (x * y) ((2 ^ n : Nat) : Int)), 0))

/-- `mad` on registers: the exact product and sum are reduced once. -/
def madOf (c : Ctx) (d a b : Operand) : Except (Cause × Word) Alu :=
  intOut c d (intLane c [a, b, d] (fun v =>
    intReduce c (intElem c (v.getD 0 0) * intElem c (v.getD 1 0) + intElem c (v.getD 2 0))))

/-- `min` on registers. -/
def minOf (c : Ctx) (d a b : Operand) : Except (Cause × Word) Alu :=
  int2 c d a b (fun x y => (wrapInt (elemBits (itype c.sp.mode)) (if x ≤ y then x else y), 0))

/-- `max` on registers. -/
def maxOf (c : Ctx) (d a b : Operand) : Except (Cause × Word) Alu :=
  int2 c d a b (fun x y => (wrapInt (elemBits (itype c.sp.mode)) (if x ≤ y then y else x), 0))

/-- `abs` on registers. -/
def absOf (c : Ctx) (d a : Operand) : Except (Cause × Word) Alu :=
  int1 c d a (fun x => intReduce c (if x < 0 then -x else x))

/-- `dot4` on registers (R124). -/
def dot4Of (c : Ctx) (d a b : Operand) : Except (Cause × Word) Alu :=
  intOut c d (intLane c [a, b, d] (fun v =>
    intReduce c (dot4Sum (isSigned (itype c.sp.mode)) (v.getD 0 0) (v.getD 1 0) (v.getD 2 0))))

/-- An instruction on the bits of each element of one operand. -/
def bits1 (c : Ctx) (d a : Operand) (f : Nat → Nat) : Except (Cause × Word) Alu :=
  intOut c d (intLane c [a] (fun v => (f (v.getD 0 0), 0)))

/-- `brev` on registers (R125). -/
def brevOf (c : Ctx) (d a : Operand) : Except (Cause × Word) Alu := bits1 c d a (revBits (elemBits (itype c.sp.mode)))
/-- `popc` on registers (R125). -/
def popcOf (c : Ctx) (d a : Operand) : Except (Cause × Word) Alu := bits1 c d a (popCount (elemBits (itype c.sp.mode)))
/-- `clz` on registers (R125). -/
def clzOf (c : Ctx) (d a : Operand) : Except (Cause × Word) Alu := bits1 c d a (leadingZeros (elemBits (itype c.sp.mode)))

/-- A bitwise instruction on whole registers or pairs (R126). -/
def bitwise (c : Ctx) (d a b : Operand) (f : DWord → DWord → DWord) : Except (Cause × Word) Alu :=
  intOut c d (fun l =>
    let x := readI c a l
    let y := readI c b l
    (f x.val y.val, [x.tag, y.tag], 0))

/-- `and` on registers. -/
def andOf (c : Ctx) (d a b : Operand) : Except (Cause × Word) Alu := bitwise c d a b (· &&& ·)
/-- `or` on registers. -/
def orOf (c : Ctx) (d a b : Operand) : Except (Cause × Word) Alu := bitwise c d a b (· ||| ·)
/-- `xor` on registers. -/
def xorOf (c : Ctx) (d a b : Operand) : Except (Cause × Word) Alu := bitwise c d a b (· ^^^ ·)
/-- `not` on registers. -/
def notOf (c : Ctx) (d a : Operand) : Except (Cause × Word) Alu :=
  intOut c d (fun l =>
    let x := readI c a l
    (~~~x.val, [x.tag], 0))

/-- The count of a shift for element `k`: B's 32-bit value, or its element under a packed type (R127). -/
def shiftCount (c : Ctx) (b : Operand) (l k : Nat) : Nat :=
  let v := (read32 c b l).val
  if packedI (itype c.sp.mode) then elemOf (elemBits (itype c.sp.mode)) k v else v.toNat

/-- A shift of each element (R127). -/
def shiftLane (c : Ctx) (a b : Operand) (f : Nat → Nat → Nat → Nat) (l : Nat) : LaneRes :=
  let x := readI c a l
  let n := elemBits (itype c.sp.mode)
  let r := elements n (intWidth c) (fun k => (f n (elemOf n k x.val) (shiftCount c b l k), 0))
  (BitVec.ofNat 64 r.1, [x.tag, (read32 c b l).tag], 0)

/-- `shl` on registers; the affine form shifts base and stride alike (R127). -/
def shlOf (c : Ctx) (d a b : Operand) : Except (Cause × Word) Alu :=
  let x := affineSrc c a
  let k := (readU c b).toNat
  let up : Int := ((2 ^ Nat.min k 128 : Nat) : Int)
  let inside := decide (k < elemBits (itype c.sp.mode))
  let stride := if inside then x.2.1.toInt * up else 0
  let exact_ (l : Nat) := affineExact c a l * up
  match d with
  | .a n => affineOut c n (if inside then x.1 <<< k else 0) stride [x.2.2, tagU c b false] exact_
  | d =>
    if affineZ c.sp.mode d [a, b] && decide (rank b = 0) then affineTests c stride exact_
    else intOut c d (shiftLane c a b shiftLeft)

/-- `shr` on registers. -/
def shrOf (c : Ctx) (d a b : Operand) : Except (Cause × Word) Alu := intOut c d (shiftLane c a b shiftRight)
/-- `sra` on registers. -/
def sraOf (c : Ctx) (d a b : Operand) : Except (Cause × Word) Alu := intOut c d (shiftLane c a b shiftArith)

/-- `bfe` on registers (R128). -/
def bfeOf (c : Ctx) (d a b : Operand) : Except (Cause × Word) Alu :=
  intOut c d (fun l =>
    let x := readI c a l
    let y := read32 c b l
    (BitVec.ofNat 64 (bitExtract (isSigned (itype c.sp.mode)) (intWidth c) x.val.toNat y.val.toNat), [x.tag, y.tag], 0))

/-- `bfi` on registers (R128). -/
def bfiOf (c : Ctx) (d a b : Operand) : Except (Cause × Word) Alu :=
  intOut c d (fun l =>
    let x := readI c a l
    let y := read32 c b l
    let z := readI c d l
    (BitVec.ofNat 64 (bitInsert (intWidth c) x.val.toNat y.val.toNat z.val.toNat), [x.tag, y.tag, z.tag], 0))

/-! ### Comparisons (R129) -/

/-- The result of a comparison of elements of `n` bits in a destination: a bit, 1 or 0, or all ones in each element of
a varying register. -/
def cmpLane (d : Operand) (n wd : Nat) (tags : List Tag) (f : Nat → Bool × Sticky) : LaneRes :=
  match d with
  | .v _ =>
    let r := elements n wd (fun k =>
      let x := f k
      (if x.1 then 2 ^ n - 1 else 0, x.2))
    (BitVec.ofNat 64 r.1, tags, r.2)
  | .p _ | .s _ => (if (f 0).1 then 1 else 0, tags, (f 0).2)
  | _ =>
    let r := elements n wd (fun k => (0, (f k).2))
    (0, tags, r.2)

/-- A comparison of integers. -/
def cmpInt (c : Ctx) (d a b : Operand) (f : Int → Int → Bool) : Except (Cause × Word) Alu :=
  let n := elemBits (itype c.sp.mode)
  .ok (writeLanes c d (isPair .cmpI c.sp.mode d) (fun l =>
    let x := readI c a l
    let y := readI c b l
    cmpLane d n (intWidth c) [x.tag, y.tag] (fun k =>
      (f (intElem c (elemOf n k x.val)) (intElem c (elemOf n k y.val)), 0))))

/-- `cmpeq` on registers. -/
def cmpeqOf (c : Ctx) (d a b : Operand) : Except (Cause × Word) Alu := cmpInt c d a b (fun x y => decide (x = y))
/-- `cmpne` on registers. -/
def cmpneOf (c : Ctx) (d a b : Operand) : Except (Cause × Word) Alu := cmpInt c d a b (fun x y => decide (x ≠ y))
/-- `cmplt` on registers. -/
def cmpltOf (c : Ctx) (d a b : Operand) : Except (Cause × Word) Alu := cmpInt c d a b (fun x y => decide (x < y))
/-- `cmple` on registers. -/
def cmpleOf (c : Ctx) (d a b : Operand) : Except (Cause × Word) Alu := cmpInt c d a b (fun x y => decide (x ≤ y))

/-! ### Long operations on registers (R123) -/

/-- The registers an instruction writes, as the destination set of its long operation (R40). -/
def destRegs (c : Ctx) : List RegRef :=
  if c.skip && (maskTest c.i == .uniform) then []
  else ((slots c.i).filter (·.wr)).flatMap (fun x => (slotRegs c.sp.mode x).map (logical c.w))

/-- A flag of a list of flags changed. -/
def flagAdd (fs : List Nat) (f : Nat) : List Nat := nthSet 0 (nth fs f 0 + 1) fs f
/-- A flag counted down. -/
def flagSub (fs : List Nat) (f : Nat) : List Nat := nthSet 0 (nth fs f 0 - 1) fs f

/-- A wave with a long operation started: it counts on its flag (R38). -/
def addOp (w : Wave) (o : LongOp) : Wave := { w with ops := w.ops ++ [o], flags := flagAdd w.flags o.flag }

/-- Starts a long operation whose results are computed at issue (R123). -/
def startLong (s : State) (c : Ctx) (d : Operand) (wide : Bool) (f : Nat → LaneRes) : State :=
  let r := longResults c d f
  let o : LongOp := { id := s.nextId, flag := flagOf c.sp c.i, dests := destRegs c, dst := dstOf c d, wide := wide
                      due := s.now + 1 + Config.longLatency s.nextId, kind := .result r.1 }
  finish { s with nextId := s.nextId + 1 } c (addOp c.w o) 0 r.2

/-- The lanes of a division. -/
def divLane (c : Ctx) (a b : Operand) : Nat → LaneRes :=
  intLane c [a, b] (fun v =>
    let r := divRem (satOn c.sp.mode) (isSigned (itype c.sp.mode)) (elemBits (itype c.sp.mode)) (v.getD 0 0) (v.getD 1 0)
    (r.1, r.2.2.1))

/-- The lanes of a remainder. -/
def remLane (c : Ctx) (a b : Operand) : Nat → LaneRes :=
  intLane c [a, b] (fun v =>
    let r := divRem (satOn c.sp.mode) (isSigned (itype c.sp.mode)) (elemBits (itype c.sp.mode)) (v.getD 0 0) (v.getD 1 0)
    (r.2.1, r.2.2.2))

/-! ### The meanings -/

/-- `add` (R122): the sum. -/
def execAdd (d a b : Operand) (s : State) : Host.Outcome State Fault Refusal :=
  runAlu (.add d a b) s (fun c => addOf c d a b)

/-- `sub` (R122): the difference. -/
def execSub (d a b : Operand) (s : State) : Host.Outcome State Fault Refusal :=
  runAlu (.sub d a b) s (fun c => subOf c d a b)

/-- `mul` (R122): the product. -/
def execMul (d a b : Operand) (s : State) : Host.Outcome State Fault Refusal :=
  runAlu (.mul d a b) s (fun c => mulOf c d a b)

/-- `mulhi` (R122): the high half of the product. -/
def execMulhi (d a b : Operand) (s : State) : Host.Outcome State Fault Refusal :=
  runAlu (.mulhi d a b) s (fun c => mulhiOf c d a b)

/-- `mad` (R122): product and sum. -/
def execMad (d a b : Operand) (s : State) : Host.Outcome State Fault Refusal :=
  runAlu (.mad d a b) s (fun c => madOf c d a b)

/-- `min` (R122): the smaller. -/
def execMin (d a b : Operand) (s : State) : Host.Outcome State Fault Refusal :=
  runAlu (.min d a b) s (fun c => minOf c d a b)

/-- `max` (R122): the larger. -/
def execMax (d a b : Operand) (s : State) : Host.Outcome State Fault Refusal :=
  runAlu (.max d a b) s (fun c => maxOf c d a b)

/-- `neg` (R122): the negative. -/
def execNeg (d a : Operand) (s : State) : Host.Outcome State Fault Refusal :=
  runAlu (.neg d a) s (fun c => negOf c d a)

/-- `abs` (R122): the absolute value. -/
def execAbs (d a : Operand) (s : State) : Host.Outcome State Fault Refusal :=
  runAlu (.abs d a) s (fun c => absOf c d a)

/-- `dot4` (R124): sum of four products. -/
def execDot4 (d a b : Operand) (s : State) : Host.Outcome State Fault Refusal :=
  runAlu (.dot4 d a b) s (fun c => dot4Of c d a b)

/-- `brev` (R125): bits reversed. -/
def execBrev (d a : Operand) (s : State) : Host.Outcome State Fault Refusal :=
  runAlu (.brev d a) s (fun c => brevOf c d a)

/-- `popc` (R125): set bits counted. -/
def execPopc (d a : Operand) (s : State) : Host.Outcome State Fault Refusal :=
  runAlu (.popc d a) s (fun c => popcOf c d a)

/-- `clz` (R125): leading zeros counted. -/
def execClz (d a : Operand) (s : State) : Host.Outcome State Fault Refusal :=
  runAlu (.clz d a) s (fun c => clzOf c d a)

/-- `and` (R126): bitwise and. -/
def execAnd (d a b : Operand) (s : State) : Host.Outcome State Fault Refusal :=
  runAlu (.and d a b) s (fun c => andOf c d a b)

/-- `or` (R126): bitwise or. -/
def execOr (d a b : Operand) (s : State) : Host.Outcome State Fault Refusal :=
  runAlu (.or d a b) s (fun c => orOf c d a b)

/-- `xor` (R126): bitwise exclusive or. -/
def execXor (d a b : Operand) (s : State) : Host.Outcome State Fault Refusal :=
  runAlu (.xor d a b) s (fun c => xorOf c d a b)

/-- `not` (R126): bitwise complement. -/
def execNot (d a : Operand) (s : State) : Host.Outcome State Fault Refusal :=
  runAlu (.not d a) s (fun c => notOf c d a)

/-- `shl` (R127): shift left. -/
def execShl (d a b : Operand) (s : State) : Host.Outcome State Fault Refusal :=
  runAlu (.shl d a b) s (fun c => shlOf c d a b)

/-- `shr` (R127): logical shift right. -/
def execShr (d a b : Operand) (s : State) : Host.Outcome State Fault Refusal :=
  runAlu (.shr d a b) s (fun c => shrOf c d a b)

/-- `sra` (R127): arithmetic shift right. -/
def execSra (d a b : Operand) (s : State) : Host.Outcome State Fault Refusal :=
  runAlu (.sra d a b) s (fun c => sraOf c d a b)

/-- `bfe` (R128): extracts a field. -/
def execBfe (d a b : Operand) (s : State) : Host.Outcome State Fault Refusal :=
  runAlu (.bfe d a b) s (fun c => bfeOf c d a b)

/-- `bfi` (R128): inserts a field. -/
def execBfi (d a b : Operand) (s : State) : Host.Outcome State Fault Refusal :=
  runAlu (.bfi d a b) s (fun c => bfiOf c d a b)

/-- `cmpeq` (R129): equal. -/
def execCmpeq (d a b : Operand) (s : State) : Host.Outcome State Fault Refusal :=
  runAlu (.cmpeq d a b) s (fun c => cmpeqOf c d a b)

/-- `cmpne` (R129): not equal. -/
def execCmpne (d a b : Operand) (s : State) : Host.Outcome State Fault Refusal :=
  runAlu (.cmpne d a b) s (fun c => cmpneOf c d a b)

/-- `cmplt` (R129): less. -/
def execCmplt (d a b : Operand) (s : State) : Host.Outcome State Fault Refusal :=
  runAlu (.cmplt d a b) s (fun c => cmpltOf c d a b)

/-- `cmple` (R129): less or equal. -/
def execCmple (d a b : Operand) (s : State) : Host.Outcome State Fault Refusal :=
  runAlu (.cmple d a b) s (fun c => cmpleOf c d a b)

/-- `div` (R45, R123): the quotient, a long operation. -/
def execDiv (d a b : Operand) (s : State) : Host.Outcome State Fault Refusal :=
  run (.div d a b) s (fun s1 c => startLong s1 c d (wideI (itype c.sp.mode)) (divLane c a b))

/-- `rem` (R45, R123): the remainder, a long operation. -/
def execRem (d a b : Operand) (s : State) : Host.Outcome State Fault Refusal :=
  run (.rem d a b) s (fun s1 c => startLong s1 c d (wideI (itype c.sp.mode)) (remLane c a b))

end Sys2Proof.Machine
end

