-- ==== Sys2Proof/Machine/Float.lean ====
section
/-! DEFINITION. Floating-point instructions (R130 to R137) and conversions (R138 to R141). -/

namespace Sys2Proof.Machine

/-- The environment of a float operation: format, rounding and ftz of the mode. -/
def floatEnv (c : Ctx) : FEnv := ⟨fmtOf (ftype c.sp.mode), rounding c.sp.mode, ftzOn c.sp.mode⟩
/-- The element width of the float type. -/
def floatBits (c : Ctx) : Nat := (fmtOf (ftype c.sp.mode)).bits
/-- The width in bits of a register or pair of the float type. -/
def floatWidth (c : Ctx) : Nat := if ftype c.sp.mode = 3 then 64 else 32

/-- One lane of a float instruction: `f` on the elements of the operands (R118). -/
def floatLane (c : Ctx) (xs : List Operand) (f : List Nat → Nat × Sticky) (l : Nat) : LaneRes :=
  let vs := xs.map (fun x => readF c x l)
  let n := floatBits c
  let r := elements n (floatWidth c) (fun k => f (vs.map (fun v => elemOf n k v.val)))
  (BitVec.ofNat 64 r.1, vs.map (·.tag), r.2)

/-- A float instruction of one operand. -/
def float1 (c : Ctx) (d a : Operand) (f : FEnv → Nat → Nat × Sticky) : Except (Cause × Word) Alu :=
  .ok (writeLanes c d (decide (ftype c.sp.mode = 3)) (floatLane c [a] (fun v => f (floatEnv c) (v.getD 0 0))))

/-- A float instruction of two operands. -/
def float2 (c : Ctx) (d a b : Operand) (f : FEnv → Nat → Nat → Nat × Sticky) : Except (Cause × Word) Alu :=
  .ok (writeLanes c d (decide (ftype c.sp.mode = 3))
    (floatLane c [a, b] (fun v => f (floatEnv c) (v.getD 0 0) (v.getD 1 0))))

/-- `fadd` on registers (R130). -/
def faddOf (c : Ctx) (d a b : Operand) : Except (Cause × Word) Alu := float2 c d a b faddE
/-- `fsub` on registers (R130). -/
def fsubOf (c : Ctx) (d a b : Operand) : Except (Cause × Word) Alu := float2 c d a b fsubE
/-- `fmul` on registers (R130). -/
def fmulOf (c : Ctx) (d a b : Operand) : Except (Cause × Word) Alu := float2 c d a b fmulE
/-- `fma` on registers: one rounding (R48, R130). -/
def fmaOf (c : Ctx) (d a b : Operand) : Except (Cause × Word) Alu :=
  .ok (writeLanes c d (decide (ftype c.sp.mode = 3))
    (floatLane c [a, b, d] (fun v => fmaE (floatEnv c) (v.getD 0 0) (v.getD 1 0) (v.getD 2 0))))
/-- `fneg` on registers (R131). -/
def fnegOf (c : Ctx) (d a : Operand) : Except (Cause × Word) Alu := float1 c d a (fun g x => fsignE g false x)
/-- `fabs` on registers (R131). -/
def fabsOf (c : Ctx) (d a : Operand) : Except (Cause × Word) Alu := float1 c d a (fun g x => fsignE g true x)
/-- `fmin` on registers (R132). -/
def fminOf (c : Ctx) (d a b : Operand) : Except (Cause × Word) Alu := float2 c d a b (fun g x y => fminmaxE g false x y)
/-- `fmax` on registers (R132). -/
def fmaxOf (c : Ctx) (d a b : Operand) : Except (Cause × Word) Alu := float2 c d a b (fun g x y => fminmaxE g true x y)
/-- `frcp` on registers (R133). -/
def frcpOf (c : Ctx) (d a : Operand) : Except (Cause × Word) Alu := float1 c d a (fun g x => ffunE g .rcp x)
/-- `frsq` on registers (R133). -/
def frsqOf (c : Ctx) (d a : Operand) : Except (Cause × Word) Alu := float1 c d a (fun g x => ffunE g .rsq x)
/-- `fexp2` on registers (R133). -/
def fexp2Of (c : Ctx) (d a : Operand) : Except (Cause × Word) Alu := float1 c d a (fun g x => ffunE g .exp2 x)
/-- `flog2` on registers (R133). -/
def flog2Of (c : Ctx) (d a : Operand) : Except (Cause × Word) Alu := float1 c d a (fun g x => ffunE g .log2 x)
/-- `fsin` on registers (R133). -/
def fsinOf (c : Ctx) (d a : Operand) : Except (Cause × Word) Alu := float1 c d a (fun g x => ffunE g .sin x)
/-- `fcos` on registers (R133). -/
def fcosOf (c : Ctx) (d a : Operand) : Except (Cause × Word) Alu := float1 c d a (fun g x => ffunE g .cos x)
/-- `frnd` on registers (R134). -/
def frndOf (c : Ctx) (d a : Operand) : Except (Cause × Word) Alu := float1 c d a frndE

/-- The lanes of `fdiv` (R130). -/
def fdivLane (c : Ctx) (a b : Operand) : Nat → LaneRes :=
  floatLane c [a, b] (fun v => fdivE (floatEnv c) (v.getD 0 0) (v.getD 1 0))
/-- The lanes of `fsqrt` (R130). -/
def fsqrtLane (c : Ctx) (a : Operand) : Nat → LaneRes :=
  floatLane c [a] (fun v => fsqrtE (floatEnv c) (v.getD 0 0))

/-- A float comparison: 0 equal, 1 less, 2 less or equal, 3 unordered (R135). -/
def cmpFloat (c : Ctx) (d a b : Operand) (k : Nat) : Except (Cause × Word) Alu :=
  let n := floatBits c
  .ok (writeLanes c d (isPair .cmpF c.sp.mode d) (fun l =>
    let x := readF c a l
    let y := readF c b l
    cmpLane d n (floatWidth c) [x.tag, y.tag] (fun j => fcmpE (floatEnv c) k (elemOf n j x.val) (elemOf n j y.val))))

/-- `fcmpeq` on registers (R135). -/
def fcmpeqOf (c : Ctx) (d a b : Operand) : Except (Cause × Word) Alu := cmpFloat c d a b 0
/-- `fcmplt` on registers (R135). -/
def fcmpltOf (c : Ctx) (d a b : Operand) : Except (Cause × Word) Alu := cmpFloat c d a b 1
/-- `fcmple` on registers (R135). -/
def fcmpleOf (c : Ctx) (d a b : Operand) : Except (Cause × Word) Alu := cmpFloat c d a b 2
/-- `fcmpun` on registers (R135). -/
def fcmpunOf (c : Ctx) (d a b : Operand) : Except (Cause × Word) Alu := cmpFloat c d a b 3
/-- `fclass` on registers: a mask for each element, in 32 bits (R136). -/
def fclassOf (c : Ctx) (d a : Operand) : Except (Cause × Word) Alu :=
  .ok (writeLanes c d false (fun l =>
    let x := readF c a l
    let n := floatBits c
    let r := if packedF (ftype c.sp.mode) then (elements 16 32 (fun k => (fclassE (floatEnv c) (elemOf n k x.val), 0))).1
      else fclassE (floatEnv c) x.val.toNat
    (BitVec.ofNat 64 r, [x.tag], 0)))

/-- One component of a complex product, with its half of the old D added if `plus` (R137): half 0 is the real part. It
carries the tags of the registers it read. -/
def complexLane (c : Ctx) (d a b : Operand) (plus : Bool) (h l : Nat) : LaneRes :=
  let g := floatEnv c
  let p := readPair c a l
  let q := readPair c b l
  let t := read32 c (halfReg d h) l
  let x := g.rd (elemOf 32 0 p.val)
  let y := g.rd (elemOf 32 1 p.val)
  let u := g.rd (elemOf 32 0 q.val)
  let w := g.rd (elemOf 32 1 q.val)
  let e := if plus then [g.rd t.val.toNat] else []
  let r := if h = 0 then complexPart g ([x, y, u, w] ++ e) x u true y w e.head?
    else complexPart g ([x, y, u, w] ++ e) x w false y u e.head?
  (BitVec.ofNat 64 r.1, [p.tag, q.tag] ++ (if plus then [t.tag] else []), r.2)

/-- A complex product (R137): each half of D receives its component, both from the sources as they stood. -/
def complexOf (c : Ctx) (d a b : Operand) (plus : Bool) : Except (Cause × Word) Alu :=
  let x := writeLanes c d false (complexLane c d a b plus 0)
  let y := writeLanes { c with w := x.w } (halfReg d 1) false (complexLane c d a b plus 1)
  .ok { w := y.w, sticky := x.sticky ||| y.sticky, pairs := x.pairs ++ y.pairs }

/-- `cmul` on registers. -/
def cmulOf (c : Ctx) (d a b : Operand) : Except (Cause × Word) Alu := complexOf c d a b false
/-- `cmad` on registers. -/
def cmadOf (c : Ctx) (d a b : Operand) : Except (Cause × Word) Alu := complexOf c d a b true

/-! ### Conversions -/

/-- `cvtif` on registers (R138). -/
def cvtifOf (c : Ctx) (d a : Operand) : Except (Cause × Word) Alu :=
  .ok (writeLanes c d (decide (ftype c.sp.mode = 3)) (fun l =>
    let x := readI c a l
    let n := elemBits (itype c.sp.mode)
    let conv (v : Nat) := cvtifE (floatEnv c) (isSigned (itype c.sp.mode)) n v
    let r := if packedI (itype c.sp.mode) then elements 16 32 (fun k => conv (elemOf n k x.val)) else conv x.val.toNat
    (BitVec.ofNat 64 r.1, [x.tag], r.2)))

/-- `cvtfi` on registers (R138). -/
def cvtfiOf (c : Ctx) (d a : Operand) : Except (Cause × Word) Alu :=
  .ok (writeLanes c d (wideI (itype c.sp.mode)) (fun l =>
    let x := readF c a l
    let n := elemBits (itype c.sp.mode)
    let conv (v : Nat) := cvtfiE (floatEnv c) (isSigned (itype c.sp.mode)) n v
    let r := if packedI (itype c.sp.mode) then elements 16 32 (fun k => conv (elemOf n k x.val)) else conv x.val.toNat
    (BitVec.ofNat 64 r.1, [x.tag], r.2)))

/-- `cvtff` on registers: narrowing into a half of D, widening a half of A, or converting each element (R139). -/
def cvtffOf (c : Ctx) (d a : Operand) (cb : Byte) : Except (Cause × Word) Alu :=
  let t := cb.toNat % 8
  let h := if cb.getLsbD 4 then 1 else 0
  let src := fmtOf (ftype c.sp.mode)
  let g : FEnv := ⟨fmtOf t, rounding c.sp.mode, ftzOn c.sp.mode⟩
  .ok (writeLanes c d (decide (t = 3)) (fun l =>
    let x := readF c a l
    if packedF (ftype c.sp.mode) then
      if packedF t then
        let r := elements 16 32 (fun k => cvtffE src g (elemOf 16 k x.val))
        (BitVec.ofNat 64 r.1, [x.tag], r.2)
      else
        let r := cvtffE src g (elemOf 16 h x.val)
        (BitVec.ofNat 64 r.1, [x.tag], r.2)
    else if packedF t then
      let old := read32 c d l
      let r := cvtffE src g x.val.toNat
      let other := elemOf 16 (1 - h) old.val
      (BitVec.ofNat 64 (r.1 * 2 ^ (16 * h) + other * 2 ^ (16 * (1 - h))), [x.tag, old.tag], r.2)
    else
      let r := cvtffE src g x.val.toNat
      (BitVec.ofNat 64 r.1, [x.tag], r.2)))

/-- The width of a narrow format in bits: 8, or 4 for `e2m1` and `i4` (R140). -/
def narrowBits (cb : Byte) : Nat := if cb.toNat % 16 < 7 then 8 else 4

/-- `cvtn8` on registers: the narrow value goes into its field of D (R141). -/
def cvtn8Of (c : Ctx) (d a : Operand) (cb : Byte) : Except (Cause × Word) Alu :=
  let n := narrowBits cb
  let k := cb.toNat / 16 % 8
  .ok (writeLanes c d false (fun l =>
    let x := readF c a l
    let old := read32 c d l
    let r := toNarrow (narrowOf (cb.toNat % 16)) (rounding c.sp.mode) (satOn c.sp.mode) f32 ((floatEnv c).rd x.val.toNat)
    let y := old.val.toNat - elemOf n k old.val * 2 ^ (n * k) + r.1 % 2 ^ n * 2 ^ (n * k)
    (BitVec.ofNat 64 y, [x.tag, old.tag], r.2)))

/-- `cvtw8` on registers: field k of A as f32 (R141). -/
def cvtw8Of (c : Ctx) (d a : Operand) (cb : Byte) : Except (Cause × Word) Alu :=
  let n := narrowBits cb
  let k := cb.toNat / 16 % 8
  .ok (writeLanes c d false (fun l =>
    let x := read32 c a l
    let r := cvtw8E (cb.toNat % 16) (elemOf n k x.val)
    (BitVec.ofNat 64 r.1, [x.tag], r.2)))

/-! ### The meanings -/

/-- `fadd` (R130): the sum. -/
def execFadd (d a b : Operand) (s : State) : Host.Outcome State Fault Refusal :=
  runAlu (.fadd d a b) s (fun c => faddOf c d a b)

/-- `fsub` (R130): the difference. -/
def execFsub (d a b : Operand) (s : State) : Host.Outcome State Fault Refusal :=
  runAlu (.fsub d a b) s (fun c => fsubOf c d a b)

/-- `fmul` (R130): the product. -/
def execFmul (d a b : Operand) (s : State) : Host.Outcome State Fault Refusal :=
  runAlu (.fmul d a b) s (fun c => fmulOf c d a b)

/-- `fma` (R130): product and sum, rounded once. -/
def execFma (d a b : Operand) (s : State) : Host.Outcome State Fault Refusal :=
  runAlu (.fma d a b) s (fun c => fmaOf c d a b)

/-- `fneg` (R131): the sign inverted. -/
def execFneg (d a : Operand) (s : State) : Host.Outcome State Fault Refusal :=
  runAlu (.fneg d a) s (fun c => fnegOf c d a)

/-- `fabs` (R131): the sign cleared. -/
def execFabs (d a : Operand) (s : State) : Host.Outcome State Fault Refusal :=
  runAlu (.fabs d a) s (fun c => fabsOf c d a)

/-- `fmin` (R132): the smaller number. -/
def execFmin (d a b : Operand) (s : State) : Host.Outcome State Fault Refusal :=
  runAlu (.fmin d a b) s (fun c => fminOf c d a b)

/-- `fmax` (R132): the larger number. -/
def execFmax (d a b : Operand) (s : State) : Host.Outcome State Fault Refusal :=
  runAlu (.fmax d a b) s (fun c => fmaxOf c d a b)

/-- `frcp` (R133): 1 over a. -/
def execFrcp (d a : Operand) (s : State) : Host.Outcome State Fault Refusal :=
  runAlu (.frcp d a) s (fun c => frcpOf c d a)

/-- `frsq` (R133): 1 over the root of a. -/
def execFrsq (d a : Operand) (s : State) : Host.Outcome State Fault Refusal :=
  runAlu (.frsq d a) s (fun c => frsqOf c d a)

/-- `fexp2` (R133): 2 to the power a. -/
def execFexp2 (d a : Operand) (s : State) : Host.Outcome State Fault Refusal :=
  runAlu (.fexp2 d a) s (fun c => fexp2Of c d a)

/-- `flog2` (R133): the logarithm to base 2. -/
def execFlog2 (d a : Operand) (s : State) : Host.Outcome State Fault Refusal :=
  runAlu (.flog2 d a) s (fun c => flog2Of c d a)

/-- `fsin` (R133): the sine of a half-turns. -/
def execFsin (d a : Operand) (s : State) : Host.Outcome State Fault Refusal :=
  runAlu (.fsin d a) s (fun c => fsinOf c d a)

/-- `fcos` (R133): the cosine of a half-turns. -/
def execFcos (d a : Operand) (s : State) : Host.Outcome State Fault Refusal :=
  runAlu (.fcos d a) s (fun c => fcosOf c d a)

/-- `frnd` (R134): rounded to an integral value. -/
def execFrnd (d a : Operand) (s : State) : Host.Outcome State Fault Refusal :=
  runAlu (.frnd d a) s (fun c => frndOf c d a)

/-- `fcmpeq` (R135): equal. -/
def execFcmpeq (d a b : Operand) (s : State) : Host.Outcome State Fault Refusal :=
  runAlu (.fcmpeq d a b) s (fun c => fcmpeqOf c d a b)

/-- `fcmplt` (R135): less. -/
def execFcmplt (d a b : Operand) (s : State) : Host.Outcome State Fault Refusal :=
  runAlu (.fcmplt d a b) s (fun c => fcmpltOf c d a b)

/-- `fcmple` (R135): less or equal. -/
def execFcmple (d a b : Operand) (s : State) : Host.Outcome State Fault Refusal :=
  runAlu (.fcmple d a b) s (fun c => fcmpleOf c d a b)

/-- `fcmpun` (R135): unordered. -/
def execFcmpun (d a b : Operand) (s : State) : Host.Outcome State Fault Refusal :=
  runAlu (.fcmpun d a b) s (fun c => fcmpunOf c d a b)

/-- `fclass` (R136): the class mask. -/
def execFclass (d a : Operand) (s : State) : Host.Outcome State Fault Refusal :=
  runAlu (.fclass d a) s (fun c => fclassOf c d a)

/-- `cmul` (R137): the complex product. -/
def execCmul (d a b : Operand) (s : State) : Host.Outcome State Fault Refusal :=
  runAlu (.cmul d a b) s (fun c => cmulOf c d a b)

/-- `cmad` (R137): complex product and sum. -/
def execCmad (d a b : Operand) (s : State) : Host.Outcome State Fault Refusal :=
  runAlu (.cmad d a b) s (fun c => cmadOf c d a b)

/-- `cvtif` (R138): integer to float. -/
def execCvtif (d a : Operand) (s : State) : Host.Outcome State Fault Refusal :=
  runAlu (.cvtif d a) s (fun c => cvtifOf c d a)

/-- `cvtfi` (R138): float to integer. -/
def execCvtfi (d a : Operand) (s : State) : Host.Outcome State Fault Refusal :=
  runAlu (.cvtfi d a) s (fun c => cvtfiOf c d a)

/-- `cvtff` (R139): float to float. -/
def execCvtff (d a : Operand) (cb : Byte) (s : State) : Host.Outcome State Fault Refusal :=
  runAlu (.cvtff d a cb) s (fun c => cvtffOf c d a cb)

/-- `cvtn8` (R140, R141): f32 to a narrow format. -/
def execCvtn8 (d a : Operand) (cb : Byte) (s : State) : Host.Outcome State Fault Refusal :=
  runAlu (.cvtn8 d a cb) s (fun c => cvtn8Of c d a cb)

/-- `cvtw8` (R140, R141): a narrow format to f32. -/
def execCvtw8 (d a : Operand) (cb : Byte) (s : State) : Host.Outcome State Fault Refusal :=
  runAlu (.cvtw8 d a cb) s (fun c => cvtw8Of c d a cb)

/-- `fdiv` (R130): the quotient, a long operation. -/
def execFdiv (d a b : Operand) (s : State) : Host.Outcome State Fault Refusal :=
  run (.fdiv d a b) s (fun s1 c => startLong s1 c d (decide (ftype c.sp.mode = 3)) (fdivLane c a b))

/-- `fsqrt` (R130): the square root, a long operation. -/
def execFsqrt (d a : Operand) (s : State) : Host.Outcome State Fault Refusal :=
  run (.fsqrt d a) s (fun s1 c => startLong s1 c d (decide (ftype c.sp.mode = 3)) (fsqrtLane c a))

end Sys2Proof.Machine
end

