-- ==== Sys2Proof/Machine/Classes.lean ====
section
/-! DEFINITION. Copies between register classes, votes, shuffles and predicate logic (R109 to R117). -/

namespace Sys2Proof.Machine

/-- A lane's value under the integer type with its tag. -/
def copyLane (c : Ctx) (a : Operand) (l : Nat) : LaneRes :=
  let x := readI c a l
  (x.val, [x.tag], 0)

/-- `mov` on registers (R110). -/
def movOf (c : Ctx) (d a : Operand) : Except (Cause × Word) Alu :=
  match d with
  | .a n =>
    let x := affineSrc c a
    if c.skip then .ok { w := c.w }
    else .ok { w := setA c.w n { base := x.1, stride := x.2.1, tag := x.2.2 } }
  | d => intOut c d (copyLane c a)

/-- `sel` on registers: B where the predicate bit is 1 (R113); a lane that keeps its value takes the `Merge` of its own tag
and the bit's. Log entry 95 (DEDUCED). -/
def selOf (c : Ctx) (d a b : Operand) : Except (Cause × Word) Alu :=
  intOut c d (fun l =>
    let p := readPred c a l
    let x := if p.1 then readI c b l else readI c d l
    (x.val, [x.tag, p.2], 0))

/-- `promote` on registers (R111). -/
def promoteOf (c : Ctx) (d a b : Operand) : Except (Cause × Word) Alu :=
  match d with
  | .a n =>
    let x := affineSrc c a
    let y := read32 c b 0
    if c.skip then .ok { w := c.w }
    else .ok { w := setA c.w n { base := x.1, stride := y.val.setWidth 32, tag := mergeTag x.2.2 y.tag }
               pairs := absorptions [x.2.2, y.tag] }
  | d => intOut c d (copyLane c a)

/-- `demote` on registers (R112). -/
def demoteOf (c : Ctx) (d a : Operand) : Except (Cause × Word) Alu :=
  match lanesOf c.act with
  | [] => .ok { w := c.w }
  | k :: r =>
    let x := readI c a k
    match r.find? (fun l => decide ((readI c a l).val ≠ x.val)) with
    | some l => .error (.demoteDivergent, BitVec.ofNat 32 l)
    | none =>
      let tags := (k :: r).map (fun l => (readI c a l).tag)
      intOut c d (fun _ => (x.val, tags, 0))

/-- The test of a vote or ballot in a lane: the bit of a predicate, or a value that is not zero (R114). -/
def voteLane (c : Ctx) (a : Operand) (l : Nat) : Bool × Tag :=
  match a with
  | .p _ | .live | .act => readPred c a l
  | a =>
    let x := readI c a l
    (x.val != 0, x.tag)

/-- Writes the result of a vote (R114): nothing with ACTIVE empty. -/
def voteOut (c : Ctx) (d a : Operand) (r : Bool) : Except (Cause × Word) Alu :=
  let tags := (lanesOf c.act).map (fun l => (voteLane c a l).2)
  if c.act = 0 then .ok { w := c.w }
  else .ok (writeLanes c d false (fun _ => (if r then 1 else 0, tags, 0)))

/-- `vall` on registers. -/
def vallOf (c : Ctx) (d a : Operand) : Except (Cause × Word) Alu :=
  voteOut c d a ((lanesOf c.act).all (fun l => (voteLane c a l).1))
/-- `vany` on registers. -/
def vanyOf (c : Ctx) (d a : Operand) : Except (Cause × Word) Alu :=
  voteOut c d a ((lanesOf c.act).any (fun l => (voteLane c a l).1))
/-- `veq` on registers: predicate bits are the values of a predicate source. -/
def veqOf (c : Ctx) (d a : Operand) : Except (Cause × Word) Alu :=
  let val (l : Nat) : DWord := match a with
    | .p _ | .live | .act => if (readPred c a l).1 then 1 else 0
    | a => (readI c a l).val
  voteOut c d a (match lanesOf c.act with
    | [] => true
    | k :: r => r.all (fun l => val l == val k))

/-- The whole of a predicate written. -/
def wholePred (c : Ctx) (n : Nat) (m : LaneMask) (tag : Nat → Tag) : Wave :=
  setP c.w n { bits := m, tags := allLanes.foldl (fun t l => tagSet t l (tag l)) [] }

/-- `ballot` on registers (R115). -/
def ballotOf (c : Ctx) (d a : Operand) : Except (Cause × Word) Alu :=
  let m := maskOf (fun l => inMask c.act l && (voteLane c a l).1)
  match d with
  | .s n =>
    let tags := (lanesOf c.act).map (fun l => (voteLane c a l).2)
    if c.skip then .ok { w := c.w }
    else .ok { w := setSPair c.w n ⟨m, mergeTags tags⟩, pairs := absorptions tags }
  | .p n => .ok { w := wholePred c n m (fun l => (voteLane c a l).2) }
  | _ => .ok { w := c.w }

/-- `elect` on registers (R115): the lowest lane of ACTIVE; with `ws` set and ACTIVE empty a uniform register is not written
(R104). Log entry 92 (DEDUCED). -/
def electOf (c : Ctx) (d : Operand) : Except (Cause × Word) Alu :=
  match d with
  | .s n =>
    if c.skip then .ok { w := c.w }
    else .ok { w := setS c.w n ⟨match lowestLane c.act with
      | some l => BitVec.ofNat 32 l
      | none => 0xFFFFFFFF, .clean⟩ }
  | .p n =>
    .ok { w := wholePred c n (match lowestLane c.act with
      | some l => maskOf (fun k => decide (k = l))
      | none => 0) (fun _ => .clean) }
  | _ => .ok { w := c.w }

/-- A shuffle (R116): each lane takes the value of its source lane; a dead lane yields its bits as poison with its kill
tag. -/
def shuffle (c : Ctx) (d a : Operand) (src : Nat → Nat) (tag : Nat → List Tag) : Except (Cause × Word) Alu :=
  let live := (((lanesOf c.act).map src).filter (inMask c.w.live)).eraseDups
  let halves := if wideI (itype c.sp.mode) then pairHalves c live a else []
  (intOut c d (fun l =>
    let k := src l
    let x := readI c a k
    let t := if inMask c.w.live k then x.tag else .poison (mgetD c.w.killTags k 0)
    (x.val, t :: tag l, 0))).map (fun x => { x with pairs := halves ++ x.pairs })

/-- `shfl` on registers: the lane index is a value operand, a pair under a 64-bit type, of which bits [5:0] count
(R109, R116). Log entry 31 (DEDUCED). -/
def shflOf (c : Ctx) (d a b : Operand) : Except (Cause × Word) Alu :=
  shuffle c d a (fun l => (readI c b l).val.toNat % 64) (fun l => [(readI c b l).tag])
/-- `shflx` on registers. -/
def shflxOf (c : Ctx) (d a : Operand) (m : Byte) : Except (Cause × Word) Alu :=
  shuffle c d a (fun l => Nat.xor l m.toNat % 64) (fun _ => [])
/-- `shfldn` on registers. -/
def shfldnOf (c : Ctx) (d a : Operand) (m : Byte) : Except (Cause × Word) Alu :=
  shuffle c d a (fun l => if l + m.toNat ≤ 63 then l + m.toNat else l) (fun _ => [])
/-- `shflup` on registers. -/
def shflupOf (c : Ctx) (d a : Operand) (m : Byte) : Except (Cause × Word) Alu :=
  shuffle c d a (fun l => if m.toNat ≤ l then l - m.toNat else l) (fun _ => [])

/-- Predicate logic in the lanes of ACTIVE (R117). -/
def predLogic (c : Ctx) (d a b : Operand) (f : Bool → Bool → Bool) : Except (Cause × Word) Alu :=
  .ok (writeLanes c d false (fun l =>
    let x := readPred c a l
    let y := readPred c b l
    (if f x.1 y.1 then 1 else 0, [x.2, y.2], 0)))

/-- `pand` on registers. -/
def pandOf (c : Ctx) (d a b : Operand) : Except (Cause × Word) Alu := predLogic c d a b (· && ·)
/-- `por` on registers. -/
def porOf (c : Ctx) (d a b : Operand) : Except (Cause × Word) Alu := predLogic c d a b (· || ·)
/-- `pxor` on registers. -/
def pxorOf (c : Ctx) (d a b : Operand) : Except (Cause × Word) Alu := predLogic c d a b (· != ·)
/-- `pnot` on registers. -/
def pnotOf (c : Ctx) (d a : Operand) : Except (Cause × Word) Alu := predLogic c d a .z (fun x _ => !x)

/-- Inspection of tags (R326): which tests of m hold of a lane's state; the whole of D is written. -/
def pchkOf (c : Ctx) (d a : Operand) (m : Byte) : Except (Cause × Word) Alu :=
  let tagIn (l : Nat) : Tag := match a with
    | .p _ => (readPred c a l).2
    | a => (readI c a l).tag
  let hit (l : Nat) : Bool :=
    (inMask c.act l && (match tagIn l with
      | .poison _ => m.getLsbD 0
      | .prov _ => m.getLsbD 1
      | .clean => false)) || (m.getLsbD 2 && !inMask c.w.live l)
  match d with
  | .p n => .ok { w := wholePred c n (maskOf hit) (fun _ => .clean) }
  | _ => .ok { w := c.w }

/-- The tag state of each lane as a value (R326). -/
def ptagOf (c : Ctx) (d a : Operand) : Except (Cause × Word) Alu :=
  .ok (writeLanes c d false (fun l =>
    let t := match a with
      | .p _ => (readPred c a l).2
      | a => (readI c a l).tag
    (BitVec.ofNat 64 (tagBits t), [], 0)))

/-! ### The meanings -/

/-- `mov` (R110): a copy within a class. -/
def execMov (d a : Operand) (s : State) : Host.Outcome State Fault Refusal :=
  runAlu (.mov d a) s (fun c => movOf c d a)

/-- `sel` (R113): selection by a predicate. -/
def execSel (d a b : Operand) (s : State) : Host.Outcome State Fault Refusal :=
  runAlu (.sel d a b) s (fun c => selOf c d a b)

/-- `promote` (R111): a copy into a higher class. -/
def execPromote (d a b : Operand) (s : State) : Host.Outcome State Fault Refusal :=
  runAlu (.promote d a b) s (fun c => promoteOf c d a b)

/-- `demote` (R112): a copy into a uniform register. -/
def execDemote (d a : Operand) (s : State) : Host.Outcome State Fault Refusal :=
  runAlu (.demote d a) s (fun c => demoteOf c d a)

/-- `vall` (R114): whether every test holds. -/
def execVall (d a : Operand) (s : State) : Host.Outcome State Fault Refusal :=
  runAlu (.vall d a) s (fun c => vallOf c d a)

/-- `vany` (R114): whether some test holds. -/
def execVany (d a : Operand) (s : State) : Host.Outcome State Fault Refusal :=
  runAlu (.vany d a) s (fun c => vanyOf c d a)

/-- `veq` (R114): whether every value is equal. -/
def execVeq (d a : Operand) (s : State) : Host.Outcome State Fault Refusal :=
  runAlu (.veq d a) s (fun c => veqOf c d a)

/-- `ballot` (R115): the mask of the tests. -/
def execBallot (d a : Operand) (s : State) : Host.Outcome State Fault Refusal :=
  runAlu (.ballot d a) s (fun c => ballotOf c d a)

/-- `elect` (R115): the lowest active lane. -/
def execElect (d : Operand) (s : State) : Host.Outcome State Fault Refusal :=
  runAlu (.elect d) s (fun c => electOf c d)

/-- `shfl` (R116): lanes by index. -/
def execShfl (d a b : Operand) (s : State) : Host.Outcome State Fault Refusal :=
  runAlu (.shfl d a b) s (fun c => shflOf c d a b)

/-- `shflx` (R116): lanes by exclusive or. -/
def execShflx (d a : Operand) (m : Byte) (s : State) : Host.Outcome State Fault Refusal :=
  runAlu (.shflx d a m) s (fun c => shflxOf c d a m)

/-- `shfldn` (R116): lanes from above. -/
def execShfldn (d a : Operand) (m : Byte) (s : State) : Host.Outcome State Fault Refusal :=
  runAlu (.shfldn d a m) s (fun c => shfldnOf c d a m)

/-- `shflup` (R116): lanes from below. -/
def execShflup (d a : Operand) (m : Byte) (s : State) : Host.Outcome State Fault Refusal :=
  runAlu (.shflup d a m) s (fun c => shflupOf c d a m)

/-- `pand` (R117): and. -/
def execPand (d a b : Operand) (s : State) : Host.Outcome State Fault Refusal :=
  runAlu (.pand d a b) s (fun c => pandOf c d a b)

/-- `por` (R117): or. -/
def execPor (d a b : Operand) (s : State) : Host.Outcome State Fault Refusal :=
  runAlu (.por d a b) s (fun c => porOf c d a b)

/-- `pxor` (R117): exclusive or. -/
def execPxor (d a b : Operand) (s : State) : Host.Outcome State Fault Refusal :=
  runAlu (.pxor d a b) s (fun c => pxorOf c d a b)

/-- `pnot` (R117): complement. -/
def execPnot (d a : Operand) (s : State) : Host.Outcome State Fault Refusal :=
  runAlu (.pnot d a) s (fun c => pnotOf c d a)

/-- `pchk` (R326): which lanes are poison, provisional or dead. -/
def execPchk (d a : Operand) (m : Byte) (s : State) : Host.Outcome State Fault Refusal :=
  runAlu (.pchk d a m) s (fun c => pchkOf c d a m)

/-- `ptag` (R326): tag states as values. -/
def execPtag (d a : Operand) (s : State) : Host.Outcome State Fault Refusal :=
  runAlu (.ptag d a) s (fun c => ptagOf c d a)

/-! ### Every instruction a Trump region may hold, on registers alone (R288, R303) -/

/-- The result of an instruction of opcodes 0x10 to 0x5F, `nop`, `elect` or `rnote` on a wave, long ones completed at
once; none for any other instruction. -/
def aluOf (c : Ctx) : Option (Except (Cause × Word) Alu) :=
  match c.i with
  | .add d a b => some (addOf c d a b)
  | .sub d a b => some (subOf c d a b)
  | .mul d a b => some (mulOf c d a b)
  | .mulhi d a b => some (mulhiOf c d a b)
  | .mad d a b => some (madOf c d a b)
  | .min d a b => some (minOf c d a b)
  | .max d a b => some (maxOf c d a b)
  | .dot4 d a b => some (dot4Of c d a b)
  | .cmpeq d a b => some (cmpeqOf c d a b)
  | .cmpne d a b => some (cmpneOf c d a b)
  | .cmplt d a b => some (cmpltOf c d a b)
  | .cmple d a b => some (cmpleOf c d a b)
  | .and d a b => some (andOf c d a b)
  | .or d a b => some (orOf c d a b)
  | .xor d a b => some (xorOf c d a b)
  | .shl d a b => some (shlOf c d a b)
  | .shr d a b => some (shrOf c d a b)
  | .sra d a b => some (sraOf c d a b)
  | .bfe d a b => some (bfeOf c d a b)
  | .bfi d a b => some (bfiOf c d a b)
  | .fadd d a b => some (faddOf c d a b)
  | .fsub d a b => some (fsubOf c d a b)
  | .fmul d a b => some (fmulOf c d a b)
  | .fma d a b => some (fmaOf c d a b)
  | .fmin d a b => some (fminOf c d a b)
  | .fmax d a b => some (fmaxOf c d a b)
  | .fcmpeq d a b => some (fcmpeqOf c d a b)
  | .fcmplt d a b => some (fcmpltOf c d a b)
  | .fcmple d a b => some (fcmpleOf c d a b)
  | .fcmpun d a b => some (fcmpunOf c d a b)
  | .cmul d a b => some (cmulOf c d a b)
  | .cmad d a b => some (cmadOf c d a b)
  | .sel d a b => some (selOf c d a b)
  | .promote d a b => some (promoteOf c d a b)
  | .shfl d a b => some (shflOf c d a b)
  | .pand d a b => some (pandOf c d a b)
  | .por d a b => some (porOf c d a b)
  | .pxor d a b => some (pxorOf c d a b)
  | .neg d a => some (negOf c d a)
  | .abs d a => some (absOf c d a)
  | .brev d a => some (brevOf c d a)
  | .popc d a => some (popcOf c d a)
  | .clz d a => some (clzOf c d a)
  | .not d a => some (notOf c d a)
  | .fneg d a => some (fnegOf c d a)
  | .fabs d a => some (fabsOf c d a)
  | .frcp d a => some (frcpOf c d a)
  | .frsq d a => some (frsqOf c d a)
  | .fexp2 d a => some (fexp2Of c d a)
  | .flog2 d a => some (flog2Of c d a)
  | .fsin d a => some (fsinOf c d a)
  | .fcos d a => some (fcosOf c d a)
  | .frnd d a => some (frndOf c d a)
  | .fclass d a => some (fclassOf c d a)
  | .cvtif d a => some (cvtifOf c d a)
  | .cvtfi d a => some (cvtfiOf c d a)
  | .mov d a => some (movOf c d a)
  | .demote d a => some (demoteOf c d a)
  | .vall d a => some (vallOf c d a)
  | .vany d a => some (vanyOf c d a)
  | .veq d a => some (veqOf c d a)
  | .ballot d a => some (ballotOf c d a)
  | .pnot d a => some (pnotOf c d a)
  | .cvtff d a m => some (cvtffOf c d a m)
  | .cvtn8 d a m => some (cvtn8Of c d a m)
  | .cvtw8 d a m => some (cvtw8Of c d a m)
  | .shflx d a m => some (shflxOf c d a m)
  | .shfldn d a m => some (shfldnOf c d a m)
  | .shflup d a m => some (shflupOf c d a m)
  | .elect d => some (electOf c d)
  | .div d a b => some (.ok (writeLanes c d (wideI (itype c.sp.mode)) (divLane c a b)))
  | .rem d a b => some (.ok (writeLanes c d (wideI (itype c.sp.mode)) (remLane c a b)))
  | .fdiv d a b => some (.ok (writeLanes c d (decide (ftype c.sp.mode = 3)) (fdivLane c a b)))
  | .fsqrt d a => some (.ok (writeLanes c d (decide (ftype c.sp.mode = 3)) (fsqrtLane c a)))
  | .nop => some (.ok { w := c.w })
  | .rnote _ => some (.ok { w := c.w })
  | _ => none

end Sys2Proof.Machine
end

