-- ==== Sys2Proof/Machine/Rows.lean ====
section
/-! DEFINITION. The check code of the scratchpad (R184): GF(2^8), the generator, the check symbols; decoding (R185); core
health as an event of the code changes it (R327); what a read of a row does. -/

namespace Sys2Proof.Machine

/-! ### GF(2^8) and the code (R184) -/

/-- `x` times α modulo x^8 + x^4 + x^3 + x^2 + 1. -/
def gfDouble (x : Nat) : Nat := if x < 128 then 2 * x else Nat.xor (2 * x) 0x11D

/-- The product in GF(2^8). -/
def gfMul (x y : Nat) : Nat :=
  (List.range 8).foldr (fun k acc => Nat.xor (gfDouble acc) (if bitAt y k then x else 0)) 0

/-- A power of α. -/
def gfPow : Nat → Nat
  | 0 => 1
  | n + 1 => gfDouble (gfPow n)

/-- A polynomial, lowest coefficient first, times (x + r). -/
def gfTimes (r : Nat) (p : List Nat) : List Nat :=
  List.zipWith Nat.xor (0 :: p) (p.map (gfMul r) ++ [0])

/-- The generator (x − 1)(x − α)(x − α²)(x − α³), lowest coefficient first. -/
def gfGen : List Nat := [0, 1, 2, 3].foldl (fun p j => gfTimes (gfPow j) p) [1]

/-- The remainder of a division by the generator after one more data symbol. -/
def checkStep (q : List Nat) (x : Nat) : List Nat :=
  let fb := Nat.xor x (nth q 3 0)
  (List.range 4).map (fun m => Nat.xor (if m = 0 then 0 else nth q (m - 1) 0) (gfMul fb (nth gfGen m 0)))

/-- The four check symbols of 64 data symbols: those that make the codeword divisible by the generator. -/
def checkSymbols (d : Nat → Nat) : List Nat := (List.range 64).reverse.foldl (fun q k => checkStep q (d k)) [0, 0, 0, 0]

/-- The exponent of a bank's symbol in its codeword: data bank k at k + 4, check bank 64 + m at m. -/
def codePlace (bank : Nat) : Nat := if bank < 64 then bank + 4 else bank - 64

/-- The value of a received word at α^j. -/
def syndrome (c : Nat → Nat) (j : Nat) : Nat :=
  (List.range 68).foldl (fun x k => Nat.xor x (gfMul (c k) (gfPow (j * codePlace k)))) 0

/-- The other error beside an erased bank `f`, and what the bank's symbol is off by, from the syndromes. -/
def decodeBeside (f : Nat) (s : Nat → Nat) : Option (List (Nat × Nat)) :=
  let t (j : Nat) := Nat.xor (s (j + 1)) (gfMul (gfPow (codePlace f)) (s j))
  if t 0 = 0 ∧ t 1 = 0 ∧ t 2 = 0 then some [(f, s 0)]
  else
    match (List.range 68).find? (fun k => let a := gfPow (codePlace k)
        decide (k ≠ f ∧ t 0 ≠ 0 ∧ t 1 = gfMul (t 0) a ∧ t 2 = gfMul (t 1) a)) with
    | some k =>
      ((List.range 256).find? (fun v => decide (gfMul v (Nat.xor (gfPow (codePlace k)) (gfPow (codePlace f))) = t 0))).map
        (fun v => [(k, v), (f, Nat.xor (s 0) v)])
    | none => none

/-- What a received codeword is corrected by: (bank, pattern) pairs; none where it does not decode (R185). -/
def decodeWordOf (failed : Option Nat) (c : Nat → Nat) : Option (List (Nat × Nat)) :=
  let s := syndrome c
  match failed with
  | some f => decodeBeside f s
  | none =>
    if [0, 1, 2, 3].all (fun j => decide (s j = 0)) then some []
    else ((List.range 68).find? (fun k => decide (s 0 ≠ 0) &&
      [1, 2, 3].all (fun j => decide (s j = gfMul (s 0) (gfPow (j * codePlace k)))))).map (fun k => [(k, s 0)])

/-! ### Core health (R327) -/

/-- The partition that a compute die belongs to. -/
def partOfDie (s : State) (d : Nat) : Option Nat :=
  firstSome (fun p => if p.2.dies.contains d then some p.1 else none) s.parts

/-- A healthy core becomes suspect. -/
def suspectCore (s : State) (core : Nat) : State :=
  if (coreOf s core).health = .healthy then modCore s core (fun c => { c with health := .suspect, healthAt := 0 }) else s

/-! ### Rows (R183 to R186) -/

/-- The error patterns of a row, as (bank, byte lane, pattern). -/
def rowErrors (c : Core) (row : Nat) : List (Nat × Nat × Nat) :=
  c.spadErrors.filterMap (fun e => if e.2.1 / 4 = row then some (e.1, e.2.1 % 4, e.2.2.toNat) else none)

/-- The pattern by which a symbol of a row is off. -/
def errorOf (l : List (Nat × Nat × Nat)) (b k : Nat) : Nat :=
  l.foldl (fun x e => if e.1 = k ∧ e.2.1 = b then Nat.xor x e.2.2 else x) 0

/-- A row's bytes as the allocation that holds it has them. -/
def rowByte (b : Block) (row off : Nat) : Nat := (memGet b.spad (row * 256 + off - b.spadBase)).toNat

/-- Codeword `b` of a row as the array gives it: data and check symbols with their errors. -/
def received (x : Block) (row : Nat) (errs : List (Nat × Nat × Nat)) (b k : Nat) : Nat :=
  let data (j : Nat) := rowByte x row (4 * j + b)
  Nat.xor (if k < 64 then data k else nth (checkSymbols data) (k - 64) 0) (errorOf errs b k)

/-- Whether a bank is corrected in 8 different rows within 2^16 cycles. -/
def bankFails (c : Core) (now bank : Nat) : Bool :=
  decide (8 ≤ ((c.fixes.filter (fun f => decide (f.1 = bank ∧ now < f.2.2 + 65536))).map (fun f => f.2.1)).eraseDups.length)

/-- A bank that failed: the first is declared failed, a second marks the core suspect (R185). -/
def judgeBanks (s : State) (part core : Nat) (banks : List Nat) : State :=
  banks.foldl (fun t k =>
    let c := coreOf t core
    if !bankFails c t.now k then t
    else match c.failed with
      | none => postEvent (modCore t core (fun c => { c with failed := some k })) part
          { src := dieOfCore core, seq := 0, time := 0, cause := .spadBankFailed, severity := 1, core := some core, detail := k }
      | some f =>
        if f = k ∨ c.second then t
        else suspectCore (postEvent (modCore t core (fun c => { c with second := true })) part
          { src := dieOfCore core, seq := 0, time := 0, cause := .spadSecondBank, severity := 2, core := some core, detail := k })
          core) s

/-- The codewords of a row decoded: number and corrections of each that has an error, none where it does not decode. -/
def rowDecoded (c : Core) (b : Block) (row : Nat) : List (Nat × Option (List (Nat × Nat))) :=
  let errs := rowErrors c row
  ((List.range 4).filter (fun j => errs.any (fun e => decide (e.2.1 = j)))).map (fun j =>
    (j, decodeWordOf c.failed (received b row errs j)))

/-- The core after codewords of a row were corrected: the corrections outside a failed bank are counted, and the errors of
the codewords in `gone` are out of the array (R185, R186). Log entry 49 (DEDUCED). -/
def correctRow (c : Core) (now row : Nat) (fixed : List Nat) (gone : Nat → Bool) : Core :=
  let l := fixed.filter (fun k => !decide (some k = c.failed))
  { c with corrected := Nat.min (2 ^ 24 - 1) (c.corrected + l.length)
           fixes := c.fixes ++ l.map (fun k => (k, row, now))
           spadErrors := c.spadErrors.filter (fun e => !(decide (e.2.1 / 4 = row) && gone (e.2.1 % 4))) }

/-- The bytes of a row that hold another value once the codewords are written back: the errors the code did not see, or
could not correct. -/
def rowLeft (b : Block) (row : Nat) (errs : List (Nat × Nat × Nat)) (l : List (Nat × Option (List (Nat × Nat)))) :
    List (Nat × Byte) :=
  l.flatMap (fun x => (List.range 64).filterMap (fun k =>
    let fix := (x.2.getD []).foldl (fun y z => if z.1 = k then Nat.xor y z.2 else y) 0
    let e := Nat.xor (errorOf errs x.1 k) fix
    if e = 0 then none
    else some (row * 256 + 4 * k + x.1 - b.spadBase, BitVec.ofNat 8 (Nat.xor (rowByte b row (4 * k + x.1)) e))))

/-- The banks whose words a codeword that does not decode affects: those in error, and the failed one. -/
def lostBanks (c : Core) (errs : List (Nat × Nat × Nat)) (j : Nat) : List Nat :=
  ((errs.filter (fun e => decide (e.2.1 = j))).map (·.1) ++ c.failed.toList).filter (fun k => decide (k < 64))

/-- Reads a row of the array for a block: its codewords are decoded and written back (R185); with `scrub`, those that do
not decode are left alone. Two errors that lie in check words alone poison nothing and are recorded.
Log entry 49 (DEDUCED). Log entry 101 (DEDUCED). -/
def readRowFor (scrub : Bool) (s : State) (k row : Nat) : State :=
  let b := blockOf s k
  let c := coreOf s b.core
  let errs := rowErrors c row
  if errs.isEmpty then s
  else
    let part := (gridOf s b.grid).part
    let all := rowDecoded c b row
    let seen := if scrub then all.filter (fun x => x.2.isSome) else all
    let fixed := (seen.flatMap (fun x => x.2.getD [])).map (·.1)
    let s1 := judgeBanks (modCore s b.core (fun c => correctRow c s.now row fixed (fun j => seen.any (fun x => decide (x.1 = j)))))
      part b.core (fixed.filter (fun x => decide (x < 64))).eraseDups
    let s2 := modBlock s1 k (fun b => { b with spad := memWrite b.spad (rowLeft b row errs seen) })
    let bad := seen.filter (fun x => x.2.isNone)
    let grans := ((bad.flatMap (fun x => lostBanks c errs x.1)).map (fun x => (row * 256 + 4 * x - b.spadBase) / 32)).eraseDups
    let e : Event := { src := dieOfCore b.core, seq := 0, time := 0, cause := .spadUncorrected, severity := 2
                       addr := row * 256 - b.spadBase, core := some b.core }
    if grans.isEmpty && !bad.isEmpty then postEvent s2 part e
    else grans.foldl (fun t g =>
      let r := newTag t part
      postEvent (modBlock r.2 k (fun b => { b with spadTags := tagSet b.spadTags g (.poison r.1) })) part
        { e with tag := .poison r.1, addr := 32 * g }) s2

/-- Reads a row (R185). -/
def readRow (s : State) (k row : Nat) : State := readRowFor false s k row

/-- Reads the rows that bytes of an allocation lie in. -/
def readRows (s : State) (k : Nat) (offs : List Nat) : State :=
  let base := (blockOf s k).spadBase
  ((offs.map (fun o => (base + o) / 256)).eraseDups).foldl (fun t r => readRow t k r) s


/-! ### Uncorrectable errors elsewhere (R311, R320) -/

/-- Whether an error has arisen and is not found yet. -/
def upsetAt (s : State) (x : Upset) : Bool := s.upsets.any (fun y => decide (y.1 ≤ s.now ∧ y.2 = x))
/-- The state without an error that was found. -/
def dropUpset (s : State) (x : Upset) : State := { s with upsets := s.upsets.filter (fun y => !decide (y.1 ≤ s.now ∧ y.2 = x)) }

/-- Poison that a unit creates: the next tag of the partition, and its record (R320). -/
def createPoison (s : State) (part : Nat) (e : Event) : BitVec 12 × State :=
  let r := newTag s part
  (r.1, postEvent r.2 part { e with tag := .poison r.1, severity := 2 })

/-- An uncorrectable error of a wave's register file, if a lane of a register holds one: the lane read is poison (R320);
a varying register is named by its logical index. Log entry 10 (DESIGN CHOICE). -/
def findReg (s : State) (u : Nat) (r : RegRef) (l : Nat) : State :=
  if !upsetAt s (.reg u r l) then s
  else
    let w := waveOf s u
    let t := createPoison (dropUpset s (.reg u r l)) w.part (waveEvent s w .arrayUncorrected 2)
    modWave t.2 u (fun w => match r with
      | .v n => { w with v := mset w.v n (vRegSet (mgetD w.v n {}) l ⟨(vLane (mgetD w.v n {}) l).val, .poison t.1⟩) }
      | .s n => setS w n ⟨(sReg w n).val, .poison t.1⟩
      | .a n => setA w n { aReg w n with tag := .poison t.1 }
      | .p n => setP w n { pReg w n with tags := tagSet (pReg w n).tags l (.poison t.1) }
      | .acc _ => w)

/-- The record of an error in an array of a block. -/
def arrayEvent (s : State) (k addr : Nat) : Event :=
  let b := blockOf s k
  { src := dieOfCore b.core, seq := 0, time := 0, cause := .arrayUncorrected, addr := addr, core := some b.core
    grid := (gridOf s b.grid).handle, ctx := (gridOf s b.grid).ctx, asid := (ctxOf s (gridOf s b.grid).ctx).asid }

/-- An uncorrectable error of a granule of a tile file. -/
def findTile (s : State) (k g : Nat) : State :=
  if !upsetAt s (.tile k g) then s
  else
    let t := createPoison (dropUpset s (.tile k g)) (gridOf s (blockOf s k).grid).part (arrayEvent s k (32 * g))
    modBlock t.2 k (fun b => { b with tileTags := tagSet b.tileTags g (.poison t.1) })

/-- An uncorrectable error of an accumulator element. -/
def findAcc (s : State) (k n : Nat) : State :=
  if !upsetAt s (.acc k n) then s
  else
    let t := createPoison (dropUpset s (.acc k n)) (gridOf s (blockOf s k).grid).part (arrayEvent s k n)
    modBlock t.2 k (fun b => { b with acc := mset b.acc n { mgetD b.acc n {} with tag := .poison t.1 } })

/-- The errors of the matrix state of a block, found when its tiles and accumulators are read. -/
def findMatrix (s : State) (k : Nat) : State :=
  s.upsets.foldl (fun t y => match y.2 with
    | .tile b g => if b = k then findTile t k g else t
    | .acc b n => if b = k then findAcc t k n else t
    | _ => t) s

/-- Everything a block holds on its core is read: its scratchpad, its tiles and accumulators, its waves' registers
(R185, R320). -/
def readBlock (s : State) (k : Nat) : State :=
  let s1 := findMatrix (readRows s k ((List.range ((blockOf s k).spadLen / 256)).map (· * 256))) k
  s1.upsets.foldl (fun t y => match y.2 with
    | .reg u r l => if (waveOf t u).block = some k then findReg t u r l else t
    | _ => t) s1

/-- Scratchpad errors that have arisen are in the rows of their cores (R184). -/
def raiseSpad (s : State) : State :=
  s.upsets.foldl (fun t y => match y.2 with
    | .spad c k at_ x =>
      if y.1 ≤ s.now then modCore (dropUpset t y.2) c (fun z => { z with spadErrors := (k, at_, x) :: z.spadErrors }) else t
    | _ => t) s

/-- A core whose rows of an allocation were written in full: their check words are those of the data (R182, R184). -/
def clearRows (base len : Nat) (c : Core) : Core :=
  { c with spadErrors := c.spadErrors.filter (fun e => !decide (base / 256 ≤ e.2.1 / 4 ∧ e.2.1 / 4 < (base + len) / 256)) }

/-- The block whose allocation holds a row of a core. -/
def rowOwner (s : State) (core row : Nat) : Option Nat :=
  firstSome (fun b => if b.2.core = core ∧ b.2.spadBase ≤ row * 256 ∧ row * 256 < b.2.spadBase + b.2.spadLen then some b.1
    else none) s.blocks

end Sys2Proof.Machine
end

