-- ==== Sys2Proof/Machine/Memory.lean ====
section
/-! DEFINITION. Global memory: the page walk and the TLB (R200 to R207), the checks of an access (R210, R211), the home
order and the views of the dies (R203, R226 to R228, R238), release sequences (R236), journals (R301), the ports
(R240, R302), and code fetch (R142, R143, R146). -/

namespace Sys2Proof.Machine

/-! ### Translation -/

/-- The number of bytes as read from the home order. -/
def memNum (s : State) (a n : Nat) : Nat := ofBytes (memRead s.mem a n)

/-- What a walk finds. -/
inductive Walk where
  | leaf (pte : DWord) (level : Nat)
  | invalid
  | malformed
  deriving DecidableEq, Repr

/-- The bytes a leaf of a level covers (R200). -/
def pageSize : Nat → Nat
  | 0 => 0x10000
  | 1 => 0x200000
  | _ => 0x40000000

/-- The index of an address in the table of a level (R200). -/
def tableIndex (level va : Nat) : Nat :=
  match level with
  | 0 => bits va 20 16
  | 1 => bits va 29 21
  | 2 => bits va 38 30
  | _ => bits va 48 39

/-- Whether `n` bytes at a physical address of region 0x0 lie past the HBM (R6). Log entry 87 (PRESUMED). -/
def pastHbm (pa n : Nat) : Bool := decide (pa / 2 ^ 48 = 0 ∧ Config.hbmBytes < pa + n)

/-- Whether a leaf breaks R201: its page size, the bits that must be zero, ingress with write, its region; a page past
the HBM is one of no region. Log entry 87 (PRESUMED). -/
def leafBad (x level : Nat) : Bool :=
  level = 3 || decide (bits x 11 10 ≠ level) || decide (bits x 15 12 ≠ 0) ||
  decide (bits x 51 16 * 0x10000 % pageSize level ≠ 0) || (bitAt x 60 && bitAt x 2) || decide (2 < bits x 51 48) ||
  pastHbm (bits x 51 16 * 0x10000) (pageSize level)

/-- The bytes of a table of a level (R200). -/
def levelBytes : Nat → Nat
  | 0 => 256
  | 1 => 4096
  | 2 => 4096
  | _ => 8192

/-- Walks the tables from a level down (R200, R201); a table that reaches past the HBM is malformed.
Log entry 87 (PRESUMED). -/
def walkFrom (s : State) (va : Nat) : Nat → Nat → Walk
  | level, table =>
    let x := memNum s (table + 8 * tableIndex level va) 8
    if pastHbm table (levelBytes level) then .malformed
    else if !bitAt x 0 then .invalid
    else if bits x 3 1 ≠ 0 then
      if leafBad x level then .malformed else .leaf (BitVec.ofNat 64 x) level
    else
      match level with
      | 0 => .malformed
      | k + 1 =>
        if bits x 63 52 ≠ 0 ∨ bits x 7 1 ≠ 0 then .malformed
        else walkFrom s va k (bits x 51 8 * 256)

/-- Whether a cached entry translates an address of an ASID of a partition (R205, R206). -/
def tlbMatch (e : TlbEntry) (part asid va : Nat) : Bool :=
  decide (e.part = part ∧ (e.asid = asid ∨ bitAt e.pte.toNat 4) ∧ e.page = va / pageSize e.level)

/-- The translation a core uses for an address: a cached entry that it still holds, or a walk (R206).
Log entry 9 (DESIGN CHOICE). -/
def lookup (s : State) (core part ctx va : Nat) : Walk :=
  let x := ctxOf s ctx
  match (coreOf s core).tlb.find? (fun e => tlbMatch e part x.asid va) with
  | some e => if Config.tlbHolds s.nextId then .leaf e.pte e.level else walkFrom s va 3 x.root
  | none => walkFrom s va 3 x.root

/-- The physical address under a leaf. -/
def physical (pte : DWord) (level va : Nat) : Nat := bits pte.toNat 51 16 * 0x10000 + va % pageSize level

/-- The region of a physical address (R202). -/
def regionOf (pa : Nat) : Nat := pa / 2 ^ 48

/-- The core's TLB after a walk: valid, well-formed entries are cached, the oldest leaving a full TLB (R206). -/
def cacheWalk (s : State) (core part ctx va : Nat) : State :=
  match lookup s core part ctx va with
  | .leaf pte level =>
    modCore s core (fun c =>
      let x := ctxOf s ctx
      let rest := c.tlb.filter (fun e => !tlbMatch e part x.asid va)
      { c with tlb := ({ part := part, asid := x.asid, page := va / pageSize level, level := level, pte := pte } : TlbEntry)
                  :: rest.take (Config.tlbEntries - 1) })
  | _ => s

/-! ### The checks of an access (R210, R211) -/

/-- The kinds of access. -/
inductive Access where
  | load | store | atomic
  deriving DecidableEq, Repr

/-- On whose behalf an access is checked (R211). -/
structure Agent where
  core : Nat
  part : Nat
  grid : Nat
  ctx : Nat
  pkr : DWord

/-- A wave as an agent. -/
def agentOf (w : Wave) : Agent := { core := w.core, part := w.part, grid := w.grid, ctx := w.ctx, pkr := w.pkr }

/-- How a check fails: a step with its cause, the lane and the address; `ends` where the block ends with it. -/
structure CheckFail where
  cause : Cause
  lane : Nat
  addr : Nat
  ends : Bool
  malformed : Bool := false

/-- Whether bytes lie in the leased set of a grid: its ranges and its waves' spill areas (R209). -/
def leased (g : Grid) (a n : Nat) : Bool :=
  g.launch.leases.any (fun r => decide (r.1 ≤ a ∧ a + n ≤ r.1 + r.2)) ||
  decide (g.launch.spillBase ≤ a ∧ a + n ≤ g.launch.spillBase + g.launch.spillBytes * g.launch.spillAreas)

/-- Step 4 to 7 for one address. -/
def checkPage (s : State) (g : Agent) (kind : Access) (lane a : Nat) (step : Nat) : Option CheckFail :=
  match lookup s g.core g.part g.ctx a with
  | .invalid => if step = 4 then some ⟨.dataFault, lane, a, true, false⟩ else none
  | .malformed => if step = 4 then some ⟨.dataFault, lane, a, true, true⟩ else none
  | .leaf pte level =>
    let x := pte.toNat
    let pa := physical pte level a
    match step with
    | 5 =>
      let ok := match kind with
        | .load => bitAt x 1
        | .store => bitAt x 2 && !bitAt x 60
        | .atomic => bitAt x 1 && bitAt x 2 && decide (regionOf pa = 0)
      if ok then none else some ⟨.accessPerm, lane, a, false, false⟩
    | 6 =>
      let k := bits x 9 5
      let deny := g.pkr.getLsbD (2 * k) || (decide (kind ≠ .load) && g.pkr.getLsbD (2 * k + 1))
      if deny then some ⟨.keyPerm, lane, a, false, false⟩ else none
    | 7 =>
      let world := bitAt x 61 || decide (bits x 59 52 = (ctxOf s g.ctx).world)
      let peer := decide (regionOf pa ≠ 2) || (mgetD (partOf s g.part).roster (bits pa 47 44) {}).present
      if world && peer then none else some ⟨.world, lane, a, false, false⟩
    | _ => none

/-- The first failing step of an access over its lanes, each step over all lanes in ascending order (R210). -/
def checkLanes (s : State) (g : Agent) (kind : Access) (width : Nat) (ls : List (Nat × Nat)) : Option CheckFail :=
  let grid := gridOf s g.grid
  let first (f : Nat → Nat → Option CheckFail) : Option CheckFail := firstSome (fun x => f x.1 x.2) ls
  let steps := [first (fun l a => if a % width = 0 then none else some ⟨.memAlign, l, a, false, false⟩),
    first (fun l a => if leased grid a width then none else some ⟨.leaseViolation, l, a, true, false⟩),
    first (fun l a => checkPage s g kind l a 4), first (fun l a => checkPage s g kind l a 5),
    first (fun l a => checkPage s g kind l a 6), first (fun l a => checkPage s g kind l a 7)]
  firstSome id steps

/-- The physical address of a checked access. -/
def paOf (s : State) (g : Agent) (va : Nat) : Nat :=
  match lookup s g.core g.part g.ctx va with
  | .leaf pte level => physical pte level va
  | _ => 0

/-- The state after the translations of some addresses were cached. -/
def cacheAll (s : State) (g : Agent) (vas : List Nat) : State :=
  ((vas.map (· / 0x10000)).eraseDups).foldl (fun t p => cacheWalk t g.core g.part g.ctx (p * 0x10000)) s

/-! ### Tags of granules and journals (R301, R307, R319) -/

/-- The tag state of the granule of an address in the home order. -/
def granTag (s : State) (a : Nat) : Tag := tagAt s.memTags (a / 32)

/-- A journal with a granule appended: a granule next to the end of the newest run extends it (R301). -/
def journalAdd (j : List Run) (space owner g : Nat) : List Run :=
  match j with
  | r :: rest =>
    if r.space = space ∧ r.owner = owner ∧ r.first ≤ g ∧ g < r.first + r.count then r :: rest
    else if r.space = space ∧ r.owner = owner ∧ g = r.first + r.count ∧ r.count < 64 then
      { r with count := r.count + 1 } :: rest
    else { space := space, owner := owner, first := g, count := 1 } :: r :: rest
  | [] => [{ space := space, owner := owner, first := g, count := 1 }]

/-- The tags after a granule took a state: a provisional one is journaled (R301). -/
def journal (tags : Map ProvTag) (t : Tag) (space owner g : Nat) : Map ProvTag :=
  match t with
  | .prov x => mmod tags x.toNat (fun r => { r with journal := journalAdd r.journal space owner g })
  | _ => tags

/-- Whether the granules a write gives states may be journaled: storage space, owner, granule and state of each, in order.
A write that would start a 257th run waits (R301). -/
def mayJournal (tags : Map ProvTag) : List (Nat × Nat × Nat × Tag) → Bool
  | [] => true
  | x :: r =>
    (match x.2.2.2 with
      | .prov t => (mget tags t.toNat).all (fun y => decide ((journalAdd y.journal x.1 x.2.1 x.2.2.1).length ≤ 256))
      | _ => true) && mayJournal (journal tags x.2.2.2 x.1 x.2.1 x.2.2.1) r

/-- Whether a journal holds a granule. -/
def inJournal (j : List Run) (space owner g : Nat) : Bool :=
  j.any (fun r => decide (r.space = space ∧ r.owner = owner ∧ r.first ≤ g ∧ g < r.first + r.count))

/-- The tags after a write reached its home: a granule whose state there is provisional with a tag that has not journaled
it is journaled now (R301). -/
def journalHome (tags : Map ProvTag) (t : Tag) (g : Nat) : Map ProvTag :=
  match t with
  | .prov x => mmod tags x.toNat (fun r => if inJournal r.journal 0 0 g then r else { r with journal := journalAdd r.journal 0 0 g })
  | _ => tags

/-- The state a granule takes when written: the data's tag, merged with the former state for a partial write (R217);
with the absorptions (R300). -/
def granMerge (old new : Tag) (whole : Bool) : Tag × List (Nat × Nat) :=
  if whole then (new, []) else (mergeTag old new, absorptions [old, new])

/-! ### Views (R227, R228, R238) -/

/-- The dies of a partition. -/
def diesOf (s : State) (p : Nat) : List Nat := (partOf s p).dies

/-- The home die of an HBM address among the dies of a partition (R203). -/
def homeDie (dies : List Nat) (pa : Nat) : Nat :=
  let h := Nat.xor (Nat.xor (bits pa 8 6) (bits pa 17 15)) (bits pa 26 24)
  nth dies (h % dies.length) 0

/-- An uncorrectable error of the HBM or of a die cache in a granule: the granule read is poison (R311, R320). -/
def findMemory (part : Nat) (s : State) (g : Nat) : State :=
  if !upsetAt s (.memory g) then s
  else
    let t := createPoison (dropUpset s (.memory g)) part
      { src := homeDie (diesOf s part) (32 * g), seq := 0, time := 0, cause := .memUncorrected, addr := 32 * g
        core := some (64 * homeDie (diesOf s part) (32 * g) + 63) }
    { t.2 with
      memTags := tagSet t.2.memTags g (.poison t.1)
      lags := t.2.lags.map (fun l => if l.addr / 32 = g then { l with tag := .poison t.1 } else l) }

/-- The errors of the granules of some bytes of memory are found as the bytes are read. -/
def readMemory (s : State) (part : Nat) (pas : List Nat) : State :=
  if s.upsets.isEmpty then s else ((pas.map (· / 32)).eraseDups).foldl (findMemory part) s

/-- The errors that the read of a byte or element at a place finds. -/
def findAt (part : Nat) (s : State) (x : EngineDest × Nat) : State :=
  match x.1 with
  | .memory => findMemory part s (x.2 / 32)
  | .spad _ => s
  | .tile k => findTile s k (x.2 / 32)
  | .acc k => findAcc s k (x.2 / 12)
  | .window u base => findReg s u (.v (base + x.2 / 256)) (x.2 % 256 / 4)

/-- The scratchpad bytes among some places. -/
def spadPlaces (l : List (EngineDest × Nat)) : List (Nat × Nat) :=
  l.filterMap (fun x => match x.1 with
    | .spad k => some (k, x.2)
    | _ => none)

/-- Reads some places for a partition: scratchpad rows are decoded and written back (R185), and the errors of the others
are found (R320). -/
def readPlaces (s : State) (part : Nat) (l : List (EngineDest × Nat)) : State :=
  let s1 := if s.upsets.isEmpty then s else l.foldl (findAt part) s
  let m := spadPlaces l
  ((m.map (·.1)).eraseDups).foldl (fun t k => readRows t k ((m.filter (fun x => decide (x.1 = k))).map (·.2))) s1

/-- Where a die's view of a byte differs from the home order. -/
def lagAt (s : State) (d a : Nat) : Option Lag := s.lags.find? (fun x => decide (x.die = d ∧ x.addr = a))

/-- A list of differences with one set. -/
def lagSet (l : List Lag) (x : Lag) : List Lag := x :: l.filter (fun y => !decide (y.die = x.die ∧ y.addr = x.addr))
/-- A list of differences with one removed. -/
def lagDel (l : List Lag) (d a : Nat) : List Lag := l.filter (fun y => !decide (y.die = d ∧ y.addr = a))

/-- A byte in a die's view: its value, its granule's tag state, the release sequences it belongs to. -/
def viewByte (s : State) (d a : Nat) : Byte × Tag × List Head :=
  match lagAt s d a with
  | some x => (x.byte, x.tag, x.heads)
  | none => (memGet s.mem a, granTag s a, mgetD s.heads a [])

/-- The release sequences a written byte belongs to: those the write heads, and the old ones it continues: all for a
read-modify-write, else those of the same wave (R236). -/
def headsAfter (old own : List Head) (wave : Option Nat) (rmw : Bool) : List Head :=
  own ++ (if rmw then old else old.filter (fun h => decide (h.wave = wave ∧ wave.isSome)))

/-- Whether two writes touch a byte in common. -/
def overlaps (x y : List (Nat × Byte)) : Bool := x.any (fun a => y.any (fun b => decide (a.1 = b.1)))

/-- Whether the writes that causally precede a flight have been applied in the view of a die (R238). -/
def precededAt (s : State) (f : Flight) (d : Nat) : Bool :=
  s.flights.all (fun x => decide (x.1 = f.id) || decide (clockAt f.clock x.2.src < x.2.seq) || appliedAt x.2 d)

/-- Whether a flight may be applied at its home: its predecessors are applied there, and so are the older writes of its
die to the same bytes (R228). -/
def mayHome (s : State) (f : Flight) : Bool :=
  precededAt s f f.home &&
  s.flights.all (fun x => !decide (x.1 < f.id ∧ x.2.src = f.src) || x.2.pos.isSome || !overlaps x.2.bytes f.bytes)

/-- Whether a write may be applied at its home: the state it gives its granule there is journaled, or may be (R301). -/
def homeMay (s : State) (f : Flight) : Bool :=
  let g := (match f.bytes with
    | x :: _ => x.1
    | [] => 0) / 32
  match (granMerge (seeTag s.tags f.part (tagAt s.memTags g)) (seeTag s.tags f.part f.tag) f.whole).1 with
  | .prov t => (mget s.tags t.toNat).all (fun y =>
      inJournal y.journal 0 0 g || decide ((journalAdd y.journal 0 0 g).length ≤ 256))
  | _ => true

/-- One byte of a granule a write was applied to at home: the other views keep the old byte until the write reaches them;
a byte that only takes the granule's new tag keeps its release sequences (R236). -/
def homeByte (f : Flight) (n : Nat) (others : List Nat) (oldTag : Tag) (s : State) (x : Nat × Byte) : State :=
  let a := x.1
  let old := memGet s.mem a
  let oldHeads := mgetD s.heads a []
  let keep (l : List Lag) (d : Nat) : List Lag :=
    if l.any (fun y => decide (y.die = d ∧ y.addr = a)) then l
    else ⟨d, a, old, oldTag, some (n - 1), 0, oldHeads⟩ :: l
  let lags := others.foldl keep s.lags
  let lags := lags.filter (fun y => !decide (y.die = f.src ∧ y.addr = a ∧ y.flight = f.id))
  let now := if f.bytes.any (fun y => decide (y.1 = a)) then headsAfter oldHeads f.heads f.wave f.rmw else oldHeads
  { s with mem := memSet s.mem a x.2, lags := lags
           heads := if now.isEmpty then mdel s.heads a else mset s.heads a now }

/-- A flight taken out once every view has it. -/
def settleFlight (s : State) (n : Nat) : State :=
  match mget s.flights n with
  | some f => if f.pos.isSome && f.todo.isEmpty then { s with flights := mdel s.flights n } else s
  | none => s

/-- Applies a write at its home: it takes its place in the coherence order (R227). -/
def applyHome (s : State) (f : Flight) (dies : List Nat) : State :=
  let n := s.homeSeq + 1
  let a0 := match f.bytes with
    | x :: _ => x.1
    | [] => 0
  let oldTag := granTag s a0
  let m := granMerge (seeTag s.tags f.part oldTag) (seeTag s.tags f.part f.tag) f.whole
  let bytes := if m.1 = oldTag then f.bytes
    else (List.range 32).map (fun k =>
      let a := a0 / 32 * 32 + k
      (a, match f.bytes.reverse.find? (fun x => decide (x.1 = a)) with
        | some x => x.2
        | none => memGet s.mem a))
  let others := dies.filter (fun d => decide (d ≠ f.home ∧ d ≠ f.src))
  let s1 := bytes.foldl (homeByte f n others oldTag) s
  let f1 := { f with
    pos := some n, todo := others, bytes := bytes, tag := m.1
    spread := (bytes.map (·.1)).filter (fun a => !f.bytes.any (fun y => decide (y.1 = a)))
    homeHeads := bytes.map (fun x => (x.1, mgetD s1.heads x.1 [])) }
  settleFlight { s1 with
    homeSeq := n
    memTags := tagSet s1.memTags (a0 / 32) m.1
    tags := journalHome (absorb s1.tags m.2) m.1 (a0 / 32)
    flights := mset s1.flights f.id f1 } f.id

/-- Whether a homed write whose place lies between two others has still to reach the view of a die (R228). -/
def between (d q n : Nat) (x : Nat × Byte) (z : Flight) : Bool :=
  z.todo.contains d && (match z.pos with
    | some m => decide (q < m ∧ m < n)
    | none => false) && z.bytes.any (fun y => decide (y.1 = x.1)) && !z.spread.contains x.1

/-- One byte of a homed write applied in a die's view, unless the view is already past it (R228). A byte that took only
the granule's new tag keeps its value while a write of it is still to come (R238). -/
def viewApply (f : Flight) (n d : Nat) (tag : Tag) (s : State) (x : Nat × Byte) : State :=
  match lagAt s d x.1 with
  | none => s
  | some y =>
    match y.pos with
    | none => s
    | some q =>
      if n ≤ q then s
      else if f.spread.contains x.1 && s.flights.any (fun z => between d q n x z.2) then
        { s with lags := lagSet s.lags { y with tag := tag } }
      else
        let later := s.flights.any (fun z => decide (z.2.todo.contains d) && overlaps z.2.bytes [x] &&
          (match z.2.pos with
            | some m => decide (n < m)
            | none => false))
        if later then { s with lags := lagSet s.lags ⟨d, x.1, x.2, tag, some n, f.id, mgetD f.homeHeads x.1 []⟩ }
        else { s with lags := lagDel s.lags d x.1 }

/-- Applies a homed write in the view of a die (R227). -/
def applyRemote (s : State) (f : Flight) (d : Nat) : State :=
  let n := f.pos.getD 0
  let s1 := f.bytes.foldl (viewApply f n d f.tag) s
  settleFlight { s1 with flights := mset s1.flights f.id { f with todo := f.todo.filter (fun x => !decide (x = d)) } } f.id

/-- Applies a write at its home, and with it the same store's write to the other half of the line: the line goes from one
version to the next (R146). -/
def applyLine (s : State) (f : Flight) (dies : List Nat) : State :=
  let s1 := applyHome s f dies
  match f.twin.bind (mget s1.flights) with
  | some g => if g.pos.isNone then applyHome s1 g dies else s1
  | none => s1

/-- The writes that have to be in the view of a die before a write comes there: those that precede it causally, and its
own die's older ones to the same bytes (R228, R238). -/
def missingBefore (s : State) (f : Flight) (d : Nat) : List Nat :=
  (s.flights.filter (fun x => decide (x.1 ≠ f.id) && !(x.2.pos.isSome && appliedAt x.2 d) &&
    (decide (x.2.seq ≤ clockAt f.clock x.2.src) ||
      (decide (x.1 < f.id ∧ x.2.src = f.src) && x.2.pos.isNone && overlaps x.2.bytes f.bytes)))).map (·.1)

/-- The writes that come before a write at its home, and those that come before its other half, which takes its place with
it (R146, R228, R238). -/
def lineBefore (s : State) (f : Flight) : List Nat :=
  missingBefore s f f.home ++ (match f.twin.bind (mget s.flights) with
    | some g => if g.pos.isNone then (missingBefore s g g.home).filter (fun n => decide (n ≠ f.id)) else []
    | none => [])

/-- Brings one write into the view of a die, at home first, each place after the writes that precede it there (R238). The
first argument bounds the length of a chain of writes. -/
def bring : Nat → Nat → State → Nat → State
  | 0, _, s, _ => s
  | k + 1, d, s, n =>
    match mget s.flights n with
    | none => s
    | some f =>
      let s1 := if f.pos.isNone then
          let t := (lineBefore s f).foldl (bring k f.home) s
          match mget t.flights n with
          | some g => if g.pos.isNone then applyLine t g ((g.src :: g.home :: g.todo).eraseDups) else t
          | none => t
        else s
      match mget s1.flights n with
      | none => s1
      | some g =>
        if g.todo.contains d then
          let t := (missingBefore s1 g d).foldl (bring k d) s1
          match mget t.flights n with
          | some h => if h.todo.contains d then applyRemote t h d else t
          | none => t
        else s1

/-- Brings some writes into the view of a die. -/
def bringAll (s : State) (d : Nat) (l : List Nat) : State := l.foldl (bring (s.flights.length + 1) d) s

/-- Makes every write that a clock covers known in the view of a die: what an acquire point waits for (R237, R241).
Log entry 42 (DESIGN CHOICE). -/
def syncTo (s : State) (d : Nat) (clock : List Nat) : State :=
  bringAll s d ((s.flights.filter (fun x =>
    decide (x.2.seq ≤ clockAt clock x.2.src) && !(x.2.pos.isSome && appliedAt x.2 d))).map (·.1))

/-- The bytes of a store grouped by granule, in order. -/
def byGranule (l : List (Nat × Byte)) : List (Nat × List (Nat × Byte)) :=
  l.foldl (fun m x => mset m (x.1 / 32) (mgetD m (x.1 / 32) [] ++ [x])) []


/-- Whether bytes cover their granule. -/
def coversGranule (g : Nat) (l : List (Nat × Byte)) : Bool :=
  (List.range 32).all (fun k => l.any (fun x => decide (x.1 = 32 * g + k)))

/-- A write at its release in the view of its die: the bytes show there at once (R227). -/
def showOwn (f : Flight) (oldTag : Tag) (s : State) (x : Nat × Byte) : State :=
  let old := viewByte s f.src x.1
  let tag := (granMerge (seeTag s.tags f.part oldTag) f.tag f.whole).1
  { s with lags := lagSet s.lags ⟨f.src, x.1, x.2, tag, none, f.id, headsAfter old.2.2 f.heads f.wave f.rmw⟩ }

/-- A head whose clock covers the write that carries it: what synchronises with the release has that write before it
(R237). -/
def headWith (die seq : Nat) (h : Head) : Head := { h with clock := clockRaise h.clock die seq }

/-- A write is performed: the state it gives its granule is journaled (R301). Log entry 62 (DEDUCED). -/
def journalWrite (s : State) (f : Flight) : State :=
  let a0 := match f.bytes with
    | x :: _ => x.1
    | [] => 0
  let m := granMerge (seeTag s.tags f.part (granTag s a0)) (seeTag s.tags f.part f.tag) f.whole
  { s with tags := journal s.tags m.1 0 0 (a0 / 32) }

/-- Puts a write to one granule of HBM on its way: shown in the issuing die's view, applied at once where that die is
its home, else in flight (R227, R238). -/
def launchWrite (s : State) (dies : List Nat) (f0 : Flight) : State :=
  let a0 := match f0.bytes with
    | x :: _ => x.1
    | [] => 0
  let home := homeDie dies a0
  let others := dies.filter (fun d => decide (d ≠ home ∧ d ≠ f0.src))
  let seq := (dieOf s f0.src).writeSeq + 1
  let id := s.nextId
  let f := { f0 with
    id := id, home := home, seq := seq, todo := others
    heads := f0.heads.map (headWith f0.src seq)
    homeAt := s.now + Config.homeDelay id
    viewAt := others.map (fun d => (d, s.now + Config.remoteDelay id d)) }
  let s1 := journalWrite { modDie s f0.src (fun x => { x with writeSeq := x.writeSeq + 1 }) with nextId := id + 1 } f0
  if home = f0.src then applyHome s1 f dies
  else
    let s2 := { s1 with flights := mset s1.flights id f }
    f.bytes.foldl (showOwn f (viewByte s1 f0.src a0).2.1) s2

/-! ### Ports (R240, R302) -/

/-- The stream of a partition's roster entry (R359). -/
def peerStream (part e : Nat) : Nat := 0x10000 + part * 16 + e

/-- The stream of a partition's device writes: its PCIe function for region 0x1, a link for region 0x2. -/
def streamOf (part pa : Nat) : Nat := if regionOf pa = 2 then peerStream part (bits pa 47 44) else part

/-- Whether a stream drains (R362). -/
def streamStopped (s : State) (x : Nat) : Bool :=
  match mget s.streams x with
  | some t => decide (t.state = .draining)
  | none => false

/-- Whether a stream is closed: what comes to it is dropped (R362). -/
def streamClosed (s : State) (x : Nat) : Bool :=
  match mget s.streams x with
  | some t => decide (t.state = .closed)
  | none => false

/-- Whether the link of a peer's stream has failed (R358). -/
def linkDown (s : State) (x : PortWrite) : Bool :=
  let link := (mgetD (partOf s x.part).roster (x.stream % 16) {}).link
  decide (0x10000 ≤ x.stream) && (nth (hubOf s (link / 4)).links (link % 4) {}).failed

/-- The first address of some bytes. -/
def firstAddr (l : List (Nat × Byte)) : Nat :=
  match l with
  | x :: _ => x.1
  | [] => 0

/-- Whether the tag of a port write is not settled yet. -/
def portHeld (s : State) (x : PortWrite) : Bool :=
  match seeTag s.tags x.part x.tag with
  | .prov _ => true
  | _ => false

/-- A stream fails: its key slot is cleared, the writes that wait for it and the packets not acknowledged are dropped, with
one record of their number, and it is closed; a write held for its tag is dropped when that settles (R359, R362). -/
def failStream (s : State) (x : Nat) : State :=
  match mget s.streams x with
  | none => s
  | some t =>
    let waits (w : PortWrite) : Bool := decide (w.stream = x) && !portHeld s w
    let n := (s.ports.filter waits).length + t.sent.length
    let s1 := { s with
      streams := mset s.streams x { t with state := .closed, key := none, sent := [] }
      ports := s.ports.filter (fun w => !waits w) }
    postEvent s1 t.part { hubEvent s1 t.part .portPoison 2 with detail := n }

/-- A stream is closed with everything that waits for it, held for a tag or not, dropped (R361); what is lost is recorded. -/
def dropStream (s : State) (x : Nat) : State :=
  let lost := s.ports.any (fun w => decide (w.stream = x)) || (mget s.streams x).any (fun t => !t.sent.isEmpty)
  let s1 := if lost then failStream s x else s
  { s1 with
    ports := s1.ports.filter (fun w => !decide (w.stream = x))
    streams := mmod s1.streams x (fun t => { t with state := .closed, key := none, sent := [] }) }

/-- A packet has reached its memory. -/
def landPacket (s : State) (x : PortWrite) : State :=
  if x.bytes.isEmpty then s
  else { s with mem := memWrite s.mem x.bytes, memTags := tagSet s.memTags (firstAddr x.bytes / 32) .clean }

/-- A write leaves on its stream: it waits for its acknowledgement. Where its nonce would make the counter wrap, the stream
fails instead (R359, R362). Log entry 69 (DEDUCED). -/
def sendOn (s : State) (x : PortWrite) : State :=
  match mget s.streams x.stream with
  | none => landPacket s x
  | some t =>
    if t.nonce = BitVec.allOnes 64 then failStream { s with ports := x :: s.ports } x.stream
    else { s with streams := mset s.streams x.stream { t with
        nonce := t.nonce + 1, sent := t.sent ++ [(s.now + Config.portAck x.id, x)] } }

/-- The packets of a stream that are acknowledged reach their memory, in their order (R240, R362). -/
def ackStream (s : State) (x : Nat) : State :=
  match mget s.streams x with
  | none => s
  | some t =>
    let done := t.sent.takeWhile (fun y => decide (y.1 ≤ s.now))
    (done.map (·.2)).foldl landPacket
      { s with streams := mset s.streams x { t with sent := t.sent.drop done.length } }

/-- Every acknowledged packet reaches its memory. -/
def ackPorts (s : State) : State :=
  if s.streams.all (fun x => x.2.sent.isEmpty) then s else (s.streams.map (·.1)).foldl ackStream s

/-- Whether a write is of another world than its stream, which carries no traffic of it (R360). -/
def otherWorld (s : State) (x : PortWrite) : Bool :=
  match mget s.streams x.stream with
  | some t => decide (t.world ≠ x.world)
  | none => false

/-- The device writes that have not reached their memory, oldest first. -/
def onTheirWay (s : State) : List PortWrite := s.streams.flatMap (fun x => x.2.sent.map (·.2)) ++ s.ports

/-- Whether the head of a port stream may leave: its tag is settled, its stream runs, and every write that precedes it
causally is in the views of its partition (R240, R302). -/
def mayLeave (s : State) (x : PortWrite) : Bool :=
  !portHeld s x && !streamStopped s x.stream && !linkDown s x &&
  s.flights.all (fun f => !decide (f.2.seq ≤ clockAt x.clock f.2.src) || (diesOf s x.part).all (appliedAt f.2))

/-- One pass over the port writes, oldest first: the head of each stream leaves, or is dropped and recorded when it is
poison or of another world (R302, R323, R360). Log entry 52 (DEDUCED). Log entry 69 (DEDUCED). -/
def pumpOnce : List PortWrite → List Nat → State → State
  | [], _, s => s
  | x :: r, blocked, s =>
    if blocked.contains x.stream then pumpOnce r blocked s
    else if mayLeave s x then
      let s1 := { s with ports := s.ports.filter (fun y => !decide (y.id = x.id)) }
      match seeTag s.tags x.part x.tag, streamClosed s x.stream with
      | .poison t, _ =>
        pumpOnce r blocked (postEvent s1 x.part { hubEvent s1 x.part .poisonEgress 2 with tag := .poison t, addr := firstAddr x.bytes })
      | _, true => pumpOnce r blocked s1
      | _, _ =>
        if otherWorld s x then
          pumpOnce r blocked (postEvent s1 x.part { hubEvent s1 x.part .portPoison 2 with addr := firstAddr x.bytes })
        else pumpOnce r blocked (sendOn s1 x)
    else pumpOnce r (x.stream :: blocked) s

/-- Lets every port write leave that may. -/
def pumpPorts (s : State) : State := pumpOnce s.ports [] s

/-- What leaves the package joins its port stream: a write's bytes, or a message to a peer without bytes. -/
def portJoin (s : State) (part stream world : Nat) (bytes : List (Nat × Byte)) (tag : Tag) (clock : List Nat)
    (wave : Option Nat) : State :=
  pumpPorts { s with
    nextId := s.nextId + 1
    ports := s.ports ++ [{ id := s.nextId, part := part, stream := stream, bytes := bytes, tag := tag
                           clock := clock, wave := wave, at_ := s.now, world := world
                           level := wave.elim 63 (fun u => (gridOf s (waveOf s u).grid).launch.level) }] }

/-- A device write to region 0x1 or 0x2 joins its port stream. -/
def portWrite (s : State) (part world : Nat) (bytes : List (Nat × Byte)) (tag : Tag) (clock : List Nat)
    (wave : Option Nat) : State :=
  portJoin s part (streamOf part (firstAddr bytes)) world bytes tag clock wave

/-- Raises a wave's record of its own writes to the newest write of its die (R238). -/
def noteWrite (s : State) (u die : Nat) : State :=
  modWave s u (fun w => { w with wrote := clockRaise w.wrote die (dieOf s die).writeSeq })

/-- The flight of the other half of a 64-byte line that one write covers in part on both halves: its number, where the
flights of a write are numbered in the order of their granules (R146). -/
def twinOf (l : List (Nat × List (Nat × Byte))) (g n : Nat) : Option Nat :=
  if g % 2 = 0 then if (mget l (g + 1)).isSome then some (n + 1) else none
  else if (mget l (g - 1)).isSome then some (n - 1) else none

/-- Performs a write of bytes by a wave or its engines, of a context of a world: to the port, or into the views, one flight
per granule. -/
def performWrite (s : State) (part die world : Nat) (bytes : List (Nat × Byte)) (tagOf : Nat → Tag) (clock : List Nat)
    (heads : List Head) (wave : Option Nat) (rmw : Bool) : State :=
  let dies := diesOf s part
  (byGranule bytes).foldl (fun t g =>
    let tag := tagOf g.1
    match g.2 with
    | [] => t
    | x :: _ =>
      if regionOf x.1 = 0 then
        launchWrite t dies { id := 0, bytes := g.2, tag := tag, whole := coversGranule g.1 g.2, src := die, seq := 0
                             clock := clock, home := 0, heads := heads, wave := wave, rmw := rmw
                             part := part, twin := twinOf (byGranule bytes) g.1 t.nextId }
      else portWrite t part world g.2 tag clock wave) s

/-! ### Loads (R217, R226) -/

/-- A store still held: its bytes, and the `Merge` of the data it writes into a granule. -/
abbrev HeldStore : Type := List (Nat × Byte) × (Nat → Tag)

/-- The bytes and tags of store lanes of a width. -/
def laneStore (width : Nat) (ls : List StoreLane) : HeldStore :=
  (ls.flatMap (fun l => addrBytes l.addr (toBytes width l.val.toNat)),
    fun g => mergeTags ((ls.filter (fun l => decide (l.addr / 32 = g))).map (·.tag)))

/-- The stores to global memory that a wave holds, oldest first: those held before operation `n`. -/
def heldBytes (s : State) (u n : Nat) : List HeldStore :=
  s.held.filterMap (fun h =>
    if h.wave = u ∧ h.id < n then
      match h.eff with
      | .gstore width ls _ _ => some (laneStore width ls)
      | .vstore bs ts _ => some (bs, fun g => match ts.find? (fun t => decide (t.1 = g)) with
          | some t => t.2
          | none => .clean)
      | _ => none
    else none)

/-- A byte as a load sees it over the wave's held stores: the newest one's byte, with the state its granule will have
(R217, R226). Log entry 44 (DEDUCED). -/
def forwarded (see : Tag → Tag) (held : List HeldStore) (a : Nat) (old : Byte × Tag × List Head) :
    Byte × Tag × List Head :=
  held.foldl (fun v x =>
    match x.1.reverse.find? (fun b => decide (b.1 = a)) with
    | some b => (b.2, (granMerge (see v.2.1) (see (x.2 (a / 32))) (coversGranule (a / 32) x.1)).1, [])
    | none => v) old

/-- The tags that meet in a byte read under some held stores (R300). -/
def forwardedTags (see : Tag → Tag) (held : List HeldStore) (a : Nat) (old : Tag) : List Tag :=
  held.foldl (fun l x =>
    if x.1.any (fun b => decide (b.1 = a)) then
      (if coversGranule (a / 32) x.1 then [] else l) ++ [see (x.2 (a / 32))]
    else l) [see old]

/-- A byte as a load of a wave reads it: its die's view under the wave's held stores (R226). -/
def loadByte (s : State) (see : Tag → Tag) (held : List HeldStore) (die a : Nat) : Byte × Tag × List Head :=
  forwarded see held a (viewByte s die a)

/-- The value of some bytes read, each tag as its partition sees it (R307). -/
def bytesRead (see : Tag → Tag) (bs : List (Byte × Tag × List Head)) : TVal × List Head :=
  (⟨BitVec.ofNat 64 (ofBytes (bs.map (·.1))), mergeTags (bs.map (fun b => see b.2.1))⟩, (bs.flatMap (·.2.2)).eraseDups)

/-- The value a load lane takes now. Log entry 44 (DEDUCED). -/
def loadValue (s : State) (u n die a width : Nat) : TVal × List Head :=
  let see := seeTag s.tags (waveOf s u).part
  let held := heldBytes s u n
  bytesRead see ((List.range width).map (fun k => loadByte s see held die (a + k)))

/-- The absorptions of the tags that meet in the value a load lane takes now (R300). -/
def loadPairs (s : State) (u n die a width : Nat) : List (Nat × Nat) :=
  let see := seeTag s.tags (waveOf s u).part
  let held := heldBytes s u n
  absorptions ((List.range width).flatMap (fun k => forwardedTags see held (a + k) (viewByte s die (a + k)).2.1))

/-- Whether a wave's older held atomic or port write covers bytes of a load (R228). -/
def loadBlocked (s : State) (u n a width : Nat) : Bool :=
  s.held.any (fun h => decide (h.wave = u ∧ h.id < n) && (match h.eff with
    | .gatomic w _ ls _ _ _ _ => ls.any (fun l => decide (l.addr < a + width ∧ a < l.addr + w))
    | _ => false)) ||
  (onTheirWay s).any (fun p => decide (p.wave = some u) && p.bytes.any (fun b => decide (a ≤ b.1 ∧ b.1 < a + width)))

/-! ### Scratchpad loads (R187, R194, R229) -/

/-- The stores to its scratchpad that a wave holds, oldest first: those held before operation `n`. -/
def heldSpad (s : State) (u n : Nat) : List HeldStore :=
  s.held.filterMap (fun h =>
    if h.wave = u ∧ h.id < n then
      match h.eff with
      | .sstore width ls => some (laneStore width ls)
      | _ => none
    else none)

/-- The value a scratchpad lane takes now: the bank's bytes with the state of their granule, under the wave's held
stores (R187, R194). -/
def spadValue (s : State) (u n k a width : Nat) : TVal × List Head :=
  let see := seeTag s.tags (waveOf s u).part
  let held := heldSpad s u n
  let b := blockOf s k
  bytesRead see ((List.range width).map (fun j => forwarded see held (a + j)
    (memGet b.spad (a + j), tagAt b.spadTags ((a + j) / 32), mgetD b.spadHeads (a + j) [])))

/-- The absorptions of the tags that meet in that value. -/
def spadLoadPairs (s : State) (u n k a width : Nat) : List (Nat × Nat) :=
  let held := heldSpad s u n
  absorptions ((List.range width).flatMap (fun j =>
    forwardedTags (seeTag s.tags (waveOf s u).part) held (a + j) (tagAt (blockOf s k).spadTags ((a + j) / 32))))

/-- Whether lanes of an access of a width meet bytes `a` to `a + n - 1`. -/
def lanesMeet (ls : List (Nat × Nat)) (w a n : Nat) : Bool := ls.any (fun l => decide (l.2 < a + n ∧ a < l.2 + w))

/-- Whether an `ldlk` of the wave older than operation `n` still waits at a bank (R229). -/
def lockPending (w : Wave) (n : Nat) : Bool :=
  w.ops.any (fun o => decide (o.id < n) && (match o.kind with
    | .locks (_ :: _) _ _ _ => true
    | _ => false))

/-- Whether an older access of the wave has still to be performed at its bank before a load: any atomic or `ldlk`, and a
`stul` of the same bytes (R194, R229). -/
def spadBlocked (s : State) (u : Nat) (w : Wave) (n a width : Nat) : Bool :=
  lockPending w n ||
  s.held.any (fun h => decide (h.wave = u ∧ h.id < n) && (match h.eff with
    | .satomic _ _ _ _ _ _ | .ldlk _ _ => true
    | .stul k ls => lanesMeet (ls.map (fun l => (l.lane, l.addr))) k a width
    | _ => false))

/-- Whether a long operation loads from the scratchpad. -/
def isSpadLoad (o : LongOp) : Bool :=
  match o.kind with
  | .sload _ _ => true
  | _ => false

/-- The width of an operation's lanes in bytes. -/
def opWidth (o : LongOp) : Nat := if o.wide then 8 else 4

/-- The lanes of a load that have not taken their values. -/
def untaken (o : LongOp) : List LoadLane :=
  match o.kind with
  | .gload ls | .sload _ ls => ls.filter (fun l => l.got.isNone)
  | _ => []

/-- Whether bytes of a lane of an operation meet bytes `a` to `a + n - 1`. -/
def laneMeets (o : LongOp) (l : LoadLane) (a n : Nat) : Bool := decide (l.addr < a + n ∧ a < l.addr + opWidth o)

/-- Whether an older load of the wave comes before a lane of a load: in global memory one of the same bytes (R226, R228),
in the scratchpad any (R229). -/
def olderLoad (ops : List LongOp) (o : LongOp) (a : Nat) : Bool :=
  ops.any (fun x => decide (x.id < o.id ∧ isSpadLoad x = isSpadLoad o) &&
    (untaken x).any (fun l => isSpadLoad o || laneMeets x l a (opWidth o)))

/-- A lane of a load takes its value now, unless an older access of the wave comes first. -/
def takeLane (s : State) (u : Nat) (w : Wave) (o : LongOp) (l : LoadLane) : LoadLane :=
  match o.kind with
  | .gload _ =>
    if l.got.isNone && !loadBlocked s u o.id l.addr (opWidth o) then
      let r := loadValue s u o.id (dieOfCore w.core) l.addr (opWidth o)
      { l with got := some r.1, heads := r.2, pairs := loadPairs s u o.id (dieOfCore w.core) l.addr (opWidth o) }
    else l
  | .sload k _ =>
    if l.got.isNone && !spadBlocked s u w o.id l.addr (opWidth o) then
      let r := spadValue s u o.id k l.addr (opWidth o)
      { l with got := some r.1, heads := r.2, pairs := spadLoadPairs s u o.id k l.addr (opWidth o) }
    else l
  | _ => l

/-- A load operation with every lane that `pick` chooses taken now. -/
def takeLanes (s : State) (u : Nat) (w : Wave) (o : LongOp) (pick : LoadLane → Bool) : LongOp :=
  match o.kind with
  | .gload ls => { o with kind := .gload (ls.map (fun l => if pick l then takeLane s u w o l else l)) }
  | .sload k ls => { o with kind := .sload k (ls.map (fun l => if pick l then takeLane s u w o l else l)) }
  | _ => o

/-- The operations of a wave, oldest first, once each load lane that `pick` chooses has taken its value, in program
order. -/
def takeOps (s : State) (u : Nat) (w : Wave) (pick : LongOp → LoadLane → Bool) : List LongOp → List LongOp → List LongOp
  | done, [] => done
  | done, o :: rest =>
    takeOps s u w pick (done ++ [takeLanes s u w o (fun l => pick o l && !olderLoad (done ++ rest) o l.addr)]) rest

/-- The places whose values the lanes of a load have. -/
def takenPlaces (o : LongOp) : List (EngineDest × Nat) :=
  match o.kind with
  | .sload k ls => (ls.filter (fun l => l.got.isSome)).map (fun l => (.spad k, l.addr))
  | .gload ls => (ls.filter (fun l => l.got.isSome)).map (fun l => (.memory, l.addr))
  | _ => []

/-- The places whose values loads of a wave have in one state and not in an earlier one. -/
def newlyTaken (s : State) (u : Nat) (w : Wave) : List (EngineDest × Nat) :=
  (w.ops.flatMap (fun o =>
    let old := match (mgetD s.waves u {}).ops.find? (fun y => decide (y.id = o.id)) with
      | some y => takenPlaces y
      | none => []
    (takenPlaces o).filter (fun a => !old.contains a))).eraseDups

/-- Loads take their values once what they read is decoded and its errors are found (R185, R320). -/
def decoded (take : State → State) (s : State) : State :=
  if s.upsets.isEmpty && s.cores.all (fun c => c.2.spadErrors.isEmpty) then take s
  else take ((take s).waves.foldl (fun t x => readPlaces t x.2.part (newlyTaken s x.1 x.2)) s)

/-- Whether an acquire load whose class is not in its storage set has been performed and has not yet set its flag. -/
def missDue (o : LongOp) : Bool := o.miss && (untaken o).isEmpty

/-- A wave with the flag that some operations of it set as they were performed (R225). -/
def missedBy (l : List Nat) (w : Wave) : Wave :=
  if w.ops.any (fun o => l.contains o.id) then
    { w with wstat := w.wstat ||| fMISS, ops := w.ops.map (fun o => if l.contains o.id then { o with miss := false } else o) }
  else w

/-- Acquire loads whose class is not in their storage set set `scope_miss` as they are performed; a rollback of the wave
keeps it (R225, R313). -/
def noteMisses (s : State) : State :=
  match s.waves.flatMap (fun x => (x.2.ops.filter missDue).map (·.id)) with
  | [] => s
  | l => { s with waves := s.waves.map (fun x => (x.1, missedBy l x.2))
                  undo := s.undo.map (fun x => { x with old := missedBy l x.old }) }

/-- The absorptions that the lanes of an operation have still to record. -/
def opPairs (o : LongOp) : List (Nat × Nat) :=
  match o.kind with
  | .gload ls | .sload _ ls => ls.flatMap (·.pairs)
  | _ => []

/-- An operation whose absorptions are recorded. -/
def recordedOp (o : LongOp) : LongOp :=
  match o.kind with
  | .gload ls => { o with kind := .gload (ls.map (fun l => { l with pairs := [] })) }
  | .sload k ls => { o with kind := .sload k (ls.map (fun l => { l with pairs := [] })) }
  | _ => o

/-- The absorptions of the values that loads have taken are recorded (R300). -/
def noteAbsorbed (s : State) : State :=
  match s.waves.flatMap (fun x => x.2.ops.flatMap opPairs) with
  | [] => s
  | l => { s with tags := absorb s.tags l, waves := s.waves.map (fun x => (x.1, { x.2 with ops := x.2.ops.map recordedOp })) }

/-- What loads that have taken their values note at once. -/
def noteTaken (s : State) : State := noteAbsorbed (noteMisses s)

/-- A core's array has served a seat: the next request comes from the seat after it on (R183). -/
def serveSeat (s : State) (core seat : Nat) : State := modCore s core (fun c => { c with seatTurn := (seat + 1) % 8 })

/-- The state after a wave's load has taken its last lanes at once. -/
def servedLoad (s : State) (w : Wave) (o : LongOp) : State :=
  if isSpadLoad o && !(untaken o).isEmpty then serveSeat s w.core w.seat else s

/-- The loads of a wave older than operation `n` that a write to some bytes must not pass take their values; so do their
own older loads of the same bytes. The operations stand newest last; the ranges are those whose loads come before. -/
def takeBefore (s : State) (u n : Nat) (w : Wave) (spad : Bool) (touch : Nat → Bool) (o : LongOp)
    (acc : List LongOp × List (Nat × Nat)) : List LongOp × List (Nat × Nat) :=
  if o.id < n ∧ isSpadLoad o = spad then
    let pick (l : LoadLane) : Bool := spad || (List.range (opWidth o)).any (fun k => touch (l.addr + k)) ||
      acc.2.any (fun r => laneMeets o l r.1 r.2)
    (takeLanes s u w o pick :: acc.1, ((untaken o).filter pick).map (fun l => (l.addr, opWidth o)) ++ acc.2)
  else (o :: acc.1, acc.2)

/-- Before a wave's held write leaves, its older loads take their values: those of the same bytes in global memory, all
in the scratchpad (R228, R229). -/
def captureBefore (s : State) (u n : Nat) (spad : Bool) (touch : Nat → Bool) : State :=
  noteTaken (decoded (fun t => modWave t u (fun w =>
    { w with ops := (w.ops.foldr (takeBefore t u n w spad touch) ([], [])).1 })) s)

/-- Whether no load of a wave older than operation `n` still waits for one of some bytes. -/
def loadsTaken (w : Wave) (n : Nat) (touch : Nat → Bool) : Bool :=
  w.ops.all (fun o => !decide (o.id < n ∧ isSpadLoad o = false) ||
    (untaken o).all (fun l => !(List.range (opWidth o)).any (fun k => touch (l.addr + k))))

/-! ### Code (R142 to R146) -/

/-- What a fetch of a line answers. -/
inductive Code where
  | words (pa : Nat) (l : List Word) (fresh : Bool)
  | noPerm
  | missing (malformed : Bool)

/-- The words of a line as a wave's core fetches them: a version its L1 code still holds, or the newest version of the
line (R146); no page holds an address above 49 bits. Log entry 9 (DESIGN CHOICE). Log entry 99 (DEDUCED). -/
def codeLine (s : State) (w : Wave) (va : Nat) : Code :=
  if 2 ^ 49 ≤ va then .missing false
  else
  match lookup s w.core w.part w.ctx va with
  | .invalid => .missing false
  | .malformed => .missing true
  | .leaf pte level =>
    if !bitAt pte.toNat 3 then .noPerm
    else
      let pa := physical pte level va / 64 * 64
      let view := wordsOfBytes (memRead s.mem pa 64)
      match (coreOf s w.core).code.find? (fun x => decide (x.addr = pa)) with
      | some x => if s.now < x.at_ + Config.codeLife x.at_ pa then .words pa x.words false else .words pa view true
      | none => .words pa view true

/-- Every write of a die takes its place in the coherence order: a fetch after that is no older than what a load of the die
would see (R147). -/
def homeDieWrites (s : State) (die : Nat) : State :=
  bringAll s die ((s.flights.filter (fun x => decide (x.2.src = die) && x.2.pos.isNone)).map (·.1))

/-- The core's L1 code with a line just fetched (R142). -/
def cacheLine (s : State) (core pa : Nat) (l : List Word) : State :=
  modCore s core (fun c => { c with code :=
    ({ addr := pa, words := l, at_ := s.now } : CodeLine) ::
      (c.code.filter (fun x => !decide (x.addr = pa))).take 4095 })

/-- One word of code. -/
def codeWord (s : State) (w : Wave) (va : Nat) : Code :=
  match codeLine s w va with
  | .words pa l f => .words pa [nth l (va % 64 / 4) 0] f
  | x => x

/-- Whether a word is a clause header (R35). -/
def isHeader (w : Word) : Bool := decide (w.toNat / 2 ^ 24 = 0xFC)

/-- Whether the target of a branch is a header (R42): yes, no, or the line has first to be paged in (its entry malformed
or not), or fetched without permission. -/
inductive Target where
  | header | other | missing (malformed : Bool) | noPerm
  deriving DecidableEq, Repr

/-- Tests a branch target. Log entry 22 (DEDUCED). -/
def targetTest (s : State) (w : Wave) (va : Nat) : Target :=
  if va % 4 ≠ 0 then .other
  else
  match codeWord s w va with
  | .words _ (x :: _) _ => if isHeader x then .header else .other
  | .words _ [] _ => .other
  | .noPerm => .noPerm
  | .missing m => .missing m

/-- The record of a wave's walk that met a malformed entry (R201). Log entry 51 (DEDUCED). Log entry 77 (DEDUCED). -/
def noteMalformed (s : State) (u va : Nat) : State :=
  let w := waveOf s u
  (hold s u (.record w.part { waveEvent s w .pteMalformed 2 with addr := va }) none).2

/-- A fetch fault suspends the wave and asks for the page, joining a request of its core for that page (R143, R144).
Log entry 77 (DEDUCED). -/
def suspend (s0 : State) (u va : Nat) (malformed : Bool) : State :=
  let s := if malformed then noteMalformed s0 u va else s0
  let w := waveOf s u
  let page := va / 0x10000
  let joined := firstSome (fun x => match x.2.fetch with
    | some r => if x.2.core = w.core ∧ x.2.ctx = w.ctx ∧ r.page = page then some r.seq else none
    | none => none) s.waves
  match joined with
  | some n => modWave s u (fun w => { w with fetch := some { seq := n, page := page } })
  | none => { modWave s u (fun w => { w with fetch := some { seq := s.nextId, page := page } }) with
      nextId := s.nextId + 1 }

end Sys2Proof.Machine
end

