-- ==== Sys2Proof/Machine/Debug.lean ====
section
/-! DEFINITION. Watchpoints and the debugger's stop (R348 to R350): hits, the stop set, `brk`, `wpset`, `wpclr`, and
the moves of the debugger. -/

namespace Sys2Proof.Machine

/-- The lowest watchpoint of a block, and its lowest lane, that an access hits (R349): each lane's address and the bytes
it touches; `wr` and `rd` are the kinds of the access. Log entry 37 (DEDUCED). -/
def watchHit (s : State) (w : Wave) (ls : List (Nat × Nat)) (width : Nat) (spad wr rd : Bool) : Option (Nat × Nat) :=
  match w.block with
  | none => none
  | some k =>
    firstSome (fun x =>
      let p := x.2
      if p.spad = spad && ((p.onWrite && wr) || (p.onRead && rd)) then
        (ls.find? (fun l => decide (l.2 < p.addr + p.len ∧ p.addr < l.2 + width))).map (fun l => (x.1, l.1))
      else none) (blockOf s k).watch

/-- The cores of a cohort entry. -/
def cohortCores (s : State) (part idx : Nat) : List Nat := (mgetD (partOf s part).cohorts idx {}).members

/-- Broadcasts stop-the-cluster to a stop set: the cores of a cohort, or the block (R348, R349). -/
def broadcastStop (s : State) (u : Nat) (cohort : Option Nat) : State :=
  let w := waveOf s u
  let cores := match cohort with
    | some x => cohortCores s w.part x
    | none => []
  (hold s u (.stopSet (if cohort.isSome then none else w.block) cores w.ctx) none).2

/-- A wave with every probation comparison it takes part in abandoned: a stop ends them (R293). -/
def noSample (w : Wave) : Wave := everySplit (fun x => { x with sampled := none }) w

/-- The wave stopped by its own hit or `brk` (R340, R349). -/
def debugStop (w : Wave) : Wave := { noSample w with state := .debug, skid := 0 }

/-- Delivers a watchpoint hit of an instruction that ends at `pc`: a WATCHPOINT trap before the wave's next instruction, or
the stop of the stop set (R349). -/
def deliverHit (s : State) (u e i l pc : Nat) : State :=
  let w := waveOf s u
  if (ctxOf s w.ctx).debugger then
    let cohort := match w.block with
      | some k => (mget (blockOf s k).watch i).bind (·.cohort)
      | none => none
    broadcastStop (modWave s u debugStop) u cohort
  else
    match splitOf w e with
    | some sp => takeTrapAt s u sp .watchpoint (BitVec.ofNat 32 (i + 4 * l)) pc true sp.pc 0
    | none => s

/-- A finished access with its hit: in a handler the hit is recorded and delivered after `tret` (R335). -/
def afterAccess (s : State) (c : Ctx) (hit : Option (Nat × Nat)) : State :=
  match hit with
  | none => s
  | some x =>
    let pc := c.sp.pc + 4 * c.len
    if (waveOf s c.uid).frame.isSome then modWave s c.uid (fun w => { w with pendingHit := some (x.1, x.2, pc) })
    else deliverHit s c.uid c.sp.entry x.1 x.2 pc

/-- A wave that a debugger's stop reaches: how it stands then, if it is in a state that the stop changes. -/
def stoppedState : RunState → Option RunState
  | .run | .oneStep => some .debug
  | .saving | .savingStep => some .savingDebug
  | _ => none

/-- Every wave of a context in a stop set stops at its instruction boundary and records the instructions it issued
after the cycle of the hit (R349). -/
def stopWaves (s : State) (block : Option Nat) (cores : List Nat) (ctx hitAt : Nat) : State :=
  { s with waves := s.waves.map (fun x =>
      let inSet := decide (x.2.ctx = ctx) && (match block with
        | some k => decide (x.2.block = some k)
        | none => cores.contains x.2.core)
      match inSet, stoppedState x.2.state with
      | true, some st =>
        let n := (s.undo.filter (fun y => decide (y.wave = x.1 ∧ hitAt < y.at_) && y.entry.isSome)).length
        (x.1, noSample { x.2 with state := st, skid := BitVec.ofNat 32 n })
      | _, _ => x) }

/-- `brk` (R340): BREAK, or with a debugger attached the stop of the wave before the instruction has any effect. -/
def execBrk (c : Byte) (s : State) : Host.Outcome State Fault Refusal :=
  run (.brk c) s (fun s1 x =>
    if (ctxOf s1 x.w.ctx).debugger then
      broadcastStop (modWave s1 x.uid (fun w => { debugStop w with trappc := x.sp.pc })) x.uid none
    else trapAt s1 x .brk (c.setWidth 32))

/-- The watchpoint in four registers, or the cause and value of what breaks its rule: the register, or the index of a
cohort that the wave's core does not belong to (R270, R348). Log entry 36 (DEDUCED). -/
def watchOf (s : State) (c : Ctx) (k : Nat) : Except (Cause × Word) Watch :=
  let r (i : Nat) : Nat := (sReg c.w (k + i)).val.toNat
  let spad := bitAt (r 2) 18
  if r 1 / 2 ^ 17 ≠ 0 ∨ (spad ∧ r 1 ≠ 0) then .error (.illegalField, BitVec.ofNat 32 (r 1))
  else if r 2 / 2 ^ 19 ≠ 0 ∨ bits (r 2) 17 16 = 0 ∨ bits (r 2) 15 0 = 0 then .error (.illegalField, BitVec.ofNat 32 (r 2))
  else if r 3 / 2 ^ 9 ≠ 0 then .error (.illegalField, BitVec.ofNat 32 (r 3))
  else
    let idx := bits (r 3) 7 0
    let cohort := if bitAt (r 3) 8 then some idx else none
    let member := (mget (partOf s c.w.part).cohorts idx).any (fun x => x.members.contains c.w.core)
    if bitAt (r 3) 8 ∧ !member then .error (.illegalCohort, BitVec.ofNat 32 idx)
    else .ok { addr := r 0 + 2 ^ 32 * r 1, len := bits (r 2) 15 0, spad := spad, onWrite := bitAt (r 2) 17
               onRead := bitAt (r 2) 16, cohort := cohort }

/-- `wpset` (R348): the watchpoint changes D cycles after issue. Log entry 36 (DEDUCED). -/
def execWpset (a : Operand) (i : Byte) (s : State) : Host.Outcome State Fault Refusal :=
  run (.wpset a i) s (fun s1 c =>
    match c.w.block, a with
    | some _, .s k =>
      match watchOf s1 c k with
      | .error v => trapAt s1 c v.1 v.2
      | .ok x =>
        if c.skip then finishNop s1 c
        else finishNop (hold s1 c.uid (.watch [(i.toNat, x)] 0) none).2 c
    | _, _ => trapOpen s1 c .looseWave)

/-- `wpclr` (R348). -/
def execWpclr (m : Byte) (s : State) : Host.Outcome State Fault Refusal :=
  run (.wpclr m) s (fun s1 c =>
    match c.w.block with
    | none => trapOpen s1 c .looseWave
    | some _ => if c.skip then finishNop s1 c else finishNop (hold s1 c.uid (.watch [] m) none).2 c)

/-- WATCHPOINT_UPDATE (R348): a held change of watchpoints takes effect. -/
def execWatchpointUpdate (n : Nat) (s : State) : Host.Outcome State Fault Refusal :=
  match heldOf s n with
  | some h =>
    match h.eff with
    | .watch set clear =>
      if h.due ≤ s.now then
        let k := (waveOf s h.wave).block.getD 0
        .next (modBlock (dropHeld s n) k (fun b =>
          let m := (List.range 4).foldl (fun m i => if clear.getLsbD i then mdel m i else m) b.watch
          { b with watch := set.foldl (fun m x => mset m x.1 x.2) m }))
      else .refused (.notEnabled "WATCHPOINT_UPDATE")
    | _ => .refused (.notEnabled "WATCHPOINT_UPDATE")
  | none => .refused (.notEnabled "WATCHPOINT_UPDATE")

/-- The tag bits that the debugger writes. -/
def tagWritten : DebugAccess → Nat
  | .setVTag _ _ t | .setSTag _ t | .setATag _ t | .setPTag _ _ t => t.toNat
  | _ => 0

/-- A list of splits with the `n`-th changed by the debugger. -/
def writeNth (l : List Split) (n : Nat) (f : Split → Split) : List Split :=
  (l.zip (List.range l.length)).map (fun x => if x.2 = n then f x.1 else x.1)

/-- The wave with one of the splits that do not run changed: the deferred ones, or those of the trap frame, the running ones
of it first (R83, R335, R350). -/
def writeWaiting (w : Wave) (frozen : Bool) (n : Nat) (f : Split → Split) : Wave :=
  if frozen then { w with frame := w.frame.map (fun x => { x with
    splits := writeNth x.splits n f
    deferred := if n < x.splits.length then x.deferred else writeNth x.deferred (n - x.splits.length) f }) }
  else { w with deferred := writeNth w.deferred n f }

/-- A change the debugger makes to a stopped wave (R350); `bad` is the tag for bits that are no tag state (R319). -/
def debugChange (bad : BitVec 12) (w : Wave) : DebugAccess → Wave
  | .read => w
  | .setV n l x => setV w n (vRegSet (vregOf w n) l ⟨x, .clean⟩)
  | .setS n x => setS w n ⟨x, .clean⟩
  | .setA n b st => setA w n { base := b, stride := st }
  | .setP n b => setP w n { bits := b }
  | .setPc e pc => { w with splits := w.splits.map (fun x => if x.entry = e then standAt x pc else x) }
  | .setMode e m => { w with splits := w.splits.map (fun x => if x.entry = e then { x with mode := m } else x) }
  | .setOmode e o => { w with splits := w.splits.map (fun x => if x.entry = e then { x with omode := o } else x) }
  | .setMask e m => { w with splits := w.splits.map (fun x => if x.entry = e then { x with mask := m } else x) }
  | .setLive m => { w with live := m }
  | .setVTag n l t => setV w n (vRegSet (vregOf w n) l ⟨(vLane (vregOf w n) l).val, tagOfBits bad t.toNat⟩)
  | .setSTag n t => setS w n ⟨(sReg w n).val, tagOfBits bad t.toNat⟩
  | .setATag n t => setA w n { aReg w n with tag := tagOfBits bad t.toNat }
  | .setPTag n l t => setP w n { pReg w n with tags := tagSet (pReg w n).tags l (tagOfBits bad t.toNat) }
  | .setWstat f => { w with wstat := f }
  | .setSig x => { w with sig := x }
  | .setFlag n x => { w with flags := nthSet 0 x w.flags n }
  | .setWdog n => { w with wdog := n }
  | .setTrap c pc x => { w with trapc := c, trappc := pc, trapval := x }
  | .setPkr x => { w with pkr := x }
  | .setFrame m mode o sig h x =>
    { w with frame := w.frame.map (fun f => { f with mask := m, mode := mode, omode := o, sig := sig, header := h, word := x }) }
  | .setWaiting frozen n pc m mode o => writeWaiting w frozen n (fun x => { standAt x pc with mask := m, mode := mode, omode := o })
  | .setWindow n => { w with wbase := n }
  | .setCounts x y => { w with spills := x, fills := y }
  | .setCmapix n => { w with cmapix := n }
  | .setKillTag l t => { w with killTags := mset w.killTags l t }
  | .setTimeHi x => { w with timeHi := x }
  | .setBatch x => { w with batchNo := x }

/-- DEBUG_ACCESS (R350): the debugger reads or writes a stopped wave's state; for bits that are no tag state a record is
written (R319). -/
def execDebugAccess (u : Nat) (x : DebugAccess) (s : State) : Host.Outcome State Fault Refusal :=
  match mget s.waves u with
  | some w =>
    if w.state ≠ .debug then .refused (.notEnabled "DEBUG_ACCESS")
    else if badTag (tagWritten x) then
      let r := createPoison s w.part (waveEvent s w .arrayUncorrected 2)
      .next (putWave r.2 u (debugChange r.1 w x))
    else .next (putWave s u (debugChange 0 w x))
  | none => .refused (.notEnabled "DEBUG_ACCESS")

/-- A running wave of a pre-empted block begins no new instruction; a stopped or faulted one stays as it is (R342). -/
def stopForSave (w : Wave) : Wave :=
  match w.state with
  | .run => noSample { w with state := .saving }
  | .oneStep => noSample { w with state := .savingStep }
  | _ => w

/-- A stopped wave let go by the debugger; one whose block is being saved begins nothing before the save is over (R342,
R350). -/
def letGo (s : State) (x : RunState) (w : Wave) : Wave :=
  let w1 := { w with state := x }
  if w.block.any (fun k => (blockOf s k).preempt.isSome) then stopForSave w1 else w1

/-- DEBUG_RESUME (R350): stopped waves run on. -/
def execDebugResume (ws : List Nat) (s : State) : Host.Outcome State Fault Refusal :=
  if ws.all (fun u => decide ((waveOf s u).state = .debug)) then .next (ws.foldl (fun t u => modWave t u (letGo s .run)) s)
  else .refused (.notEnabled "DEBUG_RESUME")

/-- DEBUG_STEP (R350): a stopped wave may issue exactly one instruction. -/
def execDebugStep (u : Nat) (s : State) : Host.Outcome State Fault Refusal :=
  if (waveOf s u).state = .debug then .next (modWave s u (letGo s .oneStep))
  else .refused (.notEnabled "DEBUG_STEP")

/-- DEBUGGER_ATTACH (R340): a debugger attaches to a context or leaves it. -/
def execDebuggerAttach (x : Nat) (on : Bool) (s : State) : Host.Outcome State Fault Refusal :=
  match mget s.ctxs x with
  | some _ => .next (modCtx s x (fun c => { c with debugger := on }))
  | none => .refused (.notEnabled "DEBUGGER_ATTACH")

end Sys2Proof.Machine
end

