-- ==== Sys2Proof/Machine/Control.lean ====
section
/-! DEFINITION. Words that are no instructions, `mode` and `omode` (R29 to R34), yields (R75, R76), branches, calls and
the window stack (R83, R106, R107, R148 to R157), `icsync` (R147), `rnote` (R159), `trap` and `tret` (R336, R340). -/

namespace Sys2Proof.Machine

/-- `ill` (R29): its only effect is the ILLEGAL_OPCODE trap. -/
def execIll (d a b : Byte) (s : State) : Host.Outcome State Fault Refusal :=
  run (.ill d a b) s (fun s1 c => trapAt s1 c .illegalOpcode c.i.word)

/-- ILLEGAL_OPCODE (R29): a word with a reserved opcode reaches issue and traps. -/
def execIllegalOpcode (x : Word) (s : State) : Host.Outcome State Fault Refusal :=
  run (.illegalOpcode x) s (fun s1 c => trapAt s1 c .illegalOpcode x)

/-- `mode` (R32): sets the issuing split's mode. -/
def execMode (m : BitVec 24) (s : State) : Host.Outcome State Fault Refusal :=
  run (.mode m) s (fun s1 c => finishBy s1 c c.w 0 [] (fun sp => { stepOver sp c.len with mode := m }))

/-- `omode` (R34): sets the issuing split's omode. -/
def execOmode (o : Byte) (s : State) : Host.Outcome State Fault Refusal :=
  run (.omode o) s (fun s1 c => finishBy s1 c c.w 0 [] (fun sp => { stepOver sp c.len with omode := o }))

/-- `nop` (R30). -/
def execNop (s : State) : Host.Outcome State Fault Refusal := run .nop s finishNop

/-- A byte of an `rnote` list that names no register and is not 0x78 (R159). -/
def badNote (x : Nat) : Bool := decide (0x78 < x)

/-- `rnote` (R159): checked, and otherwise without effect. -/
def execRnote (regs : DWord) (s : State) : Host.Outcome State Fault Refusal :=
  run (.rnote regs) s (fun s1 c =>
    match ((toBytes 8 regs.toNat).map (·.toNat)).find? badNote with
    | some b => trapAt s1 c .illegalOperand (BitVec.ofNat 32 b)
    | none => finishNop s1 c)

/-- `trap` (R340): always traps with its code. -/
def execTrap (k : Byte) (s : State) : Host.Outcome State Fault Refusal :=
  run (.trap k) s (fun s1 c => trapAt s1 c .trap (k.setWidth 32))

/-- `yield` (R75): a yield point and nothing else. -/
def execYield (s : State) : Host.Outcome State Fault Refusal := run .yield s finishNop

/-! ### Targets -/

/-- Goes on if the word at `va` is a header (R42): a line to page in first suspends the wave before any effect; a line
without execute permission is met at the fetch that follows (R143). -/
def withTarget (s : State) (c : Ctx) (va : Nat) (k : State → State) : State :=
  match targetTest s c.w va with
  | .header => k s
  | .noPerm => k s
  | .other => trapAt s c .illegalTarget (BitVec.ofNat 32 va)
  | .missing m => suspend s c.uid va m

/-- An address `off` words from the issuing word, modulo 2^64. -/
def wordOffset (pc : Nat) (off : Int) : Nat := wrapInt 64 ((pc : Int) + 4 * off)

/-- The split at a header reached by a taken branch: its run starts there (R288). -/
def jumpTo (sp : Split) (va : Nat) : Split := { standAt sp va with runStart := va }

/-- Ends an issue with the whole split at a header. -/
def finishJump (s : State) (c : Ctx) (w : Wave) (va : Nat) : State := finishBy s c w 0 [] (fun sp => jumpTo sp va)

/-- Ends an issue that parks the split: it stands at its yield point (R74). -/
def finishPark (s : State) (c : Ctx) (w : Wave) (cond : Cond) (target : Option Nat) (runs : Bool := false) : State :=
  finishBy s c w 0 [] (fun sp => { sp with park := some { cond := cond, target := target, len := c.len, runs := runs } })

/-- Unfinished sealed batches of a wave: those with an operation that has not completed (R170). -/
def openSeals (w : Wave) : Nat := (w.sealed.filter (fun b => b.any (fun n => w.ops.any (fun o => decide (o.id = n))))).length

/-- Whether every flag of a mask reads zero. -/
def flagsClear (w : Wave) (m : Nat) : Bool := (List.range 12).all (fun n => !bitAt m n || decide (nth w.flags n 0 = 0))

/-- The condition of a `yieldon` word (R76), or none where the word breaks its rule. -/
def yieldCond (now : Nat) (c : Word) : Option Cond :=
  let x := c.toNat
  match x / 2 ^ 28 with
  | 0 => if bits x 27 4 ≠ 0 then none else some (.batches (x % 16))
  | 1 => if bits x 27 12 ≠ 0 then none else some (.flags (BitVec.ofNat 12 x))
  | 2 => some (.delay (now + bits x 27 0))
  | _ => none

/-- Whether the condition of a `yieldon` holds. -/
def yieldHolds (now : Nat) (w : Wave) : Cond → Bool
  | .batches n => decide (openSeals w ≤ n)
  | .flags m => flagsClear w m.toNat
  | .delay t => decide (t ≤ now)
  | _ => false

/-- The wave after a completion wait that holds: an acquire point at block scope (R239). -/
def completionAcquire (w : Wave) : Wave := { w with clock := clockJoin w.clock w.engineWrote }

/-- A completion wait of a wave that holds: every write of the entries it covers is in the view of its die (R239). -/
def completeWait (s : State) (u : Nat) : State :=
  let s1 := modWave s u completionAcquire
  syncTo s1 (dieOfCore (waveOf s1 u).core) (waveOf s1 u).clock

/-- A `yieldon` whose condition holds: a wait for batches or flags is a completion wait. -/
def yieldDone (s : State) (u : Nat) : Cond → State
  | .delay _ => s
  | _ => completeWait s u

/-- The split with a run that starts where it stands (R288). -/
def runFrom (x : Split) : Split := { x with runStart := x.pc }

/-- `yieldon` (R76). -/
def execYieldon (a b : Operand) (s : State) : Host.Outcome State Fault Refusal :=
  run (.yieldon a b) s (fun s1 c =>
    consumeAll s1 c [tagU c a false, tagU c b false] (fun s2 c =>
      let x := readU c a
      match yieldCond s2.now x with
      | none => trapAt s2 c .illegalField x
      | some cond =>
        let holds := yieldHolds s2.now c.w cond
        if b = .z then
          if holds then yieldDone (finishBy s2 c c.w 0 [] (fun sp => runFrom (stepOver sp c.len))) c.uid cond
          else finishPark s2 c c.w cond none true
        else
          let va := wordOffset c.sp.pc (readU c b).toInt
          withTarget s2 c va (fun s3 =>
            if holds then yieldDone (finishJump s3 c c.w va) c.uid cond else finishPark s3 c c.w cond (some va))))

/-! ### Branches -/

/-- `jmp` (R150). -/
def execJmp (o : BitVec 24) (s : State) : Host.Outcome State Fault Refusal :=
  run (.jmp o) s (fun s1 c =>
    let va := wordOffset c.sp.pc o.toInt
    withTarget s1 c va (fun s2 => finishJump s2 c c.w va))

/-- The five running splits a divergence makes, and which one is deferred: the highest PC, among equals the new split,
else the highest table entry (R83). -/
def deferOne (l : List Split) (fresh : Split) : Split :=
  let top := l.foldl (fun m x => Nat.max m x.pc) fresh.pc
  if fresh.pc = top then fresh
  else
    let hi := l.filter (fun x => decide (x.pc = top))
    hi.foldl (fun m x => if m.entry ≤ x.entry then x else m) (hi.headD fresh)

/-- Whether the spill area takes one more split record (R83, R107). -/
def recordFits (w : Wave) (recs : Nat) : Bool := decide (w.spillBase + 384 * w.lo + 32 * recs ≤ w.spillTop)

/-- The physical bytes of a range of the spill area. -/
def spillBytesAt (s : State) (w : Wave) (va : Nat) (l : List Byte) : List (Nat × Byte) :=
  (addrBytes va l).map (fun x => (paOf s (agentOf w) x.1, x.2))

/-- Divides a split (R151): the lanes of `t` go to the target as a new split, in the lowest free table entry or through
the deferred stack; one split event enters the signature (R317). -/
def divide (s : State) (c : Ctx) (t : LaneMask) (va : Nat) : State :=
  let fresh : Split := { entry := 0, mask := t, mode := c.sp.mode, omode := c.sp.omode, pc := va, runStart := va }
  let stay (sp : Split) : Split := { stepOver sp c.len with mask := sp.mask &&& ~~~t }
  match freeEntry c.w with
  | some e =>
    let s1 := finishBy s c c.w 0 [] stay
    modWave s1 c.uid (fun w => { w with splits := w.splits ++ [{ fresh with entry := e }], sig := crc w.sig 0xFFFFFFFF })
  | none =>
    let n := recordsOf (frozenSplits c.w + c.w.deferred.length + 1)
    if n ≠ 0 ∧ !recordFits c.w n then trapOpen s c .stackOverflow
    else
      let s1 := finishBy s c c.w 0 [] stay
      let w1 := waveOf s1 c.uid
      let out := deferOne w1.splits fresh
      let run := if out = fresh then w1.splits
        else w1.splits.map (fun x => if x = out then { fresh with entry := out.entry } else x)
      let w2 := { w1 with splits := run, deferred := out :: w1.deferred, sig := crc w1.sig 0xFFFFFFFF, spillRecs := n
                          spills := if n = 0 then w1.spills else satAdd w1.spills 1 }
      let s2 := putWave s1 c.uid (mergeDeferred w2)
      if n = 0 then s2
      else
        let bs := (List.range 32).map (fun k => Config.splitRecord s2.nextId k)
        (hold s2 c.uid (.vstore (spillBytesAt s2 w2 (w2.spillTop - 32 * n) bs) [] w2.clock) none).2

/-- Consumes the condition bits of a branch in the lanes of M, then tests the target (R149).
Log entry 22 (DEDUCED). -/
def branchThen (s : State) (c : Ctx) (p : Operand) (off : BitVec 16) (k : State → Ctx → LaneMask → LaneMask → Nat → State) :
    State :=
  consumeThen s c (c.sp.mask &&& c.w.live) (fun l => [(readPred c p l).2]) false (fun s1 c =>
    let m := c.sp.mask &&& c.w.live
    let one := maskOf (fun l => inMask m l && (readPred c p l).1)
    let va := wordOffset c.sp.pc off.toInt
    withTarget s1 c va (fun s2 => k s2 c m one va))

/-- A branch that may divide: the lanes of `t` take it (R151). -/
def branchSplit (s : State) (c : Ctx) (m t : LaneMask) (va : Nat) : State :=
  if t = m then finishJump s c c.w va
  else if t = 0 then finishNop s c
  else divide s c t va

/-- `bp` (R151). -/
def execBp (p : Operand) (o : BitVec 16) (s : State) : Host.Outcome State Fault Refusal :=
  run (.bp p o) s (fun s1 c => branchThen s1 c p o (fun s2 c m one va => branchSplit s2 c m one va))
/-- `bnp` (R151). -/
def execBnp (p : Operand) (o : BitVec 16) (s : State) : Host.Outcome State Fault Refusal :=
  run (.bnp p o) s (fun s1 c => branchThen s1 c p o (fun s2 c m one va => branchSplit s2 c m (m &&& ~~~one) va))
/-- `bany` (R152). -/
def execBany (p : Operand) (o : BitVec 16) (s : State) : Host.Outcome State Fault Refusal :=
  run (.bany p o) s (fun s1 c => branchThen s1 c p o (fun s2 c _ one va =>
    if one = 0 then finishNop s2 c else finishJump s2 c c.w va))
/-- `ball` (R152). -/
def execBall (p : Operand) (o : BitVec 16) (s : State) : Host.Outcome State Fault Refusal :=
  run (.ball p o) s (fun s1 c => branchThen s1 c p o (fun s2 c m one va =>
    if one = m then finishJump s2 c c.w va else finishNop s2 c))
/-- `bnone` (R152). -/
def execBnone (p : Operand) (o : BitVec 16) (s : State) : Host.Outcome State Fault Refusal :=
  run (.bnone p o) s (fun s1 c => branchThen s1 c p o (fun s2 c _ one va =>
    if one = 0 then finishJump s2 c c.w va else finishNop s2 c))

/-- Consumes a target or link pair by every lane of M (R149). -/
def pairThen (s : State) (c : Ctx) (a : Operand) (k : State → Ctx → Nat → State) : State :=
  consumeAll s c [tagU c a true] (fun s1 c => k s1 c (readUPair c a).toNat)

/-- `jmpi` (R153). -/
def execJmpi (a : Operand) (s : State) : Host.Outcome State Fault Refusal :=
  run (.jmpi a) s (fun s1 c => pairThen s1 c a (fun s2 c va =>
    if 2 ^ 49 ≤ va then trapAt s2 c .illegalTarget (BitVec.ofNat 32 va)
    else withTarget s2 c va (fun s3 => finishJump s3 c c.w va)))

/-! ### The window stack (R106, R107) -/

/-- The bytes of a register's spill image: 64 values, then 64 tag halfwords (R107). -/
def spillImage (see : Tag → Tag) (r : VReg) : List Byte :=
  (allLanes.flatMap (fun l => toBytes 4 (vLane r l).val.toNat)) ++
  (allLanes.flatMap (fun l => toBytes 2 (tagBits (see (vLane r l).tag))))

/-- The tags of the value granules of a spill image: the `Merge` of their eight lanes, by physical granule (R107). -/
def spillTags (s : State) (w : Wave) (see : Tag → Tag) (va : Nat) (r : VReg) : List (Nat × Tag) :=
  (List.range 8).map (fun g => (paOf s (agentOf w) (va + 32 * g) / 32,
    mergeTags ((List.range 8).map (fun k => see (vLane r (8 * g + k)).tag))))

/-- A byte of a spill image as the wave's fill reads it: memory under its held stores (R107). -/
def fillByte (s : State) (u : Nat) (w : Wave) (va : Nat) : Byte × Tag × List Head :=
  loadByte s (seeTag s.tags w.part) (heldBytes s u s.nextId) (dieOfCore w.core) (paOf s (agentOf w) va)

/-- The tag bits of a lane in a spill image. -/
def fillHalf (s : State) (u : Nat) (w : Wave) (va l : Nat) : Nat :=
  ofBytes ((List.range 2).map (fun k => (fillByte s u w (va + 256 + 2 * l + k)).1)) % 0x4000

/-- The register a spill image holds as memory shows it now (R107); `bad` is the tag of the record written for halfwords
that are no tag state (R319). Log entry 97 (DEDUCED). -/
def fillImage (s : State) (u : Nat) (w : Wave) (bad : BitVec 12) (va : Nat) : VReg :=
  let see := seeTag s.tags w.part
  let lane (l : Nat) : Word × Tag :=
    let bs := (List.range 4).map (fun k => fillByte s u w (va + 4 * l + k))
    let gran := mergeTags (bs.map (·.2.1))
    let t := match tagOfBits bad (fillHalf s u w va l) with
      | .prov x => (match gran with
        | .prov y => if x = y then see (.prov x) else .clean
        | .poison y => if x = y then .poison x else .clean
        | .clean => .clean)
      | t => t
    (BitVec.ofNat 32 (ofBytes (bs.map (·.1))), t)
  vRegMap {} (BitVec.allOnes 64) lane

/-- The absorptions of those merges (R300). -/
def spillPairs (see : Tag → Tag) (r : VReg) : List (Nat × Nat) :=
  (List.range 8).flatMap (fun g => absorptions ((List.range 8).map (fun k => see (vLane r (8 * g + k)).tag)))

/-- The spill of registers `lo` to `lo + n - 1`: one held write of their images. -/
def spillRegs (s : State) (u : Nat) (w : Wave) (n : Nat) : State :=
  let see := seeTag s.tags w.part
  let regs := (List.range n).map (fun k => w.lo + k)
  let bytes := regs.flatMap (fun r => spillBytesAt s w (w.spillBase + 384 * r) (spillImage see (mgetD w.v r {})))
  let tags := regs.flatMap (fun r => spillTags s w see (w.spillBase + 384 * r) (mgetD w.v r {}))
  let pairs := regs.flatMap (fun r => spillPairs see (mgetD w.v r {}))
  (hold { s with tags := absorb s.tags pairs } u (.vstore bytes tags w.clock) none).2

/-- A map without the keys from `k` up. -/
def dropFrom (m : Map VReg) (k : Nat) : Map VReg := m.filter (fun x => decide (x.1 < k))
/-- A map without the keys from `k` to `j - 1`. -/
def dropRange (m : Map VReg) (k j : Nat) : Map VReg := m.filter (fun x => !decide (k ≤ x.1 ∧ x.1 < j))

/-- Whether a window shift overflows the stack (R106). -/
def shiftFails (w : Wave) (newW : Nat) : Bool :=
  decide (65535 < newW) ||
  (decide (w.wbase < newW ∧ w.lo + w.resident < newW + 64) &&
    decide (w.spillTop < w.spillBase + 384 * (newW + 64 - w.resident) + 32 * w.spillRecs))

/-- The images that a shift fills. -/
def filledImages (w : Wave) (newW : Nat) : List Nat := (List.range (w.lo - newW)).map (fun k => w.spillBase + 384 * (newW + k))

/-- The tag for halfwords of filled images that are no tag state, and the state with the record written for it (R319). -/
def fillRecord (s : State) (u : Nat) (w : Wave) (newW : Nat) : BitVec 12 × State :=
  match (filledImages w newW).find? (fun va => allLanes.any (fun l => badTag (fillHalf s u w va l))) with
  | some va =>
    let r := newTag s w.part
    (r.1, (hold r.2 u (.record w.part { waveEvent s w .memUncorrected 2 with tag := .poison r.1, addr := va }) none).2)
  | none => (0, s)

/-- The bytes of the images of registers that a shift fills. -/
def filledPlaces (s : State) (w : Wave) (newW : Nat) : List Nat :=
  (filledImages w newW).flatMap (fun va => (List.range 12).map (fun g => paOf s (agentOf w) (va + 32 * g)))

/-- Moves the window of a wave (R106): the state with the spills held, and the wave. Log entry 8 (DESIGN CHOICE). -/
def shiftWindow (s0 : State) (u : Nat) (w : Wave) (newW : Nat) : State × Wave :=
  if w.wbase < newW then
    let need := newW + 64 - w.resident
    let n := need - w.lo
    let lo := Nat.max need w.lo
    let s1 := if n = 0 then s0 else spillRegs s0 u w n
    let v := dropRange (dropRange w.v w.lo lo) (Nat.max (w.wbase + 64) lo) (newW + 64)
    (s1, { w with v := v, lo := lo, wbase := newW, spills := satAdd w.spills n
                  waitHeld := if n = 0 then w.waitHeld else some s0.nextId })
  else
    let s := readMemory s0 w.part (filledPlaces s0 w newW)
    let n := w.lo - newW
    let r := fillRecord s u w newW
    let v := (List.range n).foldl (fun m k => mset m (newW + k) (fillImage s u w r.1 (w.spillBase + 384 * (newW + k)))) w.v
    let lo := Nat.min w.lo newW
    (r.2, { w with v := dropFrom v (lo + w.resident), lo := lo, wbase := newW, fills := satAdd w.fills n })

/-- The link of a call (R154): the return address, its position in the body, the frame. -/
def linkOf (sp : Split) (len f : Nat) : DWord :=
  let ra := sp.pc + 4 * len
  let hdr := match sp.clause with
    | some c => c.pc
    | none => sp.pc
  BitVec.ofNat 64 (ra + (ra - hdr) / 4 * 2 ^ 49 + f * 2 ^ 58)

/-- The effect of a call: link, window, PC; a trap leaves all three (R155). -/
def callTo (s : State) (c : Ctx) (f va : Nat) : State :=
  let newW := c.w.wbase + f
  if shiftFails c.w newW then trapAt s c .stackOverflow (BitVec.ofNat 32 newW)
  else
    let r := shiftWindow s c.uid (setSPair c.w 30 ⟨linkOf c.sp c.len f, .clean⟩) newW
    finishJump r.1 c r.2 va

/-- `call` (R155). -/
def execCall (f : Byte) (o : BitVec 16) (s : State) : Host.Outcome State Fault Refusal :=
  run (.call f o) s (fun s1 c =>
    let va := wordOffset c.sp.pc o.toInt
    withTarget s1 c va (fun s2 => callTo s2 c f.toNat va))

/-- `calli` (R155). -/
def execCalli (f : Byte) (a : Operand) (s : State) : Host.Outcome State Fault Refusal :=
  run (.calli f a) s (fun s1 c => pairThen s1 c a (fun s2 c va =>
    if 2 ^ 49 ≤ va then trapAt s2 c .illegalTarget (BitVec.ofNat 32 va)
    else withTarget s2 c va (fun s3 => callTo s3 c f.toNat va)))

/-- The split after `ret`: inside the body, or past a full one (R156). -/
def returnTo (sp : Split) (ra h pos len : Nat) : Split :=
  { standAt sp ra with resume := if len + 1 = pos then none else some h, runStart := ra }

/-- `ret` (R156). Log entry 99 (DEDUCED). -/
def execRet (a : Operand) (s : State) : Host.Outcome State Fault Refusal :=
  run (.ret a) s (fun s1 c => pairThen s1 c a (fun s2 c link =>
    let ra := bits link 48 0
    let pos := bits link 53 49
    let f := bits link 63 58
    let bad (t : State) := trapAt t c .badReturn (BitVec.ofNat 32 link)
    if bits link 57 54 ≠ 0 ∨ pos = 0 ∨ c.w.wbase < f then bad s2
    else
      let h := wrapInt 49 ((ra : Int) - 4 * pos)
      match codeWord s2 c.w h with
      | .missing m => suspend s2 c.uid h m
      | .noPerm => trapAt s2 c .fetchPerm (BitVec.ofNat 32 h)
      | .words _ l _ =>
        let x := l.headD 0
        let len := x.toNat % 16 + 1
        if !isHeader x || h % 4 != 0 || decide (len + 1 < pos) then bad s2
        else
          let r := shiftWindow s2 c.uid c.w (c.w.wbase - f)
          finishBy r.1 c r.2 0 [] (fun sp => returnTo sp ra h pos len)))

/-! ### Ending, code versions, handlers -/

/-- Holds an effect of the issuing wave, which waits for it (R88). -/
def finishWait (s : State) (c : Ctx) (w : Wave) (eff : Effect) : State :=
  let r := hold s c.uid eff none
  finish r.2 c { w with waitHeld := some r.1 } 0 []

/-- `end` (R157): performed D cycles after issue. -/
def execEndWave (s : State) : Host.Outcome State Fault Refusal :=
  run .endWave s (fun s1 c => finishWait s1 c c.w .finish)

/-- A split whose fetched words are dropped: its clause is fetched again from where it stands (R147). -/
def dropClause (sp : Split) : Split :=
  match sp.clause with
  | some cl => { sp with clause := none, opened := false, resume := if sp.pc = cl.pc then none else some cl.pc }
  | none => sp

/-- A wave whose fetched words are dropped (R147). -/
def dropClauses (w : Wave) : Wave := everySplit dropClause w

/-- `icsync` (R147): the core's cached lines and the seat's fetched clauses are dropped; the writes of its die are in the
version that is fetched next. -/
def execIcsync (s : State) : Host.Outcome State Fault Refusal :=
  run .icsync s (fun s1 c =>
    let s2 := homeDieWrites (finishNop s1 c) (dieOfCore c.w.core)
    let s3 := modCore s2 c.w.core (fun x => { x with code := [] })
    { s3 with waves := s3.waves.map (fun x =>
        if x.2.core = c.w.core ∧ x.2.seat = c.w.seat then (x.1, dropClauses x.2) else x) })

/-- `tret` (R336): leaves the handler; a watchpoint hit recorded in it is delivered now (R335). -/
def execTret (k : Byte) (s : State) : Host.Outcome State Fault Refusal :=
  run (.tret k) s (fun s1 c =>
    match c.w.frame with
    | none => trapAt s1 c .badReturn 0
    | some f =>
      if k = 1 ∧ c.w.trapc.getLsbD 16 then trapAt s1 c .badReturn (c.w.trapc.setWidth 32)
      else
        let s2 := finishNop s1 c
        let s3 := modWave s2 c.uid (fun w => popDeferred 4 (leaveHandler w f (if k = 1 then f.len else 0)))
        match c.w.pendingHit with
        | none => s3
        | some x => deliverHit (modWave s3 c.uid (fun w => { w with pendingHit := none })) c.uid f.entry x.1 x.2.1 x.2.2)

end Sys2Proof.Machine
end

