-- ==== Sys2Proof/Machine/Members.lean ====
section
/-! DEFINITION. Waves and blocks as they come and go: wave slots (R66 to R68), elastic membership (R86 to R92), the
barrier unit (R93 to R97), the departure of a wave (R85, R91, R157), retirement and grid completion (R69, R277, R337). -/

namespace Sys2Proof.Machine

/-! ### Wave slots -/

/-- The waves that hold a slot of a core: its own, and those of blocks whose shadow it runs (R328). -/
def wavesOn (s : State) (core : Nat) : List (Nat × Wave) :=
  s.waves.filter (fun x => decide (x.2.core = core) || (match x.2.block with
    | some k => decide ((blockOf s k).redundant = some core)
    | none => false))

/-- Whether a wave slot is taken. -/
def slotTaken (s : State) (core seat slot : Nat) : Bool :=
  (wavesOn s core).any (fun x => decide (x.2.seat = seat ∧ x.2.slot = slot))

/-- The free slots of a seat. -/
def freeSlots (s : State) (core seat : Nat) : List Nat := (List.range 16).filter (fun n => !slotTaken s core seat n)

/-- The seat with the most free slots, the lowest among equals, and its lowest free slot (R67). -/
def pickSlot (s : State) (core : Nat) : Option (Nat × Nat) :=
  let best := (List.range 8).foldl (fun (m : Nat × Nat) k =>
    let n := (freeSlots s core k).length
    if m.2 < n then (k, n) else m) (0, 0)
  match freeSlots s core best.1 with
  | n :: _ => some (best.1, n)
  | [] => none

/-- The varying registers of a core that no wave holds (R68). -/
def varyingFree (s : State) (core : Nat) : Nat :=
  Config.varyingPerCore - (wavesOn s core).foldl (fun n x => n + x.2.resident) 0

/-- How many waves of a stack fit on a core now (R89). -/
def waveRoom (s : State) (core stack : Nat) : Nat :=
  Nat.min (Config.slotsPerCore - (wavesOn s core).length) (varyingFree s core / Nat.max 1 stack)

/-- The lowest spill area of a grid's pool that no wave holds (R268). -/
def pickArea (g : Grid) : Option Nat := (List.range g.launch.spillAreas).find? (fun n => !g.areas.contains n)

/-- Places one wave of a grid on a core, in a free slot and a free spill area, starting at `pc` (R67, R100, R268); its
number and the state. -/
def placeWave (s : State) (g core pc start : Nat) (block : Option Nat) (clock : List Nat) : Nat × State :=
  let grid := gridOf s g
  let at_ := (pickSlot s core).getD (0, 0)
  let area := pickArea grid
  let base := match area with
    | some n => grid.launch.spillBase + grid.launch.spillBytes * n
    | none => 0
  let top := match area with
    | some _ => base + grid.launch.spillBytes
    | none => 0
  let w : Wave :=
    { core := core, seat := at_.1, slot := at_.2, grid := g, ctx := grid.ctx, part := grid.part, block := block
      resident := grid.launch.stack, spillBase := base, spillTop := top, spillArea := area
      pkr := (ctxOf s grid.ctx).pkr, clock := clock, nextIssue := s.now
      splits := [{ pc := pc, start := start, runStart := pc }] }
  (s.nextId, { modGrid s g (fun x => { x with areas := x.areas ++ area.toList }) with
    nextId := s.nextId + 1, waves := mset s.waves s.nextId w })

/-! ### The barrier unit (R93 to R95) -/

/-- A barrier of a block. -/
def barAt (b : Block) (n : Nat) : Barrier := nth b.barriers n {}
/-- F and E of a member at a barrier. -/
def memF (m : Member) (n : Nat) : Word := nth m.f n 0
/-- The next generation a member arrives for. -/
def memE (m : Member) (n : Nat) : Word := nth m.e n 0
/-- The four barriers. -/
def barNumbers : List Nat := [0, 1, 2, 3]

/-- Generations compare by the sign of their difference: x is above y (R93). -/
def genAbove (x y : Word) : Bool := decide (0 < (x - y).toInt)

/-- Settle of one barrier (R94). -/
def settleBar : Nat → Barrier → Barrier
  | 0, b => b
  | n + 1, b =>
    if b.c = b.m ∧ 0 < b.m + b.j then settleBar n { g := b.g + 1, m := b.m + b.j, j := 0, c := b.cn, cn := 0 } else b

/-- Settle of every barrier of a block. -/
def settleAll (b : Block) : Block := { b with barriers := barNumbers.map (fun n => settleBar 8 (barAt b n)) }

/-- Join at every barrier (R94). -/
def joinAll (b : Block) (u : Nat) : Block :=
  let gens := barNumbers.map (fun n => (barAt b n).g + 1)
  { b with barriers := barNumbers.map (fun n => { barAt b n with j := (barAt b n).j + 1 })
           members := mset b.members u { f := gens, e := gens } }

/-- Leave at one barrier (R94). -/
def leaveBar (b : Barrier) (f e : Word) : Barrier :=
  let b1 := if genAbove f b.g then { b with j := b.j - 1 }
    else { b with m := b.m - 1, c := if genAbove e b.g then b.c - 1 else b.c }
  if genAbove e (b.g + 1) then { b1 with cn := b1.cn - 1 } else b1

/-- Leave at every barrier. -/
def leaveAll (b : Block) (u : Nat) : Block :=
  let m := mgetD b.members u {}
  { b with barriers := barNumbers.map (fun n => leaveBar (barAt b n) (memF m n) (memE m n))
           members := mdel b.members u }

/-- Arrive at a barrier (R94). -/
def arriveAt (b : Block) (u n : Nat) : Block :=
  let m := mgetD b.members u {}
  let x := barAt b n
  let y := if memE m n = x.g then { x with c := x.c + 1 } else { x with cn := x.cn + 1 }
  { b with barriers := nthSet {} y (barNumbers.map (barAt b)) n
           members := mset b.members u { m with e := nthSet 0 (memE m n + 1) (barNumbers.map (memE m)) n } }

/-- The lowest wave index of a block not in use (R86). -/
def freeIndexOf (s : State) (k : Nat) : Nat :=
  let used := (s.waves.filter (fun x => decide (x.2.block = some k))).map (fun x => x.2.wid)
  ((List.range 64).find? (fun n => !used.contains n)).getD 0

/-- A wave joins a block: it takes the lowest free index and joins the four barriers (R86, R95). -/
def joinBlock (s : State) (u k : Nat) : State :=
  let n := freeIndexOf { s with waves := mmod s.waves u (fun w => { w with block := none }) } k
  modBlock (modWave s u (fun w => { w with block := some k, wid := n })) k (fun b => settleAll (joinAll b u))

/-! ### Departure -/

/-- A lock bit cleared: it is forgotten, unless requests wait for it (R197). Log entry 41 (DEDUCED). -/
def clearLock (c : Core) (k : Nat) : Core :=
  match mget c.locks k with
  | some x => if x.waiting.isEmpty then { c with locks := mdel c.locks k }
      else { c with locks := mset c.locks k { x with owner := none } }
  | none => c

/-- The lock bits of some lanes of a wave cleared, and its waiting requests withdrawn when `all` (R197). -/
def dropLocks (c : Core) (u : Nat) (lanes : Nat → Bool) (all : Bool) : Core :=
  let m := c.locks.map (fun x => (x.1, { x.2 with
    owner := if x.2.owner.any (fun o => decide (o.1 = u) && lanes o.2) then none else x.2.owner
    waiting := if all then x.2.waiting.filter (fun r => !decide (r.1 = u)) else x.2.waiting }))
  { c with locks := m.filter (fun x => x.2.owner.isSome || !x.2.waiting.isEmpty) }

/-- The items a wave holds of its partition's decks are released (R285). -/
def releaseDrawn (s : State) (part : Nat) (drawn : Map Nat) : State :=
  modPart s part (fun p => { p with decks := drawn.foldl (fun m x =>
    mmod m x.1 (fun d => { d with heldItems := d.heldItems - x.2 })) p.decks })

/-- Ends the varying grants of a wave (R213): they wait for the entries that resolved them. -/
def endVarying (s : State) (g u : Nat) : State :=
  modGrid s g (fun x => { x with grants := x.grants.map (fun y => match y.2.arr with
    | .window v _ => if v = u then (y.1, { y.2 with ending := true }) else y
    | _ => y) })

/-- The waves of a block changed. -/
def modMembers (s : State) (k : Nat) (f : Wave → Wave) : State :=
  { s with waves := s.waves.map (fun x => if x.2.block = some k then (x.1, f x.2) else x) }


/-- A wave whose save is over goes on as it stood before. -/
def runOn (w : Wave) : Wave :=
  match w.state with
  | .saving => { w with state := .run }
  | .savingDebug => { w with state := .debug }
  | .savingStep => { w with state := .oneStep }
  | _ => w

/-- A request is accepted: the block enters stopping (R341, R342). -/
def acceptPreempt (s : State) (k reason : Nat) (cmds : List Nat) : State :=
  modMembers (modBlock s k (fun b => { b with preempt := some { drain := .stopping, reason := reason, cmds := cmds } })) k stopForSave

/-- Whether every counted wave has supplied its slice. -/
def collectiveFull (x : Collective) : Bool := decide (x.count ≤ x.slices.length + x.empties.length)

/-- A leaving wave supplies an empty slice to the open collectives that count it (R172). -/
def supplyEmpty (s : State) (u k : Nat) : State :=
  (blockOf s k).collectives.foldl (fun t x =>
    let y := x.2
    if y.counted.contains u && !y.slices.any (fun z => decide (z.2.1 = u)) && !y.empties.contains u then
      let z := { y with empties := y.empties ++ [u] }
      let t1 := modBlock t k (fun b => { b with collectives := mset b.collectives x.1 z })
      if collectiveFull z then
        { t1 with nextId := t1.nextId + 1
                  held := t1.held ++ [{ id := t1.nextId, issued := t1.now, due := t1.now + Config.holdback
                                        core := (blockOf t1 k).core, seat := none, wave := u, block := some k
                                        eff := .collective x.1 y.id }] }
      else t1
    else t) s

/-- The grants of a block end (R213). -/
def endGrants (g : Grid) (k : Nat) : Grid :=
  { g with grants := g.grants.map (fun y => if y.2.block = k then (y.1, { y.2 with ending := true }) else y) }

/-- A wave leaves its block: the barriers, its index, the shrink request; the block of the last wave retires, and its
grants end (R69, R91, R92, R213). -/
def leaveBlock (s : State) (u : Nat) : State :=
  let w := waveOf s u
  match w.block with
  | none => s
  | some k =>
    let s1 := modCore (endVarying s w.grid u) w.core (fun c => dropLocks c u (fun _ => true) true)
    let s2 := modWave (supplyEmpty s1 u k) u (fun w => { w with block := none })
    let s3 := modBlock s2 k (fun b =>
      let b1 := settleAll (leaveAll b u)
      { b1 with shrink := b1.shrink - 1, retired := b1.members.isEmpty })
    if (blockOf s3 k).retired then modGrid s3 w.grid (fun g => endGrants g k) else s3

/-- Whether every block a grid will place has been placed. -/
def allPlaced (g : Grid) : Bool := g.error || (decide (g.launch.size ≤ g.nextBlock) && g.again.isEmpty)

/-- Whether a grid has neither block nor loose wave left (R69). -/
def gridOver (s : State) (n : Nat) : Bool :=
  let g := gridOf s n
  (mget s.grids n).isSome && allPlaced g && decide (g.saved = 0) && decide (g.state ≠ 2) &&
  !s.blocks.any (fun b => decide (b.2.grid = n)) && !s.waves.any (fun w => decide (w.2.grid = n)) &&
  (decide (g.state = 1) || g.error)

/-- The cohort entries a grid held go free where no other grid holds them (R270). -/
def freeCohorts (m : Map Cohort) (n : Nat) : Map Cohort :=
  (m.map (fun x => (x.1, { x.2 with holders := x.2.holders.filter (fun y => !decide (y = n)) }))).filter
    (fun x => !x.2.holders.isEmpty)

/-- A queue without a grid. -/
def dequeue (m : Map (List Nat)) (n : Nat) : Map (List Nat) := m.map (fun x => (x.1, x.2.filter (fun y => !decide (y = n))))

/-- The completion event of a host command (R355, R367): its status in the detail field, its host tag and what the
command adds in the extra bytes. Log entry 67 (DEDUCED). -/
def commandDone (s : State) (p : Nat) (host : Word) (status : Nat) (more : List Nat) : State :=
  postEvent s p { src := 0x5000 + p % 4096, seq := 0, time := 0, cause := .kind 5, detail := status
                  extra := host.toNat :: more }

/-- A save command whose blocks have all finished completes (R370). -/
def settleSave (s : State) (p : Nat) (x : SaveCmd) : State :=
  if x.left = 0 then
    commandDone (modPart s p (fun q => { q with saves := q.saves.filter (fun y => !decide (y.id = x.id)) })) p x.host 0
      [x.written, if x.many then 0xFF else x.status]
  else s

/-- The save commands that wait for a later block of a grid wait no longer: none is placed any more (R342). -/
def endFollow (s : State) (p g : Nat) : State :=
  (partOf s p).saves.foldl (fun t x =>
    if !x.follow.contains g then t
    else
      let y := { x with left := x.left - (x.follow.filter (fun n => decide (n = g))).length
                        follow := x.follow.filter (fun n => decide (n ≠ g)) }
      settleSave (modPart t p (fun q => { q with saves := q.saves.map (fun z => if z.id = y.id then y else z) })) p y) s

/-- Completes a grid (R69, R277): its status, its completion event, its cohorts; the completion is a release (R278).
Log entry 57 (DEDUCED). -/
def completeGrid (s : State) (n : Nat) : State :=
  let g := gridOf s n
  let st := if g.error || decide (0 < g.kills) then 3 else 2
  let e : Event := { src := 0x4000 + g.queue, seq := 0, time := 0, cause := .kind 4, grid := g.handle, ctx := g.ctx
                     asid := (ctxOf s g.ctx).asid, detail := st }
  let s1 := modPart s g.part (fun p => { p with
    done := ((g.handle, st, g.doneClock) :: p.done).take 1024
    cohorts := freeCohorts p.cohorts n, queues := dequeue p.queues n })
  endFollow (postEvent { s1 with grids := mdel s1.grids n } g.part e) g.part n

/-- Completes a grid if it is over. -/
def checkGrid (s : State) (n : Nat) : State := if gridOver s n then completeGrid s n else s

/-- A wave ends and frees its slot, its registers, its spill area and its drawn items. -/
def dropWave (s : State) (u : Nat) : State :=
  let w := waveOf s u
  let s1 := modCore (releaseDrawn s w.part w.drawn) w.core (fun c => dropLocks c u (fun _ => true) true)
  let s2 := modGrid s1 w.grid (fun g => { g with
    areas := g.areas.filter (fun n => !decide (some n = w.spillArea))
    doneClock := clockJoin g.doneClock (clockJoin w.clock (clockJoin w.wrote w.engineWrote)) })
  { s2 with waves := mdel s2.waves u }

/-- A wave ends for good: it leaves its block and is gone. -/
def endWaveNow (s : State) (u : Nat) : State :=
  let g := (waveOf s u).grid
  checkGrid (dropWave (leaveBlock s u) u) g

/-- The wave after an effect it waited for was performed. -/
def awake (w : Wave) (n : Nat) : Wave := if w.waitHeld = some n then { w with waitHeld := none } else w

/-- A uniform result written when an operation is performed (R88). -/
def putResult (w : Wave) (d : Option Nat) (x : Word) : Wave :=
  match d with
  | some n => setS w n ⟨x, .clean⟩
  | none => w

/-- The register a uniform destination names. -/
def uniformDest : Operand → Option Nat
  | .s n => some n
  | _ => none

/-- Goes on with the block of an attached wave; a loose wave traps with LOOSE_WAVE (R86). Log entry 30 (DEDUCED). -/
def attached (s : State) (c : Ctx) (k : Nat → State) : State :=
  match c.w.block with
  | some b => k b
  | none => trapOpen s c .looseWave

/-- Whether the older lock requests of a wave leave the way to the banks free (R229). -/
def bankFree (s : State) (h : Held) : Bool := !lockPending (waveOf s h.wave) (h.op.getD h.id)

/-- Whether an effect accesses the scratchpad as its wave's. -/
def isSpadEffect : Effect → Bool
  | .sstore _ _ | .stul _ _ | .satomic _ _ _ _ _ _ | .ldlk _ _ => true
  | _ => false

/-- Whether an effect has left its seat and waits at a bank behind an older lock request of its wave (R196, R229). -/
def atBank (s : State) (h : Held) : Bool := isSpadEffect h.eff && !bankFree s h

/-- Whether an effect may pass its own wave's older accesses that wait at a bank: a global write that releases nothing, or
a record (R178, R229). -/
def passesBank : Effect → Bool
  | .gstore _ _ none _ | .vstore _ _ _ | .record _ _ | .splitRecords _ _ => true
  | _ => false

/-- Whether an effect makes a wave a member of a block. -/
def isJoin : Effect → Bool
  | .grow _ _ _ _ _ _ _ | .attach _ _ => true
  | _ => false
/-- Whether an effect takes a wave out of its block. -/
def isLeave : Effect → Bool
  | .detach _ | .finish | .dead => true
  | _ => false
/-- Whether an effect arrives at a barrier. -/
def isArrive : Effect → Bool
  | .arrive _ | .arriveTo _ _ => true
  | _ => false

/-- Whether every older effect of the seat has left it (R226) and the effect has been matched where its block runs
redundantly (R328); a join passes the leaves and arrivals of its cycle (R95). -/
def seatFree (s : State) (h : Held) : Bool :=
  matched s h && (h.seat.isNone || !s.held.any (fun x => decide (x.core = h.core ∧ x.seat = h.seat ∧ x.id < h.id) &&
    !(atBank s x && (decide (x.wave ≠ h.wave) || passesBank h.eff)) &&
    !(isJoin h.eff && (isLeave x.eff || isArrive x.eff) && decide (x.due ≤ s.now))))

/-- Whether a join of a block can be performed now: it comes before the block's leaves and arrivals of the cycle
(R95). -/
def joinsWaiting (s : State) (block : Option Nat) : Bool :=
  match block with
  | none => false
  | some k => s.held.any (fun h => decide (h.due ≤ s.now) && seatFree s h && (match h.eff with
    | .grow _ false _ _ _ _ _ => decide ((waveOf s h.wave).block = some k)
    | .attach index _ => decide ((blockOf s k).grid = (waveOf s h.wave).grid ∧ (blockOf s k).index = index ∧
        (blockOf s k).core = h.core)
    | _ => false))

/-- A seat's scratchpad request was served: the next one comes from the seat after it on (R183). -/
def servedSeat (s : State) (h : Held) : State :=
  if isSpadEffect h.eff then serveSeat s h.core (h.seat.getD 0) else s

/-- Performs a held effect when it is due: `f` answers the state, or none where the effect is another instruction's. -/
def perform (s : State) (n : Nat) (name : String) (f : State → Held → Option State) : Host.Outcome State Fault Refusal :=
  match heldOf s n with
  | none => .refused (.notEnabled name)
  | some h =>
    if h.due ≤ s.now ∧ seatFree s h then
      match f (dropHeld s n) h with
      | some t => .next (modWave (servedSeat t h) h.wave (fun w => awake w n))
      | none => .refused (.notEnabled name)
    else .refused (.notEnabled name)

/-! ### The instructions -/

/-- `grow` (R89). -/
def execGrow (d a b : Operand) (s : State) : Host.Outcome State Fault Refusal :=
  run (.grow d a b) s (fun s1 c => attached s1 c (fun _ =>
    consumeAll s1 c [tagU c a false, tagU c b false] (fun s2 c =>
      let q := (readU c a).toNat
      if q / 2 ^ 9 ≠ 0 ∨ bits q 7 6 ≠ 0 ∨ q % 64 = 0 then trapAt s2 c .illegalField (readU c a)
      else
        let va := wordOffset c.sp.pc (readU c b).toInt
        withTarget s2 c va (fun s3 =>
          finishWait s3 c c.w (.grow (q % 64) (bitAt q 8) va (uniformDest d) c.w.s c.w.a c.w.clock)))))

/-- Places waves one after another; their numbers and the state. -/
def placeWaves : Nat → State → Nat → Nat → Nat → List Nat → List Nat × State
  | 0, s, _, _, _, _ => ([], s)
  | n + 1, s, g, core, pc, clock =>
    let r := placeWave s g core pc 0 none clock
    let t := placeWaves n r.2 g core pc clock
    (r.1 :: t.1, t.2)

/-- GROW_PERFORM (R89). -/
def execGrowPerform (n : Nat) (s : State) : Host.Outcome State Fault Refusal :=
  perform s n "GROW_PERFORM" (fun s1 h =>
    match h.eff with
    | .grow want loose pc dst ss as clock =>
      let w := waveOf s1 h.wave
      let k := w.block.getD 0
      let b := blockOf s1 k
      let room := waveRoom s1 w.core (gridOf s1 w.grid).launch.stack
      let g := if 0 < b.shrink ∨ b.preempt.isSome then 0
        else if loose then Nat.min want room else Nat.min (Nat.min want (b.maxWaves - b.members.length)) room
      let placed := placeWaves g s1 w.grid w.core pc (clockJoin clock w.wrote)
      let news := placed.1
      let s2 := news.foldl (fun t u => modWave t u (fun x => { x with s := ss, a := as })) placed.2
      let order := (s2.waves.filter (fun x => news.contains x.1)).map (fun x => (16 * x.2.seat + x.2.slot, x.1))
      let sorted := (List.range 128).flatMap (fun i => (order.filter (fun x => decide (x.1 = i))).map (·.2))
      let s3 := if loose then s2 else sorted.foldl (fun t u => joinBlock t u k) s2
      some (modWave s3 h.wave (fun w => putResult w dst (BitVec.ofNat 32 g)))
    | _ => none)

/-- `attach` (R90). -/
def execAttach (d a : Operand) (s : State) : Host.Outcome State Fault Refusal :=
  run (.attach d a) s (fun s1 c =>
    match c.w.block with
    | some _ => trapAt s1 c .illegalIssue 0
    | none => consumeAll s1 c [tagU c a false] (fun s2 c =>
        finishWait s2 c c.w (.attach (readU c a).toNat (uniformDest d))))

/-- ATTACH_PERFORM (R90): the first status that applies in the order 1, 3, 2. A block that has faulted is retiring.
Log entry 94 (DEDUCED). -/
def execAttachPerform (n : Nat) (s : State) : Host.Outcome State Fault Refusal :=
  perform s n "ATTACH_PERFORM" (fun s1 h =>
    match h.eff with
    | .attach index dst =>
      let w := waveOf s1 h.wave
      let put (t : State) (x : Word) : State := modWave t h.wave (fun w => putResult w dst x)
      match s1.blocks.find? (fun b => decide (b.2.grid = w.grid ∧ b.2.index = index ∧ b.2.core = w.core)) with
      | none => some (put s1 1)
      | some (k, b) =>
        if 0 < b.shrink ∨ b.preempt.isSome ∨ b.retired ∨ b.fault then some (put s1 3)
        else if b.maxWaves ≤ b.members.length then some (put s1 2)
        else some (put (joinBlock s1 h.wave k) 0)
    | _ => none)

/-- `detach` (R91). -/
def execDetach (a : Operand) (s : State) : Host.Outcome State Fault Refusal :=
  run (.detach a) s (fun s1 c => attached s1 c (fun _ =>
    consumeAll s1 c [tagU c a false] (fun s2 c =>
      let x := readU c a
      if x = 0 ∨ x = 1 then finishWait s2 c c.w (.detach (x = 1)) else trapAt s2 c .illegalField x)))

/-- DETACH_PERFORM (R91): the wave leaves its block, and ends or becomes loose. -/
def execDetachPerform (n : Nat) (s : State) : Host.Outcome State Fault Refusal :=
  perform s n "DETACH_PERFORM" (fun s1 h =>
    match h.eff with
    | .detach loose =>
      if joinsWaiting s1 (waveOf s1 h.wave).block then none
      else if loose then
        let w := waveOf s1 h.wave
        let s2 := leaveBlock s1 h.wave
        some (modWave (releaseDrawn s2 w.part w.drawn) h.wave (fun w => { w with drawn := [] }))
      else some (endWaveNow s1 h.wave)
    | _ => none)

/-- END_PERFORM (R157). -/
def execEndPerform (n : Nat) (s : State) : Host.Outcome State Fault Refusal :=
  perform s n "END_PERFORM" (fun s1 h =>
    match h.eff with
    | .finish => if joinsWaiting s1 (waveOf s1 h.wave).block then none else some (endWaveNow s1 h.wave)
    | _ => none)

/-- Whether nothing of a wave is outstanding: its long operations, its engine entries and its held effects (R337). -/
def waveIdle (s : State) (u : Nat) : Bool :=
  (waveOf s u).ops.isEmpty && !s.held.any (fun h => decide (h.wave = u)) &&
  !s.cores.any (fun c => c.2.queues.any (fun q => q.entries.any (fun e => decide (e.wave = u))))

/-- DEAD_WAVE_LEAVE (R85): a wave whose last lane died leaves its block; a faulted loose wave ends once nothing of it is
outstanding (R337). -/
def execDeadWaveLeave (n : Nat) (s : State) : Host.Outcome State Fault Refusal :=
  perform s n "DEAD_WAVE_LEAVE" (fun s1 h =>
    match h.eff with
    | .dead =>
      if joinsWaiting s1 (waveOf s1 h.wave).block then none
      else if (waveOf s1 h.wave).state = .faulted ∧ !waveIdle s1 h.wave then none else some (endWaveNow s1 h.wave)
    | _ => none)

/-- `shrinkq` (R92): the request, read at issue. -/
def execShrinkq (d : Operand) (s : State) : Host.Outcome State Fault Refusal :=
  run (.shrinkq d) s (fun s1 c => attached s1 c (fun k =>
    let w := if c.skip then c.w else putResult c.w (uniformDest d) (BitVec.ofNat 32 (blockOf s1 k).shrink)
    finish s1 c w 0 []))

/-- The two words of `bmem` (R97). -/
def bmemWord (b : Block) : Operand → Word
  | .b n =>
    let x := barAt b n
    BitVec.ofNat 32 (x.g.toNat % 65536 * 65536 + x.c * 256 + x.m)
  | _ => BitVec.ofNat 32 (b.maxWaves * 256 + b.members.length)

/-- `bmem` (R97). -/
def execBmem (d a : Operand) (s : State) : Host.Outcome State Fault Refusal :=
  run (.bmem d a) s (fun s1 c => attached s1 c (fun k =>
    let w := if c.skip then c.w else putResult c.w (uniformDest d) (bmemWord (blockOf s1 k) a)
    finish s1 c w 0 []))

/-- The number of a barrier operand. -/
def barOf : Operand → Nat
  | .b n => n
  | _ => 0

/-- An arrival at issue: the generation it is for, or BARRIER_AHEAD (R94, R95). -/
def arriveThen (s : State) (c : Ctx) (k : Nat) (a : Operand) (go : Word → State) : State :=
  let b := blockOf s k
  let e := memE (mgetD b.members c.uid {}) (barOf a)
  let g := (barAt b (barOf a)).g
  if e = g ∨ e = g + 1 then go e else trapAt s c .barrierAhead (BitVec.ofNat 32 a.code)

/-- `bar` (R96): arrives and parks until the generation is past. Log entry 78 (DEDUCED). -/
def execBar (a : Operand) (s : State) : Host.Outcome State Fault Refusal :=
  run (.bar a) s (fun s1 c => attached s1 c (fun k => arriveThen s1 c k a (fun e =>
    let r := hold s1 c.uid (.arrive (barOf a)) none
    finishPark r.2 c { c.w with waitHeld := some r.1 } (.generation (barOf a) e) none)))

/-- `barrive` (R96): arrives without parking; the generation is written when the arrival is performed (R88). -/
def execBarrive (d a : Operand) (s : State) : Host.Outcome State Fault Refusal :=
  run (.barrive d a) s (fun s1 c => attached s1 c (fun k => arriveThen s1 c k a (fun _ =>
    finishWait s1 c c.w (.arriveTo (barOf a) (uniformDest d)))))

/-- `bwait` (R96): parks until the generation is past. Log entry 78 (DEDUCED). -/
def execBwait (a b : Operand) (s : State) : Host.Outcome State Fault Refusal :=
  run (.bwait a b) s (fun s1 c => attached s1 c (fun k =>
    consumeAll s1 c [tagU c b false] (fun s2 c =>
      let g := readU c b
      let x := blockOf s2 k
      if !genAbove (memE (mgetD x.members c.uid {}) (barOf a)) g then trapAt s2 c .barrierAhead g
      else if genAbove (barAt x (barOf a)).g g then finishNop s2 c
      else finishPark s2 c c.w (.generation (barOf a) g) none)))

/-- Whether a join or leave of a block can be performed now: it comes before the block's arrivals of the cycle (R95). -/
def joinsFirst (s : State) (k : Nat) : Bool :=
  joinsWaiting s (some k) || s.held.any (fun h => decide (h.due ≤ s.now) && seatFree s h && isLeave h.eff &&
    decide ((waveOf s h.wave).block = some k))

/-- BARRIER_ARRIVE (R94, R95): an arrival is performed and every barrier settles. -/
def execBarrierArrive (n : Nat) (s : State) : Host.Outcome State Fault Refusal :=
  perform s n "BARRIER_ARRIVE" (fun s1 h =>
    let k := (waveOf s1 h.wave).block.getD 0
    if joinsFirst s1 k then none
    else match h.eff with
    | .arrive b => some (modBlock s1 k (fun x => settleAll (arriveAt x h.wave b)))
    | .arriveTo b d =>
      let e := memE (mgetD (blockOf s1 k).members h.wave {}) b
      some (modWave (modBlock s1 k (fun x => settleAll (arriveAt x h.wave b))) h.wave (fun w => putResult w d e))
    | _ => none)

/-! ### Faults and retirement (R69, R337) -/

/-- The operations that slices supplied to a block's open collectives keep incomplete (R172, R174). -/
def openSlices (b : Block) : List Nat := b.collectives.flatMap (fun c => c.2.slices.map (fun y => y.2.2.1))

/-- Whether nothing of a block is outstanding but its open collectives: its waves' operations, its engine entries and
requests, its held effects (R174, R342). -/
def blockIdle (s : State) (k : Nat) : Bool :=
  let b := blockOf s k
  s.waves.all (fun x => !decide (x.2.block = some k) || x.2.ops.all (fun o => (openSlices b).contains o.id)) &&
  !s.held.any (fun h => decide (h.block = some k)) &&
  !s.cores.any (fun c => c.2.queues.any (fun q => q.entries.any (fun e => decide (e.block = some k)) ||
    q.issued.any (fun e => decide (e.2 = some k) && !b.collectives.any (fun x => decide (x.2.id = e.1)))))

/-- The queue places of a block's open collectives are free (R174). -/
def freePlaces (s : State) (k : Nat) : State :=
  modCore s (blockOf s k).core (fun c => { c with queues := c.queues.map (fun q =>
    { q with issued := q.issued.filter (fun p => !decide (p.2 = some k)) }) })

/-- Whether an engine entry that resolved a grant of a grid has not completed (R213). -/
def grantInUse (s : State) (g x : Nat) : Bool :=
  s.cores.any (fun c => c.2.queues.any (fun q => q.entries.any (fun e => decide (e.grid = g) && e.grants.contains x)))

/-- Whether an entry of another block may still be using a grant of a block: what the grants name stays until it has
completed (R213). -/
def mapBusy (s : State) (k : Nat) : Bool :=
  let g := (blockOf s k).grid
  (gridOf s g).grants.any (fun y => decide (y.2.block = k) && grantInUse s g y.1)

/-- A grid has an error: no block of it is placed any more (R337). -/
def gridError (s : State) (g : Nat) : State :=
  let s1 := modGrid s g (fun x => { x with error := true, again := [] })
  endFollow (modPart s1 (gridOf s g).part (fun p => { p with queues := dequeue p.queues g })) (gridOf s g).part g

/-- A block faults: it stops, its grid has an error, the record is written (R171, R337). -/
def faultBlock (s : State) (k part : Nat) (e : Event) : State :=
  let b := blockOf s k
  if b.fault then s
  else postEvent (gridError (modBlock s k (fun b => { b with fault := true })) b.grid) part e

/-- A loose wave faults: it alone stops, and ends once nothing of it is outstanding (R337). -/
def faultLoose (s : State) (u part : Nat) (e : Event) : State :=
  let w := waveOf s u
  let s1 := postEvent (gridError (modWave s u (fun w => { w with state := .faulted })) w.grid) part e
  if s1.held.any (fun h => decide (h.wave = u ∧ h.eff = .dead)) then s1
  else { s1 with
    nextId := s1.nextId + 1
    held := s1.held ++ [{ id := s1.nextId, issued := s1.now, due := s1.now, core := w.core, seat := some w.seat
                          wave := u, eff := .dead }] }

/-- Ends the block of a wave, or a loose wave, with an engine or block cause (R171, R210, R337): each erring entry has its
record, also when an earlier one has ended the block. -/
def endWith (s : State) (u : Nat) (block : Option Nat) (part : Nat) (e : Event) : State :=
  match block with
  | some k => if (blockOf s k).fault then postEvent s part e else faultBlock s k part e
  | none => faultLoose s u part e


/-- Whether a block is over and nothing of it is outstanding. -/
def blockOver (s : State) (k : Nat) : Bool := ((blockOf s k).retired || (blockOf s k).fault) && blockIdle s k


/-- A save command counts a block of a grid that is done with a status (R370). Where a block that retired first leaves
blocks of its grid to be placed, a command that names them all takes the next one (R342). -/
def countSave (s : State) (grid status n : Nat) : State :=
  let g := gridOf s grid
  let p := g.part
  match (partOf s p).saves.find? (fun x => decide (x.id = n)) with
  | none => s
  | some x =>
    let goesOn := status = 2 ∧ x.many ∧ !g.error ∧ g.nextBlock < g.launch.size
    let y := { x with
      left := if goesOn then x.left else x.left - 1
      written := x.written + (if status = 0 then 1 else 0), status := status
      follow := if goesOn then grid :: x.follow else x.follow }
    settleSave (modPart s p (fun q => { q with saves := q.saves.map (fun z => if z.id = n then y else z) })) p y

/-- The outcome of a pre-emption request (R341): the request is over, and its commands count it. -/
def endPreempt (s : State) (k status : Nat) : State :=
  let b := blockOf s k
  match b.preempt with
  | none => s
  | some r => r.cmds.foldl (fun t n => countSave t b.grid status n) (modBlock s k (fun b => { b with preempt := none }))

/-- Frees a block with its waves and grants. -/
def freeBlock (s : State) (k : Nat) : State :=
  let us := (s.waves.filter (fun x => decide (x.2.block = some k))).map (·.1)
  let s1 := us.foldl dropWave s
  let s2 := freePlaces (modGrid s1 (blockOf s k).grid (fun g => endGrants g k)) k
  { s2 with blocks := mdel s2.blocks k }

/-- The blocks whose allocations go together: a block and its partner, if it is resident (R252). -/
def withPartner (s : State) (k : Nat) : List Nat :=
  match (blockOf s k).partner with
  | some j => if (mget s.blocks j).isSome then [k, j] else [k]
  | none => [k]

/-- BLOCK_RETIRE (R69, R252, R337, R342): allocations, grants and waves are freed; the grid may be over. -/
def execBlockRetire (k : Nat) (s : State) : Host.Outcome State Fault Refusal :=
  match mget s.blocks k with
  | some b =>
    if (withPartner s k).all (fun j => blockOver s j && !mapBusy s j) then
      .next (checkGrid ((withPartner s k).foldl (fun t j => freeBlock (endPreempt t j 2) j) s) b.grid)
    else .refused (.notEnabled "BLOCK_RETIRE")
  | none => .refused (.notEnabled "BLOCK_RETIRE")

/-- GRANT_END (R213): an ending grant is gone once every engine entry that resolved it has completed. -/
def execGrantEnd (g x : Nat) (s : State) : Host.Outcome State Fault Refusal :=
  match mget (gridOf s g).grants x with
  | some r =>
    if r.ending ∧ !grantInUse s g x then .next (modGrid s g (fun y => { y with grants := mdel y.grants x }))
    else .refused (.notEnabled "GRANT_END")
  | none => .refused (.notEnabled "GRANT_END")

end Sys2Proof.Machine
end

