-- ==== Sys2Proof/Machine/Order.lean ====
section
/-! DEFINITION. Scopes and synchronisation (R224, R225, R235, R236), and the completion of
memory-class long operations (R38, R53, R123). -/

namespace Sys2Proof.Machine

/-! ### Scopes -/

/-- Whether the agent of head `y` lies within a scope of wave `u` (R224). -/
def headInScope (s : State) (u scope : Nat) (y : Head) : Bool :=
  let w := waveOf s u
  match scope with
  | 0 => decide (y.wave = some u)
  | 1 => decide (y.wave = some u) || (w.block.isSome && decide (y.block = w.block))
  | 2 => !y.host && !y.gate && decide (y.part = w.part ∧ y.die = dieOfCore w.core)
  | 3 => !y.host && decide (y.part = w.part)
  | _ => decide (y.part = w.part)

/-- Whether wave `u` lies within the scope of a release. -/
def waveInScope (s : State) (u : Nat) (y : Head) : Bool :=
  let w := waveOf s u
  match y.scope with
  | 0 => decide (y.wave = some u)
  | 1 => decide (y.wave = some u) || (y.block.isSome && decide (y.block = w.block))
  | 2 => decide (y.part = w.part ∧ y.die = dieOfCore w.core)
  | _ => decide (y.part = w.part)

/-- Whether an acquire of wave `u` synchronises with a release it reads, at a location of class `cls` (R235).
Log entry 43 (DEDUCED). -/
def synchronises (s : State) (u scope set cls : Nat) (y : Head) : Bool :=
  waveInScope s u y && headInScope s u scope y && decide (set &&& cls ≠ 0) && decide (y.set &&& cls ≠ 0)

/-- The states of a wave that a rollback may restore, changed where `p` holds of them: what happened to the wave in the
meantime and stays (R241, R313). -/
def modOlds (s : State) (u : Nat) (p : Wave → Bool) (f : Wave → Wave) : State :=
  { s with undo := s.undo.map (fun y => if decide (y.wave = u) && p y.old then { y with old := f y.old } else y) }

/-- A wave's clock joined with another. -/
def joinClock (clock : List Nat) (w : Wave) : Wave := { w with clock := clockJoin w.clock clock }

/-- The clocks of the releases that an acquire of a wave synchronises with. -/
def gained (s : State) (u scope set : Nat) (heads : List (Nat × Head)) : List Nat :=
  (heads.filter (fun h => synchronises s u scope set h.1 h.2)).foldl (fun c h => clockJoin c h.2.clock) []

/-- The flag of an acquire that reads a release it does not synchronise with (R235). -/
def missFlag (s : State) (u scope set : Nat) (heads : List (Nat × Head)) : BitVec 9 :=
  when (heads.any (fun h => !synchronises s u scope set h.1 h.2)) fMISS

/-- A wave with the clock and the flags that an acquire gave it. -/
def acquired (clock : List Nat) (flags : BitVec 9) (w : Wave) : Wave := { joinClock clock w with wstat := w.wstat ||| flags }

/-- An acquire point of a wave over the release sequences it read, each with its class: the clocks of those it
synchronises with join its own and their writes are in its die's view; any other sets `scope_miss` (R235).
Log entry 42 (DESIGN CHOICE). -/
def acquireFrom (s : State) (u scope set : Nat) (heads : List (Nat × Head)) : State :=
  let s1 := modWave s u (acquired (gained s u scope set heads) (missFlag s u scope set heads))
  syncTo s1 (dieOfCore (waveOf s u).core) (waveOf s1 u).clock

/-- Reads recorded for later acquire fences (R235). Log entry 43 (DEDUCED). -/
def noteReads (w : Wave) (cls : Nat) (heads : List Head) : Wave :=
  { w with readHeads := (w.readHeads ++ heads.map (fun h => (cls, h))).eraseDups }

/-- The head a release of a wave makes (R231, R236). -/
def headOf (w : Wave) (u : Nat) (scope set : Nat) (clock : List Nat) : Head :=
  { wave := some u, block := w.block, die := dieOfCore w.core, part := w.part, scope := scope, set := set, clock := clock }

/-- The clock of a wave's write at its release: what it carried, the writes a release fence put before it, and for a
release over global storage the wave's own (R233, R237). Log entry 42 (DESIGN CHOICE). -/
def releaseClock (w : Wave) (clock : List Nat) (rel : Option Release) : List Nat :=
  let base := clockJoin clock w.relClock
  match rel with
  | some r => if r.set &&& 2 = 0 then base else clockJoin base w.wrote
  | none => base

/-- The release sequences a wave's write to classes `cls` heads: its own release and its release fences (R235, R236). -/
def ownHeads (w : Wave) (u : Nat) (rel : Option Release) (cls : Nat) (clock : List Nat) : List Head :=
  w.fenceHeads.filter (fun h => decide (h.set &&& cls ≠ 0)) ++
  (match rel with
    | some r => if r.set &&& cls = 0 then [] else [headOf w u r.scope r.set clock]
    | none => [])

/-- Settles the fences of a wave that are done: an acquire fence synchronises over the reads before it (R232, R235). -/
def settleFences (s : State) (u : Nat) : State :=
  let w := waveOf s u
  let done := w.fences.filter (fenceDone s u w)
  if done.isEmpty then s
  else
    let s1 := modWave s u (fun w => { w with fences := w.fences.filter (fun f => !fenceDone s u w f) })
    done.foldl (fun t f =>
      if f.acquire then acquireFrom t u f.scope f.set ((waveOf t u).readHeads.filter (fun h => decide (f.set &&& h.1 ≠ 0)))
      else t) s1


/-! ### Completion (R38) -/

/-- Whether a region that covers a seat is stalled by a rollback (R313). -/
def seatStalled (s : State) (core seat : Nat) : Bool :=
  let c := coreOf s core
  (match c.stall with
    | some t => decide (s.now < t)
    | none => false) ||
  (match (seatAt c seat).stall with
    | some t => decide (s.now < t)
    | none => false)

/-- The wave a long operation belongs to. -/
def ownerOf (s : State) (n : Nat) : Option (Nat × Wave × LongOp) :=
  firstSome (fun x => (x.2.ops.find? (fun o => decide (o.id = n))).map (fun o => (x.1, x.2, o))) s.waves

/-- The flags of results fixed at issue, of the lanes that are still live; a uniform result has one value (R53, R123). -/
def resultFlags (live : LaneMask) (d : Dst) (vals : List (LaneVal × BitVec 9)) : BitVec 9 :=
  vals.foldl (fun f x => match d with
    | .s _ => f ||| x.2
    | _ => if inMask live x.1.lane then f ||| x.2 else f) 0

/-- What an operation writes when it completes: its lanes' results, flags, and the release sequences it read; none
while some lane has no value. -/
def outcome (live : LaneMask) (o : LongOp) : Option (List LaneVal × BitVec 9 × List Head) :=
  match o.kind with
  | .result vals => some (vals.map (·.1), resultFlags live o.dst vals, [])
  | .gload ls | .sload _ ls =>
    if ls.all (fun l => l.got.isSome) then
      some (ls.filterMap (fun l => l.got.map (fun v => ⟨l.lane, v.val, v.tag⟩)), 0, (ls.flatMap (·.heads)).eraseDups)
    else none
  | .answered (some vals) f heads => some (vals, f, heads)
  | .locks [] _ vals heads => some (vals, 0, heads)
  | _ => none

/-- The wave with a completed operation gone: results written, its flag counted down, its flags set (R38, R53). -/
def completeOp (w : Wave) (o : LongOp) (vals : List LaneVal) (sticky : BitVec 9) (heads : List Head) : Wave :=
  let w1 := vals.foldl (fun w x => writeDone w o.dst o.wide x) w
  noteReads { w1 with ops := w1.ops.filter (fun x => !decide (x.id = o.id)), flags := flagSub w1.flags o.flag
                      wstat := w1.wstat ||| sticky } o.reads heads

/-- LONG_OP_COMPLETE (R38, R123, R193, R217): a load's last lanes take their values now; an acquire point
synchronises (R232). -/
def execLongOpComplete (n : Nat) (s : State) : Host.Outcome State Fault Refusal :=
  match ownerOf s n with
  | none => .refused (.notEnabled "LONG_OP_COMPLETE")
  | some (u, w, o0) =>
    let take (t : State) : LongOp := takeLanes t u (waveOf t u) o0 (fun l => !olderLoad w.ops o0 l.addr)
    let s0 := noteTaken (decoded (fun t =>
      modWave t u (fun w => { w with ops := w.ops.map (fun x => if x.id = n then take t else x) })) (servedLoad s w o0))
    let o := take s0
    match outcome w.live o with
    | some r =>
      if o.due ≤ s.now ∧ !seatStalled s w.core w.seat then
        let s1 := putWave s0 u (completeOp (waveOf s0 u) o r.1 r.2.1 r.2.2)
        let s2 := { s1 with arrivals := s1.arrivals ++ [{ at_ := s.now, wave := u, op := n, kind := o.kind }] }
        match o.acquire with
        | none => .next s2
        | some a =>
          let heads := r.2.2.map (fun h => (o.reads, h))
          let s3 := modOlds s2 u (fun w => w.ops.any (fun x => decide (x.id = n)))
            (acquired (gained s2 u a.1 a.2 heads) (missFlag s2 u a.1 a.2 heads))
          .next (acquireFrom s3 u a.1 a.2 heads)
      else .refused (.notEnabled "LONG_OP_COMPLETE")
    | none => .refused (.notEnabled "LONG_OP_COMPLETE")

end Sys2Proof.Machine
end

