-- ==== Sys2Proof/Machine/Spad.lean ====
section
/-! DEFINITION. Scratchpad instructions (R182 to R199): layout words, the checks of an access, loads, stores, locks and
atomics, and their performance at the banks. -/

namespace Sys2Proof.Machine

/-! ### Layout words (R188 to R190) -/

/-- The three registers of a layout word. -/
structure Layout where
  w0 : Nat
  w1 : Nat
  w2 : Nat
  deriving DecidableEq, Repr

/-- Dimensions, 1 to 3. -/
def layDims (y : Layout) : Nat := bits y.w0 31 30 + 1
/-- Element size in bytes. -/
def layEsize (y : Layout) : Nat := 2 ^ bits y.w0 29 28
/-- The permutation. -/
def layMode (y : Layout) : Nat := bits y.w0 27 24
/-- The offset of element 0. -/
def layBase (y : Layout) : Nat := bits y.w0 23 0
/-- The length of dimension 0. -/
def layExtent (y : Layout) : Nat := if bits y.w2 31 16 = 0 then 65536 else bits y.w2 31 16

/-- Whether a layout word breaks its rules (R189). Log entry 28 (DEDUCED). -/
def layoutBad (y : Layout) : Bool :=
  decide (6 ≤ layMode y) || decide (layDims y = 4) || (decide (layMode y ≠ 0) && decide (layBase y % 256 ≠ 0)) ||
  (decide (layMode y = 4) && decide (layEsize y = 8))

/-- The three base-4 digits of a unit reversed. -/
def rev4 (j : Nat) : Nat := j % 4 * 16 + j / 4 % 4 * 4 + j / 16 % 4

/-- The place of unit `j` in row `r` (R190). -/
def permute (mode c r j i1 : Nat) : Nat :=
  match mode with
  | 0 => j
  | 1 => Nat.xor j (r % c)
  | 2 => (revBits (Nat.log2 c) j + r) % c
  | 3 => (j + r) % c
  | 4 => (rev4 j + r) % 64
  | _ => (j + i1) % c

/-- The offset of an element (R190); the indices of unused dimensions count as 0. -/
def layoutOffset (y : Layout) (i0 i1 i2 : Nat) : Nat :=
  let j1 := if 2 ≤ layDims y then i1 else 0
  let j2 := if 3 ≤ layDims y then i2 else 0
  let e := i0 * bits y.w1 15 0 + j1 * bits y.w1 31 16 + j2 * bits y.w2 15 0
  let a := e * layEsize y
  let usz := Nat.max (layEsize y) 4
  let c := 256 / usz
  let n := a / usz
  let r := n / c
  layBase y + (r * c + permute (layMode y) c r (n % c) j1) * usz + a % usz

/-- The offset of a lane's natural index (R190). -/
def indexOffset (y : Layout) (n : Nat) : Nat :=
  let x := layExtent y
  match layDims y with
  | 1 => layoutOffset y n 0 0
  | 2 => layoutOffset y (n % x) (n / x) 0
  | _ => layoutOffset y (n % x) (n / x % 65536) (n / (x * 65536))

/-- The layout word in uniform registers from `k` on. -/
def layoutAt (w : Wave) (k : Nat) : Layout :=
  { w0 := (sReg w k).val.toNat, w1 := (sReg w (k + 1)).val.toNat, w2 := (sReg w (k + 2)).val.toNat }

/-- The first register of a layout operand. -/
def layoutReg : Operand → Nat
  | .s k => k
  | _ => 0

/-! ### The checks of an access (R193) -/

/-- The width of an access in bytes. -/
def accessWidth (m : BitVec 24) : Nat := if wideI (itype m) then 8 else 4

/-- The cycles a scratchpad access occupies pipe M (R183, R185). -/
def bankCycles (s : State) (core base : Nat) (ls : List (Nat × Nat)) (width : Nat) : Nat :=
  let count (l : List (Nat × Nat)) : Nat :=
    let words := (l.map (fun x => (base + x.2) / width)).eraseDups
    (List.range 64).foldl (fun m b => Nat.max m (words.filter (fun x => decide (x * width / 4 % 64 = b))).length) 1
  let n := if width = 4 then count ls
    else count (ls.filter (fun x => decide (x.1 < 32))) + count (ls.filter (fun x => decide (32 ≤ x.1)))
  let failed := match (coreOf s core).failed with
    | some f => ls.any (fun x => (List.range (width / 4)).any (fun j => decide (((base + x.2) / 4 + j) % 64 = f)))
    | none => false
  if failed then n + 1 else n

/-- The state with pipe M of the wave's seat occupied for `n` cycles. -/
def occupyM (s : State) (c : Ctx) (n : Nat) : State :=
  modCore s c.old.core (fun x =>
    let seat := seatAt x c.old.seat
    setSeat x c.old.seat { seat with free := nthSet 0 (s.now + n) seat.free 3 })

/-- The lanes of ACTIVE with their offsets. -/
def laneOffsets (c : Ctx) (off : Nat → Nat) : List (Nat × Nat) := (lanesOf c.act).map (fun l => (l, off l))

/-- The checks 2 and 3 of R193, then `k` with the lanes and offsets; the watchpoints are tested and pipe M is charged by
the banks met. -/
def spadChecked (s : State) (c : Ctx) (off : Ctx → Nat → Nat) (wr rd : Bool)
    (k : State → Ctx → List (Nat × Nat) → State) : State :=
  let width := accessWidth c.sp.mode
  let b := blockOf s (c.w.block.getD 0)
  let ls := laneOffsets c (off c)
  if ls.isEmpty then finishNop s c
  else
    match ls.find? (fun x => decide (x.2 % width ≠ 0)) with
    | some x => trapAt s c .spadAlign (BitVec.ofNat 32 x.1)
    | none =>
      match ls.find? (fun x => decide (b.spadLen < x.2 + width)) with
      | some x => trapAt s c .spadRange (BitVec.ofNat 32 x.1)
      | none =>
        let hit := watchHit s c.w ls width true wr rd
        afterAccess (occupyM (k s c ls) c (bankCycles s c.w.core b.spadBase ls width)) c hit

/-- An access by offset: LOOSE_WAVE, the consumption of the addresses, the checks (R86, R193). -/
def spadAccess (s : State) (c : Ctx) (a : Operand) (wr rd : Bool) (k : State → Ctx → List (Nat × Nat) → State) : State :=
  attached s c (fun _ =>
    consumeThen s c c.act (fun l => [(read32 c a l).tag]) (decide (rank a = 0)) (fun s1 c =>
      spadChecked s1 c (fun c l => (read32 c a l).val.toNat) wr rd k))

/-- An access through a layout word: each lane consumes the layout registers with its index (R193); a word that breaks
R189 traps. Log entry 28 (DEDUCED). -/
def layoutAccess (s : State) (c : Ctx) (y n : Operand) (wr rd : Bool) (k : State → Ctx → List (Nat × Nat) → State) :
    State :=
  attached s c (fun _ =>
    let r := layoutReg y
    let tags (l : Nat) := [tagU c (.s r) false, tagU c (.s (r + 1)) false, tagU c (.s (r + 2)) false, (read32 c n l).tag]
    consumeThen s c c.act tags (decide (rank n = 0)) (fun s1 c =>
      let lay := layoutAt c.w r
      if c.act = 0 then finishNop s1 c
      else if layoutBad lay then trapAt s1 c .illegalField (sReg c.w r).val
      else spadChecked s1 c (fun c l => indexOffset lay (read32 c n l).val.toNat) wr rd k))

/-! ### Issue -/

/-- The head of a long operation of an instruction; `kind`, classes and acquire are the instruction's. -/
def longOp (s : State) (c : Ctx) (d : Operand) (kind : OpKind) (reads : Nat) (acq : Option (Nat × Nat)) : LongOp :=
  { id := s.nextId, flag := flagOf c.sp c.i, dests := destRegs c, dst := dstOf c d
    wide := decide (accessWidth c.sp.mode = 8), reads := reads, acquire := acq
    due := s.now + 1 + Config.longLatency s.nextId, kind := kind }

/-- The lanes of a load with the cycles at which they take their values (R226). -/
def loadLanes (s : State) (ls : List (Nat × Nat)) : List LoadLane :=
  ls.map (fun x => { lane := x.1, addr := x.2, moment := s.now + Config.loadMoment s.nextId x.1 })

/-- Starts a scratchpad load (R195). -/
def startSpadLoad (d : Operand) (s : State) (c : Ctx) (ls : List (Nat × Nat)) : State :=
  let o := longOp s c d (.sload (c.w.block.getD 0) (loadLanes s ls)) (spadClass s c.w) none
  finish { s with nextId := s.nextId + 1 } c (addOp c.w o) 0 []

/-- The lanes of a store with their data. -/
def storeLanes (c : Ctx) (b : Operand) (ls : List (Nat × Nat)) : List StoreLane :=
  ls.map (fun x => let v := readI c b x.1; { lane := x.1, addr := x.2, val := v.val, tag := v.tag })

/-- Holds a scratchpad store (R194). -/
def startSpadStore (b : Operand) (s : State) (c : Ctx) (ls : List (Nat × Nat)) : State :=
  finishNop (hold s c.uid (.sstore (accessWidth c.sp.mode) (storeLanes c b ls)) none).2 c

/-- `lds` (R195). -/
def execLds (d a : Operand) (s : State) : Host.Outcome State Fault Refusal :=
  run (.lds d a) s (fun s1 c => spadAccess s1 c a false true (startSpadLoad d))
/-- `sts` (R195). -/
def execSts (a b : Operand) (s : State) : Host.Outcome State Fault Refusal :=
  run (.sts a b) s (fun s1 c => spadAccess s1 c a true false (startSpadStore b))
/-- `ldsl` (R195). -/
def execLdsl (d a b : Operand) (s : State) : Host.Outcome State Fault Refusal :=
  run (.ldsl d a b) s (fun s1 c => layoutAccess s1 c a b false true (startSpadLoad d))
/-- `stsl` (R195): the data is D's. -/
def execStsl (d a b : Operand) (s : State) : Host.Outcome State Fault Refusal :=
  run (.stsl d a b) s (fun s1 c => layoutAccess s1 c a b true false (startSpadStore d))

/-- Holds an effect that a long operation waits for, and starts the operation. -/
def startHeld (s : State) (c : Ctx) (d : Operand) (kind : OpKind) (reads : Nat) (acq : Option (Nat × Nat))
    (eff : Effect) : State :=
  let o := longOp s c d kind reads acq
  let r := hold { s with nextId := s.nextId + 1 } c.uid eff (some o.id)
  finish r.2 c (addOp c.w o) 0 []

/-- `ldlk` (R196). -/
def execLdlk (d a : Operand) (s : State) : Host.Outcome State Fault Refusal :=
  run (.ldlk d a) s (fun s1 c => spadAccess s1 c a false true (fun s2 c ls =>
    startHeld s2 c d (.locks ls [] [] []) (spadClass s2 c.w) none (.ldlk (accessWidth c.sp.mode) ls)))
/-- `stul` (R198). -/
def execStul (d a b : Operand) (s : State) : Host.Outcome State Fault Refusal :=
  run (.stul d a b) s (fun s1 c => spadAccess s1 c a true false (fun s2 c ls =>
    startHeld s2 c d (.answered none 0 []) 0 none (.stul (accessWidth c.sp.mode) (storeLanes c b ls))))

/-- The lanes of an atomic; the third source of a compare-and-swap is D, `z` reading 0. -/
def atomLanes (c : Ctx) (d b : Operand) (cas : Bool) (ls : List (Nat × Nat)) : List AtomLane :=
  ls.map (fun x => { lane := x.1, addr := x.2, b := readI c b x.1, c := if cas then readI c d x.1 else {} })

/-- The lanes an atomic is performed for (R199, R219): each lane of ACTIVE, but the lowest alone where its destination is
a uniform register, which has one result (R101). Log entry 27 (DEDUCED). -/
def atomOnce (d : Operand) (ls : List (Nat × Nat)) : List (Nat × Nat) :=
  match d with
  | .s _ => ls.take 1
  | _ => ls

/-- The release or acquire of an atomic whose location's class is in its set (R225). -/
def pointOf (x : Option (Nat × Nat)) (cls : Nat) : Option Release :=
  x.bind (fun p => if p.2 &&& cls = 0 then none else some { scope := p.1, set := p.2 })

/-- Whether an atomic drops its ordering effect because its class is not in its set (R225). -/
def dropsOrder (sp : Split) (i : Instr) (cls : Nat) : Bool :=
  ((releaseOf sp i).isSome || (acquireOf sp i).isSome) && decide (storageSet sp.omode &&& cls = 0)

/-- An atomic without a result (R39, R232): short; as an acquire point it bars pipes M and Q until performed. -/
def heldAtomic (s : State) (c : Ctx) (acq : Option Release) (eff : Effect) : State :=
  let r := hold s c.uid eff none
  let w := match acq with
    | some p => { c.w with fences := c.w.fences ++ [{ waitHeld := [r.1], set := p.set, scope := p.scope, blocksM := true }] }
    | none => c.w
  finish r.2 c w 0 []

/-- Starts a scratchpad atomic (R199). Log entry 27 (DEDUCED). -/
def startSatomic (op : AtomOp) (d b : Operand) (s : State) (c : Ctx) (ls : List (Nat × Nat)) : State :=
  let cls := spadClass s c.w
  let acq := pointOf (acquireOf c.sp c.i) cls
  let eff := Effect.satomic (accessWidth c.sp.mode) op (atomLanes c d b (op = .cas) (atomOnce d ls)) (pointOf (releaseOf c.sp c.i) cls) acq
    (dropsOrder c.sp c.i cls)
  if d = .z then heldAtomic s c acq eff
  else startHeld s c d (.answered none 0 []) cls (acq.map (fun p => (p.scope, p.set))) eff

/-- The add of an atomic under the mode. -/
def atomAdd (c : Ctx) : AtomOp := .add (satOn c.sp.mode) (isSigned (itype c.sp.mode))

/-- `sadd` (R199). -/
def execSadd (d a b : Operand) (s : State) : Host.Outcome State Fault Refusal :=
  run (.sadd d a b) s (fun s1 c => spadAccess s1 c a true true (fun s2 c ls => startSatomic (atomAdd c) d b s2 c ls))
/-- `smin` (R199). -/
def execSmin (d a b : Operand) (s : State) : Host.Outcome State Fault Refusal :=
  run (.smin d a b) s (fun s1 c => spadAccess s1 c a true true (fun s2 c ls =>
    startSatomic (.min (isSigned (itype c.sp.mode))) d b s2 c ls))
/-- `smax` (R199). -/
def execSmax (d a b : Operand) (s : State) : Host.Outcome State Fault Refusal :=
  run (.smax d a b) s (fun s1 c => spadAccess s1 c a true true (fun s2 c ls =>
    startSatomic (.max (isSigned (itype c.sp.mode))) d b s2 c ls))
/-- `sxchg` (R199). -/
def execSxchg (d a b : Operand) (s : State) : Host.Outcome State Fault Refusal :=
  run (.sxchg d a b) s (fun s1 c => spadAccess s1 c a true true (startSatomic .xchg d b))
/-- `scas` (R199). -/
def execScas (d a b : Operand) (s : State) : Host.Outcome State Fault Refusal :=
  run (.scas d a b) s (fun s1 c => spadAccess s1 c a true true (startSatomic .cas d b))
/-- `sand` (R199). -/
def execSand (d a b : Operand) (s : State) : Host.Outcome State Fault Refusal :=
  run (.sand d a b) s (fun s1 c => spadAccess s1 c a true true (startSatomic .and d b))
/-- `sor` (R199). -/
def execSor (d a b : Operand) (s : State) : Host.Outcome State Fault Refusal :=
  run (.sor d a b) s (fun s1 c => spadAccess s1 c a true true (startSatomic .or d b))

/-! ### Performance at the banks -/

/-- The bytes of store lanes in ascending lane order. -/
def laneBytes (width : Nat) (ls : List StoreLane) : List (Nat × Byte) :=
  ls.flatMap (fun l => addrBytes l.addr (toBytes width l.val.toNat))

/-- The tags that lanes write into a granule, as their partition sees them. -/
def granTags (see : Tag → Tag) (ls : List StoreLane) (g : Nat) : List Tag :=
  (ls.filter (fun l => decide (l.addr / 32 = g))).map (fun l => see l.tag)

/-- The `Merge` of the data that lanes write into a granule. -/
def laneTags (see : Tag → Tag) (ls : List StoreLane) (g : Nat) : Tag := mergeTags (granTags see ls g)

/-- The absorptions of the tags that lanes write into each granule (R300). -/
def lanePairs (see : Tag → Tag) (ls : List StoreLane) : List (Nat × Nat) :=
  ((ls.map (fun l => l.addr / 32)).eraseDups).flatMap (fun g => absorptions (granTags see ls g))

/-- The partition of a block. -/
def partOfBlock (s : State) (k : Nat) : Nat := (gridOf s (blockOf s k).grid).part

/-- Writes bytes of one granule of a block's scratchpad (R187, R300, R301). -/
def spadGranule (s : State) (k g : Nat) (bytes : List (Nat × Byte)) (tag : Tag) : State :=
  let b := blockOf s k
  let m := granMerge (seeTag s.tags (partOfBlock s k) (tagAt b.spadTags g)) tag (coversGranule g bytes)
  { modBlock s k (fun b => { b with spad := memWrite b.spad bytes, spadTags := tagSet b.spadTags g m.1 }) with
    tags := journal (absorb s.tags m.2) m.1 1 k g }

/-- The release sequences of some written bytes (R236). -/
def headsPut (m : Map (List Head)) (bytes : List (Nat × Byte)) (own : List Head) (wave : Option Nat) (rmw : Bool) :
    Map (List Head) :=
  bytes.foldl (fun m x =>
    let l := headsAfter (mgetD m x.1 []) own wave rmw
    if l.isEmpty then mdel m x.1 else mset m x.1 l) m

/-- The release sequences a wave's scratchpad write heads: its release's, and its release fences' (R235). -/
def spadHeadsOf (s : State) (u : Nat) (rel : Option Release) : List Head :=
  let w := waveOf s u
  ownHeads w u rel (spadClass s w) (releaseClock w w.clock rel)

/-- Writes bytes of a block's scratchpad, each granule with the tag of the data written into it; the rest of a row is read
first, and its check words are then those of the data (R184). The bytes belong to the release sequences the write heads
and to those of the same wave it continues (R236). -/
def spadPut (s : State) (k : Nat) (bytes : List (Nat × Byte)) (tagOf : Nat → Tag) (wave : Option Nat) (own : List Head) :
    State :=
  let s0 := readRows s k (bytes.map (·.1))
  let s1 := (byGranule bytes).foldl (fun t g => spadGranule t k g.1 g.2 (tagOf g.1)) s0
  modBlock s1 k (fun b => { b with spadHeads := headsPut b.spadHeads bytes own wave false })

/-- Whether a scratchpad write may be performed now: no journal would start a 257th run (R301). -/
def spadMay (s : State) (k : Nat) (bytes : List (Nat × Byte)) (tagOf : Nat → Tag) : Bool :=
  mayJournal s.tags ((byGranule bytes).map (fun g =>
    (1, k, g.1, (granMerge (seeTag s.tags (partOfBlock s k) (tagAt (blockOf s k).spadTags g.1)) (tagOf g.1)
      (coversGranule g.1 g.2)).1)))

/-- The new value of an atomic and the flag it raises (R199, R219): values of `width` bytes. -/
def atomApply (width : Nat) (op : AtomOp) (old b c : Nat) : Nat × Sticky :=
  let n := 8 * width
  let x := old % 2 ^ n
  let y := b % 2 ^ n
  match op with
  | .add sat sg => narrowInt sat sg n (intOf sg n x + intOf sg n y)
  | .min sg => (if intOf sg n y < intOf sg n x then y else x, 0)
  | .max sg => (if intOf sg n x < intOf sg n y then y else x, 0)
  | .xchg => (y, 0)
  | .cas => (if x = c % 2 ^ n then y else x, 0)
  | .and => (Nat.land x y, 0)
  | .or => (Nat.lor x y, 0)

/-- The answer of a long operation arrives. -/
def answerOp (s : State) (u : Nat) (op : Option Nat) (vals : List LaneVal) (sticky : Sticky) (heads : List Head) : State :=
  match op with
  | some n => modWave s u (fun w => { w with ops := w.ops.map (fun o =>
      if o.id = n then { o with kind := .answered (some vals) sticky heads } else o) })
  | none => modWave s u (fun w => { w with wstat := w.wstat ||| sticky })

/-- One lane of a scratchpad atomic (R199). -/
def spadAtomLane (k width : Nat) (op : AtomOp) (own : List Head) (x : State × List LaneVal × Sticky × List Head)
    (l : AtomLane) : State × List LaneVal × Sticky × List Head :=
  let s := readRows x.1 k [l.addr]
  let b := blockOf s k
  let g := l.addr / 32
  let old := ofBytes (memRead b.spad l.addr width)
  let see := seeTag s.tags (partOfBlock s k)
  let t := see (tagAt b.spadTags g)
  let r := atomApply width op old l.b.val.toNat l.c.val.toNat
  let ts := [t, see l.b.tag] ++ (if op = .cas then [see l.c.tag] else [])
  let nt := mergeTags ts
  let bytes := addrBytes l.addr (toBytes width r.1)
  let heads := mgetD b.spadHeads l.addr []
  let s1 := modBlock s k (fun b => { b with
    spad := memWrite b.spad bytes, spadTags := tagSet b.spadTags g nt
    spadHeads := headsPut b.spadHeads bytes own none true })
  ({ s1 with tags := journal (absorb s1.tags (absorptions ts)) nt 1 k g },
    x.2.1 ++ [⟨l.lane, BitVec.ofNat 64 old, t⟩], x.2.2.1 ||| r.2, (x.2.2.2 ++ heads).eraseDups)

/-- What an atomic's performance does to its wave: `scope_miss` where its class is not in its storage set, its answer, and
for one without a result its acquire (R225, R232); a rollback keeps them. -/
def atomDone (s : State) (h : Held) (cls : Nat) (acq : Option Release) (miss : Bool) (vals : List LaneVal) (sticky : Sticky)
    (heads : List Head) : State :=
  let flag (w : Wave) : Wave := { w with wstat := w.wstat ||| when miss fMISS }
  let s0 := modOlds (modWave s h.wave flag) h.wave (fun _ => true) flag
  match h.op with
  | some n => answerOp s0 h.wave (some n) vals sticky heads
  | none =>
    let s1 := modOlds (modWave (answerOp s0 h.wave none vals sticky heads) h.wave (fun w => noteReads w cls heads)) h.wave
      (fun _ => true) (fun w => noteReads { w with wstat := w.wstat ||| sticky } cls heads)
    match acq with
    | some p =>
      let read := heads.map (fun x => (cls, x))
      acquireFrom (modOlds s1 h.wave (fun _ => true)
        (acquired (gained s1 h.wave p.scope p.set read) (missFlag s1 h.wave p.scope p.set read))) h.wave p.scope p.set read
    | none => s1


/-- SPAD_ATOMIC_PERFORM (R199). -/
def execSpadAtomicPerform (n : Nat) (s : State) : Host.Outcome State Fault Refusal :=
  perform s n "SPAD_ATOMIC_PERFORM" (fun s1 h =>
    match h.eff with
    | .satomic width op ls rel acq miss =>
      let k := h.block.getD 0
      let may := ls.all (fun l => spadMay s1 k (addrBytes l.addr (toBytes width 0))
        (fun _ => mergeTags ([l.b.tag] ++ if op = .cas then [l.c.tag] else [])))
      if may && bankFree s1 h then
        let s2 := captureBefore s1 h.wave h.id true (fun _ => true)
        let r := ls.foldl (spadAtomLane k width op (spadHeadsOf s2 h.wave rel)) (s2, [], 0, [])
        some (atomDone r.1 h (spadClass s2 (waveOf s2 h.wave)) acq miss r.2.1 r.2.2.1 r.2.2.2)
      else none
    | _ => none)

/-! ### Locks (R196 to R198) -/

/-- The lock bit of an offset of a block: 16 × bank + hash (R196). -/
def lockBit (b : Block) (off width : Nat) : Nat :=
  let o := b.spadBase + off
  let bank := o / 4 % 64
  let r := o / 256
  let h := Nat.xor (Nat.xor (bits r 3 0) (bits r 7 4)) (Nat.xor (bits r 11 8) (bits r 14 12))
  16 * (if width = 8 then bank / 2 * 2 else bank) + h

/-- One lane reads its word and is done. -/
def lockRead (s : State) (u n k width lane off : Nat) (takes : Option Nat) : State :=
  let s1 := readRows s k [off]
  let b := blockOf s1 k
  let r := bytesRead (seeTag s1.tags (partOfBlock s1 k)) ((List.range width).map (fun j =>
    (memGet b.spad (off + j), tagAt b.spadTags ((off + j) / 32), mgetD b.spadHeads (off + j) [])))
  modWave s1 u (fun w => { w with ops := w.ops.map (fun o =>
    if o.id = n then
      match o.kind with
      | .locks todo taken vals heads =>
        let left := todo.filter (fun x => !decide (x.1 = lane))
        { o with kind := .locks left (takes.toList ++ taken) (vals ++ [⟨lane, r.1.val, r.1.tag⟩]) (heads ++ r.2).eraseDups }
      | _ => o
    else o) })

/-- The lock bits a request has taken. -/
def takenBy (w : Wave) (n : Nat) : List Nat :=
  match w.ops.find? (fun o => decide (o.id = n)) with
  | some o => (match o.kind with
    | .locks _ taken _ _ => taken
    | _ => [])
  | none => []

/-- The lanes of a request in ascending order, until one waits (R196). Log entry 40 (DEDUCED). -/
def lockGo (u n k width : Nat) : List (Nat × Nat) → State → State
  | [], s => s
  | (lane, off) :: r, s =>
    let b := blockOf s k
    let w := waveOf s u
    let bit := lockBit b off width
    let x := mgetD (coreOf s b.core).locks bit {}
    let excluded := (takenBy w n).contains bit || !inMask w.live lane || x.owner.any (fun o => decide (o.1 = u))
    if excluded then lockGo u n k width r (lockRead s u n k width lane off none)
    else if x.owner.isSome ∨ !x.waiting.isEmpty then
      modCore s b.core (fun c => { c with locks := mset c.locks bit { x with waiting := x.waiting ++ [(u, n, lane)] } })
    else
      let s1 := modCore s b.core (fun c => { c with locks := mset c.locks bit { owner := some (u, lane), at_ := s.now } })
      lockGo u n k width r (lockRead s1 u n k width lane off (some bit))

/-- The lanes a request has still to serve. -/
def lockTodo (w : Wave) (n : Nat) : List (Nat × Nat) :=
  match w.ops.find? (fun o => decide (o.id = n)) with
  | some o => (match o.kind with
    | .locks todo _ _ _ => todo
    | _ => [])
  | none => []

/-- LDLK_PERFORM (R196). Log entry 40 (DEDUCED). -/
def execLdlkPerform (n : Nat) (s : State) : Host.Outcome State Fault Refusal :=
  perform s n "LDLK_PERFORM" (fun s1 h =>
    match h.eff, h.op with
    | .ldlk width ls, some o =>
      if bankFree s1 h then
        some (lockGo h.wave o (h.block.getD 0) width ls (captureBefore s1 h.wave o true (fun _ => true)))
      else none
    | _, _ => none)

/-- LOCK_WAIT_GRANT (R196): the first waiting request takes a freed bit and goes on. -/
def execLockWaitGrant (c bit : Nat) (s : State) : Host.Outcome State Fault Refusal :=
  let x := mgetD (coreOf s c).locks bit {}
  match x.owner, x.waiting with
  | none, (u, n, lane) :: rest =>
    let w := waveOf s u
    let k := w.block.getD 0
    let width := match w.ops.find? (fun o => decide (o.id = n)) with
      | some o => if o.wide then 8 else 4
      | none => 4
    let todo := lockTodo w n
    match todo with
    | [] => .next (modCore s c (fun y => clearLock { y with locks := mset y.locks bit { x with waiting := rest } } bit))
    | (_, off) :: more =>
      if inMask w.live lane then
        let s1 := modCore s c (fun y => { y with locks := mset y.locks bit { owner := some (u, lane), at_ := s.now, waiting := rest } })
        .next (lockGo u n k width more (lockRead s1 u n k width lane off (some bit)))
      else
        let s1 := modCore s c (fun y => clearLock { y with locks := mset y.locks bit { x with waiting := rest } } bit)
        .next (lockGo u n k width more (lockRead s1 u n k width lane off none))
  | _, _ => .refused (.notEnabled "LOCK_WAIT_GRANT")

/-- LOCK_EXPIRY (R197): a lock bit is cleared 4,096 cycles after it was set. -/
def execLockExpiry (c bit : Nat) (s : State) : Host.Outcome State Fault Refusal :=
  match mget (coreOf s c).locks bit with
  | some x =>
    if x.owner.isSome ∧ x.at_ + Config.lockLapse ≤ s.now then .next (modCore s c (fun y => clearLock y bit))
    else .refused (.notEnabled "LOCK_EXPIRY")
  | none => .refused (.notEnabled "LOCK_EXPIRY")

/-- One lane of `stul` (R198). Log entry 102 (DEDUCED). -/
def stulLane (u k width : Nat) (x : State × List LaneVal) (l : StoreLane) : State × List LaneVal :=
  let s := x.1
  let b := blockOf s k
  let bit := lockBit b l.addr width
  if (mgetD (coreOf s b.core).locks bit {}).owner = some (u, l.lane) then
    let s1 := spadPut s k (addrBytes l.addr (toBytes width l.val.toNat)) (fun _ => seeTag s.tags (partOfBlock s k) l.tag)
      (some u) (spadHeadsOf s u none)
    (modCore s1 b.core (fun c => clearLock c bit), x.2 ++ [⟨l.lane, 1, .clean⟩])
  else (s, x.2 ++ [⟨l.lane, 0, .clean⟩])

/-- STUL_PERFORM (R198). -/
def execStulPerform (n : Nat) (s : State) : Host.Outcome State Fault Refusal :=
  perform s n "STUL_PERFORM" (fun s1 h =>
    match h.eff with
    | .stul width ls =>
      let k := h.block.getD 0
      if spadMay s1 k (laneBytes width ls) (laneTags (seeTag s1.tags (partOfBlock s1 k)) ls) && bankFree s1 h then
        let s2 := captureBefore s1 h.wave h.id true (fun _ => true)
        let r := ls.foldl (stulLane h.wave k width) (s2, [])
        some (answerOp r.1 h.wave h.op r.2 0 [])
      else none
    | _ => none)

/-- SPAD_SCRUB (R185): the background scrub reads a row; only single errors are corrected.
Log entry 74 (DESIGN CHOICE). -/
def execSpadScrub (c r : Nat) (s : State) : Host.Outcome State Fault Refusal :=
  match rowOwner s c r with
  | some k => .next (readRowFor true s k r)
  | none => .next s

end Sys2Proof.Machine
end

