-- ==== Sys2Proof/Machine/TrumpTable.lean ====
section
/-! DEFINITION. The Trump table (R292, R294): withdrawal of entries (R306), the resolution of tags (R304, R305), their
events and records (R310, R375), and the lines a write touches (R146, R306). -/

namespace Sys2Proof.Machine

/-- A Trump event of a die (R310, R367): what happened (0 nomination, 1 installation, 2 promotion, 3 withdrawal, 4
settlement, 5 condemnation), the entry, its region, the cause or tag. Log entry 63 (DEDUCED). -/
def trumpEvent (s : State) (die what entry region more : Nat) : State :=
  match partOfDie s die with
  | some p => postEvent s p { src := die, seq := 0, time := 0, cause := .kind 0, addr := region, detail := entry
                              extra := [what, more % 256, more / 256] }
  | none => s

/-- An entry of a die's table. -/
def entryOf (s : State) (die x : Nat) : TrumpEntry := nth (dieOf s die).trump x {}

/-- The state with an entry changed. -/
def modEntry (s : State) (die x : Nat) (f : TrumpEntry → TrumpEntry) : State :=
  modDie s die (fun d => { d with trump := nthSet {} (f (nth d.trump x {})) d.trump x })

/-- A counter of 32 bits that saturates. -/
def satUp (x n : Nat) : Nat := Nat.min (2 ^ 32 - 1) (x + n)

/-- A withdrawn entry without unresolved tags becomes free; only its state changes (R294, R374). -/
def freeEntryIf (s : State) (die x : Nat) : State :=
  let e := entryOf s die x
  if e.state = .withdrawn ∧ e.unresolved = 0 then modEntry s die x (fun e => { e with state := .free }) else s

/-- Tags that absorbed one of a set, unresolved ones only. -/
def absorbers (s : State) (l : List Nat) : List Nat :=
  (s.tags.filter (fun t => t.2.resolved.isNone && !l.contains t.1 && t.2.absorbed.any (fun a => l.contains a))).map (·.1)

/-- A set of tags with everything that absorbed one of them, directly or not (R305). -/
def absorbClosure (s : State) : Nat → List Nat → List Nat
  | 0, l => l
  | n + 1, l =>
    let m := absorbers s l
    if m.isEmpty then l else absorbClosure s n (l ++ m)

/-- Condemns one tag (R305): its resolution is posted and its record written. -/
def condemnOne (s : State) (t : Nat) : State :=
  match mget s.tags t with
  | none => s
  | some r =>
    if r.resolved.isSome then s
    else
      let e := entryOf s r.die r.entry
      let s1 := { s with tags := mset s.tags t { r with resolved := some .condemned, due := s.now + Config.scrubDelay t } }
      let s2 := modPart s1 r.part (fun p => { p with trcond := satUp p.trcond 1 })
      let s3 := postEvent s2 r.part { src := r.die, seq := 0, time := 0, cause := .trumpCondemned, severity := 2
                                      tag := .poison (BitVec.ofNat 12 t), addr := e.region, detail := r.entry
                                      core := some (64 * r.die + 63)
                                      extra := (toBytes 8 (mgetD (partOf s2 r.part).seqs r.die 0)).map (·.toNat) }
      trumpEvent s3 r.die 5 r.entry e.region t

/-- Condemns tags and all that absorbed them. -/
def condemnAll (s : State) (l : List Nat) : State := pumpPorts ((absorbClosure s 512 l).foldl condemnOne s)

/-- The unresolved tags of an entry. -/
def tagsOfEntry (s : State) (die x : Nat) : List Nat :=
  (s.tags.filter (fun t => decide (t.2.die = die ∧ t.2.entry = x) && t.2.resolved.isNone)).map (·.1)

/-- Withdraws an entry in probation or promoted (R306) for cause 1 probation mismatch, 2 failed audit, 3 signature or
hash mismatch, 4 a write to its lines, 5 the machinery disabled. -/
def withdrawEntry (s : State) (die x cause : Nat) : State :=
  let e := entryOf s die x
  if e.state = .probation ∨ e.state = .promoted then
    let s1 := modEntry s die x (fun e => { e with state := .withdrawn, at_ := s.now })
    let s2 := if cause ≤ 2 then modDie s1 die (fun d => { d with barred := (e.region, e.lines) :: d.barred }) else s1
    let s3 := match partOfDie s die with
      | some p => modPart s2 p (fun y => { y with trwd := satUp y.trwd 1 })
      | none => s2
    let s4 := trumpEvent s3 die 3 x e.region cause
    let s5 := if cause = 2 ∨ cause = 3 then condemnAll s4 (tagsOfEntry s4 die x) else s4
    freeEntryIf s5 die x
  else s

/-- Settles a tag whose audit has passed and whose absorbed tags are all free after their settlement (R304). -/
def settleTag (s : State) (t : Nat) : State :=
  match mget s.tags t with
  | some r =>
    if r.passed && r.resolved.isNone && r.absorbed.isEmpty then
      let s1 := { s with tags := mset s.tags t { r with resolved := some .settled, due := s.now + Config.scrubDelay t } }
      pumpPorts (trumpEvent s1 r.die 4 r.entry (entryOf s r.die r.entry).region t)
    else s
  | none => s

/-- Unresolved tags that have absorbed a condemned tag are condemned with it, whenever they absorbed it (R300, R305). -/
def condemnAbsorbers (s : State) : State :=
  let bad := (s.tags.filter (fun t => decide (t.2.resolved = some .condemned))).map (·.1)
  match absorbers s bad with
  | [] => s
  | l => condemnAll s l

/-- Condemns every tag that has absorbed a condemned one, and settles every tag that may be. -/
def settleReady (s : State) : State :=
  let s1 := condemnAbsorbers s
  (s1.tags.map (·.1)).foldl settleTag s1

/-- A resolved tag is freed: it is no longer in any absorption set (R304, R305). -/
def freeTagOf (s : State) (t : Nat) : State :=
  { s with tags := (mdel s.tags t).map (fun x => (x.1, { x.2 with absorbed := x.2.absorbed.filter (fun n => decide (n ≠ t)) })) }

/-- The 64 bytes of an entry's record (R292). -/
def entryRecord (e : TrumpEntry) : List Byte :=
  let state := match e.state with
    | .free => 0
    | .candidate => 1
    | .probation => 2
    | .promoted => 3
    | .withdrawn => 4
  let codes (l : List Byte) : List Byte := (List.range 8).map (fun k => nth l k 0x78)
  toBytes 1 (8 * e.cls + state) ++ toBytes 1 (64 * e.guards.length + e.original.length) ++ toBytes 1 e.candidate.length ++
  toBytes 1 (16 * e.liveOuts.length + e.liveIns.length) ++ toBytes 8 e.region ++ toBytes 4 e.origHash.toNat ++
  toBytes 4 e.candSig.toNat ++ toBytes 3 e.mode.toNat ++ [e.omode] ++
  (List.range 2).map (fun k => (e.guards[k]?).elim 0x78 (fun g => BitVec.ofNat 8 (0x40 + g.1))) ++ toBytes 2 0 ++
  (List.range 2).flatMap (fun k => toBytes 4 ((e.guards[k]?).elim 0 (fun g => g.2.toNat))) ++
  (List.range 8).map (fun k => nth e.classSet k 0) ++ codes e.liveIns ++ codes e.liveOuts ++
  toBytes 2 e.agreeing ++ toBytes 2 e.unresolved

/-- What the control pair reads through a die's management port: the record of an entry of its table (R292). Waves have
no such read. -/
def managementRead (s : State) (die x : Nat) : List Byte := entryRecord (entryOf s die x)

/-- Whether some line a region covers is among written lines (R146). -/
def lineMeets (mine lines : List Nat) : Bool := mine.any lines.contains

/-- A write of bytes at physical addresses withdraws the entries whose lines it touches and lifts bars on them
(R289, R306). -/
def codeWritten (s : State) (part : Nat) (bytes : List (Nat × Byte)) : State :=
  let lines := (bytes.map (fun x => x.1 / 64)).eraseDups
  (diesOf s part).foldl (fun t d =>
    let hit := (List.range (dieOf t d).trump.length).filter (fun x =>
      lineMeets (entryOf t d x).lines lines)
    let t1 := hit.foldl (fun t x => withdrawEntry t d x 4) t
    if (dieOf t1 d).barred.isEmpty then t1
    else modDie t1 d (fun y => { y with barred := y.barred.filter (fun b => !lineMeets b.2 lines) })) s

end Sys2Proof.Machine
end

