-- ==== Sys2Proof/Machine/Global.lean ====
section
/-! DEFINITION. Global memory instructions (R210, R216 to R222): loads, stores, atomics, `pref`, `pkset`, `wseq`; fences
(R234); the release of held writes (R226), their application at home and in the other views (R227, R238), and the
performance of atomics (R219). -/

namespace Sys2Proof.Machine

/-! ### The checks of an access (R210) -/

/-- A failed check: steps 3 and 4 end the block, the others trap with the lane; step 4 over a malformed entry also
writes a record (R201). Log entry 25 (DESIGN CHOICE). -/
def checkFailed (s : State) (c : Ctx) (f : CheckFail) : State :=
  if f.ends then
    let s1 := charge s c
    stopWave (if f.malformed then noteMalformed s1 c.uid f.addr else s1) c.uid f.cause f.addr (Config.openDetail f.cause.code).toNat
  else trapAt s c f.cause (BitVec.ofNat 32 f.lane)

/-- A global access: its addresses are consumed, checked and translated (R207, R210); `k` is given the lanes with their
physical addresses. -/
def globalAccess (s : State) (c : Ctx) (a : Operand) (kind : Access) (k : State → Ctx → List (Nat × Nat) → State) : State :=
  consumeThen s c c.act (fun l => [(readPair c a l).tag]) (decide (rank a = 0)) (fun s1 c =>
    let width := accessWidth c.sp.mode
    let g := agentOf c.w
    let vas := laneOffsets c (fun l => (readPair c a l).val.toNat)
    if vas.isEmpty then finishNop s1 c
    else
      match checkLanes s1 g kind width vas with
      | some f => checkFailed s1 c f
      | none =>
        let pas := vas.map (fun x => (x.1, paOf s1 g x.2))
        let hit := watchHit s1 c.w vas width false (decide (kind ≠ .load)) (decide (kind ≠ .store))
        afterAccess (k (cacheAll s1 g (vas.map (·.2))) c pas) c hit)

/-! ### Loads and stores (R217) -/

/-- Starts a global load, an acquire point if `acq` names one whose storage set holds global storage (R225).
Log entry 8 (DESIGN CHOICE). -/
def startLoad (d : Operand) (acq : Option (Nat × Nat)) (s : State) (c : Ctx) (ls : List (Nat × Nat)) : State :=
  let o := longOp s c d (.gload (loadLanes s ls)) 2 (acq.filter (fun p => decide (p.2 &&& 2 ≠ 0)))
  finish { s with nextId := s.nextId + 1 } c (addOp c.w { o with miss := acq.any (fun p => decide (p.2 &&& 2 = 0)) }) 0 []

/-- The poison of a lane's data where the lane stores outside the package (R217, R321); a provisional tag is not
consumed. -/
def outsideTag (c : Ctx) (b : Operand) (ls : List (Nat × Nat)) (l : Nat) : List Tag :=
  if ls.any (fun x => decide (x.1 = l ∧ regionOf x.2 ≠ 0)) then
    match (readI c b l).tag with
    | .poison t => [.poison t]
    | _ => []
  else []

/-- Holds a global store (R217, R226). -/
def startStore (b : Operand) (rel : Option Release) (s : State) (c : Ctx) (ls : List (Nat × Nat)) : State :=
  consumeThen s c c.act (outsideTag c b ls) (decide (rank b = 0)) (fun s1 c =>
    let keep := ls.filter (fun x => inMask c.act x.1)
    if keep.isEmpty then finishNop s1 c
    else finishNop (hold s1 c.uid (.gstore (accessWidth c.sp.mode) (storeLanes c b keep) rel c.w.clock) none).2 c)

/-- `ld` (R217). -/
def execLd (d a : Operand) (s : State) : Host.Outcome State Fault Refusal :=
  run (.ld d a) s (fun s1 c => globalAccess s1 c a .load (startLoad d none))
/-- `ldacq` (R217, R231). -/
def execLdacq (d a : Operand) (s : State) : Host.Outcome State Fault Refusal :=
  run (.ldacq d a) s (fun s1 c => globalAccess s1 c a .load (startLoad d (acquireOf c.sp c.i)))
/-- `st` (R217). -/
def execSt (a b : Operand) (s : State) : Host.Outcome State Fault Refusal :=
  run (.st a b) s (fun s1 c => globalAccess s1 c a .store (startStore b none))
/-- `strel` (R217, R231). -/
def execStrel (a b : Operand) (s : State) : Host.Outcome State Fault Refusal :=
  run (.strel a b) s (fun s1 c => globalAccess s1 c a .store (startStore b
    (some { scope := scopeOf c.sp.omode, set := storageSet c.sp.omode })))

/-! ### Atomics (R219) -/

/-- Starts a global atomic. Log entry 27 (DEDUCED). -/
def startGatomic (op : AtomOp) (d b : Operand) (s : State) (c : Ctx) (ls : List (Nat × Nat)) : State :=
  let acq := pointOf (acquireOf c.sp c.i) 2
  let eff := Effect.gatomic (accessWidth c.sp.mode) op (atomLanes c d b (op = .cas) (atomOnce d ls)) (pointOf (releaseOf c.sp c.i) 2) acq
    (dropsOrder c.sp c.i 2) c.w.clock
  if d = .z then heldAtomic s c acq eff
  else startHeld s c d (.answered none 0 []) 2 (acq.map (fun p => (p.scope, p.set))) eff

/-- `gadd` (R219). -/
def execGadd (d a b : Operand) (s : State) : Host.Outcome State Fault Refusal :=
  run (.gadd d a b) s (fun s1 c => globalAccess s1 c a .atomic (fun s2 c ls => startGatomic (atomAdd c) d b s2 c ls))
/-- `gmin` (R219). -/
def execGmin (d a b : Operand) (s : State) : Host.Outcome State Fault Refusal :=
  run (.gmin d a b) s (fun s1 c => globalAccess s1 c a .atomic (fun s2 c ls =>
    startGatomic (.min (isSigned (itype c.sp.mode))) d b s2 c ls))
/-- `gmax` (R219). -/
def execGmax (d a b : Operand) (s : State) : Host.Outcome State Fault Refusal :=
  run (.gmax d a b) s (fun s1 c => globalAccess s1 c a .atomic (fun s2 c ls =>
    startGatomic (.max (isSigned (itype c.sp.mode))) d b s2 c ls))
/-- `gxchg` (R219). -/
def execGxchg (d a b : Operand) (s : State) : Host.Outcome State Fault Refusal :=
  run (.gxchg d a b) s (fun s1 c => globalAccess s1 c a .atomic (startGatomic .xchg d b))
/-- `gcas` (R219). -/
def execGcas (d a b : Operand) (s : State) : Host.Outcome State Fault Refusal :=
  run (.gcas d a b) s (fun s1 c => globalAccess s1 c a .atomic (startGatomic .cas d b))
/-- `gand` (R219). -/
def execGand (d a b : Operand) (s : State) : Host.Outcome State Fault Refusal :=
  run (.gand d a b) s (fun s1 c => globalAccess s1 c a .atomic (startGatomic .and d b))
/-- `gor` (R219). -/
def execGor (d a b : Operand) (s : State) : Host.Outcome State Fault Refusal :=
  run (.gor d a b) s (fun s1 c => globalAccess s1 c a .atomic (startGatomic .or d b))

/-! ### Fences, prefetch, keys, window waits -/

/-- The held effects of a wave that are writes or atomics to a class of a set, or release fences (R234). -/
def heldWrites (s : State) (u set : Nat) : List Nat :=
  (s.held.filter (fun h => decide (h.wave = u) && (match h.eff with
    | .gstore _ _ _ _ | .vstore _ _ _ | .gatomic _ _ _ _ _ _ _ => decide (set &&& 2 ≠ 0)
    | .sstore _ _ | .satomic _ _ _ _ _ _ | .ldlk _ _ | .stul _ _ => decide (set &&& spadClass s (waveOf s u) ≠ 0)
    | .matrix _ => decide (set &&& 4 ≠ 0)
    | .relFence _ _ => true
    | _ => false))).map (·.id)

/-- The operations a fence waits for: earlier loads and returning atomics to a class of its set (R232). -/
def fenceReads (w : Wave) (set : Nat) : List Nat := (w.ops.filter (fun o => decide (o.reads &&& set ≠ 0))).map (·.id)

/-- `fence` (R234). -/
def execFence (o : Byte) (s : State) : Host.Outcome State Fault Refusal :=
  run (.fence o) s (fun s1 c =>
    let sem := semantics o
    let set := storageSet o
    let scope := scopeOf o
    let s2 := if 2 ≤ sem then (hold s1 c.uid (.relFence scope set) none).2 else s1
    let acq : List Fence := if sem % 2 = 1 then
        [{ waitOps := fenceReads c.w set, set := set, scope := scope, acquire := true, blocksM := true }] else []
    let full : List Fence := if sem = 3 then [{ waitHeld := heldWrites s1 c.uid set, set := set, scope := scope, full := true }] else []
    finish s2 c { c.w with fences := c.w.fences ++ acq ++ full } 0 [])

/-- `pref` (R220): no check, no consumption, no architectural effect. -/
def execPref (a : Operand) (h : Byte) (s : State) : Host.Outcome State Fault Refusal := run (.pref a h) s finishNop

/-- `pkset` (R208, R221): the wave's copy now, the context's value D cycles later. -/
def execPkset (a : Operand) (s : State) : Host.Outcome State Fault Refusal :=
  run (.pkset a) s (fun s1 c =>
    consumeAll s1 c [tagU c a true] (fun s2 c =>
      if c.skip then finishNop s2 c
      else
        let x := readUPair c a
        finish (hold s2 c.uid (.pkrContext x) none).2 c { c.w with pkr := x } 0 []))

/-- PKR_CONTEXT_UPDATE (R208). -/
def execPkrContextUpdate (n : Nat) (s : State) : Host.Outcome State Fault Refusal :=
  perform s n "PKR_CONTEXT_UPDATE" (fun s1 h =>
    match h.eff with
    | .pkrContext x => some (modCtx s1 (waveOf s1 h.wave).ctx (fun c => { c with pkr := x }))
    | _ => none)

/-- The ingress window of a context with a base (R222). -/
def windowOf (s : State) (part ctx base : Nat) : Option Window :=
  (partOf s part).windows.find? (fun x => decide (x.ctx = ctx ∧ x.base = base) && x.opened)

/-- The window a parked split waits on: one that has closed keeps its committed number (R357). -/
def windowAny (s : State) (part ctx base : Nat) : Option Window :=
  (partOf s part).windows.find? (fun x => decide (x.ctx = ctx ∧ x.base = base))

/-- A uniform pair written, if there is a destination. -/
def putPair (w : Wave) (d : Option Nat) (x : DWord) : Wave :=
  match d with
  | some n => setSPair w n ⟨x, .clean⟩
  | none => w

/-- What the gate's release of the frames below a committed number carries: their bytes are in every view when the
number rises (R215, R240). -/
def gateHead (part : Nat) : Head := { part := part, gate := true, scope := 3, set := 2 }

/-- The acquire of a window wait that holds: device scope, global storage (R222). -/
def windowAcquire (s : State) (u : Nat) : State :=
  acquireFrom s u 3 2 [(2, gateHead (waveOf s u).part)]

/-- `wseq` (R222). -/
def execWseq (d a b : Operand) (s : State) : Host.Outcome State Fault Refusal :=
  run (.wseq d a b) s (fun s1 c =>
    consumeAll s1 c [tagU c a true] (fun s2 c =>
      let base := (readUPair c a).toNat
      let n := (readUPair c b).toNat
      match windowOf s2 c.w.part c.w.ctx base with
      | none => trapAt s2 c .ingress (BitVec.ofNat 32 base)
      | some x =>
        let dst := if c.skip then none else uniformDest d
        if n ≤ x.c then windowAcquire (finish s2 c (putPair c.w dst (BitVec.ofNat 64 x.c)) 0 []) c.uid
        else finishPark s2 c c.w (.window base n dst) none))

/-! ### Held writes leave (R226, R227) -/


/-- Whether a write to global memory may be performed now (R301). -/
def globalMay (s : State) (bytes : List (Nat × Byte)) (tagOf : Nat → Tag) : Bool :=
  mayJournal s.tags ((byGranule bytes).map (fun g =>
    (0, 0, g.1, (granMerge (seeOwn s.tags (tagAt s.memTags g.1)) (tagOf g.1) (coversGranule g.1 g.2)).1)))

/-- A wave after its release over global storage was performed: its later engine entries come after it (R239). -/
def noteReleased (rel : Option Release) (clock : List Nat) (die seq : Nat) (w : Wave) : Wave :=
  match rel with
  | some r => if r.set &&& 2 = 0 then w else { w with released := clockRaise (clockJoin w.released clock) die seq }
  | none => w

/-- A write of a wave to global memory leaves its seat; none while an older load of its bytes has still to be performed
(R228). -/
def releaseGlobal (s : State) (h : Held) (bytes : List (Nat × Byte)) (tagOf : Nat → Tag) (clock : List Nat)
    (rel : Option Release) : Option State :=
  let touch (a : Nat) : Bool := bytes.any (fun b => decide (b.1 = a))
  let s1 := captureBefore s h.wave h.id false touch
  let w := waveOf s1 h.wave
  if !loadsTaken w h.id touch then none
  else
  let ck := releaseClock w clock rel
  let die := dieOfCore h.core
  let s2 := performWrite s1 w.part die (ctxOf s1 w.ctx).world bytes tagOf ck (ownHeads w h.wave rel 2 ck) (some h.wave) false
  let missed := match rel with
    | some r => decide (r.set &&& 2 = 0)
    | none => false
  let flag (w : Wave) : Wave := { w with wstat := w.wstat ||| when missed fMISS }
  let s3 := modWave (noteWrite s2 h.wave die) h.wave (fun w => noteReleased rel ck die (dieOf s2 die).writeSeq (flag w))
  some (codeWritten (modOlds s3 h.wave (fun _ => true) flag) w.part bytes)

/-- A change of the grant table leaves its seat (R213). -/
def releaseGrant (s : State) (h : Held) (index : Nat) (word : Word) (wbase : Nat) : State :=
  let g := (waveOf s h.wave).grid
  let k := h.block.getD 0
  modGrid s g (fun x =>
    if bitAt word.toNat 4 then
      { x with grants := mmod x.grants index (fun y => if y.block = k then { y with ending := true } else y) }
    else
      let arr : GrantArray := match word.toNat % 4 with
        | 0 => .spad
        | 1 => .window h.wave wbase
        | 2 => .tile
        | _ => .acc
      { x with grants := mset x.grants index { block := k, write := bitAt word.toNat 3, arr := arr } })

/-- The clock and heads a release fence gives the later writes of its wave (R234, R235). -/
def releaseFence (u scope set : Nat) (w : Wave) : Wave :=
  let clock := if set &&& 2 = 0 then w.clock else clockJoin w.clock w.wrote
  { w with relClock := clockJoin w.relClock clock
           released := if set &&& 2 = 0 then w.released else clockJoin w.released clock
           fenceHeads := headOf w u scope set clock :: w.fenceHeads.filter (fun h => !decide (h.scope = scope ∧ h.set = set)) }

/-- The detail of an error record in the ring changed, if it is the POISON_KILLED record of a grid (R322, R330). -/
def bumpKills (grid n : Nat) (b : List Byte) : List Byte :=
  if ofBytes ((b.drop 18).take 2) = Cause.poisonKilled.code ∧ ofBytes ((b.drop 32).take 4) = grid then
    b.take 44 ++ toBytes 4 n ++ b.drop 48
  else b

/-- A kill counted with its grid: the first writes the record, later ones its detail (R322).
Log entry 41 (DEDUCED). -/
def releaseKills (s : State) (h : Held) (grid part n : Nat) (e : Event) : State :=
  let lanes := ofBytes (e.extra.map (BitVec.ofNat 8))
  let s1 := modCore s h.core (fun c => dropLocks c h.wave (bitAt lanes) false)
  let old := (gridOf s1 grid).kills
  let s2 := modGrid s1 grid (fun g => { g with kills := g.kills + n })
  if old = 0 then postEvent s2 part e
  else
    modPart s2 part (fun p => { p with
      pending := p.pending.map (fun x => if x.cause = .poisonKilled ∧ x.grid = e.grid then { x with detail := old + n } else x)
      events := p.events.map (bumpKills e.grid (old + n)) })

/-- HOLDBACK_RELEASE (R226): a held store, grant, fence, record or stop leaves its seat and is performed.
Log entry 24 (DEDUCED). -/
def execHoldbackRelease (n : Nat) (s : State) : Host.Outcome State Fault Refusal :=
  perform s n "HOLDBACK_RELEASE" (fun s1 h =>
    match h.eff with
    | .gstore width ls rel clock =>
      let bytes := laneBytes width ls
      let part := (waveOf s1 h.wave).part
      let see := seeTag s1.tags part
      if globalMay s1 bytes (laneTags see ls) then
        releaseGlobal { s1 with tags := absorb s1.tags (lanePairs see ls) } h bytes (laneTags see ls) clock rel
      else none
    | .vstore bytes tags clock =>
      let tagOf (g : Nat) := mergeTags ((tags.filter (fun t => decide (t.1 = g))).map (·.2))
      if globalMay s1 bytes tagOf then releaseGlobal s1 h bytes tagOf clock none else none
    | .splitRecords first k =>
      let w := waveOf s1 h.wave
      let at_ := w.spillTop - 32 * (first + k - 1)
      let bytes := spillBytesAt s1 w at_ ((List.range (32 * k)).map (Config.splitRecord n))
      if w.spillBase + 384 * w.lo ≤ at_ then releaseGlobal s1 h bytes (fun _ => .clean) w.clock none else some s1
    | .sstore width ls =>
      let k := h.block.getD 0
      let see := seeTag s1.tags (waveOf s1 h.wave).part
      if spadMay s1 k (laneBytes width ls) (laneTags see ls) && bankFree s1 h then
        let s2 := captureBefore s1 h.wave h.id true (fun _ => true)
        some (spadPut { s2 with tags := absorb s2.tags (lanePairs see ls) } k (laneBytes width ls) (laneTags see ls)
          (some h.wave) (spadHeadsOf s2 h.wave none))
      else none
    | .grant index word wbase => some (releaseGrant s1 h index word wbase)
    | .relFence scope set => some (modWave s1 h.wave (releaseFence h.wave scope set))
    | .record part e => some (postEvent s1 part e)
    | .suspect core => some (suspectCore s1 core)
    | .kills grid part k e => some (releaseKills s1 h grid part k e)
    | .stop (some k) part e => some (faultBlock s1 k part e)
    | .stop none part e => some (faultLoose s1 h.wave part e)
    | .stopSet block cores ctx => some (stopWaves s1 block cores ctx h.issued)
    | _ => none)

/-- WRITE_APPLY_HOME (R227). -/
def execWriteApplyHome (n : Nat) (s : State) : Host.Outcome State Fault Refusal :=
  match mget s.flights n with
  | some f =>
    let ok (g : Flight) : Bool := decide (g.homeAt ≤ s.now) && mayHome s g && homeMay s g
    let other := match f.twin.bind (mget s.flights) with
      | some g => g.pos.isSome || ok g
      | none => true
    if f.pos.isNone && ok f && other then .next (pumpPorts (applyLine s f (diesOf s f.part)))
    else .refused (.notEnabled "WRITE_APPLY_HOME")
  | none => .refused (.notEnabled "WRITE_APPLY_HOME")

/-- WRITE_APPLY_REMOTE (R227, R238). -/
def execWriteApplyRemote (n d : Nat) (s : State) : Host.Outcome State Fault Refusal :=
  match mget s.flights n with
  | some f =>
    if f.pos.isSome ∧ f.todo.contains d ∧ mgetD f.viewAt d 0 ≤ s.now ∧ precededAt s f d then
      .next (pumpPorts (applyRemote s f d))
    else .refused (.notEnabled "WRITE_APPLY_REMOTE")
  | none => .refused (.notEnabled "WRITE_APPLY_REMOTE")

/-! ### Atomics are performed (R219) -/

/-- Every write of a die to some bytes that has no place yet takes it: the die's older writes come before its atomic
(R228). -/
def homeOlder (s : State) (die : Nat) (bytes : List (Nat × Byte)) : State :=
  bringAll s die ((s.flights.filter (fun f => decide (f.2.src = die) && f.2.pos.isNone && overlaps f.2.bytes bytes)).map (·.1))

/-- The clock of the writes a read-modify-write reads (R237, point 6). -/
def readClock (s : State) (bytes : List (Nat × Byte)) (clock : List Nat) : List Nat :=
  s.flights.foldl (fun c f =>
    if f.2.pos.isSome && overlaps (f.2.bytes.filter (fun x => !f.2.spread.contains x.1)) bytes then clockRaise (clockJoin c f.2.clock) f.2.src f.2.seq else c) clock

/-- The write of a read-modify-write: its place is directly after the write it read, and its die's view shows it. -/
def atomStore (s : State) (dies : List Nat) (f0 : Flight) (a0 : Nat) : State :=
  let id := s.nextId
  let home := homeDie dies a0
  let seq := (dieOf s f0.src).writeSeq + 1
  let f := { f0 with id := id, home := home, seq := seq, heads := f0.heads.map (headWith f0.src seq)
                     viewAt := dies.map (fun d => (d, s.now + Config.remoteDelay id d)) }
  let s1 := { modDie s f0.src (fun x => { x with writeSeq := x.writeSeq + 1 }) with nextId := id + 1 }
  let s2 := applyHome (syncTo (syncTo (journalWrite s1 f) home f.clock) f0.src f.clock) f dies
  { s2 with lags := f.bytes.foldl (fun l x => lagDel l f.src x.1) s2.lags }

/-- One lane of a global atomic (R219). -/
def atomLane (u part die width : Nat) (op : AtomOp) (rel : Option Release) (clock : List Nat)
    (x : State × List LaneVal × Sticky × List Head × List Nat) (l : AtomLane) :
    State × List LaneVal × Sticky × List Head × List Nat :=
  let area := (List.range width).map (fun k => (l.addr + k, (0 : Byte)))
  let s := homeOlder x.1 die area
  let w := waveOf s u
  let old := memNum s l.addr width
  let t := seeTag s.tags part (granTag s l.addr)
  let r := atomApply width op old l.b.val.toNat l.c.val.toNat
  let heads := mgetD s.heads l.addr []
  let read := readClock s area []
  let ck := clockJoin read (releaseClock w clock rel)
  let see := seeTag s.tags part
  let ts := [see l.b.tag] ++ (if op = .cas then [see l.c.tag] else [])
  let s1 := atomStore { s with tags := absorb s.tags (absorptions ts) } (diesOf s part)
    { id := 0, bytes := addrBytes l.addr (toBytes width r.1), tag := mergeTags ts, whole := false, src := die, seq := 0
      clock := ck, home := 0, heads := ownHeads w u rel 2 ck, wave := some u, rmw := true, part := part } l.addr
  (s1, x.2.1 ++ [⟨l.lane, BitVec.ofNat 64 old, t⟩], x.2.2.1 ||| r.2, (x.2.2.2.1 ++ heads).eraseDups, clockJoin x.2.2.2.2 read)

/-- The wave of an atomic that was performed: as an acquire point it comes after the writes it read (R237, points 3 and
6), and as a release the wave's later engine entries come after it (R239). -/
def atomOrder (s : State) (u die : Nat) (acq : Bool) (rel : Option Release) (clock read : List Nat) : State :=
  let ck := if acq then read else []
  let s1 := modWave s u (fun w => noteReleased rel (releaseClock w clock rel) die (dieOf s die).writeSeq (joinClock ck w))
  syncTo (modOlds s1 u (fun _ => true) (joinClock ck)) die ck

/-- ATOMIC_PERFORM (R219). -/
def execAtomicPerform (n : Nat) (s : State) : Host.Outcome State Fault Refusal :=
  perform s n "ATOMIC_PERFORM" (fun s1 h =>
    match h.eff with
    | .gatomic width op ls rel acq miss clock =>
      let w := waveOf s1 h.wave
      let die := dieOfCore h.core
      let area := ls.flatMap (fun l => addrBytes l.addr (toBytes width 0))
      let see := seeTag s1.tags w.part
      let tagOf (g : Nat) :=
        mergeTags ((ls.filter (fun l => decide (l.addr / 32 = g))).flatMap (fun l => [see l.b.tag, see l.c.tag]))
      let touch (a : Nat) : Bool := area.any (fun b => decide (b.1 = a))
      let s2 := readMemory (captureBefore s1 h.wave h.id false touch) w.part (ls.map (fun l => l.addr))
      if globalMay s1 area tagOf && loadsTaken (waveOf s2 h.wave) h.id touch then
        let r := ls.foldl (atomLane h.wave w.part die width op rel clock) (syncTo s2 die clock, [], 0, [], [])
        let acquires := acq.isSome || w.ops.any (fun o => decide (h.op = some o.id) && o.acquire.isSome)
        let s3 := atomOrder (noteWrite r.1 h.wave die) h.wave die acquires rel clock r.2.2.2.2
        some (codeWritten (atomDone s3 h 2 acq miss r.2.1 r.2.2.1 r.2.2.2.1) w.part area)
      else none
    | _ => none)

end Sys2Proof.Machine
end

