-- ==== Sys2Proof/Machine/Copy.lean ====
section
/-! DEFINITION. Engine queues (R160 to R163), copies and gathers (R165 to R173), block-collective copies (R172), batches
(R174 to R177), queue fences (R180), and the on-chip map (R212, R213). -/

namespace Sys2Proof.Machine

/-! ### Places and entries -/

/-- Goes on if each queue of a list has a place for the wave's block; else the wave waits (R162). -/
def withPlaces (s : State) (c : Ctx) (qs : List Nat) (k : State → State) : State :=
  if qs.all (queueRoom s c.w) then k s else stall s c.uid

/-- The state with a place of a queue taken (R162). -/
def takePlace (s : State) (core q id : Nat) (block : Option Nat) : State :=
  modCore s core (fun x => let y := queueAt x q; setQueue x q { y with issued := y.issued ++ [(id, block)] })

/-- The entry of a request as the wave stands at issue (R211). -/
def entryFor (s : State) (c : Ctx) (work : Work) (ops : List (Nat × Nat)) : Entry :=
  { id := s.nextId, wave := c.uid, block := c.w.block, grid := c.w.grid, ctx := c.w.ctx, pkr := c.w.pkr
    clock := clockJoin c.w.clock c.w.relClock, ops := ops, work := work }

/-- An engine-class long operation of the wave (R39). -/
def engineOp (c : Ctx) (id q : Nat) (dests : List RegRef) : LongOp :=
  { id := id, flag := flagOf c.sp c.i, dests := dests, dst := .none, queue := some q, kind := .engine [] 0 }

/-- Issues a request to queue `q`: its place, its held entry, its operation; copies join the open batch (R161, R174). -/
def startEngine (s : State) (c : Ctx) (q : Nat) (work : Work) (batch : Bool) : State :=
  let o := engineOp c s.nextId q (destRegs c)
  let s1 := { s with nextId := s.nextId + 1 }
  let e := entryFor s1 c work [(c.uid, o.id)]
  let s2 := takePlace { s1 with nextId := s1.nextId + 1 } c.w.core q e.id c.w.block
  let s3 := (hold s2 c.uid (.enter q e) (some o.id)).2
  let w := addOp c.w o
  finish s3 c (if batch then { w with openBatch := w.openBatch ++ [o.id] } else w) 0 []

/-- An entry takes its queue's next number when it enters (R163). -/
def enterQueue (s : State) (core q : Nat) (e : Entry) : State :=
  modCore s core (fun x =>
    let y := queueAt x q
    setQueue x q { y with
      entries := y.entries ++ [{ e with num := (y.next + 1).toNat, ready := s.now + Config.engineStart e.id }]
      issued := y.issued.filter (fun p => !decide (p.1 = e.id)), next := y.next + 1 })

/-! ### Copy requests (R165) -/

/-- The queue an operand names. -/
def queueCode : Operand → Nat
  | .q n => n
  | _ => 0

/-- Register `j` of a request. -/
def reqReg (c : Ctx) (a : Operand) (j : Nat) : TWord := sReg c.w (layoutReg a + j)

/-- The request in eight uniform registers. -/
def requestOf (c : Ctx) (a : Operand) : CopyReq :=
  let r (j : Nat) := (reqReg c a j).val.toNat
  { desc := r 0 + 2 ^ 32 * r 1, coord := [bits (r 2) 15 0, bits (r 2) 31 16, bits (r 3) 15 0, bits (r 3) 31 16]
    layout := [(reqReg c a 4).val, (reqReg c a 5).val, (reqReg c a 6).val], stream := bitAt (r 7) 25, halo := bitAt (r 7) 24
    length := bits (r 7) 23 0, pkr := c.w.pkr }

/-- The layout word of a request. -/
def reqLayout (q : CopyReq) : Layout :=
  { w0 := (nth q.layout 0 0).toNat, w1 := (nth q.layout 1 0).toNat, w2 := (nth q.layout 2 0).toNat }

/-- The trap of a request's checks 3 and 4 (R170), if there is one. -/
def requestTrap (c : Ctx) (a : Operand) : Option (Cause × Word) :=
  let q := requestOf c a
  if bits (reqReg c a 1).val.toNat 31 17 ≠ 0 then some (.illegalField, (reqReg c a 1).val)
  else if bits (reqReg c a 7).val.toNat 31 26 ≠ 0 then some (.illegalField, (reqReg c a 7).val)
  else if layoutBad (reqLayout q) then some (.illegalField, (reqReg c a 4).val)
  else if bits (reqReg c a 0).val.toNat 5 0 ≠ 0 then some (.copyAlign, (reqReg c a 0).val)
  else if q.length % layEsize (reqLayout q) ≠ 0 then some (.copyAlign, BitVec.ofNat 32 q.length)
  else none

/-- The checks of a copy at issue in their order (R170), then `k`. -/
def copyThen (s : State) (c : Ctx) (a : Operand) (k : State → Ctx → CopyReq → State) : State :=
  attached s c (fun _ =>
    consumeAll s c ((List.range 8).map (fun j => c.see (reqReg c a j).tag)) (fun s1 c =>
      match requestTrap c a with
      | some x => trapAt s1 c x.1 x.2
      | none => k s1 c (requestOf c a)))

/-- Issues a copy of the wave. -/
def startCopy (d a : Operand) (out : Bool) (s : State) (c : Ctx) : State :=
  copyThen s c a (fun s1 c r =>
    withPlaces s1 c [queueCode d] (fun s2 => startEngine s2 c (queueCode d) (.copy out [(c.uid, r)]) true))

/-- `cpin` (R168). -/
def execCpin (d a : Operand) (s : State) : Host.Outcome State Fault Refusal := run (.cpin d a) s (startCopy d a false)
/-- `cpout` (R168). -/
def execCpout (d a : Operand) (s : State) : Host.Outcome State Fault Refusal := run (.cpout d a) s (startCopy d a true)

/-! ### Block-collective copies (R172) -/

/-- The entry of a complete collective: its nonempty slices in ascending wave index, each with the wave that supplied
it. -/
def collectiveEntry (e0 : Entry) (x : Collective) : Entry :=
  let slices := (List.range 64).flatMap (fun n => x.slices.filter (fun y => decide (y.1 = n)))
  { e0 with id := x.id, ops := slices.map (fun y => (y.2.1, y.2.2.1)), work := .copy x.out (slices.map (fun y => (y.2.1, y.2.2.2))) }

/-- Supplies the issuing wave's slice to an open collective: D cycles later it has left its seat behind the wave's
earlier writes. -/
def supplySlice (s : State) (c : Ctx) (k q : Nat) (x : Collective) (r : CopyReq) : State :=
  let o := engineOp c s.nextId q []
  let y := { x with slices := x.slices ++ [(c.w.wid, c.uid, o.id, r)] }
  let s1 := modBlock { s with nextId := s.nextId + 1 } k (fun b => { b with collectives := mset b.collectives q y })
  let s2 := (hold s1 c.uid (.collective q y.id) none).2
  let w := addOp c.w o
  finish s2 c { w with openBatch := w.openBatch ++ [o.id] } 0 []

/-- Issues a slice (R172). Log entry 100 (DEDUCED). -/
def startSlice (d a : Operand) (out : Bool) (s : State) (c : Ctx) : State :=
  copyThen s c a (fun s1 c r =>
    let k := c.w.block.getD 0
    let q := queueCode d
    let b := blockOf s1 k
    match mget b.collectives q with
    | some x =>
      if x.slices.any (fun y => decide (y.2.1 = c.uid)) ∨ collectiveFull x then stall s1 c.uid
      else if x.out ≠ out then trapAt s1 c .illegalIssue (BitVec.ofNat 32 d.code)
      else supplySlice s1 c k q x r
    | none =>
      withPlaces s1 c [q] (fun s2 =>
        let members := b.members.map (·.1)
        let x : Collective := { id := s2.nextId, out := out, count := members.length, counted := members, slices := [] }
        supplySlice (takePlace { s2 with nextId := s2.nextId + 1 } c.w.core q x.id c.w.block) c k q x r))

/-- `bcpin` (R172). -/
def execBcpin (d a : Operand) (s : State) : Host.Outcome State Fault Refusal := run (.bcpin d a) s (startSlice d a false)
/-- `bcpout` (R172). -/
def execBcpout (d a : Operand) (s : State) : Host.Outcome State Fault Refusal := run (.bcpout d a) s (startSlice d a true)

/-- COLLECTIVE_ENTER (R172): a slice has left its seat; the last one of a complete collective makes it enter its queue as
one entry. What precedes each slice in its wave precedes the entry (R239). -/
def execCollectiveEnter (n : Nat) (s : State) : Host.Outcome State Fault Refusal :=
  perform s n "COLLECTIVE_ENTER" (fun s1 h =>
    match h.eff with
    | .collective q id =>
      let k := h.block.getD 0
      let b := blockOf s1 k
      match mget b.collectives q with
      | some x =>
        if x.id ≠ id then none
        else
          let w := waveOf s1 h.wave
          let clock := if h.seat.isSome then clockJoin x.clock (clockJoin w.clock (clockJoin w.relClock w.released)) else x.clock
          let more := s1.held.any (fun y => decide (y.eff = .collective q id))
          if !collectiveFull x || more then
            some (modBlock s1 k (fun b => { b with collectives := mset b.collectives q { x with clock := clock } }))
          else
            let e0 : Entry := { id := x.id, wave := h.wave, block := some k, grid := b.grid, ctx := (gridOf s1 b.grid).ctx
                                pkr := 0, clock := clock, work := .marker 0 }
            some (enterQueue (modBlock s1 k (fun b => { b with collectives := mdel b.collectives q })) h.core q (collectiveEntry e0 x))
      | none => none
    | _ => none)

/-! ### Gather (R173) -/

/-- The checks of a gather on its surviving lanes. -/
def gatherTrap (s : State) (c : Ctx) (ctl off : Nat) (ls : List (Nat × Nat)) : Option (Cause × Word) :=
  let e := 2 ^ (ctl % 4)
  if ctl / 4 ≠ 0 then some (.illegalField, BitVec.ofNat 32 ctl)
  else if off % e ≠ 0 ∨ (blockOf s (c.w.block.getD 0)).spadLen < off + 64 * e then some (.spadRange, BitVec.ofNat 32 off)
  else (ls.find? (fun l => decide (l.2 % e ≠ 0))).map (fun l => (.copyAlign, BitVec.ofNat 32 l.1))

/-- `gath` (R173). A source that its queue has still to write is read as it stands at issue (R40, R41).
Log entry 90 (DEDUCED). -/
def execGath (d a b : Operand) (s : State) : Host.Outcome State Fault Refusal :=
  run (.gath d a b) s (fun s1 c => attached s1 c (fun _ =>
    consumeThen s1 c c.act (fun l => [(readPair c a l).tag]) (decide (rank a = 0)) (fun s2 c =>
      let ls := laneOffsets c (fun l => (readPair c a l).val.toNat)
      let ctl := (readU c b).toNat
      let off := (readU c d).toNat
      if ls.isEmpty then finishNop s2 c
      else match gatherTrap s2 c ctl off ls with
        | some x => trapAt s2 c x.1 x.2
        | none => withPlaces s2 c [6] (fun s3 => startEngine s3 c 6 (.gather (2 ^ (ctl % 4)) off ls) true))))

/-! ### Batches and queue registers (R174 to R177) -/

/-- `cseal` (R175). -/
def execCseal (d : Operand) (s : State) : Host.Outcome State Fault Refusal :=
  run (.cseal d) s (fun s1 c =>
    if 16 ≤ openSeals c.w then stall s1 c.uid
    else
      let left := c.w.sealed.filter (fun b => b.any (fun n => c.w.ops.any (fun o => decide (o.id = n))))
      let w := { c.w with sealed := left ++ [c.w.openBatch], openBatch := [], batchNo := c.w.batchNo + 1 }
      finish s1 c (if c.skip then w else putResult w (uniformDest d) c.w.batchNo) 0 [])

/-- `cwait` (R176): a yield point, and a completion wait once it holds (R239). -/
def execCwait (n : Byte) (s : State) : Host.Outcome State Fault Refusal :=
  run (.cwait n) s (fun s1 c =>
    if openSeals c.w ≤ n.toNat then completeWait (finishNop s1 c) c.uid
    else finishPark s1 c c.w (.batches n.toNat) none)

/-- `qseq` (R177). -/
def execQseq (d a : Operand) (s : State) : Host.Outcome State Fault Refusal :=
  run (.qseq d a) s (fun s1 c =>
    let x := (queueAt (coreOf s1 c.w.core) (queueCode a)).completed
    finish s1 c (if c.skip then c.w else putPair c.w (uniformDest d) x) 0 [])

/-- `qfence` (R180): LOOSE_WAVE (R162), then a place in each named queue and one held request for all markers. -/
def execQfence (q : Byte) (s : State) : Host.Outcome State Fault Refusal :=
  run (.qfence q) s (fun s1 c => attached s1 c (fun _ =>
    let qs := (List.range 7).filter (bitAt q.toNat)
    withPlaces s1 c qs (fun s2 =>
      let group := s2.nextId
      let s3 := qs.foldl (fun t n => takePlace t c.w.core n group c.w.block) { s2 with nextId := group + 1 }
      finishNop (hold s3 c.uid (.markers q group) none).2 c)))

/-! ### What an engine reads and writes -/

/-- What performing an entry has produced: the bytes its request writes with their tags, the writes of the slices before it
(R172), the granules of the scratchpad that an element reaches into from the one before (R167), or where it failed. -/
structure Produced where
  cells : List (EngineDest × Nat × Byte × Tag) := []
  slices : List EngineWrite := []
  joins : List Nat := []
  fail : Option (Cause × Nat) := none
  malformed : Bool := false
  pages : List Nat := []
  grants : List Nat := []
  reads : List (EngineDest × Nat) := []
  pairs : List (Nat × Nat) := []

/-- An agent of an entry of a core (R211). -/
def entryAgent (s : State) (core : Nat) (e : Entry) (pkr : DWord) : Agent :=
  { core := core, part := (ctxOf s e.ctx).part, grid := e.grid, ctx := e.ctx, pkr := pkr }

/-- A checked range of global memory in physical addresses, or the failure's cause and address (R211). -/
def engineCheck (s : State) (g : Agent) (kind : Access) (va n : Nat) : Except (Cause × Nat) Nat :=
  match checkLanes s g kind n [(0, va)] with
  | some f => .error (f.cause, f.addr)
  | none => .ok (paOf s g va)

/-- Bytes of a die's view with their tags. -/
def viewTagged (s : State) (die part pa n : Nat) : List (Byte × Tag) :=
  (List.range n).map (fun k => let b := viewByte s die (pa + k); (b.1, seeTag s.tags part b.2.1))

/-- Bytes of a die's view with their tag. -/
def viewBytes (s : State) (die part pa n : Nat) : List Byte × Tag :=
  let l := viewTagged s die part pa n
  (l.map (·.1), mergeTags (l.map (·.2)))

/-- Bytes that an entry of a wave reads: its die's view under the writes of the wave and of the engines of its core that
still wait at their port (R161, R178). -/
def entryBytes (s : State) (core u part pa n : Nat) : List (Byte × Tag) :=
  (List.range n).map (fun k =>
    let a := pa + k
    let b := viewByte s (dieOfCore core) a
    let v := (onTheirWay s).foldl (fun (v : Byte × Tag) p =>
      match (if p.wave = some u ∨ p.engine = some core then p.bytes.find? (fun x => decide (x.1 = a)) else none) with
      | some x => (x.2, p.tag)
      | none => v) (b.1, b.2.1)
    (v.1, seeTag s.tags part v.2))

/-- Where a map address leads: the array, its length, its grant (R212, R213). -/
def mapTarget (s : State) (grid ma : Nat) : Option (EngineDest × Nat × Grant) :=
  if bits ma 63 48 ≠ 0 ∨ bits ma 39 24 ≠ 0 then none
  else
    match mget (gridOf s grid).grants (bits ma 47 40) with
    | none => none
    | some r =>
      if r.ending then none
      else
        let b := blockOf s r.block
        match r.arr with
        | .spad => some (.spad r.block, b.spadLen, r)
        | .window u base => some (.window u base, 16384, r)
        | .tile => some (.tile r.block, b.tileLen, r)
        | .acc => some (.acc r.block, b.accs * 98304, r)

/-- Whether `n` bytes of a window from an offset are resident (R106, R213). -/
def windowHolds (w : Wave) (base off n : Nat) : Bool :=
  (List.range n).all (fun k => let r := base + (off + k) / 256; decide (w.lo ≤ r ∧ r < w.lo + w.resident))

/-- A checked range of the on-chip map: the array and the offset, or MAP_GRANT (R213). -/
def mapCheck (s : State) (grid ma n : Nat) (write : Bool) : Except (Cause × Nat) (EngineDest × Nat) :=
  match mapTarget s grid ma with
  | none => .error (.mapGrant, ma)
  | some (d, len, r) =>
    let off := bits ma 23 0
    let resident := match d with
      | .window u base => windowHolds (waveOf s u) base off n
      | _ => true
    if len < off + n ∨ (write ∧ !r.write) ∨ !resident then .error (.mapGrant, ma) else .ok (d, off)

/-- A byte of an accumulator array (R212). -/
def accByte (b : Block) (a : Nat) : Byte :=
  BitVec.ofNat 8 ((mgetD b.acc (a / 12) {}).bits.toNat / 2 ^ (8 * (a % 12)))

/-- Bytes of an array with their tags as a partition sees them (R187, R212, R307). -/
def arrayBytes (s : State) (part : Nat) (d : EngineDest) (a n : Nat) : List (Byte × Tag) :=
  let l := (List.range n).map (fun k => a + k)
  let see := seeTag s.tags part
  match d with
  | .spad k => l.map (fun x => (memGet (blockOf s k).spad x, see (tagAt (blockOf s k).spadTags (x / 32))))
  | .tile k => l.map (fun x => (memGet (blockOf s k).tile x, see (tagAt (blockOf s k).tileTags (x / 32))))
  | .acc k => l.map (fun x => (accByte (blockOf s k) x, see (mgetD (blockOf s k).acc (x / 12) {}).tag))
  | .window u base =>
    let lane (x : Nat) := vLane (mgetD (waveOf s u).v (base + x / 256) {}) (x % 256 / 4)
    l.map (fun x => (BitVec.ofNat 8 ((lane x).val.toNat / 2 ^ (8 * (x % 4))), see (lane x).tag))
  | .memory => []

/-- The unit that has a tag state of its own: a granule, a lane word, an accumulator element. -/
def unitOf : EngineDest → Nat → Nat
  | .window _ _, a => a / 4
  | .acc _, a => a / 12
  | _, a => a / 32

/-- The first of a run of granules in which elements reach from each to the next. -/
def runStartOf (joins : List Nat) : Nat → Nat
  | 0 => 0
  | g + 1 => if joins.contains (g + 1) then runStartOf joins g else g + 1

/-- The units that are written at once, so that no element is written in two steps (R167). -/
def groupOf (joins : List Nat) : EngineDest → Nat → Nat
  | .window _ _, a => a / 8
  | .acc _, a => a / 24
  | .spad _, a => runStartOf joins (a / 32)
  | _, a => a / 32

/-- Adds an element's bytes to the writes of their units. -/
def addCell (l : List EngineWrite) (x : EngineDest × Nat × Byte × Tag) : List EngineWrite :=
  match l with
  | [] => [{ dest := x.1, cells := [(x.2.1, x.2.2.1)], tag := x.2.2.2 }]
  | y :: r =>
    if y.dest = x.1 ∧ y.cells.any (fun c => decide (unitOf x.1 c.1 = unitOf x.1 x.2.1)) then
      { y with cells := y.cells ++ [(x.2.1, x.2.2.1)], tag := mergeTag y.tag x.2.2.2 } :: r
    else y :: addCell r x

/-- The writes of an entry, one per unit (R168). -/
def unitWrites (l : List (EngineDest × Nat × Byte × Tag)) : List EngineWrite := l.foldl addCell []

/-- Adds a write to the group it is performed with. -/
def addToGroup (joins : List Nat) (l : List (List EngineWrite)) (x : EngineWrite) : List (List EngineWrite) :=
  let key (y : EngineWrite) : Option Nat := y.cells.head?.map (fun c => groupOf joins y.dest c.1)
  match l with
  | [] => [[x]]
  | g :: r => if g.any (fun y => decide (y.dest = x.dest ∧ key y = key x)) then (g ++ [x]) :: r else g :: addToGroup joins r x

/-- The writes of an entry in the groups that are performed at once, each in the order of the slices (R167, R172). -/
def groupWrites (joins : List Nat) (l : List EngineWrite) : List (List EngineWrite) := l.foldl (addToGroup joins) []

/-- The absorptions of the tags that meet in the units of some writes (R300). -/
def unitPairs (l : List (EngineDest × Nat × Byte × Tag)) : List (Nat × Nat) :=
  (l.map (fun x => (x.1, unitOf x.1 x.2.1))).eraseDups.flatMap (fun u =>
    absorptions ((l.filter (fun x => decide (x.1 = u.1 ∧ unitOf x.1 x.2.1 = u.2))).map (fun x => x.2.2.2)))

/-! ### Performing a copy (R166 to R168) -/

/-- A tensor descriptor (R166). -/
structure Desc where
  base : Nat
  size : List Nat
  stride : List Nat
  map : Bool
  table : Bool
  dims : Nat
  esize : Nat
  box : List Nat
  lo : List Nat
  hi : List Nat
  fill : Nat
  tbase : Nat
  rows : Nat

/-- The descriptor that 64 bytes hold, for an element size; none where a field breaks R166. -/
def descOf (l : List Byte) (esize : Nat) : Option Desc :=
  let f (at_ n : Nat) := ofBytes ((l.drop at_).take n)
  let w := f 28 4
  let dims := bits w 3 2 + 1
  let used (j : Nat) := decide (j < dims)
  let size (j : Nat) := if !used j then 1 else if f (8 + 2 * j) 2 = 0 then 65536 else f (8 + 2 * j) 2
  let box (j : Nat) := if used j then f (32 + 2 * j) 2 else 1
  let stride (j : Nat) := if j = 0 then esize else if used j then f (12 + 4 * j) 4 else 0
  let js := [0, 1, 2, 3]
  let table := bitAt w 4
  if 2 ^ 49 ≤ f 0 8 ∨ w / 64 ≠ 0 ∨ 2 ^ (w % 4) ≠ esize ∨ js.any (fun j => used j && decide (box j = 0)) ∨
      f 58 2 ≠ 0 ∨ f 60 4 ≠ 0 ∨ (table ∧ f 56 2 = 0) then none
  else some
    { base := f 0 8, size := js.map size, stride := js.map stride, map := bitAt w 5, table := table, dims := dims
      esize := esize, box := js.map box, lo := [f 40 1, f 42 1], hi := [f 41 1, f 43 1], fill := f 44 4
      tbase := f 48 8, rows := f 56 2 }

/-- The extents of a copy's box, widened by the halo in used dimensions 0 and 1 (R167). -/
def extents (d : Desc) (halo : Bool) : List Nat :=
  [0, 1, 2, 3].map (fun j => nth d.box j 1 + if halo ∧ j < 2 ∧ j < d.dims then nth d.lo j 0 + nth d.hi j 0 else 0)

/-- Index `m` of a box, dimension 0 fastest. -/
def boxIndex (ext : List Nat) (m : Nat) : List Nat :=
  match ext with
  | [] => []
  | e :: r => m % e :: boxIndex r (m / e)

/-- The linear index of box indices from dimension `j` up. -/
def foldIndex : List Nat → List Nat → Nat
  | i :: is, e :: es => i + e * foldIndex is es
  | _, _ => 0

/-- The scratchpad offset of a box index; dimensions beyond the layout's are folded into its last (R190). -/
def boxOffset (y : Layout) (d : Desc) (ext idx : List Nat) : Nat :=
  let n := layDims y
  let at_ (j : Nat) : Nat :=
    if j + 1 = n ∧ n < d.dims then foldIndex (idx.drop j) (ext.drop j) else nth idx j 0
  layoutOffset y (at_ 0) (at_ 1) (at_ 2)

/-- The position of a box index in dimension `j`, exact (R167). -/
def boxPos (d : Desc) (q : CopyReq) (idx : List Nat) (j : Nat) : Int :=
  let lo := if q.halo ∧ j < 2 ∧ j < d.dims then nth d.lo j 0 else 0
  (if j < d.dims then ((nth q.coord j 0 : Nat) : Int) else 0) - lo + ((nth idx j 0 : Nat) : Int)

/-- The address of an in-bounds position and the table word read for it, or the failure of its table word (R167). -/
def elementAddr (s : State) (g : Agent) (u : Nat) (d : Desc) (pos : Nat → Nat) :
    Except (Cause × Nat) (Nat × List (EngineDest × Nat)) :=
  let o := d.dims - 1
  let rest := ((List.range 4).filter (fun j => decide (j < d.dims ∧ j ≠ o))).foldl (fun n j => n + pos j * nth d.stride j 0) 0
  if d.table then
    match engineCheck s g .load (d.tbase + 8 * (pos o / d.rows)) 8 with
    | .error x => .error x
    | .ok pa =>
      .ok (ofBytes ((entryBytes s g.core u g.part pa 8).map (·.1)) + rest + pos o % d.rows * nth d.stride o 0, [(.memory, pa)])
  else .ok (d.base + rest + pos o * nth d.stride o 0, [])

/-- The bytes that fill an out-of-bounds element (R166). -/
def fillBytes (d : Desc) : List Byte :=
  if d.esize = 8 then toBytes 4 d.fill ++ toBytes 4 d.fill else toBytes d.esize d.fill

/-- The outside of an element checked for reading or writing: an array and offset, or memory. -/
def outsideCheck (s : State) (g : Agent) (d : Desc) (a : Nat) (write : Bool) : Except (Cause × Nat) (EngineDest × Nat) :=
  if a % d.esize ≠ 0 then .error (.copyDesc, a)
  else if d.map then mapCheck s g.grid a d.esize write
  else match engineCheck s g (if write then .store else .load) a d.esize with
    | .error x => .error x
    | .ok pa => .ok (.memory, pa)

/-- The bytes at a checked place with their tags, as an entry of wave `u` reads them. -/
def placeBytes (s : State) (core u part : Nat) (x : EngineDest × Nat) (n : Nat) : List (Byte × Tag) :=
  match x.1 with
  | .memory => entryBytes s core u part x.2 n
  | d => arrayBytes s part d x.2 n

/-- An element's bytes as the cells it writes. -/
def cellsOf (x : EngineDest × Nat) (v : List (Byte × Tag)) : List (EngineDest × Nat × Byte × Tag) :=
  (addrBytes x.2 (v.map (·.1))).map (fun y => (x.1, y.1, y.2, mergeTags (v.map (·.2))))

/-- The granule of the scratchpad that an element of `n` bytes reaches into from the one before, if it does. -/
def straddles (x : EngineDest × Nat) (n : Nat) : List Nat :=
  match x.1 with
  | .spad _ => if x.2 / 32 = (x.2 + n - 1) / 32 then [] else [(x.2 + n - 1) / 32]
  | _ => []

/-- What an entry has produced with one more element: its bytes, and the absorptions of the tags read with it (R300). -/
def addElement (p : Produced) (x : EngineDest × Nat) (v : List (Byte × Tag)) : Produced :=
  { p with cells := p.cells ++ cellsOf x v, joins := straddles x v.length ++ p.joins
           pairs := absorptions (v.map (·.2)) ++ p.pairs }


/-- What an entry has produced when it fails: the failure, and whether its walk met a malformed entry (R201). -/
def failed (s : State) (g : Agent) (p : Produced) (x : Cause × Nat) : Produced :=
  { p with fail := some x, malformed := decide (x.1 = .dataFault ∧ lookup s g.core g.part g.ctx x.2 = .malformed) }

/-- One element of a copy: what it adds, or its failure. -/
def copyElement (s : State) (g : Agent) (u k : Nat) (out : Bool) (q : CopyReq) (d : Desc) (ext : List Nat) (m : Nat)
    (p : Produced) : Produced :=
  let idx := boxIndex ext m
  let pos := boxPos d q idx
  let inb := (List.range d.dims).all (fun j => decide (0 ≤ pos j ∧ pos j < ((nth d.size j 1 : Nat) : Int)))
  let off := boxOffset (reqLayout q) d ext idx
  if (blockOf s k).spadLen < off + d.esize then { p with fail := some (.spadRange, off) }
  else if inb then
    match elementAddr s g u d (fun j => (pos j).toNat) with
    | .error x => failed s g p x
    | .ok (a, word) =>
      match outsideCheck s g d a out with
      | .error x => failed s g p x
      | .ok x =>
        let src := if out then (.spad k, off) else x
        let dst := if out then x else (.spad k, off)
        let q := addElement p dst (placeBytes s g.core u g.part src d.esize)
        { q with pages := if d.map then p.pages else a :: p.pages
                 grants := if d.map then (bits a 47 40 :: p.grants).eraseDups else p.grants
                 reads := src :: (src.1, src.2 + d.esize - 1) :: word ++ p.reads }
  else if out then p
  else addElement p (.spad k, off) ((fillBytes d).map (fun b => (b, .clean)))

/-- Elements one after another until one fails. -/
def eachElement (f : Nat → Produced → Produced) : List Nat → Produced → Produced
  | [], p => p
  | m :: r, p => if p.fail.isSome then p else eachElement f r (f m p)

/-- One request of a copy entry, of wave `u` (R167). Log entry 50 (DEDUCED). Log entry 51 (DEDUCED). -/
def copyRequest (s : State) (core : Nat) (e : Entry) (out : Bool) (u : Nat) (q : CopyReq) (p : Produced) : Produced :=
  let esize := layEsize (reqLayout q)
  let n := q.length / esize
  if p.fail.isSome ∨ n = 0 then p
  else
    let g := entryAgent s core e q.pkr
    match engineCheck s g .load q.desc 64 with
    | .error x => failed s g p x
    | .ok pa =>
      match descOf ((entryBytes s core u g.part pa 64).map (·.1)) esize with
      | none => { p with fail := some (.copyDesc, q.desc) }
      | some d =>
        let ext := extents d q.halo
        if ext.foldl (· * ·) 1 < n then { p with fail := some (.copyRange, q.desc) }
        else eachElement (copyElement s g u (e.block.getD 0) out q d ext) (List.range n)
          { p with pages := q.desc :: p.pages, reads := (.memory, pa) :: (.memory, pa + 32) :: p.reads }

/-- A gather's lanes (R173). -/
def gatherRun (s : State) (core : Nat) (e : Entry) (size off : Nat) (ls : List (Nat × Nat)) : Produced :=
  let g := entryAgent s core e e.pkr
  let k := e.block.getD 0
  ls.foldl (fun p l =>
    if p.fail.isSome then p
    else match engineCheck s g .load l.2 size with
      | .error x => failed s g p x
      | .ok pa => { addElement p (.spad k, off + l.1 * size) (entryBytes s core e.wave g.part pa size) with
                    pages := l.2 :: p.pages, reads := (.memory, pa) :: p.reads }) {}

/-- Holds the engine writes of an entry in its core's engine hold-back (R178). -/
def holdWrites (s : State) (core q : Nat) (e : Entry) (delay : Nat) (l : List (List EngineWrite)) : State :=
  l.foldl (fun t x => { t with
    nextId := t.nextId + 1
    held := t.held ++ [{ id := t.nextId, issued := t.now + delay, due := t.now + delay + Config.holdback, core := core
                         seat := none, wave := e.wave, block := e.block, eff := .engine e.id q x }] }) s

/-- The state after an entry of a queue was performed: what it writes is held, its failure is kept for its completion
(R171). -/
def produced (s : State) (core q : Nat) (e : Entry) (pkr : DWord) (p : Produced) : State :=
  let s1 := cacheAll s (entryAgent s core e pkr) p.pages
  let s3 := { s1 with tags := absorb s1.tags (p.pairs ++ unitPairs p.cells) }
  let s4 := holdWrites s3 core q e (Config.engineTransfer e.id) (groupWrites p.joins (p.slices ++ unitWrites p.cells))
  modCore s4 core (fun x =>
    let y := queueAt x q
    setQueue x q { y with entries := y.entries.map (fun z => if z.id = e.id then { z with stage := .releasing, fail := p.fail, malformed := p.malformed, grants := p.grants } else z) })

/-! ### Engine writes leave (R178, R187, R217, R302, R323) -/

/-- Whether cells cover all `n` bytes of the unit of the first of them. -/
def coversUnit (n : Nat) (cells : List (Nat × Byte)) : Bool :=
  match cells with
  | [] => false
  | (a, _) :: _ => (List.range n).all (fun k => cells.any (fun c => decide (c.1 = a / n * n + k)))

/-- Writes a lane word of a window (R213). -/
def windowPut (s : State) (u base : Nat) (cells : List (Nat × Byte)) (tag : Tag) : State :=
  match cells with
  | [] => s
  | (a, _) :: _ =>
    let reg := base + a / 256
    let lane := a % 256 / 4
    let w := waveOf s u
    let old := vLane (mgetD w.v reg {}) lane
    let new := (List.range 4).map (fun k => match cells.reverse.find? (fun c => decide (c.1 % 4 = k)) with
      | some c => c.2
      | none => BitVec.ofNat 8 (old.val.toNat / 2 ^ (8 * k)))
    let m := granMerge (seeTag s.tags w.part old.tag) tag (coversUnit 4 cells)
    { modWave s u (fun w => { w with v := mset w.v reg (vRegSet (mgetD w.v reg {}) lane ⟨BitVec.ofNat 32 (ofBytes new), m.1⟩) }) with
      tags := absorb s.tags m.2 }

/-- Writes bytes of one granule of a tile file (R247, R301). -/
def tileGranule (s : State) (k g : Nat) (bytes : List (Nat × Byte)) (tag : Tag) : State :=
  let m := granMerge (seeTag s.tags (partOfBlock s k) (tagAt (blockOf s k).tileTags g)) tag (coversGranule g bytes)
  { modBlock s k (fun b => { b with tile := memWrite b.tile bytes, tileTags := tagSet b.tileTags g m.1 }) with
    tags := journal (absorb s.tags m.2) m.1 2 k g }

/-- Stores accumulator element `n` (R247, R301). -/
def accStore (s : State) (k n : Nat) (x : AccElem) : State :=
  { modBlock s k (fun b => { b with acc := if x = {} then mdel b.acc n else mset b.acc n x }) with
    tags := journal s.tags x.tag 3 k n }

/-- Writes bytes of one accumulator element; its lost indicator stays (R212). -/
def accPut (s : State) (k : Nat) (cells : List (Nat × Byte)) (tag : Tag) : State :=
  match cells with
  | [] => s
  | (a, _) :: _ =>
    let n := a / 12
    let b := blockOf s k
    let old := mgetD b.acc n {}
    let new := (List.range 12).map (fun j => match cells.reverse.find? (fun c => decide (c.1 = 12 * n + j)) with
      | some c => c.2
      | none => accByte b (12 * n + j))
    let m := granMerge (seeTag s.tags (partOfBlock s k) old.tag) tag (coversUnit 12 cells)
    accStore { s with tags := absorb s.tags m.2 } k n { old with bits := BitVec.ofNat 96 (ofBytes new), tag := m.1 }

/-- An engine write that would leave the package with poison: it is dropped and recorded (R323).
Log entry 52 (DEDUCED). -/
def egress (s : State) (core part ctx : Nat) (x : EngineWrite) (tag : Tag) : State :=
  let a := match x.cells with
    | c :: _ => c.1
    | [] => 0
  postEvent s part { src := dieOfCore core, seq := 0, time := 0, cause := .poisonEgress, severity := 2, tag := tag, addr := a
                     ctx := ctx, asid := (ctxOf s ctx).asid, core := some core }

/-- Whether an engine write may be performed now, by the state it would leave and that tag's journal (R301). -/
def engineMay (s : State) (x : EngineWrite) (tag : Tag) : Bool :=
  match x.dest with
  | .memory => globalMay s x.cells (fun _ => tag)
  | .spad k => spadMay s k x.cells (fun _ => tag)
  | .tile k => mayJournal s.tags ((byGranule x.cells).map (fun g =>
      (2, k, g.1, (granMerge (seeTag s.tags (partOfBlock s k) (tagAt (blockOf s k).tileTags g.1)) tag
        (coversGranule g.1 g.2)).1)))
  | .acc k => mayJournal s.tags (((x.cells.map (fun c => c.1 / 12)).eraseDups).map (fun n =>
      (3, k, n, (granMerge (seeTag s.tags (partOfBlock s k) (mgetD (blockOf s k).acc n {}).tag) tag
        (coversUnit 12 x.cells)).1)))
  | .window _ _ => true

/-- A write of an entry's slice as the later slices of the entry read it (R172). -/
def showWrite (core : Nat) (s : State) (x : EngineWrite) : State :=
  match x.dest with
  | .memory =>
    if regionOf (firstAddr x.cells) = 0 then
      { s with lags := x.cells.foldl (fun l c => lagSet l ⟨dieOfCore core, c.1, c.2, x.tag, none, 0, []⟩) s.lags }
    else { s with ports := s.ports ++ [{ id := s.nextId, part := 0, stream := 0, bytes := x.cells, tag := x.tag, engine := some core }] }
  | .spad k => (byGranule x.cells).foldl (fun t g => spadGranule t k g.1 g.2 x.tag) s
  | .tile k => (byGranule x.cells).foldl (fun t g => tileGranule t k g.1 g.2 x.tag) s
  | .acc k => accPut s k x.cells x.tag
  | .window v base => windowPut s v base x.cells x.tag

/-- The writes of what has been produced so far as writes of slices that are over. -/
def sealSlice (p : Produced) : Produced :=
  { p with cells := [], slices := p.slices ++ unitWrites p.cells, pairs := p.pairs ++ unitPairs p.cells }

/-- What the requests of a copy entry produce, one slice after another, each with the wave that supplied it (R172). -/
def copyAll (s : State) (core : Nat) (e : Entry) (out : Bool) (reqs : List (Nat × CopyReq)) : Produced :=
  reqs.foldl (fun p0 r =>
    let p := sealSlice p0
    copyRequest (p.slices.foldl (showWrite core) s) core e out r.1 r.2 p) {}

/-- The writes that joined a port since a number, as those of a core's engines. -/
def engineOwned (s : State) (core n : Nat) : State :=
  let mark (p : PortWrite) : PortWrite := if n ≤ p.id then { p with engine := some core } else p
  { s with
    ports := s.ports.map mark
    streams := s.streams.map (fun x => (x.1, { x.2 with sent := x.2.sent.map (fun y => (y.1, mark y.2)) })) }

/-- Performs an engine write of the entry of a wave. -/
def engineWrite (s : State) (core u : Nat) (clock : List Nat) (x : EngineWrite) : State :=
  let part := (partOfDie s (dieOfCore core)).getD 0
  let tag := seeTag s.tags part x.tag
  let ctx := (waveOf s u).ctx
  match x.dest with
  | .memory =>
    let outside := x.cells.any (fun c => decide (regionOf c.1 ≠ 0))
    (match outside, tag with
      | true, .poison _ => egress s core part ctx x tag
      | _, _ =>
        let die := dieOfCore core
        let s1 := engineOwned (codeWritten (performWrite s part die (ctxOf s ctx).world x.cells (fun _ => tag) clock [] none false) part
            x.cells)
          core s.nextId
        modWave s1 u (fun w => { w with engineWrote := clockRaise w.engineWrote die (dieOf s1 die).writeSeq }))
  | .spad k => spadPut s k x.cells (fun _ => tag) none []
  | .tile k => (byGranule x.cells).foldl (fun t g => tileGranule t k g.1 g.2 tag) s
  | .acc k => accPut s k x.cells tag
  | .window v base => windowPut s v base x.cells tag

end Sys2Proof.Machine
end

