-- ==== Sys2Proof/Machine/Matrix.lean ====
section
/-! DEFINITION. Matrix state and its instructions (R246 to R267): tiles, format slots (R60, R61), accumulators
(R62 to R65), histograms (R58, R59), quantising (R261), the multiply of an array (R255 to R257), partnerships (R253). -/

namespace Sys2Proof.Machine

/-! ### Format slots and tile shapes -/

/-- Slot `n` of a wave's grid (R60). -/
def slotWord (s : State) (g n : Nat) : Word := nth (gridOf s g).launch.slots n 0

/-- The A format of a slot. -/
def fsA (x : Nat) : Nat := bits x 3 0
/-- The B format. -/
def fsB (x : Nat) : Nat := bits x 7 4
/-- Whether the accumulators are float96. -/
def fsFloat (x : Nat) : Bool := decide (bits x 11 8 = 1)
/-- The binary point P. -/
def fsP (x : Nat) : Nat := bits x 19 12
/-- The scale mode. -/
def fsScale (x : Nat) : Nat := bits x 23 20
/-- The output rounding. -/
def fsRound (x : Nat) : Nat := bits x 27 24
/-- The saturation bit. -/
def fsSat (x : Nat) : Bool := bitAt x 28
/-- The outliers bit. -/
def fsOutliers (x : Nat) : Bool := bitAt x 29

/-- Whether a slot is invalid (R61). -/
def slotBad (x : Nat) : Bool :=
  decide (8 < fsA x) || decide (8 < fsB x) || decide (1 < bits x 11 8) ||
  (if fsFloat x then decide (fsP x ≠ 0) else decide (95 < fsP x)) || decide (2 < fsScale x) || decide (4 < fsRound x) ||
  decide (bits x 31 30 ≠ 0)

/-- The rows of a tile configuration (R248). Log entry 33 (DEDUCED). -/
def tcRows (w : Nat) : Nat := bits w 7 0
/-- RB, in 16-byte units. -/
def tcRB (w : Nat) : Nat := bits w 15 8
/-- The element code. -/
def tcElem (w : Nat) : Nat := bits w 19 16
/-- The start in bytes. -/
def tcStart (w : Nat) : Nat := 256 * bits w 31 20

/-- The width of an element code in bits (R249). -/
def elemWidth (f : Nat) : Nat := if f = 0 then 32 else if f ≤ 2 then 16 else if f = 7 ∨ f = 8 then 4 else 8

/-- The group size of a format under a scale mode; 0 where elements have no scale in the tile (R249). -/
def groupSize (f sm : Nat) : Nat :=
  if (f = 3 ∨ f = 4 ∨ f = 5 ∨ f = 7 ∨ f = 8) ∧ sm = 1 then 32
  else if (f = 3 ∨ f = 4 ∨ f = 5 ∨ f = 7 ∨ f = 8) ∧ sm = 2 then 16
  else 0

/-- K(t) (R249). -/
def tileK (w f sm : Nat) : Nat :=
  if f = 6 then 32 * (16 * tcRB w / 19)
  else
    let g := groupSize f sm
    if g = 0 then 128 * tcRB w / elemWidth f else g * (128 * tcRB w / (g * elemWidth f + 8))

/-! ### Elements of a row -/

/-- An operand element: its value with the scale folded in, and whether its scale is the scale NaN. -/
structure MElem where
  v : FVal
  bad : Bool := false

/-- The value of an element code's bits. -/
def elemValue (f x : Nat) : FVal :=
  match f with
  | 0 => fdecode f32 x
  | 1 => fdecode f16 x
  | 2 => fdecode bf16 x
  | 3 => fdecode e4m3 x
  | 4 => fdecode e5m2 x
  | 5 => .fin (decide (signExt 8 x < 0)) (signExt 8 x).natAbs 0
  | 7 => fdecode e2m1 x
  | _ => .fin (decide (signExt 4 x < 0)) (signExt 4 x).natAbs 0

/-- A value times 2^k. -/
def scaleF (k : Int) : FVal → FVal
  | .fin n m e => .fin n m (e + k)
  | x => x

/-- The 32 elements of a Q4X block and whether QX_OVERFLOW is set (R57). -/
def q4xBlock (l : List Byte) : List FVal × Bool :=
  let slot (k : Nat) : Nat := (nth l (k / 2) 0).toNat / 16 ^ (k % 2) % 16
  let sc := (nth l 16 0).toNat
  let spare := (nth l 17 0).toNat + 256 * (nth l 18 0).toNat
  let ks := List.range 32
  let esc := ks.filter (fun k => decide (slot k = 8))
  let rankOf (k : Nat) := (esc.filter (fun j => decide (j < k))).length
  let code (k : Nat) := slot (Nat.xor k 1) * 16 + spare / 16 ^ rankOf k % 16
  let zero : FVal := .fin false 0 0
  let invalid := decide (sc = 255) || ks.any (fun k => decide (k % 2 = 0 ∧ slot k = 8 ∧ slot (k + 1) = 8)) ||
    esc.any (fun k => decide (rankOf k < 4 ∧ code k % 128 = 127))
  if invalid then (ks.map (fun _ => zero), true)
  else
    (ks.map (fun k =>
      let sh : Int := sc - 127
      if slot k = 8 then (if rankOf k < 4 then scaleF sh (fdecode e4m3 (code k)) else zero)
      else if slot (Nat.xor k 1) = 8 then zero
      else scaleF sh (elemValue 8 (slot k))), decide (4 < esc.length))

/-- The bytes of a row that its elements and scales use (R249). -/
def rowUse (w f sm : Nat) : Nat :=
  let k := tileK w f sm
  if f = 6 then k / 32 * 19 else k * elemWidth f / 8 + (if groupSize f sm = 0 then 0 else k / groupSize f sm)

/-- The elements of row `r` of a tile of a block, the tags read, and whether QX_OVERFLOW is set. -/
def tileRow (b : Block) (w f sm r : Nat) : List MElem × Tag × Bool :=
  let start := tcStart w + 16 * tcRB w * r
  let n := rowUse w f sm
  let bytes := memRead b.tile start n
  let grans := ((List.range n).map (fun k => (start + k) / 32)).eraseDups
  let tag := mergeTags (grans.map (tagAt b.tileTags))
  let k := tileK w f sm
  if f = 6 then
    let blocks := (List.range (k / 32)).map (fun j => q4xBlock ((bytes.drop (19 * j)).take 19))
    (blocks.flatMap (fun x => x.1.map (fun v => { v := v })), tag, blocks.any (·.2))
  else
    let g := groupSize f sm
    let x := ofBytes (bytes.take (k * elemWidth f / 8))
    let elem (i : Nat) : MElem :=
      let v := elemValue f (x / 2 ^ (elemWidth f * i) % 2 ^ elemWidth f)
      if g = 0 then { v := v }
      else
        let sc := (nth bytes (k * elemWidth f / 8 + i / g) 0).toNat
        { v := scaleF (sc - 127) v, bad := decide (sc = 255) }
    ((List.range k).map elem, tag, false)

/-- The tags of the granules of such a row that are not clean. -/
def rowTags (b : Block) (w f sm r : Nat) : List Tag :=
  let start := tcStart w + 16 * tcRB w * r
  let grans := ((List.range (rowUse w f sm)).map (fun k => (start + k) / 32)).eraseDups
  (grans.map (tagAt b.tileTags)).filter (fun t => decide (t ≠ .clean))

/-! ### Accumulators (R62 to R65) -/

/-- The least and greatest fixed96 value. -/
def fixMin : Int := -(2 ^ 95 : Nat)
/-- The greatest fixed96 value. -/
def fixMax : Int := (2 ^ 95 : Nat) - 1

/-- A fixed96 value clamped to its range, with ACC_SAT. -/
def fixClamp (x : Int) : Int × Sticky :=
  if fixMax < x then (fixMax, fACCSAT) else if x < fixMin then (fixMin, fACCSAT) else (x, 0)

/-- Floor(x × 2^e) and whether it is inexact. -/
def floorShift (x e : Int) : Int × Bool :=
  if 0 ≤ e then (x * ((2 ^ e.toNat : Nat) : Int), false)
  else
    let d : Int := ((2 ^ (-e).toNat : Nat) : Int)
    (x.fdiv d, decide (x.fdiv d * d ≠ x))

/-- A product of two elements. -/
inductive Term where
  | nan (f : Sticky)
  | inf (neg : Bool)
  | num (x e : Int) (neg : Bool)

/-- The format of a NaN of an element code. -/
def nanFmt (f : Nat) : Fmt := if f = 0 then f32 else if f = 1 then f16 else if f = 2 then bf16 else if f = 3 then e4m3 else e5m2

/-- Whether an element is a signalling NaN of its format. -/
def isSignal (f : Nat) : FVal → Bool
  | .nan _ fr => signalling (nanFmt f) fr
  | _ => false

/-- The product of an A element and a B element (R64); under a scale of 0xFF a signalling factor sets INVALID, and a zero times
an infinity sets none. Log entry 91 (DEDUCED). -/
def termOf (fa fb : Nat) (a b : MElem) : Term :=
  if a.bad || b.bad then .nan (when (isSignal fa a.v || isSignal fb b.v) fINVALID)
  else
    let neg := signOf a.v != signOf b.v
    match a.v, b.v with
    | .fin n m e, .fin k p q => .num (signedM n m * signedM k p) (e + q) neg
    | .nan _ _, _ => .nan (when (isSignal fa a.v || isSignal fb b.v) fINVALID)
    | _, .nan _ _ => .nan (when (isSignal fa a.v || isSignal fb b.v) fINVALID)
    | x, y => if isZero x || isZero y then .nan fINVALID else .inf neg

/-- Whether a term is a number. -/
def Term.isNum : Term → Bool
  | .num _ _ _ => true
  | _ => false

/-- The exact sum of numbers, as a multiple of a unit. -/
def sumTerms (l : List Term) : Int × Int :=
  l.foldl (fun s t => match t with
    | .num x e _ => if x = 0 then s else if s.1 = 0 then (x, e) else addDyadic s.1 s.2 x e
    | _ => s) (0, 0)

/-- A group of a fixed96 sum (R63, R65): the element and its flags. -/
def fixGroup (p : Nat) (x : AccElem × Sticky) (l : List Term) : AccElem × Sticky :=
  if l.all Term.isNum then
    let t := sumTerms l
    let q := floorShift t.1 (t.2 + p)
    let r := fixClamp (x.1.bits.toInt + q.1)
    ({ x.1 with bits := BitVec.ofInt 96 r.1, lost := x.1.lost || q.2 }, x.2 ||| r.2)
  else (x.1, x.2 ||| fINVALID)

/-- The sum C of a chunk (R64): a float96 operand and the flags of its formation; infinities of opposite sign beside a NaN term
set no flag. Log entry 91 (DEDUCED). -/
def chunkSum (l : List Term) : Term × Sticky :=
  let flags := l.foldl (fun f t => match t with
    | .nan g => f ||| g
    | _ => f) (0 : Sticky)
  let nan := l.any (fun t => match t with
    | .nan _ => true
    | _ => false)
  let infs := l.filterMap (fun t => match t with
    | .inf n => some n
    | _ => none)
  if nan then (.nan 0, flags)
  else match infs with
    | n :: r => if r.any (· != n) then (.nan 0, flags ||| fINVALID) else (.inf n, flags)
    | [] =>
      let s := sumTerms l
      let neg := if s.1 = 0 then !l.isEmpty && l.all (fun t => match t with
          | .num _ _ n => n
          | _ => false) else decide (s.1 < 0)
      (.num s.1 s.2 neg, flags)

/-- acc + C in float96, rounded once with `rne` (R64). -/
def f96Add (x : Nat) (c : Term) : Nat × Sticky :=
  match fdecode f96 x, c with
  | .nan _ _, _ => (defaultNaN f96, 0)
  | _, .nan f => (defaultNaN f96, f)
  | .inf n, .inf k => if n = k then (infinity f96 n, 0) else (defaultNaN f96, fINVALID)
  | .inf n, _ => (infinity f96 n, 0)
  | _, .inf k => (infinity f96 k, 0)
  | .fin n m e, .num y q k => roundSum f96 0 false (zeroSign 0 n k) (addDyadic (signedM n m) e y q)

/-- The lists of `n` elements each that a list is cut into. -/
def chunksOf (n : Nat) : Nat → List Term → List (List Term)
  | 0, _ => []
  | k + 1, l => if l.isEmpty then [] else l.take n :: chunksOf n k (l.drop n)

/-- `Accumulate` (R63, R64) of a row of A and a row of B into an element. -/
def accumulate (slot : Nat) (x : AccElem) (a b : List MElem) (tag : Tag) : AccElem × Sticky :=
  let terms := (a.zip b).map (fun y => termOf (fsA slot) (fsB slot) y.1 y.2)
  let r := if fsFloat slot then
      (chunksOf 16 terms.length terms).foldl (fun (z : AccElem × Sticky) l =>
        let c := chunkSum l
        let s := f96Add z.1.bits.toNat c.1
        ({ z.1 with bits := BitVec.ofNat 96 s.1 }, z.2 ||| c.2 ||| s.2)) (x, 0)
    else (chunksOf (if groupSize (fsA slot) (fsScale slot) = 16 ∨ groupSize (fsB slot) (fsScale slot) = 16 then 16 else 32)
      terms.length terms).foldl (fixGroup (fsP slot)) (x, 0)
  ({ r.1 with tag := mergeTag x.tag tag }, r.2)

/-- The value an element stands for under a slot (R62). -/
def accValue (slot : Nat) (x : AccElem) : FVal :=
  if fsFloat slot then fdecode f96 x.bits.toNat
  else .fin (decide (x.bits.toInt < 0)) x.bits.toInt.natAbs (-(fsP slot : Int))

/-- Whether an output format code is one that R258 defines. -/
def outOk (f : Nat) : Bool := decide (f < 10 ∧ f ≠ 6)

/-- An element converted out under a slot into a format (R65, R259). -/
def accOut (slot f : Nat) (x : AccElem) : Nat × Sticky :=
  let v := accValue slot x
  let rm := fsRound slot
  if f = 9 then toNarrow (.int 32) rm false f96 v
  else if 3 ≤ f then toNarrow (narrowOf f) rm (fsSat slot) f96 v
  else
    let g := if f = 0 then f32 else if f = 1 then f16 else bf16
    match v with
    | .nan n fr => (moveNaN f96 g n fr, when (signalling f96 fr) fINVALID)
    | .inf n => if fsSat slot then (maxFinite g n, fSAT) else (infinity g n, 0)
    | .fin n m e =>
      if fsSat slot && tooBig g (roundSig g.fb g.low rm n m e false) then (maxFinite g n, fOVERFLOW ||| fINEXACT ||| fSAT)
      else roundF g rm false n m e

/-- The element a converted f32 value makes (R259). Log entry 35 (DEDUCED). -/
def accIn (slot : Nat) (x : Word) (tag : Tag) : AccElem × Sticky :=
  match fdecode f32 x.toNat with
  | .nan n fr =>
    if fsFloat slot then ({ bits := BitVec.ofNat 96 (moveNaN f32 f96 n fr), tag := tag }, when (signalling f32 fr) fINVALID)
    else ({ tag := tag }, fINVALID)
  | .inf n => if fsFloat slot then ({ bits := BitVec.ofNat 96 (infinity f96 n), tag := tag }, 0) else ({ tag := tag }, fINVALID)
  | .fin n m e =>
    if fsFloat slot then ({ bits := BitVec.ofNat 96 (roundF f96 0 false n m e).1, tag := tag }, 0)
    else
      let q := floorShift (signedM n m) (e + fsP slot)
      let r := fixClamp q.1
      ({ bits := BitVec.ofInt 96 r.1, lost := q.2, tag := tag }, r.2)

/-! ### Held writes of matrix state (R247) -/

/-- A raw part of an element written, or its lost indicator (R259). -/
def accPart (see : Tag → Tag) (old x : AccElem) (part : Nat) : AccElem :=
  if part = 0 then x
  else if part = 4 then { old with lost := x.bits.getLsbD 0 }
  else
    let sh := 32 * (part - 1)
    let keep := old.bits &&& ~~~(((0xFFFFFFFF : BitVec 96)) <<< sh)
    { old with bits := keep ||| ((x.bits &&& 0xFFFFFFFF) <<< sh), tag := mergeTag (see old.tag) x.tag }

/-- An element stored; a default element is not listed. -/
def accSet (m : Map AccElem) (n : Nat) (x : AccElem) : Map AccElem := if x = {} then mdel m n else mset m n x

/-- A write applied to a block's matrix state; the states it merges into are as its partition sees them (R307). -/
def applyMatrix (see : Tag → Tag) (b : Block) : MatrixWrite → Block
  | .tconf t w => { b with tconf := mset b.tconf t w, twind := mdel b.twind t }
  | .twind t w => { b with twind := mset b.twind t w }
  | .tile bytes tags =>
    (byGranule bytes).foldl (fun b g =>
      let t := mergeTags ((tags.filter (fun x => decide (x.1 = g.1))).map (·.2))
      { b with tile := memWrite b.tile g.2
               tileTags := tagSet b.tileTags g.1 (granMerge (see (tagAt b.tileTags g.1)) t (coversGranule g.1 g.2)).1 }) b
  | .accClear t => { b with acc := b.acc.filter (fun x => !decide (x.1 / 8192 = t)) }
  | .acc elems part => { b with acc := elems.foldl (fun m x => accSet m x.1 (accPart see (mgetD m x.1 {}) x.2 part)) b.acc }
  | .histAdd bins tag =>
    { b with hist := bins.foldl (fun m n => mset m n (satUp (mgetD m n 0) 1)) b.hist, histTag := mergeTag (see b.histTag) tag }
  | .histClear => { b with hist := [], histTag := .clean }

/-- The granules and elements a write touches, as (space, number, the tags that meet there, the state left) (R300,
R301). -/
def matrixTouched (see : Tag → Tag) (b : Block) (w : MatrixWrite) : List (Nat × Nat × List Tag × Tag) :=
  let b' := applyMatrix see b w
  match w with
  | .tile bytes tags => (byGranule bytes).map (fun g =>
      (2, g.1, (if coversGranule g.1 g.2 then [] else [see (tagAt b.tileTags g.1)]) ++ (tags.filter (fun x => decide (x.1 = g.1))).map (·.2), tagAt b'.tileTags g.1))
  | .acc elems p => elems.map (fun x =>
      (3, x.1, (if p = 0 then [] else [see (mgetD b.acc x.1 {}).tag]) ++ [x.2.tag], (mgetD b'.acc x.1 {}).tag))
  | .histAdd _ t => [(4, 0, [see b.histTag, t], b'.histTag)]
  | _ => []

/-- A block as a wave sees it: with its own held matrix writes applied (R247). -/
def seenBlock (s : State) (u k : Nat) : Block :=
  s.held.foldl (fun b h =>
    match h.eff with
    | .matrix w =>
      if h.wave = u ∧ h.seat.isSome ∧ h.block = some k then applyMatrix (seeTag s.tags (partOfBlock s k)) b w else b
    | _ => b) (blockOf s k)

/-- A block's matrix state with its tags as its partition sees them (R307). -/
def shownBlock (s : State) (k : Nat) : Block :=
  let see := seeTag s.tags (partOfBlock s k)
  let b := blockOf s k
  { b with tileTags := b.tileTags.map (fun x => (x.1, see x.2)), acc := b.acc.map (fun x => (x.1, { x.2 with tag := see x.2.tag })) }

/-- MATRIX_WRITE_PERFORM (R247). -/
def execMatrixWritePerform (n : Nat) (s : State) : Host.Outcome State Fault Refusal :=
  perform s n "MATRIX_WRITE_PERFORM" (fun s1 h =>
    match h.eff with
    | .matrix w =>
      let k := h.block.getD 0
      let part := (gridOf s1 (blockOf s1 k).grid).part
      let fresh : MatrixWrite := match w with
        | .tile bytes tags => .tile bytes (tags.map (fun t => (t.1, seeTag s1.tags part t.2)))
        | .acc elems p => .acc (elems.map (fun x => (x.1, { x.2 with tag := seeTag s1.tags part x.2.tag }))) p
        | .histAdd bins t => .histAdd bins (seeTag s1.tags part t)
        | y => y
      let see := seeTag s1.tags part
      let touched := matrixTouched see (blockOf s1 k) fresh
      let runs : List (Nat × Nat × Nat × Tag) :=
        (touched.filter (fun x => decide (x.1 ≠ 4))).map (fun x => (x.1, k, x.2.1, x.2.2.2))
      if mayJournal s1.tags runs = true then
        let tags := touched.foldl (fun t x =>
          let t1 := absorb t (absorptions x.2.2.1)
          if x.1 = 4 then t1 else journal t1 x.2.2.2 x.1 k x.2.1) s1.tags
        some { modBlock s1 k (fun b => applyMatrix see b fresh) with tags := tags }
      else none
    | _ => none)

/-- Holds a matrix write and ends the issue. -/
def holdMatrix (s : State) (c : Ctx) (w : MatrixWrite) (sticky : Sticky) : State :=
  finish (hold s c.uid (.matrix w) none).2 c c.w sticky []

/-! ### Tiles -/

/-- The number of a tile operand. -/
def tileOf : Operand → Nat
  | .t n => n
  | _ => 0
/-- The number of an accumulator operand. -/
def accOf : Operand → Nat
  | .acc n => n
  | _ => 0

/-- `tcfg` (R248). Log entry 33 (DEDUCED). -/
def execTcfg (d a : Operand) (s : State) : Host.Outcome State Fault Refusal :=
  run (.tcfg d a) s (fun s1 c => attached s1 c (fun k =>
    let x := readU c a
    let n := x.toNat
    if tcRows n = 0 ∨ 128 < tcRows n ∨ tcRB n = 0 ∨ 16 < tcRB n ∨ 8 < tcElem n then trapAt s1 c .illegalField x
    else if (blockOf s1 k).tileLen < tcStart n + 16 * tcRB n * tcRows n then trapAt s1 c .tileConfig x
    else holdMatrix s1 c (.tconf (tileOf d) x) 0))

/-- `twin` (R250). Log entry 33 (DEDUCED). -/
def execTwin (d a : Operand) (s : State) : Host.Outcome State Fault Refusal :=
  run (.twin d a) s (fun s1 c => attached s1 c (fun _ =>
    let x := readU c a
    if bits x.toNat 31 22 ≠ 0 ∨ 127 < bits x.toNat 7 0 then trapAt s1 c .illegalField x
    else holdMatrix s1 c (.twind (tileOf d) x) 0))

/-! ### Accumulator access (R258, R259) -/

/-- Checks a slot, then goes on (R61). -/
def slotThen (s : State) (c : Ctx) (n : Nat) (k : Nat → State) : State :=
  let x := slotWord s c.w.grid n
  if slotBad x.toNat then trapAt s c .formatSlot x else k x.toNat

/-- Checks an accumulator index, then goes on (R255). -/
def accThen (s : State) (c : Ctx) (k : Nat) (a : Operand) (go : State) : State :=
  if (blockOf s k).accs ≤ accOf a then trapAt s c .tileConfig (BitVec.ofNat 32 a.code) else go

/-- Whether a control word of `accrd` or `accwr` breaks R258. -/
def accCtlBad (x : Nat) (wr : Bool) : Bool :=
  decide (bits x 31 28 ≠ 0) || !outOk (bits x 27 24) || (wr && decide (bits x 27 24 ≠ 0)) || bitAt x 23 ||
  decide (64 < bits x 22 16) || bitAt x 15 || decide (63 < bits x 14 8) || bitAt x 7 || decide (4 < bits x 6 4) || bitAt x 3

/-- The checks of `accrd` and `accwr`; `go` is given the control word and the slot. Log entry 34 (DEDUCED). -/
def accAccess (s : State) (c : Ctx) (acc ctl : Operand) (wr : Bool) (go : Nat → Nat → Nat → State) : State :=
  attached s c (fun k =>
    let x := readU c ctl
    if accCtlBad x.toNat wr then trapAt s c .illegalField x
    else slotThen s c (x.toNat % 8) (fun slot => accThen s c k acc (go k x.toNat slot)))

/-- The element number a lane of a control word names. -/
def accElemOf (t ctl l : Nat) : Nat := 8192 * t + 128 * bits ctl 14 8 + bits ctl 22 16 + l

/-- `accz` (R259). -/
def execAccz (d : Operand) (s : State) : Host.Outcome State Fault Refusal :=
  run (.accz d) s (fun s1 c => attached s1 c (fun k => accThen s1 c k d (holdMatrix s1 c (.accClear (accOf d)) 0)))

/-- `accrd` (R259). -/
def execAccrd (d a b : Operand) (s : State) : Host.Outcome State Fault Refusal :=
  run (.accrd d a b) s (fun s1 c => accAccess s1 c a b false (fun k ctl slot =>
    let seen := seenBlock s1 c.uid k
    let part := bits ctl 6 4
    let lane (l : Nat) : LaneRes :=
      let x := mgetD seen.acc (accElemOf (accOf a) ctl l) {}
      let y : Nat × Sticky := if part = 0 then accOut slot (bits ctl 27 24) x
        else if part = 4 then (if x.lost then 1 else 0, 0)
        else (x.bits.toNat / 2 ^ (32 * (part - 1)) % 2 ^ 32, 0)
      (BitVec.ofNat 64 y.1, [c.see x.tag], y.2)
    let r := writeLanes c d false lane
    finish s1 c r.w r.sticky r.pairs))

/-- `accwr` (R259). -/
def execAccwr (d a b : Operand) (s : State) : Host.Outcome State Fault Refusal :=
  run (.accwr d a b) s (fun s1 c => accAccess s1 c d b true (fun _ ctl slot =>
    let part := bits ctl 6 4
    let lane (l : Nat) : Nat × AccElem × Sticky :=
      let x := read32 c a l
      let n := accElemOf (accOf d) ctl l
      if part = 0 then
        let r := accIn slot (x.val.setWidth 32) x.tag
        (n, r.1, r.2)
      else (n, { bits := x.val.setWidth 96, tag := x.tag }, 0)
    let ls := (lanesOf c.act).map lane
    let seen := (seenBlock s1 c.uid (c.w.block.getD 0)).acc
    let pairs := if part = 0 then [] else ls.flatMap (fun x => absorptions [c.see (mgetD seen x.1 {}).tag, x.2.1.tag])
    holdMatrix { s1 with tags := absorb s1.tags pairs } c (.acc (ls.map (fun x => (x.1, x.2.1))) part) (ls.foldl (fun f x => f ||| x.2.2) 0)))

/-! ### Histograms (R58 to R60) -/

/-- `hist` (R260). -/
def execHist (a : Operand) (s : State) : Host.Outcome State Fault Refusal :=
  run (.hist a) s (fun s1 c => attached s1 c (fun _ =>
    let lanes := (lanesOf c.act).filter (fun l => match fdecode f32 (read32 c a l).val.toNat with
      | .nan _ _ => false
      | _ => true)
    let tags := lanes.map (fun l => (read32 c a l).tag)
    holdMatrix { s1 with tags := absorb s1.tags (absorptions tags) } c (.histAdd (lanes.map (fun l => bits (read32 c a l).val.toNat 30 23)) (mergeTags tags)) 0))

/-- `hclr` (R260). -/
def execHclr (s : State) : Host.Outcome State Fault Refusal :=
  run .hclr s (fun s1 c => attached s1 c (fun _ => holdMatrix s1 c .histClear 0))

/-- EMAX of a target (R59). -/
def emaxOf (f : Nat) : Int := if f = 3 then 8 else if f = 4 then 15 else if f = 5 then 6 else 2

/-- The smallest bin whose cumulative count reaches `t` (R59). -/
def binReach (m : Map Nat) (t : Nat) : Nat :=
  ((List.range 256).find? (fun b => decide (t ≤ (m.filter (fun x => decide (x.1 ≤ b))).foldl (fun n x => n + x.2) 0))).getD 255

/-- The scale for a percentile and a target (R59). -/
def scaleFor (m : Map Nat) (q f : Nat) : Nat :=
  let n := m.foldl (fun n x => n + x.2) 0
  if n = 0 then 0x7F
  else
    let e : Int := (binReach m ((q * n + 1023) / 1024) : Int) - 127 - emaxOf f + 127
    if e < 0 then 0 else if 254 < e then 254 else e.toNat

/-- `hscale` (R260). -/
def execHscale (d a : Operand) (s : State) : Host.Outcome State Fault Refusal :=
  run (.hscale d a) s (fun s1 c => attached s1 c (fun k =>
    let x := readU c a
    let n := x.toNat
    let q := bits n 10 0
    let f := bits n 19 16
    if q = 0 ∨ 1024 < q ∨ ¬ ([3, 4, 5, 6, 7, 8].contains f) ∨ bits n 15 11 ≠ 0 ∨ bits n 31 20 ≠ 0 then trapAt s1 c .illegalField x
    else
      let b := seenBlock s1 c.uid k
      let w := match c.skip, uniformDest d with
        | false, some r => setS c.w r ⟨BitVec.ofNat 32 (scaleFor b.hist q f), c.see b.histTag⟩
        | _, _ => c.w
      finish s1 c w 0 []))

/-! ### Quantising (R261) -/

/-- A slot of a half as it is quantised: its lane's value and tag. -/
abbrev QLane := FVal × Tag

/-- The lanes accepted as outliers: up to four candidates by descending magnitude, ties to the lower, no neighbours. -/
def acceptOutliers : Nat → List Nat → List Nat → (Nat → Nat → Bool) → List Nat
  | 0, _, acc, _ => acc
  | n + 1, cand, acc, above =>
    let best := cand.foldl (fun m k => match m with
      | none => some k
      | some j => if above k j then some k else some j) (none : Option Nat)
    match best with
    | none => acc
    | some k =>
      let acc' := if acc.length < 4 ∧ !acc.contains (Nat.xor k 1) then acc ++ [k] else acc
      acceptOutliers n (cand.filter (fun j => decide (j ≠ k))) acc' above

/-- Whether |x| > |y|, both finite. -/
def magAbove (x y : FVal) : Bool :=
  match x, y with
  | .fin _ m e, .fin _ p q => decide ((addDyadic (m : Int) e (-(p : Int)) q).1 > 0)
  | _, _ => false

/-- One Q4X block of 32 lanes: its 19 bytes with the tags of the lanes in each, and the flags (R261). -/
def q4xMake (slot scale : Nat) (x : Nat → QLane) : List (Byte × List Tag) × Sticky :=
  let rm := fsRound slot
  let sh : Int := 127 - scale
  let ks := List.range 32
  let yv (k : Nat) : FVal := scaleF sh (x k).1
  let intOfLane (k : Nat) : Int × Bool := match yv k with
    | .fin n m e => let r := roundInt rm n m e; (signedM n r.1, r.2)
    | _ => (0, false)
  let finite (k : Nat) : Bool := match (x k).1 with
    | .fin _ _ _ => true
    | _ => false
  let cand := ks.filter (fun k => finite k && decide (7 < (intOfLane k).1.natAbs))
  let acc := if fsOutliers slot then acceptOutliers 32 cand [] (fun k j => magAbove (x k).1 (x j).1) else []
  let code (k : Nat) : Nat × Sticky := toNarrow (.flt e4m3) rm true f32 (yv k)
  let sorted := ks.filter acc.contains
  let slotOf (k : Nat) : Nat × Sticky :=
    if acc.contains k then (8, (code k).2)
    else if acc.contains (Nat.xor k 1) then ((code (Nat.xor k 1)).1 / 16 % 16, when (!isZero (x k).1) fINEXACT)
    else match (x k).1 with
      | .nan _ _ => (0, fINVALID)
      | .inf n => (if n then 9 else 7, fSAT)
      | .fin _ _ _ =>
        let r := intOfLane k
        if 7 < r.1 then (7, fSAT ||| fINEXACT) else if r.1 < -7 then (9, fSAT ||| fINEXACT)
        else (wrapInt 4 r.1, when r.2 fINEXACT)
  let spare := (sorted.zip (List.range 4)).foldl (fun n p => n + (code p.1).1 % 16 * 16 ^ p.2) 0
  let tagsOf (l : List Nat) := l.map (fun k => (x k).2)
  let written (k : Nat) : Tag := if acc.contains (Nat.xor k 1) then .clean else (x k).2
  let body := (List.range 16).map (fun j =>
    (BitVec.ofNat 8 ((slotOf (2 * j)).1 + 16 * (slotOf (2 * j + 1)).1), [written (2 * j), written (2 * j + 1)]))
  (body ++ [(BitVec.ofNat 8 scale, []), (BitVec.ofNat 8 spare, tagsOf (sorted.take 2)),
      (BitVec.ofNat 8 (spare / 256), tagsOf (sorted.drop 2))],
    ks.foldl (fun f k => f ||| (slotOf k).2) 0)

/-- `qcvt` (R261). -/
def execQcvt (d a : Operand) (m : BitVec 5) (n : BitVec 3) (s : State) : Host.Outcome State Fault Refusal :=
  run (.qcvt d a m n) s (fun s1 c => attached s1 c (fun k =>
    let x := (sReg c.w m.toNat).val
    let v := x.toNat
    let cfg := (mgetD (seenBlock s1 c.uid k).tconf (tileOf d) 0).toNat
    let row := bits v 14 8
    let j := bits v 23 16
    let scale := bits v 7 0
    if bitAt v 15 ∨ bits v 31 24 ≠ 0 ∨ scale = 255 ∨ tcRows cfg ≤ row ∨ 16 * tcRB cfg / 19 < j + 2 then trapAt s1 c .illegalField x
    else if tcElem cfg ≠ 6 then trapAt s1 c .tileShape (BitVec.ofNat 32 d.code)
    else slotThen s1 c n.toNat (fun slot =>
      let lane (l : Nat) : QLane := if inMask c.act l then
          let r := read32 c a l
          (fdecode f32 r.val.toNat, r.tag)
        else (.fin false 0 0, .clean)
      let h0 := q4xMake slot scale lane
      let h1 := q4xMake slot scale (fun l => lane (l + 32))
      let at_ := tcStart cfg + 16 * tcRB cfg * row + 19 * j
      let cells := h0.1 ++ h1.1
      let bytes := addrBytes at_ (cells.map (·.1))
      let tags := (cells.zip (List.range 38)).flatMap (fun y => y.1.2.map (fun t => ((at_ + y.2) / 32, t)))
      holdMatrix s1 c (.tile bytes tags) (h0.2 ||| h1.2))))

/-! ### Multiplying (R255 to R257) -/

/-- The shape of a product: M, K, and the tile rows gathered into each operand row of A (R250, R255); or the trap.
Log entry 33 (DEDUCED). -/
def productShape (slot ca wa : Nat) (window : Bool) : Option (Nat × Nat × (Nat → List Nat)) :=
  let ka := tileK ca (fsA slot) (fsScale slot)
  if window then
    let m := bits wa 21 16 + 1
    let step := bits wa 15 12 + 1
    let f := bits wa 11 8 + 1
    let o := bits wa 7 0
    if tcRows ca ≤ o + (m - 1) * step + f - 1 then none
    else some (m, f * ka, fun r => (List.range f).map (fun i => o + r * step + i))
  else if 64 < tcRows ca then none
  else some (tcRows ca, ka, fun r => [r])

/-- The trap of a multiply's checks at issue (R255), if there is one; `b` is the block as its wave sees it. -/
def mmaTrap (b : Block) (n : Nat) (slot : Word) (d ta tb : Operand) (window : Bool) : Option (Cause × Word) :=
  let x := slot.toNat
  let ca := (mgetD b.tconf (tileOf ta) 0).toNat
  let cb := (mgetD b.tconf (tileOf tb) 0).toNat
  let wa := (mgetD b.twind (tileOf ta) 0).toNat
  if 1 < n then some (.illegalIssue, BitVec.ofNat 32 n)
  else if b.kind = .dummy then some (.illegalIssue, 0)
  else if slotBad x then some (.formatSlot, slot)
  else if b.accs ≤ accOf d then some (.tileConfig, BitVec.ofNat 32 d.code)
  else if tcElem ca ≠ fsA x ∨ tcRows ca = 0 then some (.tileShape, BitVec.ofNat 32 ta.code)
  else if tcElem cb ≠ fsB x ∨ tcRows cb = 0 then some (.tileShape, BitVec.ofNat 32 tb.code)
  else match productShape x ca wa window with
    | none => some (.tileShape, BitVec.ofNat 32 ta.code)
    | some r => if tileK cb (fsB x) (fsScale x) ≠ r.2.1 then some (.tileShape, BitVec.ofNat 32 tb.code) else none

/-- Issues a multiply. -/
def startMma (n : BitVec 3) (d ta tb : Operand) (window : Bool) (s : State) (c : Ctx) : State :=
  attached s c (fun k =>
    let b := seenBlock s c.uid k
    let slot := slotWord s c.w.grid n.toNat
    if c.act = 0 then finishNop s c
    else match mmaTrap b (laneTotal c.act) slot d ta tb window with
      | some x => trapAt s c x.1 x.2
      | none => withPlaces s c [4] (fun s1 => startEngine s1 c 4 (.mma window slot (accOf d) (tileOf ta) (tileOf tb)
          (mgetD b.tconf (tileOf ta) 0) (mgetD b.tconf (tileOf tb) 0) (mgetD b.twind (tileOf ta) 0)) false))

/-- `mma` (R255). -/
def execMma (n : BitVec 3) (d a b : Operand) (s : State) : Host.Outcome State Fault Refusal :=
  run (.mma n d a b) s (startMma n d a b false)
/-- `mmaw` (R255). -/
def execMmaw (n : BitVec 3) (d a b : Operand) (s : State) : Host.Outcome State Fault Refusal :=
  run (.mmaw n d a b) s (startMma n d a b true)

/-- The accumulators one block takes from a product, with the flags (R256): `a` gives the operand rows of A with their
tags. -/
def productInto (b : Block) (slot cb t m : Nat) (a : Nat → List MElem × Tag × Bool) : List (Nat × AccElem) × Sticky :=
  let rowsB := (List.range (tcRows cb)).map (fun n => tileRow b cb (fsB slot) (fsScale slot) n)
  let cells := (List.range m).flatMap (fun i =>
    let x := a i
    (rowsB.zip (List.range 128)).map (fun y =>
      let n := 8192 * t + 128 * i + y.2
      let r := accumulate slot (mgetD b.acc n {}) x.1 y.1.1 (mergeTag x.2.1 y.1.2.1)
      (n, r.1, r.2)))
  (cells.map (fun x => (x.1, x.2.1)),
    cells.foldl (fun f x => f ||| x.2.2) (when (rowsB.any (·.2.2)) fQX))

/-- The absorptions of a product (R300): the tags that meet in each accumulator, `a` giving those of the operand rows of
A. -/
def productPairs (b : Block) (slot cb t m : Nat) (a : Nat → List Tag) : List (Nat × Nat) :=
  let rowsA := (List.range m).map a
  let rowsB := (List.range (tcRows cb)).map (rowTags b cb (fsB slot) (fsScale slot))
  if (rowsA ++ rowsB).all (fun l => l.isEmpty) && b.acc.all (fun x => decide (x.2.tag = .clean)) then []
  else
    ((rowsA.zip (List.range m)).flatMap (fun x => (rowsB.zip (List.range 128)).flatMap (fun y =>
      absorptions ((mgetD b.acc (8192 * t + 128 * x.2 + y.2) {}).tag :: x.1 ++ y.1)))).eraseDups

/-- Twice the rate of a format, in elements of K per cycle (R251). -/
def rateOf (f : Nat) : Nat := if f = 0 then 1 else if f ≤ 2 then 2 else if f = 3 ∨ f = 4 ∨ f = 5 then 4 else 8

/-- The cycles from an operation's start to its finish (R251). Log entry 50 (DEDUCED). -/
def arrayTime (slot k : Nat) : Nat :=
  let r := Nat.min (rateOf (fsA slot)) (rateOf (fsB slot))
  (2 * k + r - 1) / r - 1 + Config.arrayTail

/-- The partner block of a partnered operation (R254, R256). -/
def partnerOf (s : State) (k : Nat) : Option Nat :=
  let b := blockOf s k
  if (gridOf s b.grid).launch.partnered then b.partner else none

/-- Whether the operation at the head of a core's `qm` is partnered and ready for its arrays. -/
def qmHead (s : State) (core : Nat) : Option Entry := (queueAt (coreOf s core) 4).entries.head?

/-- Whether an entry at the head of `qm` waits only for the arrays: it has entered, its time has come, and the held
matrix writes of its wave are performed (R247). -/
def mmaReady (s : State) (e : Entry) : Bool :=
  decide (e.stage = .waiting) && decide (e.ready ≤ s.now) &&
  (match e.work with
    | .mma _ _ _ _ _ _ _ _ => true
    | _ => false) &&
  !s.held.any (fun h => decide (h.wave = e.wave) && h.seat.isSome && (match h.eff with
    | .matrix _ => true
    | _ => false))

/-- Starts a multiply (R256): the products of both arrays, or the dummy's TILE_SHAPE. -/
def mmaStart (s : State) (core : Nat) (e : Entry) : State :=
  match e.work with
  | .mma window slotW t _ tb ca cb wa =>
    let slot := slotW.toNat
    let k := e.block.getD 0
    let b := shownBlock s k
    match productShape slot ca.toNat wa.toNat window with
    | none => s
    | some (m, kk, rows) =>
      let a (i : Nat) : List MElem × Tag × Bool :=
        (rows i).foldl (fun x r =>
          let y := tileRow b ca.toNat (fsA slot) (fsScale slot) r
          (x.1 ++ y.1, mergeTag x.2.1 y.2.1, x.2.2 || y.2.2)) ([], .clean, false)
      let tagsA (i : Nat) : List Tag := (rows i).flatMap (rowTags b ca.toNat (fsA slot) (fsScale slot))
      let qx := when ((List.range m).any (fun i => (a i).2.2)) fQX
      let own := productInto b slot cb.toNat t m a
      let s0 := { s with tags := absorb s.tags (productPairs b slot cb.toNat t m tagsA) }
      let setE (f : Entry → Entry) (t0 : State) : State := modCore t0 core (fun x =>
        let y := queueAt x 4
        setQueue x 4 { y with entries := y.entries.map (fun z => if z.id = e.id then f z else z) })
      let run (l : List (Nat × List (Nat × AccElem))) (f : Sticky) (t0 : State) : State :=
        setE (fun z => { z with stage := .started s.now, product := l, sticky := f })
          (modCore t0 core (fun x => { x with array := { x.array with
            busy := some e.id, until_ := s.now + arrayTime slot kk, turn := false } }))
      match partnerOf s k with
      | none => run [(k, own.1)] (qx ||| own.2) s0
      | some k2 =>
        let b2 := shownBlock s k2
        let cb2 := (mgetD b2.tconf tb 0).toNat
        if tcElem cb2 ≠ fsB slot ∨ tcRows cb2 = 0 ∨ tileK cb2 (fsB slot) (fsScale slot) ≠ kk then
          setE (fun z => { z with stage := .releasing, fail := some (.tileShape, 0) })
            (modCore s b2.core (fun x => { x with array := { x.array with slaved := false } }))
        else
          let other := productInto b2 slot cb2 t m a
          run [(k, own.1), (k2, other.1)] (qx ||| own.2 ||| other.2)
            { s0 with tags := absorb s0.tags (productPairs b2 slot cb2 t m tagsA) }
  | _ => s

/-- Whether a core's own array may start its head entry: it is idle and not slaved, and a partnered entry has been
granted the dummy's (R253). -/
def mmaMay (s : State) (core : Nat) (e : Entry) : Bool :=
  mmaReady s e && (coreOf s core).array.busy.isNone && !(coreOf s core).array.slaved &&
  (match partnerOf s (e.block.getD 0) with
    | none => true
    | some k2 => (coreOf s (blockOf s k2).core).array.slaved)

/-- ARRAY_GRANT (R253): the dummy core grants its array to its declarer's partnered operation. -/
def execArrayGrant (c : Nat) (s : State) : Host.Outcome State Fault Refusal :=
  let arr := (coreOf s c).array
  let own := (qmHead s c).any (fun e => mmaReady s e)
  match qmHead s (c - 1) with
  | some e =>
    let asks := mmaReady s e && (coreOf s (c - 1)).array.busy.isNone && decide (c % 2 = 1) &&
      (match partnerOf s (e.block.getD 0) with
        | some k2 => decide ((blockOf s k2).core = c)
        | none => false)
    if asks ∧ arr.busy.isNone ∧ !arr.slaved ∧ !(arr.turn ∧ own) then
      .next (modCore s c (fun x => { x with array := { x.array with slaved := true, asked := some e.id } }))
    else .refused (.notEnabled "ARRAY_GRANT")
  | none => .refused (.notEnabled "ARRAY_GRANT")

/-- ARRAY_OP_FINISH (R251, R257): the array is free, and the accumulator writes are held for D cycles. -/
def execArrayOpFinish (c : Nat) (s : State) : Host.Outcome State Fault Refusal :=
  let arr := (coreOf s c).array
  match arr.busy, qmHead s c with
  | some id, some e =>
    if e.id = id ∧ arr.until_ ≤ s.now then
      let s1 := modCore s c (fun x =>
        let y := queueAt x 4
        setQueue { x with array := { x.array with busy := none, turn := false } } 4
          { y with entries := y.entries.map (fun z => if z.id = id then { z with stage := .releasing } else z) })
      let s2 := match partnerOf s (e.block.getD 0) with
        | some k2 => modCore s1 (blockOf s k2).core (fun x => { x with array := { x.array with slaved := false, turn := true, asked := none } })
        | none => s1
      .next (e.product.foldl (fun t p => { t with
        nextId := t.nextId + 1
        held := t.held ++ [{ id := t.nextId, issued := t.now, due := t.now + Config.holdback, core := c, seat := none
                             wave := e.wave, block := some p.1, eff := .matrix (.acc p.2 0), op := some e.id }] }) s2)
    else .refused (.notEnabled "ARRAY_OP_FINISH")
  | _, _ => .refused (.notEnabled "ARRAY_OP_FINISH")

end Sys2Proof.Machine
end

