-- ==== Sys2Proof/Machine/Launch.lean ====
section
/-! DEFINITION. Launch records (R268, R269), cohort lists (R270), launch queues and the Draw (R272, R273), the deal
(R274, R371), the placement of blocks (R67, R68, R93, R145, R182, R252, R328), and the instructions `launch`, `lwait`,
`lstat` (R276 to R278). -/

namespace Sys2Proof.Machine

/-! ### Launch records -/

/-- A field of `n` bytes at offset `at_` of a record. -/
def fieldAt (l : List Byte) (at_ n : Nat) : Nat := ofBytes ((l.drop at_).take n)

/-- The lease ranges of a record: those with a nonzero count. -/
def leasesOf (l : List Byte) : List (Nat × Nat) :=
  ((List.range 16).map (fun i =>
    let x := fieldAt l (104 + 8 * i) 8
    (bits x 32 0 * 65536, bits x 63 33 * 65536))).filter (fun r => decide (r.2 ≠ 0))

/-- The fields of a launch record (R268). -/
def recordOf (l : List Byte) : LaunchRec :=
  let b (k : Nat) := fieldAt l k 1
  { entry := fieldAt l 0 8, handler := fieldAt l 8 8, size := fieldAt l 16 4, waves := b 20, maxWaves := b 21
    stack := fieldAt l 22 2, spad := fieldAt l 24 4, tile := fieldAt l 28 4, accs := b 32, level := bits (b 33) 5 0
    tickets := b 34, confine := bitAt (b 35) 6, search := bits (b 35) 5 4, trapPolicy := bitAt (b 35) 3
    coreDeal := bitAt (b 35) 2, partnered := bitAt (b 35) 1, idempotent := bitAt (b 35) 0
    watchdog := if b 36 = 0 then 26 else b 36, lines := b 37, world := b 38, cohort := b 39
    decks := BitVec.ofNat 64 (fieldAt l 40 8), cohorts := fieldAt l 48 8, spillBase := fieldAt l 56 8
    spillBytes := fieldAt l 64 4, spillAreas := fieldAt l 68 4
    slots := (List.range 8).map (fun i => BitVec.ofNat 32 (fieldAt l (72 + 4 * i) 4)), leases := leasesOf l }

/-- Whether a code address of a record sets a bit that must be zero. -/
def badPc (x : Nat) : Bool := decide (2 ^ 49 ≤ x ∨ x % 4 ≠ 0)

/-- Reason 0x01: a field that must be zero is not. -/
def zerosBad (l : List Byte) : Bool :=
  badPc (fieldAt l 0 8) || badPc (fieldAt l 8 8) || decide (bits (fieldAt l 33 1) 7 6 ≠ 0) || bitAt (fieldAt l 35 1) 7 ||
  decide (fieldAt l 232 24 ≠ 0)

/-- Bytes rounded up to a unit. -/
def roundUp (n unit : Nat) : Nat := (n + unit - 1) / unit * unit

/-- Whether a block with these allocations fits on an empty core (R68). -/
def fitsCore (r : LaunchRec) : Bool :=
  decide (r.spad ≤ Config.spadBytes ∧ r.tile ≤ Config.tileBytes ∧ r.accs ≤ 8 ∧
    r.waves * r.stack ≤ Config.varyingPerCore ∧ r.waves ≤ Config.slotsPerCore)

/-- The reason among 0x01 to 0x07 for which a record is refused, the first in table order (R269). -/
def recordFault (l : List Byte) (world : Nat) : Option Nat :=
  let r := recordOf l
  if zerosBad l then some 1
  else if r.size = 0 ∨ 2 ^ 24 < r.size ∨ (r.partnered ∧ r.size % 2 = 1) then some 2
  else if r.waves = 0 ∨ 64 < r.waves ∨ r.maxWaves < r.waves ∨ 64 < r.maxWaves ∨ r.stack < 64 ∨ 512 < r.stack ∨
      r.stack % 8 ≠ 0 ∨ r.watchdog < 16 ∨ 40 < r.watchdog ∨ 64 < r.lines ∨ 2 < r.search ∨
      r.spillBase % 65536 ≠ 0 ∨ r.spillBytes % 4096 ≠ 0 then some 3
  else if !fitsCore r then some 4
  else if r.tickets = 0 then some 5
  else if r.world ≠ world then some 6
  else if r.leases.any (fun x => decide (2 ^ 49 < x.1 + x.2)) ∨ 2 ^ 49 < r.spillBase + r.spillBytes * r.spillAreas then some 7
  else none

/-! ### Cohort lists (R270) -/

/-- An entry of a cohort list: its index, its member cores, its peers; none where it is malformed. -/
def listEntry (cmap : List Nat) (l : List Byte) : Option (Nat × List Nat × BitVec 16) :=
  let m := fieldAt l 0 36
  if fieldAt l 39 1 ≠ 1 ∨ fieldAt l 40 24 ≠ 0 ∨ m / 2 ^ cmap.length ≠ 0 then none
  else some (fieldAt l 38 1, (List.range cmap.length).filterMap (fun i => if bitAt m i then cmap[i]? else none),
    BitVec.ofNat 16 (fieldAt l 36 2))

/-- The entries of a cohort list; none where the list is malformed. -/
def listEntries (cmap : List Nat) (l : List Byte) : Option (List (Nat × List Nat × BitVec 16)) :=
  let n := fieldAt l 0 4
  if n = 0 ∨ 256 < n ∨ fieldAt l 4 60 ≠ 0 then none
  else
    let es := (List.range n).map (fun i => listEntry cmap ((l.drop (64 * (i + 1))).take 64))
    let ok := es.filterMap id
    let idx := ok.map (·.1)
    if ok.length ≠ n ∨ idx.eraseDups.length ≠ n then none else some ok

/-- The cohort table with the entries of a list held by a grid: a free entry is written, one with the same contents is
shared; none where the list conflicts. -/
def acceptList (m : Map Cohort) (grid : Nat) (es : List (Nat × List Nat × BitVec 16)) : Option (Map Cohort) :=
  let clash := es.any (fun e => match mget m e.1 with
    | some c => decide (c.members ≠ e.2.1 ∨ c.peers ≠ e.2.2)
    | none => false)
  let m1 := es.foldl (fun m e => match mget m e.1 with
    | some c => mset m e.1 { c with holders := c.holders ++ [grid] }
    | none => mset m e.1 { members := e.2.1, peers := e.2.2, holders := [grid] }) m
  let crowded := (m1.flatMap (fun c => c.2.members)).any (fun x => decide (4 < (m1.filter (fun c => c.2.members.contains x)).length))
  if clash || crowded then none else some m1

/-! ### Eligible cores and the deal (R252, R274) -/

/-- Whether a core is live, neither suspect nor quarantined, and in the deal cohort of a confined grid. -/
def eligibleCore (s : State) (part : Nat) (m : Map Cohort) (r : LaunchRec) (core : Nat) : Bool :=
  (partOf s part).cmap.contains core && decide ((coreOf s core).health = .healthy) &&
  (!r.confine || (mgetD m r.cohort {}).members.contains core)

/-- What a grid's blocks are dealt to: cores, or formed pairs, in logical order. -/
def dealUnits (s : State) (part : Nat) (m : Map Cohort) (r : LaunchRec) : List (List Nat) :=
  let ok := (partOf s part).cmap.filter (eligibleCore s part m r)
  if r.partnered then (ok.filter (fun c => decide (c % 2 = 0) && ok.contains (c + 1))).map (fun c => [c, c + 1])
  else ok.map (fun c => [c])

/-- The positions of one round of the deal, each with its permitted units in the order they are tried. A position has
the number of the core it stands for, so that it keeps its place in the round when other cores come and go (R371).
Log entry 56 (DEDUCED). -/
def dealRound (r : LaunchRec) (units : List (List Nat)) : List (Nat × List (List Nat)) :=
  if r.coreDeal then units.map (fun u => (u.headD 0, [u]))
  else
    let clusters := (units.map (fun u => u.headD 0 / 4)).eraseDups
    clusters.flatMap (fun c =>
      let mine := units.filter (fun u => decide (u.headD 0 / 4 = c))
      (if r.partnered then [0, 2] else [0, 1, 2, 3]).map (fun p =>
        (4 * c + p, mine.filter (fun u => decide (u.headD 0 = 4 * c + p)) ++ mine)))

/-- The positions of a grid's deal from its next one on: those that follow the last one used, then the next round. -/
def dealOrder (s : State) (g : Grid) : List (Nat × List (List Nat)) :=
  let ps := dealRound g.launch (dealUnits s g.part (partOf s g.part).cohorts g.launch)
  ps.filter (fun p => decide (g.position ≤ p.1)) ++ ps.filter (fun p => decide (p.1 < g.position))

/-- The position that the next new block of a grid is dealt to, with its permitted units (R274). -/
def dealNext (s : State) (g : Grid) : Nat × List (List Nat) := (dealOrder s g).headD (g.position, [])

/-! ### Capacity (R68, R182) -/

/-- The blocks that hold allocations of a core: its own, and those whose shadow it runs. -/
def blocksOn (s : State) (core : Nat) : List Block :=
  (s.blocks.filter (fun b => decide (b.2.core = core ∨ b.2.redundant = some core))).map (·.2)

/-- The lowest offset at which a scratchpad allocation fits on a core. Log entry 54 (DESIGN CHOICE). -/
def spadFit (s : State) (core len : Nat) : Option Nat :=
  let used := (blocksOn s core).map (fun b => (b.spadBase, b.spadLen))
  let free (a : Nat) : Bool := decide (a + len ≤ Config.spadBytes) &&
    used.all (fun u => decide (u.2 = 0 ∨ u.1 + u.2 ≤ a ∨ a + len ≤ u.1))
  least ((0 :: used.map (fun u => u.1 + u.2)).filter free)

/-- Whether a block's allocations fit on a core at once, for some number of waves and registers. -/
def roomFor (s : State) (r : LaunchRec) (waves regs core : Nat) : Bool :=
  let bs := blocksOn s core
  decide (bs.length < Config.blocksPerCore) &&
  decide ((wavesOn s core).length + waves ≤ Config.slotsPerCore) && decide (regs ≤ varyingFree s core) &&
  decide (bs.foldl (fun n b => n + b.accs) 0 + r.accs ≤ 8) &&
  decide (bs.foldl (fun n b => n + b.tileLen) 0 + roundUp r.tile 256 ≤ Config.tileBytes) &&
  (spadFit s core (roundUp r.spad 4096)).isSome

/-- Whether a new block of a grid fits on a core. -/
def hasRoom (s : State) (r : LaunchRec) (core : Nat) : Bool := roomFor s r r.waves (r.waves * r.stack) core


/-! ### Placing blocks -/

/-- Pushes the first code lines of a kernel into a core's L1 code (R145). -/
def pushCode (s : State) (w : Wave) (entry : Nat) (n : Nat) : State :=
  (List.range n).foldl (fun t i =>
    match codeLine t w (entry / 64 * 64 + 64 * i) with
    | .words pa l true => cacheLine t w.core pa l
    | _ => t) s

/-- Places waves from their number, one after another, in slots of a core (R67, R278). -/
def placeFirst : Nat → State → Nat → Nat → Nat → List Nat × State
  | 0, s, _, _, _ => ([], s)
  | n + 1, s, g, core, k =>
    let r := placeWave s g core (gridOf s g).launch.entry 1 (some k) (gridOf s g).clock
    let t := placeFirst n r.2 g core k
    (r.1 :: t.1, t.2)

/-- Waves of a list in ascending seat and slot (R86). Log entry 56 (DEDUCED). -/
def slotOrder (s : State) (l : List Nat) : List Nat :=
  (List.range 128).flatMap (fun i => l.filter (fun u => decide (16 * (waveOf s u).seat + (waveOf s u).slot = i)))

/-- The shadow core of a new block, if it is placed as a redundant pair (R328). -/
def shadowFor (s : State) (r : LaunchRec) (part : Nat) : Option Nat :=
  if r.partnered || !Config.redundantPlace s.nextId then none
  else (partOf s part).cmap.find? (fun c => decide ((coreOf s c).health ≠ .healthy) && hasRoom s r c)

/-- The empty record of a block of a grid on a core (R68, R93, R182, R246). -/
def newBlock (s : State) (g index core : Nat) (kind : PlaceKind) : Block :=
  let r := (gridOf s g).launch
  { grid := g, index := index, core := core, kind := kind, order := s.nextId, maxWaves := r.maxWaves
    spadBase := (spadFit s core (roundUp r.spad 4096)).getD 0, spadLen := roundUp r.spad 4096
    tileLen := roundUp r.tile 256, accs := r.accs, vregs := r.waves * r.stack
    barriers := barNumbers.map (fun _ => {}) }

/-- A block just placed is taken by the save commands that wait for the next block of its grid, with the reason of the
newest of them (R342, R344). -/
def followSaves (s : State) (g k : Nat) : State :=
  let p := (gridOf s g).part
  let xs := (partOf s p).saves.filter (fun x => x.follow.contains g)
  match xs.getLast? with
  | some x =>
    acceptPreempt (modPart s p (fun q => { q with saves := q.saves.map (fun y => { y with follow := y.follow.erase g }) }))
      k x.reason (xs.map (·.id))
  | none => s

/-- The cycle from which a wave of a block may first issue (R376); a block placed in the cycle of its grid's enqueue is
within the bound of R7. Log entry 7 (DESIGN CHOICE). -/
def firstIssue (s : State) (g k : Nat) : Nat :=
  s.now + if (gridOf s g).enqueued = s.now then Nat.min Config.launchBound (Config.launchLatency k) else Config.launchLatency k

/-- Places one block with its initial waves; its number and the state. Log entry 7 (DESIGN CHOICE).
Log entry 10 (DESIGN CHOICE). -/
def placeBlock (s : State) (g index core : Nat) (kind : PlaceKind) : Nat × State :=
  let r := (gridOf s g).launch
  let k := s.nextId
  let b := { newBlock s g index core kind with redundant := shadowFor s r (gridOf s g).part }
  let s1 := modCore (putBlock { s with nextId := k + 1 } k b) core (clearRows b.spadBase b.spadLen)
  let placed := placeFirst r.waves s1 g core k
  let order := slotOrder placed.2 placed.1
  let s2 := (order.zip (List.range 64)).foldl (fun t x =>
    modWave t x.1 (fun w => { w with wid := x.2, nextIssue := firstIssue s g k })) placed.2
  let zero : Member := { f := [0, 0, 0, 0], e := [0, 0, 0, 0] }
  let s3 := modBlock s2 k (fun b => { b with
    members := placed.1.foldl (fun m u => mset m u zero) []
    barriers := barNumbers.map (fun _ => { m := r.waves }) })
  let s3 := followSaves s3 g k
  let s4 := modCore (syncTo s3 (dieOfCore core) (gridOf s3 g).clock) core (fun c => { c with code := [] })
  (k, pushCode s4 { core := core, ctx := (gridOf s g).ctx, part := (gridOf s g).part } r.entry r.lines)

/-- Places a block, or the pair of blocks, of a grid on a unit: block `index` and, on a pair, `index + 1` (R252). -/
def placeUnit (s : State) (g index : Nat) (unit : List Nat) : State :=
  match unit with
  | [a, b] =>
    let r := placeBlock s g index a .declarer
    let t := placeBlock r.2 g (index + 1) b .dummy
    modBlock (modBlock t.2 r.1 (fun x => { x with partner := some t.1 })) t.1 (fun x => { x with partner := some r.1 })
  | [a] => (placeBlock s g index a .single).2
  | _ => s

/-! ### Conditions of parked splits (R74, R77) -/

/-- The state of a grid by its handle (R277), with the clock of its completion. -/
def gridState (s : State) (part h : Nat) : Nat × List Nat :=
  match s.grids.find? (fun g => decide (g.2.part = part ∧ g.2.handle = h)) with
  | some g => (g.2.state, [])
  | none =>
    match (partOf s part).done.find? (fun d => decide (d.1 = h)) with
    | some d => d.2
    | none => (4, [])

/-- Whether a condition holds for a wave of a block. -/
def condHolds (s : State) (w : Wave) (b : Option Block) : Cond → Bool
  | .generation n g => match b with
    | some x => genAbove (barAt x n).g g
    | none => true
  | .cohort part idx _ gen _ => match gen, mget (partOf s part).cohorts idx with
    | some n, some c => decide (n < c.released)
    | some _, none => true
    | none, _ => false
  | .grid h _ => decide (2 ≤ (gridState s w.part h).1)
  | .window base n _ => match windowAny s w.part w.ctx base with
    | some x => decide (n ≤ x.c)
    | none => false
  | .decks _ _ reported => reported
  | c => yieldHolds s.now w c

/-- Whether a saved block could go on (R275): the condition of some parked split holds, a wave's page has been reported
resident (R345), or a split of a wave that waits for neither a page nor the other slices of an open collective is not
parked (R74). -/
def imageWakes (s : State) (x : Image) : Bool :=
  let supplied (u : Nat) : Bool := x.block.collectives.any (fun c => c.2.slices.any (fun y => decide (y.2.1 = u)))
  x.waves.any (fun u => (match u.2.fetch with
    | some r => r.filed
    | none => false) ||
    u.2.splits.any (fun sp => match sp.park with
      | some p => condHolds s u.2 (some x.block) p.cond
      | none => u.2.fetch.isNone && !supplied u.1))

/-- The head grid of a queue if the queue is ready. -/
def readyHead (s : State) (l : List Nat) : Option (Nat × List Nat) :=
  match l with
  | [] => none
  | g :: _ =>
    let x := gridOf s g
    if x.eligible && !x.error && decide (x.nextBlock < x.launch.size) then
      ((dealNext s x).2.find? (fun u => u.all (hasRoom s x.launch))).map (fun u => (g, u))
    else none

/-- The ready queues of a partition: queue, grid, unit. -/
def readyQueues (s : State) (p : Nat) : List (Nat × Nat × List Nat) :=
  (partOf s p).queues.filterMap (fun q => (readyHead s q.2).map (fun x => (q.1, x.1, x.2)))

/-- The ready queues of the lowest level, in ascending queue id. -/
def lowestQueues (s : State) (l : List (Nat × Nat × List Nat)) : List (Nat × Nat × List Nat) :=
  let lvl (x : Nat × Nat × List Nat) := (gridOf s x.2.1).launch.level
  match least (l.map lvl) with
  | some n => l.filter (fun x => decide (lvl x = n))
  | none => []

/-- The first queue whose cumulative tickets exceed `v` (R273). -/
def drawFirst (tickets : α → Nat) : Nat → List α → Option α
  | _, [] => none
  | v, x :: r => if v < tickets x then some x else drawFirst tickets (v - tickets x) r

/-- The blocks placed together: an image and the image of its partner (R346). -/
def imageUnit (s : State) (n : Nat) : List Nat :=
  match mget s.images n with
  | some x =>
    if (gridOf s x.block.grid).launch.partnered then
      let mate (i : Nat) := s.images.find? (fun y => decide (y.2.block.grid = x.block.grid ∧ y.2.block.index = i))
      ([x.block.index / 2 * 2, x.block.index / 2 * 2 + 1].filterMap mate).map (·.1)
    else [n]
  | none => []

/-- Whether an image may return: a save-out whose condition holds, or an image that command 0x04 has queued (R275,
R378). -/
def imageReady (s : State) (x : Image) : Bool := x.launched || (decide (x.reason = 0) && imageWakes s x)

/-- The lowest register an image's wave keeps resident in an allotment of `n` registers (R346). -/
def loIn (w : Wave) (n : Nat) : Nat := Nat.max w.lo (w.wbase + 64 - n)

/-- The registers each wave of an image is given on a core: the grid's stack if it fits, else the window need; none
where neither fits, or a spill area cannot take the frames left out (R346). -/
def allotment (s : State) (x : Image) (core : Nat) : Option Nat :=
  let r := (gridOf s x.block.grid).launch
  let n := x.waves.length
  let spillOk (a : Nat) : Bool := x.waves.all (fun u => decide (loIn u.2 a = u.2.lo ∨
    u.2.spillBase + 384 * loIn u.2 a + 32 * u.2.spillRecs ≤ u.2.spillTop))
  if roomFor s r n (n * r.stack) core then some r.stack
  else if roomFor s r n (n * x.need) core && spillOk x.need then some x.need
  else none

/-- The first deal position from the grid's next on whose unit passes a test, with the position after it (R371).
Log entry 56 (DEDUCED). -/
def dealFrom (s : State) (g : Grid) (ok : List Nat → Bool) : Option (List Nat × Nat) :=
  (dealOrder s g).findSome? (fun p => (p.2.find? ok).map (fun u => (u, p.1 + 1)))

/-- Where the image unit of an image may be placed now: a pair returns together, once one of the two may (R252, R275). -/
def returnPlace (s : State) (ns : List Nat) : Option (List Nat × Nat) :=
  let xs := ns.filterMap (mget s.images)
  match xs with
  | [] => none
  | x :: _ =>
    let g := gridOf s x.block.grid
    if xs.any (imageReady s) && decide (xs.length = if g.launch.partnered then 2 else 1) then
      dealFrom s g (fun u => (xs.zip u).all (fun y => (allotment s y.1 y.2).isSome))
    else none

/-- Where a discarded block of a grid may be placed again now (R341). -/
def againPlace (s : State) (g : Grid) : Option (List Nat × Nat) :=
  if g.again.isEmpty then none else dealFrom s g (fun u => u.all (hasRoom s g.launch))

/-- The saved and discarded blocks of a partition that may be placed again now, with their levels: images by number
(true), grids with discarded blocks (false) (R273, R275, R341). -/
def returning (s : State) (p : Nat) : List (Nat × Bool × Nat) :=
  s.images.filterMap (fun x =>
    let g := gridOf s x.2.block.grid
    if g.part = p ∧ (returnPlace s (imageUnit s x.1)).isSome then some (g.launch.level, true, x.1) else none) ++
  s.grids.filterMap (fun g => if g.2.part = p ∧ (againPlace s g.2).isSome then some (g.2.launch.level, false, g.1) else none)

/-- A grid whose last block was placed leaves its queue. -/
def leaveQueue (s : State) (g : Nat) : State :=
  let x := gridOf s g
  if x.launch.size ≤ x.nextBlock then modPart s x.part (fun p => { p with queues := dequeue p.queues g }) else s

/-- Whether a control pair serves a partition: that of its home hub die runs, or the other one has taken it over (R353). -/
def controlled (s : State) (p : Nat) : Bool := !(hubOf s (partOf s p).hub).stopped || (partOf s p).takenOver

/-- PLACEMENT_EVENT (R272, R273): the Draw takes one step and one block, or one pair, is placed; when its waves first issue is
free. Log entry 7 (DESIGN CHOICE). -/
def execPlacementEvent (p : Nat) (s : State) : Host.Outcome State Fault Refusal :=
  let part := partOf s p
  let qs := lowestQueues s (readyQueues s p)
  let lvl := (qs.map (fun x => (gridOf s x.2.1).launch.level)).headD 64
  let x := xorshift part.draw
  let tickets (y : Nat × Nat × List Nat) : Nat := (gridOf s y.2.1).launch.tickets
  let total := qs.foldl (fun n y => n + tickets y) 0
  if controlled s p ∧ part.lastPlace ≤ s.now ∧ (returning s p).all (fun x => decide (lvl < x.1)) then
    match drawFirst tickets (x.toNat % total) qs with
    | some y =>
      let g := y.2.1
      let s1 := modPart s p (fun q => { q with draw := x, lastPlace := s.now + 1 })
      let s2 := placeUnit s1 g (gridOf s g).nextBlock y.2.2
      let s3 := modGrid s2 g (fun r => { r with
        state := 1, nextBlock := r.nextBlock + y.2.2.length, position := (dealNext s (gridOf s g)).1 + 1 })
      .next (leaveQueue s3 g)
    | none => .refused (.notEnabled "PLACEMENT_EVENT")
  else .refused (.notEnabled "PLACEMENT_EVENT")

/-- Whether the page at an address is resident and valid in a context (R209). -/
def pageValid (s : State) (ctx va : Nat) : Bool :=
  match walkFrom s va 3 (ctxOf s ctx).root with
  | .leaf _ _ => true
  | _ => false

/-- The pages a grid's leases and spill pool need. -/
def leasedPages (g : Grid) : List Nat :=
  (g.launch.leases ++ [(g.launch.spillBase, g.launch.spillBytes * g.launch.spillAreas)]).flatMap (fun r =>
    (List.range ((r.2 + 65535) / 65536)).map (fun k => r.1 + 65536 * k))

/-- GRID_ELIGIBLE (R209, R272): a queue's head grid becomes eligible with its leases resident, or ends with
LEASE_UNMAPPED for the first page the operating system cannot provide. -/
def execGridEligible (g : Nat) (missing : Option Nat) (s : State) : Host.Outcome State Fault Refusal :=
  let x := gridOf s g
  let head := (partOf s x.part).queues.any (fun q => decide (q.2.head? = some g))
  let gone := (leasedPages x).find? (fun va => !pageValid s x.ctx va)
  if (mget s.grids g).isSome ∧ controlled s x.part ∧ head ∧ !x.eligible ∧ missing = gone then
    match missing with
    | none => .next (modGrid s g (fun y => { y with eligible := true }))
    | some va =>
      let e := { hubEvent s x.part .leaseUnmapped 3 with
        addr := va, grid := x.handle, ctx := x.ctx, asid := (ctxOf s x.ctx).asid }
      .next (checkGrid (postEvent (gridError s g) x.part e) g)
  else .refused (.notEnabled "GRID_ELIGIBLE")

/-! ### Enqueueing (R269, R276) -/

/-- The next grid handle after one: nonzero and rising, from 2^32 − 1 to 1. -/
def handleAfter (h : Nat) : Nat := if h = 2 ^ 32 - 1 then 1 else h + 1

/-- Whether a deck set names a deck not configured for a world (R269, R282). -/
def decksBad (p : Partition) (set : DWord) (world : Nat) : Bool :=
  allLanes.any (fun d => set.getLsbD d && (match mget p.decks d with
    | some x => decide (x.world ≠ world)
    | none => true))

/-- The reason for which a record with its cohort list is refused, or the cohort table it leaves (R269, R369); `list`
is none where the list could not be read. -/
def admitRecord (s : State) (part world grid : Nat) (l : List Byte) (list : Option (List Byte)) :
    Except Nat (Map Cohort × List Nat) :=
  let p := partOf s part
  let r := recordOf l
  match recordFault l world with
  | some n => .error n
  | none =>
    let es : Option (List (Nat × List Nat × BitVec 16)) := if r.cohorts = 0 then some []
      else match list with
        | some x => listEntries p.cmap x
        | none => none
    match es with
    | none => .error 8
    | some es =>
      match acceptList p.cohorts grid es with
      | none => .error 8
      | some m =>
        if (r.confine && (mget m r.cohort).isNone) || (dealUnits s part m r).isEmpty then .error 9
        else if decksBad p r.decks world then .error 10
        else .ok (m, es.map (·.1))

/-- Enqueues a grid (R276): the status and the handle. -/
def enqueueGrid (s : State) (part ctx q : Nat) (l : List Byte) (list : Option (List Byte)) (clock : List Nat) :
    Nat × Nat × State :=
  let p := partOf s part
  let queue := mgetD p.queues q []
  if 32 ≤ queue.length then (1, 0, s)
  else
    match admitRecord s part (ctxOf s ctx).world s.nextId l list with
    | .error n => (2 + 256 * n, 0, s)
    | .ok x =>
      let g : Grid := { handle := p.nextHandle, part := part, ctx := ctx, queue := q, launch := recordOf l, clock := clock
                        cohorts := x.2, enqueued := s.now }
      let s1 := modPart s part (fun p => { p with
        nextHandle := handleAfter p.nextHandle, cohorts := x.1, queues := mset p.queues q (queue ++ [s.nextId]) })
      (0, p.nextHandle, { s1 with nextId := s1.nextId + 1, grids := mset s1.grids s.nextId g })

/-! ### `launch`, `lwait`, `lstat` -/

/-- The four 64-byte pieces of a record, as a load by lane 0. Log entry 39 (DEDUCED). -/
def recordPieces (x : Nat) : List (Nat × Nat) := [(0, x), (0, x + 64), (0, x + 128), (0, x + 192)]

/-- `launch` (R276): its checks at issue. Log entry 37 (DEDUCED). Log entry 38 (DEDUCED). -/
def execLaunch (d a b : Operand) (s : State) : Host.Outcome State Fault Refusal :=
  run (.launch d a b) s (fun s1 c =>
    consumeAll s1 c [tagU c a true, tagU c b false] (fun s2 c =>
      let x := (readUPair c a).toNat
      let q := readU c b
      if 255 < q.toNat then trapAt s2 c .illegalField q
      else if x % 64 ≠ 0 then trapAt s2 c .memAlign 0
      else match checkLanes s2 (agentOf c.w) .load 64 (recordPieces x) with
        | some f => checkFailed s2 c f
        | none =>
          let hit := watchHit s2 c.w (recordPieces x) 64 false false true
          let s3 := cacheAll s2 (agentOf c.w) [x, x + 192]
          afterAccess (finishWait s3 c c.w (.launch x q.toNat ((uniformDest d).getD 0))) c hit))

/-- Bytes of a wave's virtual memory as a load sees them now, with the addresses checked in pieces of 64 bytes. -/
def pieceBytes (s : State) (w : Wave) (va : Nat) : List Byte :=
  (viewBytes s (dieOfCore w.core) w.part (paOf s (agentOf w) va) 64).1

/-- The pieces of the cohort list at an address, if each of them passes the checks of R210. Log entry 39 (DEDUCED). -/
def listPieces (s : State) (w : Wave) (va : Nat) : Option (List Nat) :=
  let ok (k : Nat) : Bool := (checkLanes s (agentOf w) .load 64 [(0, va + 64 * k)]).isNone
  if !ok 0 then none
  else
    let l := List.range (Nat.min 256 (fieldAt (pieceBytes s w va) 0 4) + 1)
    if l.all ok then some (l.map (fun k => va + 64 * k)) else none

/-- The cohort list at an address, if every piece of it passes the checks of R210. -/
def readList (s : State) (w : Wave) (va : Nat) : Option (List Byte) :=
  (listPieces s w va).map (fun l => l.flatMap (pieceBytes s w))

/-- The state once the errors of some 64-byte pieces of a wave's memory are found as they are read (R320). -/
def findPieces (s : State) (w : Wave) (l : List Nat) : State :=
  readMemory s w.part (l.flatMap (fun x => [paOf s (agentOf w) x, paOf s (agentOf w) (x + 32)]))

/-- The record of a cohort list's walk that met a malformed entry (R201, R276). -/
def listWalk (s : State) (w : Wave) (va : Nat) : State :=
  let bad (k : Nat) : Option Nat := (checkLanes s (agentOf w) .load 64 [(0, va + 64 * k)]).bind (fun f =>
    if f.malformed then some f.addr else none)
  match firstSome bad (List.range (if (checkLanes s (agentOf w) .load 64 [(0, va)]).isSome then 1
      else Nat.min 256 (fieldAt (pieceBytes s w va) 0 4) + 1)) with
  | some a => postEvent s w.part { waveEvent s w .pteMalformed 2 with addr := a }
  | none => s

/-- LAUNCH_PERFORM (R276, R278, R320): the record and its cohort list are read and checked, the grid enqueued, the status
and handle written. -/
def execLaunchPerform (n : Nat) (s : State) : Host.Outcome State Fault Refusal :=
  perform s n "LAUNCH_PERFORM" (fun s0 h =>
    match h.eff with
    | .launch x q dst =>
      let w := waveOf s0 h.wave
      let s1 := findPieces s0 w ((recordPieces x).map (·.2))
      let l := (recordPieces x).flatMap (fun y => pieceBytes s1 w y.2)
      let addr := fieldAt l 48 8
      let list := if addr = 0 then none else readList s1 w addr
      let s2 := if addr = 0 then s1 else listWalk (findPieces s1 w ((listPieces s1 w addr).getD [])) w addr
      let r := enqueueGrid s2 w.part w.ctx q l list (clockJoin w.clock w.wrote)
      some (modWave r.2.2 h.wave (fun w =>
        setS (setS w dst ⟨BitVec.ofNat 32 r.1, .clean⟩) (dst + 1) ⟨BitVec.ofNat 32 r.2.1, .clean⟩))
    | _ => none)

/-- A wave's acquire at `dev` scope of a clock it has synchronised with (R237). -/
def acquireClock (s : State) (u : Nat) (clock : List Nat) : State :=
  let s1 := modWave s u (fun w => { w with clock := clockJoin w.clock clock })
  syncTo s1 (dieOfCore (waveOf s1 u).core) clock

/-- `lstat` (R277, R278): the status word now; an acquire point where the grid is complete. -/
def execLstat (d a : Operand) (s : State) : Host.Outcome State Fault Refusal :=
  run (.lstat d a) s (fun s1 c =>
    consumeAll s1 c [tagU c a false] (fun s2 c =>
      let r := gridState s2 c.w.part (readU c a).toNat
      let w := putResult c.w (if c.skip then none else uniformDest d) (BitVec.ofNat 32 r.1)
      acquireClock (finish s2 c w 0 []) c.uid r.2))

/-- `lwait` (R277, R278): parks until the grid is complete or unknown. -/
def execLwait (d a : Operand) (s : State) : Host.Outcome State Fault Refusal :=
  run (.lwait d a) s (fun s1 c =>
    consumeAll s1 c [tagU c a false] (fun s2 c =>
      let h := (readU c a).toNat
      let r := gridState s2 c.w.part h
      let dst := if c.skip then none else uniformDest d
      if 2 ≤ r.1 then acquireClock (finish s2 c (putResult c.w dst (BitVec.ofNat 32 r.1)) 0 []) c.uid r.2
      else finishPark s2 c c.w (.grid h dst) none))

end Sys2Proof.Machine
end

