-- ==== Sys2Proof/Machine/Cohort.lean ====
section
/-! DEFINITION. Cohort barriers (R279), reductions (R262 to R265, R280): `cbar`, `mdrain`, `cred`, the rounds they form
and what the fabric combines, and the loss of a peer (R281). -/

namespace Sys2Proof.Machine

/-! ### Membership -/

/-- Goes on with a cohort that the wave's core belongs to, else ILLEGAL_COHORT (R270). -/
def cohortThen (s : State) (c : Ctx) (idx : Nat) (k : Cohort → State) : State :=
  match mget (partOf s c.w.part).cohorts idx with
  | some x => if x.members.contains c.w.core then k x else trapAt s c .illegalCohort (BitVec.ofNat 32 idx)
  | none => trapAt s c .illegalCohort (BitVec.ofNat 32 idx)

/-- The state with a cohort changed. -/
def modCohort (s : State) (p idx : Nat) (f : Cohort → Cohort) : State :=
  modPart s p (fun x => { x with cohorts := mmod x.cohorts idx f })

/-- The greatest of some numbers. -/
def greatest (l : List Nat) : Nat := l.foldl Nat.max 0

/-- How many contributions of a kind a core has made to rounds that have not formed. -/
def waitingOf (c : Cohort) (drain : Bool) (core : Nat) : Nat :=
  (c.pending.filter (fun x => decide (x.core = core ∧ x.drain = drain))).length

/-- How many contributions of a kind a peer has made to rounds that have not formed. -/
def waitingPeer (c : Cohort) (drain : Bool) (e : Nat) : Nat :=
  (c.peerItems.filter (fun x => decide (x.1 = e ∧ x.2.drain = drain))).length

/-- The first number after those of a kind that a lost peer's marks name. -/
def lostEnd (c : Cohort) (kind : Nat) : Nat :=
  greatest ((c.lost.filter (fun x => decide (x.1 = kind))).map (fun x => x.2.1 + 1))

/-- The numbers from which no generation (kind 0), no drain round (1), no reduction round (2) has been opened by a member,
local or peer. -/
def openEnd (c : Cohort) : Nat × Nat × Nat :=
  let rounds (drain : Bool) : Nat :=
    greatest (c.members.map (waitingOf c drain) ++ (List.range 16).map (waitingPeer c drain))
  (greatest (c.released :: lostEnd c 0 :: c.arrivals.map (·.2) ++ c.peerArrivals.map (·.2)),
    Nat.max (lostEnd c 1) (c.formedDrain + rounds true), Nat.max (lostEnd c 2) (c.formedRed + rounds false))

/-- The component of a triple for a kind. -/
def pick3 (x : Nat × Nat × Nat) : Nat → Nat
  | 0 => x.1
  | 1 => x.2.1
  | _ => x.2.2

/-- The peers that are present and count as members of number `n` of a kind, in roster order (R279, R281). -/
def peersIn (p : Partition) (c : Cohort) (kind n : Nat) : List Nat :=
  (List.range 16).filter (fun e => c.peers.getLsbD e && (mgetD p.roster e {}).present &&
    decide (pick3 (mgetD c.since e (0, 0, 0)) kind ≤ n))

/-- The oldest contribution of a peer to a round of a kind that has not formed. -/
def peerPart (c : Cohort) (drain : Bool) (e : Nat) : Option (Nat × PeerPart) :=
  c.peerItems.find? (fun y => decide (y.1 = e ∧ y.2.drain = drain))

/-- Whether a peer that counts as a member of number `n` of a kind has still to arrive or to contribute (R279, R280). -/
def peersCount (p : Partition) (c : Cohort) (kind n : Nat) : Bool :=
  (peersIn p c kind n).any (fun e => if kind = 0 then decide (mgetD c.peerArrivals e 0 ≤ n)
    else (peerPart c (decide (kind = 1)) e).isNone)

/-- The tags of a contribution's values as its partition sees them (R307). -/
def contributedTags (s : State) (x : Contribution) : List Tag :=
  (x.elems.map (fun y => y.2.tag) ++ x.lanes.map (·.tag)).map (seeTag s.tags x.part)

/-- A message to every present peer of a cohort leaves over its link (R279, R280, R302). Log entry 84 (DESIGN CHOICE). -/
def sendPeers (s : State) (part idx : Nat) (tag : Tag) (clock : List Nat) (u : Nat) : State :=
  let c := mgetD (partOf s part).cohorts idx {}
  ((List.range 16).filter (fun e => c.peers.getLsbD e && (mgetD (partOf s part).roster e {}).present)).foldl (fun t e =>
    portJoin t part (peerStream part e) (ctxOf s (waveOf s u).ctx).world [] tag clock (some u)) s

/-! ### Barriers (R279) -/

/-- Releases the next generations while all their members have arrived for them. -/
def releaseNext (p : Partition) : Nat → Cohort → Cohort
  | 0, c => c
  | n + 1, c =>
    if c.members.all (fun m => decide (c.released < mgetD c.arrivals m 0)) && !c.members.isEmpty &&
        !peersCount p c 0 c.released then
      releaseNext p n { c with released := c.released + 1 }
    else c

/-- Releases every generation that all its members have arrived for. -/
def settleCohort (p : Partition) (c : Cohort) : Cohort := releaseNext p (greatest (c.arrivals.map (·.2))) c

/-- `cbar` (R279): a yield point; its arrival is held and its split parks. -/
def execCbar (d a : Operand) (s : State) : Host.Outcome State Fault Refusal :=
  run (.cbar d a) s (fun s1 c =>
    consumeAll s1 c [tagU c a false] (fun s2 c =>
      let idx := (readU c a).toNat
      cohortThen s2 c idx (fun _ =>
        let r := hold s2 c.uid (.cohort idx) none
        finishPark r.2 c c.w (.cohort c.w.part idx r.1 none (if c.skip then none else uniformDest d)) none)))

/-- The split that is parked for the arrival of held effect `n` learns its generation, wherever it stands. -/
def giveGeneration (n gen : Nat) (w : Wave) : Wave :=
  everySplit (fun x => { x with park := x.park.map (fun p => match p.cond with
    | .cohort q idx m none dst => if m = n then { p with cond := .cohort q idx m (some gen) dst } else p
    | _ => p) }) w

/-- COHORT_ARRIVAL_PERFORM (R279): the arrival is counted on its core, a release point. -/
def execCohortArrivalPerform (n : Nat) (s : State) : Host.Outcome State Fault Refusal :=
  perform s n "COHORT_ARRIVAL_PERFORM" (fun s1 h =>
    match h.eff with
    | .cohort idx =>
      let w := waveOf s1 h.wave
      let gen := mgetD (mgetD (partOf s1 w.part).cohorts idx {}).arrivals h.core 0
      let clock := clockJoin w.clock w.wrote
      let s2 := modCohort s1 w.part idx (fun c => settleCohort (partOf s1 w.part) { c with
        arrivals := mset c.arrivals h.core (gen + 1)
        relClocks := mset c.relClocks gen (clockJoin (mgetD c.relClocks gen []) clock) })
      some (modOlds (modWave (sendPeers s2 w.part idx .clean clock h.wave) h.wave (giveGeneration n gen)) h.wave (fun _ => true)
        (giveGeneration n gen))
    | _ => none)

/-! ### Contributions (R262, R263, R280) -/

/-- Whether a wave's block, or the loose wave, has a contribution of a kind in a round not yet formed. -/
def unformed (s : State) (c : Ctx) (drain : Bool) : Bool :=
  (partOf s c.w.part).cohorts.any (fun x => x.2.pending.any (fun y =>
    decide (y.drain = drain ∧ y.entry.block = c.w.block) && (c.w.block.isSome || decide (y.entry.wave = c.uid))))

/-- Issues a contribution: it is counted now and leaves its core D cycles later. Log entry 34 (DEDUCED). -/
def startContribution (s : State) (c : Ctx) (x : Contribution) (dests : List RegRef) : State :=
  let o := engineOp c s.nextId 5 dests
  let s1 := { s with nextId := s.nextId + 1 }
  let e := entryFor s1 c (.drain c.w.part 0) [(c.uid, o.id)]
  let y := { x with entry := e, part := c.w.part, core := c.w.core }
  let s2 := modCohort { s1 with nextId := s1.nextId + 1 } c.w.part x.cohort (fun z => { z with pending := z.pending ++ [y] })
  let s3 := (hold s2 c.uid (.contribute c.w.part x.cohort e.id) (some o.id)).2
  finish s3 c (addOp c.w o) 0 []

/-- The control word of `mdrain` (R262). -/
structure DrainCtl where
  col : Nat
  fmt : Nat
  rows : Nat
  first : Nat
  cohort : Nat

/-- The fields of a control word. -/
def drainCtl (x : Nat) : DrainCtl :=
  { col := bits x 27 24, fmt := bits x 23 20, rows := bits x 19 14 + 1, first := bits x 13 8, cohort := bits x 7 0 }

/-- The elements a drain reads at issue: rows `first` to `first + rows − 1`, 128 columns (R262). -/
def drainElems (b : Block) (see : Tag → Tag) (t : Nat) (y : DrainCtl) : List (Nat × AccElem) :=
  (List.range (128 * y.rows)).filterMap (fun k =>
    match mget b.acc (8192 * t + 128 * y.first + k) with
    | some x => some (k, { x with tag := see x.tag })
    | none => none)

/-- `mdrain` (R262). -/
def execMdrain (d a : Operand) (m : BitVec 5) (n : BitVec 3) (s : State) : Host.Outcome State Fault Refusal :=
  run (.mdrain d a m n) s (fun s1 c => attached s1 c (fun k =>
    consumeAll s1 c [tagU c a true, c.see (sReg c.w m.toNat).tag] (fun s2 c =>
      let ctl := (sReg c.w m.toNat).val
      let y := drainCtl ctl.toNat
      let dest := (readUPair c a).toNat
      let pitch := bits dest 63 49
      if bits ctl.toNat 31 28 ≠ 0 ∨ !outOk y.fmt ∨ 64 < y.first + y.rows then trapAt s2 c .illegalField ctl
      else if bits dest 5 0 ≠ 0 then trapAt s2 c .memAlign (BitVec.ofNat 32 dest)
      else if pitch = 0 ∧ 1 < y.rows then trapAt s2 c .memAlign (BitVec.ofNat 32 (dest / 2 ^ 32))
      else slotThen s2 c n.toNat (fun slot => accThen s2 c k d (cohortThen s2 c y.cohort (fun _ =>
        if unformed s2 c true then stall s2 c.uid
        else
          let elems := drainElems (seenBlock s2 c.uid k) c.see (accOf d) y
          startContribution s2 c
            { entry := entryFor s2 c (.marker 0) [], part := c.w.part, cohort := y.cohort, core := c.w.core, drain := true
              slot := BitVec.ofNat 32 slot, ctl := ctl, dest := bits dest 48 0, pitch := pitch, elems := elems } []))))))

/-- Whether a control word of `cred` breaks R280. -/
def credBad (x : Nat) : Bool :=
  let ty := bits x 15 12
  decide (x / 2 ^ 17 ≠ 0 ∨ 5 < ty ∨ 4 < bits x 11 8) || (decide (3 ≤ bits x 11 8) && decide (ty = 2 ∨ ty = 5))


/-- Whether an operand cannot stand as a pair, or a literal is too wide for the type (R24, R25). -/
def credOperandBad (d a : Operand) (wide : Bool) : Bool :=
  match d, a with
  | .v n, .v k => wide && decide (n % 2 = 1 ∨ k % 2 = 1)
  | .v n, .s k => wide && decide (n % 2 = 1 ∨ k % 2 = 1)
  | .v n, .lit64 _ => if wide then decide (n % 2 = 1) else true
  | .v n, _ => wide && decide (n % 2 = 1)
  | _, _ => false

/-- `cred` (R280). A source that its queue has still to write is read as it stands at issue (R40, R41).
Log entry 34 (DEDUCED). Log entry 90 (DEDUCED). -/
def execCred (d a b : Operand) (s : State) : Host.Outcome State Fault Refusal :=
  run (.cred d a b) s (fun s1 c =>
    consumeAll s1 c [tagU c b false] (fun s2 c =>
      let ctl := readU c b
      let x := ctl.toNat
      let wide := credWide x
      let base := match dstOf c d with
        | .v n => n
        | _ => 0
      if c.act = 0 then finishNop s2 c
      else if credBad x then trapAt s2 c .illegalField ctl
      else if credOperandBad d a wide then trapAt s2 c .illegalOperand c.i.word
      else
        cohortThen s2 c (bits x 7 0) (fun _ =>
          if unformed s2 c false then stall s2 c.uid
          else
            let lane (l : Nat) : LaneVal :=
              let v := readLane c a wide (decide (bits x 15 12 = 3)) l
              ⟨l, v.val, v.tag⟩
            startContribution s2 c
              { entry := entryFor s2 c (.marker 0) [], part := c.w.part, cohort := bits x 7 0, core := c.w.core
                drain := false, ctl := ctl, lanes := (lanesOf c.act).map lane, dst := base }
              (if wide then [.v base, .v (base + 1)] else [.v base]))))

/-! ### What the fabric combines (R264, R280) -/

/-- Neighbours combined; an unpaired last one passes up. -/
def pairUp {α : Type} (f : α → α → α) : List α → List α
  | x :: y :: r => f x y :: pairUp f r
  | l => l

/-- The tree of R264 over a nonempty list. -/
def treeOf {α : Type} (f : α → α → α) : Nat → List α → Option α
  | 0, l => l.head?
  | n + 1, l => match l with
    | [x] => some x
    | _ => treeOf f n (pairUp f l)

/-- A value on its way through the fabric: the flags it raised and the absorptions recorded. -/
structure Fab (α : Type) where
  x : α
  sticky : Sticky := 0
  pairs : List (Nat × Nat) := []

/-- Two accumulator elements combined in a slot's mode (R264). -/
def drainCombine (slot : Nat) (a b : Fab AccElem) : Fab AccElem :=
  let tag := mergeTag a.x.tag b.x.tag
  let pairs := a.pairs ++ b.pairs ++ absorptions [a.x.tag, b.x.tag]
  let lost := a.x.lost || b.x.lost
  if fsFloat slot then
    let y : Term := match fdecode f96 b.x.bits.toNat with
      | .nan _ _ => .nan 0
      | .inf n => .inf n
      | .fin n m e => .num (signedM n m) e n
    let r := f96Add a.x.bits.toNat y
    { x := { bits := BitVec.ofNat 96 r.1, lost := lost, tag := tag }, sticky := a.sticky ||| b.sticky ||| r.2, pairs := pairs }
  else
    let r := fixClamp (a.x.bits.toInt + b.x.bits.toInt)
    { x := { bits := BitVec.ofInt 96 r.1, lost := lost, tag := tag }, sticky := a.sticky ||| b.sticky ||| r.2, pairs := pairs }

/-- An integer or float combination of `cred` on two values (R280). -/
def credOp (x : Nat) (a b : Nat) : Nat × Sticky :=
  let ty := bits x 15 12
  let op := bits x 11 8
  let n := if credWide x then 64 else 32
  if ty = 2 ∨ ty = 5 then
    let g : FEnv := ⟨if ty = 2 then f32 else f64, 0, false⟩
    if op = 0 then faddE g a b else fminmaxE g (decide (op = 2)) a b
  else
    let signed := decide (ty = 0 ∨ ty = 3)
    let u := intOf signed n a
    let v := intOf signed n b
    match op with
    | 0 => narrowInt (bitAt x 16) signed n (u + v)
    | 1 => (wrapInt n (if v < u then v else u), 0)
    | 2 => (wrapInt n (if u < v then v else u), 0)
    | 3 => (Nat.land a b, 0)
    | _ => (Nat.lor a b, 0)

/-- The identity a lane outside ACTIVE contributes (R280). -/
def credIdentity (x : Nat) : Nat :=
  let ty := bits x 15 12
  let n := if credWide x then 64 else 32
  let signed := decide (ty = 0 ∨ ty = 3)
  let f := if ty = 2 then f32 else f64
  if ty = 2 ∨ ty = 5 then
    match bits x 11 8 with
    | 0 => 2 ^ (n - 1)
    | 1 => infinity f false
    | _ => infinity f true
  else match bits x 11 8 with
    | 1 => wrapInt n (intMax signed n)
    | 2 => wrapInt n (intMin signed n)
    | 3 => 2 ^ n - 1
    | _ => 0

/-- Two lane values combined. -/
def credCombine (x : Nat) (a b : Fab (Nat × Tag)) : Fab (Nat × Tag) :=
  let r := credOp x a.x.1 b.x.1
  { x := (r.1, mergeTag a.x.2 b.x.2), sticky := a.sticky ||| b.sticky ||| r.2
    pairs := a.pairs ++ b.pairs ++ absorptions [a.x.2, b.x.2] }

/-- What each member of a round carries, local members first, then peers: its slot value and control word. -/
def roundWords (items : List Contribution) (peers : List PeerPart) : List (Word × Word) :=
  items.map (fun y => (y.slot, y.ctl)) ++ peers.map (fun y => (y.slot, y.ctl))

/-- The result of a reduction round in every lane (R280); each lane is poison where a peer was lost (R281). -/
def credLanes (r : Round) : List (Fab (Nat × Tag)) :=
  let x := match r.items with
    | y :: _ => y.ctl.toNat
    | [] => 0
  allLanes.map (fun l =>
    let vals := (r.items.map (·.lanes) ++ r.peers.map (·.lanes)).map (fun y => match y.find? (fun v => decide (v.lane = l)) with
      | some v => ({ x := (v.val.toNat, v.tag) } : Fab (Nat × Tag))
      | none => { x := (credIdentity x, .clean) })
    let z := (treeOf (credCombine x) vals.length vals).getD { x := (0, .clean) }
    match r.lost with
    | some t => { z with x := (z.x.1, .poison t) }
    | none => z)

/-- The lane results of one contribution of a reduction round: its ACTIVE lanes, both halves of a wide value. -/
def credResults (r : Round) (y : Contribution) : List (Dst × LaneVal) :=
  let out := credLanes r
  y.lanes.flatMap (fun v =>
    let z := nth out v.lane { x := (0, .clean) }
    let lo : Dst × LaneVal := (.v y.dst, ⟨v.lane, BitVec.ofNat 64 (z.x.1 % 2 ^ 32), z.x.2⟩)
    if credWide y.ctl.toNat then [lo, (.v (y.dst + 1), ⟨v.lane, BitVec.ofNat 64 (z.x.1 / 2 ^ 32), z.x.2⟩)] else [lo])

/-- The width of an output format in bits (R258). -/
def outWidth (f : Nat) : Nat := if f = 9 then 32 else elemWidth f

/-- One element of a drain round: row and column of a column block, combined and converted (R264). -/
def drainElem (r : Round) (root : Contribution) (col k : Nat) : Fab (Nat × Tag) :=
  let slot := root.slot.toNat
  let all := r.items.map (fun y => (y.ctl, y.elems)) ++ r.peers.map (fun y => (y.ctl, y.elems))
  let vals := (all.filter (fun y => decide ((drainCtl y.1.toNat).col = col))).map (fun y =>
    ({ x := (match y.2.find? (fun e => decide (e.1 = k)) with
      | some e => e.2
      | none => {}) } : Fab AccElem))
  let z := (treeOf (drainCombine slot) vals.length vals).getD { x := {} }
  let out := accOut slot (drainCtl root.ctl.toNat).fmt z.x
  { x := (out.1, match r.lost with
      | some t => .poison t
      | none => z.x.tag), sticky := z.sticky ||| out.2, pairs := z.pairs }

/-- The bytes of a row of one column block, with the tag and the flags of each piece: an element, or the two 4-bit
elements of a byte (R249, R264). -/
def drainRow (r : Round) (root : Contribution) (col row : Nat) : List (List Byte × Fab Tag) :=
  let w := outWidth (drainCtl root.ctl.toNat).fmt
  let at_ (j : Nat) := drainElem r root col (128 * row + j)
  if w = 4 then
    (List.range 64).map (fun j =>
      let a := at_ (2 * j)
      let b := at_ (2 * j + 1)
      ([BitVec.ofNat 8 (a.x.1 % 16 + 16 * (b.x.1 % 16))],
        { x := mergeTag a.x.2 b.x.2, sticky := a.sticky ||| b.sticky
          pairs := a.pairs ++ b.pairs ++ absorptions [a.x.2, b.x.2] }))
  else
    (List.range 128).map (fun j =>
      let a := at_ j
      (toBytes (w / 8) a.x.1, { x := a.x.2, sticky := a.sticky, pairs := a.pairs }))

/-- The pieces a drain round's root writes, in address order row by row: address, bytes, tag and flags. -/
def drainPieces (r : Round) (root : Contribution) : List (Nat × List Byte × Fab Tag) :=
  let y := drainCtl root.ctl.toNat
  let w := outWidth y.fmt
  let cols := (List.range 16).filter (fun c => (roundWords r.items r.peers).any (fun z => decide ((drainCtl z.2.toNat).col = c)))
  (List.range y.rows).flatMap (fun row => cols.flatMap (fun col =>
    let pieces := drainRow r root col row
    let base := root.dest + 64 * root.pitch * row + 128 * col * w / 8
    (pieces.zip (List.range pieces.length)).map (fun p => (base + p.2 * (if w = 4 then 1 else w / 8), p.1.1, p.1.2))))

/-- What the root of a drain round writes, until a check fails (R211, R264). -/
def drainRun (s : State) (core : Nat) (e : Entry) (r : Round) (root : Contribution) : Produced :=
  let g := entryAgent s core e e.pkr
  (drainPieces r root).foldl (fun p x =>
    if p.fail.isSome then p
    else match engineCheck s g .store x.1 x.2.1.length with
      | .error f => failed s g p f
      | .ok pa => { p with cells := p.cells ++ cellsOf (.memory, pa) (x.2.1.map (fun b => (b, x.2.2.x))), pages := x.1 :: p.pages }) {}

/-! ### Rounds form (R263) -/

/-- Whether the slot values and control words of a round's members differ where they must agree (R263, R280). -/
def roundDiffers (drain : Bool) (l : List (Word × Word)) : Bool :=
  match l with
  | [] => false
  | r :: rest =>
    if drain then rest.any (fun y =>
      let a := drainCtl y.2.toNat
      let b := drainCtl r.2.toNat
      decide (y.1 ≠ r.1 ∨ a.first ≠ b.first ∨ a.rows ≠ b.rows ∨ a.fmt ≠ b.fmt))
    else rest.any (fun y => decide (y.2 ≠ r.2))

/-- The places taken in a queue of a core. -/
def placesTaken (s : State) (core q : Nat) : Nat :=
  (queueAt (coreOf s core) q).entries.length + (queueAt (coreOf s core) q).issued.length

/-- A contribution of a formed round enters its core's `qr` if a place is free. -/
def enterItem (n : Nat) (s : State) (y : Contribution) : State :=
  if Config.queueDepth ≤ placesTaken s y.core 5 then s
  else
    let s1 := enterQueue s y.core 5 y.entry
    modPart s1 y.part (fun p => { p with rounds := mmod p.rounds n (fun r => { r with
      items := r.items.map (fun z => if z.entry.id = y.entry.id then { z with entered := true } else z) }) })

/-- The contribution each member core has first in line for a kind; none while one has none that has left.
Log entry 53 (DEDUCED). -/
def firstItems (c : Cohort) (drain : Bool) : Option (List Contribution) :=
  let l := c.members.map (fun m => c.pending.find? (fun y => decide (y.core = m ∧ y.drain = drain)))
  let ok := l.filterMap id
  if ok.length = l.length ∧ ok.all (fun y => y.left) then some ok else none

/-- Forms the next round of a kind of a cohort from its members' contributions, and enters them.
Log entry 53 (DEDUCED). -/
def formRound (s : State) (p idx : Nat) (c : Cohort) (drain : Bool) (items : List Contribution) : State :=
  let kind := if drain then 1 else 2
  let num := if drain then c.formedDrain else c.formedRed
  let n := s.nextId
  let peers := (peersIn (partOf s p) c kind num).filterMap (peerPart c drain)
  let bad := roundDiffers drain (roundWords items (peers.map (·.2)))
  let cause := if drain then Cause.mdrainMismatch else .cohortMismatch
  let ready := items.map (fun y => { y with entry := { y.entry with
    work := .drain p n, fail := if bad then some (cause, 0) else none } })
  let r : Round := { drain := drain, items := ready, peers := peers.map (·.2), mismatch := bad, due := s.now + Config.fabricDelay n
                     lost := (c.lost.find? (fun x => decide (x.1 = kind ∧ x.2.1 = num))).map (·.2.2) }
  let gone := items.map (fun y => y.entry.id)
  let s1 := modCohort s p idx (fun z => { z with
    pending := z.pending.filter (fun y => !gone.contains y.entry.id)
    peerItems := peers.foldl (fun l x => l.erase x) z.peerItems
    formedDrain := if drain then z.formedDrain + 1 else z.formedDrain
    formedRed := if drain then z.formedRed else z.formedRed + 1 })
  let s2 := modPart { s1 with nextId := n + 1 } p (fun q => { q with rounds := mset q.rounds n r })
  ready.foldl (enterItem n) s2

/-- Where the contribution of an entry waits: its partition, cohort and kind. -/
def pendingAt (s : State) (n : Nat) : Option (Nat × Nat × Cohort × Bool) :=
  firstSome (fun p => firstSome (fun c =>
    (c.2.pending.find? (fun y => decide (y.entry.id = n))).map (fun y => (p.1, c.1, c.2, y.drain))) p.2.cohorts) s.parts

/-- Where a contribution of a formed round waits for a place: the round and the contribution. -/
def formedAt (s : State) (n : Nat) : Option (Nat × Contribution) :=
  firstSome (fun p => firstSome (fun r =>
    (r.2.items.find? (fun y => decide (y.entry.id = n) && !y.entered)).map (fun y => (r.1, y))) p.2.rounds) s.parts

/-- ROUND_FORM (R263, R280): the round of contribution `n` forms, or `n` enters `qr` once a place is free. -/
def execRoundForm (n : Nat) (s : State) : Host.Outcome State Fault Refusal :=
  match formedAt s n with
  | some x =>
    if placesTaken s x.2.core 5 < Config.queueDepth then .next (enterItem x.1 s x.2) else .refused (.notEnabled "ROUND_FORM")
  | none =>
    match pendingAt s n with
    | none => .refused (.notEnabled "ROUND_FORM")
    | some (p, idx, c, drain) =>
      match firstItems c drain with
      | none => .refused (.notEnabled "ROUND_FORM")
      | some items =>
        if items.any (fun y => decide (y.entry.id = n)) &&
            !peersCount (partOf s p) c (if drain then 1 else 2) (if drain then c.formedDrain else c.formedRed) then
          .next (formRound s p idx c drain items)
        else .refused (.notEnabled "ROUND_FORM")

/-! ### Peers (R281) -/

/-- A cohort that loses a peer: everything open that counted it is marked with the roster record's tag.
Log entry 53 (DEDUCED). -/
def losePeer (p : Partition) (e : Nat) (t : BitVec 12) (c : Cohort) : Cohort :=
  if !c.peers.getLsbD e then c
  else
    let fin := openEnd c
    let base := (c.released, c.formedDrain, c.formedRed)
    let from_ := mgetD c.since e (0, 0, 0)
    let open_ (k : Nat) : List (Nat × Nat × BitVec 12) :=
      let lo := Nat.max (pick3 base k) (pick3 from_ k)
      (List.range (pick3 fin k - lo)).map (fun i => (k, lo + i, t))
    settleCohort p { c with lost := c.lost ++ open_ 0 ++ open_ 1 ++ open_ 2, peerItems := c.peerItems.filter (fun y => decide (y.1 ≠ e)) }

/-- A present roster entry leaves: open rounds and generations go on without it, a record is written (R281); its stream
fails, and nothing that waits for it is kept (R361). -/
def leaveRoster (s : State) (p e : Nat) (gone : Bool) : State :=
  let r := newTag s p
  let s1 := modPart r.2 p (fun q => { q with roster := mmod q.roster e (fun x => { x with present := false, gone := gone }) })
  let s2 := modPart s1 p (fun q => { q with cohorts := q.cohorts.map (fun c => (c.1, losePeer q e r.1 c.2)) })
  dropStream (postEvent s2 p { hubEvent s2 p .rosterLost 2 with tag := .poison r.1, detail := e }) (peerStream p e)

/-- A cohort that gains a peer: it counts from what is opened next (R281). -/
def gainPeer (e : Nat) (c : Cohort) : Cohort :=
  if c.peers.getLsbD e then
    { c with since := mset c.since e (openEnd c), peerArrivals := mset c.peerArrivals e (openEnd c).1 }
  else c

/-- A peer arrives at a cohort's barrier (R279); no cohort that has no such member is changed. -/
def peerArrive (s : State) (p idx e : Nat) : State :=
  modCohort s p idx (fun c => if c.peers.getLsbD e then
    settleCohort (partOf s p) { c with peerArrivals := mset c.peerArrivals e (mgetD c.peerArrivals e 0 + 1) } else c)

/-- A peer contributes to a reduction round (R263, R280). -/
def peerContribute (s : State) (p idx e : Nat) (y : PeerPart) : State :=
  modCohort s p idx (fun c => if c.peers.getLsbD e then { c with peerItems := c.peerItems ++ [(e, y)] } else c)

/-- PEER_GONE (R281): a peer that reset or did not respond in time is marked gone. Log entry 84 (DESIGN CHOICE). -/
def execPeerGone (p e : Nat) (s : State) : Host.Outcome State Fault Refusal :=
  if (mgetD (partOf s p).roster e {}).present then .next (leaveRoster s p e true) else .refused (.notEnabled "PEER_GONE")

end Sys2Proof.Machine
end

