-- ==== Sys2Proof/Machine/Deck.lean ====
section
/-! DEFINITION. Decks and Showdown (R282 to R285): `dput`, `dtake`, `sdwait`, the compaction buffers of the dies, holds
and quiescence. -/

namespace Sys2Proof.Machine

/-- Whether a wave may name a deck: one of its grid's deck set (R282). -/
def deckOk (s : State) (c : Ctx) (d : Nat) : Bool := decide (d < 64) && (gridOf s c.w.grid).launch.decks.getLsbD d

/-- The state with a deck of a partition changed. -/
def modDeck (s : State) (p d : Nat) (f : Deck → Deck) : State := modPart s p (fun x => { x with decks := mmod x.decks d f })

/-- Items of a die on their way: issued and held, or in its buffer (R283). -/
def inFlight (s : State) (p die : Nat) : Nat :=
  (s.held.foldl (fun n h => match h.eff with
    | .deckPut l => if dieOfCore h.core = die then n + l.length else n
    | _ => n) 0) +
  (partOf s p).decks.foldl (fun n d => d.2.flying.foldl (fun n g => if g.2.1 = die then n + g.2.2.length else n) n) 0

/-- The item of a lane: four words with their tags. -/
def itemWords (c : Ctx) (a : Operand) (l : Nat) : List TWord :=
  match a with
  | .v k => (List.range 4).map (fun j =>
      let x := vLane (vregOf c.w (k + j)) l
      ⟨x.val, c.see x.tag⟩)
  | _ => []

/-- `dput` (R283). -/
def execDput (a b : Operand) (s : State) : Host.Outcome State Fault Refusal :=
  run (.dput a b) s (fun s1 c =>
    let uniform := decide (rank b = 0)
    consumeThen s1 c (c.sp.mask &&& c.w.live) (fun l => [(read32 c b l).tag]) uniform
      (fun s2 c =>
        let deck (l : Nat) : Nat := (read32 c b l).val.toNat
        match (lanesOf c.act).find? (fun l => !deckOk s2 c (deck l)) with
        | some l => trapAt s2 c .illegalDeck (BitVec.ofNat 32 (if uniform then deck l else l))
        | none =>
          if 4096 < inFlight s2 c.w.part (dieOfCore c.w.core) + laneTotal c.act then stall s2 c.uid
          else if c.act = 0 then finishNop s2 c
          else
            let items := (lanesOf c.act).map (fun l => (deck l, itemWords c a l))
            finishNop (hold s2 c.uid (.deckPut items) none).2 c))

/-- Whether a deck has room for a group of items. -/
def deckRoom (d : Deck) (n : Nat) : Bool := decide (d.items.length + n ≤ 2 ^ d.cap)

/-- A group of items of a die at its deck: appended if there is room and no older group of the die waits, else kept in
the buffer (R283). Log entry 55 (DEDUCED). -/
def arriveGroup (id die : Nat) (l : List Item) (d : Deck) : Deck :=
  if deckRoom d l.length && !d.flying.any (fun g => decide (g.2.1 = die)) then { d with items := d.items ++ l }
  else { d with flying := d.flying ++ [(id, die, l)] }

/-- Items leave their seat, one group per deck. -/
def arriveItems (s : State) (p die : Nat) (clock : List Nat) (l : List (Nat × List TWord)) : State :=
  ((l.map (·.1)).eraseDups).foldl (fun t d =>
    let group := (l.filter (fun x => decide (x.1 = d))).map (fun x => ({ words := x.2, clock := clock } : Item))
    modDeck { t with nextId := t.nextId + 1 } p d (arriveGroup t.nextId die group)) s

/-- Whether a buffered group is the oldest of its die for its deck. -/
def oldestGroup (d : Deck) (id die : Nat) : Bool :=
  match d.flying.find? (fun g => decide (g.2.1 = die)) with
  | some g => decide (g.1 = id)
  | none => false

/-- The deck in whose buffers a group waits: partition, deck, group. -/
def groupAt (s : State) (n : Nat) : Option (Nat × Nat × Deck × Nat × List Item) :=
  firstSome (fun p => firstSome (fun d =>
    (d.2.flying.find? (fun g => decide (g.1 = n))).map (fun g => (p.1, d.1, d.2, g.2.1, g.2.2))) p.2.decks) s.parts

/-- DECK_APPEND (R283): held items leave their seat, or a buffered group is appended once its deck has room. -/
def execDeckAppend (n : Nat) (s : State) : Host.Outcome State Fault Refusal :=
  match groupAt s n with
  | some (p, k, d, die, l) =>
    if deckRoom d l.length ∧ oldestGroup d n die then
      .next (modDeck s p k (fun d => { d with
        items := d.items ++ l, flying := d.flying.filter (fun g => !decide (g.1 = n)) }))
    else .refused (.notEnabled "DECK_APPEND")
  | none =>
    perform s n "DECK_APPEND" (fun s1 h =>
      match h.eff with
      | .deckPut l =>
        let w := waveOf s1 h.wave
        some (arriveItems s1 w.part (dieOfCore h.core) (clockJoin w.clock w.wrote) l)
      | _ => none)

/-- Holds the release of what a wave has drawn (R285); the wave holds nothing any more. -/
def dropDrawn (s : State) (c : Ctx) : Nat × State × Ctx :=
  let r := hold s c.uid (.deckRelease c.w.drawn) none
  (r.1, r.2, { c with w := { c.w with drawn := [] } })

/-- `dtake` (R284): a request of `qg`; what the wave held is released D cycles later (R285). -/
def execDtake (d a b : Operand) (s : State) : Host.Outcome State Fault Refusal :=
  run (.dtake d a b) s (fun s1 c =>
    consumeAll s1 c [tagU c b false] (fun s2 c =>
      let deck := (readU c b).toNat
      if !deckOk s2 c deck then trapAt s2 c .illegalDeck (BitVec.ofNat 32 deck)
      else withPlaces s2 c [6] (fun s3 =>
        let r := dropDrawn s3 c
        let p := match d with
          | .p n => n
          | _ => 0
        let v := match a with
          | .v n => c.w.wbase + n
          | _ => 0
        startEngine r.2.1 r.2.2 6 (.take deck p v (lanesOf c.act)) false)))

/-- DECK_HOLD_RELEASE (R285). -/
def execDeckHoldRelease (n : Nat) (s : State) : Host.Outcome State Fault Refusal :=
  perform s n "DECK_HOLD_RELEASE" (fun s1 h =>
    match h.eff with
    | .deckRelease items => some (releaseDrawn s1 ((partOfDie s1 (dieOfCore h.core)).getD 0) items)
    | _ => none)

/-- The draw of a `dtake` at its deck's home, in one step (R284): the state, the lane results, what it acquires. -/
def drawItems (s : State) (p u deck preg v : Nat) (lanes : List Nat) : State × List (Dst × LaneVal) × List Nat :=
  let d := mgetD (partOf s p).decks deck {}
  let got := d.items.take lanes.length
  let k := got.length
  let s1 := modDeck s p deck (fun d => { d with items := d.items.drop k })
  let s2 := if (mget s1.waves u).isSome then
      modWave (modDeck s1 p deck (fun d => { d with heldItems := d.heldItems + k })) u (fun w => { w with
        drawn := if k = 0 then w.drawn else mset w.drawn deck (mgetD w.drawn deck 0 + k) })
    else s1
  let words := ((lanes.zip got).flatMap (fun x => (x.2.words.zip (List.range 4)).map (fun y =>
    (Dst.v (v + y.2), (⟨x.1, y.1.val.setWidth 64, seeTag s.tags p y.1.tag⟩ : LaneVal)))))
  let bits_ := (lanes.zip (List.range lanes.length)).map (fun x =>
    (Dst.p preg, (⟨x.1, if x.2 < k then 1 else 0, .clean⟩ : LaneVal)))
  (s2, words ++ bits_, got.foldl (fun c x => clockJoin c x.clock) [])

/-- `sdwait` (R285): releases what the wave holds and parks until quiescence is reported for the set. -/
def execSdwait (a : Operand) (s : State) : Host.Outcome State Fault Refusal :=
  run (.sdwait a) s (fun s1 c =>
    consumeAll s1 c [tagU c a true] (fun s2 c =>
      let set := readUPair c a
      match allLanes.find? (fun d => set.getLsbD d && !deckOk s2 c d) with
      | some d => trapAt s2 c .illegalDeck (BitVec.ofNat 32 d)
      | none =>
        let r := dropDrawn s2 c
        finishPark r.2.1 r.2.2 r.2.2.w (.decks set r.1 false) none))

/-- Whether a deck of a partition has no item present, held or in flight. -/
def deckQuiet (s : State) (p d : Nat) : Bool :=
  let x := mgetD (partOf s p).decks d {}
  x.items.isEmpty && decide (x.heldItems = 0) && x.flying.isEmpty &&
  !s.held.any (fun h => match h.eff with
    | .deckPut l => decide (partOfDie s (dieOfCore h.core) = some p) && l.any (fun y => decide (y.1 = d))
    | _ => false)

/-- Whether a park waits for a report on a set and has performed its own release. -/
def awaitsReport (s : State) (set : DWord) (k : Park) : Bool :=
  match k.cond with
  | .decks m after false => decide (m = set) && (heldOf s after).isNone
  | _ => false

/-- The splits of a wave after a report on a set. -/
def takeReport (s : State) (set : DWord) (w : Wave) : Wave :=
  everySplit (fun x => { x with park := x.park.map (fun k =>
    if awaitsReport s set k then { k with cond := match k.cond with
        | .decks m after _ => .decks m after true
        | y => y }
    else k) }) w

/-- Whether some split of a wave of a partition awaits a report on a set. -/
def waitsFor (s : State) (p : Nat) (set : DWord) (w : Wave) : Bool :=
  decide (w.part = p) && (allSplits w).any (fun x => x.park.any (awaitsReport s set))

/-- SHOWDOWN_QUIESCENCE (R285): quiescence of a set that splits wait for is reported to them. -/
def execShowdownQuiescence (p : Nat) (set : DWord) (s : State) : Host.Outcome State Fault Refusal :=
  let waiting := s.waves.any (fun w => waitsFor s p set w.2) ||
    s.images.any (fun x => x.2.waves.any (fun w => waitsFor s p set w.2))
  if allLanes.all (fun d => !set.getLsbD d || deckQuiet s p d) && waiting then
    let f (w : Wave) : Wave := if w.part = p then takeReport s set w else w
    .next { s with
      waves := s.waves.map (fun w => (w.1, f w.2))
      undo := s.undo.map (fun y => { y with old := f y.old })
      images := s.images.map (fun x => (x.1, { x.2 with waves := x.2.waves.map (fun w => (w.1, f w.2)) })) }
  else .refused (.notEnabled "SHOWDOWN_QUIESCENCE")

end Sys2Proof.Machine
end

