-- ==== Sys2Proof/Machine/Engines.lean ====
section
/-! DEFINITION. The stages of an engine entry (R161, R163): requests enter, entries are performed, their writes leave the
engine hold-back, entries complete; `qfence` markers complete together (R180). -/

namespace Sys2Proof.Machine

/-- The entries of a queue changed where their number is `id`. -/
def modEntryOf (s : State) (core q id : Nat) (f : Entry → Entry) : State :=
  modCore s core (fun x =>
    let y := queueAt x q
    setQueue x q { y with entries := y.entries.map (fun z => if z.id = id then f z else z) })

/-- The marker a `qfence` puts into a queue. -/
def markerEntry (s : State) (u group : Nat) : Entry :=
  let w := waveOf s u
  { id := group, wave := u, block := w.block, grid := w.grid, ctx := w.ctx, pkr := w.pkr, work := .marker group }

/-- ENGINE_REQUEST_ENTER (R161, R180, R263): a held request enters its queue; markers enter together; a contribution
leaves its core. -/
def execEngineRequestEnter (n : Nat) (s : State) : Host.Outcome State Fault Refusal :=
  perform s n "ENGINE_REQUEST_ENTER" (fun s1 h =>
    match h.eff with
    | .enter q e => some (enterQueue s1 h.core q { e with clock := clockJoin e.clock (waveOf s1 h.wave).released })
    | .markers set group =>
      some (((List.range 7).filter (bitAt set.toNat)).foldl (fun t q => enterQueue t h.core q (markerEntry s1 h.wave group)) s1)
    | .contribute p idx id =>
      let s2 := modCohort s1 p idx (fun c => { c with
        pending := c.pending.map (fun y => if y.entry.id = id then
          { y with left := true, entry := { y.entry with clock := clockJoin y.entry.clock (waveOf s1 h.wave).released } } else y) })
      some (match (mgetD (partOf s2 p).cohorts idx {}).pending.find? (fun y => decide (y.entry.id = id)) with
        | some y =>
          let ts := contributedTags s2 y
          sendPeers { s2 with tags := absorb s2.tags (absorptions ts) } p idx (mergeTags ts) y.entry.clock h.wave
        | none => s2)
    | _ => none)

/-- A core is stalled by a rollback of its core region (R313). -/
def coreStalled (s : State) (core : Nat) : Bool :=
  match (coreOf s core).stall with
  | some t => decide (s.now < t)
  | none => false

/-- The round an entry belongs to. -/
def roundOf (s : State) (p n : Nat) : Option Round := mget (partOf s p).rounds n

/-- A round with the values of its contributions, local and of peers, as the partition sees them now (R307). -/
def seenRound (see : Tag → Tag) (r : Round) : Round :=
  { r with
    items := r.items.map (fun y => { y with
      elems := y.elems.map (fun x => (x.1, { x.2 with tag := see x.2.tag })), lanes := y.lanes.map (fun x => { x with tag := see x.tag }) })
    peers := r.peers.map (fun y => { y with
      elems := y.elems.map (fun x => (x.1, { x.2 with tag := see x.2.tag })), lanes := y.lanes.map (fun x => { x with tag := see x.tag }) }) }

/-- The absorptions of a drain round's combinations, and its flags. -/
def drainMarks (r : Round) (root : Contribution) : Sticky × List (Nat × Nat) :=
  (drainPieces r root).foldl (fun x p => (x.1 ||| p.2.2.sticky, x.2 ++ p.2.2.pairs)) (0, [])

/-- An entry that writes registers only is done once its transfer and the hold-back are over (R178). -/
def readyWith (s : State) (e : Entry) (sticky : Sticky) (results : List (Dst × LaneVal)) (gain : List Nat) (z : Entry) :
    Entry :=
  { z with stage := .releasing, ready := s.now + Config.engineTransfer e.id + Config.holdback, sticky := sticky
           results := results, gain := gain }

/-- Performs an entry of a reduction: the root of a drain round writes memory; the others only wait (R263 to R265);
a reduction delivers its lanes (R280). -/
def performRound (s : State) (core : Nat) (e : Entry) (p n : Nat) : Option State :=
  match (roundOf s p n).map (seenRound (seeTag s.tags p)) with
  | none => none
  | some r =>
    let done (t : State) : State := modEntryOf t core 5 e.id (fun z => { z with stage := .releasing })
    if r.mismatch then some (done s)
    else if s.now < r.due then none
    else if r.drain then
      match r.items with
      | root :: _ =>
        if root.entry.id = e.id then
          let m := drainMarks r root
          let s1 := modPart s p (fun q => { q with rounds := mmod q.rounds n (fun r => { r with performed := true, sticky := m.1 }) })
          some (produced { s1 with tags := absorb s1.tags m.2 } core 5 e e.pkr (drainRun s core e r root))
        else some (done s)
      | [] => none
    else
      match r.items.find? (fun y => decide (y.entry.id = e.id)) with
      | some y =>
        let out := credLanes r
        let s1 := { s with tags := absorb s.tags (out.flatMap (·.pairs)) }
        some (modEntryOf s1 core 5 e.id (readyWith s e (out.foldl (fun f z => f ||| z.sticky) 0) (credResults r y) []))
      | none => none

/-- ENGINE_ENTRY_PERFORM (R161, R167, R168, R173, R256, R264, R284): the entry at the head of a queue does its work. -/
def execEngineEntryPerform (c q : Nat) (s : State) : Host.Outcome State Fault Refusal :=
  let no : Host.Outcome State Fault Refusal := .refused (.notEnabled "ENGINE_ENTRY_PERFORM")
  match (queueAt (coreOf s c) q).entries with
  | [] => no
  | e :: _ =>
    if e.stage ≠ .waiting ∨ s.now < e.ready ∨ coreStalled s c then no
    else
      let before := clockJoin e.clock (queueAt (coreOf s c) q).clock
      let s0 := modEntryOf (syncTo s (dieOfCore c) before) c q e.id (fun z => { z with clock := before })
      let part := (ctxOf s e.ctx).part
      match e.work with
      | .copy out reqs =>
        let s1 := readPlaces s0 part (copyAll s0 c e out reqs).reads
        .next (produced s1 c q e e.pkr (copyAll s1 c e out reqs))
      | .gather size off ls =>
        let s1 := readPlaces s0 part (gatherRun s0 c e size off ls).reads
        .next (produced s1 c q e e.pkr (gatherRun s1 c e size off ls))
      | .mma _ _ _ _ _ _ _ _ =>
        let k := e.block.getD 0
        if mmaMay s c e then .next (mmaStart ((k :: (partnerOf s0 k).toList).foldl findMatrix s0) c e) else no
      | .marker _ => no
      | .drain p n => match performRound s0 c e p n with
        | some t => .next t
        | none => no
      | .take deck p v lanes =>
        let r := drawItems s0 (ctxOf s0 e.ctx).part e.wave deck p v lanes
        .next (modEntryOf r.1 c q e.id (readyWith s e 0 r.2.1 r.2.2))

/-- The waves for which an entry's writes count (R239, R265): its own, those of a collective, those of its round. -/
def entryWaves (s : State) (e : Entry) : List Nat :=
  match e.work with
  | .drain p n => match roundOf s p n with
    | some r => r.items.map (fun y => y.entry.wave)
    | none => [e.wave]
  | _ => (e.wave :: e.ops.map (·.1)).eraseDups

/-- The grids of which an entry's writes are part (R265, R278): its own, those of its round. -/
def entryGrids (s : State) (e : Entry) : List Nat :=
  match e.work with
  | .drain p n => match roundOf s p n with
    | some r => (r.items.map (fun y => y.entry.grid)).eraseDups
    | none => [e.grid]
  | _ => [e.grid]

/-- The entry of a queue with a number. -/
def entryIn (s : State) (core q id : Nat) : Option Entry := (queueAt (coreOf s core) q).entries.find? (fun e => decide (e.id = id))

/-- Some engine writes of an entry performed at once: each that goes to memory counts for the waves that wait for the
entry and for the completion of their grids, and the queue's later entries come after it (R239, R278). -/
def performEngine (s : State) (core q u : Nat) (waves grids : List Nat) (clock : List Nat) (xs : List EngineWrite) : State :=
  let s1 := xs.foldl (fun t x => engineWrite t core u clock x) s
  if xs.all (fun x => decide (x.dest ≠ .memory)) then s1
  else
    let die := dieOfCore core
    let n := (dieOf s1 die).writeSeq
    let s2 := modCore s1 core (fun x =>
      let y := queueAt x q
      setQueue x q { y with clock := clockRaise (clockJoin y.clock clock) die n })
    let s3 := grids.foldl (fun t g => modGrid t g (fun x => { x with doneClock := clockRaise (clockJoin x.doneClock clock) die n })) s2
    waves.foldl (fun t v => modWave t v (fun w => { w with engineWrote := clockRaise w.engineWrote die n })) s3

/-- ENGINE_WRITE_RELEASE (R178, R301): engine writes leave the engine hold-back and are performed. -/
def execEngineWriteRelease (n : Nat) (s : State) : Host.Outcome State Fault Refusal :=
  match heldOf s n with
  | none => .refused (.notEnabled "ENGINE_WRITE_RELEASE")
  | some h =>
    match h.eff with
    | .engine id q xs =>
      let part := (partOfDie s (dieOfCore h.core)).getD 0
      if h.due ≤ s.now ∧ !coreStalled s h.core ∧ matched s h ∧ xs.all (fun x => engineMay s x (seeTag s.tags part x.tag)) then
        let e := entryIn s h.core q id
        let clock := match e with
          | some y => y.clock
          | none => []
        let others := match e with
          | some y => (entryWaves s y).filter (fun u => decide (u ≠ h.wave))
          | none => []
        .next (performEngine (dropHeld s n) h.core q h.wave others (e.toList.flatMap (entryGrids s)) clock xs)
      else .refused (.notEnabled "ENGINE_WRITE_RELEASE")
    | _ => .refused (.notEnabled "ENGINE_WRITE_RELEASE")

/-- Whether an engine write or a matrix write of an entry is still held. -/
def writesHeld (s : State) (id : Nat) : Bool :=
  s.held.any (fun h => match h.eff with
    | .engine e _ _ => decide (e = id)
    | .matrix _ => decide (h.op = some id)
    | _ => false)

/-- Whether the writes of an entry are done: for a contribution, those of its round (R265). -/
def entryDone (s : State) (e : Entry) : Bool :=
  !writesHeld s e.id &&
  (match e.work with
    | .drain p n => match roundOf s p n with
      | some r => !r.drain || r.mismatch || (r.performed && !writesHeld s ((r.items.head?.map (fun y => y.entry.id)).getD 0))
      | none => true
    | _ => true)

/-- The flags an entry sets at its completion (R53, R257, R265). -/
def entrySticky (s : State) (e : Entry) : Sticky :=
  match e.work with
  | .drain p n => match roundOf s p n with
    | some r => e.sticky ||| r.sticky
    | none => e.sticky
  | _ => e.sticky

/-- One operation of an entry completes in its wave (R38, R53, R161). -/
def completeEngineOp (e : Entry) (sticky : Sticky) (s : State) (x : Nat × Nat) : State :=
  match mget s.waves x.1 with
  | none => s
  | some w =>
    match w.ops.find? (fun o => decide (o.id = x.2)) with
    | none => s
    | some o =>
      let w1 := e.results.foldl (fun w r => writeDone w r.1 false r.2) w
      let w2 := { w1 with ops := w1.ops.filter (fun y => !decide (y.id = o.id)), flags := flagSub w1.flags o.flag
                          wstat := w1.wstat ||| sticky }
      let s1 := putWave s x.1 w2
      let s2 := { s1 with arrivals := s1.arrivals ++ [{ at_ := s.now, wave := x.1, op := o.id, kind := .engine e.results sticky }] }
      acquireClock (modOlds s2 x.1 (fun w => w.ops.any (fun y => decide (y.id = o.id))) (joinClock e.gain)) x.1 e.gain

/-- A round is forgotten when its last entry completes. -/
def forgetRound (s : State) (e : Entry) : State :=
  match e.work with
  | .drain p n =>
    match roundOf s p n with
    | some r =>
      let left (y : Contribution) : Bool := decide (y.entry.id ≠ e.id) && (!y.entered || (entryIn s y.core 5 y.entry.id).isSome)
      if r.items.any left then s else modPart s p (fun q => { q with rounds := mdel q.rounds n })
    | none => s
  | _ => s

/-- The error record of an entry (R171): the queue and the low word of its number. Log entry 51 (DEDUCED). -/
def entryEvent (s : State) (core q : Nat) (e : Entry) (cause : Cause) (addr : Nat) : Event :=
  { src := dieOfCore core, seq := 0, time := 0, cause := cause, severity := 3, addr := addr, grid := (gridOf s e.grid).handle
    ctx := e.ctx, asid := (ctxOf s e.ctx).asid, core := some core, detail := e.num % 2 ^ 32, extra := [q] }

/-- The record of an entry's walk that met a malformed entry of the page tables when the entry was performed (R201).
Log entry 51 (DEDUCED). -/
def entryWalk (s : State) (core q : Nat) (e : Entry) (f : Cause × Nat) : State :=
  if e.malformed then postEvent s (ctxOf s e.ctx).part { entryEvent s core q e .pteMalformed f.2 with severity := 2 } else s

/-- ENGINE_ENTRY_COMPLETE (R161, R163, R171): the entry at the head of a queue completes once its last write has been
released; its error ends its block or loose wave. -/
def execEngineEntryComplete (c q : Nat) (s : State) : Host.Outcome State Fault Refusal :=
  match (queueAt (coreOf s c) q).entries with
  | [] => .refused (.notEnabled "ENGINE_ENTRY_COMPLETE")
  | e :: rest =>
    if e.stage = .releasing ∧ e.ready ≤ s.now ∧ entryDone s e ∧ !coreStalled s c ∧
        e.ops.all (fun x => !seatStalled s c (waveOf s x.1).seat) then
      let sticky := entrySticky s e
      let s1 := modCore s c (fun x => setQueue x q { queueAt x q with entries := rest, completed := BitVec.ofNat 64 e.num })
      let s2 := forgetRound (e.ops.foldl (completeEngineOp e sticky) s1) e
      .next (match e.fail with
        | some f => endWith (entryWalk s2 c q e f) e.wave e.block (ctxOf s2 e.ctx).part (entryEvent s c q e f.1 f.2)
        | none => s2)
    else .refused (.notEnabled "ENGINE_ENTRY_COMPLETE")

/-- The queues of a core in which a group has a marker. -/
def markedQueues (c : Core) (group : Nat) : List Nat :=
  (List.range 7).filter (fun q => (queueAt c q).entries.any (fun e => decide (e.work = .marker group)))

/-- QFENCE_COMPLETE (R180): when all markers of a group head their queues, they complete together. -/
def execQfenceComplete (n : Nat) (s : State) : Host.Outcome State Fault Refusal :=
  match s.cores.find? (fun c => !(markedQueues c.2 n).isEmpty) with
  | none => .refused (.notEnabled "QFENCE_COMPLETE")
  | some (k, c) =>
    let qs := markedQueues c n
    if qs.all (fun q => decide (((queueAt c q).entries.head?).map (fun e => e.work) = some (.marker n))) && !coreStalled s k then
      let clock := qs.foldl (fun l q => clockJoin l (queueAt c q).clock) []
      .next (modCore s k (fun x => qs.foldl (fun y q =>
        let z := queueAt y q
        match z.entries with
        | e :: rest => setQueue y q { z with entries := rest, completed := BitVec.ofNat 64 e.num, clock := clock }
        | [] => y) x))
    else .refused (.notEnabled "QFENCE_COMPLETE")

end Sys2Proof.Machine
end

