-- ==== Sys2Proof/Machine/System.lean ====
section
/-! DEFINITION. System registers (R52, R99, R108, R186, R218, R266, R271, R309, R332, R338): `rdsr`, `wrsr`, the writes to
`mgrant` (R213) and `sig` (R372), and `qfeat` (R366). -/

namespace Sys2Proof.Machine

/-- The device time counter of a partition (R338): cycles since its reset. -/
def deviceTime (s : State) (p : Nat) : Nat := s.now - (partOf s p).born

/-- `trset` (R309). -/
def trset (p : Partition) : Nat := (if p.trump then 0x10000 else 0) + p.trumpP

/-- `roster` (R271). -/
def rosterWord (p : Partition) : Nat :=
  p.rosterGen.toNat * 0x10000 + (List.range 16).foldl (fun n e => if (mgetD p.roster e {}).present then n + 2 ^ e else n) 0

/-- `trocc` (R309). -/
def troccWord (s : State) (p die : Nat) : Nat :=
  let tags := (s.tags.filter (fun t => decide (t.2.part = p))).length
  let es := (dieOf s die).trump
  let promoted := (es.filter (fun e => decide (e.state = .promoted))).length
  let used := (es.filter (fun e => decide (e.state ≠ .free))).length
  tags * 2 ^ 16 + promoted * 2 ^ 6 + used

/-- `spstat` (R186). -/
def spstatWord (c : Core) : Nat :=
  c.corrected + (match c.failed with
    | some b => 2 ^ 31 + b * 2 ^ 24
    | none => 0) + (if c.second then 2 ^ 30 else 0)

/-- `ncore` (R271). -/
def ncoreWord (p : Partition) : Nat := p.dies.foldl (fun n d => n + 2 ^ (16 + d)) 0 + p.cmap.length

/-- `cmap` for an index (R271). -/
def cmapWord (p : Partition) (i : Nat) : Nat :=
  match p.cmap[i]? with
  | some c => c
  | none => 2 ^ 31

/-- The health code of a core (R332). -/
def healthCode : Health → Nat
  | .healthy => 0
  | .suspect => 1
  | .quarantined => 2

/-- `corest` (R332). -/
def corestWord (s : State) (w : Wave) : Nat :=
  healthCode (coreOf s w.core).health + (match w.block with
    | some k => if (blockOf s k).redundant.isSome then 4 else 0
    | none => 0)

/-- `tframe` (R338). -/
def tframeWord (w : Wave) : Nat :=
  match w.frame with
  | some f => 2 ^ 31 + f.splits.length + f.deferred.length
  | none => 0

/-- A tile register of the wave's block, with the wave's own held writes (R266); a loose wave has no block.
Log entry 13 (DESIGN CHOICE). -/
def tileReg (s : State) (u n : Nat) (f : Block → Map Word) (i : Nat) : Nat :=
  match (waveOf s u).block with
  | some k => (mgetD (f (seenBlock s u k)) i 0).toNat
  | none => (Config.looseReg n).toNat

/-- The value of a numbered system register as a wave reads it. Log entry 32 (DEDUCED). -/
def sysRead (s : State) (u : Nat) (w : Wave) (n : Nat) : Nat :=
  let p := partOf s w.part
  let die := dieOfCore w.core
  if 0x40 ≤ n ∧ n ≤ 0x47 then (slotWord s w.grid (n - 0x40)).toNat
  else if 0x48 ≤ n ∧ n ≤ 0x57 then tileReg s u n (fun b => b.tconf) (n - 0x48)
  else if 0x58 ≤ n ∧ n ≤ 0x67 then tileReg s u n (fun b => b.twind) (n - 0x58)
  else if 0x70 ≤ n ∧ n ≤ 0x7F then
    let x := ((p.hmap.find? (fun (h : Nat × BitVec 36) => decide (h.1 = (n - 0x70) / 2))).elim (0 : BitVec 36) (fun (h : Nat × BitVec 36) => h.2)).toNat
    if n % 2 = 0 then x % 2 ^ 32 else x / 2 ^ 32
  else match n with
  | 0x10 => w.wstat.toNat
  | 0x11 => w.trapc.toNat
  | 0x12 => w.trappc % 2 ^ 32
  | 0x13 => w.trappc / 2 ^ 32 % 2 ^ 17
  | 0x14 => w.trapval.toNat
  | 0x15 => tframeWord w
  | 0x16 => w.skid.toNat
  | 0x18 => deviceTime s w.part % 2 ^ 32
  | 0x19 => w.timeHi.toNat
  | 0x20 => 16 * w.seat + w.slot
  | 0x21 => w.core
  | 0x22 => (p.cmap.findIdx (fun c => decide (c = w.core)))
  | 0x23 => Nat.min (2 ^ 32 - 1) w.wdog
  | 0x24 => (gridOf s w.grid).launch.level
  | 0x28 => w.spills.toNat
  | 0x29 => w.fills.toNat
  | 0x2A => w.wbase
  | 0x30 => spstatWord (coreOf s w.core)
  | 0x38 => w.pkr.toNat % 2 ^ 32
  | 0x39 => w.pkr.toNat / 2 ^ 32
  | 0x3A => (ctxOf s w.ctx).asid
  | 0x80 => w.cmapix.toNat
  | 0x81 => cmapWord p w.cmapix.toNat
  | 0x82 => ncoreWord p
  | 0x83 => rosterWord p
  | 0x90 => trset p
  | 0x91 => troccWord s w.part die
  | 0x92 => p.trwd
  | 0x93 => p.trcond
  | 0xA0 => (coreOf s w.core).rbk.toNat
  | 0xA1 => w.sig.toNat
  | 0xA2 => corestWord s w
  | 0xA3 => s.mplan.toNat
  | _ => 0

/-- The wave with a register read into a destination, clean (R340). -/
def putRead (c : Ctx) (d : Operand) (x : Nat) : Wave :=
  if c.skip then c.w else putResult c.w (uniformDest d) (BitVec.ofNat 32 x)

/-- `rdsr` (R340). -/
def execRdsr (d : Operand) (n : Byte) (s : State) : Host.Outcome State Fault Refusal :=
  run (.rdsr d n) s (fun s1 c => finish s1 c (putRead c d (sysRead s1 c.uid c.w n.toNat)) 0 [])

/-- `rdsr` of `timelo` (R338): the high half is latched for `timehi`. -/
def execRdsrTimelo (d : Operand) (s : State) : Host.Outcome State Fault Refusal :=
  run (.rdsrTimelo d) s (fun s1 c =>
    let w := putRead c d (sysRead s1 c.uid c.w 0x18)
    finish s1 c { w with timeHi := BitVec.ofNat 32 (deviceTime s1 c.w.part / 2 ^ 32) } 0 [])

/-- A writable register written: `wstat`, `spills`, `fills`, `cmapix`; none where a zero field is not zero (R52, R108,
R271). -/
def sysWrite (w : Wave) (n : Nat) (x : Word) : Option Wave :=
  match n with
  | 0x10 => if x.toNat / 2 ^ 9 = 0 then some { w with wstat := x.setWidth 9 } else none
  | 0x28 => some { w with spills := x }
  | 0x29 => some { w with fills := x }
  | 0x80 => if x.toNat / 2 ^ 9 = 0 then some { w with cmapix := x.setWidth 9 } else none
  | _ => some w

/-- `wrsr` (R340). -/
def execWrsr (a : Operand) (n : Byte) (s : State) : Host.Outcome State Fault Refusal :=
  run (.wrsr a n) s (fun s1 c =>
    consumeAll s1 c [tagU c a false] (fun s2 c =>
      if c.skip then finishNop s2 c
      else match sysWrite c.w n.toNat (readU c a) with
        | none => trapAt s2 c .illegalField (readU c a)
        | some w => finish s2 c w 0 []))

/-- `wrsr sig` (R372): the value stands after the instruction's own update. -/
def execSigWrite (a : Operand) (s : State) : Host.Outcome State Fault Refusal :=
  run (.sigWrite a) s (fun s1 c =>
    consumeAll s1 c [tagU c a false] (fun s2 c =>
      let s3 := finishNop s2 c
      if c.skip then s3 else modWave s3 c.uid (fun w => { w with sig := readU c a })))

/-- A write to `mgrant` (R213): checked now, in the grant table D cycles later (R316). -/
def writeGrant (a : Operand) (s : State) (c : Ctx) : State :=
  attached s c (fun k =>
    consumeAll s c [tagU c a false] (fun s1 c =>
      let g := readU c a
      let x := g.toNat
      let idx := bits x 31 24
      let taken : Bool := match mget (gridOf s1 c.w.grid).grants idx with
        | some r => decide (r.block ≠ k)
        | none => false
      if c.skip then finishNop s1 c
      else if bits x 23 5 ≠ 0 ∨ bitAt x 2 ∨ taken then trapAt s1 c .illegalField g
      else finishNop (hold s1 c.uid (.grant idx g c.w.wbase) none).2 c))

/-- `wrsr mgrant` with revoke clear in its literal, or with a register (R213). -/
def execMgrantCreate (a : Operand) (s : State) : Host.Outcome State Fault Refusal := run (.mgrantCreate a) s (writeGrant a)
/-- `wrsr mgrant` with revoke set in its literal (R213). -/
def execMgrantRevoke (a : Operand) (s : State) : Host.Outcome State Fault Refusal := run (.mgrantRevoke a) s (writeGrant a)

/-- A word of `qfeat` (R366). Log entry 58 (DEDUCED). -/
def featWord (s : State) (w : Wave) (i : Nat) : Word :=
  let p := partOf s w.part
  if i < 0x10 then nth (ctxOf s w.ctx).stable i 0
  else match i with
  | 0x10 => BitVec.ofNat 32 p.cmap.length
  | 0x11 => BitVec.ofNat 32 (trset p)
  | 0x12 => s.mplan
  | 0x13 => BitVec.ofNat 32 (rosterWord p)
  | _ => 0

/-- `qfeat` (R366): the word with the tag of A. -/
def execQfeat (d a : Operand) (s : State) : Host.Outcome State Fault Refusal :=
  run (.qfeat d a) s (fun s1 c =>
    let i := readU c a
    if 0x1F < i.toNat then trapAt s1 c .illegalField i
    else
      let w := match c.skip, uniformDest d with
        | false, some n => setS c.w n ⟨featWord s1 c.w i.toNat, tagU c a false⟩
        | _, _ => c.w
      finish s1 c w 0 [])

end Sys2Proof.Machine
end

