-- ==== Sys2Proof/Machine/Scrub.lean ====
section
/-! DEFINITION. The walk and the scrub of a resolved tag (R304, R305): every value, granule, element, queue entry, held
effect and result in flight of a partition that carries the tag takes its resolved state. -/

namespace Sys2Proof.Machine

/-- The resolved state of a tag, other states unchanged: clean once settled, poison once condemned. -/
def resolveTag (t : Nat) (r : Resolution) : Tag → Tag
  | .prov x => if x.toNat = t then (match r with
      | .settled => .clean
      | .condemned => .poison x) else .prov x
  | y => y

/-- A sparse list of tags under a change of states. -/
def tagsMap (f : Tag → Tag) (m : Map Tag) : Map Tag :=
  m.filterMap (fun x => match f x.2 with
    | .clean => none
    | y => some (x.1, y))

def scrubT (f : Tag → Tag) (x : TWord) : TWord := { x with tag := f x.tag }
def scrubVal (f : Tag → Tag) (x : TVal) : TVal := { x with tag := f x.tag }
def scrubLane (f : Tag → Tag) (x : LaneVal) : LaneVal := { x with tag := f x.tag }
def scrubStore (f : Tag → Tag) (x : StoreLane) : StoreLane := { x with tag := f x.tag }
def scrubAtom (f : Tag → Tag) (x : AtomLane) : AtomLane := { x with b := scrubVal f x.b, c := scrubVal f x.c }
def scrubElem (f : Tag → Tag) (x : Nat × AccElem) : Nat × AccElem := (x.1, { x.2 with tag := f x.2.tag })
def scrubDst (f : Tag → Tag) (x : Dst × LaneVal) : Dst × LaneVal := (x.1, scrubLane f x.2)

/-- A long operation's results. -/
def scrubKind (f : Tag → Tag) : OpKind → OpKind
  | .result vs => .result (vs.map (fun x => (scrubLane f x.1, x.2)))
  | .gload ls => .gload (ls.map (fun x => { x with got := x.got.map (scrubVal f) }))
  | .sload k ls => .sload k (ls.map (fun x => { x with got := x.got.map (scrubVal f) }))
  | .answered vs st hs => .answered (vs.map (fun l => l.map (scrubLane f))) st hs
  | .locks a b vs hs => .locks a b (vs.map (scrubLane f)) hs
  | .engine vs st => .engine (vs.map (scrubDst f)) st

/-- A wave's registers and operations. -/
def scrubWave (f : Tag → Tag) (w : Wave) : Wave :=
  { w with
    v := w.v.map (fun x => (x.1, { x.2 with tags := tagsMap f x.2.tags }))
    s := w.s.map (scrubT f), a := w.a.map (fun x => { x with tag := f x.tag })
    p := w.p.map (fun x => { x with tags := tagsMap f x.tags })
    ops := w.ops.map (fun o => { o with kind := scrubKind f o.kind }) }

/-- A block's arrays. -/
def scrubBlock (f : Tag → Tag) (b : Block) : Block :=
  { b with spadTags := tagsMap f b.spadTags, tileTags := tagsMap f b.tileTags, acc := b.acc.map (scrubElem f)
           histTag := f b.histTag }

/-- An engine entry's results. -/
def scrubEntry (f : Tag → Tag) (e : Entry) : Entry :=
  { e with results := e.results.map (scrubDst f), product := e.product.map (fun x => (x.1, x.2.map (scrubElem f))) }

/-- A contribution's values. -/
def scrubContribution (f : Tag → Tag) (x : Contribution) : Contribution :=
  { x with entry := scrubEntry f x.entry, elems := x.elems.map (scrubElem f), lanes := x.lanes.map (scrubLane f) }

/-- A held write to matrix state. -/
def scrubMatrix (f : Tag → Tag) : MatrixWrite → MatrixWrite
  | .tile bs ts => .tile bs (ts.map (fun x => (x.1, f x.2)))
  | .acc es p => .acc (es.map (scrubElem f)) p
  | .histAdd bs t => .histAdd bs (f t)
  | x => x

/-- A held effect. -/
def scrubEffect (f : Tag → Tag) : Effect → Effect
  | .gstore n ls r c => .gstore n (ls.map (scrubStore f)) r c
  | .sstore n ls => .sstore n (ls.map (scrubStore f))
  | .vstore bs ts c => .vstore bs (ts.map (fun x => (x.1, f x.2))) c
  | .gatomic n op ls r a m c => .gatomic n op (ls.map (scrubAtom f)) r a m c
  | .satomic n op ls r a m => .satomic n op (ls.map (scrubAtom f)) r a m
  | .stul n ls => .stul n (ls.map (scrubStore f))
  | .matrix x => .matrix (scrubMatrix f x)
  | .grow n l pc d s a c => .grow n l pc d (s.map (scrubT f)) (a.map (fun x => { x with tag := f x.tag })) c
  | .enter q e => .enter q (scrubEntry f e)
  | .deckPut items => .deckPut (items.map (fun x => (x.1, x.2.map (scrubT f))))
  | .engine e q xs => .engine e q (xs.map (fun x => { x with tag := f x.tag }))
  | x => x

/-- A deck item. -/
def scrubItem (f : Tag → Tag) (x : Item) : Item := { x with words := x.words.map (scrubT f) }

/-- A partition's decks, pending contributions and rounds. -/
def scrubPart (f : Tag → Tag) (p : Partition) : Partition :=
  { p with
    decks := p.decks.map (fun d => (d.1, { d.2 with
      items := d.2.items.map (scrubItem f), flying := d.2.flying.map (fun g => (g.1, g.2.1, g.2.2.map (scrubItem f))) }))
    cohorts := p.cohorts.map (fun c => (c.1, { c.2 with pending := c.2.pending.map (scrubContribution f) }))
    rounds := p.rounds.map (fun r => (r.1, { r.2 with items := r.2.items.map (scrubContribution f) })) }

/-- A core's engine entries. -/
def scrubCore (f : Tag → Tag) (c : Core) : Core :=
  { c with queues := c.queues.map (fun q => { q with entries := q.entries.map (scrubEntry f) }) }

/-- An arrival kept for a rollback. -/
def scrubArrival (f : Tag → Tag) (x : Arrival) : Arrival := { x with kind := scrubKind f x.kind }

/-- A granule of global memory in a tag's journal (R301). -/
def journaled (r : ProvTag) (g : Nat) : Bool :=
  r.journal.any (fun x => decide (x.space = 0 ∧ x.first ≤ g ∧ g < x.first + x.count))

/-- The halfwords of a wave's spill images that name a tag, as physical addresses (R107). -/
def namingHalves (s : State) (t : Nat) (w : Wave) : List Nat :=
  if w.spillArea.isNone then []
  else
    (List.range w.lo).flatMap (fun n => allLanes.filterMap (fun l =>
      let pa := paOf s (agentOf w) (w.spillBase + 384 * n + 256 + 2 * l)
      if ofBytes (memRead s.mem pa 2) = tagBits (.prov (BitVec.ofNat 12 t)) then some pa else none))

/-- Spill halfwords that name the tag take the resolved state. Log entry 62 (DEDUCED). -/
def scrubHalves (s : State) (part t : Nat) (r : Resolution) : State :=
  let ws := (s.waves.map (·.2) ++ s.images.flatMap (fun x => x.2.waves.map (·.2))).filter (fun w => decide (w.part = part))
  let half := toBytes 2 (tagBits (resolveTag t r (.prov (BitVec.ofNat 12 t))))
  let bytes := (ws.flatMap (namingHalves s t)).flatMap (fun pa => addrBytes pa half)
  { s with mem := memWrite s.mem bytes }

/-- The walk and the scrub of a tag of a partition; what an image holds follows from the granules of its body (R308).
Log entry 62 (DEDUCED). -/
def scrubTag (s : State) (t : Nat) (x : ProvTag) (r : Resolution) : State :=
  let f := resolveTag t r
  let p := x.part
  let mine (w : Wave) : Bool := decide (w.part = p)
  let dies := (partOf s p).dies
  let inPart (b : Block) : Bool := decide ((gridOf s b.grid).part = p)
  let s1 := { s with
    waves := s.waves.map (fun w => if mine w.2 then (w.1, scrubWave f w.2) else w)
    blocks := s.blocks.map (fun b => if inPart b.2 then (b.1, scrubBlock f b.2) else b)
    cores := s.cores.map (fun c => if dies.contains (dieOfCore c.1) then (c.1, scrubCore f c.2) else c)
    parts := mmod s.parts p (scrubPart f)
    held := s.held.map (fun h => if dies.contains (dieOfCore h.core) then { h with eff := scrubEffect f h.eff } else h)
    memTags := s.memTags.filterMap (fun g => if journaled x g.1 then (match f g.2 with
      | .clean => none
      | y => some (g.1, y)) else some g)
    lags := s.lags.map (fun l => if dies.contains l.die then { l with tag := f l.tag } else l)
    flights := s.flights.map (fun y => if y.2.part = p then (y.1, { y.2 with tag := f y.2.tag }) else y)
    ports := s.ports.map (fun y => if y.part = p then { y with tag := f y.tag } else y)

    undo := s.undo.map (fun y => if mine y.old then { y with old := scrubWave f y.old } else y)
    arrivals := s.arrivals.map (scrubArrival f) }
  scrubHalves s1 p t r

end Sys2Proof.Machine
end

