-- ==== Sys2Proof/Machine/Trump.lean ====
section
/-! DEFINITION. Trump (chapter 14): regions and nomination (R288, R289), samples (R290), candidates (R291), when an entry
applies (R293), probation and promotion (R295 to R297), provisional executions (R298, R299), audits (R303), and `sigck`
(R158), and what the search contexts run (R73): audits and comparisons. A survivor of the search comes from outside with
CANDIDATE_INSTALL. -/

namespace Sys2Proof.Machine

/-! ### Regions (R288) -/

/-- The parts of a region: a header, or an instruction with flag A of its clause. -/
inductive RegionItem where
  | header (w : Word)
  | ins (i : Instr) (flag : Nat)
  deriving DecidableEq, Repr

/-- Reads words in clause form: the items, and the words still missing from the last body. -/
def parseRegion : Nat → List Word → Nat → Nat → Option (List RegionItem × Nat)
  | 0, _, _, _ => none
  | n + 1, l, left, flag =>
    match l with
    | [] => some ([], left)
    | x :: r =>
      if left = 0 then
        if isHeader x then
          (parseRegion n r (bits x.toNat 3 0 + 1) (bits x.toNat 11 8)).map (fun y => (.header x :: y.1, y.2))
        else none
      else match decode (x :: r) with
        | .ok (i, k) =>
          if k ≤ left then (parseRegion n ((x :: r).drop k) (left - k) flag).map (fun y => (.ins i flag :: y.1, y.2))
          else none
        | .error _ => none

/-- The instructions of a region. -/
def regionIns (l : List RegionItem) : List Instr :=
  l.filterMap (fun x => match x with
    | .ins i _ => some i
    | .header _ => none)

/-- The registers an instruction writes. -/
def writesOf (m : BitVec 24) (i : Instr) : List RegRef := ((slots i).filter (fun x => x.wr)).flatMap (slotRegs m)

/-- Whether an instruction may stand in a region: opcodes 0x10 to 0x5F, `nop`, `elect`, `rnote`; no `demote`, and no
affine destination under `aov` or `sat`. -/
def regionAllows (m : BitVec 24) (i : Instr) : Bool :=
  let op := opcodeOf i.word
  (match i with
    | .nop | .elect _ | .rnote _ => true
    | .demote _ _ => false
    | _ => decide (0x10 ≤ op ∧ op < 0x60)) &&
  (!(aovOn m || satOn m) || (writesOf m i).all (fun r => match r with
    | .a _ => false
    | _ => true))

/-- Whether every long operation is waited on by a later header. -/
def waitsInside : List RegionItem → Bool
  | [] => true
  | .header _ :: r => waitsInside r
  | .ins i f :: r =>
    (decide (latencyOf i = .short) || r.any (fun x => match x with
      | .header h => bitAt h.toNat (12 + f)
      | .ins _ _ => false)) && waitsInside r

/-- The operand code of a register (R23). -/
def regCode : RegRef → Nat
  | .v n => n
  | .s n => 0x40 + n
  | .a n => 0x60 + n
  | .p n => 0x70 + n
  | .acc _ => 0x78

/-- The register of an operand code. -/
def codeReg (c : Nat) : RegRef :=
  if c < 0x40 then .v c else if c < 0x60 then .s (c - 0x40) else if c < 0x70 then .a (c - 0x60) else .p (c - 0x70)

/-- How a live-in is first read: by an integer instruction, a float instruction, or as predicate bits; as a pair or
not (R297). -/
inductive Reader where
  | int (signed : Bool) (n : Nat)
  | flt (f : Fmt)
  | pred
  deriving DecidableEq, Repr

/-- The type under which an instruction reads a slot; a pair is one 64-bit value. -/
def readerOf (m : BitVec 24) (i : Instr) (x : Slot) : Reader :=
  let wide := isPair x.width m x.op
  let int : Reader := .int (isSigned (itype m)) (if wide then 64 else if packedI (itype m) then elemBits (itype m) else 32)
  let op := opcodeOf i.word
  match x.op with
  | .p _ => .pred
  | _ => match i with
    | .cvtif _ _ | .cvtw8 _ _ _ => int
    | .cvtn8 _ _ _ => .flt f32
    | .cvtfi _ _ | .cvtff _ _ _ => .flt (fmtOf (ftype m))
    | _ => if 0x30 ≤ op ∧ op < 0x48 then .flt (fmtOf (ftype m)) else int

/-- Whether an instruction reads its pairs as two separate elements: a complex one (R137, R297). -/
def readsHalves : Instr → Bool
  | .cmul _ _ _ | .cmad _ _ _ => true
  | _ => false

/-- The registers an instruction reads, each with its reader and whether it is half of a value; the guard first. -/
def readsOf (m : BitVec 24) (i : Instr) : List (RegRef × Reader × Bool) :=
  (if guardOn m && !ignoresGuard i then [(RegRef.p (guardReg m), Reader.pred, false)] else []) ++
  ((slots i).filter (slotReads m i)).flatMap (fun x =>
    (slotRegs m x).map (fun r => (r, readerOf m i x, isPair x.width m x.op && !readsHalves i)))

/-- The live-ins of instructions in order of first reading, given the registers written before. -/
def liveInsFrom (m : BitVec 24) : List RegRef → List Instr → List (RegRef × Reader × Bool)
  | _, [] => []
  | done, i :: r =>
    let now := (readsOf m i).filter (fun x => !done.contains x.1)
    now ++ liveInsFrom m (done ++ now.map (·.1) ++ writesOf m i) r

/-- The live-ins of a region (R288). Log entry 60 (DEDUCED). -/
def liveIns (m : BitVec 24) (l : List Instr) : List (RegRef × Reader × Bool) :=
  (liveInsFrom m [] l).foldl (fun a x => if a.any (fun y => decide (y.1 = x.1)) then a else a ++ [x]) []

/-- The registers named by an `rnote` that stands last (R159). -/
def notedDead (l : List Instr) : List RegRef :=
  match l.getLast? with
  | some (.rnote regs) => ((toBytes 8 regs.toNat).map (·.toNat)).filterMap (fun b => if b < 0x78 then some (codeReg b) else none)
  | _ => []

/-- The live-outs of a region: the registers it writes, less those a last `rnote` names (R288). -/
def liveOuts (m : BitVec 24) (l : List Instr) : List RegRef :=
  ((l.flatMap (writesOf m)).eraseDups).filter (fun r => !(notedDead l).contains r)

/-- The items of the words of a region, if they are a candidate for nomination (R288). -/
def regionOk (m : BitVec 24) (words : List Word) : Option (List RegionItem) :=
  if words.isEmpty ∨ 32 < words.length then none
  else match parseRegion 40 words 0 15 with
    | some (items, _) =>
      let is := regionIns items
      if is.all (regionAllows m) && waitsInside items && decide ((liveIns m is).length ≤ 8 ∧ (liveOuts m is).length ≤ 8)
      then some items else none
    | none => none

/-- Words of code with their physical addresses, as a wave's core fetches them; none where one cannot be fetched. -/
def codeRun (s : State) (w : Wave) (va n : Nat) : Option (List (Nat × Word)) :=
  let ws := (List.range n).filterMap (fun k => match codeWord s w (va + 4 * k) with
    | .words pa (x :: _) _ => some (pa + (va + 4 * k) % 64, x)
    | _ => none)
  if ws.length = n then some ws else none

/-! ### Words on a snapshot (R295, R303) -/

/-- The meaning of an instruction that a region may hold. -/
def regionMeaning (i : Instr) (s : State) : Host.Outcome State Fault Refusal :=
  match i with
  | .nop => execNop s
  | .rnote regs => execRnote regs s
  | .elect d => execElect d s
  | .add d a b => execAdd d a b s
  | .sub d a b => execSub d a b s
  | .neg d a => execNeg d a s
  | .mul d a b => execMul d a b s
  | .mulhi d a b => execMulhi d a b s
  | .mad d a b => execMad d a b s
  | .div d a b => execDiv d a b s
  | .rem d a b => execRem d a b s
  | .min d a b => execMin d a b s
  | .max d a b => execMax d a b s
  | .abs d a => execAbs d a s
  | .dot4 d a b => execDot4 d a b s
  | .brev d a => execBrev d a s
  | .popc d a => execPopc d a s
  | .clz d a => execClz d a s
  | .cmpeq d a b => execCmpeq d a b s
  | .cmpne d a b => execCmpne d a b s
  | .cmplt d a b => execCmplt d a b s
  | .cmple d a b => execCmple d a b s
  | .and d a b => execAnd d a b s
  | .or d a b => execOr d a b s
  | .xor d a b => execXor d a b s
  | .not d a => execNot d a s
  | .shl d a b => execShl d a b s
  | .shr d a b => execShr d a b s
  | .sra d a b => execSra d a b s
  | .bfe d a b => execBfe d a b s
  | .bfi d a b => execBfi d a b s
  | .fadd d a b => execFadd d a b s
  | .fsub d a b => execFsub d a b s
  | .fmul d a b => execFmul d a b s
  | .fma d a b => execFma d a b s
  | .fneg d a => execFneg d a s
  | .fabs d a => execFabs d a s
  | .fmin d a b => execFmin d a b s
  | .fmax d a b => execFmax d a b s
  | .fdiv d a b => execFdiv d a b s
  | .fsqrt d a => execFsqrt d a s
  | .frcp d a => execFrcp d a s
  | .frsq d a => execFrsq d a s
  | .fexp2 d a => execFexp2 d a s
  | .flog2 d a => execFlog2 d a s
  | .fsin d a => execFsin d a s
  | .fcos d a => execFcos d a s
  | .frnd d a => execFrnd d a s
  | .fcmpeq d a b => execFcmpeq d a b s
  | .fcmplt d a b => execFcmplt d a b s
  | .fcmple d a b => execFcmple d a b s
  | .fcmpun d a b => execFcmpun d a b s
  | .fclass d a => execFclass d a s
  | .cmul d a b => execCmul d a b s
  | .cmad d a b => execCmad d a b s
  | .cvtif d a => execCvtif d a s
  | .cvtfi d a => execCvtfi d a s
  | .cvtff d a c => execCvtff d a c s
  | .cvtn8 d a c => execCvtn8 d a c s
  | .cvtw8 d a c => execCvtw8 d a c s
  | .mov d a => execMov d a s
  | .sel d a b => execSel d a b s
  | .promote d a b => execPromote d a b s
  | .vall d a => execVall d a s
  | .vany d a => execVany d a s
  | .veq d a => execVeq d a s
  | .ballot d a => execBallot d a s
  | .shfl d a b => execShfl d a b s
  | .shflx d a m => execShflx d a m s
  | .shfldn d a m => execShfldn d a m s
  | .shflup d a m => execShflup d a m s
  | .pand d a b => execPand d a b s
  | .por d a b => execPor d a b s
  | .pxor d a b => execPxor d a b s
  | .pnot d a => execPnot d a s
  | _ => .refused .noIssuer

/-- A run of words on a snapshot: the wave, the lanes left out of the comparison, whether it trapped. -/
structure SnapRun where
  w : Wave
  left : LaneMask := 0
  trapped : Bool := false

/-- Every provisional tag as issued and unresolved in a partition: on a snapshot nothing waits for a tag. -/
def openTags (part : Nat) (x : Snapshot) : Map ProvTag :=
  (List.range 512).map (fun k => (0xE00 + k, { part := part, die := 0, entry := 0, snap := x, issued := 0 }))

/-- One instruction on a snapshot: the guard's bits form ACTIVE whatever their tags, a lane whose bit is poison is left
out of the comparison, and a long operation is complete at once (R303). -/
def snapIssue (s : State) (x : Snapshot) (r : SnapRun) (i : Instr) : SnapRun :=
  let sp := { x.split with mask := x.split.mask }
  let act := activeMask r.w sp i
  let bad : LaneMask := if guardOn sp.mode && !ignoresGuard i then
      maskOf (fun l => inMask sp.mask l && (match tagAt (pReg r.w (guardReg sp.mode)).tags l with
        | .poison _ => true
        | _ => false))
    else 0
  let sp1 := { sp with mask := act, mode := sp.mode &&& ~~~(0x20000 : BitVec 24), clause := none, trump := none }
  let t := { s with
    waves := [(0, { r.w with splits := [sp1], trapc := 0 })], blocks := [(0, { index := x.bid })], grids := []
    cur := some (0, sp1.entry), tags := openTags r.w.part x, undo := [], held := [] }
  match regionMeaning i t with
  | .next u =>
    let w := waveOf u 0
    let w1 := w.ops.foldl (fun y o => match outcome w.live o with
      | some z => completeOp y o z.1 z.2.1 z.2.2
      | none => y) w
    { w := w1, left := r.left ||| bad, trapped := r.trapped || decide (w1.trapc ≠ 0) }
  | _ => { r with trapped := true }

/-- Words in clause form on a snapshot, with no flags raised before. -/
def snapRun (s : State) (x : Snapshot) (words : List Word) : SnapRun :=
  let start : SnapRun := { w := x.wave }
  match parseRegion 40 words 0 15 with
  | some (items, _) => (regionIns items).foldl (fun r i => if r.trapped then r else snapIssue s x r i) start
  | none => { start with trapped := true }

/-- A snapshot of a split at a region's first header (R290, R295, R299). -/
def snapshotOf (s : State) (w : Wave) (sp : Split) (region : Nat) : Snapshot :=
  { region := region
    wave := { core := w.core, seat := w.seat, slot := w.slot, part := w.part, block := w.block.map (fun _ => 0), wid := w.wid
              v := w.v, s := w.s, a := w.a, p := w.p, wbase := w.wbase, live := w.live }
    split := { mask := sp.mask &&& w.live, mode := sp.mode, omode := sp.omode }
    bid := (bidOf s w).toNat }

/-- The lanes of a snapshot in ACTIVE and the live mask (R291). -/
def snapLanes (x : Snapshot) : LaneMask := activeMask x.wave x.split (.add .z .z .z)

/-! ### Comparison (R291) -/

/-- A lane of a register with its tag: the bits of an affine register and of a uniform one are whole. -/
def regLane (w : Wave) (l : Nat) : RegRef → Nat × Tag
  | .v n => let x := vLane (vregOf w n) l; (x.val.toNat, x.tag)
  | .s n => ((sReg w n).val.toNat, (sReg w n).tag)
  | .a n => ((aReg w n).base.toNat + 2 ^ 64 * (aReg w n).stride.toNat, (aReg w n).tag)
  | .p n => ((if inMask (pReg w n).bits l then 1 else 0), tagAt (pReg w n).tags l)
  | .acc _ => (0, .clean)

/-- The place of an f32 among the finite values and infinities in order; none for a NaN. -/
def f32Place (x : Nat) : Option Int :=
  let m : Nat := x % 2 ^ 31
  if 0x7F800000 < m then none else some (if bitAt x 31 then -(m : Int) else (m : Int))

/-- Whether two f32 values differ by at most 1 ulp. -/
def withinUlp (x y : Nat) : Bool :=
  decide (x = y) || (match f32Place x, f32Place y with
    | some a, some b => decide ((a - b).natAbs ≤ 1)
    | _, _ => false)

/-- Whether the last write of a register in a region makes an f32 result (R291). -/
def f32Result (m : BitVec 24) (l : List Instr) (r : RegRef) : Bool :=
  match (l.filter (fun i => (writesOf m i).contains r)).getLast? with
  | some i =>
    let op := opcodeOf i.word
    (match i with
      | .cvtfi _ _ | .cvtn8 _ _ _ => false
      | .cvtif _ _ => decide (ftype m = 0)
      | .cvtff _ _ c => decide (c.toNat % 8 = 0)
      | .cvtw8 _ _ _ => true
      | _ => decide (0x30 ≤ op ∧ op < 0x48 ∧ ftype m = 0)) &&
    (match r with
      | .p _ => false
      | _ => true)
  | none => false

/-- Whether two runs agree under the rule of a search class on the live-outs of a region (R291). -/
def runsAgree (cls : Nat) (m : BitVec 24) (original : List Instr) (x : Snapshot) (o c : SnapRun) : Bool :=
  let lanes := lanesOf (snapLanes x &&& ~~~(o.left ||| c.left))
  let same (r : RegRef) : Bool := lanes.all (fun l =>
    let p := regLane o.w l r
    let q := regLane c.w l r
    decide (p.2 = q.2) && (decide (p.1 = q.1) || (decide (cls = 2) && f32Result m original r && withinUlp p.1 q.1)))
  let mask : BitVec 9 := if cls = 2 then ~~~(fINEXACT ||| fUNDERFLOW) else BitVec.allOnes 9
  !c.trapped && decide (o.w.wstat &&& mask = c.w.wstat &&& mask) && (liveOuts m original).all same

/-- The instructions of an entry's region. -/
def originalIns (e : TrumpEntry) : List Instr :=
  match parseRegion 40 e.original 0 15 with
  | some (items, _) => regionIns items
  | none => []

/-- A wave with the tags of a register taken from another wave. -/
def tagsFrom (from_ w : Wave) (r : RegRef) : Wave :=
  match r with
  | .v n => setV w n { vregOf w n with tags := (vregOf from_ n).tags }
  | .s n => setS w n ⟨(sReg w n).val, (sReg from_ n).tag⟩
  | .a n => setA w n { aReg w n with tag := (aReg from_ n).tag }
  | .p n => setP w n { pReg w n with tags := (pReg from_ n).tags }
  | .acc _ => w

/-- Whether a provisional execution's live-outs, as its snapshot holds them, agree with a run of the original; one that
trapped fails (R299, R303). Their tags are those the candidate has without the execution's own tag, which every value of
the execution carries (R299). Log entry 61 (DEDUCED). -/
def auditAgrees (s : State) (e : TrumpEntry) (x : Snapshot) (o : SnapRun) : Bool :=
  let c := snapRun s x e.candidate
  let is := originalIns e
  let w := (liveOuts e.mode is).foldl (tagsFrom c.w) { x.outs with wstat := c.w.wstat }
  !o.trapped && runsAgree e.cls e.mode is x o { c with w := w }

/-- Whether an entry's candidate agrees with its original on a snapshot; none where the original traps.
Log entry 61 (DEDUCED). -/
def entryAgrees (s : State) (e : TrumpEntry) (x : Snapshot) : Option Bool :=
  let o := snapRun s x e.original
  if o.trapped then none else some (runsAgree e.cls e.mode (originalIns e) x o (snapRun s x e.candidate))

/-- Whether every guard register is clean and equals its constant. -/
def guardsHold (w : Wave) (g : List (Nat × Word)) : Bool :=
  g.all (fun x => decide ((sReg w x.1).tag = .clean ∧ (sReg w x.1).val = x.2))

/-- The sample test of an entry on the samples its die holds: at least 64 satisfy its guards and all of those agree.
Log entry 59 (DESIGN CHOICE). -/
def sampleTest (s : State) (die : Nat) (e : TrumpEntry) : Bool :=
  let xs := (dieOf s die).samples.filter (fun x => decide (x.region = e.region ∧ x.split.mode = e.mode ∧ x.split.omode = e.omode) &&
    guardsHold x.wave e.guards)
  decide (64 ≤ xs.length) && xs.all (fun x => entryAgrees s e x = some true)

/-! ### Class signatures (R297) -/

/-- The class of an integer element of `n` bits. -/
def classInt (signed : Bool) (n x : Nat) : Nat :=
  let v := intOf signed n x
  if v = intMax signed n ∨ (signed ∧ v = intMin signed n) then 5
  else if v = 0 then 0
  else if 0 < v then (if v < 256 then 1 else 2)
  else if -256 < v then 3 else 4

/-- The class of a float element. -/
def classFlt (f : Fmt) (x : Nat) : Nat :=
  match fdecode f x with
  | .nan _ _ | .inf _ => 6
  | .fin neg m e =>
    let small := if 0 ≤ e then decide (m * 2 ^ e.toNat < 256) else decide (m < 256 * 2 ^ (-e).toNat)
    if m ≠ 0 ∧ m < 2 ^ f.fb then 7
    else if x % 2 ^ f.bits = maxFinite f neg then 5
    else if m = 0 then 0
    else if neg then (if small then 3 else 4)
    else if small then 1 else 2

/-- A lane's value of a live-in; a pair's two halves are one value. -/
def liveValue (w : Wave) (pair : Bool) (l : Nat) : RegRef → Nat
  | .v n => if pair then (vLane (vregOf w (n / 2 * 2)) l).val.toNat + 2 ^ 32 * (vLane (vregOf w (n / 2 * 2 + 1)) l).val.toNat
    else (vLane (vregOf w n) l).val.toNat
  | .s n => if pair then (sReg w (n / 2 * 2)).val.toNat + 2 ^ 32 * (sReg w (n / 2 * 2 + 1)).val.toNat else (sReg w n).val.toNat
  | .a n => let x := affineLane (aReg w n).base (aReg w n).stride l
    if pair then x.toNat else x.toNat % 2 ^ 32
  | .p n => if inMask (pReg w n).bits l then 1 else 0
  | .acc _ => 0

/-- The classes one lane gives a live-in. -/
def laneClasses (w : Wave) (l : Nat) (x : RegRef × Reader × Bool) : List Nat :=
  let v := liveValue w x.2.2 l x.1
  let parts (n : Nat) : List Nat :=
    if x.2.2 ∨ n = 64 then [v % 2 ^ n] else (List.range (32 / n)).map (fun k => v / 2 ^ (n * k) % 2 ^ n)
  match x.2.1 with
  | .pred => [v]
  | .int sg n => (parts n).map (classInt sg n)
  | .flt f => (parts f.bits).map (classFlt f)

/-- The class signature of an execution: a byte for each live-in. -/
def classSig (e : TrumpEntry) (x : Snapshot) : List Byte :=
  let lanes := lanesOf (snapLanes x)
  (liveIns e.mode (originalIns e)).map (fun r =>
    ((lanes.flatMap (fun l => laneClasses x.wave l r)).eraseDups).foldl (fun b c => b ||| BitVec.ofNat 8 (2 ^ c)) (0 : Byte))

/-! ### Nomination (R289) -/

/-- The words of a search class's grid may count: classes 1 and 2. -/
def searchClass (s : State) (w : Wave) : Nat := (gridOf s w.grid).launch.search

/-- Whether a die's table names a region in an entry that is not free. -/
def regionHeld (d : Die) (pa : Nat) : Bool := d.trump.any (fun e => decide (e.state ≠ .free ∧ e.region = pa))

/-- The lowest free entry of a die's 32. -/
def freeSlot (d : Die) : Option Nat := (List.range 32).find? (fun x => decide ((nth d.trump x {}).state = .free))

/-- Nominates a region to a die: an entry becomes a candidate (R289, R294). Log entry 60 (DEDUCED). -/
def nominate (s : State) (die cls pa : Nat) (sp : Split) (words : List (Nat × Word)) (is : List Instr) : State :=
  let d := dieOf s die
  match freeSlot d with
  | some x =>
    if regionHeld d pa || d.barred.any (fun b => decide (b.1 = pa)) then s
    else
      let m := sp.mode
      let outs := liveOuts m is
      let e : TrumpEntry := { (nth d.trump x {}) with
        state := .candidate, cls := cls, region := pa, original := words.map (·.2)
        lines := (words.map (fun y => y.1 / 64)).eraseDups
        candidate := [], origHash := crcWords 0 (words.map (·.2)), candSig := 0, mode := m, omode := sp.omode, guards := []
        classSet := [], liveIns := (liveIns m is).map (fun r => BitVec.ofNat 8 (regCode r.1))
        liveOuts := outs.map (fun r => BitVec.ofNat 8 (regCode r)), agreeing := 0, unresolved := 0, at_ := s.now
        writesUniform := (is.flatMap (writesOf m)).any (fun r => match r with
          | .s _ | .a _ => true
          | _ => false) }
      trumpEvent (modEntry s die x (fun _ => e)) die 0 x pa 0
  | none => s

/-- A core's hotness table after one more execution of a region: 64 entries of 16 bits, the least counted replaced.
Log entry 60 (DEDUCED). -/
def countHot (l : List (Nat × Nat)) (pa : Nat) : List (Nat × Nat) :=
  if l.any (fun x => decide (x.1 = pa)) then l.map (fun x => if x.1 = pa then (x.1, Nat.min 65535 (x.2 + 1)) else x)
  else if l.length < 64 then l ++ [(pa, 1)]
  else
    let low := (least (l.map (·.2))).getD 0
    let at_ := l.findIdx (fun x => decide (x.2 = low))
    (l.take at_) ++ (l.drop (at_ + 1)) ++ [(pa, 1)]

/-- A split reaches a `sigck` (R288, R289, R295): its trial is over, and its region is counted and may be nominated. -/
def reachSigck (s : State) (c : Ctx) : State :=
  let die := dieOfCore c.w.core
  let s1 := match c.sp.sampled with
    | some n => modDie s die (fun d => { d with trials := d.trials.map (fun t =>
        if t.id = n then { t with done := true } else t) })
    | none => s
  let n := (c.sp.pc - c.sp.runStart) / 4
  if searchClass s c.w = 0 ∨ n = 0 ∨ 32 < n then s1
  else match codeRun s1 c.w c.sp.runStart n with
    | some words =>
      match regionOk c.sp.mode (words.map (·.2)), words with
      | some items, (pa, _) :: _ =>
        let hot := countHot (coreOf s1 c.w.core).hot pa
        let s2 := modDie (modCore s1 c.w.core (fun x => { x with hot := hot })) die
          (fun d => { d with hotAt := s.now / 2 ^ 20 })
        let count := (hot.find? (fun x => decide (x.1 = pa))).elim 0 (fun x => x.2)
        if 1024 ≤ count ∧ (partOf s2 c.w.part).trump then
          nominate s2 die (searchClass s c.w) pa c.sp words (regionIns items)
        else s2
      | _, _ => s1
    | none => s1

/-- `sigck` (R158): compares the signature, clears it, and traps on a mismatch. -/
def execSigck (x : Word) (s : State) : Host.Outcome State Fault Refusal :=
  run (.sigck x) s (fun s1 c =>
    let s2 := reachSigck s1 c
    let closed (t : State) : State := modWave t c.uid (fun w => { w with
      sig := 0, splits := w.splits.map (fun y => if y.entry = c.sp.entry then { y with sampled := none } else y) })
    if c.w.sig = x then closed (finishNop s2 c)
    else trapAt (closed (hold s2 c.uid (.suspect c.w.core) none).2) c .signature c.w.sig)

/-! ### An execution at a region's first header (R290, R293, R295, R298) -/

/-- Whether an entry in probation or promoted applies to an execution (R293). -/
def entryApplies (s : State) (w : Wave) (sp : Split) (e : TrumpEntry) : Bool :=
  let cls := searchClass s w
  decide (e.state = .probation ∨ e.state = .promoted) && decide (sp.mode = e.mode ∧ sp.omode = e.omode) && guardsHold w e.guards &&
  decide (cls ≠ 0 ∧ (e.cls = 1 ∨ cls = 2)) &&
  (!e.writesUniform || wsOn sp.mode || activeMask w sp (.add .z .z .z) == w.live)

/-- Whether a die's reserved store has a free snapshot record (R287). -/
def snapRoom (s : State) (die : Nat) : Bool :=
  decide ((s.tags.filter (fun t => decide (t.2.die = die))).length + (dieOf s die).trials.length < 512)

/-- The lowest free provisional tag within a partition's share (R287, R299). -/
def freeTag (s : State) (part : Nat) : Option Nat :=
  if 64 * (partOf s part).dies.length ≤ (s.tags.filter (fun t => decide (t.2.part = part))).length then none
  else (List.range 512).findSome? (fun k => if (mget s.tags (0xE00 + k)).isNone then some (0xE00 + k) else none)

/-- A split of a wave changed. -/
def modSplit (s : State) (u : Nat) (e : Nat) (f : Split → Split) : State :=
  modWave s u (fun w => { w with splits := w.splits.map (fun x => if x.entry = e then f x else x) })

/-- Promotes an entry whose evidence is complete: its count has reached P and the samples held now agree (R296). -/
def promoteIf (s : State) (die x : Nat) : State :=
  let e := entryOf s die x
  match partOfDie s die with
  | some p =>
    if e.state = .probation ∧ (partOf s p).trumpP ≤ e.agreeing ∧ sampleTest s die e then
      trumpEvent (modEntry s die x (fun e => { e with state := .promoted })) die 2 x e.region 0
    else s
  | none => s

/-- The core samples 1 in 64 executions of a region that has an entry; the sample is kept if its live-ins are clean,
in place of the region's oldest when the store is full (R287, R290). -/
def sampleRegion (s : State) (w : Wave) (sp : Split) (die pa : Nat) (e : TrumpEntry) : State :=
  let n := mgetD (coreOf s w.core).samples pa 0 + 1
  let s1 := modCore s w.core (fun c => { c with samples := mset c.samples pa (n % 64) })
  if n % 64 ≠ 0 then s1
  else
    let x := snapshotOf s w sp pa
    let clean := e.liveIns.all (fun b => allLanes.all (fun l => decide ((regLane w l (codeReg b.toNat)).2 = .clean)))
    let have_ := (dieOf s die).samples
    if !clean then s1
    else if have_.length < 3584 then modDie s1 die (fun d => { d with samples := d.samples ++ [x] })
    else match have_.findIdx? (fun y => decide (y.region = pa)) with
      | some k => modDie s1 die (fun d => { d with samples := d.samples.take k ++ d.samples.drop (k + 1) ++ [x] })
      | none => s1

/-- The words of a run with leading headers passed over. -/
def skipHeaders : List Word → List Word
  | x :: r => if isHeader x then skipHeaders r else x :: r
  | [] => []

/-- Starts a run of candidate words (R293), provisional with a tag or not; a rollback to before it undoes it (R299, R313).
Log entry 61 (DEDUCED). -/
def startRun (s : State) (u : Nat) (sp : Split) (x : Nat) (e : TrumpEntry) (tag : Option Nat) : State :=
  let r : TrumpRun :=
    { entry := x, words := skipHeaders e.candidate, stop := sp.pc + 4 * e.original.length, tag := tag
      original := e.original }
  modSplit { s with undo := logUndo s u (waveOf s u) none } u sp.entry (fun y => { y with trump := some r })

/-- A promoted entry applies (R298, R299). -/
def promotedRun (s : State) (u : Nat) (w : Wave) (sp : Split) (die x : Nat) (e : TrumpEntry) : State :=
  let g := xorshift (dieOf s die).gen
  let s1 := modDie s die (fun d => { d with gen := g })
  let snap := snapshotOf s w sp e.region
  let sig := classSig e snap
  let fresh := (List.range sig.length).any (fun k => nth sig k 0 &&& ~~~(nth e.classSet k 0) != 0)
  if fresh || decide (g.toNat % 256 = 0) then
    let full := s.tags.any (fun t => decide (t.2.die = die ∧ t.2.entry = x) && t.2.resolved.isNone && decide (256 ≤ t.2.journal.length))
    match freeTag s w.part with
    | some t =>
      if full || !snapRoom s die then s1
      else
        let r : ProvTag := { part := w.part, die := die, entry := x, snap := { snap with outs := snap.wave }, issued := s.now }
        let s2 := { s1 with tags := mset s1.tags t r }
        startRun (modEntry s2 die x (fun e => { e with unresolved := e.unresolved + 1 })) u sp x e (some t)
    | none => s1
  else startRun s1 u sp x e none

/-- A split opens the clause at its run start: the region there is sampled, and an entry that applies runs its trial or
its candidate, its words and the original's checked first (R290, R293, R295, R298). -/
def openRegion (s : State) (u en : Nat) : State :=
  let w := waveOf s u
  match splitOf w en with
  | none => s
  | some sp =>
    let die := dieOfCore w.core
    match (if sp.pc = sp.runStart ∧ sp.trump.isNone then codeRun s w sp.pc 1 else none) with
    | some ((pa, _) :: _) =>
      match (dieOf s die).trump.findIdx? (fun e => decide (e.region = pa ∧ e.state ≠ .free ∧ e.state ≠ .withdrawn)) with
      | none => s
      | some x =>
        let s1 := promoteIf (sampleRegion s w sp die pa (entryOf s die x)) die x
        let e := entryOf s die x
        if !entryApplies s w sp e then s1
        else match codeRun s w sp.pc e.original.length with
          | none => s1
          | some words =>
            if crcWords 0 (words.map (·.2)) ≠ e.origHash ∨ crcWords 0 e.candidate ≠ e.candSig then withdrawEntry s1 die x 3
            else if e.state = .probation then
              if snapRoom s die then
                let t : Trial := { id := s1.nextId, die := die, entry := x, snap := snapshotOf s w sp pa }
                let s2 := { s1 with nextId := s1.nextId + 1 }
                modSplit (modDie s2 die (fun d => { d with trials := d.trials ++ [t] })) u en
                  (fun y => { y with sampled := some t.id })
              else s1
            else promotedRun s1 u w sp die x e
    | _ => s

/-- The address of the last header among the first words of a region. -/
def lastHeader (pc : Nat) (words : List Word) : Nat :=
  let rec go : Nat → List Word → Nat → Nat
    | 0, _, h => h
    | n + 1, l, h => match l with
      | [] => h
      | x :: r =>
        let len := bits x.toNat 3 0 + 2
        if l.length ≤ len then h else go n (r.drop (len - 1)) (h + 4 * len)
  go 32 words pc

/-- Ends a candidate run whose words are all issued: the split stands at the region's `sigck`, and `sig` and the watchdog
count are as the original words would have left them (R293). Log entry 61 (DEDUCED). -/
def endRun (s : State) (u en : Nat) : State :=
  let w := waveOf s u
  match splitOf w en with
  | none => s
  | some sp =>
    match sp.trump with
    | none => s
    | some t =>
      match skipHeaders t.words with
      | _ :: _ => modSplit s u en (fun y => { y with trump := some { t with words := skipHeaders t.words } })
      | [] =>
        let is := match parseRegion 40 t.original 0 15 with
          | some (items, _) => regionIns items
          | none => []
        let sig := is.foldl (fun g i => crc (crc g i.word) (maskTerm sp.mask w.live)) w.sig
        modSplit (modWave s u (fun w => { w with sig := sig, wdog := w.wdog + is.length })) u en (fun y =>
          { y with trump := none, clause := none, opened := false, start := 0, pc := t.stop
                   resume := some (lastHeader (t.stop - 4 * t.original.length) t.original) })

/-! ### Search contexts (R73, R295, R303) -/

/-- A search context of a seat. -/
def searchAt (s : State) (core seat i : Nat) : Option SearchRun := nth (seatAt (coreOf s core) seat).search i none

/-- The state with a search context changed. -/
def putSearch (s : State) (core seat i : Nat) (x : Option SearchRun) : State :=
  modCore s core (fun c => let y := seatAt c seat; setSeat c seat { y with search := nthSet none x y.search i })

/-- The search contexts of a die's live cores: core, seat, context. -/
def searchPlaces (s : State) (die : Nat) : List (Nat × Nat × Nat) :=
  let live := (partOf s ((partOfDie s die).getD 0)).cmap.filter (fun c => decide (dieOfCore c = die))
  live.flatMap (fun c => (List.range 8).flatMap (fun n => [(c, n, 0), (c, n, 1)]))

/-- The run of a die's search context that has an audit or a trial. -/
def searchOf (s : State) (die : Nat) (audit : Bool) (id : Nat) : Option SearchRun :=
  firstSome (fun p => match searchAt s p.1 p.2.1 p.2.2 with
    | some x => if x.audit = audit ∧ x.id = id then some x else none
    | none => none) (searchPlaces s die)

/-- What a search context has found, once its words are all issued. -/
def searchDone (s : State) (die : Nat) (audit : Bool) (id : Nat) : Option SnapRun :=
  match searchOf s die audit id with
  | some x => if x.words.isEmpty then some { w := x.wave, left := x.left, trapped := x.trapped } else none
  | none => none

/-- The snapshot of an audit or a trial that is not over. -/
def searchSnap (s : State) (die : Nat) (audit : Bool) (id : Nat) : Option Snapshot :=
  if audit then (match mget s.tags id with
    | some r => if r.die = die ∧ r.resolved.isNone ∧ !r.passed then some r.snap else none
    | none => none)
  else ((dieOf s die).trials.find? (fun t => decide (t.id = id))).map (·.snap)

/-- The audits and comparisons of a die with the words they run: the original's, the candidate's (R295, R303). -/
def searchTasks (s : State) (die : Nat) : List (Bool × Nat × List Word) :=
  s.tags.filterMap (fun t =>
    if t.2.die = die ∧ t.2.resolved.isNone ∧ !t.2.passed then some (true, t.1, (entryOf s die t.2.entry).original) else none) ++
  (dieOf s die).trials.map (fun t => (false, t.id, (entryOf s die t.entry).candidate))

/-- A search context takes a task: the first free one of the die. Log entry 61 (DEDUCED). -/
def takeTask (die : Nat) (s : State) (x : Bool × Nat × List Word) : State :=
  if (searchOf s die x.1 x.2.1).isSome then s
  else match (searchPlaces s die).find? (fun p => (searchAt s p.1 p.2.1 p.2.2).isNone), searchSnap s die x.1 x.2.1 with
    | some p, some y =>
      putSearch s p.1 p.2.1 p.2.2 (some { audit := x.1, id := x.2.1, wave := y.wave, words := skipHeaders x.2.2 })
    | _, _ => s

/-- A search context whose task is over is free. -/
def leaveTask (die : Nat) (s : State) (p : Nat × Nat × Nat) : State :=
  match searchAt s p.1 p.2.1 p.2.2 with
  | some x => if (searchSnap s die x.audit x.id).isNone then putSearch s p.1 p.2.1 p.2.2 none else s
  | none => s

/-- The search contexts of the dies after what has changed: those whose task is over are free, and tasks without one
take one. -/
def assignSearch (s : State) : State :=
  (s.dies.map (·.1)).foldl (fun t d => (searchTasks t d).foldl (takeTask d) ((searchPlaces t d).foldl (leaveTask d) t)) s

/-- The tags that a held effect writes. -/
def effectTags : Effect → List Tag
  | .gstore _ ls _ _ | .sstore _ ls | .stul _ ls => ls.map (·.tag)
  | .vstore _ ts _ => ts.map (·.2)
  | .gatomic _ _ ls _ _ _ _ | .satomic _ _ ls _ _ _ => ls.flatMap (fun x => [x.b.tag, x.c.tag])
  | .matrix (.tile _ ts) => ts.map (·.2)
  | .matrix (.acc es _) => es.map (fun x => x.2.tag)
  | .engine _ _ xs => xs.map (·.tag)
  | _ => []

/-- The tag states that some bytes of a scratchpad or of global memory have. -/
def granulesOf (m : Map Tag) (bytes : List (Nat × Byte)) : List Tag := ((bytes.map (fun x => x.1 / 32)).eraseDups).map (tagAt m)

/-- The tag states that a held effect finds where it writes: they merge into what a partial write leaves (R301). -/
def meetsTags (s : State) (h : Held) : List Tag :=
  let b := blockOf s (h.block.getD 0)
  let lanes (n : Nat) (l : List Nat) : List (Nat × Byte) := l.flatMap (fun a => addrBytes a (toBytes n 0))
  match h.eff with
  | .gstore n ls _ _ => granulesOf s.memTags (lanes n (ls.map (·.addr)))
  | .vstore bs _ _ => granulesOf s.memTags bs
  | .gatomic n _ ls _ _ _ _ => granulesOf s.memTags (lanes n (ls.map (·.addr)))
  | .sstore n ls | .stul n ls => granulesOf b.spadTags (lanes n (ls.map (·.addr)))
  | .satomic n _ ls _ _ _ => granulesOf b.spadTags (lanes n (ls.map (·.addr)))
  | .matrix (.tile bs _) => granulesOf b.tileTags bs
  | .matrix (.acc es _) => es.map (fun x => (mgetD b.acc x.1 {}).tag)
  | .engine _ _ xs => xs.flatMap (fun x => match x.dest with
      | .memory => granulesOf s.memTags x.cells
      | .spad k => granulesOf (blockOf s k).spadTags x.cells
      | .tile k => granulesOf (blockOf s k).tileTags x.cells
      | .acc k => ((x.cells.map (fun c => c.1 / 12)).eraseDups).map (fun n => (mgetD (blockOf s k).acc n {}).tag)
      | .window _ _ => [])
  | _ => []

/-- The level an audit is raised to (R303): that of a wave that waits for the tag, or whose write waits for its journal;
that of a grid whose write is held behind it at a port; 0 after 2^20 cycles. -/
def auditLevel (s : State) (t : Nat) : Option Nat :=
  let tag : Tag := .prov (BitVec.ofNat 12 t)
  let level (w : Wave) : Nat := (gridOf s w.grid).launch.level
  let full := (mget s.tags t).any (fun r => decide (256 ≤ r.journal.length))
  let waits := (s.waves.filter (fun w => decide (w.2.waitTag = some t))).map (fun w => level w.2)
  let writes := (s.held.filter (fun h => full && decide (h.due ≤ s.now) &&
    (effectTags h.eff ++ meetsTags s h).contains tag)).map (fun h => level (waveOf s h.wave))
  let homes := (s.flights.filter (fun f => full && f.2.pos.isNone && decide (f.2.homeAt ≤ s.now) && !homeMay s f.2)).filterMap
    (fun f => f.2.wave.map (fun u => level (waveOf s u)))
  let behind := s.ports.filter (fun p => s.ports.any (fun q => decide (q.stream = p.stream ∧ q.id ≤ p.id ∧ q.tag = tag)))
  least (waits ++ writes ++ homes ++ behind.map (·.level) ++ (((mget s.tags t).bind (fun r => r.level)).toList))

/-- The level of a search context's run: an audit's raised one, or below every level (R73). -/
def searchLevel (s : State) (x : SearchRun) : Option Nat := if x.audit then auditLevel s x.id else none

/-- A seat after a search context's issue: a raised audit is charged as a wave of its place would be; any other one
takes the pipe for its cycle only and moves no pointer (R72, R73). -/
def chargeSearch (y : Seat) (now : Nat) (i : Nat) (raised : Bool) (p : Pipe) (n : Nat) : Seat :=
  if raised then chargeSeat y now p (16 + i) n else { y with free := nthSet 0 (now + 1) y.free (freeIndex y now p) }

/-- A search context issues the next instruction of its run. -/
def searchIssue (s : State) (core seat i : Nat) : State :=
  match searchAt s core seat i with
  | none => s
  | some x =>
    match decode x.words, searchSnap s (dieOfCore core) x.audit x.id with
    | .ok (ins, k), some y =>
      let r := snapIssue s y { w := x.wave, left := x.left, trapped := x.trapped } ins
      let s1 := modCore s core (fun c =>
        let y1 := seatAt c seat
        setSeat c seat (chargeSearch y1 s.now i (searchLevel s x).isSome (pipeOf ins) (occupancy ins y.split.mode)))
      putSearch s1 core seat i (some { x with
        wave := r.w, left := r.left, trapped := r.trapped, next := s.now + Config.barrel
        words := if r.trapped then [] else skipHeaders (x.words.drop k) })
    | _, _ => putSearch s core seat i (some { x with trapped := true, words := [] })

/-! ### Events -/

/-- Whether an instruction of a candidate is of the right type for the recorded mode (R101, R102, R104). -/
def candidateIns (m : BitVec 24) (i : Instr) : Bool :=
  decide (latencyOf i = .short) && regionAllows m i && classOk i m && typeOk i m && !operandFault i m && (fieldFault i m).isNone

/-- The issue cycles of a region's instructions (R119, R291). -/
def issueCost (m : BitVec 24) (l : List Instr) : Nat := l.foldl (fun n i => n + occupancy i m) 0

/-- CANDIDATE_INSTALL (R291, R294): a survivor of the search enters probation. Log entry 59 (DESIGN CHOICE). -/
def execCandidateInstall (d x : Nat) (cand : List Word) (guards : List (Nat × Word)) (s : State) :
    Host.Outcome State Fault Refusal :=
  let e := entryOf s d x
  let is := originalIns e
  let ok : Bool := match parseRegion 40 cand 0 15 with
    | some (items, left) =>
      let cs := regionIns items
      let ins := (liveIns e.mode is).map (·.1)
      decide (left = 0 ∧ cand ≠ [] ∧ cand.length ≤ 32 ∧ guards.length ≤ 2) && cs.all (candidateIns e.mode) &&
      ((liveIns e.mode cs).map (·.1)).all ins.contains &&
      (cs.flatMap (writesOf e.mode)).all (is.flatMap (writesOf e.mode)).contains &&
      decide (issueCost e.mode cs ≤ issueCost e.mode is) && guards.all (fun g => ins.contains (.s g.1))
    | none => false
  let e1 := { e with state := .probation, candidate := cand, candSig := crcWords 0 cand, guards := guards, agreeing := 0
                     classSet := [], at_ := s.now }
  let on : Bool := match partOfDie s d with
    | some p => (partOf s p).trump
    | none => false
  if e.state = .candidate ∧ on ∧ ok ∧ sampleTest s d e1 then .next (trumpEvent (modEntry s d x (fun _ => e1)) d 1 x e.region 0)
  else .refused (.notEnabled "CANDIDATE_INSTALL")

/-- CANDIDATE_EXPIRY (R294, R374): 2^24 cycles without a survivor. -/
def execCandidateExpiry (d x : Nat) (s : State) : Host.Outcome State Fault Refusal :=
  let e := entryOf s d x
  if e.state = .candidate ∧ e.at_ + 2 ^ 24 ≤ s.now then .next (modEntry s d x (fun e => { e with state := .free }))
  else .refused (.notEnabled "CANDIDATE_EXPIRY")

/-- HOTNESS_HALVE (R289): every 2^20 cycles. -/
def execHotnessHalve (s : State) : Host.Outcome State Fault Refusal :=
  let n := s.now / 2 ^ 20
  let due := (s.cores.filter (fun c => !c.2.hot.isEmpty && decide ((dieOf s (dieOfCore c.1)).hotAt < n))).map (·.1)
  if due.isEmpty then .refused (.notEnabled "HOTNESS_HALVE")
  else
    let s1 := due.foldl (fun t c => modCore t c (fun y => { y with hot := y.hot.map (fun h => (h.1, h.2 / 2)) })) s
    .next (due.foldl (fun t c => modDie t (dieOfCore c) (fun d => { d with hotAt := n })) s1)

/-- The class set widened by an execution that agreed (R295). -/
def widenSet (old sig : List Byte) : List Byte := (List.range sig.length).map (fun k => nth old k 0 ||| nth sig k 0)

/-- What a probation comparison finds, given the candidate's run on the snapshot: the original's run is not compared if it
traps (R295). -/
def trialAgrees (s : State) (e : TrumpEntry) (x : Snapshot) (c : SnapRun) : Option Bool :=
  let o := snapRun s x e.original
  if o.trapped then none else some (runsAgree e.cls e.mode (originalIns e) x o c)

/-- PROBATION_COMPARE (R295, R296): the execution has reached its `sigck`, and a search context has run the candidate on
its snapshot. -/
def execProbationCompare (n : Nat) (s : State) : Host.Outcome State Fault Refusal :=
  match firstSome (fun d => d.2.trials.find? (fun t => decide (t.id = n))) s.dies with
  | some t =>
    match searchDone s t.die false n with
    | some c =>
      if t.done then
        let s1 := modDie s t.die (fun d => { d with trials := d.trials.filter (fun y => !decide (y.id = n)) })
        let e := entryOf s1 t.die t.entry
        if e.state ≠ .probation ∨ e.region ≠ t.snap.region then .next s1
        else match trialAgrees s1 e t.snap c with
          | none => .next s1
          | some false => .next (withdrawEntry s1 t.die t.entry 1)
          | some true =>
            .next (promoteIf (modEntry s1 t.die t.entry (fun e => { e with
              agreeing := Nat.min 65535 (e.agreeing + 1)
              classSet := widenSet e.classSet (classSig e t.snap) })) t.die t.entry)
      else .refused (.notEnabled "PROBATION_COMPARE")
    | none => .refused (.notEnabled "PROBATION_COMPARE")
  | none => .refused (.notEnabled "PROBATION_COMPARE")

/-- Whether some split still runs candidate words with a tag. -/
def tagRuns (s : State) (t : Nat) : Bool :=
  s.waves.any (fun w => w.2.splits.any (fun x => match x.trump with
    | some r => decide (r.tag = some t)
    | none => false))

/-- AUDIT_COMPLETE (R303 to R306): a search context has rerun the original on the snapshot. -/
def execAuditComplete (t : Nat) (s : State) : Host.Outcome State Fault Refusal :=
  match mget s.tags t with
  | some r =>
    match searchDone s r.die true t with
    | some o =>
      if r.resolved.isNone ∧ !r.passed ∧ !tagRuns s t then
        let e := entryOf s r.die r.entry
        if auditAgrees s e r.snap o then .next (settleReady { s with tags := mset s.tags t { r with passed := true } })
        else
          let live := e.state = .probation ∨ e.state = .promoted
          let s1 := condemnAll (withdrawEntry s r.die r.entry 2) [t]
          .next (if live then postEvent s1 r.part
              { src := r.die, seq := 0, time := 0, cause := .trumpWithdrawn, tag := .prov (BitVec.ofNat 12 t), addr := e.region
                detail := r.entry, core := some (64 * r.die + 63) }
            else s1)
      else .refused (.notEnabled "AUDIT_COMPLETE")
    | none => .refused (.notEnabled "AUDIT_COMPLETE")
  | none => .refused (.notEnabled "AUDIT_COMPLETE")

/-- AUDIT_ESCALATE (R303): a tag unresolved for 2^20 cycles is audited at level 0. -/
def execAuditEscalate (t : Nat) (s : State) : Host.Outcome State Fault Refusal :=
  match mget s.tags t with
  | some r =>
    if r.resolved.isNone ∧ r.level ≠ some 0 ∧ r.issued + 2 ^ 20 ≤ s.now then
      .next { s with tags := mset s.tags t { r with level := some 0 } }
    else .refused (.notEnabled "AUDIT_ESCALATE")
  | none => .refused (.notEnabled "AUDIT_ESCALATE")

/-- WALK_AND_SCRUB_COMPLETE (R304, R305): the walk and the scrub of a resolved tag are over and the tag is free. -/
def execWalkAndScrubComplete (t : Nat) (s : State) : Host.Outcome State Fault Refusal :=
  match mget s.tags t with
  | some x =>
    match x.resolved with
    | some r =>
      if x.due ≤ s.now then
        let s1 := scrubTag s t x r
        let s2 := modEntry (freeTagOf s1 t) x.die x.entry (fun e => { e with unresolved := e.unresolved - 1 })
        .next (settleReady (freeEntryIf s2 x.die x.entry))
      else .refused (.notEnabled "WALK_AND_SCRUB_COMPLETE")
    | none => .refused (.notEnabled "WALK_AND_SCRUB_COMPLETE")
  | none => .refused (.notEnabled "WALK_AND_SCRUB_COMPLETE")

end Sys2Proof.Machine
end

