-- ==== Sys2Proof/Machine/Strike.lean ====
section
/-! DEFINITION. Strikes and rollback (R311 to R316), core health (R327, R328), margin plans (R331), core reset (R186). -/

namespace Sys2Proof.Machine

/-- Whether a number names a physical core: die × 64 + core (R1, R367). -/
def realCore (c : Nat) : Bool := decide (c / 64 < Config.dieCount ∧ c % 64 < Config.coresPerDie)

/-- Whether a wave runs in a region: a seat of a core, or all of it; the two copies of a redundant pair roll back
together (R311, R328). -/
def inRegion (s : State) (c : Nat) (seat : Option Nat) (w : Wave) : Bool :=
  (decide (w.core = c) || (match w.block with
    | some k => decide ((blockOf s k).redundant = some c)
    | none => false)) &&
  (match seat with
    | some n => decide (w.seat = n)
    | none => true)

/-- A completion applied again to a restored wave (R179, R313). Log entry 46 (DEDUCED). -/
def replay (w : Wave) (x : Arrival) : Wave :=
  match w.ops.find? (fun o => decide (o.id = x.op)) with
  | none => w
  | some o =>
    match x.kind with
    | .engine vals sticky =>
      let w1 := vals.foldl (fun w r => writeDone w r.1 false r.2) w
      { w1 with ops := w1.ops.filter (fun y => !decide (y.id = o.id)), flags := flagSub w1.flags o.flag
                wstat := w1.wstat ||| sticky }
    | k => match outcome w.live { o with kind := k } with
      | some r => completeOp w { o with kind := k } r.1 r.2.1 r.2.2
      | none => w

/-- The cycles and marks a restored wave keeps from its present: what it has synchronised with, where it runs, whether
it is stopped from outside, and its pending fetch if the restored wave had one (R313, R314). -/
def keepPresent (cur old : Wave) (saving : Bool) : Wave :=
  { old with
    wrote := cur.wrote, engineWrote := cur.engineWrote, relClock := cur.relClock, released := cur.released
    fenceHeads := cur.fenceHeads, skid := cur.skid, skidFrom := cur.skidFrom
    fetch := if old.fetch.isNone then none else cur.fetch
    state := if cur.state = .debug ∨ cur.state = .savingDebug then cur.state
             else if saving then (stopForSave old).state else old.state }

/-- A wave restored to an earlier state (R313): its incomplete operations keep what they have received, and those that
completed since are completed again in their order. Log entry 46 (DEDUCED). -/
def restoreWave (s : State) (u from_ : Nat) (cur old : Wave) : Wave :=
  let saving := match cur.block with
    | some k => (blockOf s k).preempt.isSome
    | none => false
  let kept := (s.held.filter (fun h => decide (h.wave = u ∧ from_ ≤ h.issued))).flatMap (fun h => match h.eff with
    | .deckRelease items => items
    | _ => [])
  let ops := old.ops.map (fun o => match cur.ops.find? (fun y => decide (y.id = o.id)) with
    | some y => { o with kind := y.kind, due := y.due }
    | none => o)
  let drawn := kept.foldl (fun m x => mset m x.1 (mgetD m x.1 0 + x.2)) cur.drawn
  let w := { keepPresent cur old saving with ops := ops, drawn := drawn }
  (s.arrivals.filter (fun x => decide (x.wave = u ∧ from_ ≤ x.at_) && !cur.ops.any (fun y => decide (y.id = x.op)))).foldl
    replay w

/-- The state of a wave at the start of a cycle, if it has issued since. -/
def stateAt (s : State) (u from_ : Nat) : Option Wave :=
  (s.undo.find? (fun y => decide (y.wave = u ∧ from_ ≤ y.at_))).map (fun y => y.old)

/-- The queue places that a discarded effect held (R162). -/
def placesOf : Effect → List Nat
  | .enter _ e => [e.id]
  | .markers _ g => [g]
  | .contribute _ _ n => [n]
  | _ => []

/-- Whether a collective loses the slices of operations that are gone. -/
def cutSlices (gone : Nat → Nat → Bool) (x : Collective) : Collective :=
  { x with slices := x.slices.filter (fun y => !gone y.2.1 y.2.2.1) }

/-- Discards what waves of a region have issued since a cycle: held effects and the queue places they took, slices,
contributions, provisional tags and the undo log of those cycles (R299, R313). -/
def discardIssued (s : State) (us : List Nat) (from_ : Nat) : State :=
  let mine (h : Held) : Bool := us.contains h.wave && h.seat.isSome && decide (from_ ≤ h.issued)
  let gone (u n : Nat) : Bool := us.contains u && !(waveOf s u).ops.any (fun o => decide (o.id = n))
  let places := (s.held.filter mine).flatMap (fun h => placesOf h.eff)
  let emptied := (s.blocks.flatMap (fun b => b.2.collectives.filterMap (fun x =>
    let y := cutSlices gone x.2
    if y.slices.isEmpty ∧ !x.2.slices.isEmpty then some x.2.id else none)))
  let lost := s.tags.filter (fun t => decide (from_ ≤ t.2.issued) && us.any (fun u =>
    decide ((waveOf s u).core = t.2.snap.wave.core ∧ (waveOf s u).seat = t.2.snap.wave.seat ∧ (waveOf s u).slot = t.2.snap.wave.slot)))
  let blocks := s.blocks.map (fun b => (b.1, { b.2 with
    collectives := (b.2.collectives.map (fun x => (x.1, cutSlices gone x.2))).filter (fun x => !emptied.contains x.2.id) }))
  let s1 := { s with
    blocks := blocks
    held := s.held.filter (fun h => !mine h && (match h.eff with
      | .collective _ id => !emptied.contains id
      | _ => true))
    cores := s.cores.map (fun c => (c.1, { c.2 with queues := c.2.queues.map (fun q =>
      { q with issued := q.issued.filter (fun p => !(places ++ emptied).contains p.1) }) }))
    parts := s.parts.map (fun p => (p.1, { p.2 with cohorts := p.2.cohorts.map (fun c =>
      (c.1, { c.2 with pending := c.2.pending.filter (fun y => !y.entry.ops.any (fun o => gone o.1 o.2)) })) }))
    undo := s.undo.filter (fun y => !(us.contains y.wave && decide (from_ ≤ y.at_)))
    arrivals := s.arrivals.filter (fun y => !(us.contains y.wave && decide (from_ ≤ y.at_)))
    tags := (s.tags.filter (fun t => !lost.any (fun x => decide (x.1 = t.1)))).map (fun t => (t.1, { t.2 with
      absorbed := t.2.absorbed.filter (fun n => !lost.any (fun x => decide (x.1 = n))) })) }
  lost.foldl (fun t x => freeEntryIf (modEntry t x.2.die x.2.entry (fun e => { e with unresolved := e.unresolved - 1 }))
    x.2.die x.2.entry) s1

/-- The head multiply of a core's `qm` runs again: its held accumulator writes are discarded and its array is free; the
dummy's array that it was granted stays slaved to it (R253). One whose writes are performed has only to complete
(R257). -/
def rerunArray (s : State) (c : Nat) : State :=
  match qmHead s c with
  | some e =>
    let outstanding := (s.held.filter (fun h => decide (h.op = some e.id) && (match h.eff with
      | .matrix _ => true
      | _ => false))).length
    if e.stage = .waiting ∨ e.fail.isSome ∨ (e.stage = .releasing ∧ outstanding < e.product.length) then s
    else
      let s1 := { s with held := s.held.filter (fun h => match h.eff with
        | .matrix _ => !decide (h.op = some e.id)
        | _ => true) }
      modCore s1 c (fun x =>
        let y := queueAt x 4
        setQueue { x with array := { x.array with busy := none } } 4
          { y with entries := y.entries.map (fun z => if z.id = e.id then { z with stage := .waiting, product := [], sticky := 0 } else z) })
  | none => s

/-- A core region: the engine hold-back is written again, and the operations that use the array run again (R179, R257,
R313). -/
def rerunEngines (s : State) (c : Nat) : State :=
  let resume := s.now + Config.rollbackStall
  let s1 := { s with held := s.held.map (fun h => match h.eff with
    | .engine _ _ _ => if h.core = c then { h with due := Nat.max h.due (resume + Config.holdback) } else h
    | _ => h) }
  let s2 := rerunArray s1 c
  match qmHead s2 (c - 1) with
  | some e =>
    let uses : Bool := match partnerOf s2 (e.block.getD 0) with
      | some k => decide (c % 2 = 1 ∧ (blockOf s2 k).core = c)
      | none => false
    if uses then rerunArray s2 (c - 1) else s2
  | none => s2

/-- When a region's stall ends, and its restore point, if it is stalled (R312, R313). -/
def stallOf (s : State) (c : Nat) (seat : Option Nat) : Option Nat × Nat :=
  match seat with
  | some n => ((seatAt (coreOf s c) n).stall, (seatAt (coreOf s c) n).restore)
  | none => ((coreOf s c).stall, (coreOf s c).restore)

/-- The state with a region's stall set. -/
def setStall (s : State) (c : Nat) (seat : Option Nat) (t : Option Nat) (from_ : Nat) : State :=
  modCore s c (fun x => match seat with
    | some n => setSeat x n { seatAt x n with stall := t, restore := from_ }
    | none => { x with stall := t, restore := from_ })


/-- The held writes of an image body are discarded: its block is not saved now (R342). -/
def dropBody (s : State) (n : Nat) : State :=
  { s with held := s.held.filter (fun h => match h.eff with
      | .engine e _ _ => !decide (h.seat = none ∧ e = n)
      | _ => true) }

/-- The search contexts of a region lose what they run; it is assigned again (R295, R303, R313). Log entry 46 (DEDUCED). -/
def dropSearch (c : Nat) (seat : Option Nat) (s : State) : State :=
  modCore s c (fun x => { x with seats := match seat with
    | some n => (setSeat x n { seatAt x n with search := [none, none] }).seats
    | none => x.seats.map (fun y => { y with search := [none, none] }) })

/-- Rolls a region back to the start of a cycle (R312, R313). Log entry 46 (DEDUCED). -/
def rollback (s : State) (c : Nat) (seat : Option Nat) (from_ : Nat) : State :=
  let us := (s.waves.filter (fun x => inRegion s c seat x.2)).map (·.1)
  let s1 := { s with waves := s.waves.map (fun x => if us.contains x.1 then
      (match stateAt s x.1 from_ with
        | some old => (x.1, restoreWave s x.1 from_ x.2 old)
        | none => x) else x) }
  let s2 := discardIssued s1 us from_
  let s3 := { s2 with blocks := s2.blocks.map (fun b =>
    if b.2.core = c ∨ b.2.redundant = some c then
      (b.1, { b.2 with preempt := b.2.preempt.map (fun p => { p with drain := .stopping, image := none }) })
    else b) }
  let bodies := s2.blocks.filterMap (fun b =>
    if b.2.core = c ∨ b.2.redundant = some c then b.2.preempt.bind (fun p => p.image.map (·.1)) else none)
  let s4 := dropSearch c seat (bodies.foldl dropBody s3)
  if seat.isNone then rerunEngines s4 c else s4

/-- A region rolled back and stalled, and counted; 16 times within 2^20 cycles make the core suspect (R312 to R315). -/
def rolledBack (s : State) (c : Nat) (seat : Option Nat) (from_ : Nat) : State :=
  let region := seat.getD 8
  let s1 := setStall (rollback s c seat from_) c seat (some (s.now + Config.rollbackStall)) from_
  let s2 := modCore s1 c (fun x => { x with
    rbk := if x.rbk = BitVec.allOnes 32 then x.rbk else x.rbk + 1
    rollbacks := (x.rollbacks.filter (fun r => decide (s.now < r.2 + 2 ^ 20))) ++ [(region, s.now)] })
  if 16 ≤ ((coreOf s2 c).rollbacks.filter (fun r => decide (r.1 = region))).length then suspectCore s2 c else s2

/-- STRIKE_REPORT (R312 to R315): a report reaches its region. Log entry 47 (DEDUCED). -/
def execStrikeReport (c : Nat) (seat : Option Nat) (s : State) : Host.Outcome State Fault Refusal :=
  let seatOk : Bool := match seat with
    | some n => decide (n < 8)
    | none => true
  if realCore c ∧ seatOk then
    let old := stallOf s c seat
    let from_ := match old.1 with
      | some t => if s.now < t then old.2 else s.now - 23
      | none => s.now - 23
    let s3 := rolledBack s c seat from_
    .next (match partOfDie s (dieOfCore c) with
      | some p => postEvent s3 p { src := dieOfCore c, seq := 0, time := 0, cause := .strikeRollback
                                   region := if seat.isNone then 1 else 0, addr := s.now - (partOf s p).born, core := some c
                                   slot := seat.map (fun n => (n, 15)) }
      | none => s3)
  else .refused (.notEnabled "STRIKE_REPORT")

/-- ROLLBACK_RESUME (R313): the stall of 32 cycles is over and the region goes on. -/
def execRollbackResume (c : Nat) (seat : Option Nat) (s : State) : Host.Outcome State Fault Refusal :=
  let x := stallOf s c seat
  match x.1 with
  | some t => if t ≤ s.now then .next (setStall s c seat none x.2) else .refused (.notEnabled "ROLLBACK_RESUME")
  | none => .refused (.notEnabled "ROLLBACK_RESUME")

/-- HEALTH_RECOVER (R327): 2^24 cycles of redundant execution without a mismatch. -/
def execHealthRecover (c : Nat) (s : State) : Host.Outcome State Fault Refusal :=
  let x := coreOf s c
  if x.health = .suspect ∧ 2 ^ 24 ≤ x.healthAt then .next (modCore s c (fun y => { y with health := .healthy, healthAt := 0 }))
  else .refused (.notEnabled "HEALTH_RECOVER")

/-- MARGIN_PLAN (R327, R331): a new generation; a core the plan has no voltage for becomes suspect, a quarantined core
suspect again. Log entry 48 (DEDUCED). -/
def execMarginPlan (uncovered : List Nat) (s : State) : Host.Outcome State Fault Refusal :=
  let s1 := { s with
    mplan := s.mplan + 1
    cores := s.cores.map (fun c => if c.2.health = .quarantined then (c.1, { c.2 with health := .suspect, healthAt := 0 }) else c) }
  .next ((uncovered.filter realCore).foldl suspectCore s1)

/-- CORE_RESET (R72, R186, R332): the counts a core keeps since its reset, and its rotation pointers.
Log entry 48 (DEDUCED). -/
def execCoreReset (c : Nat) (s : State) : Host.Outcome State Fault Refusal :=
  if realCore c then
    .next (modCore s c (fun x => { x with
      rbk := 0, corrected := 0, fixes := [], failed := none, second := false
      seats := x.seats.map (fun y => { y with ptr := [17, 17, 17, 17], vFrom := (0, 17) }) }))
  else .refused (.notEnabled "CORE_RESET")

end Sys2Proof.Machine
end

