-- ==== Sys2Proof/Machine/Preempt.lean ====
section
/-! DEFINITION. Pre-emption (R341, R342), save-outs (R275), context images and their records (R343, R344), discarded
blocks, and the placement of saved and discarded blocks (R346, R347, R371). -/

namespace Sys2Proof.Machine

/-! ### Requests -/

/-- Whether all of a block and its partner has retired or faulted. Log entry 64 (DEDUCED). -/
def unitOver (s : State) (k : Nat) : Bool := (withPartner s k).all (fun j => (blockOf s j).retired || (blockOf s j).fault)

/-- A block without the partition's attention already: resident, it or its partner running, no request in progress. -/
def preemptable (s : State) (k : Nat) : Bool :=
  (mget s.blocks k).isSome && !unitOver s k && (blockOf s k).preempt.isNone

/-- PREEMPT_REQUEST (R341): the control pair pre-empts a block, with its partner, for time slicing or migration. -/
def execPreemptRequest (k r : Nat) (s : State) : Host.Outcome State Fault Refusal :=
  if (r = 1 ∨ r = 2) ∧ preemptable s k ∧ controlled s (gridOf s (blockOf s k).grid).part then
    .next (((withPartner s k).filter (preemptable s)).foldl (fun t j => acceptPreempt t j r []) s)
  else .refused (.notEnabled "PREEMPT_REQUEST")

/-- Whether a block holds a contribution to an unformed round (R263, R341). -/
def holdsUnformed (s : State) (k : Nat) : Bool :=
  s.parts.any (fun p => p.2.cohorts.any (fun c => c.2.pending.any (fun y => decide (y.entry.block = some k))))

/-- Whether a split stands at a wait mask whose flags count only slices that a wave has supplied to open collectives of
its block: operations that the other waves of the block keep open (R74, R172). -/
def awaitsSlices (s : State) (w : Wave) (x : Split) : Bool :=
  let open_ (o : LongOp) : Bool := w.block.any (fun k => (blockOf s k).collectives.any (fun c =>
    !collectiveFull c.2 && c.2.slices.any (fun y => decide (y.2.2.1 = o.id))))
  match x.clause with
  | some c =>
    let m := bits (c.words.headD 0).toNat 23 12
    !x.opened && x.trump.isNone && !flagsClear w m && w.ops.all (fun o => !bitAt m o.flag || open_ o)
  | none => false

/-- Whether a wave is parked, suspended, or waits only for other parked waves (R74). -/
def waveParked (s : State) (w : Wave) : Bool :=
  w.fetch.isSome || w.splits.all (fun x => x.park.isSome || awaitsSlices s w x)

/-- Whether a block is parked (R74). -/
def blockParked (s : State) (k : Nat) : Bool :=
  s.waves.all (fun x => !decide (x.2.block = some k) || waveParked s x.2)

/-- A block that waits to be placed: its level, the registers each of its waves needs, its waves, the units it may be
placed on. -/
structure Waiting where
  level : Nat
  regs : Nat
  waves : Nat
  units : List (List Nat)

/-- The blocks of a partition that wait to be placed and find no target: the next blocks of the queues, and the saved
and discarded blocks that are ready to return (R78, R92, R275). Log entry 74 (DESIGN CHOICE). -/
def waitingBlocks (s : State) (p : Nat) : List Waiting :=
  let round (g : Grid) : List (List Nat) := (dealOrder s g).flatMap (·.2)
  (partOf s p).queues.filterMap (fun q => match q.2 with
    | g :: _ =>
      let x := gridOf s g
      if x.eligible && !x.error && decide (x.nextBlock < x.launch.size) && (readyHead s q.2).isNone then
        some ⟨x.launch.level, x.launch.stack, x.launch.waves, (dealNext s x).2⟩
      else none
    | [] => none) ++
  s.images.filterMap (fun x =>
    let g := gridOf s x.2.block.grid
    if g.part = p ∧ imageReady s x.2 ∧ (returnPlace s (imageUnit s x.1)).isNone then
      some ⟨g.launch.level, Nat.min g.launch.stack x.2.need, x.2.waves.length, round g⟩
    else none) ++
  s.grids.filterMap (fun g =>
    if g.2.part = p ∧ !g.2.again.isEmpty ∧ (againPlace s g.2).isNone then
      some ⟨g.2.launch.level, g.2.launch.stack, g.2.launch.waves, round g.2⟩
    else none)

/-- Whether no unit that a waiting block may be placed on has the wave slots and varying registers it needs (R92). -/
def Waiting.short (s : State) (x : Waiting) : Bool :=
  !x.units.isEmpty && x.units.all (fun u => u.any (fun c => decide (waveRoom s c x.regs < x.waves)))

/-- Whether a block of the same or a higher level waits to be placed and cannot find the wave slots or varying registers
it needs (R92). Log entry 74 (DESIGN CHOICE). -/
def pressure (s : State) (k : Nat) : Bool :=
  let g := gridOf s (blockOf s k).grid
  (waitingBlocks s g.part).any (fun x => decide (x.level ≤ g.launch.level) && x.short s)

/-- SHRINK_REQUEST_POST (R92): 1 to 63 waves, never more than the attached waves minus one.
Log entry 74 (DESIGN CHOICE). -/
def execShrinkRequestPost (k x : Nat) (s : State) : Host.Outcome State Fault Refusal :=
  match mget s.blocks k with
  | some b =>
    if 1 ≤ x ∧ x ≤ 63 ∧ x + 1 ≤ b.members.length ∧ pressure s k ∧ controlled s (gridOf s b.grid).part then .next (modBlock s k (fun b => { b with shrink := x }))
    else .refused (.notEnabled "SHRINK_REQUEST_POST")
  | none => .refused (.notEnabled "SHRINK_REQUEST_POST")

/-- SHRINK_REQUEST_CLEAR (R92): the pressure has ended. -/
def execShrinkRequestClear (k : Nat) (s : State) : Host.Outcome State Fault Refusal :=
  if 0 < (blockOf s k).shrink ∧ !pressure s k then .next (modBlock s k (fun b => { b with shrink := 0 }))
  else .refused (.notEnabled "SHRINK_REQUEST_CLEAR")

/-- The block a save-out would choose: among parked blocks of a level at or below a blocked queue's, the lowest
priority, and the most recently placed among equals (R275); not one whose save ended for want of room in this cycle
(R78). Log entry 74 (DESIGN CHOICE). -/
def saveOutChoice (s : State) (p : Nat) : Option Nat :=
  let lvl (b : Block) : Nat := (gridOf s b.grid).launch.level
  let ok := s.blocks.filter (fun b => decide ((gridOf s b.2.grid).part = p) && preemptable s b.1 &&
    decide (b.2.saveAgain ≤ s.now) && (waitingBlocks s p).any (fun x => decide (x.level ≤ lvl b.2)) &&
    (withPartner s b.1).all (fun j => blockParked s j && !holdsUnformed s j))
  let best := ok.filter (fun b => ok.all (fun y => decide (lvl y.2 < lvl b.2 ∨ (lvl y.2 = lvl b.2 ∧ y.2.order ≤ b.2.order))))
  best.head?.map (·.1)

/-- SAVE_OUT (R275, R341): the scheduler saves out a parked block. -/
def execSaveOut (k : Nat) (s : State) : Host.Outcome State Fault Refusal :=
  if saveOutChoice s (gridOf s (blockOf s k).grid).part = some k ∧ controlled s (gridOf s (blockOf s k).grid).part then
    .next (((withPartner s k).filter (preemptable s)).foldl (fun t j => acceptPreempt t j 0 []) s)
  else .refused (.notEnabled "SAVE_OUT")

/-! ### Drain (R342) -/

/-- Whether a block's request stands in a state. -/
def drains (s : State) (k : Nat) (d : Drain) : Bool :=
  match (blockOf s k).preempt with
  | some r => decide (r.drain = d)
  | none => false

/-- PREEMPT_DRAINING (R293, R342): no wave is mid-issue, and no split still runs candidate words. -/
def execPreemptDraining (k : Nat) (s : State) : Host.Outcome State Fault Refusal :=
  let running := s.waves.any (fun x => decide (x.2.block = some k) && x.2.splits.any (fun y => y.trump.isSome))
  if drains s k .stopping ∧ !running then
    .next (modBlock s k (fun b => { b with preempt := b.preempt.map (fun r => { r with drain := .draining }) }))
  else .refused (.notEnabled "PREEMPT_DRAINING")

/-- The length of a block's image body: a multiple of 64, so that its record is aligned (R343, R378).
Log entry 11 (DESIGN CHOICE). -/
def bodyBytes (n : Nat) : Nat := roundUp (Config.imageLength n) 64

/-- Whether an address range of a context's save area holds an image not yet launched (R355). -/
def areaHeld (s : State) (ctx lo hi : Nat) : Bool :=
  s.images.any (fun x => decide (x.2.ctx = ctx ∧ !x.2.launched ∧ x.2.body < hi ∧ lo < x.2.record + 64)) ||
  s.blocks.any (fun b => match b.2.preempt with
    | some r => (match r.image with
      | some i => decide ((gridOf s b.2.grid).ctx = ctx ∧ i.2.1 < hi ∧ lo < i.2.1 + i.2.2 + 64)
      | none => false)
    | none => false)

/-- Where a body of `n` bytes and its record go in a context's save area: at the next offset, or at the start where they
no longer fit; none where there is no room (R355). -/
def saveRoom (s : State) (ctx n : Nat) : Option Nat :=
  let c := ctxOf s ctx
  let free (o : Nat) : Bool := decide (o + n + 64 ≤ c.saveLen) && !areaHeld s ctx (c.saveBase + o) (c.saveBase + o + n + 64)
  if c.saveNext + n + 64 ≤ c.saveLen then (if free c.saveNext then some c.saveNext else none)
  else if free 0 then some 0 else none

/-- The physical address of a context's virtual address, as the control pair translates it. -/
def contextPa (s : State) (ctx va : Nat) : Option Nat :=
  match walkFrom s va 3 (ctxOf s ctx).root with
  | .leaf pte level => some (physical pte level va)
  | _ => none

/-- The bytes of an image body (R343 gives no layout). -/
def bodyOf (n bytes : Nat) : List Byte := (List.range bytes).map (Config.imageBody n)

/-- The number of a value of an image that has a tag state: its owner (0 the block, else a wave), the kind of storage, its
register or granule, its lane. -/
def imagePlace (owner kind n lane : Nat) : Nat := ((owner * 8 + kind) * 65536 + n) * 64 + lane

/-- The numbers of the elements of a list. -/
def numbered (l : List α) : List (Nat × α) := (List.range l.length).zip l

/-- The tags of a wave's registers, each with the number of its value. -/
def waveTags (u : Nat) (w : Wave) : List (Nat × Tag) :=
  let at_ := imagePlace (u + 1)
  w.v.flatMap (fun x => x.2.tags.map (fun t => (at_ 0 x.1 t.1, t.2))) ++ (numbered w.s).map (fun x => (at_ 1 x.1 0, x.2.tag)) ++
  (numbered w.a).map (fun x => (at_ 2 x.1 0, x.2.tag)) ++
  (numbered w.p).flatMap (fun x => x.2.tags.map (fun t => (at_ 3 x.1 t.1, t.2)))

/-- The tags of a block's own storage, each with the number of its value. -/
def blockTags (b : Block) : List (Nat × Tag) :=
  let at_ := imagePlace 0
  b.spadTags.map (fun x => (at_ 0 x.1 0, x.2)) ++ b.tileTags.map (fun x => (at_ 1 x.1 0, x.2)) ++
  b.acc.map (fun x => (at_ 2 x.1 0, x.2.tag)) ++ [(at_ 3 0 0, b.histTag)]

/-- The tags of what an image holds (R343). -/
def imageTags (b : Block) (ws : List (Nat × Wave)) : List (Nat × Tag) :=
  blockTags b ++ ws.flatMap (fun x => waveTags x.1 x.2)

/-- A list of tags by lane or granule, each changed with its number. -/
def retag (f : Nat → Tag → Tag) (at_ : Nat → Nat) (ks : List Nat) (m : Map Tag) : Map Tag :=
  ks.filterMap (fun k => match f (at_ k) (tagAt m k) with
    | .clean => none
    | t => some (k, t))

/-- A wave with the tag state of each of its registers changed by the number of the value. -/
def retagWave (f : Nat → Tag → Tag) (u : Nat) (w : Wave) : Wave :=
  let at_ := imagePlace (u + 1)
  { w with
    v := w.v.map (fun x => (x.1, { x.2 with tags := retag f (at_ 0 x.1) allLanes x.2.tags }))
    s := (numbered w.s).map (fun x => { x.2 with tag := f (at_ 1 x.1 0) x.2.tag })
    a := (numbered w.a).map (fun x => { x.2 with tag := f (at_ 2 x.1 0) x.2.tag })
    p := (numbered w.p).map (fun x => { x.2 with tags := retag f (at_ 3 x.1) allLanes x.2.tags }) }

/-- A block with the tag state of what it holds changed. -/
def retagBlock (f : Nat → Tag → Tag) (b : Block) : Block :=
  let at_ := imagePlace 0
  { b with
    spadTags := retag f (fun g => at_ 0 g 0) (List.range (b.spadLen / 32)) b.spadTags
    tileTags := retag f (fun g => at_ 1 g 0) (List.range (b.tileLen / 32)) b.tileTags
    acc := b.acc.map (fun x => (x.1, { x.2 with tag := f (at_ 2 x.1 0) x.2.tag }))
    histTag := f (at_ 3 0 0) b.histTag }

/-- The tags that a granule of an image body holds: where each value lies is open, as the layout is (R301, R308, R343).
Log entry 64 (DEDUCED). -/
def granuleTags (n g : Nat) (l : List (Nat × Tag)) : List Tag :=
  l.filterMap (fun x => if Config.imagePart n g x.1 then some x.2 else none)

/-- Holds an image body in the engine hold-back, one write for each granule with the `Merge` of the tags it holds (R178,
R300, R308, R342). -/
def holdBody (s : State) (k ctx n va bytes : Nat) : State :=
  let core := (blockOf s k).core
  let wave := ((blockOf s k).members.head?.map (·.1)).getD 0
  let body := bodyOf n bytes
  let ws := s.waves.filter (fun x => decide (x.2.block = some k))
  let tags := (imageTags (blockOf s k) ws).map (fun x => (x.1, seeTag s.tags (partOfBlock s k) x.2))
  (List.range (bytes / 32)).foldl (fun t g =>
    match contextPa s ctx (va + 32 * g) with
    | some pa => { t with
        nextId := t.nextId + 1
        tags := absorb t.tags (absorptions (granuleTags n g tags))
        held := t.held ++ [{ id := t.nextId, issued := t.now, due := t.now + Config.holdback, core := core, seat := none
                             wave := wave
                             eff := .engine n 7 [{ dest := .memory, cells := addrBytes pa ((body.drop (32 * g)).take 32)
                                                   tag := mergeTags (granuleTags n g tags) }] }] }
    | none => t) s

/-- Discards an idempotent block: it will be placed again from its start (R341). A partnered pair is placed again as
one. -/
def discardBlock (s : State) (k : Nat) : State :=
  let b := blockOf s k
  let first := if b.kind = .dummy then b.index - 1 else b.index
  let s1 := freeBlock (endPreempt s k 1) k
  modGrid s1 b.grid (fun g => { g with again := if g.again.contains first then g.again else g.again ++ [first] })

/-- A save ends with nothing saved: the block runs on, and its partner with it (R252, R341, R342). -/
def abandonSave (s : State) (k status : Nat) : State :=
  (withPartner s k).foldl (fun t j =>
    let t1 := match (blockOf t j).preempt.bind (fun r => r.image) with
      | some i => dropBody t i.1
      | none => t
    endPreempt (modMembers t1 j runOn) j status) s

/-- PREEMPT_WRITING (R185, R213, R341, R342): nothing is outstanding and the image is written from what the block's storage
reads as; or the drain ends another way: an unformed round, an idempotent block, no room. -/
def execPreemptWriting (k : Nat) (s : State) : Host.Outcome State Fault Refusal :=
  let b := blockOf s k
  let g := gridOf s b.grid
  if !drains s k .draining ∨ unitOver s k then .refused (.notEnabled "PREEMPT_WRITING")
  else if holdsUnformed s k then .next (abandonSave s k 4)
  else if !blockIdle s k ∨ mapBusy s k then .refused (.notEnabled "PREEMPT_WRITING")
  else if g.launch.idempotent then
    if (withPartner s k).all (fun j => drains s j .draining && blockIdle s j && !mapBusy s j) then
      .next (checkGrid ((withPartner s k).foldl discardBlock s) b.grid)
    else .refused (.notEnabled "PREEMPT_WRITING")
  else
    let n := s.nextId
    let bytes := bodyBytes n
    match saveRoom s g.ctx bytes with
    | none => .next ((withPartner s k).foldl (fun t j => modBlock t j (fun b => { b with saveAgain := s.now + 1 })) (abandonSave s k 3))
    | some o =>
      let va := (ctxOf s g.ctx).saveBase + o
      let s1 := modCtx { s with nextId := n + 1 } g.ctx (fun c => { c with saveNext := o + bytes + 64 })
      let s2 := modBlock s1 k (fun b => { b with preempt := b.preempt.map (fun r =>
        { r with drain := .writing, image := some (n, va, bytes) }) })
      .next (holdBody (readBlock s2 k) k g.ctx n va bytes)

/-! ### Images (R343, R344) -/

/-- A wave as an image keeps it: its splits stand at their instruction boundaries and fetch their clauses again, and the
run starts there; of its operations only the slices of open collectives are left (R174, R288, R343). -/
def imagedWave (w : Wave) : Wave :=
  let at_ (x : Split) : Split := match x.clause with
    | some c => { x with clause := none, opened := false, sampled := none, runStart := x.pc
                         resume := if x.pc = c.pc then none else some c.pc, park := x.park.map (fun p => { p with readyAt := none }) }
    | none => { x with sampled := none, runStart := x.pc, park := x.park.map (fun p => { p with readyAt := none }) }
  { everySplit at_ (runOn w) with flags := [], waitTag := none, waitHeld := none }

/-- The window need of some waves: the highest W + 64 − Lo, rounded up to 8 (R344). Log entry 64 (DEDUCED). -/
def windowNeed (l : List (Nat × Wave)) : Nat := roundUp (l.foldl (fun n w => Nat.max n (w.2.wbase + 64 - w.2.lo)) 0) 8

/-- The placement kind byte of a record. -/
def kindBits (g : Grid) (b : Block) : Nat :=
  (if b.redundant.isSome then 4 else 0) + (if g.launch.partnered then 2 else 0) + (if b.kind = .dummy then 1 else 0)

/-- The image record of an image (R344). -/
def recordBytes (s : State) (x : Image) : List Byte :=
  let g := gridOf s x.block.grid
  let c := ctxOf s x.ctx
  toBytes 8 x.seq ++ toBytes 8 (s.now - (partOf s g.part).born) ++ toBytes 4 g.handle ++ toBytes 4 x.block.index ++
  toBytes 2 x.ctx ++ toBytes 2 c.asid ++ toBytes 1 c.world ++ toBytes 1 x.waves.length ++ toBytes 1 (kindBits g x.block) ++
  toBytes 1 x.reason ++ toBytes 2 x.block.core ++ toBytes 2 x.need ++ toBytes 4 x.block.spadLen ++ toBytes 4 x.block.tileLen ++
  toBytes 1 x.block.accs ++ toBytes 1 (x.waves.filter (fun w => w.2.fetch.isSome)).length ++ toBytes 2 0 ++ toBytes 8 x.body ++
  toBytes 4 x.bytes ++ toBytes 4 x.crc.toNat

/-- The words of some bytes. -/
def bodyCheck (l : List Byte) : Word := crcWords 0 (wordsOfBytes l)

/-- A device write of bytes at a context's virtual address, one granule at a time. -/
def contextWrite (s : State) (part die ctx va : Nat) (l : List Byte) : State :=
  let cells := (addrBytes va l).filterMap (fun c => (contextPa s ctx c.1).map (fun pa => (pa, c.2)))
  performWrite s part die (ctxOf s ctx).world cells (fun _ => .clean) [] [] none false

/-- One block becomes an image: its record is written, its slots, allocations, grants and locks are free; its waves keep
their spill areas and drawn items (R342 to R344). Log entry 64 (DEDUCED). -/
def saveBlock (s : State) (k : Nat) : State :=
  let b := blockOf s k
  let g := gridOf s b.grid
  match b.preempt with
  | none => s
  | some r =>
    match r.image with
    | none => s
    | some (n, va, bytes) =>
      let ws := (s.waves.filter (fun x => decide (x.2.block = some k))).map (fun x => (x.1, imagedWave x.2))
      let x : Image := { ctx := g.ctx, bid := k, record := va + bytes, body := va, bytes := bytes
                         seq := (partOf s g.part).imageSeq.toNat, block := { b with preempt := none }
                         waves := ws, reason := r.reason, need := windowNeed ws, crc := bodyCheck (bodyOf n bytes)
                         stable := (ctxOf s g.ctx).stable }
      let s1 := modPart s g.part (fun p => { p with imageSeq := p.imageSeq + 1 })
      let s2 := contextWrite s1 g.part (dieOfCore b.core) g.ctx x.record (recordBytes s1 x)
      let s3 := ws.foldl (fun t w => modCore (endVarying t b.grid w.1) b.core (fun c => dropLocks c w.1 (fun _ => true) true)) s2
      let s4 := endPreempt (modGrid s3 b.grid (fun y => { endGrants y k with saved := y.saved + 1 })) k 0
      let s5 := freePlaces s4 k
      { s5 with images := mset s5.images n x, blocks := mdel s5.blocks k
                waves := s5.waves.filter (fun y => !decide (y.2.block = some k)) }

/-- Whether an image body is written. -/
def bodyWritten (s : State) (k : Nat) : Bool :=
  match (blockOf s k).preempt with
  | some r => (match r.image with
    | some i => decide (r.drain = .writing) && !s.held.any (fun h => match h.eff with
      | .engine e _ _ => decide (e = i.1)
      | _ => false)
    | none => false)
  | none => false

/-- PREEMPT_SAVED (R342, R344): the record is written and everything the block held is free; partners together (R252,
R370). -/
def execPreemptSaved (k : Nat) (s : State) : Host.Outcome State Fault Refusal :=
  if (mget s.blocks k).isSome ∧ (withPartner s k).all (fun j => bodyWritten s j && !mapBusy s j) then
    .next ((withPartner s k).foldl saveBlock s)
  else .refused (.notEnabled "PREEMPT_SAVED")

/-! ### Placement of saved and discarded blocks (R346) -/

/-- The clock of what a wave performed before its save: all of it precedes what comes after its restore (R241). -/
def performedClock (w : Wave) : List Nat := clockJoin w.clock (clockJoin w.wrote w.engineWrote)

/-- A restored wave in a slot of its new core, with an allotment; frames that do not fit go to its spill area (R346).
Log entry 64 (DEDUCED). -/
def restoreWaveOn (s : State) (k core resident : Nat) (x : Nat × Wave) : State :=
  let at_ := (pickSlot s core).getD (0, 0)
  let w := { x.2 with core := core, seat := at_.1, slot := at_.2, block := some k, nextIssue := s.now
                      clock := performedClock x.2, flags := x.2.ops.foldl (fun f o => flagAdd f o.flag) [] }
  let n := loIn w resident - w.lo
  let s1 := { s with waves := mset s.waves x.1 { w with resident := resident } }
  if n = 0 then s1
  else
    let s2 := spillRegs s1 x.1 w n
    modWave s2 x.1 (fun y => { y with
      v := dropRange y.v y.lo (y.lo + n), lo := y.lo + n, spills := satAdd y.spills n, waitHeld := some s1.nextId })

/-- The granules of an image's body, by number. -/
def bodyPlaces (s : State) (x : Image) : List (Nat × Nat) :=
  (List.range (x.bytes / 32)).filterMap (fun g => (contextPa s x.ctx (x.body + 32 * g)).map (fun pa => (g, pa)))

/-- The tag state with which a value of an image is restored: a value that was provisional takes the state in which memory
now holds its granules; one that was not keeps its own, with the poison that its granules have come to hold since
(R308). Log entry 64 (DEDUCED). -/
def restoredTag (states : List (Nat × Tag)) (saved : List (Nat × Tag)) (n place : Nat) (t : Tag) : Tag :=
  let mine := states.filter (fun y => Config.imagePart n y.1 place)
  match t with
  | .prov _ => if mine.isEmpty then t else mergeTags (mine.map (·.2))
  | _ => mergeTags (t :: mine.filterMap (fun y => match y.2 with
      | .poison p => if (granuleTags n y.1 saved).any (fun z => decide (z = .poison p ∨ z = .prov p)) then none
        else some (.poison p)
      | _ => none))

/-- The block and the waves of an image with the tag states that its body holds on a die, the absorptions of their
`Merge`s recorded (R300, R308). -/
def takeTags (s : State) (n die : Nat) (x : Image) : State × Image :=
  let part := (ctxOf s x.ctx).part
  let states := (bodyPlaces s x).map (fun p => (p.1, seeTag s.tags part (viewByte s die p.2).2.1))
  let saved := imageTags x.block x.waves
  let f := restoredTag states saved n
  let met := saved.flatMap (fun v => match v.2 with
    | .prov _ => absorptions ((states.filter (fun y => Config.imagePart n y.1 v.1)).map (·.2))
    | _ => [])
  ({ s with tags := absorb s.tags met },
    { x with block := retagBlock f x.block, waves := x.waves.map (fun w => (w.1, retagWave f w.1 w.2)) })

/-- Restores one image on a core: the tag states are those its body now holds, its waves' earlier writes are in the views
there, and its open collectives take their places again (R174, R241, R308, R346). -/
def restoreImage (s0 : State) (n core : Nat) : State :=
  match mget s0.images n with
  | none => s0
  | some old =>
    let clock := old.waves.foldl (fun c w => clockJoin c (performedClock w.2)) []
    let die := dieOfCore core
    let r := takeTags (readMemory (syncTo s0 die clock) (ctxOf s0 old.ctx).part ((bodyPlaces s0 old).map (·.2))) n die old
    let s := r.1
    let x := r.2
    let b := x.block
    let k := x.bid
    let a := (allotment s x core).getD 64
    let g := gridOf s b.grid
    let b1 := { b with core := core, order := s.nextId, spadBase := (spadFit s core b.spadLen).getD 0, partner := none
                       redundant := shadowFor s g.launch g.part }
    let s1 := modGrid { s with nextId := s.nextId + 1, images := mdel s.images n, blocks := mset s.blocks k b1 } b.grid
      (fun g => { g with saved := g.saved - 1 })
    let s2 := x.waves.foldl (fun t w => restoreWaveOn t k core a w) (modCore s1 core (clearRows b1.spadBase b1.spadLen))
    b1.collectives.foldl (fun t c => takePlace t core c.1 c.2.id (some k)) (modCore s2 core (fun c => { c with code := [] }))

/-- Two blocks made partners. -/
def joinPartners (s : State) (a b : Nat) : State :=
  modBlock (modBlock s a (fun x => { x with partner := some b })) b (fun x => { x with partner := some a })

/-- Restores the images of a unit. -/
def restoreUnit (s : State) (ns unit : List Nat) : State :=
  match ns, unit with
  | [n], c :: _ => restoreImage s n c
  | [n, m], c :: d :: _ =>
    let bid (i : Nat) : Nat := match mget s.images i with
      | some x => x.bid
      | none => 0
    joinPartners (restoreImage (restoreImage s n c) m d) (bid n) (bid m)
  | _, _ => s

/-- RESTORE_PLACEMENT (R273, R275, R341, R346, R371): a saved or discarded block returns, ahead of the new blocks at its
level or below. -/
def execRestorePlacement (p : Nat) (s : State) : Host.Outcome State Fault Refusal :=
  let rs := returning s p
  let lvl := (least (rs.map (·.1))).getD 64
  match rs.find? (fun x => decide (x.1 = lvl)) with
  | some (_, image, n) =>
    let first := (readyQueues s p).any (fun y => decide ((gridOf s y.2.1).launch.level < lvl))
    if s.now < (partOf s p).lastPlace ∨ first ∨ !controlled s p then .refused (.notEnabled "RESTORE_PLACEMENT")
    else
      let s1 := modPart s p (fun q => { q with lastPlace := s.now + 1 })
      if image then
        let ns := imageUnit s n
        let g := match mget s.images n with
          | some x => x.block.grid
          | none => 0
        match returnPlace s ns with
        | some (u, pos) => .next (modGrid (restoreUnit s1 ns u) g (fun y => { y with position := pos }))
        | none => .refused (.notEnabled "RESTORE_PLACEMENT")
      else
        match againPlace s (gridOf s n), (gridOf s n).again with
        | some (u, pos), i :: rest =>
          .next (placeUnit (modGrid s1 n (fun y => { y with position := pos, again := rest })) n i u)
        | _, _ => .refused (.notEnabled "RESTORE_PLACEMENT")
  | none => .refused (.notEnabled "RESTORE_PLACEMENT")

end Sys2Proof.Machine
end

