-- ==== Sys2Proof/Machine/Hub.lean ====
section
/-! DEFINITION. The package edge: writes from host, peers and storage (R240, R320, R358, R359), the stream gate (R214,
R215, R356, R357), port streams (R362), shared hub logic (R351), text paging (R144, R345), TLB shoot-downs (R206), gating
and waking (R364, R365), event rings (R367), attestation and assignment (R360, R361), control pairs (R353). -/

namespace Sys2Proof.Machine

/-! ### Writes from outside (R240) -/

/-- Whether a physical address exists: 52 bits in regions 0x0 to 0x2 (R202), in region 0x0 within the HBM (R6).
Log entry 81 (DESIGN CHOICE). Log entry 87 (PRESUMED). -/
def realAddress (pa n : Nat) : Bool := decide (pa + n ≤ 3 * 2 ^ 48) && !pastHbm pa n

/-- A write of an outside agent to one granule: it takes its place in the coherence order and shows in every view that
waits for no write of its own die; it heads a release sequence if it is a release point, and ends the others (R236, R240). -/
def outsideGranule (s : State) (part : Nat) (tag : Tag) (head : Option Head) (g : Nat) (bytes : List (Nat × Byte)) :
    State :=
  let m := granMerge (seeTag s.tags part (tagAt s.memTags g)) tag (coversGranule g bytes)
  { s with
    mem := memWrite s.mem bytes
    memTags := tagSet s.memTags g m.1
    tags := journal (absorb s.tags m.2) m.1 0 0 g
    homeSeq := s.homeSeq + 1
    lags := s.lags.filter (fun l => !((partOf s part).dies.contains l.die && l.pos.isSome &&
      bytes.any (fun x => decide (x.1 = l.addr))))
    heads := bytes.foldl (fun h x => match head with
      | some y => mset h x.1 [y]
      | none => mdel h x.1) s.heads }

/-- A write of an outside agent for a partition. Log entry 45 (DEDUCED). -/
def outsideWrite (s : State) (part : Nat) (tag : Tag) (head : Option Head) (bytes : List (Nat × Byte)) : State :=
  codeWritten ((byGranule bytes).foldl (fun t g => outsideGranule t part tag head g.1 g.2) s) part bytes

/-- The release a host or peer write is (R240). -/
def hostHead (part : Nat) : Head := { host := true, part := part, scope := 4, set := 2 }

/-- A hub die that is gated is to wake (R365). -/
def wakeHub (s : State) (h : Nat) : State := if (hubOf s h).gated then modHub s h (fun x => { x with waking := true }) else s

/-- An arriving write with its payload good or bad: bad payload poisons the granules it writes (R320). -/
def arrive (s : State) (part pa : Nat) (data : List Byte) (bad : Bool) : State :=
  let bytes := addrBytes pa data
  let s0 := wakeHub s (partOf s part).hub
  if bad then
    let r := newTag s0 part
    postEvent (outsideWrite r.2 part (.poison r.1) (some (hostHead part)) bytes) part
      { hubEvent r.2 part .portPoison 2 with tag := .poison r.1, addr := pa }
  else outsideWrite s0 part .clean (some (hostHead part)) bytes

/-- HOST_INBOUND_WRITE (R240, R320): a host or peer write over PCIe. -/
def execHostInboundWrite (p pa : Nat) (data : List Byte) (bad : Bool) (s : State) : Host.Outcome State Fault Refusal :=
  if (mget s.parts p).isNone then .refused (.notEnabled "HOST_INBOUND_WRITE")
  else if realAddress pa data.length then .next (arrive s p pa data bad)
  else .fault .noSuchAddress

/-- Whether a link carries the stream of a partition's roster entry: the entry is present and names the link, and its
stream is not closed (R358, R359). -/
def onLink (s : State) (x p e : Nat) : Bool :=
  let y := mgetD (partOf s p).roster e {}
  y.present && decide (y.link = x) && (mget s.streams (peerStream p e)).any (fun t => decide (t.state ≠ .closed))

/-- A packet that fails authentication, reported to a partition (R359). -/
def forged (s : State) (p detail : Nat) : State := postEvent s p { hubEvent s p .portPoison 2 with detail := detail }

/-- A peer link changed: links 0 to 3 lie on hub die 0, 4 to 7 on hub die 1. -/
def modLink (s : State) (x : Nat) (f : Link → Link) : State :=
  modHub s (x / 4) (fun h => { h with links := nthSet {} (f (nth h.links (x % 4) {})) h.links (x % 4) })

/-- A peer's contribution as it arrives; the values of a bad payload are poison with the tag of its record (R320). -/
def peerValues (s : State) (p idx e : Nat) (bad : Bool) (y : PeerPart) : State :=
  if bad then
    let r := createPoison s p (hubEvent s p .portPoison 2)
    peerContribute r.2 p idx e { y with
      elems := y.elems.map (fun z => (z.1, { z.2 with tag := .poison r.1 })), lanes := y.lanes.map (fun z => { z with tag := .poison r.1 }) }
  else peerContribute s p idx e y

/-- The bytes of the write that a flit carries: a flit has 256 bytes (R358). -/
def flitFits : PeerBody → Bool
  | .write _ data => decide (data.length ≤ 256)
  | _ => true

/-- PEER_FLIT (R279, R280, R320, R358, R359): a flit on the stream that its head names. One that fails its check
is retried; one that fails authentication, or is on no stream of the link, is dropped, counted and reported; a good one's
write, arrival or contribution is the entry's. Log entry 84 (DESIGN CHOICE). -/
def execPeerFlit (x : Nat) (ok : Bool) (head : FlitHead) (body : PeerBody) (s : State) : Host.Outcome State Fault Refusal :=
  let p := head.part
  let e := head.entry
  if 8 ≤ x ∨ (nth (hubOf s (x / 4)).links (x % 4) {}).failed ∨ (mget s.parts p).isNone ∨ !flitFits body then
    .refused (.notEnabled "PEER_FLIT")
  else
    let s0 := wakeHub s (x / 4)
    if !ok then .next (modLink s0 x (fun l => { l with retries := l.retries + 1 }))
    else if !head.auth ∨ !onLink s x p e then
      .next (forged (modLink s0 x (fun l => { l with retries := 0, dropped := l.dropped + 1 })) p e)
    else
      let s1 := modLink s0 x (fun l => { l with retries := 0 })
      match body with
      | .write pa data => if realAddress pa data.length then .next (arrive s1 p pa data head.bad) else .fault .noSuchAddress
      | .arrive idx => .next (peerArrive s1 p idx e)
      | .contribute idx drain slot ctl elems lanes => .next (peerValues s1 p idx e head.bad
          { drain := drain, slot := slot, ctl := ctl, elems := elems.map (fun z => (z.1, { bits := z.2.1, lost := z.2.2 }))
            lanes := lanes.map (fun z => { lane := z.1, val := z.2 }) })

/-- LINK_RETRY_FAIL (R358): the link drops to half its width, or fails. -/
def execLinkRetryFail (x : Nat) (fails : Bool) (s : State) : Host.Outcome State Fault Refusal :=
  let l := nth (hubOf s (x / 4)).links (x % 4) {}
  if x < 8 ∧ !l.failed ∧ 0 < l.retries then
    .next (modLink s x (fun l => { l with failed := fails || decide (l.width ≤ 1), width := l.width / 2, retries := 0 }))
  else .refused (.notEnabled "LINK_RETRY_FAIL")

/-- The first stream of an Ethernet port of a hub die: 64 security associations (R359). Log entry 93 (DESIGN CHOICE). -/
def ethStream (h x : Nat) : Nat := 0x20000 + (2 * h + x) * 64
/-- The first stream of a hub die's NVMe root port: 16 namespaces (R359). Log entry 93 (DESIGN CHOICE). -/
def nvmeStream (h : Nat) : Nat := 0x30000 + 16 * h
/-- Whether a number is that of an Ethernet or NVMe stream of a hub die. -/
def deviceStream (h n : Nat) : Bool :=
  decide ((ethStream h 0 ≤ n ∧ n < ethStream h 0 + 128) ∨ (nvmeStream h ≤ n ∧ n < nvmeStream h + 16))

/-- Whether a partition has a security association on an Ethernet port that is not closed. -/
def ethOpen (s : State) (h x p : Nat) : Bool :=
  s.streams.any (fun y => decide (ethStream h x ≤ y.1 ∧ y.1 < ethStream h x + 64 ∧ y.2.part = p ∧ y.2.state ≠ .closed))

/-- NVME_READ_COMPLETE (R320, R359): a storage read on a namespace's stream writes memory; a data unit that fails its check
poisons its granules. The stream names the partition. -/
def execNvmeReadComplete (x pa : Nat) (data : List Byte) (ok : Bool) (s : State) : Host.Outcome State Fault Refusal :=
  match mget s.streams x with
  | some t =>
    if t.state = .closed ∨ x < nvmeStream 0 ∨ nvmeStream 2 ≤ x then .refused (.notEnabled "NVME_READ_COMPLETE")
    else if realAddress pa data.length then .next (arrive s t.part pa data (!ok))
    else .fault .noSuchAddress
  | none => .refused (.notEnabled "NVME_READ_COMPLETE")

/-- The partitions homed on a hub die. -/
def homedOn (s : State) (h : Nat) : List Nat := (s.parts.filter (fun p => decide (p.2.hub = h))).map (·.1)

/-- Whether a frame matches a wake filter entry (R364). -/
def filterMatches (frame : List Byte) (f : Filter) : Bool :=
  let x := ofBytes ((List.range 16).map (fun k => nth frame (f.offset + k) 0))
  decide (Nat.land x f.mask = f.value)

/-- The bytes a gated hub die holds for one Ethernet port of the frames that came during the wake: all but the first frame,
which matched (R364). -/
def heldFor (h : Hub) (x : Nat) : Nat :=
  ((h.heldFrames.drop 1).filter (fun f => decide (f.1 = x))).foldl (fun n f => n + f.2.length) 0

/-- ETHERNET_FRAME_RECEIVE (R359, R364, R365): a packet of a partition that fails authentication, or for which it has no
security association, is dropped, counted and reported, on a gated die too; on a gated die a frame wakes it if it matches,
is held during the wake up to 64 KiB a port, and is dropped otherwise. -/
def execEthernetFrameReceive (h x : Nat) (auth : Bool) (frame : EthFrame) (s : State) : Host.Outcome State Fault Refusal :=
  let p := frame.part
  if 2 ≤ h ∨ 2 ≤ x ∨ (mget s.parts p).isNone ∨ (partOf s p).hub ≠ h then .refused (.notEnabled "ETHERNET_FRAME_RECEIVE")
  else
    let hub := hubOf s h
    if !auth ∨ !ethOpen s h x p then .next (forged (modHub s h (fun y => { y with dropped := y.dropped + 1 })) p x)
    else if hub.gated then
      if hub.waking && !hub.heldFrames.isEmpty then
        if heldFor hub x + frame.bytes.length ≤ 65536 then
          .next (modHub s h (fun y => { y with heldFrames := y.heldFrames ++ [(x, frame.bytes)] }))
        else .next (modHub s h (fun y => { y with dropped := y.dropped + 1 }))
      else if hub.filters.any (fun f => filterMatches frame.bytes f.2) then
        .next (modHub s h (fun y => { y with heldFrames := [(x, frame.bytes)], waking := true }))
      else .next s
    else .next (modHub s h (fun y => { y with frames := y.frames ++ [(x, frame.bytes)] }))

/-! ### The stream gate (R214, R215, R356, R357) -/

/-- The release word of a window as memory holds it. -/
def releaseWord (s : State) (w : Window) : Nat :=
  match contextPa s w.ctx w.release with
  | some pa => memNum s pa 8
  | none => 0

/-- The virtual address of an offset in a slot. -/
def slotVa (w : Window) (k o : Nat) : Nat := w.base + 65536 + k * 2 ^ w.slotLog + o

/-- A gate write to window bytes: it shows in every view; the one that raises the committed number is a release point
(R240). Log entry 45 (DEDUCED). -/
def gateWrite (s : State) (p : Nat) (w : Window) (tag : Tag) (head : Option Head) (va : Nat) (l : List Byte) : State :=
  outsideWrite s p tag head
    ((addrBytes va l).filterMap (fun c => (contextPa s w.ctx c.1).map (fun pa => (pa, c.2))))

/-- A window of a partition changed. -/
def modWindow (s : State) (p ix : Nat) (f : Window → Window) : State :=
  modPart s p (fun q => { q with windows := q.windows.map (fun w => if w.index = ix then f w else w) })

/-- The record of a dropped write or frame (R356). -/
def dropRecord (s : State) (p : Nat) (w : Window) (n : Nat) : State :=
  postEvent s p { hubEvent s p .ingressDrop 2 with addr := w.base, ctx := w.ctx, asid := (ctxOf s w.ctx).asid, detail := n % 2 ^ 32 }

/-- The header that a slot's bytes spell, once its 16 bytes are there: sequence number and payload length (R214). -/
def headerOf (b : Map Byte) : Option (Nat × Nat) :=
  if (List.range 16).all (fun k => (mget b k).isSome) then
    let at_ (o n : Nat) := ofBytes ((List.range n).map (fun k => mgetD b (o + k) 0))
    some (at_ 0 8, at_ 8 4)
  else none

/-- Whether a frame has landed: every 64-byte granule of its header and payload is written in full, up to the slot's end
(R214, R357). -/
def frameLanded (w : Window) (x : SlotState) (len : Nat) : Bool :=
  let n := Nat.min (16 + len) (2 ^ w.slotLog)
  (List.range ((n + 63) / 64 * 64)).all (fun k => (mget x.bytes k).isSome)

/-- A frame longer than its slot: its payload granules become poison with the record's tag (R214). -/
def cutFrame (s : State) (p : Nat) (w : Window) (k len : Nat) : State :=
  if 16 + len ≤ 2 ^ w.slotLog then s
  else
    let r := newTag s p
    let grans := ((List.range (2 ^ w.slotLog / 32)).filterMap (fun g => contextPa s w.ctx (slotVa w k (32 * g)))).map (· / 32)
    let s1 := { r.2 with memTags := grans.foldl (fun m g => tagSet m g (.poison r.1)) r.2.memTags }
    postEvent s1 p { hubEvent s1 p .ingressCut 2 with
      tag := .poison r.1, addr := slotVa w k 0, ctx := w.ctx, asid := (ctxOf s w.ctx).asid }

/-- Advances the committed number over the frames that have landed, and writes it (R215). -/
def advance : Nat → State → Nat → Nat → State
  | 0, s, _, _ => s
  | n + 1, s, p, ix =>
    match (partOf s p).windows.find? (fun w => decide (w.index = ix)) with
    | none => s
    | some w =>
      let k := (w.c - w.s0) % w.q
      let x := mgetD w.slots k {}
      match x.frame with
      | some (m, len) =>
        if m = w.c ∧ frameLanded w x len then
          let s1 := modWindow (cutFrame s p w k len) p ix (fun y => { y with c := y.c + 1 })
          advance n (gateWrite s1 p w .clean (some (gateHead p)) w.base (toBytes 8 (w.c + 1))) p ix
        else s
      | none => s

/-- The bytes of a slot with some writes over them. -/
def overSlot (m : Map Byte) (ws : List (Nat × List Byte × Tag)) : Map Byte :=
  ws.foldl (fun m w => (addrBytes w.1 w.2.1).foldl (fun m c => mset m c.1 c.2) m) m

/-- A slot changed. -/
def modSlot (s : State) (p ix k : Nat) (f : SlotState → SlotState) : State :=
  modWindow s p ix (fun y => { y with slots := mset y.slots k (f (mgetD y.slots k {})) })

/-- Writes to a slot land: its bytes with their tags, then the committed number moves (R214, R215, R320). -/
def landSlot (s : State) (p ix : Nat) (w : Window) (k : Nat) (f : Option (Nat × Nat)) (bytes : Map Byte)
    (ws : List (Nat × List Byte × Tag)) : State :=
  advance (w.q + 1) (ws.foldl (fun t y => gateWrite t p w y.2.2 none (slotVa w k y.1) y.2.1)
    (modSlot s p ix k (fun _ => { frame := f, bytes := bytes }))) p ix

/-- What the gate does with writes whose bytes complete a header, `old` being the frame of the slot that is not committed
(R357): the frame is dropped where the header is not the slot's or differs from the one before; a committed frame's write is
dropped; one beyond the release word waits; else it lands. -/
def headedSlot (s : State) (p ix : Nat) (w : Window) (k n len : Nat) (old : Option (Nat × Nat)) (bytes : Map Byte)
    (ws : List (Nat × List Byte × Tag)) : State × Bool :=
  if n < w.s0 ∨ (n - w.s0) % w.q ≠ k ∨ old.any (fun y => decide (y ≠ (n, len))) then
    (dropRecord (modWindow s p ix (fun y => { y with slots := mdel y.slots k })) p w k, false)
  else if n < w.c then (dropRecord (modSlot s p ix k (fun x => { x with next := [] })) p w n, false)
  else if releaseWord s w + w.q ≤ n then (s, true)
  else (landSlot s p ix w k (some (n, len)) bytes ws, false)

/-- A write to one slot of a window (R357): the state, and whether it has to wait for the release word. Over a committed
frame, a write that touches the header begins the next frame, whose bytes are kept until its header is whole; any other is
the committed frame's and is dropped. Log entry 72 (DEDUCED). -/
def slotWrite (s : State) (p ix : Nat) (w : Window) (k o : Nat) (l : List Byte) (tag : Tag) : State × Bool :=
  let x := mgetD w.slots k {}
  match x.frame.bind (fun f => if f.1 < w.c then some f.1 else none) with
  | some m =>
    if 16 ≤ o && x.next.isEmpty then (dropRecord s p w m, false)
    else
      let ws := x.next ++ [(o, l, tag)]
      let bytes := overSlot [] ws
      match headerOf bytes with
      | some (n, len) => headedSlot s p ix w k n len none bytes ws
      | none => (modSlot s p ix k (fun x => { x with next := ws }), false)
  | none =>
    let ws := [(o, l, tag)]
    let bytes := overSlot x.bytes ws
    match headerOf bytes with
    | some (n, len) => headedSlot s p ix w k n len x.frame bytes ws
    | none => (landSlot s p ix w k none bytes ws, false)

/-- A write to a window's slots, cut at slot ends; what lies outside the slots is dropped (R356). The parts that have to
wait are left with the window (R215). Log entry 72 (DEDUCED). -/
def gatePieces : Nat → State → Nat → Nat → Nat → List Byte → Tag → State
  | 0, s, _, _, _, _, _ => s
  | n + 1, s, p, ix, off, l, tag =>
    match (partOf s p).windows.find? (fun w => decide (w.index = ix)), l with
    | some w, _ :: _ =>
      let size := 2 ^ w.slotLog
      let k := off / size
      let part := l.take (size - off % size)
      if w.q ≤ k then dropRecord s p w k
      else
        let r := slotWrite s p ix w k (off % size) part tag
        let s1 := if r.2 then modWindow r.1 p ix (fun y => { y with
          waiting := y.waiting ++ [{ off := off, data := part, tag := tag, at_ := s.now }] }) else r.1
        gatePieces n s1 p ix (off + part.length) (l.drop part.length) tag
    | _, _ => s

/-- A write of an admitted requester at the gate, its bytes with a tag: it goes to the slots, or behind the writes that wait
(R215, R357). -/
def gateArrive (s : State) (p off : Nat) (w : Window) (data : List Byte) (tag : Tag) : State :=
  if w.waiting.isEmpty then gatePieces (data.length + 1) s p w.index (off - w.aperture) data tag
  else modWindow s p w.index (fun y => { y with
    waiting := y.waiting ++ [{ off := off - w.aperture, data := data, tag := tag, at_ := s.now }] })

/-- INGRESS_FRAME_WRITE (R320, R354, R356, R357): a write of a requester to the aperture; a requester not admitted is refused
at the port; the granules that a poisoned payload writes take the tag of its record. Log entry 84 (DESIGN CHOICE). -/
def execIngressFrameWrite (p req off : Nat) (data : Payload) (s : State) : Host.Outcome State Fault Refusal :=
  match (partOf s p).windows.find? (fun w => w.opened && decide (w.aperture ≤ off ∧ off < w.aperture + w.q * 2 ^ w.slotLog)) with
  | some w =>
    let s0 := wakeHub s (partOf s p).hub
    if !w.reqs.contains req then .next s0
    else if data.bad then
      let r := createPoison s0 p { hubEvent s0 p .portPoison 2 with addr := w.base + 65536 + (off - w.aperture), ctx := w.ctx }
      .next (gateArrive r.2 p off w data.bytes (.poison r.1))
    else .next (gateArrive s0 p off w data.bytes .clean)
  | none => .refused (.notEnabled "INGRESS_FRAME_WRITE")

/-- Tries the oldest waiting write of a window again (R215). -/
def retryWaiting : Nat → State → Nat → Nat → State
  | 0, s, _, _ => s
  | n + 1, s, p, ix =>
    match (partOf s p).windows.find? (fun w => decide (w.index = ix)) with
    | some w =>
      match w.waiting with
      | x :: rest =>
        let t := gatePieces (x.data.length + 1) (modWindow s p ix (fun y => { y with waiting := [] })) p ix x.off x.data x.tag
        let left := ((partOf t p).windows.find? (fun w => decide (w.index = ix))).elim [] (fun w => w.waiting)
        if left.isEmpty then retryWaiting n (modWindow t p ix (fun y => { y with waiting := rest })) p ix else s
      | [] => s
    | none => s

/-- INGRESS_BACKPRESSURE_TIMEOUT (R215): a write that has waited for the partition's timeout is dropped. -/
def execIngressBackpressureTimeout (p x : Nat) (s : State) : Host.Outcome State Fault Refusal :=
  match (partOf s p).windows.find? (fun w => decide (w.index = x)) with
  | some w =>
    match w.waiting with
    | y :: rest =>
      if y.at_ + (partOf s p).timeout ≤ s.now then
        .next (dropRecord (modWindow s p x (fun z => { z with waiting := rest })) p w (y.off / 2 ^ w.slotLog))
      else .refused (.notEnabled "INGRESS_BACKPRESSURE_TIMEOUT")
    | [] => .refused (.notEnabled "INGRESS_BACKPRESSURE_TIMEOUT")
  | none => .refused (.notEnabled "INGRESS_BACKPRESSURE_TIMEOUT")

/-! ### Port streams and shared logic (R351, R362) -/

/-- STREAM_DRAIN_COMPLETE (R362): every packet sent is acknowledged; the key is replaced, the nonce counter is 0, and the
waiting writes are sent. -/
def execStreamDrainComplete (x : Nat) (s : State) : Host.Outcome State Fault Refusal :=
  match mget s.streams x with
  | some t =>
    if t.state = .draining ∧ t.sent.isEmpty then
      let s1 := { s with streams := mset s.streams x { t with state := .opened, key := some t.newKey, nonce := 0 } }
      .next (commandDone (pumpPorts s1) t.part t.host 0 [])
    else .refused (.notEnabled "STREAM_DRAIN_COMPLETE")
  | none => .refused (.notEnabled "STREAM_DRAIN_COMPLETE")

/-- STREAM_DRAIN_FAIL (R362): a drain not finished within T clears the key, drops what waits and what is not
acknowledged, records it and closes the stream. Writes held for a tag are not waiting writes. -/
def execStreamDrainFail (x : Nat) (s : State) : Host.Outcome State Fault Refusal :=
  match mget s.streams x with
  | some t =>
    if t.state = .draining ∧ t.at_ + (partOf s t.part).timeout ≤ s.now ∧ !t.sent.isEmpty then
      .next (commandDone (failStream s x) t.part t.host 1 [])
    else .refused (.notEnabled "STREAM_DRAIN_FAIL")
  | none => .refused (.notEnabled "STREAM_DRAIN_FAIL")

/-- SHARED_REQUEST_TIMEOUT (R351): a device write that no port has accepted within T, and that waits neither for a tag
nor for a drain, is dropped and recorded. Log entry 69 (DEDUCED). -/
def execSharedRequestTimeout (n : Nat) (s : State) : Host.Outcome State Fault Refusal :=
  match s.ports.find? (fun w => decide (w.id = n)) with
  | some w =>
    if !portHeld s w ∧ !streamStopped s w.stream ∧ w.at_ + (partOf s w.part).timeout ≤ s.now then
      let a := (w.bytes.head?.map (·.1)).getD 0
      let s1 := { s with ports := s.ports.filter (fun y => !decide (y.id = n)) }
      .next (pumpPorts (postEvent s1 w.part { hubEvent s1 w.part .portPoison 2 with addr := a }))
    else .refused (.notEnabled "SHARED_REQUEST_TIMEOUT")
  | none => .refused (.notEnabled "SHARED_REQUEST_TIMEOUT")

/-! ### Text paging and shoot-downs (R144, R206, R345) -/

/-- The address of the table entry at which a walk stops, if it stops at an invalid one. -/
def stopEntry (s : State) (va : Nat) : Nat → Nat → Option Nat
  | level, table =>
    let a := table + 8 * tableIndex level va
    let x := memNum s a 8
    if pastHbm table (levelBytes level) then none
    else if !bitAt x 0 then some a
    else if bits x 3 1 ≠ 0 then none
    else match level with
      | 0 => none
      | n + 1 => stopEntry s va n (bits x 51 8 * 256)

/-- A grid ends with a cause (R144, R333): no block of it is placed any more, and what it has placed stops. -/
def endGrid (s : State) (g : Nat) (e : Event) : State :=
  let s1 := postEvent (gridError s g) (gridOf s g).part e
  let stopB (b : Nat × Block) : Nat × Block := if b.2.grid = g then (b.1, { b.2 with fault := true }) else b
  let stopW (w : Nat × Wave) : Nat × Wave := if w.2.grid = g then (w.1, { w.2 with state := .faulted }) else w
  let s2 : State := { s1 with blocks := s1.blocks.map stopB, waves := s1.waves.map stopW }
  let loose := (s2.waves.filter (fun w => decide (w.2.grid = g ∧ w.2.block = none))).map (·.1)
  checkGrid (loose.foldl (fun (t : State) u => if t.held.any (fun h => decide (h.wave = u ∧ h.eff = .dead)) then t
    else { t with
      nextId := t.nextId + 1
      held := t.held ++ [{ id := t.nextId, issued := t.now, due := t.now, core := (waveOf t u).core
                           seat := some (waveOf t u).seat, wave := u, eff := .dead }] }) s2) g

/-- The waves and saved waves that wait for a text request. -/
def waitsText (w : Wave) (r : Nat) : Bool := w.fetch.any (fun f => decide (f.seq = r))

/-- A text request's reply filed with the waves that wait for it, in the context or in its image (R345). -/
def fileReply (s : State) (r : Nat) : State :=
  let file (w : Wave) : Wave := if waitsText w r then { w with fetch := w.fetch.map (fun f => { f with filed := true }) } else w
  { s with
    waves := s.waves.map (fun x => (x.1, file x.2))
    images := s.images.map (fun x => (x.1, { x.2 with waves := x.2.waves.map (fun w => (w.1, file w.2)) })) }

/-- TEXT_PAGE_INSTALL (R144): the control core installs a valid entry for a requested page, or finds no text and ends
the grid with FETCH_UNMAPPED. A reply for which no wave waits is discarded (R345). Log entry 74 (DESIGN CHOICE). -/
def execTextPageInstall (r : Nat) (pte : Option DWord) (s : State) : Host.Outcome State Fault Refusal :=
  let all := s.waves.map (·.2) ++ s.images.flatMap (fun x => x.2.waves.map (·.2))
  match all.find? (fun w => waitsText w r) with
  | none => .next s
  | some w =>
    let va := (w.fetch.elim 0 (fun f => f.page)) * 0x10000
    if !controlled s w.part then .refused (.notEnabled "TEXT_PAGE_INSTALL")
    else match pte with
    | none =>
      .next (endGrid s w.grid { hubEvent s w.part .fetchUnmapped 3 with
        addr := va, grid := (gridOf s w.grid).handle, ctx := w.ctx, asid := (ctxOf s w.ctx).asid })
    | some x =>
      let s1 := match stopEntry s va 3 (ctxOf s w.ctx).root with
        | some a => outsideWrite s w.part .clean (some (hostHead w.part)) (addrBytes a (toBytes 8 x.toNat))
        | none => s
      match walkFrom s1 va 3 (ctxOf s1 w.ctx).root with
      | .leaf _ _ => .next (fileReply s1 r)
      | _ => .refused (.notEnabled "TEXT_PAGE_INSTALL")

/-- Whether a cached translation lies in an invalidated range (R206). -/
def invalidates (p : Nat) (asid : Option Nat) (va len : Nat) (e : TlbEntry) : Bool :=
  decide (e.part = p) && (asid.isNone || decide (some e.asid = asid)) &&
  decide (e.page * pageSize e.level < va + len ∧ va < (e.page + 1) * pageSize e.level)

/-- Whether a core has an access outstanding. -/
def coreBusy (s : State) (c : Nat) : Bool :=
  s.held.any (fun h => decide (h.core = c)) || s.waves.any (fun w => decide (w.2.core = c) && !w.2.ops.isEmpty) ||
  (coreOf s c).queues.any (fun q => !q.entries.isEmpty)

/-- TLBINV (R206, R209): the new entry is written, every core drops its matching entries, and those that had one have
performed their accesses; refused where the range overlaps a live lease. -/
def execTlbinv (p : Nat) (asid : Option Nat) (va len pa : Nat) (pte : DWord) (s : State) : Host.Outcome State Fault Refusal :=
  let live := s.grids.any (fun g => decide (g.2.part = p) && (asid.isNone || decide (some (ctxOf s g.2.ctx).asid = asid)) &&
    ((g.2.launch.spillBase, g.2.launch.spillBytes * g.2.launch.spillAreas) :: g.2.launch.leases).any
      (fun r => decide (r.1 < va + len ∧ va < r.1 + r.2)))
  let mine := s.cores.filter (fun c => (partOf s p).dies.contains (dieOfCore c.1) && c.2.tlb.any (invalidates p asid va len))
  if (mget s.parts p).isNone ∨ !controlled s p ∨ live ∨ mine.any (fun c => coreBusy s c.1) then .refused (.notEnabled "TLBINV")
  else if !realAddress pa 8 then .fault .noSuchAddress
  else
    let s1 := outsideWrite s p .clean (some (hostHead p)) (addrBytes pa (toBytes 8 pte.toNat))
    .next { s1 with cores := s1.cores.map (fun c => if (partOf s p).dies.contains (dieOfCore c.1) then
      (c.1, { c.2 with tlb := c.2.tlb.filter (fun e => !invalidates p asid va len e) }) else c) }

/-! ### Gating and events (R364, R365, R367) -/

/-- Whether a partition keeps its hub die awake (R365). -/
def partBusy (s : State) (p : Nat) : Bool :=
  s.blocks.any (fun b => decide ((gridOf s b.2.grid).part = p)) || s.grids.any (fun g => decide (g.2.part = p)) ||
  s.waves.any (fun w => decide (w.2.part = p) && w.2.fetch.isSome) || s.ports.any (fun w => decide (w.part = p)) ||
  !(partOf s p).pending.isEmpty || !(partOf s p).ring.isEmpty

/-- HUB_DIE_GATE (R365): idle for the interval of every partition homed there, without a guest in it. -/
def execHubDieGate (h : Nat) (s : State) : Host.Outcome State Fault Refusal :=
  let hub := hubOf s h
  let ps := homedOn s h
  let idle (p : Nat) : Bool :=
    let x := partOf s p
    decide (x.idle ≠ 0 ∧ x.idleSince + x.idle ≤ s.now) && !partBusy s p
  if h < 2 ∧ !hub.gated ∧ !hub.stopped ∧ hub.guests.isEmpty ∧ !ps.isEmpty ∧ ps.all idle then
    .next (ps.foldl (fun t p => modPart t p (fun x => { x with gated := true }))
      (modHub s h (fun x => { x with gated := true, waking := false })))
  else .refused (.notEnabled "HUB_DIE_GATE")

/-- Whether a gated die has a cause to wake: a wake source, or an event of severity 1 or above. -/
def wakes (s : State) (h : Nat) : Bool :=
  (hubOf s h).waking || (homedOn s h).any (fun p => (partOf s p).pending.any (fun e => decide (1 ≤ e.severity)) || !(partOf s p).ring.isEmpty)

/-- HUB_DIE_UNGATE (R364, R365): the control pair and a worker core resume; held frames are replayed. -/
def execHubDieUngate (h : Nat) (s : State) : Host.Outcome State Fault Refusal :=
  if (hubOf s h).gated ∧ wakes s h then
    .next ((homedOn s h).foldl (fun t p => modPart t p (fun x => { x with gated := false, idleSince := t.now }))
      (modHub s h (fun x => { x with gated := false, waking := false, frames := x.frames ++ x.heldFrames, heldFrames := [] })))
  else .refused (.notEnabled "HUB_DIE_UNGATE")

/-- The place of the next event in a partition's event ring in host memory (R202, R367). Log entry 105 (DESIGN CHOICE). -/
def eventPlace (x : Partition) (p : Nat) : Nat :=
  2 ^ 48 + 64 * ((Config.eventRing p + x.events.length % (Config.eventSlots p + 1)) % 2 ^ 42)

/-- Whether the event ring has room: the host has taken enough of the events written to it (R367).
Log entry 105 (DESIGN CHOICE). -/
def eventRoom (s : State) (x : Partition) (p : Nat) : Bool :=
  decide (x.events.length < Config.eventsTaken p s.now + Config.eventSlots p + 1)

/-- The buffered event that goes to the ring next: by source id, then sequence number (R367). -/
def nextEvent (l : List Event) : Option Event :=
  l.foldl (fun m e => match m with
    | none => some e
    | some y => if e.src < y.src ∨ (e.src = y.src ∧ e.seq < y.seq) then some e else some y) none

/-- EVENT_RING_WRITE (R330, R367): the 64 bytes of one buffered event are written to the ring, if it has room. -/
def execEventRingWrite (p : Nat) (s : State) : Host.Outcome State Fault Refusal :=
  let x := partOf s p
  match nextEvent x.pending with
  | some e =>
    if x.gated ∨ !eventRoom s x p then .refused (.notEnabled "EVENT_RING_WRITE")
    else .next (modPart { s with mem := memWrite s.mem (addrBytes (eventPlace x p) (eventBytes e)) } p
      (fun x => { x with pending := x.pending.erase e, events := x.events ++ [eventBytes e] }))
  | none => .refused (.notEnabled "EVENT_RING_WRITE")

/-! ### Attestation, assignment, control pairs (R353, R360, R361) -/

/-- The stable words of a partition now (R366). -/
def stableWords (s : State) (p : Nat) : List Word :=
  [BitVec.ofNat 32 (0x0E08 * 65536 + Config.stepping.toNat), 0x10000, 0x10001, 0x3F, BitVec.ofNat 32 (128 * 65536 + 32),
    BitVec.ofNat 32 (partOf s p).dies.length, 0, 0, 0, 0, 0, 0, 0, 0, 0, 0]

/-- The measurements of a report (R361). -/
def measures (s : State) (p : Nat) : List Nat :=
  [Config.firmwareMeasure 0, Config.firmwareMeasure 1] ++ (List.range Config.dieCount).map (fun d => (dieOf s d).fuses.toNat) ++
  (partOf s p).dies ++ (partOf s p).hmap.map (fun h => h.2.toNat) ++ [s.mplan.toNat] ++ (stableWords s p).map (·.toNat)

/-- ATTESTATION_REQUEST (R9, R361): the report, with the signed device identity and its own signature, is in the function's
mailbox. Log entry 15 (DESIGN CHOICE). -/
def execAttestationRequest (p : Nat) (s : State) : Host.Outcome State Fault Refusal :=
  if (mget s.parts p).isSome then
    let m := Config.identity :: measures s p
    .next (modPart (wakeHub s (partOf s p).hub) p (fun x => { x with report := m ++ [Config.signature m] }))
  else .refused (.notEnabled "ATTESTATION_REQUEST")

/-- TDISP_ASSIGN (R360, R365): a function is assigned to a confidential guest's world, or released; the idle interval of the
hub die begins again. -/
def execTdispAssign (p : Nat) (world : Option Nat) (s : State) : Host.Outcome State Fault Refusal :=
  let ok : Bool := match world with
    | some w => decide (1 ≤ w ∧ w ≤ 255)
    | none => true
  if (mget s.parts p).isSome ∧ ok then
    let old := (partOf s p).world
    let h := (partOf s p).hub
    let s1 := modHub s h (fun h => { h with guests := match world with
      | some w => w :: h.guests
      | none => h.guests.filter (fun g => !decide (some g = old)) })
    let s2 := { s1 with streams := mmod s1.streams p (fun x => { x with world := world.getD 0 })
                        parts := s1.parts.map (fun x => if x.2.hub = h then (x.1, { x.2 with idleSince := s.now }) else x) }
    .next (modPart s2 p (fun x => { x with world := world }))
  else .refused (.notEnabled "TDISP_ASSIGN")

/-- CONTROL_MISMATCH (R9, R353): the halves of a control pair disagree and stop; the other hub die's pair takes its
partitions over, if it runs and its firmware image verifies. What the stopped pair had itself taken over is served by
nobody until its home pair returns. Log entry 104 (DEDUCED). -/
def execControlMismatch (h : Nat) (s : State) : Host.Outcome State Fault Refusal :=
  if h < 2 ∧ !(hubOf s h).stopped then
    let takes := Config.firmwareVerifies (1 - h) && !(hubOf s (1 - h)).stopped
    let s1 := modHub (wakeHub s (1 - h)) h (fun x => { x with stopped := true, stoppedAt := s.now })
    let s2 := (homedOn s (1 - h)).foldl (fun t p => modPart t p (fun x => { x with takenOver := false })) s1
    .next ((homedOn s h).foldl (fun t p => postEvent (modPart t p (fun x => { x with takenOver := takes })) p
      { src := 0x1000 + h, seq := 0, time := 0, cause := .controlMismatch, severity := 2 }) s2)
  else .refused (.notEnabled "CONTROL_MISMATCH")

/-- HUB_DIE_RESET (R353): after every partition homed there is reset, the stopped pair returns; it runs no firmware image
whose signature does not verify (R9). -/
def execHubDieReset (h : Nat) (s : State) : Host.Outcome State Fault Refusal :=
  let hub := hubOf s h
  let ps := homedOn s h
  if hub.stopped ∧ ps.all (fun p => decide (hub.stoppedAt < (partOf s p).born)) then
    if Config.firmwareVerifies h then
      .next (ps.foldl (fun t p => modPart t p (fun x => { x with takenOver := false })) (modHub s h (fun x => { x with stopped := false })))
    else .next s
  else .refused (.notEnabled "HUB_DIE_RESET")

end Sys2Proof.Machine
end

