-- ==== Sys2Proof/Machine/Host.lean ====
section
/-! DEFINITION. Host commands and partitions: the command ring (R355, R363), contexts (R205, R355), launches (R276), saves
(R370) and restores (R346, R378), ingress windows (R356, R357), decks (R282), streams (R362), peers (R358, R361), the
Trump controls (R309), wake filters (R364, R365), and forming, resetting and dissolving a partition (R351, R352). -/

namespace Sys2Proof.Machine

/-! ### The command ring (R355) -/

/-- What a command comes to: it completes now with a status and the bytes its event adds, or it completes later. -/
inductive Reply where
  | done (s : State) (status : Nat) (more : List Nat)
  | later (s : State)

/-- The bytes of a record's fields as one number, to test that they are zero. -/
def zeroBytes (l : List Byte) (rs : List (Nat × Nat)) : Nat :=
  rs.foldl (fun n r => n + fieldAt l r.1 (r.2 + 1 - r.1)) 0

/-- The command that a 64-byte record holds, and the bytes of its arguments that must be zero, as ranges. R355 fixes bytes 0
to 7, R365 command 0x0C, R370 command 0x03, R378 command 0x04; the places of the other commands' fields are the model's.
Log entry 66 (DESIGN CHOICE). -/
def commandOf (l : List Byte) : HostCmd × List (Nat × Nat) :=
  let f := fieldAt l
  match f 0 2 with
  | 0x01 => (.createContext (f 8 1) (f 16 8) (BitVec.ofNat 64 (f 24 8)) (f 32 8) (f 40 8), [(9, 15), (48, 63)])
  | 0x02 => (.launchGrid (f 8 2) (f 16 8) (f 10 2), [(12, 15), (24, 63)])
  | 0x03 => (.save (f 8 2) (f 12 4) (f 16 4) (f 20 1), [(10, 11), (21, 63)])
  | 0x04 => (.launchImage (f 8 2) (f 12 4) (f 16 8), [(10, 11), (24, 63)])
  | 0x05 => (.openWindow (f 8 2) (f 16 8) (f 24 8) (f 32 8) (f 10 1) (f 12 4) (f 40 8) (f 48 4)
      ((List.range (f 11 1)).map (fun k => f (52 + 2 * k) 2)), [(60, 63)])
  | 0x06 => (.closeWindow (f 16 8), [(8, 15), (24, 63)])
  | 0x07 => (.configureDeck (f 8 1) (f 9 1) (f 10 1), [(11, 63)])
  | 0x08 => (.keyStream (f 8 4) (f 16 32), [(12, 15), (48, 63)])
  | 0x09 => (.takePeer (f 8 1) (f 9 1) (f 12 4), [(10, 11), (16, 63)])
  | 0x0A => (.removePeer (f 8 1), [(9, 63)])
  | 0x0B => (.trumpControls (bitAt (f 8 1) 0) (f 12 4), [(9, 11), (16, 63)])
  | 0x0C => (.wakeFilter (f 8 1) (f 9 1) (f 10 1) (f 12 16) (f 28 16), [(11, 11), (44, 63)])
  | 0x0D => (.resetPartition, [(8, 63)])
  | n => (.unknown n, [])

/-- A command record as the worker core reads it from its 64 bytes (R355). -/
def hostRecord (l : List Byte) : HostRecord :=
  let c := commandOf l
  { tag := BitVec.ofNat 32 (fieldAt l 4 4), pad := zeroBytes l ((2, 3) :: c.2), cmd := c.1 }

/-- Completes the commands at the head of a ring whose opcode the table of R355 does not have: they are malformed. -/
def skipUnknown : List HostRecord → State → Nat → State
  | [], s, _ => s
  | r :: rest, s, p =>
    match r.cmd with
    | .unknown _ =>
      skipUnknown rest (commandDone (modPart s p (fun x => { x with ring := rest, progress := s.now })) p r.tag 2 []) p
    | _ => s

/-- Takes the command at the head of a partition's ring: `f` answers none where it is another row's command or cannot go
on yet. A record whose bytes 2 and 3 or other zero fields are not zero is malformed. Log entry 67 (DEDUCED). -/
def command (s : State) (p : Nat) (name : String) (f : State → HostRecord → Option Reply) :
    Host.Outcome State Fault Refusal :=
  let x := partOf s p
  match x.ring with
  | r :: rest =>
    if !x.ready || (hubOf s x.hub).gated || !controlled s p then .refused (.notEnabled name)
    else
      let s1 := modPart s p (fun y => { y with ring := rest, progress := s.now })
      match f s1 r with
      | none => .refused (.notEnabled name)
      | some y =>
        let t := if r.pad ≠ 0 then commandDone s1 p r.tag 2 [] else
          match y with
          | .done t st more => commandDone t p r.tag st more
          | .later t => t
        .next (skipUnknown (partOf t p).ring t p)
  | [] => .refused (.notEnabled name)

/-- A command is refused. -/
def refuse (s : State) : Option Reply := some (.done s 1 [])
/-- A command is malformed. -/
def malformed (s : State) : Option Reply := some (.done s 2 [])

/-- Whether a function accepts commands for a world: the world it is assigned to, or else world 0 (R355, R360).
Log entry 71 (DEDUCED). -/
def worldOpen (s : State) (p world : Nat) : Bool := decide (world = (partOf s p).world.getD 0)

/-- Whether a command may name a context (R355). -/
def contextOpen (s : State) (p ctx : Nat) : Bool :=
  match mget s.ctxs ctx with
  | some x => decide (x.part = p) && worldOpen s p x.world
  | none => false

/-- DOORBELL_WRITE (R355, R365): the ring is announced to a worker core, with the 64-byte records that stand in it; the
function must be ready (R352, R363). Log entry 66 (DESIGN CHOICE). -/
def execDoorbellWrite (p : Nat) (records : List (List Byte)) (s : State) : Host.Outcome State Fault Refusal :=
  let x := partOf s p
  if (mget s.parts p).isSome ∧ x.ready ∧ records.all (fun l => decide (l.length = 64)) then
    let s1 := modPart (wakeHub s x.hub) p (fun y => { y with
      ring := y.ring ++ records.map hostRecord, progress := if y.ring.isEmpty then s.now else y.progress
      idleSince := s.now })
    .next (skipUnknown (partOf s1 p).ring s1 p)
  else .refused (.notEnabled "DOORBELL_WRITE")

/-! ### Contexts (R355) -/

/-- The lowest number from `lo` up to `hi` that a list does not hold. -/
def lowestFree (l : List Nat) (lo hi : Nat) : Option Nat :=
  (List.range (Nat.min (hi - lo) (l.length + 1))).findSome? (fun k => if l.contains (lo + k) then none else some (lo + k))

/-- The pages that a range of addresses touches, by number. -/
def rangePages (base len : Nat) : List Nat :=
  if len = 0 then [] else (List.range ((base + len - 1) / 65536 + 1 - base / 65536)).map (fun k => base / 65536 + k)

/-- Whether every page of a save area is a page of a world (R355). -/
def areaInWorld (s : State) (root world base len : Nat) : Bool :=
  (rangePages base len).all (fun k => match walkFrom s (65536 * k) 3 root with
    | .leaf pte _ => decide (bits pte.toNat 59 52 = world)
    | _ => false)

/-- CREATE_CONTEXT (R205, R208, R355, R366); a root table that reaches past the HBM is refused (R6).
Log entry 87 (PRESUMED). -/
def execCreateContext (p : Nat) (s : State) : Host.Outcome State Fault Refusal :=
  command s p "CREATE_CONTEXT" (fun s1 r =>
    match r.cmd with
    | .createContext world root pkr base len =>
      if len % 65536 ≠ 0 then malformed s1
      else if !worldOpen s1 p world || !areaInWorld s1 root world base len || pastHbm root (levelBytes 3) then refuse s1
      else match lowestFree (s1.ctxs.map (·.1)) 1 65536, lowestFree (s1.ctxs.map (fun x => x.2.asid)) 0 4096 with
        | some n, some a =>
          let c : Context := { part := p, asid := a, world := world, root := root, pkr := pkr, saveBase := base
                               saveLen := len, stable := stableWords s1 p }
          some (.done { s1 with ctxs := mset s1.ctxs n c } 0 [n])
        | _, _ => refuse s1
    | _ => none)

/-! ### Launches from the host (R276, R355) -/

/-- Whether the control complex may read a byte of a context: a valid translation that permits reads, the context's keys
and its world (R210, R355). -/
def hostReads (s : State) (ctx va : Nat) : Option Nat :=
  let c := ctxOf s ctx
  match walkFrom s va 3 c.root with
  | .leaf pte level =>
    let x := pte.toNat
    let pa := physical pte level va
    let peer := decide (regionOf pa ≠ 2) || (mgetD (partOf s c.part).roster (bits pa 47 44) {}).present
    if bitAt x 1 && !c.pkr.getLsbD (2 * bits x 9 5) && (bitAt x 61 || decide (bits x 59 52 = c.world)) && peer then some pa
    else none
  | _ => none

/-- The state once the errors of some bytes of a context's memory are found as they are read (R320). -/
def findBytes (s : State) (p ctx va n : Nat) : State :=
  readMemory s p ((List.range n).filterMap (fun k => contextPa s ctx (va + k)))

/-- Bytes of a context as the control complex reads them. -/
def hostBytes (s : State) (ctx va n : Nat) : Option (List Byte) :=
  let ps := (List.range n).map (fun k => hostReads s ctx (va + k))
  if ps.all (·.isSome) then some (ps.map (fun x => memGet s.mem (x.getD 0))) else none

/-- The length of a cohort list by its first bytes. -/
def listLength (l : List Byte) : Nat := 64 * (1 + Nat.min 256 (fieldAt l 0 4))

/-- A cohort list as the control complex reads it. -/
def hostList (s : State) (ctx va : Nat) : Option (List Byte) :=
  (hostBytes s ctx va 64).bind (fun l => hostBytes s ctx va (listLength l))

/-- LAUNCH_GRID (R276, R320, R355). -/
def execLaunchGrid (p : Nat) (s : State) : Host.Outcome State Fault Refusal :=
  command s p "LAUNCH_GRID" (fun s1 r =>
    match r.cmd with
    | .launchGrid ctx rec queue =>
      if 255 < queue ∨ rec % 64 ≠ 0 then malformed s1
      else if !contextOpen s1 p ctx then refuse s1
      else match hostBytes s1 ctx rec 256 with
        | none => some (.done s1 1 [0, 0])
        | some l =>
          let addr := fieldAt l 48 8
          let list := if addr = 0 then none else hostList s1 ctx addr
          let s2 := findBytes s1 p ctx rec 256
          let y := enqueueGrid (list.elim s2 (fun x => findBytes s2 p ctx addr x.length)) p ctx queue l list []
          some (.done y.2.2 (if y.1 = 0 then 0 else 1) [y.1, y.2.1])
    | _ => none)

/-! ### Saves and restores (R370, R378) -/

/-- Whether a command names a block. -/
def namesBlock (s : State) (ctx grid block : Nat) (b : Block) : Bool :=
  let g := gridOf s b.grid
  decide (g.ctx = ctx) && (decide (grid = 0) || decide (g.handle = grid)) &&
  (decide (block = 0) || decide (b.index + 1 = block) ||
    (g.launch.partnered && decide (b.index / 2 = (block - 1) / 2)))

/-- A block joins a save command: its request is made, or the request it has counts for the command too, with the
command's reason (R341, R344). -/
def joinSave (s : State) (reason n : Nat) (k : Nat) : State :=
  if (blockOf s k).preempt.isNone then acceptPreempt s k reason [n]
  else modBlock s k (fun b => { b with preempt := b.preempt.map (fun r => { r with reason := reason, cmds := r.cmds ++ [n] }) })

/-- SAVE (R341, R370). -/
def execSave (p : Nat) (s : State) : Host.Outcome State Fault Refusal :=
  command s p "SAVE" (fun s1 r =>
    match r.cmd with
    | .save ctx grid block reason =>
      if (block ≠ 0 ∧ grid = 0) ∨ reason < 1 ∨ 2 < reason then malformed s1
      else if !contextOpen s1 p ctx then refuse s1
      else
        let ks := ((s1.blocks.filter (fun b => namesBlock s1 ctx grid block b.2)).map (·.1)).filter (fun k => !unitOver s1 k)
        let n := s1.nextId
        let x : SaveCmd := { id := n, host := r.tag, reason := reason, many := decide (block = 0), left := ks.length }
        let s2 := modPart { s1 with nextId := n + 1 } p (fun q => { q with saves := q.saves ++ [x] })
        some (.later (settleSave (ks.foldl (fun t k => joinSave t reason n k) s2) p x))
    | _ => none)

/-- The image of a context at a record address that has not been launched. -/
def imageAt (s : State) (ctx va : Nat) : Option (Nat × Image) :=
  s.images.find? (fun x => decide (x.2.ctx = ctx ∧ x.2.record = va) && !x.2.launched)

/-- Bytes at a context's virtual address under its translation. -/
def contextBytes (s : State) (ctx va n : Nat) : Option (List Byte) :=
  let ps := (List.range n).map (fun k => contextPa s ctx (va + k))
  if ps.all (·.isSome) then some (ps.map (fun x => memGet s.mem (x.getD 0))) else none

/-- Whether the check word of a record is that of its image's body (R346). -/
def imageGood (s : State) (x : Image) : Bool :=
  match contextBytes s x.ctx x.record 64, contextBytes s x.ctx x.body x.bytes with
  | some r, some b => decide (fieldAt r 60 4 = (bodyCheck b).toNat)
  | _, _ => false

/-- The check word of a record against the body that the record names (R344, R346). -/
def recordGood (s : State) (ctx : Nat) (r : List Byte) : Bool :=
  match contextBytes s ctx (fieldAt r 48 8) (fieldAt r 56 4) with
  | some b => decide (fieldAt r 60 4 = (bodyCheck b).toNat)
  | none => false

/-- Whether two records are those of a partnered pair: the same grid, and block indices that differ in bit 0 alone (R378). -/
def recordMates (x y : List Byte) : Bool :=
  bitAt (fieldAt x 30 1) 1 && decide (fieldAt x 16 4 = fieldAt y 16 4 ∧ fieldAt x 20 4 / 2 = fieldAt y 20 4 / 2 ∧
    fieldAt x 20 4 ≠ fieldAt y 20 4)

/-- Whether a record that is no image of this device's is launched alone, or the record of its partner is named too. -/
def mateNamed (s : State) (ctx : Nat) (vs : List Nat) (r : List Byte) : Bool :=
  !bitAt (fieldAt r 30 1) 1 || vs.any (fun v => (contextBytes s ctx v 64).any (recordMates r))

/-- What the body that a record names spells. -/
def recordContents (s : State) (ctx : Nat) (r : List Byte) : Saved :=
  Config.imageContents ((contextBytes s ctx (fieldAt r 48 8) (fieldAt r 56 4)).getD [])

/-- Whether both records of a partnered pair are named (R378). Log entry 65 (DEDUCED). -/
def partnerNamed (s : State) (ctx : Nat) (vs : List Nat) (x : Nat × Image) : Bool :=
  (imageUnit s x.1).all (fun n => match mget s.images n with
    | some y => decide (y.ctx = ctx) && vs.contains y.record
    | none => false) &&
  decide ((imageUnit s x.1).length = if (gridOf s x.2.block.grid).launch.partnered then 2 else 1)

/-- What a saved wave holds is free: its spill area and its drawn items; the completion of its grid covers what it
performed (R278). -/
def dropSaved (s : State) (w : Wave) : State :=
  modGrid (releaseDrawn s w.part w.drawn) w.grid (fun g => { g with
    areas := g.areas.filter (fun n => !decide (some n = w.spillArea)), doneClock := clockJoin g.doneClock (performedClock w) })

/-- A block that is not restored: it counts as faulted (R337, R346). -/
def dropImage (s : State) (n : Nat) : State :=
  match mget s.images n with
  | none => s
  | some x =>
    let g := x.block.grid
    let s1 := x.waves.foldl (fun t w => dropSaved t w.2) { s with images := mdel s.images n }
    checkGrid (gridError (modGrid s1 g (fun y => { y with saved := y.saved - 1 })) g) g

/-- The IMAGE_CHECK record of a record address: its grid and block (R346). -/
def checkRecord (s : State) (p ctx va grid block : Nat) : State :=
  postEvent s p { hubEvent s p .imageCheck 2 with
    addr := va, grid := grid, ctx := ctx, asid := (ctxOf s ctx).asid, detail := block }

/-- The grid of a handle in a context. -/
def gridOfHandle (s : State) (ctx h : Nat) : Option Nat :=
  (s.grids.find? (fun g => decide (g.2.ctx = ctx ∧ g.2.handle = h))).map (·.1)

/-- The image of a record that is no image of this device's, of grid `g`: what the record says, and what its body spells.
Its block and waves take new numbers. Log entry 65 (DEDUCED). -/
def foreignImage (s : State) (p ctx va g : Nat) (r : List Byte) : State :=
  let y := recordContents s ctx r
  let n := s.nextId
  let ws := (numbered y.waves).map (fun x => (n + 2 + x.1, { x.2 with grid := g, ctx := ctx, part := p, block := some (n + 1) }))
  let kind : PlaceKind := if bitAt (fieldAt r 30 1) 0 then .dummy else if bitAt (fieldAt r 30 1) 1 then .declarer else .single
  let b := { y.block with
    grid := g, index := fieldAt r 20 4, kind := kind, partner := none, preempt := none, redundant := none
    spadLen := fieldAt r 36 4, tileLen := fieldAt r 40 4, accs := fieldAt r 44 1
    members := ws.map (fun w => (w.1, { f := [0, 0, 0, 0], e := [0, 0, 0, 0] })) }
  let x : Image := { ctx := ctx, bid := n + 1, record := va, body := fieldAt r 48 8, bytes := fieldAt r 56 4, seq := fieldAt r 0 8
                     block := b, waves := ws, reason := fieldAt r 31 1, need := fieldAt r 34 2
                     crc := BitVec.ofNat 32 (fieldAt r 60 4), stable := y.stable, launched := true }
  modGrid { s with nextId := n + 2 + ws.length, images := mset s.images n x } g (fun z => { z with saved := z.saved + 1 })

/-- The grid that a record names, made if this device does not hold it: all its blocks are dealt (R346). -/
def foreignGrid (s : State) (p ctx : Nat) (r : List Byte) : Nat × State :=
  match gridOfHandle s ctx (fieldAt r 16 4) with
  | some g => (g, s)
  | none =>
    let l := (recordContents s ctx r).launch
    (s.nextId, { s with
      nextId := s.nextId + 1
      grids := mset s.grids s.nextId { handle := fieldAt r 16 4, part := p, ctx := ctx, launch := l, state := 1, eligible := true
                                       nextBlock := l.size } })

/-- Checks a record that is no image of this device's (a live migration's, or one launched before): it is queued, or the
block of its grid counts as faulted (R346, R366). -/
def takeForeign (s : State) (p ctx va : Nat) (good : Bool) : State :=
  let r := (contextBytes s ctx va 64).getD []
  if good then
    let g := foreignGrid s p ctx r
    foreignImage g.2 p ctx va g.1 r
  else
    let s1 := if recordGood s ctx r then s else checkRecord s p ctx va (fieldAt r 16 4) (fieldAt r 20 4)
    match gridOfHandle s1 ctx (fieldAt r 16 4) with
    | some g => checkGrid (gridError s1 g) g
    | none => s1

/-- Checks one record and queues its block, or drops it; the counts of blocks queued and not restored. The blocks of a
pair go together. Log entry 65 (DEDUCED). -/
def takeImage (ctx p : Nat) (vs : List Nat) (a : State × Nat × Nat) (va : Nat) : State × Nat × Nat :=
  let s := a.1
  match s.images.find? (fun x => decide (x.2.ctx = ctx ∧ x.2.record = va)) with
  | some (n, x) =>
    let mates := (imageUnit s n).filterMap (mget s.images)
    if x.launched then a
    else if mates.all (imageGood s) then
      ({ s with images := mset s.images n { x with launched := true } }, a.2.1 + 1, a.2.2)
    else
      let s1 := if imageGood s x then s else checkRecord s p ctx va (gridOf s x.block.grid).handle x.block.index
      (s1, a.2.1, a.2.2 + 1)
  | none =>
    let r := (contextBytes s ctx va 64).getD []
    let mates := (vs.map (fun v => (contextBytes s ctx v 64).getD [])).filter (recordMates r)
    let good := (r :: mates).all (recordGood s ctx)
    (takeForeign s p ctx va good, a.2.1 + (if good then 1 else 0), a.2.2 + if good then 0 else 1)

/-- The records of a list of addresses that are no images of this device's. -/
def foreignRecords (s : State) (ctx : Nat) (vs : List Nat) : List (List Byte) :=
  (vs.filter (fun v => !s.images.any (fun x => decide (x.2.ctx = ctx ∧ x.2.record = v)))).filterMap
    (fun v => contextBytes s ctx v 64)

/-- LAUNCH_IMAGE (R320, R346, R366, R378). Log entry 65 (DEDUCED). -/
def execLaunchImage (p : Nat) (s : State) : Host.Outcome State Fault Refusal :=
  command s p "LAUNCH_IMAGE" (fun s1 r =>
    match r.cmd with
    | .launchImage ctx count arr =>
      if count = 0 ∨ 4096 < count then malformed s1
      else if !contextOpen s1 p ctx then refuse s1
      else match contextBytes s1 ctx arr (8 * count) with
        | none => refuse s1
        | some l =>
          let vs := ((List.range count).map (fun k => fieldAt l (8 * k) 8)).eraseDups
          if vs.any (fun v => decide (v % 64 ≠ 0)) then malformed s1
          else
            let xs := vs.filterMap (imageAt s1 ctx)
            let rs := foreignRecords s1 ctx vs
            let s2 := vs.foldl (fun t v => findBytes t p ctx v 64) (findBytes s1 p ctx arr (8 * count))
            if vs.any (fun v => (contextBytes s1 ctx v 64).isNone) ||
                xs.any (fun x => decide (x.2.stable ≠ stableWords s1 p) || !partnerNamed s1 ctx vs x) ||
                rs.any (fun r => !mateNamed s1 ctx vs r ||
                  (recordGood s1 ctx r && decide ((recordContents s1 ctx r).stable ≠ stableWords s1 p))) then refuse s2
            else
              let y := vs.foldl (takeImage ctx p vs) (s2, 0, 0)
              let bad := (xs.filter (fun x => !(mgetD y.1.images x.1 x.2).launched)).map (·.1)
              some (.done (bad.foldl dropImage y.1) 0 [y.2.1, y.2.2])
    | _ => none)

/-! ### Ingress windows (R356, R357) -/

/-- Whether every page of a window lies in a lease of a context's grids and has the ingress bit (R214, R356). -/
def windowLeased (s : State) (ctx base len : Nat) : Bool :=
  let leases := s.grids.flatMap (fun g => if g.2.ctx = ctx then g.2.launch.leases else [])
  (rangePages base len).all (fun k =>
    leases.any (fun r => decide (r.1 ≤ 65536 * k ∧ 65536 * (k + 1) ≤ r.1 + r.2)) &&
    (match walkFrom s (65536 * k) 3 (ctxOf s ctx).root with
      | .leaf pte _ => bitAt pte.toNat 60
      | _ => false))

/-- Whether an open window stands in the way of a new one: its range in the same context, or its aperture. -/
def windowClash (ctx base len aperture size : Nat) (w : Window) : Bool :=
  w.opened && (decide (w.ctx = ctx ∧ w.base < base + len ∧ base < w.base + w.len) ||
    decide (w.aperture < aperture + size ∧ aperture < w.aperture + w.q * 2 ^ w.slotLog))

/-- The status granule of a new window (R214): 64 bytes. -/
def statusBytes (w : Window) : List Byte :=
  toBytes 8 w.s0 ++ toBytes 8 w.s0 ++ toBytes 4 w.slotLog ++ toBytes 4 w.q ++ toBytes 8 w.release ++ toBytes 32 0

/-- OPEN_INGRESS_WINDOW (R214, R356). -/
def execOpenIngressWindow (p : Nat) (s : State) : Host.Outcome State Fault Refusal :=
  command s p "OPEN_INGRESS_WINDOW" (fun s1 r =>
    match r.cmd with
    | .openWindow ctx base len s0 slot q release aperture reqs =>
      let size := q * 2 ^ slot
      let ws := (partOf s1 p).windows
      if base % 65536 ≠ 0 ∨ len % 65536 ≠ 0 ∨ slot < 12 ∨ 24 < slot ∨ q = 0 ∨ 4 < reqs.length then malformed s1
      else if !contextOpen s1 p ctx || !windowLeased s1 ctx base len || ws.any (windowClash ctx base len aperture size) ||
          decide (2 ^ 30 < aperture + size ∨ len < 65536 + size) then refuse s1
      else
        let keep := ws.filter (fun w => w.opened || !decide (w.ctx = ctx ∧ w.base < base + len ∧ base < w.base + w.len))
        match lowestFree (keep.map (fun w => w.index)) 0 4096 with
        | none => refuse s1
        | some n =>
          let w : Window := { ctx := ctx, base := base, len := len, s0 := s0, slotLog := slot, q := q, release := release
                              aperture := aperture, reqs := reqs, c := s0, index := n }
          some (.done (gateWrite (modPart s1 p (fun x => { x with windows := keep ++ [w] })) p w .clean none base (statusBytes w)) 0 [])
    | _ => none)

/-- CLOSE_INGRESS_WINDOW (R357): every frame that has not landed is dropped, then nothing more is admitted.
Log entry 68 (DEDUCED). -/
def execCloseIngressWindow (p : Nat) (s : State) : Host.Outcome State Fault Refusal :=
  command s p "CLOSE_INGRESS_WINDOW" (fun s1 r =>
    match r.cmd with
    | .closeWindow base =>
      match (partOf s1 p).windows.find? (fun w => w.opened && decide (w.base = base)) with
      | none => some (.done s1 0 [])
      | some w =>
        if !contextOpen s1 p w.ctx then refuse s1
        else
          let lost := w.slots.filter (fun x => match x.2.frame with
            | some f => decide (w.c ≤ f.1)
            | none => !x.2.bytes.isEmpty)
          let s2 := lost.foldl (fun t x => dropRecord t p w x.1) s1
          let s3 := w.waiting.foldl (fun t x => dropRecord t p w (x.off / 2 ^ w.slotLog)) s2
          some (.done (modWindow s3 p w.index (fun y => { y with opened := false, slots := [], waiting := [] })) 0 [])
    | _ => none)

/-! ### Decks, streams, peers, Trump, wake filters -/

/-- CONFIGURE_DECK (R282, R355). -/
def execConfigureDeck (p : Nat) (s : State) : Host.Outcome State Fault Refusal :=
  command s p "CONFIGURE_DECK" (fun s1 r =>
    match r.cmd with
    | .configureDeck d world c =>
      let x := mgetD (partOf s1 p).decks d {}
      if 63 < d ∨ 255 < world ∨ c < 8 ∨ 20 < c then malformed s1
      else if !x.items.isEmpty || decide (0 < x.heldItems) || !x.flying.isEmpty ||
          s1.grids.any (fun g => decide (g.2.part = p) && g.2.launch.decks.getLsbD d) then refuse s1
      else some (.done (modPart s1 p (fun q => { q with decks := mset q.decks d { world := world, cap := c } })) 0 [])
    | _ => none)

/-- KEY_STREAM (R359, R362): the stream stops and its drain begins; a stream that drains is keyed again after it. An
Ethernet or NVMe stream of the partition's hub die begins with its first key. Log entry 93 (DESIGN CHOICE). -/
def execKeyStream (p : Nat) (s : State) : Host.Outcome State Fault Refusal :=
  command s p "KEY_STREAM" (fun s1 r =>
    match r.cmd with
    | .keyStream n key =>
      match mget s1.streams n with
      | some x =>
        if x.part ≠ p ∨ x.world ≠ (partOf s1 p).world.getD 0 then refuse s1
        else if x.state = .draining then none
        else some (.later { s1 with
          streams := mset s1.streams n { x with state := .draining, newKey := key, at_ := s1.now, host := r.tag } })
      | none =>
        if deviceStream (partOf s1 p).hub n then
          let x : Stream := { part := p, world := (partOf s1 p).world.getD 0, key := none }
          some (.later { s1 with
            streams := mset s1.streams n { x with state := .draining, newKey := key, at_ := s1.now, host := r.tag } })
        else refuse s1
    | _ => none)

/-- ADMIT_PEER (R361): the peer's signed report meets the policy, its stream is keyed and its entry present under a new
generation; a failed step leaves the entry absent. Log entry 70 (DEDUCED). -/
def execAdmitPeer (p : Nat) (report : PeerReport) (s : State) : Host.Outcome State Fault Refusal :=
  command s p "ADMIT_PEER" (fun s1 r =>
    match r.cmd with
    | .takePeer e link policy =>
      if 15 < e ∨ 7 < link then malformed s1
      else if (mgetD (partOf s1 p).roster e {}).present || !report.signed || !Config.policyAccepts policy report.measures then
        refuse s1
      else
        let y : Roster := { link := link, identity := report.identity, world := report.world, measures := report.measures
                            present := true }
        let n := peerStream p e
        let x : Stream := { part := p, world := report.world, key := some (Config.sessionKey s1.nextId) }
        let s2 := modPart s1 p (fun q => { q with
          roster := mset q.roster e y, rosterGen := q.rosterGen + 1, cohorts := q.cohorts.map (fun c => (c.1, gainPeer e c.2)) })
        some (.done { s2 with nextId := s2.nextId + 1, streams := mset s2.streams n x
                              ports := s2.ports.filter (fun w => !decide (w.stream = n)) } 0 [])
    | _ => none)

/-- REMOVE_PEER (R281, R358): the entry is absent under a new generation, and its stream is closed.
Log entry 70 (DEDUCED). -/
def execRemovePeer (p : Nat) (s : State) : Host.Outcome State Fault Refusal :=
  command s p "REMOVE_PEER" (fun s1 r =>
    match r.cmd with
    | .removePeer e =>
      let y := mgetD (partOf s1 p).roster e {}
      if 15 < e then malformed s1
      else if !y.present && !y.gone then some (.done s1 0 [])
      else
        let s2 := if y.present then leaveRoster s1 p e false
          else modPart s1 p (fun q => { q with roster := mmod q.roster e (fun x => { x with gone := false }) })
        let s3 := modPart s2 p (fun q => { q with rosterGen := q.rosterGen + 1 })
        some (.done { s3 with streams := mmod s3.streams (peerStream p e) (fun x =>
          { x with state := .closed, key := none, sent := [] }) } 0 [])
    | _ => none)

/-- TRUMP_CONTROLS (R309): clearing the enable bit withdraws every entry of the partition. -/
def execTrumpControls (p : Nat) (s : State) : Host.Outcome State Fault Refusal :=
  command s p "TRUMP_CONTROLS" (fun s1 r =>
    match r.cmd with
    | .trumpControls on n =>
      if 65535 < n then malformed s1
      else if n = 0 then refuse s1
      else
        let s2 := modPart s1 p (fun q => { q with trump := on, trumpP := n })
        let off (t : State) (d : Nat) : State :=
          (List.range (dieOf t d).trump.length).foldl (fun t x => withdrawEntry t d x 5) t
        let up (t : State) (d : Nat) : State :=
          (List.range (dieOf t d).trump.length).foldl (fun t x => promoteIf t d x) t
        some (.done ((partOf s2 p).dies.foldl (if on then up else off) s2) 0 [])
    | _ => none)

/-- WAKE_FILTER_AND_IDLE_INTERVAL (R364, R365). -/
def execWakeFilterAndIdleInterval (p : Nat) (s : State) : Host.Outcome State Fault Refusal :=
  command s p "WAKE_FILTER_AND_IDLE_INTERVAL" (fun s1 r =>
    match r.cmd with
    | .wakeFilter ix interval off mask value =>
      if !(decide (interval = 0 ∨ interval = 0xFF ∨ (20 ≤ interval ∧ interval ≤ 34))) || decide (127 < off) then malformed s1
      else if 7 < ix then refuse s1
      else
        let s2 := modHub s1 (partOf s1 p).hub (fun h => { h with
          filters := mset h.filters ix { offset := off, mask := mask, value := value } })
        some (.done (modPart s2 p (fun q => { q with
          idle := if interval = 0xFF then q.idle else if interval = 0 then 0 else 2 ^ interval, idleSince := s1.now })) 0 [])
    | _ => none)

/-! ### Partition reset (R352) -/

/-- A core after the reset of its partition: no queue entry, lock, code or hotness is left; a quarantined core is
suspect (R327). -/
def resetCore (c : Core) : Core :=
  { c with
    queues := [], locks := [], code := [], array := {}, hot := [], samples := []
    health := if c.health = .quarantined then .suspect else c.health }

/-- The Trump state of a die after the reset of its partition (R298, R309). -/
def resetDie (d now : Nat) (x : Die) : Die :=
  { x with trump := [], barred := [], gen := Config.drawSeed ^^^ BitVec.ofNat 32 d, samples := [], trials := [], hotAt := now }

/-- The performed writes of a partition brought home in their order (R352). -/
def homeWrites (s : State) (p : Nat) : State :=
  let dies := (partOf s p).dies
  let s1 := (s.flights.filter (fun f => decide (f.2.part = p) && f.2.pos.isNone)).foldl (fun t f => applyHome t f.2 dies) s
  { s1 with flights := s1.flights.filter (fun f => !decide (f.2.part = p))
            lags := s1.lags.filter (fun l => !dies.contains l.die) }

/-- The partition's own fields after a reset. -/
def resetFields (now : Nat) (x : Partition) : Partition :=
  { x with
    born := now, trump := true, trumpP := Config.defaultP, trwd := 0, trcond := 0, draw := Config.drawSeed
    queues := [], done := [], cohorts := [], rounds := [], roster := [], rosterGen := 0, idle := 0, idleSince := now
    ring := [], progress := now, seqs := [], pending := [], saves := [], lastPlace := now
    decks := x.decks.map (fun d => (d.1, { d.2 with heldItems := 0, flying := [] }))
    windows := x.windows.map (fun w => { w with waiting := [] }), ready := !x.failed }

/-- Resets a partition (R352). Log entry 68 (DEDUCED). -/
def resetPart (s : State) (p : Nat) : State :=
  let dies := (partOf s p).dies
  let mine (c : Nat) : Bool := dies.contains (dieOfCore c)
  let s1 := homeWrites s p
  let gone := (s1.waves.filter (fun w => decide (w.2.part = p))).map (·.1)
  let shut (x : Nat × Stream) : Nat × Stream :=
    if x.2.part = p ∧ x.1 ≠ p then (x.1, { x.2 with state := .closed, key := none, sent := [] }) else x
  let s2 : State := { s1 with
    waves := s1.waves.filter (fun w => !decide (w.2.part = p))
    blocks := s1.blocks.filter (fun b => !mine b.2.core)
    images := s1.images.filter (fun x => !decide ((ctxOf s1 x.2.ctx).part = p))
    grids := s1.grids.filter (fun g => !decide (g.2.part = p))
    held := s1.held.filter (fun h => !mine h.core)
    tags := s1.tags.filter (fun t => !decide (t.2.part = p))
    ports := s1.ports.filter (fun w => !decide (w.part = p))
    undo := s1.undo.filter (fun u => !gone.contains u.wave)
    arrivals := s1.arrivals.filter (fun a => !gone.contains a.wave)
    streams := s1.streams.map shut
    cores := s1.cores.map (fun c => if mine c.1 then (c.1, resetCore c.2) else c) }
  modPart (dies.foldl (fun t d => modDie t d (resetDie d s.now)) s2) p (resetFields s.now)

/-- RESET_PARTITION (R352, R355). -/
def execResetPartition (p : Nat) (s : State) : Host.Outcome State Fault Refusal :=
  command s p "RESET_PARTITION" (fun s1 r =>
    match r.cmd with
    | .resetPartition => some (.done (resetPart s1 p) 0 [])
    | _ => none)

/-- COMMAND_RING_STALL (R352): a ring without progress for 4T. -/
def execCommandRingStall (p : Nat) (s : State) : Host.Outcome State Fault Refusal :=
  let x := partOf s p
  if !x.ring.isEmpty ∧ x.progress + 4 * x.timeout ≤ s.now then .next (resetPart s p)
  else .refused (.notEnabled "COMMAND_RING_STALL")

/-! ### Forming and dissolving (R271, R351) -/

/-- The live physical cores of a die in ascending order (R4, R271). Log entry 80 (DEDUCED). -/
def liveCores (s : State) (d : Nat) : List Nat :=
  ((List.range Config.coresPerDie).filter (fun c => (dieOf s d).fuses.getLsbD c)).map (fun c => d * 64 + c)

/-- The partition that a set of compute dies and a hub die make when it is formed, with its timeout and its share of the
HBM. Log entry 80 (DEDUCED). -/
def newPartition (s : State) (dies : List Nat) (hub timeout share : Nat) : Partition :=
  let ds := (List.range Config.dieCount).filter dies.contains
  { dies := ds, hub := hub, timeout := timeout, share := share, gated := (hubOf s hub).gated, cmap := ds.flatMap (liveCores s)
    hmap := ds.map (fun d => (d, (dieOf s d).fuses)), born := s.now, draw := Config.drawSeed
    ready := Config.firmwareVerifies hub, failed := !Config.firmwareVerifies hub
    idleSince := s.now, progress := s.now, lastPlace := s.now }

/-- The record of a bring-up that failed (R9, R363). Log entry 15 (DESIGN CHOICE). -/
def noteBringUp (s : State) (p : Nat) : State :=
  if (partOf s p).failed then postEvent s p (hubEvent s p .bringUp 2) else s

/-- Whether a management command may set a timeout: none stands for the default (R351). -/
def timeoutOk : Option Nat → Bool
  | some t => decide (2 ^ 16 ≤ t ∧ t ≤ 2 ^ 30)
  | none => true

/-- The HBM that the partitions' shares leave (R6, R351). -/
def hbmLeft (s : State) : Nat := Config.hbmBytes - s.parts.foldl (fun n p => n + p.2.share) 0

/-- The status word at offset 0 of BAR0 of a partition's function (R363); bits [8] and [9] name the home hub die and say
that its control pair has been taken over. Log entry 104 (DEDUCED). -/
def statusWord (s : State) (p : Nat) : Word :=
  let x := partOf s p
  let bit (b : Bool) (n : Nat) : Nat := if b then 2 ^ n else 0
  BitVec.ofNat 32 (bit (decide (x.hub = 1)) 8 + bit x.takenOver 9 + bit x.gated 2 + bit x.failed 1 + bit x.ready 0)

/-- PARTITION_FORM (R9, R351, R354): whole compute dies that belong to no partition, on one hub die with a free function,
with a timeout and a share of the HBM that is left; bring-up fails where the hub die's firmware does not verify.
Log entry 15 (DESIGN CHOICE). -/
def execPartitionForm (dies : List Nat) (order : FormOrder) (s : State) : Host.Outcome State Fault Refusal :=
  let hub := order.hub
  let ok := !dies.isEmpty && decide (dies.eraseDups.length = dies.length) && timeoutOk order.timeout && decide (order.share ≤ hbmLeft s) &&
    dies.all (fun d => decide (d < Config.dieCount) && (partOfDie s d).isNone)
  match lowestFree (s.parts.map (·.1)) 0 4096 with
  | some p =>
    if ok ∧ hub < 2 ∧ !(hubOf s hub).stopped ∧ (homedOn s hub).length < 8 then
      let s1 : State := { s with
        parts := mset s.parts p (newPartition s dies hub (order.timeout.getD Config.defaultTimeout) order.share)
        streams := mset s.streams p { part := p, world := 0, key := none } }
      .next (noteBringUp (dies.foldl (fun t d => modDie t d (resetDie d s.now)) s1) p)
    else .refused (.notEnabled "PARTITION_FORM")
  | none => .refused (.notEnabled "PARTITION_FORM")

/-- PARTITION_DISSOLVE (R351): the partition's work is discarded and its dies are free. -/
def execPartitionDissolve (p : Nat) (s : State) : Host.Outcome State Fault Refusal :=
  if (mget s.parts p).isSome then
    let s1 := resetPart s p
    .next { s1 with
      parts := mdel s1.parts p
      ctxs := s1.ctxs.filter (fun c => !decide (c.2.part = p))
      streams := s1.streams.filter (fun x => !decide (x.2.part = p))
      cores := s1.cores.map (fun c => if (partOf s p).dies.contains (dieOfCore c.1) then
        (c.1, { c.2 with tlb := c.2.tlb.filter (fun e => !decide (e.part = p)) }) else c) }
  else .refused (.notEnabled "PARTITION_DISSOLVE")

end Sys2Proof.Machine
end

