-- ==== Sys2Proof/Machine/Fetch.lean ====
section
/-! DEFINITION. Fetching clauses (R35 to R37, R42, R143, R144), the merge of splits at a header (R82), the opening of a
clause whose wait mask reads zero (R36), the instruction at which a split stands, the wakes of parked splits (R76, R77),
and the watchdog (R79). -/

namespace Sys2Proof.Machine

/-! ### The lines of a clause -/

/-- A clause as its lines give it: its words, what is missing, or where it may not be fetched. -/
inductive Fetched where
  | clause (c : Clause) (lines : List (Nat × List Word))
  | noPerm (va : Nat)
  | missing (va : Nat) (malformed : Bool)

/-- The words of a clause of `n` words from its header on, over the lines it touches (R143). -/
def fetchLines (s : State) (w : Wave) (va n : Nat) : Fetched :=
  let last := va + 4 * (n - 1)
  match codeLine s w va with
  | .noPerm => .noPerm va
  | .missing m => .missing va m
  | .words pa l f =>
    let one := if f then [(pa, l)] else []
    if last / 64 = va / 64 then .clause { pc := va, words := (l.drop (va % 64 / 4)).take n } one
    else
      let va2 := last / 64 * 64
      match codeLine s w va2 with
      | .noPerm => .noPerm va2
      | .missing m => .missing va2 m
      | .words pa2 l2 f2 =>
        .clause { pc := va, words := (l.drop (va % 64 / 4) ++ l2).take n } (one ++ if f2 then [(pa2, l2)] else [])

/-- The whole clause whose header stands at `va`; without a header there, that one word (R35, R143).
Log entry 76 (DEDUCED). -/
def fetchClause (s : State) (w : Wave) (va : Nat) : Fetched :=
  if va % 4 ≠ 0 then .clause { pc := va, words := [0] } []
  else match fetchLines s w va 1 with
  | .clause c lines =>
    let x := c.words.headD 0
    if isHeader x then fetchLines s w va (bits x.toNat 3 0 + 2) else .clause c lines
  | y => y

/-- The position of the first engine-class long operation of a body, counted from the header; literal words are passed
over (R36). -/
def engineAt : Nat → List Word → Nat → Option Nat
  | 0, _, _ => none
  | n + 1, l, k =>
    match l with
    | [] => none
    | x :: r => if engineWord x then some k else engineAt n (r.drop (litWords x)) (k + 1 + litWords x)

/-- What decoding a header finds wrong (R35, R36): the `trapval` of ILLEGAL_CLAUSE. -/
def headerFault (c : Clause) : Option Word :=
  match c.words with
  | [] => none
  | x :: body =>
    let a := bits x.toNat 11 8
    let b := bits x.toNat 7 4
    if 12 ≤ a ∨ (12 ≤ b ∧ b ≤ 14) then some x
    else if b = 15 then (engineAt 17 body 1).map (BitVec.ofNat 32)
    else none

/-! ### Merging (R82) -/

/-- What a fetch stops is in the undo log: a rollback undoes it, and the next fetch stops again (R313, R314). -/
def fetchLogged (s : State) (u : Nat) : State := { s with undo := logUndo s u (waveOf s u) none }

/-- A trap at a header, a fetch or an entry: no instruction can be skipped, and the split resumes where it stands.
Log entry 76 (DEDUCED). -/
def fetchTrap (s : State) (u : Nat) (sp : Split) (cause : Cause) (val : Word) (pc : Nat) : State :=
  takeTrapAt (fetchLogged s u) u sp cause val pc true sp.pc 0

/-- A split at a word that is no header (R42): at the wave's entry ILLEGAL_TARGET, at a handler PC the end of the block,
and elsewhere ILLEGAL_CLAUSE. Log entry 76 (DEDUCED). -/
def noHeader (s : State) (u : Nat) (sp : Split) (at_ : Nat) (x : Word) : State :=
  if sp.start = 1 then fetchTrap s u sp .illegalTarget (BitVec.ofNat 32 at_) at_
  else if sp.start = 2 then stopWave (fetchLogged s u) u .illegalTarget at_ (at_ % 2 ^ 32)
  else fetchTrap s u sp .illegalClause x at_

/-- The split of an entry changed. -/
def withSplit (s : State) (u e : Nat) (f : Split → Split) : State :=
  modWave s u (fun w => { w with splits := w.splits.map (fun x => if x.entry = e then f x else x) })

/-- A split that fetches: its clause comes through the TLB and the L1 code, or the wave traps or is suspended (R143). A
split inside a body goes on there without the wait mask (R156, R336); past the body it stands at the next word (R42). -/
def fetchSplit (s : State) (u : Nat) (w : Wave) (sp : Split) : State :=
  let at_ := sp.resume.getD sp.pc
  let s1 := cacheWalk s w.core w.part w.ctx at_
  match fetchClause s w at_ with
  | .missing va m => suspend s1 u va m
  | .noPerm va => fetchTrap s1 u sp .fetchPerm (BitVec.ofNat 32 va) va
  | .clause c lines =>
    let s2 := lines.foldl (fun t x => cacheLine t w.core x.1 x.2) s1
    let s3 := { s2 with nextId := s2.nextId + 1 }
    if !isHeader (c.words.headD 0) then noHeader s3 u sp at_ (c.words.headD 0)
    else match sp.resume with
      | some h =>
        if c.words.length ≤ (sp.pc - h) / 4 then withSplit s3 u sp.entry (fun x => { x with resume := none })
        else withSplit s3 u sp.entry (fun x => { x with clause := some c, opened := true, resume := none, start := 0 })
      | none =>
        match headerFault c with
        | some v => fetchTrap s3 u sp .illegalClause v at_
        | none =>
          modWave (withSplit s3 u sp.entry (fun x => { x with clause := some c, opened := false, start := 0 })) u
            (fun y => mergeAt y sp.entry)

/-- Whether a wave may begin something new (R66, R337, R342, R350). -/
def waveRuns (s : State) (w : Wave) : Bool :=
  (w.state = .run || w.state = .oneStep) && !(w.block.any (fun k => (blockOf s k).fault))

/-- Whether a split has to fetch. -/
def mustFetch (s : State) (w : Wave) (x : Split) : Bool :=
  waveRuns s w && w.fetch.isNone && w.waitHeld.isNone && x.clause.isNone && x.park.isNone && x.trump.isNone

/-- CLAUSE_FETCH (R36, R42, R82, R143). -/
def execClauseFetch (u e : Nat) (s : State) : Host.Outcome State Fault Refusal :=
  match mget s.waves u with
  | some w =>
    match splitOf w e with
    | some sp => if mustFetch s w sp then .next (fetchSplit s u w sp) else .refused (.notEnabled "CLAUSE_FETCH")
    | none => .refused (.notEnabled "CLAUSE_FETCH")
  | none => .refused (.notEnabled "CLAUSE_FETCH")

/-- Whether a suspended wave's request has been answered (R143, R144, R345): it fetches again. -/
def pageBack (s : State) (w : Wave) : Bool :=
  match w.fetch with
  | some r => waveRuns s w && r.filed
  | none => false

/-- WAVE_RESUME_FETCH (R143): the suspended wave fetches again. -/
def execWaveResumeFetch (u : Nat) (s : State) : Host.Outcome State Fault Refusal :=
  match mget s.waves u with
  | some w => if pageBack s w then .next (modWave s u (fun w => { w with fetch := none })) else .refused (.notEnabled "WAVE_RESUME_FETCH")
  | none => .refused (.notEnabled "WAVE_RESUME_FETCH")

/-! ### Opening a clause -/

/-- Whether a split may issue: its clause is there and, at its header, every flag of the wait mask reads zero (R36). -/
def splitReady (w : Wave) (x : Split) : Bool :=
  x.park.isNone && (x.trump.isSome || (match x.clause with
    | some c => x.opened || flagsClear w (bits (c.words.headD 0).toNat 23 12)
    | none => false))

/-- The split with the lowest PC, then the lowest entry (R81). -/
def lowestSplit (l : List Split) : Option Split :=
  l.foldl (fun m x => match m with
    | none => some x
    | some y => if x.pc < y.pc ∨ (x.pc = y.pc ∧ x.entry < y.entry) then some x else some y) none

/-- A clause whose wait mask reads zero is opened (R36): a completion wait (R239), a region may begin (R290, R298), and
the split stands at its first body word unless it runs a candidate. Log entry 75 (DEDUCED). -/
def openClause (s : State) (u e : Nat) : State :=
  match splitOf (waveOf s u) e with
  | none => s
  | some sp =>
    if sp.opened || sp.trump.isSome then s
    else
      let waits := decide (bits ((sp.clause.elim 0 (fun c => c.words.headD 0)).toNat) 23 12 ≠ 0)
      let s1 := openRegion (if waits then completeWait s u else s) u e
      withSplit s1 u e (fun x => if x.trump.isSome then x else { x with opened := true, pc := x.pc + 4 })

/-- The words from the one at which a split stands, in its body or its candidate. -/
def wordsAt (sp : Split) : List Word :=
  match sp.trump with
  | some t => t.words
  | none => match sp.clause with
    | some c => c.words.drop (if sp.opened then (sp.pc - c.pc) / 4 else 1)
    | none => []

/-- The instruction of some words; literal words past the body's end read as zero, and the tests of R29 find them. -/
def instrOf : List Word → Except DecodeError Instr
  | [] => .error .noWord
  | w :: r => decodeWord w (nth r 0 0) (nth r 1 0)

/-- The next instruction of a split. -/
def nextInstr (sp : Split) : Except DecodeError Instr := instrOf (wordsAt sp)

/-- Whether a split's next instruction is a long operation whose flag stands at 63 and that none of the causes of R29
ends (R38, R71). -/
def awaitsFlag (s : State) (w : Wave) (x : Split) : Bool :=
  match nextInstr x with
  | .ok i => flagFull w x i && (issueCause s w x i).isNone
  | .error _ => false

/-- The split that issues (R81) among the ready ones of R71. -/
def pickSplit (s : State) (w : Wave) : Option Split :=
  lowestSplit (w.splits.filter (fun x => splitReady w x && !awaitsFlag s w x))

/-! ### Wakes (R74 to R77) -/

/-- What a wake writes and acquires. -/
def wakeEffect (s : State) (u : Nat) (c : Cond) : State :=
  let w := waveOf s u
  match c with
  | .cohort part idx _ (some g) dst =>
    let x := mgetD (partOf s part).cohorts idx {}
    let lost := x.lost.any (fun l => decide (l.1 = 0 ∧ l.2.1 = g))
    let clock := mgetD x.relClocks g []
    acquireClock (modWave s u (fun w => putResult w dst (if lost then 1 else 0))) u clock
  | .cohort _ _ _ none _ => s
  | .grid h dst =>
    let r := gridState s w.part h
    acquireClock (modWave s u (fun w => putResult w dst (BitVec.ofNat 32 r.1))) u r.2
  | .window base _ dst =>
    match windowAny s w.part w.ctx base with
    | some x => windowAcquire (modWave s u (fun w => putPair w dst (BitVec.ofNat 64 x.c))) u
    | none => s
  | .generation _ _ | .decks _ _ _ => s
  | y => yieldDone s u y

/-- A split that wakes: at its continuation, or past its yield point; the continuation of a `yieldon` starts a run (R76,
R288). -/
def wakeSplit (x : Split) (p : Park) : Split :=
  match p.target with
  | some va => { jumpTo x va with park := none }
  | none => let y := stepOver x p.len; { (if p.runs then runFrom y else y) with park := none }

/-- The split of an entry that may wake now. -/
def wakeable (s : State) (w : Wave) (e : Nat) : Option Park :=
  match splitOf w e with
  | some sp => (match sp.park with
    | some p => (match p.readyAt with
      | some t => if waveRuns s w ∧ t ≤ s.now then some p else none
      | none => none)
    | none => none)
  | none => none

/-- PARKED_SPLIT_WAKE (R77): 4 cycles after its condition first held. -/
def execParkedSplitWake (u e : Nat) (s : State) : Host.Outcome State Fault Refusal :=
  match mget s.waves u with
  | some w =>
    match wakeable s w e with
    | some p => .next (withSplit (wakeEffect s u p.cond) u e (fun x => wakeSplit x p))
    | none => .refused (.notEnabled "PARKED_SPLIT_WAKE")
  | none => .refused (.notEnabled "PARKED_SPLIT_WAKE")

/-- A wave whose parked splits note the cycle from which they may wake. -/
def noteWakes (s : State) (w : Wave) : Wave :=
  let b := w.block.bind (mget s.blocks)
  let f (x : Split) : Split := { x with park := x.park.map (fun p =>
    if p.readyAt.isNone && condHolds s w b p.cond then { p with readyAt := some (s.now + Config.wakeDelay) } else p) }
  if w.splits.any (fun x => x.park.isSome) then { w with splits := w.splits.map f } else w

/-! ### The watchdog (R79) -/

/-- Whether nothing holds back the next issue of a wave: a page, a held effect, the spacing of its issues, a rollback
(R313), the matching of its block's effects (R66, R328). -/
def wavePasses (s : State) (w : Wave) : Bool :=
  w.fetch.isNone && w.waitHeld.isNone && decide (w.nextIssue ≤ s.now) && !seatStalled s w.core w.seat && !shadowHolds s w

/-- Whether the wave's next instruction would trap with WATCHDOG. Log entry 79 (DEDUCED). -/
def watchdogDue (s : State) (u : Nat) (w : Wave) (sp : Split) (i : Instr) : Bool :=
  waveRuns s w && wavePasses s w && splitReady w sp && !mustWait s u w sp i &&
  (match issueCause s w sp i with
    | some x => decide (x.1 = .watchdog)
    | none => false)

/-- WATCHDOG_EXPIRY (R79): the count has reached 2^w and the next instruction that is no yield point traps.
Log entry 79 (DEDUCED). -/
def execWatchdogExpiry (u : Nat) (s : State) : Host.Outcome State Fault Refusal :=
  match mget s.waves u with
  | some w =>
    match pickSplit s w with
    | some sp =>
      match nextInstr sp with
      | .ok i =>
        if watchdogDue s u w sp i then
          let s1 := openClause s u sp.entry
          let w1 := waveOf s1 u
          let sp1 := (splitOf w1 sp.entry).getD sp
          .next (trapAt s1 (ctxFor s1 u w1 sp1 i) .watchdog (BitVec.ofNat 32 (watchdogLimit s w)))
        else .refused (.notEnabled "WATCHDOG_EXPIRY")
      | .error _ => .refused (.notEnabled "WATCHDOG_EXPIRY")
    | none => .refused (.notEnabled "WATCHDOG_EXPIRY")
  | none => .refused (.notEnabled "WATCHDOG_EXPIRY")

end Sys2Proof.Machine
end

