-- ==== Sys2Proof/Machine/Dispatch.lean ====
section
/-! DEFINITION. One arm for every instruction and every move of the device. -/

namespace Sys2Proof.Machine

def exec (i : Instr) (s : State) : Host.Outcome State Fault Refusal :=
  match i with
  | .ill d a b => Sys2Proof.Machine.execIll d a b s
  | .mode m => Sys2Proof.Machine.execMode m s
  | .omode o => Sys2Proof.Machine.execOmode o s
  | .nop => Sys2Proof.Machine.execNop s
  | .sigck sig => Sys2Proof.Machine.execSigck sig s
  | .rnote regs => Sys2Proof.Machine.execRnote regs s
  | .elect d => Sys2Proof.Machine.execElect d s
  | .yield => Sys2Proof.Machine.execYield s
  | .yieldon a b => Sys2Proof.Machine.execYieldon a b s
  | .endWave => Sys2Proof.Machine.execEndWave s
  | .trap c => Sys2Proof.Machine.execTrap c s
  | .brk c => Sys2Proof.Machine.execBrk c s
  | .qfeat d a => Sys2Proof.Machine.execQfeat d a s
  | .rdsr d n => Sys2Proof.Machine.execRdsr d n s
  | .rdsrTimelo d => Sys2Proof.Machine.execRdsrTimelo d s
  | .wrsr a n => Sys2Proof.Machine.execWrsr a n s
  | .mgrantCreate a => Sys2Proof.Machine.execMgrantCreate a s
  | .mgrantRevoke a => Sys2Proof.Machine.execMgrantRevoke a s
  | .sigWrite a => Sys2Proof.Machine.execSigWrite a s
  | .pkset a => Sys2Proof.Machine.execPkset a s
  | .add d a b => Sys2Proof.Machine.execAdd d a b s
  | .sub d a b => Sys2Proof.Machine.execSub d a b s
  | .neg d a => Sys2Proof.Machine.execNeg d a s
  | .mul d a b => Sys2Proof.Machine.execMul d a b s
  | .mulhi d a b => Sys2Proof.Machine.execMulhi d a b s
  | .mad d a b => Sys2Proof.Machine.execMad d a b s
  | .div d a b => Sys2Proof.Machine.execDiv d a b s
  | .rem d a b => Sys2Proof.Machine.execRem d a b s
  | .min d a b => Sys2Proof.Machine.execMin d a b s
  | .max d a b => Sys2Proof.Machine.execMax d a b s
  | .abs d a => Sys2Proof.Machine.execAbs d a s
  | .dot4 d a b => Sys2Proof.Machine.execDot4 d a b s
  | .brev d a => Sys2Proof.Machine.execBrev d a s
  | .popc d a => Sys2Proof.Machine.execPopc d a s
  | .clz d a => Sys2Proof.Machine.execClz d a s
  | .cmpeq d a b => Sys2Proof.Machine.execCmpeq d a b s
  | .cmpne d a b => Sys2Proof.Machine.execCmpne d a b s
  | .cmplt d a b => Sys2Proof.Machine.execCmplt d a b s
  | .cmple d a b => Sys2Proof.Machine.execCmple d a b s
  | .and d a b => Sys2Proof.Machine.execAnd d a b s
  | .or d a b => Sys2Proof.Machine.execOr d a b s
  | .xor d a b => Sys2Proof.Machine.execXor d a b s
  | .not d a => Sys2Proof.Machine.execNot d a s
  | .shl d a b => Sys2Proof.Machine.execShl d a b s
  | .shr d a b => Sys2Proof.Machine.execShr d a b s
  | .sra d a b => Sys2Proof.Machine.execSra d a b s
  | .bfe d a b => Sys2Proof.Machine.execBfe d a b s
  | .bfi d a b => Sys2Proof.Machine.execBfi d a b s
  | .fadd d a b => Sys2Proof.Machine.execFadd d a b s
  | .fsub d a b => Sys2Proof.Machine.execFsub d a b s
  | .fmul d a b => Sys2Proof.Machine.execFmul d a b s
  | .fma d a b => Sys2Proof.Machine.execFma d a b s
  | .fneg d a => Sys2Proof.Machine.execFneg d a s
  | .fabs d a => Sys2Proof.Machine.execFabs d a s
  | .fmin d a b => Sys2Proof.Machine.execFmin d a b s
  | .fmax d a b => Sys2Proof.Machine.execFmax d a b s
  | .fdiv d a b => Sys2Proof.Machine.execFdiv d a b s
  | .fsqrt d a => Sys2Proof.Machine.execFsqrt d a s
  | .frcp d a => Sys2Proof.Machine.execFrcp d a s
  | .frsq d a => Sys2Proof.Machine.execFrsq d a s
  | .fexp2 d a => Sys2Proof.Machine.execFexp2 d a s
  | .flog2 d a => Sys2Proof.Machine.execFlog2 d a s
  | .fsin d a => Sys2Proof.Machine.execFsin d a s
  | .fcos d a => Sys2Proof.Machine.execFcos d a s
  | .frnd d a => Sys2Proof.Machine.execFrnd d a s
  | .fcmpeq d a b => Sys2Proof.Machine.execFcmpeq d a b s
  | .fcmplt d a b => Sys2Proof.Machine.execFcmplt d a b s
  | .fcmple d a b => Sys2Proof.Machine.execFcmple d a b s
  | .fcmpun d a b => Sys2Proof.Machine.execFcmpun d a b s
  | .fclass d a => Sys2Proof.Machine.execFclass d a s
  | .cmul d a b => Sys2Proof.Machine.execCmul d a b s
  | .cmad d a b => Sys2Proof.Machine.execCmad d a b s
  | .cvtif d a => Sys2Proof.Machine.execCvtif d a s
  | .cvtfi d a => Sys2Proof.Machine.execCvtfi d a s
  | .cvtff d a c => Sys2Proof.Machine.execCvtff d a c s
  | .cvtn8 d a c => Sys2Proof.Machine.execCvtn8 d a c s
  | .cvtw8 d a c => Sys2Proof.Machine.execCvtw8 d a c s
  | .mov d a => Sys2Proof.Machine.execMov d a s
  | .sel d a b => Sys2Proof.Machine.execSel d a b s
  | .promote d a b => Sys2Proof.Machine.execPromote d a b s
  | .demote d a => Sys2Proof.Machine.execDemote d a s
  | .vall d a => Sys2Proof.Machine.execVall d a s
  | .vany d a => Sys2Proof.Machine.execVany d a s
  | .veq d a => Sys2Proof.Machine.execVeq d a s
  | .ballot d a => Sys2Proof.Machine.execBallot d a s
  | .shfl d a b => Sys2Proof.Machine.execShfl d a b s
  | .shflx d a m => Sys2Proof.Machine.execShflx d a m s
  | .shfldn d a m => Sys2Proof.Machine.execShfldn d a m s
  | .shflup d a m => Sys2Proof.Machine.execShflup d a m s
  | .pand d a b => Sys2Proof.Machine.execPand d a b s
  | .por d a b => Sys2Proof.Machine.execPor d a b s
  | .pxor d a b => Sys2Proof.Machine.execPxor d a b s
  | .pnot d a => Sys2Proof.Machine.execPnot d a s
  | .jmp o => Sys2Proof.Machine.execJmp o s
  | .bp p o => Sys2Proof.Machine.execBp p o s
  | .bnp p o => Sys2Proof.Machine.execBnp p o s
  | .bany p o => Sys2Proof.Machine.execBany p o s
  | .ball p o => Sys2Proof.Machine.execBall p o s
  | .bnone p o => Sys2Proof.Machine.execBnone p o s
  | .call f o => Sys2Proof.Machine.execCall f o s
  | .ret a => Sys2Proof.Machine.execRet a s
  | .jmpi a => Sys2Proof.Machine.execJmpi a s
  | .calli f a => Sys2Proof.Machine.execCalli f a s
  | .bar a => Sys2Proof.Machine.execBar a s
  | .barrive d a => Sys2Proof.Machine.execBarrive d a s
  | .bwait a b => Sys2Proof.Machine.execBwait a b s
  | .grow d a b => Sys2Proof.Machine.execGrow d a b s
  | .attach d a => Sys2Proof.Machine.execAttach d a s
  | .detach a => Sys2Proof.Machine.execDetach a s
  | .shrinkq d => Sys2Proof.Machine.execShrinkq d s
  | .bmem d a => Sys2Proof.Machine.execBmem d a s
  | .lds d a => Sys2Proof.Machine.execLds d a s
  | .sts a b => Sys2Proof.Machine.execSts a b s
  | .ldsl d a b => Sys2Proof.Machine.execLdsl d a b s
  | .stsl d a b => Sys2Proof.Machine.execStsl d a b s
  | .ldlk d a => Sys2Proof.Machine.execLdlk d a s
  | .stul d a b => Sys2Proof.Machine.execStul d a b s
  | .sadd d a b => Sys2Proof.Machine.execSadd d a b s
  | .smin d a b => Sys2Proof.Machine.execSmin d a b s
  | .smax d a b => Sys2Proof.Machine.execSmax d a b s
  | .sxchg d a b => Sys2Proof.Machine.execSxchg d a b s
  | .scas d a b => Sys2Proof.Machine.execScas d a b s
  | .sand d a b => Sys2Proof.Machine.execSand d a b s
  | .sor d a b => Sys2Proof.Machine.execSor d a b s
  | .ld d a => Sys2Proof.Machine.execLd d a s
  | .st a b => Sys2Proof.Machine.execSt a b s
  | .ldacq d a => Sys2Proof.Machine.execLdacq d a s
  | .strel a b => Sys2Proof.Machine.execStrel a b s
  | .gadd d a b => Sys2Proof.Machine.execGadd d a b s
  | .gmin d a b => Sys2Proof.Machine.execGmin d a b s
  | .gmax d a b => Sys2Proof.Machine.execGmax d a b s
  | .gxchg d a b => Sys2Proof.Machine.execGxchg d a b s
  | .gcas d a b => Sys2Proof.Machine.execGcas d a b s
  | .gand d a b => Sys2Proof.Machine.execGand d a b s
  | .gor d a b => Sys2Proof.Machine.execGor d a b s
  | .fence o => Sys2Proof.Machine.execFence o s
  | .pref a h => Sys2Proof.Machine.execPref a h s
  | .wseq d a b => Sys2Proof.Machine.execWseq d a b s
  | .icsync => Sys2Proof.Machine.execIcsync s
  | .mma n d a b => Sys2Proof.Machine.execMma n d a b s
  | .mmaw n d a b => Sys2Proof.Machine.execMmaw n d a b s
  | .tcfg d a => Sys2Proof.Machine.execTcfg d a s
  | .twin d a => Sys2Proof.Machine.execTwin d a s
  | .accz d => Sys2Proof.Machine.execAccz d s
  | .accrd d a b => Sys2Proof.Machine.execAccrd d a b s
  | .accwr d a b => Sys2Proof.Machine.execAccwr d a b s
  | .mdrain d a m n => Sys2Proof.Machine.execMdrain d a m n s
  | .hist a => Sys2Proof.Machine.execHist a s
  | .hclr => Sys2Proof.Machine.execHclr s
  | .hscale d a => Sys2Proof.Machine.execHscale d a s
  | .qcvt d a m n => Sys2Proof.Machine.execQcvt d a m n s
  | .cpin d a => Sys2Proof.Machine.execCpin d a s
  | .cpout d a => Sys2Proof.Machine.execCpout d a s
  | .bcpin d a => Sys2Proof.Machine.execBcpin d a s
  | .bcpout d a => Sys2Proof.Machine.execBcpout d a s
  | .gath d a b => Sys2Proof.Machine.execGath d a b s
  | .cseal d => Sys2Proof.Machine.execCseal d s
  | .cwait n => Sys2Proof.Machine.execCwait n s
  | .qfence q => Sys2Proof.Machine.execQfence q s
  | .qseq d a => Sys2Proof.Machine.execQseq d a s
  | .cbar d a => Sys2Proof.Machine.execCbar d a s
  | .cred d a b => Sys2Proof.Machine.execCred d a b s
  | .dput a b => Sys2Proof.Machine.execDput a b s
  | .dtake d a b => Sys2Proof.Machine.execDtake d a b s
  | .sdwait a => Sys2Proof.Machine.execSdwait a s
  | .launch d a b => Sys2Proof.Machine.execLaunch d a b s
  | .lwait d a => Sys2Proof.Machine.execLwait d a s
  | .lstat d a => Sys2Proof.Machine.execLstat d a s
  | .tret k => Sys2Proof.Machine.execTret k s
  | .wpset a k => Sys2Proof.Machine.execWpset a k s
  | .wpclr m => Sys2Proof.Machine.execWpclr m s
  | .pchk d a m => Sys2Proof.Machine.execPchk d a m s
  | .ptag d a => Sys2Proof.Machine.execPtag d a s
  | .clauseFetch w e => Sys2Proof.Machine.execClauseFetch w e s
  | .waveResumeFetch w => Sys2Proof.Machine.execWaveResumeFetch w s
  | .longOpComplete n => Sys2Proof.Machine.execLongOpComplete n s
  | .holdbackRelease n => Sys2Proof.Machine.execHoldbackRelease n s
  | .writeApplyHome n => Sys2Proof.Machine.execWriteApplyHome n s
  | .writeApplyRemote n d => Sys2Proof.Machine.execWriteApplyRemote n d s
  | .atomicPerform n => Sys2Proof.Machine.execAtomicPerform n s
  | .spadAtomicPerform n => Sys2Proof.Machine.execSpadAtomicPerform n s
  | .ldlkPerform n => Sys2Proof.Machine.execLdlkPerform n s
  | .lockWaitGrant c l => Sys2Proof.Machine.execLockWaitGrant c l s
  | .stulPerform n => Sys2Proof.Machine.execStulPerform n s
  | .lockExpiry c l => Sys2Proof.Machine.execLockExpiry c l s
  | .growPerform n => Sys2Proof.Machine.execGrowPerform n s
  | .attachPerform n => Sys2Proof.Machine.execAttachPerform n s
  | .detachPerform n => Sys2Proof.Machine.execDetachPerform n s
  | .endPerform n => Sys2Proof.Machine.execEndPerform n s
  | .deadWaveLeave n => Sys2Proof.Machine.execDeadWaveLeave n s
  | .barrierArrive n => Sys2Proof.Machine.execBarrierArrive n s
  | .parkedSplitWake w e => Sys2Proof.Machine.execParkedSplitWake w e s
  | .shrinkRequestClear k => Sys2Proof.Machine.execShrinkRequestClear k s
  | .blockRetire k => Sys2Proof.Machine.execBlockRetire k s
  | .watchdogExpiry w => Sys2Proof.Machine.execWatchdogExpiry w s
  | .engineRequestEnter n => Sys2Proof.Machine.execEngineRequestEnter n s
  | .collectiveEnter n => Sys2Proof.Machine.execCollectiveEnter n s
  | .engineEntryPerform c q => Sys2Proof.Machine.execEngineEntryPerform c q s
  | .engineWriteRelease n => Sys2Proof.Machine.execEngineWriteRelease n s
  | .engineEntryComplete c q => Sys2Proof.Machine.execEngineEntryComplete c q s
  | .qfenceComplete n => Sys2Proof.Machine.execQfenceComplete n s
  | .roundForm n => Sys2Proof.Machine.execRoundForm n s
  | .cohortArrivalPerform n => Sys2Proof.Machine.execCohortArrivalPerform n s
  | .arrayGrant c => Sys2Proof.Machine.execArrayGrant c s
  | .arrayOpFinish c => Sys2Proof.Machine.execArrayOpFinish c s
  | .matrixWritePerform n => Sys2Proof.Machine.execMatrixWritePerform n s
  | .pkrContextUpdate n => Sys2Proof.Machine.execPkrContextUpdate n s
  | .watchpointUpdate n => Sys2Proof.Machine.execWatchpointUpdate n s
  | .grantEnd g x => Sys2Proof.Machine.execGrantEnd g x s
  | .launchPerform n => Sys2Proof.Machine.execLaunchPerform n s
  | .placementEvent p => Sys2Proof.Machine.execPlacementEvent p s
  | .saveOut k => Sys2Proof.Machine.execSaveOut k s
  | .preemptDraining k => Sys2Proof.Machine.execPreemptDraining k s
  | .preemptWriting k => Sys2Proof.Machine.execPreemptWriting k s
  | .preemptSaved k => Sys2Proof.Machine.execPreemptSaved k s
  | .restorePlacement p => Sys2Proof.Machine.execRestorePlacement p s
  | .rollbackResume c seat => Sys2Proof.Machine.execRollbackResume c seat s
  | .healthRecover c => Sys2Proof.Machine.execHealthRecover c s
  | .hotnessHalve => Sys2Proof.Machine.execHotnessHalve s
  | .candidateExpiry d x => Sys2Proof.Machine.execCandidateExpiry d x s
  | .probationCompare n => Sys2Proof.Machine.execProbationCompare n s
  | .auditComplete t => Sys2Proof.Machine.execAuditComplete t s
  | .auditEscalate t => Sys2Proof.Machine.execAuditEscalate t s
  | .deckAppend n => Sys2Proof.Machine.execDeckAppend n s
  | .deckHoldRelease n => Sys2Proof.Machine.execDeckHoldRelease n s
  | .showdownQuiescence p set => Sys2Proof.Machine.execShowdownQuiescence p set s
  | .ingressBackpressureTimeout p x => Sys2Proof.Machine.execIngressBackpressureTimeout p x s
  | .createContext p => Sys2Proof.Machine.execCreateContext p s
  | .launchGrid p => Sys2Proof.Machine.execLaunchGrid p s
  | .save p => Sys2Proof.Machine.execSave p s
  | .launchImage p => Sys2Proof.Machine.execLaunchImage p s
  | .streamDrainComplete x => Sys2Proof.Machine.execStreamDrainComplete x s
  | .streamDrainFail x => Sys2Proof.Machine.execStreamDrainFail x s
  | .resetPartition p => Sys2Proof.Machine.execResetPartition p s
  | .commandRingStall p => Sys2Proof.Machine.execCommandRingStall p s
  | .sharedRequestTimeout n => Sys2Proof.Machine.execSharedRequestTimeout n s
  | .hubDieGate h => Sys2Proof.Machine.execHubDieGate h s
  | .hubDieUngate h => Sys2Proof.Machine.execHubDieUngate h s
  | .eventRingWrite p => Sys2Proof.Machine.execEventRingWrite p s
  | .illegalOpcode w => Sys2Proof.Machine.execIllegalOpcode w s
  | .walkAndScrubComplete t => Sys2Proof.Machine.execWalkAndScrubComplete t s
  | .textPageInstall r pte => Sys2Proof.Machine.execTextPageInstall r pte s
  | .spadScrub c r => Sys2Proof.Machine.execSpadScrub c r s
  | .shrinkRequestPost k x => Sys2Proof.Machine.execShrinkRequestPost k x s
  | .peerGone p e => Sys2Proof.Machine.execPeerGone p e s
  | .debugAccess w x => Sys2Proof.Machine.execDebugAccess w x s
  | .debugResume ws => Sys2Proof.Machine.execDebugResume ws s
  | .debugStep w => Sys2Proof.Machine.execDebugStep w s
  | .tlbinv p asid va len pa pte => Sys2Proof.Machine.execTlbinv p asid va len pa pte s
  | .gridEligible g missing => Sys2Proof.Machine.execGridEligible g missing s
  | .preemptRequest k r => Sys2Proof.Machine.execPreemptRequest k r s
  | .strikeReport c seat => Sys2Proof.Machine.execStrikeReport c seat s
  | .marginPlan uncovered => Sys2Proof.Machine.execMarginPlan uncovered s
  | .candidateInstall d x cand guards => Sys2Proof.Machine.execCandidateInstall d x cand guards s
  | .ingressFrameWrite p req off data => Sys2Proof.Machine.execIngressFrameWrite p req off data s
  | .doorbellWrite p records => Sys2Proof.Machine.execDoorbellWrite p records s
  | .openIngressWindow p => Sys2Proof.Machine.execOpenIngressWindow p s
  | .closeIngressWindow p => Sys2Proof.Machine.execCloseIngressWindow p s
  | .configureDeck p => Sys2Proof.Machine.execConfigureDeck p s
  | .keyStream p => Sys2Proof.Machine.execKeyStream p s
  | .admitPeer p report => Sys2Proof.Machine.execAdmitPeer p report s
  | .removePeer p => Sys2Proof.Machine.execRemovePeer p s
  | .trumpControls p => Sys2Proof.Machine.execTrumpControls p s
  | .wakeFilterAndIdleInterval p => Sys2Proof.Machine.execWakeFilterAndIdleInterval p s
  | .partitionForm dies order => Sys2Proof.Machine.execPartitionForm dies order s
  | .hostInboundWrite p pa data bad => Sys2Proof.Machine.execHostInboundWrite p pa data bad s
  | .peerFlit x ok head body => Sys2Proof.Machine.execPeerFlit x ok head body s
  | .linkRetryFail x fails => Sys2Proof.Machine.execLinkRetryFail x fails s
  | .ethernetFrameReceive h x auth frame => Sys2Proof.Machine.execEthernetFrameReceive h x auth frame s
  | .nvmeReadComplete x pa data ok => Sys2Proof.Machine.execNvmeReadComplete x pa data ok s
  | .attestationRequest p => Sys2Proof.Machine.execAttestationRequest p s
  | .controlMismatch h => Sys2Proof.Machine.execControlMismatch h s
  | .partitionDissolve p => Sys2Proof.Machine.execPartitionDissolve p s
  | .hubDieReset h => Sys2Proof.Machine.execHubDieReset h s
  | .debuggerAttach x on => Sys2Proof.Machine.execDebuggerAttach x on s
  | .coreReset c => Sys2Proof.Machine.execCoreReset c s
  | .tdispAssign p world => Sys2Proof.Machine.execTdispAssign p world s

end Sys2Proof.Machine
end

