-- ==== Sys2Proof/Machine/Upsets.lean ====
section
/-! DEFINITION. Errors that an issue or a comparison finds: those of the registers and accumulators an instruction reads
(R320), and the effect of a redundant block that does not match its shadow's (R328, R329). -/

namespace Sys2Proof.Machine

/-- The registers that an instruction of a split reads, varying ones by their logical index; its guard among them. -/
def readRegs (w : Wave) (sp : Split) (i : Instr) : List RegRef :=
  (((slots i).filter (fun x => x.rd)).flatMap (slotRegs sp.mode)).map (logical w) ++
  (if guardOn sp.mode && !ignoresGuard i then [.p (guardReg sp.mode)] else [])

/-- Whether an instruction reads accumulator elements as it issues (R259, R262). -/
def readsAcc (i : Instr) : Bool :=
  (slots i).any (fun x => x.rd && (match x.op with
    | .acc _ => true
    | _ => false))

/-- The errors that the issue of an instruction finds in what it reads (R320). Log entry 10 (DESIGN CHOICE). -/
def findOperands (s : State) (u e : Nat) (i : Instr) : State :=
  let w := waveOf s u
  match s.upsets, splitOf w e with
  | _ :: _, some sp =>
    let s1 := (readRegs w sp i).foldl (fun t r => allLanes.foldl (fun t l => findReg t u r l) t) s
    if readsAcc i then w.block.elim s1 (findMatrix s1) else s1
  | _, _ => s

/-- The first effect at its release point of a redundant block whose comparison fails (R328, R329). -/
def mismatchAt (s : State) : Option (Nat × Nat × Held) :=
  firstSome (fun y => match y.2 with
    | .shadow k => (blockOf s k).redundant.bind (fun c =>
        if s.now < y.1 then none
        else (s.held.find? (fun h => decide (h.block = some k ∧ h.due ≤ s.now) && seatFree s h)).map (fun h => (k, c, h)))
    | _ => none) s.upsets

/-- The primary traps with REDUNDANCY_MISMATCH at the word of an effect, to whose issue it was rolled back; where no split
issued it, at the place of the split that comes next, and nothing can be skipped there (R329, R338).
Log entry 10 (DESIGN CHOICE). -/
def mismatchTrap (s : State) (u : Nat) (e : Option Nat) : State :=
  let w := waveOf s u
  match e.bind (splitOf w) with
  | some sp => (match nextInstr sp with
    | .ok i => trapAt s (ctxFor s u w sp i) .redundancyMismatch 0
    | .error _ => takeTrap s u sp .redundancyMismatch 0 sp.pc false 1)
  | none => (match lowestSplit w.splits with
    | some sp => takeTrap s u sp .redundancyMismatch 0 sp.pc true 0
    | none => s)

/-- An effect that does not match (R329): it is discarded, both copies are rolled back to the issue of its instruction, the
shadow is removed, its core is quarantined, and the primary traps and runs on alone. An effect of an engine or an array rolls
the core region back to the cycle in which it was produced. Log entry 10 (DESIGN CHOICE). -/
def mismatch (s : State) (k c : Nat) (h : Held) : State :=
  let of_ (x : Undo) : Bool := decide (x.wave = h.wave) && x.entry.isSome &&
    (if h.seat.isSome then decide (x.at_ = h.issued) else decide (h.issued ≤ x.at_))
  let e := (s.undo.find? of_).bind (fun x => x.entry)
  let s1 := rolledBack (dropHeld (dropUpset s (.shadow k)) h.id) h.core h.seat h.issued
  let s2 := modCore (modBlock s1 k (fun b => { b with redundant := none })) c (fun x =>
    { x with health := .quarantined, healthAt := 0 })
  mismatchTrap s2 h.wave e

end Sys2Proof.Machine
end

