-- ==== Sys2Proof/Machine/Schedule.lean ====
section
/-! DEFINITION. What happens next (R66 to R73): what holds between moves is settled, the moves the device makes by
itself, the choice of the instruction that issues, its issue through `exec`, and the passing of a cycle. -/

namespace Sys2Proof.Machine

/-! ### What the device does by itself to held effects -/

/-- A move: a meaning applied to what it acts on. -/
abbrev Move := State → Host.Outcome State Fault Refusal

/-- The state after a move, if it can be made. -/
def made (m : Move) (s : State) : Option State :=
  match m s with
  | .next t => some t
  | _ => none

/-- The state after the first move of a list that can be made. -/
def firstMade (l : List Move) (s : State) : Option State := firstSome (fun m => made m s) l

/-- The row that performs a held effect. -/
def heldMove (h : Held) : Move :=
  match h.eff with
  | .gatomic _ _ _ _ _ _ _ => execAtomicPerform h.id
  | .satomic _ _ _ _ _ _ => execSpadAtomicPerform h.id
  | .ldlk _ _ => execLdlkPerform h.id
  | .stul _ _ => execStulPerform h.id
  | .matrix _ => execMatrixWritePerform h.id
  | .grow _ _ _ _ _ _ _ => execGrowPerform h.id
  | .attach _ _ => execAttachPerform h.id
  | .detach _ => execDetachPerform h.id
  | .finish => execEndPerform h.id
  | .dead => execDeadWaveLeave h.id
  | .arrive _ | .arriveTo _ _ => execBarrierArrive h.id
  | .enter _ _ | .markers _ _ | .contribute _ _ _ => execEngineRequestEnter h.id
  | .collective _ _ => execCollectiveEnter h.id
  | .launch _ _ _ => execLaunchPerform h.id
  | .cohort _ => execCohortArrivalPerform h.id
  | .deckPut _ => execDeckAppend h.id
  | .deckRelease _ => execDeckHoldRelease h.id
  | .pkrContext _ => execPkrContextUpdate h.id
  | .watch _ _ => execWatchpointUpdate h.id
  | .engine _ _ _ => execEngineWriteRelease h.id
  | _ => execHoldbackRelease h.id

/-- How many seats after the next one to be served a seat of a core comes (R183). -/
def seatPlace (s : State) (core seat : Nat) : Nat := (seat + 8 - (coreOf s core).seatTurn % 8) % 8

/-- How many seats after the next one to be served the seat of a scratchpad request comes (R183). -/
def seatDistance (s : State) (h : Held) : Nat := seatPlace s h.core (h.seat.getD 0)

/-! ### What is settled before each move -/

/-- Whether a load of a wave from the scratchpad is to be served before any other request of its core that could be served
now: none comes from a seat before its own (R183). -/
def spadTurn (s : State) (w : Wave) : Bool :=
  !s.held.any (fun h => isSpadEffect h.eff &&
    decide (h.core = w.core ∧ h.due ≤ s.now ∧ seatDistance s h < seatPlace s w.core w.seat) && (made (heldMove h) s).isSome)

/-- The last of some seats of a core in the order in which the array serves them. -/
def lastSeat (s : State) (core : Nat) : List Nat → Option Nat
  | [] => none
  | q :: r => match lastSeat s core r with
    | some p => some (if seatPlace s core p < seatPlace s core q then q else p)
    | none => some q

/-- The seats of a core whose waves have in one state loaded from the scratchpad what they had not in an earlier one. -/
def loadedSeats (s t : State) (core : Nat) : List Nat :=
  t.waves.filterMap (fun x => if decide (x.2.core = core) && (newlyTaken s x.1 x.2).any (fun p => decide (p.1 ≠ .memory)) then
    some x.2.seat else none)

/-- The cores after loads were taken: each array goes on from the seat after the last one it served (R183). -/
def servedLoads (s t : State) : State :=
  let turned (c : Nat × Core) : Nat × Core := match lastSeat s c.1 (loadedSeats s t c.1) with
    | some q => (c.1, { c.2 with seatTurn := (q + 1) % 8 })
    | none => c
  { t with cores := t.cores.map turned }

/-- Every load lane whose moment has come takes its value; the scratchpad serves its requests in the order of the seats.
Log entry 8 (DESIGN CHOICE). -/
def captureLoads (s : State) : State :=
  let due (t : State) (w : Wave) (o : LongOp) (l : LoadLane) : Bool :=
    decide (l.moment ≤ t.now) && (!isSpadLoad o || spadTurn t w)
  servedLoads s (noteTaken (decoded (fun t => { t with waves := t.waves.map (fun x =>
      (x.1, { x.2 with ops := takeOps t x.1 x.2 (due t x.2) [] x.2.ops })) }) s))

/-- Tries the waiting writes of the ingress windows again (R215). -/
def retryWindows (s : State) : State :=
  s.parts.foldl (fun t p => p.2.windows.foldl (fun t w =>
    if w.waiting.isEmpty then t else retryWaiting (w.waiting.length + 1) t p.1 w.index) t) s

/-- Everything that follows from the state without a move of its own: errors that arise in the scratchpads (R184), packets
that are acknowledged (R362), fences that are done (R232), loads whose moment has come (R226), tags that may settle (R304),
port writes that may leave (R240, R302), grids that are over (R69), parked splits whose condition holds (R77), window writes
that are accepted (R215). -/
def housekeep (s : State) : State :=
  let s1 := (s.waves.map (·.1)).foldl settleFences (ackPorts (raiseSpad s))
  let s2 := pumpPorts (settleReady (captureLoads s1))
  let s3 := assignSearch ((s2.grids.map (·.1)).foldl checkGrid (retryWindows s2))
  (s.waves.map (·.1)).foldl (fun t u => modWave t u (noteWakes s3)) s3

/-! ### The moves the device makes by itself -/


/-- The held effects that are due: joins, then what is no event of a barrier, then leaves, then arrivals (R95), each in
the order of their issue; scratchpad requests come seat by seat from the one after the last served (R183). -/
def heldMoves (s : State) : List Move :=
  let due := s.held.filter (fun h => decide (h.due ≤ s.now))
  let spad := due.filter (fun h => isSpadEffect h.eff)
  ((due.filter (fun h => isJoin h.eff)) ++
    (due.filter (fun h => !isJoin h.eff && !isLeave h.eff && !isArrive h.eff && !isSpadEffect h.eff)) ++
    (List.range 8).flatMap (fun n => spad.filter (fun h => decide (seatDistance s h = n))) ++
    (due.filter (fun h => isLeave h.eff)) ++ due.filter (fun h => isArrive h.eff)).map heldMove

/-- Writes on their way, and buffered deck items. -/
def flightMoves (s : State) : List Move :=
  s.flights.flatMap (fun f => if f.2.pos.isNone then [execWriteApplyHome f.1] else f.2.todo.map (execWriteApplyRemote f.1)) ++
  s.parts.flatMap (fun p => p.2.decks.flatMap (fun d => d.2.flying.map (fun g => execDeckAppend g.1)))

/-- Lock bits, and long operations that may complete. -/
def waveOpMoves (s : State) : List Move :=
  s.cores.flatMap (fun c => c.2.locks.flatMap (fun l => [execLockExpiry c.1 l.1, execLockWaitGrant c.1 l.1])) ++
  s.waves.flatMap (fun w => w.2.ops.map (fun o => execLongOpComplete o.id))

/-- The queue fences in progress. -/
def markerGroups (c : Core) : List Nat :=
  (c.queues.flatMap (fun q => q.entries.filterMap (fun e => match e.work with
    | .marker g => some g
    | _ => none))).eraseDups

/-- The engines, the matrix arrays and the reduction fabric. -/
def engineMoves (s : State) : List Move :=
  s.cores.flatMap (fun c =>
    (List.range c.2.queues.length).flatMap (fun q => [execEngineEntryPerform c.1 q, execEngineEntryComplete c.1 q]) ++
    (markerGroups c.2).map execQfenceComplete ++ [execArrayOpFinish c.1]) ++
  (s.cores.map (fun c => c.1 + 1)).map execArrayGrant ++
  s.parts.flatMap (fun p =>
    p.2.rounds.flatMap (fun r => r.2.items.map (fun y => execRoundForm y.entry.id)) ++
    p.2.cohorts.flatMap (fun c => c.2.pending.map (fun y => execRoundForm y.entry.id)))

/-- The fetches and wakes of the waves. -/
def splitMoves (s : State) : List Move :=
  s.waves.flatMap (fun w => execWaveResumeFetch w.1 ::
    w.2.splits.flatMap (fun x => [execParkedSplitWake w.1 x.entry, execClauseFetch w.1 x.entry]))

/-- Blocks and grids as they come and go. -/
def blockMoves (s : State) : List Move :=
  s.blocks.flatMap (fun b => [execBlockRetire b.1, execPreemptDraining b.1, execPreemptWriting b.1, execPreemptSaved b.1,
    execShrinkRequestClear b.1]) ++
  s.grids.flatMap (fun g => execGridEligible g.1 none :: g.2.grants.map (fun x => execGrantEnd g.1 x.1))

/-- The sets of decks that parked splits wait for. -/
def deckSets (l : List Wave) : List DWord :=
  (l.flatMap (fun w => (allSplits w).filterMap (fun x => match x.park with
    | some p => (match p.cond with
      | .decks m _ false => some m
      | _ => none)
    | none => none))).eraseDups

/-- The scheduler of a partition. -/
def placeMoves (s : State) : List Move :=
  s.parts.flatMap (fun p =>
    [execRestorePlacement p.1, execPlacementEvent p.1] ++
    ((s.blocks.map (fun b => execSaveOut b.1)) ++
      (deckSets (s.waves.map (·.2) ++ s.images.flatMap (fun x => x.2.waves.map (·.2)))).map (execShowdownQuiescence p.1)))

/-- The worker cores and control pairs: commands, rings, windows, streams, gating. -/
def hostMoves (s : State) : List Move :=
  s.parts.flatMap (fun p =>
    (if p.2.ring.isEmpty then [] else
      [execCreateContext p.1, execLaunchGrid p.1, execSave p.1, execLaunchImage p.1, execOpenIngressWindow p.1,
        execCloseIngressWindow p.1, execConfigureDeck p.1, execKeyStream p.1, execRemovePeer p.1, execTrumpControls p.1,
        execWakeFilterAndIdleInterval p.1, execResetPartition p.1, execCommandRingStall p.1]) ++
    p.2.windows.map (fun w => execIngressBackpressureTimeout p.1 w.index) ++ [execEventRingWrite p.1]) ++
  s.streams.flatMap (fun x => [execStreamDrainComplete x.1, execStreamDrainFail x.1]) ++
  s.ports.map (fun w => execSharedRequestTimeout w.id) ++
  s.hubs.flatMap (fun h => [execHubDieUngate h.1, execHubDieGate h.1])

/-- Core health, rollbacks, and the Trump machinery. -/
def coreMoves (s : State) : List Move :=
  s.cores.flatMap (fun c => execRollbackResume c.1 none :: execHealthRecover c.1 ::
    (List.range c.2.seats.length).map (fun n => execRollbackResume c.1 (some n))) ++
  s.dies.flatMap (fun d => (List.range d.2.trump.length).map (execCandidateExpiry d.1) ++
    d.2.trials.map (fun t => execProbationCompare t.id)) ++
  s.tags.flatMap (fun t => [execAuditComplete t.1, execAuditEscalate t.1, execWalkAndScrubComplete t.1]) ++ [execHotnessHalve]

/-- Every move the device makes by itself, in the order in which they are tried. Log entry 6 (DESIGN CHOICE). -/
def ownMoves (s : State) : List Move :=
  heldMoves s ++ flightMoves s ++ waveOpMoves s ++ engineMoves s ++ blockMoves s ++ coreMoves s ++ hostMoves s ++
  placeMoves s ++ splitMoves s

/-! ### The choice of an issue (R70 to R73, R81) -/

/-- What may issue now: a wave's number, the wave, the split, its pipe; or a search context of the seat `wave` names, and
the level its audit is raised to. -/
structure Cand where
  uid : Nat
  wave : Wave
  entry : Nat
  pipe : Pipe
  search : Option Nat := none
  raised : Option Nat := none

/-- The pipe of the next word: a word that is no instruction issues on SA. -/
def nextPipe (x : Except DecodeError Instr) : Pipe :=
  match x with
  | .ok i => pipeOf i
  | .error _ => .sa

/-- Whether a pipe of a seat is free (R70, R119). -/
def pipeFree (x : Seat) (now : Nat) : Pipe → Bool
  | .v => decide (nth x.free 0 0 ≤ now ∨ nth x.free 1 0 ≤ now)
  | .sa => decide (nth x.free 2 0 ≤ now)
  | .m => decide (nth x.free 3 0 ≤ now)
  | .q => decide (nth x.free 4 0 ≤ now)

/-- The wave with the splits that may issue: a wave that is being saved or is stopped only ends its candidate runs
(R293, R342). -/
def issuing (s : State) (w : Wave) : Wave :=
  if waveRuns s w then w
  else if w.state = .saving ∨ w.state = .savingDebug ∨ w.state = .savingStep ∨ w.state = .debug then { w with splits := w.splits.filter (fun x => x.trump.isSome) }
  else { w with splits := [] }

/-- Whether R38 holds back a split's next instruction: its flag stands at 63 and its issue would raise it, so that it
does not issue (R71). Log entry 89 (DEDUCED). -/
def heldBack (s : State) (u : Nat) (w : Wave) (x : Split) : Bool :=
  awaitsFlag s w x && (match nextInstr x with
    | .ok i => (match exec i { s with cur := some (u, x.entry) } with
      | .next t => decide ((waveOf t u).nextIssue = s.now + 1)
      | _ => false)
    | .error _ => false)

/-- A wave as a candidate, if it is ready (R66, R71): its lowest ready split issues (R81). -/
def candOf (s : State) (u : Nat) (w : Wave) : Option Cand :=
  if !wavePasses s w then none
  else
    match lowestSplit ((issuing s w).splits.filter (fun x => splitReady w x && !heldBack s u w x)) with
    | none => none
    | some sp =>
      let x := nextInstr sp
      let waits := match x with
        | .ok i => mustWait s u w sp i
        | .error _ => false
      if !waits && pipeFree (seatAt (coreOf s w.core) w.seat) s.now (nextPipe x) then
        some { uid := u, wave := w, entry := sp.entry, pipe := nextPipe x }
      else none

/-- A search context as a candidate, if it is ready (R71, R73). -/
def searchCand (s : State) (p : Nat × Nat × Nat) : Option Cand :=
  match searchAt s p.1 p.2.1 p.2.2 with
  | some x =>
    match decode x.words with
    | .ok (i, _) =>
      if x.next ≤ s.now ∧ !seatStalled s p.1 p.2.1 ∧ pipeFree (seatAt (coreOf s p.1) p.2.1) s.now (pipeOf i) then
        some { uid := 0, wave := { core := p.1, seat := p.2.1, slot := 16 + p.2.2 }, entry := 0, pipe := pipeOf i
               search := some p.2.2, raised := searchLevel s x }
      else none
    | .error _ => none
  | none => none

/-- The waves and search contexts that may issue. -/
def candidates (s : State) : List Cand :=
  s.waves.filterMap (fun x => candOf s x.1 x.2) ++
  (s.dies.map (·.1)).flatMap (fun d => (searchPlaces s d).filterMap (searchCand s))

/-- How a candidate ranks at its pipe: its level, then its place in the rotation after the one last chosen (R72). A search
context has a place while its audit is raised, and ranks below every level otherwise (R73). -/
def rankOf (s : State) (c : Cand) : Nat :=
  let x := seatAt (coreOf s c.wave.core) c.wave.seat
  let p := pipeIndex c.pipe
  let ptr := if p = 0 ∧ x.vFrom.1 = s.now then x.vFrom.2 else nth x.ptr p 17
  let place := (c.wave.slot + 17 - ptr + 18) % 18
  match c.search, c.raised with
  | none, _ => (gridOf s c.wave.grid).launch.level * 18 + place
  | some _, some l => l * 18 + place
  | some i, none => 64 * 18 + i

/-- Whether two candidates compete for one pipe of one seat. -/
def rivals (a b : Cand) : Bool :=
  decide (a.wave.core = b.wave.core ∧ a.wave.seat = b.wave.seat ∧ pipeIndex a.pipe = pipeIndex b.pipe)

/-- The candidate that issues next: at the seat and pipe of the first, the one that ranks first (R72). -/
def pickIssue (s : State) : Option Cand :=
  match candidates s with
  | [] => none
  | a :: r => some ((r.filter (rivals a)).foldl (fun m c => if rankOf s c < rankOf s m then c else m) a)

/-! ### The issue -/

/-- A word that the decoder stops on traps with the cause of that stop (R29). Log entry 3 (DESIGN CHOICE). -/
def badWord (s : State) (u : Nat) (sp : Split) (e : DecodeError) : State :=
  let trap (cause : Cause) (x : Word) : State :=
    let c := ctxFor s u (waveOf s u) sp (.illegalOpcode x)
    trapAt s { c with len := 1 + litWords x } cause x
  match e with
  | .illegalField x => trap .illegalField x
  | .illegalOperand x => trap .illegalOperand x
  | .literalPastBody _ x => trap .illegalClause x
  | .noWord => withSplit s u sp.entry (fun x => { x with clause := none, opened := false })

/-- Whether a wave has issued an instruction in this cycle. -/
def issuedNow (s : State) (u : Nat) : Bool := s.undo.any (fun y => decide (y.wave = u ∧ y.at_ = s.now) && y.entry.isSome)

/-- What follows an issue: no split issues, a candidate run may end, a stepped wave that has issued its instruction stops
again (R293, R350). -/
def afterIssue (u e : Nat) (s : State) : State :=
  let t := { endRun s u e with cur := none }
  if issuedNow s u then modWave t u (fun w => if w.state = .oneStep then { noSample w with state := .debug } else w) else t

/-- An outcome with its next state changed. -/
def onNext (f : State → State) : Host.Outcome State Fault Refusal → Host.Outcome State Fault Refusal
  | .next s => .next (f s)
  | .fault x => .fault x
  | .refused x => .refused x

/-- The issue of a candidate: its clause is opened, and `exec` runs the instruction its word decodes to. A candidate run
that begins here issues at the next move. -/
def issueMove (s : State) (c : Cand) : Host.Outcome State Fault Refusal :=
  let before := (splitOf (waveOf s c.uid) c.entry).any (fun x => x.trump.isSome)
  let s1 := openClause s c.uid c.entry

  match splitOf (waveOf s1 c.uid) c.entry with
  | none => .next s1
  | some sp =>
    if sp.trump.isSome && !before then .next (endRun s1 c.uid c.entry)
    else match nextInstr sp with
      | .ok i => onNext (afterIssue c.uid c.entry) (exec i { findOperands s1 c.uid c.entry i with cur := some (c.uid, c.entry) })
      | .error e => .next (afterIssue c.uid c.entry (badWord s1 c.uid sp e))

/-! ### A cycle passes -/

/-- Whether some split still runs under a probation trial. -/
def trialHeld (s : State) (n : Nat) : Bool :=
  s.waves.any (fun w => (allSplits w.2).any (fun x => decide (x.sampled = some n)))

/-- A core a cycle later: a suspect core counts its redundant execution (R327). -/
def agedCore (s : State) (c : Nat) (x : Core) : Core :=
  let pair (b : Nat × Block) : Bool := b.2.redundant.isSome && (decide (b.2.core = c) || decide (b.2.redundant = some c))
  if x.health = .suspect && s.blocks.any pair then { x with healthAt := x.healthAt + 1 } else x

/-- One cycle passes (R8): what only the last cycles needed is forgotten (R313), and trials that no split runs any more.
Log entry 83 (DESIGN CHOICE). -/
def nextCycle (s : State) : State :=
  { s with
    now := s.now + 1
    cores := s.cores.map (fun c => (c.1, agedCore s c.1 c.2))
    dies := s.dies.map (fun d => (d.1, { d.2 with trials := d.2.trials.filter (fun t => t.done || trialHeld s t.id) }))
    parts := s.parts.map (fun p => if partBusy s p.1 || !(hubOf s p.2.hub).guests.isEmpty then
      (p.1, { p.2 with idleSince := s.now + 1 }) else p)
    arrivals := s.arrivals.filter (fun a => keepsLog s (waveOf s a.wave) a.at_) }

/-- The move from outside that may come now, and the state without it. Log entry 5 (DESIGN CHOICE). -/
def outsideMove (s : State) : Option (Instr × State) :=
  match s.inputs with
  | (t, i) :: r => if t ≤ s.now then some (i, { s with inputs := r }) else none
  | [] => none

/-- Whether an outcome says that the move's condition does not hold yet. Log entry 82 (DESIGN CHOICE). -/
def isEarly : Host.Outcome State Fault Refusal → Bool
  | .refused (.notEnabled _) => true
  | .refused .noIssuer => true
  | _ => false

/-- What the device does by itself: a comparison fails (R329), a move, an issue, or the passing of a cycle.
Log entry 5 (DESIGN CHOICE). -/
def deviceTurn (s : State) : Host.Outcome State Fault Refusal :=
  match mismatchAt s with
  | some x => .next (mismatch s x.1 x.2.1 x.2.2)
  | none => match firstMade (ownMoves s) s with
    | some t => .next t
    | none => match pickIssue s with
      | some c => (match c.search with
        | some i => .next (searchIssue s c.wave.core c.wave.seat i)
        | none => issueMove s c)
      | none => .next (nextCycle s)

/-- A turn: the move from outside whose time has come and whose condition holds, or else the device's.
Log entry 4 (DEDUCED). -/
def turn (s : State) : Host.Outcome State Fault Refusal :=
  match outsideMove s with
  | some x => let o := exec x.1 x.2; if isEarly o then deviceTurn s else o
  | none => deviceTurn s

/-! ### Where the next instruction is fetched -/

/-- The virtual address of the clause that `State.withFetchWord` places. -/
def rigVa : Nat := 0x40000
/-- The physical address of its page. -/
def rigPage : Nat := 0x50000

/-- The words of that clause: a header without a wait mask, flag A 0, flag B 1, then the instruction's words and zeros. -/
def rigWords (nbits w : Nat) : List Word :=
  0xFC00001F :: (wordsOfBytes (tableBytes 12 (w % 2 ^ nbits)) ++ List.replicate 13 0)

/-- The page tables of the rig's context and its code, as bytes. -/
def rigBytes (nbits w : Nat) : List (Nat × Byte) :=
  addrBytes (0x10000 + 8 * tableIndex 3 rigVa) (toBytes 8 0x20001) ++
  addrBytes (0x20000 + 8 * tableIndex 2 rigVa) (toBytes 8 0x30001) ++
  addrBytes (0x30000 + 8 * tableIndex 1 rigVa) (toBytes 8 0x40001) ++
  addrBytes (0x40000 + 8 * tableIndex 0 rigVa) (toBytes 8 (rigPage + 0xF)) ++
  addrBytes rigPage ((rigWords nbits w).flatMap (fun x => toBytes 4 x.toNat))

/-- A machine in which one wave is about to issue an instruction: one partition with one context, grid and block, the
wave's clause in its memory and fetched. Nothing else is under way. Log entry 4 (DEDUCED). -/
def rig (s : State) (nbits w : Nat) : State :=
  let bar : Barrier := { m := 1 }
  let g : Grid := { handle := 1, launch := { entry := rigVa }, state := 1, eligible := true, nextBlock := 1 }
  let sp : Split := { pc := rigVa, clause := some { pc := rigVa, words := rigWords nbits w }, runStart := rigVa }
  { s with
    cur := none, inputs := [], upsets := [], held := [], lags := [], flights := [], tags := [], images := [], ports := []
    nextId := s.nextId + 1, cores := [], dies := [], hubs := [], streams := [(0, { part := 0, world := 0, key := none })]
    mem := memWrite s.mem (rigBytes nbits w)
    parts := [(0, newPartition { s with dies := [], hubs := [] } [0] 0 Config.defaultTimeout 0)]
    ctxs := [(1, { root := 0x10000 })]
    grids := [(0, { g with ctx := 1 })]
    blocks := [(0, { members := [(s.nextId, { f := [0, 0, 0, 0], e := [0, 0, 0, 0] })], barriers := [bar, bar, bar, bar] })]
    waves := [(s.nextId, { ctx := 1, block := some 0, splits := [sp] })] }

end Sys2Proof.Machine
end

