-- ==== Sys2Proof/Machine/Step.lean ====
section
/-! DEFINITION. One step of the machine, and the placement of an instruction where the next step fetches it. -/

namespace Sys2Proof.Machine

/-- One step: what follows from the state is settled, then one move is made: from outside, of the device, the issue of
one instruction, or the passing of a cycle. Log entry 6 (DESIGN CHOICE). -/
def step (s : State) : Host.Outcome State Fault Refusal := turn (housekeep s)

/-- The machine about to issue the instruction whose bits are `w`, as the opcode table numbers them: it stands in the
clause that the next step issues from, and in memory (log entry 4 says how a program comes to run from reset).
Log entry 4 (DEDUCED). -/
def State.withFetchWord (s : State) (nbits w : Nat) : State := rig s nbits w

end Sys2Proof.Machine
end

