-- ==== Sys2Proof/Safety.lean ====
section
/-! DEFINITION. The terms the claims are stated in: when an instruction is ready to issue, what an issue leaves alone,
what a write of registers leaves, what taking a trap leaves, and the canonical form of the machine's memories. -/

namespace Sys2Proof.Machine

/-! ### Ready to issue (R29, R71, R149) -/

/-- The guard is off or ignored, or every lane of the split reads a clean guard bit (R32, R321). -/
def guardClean (i : Instr) (w : Wave) (sp : Split) : Prop :=
  guardOn sp.mode = false ∨ ignoresGuard i = true ∨
    ∀ l ∈ lanesOf (sp.mask &&& w.live), tagAt (pReg w (guardReg sp.mode)).tags l = .clean

/-- Split `sp` of wave `u` issues `i`, nothing makes it wait, none of the causes of orders 1 to 7 of R29 applies, and the
guard is clean. -/
structure Ready (i : Instr) (s : State) (u : Nat) (w : Wave) (sp : Split) : Prop where
  cur : s.cur = some (u, sp.entry)
  wave : mget s.waves u = some w
  split : splitOf w sp.entry = some sp
  free : mustWait s u w sp i = false
  room : flagFull w sp i = false
  clear : issueCause s w sp i = none
  guard : guardClean i w sp

/-! ### What an issue leaves alone -/

/-- Outside wave `u` nothing has changed that an instruction could read: every byte of global memory as every die sees
it, every byte of every scratchpad and tile file with its tags, the other waves, grids, contexts, partitions, dies, hub
dies, images, streams and port writes. -/
structure Apart (s t : State) (u : Nat) : Prop where
  view : ∀ d a, viewByte t d a = viewByte s d a
  home : ∀ a, memGet t.mem a = memGet s.mem a ∧ granTag t a = granTag s a
  blocks : t.blocks = s.blocks
  others : ∀ x, x ≠ u → mget t.waves x = mget s.waves x
  grids : t.grids = s.grids
  ctxs : t.ctxs = s.ctxs
  parts : t.parts = s.parts
  dies : t.dies = s.dies
  hubs : t.hubs = s.hubs
  images : t.images = s.images
  streams : t.streams = s.streams
  ports : t.ports = s.ports
  flights : t.flights = s.flights
  now : t.now = s.now

/-- A wave's record without registers, sticky flags, split table and its counters, signature, watchdog count and issue
time: window, live mask, trap registers, trap frame, keys, cohort mapping, batches, flags and operations are left. -/
def Wave.rest (w : Wave) : Wave :=
  { w with
    v := [], s := [], a := [], p := [], wstat := 0, sig := 0, wdog := 0, nextIssue := 0, waitTag := none
    splits := [], deferred := [], fills := 0, spillRecs := 0 }

/-- Instruction `i` has issued from `sp` and left wave `w'`, whose split is `sp'` (R70, R79, R317). -/
structure Issued (i : Instr) (s t : State) (u : Nat) (w w' : Wave) (sp sp' : Split) : Prop where
  wave : mget t.waves u = some w'
  apart : Apart s t u
  split : splitOf w' sp.entry = some sp'
  sig : sp.trump = none → w'.sig = crc (crc w.sig i.word) (maskTerm sp.mask w.live)
  wdog : sp.trump = none → w'.wdog = if isYield i then 0 else w.wdog + 1
  next : w'.nextIssue = s.now + Config.barrel

/-- The registers of `w'` are those of `w`: every lane of every varying register of the stack, and every uniform, affine
and predicate register, with their tags. -/
structure RegsSame (w w' : Wave) : Prop where
  v : ∀ k l, vLane (mgetD w'.v k {}) l = vLane (mgetD w.v k {}) l
  s : ∀ n, sReg w' n = sReg w n
  a : ∀ n, aReg w' n = aReg w n
  p : ∀ n, pReg w' n = pReg w n

/-- The uniform register `n` of `w'` holds `x`, every other register what it held in `w`. -/
structure SetsU (w w' : Wave) (n : Nat) (x : TWord) : Prop where
  here : sReg w' n = x
  v : ∀ k l, vLane (mgetD w'.v k {}) l = vLane (mgetD w.v k {}) l
  s : ∀ m, m ≠ n → sReg w' m = sReg w m
  a : ∀ m, aReg w' m = aReg w m
  p : ∀ m, pReg w' m = pReg w m

/-! ### A write of lane results (R104, R105, R118) -/

/-- Half `h` (0 low, 1 high) of a lane result as a register lane. -/
def halfOf (h : Nat) (x : DWord × Tag) : TWord := ⟨(x.1 >>> (32 * h)).setWidth 32, x.2⟩

/-- Lane `l` of register `k` of the stack after a write of results `f` into `d`: a varying destination takes the results
of the active lanes. -/
def vAfter (w : Wave) (act : LaneMask) (d : Operand) (wide : Bool) (f : Nat → DWord × Tag) (k l : Nat) : TWord :=
  match d with
  | .v n =>
    if inMask act l = true ∧ k = w.wbase + n then halfOf 0 (f l)
    else if inMask act l = true ∧ wide = true ∧ k = w.wbase + (n + 1) then halfOf 1 (f l)
    else vLane (mgetD w.v k {}) l
  | _ => vLane (mgetD w.v k {}) l

/-- Uniform register `m` after a write of results `f` into `d`: a uniform destination takes the result of lane 0, unless
the instruction writes nothing (`skip`). -/
def sAfter (w : Wave) (skip : Bool) (d : Operand) (wide : Bool) (f : Nat → DWord × Tag) (m : Nat) : TWord :=
  match d with
  | .s n =>
    if skip = false ∧ m = n then halfOf 0 (f 0)
    else if skip = false ∧ wide = true ∧ m = n + 1 then halfOf 1 (f 0)
    else sReg w m
  | _ => sReg w m

/-- The registers after an instruction with destination `d` and lane results `f` (a pair if `wide`), under ACTIVE `act`:
varying and uniform registers as above, a predicate destination takes the bits that are not zero in the active lanes;
every other lane and register is unchanged. -/
structure Wrote (w w' : Wave) (act : LaneMask) (skip : Bool) (d : Operand) (wide : Bool) (f : Nat → DWord × Tag) : Prop where
  v : ∀ k l, l < 64 → vLane (mgetD w'.v k {}) l = vAfter w act d wide f k l
  s : ∀ m, sReg w' m = sAfter w skip d wide f m
  a : ∀ n, aReg w' n = aReg w n
  p : ∀ n l, l < 64 →
    (inMask (pReg w' n).bits l = if inMask act l = true ∧ d = .p n then (f l).1 != 0 else inMask (pReg w n).bits l) ∧
    (tagAt (pReg w' n).tags l = if inMask act l = true ∧ d = .p n then (f l).2 else tagAt (pReg w n).tags l)

/-- A register instruction is done: it has issued, its split stands at the next word, the rest of its wave stands, and it
has written `f`. -/
structure WroteBy (i : Instr) (s t : State) (u : Nat) (w : Wave) (sp : Split) (d : Operand) (wide : Bool)
    (f : Nat → DWord × Tag) : Prop where
  issued : Issued i s t u w (waveOf t u) sp (stepOver sp (1 + i.lits.length))
  rest : (waveOf t u).rest = w.rest
  held : t.held = s.held
  regs : Wrote w (waveOf t u) (activeMask w sp i) (decide (activeMask w sp i = 0)) d wide f

/-- Element `k` of the integer operand `x` in lane `l`, as an integer under the type (R43, R118). -/
def intAt (c : Ctx) (x : Operand) (l k : Nat) : Int := intElem c (elemOf (elemBits (itype c.sp.mode)) k (readI c x l).val)

/-- The elements in a register or pair of the integer type (R118). -/
def intCount (c : Ctx) : Nat := intWidth c / elemBits (itype c.sp.mode)

/-- Element `k` of the float operand `x` in lane `l`. -/
def fltAt (c : Ctx) (x : Operand) (l k : Nat) : Nat := elemOf (floatBits c) k (readF c x l).val

/-- The elements in a register or pair of the float type. -/
def floatCount (c : Ctx) : Nat := floatWidth c / floatBits c

/-- The union of flags `h k` for `k` below `n`. -/
def flagsBelow (n : Nat) (h : Nat → Sticky) : Sticky := (List.range n).foldl (fun x k => x ||| h k) 0

/-- The flags an instruction raises whose lane `l` raises `h l` (R53): a uniform destination those of its one result, any
other those of the active lanes. -/
def flagsOf (d : Operand) (act : LaneMask) (skip : Bool) (h : Nat → Sticky) : Sticky :=
  match d with
  | .s _ => if skip then 0 else h 0
  | _ => (lanesOf act).foldl (fun x l => x ||| h l) 0

/-- A ready register instruction of plain code is done: it answers a next state in which it has written some lane results
`g` into `d`, of which `P` holds. -/
def RegDone (i : Instr) (s : State) (u : Nat) (w : Wave) (sp : Split) (d : Operand) (wide : Bool)
    (P : State → (Nat → DWord × Tag) → Prop) : Prop :=
  Ready i s u w sp → sp.trump = none → ∃ t g, exec i s = .next t ∧ WroteBy i s t u w sp d wide g ∧ P t g

/-- A ready instruction on elements of `n` bits, `m` to a register or pair, is done: element `k` of lane `l` of its result
is `(f l k).1`, the result carries the `Merge` of the tags `tag l`, and `wstat` gains exactly the flags `f` raises. -/
def ElementsDone (i : Instr) (s : State) (u : Nat) (w : Wave) (sp : Split) (d : Operand) (wide : Bool) (n m : Nat)
    (tag : Nat → List Tag) (f : Nat → Nat → Nat × Sticky) : Prop :=
  RegDone i s u w sp d wide (fun t g =>
    (∀ l k, k < m → elemOf n k (g l).1 = (f l k).1 % 2 ^ n) ∧
    (∀ l, (g l).2 = mergeTags (tag l)) ∧
    (waveOf t u).wstat = w.wstat ||| flagsOf d (activeMask w sp i) (decide (activeMask w sp i = 0))
      (fun l => flagsBelow m (fun k => (f l k).2)))

/-- A ready integer instruction with operands `xs` is done (R118, R122): element `k` of lane `l` is `f c l k`. -/
def IntDone (i : Instr) (s : State) (u : Nat) (w : Wave) (sp : Split) (d : Operand) (xs : List Operand)
    (f : Ctx → Nat → Nat → Nat × Sticky) : Prop :=
  let c := ctxFor s u w sp i
  ElementsDone i s u w sp d (wideI (itype sp.mode)) (elemBits (itype sp.mode)) (intCount c)
    (fun l => xs.map (fun x => (readI c x l).tag)) (f c)

/-- A ready float instruction with operands `xs` is done (R118, R130): element `k` of lane `l` is `f c l k`. -/
def FloatDone (i : Instr) (s : State) (u : Nat) (w : Wave) (sp : Split) (d : Operand) (xs : List Operand)
    (f : Ctx → Nat → Nat → Nat × Sticky) : Prop :=
  let c := ctxFor s u w sp i
  ElementsDone i s u w sp d (decide (ftype sp.mode = 3)) (floatBits c) (floatCount c)
    (fun l => xs.map (fun x => (readF c x l).tag)) (f c)

/-- A ready register instruction whose lane results are values of their own is done: lane `l` of its result is `f c l`
with the `Merge` of the tags `tag c l`, and it raises no flag. -/
def LanesDone (i : Instr) (s : State) (u : Nat) (w : Wave) (sp : Split) (d : Operand) (wide : Bool)
    (tag : Ctx → Nat → List Tag) (f : Ctx → Nat → DWord) : Prop :=
  let c := ctxFor s u w sp i
  RegDone i s u w sp d wide (fun t g =>
    (∀ l, g l = (f c l, mergeTags (tag c l))) ∧ (waveOf t u).wstat = w.wstat)

/-- As `ElementsDone`, for an instruction that raises no flag. -/
def BitsDone (i : Instr) (s : State) (u : Nat) (w : Wave) (sp : Split) (d : Operand) (wide : Bool) (n m : Nat)
    (tag : Nat → List Tag) (f : Nat → Nat → Nat) : Prop :=
  RegDone i s u w sp d wide (fun t g =>
    (∀ l k, k < m → elemOf n k (g l).1 = f l k % 2 ^ n) ∧ (∀ l, (g l).2 = mergeTags (tag l)) ∧
    (waveOf t u).wstat = w.wstat)

/-- A ready comparison of elements of `n` bits, `m` to an operand, is done (R129, R135): a predicate or uniform
destination takes 1 or 0 for element 0, a varying one all ones or zero in each element; exactly the flags of the
comparisons made are raised. -/
def CompareDone (i : Instr) (s : State) (u : Nat) (w : Wave) (sp : Split) (d : Operand) (wide : Bool) (n m : Nat)
    (tag : Nat → List Tag) (rel : Nat → Nat → Bool × Sticky) : Prop :=
  RegDone i s u w sp d wide (fun t g =>
    (∀ l, (g l).2 = mergeTags (tag l)) ∧
    (match d with
      | .p _ | .s _ =>
        (∀ l, (g l).1 = if (rel l 0).1 then 1 else 0) ∧
        (waveOf t u).wstat = w.wstat ||| flagsOf d (activeMask w sp i) (decide (activeMask w sp i = 0)) (fun l => (rel l 0).2)
      | .v _ =>
        (∀ l k, k < m → elemOf n k (g l).1 = if (rel l k).1 then 2 ^ n - 1 else 0) ∧
        (waveOf t u).wstat = w.wstat ||| flagsOf d (activeMask w sp i) (decide (activeMask w sp i = 0))
          (fun l => flagsBelow m (fun k => (rel l k).2))
      | _ => True))

/-- A ready register instruction is done whose lane results, with the tags read for them and the flags they raise, are
`f`. -/
def ResultsDone (i : Instr) (s : State) (u : Nat) (w : Wave) (sp : Split) (d : Operand) (wide : Bool)
    (f : Ctx → Nat → LaneRes) : Prop :=
  let c := ctxFor s u w sp i
  RegDone i s u w sp d wide (fun t g =>
    (∀ l, g l = ((f c l).1, mergeTags (f c l).2.1)) ∧
    (waveOf t u).wstat = w.wstat ||| flagsOf d (activeMask w sp i) (decide (activeMask w sp i = 0)) (fun l => (f c l).2.2))

/-- An instruction is done that changes no register: it has issued, its split stands at the next word, the rest of its
wave and every register and sticky flag stand. -/
structure PassedBy (i : Instr) (s t : State) (u : Nat) (w : Wave) (sp sp' : Split) : Prop where
  issued : Issued i s t u w (waveOf t u) sp sp'
  rest : (waveOf t u).rest = w.rest
  regs : RegsSame w (waveOf t u)
  wstat : (waveOf t u).wstat = w.wstat

/-- The whole of predicate `n` is written with the bits `m` and the tags `tag`; every other register stands. -/
structure SetsP (w w' : Wave) (n : Nat) (m : LaneMask) (tag : Nat → Tag) : Prop where
  bits : (pReg w' n).bits = m
  tags : ∀ l, l < 64 → tagAt (pReg w' n).tags l = tag l
  v : ∀ k l, vLane (mgetD w'.v k {}) l = vLane (mgetD w.v k {}) l
  s : ∀ j, sReg w' j = sReg w j
  a : ∀ j, aReg w' j = aReg w j
  p : ∀ j, j ≠ n → pReg w' j = pReg w j

/-- The affine register `n` is written with `x`; every other register stands. -/
structure SetsA (w w' : Wave) (n : Nat) (x : AReg) : Prop where
  here : aReg w' n = x
  v : ∀ k l, vLane (mgetD w'.v k {}) l = vLane (mgetD w.v k {}) l
  s : ∀ j, sReg w' j = sReg w j
  a : ∀ j, j ≠ n → aReg w' j = aReg w j
  p : ∀ j, pReg w' j = pReg w j

/-- A long operation of flag `f` is under way beside those there were: the flag counts it, and `o` is the newest of the
wave's operations (R38, R39). -/
def LongBegun (w w' : Wave) (o : LongOp) : Prop :=
  w'.ops = w.ops ++ [o] ∧ ∀ f, nth w'.flags f 0 = if f = o.flag then nth w.flags f 0 + 1 else nth w.flags f 0

/-- A ready instruction of plain code answers a next state: it has issued and its split stands at the next word; the rest
of the wave, the sticky flags and the held effects stand; and `P` holds. -/
def SimplyDone (i : Instr) (s : State) (u : Nat) (w : Wave) (sp : Split) (P : State → Prop) : Prop :=
  Ready i s u w sp → sp.trump = none → ∃ t, exec i s = .next t ∧
    Issued i s t u w (waveOf t u) sp (stepOver sp (1 + i.lits.length)) ∧ (waveOf t u).rest = w.rest ∧
    (waveOf t u).wstat = w.wstat ∧ t.held = s.held ∧ P t

/-- A ready instruction with affine destination `n` is done (R102, R103, R104): with ACTIVE empty it writes nothing; under
a 64-bit type a stride outside 32 bits traps with AFFINE_OVERFLOW and 64; with `aov` or `sat` a live lane whose exact value
leaves the type traps, `trapval` the lowest; otherwise base, stride and tag are written. -/
def AffineDone (i : Instr) (s : State) (u : Nat) (w : Wave) (sp : Split) (n : Nat) (base : DWord) (stride : Int)
    (tags : List Tag) (exact_ : Nat → Int) : Prop :=
  let c := ctxFor s u w sp i
  let out : Bool := wideI (itype sp.mode) && decide (stride < -(2 ^ 31 : Int) ∨ (2 ^ 31 : Int) ≤ stride)
  let leaves (l : Nat) : Bool := decide (exact_ l < intMin (isSigned (itype sp.mode)) (elemBits (itype sp.mode)) ∨
    intMax (isSigned (itype sp.mode)) (elemBits (itype sp.mode)) < exact_ l)
  let tested : Bool := aovOn sp.mode || satOn sp.mode
  (activeMask w sp i = 0 → SimplyDone i s u w sp (fun t => RegsSame w (waveOf t u))) ∧
  (activeMask w sp i ≠ 0 → out = true → Ready i s u w sp → exec i s = .next (trapAt s c .affineOverflow 64)) ∧
  (activeMask w sp i ≠ 0 → out = false → tested = true → ∀ l, (lanesOf w.live).find? leaves = some l → Ready i s u w sp →
    exec i s = .next (trapAt s c .affineOverflow (BitVec.ofNat 32 l))) ∧
  (activeMask w sp i ≠ 0 → out = false → (tested = true → ∀ l ∈ lanesOf w.live, leaves l = false) →
    SimplyDone i s u w sp (fun t => SetsA w (waveOf t u) n { base := base, stride := BitVec.ofInt 32 stride, tag := mergeTags tags }))

/-- A ready affine instruction whose destination is `z` is done (R101, R102, R103): it makes the tests of an affine
destination, also with ACTIVE empty, and writes nothing. -/
def AffineTested (i : Instr) (s : State) (u : Nat) (w : Wave) (sp : Split) (stride : Int) (exact_ : Nat → Int) : Prop :=
  let c := ctxFor s u w sp i
  let out : Bool := wideI (itype sp.mode) && decide (stride < -(2 ^ 31 : Int) ∨ (2 ^ 31 : Int) ≤ stride)
  let leaves (l : Nat) : Bool := decide (exact_ l < intMin (isSigned (itype sp.mode)) (elemBits (itype sp.mode)) ∨
    intMax (isSigned (itype sp.mode)) (elemBits (itype sp.mode)) < exact_ l)
  let tested : Bool := aovOn sp.mode || satOn sp.mode
  (out = true → Ready i s u w sp → exec i s = .next (trapAt s c .affineOverflow 64)) ∧
  (out = false → tested = true → ∀ l, (lanesOf w.live).find? leaves = some l → Ready i s u w sp →
    exec i s = .next (trapAt s c .affineOverflow (BitVec.ofNat 32 l))) ∧
  (out = false → (tested = true → ∀ l ∈ lanesOf w.live, leaves l = false) →
    SimplyDone i s u w sp (fun t => RegsSame w (waveOf t u)))

/-- The registers after an instruction whose destination pair `d` takes a result for each half (R137): its low register the
lane results `f`, its high register the lane results `g`; every other lane and register is unchanged. -/
structure WroteHalves (w w' : Wave) (act : LaneMask) (skip : Bool) (d : Operand) (f g : Nat → DWord × Tag) : Prop where
  v : ∀ k l, l < 64 → vLane (mgetD w'.v k {}) l = (match d with
    | .v n => if inMask act l = true ∧ k = w.wbase + (n + 1) then halfOf 0 (g l) else vAfter w act d false f k l
    | _ => vLane (mgetD w.v k {}) l)
  s : ∀ m, sReg w' m = (match d with
    | .s n => if skip = false ∧ m = n + 1 then halfOf 0 (g 0) else sAfter w skip d false f m
    | _ => sReg w m)
  a : ∀ n, aReg w' n = aReg w n
  p : ∀ n, pReg w' n = pReg w n

/-- A ready complex instruction is done (R137): the low register of its destination takes the values of `f`, the high
register those of `g`, each with the `Merge` of the tags of the registers it was formed from, and the flags of both are
raised. -/
def HalvesDone (i : Instr) (s : State) (u : Nat) (w : Wave) (sp : Split) (d : Operand) (f g : Ctx → Nat → LaneRes) : Prop :=
  let c := ctxFor s u w sp i
  let act := activeMask w sp i
  let skip := decide (act = 0)
  Ready i s u w sp → sp.trump = none → ∃ t, exec i s = .next t ∧
    Issued i s t u w (waveOf t u) sp (stepOver sp (1 + i.lits.length)) ∧ (waveOf t u).rest = w.rest ∧ t.held = s.held ∧
    WroteHalves w (waveOf t u) act skip d (fun l => ((f c l).1, mergeTags (f c l).2.1))
      (fun l => ((g c l).1, mergeTags (g c l).2.1)) ∧
    (waveOf t u).wstat = w.wstat ||| flagsOf d act skip (fun l => (f c l).2.2) ||| flagsOf d act skip (fun l => (g c l).2.2)

/-- A ready instruction begins a long operation `o` of which `P` holds (R38, R39, R123): it has issued, its flag counts the
operation, and no register or sticky flag changes before it completes. -/
def LongDone (i : Instr) (s : State) (u : Nat) (w : Wave) (sp : Split) (P : State → LongOp → Prop) : Prop :=
  Ready i s u w sp → sp.trump = none → ∃ t o, exec i s = .next t ∧
    Issued i s t u w (waveOf t u) sp (stepOver sp (1 + i.lits.length)) ∧ RegsSame w (waveOf t u) ∧
    (waveOf t u).wstat = w.wstat ∧ LongBegun w (waveOf t u) o ∧ o.flag = flagOf sp i ∧ o.id = s.nextId ∧ P t o

/-! ### Done, trapping or waiting -/

/-- The effects that `t` holds beyond those of `s`, the newest last, are `es`: each is wave `u`'s, issued now and due D
cycles later (R226). -/
def Holds (s t : State) (u : Nat) (es : List Effect) : Prop :=
  ∃ hs : List Held, t.held = s.held ++ hs ∧ hs.map (·.eff) = es ∧ ∀ h ∈ hs,
    h.wave = u ∧ h.issued = s.now ∧ h.due = s.now + Config.holdback ∧ h.core = (waveOf s u).core ∧
    h.seat = some (waveOf s u).seat ∧ h.block = (waveOf s u).block

/-- Instruction `i` has issued and left its split at `sp'`; otherwise its wave is `w'`, and the effects `es` are held for
it. -/
structure Ends (i : Instr) (s t : State) (u : Nat) (w : Wave) (sp sp' : Split) (w' : Wave) (es : List Effect) : Prop where
  issued : Issued i s t u w (waveOf t u) sp sp'
  rest : (waveOf t u).rest = w'.rest
  regs : RegsSame w' (waveOf t u)
  wstat : (waveOf t u).wstat = w'.wstat
  held : Holds s t u es

/-- A ready instruction of plain code answers a next state: its split is left at `sp'`, its wave is `w'` and the effects
`es` are held; nothing else changes that an instruction could read. -/
def Done (i : Instr) (s : State) (u : Nat) (w : Wave) (sp sp' : Split) (w' : Wave) (es : List Effect) : Prop :=
  Ready i s u w sp → sp.trump = none → ∃ t, exec i s = .next t ∧ Ends i s t u w sp sp' w' es

/-- The split at the word after the instruction and its literals. -/
def nextWord (sp : Split) (i : Instr) : Split := stepOver sp (1 + i.lits.length)

/-- A ready instruction of plain code answers a next state with the split at the next word. -/
def DoneNext (i : Instr) (s : State) (u : Nat) (w : Wave) (sp : Split) (w' : Wave) (es : List Effect) : Prop :=
  Done i s u w sp (nextWord sp i) w' es

/-- The split parked at its yield point until a condition holds (R74). -/
def parkedAt (sp : Split) (i : Instr) (cond : Cond) (target : Option Nat) (runs : Bool := false) : Split :=
  { sp with park := some { cond := cond, target := target, len := 1 + i.lits.length, runs := runs } }

/-- A ready instruction traps with a cause and a value, with no effect of its own (R29, R334). -/
def Traps (i : Instr) (s : State) (u : Nat) (w : Wave) (sp : Split) (cause : Cause) (val : Word) : Prop :=
  Ready i s u w sp → exec i s = .next (trapAt s (ctxFor s u w sp i) cause val)

/-- A ready instruction traps with a cause for which the spec states no value: a free value stands for it. -/
def TrapsOpen (i : Instr) (s : State) (u : Nat) (w : Wave) (sp : Split) (cause : Cause) : Prop :=
  Ready i s u w sp → exec i s = .next (trapAt { s with nextId := s.nextId + 1 } (ctxFor s u w sp i) cause (Config.openTrapval s.nextId))

/-- A ready instruction waits: its wave looks again in the next cycle (R66). -/
def Waits (i : Instr) (s : State) (u : Nat) (w : Wave) (sp : Split) : Prop :=
  Ready i s u w sp → exec i s = .next (stall s u)

/-- The uniform operands of a list are read clean: each a single register, or a pair where the flag says so (R321). -/
def CleanU (i : Instr) (s : State) (u : Nat) (w : Wave) (sp : Split) (xs : List (Operand × Bool)) : Prop :=
  ∀ x ∈ xs, tagU (ctxFor s u w sp i) x.1 x.2 = .clean

/-- The wave with `x` written into a uniform destination under ACTIVE `m`: nothing is written with `m` empty, or where the
destination is `z` (R104). -/
def putU (w : Wave) (m : LaneMask) (d : Operand) (x : TWord) : Wave :=
  match d with
  | .s n => if m = 0 then w else setS w n x
  | _ => w

/-- As `putU`, a pair. -/
def putUPair (w : Wave) (m : LaneMask) (d : Operand) (x : TVal) : Wave :=
  match d with
  | .s n => if m = 0 then w else setSPair w n x
  | _ => w

/-- A branch to `va` may be taken: the word there is a header, or a line without execute permission, which the fetch
meets (R42, R143). -/
def GoodTarget (s : State) (w : Wave) (va : Nat) : Prop :=
  targetTest s w va = .header ∨ targetTest s w va = .noPerm

/-- The target of a branch is tested before any effect (R42, R143): a header is branched to as `P` says, any other word
traps with ILLEGAL_TARGET and the low half of its address, and a line to page in first suspends the wave. -/
def TargetTested (i : Instr) (s : State) (u : Nat) (w : Wave) (sp : Split) (va : Nat) (P : Prop) : Prop :=
  (GoodTarget s w va → P) ∧
  (targetTest s w va = .other → Traps i s u w sp .illegalTarget (BitVec.ofNat 32 va)) ∧
  (∀ m, targetTest s w va = .missing m → Ready i s u w sp → exec i s = .next (suspend s u va m))

/-- The window of wave `w` has moved down to `newW` and left `w'` (R106, R107): the registers below the old `Lo` that the
window needs hold what their images in the spill area give, every other resident register what it held. -/
structure MovedDown (s : State) (u : Nat) (w w' : Wave) (newW : Nat) (bad : BitVec 12) : Prop where
  wbase : w'.wbase = newW
  lo : w'.lo = Nat.min w.lo newW
  rest : w'.rest = { w with wbase := newW, lo := Nat.min w.lo newW }.rest
  fills : w.deferred = [] → w'.fills = satAdd w.fills (w.lo - newW)
  v : ∀ k l, l < 64 → k < Nat.min w.lo newW + w.resident → vLane (mgetD w'.v k {}) l =
    if newW ≤ k ∧ k < w.lo then vLane (fillImage s u w bad (w.spillBase + 384 * k)) l else vLane (mgetD w.v k {}) l
  regs : ∀ n, sReg w' n = sReg w n ∧ aReg w' n = aReg w n ∧ pReg w' n = pReg w n
  wstat : w'.wstat = w.wstat

/-! ### Accesses to memory -/

/-- An access is made: with no watchpoint hit it is done; a hit in a handler is kept for its end; otherwise the access has
its full effect and the wave then traps with WATCHPOINT before its next instruction, the hit in `trapval`, or with a
debugger attached stops and the stop of the stop set is held (R349). -/
def Accessed (i : Instr) (s : State) (u : Nat) (w : Wave) (sp : Split) (hit : Option (Nat × Nat)) (w' : Wave)
    (es : List Effect) : Prop :=
  (hit = none → DoneNext i s u w sp w' es) ∧
  (∀ x, hit = some x → w.frame ≠ none → DoneNext i s u w sp { w' with pendingHit := some (x.1, x.2, sp.pc + 4 * (1 + i.lits.length)) } es) ∧
  (∀ x, hit = some x → w.frame = none → Ready i s u w sp → sp.trump = none → ∃ t, exec i s = .next t ∧ Apart s t u ∧
    RegsSame w' (waveOf t u) ∧ (waveOf t u).ops = w'.ops ∧ (waveOf t u).flags = w'.flags ∧
    (∀ e ∈ es, ∃ h ∈ t.held, h.eff = e ∧ h.wave = u ∧ h.issued = s.now ∧ h.due = s.now + Config.holdback) ∧
    ((ctxOf s w.ctx).debugger = false → (waveOf t u).trapc = BitVec.ofNat 17 (Cause.watchpoint.code + 0x10000) ∧
      (waveOf t u).trappc = sp.pc + 4 * (1 + i.lits.length) ∧ (waveOf t u).trapval = BitVec.ofNat 32 (x.1 + 4 * x.2)) ∧
    ((ctxOf s w.ctx).debugger = true → (waveOf t u).state = .debug ∧ (waveOf t u).skid = 0 ∧
      ∃ h ∈ t.held, h.wave = u ∧ ∃ block cores, h.eff = .stopSet block cores w.ctx))

/-- The active lanes of an instruction, lowest first, with the addresses `off`. -/
def activeAddrs (w : Wave) (sp : Split) (i : Instr) (off : Nat → Nat) : List (Nat × Nat) :=
  (lanesOf (activeMask w sp i)).map (fun l => (l, off l))

/-- The checks of a scratchpad access with offsets `off` (R86, R193): a loose wave traps; with ACTIVE empty nothing is
touched; the lowest lane whose offset is no multiple of the width traps with SPAD_ALIGN, then the lowest whose bytes leave
the allocation with SPAD_RANGE. An access that passes is as `P` says of its block, its lanes and its watchpoint hit. -/
def SpadTested (i : Instr) (s : State) (u : Nat) (w : Wave) (sp : Split) (off : Nat → Nat) (wr rd : Bool)
    (P : Nat → List (Nat × Nat) → Option (Nat × Nat) → Prop) : Prop :=
  let act := lanesOf (activeMask w sp i)
  let width := accessWidth sp.mode
  let ls := activeAddrs w sp i off
  (w.block = none → TrapsOpen i s u w sp .looseWave) ∧
  (∀ k, w.block = some k →
    (act = [] → DoneNext i s u w sp w []) ∧
    (∀ l, act.find? (fun l => decide (off l % width ≠ 0)) = some l → Traps i s u w sp .spadAlign (BitVec.ofNat 32 l)) ∧
    ((∀ l ∈ act, off l % width = 0) →
      ∀ l, act.find? (fun l => decide ((blockOf s k).spadLen < off l + width)) = some l →
        Traps i s u w sp .spadRange (BitVec.ofNat 32 l)) ∧
    (act ≠ [] → (∀ l ∈ act, off l % width = 0 ∧ off l + width ≤ (blockOf s k).spadLen) →
      P k ls (watchHit s w ls width true wr rd)))

/-- The lanes of ACTIVE read operand `a`, a pair if `pair`, with clean tags. -/
def CleanLanes (i : Instr) (s : State) (u : Nat) (w : Wave) (sp : Split) (a : Operand) (pair : Bool) : Prop :=
  ∀ l ∈ lanesOf (activeMask w sp i),
    (if pair then (readPair (ctxFor s u w sp i) a l).tag else (read32 (ctxFor s u w sp i) a l).tag) = .clean

/-- The checks of a global access with addresses `va` (R210): with ACTIVE empty nothing is touched; a failed check traps or
ends the block as `checkFailed` does; an access that passes is as `P` says of its lanes with their physical addresses and
its watchpoint hit. -/
def GlobalTested (i : Instr) (s : State) (u : Nat) (w : Wave) (sp : Split) (va : Nat → Nat) (kind : Access)
    (P : List (Nat × Nat) → Option (Nat × Nat) → Prop) : Prop :=
  let width := accessWidth sp.mode
  let vas := activeAddrs w sp i va
  (vas = [] → DoneNext i s u w sp w []) ∧
  (vas ≠ [] → ∀ f, checkLanes s (agentOf w) kind width vas = some f → Ready i s u w sp →
    exec i s = .next (checkFailed s (ctxFor s u w sp i) f)) ∧
  (vas ≠ [] → checkLanes s (agentOf w) kind width vas = none →
    P (vas.map (fun x => (x.1, paOf s (agentOf w) x.2)))
      (watchHit s w vas width false (decide (kind ≠ .load)) (decide (kind ≠ .store))))

/-- `o` is the long operation of this instruction with destination `d`, begun now (R38, R39). -/
def Begun (i : Instr) (s : State) (u : Nat) (w : Wave) (sp : Split) (d : Operand) (o : LongOp) : Prop :=
  o.id = s.nextId ∧ o.flag = flagOf sp i ∧ o.dst = dstOf (ctxFor s u w sp i) d ∧
  o.wide = decide (accessWidth sp.mode = 8) ∧ s.now < o.due

/-- The lanes of a load take their values at moments not before its issue (R226). -/
def LoadsFrom (s : State) (ls : List (Nat × Nat)) (lanes : List LoadLane) : Prop :=
  lanes.map (fun x => (x.lane, x.addr)) = ls ∧ ∀ x ∈ lanes, s.now ≤ x.moment

/-! ### Checks in order, and requests to engines -/

/-- Checks made in order at issue: the first that holds traps with its cause and value; where none holds, `P` (R29). -/
def ChecksThen (i : Instr) (s : State) (u : Nat) (w : Wave) (sp : Split) (checks : List (Bool × Cause × Word)) (P : Prop) :
    Prop :=
  (∀ x, checks.find? (·.1) = some x → Traps i s u w sp x.2.1 x.2.2) ∧ (checks.find? (·.1) = none → P)

/-- A request to engine queue `q` (R39, R161, R162, R174, R211): with no place for the wave's block the wave waits;
otherwise a place is taken, the entry with the wave's context and keys as they stand is held for D cycles, a long operation
is counted on the instruction's flag, and a copy joins the open batch. -/
def EngineBegun (i : Instr) (s : State) (u : Nat) (w : Wave) (sp : Split) (q : Nat) (work : Work) (batch : Bool) : Prop :=
  (queueRoom s w q = false → Waits i s u w sp) ∧
  (queueRoom s w q = true → Ready i s u w sp → sp.trump = none → ∃ t o e, exec i s = .next t ∧
    Ends i s t u w sp (nextWord sp i) { addOp w o with openBatch := if batch then w.openBatch ++ [o.id] else w.openBatch }
      [.enter q e] ∧
    o.id = s.nextId ∧ o.flag = flagOf sp i ∧ o.queue = some q ∧ o.kind = .engine [] 0 ∧
    e.work = work ∧ e.wave = u ∧ e.block = w.block ∧ e.grid = w.grid ∧ e.ctx = w.ctx ∧ e.pkr = w.pkr ∧ e.ops = [(u, o.id)] ∧
    (queueAt (coreOf t w.core) q).issued = (queueAt (coreOf s w.core) q).issued ++ [(e.id, w.block)])

/-! ### Taking a trap (R334, R335, R337) -/

/-- The wave has taken a trap into its handler (R334, R335): `trapc`, `trappc` and `trapval` hold the cause, the address
and the value; the frame keeps the trapping split with its mask, mode, omode, resume position and the signature; one split
over the live lanes stands at the handler with the default mode and omode and the signature is 0. -/
structure InHandler (s t : State) (u : Nat) (w : Wave) (sp : Split) (cause : Cause) (val : Word) : Prop where
  trapc : (waveOf t u).trapc = BitVec.ofNat 17 cause.code
  trappc : (waveOf t u).trappc = sp.pc
  trapval : (waveOf t u).trapval = val
  frame : ∃ f, (waveOf t u).frame = some f ∧ f.mask = sp.mask ∧ f.mode = sp.mode ∧ f.omode = sp.omode ∧ f.sig = w.sig ∧
    f.entry = sp.entry ∧ f.splits = w.splits.filter (fun x => !decide (x.entry = sp.entry)) ∧ f.deferred = w.deferred ∧
    ∀ c, sp.clause = some c → f.header = c.pc ∧ f.word = (sp.pc - c.pc) / 4
  splits : ∃ x, (waveOf t u).splits = [x] ∧ x.mask = w.live ∧ x.mode = 0 ∧ x.omode = 0x13 ∧
    x.pc = (gridOf s w.grid).launch.handler
  deferred : (waveOf t u).deferred = []
  sig : (waveOf t u).sig = 0
  wdog : (waveOf t u).wdog = 0
  regs : RegsSame w (waveOf t u)
  live : (waveOf t u).live = w.live
  apart : Apart s t u

/-- The wave's trap has no handler (R337): the wave stands stopped, issues nothing more, and the stop of its block is held
for D cycles. -/
structure Stopped (s t : State) (u : Nat) (w : Wave) (cause : Cause) (pc : Nat) (val : Nat) : Prop where
  state : (waveOf t u).state = .faulted
  held : ∃ h, t.held = s.held ++ [h] ∧ h.wave = u ∧ h.due = s.now + Config.holdback ∧
    ∃ e, h.eff = .stop w.block w.part e ∧ e.cause = cause ∧ e.addr = pc ∧ e.detail = val
  regs : RegsSame w (waveOf t u)
  apart : Apart s t u

/-! ### Moves of the device -/

/-- Move `i` is made: it answers a next state, of which `P` holds. -/
def Made (i : Instr) (s : State) (P : State → Prop) : Prop := ∃ t, exec i s = .next t ∧ P t

/-- The held effect numbered `n` is `h`, its time has come and every older effect of its seat has left (R226). -/
structure Due (s : State) (n : Nat) (h : Held) : Prop where
  held : heldOf s n = some h
  time : h.due ≤ s.now
  free : seatFree s h = true

/-- Every byte of global memory and of every scratchpad is what it was. -/
structure BytesSame (s t : State) : Prop where
  mem : ∀ a, memGet t.mem a = memGet s.mem a
  spad : ∀ k a, memGet (blockOf t k).spad a = memGet (blockOf s k).spad a

/-- No error stands that reading would find: none in memory and none in a scratchpad's array (R185, R311). -/
def NoErrors (s : State) : Prop := s.upsets = [] ∧ ∀ c ∈ s.cores, c.2.spadErrors = []

/-- The older loads of the wave of held effect `h` leave a write of `bytes` free to go (R228): those of the same bytes have
taken their values, or take them now. -/
def LoadsLeave (s : State) (h : Held) (bytes : List (Nat × Byte)) : Prop :=
  let touch (a : Nat) : Bool := bytes.any (fun b => decide (b.1 = a))
  loadsTaken (waveOf (captureBefore s h.wave h.id false touch) h.wave) h.id touch = true

/-- The bytes lie in one granule. -/
def OneGranule (l : List (Nat × Byte)) : Prop := ∀ x ∈ l, ∀ y ∈ l, x.1 / 32 = y.1 / 32

/-- The event `e` of partition `p` is recorded, numbered by its source and dated by the device time counter, if the
partition's buffer has room for it (R367). -/
def Records (s t : State) (p : Nat) (e : Event) : Prop :=
  ∀ x, mget s.parts p = some x → x.pending.length < 256 →
    { e with seq := mgetD x.seqs e.src 0, time := s.now - x.born } ∈ (partOf t p).pending

/-- Among the held effects `hs` is a write of entry `id` of queue `q` that writes byte `b` to address `a` of `dest` (R178). -/
def HoldsByte (hs : List Held) (id q : Nat) (dest : EngineDest) (a : Nat) (b : Byte) : Prop :=
  ∃ h ∈ hs, ∃ xs, h.eff = .engine id q xs ∧ ∃ x ∈ xs, x.dest = dest ∧ (a, b) ∈ x.cells

/-- The exact value of a finite number, as a rational. -/
def exactOf : FVal → ℚ
  | .fin n m e => (if n then -(m : ℚ) else (m : ℚ)) * 2 ^ e
  | _ => 0

/-- The exact sum of the products of two rows of elements (R63, R64). -/
def exactDot (a b : List MElem) : ℚ := ((a.zip b).map (fun y => exactOf y.1.v * exactOf y.2.v)).sum

/-- Every element is a finite number under a scale that is no NaN. -/
def AllFinite (l : List MElem) : Prop := ∀ y ∈ l, y.bad = false ∧ ∃ n m e, y.v = .fin n m e

/-- `l` is what accumulator `t` of block `b` takes from a product of A in block `ba` and B in block `b` (R256): element (i, n)
for every row i of A and every row n of B, the former element with the product of the two rows added to it. -/
def Product (ba b : Block) (slot ca cb t m : Nat) (rows : Nat → List Nat) (l : List (Nat × AccElem)) : Prop :=
  (∀ p, (∃ v, (p, v) ∈ l) ↔ ∃ i n, i < m ∧ n < tcRows cb ∧ n < 128 ∧ p = 8192 * t + 128 * i + n) ∧
  ∀ i n v, i < m → n < tcRows cb → n < 128 → (8192 * t + 128 * i + n, v) ∈ l →
    let r := accumulate slot (mgetD b.acc (8192 * t + 128 * i + n) {})
      ((rows i).flatMap (fun x => (tileRow ba ca (fsA slot) (fsScale slot) x).1)) (tileRow b cb (fsB slot) (fsScale slot) n).1 v.tag
    v.bits = r.1.bits ∧ v.lost = r.1.lost

/-- Command `r` heads the ring of partition `p`, which is ready and served by a control pair, with its hub die awake and
its zero bytes zero (R353, R355, R363, R365). -/
structure Command (s : State) (p : Nat) (x : Partition) (r : HostRecord) (rest : List HostRecord) : Prop where
  part : mget s.parts p = some x
  ring : x.ring = r :: rest
  ready : x.ready = true
  awake : (hubOf s x.hub).gated = false
  zeros : r.pad = 0
  control : controlled s p = true

/-- The completion event of command `r` is buffered, with its status and what it adds (R355, R367). -/
def Completed (t : State) (p : Nat) (r : HostRecord) (status : Nat) (more : List Nat) : Prop :=
  ∃ e ∈ (partOf t p).pending, e.cause = .kind 5 ∧ e.detail = status ∧ e.extra = r.tag.toNat :: more

/-- Nothing of partition `p` is left running: no wave, no grid, no command, no unfinished save (R352). -/
structure Cleared (t : State) (p : Nat) : Prop where
  waves : ∀ u w, mget t.waves u = some w → w.part ≠ p
  grids : ∀ g y, mget t.grids g = some y → y.part ≠ p
  ring : (partOf t p).ring = []
  saves : (partOf t p).saves = []

/-! ### Division (R45) -/

/-- Quotient `q` and remainder `r` of `x` by `y` with the flags `f` (R45), for a type of `n` bits: a zero divisor gives all
ones, or the maximum or minimum by the sign of `x`, with the dividend as remainder; the minimum divided by −1 gives the
minimum, or under `sat` the maximum; any other quotient is truncated toward zero and the remainder has the sign of `x`. -/
def Divides (sat signed : Bool) (n : Nat) (x y q r : Int) (f : Sticky) : Prop :=
  (y = 0 → r = x ∧ f = fDIVZERO ∧
    q = if signed = false then 2 ^ n - 1 else if 0 ≤ x then intMax true n else intMin true n) ∧
  (signed = true → x = intMin true n → y = -1 → r = 0 ∧ (if sat then q = intMax true n ∧ f = fSAT else q = x ∧ f = 0)) ∧
  (y ≠ 0 → ¬ (signed = true ∧ x = intMin true n ∧ y = -1) →
    x = q * y + r ∧ |r| < |y| ∧ (r = 0 ∨ (0 < r ↔ 0 < x)) ∧ f = 0)

/-! ### The canonical form of the machine's memories -/

/-- Global memory, every scratchpad and every tile file are canonical lists. -/
def State.memWf (s : State) : Prop :=
  Memory.wf s.mem = true ∧ ∀ k b, mget s.blocks k = some b → Memory.wf b.spad = true ∧ Memory.wf b.tile = true

/-- The number of instructions and moves a run of `n` steps makes without a fault or refusal. -/
def runsOn (s : State) (n : Nat) : Prop := ∃ t, core.run n s = .next t

end Sys2Proof.Machine
end

