-- ==== Sys2Proof/Certificates/Slice0/Obligations.lean ====
section
/-! DEFINITION. The statements of this row for the provers: each a proposition about the machine, with the rule of the
spec it formalises or the sections it rests on. -/

open Sys2Proof Sys2Proof.Machine

/-! ### Instructions on registers -/

/-- R118, R122, R124, R125, R44: the integer instructions on elements. In every operand form but those of the affine class
(`AffineResults`), each element of the result is the exact sum, difference, product, ... of the elements of the operands,
wrapped or saturated as `sat` says; the flags raised are exactly those of the elements written; every other register is
unchanged. -/
def Obligations.IntegerResults : Prop :=
  ∀ (s : State) (u : Nat) (w : Wave) (sp : Split) (d a b : Operand),
    ((∀ n, d ≠ .a n) →
      (affineZ sp.mode d [a, b] = false →
        IntDone (.add d a b) s u w sp d [a, b] (fun c l k => intReduce c (intAt c a l k + intAt c b l k)) ∧
        IntDone (.sub d a b) s u w sp d [a, b] (fun c l k => intReduce c (intAt c a l k - intAt c b l k))) ∧
      (affineZ sp.mode d [a] = false → IntDone (.neg d a) s u w sp d [a] (fun c l k => intReduce c (-intAt c a l k))) ∧
      (affineZ sp.mode d [a, b] = false ∨ (rank a ≠ 0 ∧ rank b ≠ 0) →
        IntDone (.mul d a b) s u w sp d [a, b] (fun c l k => intReduce c (intAt c a l k * intAt c b l k)))) ∧
    IntDone (.mulhi d a b) s u w sp d [a, b] (fun c l k =>
      (wrapInt (elemBits (itype c.sp.mode)) ((intAt c a l k * intAt c b l k).fdiv ((2 ^ elemBits (itype c.sp.mode) : Nat) : Int)), 0)) ∧
    IntDone (.mad d a b) s u w sp d [a, b, d] (fun c l k =>
      intReduce c (intAt c a l k * intAt c b l k + intAt c d l k)) ∧
    IntDone (.min d a b) s u w sp d [a, b] (fun c l k =>
      (wrapInt (elemBits (itype c.sp.mode)) (if intAt c a l k ≤ intAt c b l k then intAt c a l k else intAt c b l k), 0)) ∧
    IntDone (.max d a b) s u w sp d [a, b] (fun c l k =>
      (wrapInt (elemBits (itype c.sp.mode)) (if intAt c a l k ≤ intAt c b l k then intAt c b l k else intAt c a l k), 0)) ∧
    IntDone (.abs d a) s u w sp d [a] (fun c l k => intReduce c (if intAt c a l k < 0 then -intAt c a l k else intAt c a l k))

/-- R124 to R128: sums of products, bit counts and reversals, bitwise operations, shifts and bit fields. Bitwise
operations act on whole registers or pairs, the others on elements or, for fields, on the whole value. -/
def Obligations.BitResults : Prop :=
  ∀ (s : State) (u : Nat) (w : Wave) (sp : Split) (d a b : Operand),
    IntDone (.dot4 d a b) s u w sp d [a, b, d] (fun c l k => intReduce c (dot4Sum (isSigned (itype c.sp.mode))
      (elemOf (elemBits (itype c.sp.mode)) k (readI c a l).val) (elemOf (elemBits (itype c.sp.mode)) k (readI c b l).val)
      (elemOf (elemBits (itype c.sp.mode)) k (readI c d l).val))) ∧
    IntDone (.brev d a) s u w sp d [a] (fun c l k => (revBits (elemBits (itype c.sp.mode))
      (elemOf (elemBits (itype c.sp.mode)) k (readI c a l).val), 0)) ∧
    IntDone (.popc d a) s u w sp d [a] (fun c l k => (popCount (elemBits (itype c.sp.mode))
      (elemOf (elemBits (itype c.sp.mode)) k (readI c a l).val), 0)) ∧
    IntDone (.clz d a) s u w sp d [a] (fun c l k => (leadingZeros (elemBits (itype c.sp.mode))
      (elemOf (elemBits (itype c.sp.mode)) k (readI c a l).val), 0)) ∧
    LanesDone (.and d a b) s u w sp d (wideI (itype sp.mode)) (fun c l => [(readI c a l).tag, (readI c b l).tag])
      (fun c l => (readI c a l).val &&& (readI c b l).val) ∧
    LanesDone (.or d a b) s u w sp d (wideI (itype sp.mode)) (fun c l => [(readI c a l).tag, (readI c b l).tag])
      (fun c l => (readI c a l).val ||| (readI c b l).val) ∧
    LanesDone (.xor d a b) s u w sp d (wideI (itype sp.mode)) (fun c l => [(readI c a l).tag, (readI c b l).tag])
      (fun c l => (readI c a l).val ^^^ (readI c b l).val) ∧
    LanesDone (.not d a) s u w sp d (wideI (itype sp.mode)) (fun c l => [(readI c a l).tag])
      (fun c l => ~~~(readI c a l).val) ∧
    (let n := elemBits (itype sp.mode)
     let c (i : Instr) := ctxFor s u w sp i
     let tags (i : Instr) (l : Nat) := [(readI (c i) a l).tag, (read32 (c i) b l).tag]
     let x (i : Instr) (l k : Nat) := elemOf n k (readI (c i) a l).val
     let count (i : Instr) (l k : Nat) := shiftCount (c i) b l k
     ((∀ m, d ≠ .a m) → affineZ sp.mode d [a, b] = false ∨ rank b ≠ 0 →
        BitsDone (.shl d a b) s u w sp d (wideI (itype sp.mode)) n (intCount (c (.shl d a b))) (tags (.shl d a b))
          (fun l k => if count (.shl d a b) l k < n then x (.shl d a b) l k * 2 ^ count (.shl d a b) l k % 2 ^ n else 0)) ∧
     BitsDone (.shr d a b) s u w sp d (wideI (itype sp.mode)) n (intCount (c (.shr d a b))) (tags (.shr d a b))
       (fun l k => if count (.shr d a b) l k < n then x (.shr d a b) l k % 2 ^ n / 2 ^ count (.shr d a b) l k else 0) ∧
     BitsDone (.sra d a b) s u w sp d (wideI (itype sp.mode)) n (intCount (c (.sra d a b))) (tags (.sra d a b))
       (fun l k => wrapInt n (signExt n (x (.sra d a b) l k) /
         ((2 ^ (if count (.sra d a b) l k < n then count (.sra d a b) l k else n - 1) : Nat) : Int)))) ∧
    LanesDone (.bfe d a b) s u w sp d (wideI (itype sp.mode)) (fun c l => [(readI c a l).tag, (read32 c b l).tag])
      (fun c l => BitVec.ofNat 64 (bitExtract (isSigned (itype c.sp.mode)) (intWidth c) (readI c a l).val.toNat
        (read32 c b l).val.toNat)) ∧
    LanesDone (.bfi d a b) s u w sp d (wideI (itype sp.mode))
      (fun c l => [(readI c a l).tag, (read32 c b l).tag, (readI c d l).tag])
      (fun c l => BitVec.ofNat 64 (bitInsert (intWidth c) (readI c a l).val.toNat (read32 c b l).val.toNat
        (readI c d l).val.toNat))

/-- R129, R135, R136: the comparisons, integer and float, and the float classes. A predicate or uniform destination takes
the relation of element 0, a varying one all ones or zero in each element. -/
def Obligations.CompareResults : Prop :=
  ∀ (s : State) (u : Nat) (w : Wave) (sp : Split) (d a b : Operand),
    (let ints (i : Instr) (rel : Int → Int → Bool) : Prop :=
       let c := ctxFor s u w sp i
       CompareDone i s u w sp d (isPair .cmpI sp.mode d) (elemBits (itype sp.mode)) (intCount c)
         (fun l => [(readI c a l).tag, (readI c b l).tag]) (fun l k => (rel (intAt c a l k) (intAt c b l k), 0))
     ints (.cmpeq d a b) (fun x y => decide (x = y)) ∧ ints (.cmpne d a b) (fun x y => decide (x ≠ y)) ∧
     ints (.cmplt d a b) (fun x y => decide (x < y)) ∧ ints (.cmple d a b) (fun x y => decide (x ≤ y))) ∧
    (let flts (i : Instr) (k : Nat) : Prop :=
       let c := ctxFor s u w sp i
       CompareDone i s u w sp d (isPair .cmpF sp.mode d) (floatBits c) (floatCount c)
         (fun l => [(readF c a l).tag, (readF c b l).tag]) (fun l j => fcmpE (floatEnv c) k (fltAt c a l j) (fltAt c b l j))
     flts (.fcmpeq d a b) 0 ∧ flts (.fcmplt d a b) 1 ∧ flts (.fcmple d a b) 2 ∧ flts (.fcmpun d a b) 3) ∧
    (let c := ctxFor s u w sp (.fclass d a)
     RegDone (.fclass d a) s u w sp d false (fun t g =>
       (∀ l, (g l).2 = (readF c a l).tag) ∧ (waveOf t u).wstat = w.wstat ∧
       (packedF (ftype sp.mode) = false → ∀ l, (g l).1 = BitVec.ofNat 64 (fclassE (floatEnv c) (readF c a l).val.toNat)) ∧
       (packedF (ftype sp.mode) = true → ∀ l k, k < 2 →
         elemOf 16 k (g l).1 = fclassE (floatEnv c) (fltAt c a l k) % 2 ^ 16)))

/-- R118, R130 to R134, R137: the float instructions on elements, under the format, the rounding and the flushing that
`mode` sets. -/
def Obligations.FloatResults : Prop :=
  ∀ (s : State) (u : Nat) (w : Wave) (sp : Split) (d a b : Operand),
    FloatDone (.fadd d a b) s u w sp d [a, b] (fun c l k => faddE (floatEnv c) (fltAt c a l k) (fltAt c b l k)) ∧
    FloatDone (.fsub d a b) s u w sp d [a, b] (fun c l k => fsubE (floatEnv c) (fltAt c a l k) (fltAt c b l k)) ∧
    FloatDone (.fmul d a b) s u w sp d [a, b] (fun c l k => fmulE (floatEnv c) (fltAt c a l k) (fltAt c b l k)) ∧
    FloatDone (.fma d a b) s u w sp d [a, b, d]
      (fun c l k => fmaE (floatEnv c) (fltAt c a l k) (fltAt c b l k) (fltAt c d l k)) ∧
    FloatDone (.fneg d a) s u w sp d [a] (fun c l k => fsignE (floatEnv c) false (fltAt c a l k)) ∧
    FloatDone (.fabs d a) s u w sp d [a] (fun c l k => fsignE (floatEnv c) true (fltAt c a l k)) ∧
    FloatDone (.fmin d a b) s u w sp d [a, b] (fun c l k => fminmaxE (floatEnv c) false (fltAt c a l k) (fltAt c b l k)) ∧
    FloatDone (.fmax d a b) s u w sp d [a, b] (fun c l k => fminmaxE (floatEnv c) true (fltAt c a l k) (fltAt c b l k)) ∧
    FloatDone (.frcp d a) s u w sp d [a] (fun c l k => ffunE (floatEnv c) .rcp (fltAt c a l k)) ∧
    FloatDone (.frsq d a) s u w sp d [a] (fun c l k => ffunE (floatEnv c) .rsq (fltAt c a l k)) ∧
    FloatDone (.fexp2 d a) s u w sp d [a] (fun c l k => ffunE (floatEnv c) .exp2 (fltAt c a l k)) ∧
    FloatDone (.flog2 d a) s u w sp d [a] (fun c l k => ffunE (floatEnv c) .log2 (fltAt c a l k)) ∧
    FloatDone (.fsin d a) s u w sp d [a] (fun c l k => ffunE (floatEnv c) .sin (fltAt c a l k)) ∧
    FloatDone (.fcos d a) s u w sp d [a] (fun c l k => ffunE (floatEnv c) .cos (fltAt c a l k)) ∧
    FloatDone (.frnd d a) s u w sp d [a] (fun c l k => frndE (floatEnv c) (fltAt c a l k)) ∧
    (let part (c : Ctx) (x : Operand) (l h : Nat) := (floatEnv c).rd (elemOf 32 h (readPair c x l).val)
     let old (c : Ctx) (l h : Nat) := (floatEnv c).rd (read32 c (halfReg d h) l).val.toNat
     let re (c : Ctx) (l : Nat) (e : List FVal) := complexPart (floatEnv c)
       ([part c a l 0, part c a l 1, part c b l 0, part c b l 1] ++ e) (part c a l 0) (part c b l 0) true (part c a l 1)
       (part c b l 1) e.head?
     let im (c : Ctx) (l : Nat) (e : List FVal) := complexPart (floatEnv c)
       ([part c a l 0, part c a l 1, part c b l 0, part c b l 1] ++ e) (part c a l 0) (part c b l 1) false (part c a l 1)
       (part c b l 0) e.head?
     let tags (c : Ctx) (l : Nat) := [(readPair c a l).tag, (readPair c b l).tag]
     let res (x : Nat × Sticky) (ts : List Tag) : LaneRes := (BitVec.ofNat 64 x.1, ts, x.2)
     HalvesDone (.cmul d a b) s u w sp d (fun c l => res (re c l []) (tags c l)) (fun c l => res (im c l []) (tags c l)) ∧
     HalvesDone (.cmad d a b) s u w sp d
       (fun c l => res (re c l [old c l 0]) (tags c l ++ [(read32 c (halfReg d 0) l).tag]))
       (fun c l => res (im c l [old c l 1]) (tags c l ++ [(read32 c (halfReg d 1) l).tag])))

/-- R138 to R141: the conversions. Integer to float and back convert each element (packed types) or the whole value;
`cvtff` converts between float formats, into or out of a half of a register; `cvtn8` puts a narrow value into field k of D,
every other field of D standing; `cvtw8` widens field k of A. -/
def Obligations.ConversionResults : Prop :=
  ∀ (s : State) (u : Nat) (w : Wave) (sp : Split) (d a : Operand) (m : Byte),
    (let c := ctxFor s u w sp (.cvtif d a)
     let conv (v : Nat) := cvtifE (floatEnv c) (isSigned (itype sp.mode)) (elemBits (itype sp.mode)) v
     if packedI (itype sp.mode) then
       ElementsDone (.cvtif d a) s u w sp d (decide (ftype sp.mode = 3)) 16 2 (fun l => [(readI c a l).tag])
         (fun l k => conv (elemOf (elemBits (itype sp.mode)) k (readI c a l).val))
     else ResultsDone (.cvtif d a) s u w sp d (decide (ftype sp.mode = 3)) (fun c l =>
       (BitVec.ofNat 64 (conv (readI c a l).val.toNat).1, [(readI c a l).tag], (conv (readI c a l).val.toNat).2))) ∧
    (let c := ctxFor s u w sp (.cvtfi d a)
     let conv (v : Nat) := cvtfiE (floatEnv c) (isSigned (itype sp.mode)) (elemBits (itype sp.mode)) v
     if packedI (itype sp.mode) then
       ElementsDone (.cvtfi d a) s u w sp d (wideI (itype sp.mode)) 16 2 (fun l => [(readF c a l).tag])
         (fun l k => conv (elemOf (elemBits (itype sp.mode)) k (readF c a l).val))
     else ResultsDone (.cvtfi d a) s u w sp d (wideI (itype sp.mode)) (fun c l =>
       (BitVec.ofNat 64 (conv (readF c a l).val.toNat).1, [(readF c a l).tag], (conv (readF c a l).val.toNat).2))) ∧
    (let t := m.toNat % 8
     let h := if m.getLsbD 4 then 1 else 0
     let g : FEnv := ⟨fmtOf t, rounding sp.mode, ftzOn sp.mode⟩
     let conv (v : Nat) := cvtffE (fmtOf (ftype sp.mode)) g v
     if packedF (ftype sp.mode) = true ∧ packedF t = true then
       ElementsDone (.cvtff d a m) s u w sp d (decide (t = 3)) 16 2
         (fun l => [(readF (ctxFor s u w sp (.cvtff d a m)) a l).tag])
         (fun l k => conv (elemOf 16 k (readF (ctxFor s u w sp (.cvtff d a m)) a l).val))
     else if packedF (ftype sp.mode) then ResultsDone (.cvtff d a m) s u w sp d (decide (t = 3)) (fun c l =>
       (BitVec.ofNat 64 (conv (elemOf 16 h (readF c a l).val)).1, [(readF c a l).tag], (conv (elemOf 16 h (readF c a l).val)).2))
     else if packedF t then
       ResultsDone (.cvtff d a m) s u w sp d false (fun c l =>
         (BitVec.ofNat 64 ((conv (readF c a l).val.toNat).1 * 2 ^ (16 * h) +
            elemOf 16 (1 - h) (read32 c d l).val * 2 ^ (16 * (1 - h))),
          [(readF c a l).tag, (read32 c d l).tag], (conv (readF c a l).val.toNat).2))
     else ResultsDone (.cvtff d a m) s u w sp d (decide (t = 3)) (fun c l =>
       (BitVec.ofNat 64 (conv (readF c a l).val.toNat).1, [(readF c a l).tag], (conv (readF c a l).val.toNat).2))) ∧
    (let c := ctxFor s u w sp (.cvtn8 d a m)
     let n := narrowBits m
     let k := m.toNat / 16 % 8
     let conv (l : Nat) := toNarrow (narrowOf (m.toNat % 16)) (rounding sp.mode) (satOn sp.mode) f32
       ((floatEnv c).rd (readF c a l).val.toNat)
     n * (k + 1) ≤ 32 → RegDone (.cvtn8 d a m) s u w sp d false (fun r f =>
       (∀ l, (f l).2 = mergeTags [(readF c a l).tag, (read32 c d l).tag] ∧ elemOf n k (f l).1 = (conv l).1 % 2 ^ n ∧
         ∀ j, j ≠ k → n * (j + 1) ≤ 32 → elemOf n j (f l).1 = elemOf n j (read32 c d l).val) ∧
       (waveOf r u).wstat = w.wstat ||| flagsOf d (activeMask w sp (.cvtn8 d a m))
         (decide (activeMask w sp (.cvtn8 d a m) = 0)) (fun l => (conv l).2))) ∧
    ResultsDone (.cvtw8 d a m) s u w sp d false (fun c l =>
      (BitVec.ofNat 64 (cvtw8E (m.toNat % 16) (elemOf (narrowBits m) (m.toNat / 16 % 8) (read32 c a l).val)).1,
       [(read32 c a l).tag],
       (cvtw8E (m.toNat % 16) (elemOf (narrowBits m) (m.toNat / 16 % 8) (read32 c a l).val)).2))

/-- R110 to R114, R116, R117, R326: copies between register classes, selection, votes, shuffles and predicate logic. In
the forms without an affine destination (`AffineResults`), each active lane takes the value its rule names, with the
`Merge` of the tags read for it. `demote` traps with DEMOTE_DIVERGENT at the lowest active lane that differs; the votes and
`demote` write nothing with ACTIVE empty.
Log entry 31 says what the model chose here. -/
def Obligations.ClassResults : Prop :=
  ∀ (s : State) (u : Nat) (w : Wave) (sp : Split) (d a b : Operand) (m : Byte),
    ((∀ n, d ≠ .a n) →
      LanesDone (.mov d a) s u w sp d (wideI (itype sp.mode)) (fun c l => [(readI c a l).tag]) (fun c l => (readI c a l).val) ∧
      LanesDone (.promote d a b) s u w sp d (wideI (itype sp.mode)) (fun c l => [(readI c a l).tag])
        (fun c l => (readI c a l).val)) ∧
    LanesDone (.sel d a b) s u w sp d (wideI (itype sp.mode))
      (fun c l => [if (readPred c a l).1 then (readI c b l).tag else (readI c d l).tag, (readPred c a l).2])
      (fun c l => if (readPred c a l).1 then (readI c b l).val else (readI c d l).val) ∧
    (let i : Instr := .demote d a
     let c := ctxFor s u w sp i
     let act := lanesOf (activeMask w sp i)
     (act = [] → Ready i s u w sp → sp.trump = none →
       ∃ t, exec i s = .next t ∧ PassedBy i s t u w sp (stepOver sp (1 + i.lits.length))) ∧
     (∀ k r, act = k :: r → (∀ l ∈ r, (readI c a l).val = (readI c a k).val) →
       LanesDone i s u w sp d (wideI (itype sp.mode)) (fun c _ => act.map (fun l => (readI c a l).tag))
         (fun c _ => (readI c a k).val)) ∧
     (∀ k r l, act = k :: r → r.find? (fun x => decide ((readI c a x).val ≠ (readI c a k).val)) = some l →
       Ready i s u w sp → exec i s = .next (trapAt s c .demoteDivergent (BitVec.ofNat 32 l)))) ∧
    (let vote (i : Instr) (r : Ctx → List Nat → Bool) : Prop :=
       let c := ctxFor s u w sp i
       let act := lanesOf (activeMask w sp i)
       (act = [] → Ready i s u w sp → sp.trump = none →
         ∃ t, exec i s = .next t ∧ PassedBy i s t u w sp (stepOver sp (1 + i.lits.length))) ∧
       (act ≠ [] → LanesDone i s u w sp d false (fun c _ => act.map (fun l => (voteLane c a l).2))
         (fun _ _ => if r c act then 1 else 0))
     let value (c : Ctx) (l : Nat) : DWord := match a with
       | .p _ | .live | .act => if (readPred c a l).1 then 1 else 0
       | a => (readI c a l).val
     vote (.vall d a) (fun c act => act.all (fun l => (voteLane c a l).1)) ∧
     vote (.vany d a) (fun c act => act.any (fun l => (voteLane c a l).1)) ∧
     vote (.veq d a) (fun c act => act.all (fun l => value c l == value c (act.headD 0)))) ∧
    (let shuffled (i : Instr) (src : Ctx → Nat → Nat) (more : Ctx → Nat → List Tag) : Prop :=
       LanesDone i s u w sp d (wideI (itype sp.mode))
         (fun c l => (if inMask w.live (src c l) then (readI c a (src c l)).tag else .poison (mgetD w.killTags (src c l) 0)) ::
           more c l)
         (fun c l => (readI c a (src c l)).val)
     shuffled (.shfl d a b) (fun c l => (readI c b l).val.toNat % 64) (fun c l => [(readI c b l).tag]) ∧
     shuffled (.shflx d a m) (fun _ l => Nat.xor l m.toNat % 64) (fun _ _ => []) ∧
     shuffled (.shfldn d a m) (fun _ l => if l + m.toNat ≤ 63 then l + m.toNat else l) (fun _ _ => []) ∧
     shuffled (.shflup d a m) (fun _ l => if m.toNat ≤ l then l - m.toNat else l) (fun _ _ => [])) ∧
    (let logic (i : Instr) (y : Operand) (f : Bool → Bool → Bool) : Prop :=
       LanesDone i s u w sp d false (fun c l => [(readPred c a l).2, (readPred c y l).2])
         (fun c l => if f (readPred c a l).1 (readPred c y l).1 then 1 else 0)
     logic (.pand d a b) b (· && ·) ∧ logic (.por d a b) b (· || ·) ∧ logic (.pxor d a b) b (· != ·) ∧
     logic (.pnot d a) .z (fun x _ => !x)) ∧
    LanesDone (.ptag d a) s u w sp d false (fun _ _ => []) (fun c l => BitVec.ofNat 64 (tagBits (match a with
      | .p _ => (readPred c a l).2
      | a => (readI c a l).tag)))

/-- R115, R326: `ballot`, `elect` and `pchk` write the whole of their destination: a predicate takes the mask with the tags
of its lanes, a uniform pair (`ballot`) the mask, a uniform (`elect`) the index of the lowest active lane or all ones.
Log entry 92 says what the model chose here. -/
def Obligations.MaskResults : Prop :=
  ∀ (s : State) (u : Nat) (w : Wave) (sp : Split) (d a : Operand) (m : Byte) (n : Nat),
    (let i : Instr := .ballot d a
     let c := ctxFor s u w sp i
     let act := activeMask w sp i
     let mask := maskOf (fun l => inMask act l && (voteLane c a l).1)
     (d = .p n → SimplyDone i s u w sp (fun t => SetsP w (waveOf t u) n mask (fun l => (voteLane c a l).2))) ∧
     (d = .s n → SimplyDone i s u w sp (fun t => Wrote w (waveOf t u) act (decide (act = 0)) d true
       (fun _ => (mask, mergeTags ((lanesOf act).map (fun l => (voteLane c a l).2))))))) ∧
    (let i : Instr := .elect d
     let act := activeMask w sp i
     (d = .p n → SimplyDone i s u w sp (fun t => SetsP w (waveOf t u) n
       (maskOf (fun l => decide (lowestLane act = some l))) (fun _ => .clean))) ∧
     (d = .s n → SimplyDone i s u w sp (fun t => Wrote w (waveOf t u) act (decide (act = 0)) d false
       (fun _ => (match lowestLane act with
         | some l => BitVec.ofNat 64 l
         | none => 0xFFFFFFFF, .clean))))) ∧
    (let i : Instr := .pchk d a m
     let c := ctxFor s u w sp i
     let tagIn (l : Nat) : Tag := match a with
       | .p _ => (readPred c a l).2
       | a => (readI c a l).tag
     let hit (l : Nat) : Bool := (inMask (activeMask w sp i) l && (match tagIn l with
         | .poison _ => m.getLsbD 0
         | .prov _ => m.getLsbD 1
         | .clean => false)) || (m.getLsbD 2 && !inMask w.live l)
     d = .p n → SimplyDone i s u w sp (fun t => SetsP w (waveOf t u) n (maskOf hit) (fun _ => .clean)))

/-- R101, R102, R103, R127: the forms with an affine destination, and those that destination `z` leaves in the affine class,
which make the same tests and write nothing.
Log entry 29 says what the model chose here. -/
def Obligations.AffineResults : Prop :=
  ∀ (s : State) (u : Nat) (w : Wave) (sp : Split) (a b : Operand) (n : Nat),
    (let c := ctxFor s u w sp (.add (.a n) a b)
     AffineDone (.add (.a n) a b) s u w sp n ((affineSrc c a).1 + (affineSrc c b).1)
       ((affineSrc c a).2.1.toInt + (affineSrc c b).2.1.toInt) [(affineSrc c a).2.2, (affineSrc c b).2.2]
       (fun l => affineExact c a l + affineExact c b l)) ∧
    (let c := ctxFor s u w sp (.sub (.a n) a b)
     AffineDone (.sub (.a n) a b) s u w sp n ((affineSrc c a).1 - (affineSrc c b).1)
       ((affineSrc c a).2.1.toInt - (affineSrc c b).2.1.toInt) [(affineSrc c a).2.2, (affineSrc c b).2.2]
       (fun l => affineExact c a l - affineExact c b l)) ∧
    (let c := ctxFor s u w sp (.neg (.a n) a)
     AffineDone (.neg (.a n) a) s u w sp n (-(affineSrc c a).1) (-(affineSrc c a).2.1.toInt) [(affineSrc c a).2.2]
       (fun l => -affineExact c a l)) ∧
    (let c := ctxFor s u w sp (.mul (.a n) a b)
     let x := if rank b = 0 then a else b
     let k := if rank b = 0 then b else a
     AffineDone (.mul (.a n) a b) s u w sp n ((affineSrc c x).1 * (affineSrc c k).1)
       ((affineSrc c x).2.1.toInt * factorOf c k) [(affineSrc c x).2.2, (affineSrc c k).2.2]
       (fun l => affineExact c a l * affineExact c b l)) ∧
    (let c := ctxFor s u w sp (.shl (.a n) a b)
     let k := (readU c b).toNat
     let inside := k < elemBits (itype sp.mode)
     AffineDone (.shl (.a n) a b) s u w sp n (if inside then (affineSrc c a).1 <<< k else 0)
       (if inside then (affineSrc c a).2.1.toInt * ((2 ^ Nat.min k 128 : Nat) : Int) else 0)
       [(affineSrc c a).2.2, tagU c b false] (fun l => affineExact c a l * ((2 ^ Nat.min k 128 : Nat) : Int))) ∧
    (let c := ctxFor s u w sp (.mov (.a n) a)
     (activeMask w sp (.mov (.a n) a) = 0 → SimplyDone (.mov (.a n) a) s u w sp (fun t => RegsSame w (waveOf t u))) ∧
     (activeMask w sp (.mov (.a n) a) ≠ 0 → SimplyDone (.mov (.a n) a) s u w sp (fun t => SetsA w (waveOf t u) n
       { base := (affineSrc c a).1, stride := (affineSrc c a).2.1, tag := (affineSrc c a).2.2 }))) ∧
    (let c := ctxFor s u w sp (.promote (.a n) a b)
     (activeMask w sp (.promote (.a n) a b) = 0 →
       SimplyDone (.promote (.a n) a b) s u w sp (fun t => RegsSame w (waveOf t u))) ∧
     (activeMask w sp (.promote (.a n) a b) ≠ 0 → SimplyDone (.promote (.a n) a b) s u w sp (fun t => SetsA w (waveOf t u) n
       { base := (affineSrc c a).1, stride := (read32 c b 0).val.setWidth 32
         tag := mergeTag (affineSrc c a).2.2 (read32 c b 0).tag }))) ∧
    (affineZ sp.mode .z [a, b] = true →
      (let c := ctxFor s u w sp (.add .z a b)
       AffineTested (.add .z a b) s u w sp ((affineSrc c a).2.1.toInt + (affineSrc c b).2.1.toInt)
         (fun l => affineExact c a l + affineExact c b l)) ∧
      (let c := ctxFor s u w sp (.sub .z a b)
       AffineTested (.sub .z a b) s u w sp ((affineSrc c a).2.1.toInt - (affineSrc c b).2.1.toInt)
         (fun l => affineExact c a l - affineExact c b l)) ∧
      (let c := ctxFor s u w sp (.mul .z a b)
       let x := if rank b = 0 then a else b
       let k := if rank b = 0 then b else a
       rank k = 0 → AffineTested (.mul .z a b) s u w sp ((affineSrc c x).2.1.toInt * factorOf c k)
         (fun l => affineExact c a l * affineExact c b l)) ∧
      (let c := ctxFor s u w sp (.shl .z a b)
       let k := (readU c b).toNat
       rank b = 0 → AffineTested (.shl .z a b) s u w sp
         (if k < elemBits (itype sp.mode) then (affineSrc c a).2.1.toInt * ((2 ^ Nat.min k 128 : Nat) : Int) else 0)
         (fun l => affineExact c a l * ((2 ^ Nat.min k 128 : Nat) : Int)))) ∧
    (affineZ sp.mode .z [a] = true →
      let c := ctxFor s u w sp (.neg .z a)
      AffineTested (.neg .z a) s u w sp (-(affineSrc c a).2.1.toInt) (fun l => -affineExact c a l))

/-- R38, R39, R123, R130: `div`, `rem`, `fdiv` and `fsqrt` begin a long operation that counts on flag A of the clause and
that will write, in the lanes it fixes now, the elements R45 and R130 give.
Log entry 7 says what the model chose here. -/
def Obligations.LongOperations : Prop :=
  ∀ (s : State) (u : Nat) (w : Wave) (sp : Split) (d a b : Operand),
    (let begun (i : Instr) (wide : Bool) (n m : Nat) (tag : Nat → List Tag) (f : Nat → Nat → Nat × Sticky) : Prop :=
       LongDone i s u w sp (fun t o => t.held = s.held ∧ o.dst = dstOf (ctxFor s u w sp i) d ∧ o.wide = wide ∧
         s.now < o.due ∧ ∃ g : Nat → LaneRes,
           o.kind = .result ((match d with
             | .s _ => if activeMask w sp i = 0 then [] else [0]
             | _ => lanesOf (activeMask w sp i)).map (fun l => (⟨l, (g l).1, mergeTags (g l).2.1⟩, (g l).2.2))) ∧
           ∀ l, (g l).2.1 = tag l ∧ (g l).2.2 = flagsBelow m (fun k => (f l k).2) ∧
             ∀ k, k < m → elemOf n k (g l).1 = (f l k).1 % 2 ^ n)
     let divided (c : Ctx) (l k : Nat) := divRem (satOn sp.mode) (isSigned (itype sp.mode)) (elemBits (itype sp.mode))
       (elemOf (elemBits (itype sp.mode)) k (readI c a l).val) (elemOf (elemBits (itype sp.mode)) k (readI c b l).val)
     let ci (i : Instr) := ctxFor s u w sp i
     begun (.div d a b) (wideI (itype sp.mode)) (elemBits (itype sp.mode)) (intCount (ci (.div d a b)))
       (fun l => [(readI (ci (.div d a b)) a l).tag, (readI (ci (.div d a b)) b l).tag])
       (fun l k => ((divided (ci (.div d a b)) l k).1, (divided (ci (.div d a b)) l k).2.2.1)) ∧
     begun (.rem d a b) (wideI (itype sp.mode)) (elemBits (itype sp.mode)) (intCount (ci (.rem d a b)))
       (fun l => [(readI (ci (.rem d a b)) a l).tag, (readI (ci (.rem d a b)) b l).tag])
       (fun l k => ((divided (ci (.rem d a b)) l k).2.1, (divided (ci (.rem d a b)) l k).2.2.2)) ∧
     begun (.fdiv d a b) (decide (ftype sp.mode = 3)) (floatBits (ci (.fdiv d a b))) (floatCount (ci (.fdiv d a b)))
       (fun l => [(readF (ci (.fdiv d a b)) a l).tag, (readF (ci (.fdiv d a b)) b l).tag])
       (fun l k => fdivE (floatEnv (ci (.fdiv d a b))) (fltAt (ci (.fdiv d a b)) a l k) (fltAt (ci (.fdiv d a b)) b l k)) ∧
     begun (.fsqrt d a) (decide (ftype sp.mode = 3)) (floatBits (ci (.fsqrt d a))) (floatCount (ci (.fsqrt d a)))
       (fun l => [(readF (ci (.fsqrt d a)) a l).tag])
       (fun l k => fsqrtE (floatEnv (ci (.fsqrt d a))) (fltAt (ci (.fsqrt d a)) a l k)))

/-! ### System instructions and traps -/

/-- R30, R32, R34, R75, R159, R220: `nop`, `yield` and `pref` only issue; `mode` and `omode` set the split's mode and
omode; `rnote` traps with ILLEGAL_OPERAND at its first byte above 0x78 and otherwise only issues. -/
def Obligations.PlainInstructions : Prop :=
  ∀ (s : State) (u : Nat) (w : Wave) (sp : Split),
    DoneNext .nop s u w sp w [] ∧ DoneNext .yield s u w sp w [] ∧ (∀ a h, DoneNext (.pref a h) s u w sp w []) ∧
    (∀ m, Done (.mode m) s u w sp { nextWord sp (.mode m) with mode := m } w []) ∧
    (∀ o, Done (.omode o) s u w sp { nextWord sp (.omode o) with omode := o } w []) ∧
    (∀ x : DWord, (∀ k, k < 8 → elemOf 8 k x ≤ 0x78) → DoneNext (.rnote x) s u w sp w []) ∧
    (∀ (x : DWord) (j : Nat), j < 8 → (∀ k, k < j → elemOf 8 k x ≤ 0x78) → 0x78 < elemOf 8 j x →
      Traps (.rnote x) s u w sp .illegalOperand (BitVec.ofNat 32 (elemOf 8 j x)))

/-- R29, R340: the instructions whose effect is a trap. `ill` and every word with a reserved opcode trap with
ILLEGAL_OPCODE and the word; `trap` with TRAP and its code; `brk` with BREAK and its code unless a debugger is attached, and
then its wave stops before any effect with `trappc` at the `brk`, its registers unchanged. -/
def Obligations.TrapInstructions : Prop :=
  ∀ (s : State) (u : Nat) (w : Wave) (sp : Split),
    (∀ i x, (∃ d a b, i = .ill d a b ∧ x = i.word) ∨ i = .illegalOpcode x → s.cur = some (u, sp.entry) →
      mget s.waves u = some w → splitOf w sp.entry = some sp → mustWait s u w sp i = false →
      exec i s = .next (trapAt s (ctxFor s u w sp i) .illegalOpcode x)) ∧
    (∀ k : Byte, Traps (.trap k) s u w sp .trap (k.setWidth 32)) ∧
    (∀ k : Byte, (ctxOf s w.ctx).debugger = false → Traps (.brk k) s u w sp .brk (k.setWidth 32)) ∧
    (∀ k : Byte, (ctxOf s w.ctx).debugger = true → Ready (.brk k) s u w sp → ∃ t, exec (.brk k) s = .next t ∧
      waveOf t u = { w with state := .debug, skid := 0, trappc := sp.pc } ∧ Apart s t u ∧
      Holds s t u [.stopSet w.block [] w.ctx])

/-- R334, R335: what taking a trap leaves, whatever its cause, in a wave that is not in its handler, of a grid that has
one.
Log entry 26 says what the model chose here. -/
def Obligations.TrapEntry : Prop :=
  ∀ (i : Instr) (s : State) (u : Nat) (w : Wave) (sp : Split) (cause : Cause) (val : Word),
    mget s.waves u = some w → w.frame = none → (gridOf s w.grid).launch.handler ≠ 0 →
    InHandler s (trapAt s (ctxFor s u w sp i) cause val) u w sp cause val

/-- R334, R337: a trap with no handler stops the wave, and a second trap in a handler stops it with DOUBLE_TRAP, its
second cause in the record's detail field; the trap registers hold the trap's values.
Log entry 26 says what the model chose here. -/
def Obligations.TrapStops : Prop :=
  ∀ (i : Instr) (s : State) (u : Nat) (w : Wave) (sp : Split) (cause : Cause) (val : Word),
    mget s.waves u = some w →
    let t := trapAt s (ctxFor s u w sp i) cause val
    ((waveOf t u).trapc = BitVec.ofNat 17 cause.code ∧ (waveOf t u).trappc = sp.pc ∧ (waveOf t u).trapval = val ∧
      (waveOf t u).wdog = 0) ∧
    (w.frame = none → (gridOf s w.grid).launch.handler = 0 → Stopped s t u w cause sp.pc val.toNat) ∧
    (∀ f, w.frame = some f → Stopped s t u w .doubleTrap sp.pc cause.code)

/-- R29, R40, R101, R104, R120: an encoded instruction that waits for nothing and to which one of the causes of orders 1 to
7 applies traps with it, in the table's order, before any effect of its own: ILLEGAL_OPCODE for `ill`; ILLEGAL_FIELD;
ILLEGAL_OPERAND for an operand its field does not accept or a second literal; ILLEGAL_CLAUSE for literals past the body's
end; ILLEGAL_CLASS, before UNIFORM_MASK, for a source of a higher class than the destination's; UNIFORM_MASK for a uniform or
affine destination where ACTIVE is not the live mask and `ws` is clear; HAZARD for the first operand, then the guard, that an
incomplete operation will write, save one whose queue the request enters; WATCHDOG; ILLEGAL_TYPE with `mode`.
Log entries 19, 20 and 21 say what the model chose here. -/
def Obligations.IssueTests : Prop :=
  ∀ (i : Instr) (s : State) (u : Nat) (w : Wave) (sp : Split),
    i.word? ≠ none → s.cur = some (u, sp.entry) → mget s.waves u = some w → splitOf w sp.entry = some sp →
    mustWait s u w sp i = false →
    let traps (cause : Cause) (val : Word) : Prop := exec i s = .next (trapAt s (ctxFor s u w sp i) cause val)
    let literals := (i.operands.filter (fun o => o.2 && o.1.isLit)).length
    let called : Prop := (∃ f x, i = .call f x) ∨ (∃ f x, i = .calli f x) ∨ ∃ x, i = .ret x
    let writes (o : LongOp) (r : RegRef) : Prop := logical w r ∈ o.dests
    let busy (x : Slot) : Prop := ∃ r ∈ usedRegs w sp i x, ∃ o ∈ w.ops, writes o r ∧ ¬ (o.queue ≠ none ∧ o.queue = queueOf i)
    let it := itype sp.mode
    let ft := ftype sp.mode
    (∀ cause val, issueCause s w sp i = some (cause, val) → traps cause val) ∧
    (∀ d a b, i = .ill d a b → traps .illegalOpcode i.word) ∧
    ((∀ d a b, i ≠ .ill d a b) →
      (∀ v, fieldFault i sp.mode = some v → traps .illegalField v) ∧
      (fieldFault i sp.mode = none →
        ((∃ x ∈ slots i, slotOk sp.mode x = false ∧ (x.wr = false ∨ affineElsewhere i = false)) ∨ 1 < literals →
          traps .illegalOperand i.word) ∧
        (operandFault i sp.mode = false →
          (roomInBody sp < 1 + i.lits.length → traps .illegalClause i.word) ∧
          (1 + i.lits.length ≤ roomInBody sp →
            (classOk i sp.mode = false → traps .illegalClass i.word) ∧
            (∀ l x, 0x10 ≤ opcodeOf i.word → opcodeOf i.word < 0x50 → (∀ d a, i ≠ .demote d a) → (∀ d, i ≠ .elect d) →
              slots i = l ++ [x] → ((∃ n, x.op = .v n) ∨ (∃ n, x.op = .a n) ∨ ∃ n, x.op = .s n) →
              (∃ y ∈ l, rank x.op < rank y.op) → traps .illegalClass i.word) ∧
            (classOk i sp.mode = true →
              (∀ x ∈ slots i, x.wr = true → ((∃ n, x.op = .a n) ∨ ∃ n, x.op = .s n) → (¬ called ∧ ∀ d a b, i ≠ .launch d a b) →
                activeMask w sp i ≠ w.live → wsOn sp.mode = false → traps .uniformMask i.word) ∧
              (maskFails w sp i = false →
                (∀ n, called → lowestVarying w = some n → traps .hazard (BitVec.ofNat 32 n)) ∧
                (∀ l x r, ¬ called → slots i = l ++ x :: r → (∀ y ∈ l, ¬ busy y) → busy x →
                  traps .hazard (BitVec.ofNat 32 x.op.code)) ∧
                (guardOn sp.mode = true → ignoresGuard i = false → ¬ called → (∀ y ∈ slots i, ¬ busy y) → copiedRegs i = [] →
                  (∃ o ∈ w.ops, RegRef.p (guardReg sp.mode) ∈ o.dests) →
                  traps .hazard (BitVec.ofNat 32 (0x70 + guardReg sp.mode))) ∧
                (hazardOf w sp i = none →
                  (isYield i = false → 2 ^ watchdogLimit s w ≤ w.wdog →
                    traps .watchdog (BitVec.ofNat 32 (watchdogLimit s w))) ∧
                  (isYield i = true ∨ w.wdog < 2 ^ watchdogLimit s w →
                    ((∃ d a b, i = .dot4 d a b) ∧ 2 ≤ it ∨
                      (∃ d a b, i = .bfe d a b ∨ i = .bfi d a b ∨ i = .sadd d a b ∨ i = .smin d a b ∨ i = .smax d a b ∨
                        i = .gadd d a b ∨ i = .gmin d a b ∨ i = .gmax d a b) ∧ 2 ≤ it ∧ it < 6 ∨
                      (∃ d a, i = .frcp d a ∨ i = .frsq d a ∨ i = .fexp2 d a ∨ i = .flog2 d a ∨ i = .fsin d a ∨ i = .fcos d a) ∧
                        ft = 3 ∨
                      ((∃ d a b, i = .cmul d a b ∨ i = .cmad d a b) ∨ ∃ d a k, i = .cvtn8 d a k ∨ i = .cvtw8 d a k) ∧ ft ≠ 0 ∨
                      typeOk i sp.mode = false) → traps .illegalType (sp.mode.setWidth 32)))))))))

/-- R336, R335: `tret` outside a handler traps with BAD_RETURN and 0, and a skip of a trap that cannot be skipped with
BAD_RETURN and `trapc`; otherwise the wave leaves its handler: the frame's splits stand again with the lanes that live, the
trapping split first, at the trapping word or past it, deferred splits running where the table has room, and `sig` is the
frame's. A watchpoint hit recorded in the handler is delivered now.
Log entry 3 says what the model chose here. -/
def Obligations.TrapReturn : Prop :=
  ∀ (s : State) (u : Nat) (w : Wave) (sp : Split) (k : Byte),
    (w.frame = none → Traps (.tret k) s u w sp .badReturn 0) ∧
    (∀ f, w.frame = some f → k = 1 → w.trapc.getLsbD 16 = true →
      Traps (.tret k) s u w sp .badReturn (w.trapc.setWidth 32)) ∧
    (∀ f, w.frame = some f → (k = 1 → w.trapc.getLsbD 16 = false) → Ready (.tret k) s u w sp →
      let pc := f.header + 4 * (f.word + if k = 1 then f.len else 0)
      (w.pendingHit = none → ∃ t, exec (.tret k) s = .next t ∧ Apart s t u ∧ t.held = s.held ∧
        (waveOf t u).rest = { w with frame := none }.rest ∧
        (sp.trump = none → RegsSame w (waveOf t u) ∧ (waveOf t u).wstat = w.wstat) ∧ (waveOf t u).sig = f.sig ∧
        (let back : Split := { entry := f.entry, mask := f.mask &&& w.live, mode := f.mode, omode := f.omode, pc := pc
                               resume := if pc = f.header then none else some f.header, runStart := pc }
         let alive (l : List Split) := (l.map (fun x => { x with mask := x.mask &&& w.live })).filter (fun x => x.mask != 0)
         let noEntry (l : List Split) := l.map (fun x => { x with entry := 0 })
         let n := (alive (back :: f.splits)).length
         ∃ j, (waveOf t u).splits.take n = alive (back :: f.splits) ∧
           noEntry ((waveOf t u).splits.drop n) = noEntry ((alive f.deferred).take j) ∧
           (waveOf t u).deferred = (alive f.deferred).drop j ∧
           ((waveOf t u).deferred = [] ∨ freeEntry (waveOf t u) = none))) ∧
      (∀ x, w.pendingHit = some x → sp.trump = none → ∃ t, exec (.tret k) s = .next t ∧ Apart s t u ∧
        (waveOf t u).pendingHit = none ∧ RegsSame w (waveOf t u) ∧ (waveOf t u).wstat = w.wstat ∧
        ((ctxOf s w.ctx).debugger = false → f.mask &&& w.live ≠ 0 →
          (waveOf t u).trapc = BitVec.ofNat 17 (Cause.watchpoint.code + 0x10000) ∧ (waveOf t u).trappc = x.2.2 ∧
          (waveOf t u).trapval = BitVec.ofNat 32 (x.1 + 4 * x.2.1)) ∧
        ((ctxOf s w.ctx).debugger = true → (waveOf t u).state = .debug ∧ (waveOf t u).skid = 0 ∧
          ∃ h ∈ t.held, h.wave = u ∧ ∃ block cores, h.eff = .stopSet block cores w.ctx)))

/-- R158: `sigck` compares the signature as it stood before it and sets it to 0; on a mismatch the stop of the core's
trust is held and the instruction traps with SIGNATURE and the signature that was compared. -/
def Obligations.SignatureCheck : Prop :=
  ∀ (s : State) (u : Nat) (w : Wave) (sp : Split) (x : Word), Ready (.sigck x) s u w sp → sp.trump = none →
    (w.sig = x → ∃ t, exec (.sigck x) s = .next t ∧ (waveOf t u).sig = 0 ∧ (waveOf t u).rest = w.rest ∧
      RegsSame w (waveOf t u) ∧ (waveOf t u).wstat = w.wstat ∧
      splitOf (waveOf t u) sp.entry = some { nextWord sp (.sigck x) with sampled := none } ∧ t.held = s.held ∧
      t.blocks = s.blocks ∧ ∀ a, memGet t.mem a = memGet s.mem a) ∧
    (w.sig ≠ x → ∃ t, exec (.sigck x) s = .next t ∧ (waveOf t u).trapc = BitVec.ofNat 17 Cause.signature.code ∧
      (waveOf t u).trappc = sp.pc ∧ (waveOf t u).trapval = w.sig ∧ RegsSame w (waveOf t u) ∧
      (∀ f, (waveOf t u).frame = some f → w.frame = none → f.sig = 0) ∧
      ∃ h ∈ t.held, h.eff = .suspect w.core ∧ h.due = s.now + Config.holdback)

/-- R340, R338, R366, R177, R92, R97: the instructions that read state into a uniform register. `rdsr` reads the numbered
register as it stands; reading `timelo` latches the high half for `timehi`; `qfeat` reads a stable or a volatile word with
the tag of A, an index above 0x1F traps; `qseq` reads a queue's last completed number; `shrinkq` and `bmem` read the
block's request and counts, and trap in a loose wave. With ACTIVE empty nothing is written.
Log entries 13, 32 and 58 say what the model chose here. -/
def Obligations.SystemReads : Prop :=
  ∀ (s : State) (u : Nat) (w : Wave) (sp : Split) (d a : Operand) (n : Byte),
    let put (i : Instr) (x : Word) : Wave := putU w (activeMask w sp i) d ⟨x, .clean⟩
    DoneNext (.rdsr d n) s u w sp (put (.rdsr d n) (BitVec.ofNat 32 (sysRead s u w n.toNat))) [] ∧
    (let time := s.now - (partOf s w.part).born
     DoneNext (.rdsrTimelo d) s u w sp { put (.rdsrTimelo d) (BitVec.ofNat 32 (time % 2 ^ 32)) with
       timeHi := BitVec.ofNat 32 (time / 2 ^ 32) } []) ∧
    (let i := readU (ctxFor s u w sp (.qfeat d a)) a
     (0x1F < i.toNat → Traps (.qfeat d a) s u w sp .illegalField i) ∧
     (i.toNat ≤ 0x1F → DoneNext (.qfeat d a) s u w sp (putU w (activeMask w sp (.qfeat d a)) d
       ⟨featWord s w i.toNat, tagU (ctxFor s u w sp (.qfeat d a)) a false⟩) [])) ∧
    (∀ q, a = .q q → DoneNext (.qseq d a) s u w sp
      (putUPair w (activeMask w sp (.qseq d a)) d ⟨(queueAt (coreOf s w.core) q).completed, .clean⟩) []) ∧
    (w.block = none → TrapsOpen (.shrinkq d) s u w sp .looseWave ∧ TrapsOpen (.bmem d a) s u w sp .looseWave) ∧
    (∀ k, w.block = some k →
      DoneNext (.shrinkq d) s u w sp (put (.shrinkq d) (BitVec.ofNat 32 (blockOf s k).shrink)) [] ∧
      DoneNext (.bmem d a) s u w sp (put (.bmem d a) (bmemWord (blockOf s k) a)) [])

/-- R52, R108, R271, R340, R372, R208, R213: the instructions that write system state. `wrsr` writes `wstat`, `spills`,
`fills` or `cmapix`, a nonzero bit above the field traps with ILLEGAL_FIELD and the value; `wrsr sig` leaves exactly the
value written, after the instruction's own update; `pkset` sets the wave's keys now and its context's D cycles later;
`wrsr mgrant` is checked now and held. With ACTIVE empty nothing is written, and no value traps (R104).
Log entry 30 says what the model chose here. -/
def Obligations.SystemWrites : Prop :=
  ∀ (s : State) (u : Nat) (w : Wave) (sp : Split) (a : Operand),
    let x (i : Instr) := readU (ctxFor s u w sp i) a
    (∀ n : Byte, CleanU (.wrsr a n) s u w sp [(a, false)] →
      let y := x (.wrsr a n)
      let none_ := activeMask w sp (.wrsr a n) = 0
      (¬ none_ → (n = 0x10 ∨ n = 0x80) → 2 ^ 9 ≤ y.toNat → Traps (.wrsr a n) s u w sp .illegalField y) ∧
      (none_ → DoneNext (.wrsr a n) s u w sp w []) ∧
      (¬ none_ → ¬ ((n = 0x10 ∨ n = 0x80) ∧ 2 ^ 9 ≤ y.toNat) → DoneNext (.wrsr a n) s u w sp
        (if n = 0x10 then { w with wstat := y.setWidth 9 }
         else if n = 0x28 then { w with spills := y }
         else if n = 0x29 then { w with fills := y }
         else if n = 0x80 then { w with cmapix := y.setWidth 9 }
         else w) [])) ∧
    (CleanU (.sigWrite a) s u w sp [(a, false)] →
      (activeMask w sp (.sigWrite a) = 0 → DoneNext (.sigWrite a) s u w sp w []) ∧
      (activeMask w sp (.sigWrite a) ≠ 0 → Ready (.sigWrite a) s u w sp →
        sp.trump = none → ∃ t, exec (.sigWrite a) s = .next t ∧ (waveOf t u).sig = x (.sigWrite a) ∧
          (waveOf t u).rest = w.rest ∧ RegsSame w (waveOf t u) ∧ (waveOf t u).wstat = w.wstat ∧ Apart s t u ∧
          t.held = s.held ∧ splitOf (waveOf t u) sp.entry = some (nextWord sp (.sigWrite a)))) ∧
    (CleanU (.pkset a) s u w sp [(a, true)] →
      (activeMask w sp (.pkset a) = 0 → DoneNext (.pkset a) s u w sp w []) ∧
      (activeMask w sp (.pkset a) ≠ 0 →
        DoneNext (.pkset a) s u w sp { w with pkr := readUPair (ctxFor s u w sp (.pkset a)) a }
          [.pkrContext (readUPair (ctxFor s u w sp (.pkset a)) a)])) ∧
    (∀ i, i = .mgrantCreate a ∨ i = .mgrantRevoke a →
      (w.block = none → TrapsOpen i s u w sp .looseWave) ∧
      (∀ k, w.block = some k → CleanU i s u w sp [(a, false)] →
        let g := (x i).toNat
        let taken := ∃ r, mget (gridOf s w.grid).grants (g / 2 ^ 24) = some r ∧ r.block ≠ k
        let bad := g / 2 ^ 5 % 2 ^ 19 ≠ 0 ∨ g.testBit 2 = true ∨ taken
        (activeMask w sp i = 0 → DoneNext i s u w sp w []) ∧
        (activeMask w sp i ≠ 0 → bad → Traps i s u w sp .illegalField (x i)) ∧
        (activeMask w sp i ≠ 0 → ¬ bad → DoneNext i s u w sp w [.grant (g / 2 ^ 24) (x i) w.wbase])))

/-- R348, R270: `wpset` holds a watchpoint read from four registers, or traps with ILLEGAL_FIELD and the register that
breaks its rule, or with ILLEGAL_COHORT and the index of a cohort its core does not belong to; `wpclr` holds the clearing of
those its mask names. Both trap in a loose wave and hold nothing with ACTIVE empty.
Log entry 36 says what the model chose here. -/
def Obligations.Watchpoints : Prop :=
  ∀ (s : State) (u : Nat) (w : Wave) (sp : Split) (n : Nat) (j m : Byte),
    let set : Instr := .wpset (.s n) j
    let r (k : Nat) : Nat := (sReg w (n + k)).val.toNat
    let badHigh := 2 ^ 17 ≤ r 1 ∨ ((r 2).testBit 18 = true ∧ r 1 ≠ 0)
    let badLen := 2 ^ 19 ≤ r 2 ∨ r 2 / 2 ^ 16 % 4 = 0 ∨ r 2 % 2 ^ 16 = 0
    let badIndex := 2 ^ 9 ≤ r 3
    let badCohort := (r 3).testBit 8 = true ∧
      ¬ ∃ x, mget (partOf s w.part).cohorts (r 3 % 2 ^ 8) = some x ∧ w.core ∈ x.members
    (w.block = none → TrapsOpen set s u w sp .looseWave ∧ TrapsOpen (.wpclr m) s u w sp .looseWave) ∧
    (∀ k, w.block = some k →
      (badHigh → Traps set s u w sp .illegalField (sReg w (n + 1)).val) ∧
      (¬ badHigh → badLen → Traps set s u w sp .illegalField (sReg w (n + 2)).val) ∧
      (¬ badHigh → ¬ badLen → badIndex → Traps set s u w sp .illegalField (sReg w (n + 3)).val) ∧
      (¬ badHigh → ¬ badLen → ¬ badIndex → badCohort → Traps set s u w sp .illegalCohort (BitVec.ofNat 32 (r 3 % 2 ^ 8))) ∧
      (¬ badHigh → ¬ badLen → ¬ badIndex → ¬ badCohort →
        (activeMask w sp set = 0 → DoneNext set s u w sp w []) ∧
        (activeMask w sp set ≠ 0 → DoneNext set s u w sp w [.watch [(j.toNat,
          { addr := r 0 + 2 ^ 32 * r 1, len := r 2 % 2 ^ 16, spad := (r 2).testBit 18, onWrite := (r 2).testBit 17
            onRead := (r 2).testBit 16, cohort := if (r 3).testBit 8 then some (r 3 % 2 ^ 8) else none })] 0])) ∧
      (activeMask w sp (.wpclr m) = 0 → DoneNext (.wpclr m) s u w sp w []) ∧
      (activeMask w sp (.wpclr m) ≠ 0 → DoneNext (.wpclr m) s u w sp w [.watch [] m]))

/-! ### Control flow -/

/-- R42, R150, R152, R153: the branches that keep a split whole. A taken branch abandons the clause and stands at the
header; a condition that does not hold goes on at the next word; `jmpi` traps with ILLEGAL_TARGET where its target has a bit
above 48. The condition's bits must be clean in the lanes of M.
Log entry 22 says what the model chose here. -/
def Obligations.Jumps : Prop :=
  ∀ (s : State) (u : Nat) (w : Wave) (sp : Split),
    (∀ o : BitVec 24, let va := wordOffset sp.pc o.toInt
      TargetTested (.jmp o) s u w sp va (Done (.jmp o) s u w sp (jumpTo sp va) w [])) ∧
    (∀ a, CleanU (.jmpi a) s u w sp [(a, true)] →
      let va := (readUPair (ctxFor s u w sp (.jmpi a)) a).toNat
      (2 ^ 49 ≤ va → Traps (.jmpi a) s u w sp .illegalTarget (BitVec.ofNat 32 va)) ∧
      (va < 2 ^ 49 → TargetTested (.jmpi a) s u w sp va (Done (.jmpi a) s u w sp (jumpTo sp va) w []))) ∧
    (∀ (p : Operand) (o : BitVec 16) (i : Instr) (taken : Prop),
      let m := sp.mask &&& w.live
      let bit (l : Nat) := (readPred (ctxFor s u w sp i) p l).1
      let va := wordOffset sp.pc o.toInt
      (i = .bany p o ∧ (taken ↔ ∃ l, inMask m l = true ∧ bit l = true) ∨
        i = .ball p o ∧ (taken ↔ ∀ l, inMask m l = true → bit l = true) ∨
        i = .bnone p o ∧ (taken ↔ ∀ l, inMask m l = true → bit l = false)) →
      (∀ l, inMask m l = true → (readPred (ctxFor s u w sp i) p l).2 = .clean) →
      TargetTested i s u w sp va
        ((taken → Done i s u w sp (jumpTo sp va) w []) ∧ (¬ taken → DoneNext i s u w sp w [])))

/-- R83, R151, R317: `bp` and `bnp`. Where all lanes of M take the branch the whole split goes, where none does it goes on.
Otherwise the split divides: the lanes that do not take it go on at the next word, the others stand as a new split at the
target with the same mode and omode, in the lowest free entry; with four splits running, one whose PC no running split
exceeds is deferred, in a record of the spill area beyond the eighth, and merges with those that stand at a header it has
come to. One split event enters the signature for the division and one for each merge.
Log entries 14, 22 and 75 say what the model chose here. -/
def Obligations.Divergence : Prop :=
  ∀ (s : State) (u : Nat) (w : Wave) (sp : Split) (p : Operand) (o : BitVec 16) (i : Instr) (t : LaneMask),
    let m := sp.mask &&& w.live
    let va := wordOffset sp.pc o.toInt
    (i = .bp p o ∨ i = .bnp p o) →
    (∀ l, l < 64 → inMask t l = (inMask m l && ((readPred (ctxFor s u w sp i) p l).1 == decide (i = .bp p o)))) →
    (∀ l, inMask m l = true → (readPred (ctxFor s u w sp i) p l).2 = .clean) →
    TargetTested i s u w sp va (
      (t = m → Done i s u w sp (jumpTo sp va) w []) ∧
      (t ≠ m → t = 0 → DoneNext i s u w sp w []) ∧
      (t ≠ m → t ≠ 0 → Ready i s u w sp → sp.trump = none →
        let new (e : Nat) : Split := { entry := e, mask := t, mode := sp.mode, omode := sp.omode, pc := va, runStart := va }
        let stay : Split := { nextWord sp i with mask := sp.mask &&& ~~~t }
        (∀ e, freeEntry w = some e → w.deferred = [] → ∃ r, exec i s = .next r ∧ Apart s r u ∧ r.held = s.held ∧
          (waveOf r u).rest = w.rest ∧ RegsSame w (waveOf r u) ∧ (waveOf r u).wstat = w.wstat ∧
          (waveOf r u).sig = crc (crc (crc w.sig i.word) (maskTerm sp.mask w.live)) 0xFFFFFFFF ∧
          (waveOf r u).splits = w.splits.map (fun x => if x.entry = sp.entry then { stepOver x (1 + i.lits.length) with
            mask := x.mask &&& ~~~t } else x) ++ [new e] ∧ splitOf (waveOf r u) sp.entry = some stay) ∧
        (freeEntry w = none →
          let run := w.splits.map (fun x => if x.entry = sp.entry then { stepOver x (1 + i.lits.length) with
            mask := x.mask &&& ~~~t } else x)
          let n := frozenSplits w + w.deferred.length + 1 - 8
          let out := deferOne run (new 0)
          let left := if out = new 0 then run else run.map (fun x => if x = out then new out.entry else x)
          let met (x : Split) : Bool := arrives out && mergesWith out x
          (∀ x ∈ run, x.pc ≤ out.pc) ∧ va ≤ out.pc ∧ (va = out.pc → out = new 0) ∧ (out = new 0 ∨ out ∈ run) ∧
          (n ≠ 0 → recordFits w n = false → exec i s = .next (trapOpen s (ctxFor s u w sp i) .stackOverflow)) ∧
          (n = 0 ∨ recordFits w n = true → ∃ r, exec i s = .next r ∧ Apart s r u ∧
            (waveOf r u).rest = { w with spills := if n = 0 then w.spills else satAdd w.spills 1 }.rest ∧
            RegsSame w (waveOf r u) ∧ (waveOf r u).wstat = w.wstat ∧ (n = 0 → r.held = s.held) ∧
            (n ≠ 0 → ∃ h bytes, r.held = s.held ++ [h] ∧ h.wave = u ∧ h.due = s.now + Config.holdback ∧
              h.eff = .vstore bytes [] w.clock ∧
              bytes.map (·.1) = (List.range 32).map (fun k => paOf s (agentOf w) (w.spillTop - 32 * n + k))) ∧
            ((∀ x ∈ left ++ w.deferred, met x = false) →
              (waveOf r u).sig = crc (crc (crc w.sig i.word) (maskTerm sp.mask w.live)) 0xFFFFFFFF ∧
              (waveOf r u).splits = left ∧ (waveOf r u).deferred = out :: w.deferred ∧
              (waveOf r u).fills = satAdd w.fills (((w.deferred.drop 7).filter
                (fun x => arrives out && standsAt out.pc x)).length)) ∧
            ((∃ x ∈ left ++ w.deferred, met x = true) →
              (waveOf r u).sig = (left ++ w.deferred |>.filter met).foldl (fun g _ => crc g 0xFFFFFFFF)
                (crc (crc (crc w.sig i.word) (maskTerm sp.mask w.live)) 0xFFFFFFFF) ∧
              (∃ x ∈ (waveOf r u).splits ++ (waveOf r u).deferred, x.pc = out.pc ∧ x.mode = out.mode ∧ x.omode = out.omode ∧
                x.mask = (left ++ w.deferred |>.filter met).foldl (fun k x => k ||| x.mask) out.mask) ∧
              ∀ x ∈ left, met x = false → x ∈ (waveOf r u).splits)))))

/-- R106, R107, R154, R155: `call` and `calli`. A frame that the window stack or the spill area cannot take traps with
STACK_OVERFLOW and leaves everything. Otherwise the link is in `s30:s31`, W has moved up by the frame, registers new to the
window are clear, those no longer resident are written to the spill area and counted, and the split stands at the target;
every other register stands. A frame of 0 leaves the window where it is.
Log entry 76 says what the model chose here. -/
def Obligations.Calls : Prop :=
  ∀ (s : State) (u : Nat) (w : Wave) (sp : Split) (f : Byte) (o : BitVec 16) (a : Operand) (i : Instr) (va : Nat),
    (i = .call f o ∧ va = wordOffset sp.pc o.toInt ∨
      i = .calli f a ∧ CleanU i s u w sp [(a, true)] ∧ va = (readUPair (ctxFor s u w sp i) a).toNat) →
    (i = .calli f a → 2 ^ 49 ≤ va → Traps i s u w sp .illegalTarget (BitVec.ofNat 32 va)) ∧
    ((i = .calli f a → va < 2 ^ 49) → TargetTested i s u w sp va (
      let new := w.wbase + f.toNat
      let need := new + 64 - w.resident
      let full := 65535 < new ∨ (0 < f.toNat ∧ w.lo < need ∧ w.spillTop < w.spillBase + 384 * need + 32 * w.spillRecs)
      (full → Traps i s u w sp .stackOverflow (BitVec.ofNat 32 new)) ∧
      (¬ full → f.toNat = 0 → Ready i s u w sp → sp.trump = none → ∃ t, exec i s = .next t ∧
        splitOf (waveOf t u) sp.entry = some (jumpTo sp va) ∧ (waveOf t u).wbase = w.wbase ∧
        (let link := linkOf sp (1 + i.lits.length) 0
         ∀ n, sReg (waveOf t u) n = if n = 30 then ⟨link.setWidth 32, .clean⟩
           else if n = 31 then ⟨(link >>> 32).setWidth 32, .clean⟩ else sReg w n) ∧
        (∀ n, aReg (waveOf t u) n = aReg w n ∧ pReg (waveOf t u) n = pReg w n) ∧ (waveOf t u).wstat = w.wstat ∧
        (w.lo ≤ w.wbase → Issued i s t u w (waveOf t u) sp (jumpTo sp va) ∧ (waveOf t u).rest = w.rest ∧ t.held = s.held ∧
          ∀ k l, k < w.lo + w.resident → vLane (mgetD (waveOf t u).v k {}) l = vLane (mgetD w.v k {}) l)) ∧
      (¬ full → 0 < f.toNat → Ready i s u w sp → sp.trump = none → ∃ t, exec i s = .next t ∧
        Issued i s t u w (waveOf t u) sp (jumpTo sp va) ∧
        (waveOf t u).rest = { w with wbase := new, lo := Nat.max need w.lo, spills := satAdd w.spills (need - w.lo)
                                     waitHeld := if w.lo < need then some s.nextId else w.waitHeld }.rest ∧
        (∀ k l, vLane (mgetD (waveOf t u).v k {}) l =
          if (w.lo ≤ k ∧ k < need) ∨ (Nat.max (w.wbase + 64) (Nat.max need w.lo) ≤ k ∧ k < new + 64) then {}
          else vLane (mgetD w.v k {}) l) ∧
        (let link := linkOf sp (1 + i.lits.length) f.toNat
         ∀ n, sReg (waveOf t u) n = if n = 30 then ⟨link.setWidth 32, .clean⟩
           else if n = 31 then ⟨(link >>> 32).setWidth 32, .clean⟩ else sReg w n) ∧
        (∀ n, aReg (waveOf t u) n = aReg w n ∧ pReg (waveOf t u) n = pReg w n) ∧ (waveOf t u).wstat = w.wstat ∧
        (need ≤ w.lo → t.held = s.held) ∧
        (w.lo < need → ∃ h, t.held = s.held ++ [h] ∧ h.wave = u ∧ h.due = s.now + Config.holdback ∧
          ∃ tags, h.eff = .vstore (((List.range (need - w.lo)).map (fun k => w.lo + k)).flatMap (fun r =>
            spillBytesAt s w (w.spillBase + 384 * r) (spillImage (seeTag s.tags w.part) (mgetD w.v r {})))) tags w.clock))))

/-- R106, R107, R156: `ret`. A link whose zero bits, position or frame break its rule, or whose header is none or too
short, traps with BAD_RETURN and the link's low word; a line that cannot be fetched suspends the wave or traps with
FETCH_PERM. Otherwise W has moved down by the frame, registers that were not resident are read back and counted, and the
split stands at the return address inside its body. Where no memory error meets the read and every image holds tag states,
nothing else changes.
Log entries 8, 10 and 76 say what the model chose here. -/
def Obligations.Returns : Prop :=
  ∀ (s : State) (u : Nat) (w : Wave) (sp : Split) (a : Operand), CleanU (.ret a) s u w sp [(a, true)] →
    let link := (readUPair (ctxFor s u w sp (.ret a)) a).toNat
    let ra : Nat := link % 2 ^ 49
    let pos : Nat := link / 2 ^ 49 % 2 ^ 5
    let f : Nat := link / 2 ^ 58
    let h := wrapInt 49 ((ra : Int) - 4 * pos)
    let low : Word := BitVec.ofNat 32 link
    let fields := link / 2 ^ 54 % 2 ^ 4 = 0 ∧ pos ≠ 0 ∧ f ≤ w.wbase
    (¬ fields → Traps (.ret a) s u w sp .badReturn low) ∧
    (fields → ∀ m, codeWord s w h = .missing m → Ready (.ret a) s u w sp → exec (.ret a) s = .next (suspend s u h m)) ∧
    (fields → codeWord s w h = .noPerm → Traps (.ret a) s u w sp .fetchPerm (BitVec.ofNat 32 h)) ∧
    (fields → ∀ x y l z, codeWord s w h = .words x (y :: l) z →
      let good := isHeader y = true ∧ h % 4 = 0 ∧ pos ≤ y.toNat % 16 + 2
      (¬ good → Traps (.ret a) s u w sp .badReturn low) ∧
      (good → Ready (.ret a) s u w sp → sp.trump = none →
        let newW := w.wbase - f
        let read := readMemory s w.part (filledPlaces s w newW)
        let back := returnTo sp ra h pos (y.toNat % 16 + 1)
        ∃ t, exec (.ret a) s = .next t ∧ splitOf (waveOf t u) sp.entry = some back ∧
          MovedDown read u w (waveOf t u) newW (fillRecord read u w newW).1 ∧
          (s.upsets = [] → (∀ va ∈ filledImages w newW, ∀ l, l < 64 → badTag (fillHalf s u w va l) = false) →
            Issued (.ret a) s t u w (waveOf t u) sp back ∧ t.held = s.held)))

/-- R75, R76, R175, R176, R288: `yieldon` goes on, or to its continuation, if its condition holds, and parks otherwise; a
continuation starts a run there; `cwait`
waits for all but n sealed batches; `cseal` seals the open batch and writes the batch number, and waits while 16 batches are
unfinished. A wait for batches or flags that holds is an acquire of the engines' writes (R239). -/
def Obligations.Yields : Prop :=
  ∀ (s : State) (u : Nat) (w : Wave) (sp : Split),
    (∀ a b : Operand, CleanU (.yieldon a b) s u w sp [(a, false), (b, false)] →
      let i : Instr := .yieldon a b
      let x := readU (ctxFor s u w sp i) a
      let kind := x.toNat / 2 ^ 28
      let bad := kind = 0 ∧ x.toNat % 2 ^ 28 / 2 ^ 4 ≠ 0 ∨ kind = 1 ∧ x.toNat % 2 ^ 28 / 2 ^ 12 ≠ 0 ∨ 3 ≤ kind
      let cond : Cond := if kind = 0 then .batches (x.toNat % 16) else if kind = 1 then .flags (BitVec.ofNat 12 x.toNat)
        else .delay (s.now + x.toNat % 2 ^ 28)
      let holds := if kind = 0 then openSeals w ≤ x.toNat % 16
        else if kind = 1 then ∀ n, n < 12 → x.toNat.testBit n = true → nth w.flags n 0 = 0
        else x.toNat % 2 ^ 28 = 0
      let w' : Wave := if kind = 2 then w else { w with clock := clockJoin w.clock w.engineWrote }
      let va := wordOffset sp.pc (readU (ctxFor s u w sp i) b).toInt
      (bad → Traps i s u w sp .illegalField x) ∧
      (¬ bad → b = .z → (holds → Done i s u w sp (runFrom (nextWord sp i)) w' []) ∧
        (¬ holds → Done i s u w sp (parkedAt sp i cond none true) w [])) ∧
      (¬ bad → b ≠ .z → TargetTested i s u w sp va
        ((holds → Done i s u w sp (jumpTo sp va) w' []) ∧
         (¬ holds → Done i s u w sp (parkedAt sp i cond (some va)) w [])))) ∧
    (∀ n : Byte,
      (openSeals w ≤ n.toNat → DoneNext (.cwait n) s u w sp { w with clock := clockJoin w.clock w.engineWrote } []) ∧
      (n.toNat < openSeals w → Done (.cwait n) s u w sp (parkedAt sp (.cwait n) (.batches n.toNat) none) w [])) ∧
    (∀ d : Operand,
      (16 ≤ openSeals w → Waits (.cseal d) s u w sp) ∧
      (openSeals w < 16 → ∃ left, DoneNext (.cseal d) s u w sp
          (putU { w with sealed := left ++ [w.openBatch], openBatch := [], batchNo := w.batchNo + 1 }
            (activeMask w sp (.cseal d)) d ⟨w.batchNo, .clean⟩) [] ∧
        ∀ b ∈ w.sealed, (b ∈ left ↔ ∃ n ∈ b, ∃ o ∈ w.ops, o.id = n)))

/-- R93 to R96, R86, R88: the barrier instructions. A loose wave traps with LOOSE_WAVE; an arrival more than one generation
ahead, or a wait for a generation not arrived for, traps with BARRIER_AHEAD; `bar` holds its arrival and parks until the
generation is past; `barrive` holds its arrival and waits for it; `bwait` goes on or parks.
Log entries 14 and 30 say what the model chose here. -/
def Obligations.Barriers : Prop :=
  ∀ (s : State) (u : Nat) (w : Wave) (sp : Split) (d b : Operand) (n : Nat),
    let a : Operand := .b n
    (w.block = none → TrapsOpen (.bar a) s u w sp .looseWave ∧ TrapsOpen (.barrive d a) s u w sp .looseWave ∧
      TrapsOpen (.bwait a b) s u w sp .looseWave) ∧
    (∀ k, w.block = some k →
      let e := memE (mgetD (blockOf s k).members u {}) n
      let g := (barAt (blockOf s k) n).g
      ((e = g ∨ e = g + 1) →
        Done (.bar a) s u w sp (parkedAt sp (.bar a) (.generation n e) none) { w with waitHeld := some s.nextId } [.arrive n] ∧
        DoneNext (.barrive d a) s u w sp { w with waitHeld := some s.nextId } [.arriveTo n (uniformDest d)]) ∧
      (¬ (e = g ∨ e = g + 1) → Traps (.bar a) s u w sp .barrierAhead (BitVec.ofNat 32 a.code) ∧
        Traps (.barrive d a) s u w sp .barrierAhead (BitVec.ofNat 32 a.code)) ∧
      (CleanU (.bwait a b) s u w sp [(b, false)] →
        let x := readU (ctxFor s u w sp (.bwait a b)) b
        ((e - x).toInt ≤ 0 → Traps (.bwait a b) s u w sp .barrierAhead x) ∧
        (0 < (e - x).toInt → 0 < (g - x).toInt → DoneNext (.bwait a b) s u w sp w []) ∧
        (0 < (e - x).toInt → (g - x).toInt ≤ 0 →
          Done (.bwait a b) s u w sp (parkedAt sp (.bwait a b) (.generation n x) none) w [])))

/-- R86, R89, R90, R91, R157: elastic membership. `grow`, `attach`, `detach` and `end` hold their effect for D cycles and the
wave waits for it. `grow` and `detach` of a loose wave trap with LOOSE_WAVE, `attach` of an attached one with ILLEGAL_ISSUE;
a field of `grow`'s word or `detach`'s value that breaks its rule traps with ILLEGAL_FIELD.
Log entries 14 and 30 say what the model chose here. -/
def Obligations.Membership : Prop :=
  ∀ (s : State) (u : Nat) (w : Wave) (sp : Split) (d a b : Operand),
    let waiting : Wave := { w with waitHeld := some s.nextId }
    (w.block = none → TrapsOpen (.grow d a b) s u w sp .looseWave ∧ TrapsOpen (.detach a) s u w sp .looseWave) ∧
    (w.block ≠ none → Traps (.attach d a) s u w sp .illegalIssue 0) ∧
    (w.block ≠ none → CleanU (.grow d a b) s u w sp [(a, false), (b, false)] →
      let i : Instr := .grow d a b
      let q := (readU (ctxFor s u w sp i) a).toNat
      let bad := 2 ^ 9 ≤ q ∨ q / 2 ^ 6 % 4 ≠ 0 ∨ q % 64 = 0
      let va := wordOffset sp.pc (readU (ctxFor s u w sp i) b).toInt
      (bad → Traps i s u w sp .illegalField (readU (ctxFor s u w sp i) a)) ∧
      (¬ bad → TargetTested i s u w sp va
        (DoneNext i s u w sp waiting [.grow (q % 64) (q.testBit 8) va (uniformDest d) w.s w.a w.clock]))) ∧
    (w.block = none → CleanU (.attach d a) s u w sp [(a, false)] →
      DoneNext (.attach d a) s u w sp waiting [.attach (readU (ctxFor s u w sp (.attach d a)) a).toNat (uniformDest d)]) ∧
    (w.block ≠ none → CleanU (.detach a) s u w sp [(a, false)] →
      let x := readU (ctxFor s u w sp (.detach a)) a
      ((x = 0 ∨ x = 1) → DoneNext (.detach a) s u w sp waiting [.detach (decide (x = 1))]) ∧
      (¬ (x = 0 ∨ x = 1) → Traps (.detach a) s u w sp .illegalField x)) ∧
    DoneNext .endWave s u w sp waiting [.finish]

/-! ### Scratchpad -/

/-- R38, R86, R188 to R190, R193 to R196: `lds`, `ldsl` and `ldlk`. After the checks of R193 (with a layout word that
breaks R189 trapping first, unless ACTIVE is empty) a long operation begins: a load takes each lane's value at a moment of
its own, `ldlk` is held for D cycles with its lanes.
Log entries 7, 8 and 28 say what the model chose here. -/
def Obligations.ScratchpadLoads : Prop :=
  ∀ (s : State) (u : Nat) (w : Wave) (sp : Split) (d a b : Operand) (n : Nat),
    (let loads (i : Instr) (k : Nat) (ls : List (Nat × Nat)) (hit : Option (Nat × Nat)) : Prop :=
       ∃ o lanes, Begun i s u w sp d o ∧ o.kind = .sload k lanes ∧ LoadsFrom s ls lanes ∧
         Accessed i s u w sp hit (addOp w o) []
     let off (i : Instr) (l : Nat) : Nat := (read32 (ctxFor s u w sp i) a l).val.toNat
     (CleanLanes (.lds d a) s u w sp a false →
       SpadTested (.lds d a) s u w sp (off (.lds d a)) false true (loads (.lds d a))) ∧
     (CleanLanes (.ldlk d a) s u w sp a false →
       SpadTested (.ldlk d a) s u w sp (off (.ldlk d a)) false true (fun _ ls hit => ∃ o, Begun (.ldlk d a) s u w sp d o ∧
         o.kind = .locks ls [] [] [] ∧ Accessed (.ldlk d a) s u w sp hit (addOp w o) [.ldlk (accessWidth sp.mode) ls])) ∧
     (let i : Instr := .ldsl d (.s n) b
      let lay : Layout := { w0 := (sReg w n).val.toNat, w1 := (sReg w (n + 1)).val.toNat, w2 := (sReg w (n + 2)).val.toNat }
      CleanLanes i s u w sp b false → CleanU i s u w sp [(.s n, false), (.s (n + 1), false), (.s (n + 2), false)] →
        (w.block = none → TrapsOpen i s u w sp .looseWave) ∧
        (w.block ≠ none → layoutBad lay = true → (activeMask w sp i = 0 → DoneNext i s u w sp w []) ∧
          (activeMask w sp i ≠ 0 → Traps i s u w sp .illegalField (sReg w n).val)) ∧
        (layoutBad lay = false →
          SpadTested i s u w sp (fun l => indexOffset lay (read32 (ctxFor s u w sp i) b l).val.toNat) false true (loads i))))

/-- R39, R86, R188 to R190, R193 to R195, R198: `sts`, `stsl` and `stul`. After the checks of R193 the data and tags of the
active lanes, as they stand now, are held for D cycles; `stul` is besides a long operation that its held store answers.
Log entry 28 says what the model chose here. -/
def Obligations.ScratchpadStores : Prop :=
  ∀ (s : State) (u : Nat) (w : Wave) (sp : Split) (d a b : Operand) (n : Nat),
    (let off (i : Instr) (l : Nat) : Nat := (read32 (ctxFor s u w sp i) a l).val.toNat
     let data (i : Instr) (x : Operand) (ls : List (Nat × Nat)) : List StoreLane := ls.map (fun y =>
       { lane := y.1, addr := y.2, val := (readI (ctxFor s u w sp i) x y.1).val, tag := (readI (ctxFor s u w sp i) x y.1).tag })
     (CleanLanes (.sts a b) s u w sp a false → SpadTested (.sts a b) s u w sp (off (.sts a b)) true false (fun _ ls hit =>
       Accessed (.sts a b) s u w sp hit w [.sstore (accessWidth sp.mode) (data (.sts a b) b ls)])) ∧
     (CleanLanes (.stul d a b) s u w sp a false → SpadTested (.stul d a b) s u w sp (off (.stul d a b)) true false
       (fun _ ls hit => ∃ o, Begun (.stul d a b) s u w sp d o ∧ o.kind = .answered none 0 [] ∧
         Accessed (.stul d a b) s u w sp hit (addOp w o) [.stul (accessWidth sp.mode) (data (.stul d a b) b ls)])) ∧
     (let i : Instr := .stsl d (.s n) b
      let lay : Layout := { w0 := (sReg w n).val.toNat, w1 := (sReg w (n + 1)).val.toNat, w2 := (sReg w (n + 2)).val.toNat }
      CleanLanes i s u w sp b false → CleanU i s u w sp [(.s n, false), (.s (n + 1), false), (.s (n + 2), false)] →
        (w.block = none → TrapsOpen i s u w sp .looseWave) ∧
        (w.block ≠ none → layoutBad lay = true → (activeMask w sp i = 0 → DoneNext i s u w sp w []) ∧
          (activeMask w sp i ≠ 0 → Traps i s u w sp .illegalField (sReg w n).val)) ∧
        (layoutBad lay = false →
          SpadTested i s u w sp (fun l => indexOffset lay (read32 (ctxFor s u w sp i) b l).val.toNat) true false
            (fun _ ls hit => Accessed i s u w sp hit w [.sstore (accessWidth sp.mode) (data i d ls)]))))

/-- R39, R101, R193, R194, R199, R225, R232: the scratchpad atomics. After the checks the operands of the lanes are held
for D cycles, with the release and acquire that `omode` gives scratchpad accesses. With a result it is a long operation
that the held atomic answers; with D `z` it is short, and as an acquire it bars the wave's later accesses.
Log entries 27 and 88 say what the model chose here. -/
def Obligations.ScratchpadAtomics : Prop :=
  ∀ (s : State) (u : Nat) (w : Wave) (sp : Split) (d a b : Operand) (i : Instr) (op : AtomOp),
    (i = .sadd d a b ∧ op = .add (satOn sp.mode) (isSigned (itype sp.mode)) ∨
      i = .smin d a b ∧ op = .min (isSigned (itype sp.mode)) ∨ i = .smax d a b ∧ op = .max (isSigned (itype sp.mode)) ∨
      i = .sxchg d a b ∧ op = .xchg ∨ i = .scas d a b ∧ op = .cas ∨ i = .sand d a b ∧ op = .and ∨
      i = .sor d a b ∧ op = .or) →
    CleanLanes i s u w sp a false →
    SpadTested i s u w sp (fun l => (read32 (ctxFor s u w sp i) a l).val.toNat) true true (fun _ ls hit =>
      let c := ctxFor s u w sp i
      let lanes : List AtomLane := (atomOnce d ls).map (fun x =>
        { lane := x.1, addr := x.2, b := readI c b x.1, c := if op = .cas then readI c d x.1 else {} })
      let cls := spadClass s w
      let acq := pointOf (acquireOf sp i) cls
      let eff := Effect.satomic (accessWidth sp.mode) op lanes (pointOf (releaseOf sp i) cls) acq (dropsOrder sp i cls)
      (d = .z → acq = none → Accessed i s u w sp hit w [eff]) ∧
      (∀ p, d = .z → acq = some p → Accessed i s u w sp hit { w with fences := w.fences ++
        [{ waitHeld := [s.nextId], set := p.set, scope := p.scope, blocksM := true }] } [eff]) ∧
      (d ≠ .z → ∃ o, Begun i s u w sp d o ∧ o.kind = .answered none 0 [] ∧
        o.acquire = acq.map (fun p => (p.scope, p.set)) ∧ Accessed i s u w sp hit (addOp w o) [eff]))

/-! ### Global memory -/

/-- R210, R201: the checks of a global access. Each step is made for all lanes, lowest first, before the next: alignment,
lease, a leaf, permission, key, world; the first failing step gives its cause, its lowest lane and its address, and an
access passes exactly where no lane fails a step. A lease violation or a missing leaf stops the wave and holds its block's
stop, with no trap; any other failure traps with the lane.
Log entry 25 says what the model chose here. -/
def Obligations.AccessChecks : Prop :=
  ∀ (s : State) (g : Agent) (kind : Access) (width : Nat) (ls : List (Nat × Nat)),
    let leaf (a : Nat) (P : Nat → Nat → Bool) : Bool :=
      match lookup s g.core g.part g.ctx a with
      | .leaf pte level => P pte.toNat (physical pte level a)
      | _ => false
    let aligned (a : Nat) : Bool := decide (a % width = 0)
    let inLease (a : Nat) : Bool := leased (gridOf s g.grid) a width
    let mapped (a : Nat) : Bool := leaf a (fun _ _ => true)
    let allowed (a : Nat) : Bool := leaf a (fun x pa =>
      (decide (kind = .store) || x.testBit 1) && (decide (kind = .load) || x.testBit 2) &&
      (decide (kind ≠ .store) || !x.testBit 60) && (decide (kind ≠ .atomic) || decide (regionOf pa = 0)))
    let keyed (a : Nat) : Bool := leaf a (fun x _ =>
      !g.pkr.getLsbD (2 * (x / 2 ^ 5 % 2 ^ 5)) && (decide (kind = .load) || !g.pkr.getLsbD (2 * (x / 2 ^ 5 % 2 ^ 5) + 1)))
    let inWorld (a : Nat) : Bool := leaf a (fun x pa =>
      (x.testBit 61 || decide (x / 2 ^ 52 % 2 ^ 8 = (ctxOf s g.ctx).world)) &&
      (decide (regionOf pa ≠ 2) || (mgetD (partOf s g.part).roster (pa / 2 ^ 44 % 2 ^ 4) {}).present))
    let pass (p : Nat → Bool) : Prop := ∀ x ∈ ls, p x.2 = true
    let fails (p : Nat → Bool) (cause : Cause) (ends : Bool) : Prop := ∀ x, ls.find? (fun y => !p y.2) = some x →
      ∃ f, checkLanes s g kind width ls = some f ∧ f.cause = cause ∧ f.lane = x.1 ∧ f.addr = x.2 ∧ f.ends = ends
    fails aligned .memAlign false ∧
    (pass aligned → fails inLease .leaseViolation true) ∧
    (pass aligned → pass inLease → fails mapped .dataFault true) ∧
    (pass aligned → pass inLease → pass mapped → fails allowed .accessPerm false) ∧
    (pass aligned → pass inLease → pass mapped → pass allowed → fails keyed .keyPerm false) ∧
    (pass aligned → pass inLease → pass mapped → pass allowed → pass keyed → fails inWorld .world false) ∧
    (pass aligned → pass inLease → pass mapped → pass allowed → pass keyed → pass inWorld →
      checkLanes s g kind width ls = none) ∧
    (∀ (i : Instr) (u : Nat) (w : Wave) (sp : Split) (f : CheckFail), mget s.waves u = some w →
      let t := checkFailed s (ctxFor s u w sp i) f
      (f.ends = false → t = trapAt s (ctxFor s u w sp i) f.cause (BitVec.ofNat 32 f.lane)) ∧
      (f.ends = true → (waveOf t u).state = .faulted ∧ (waveOf t u).trapc = w.trapc ∧ RegsSame w (waveOf t u) ∧
        Apart s t u ∧ ∃ h ∈ t.held, h.wave = u ∧ h.due = s.now + Config.holdback ∧ ∃ e, h.eff = .stop w.block w.part e ∧
          e.cause = f.cause ∧ e.addr = f.addr))

/-- R38, R207, R210, R217, R226, R231: `ld`, `ldacq`, `st` and `strel`. After the checks a load begins a long operation
that takes each lane's value at a moment of its own, `ldacq` with the acquire `omode` names, or, where its storage set leaves
global storage out, with `scope_miss` to set (R225); a store holds the data and tags of its lanes for D cycles with the physical addresses, `strel` with the release `omode` names.
Log entries 7 and 8 say what the model chose here. -/
def Obligations.GlobalAccesses : Prop :=
  ∀ (s : State) (u : Nat) (w : Wave) (sp : Split) (d a b : Operand) (i : Instr),
    let va (l : Nat) : Nat := (readPair (ctxFor s u w sp i) a l).val.toNat
    CleanLanes i s u w sp a true →
    (∀ acq, (i = .ld d a ∧ acq = none ∨ i = .ldacq d a ∧ acq = acquireOf sp i) → GlobalTested i s u w sp va .load
      (fun ls hit => ∃ o lanes, Begun i s u w sp d o ∧ o.kind = .gload lanes ∧ LoadsFrom s ls lanes ∧
        (∀ p, acq = some p → p.2 &&& 2 ≠ 0 → o.acquire = acq ∧ o.miss = false) ∧
        (∀ p, acq = some p → p.2 &&& 2 = 0 → o.acquire = none ∧ o.miss = true) ∧
        (acq = none → o.acquire = none ∧ o.miss = false) ∧
        Accessed i s u w sp hit (addOp w o) [])) ∧
    (∀ rel, (i = .st a b ∧ rel = none ∨
        i = .strel a b ∧ rel = some { scope := scopeOf sp.omode, set := storageSet sp.omode }) →
      GlobalTested i s u w sp va .store (fun ls hit =>
        (∀ x ∈ ls, regionOf x.2 ≠ 0 → ∀ t, (readI (ctxFor s u w sp i) b x.1).tag ≠ .poison t) →
        let x (l : Nat) := readI (ctxFor s u w sp i) b l
        let data : List StoreLane := ls.map (fun y => { lane := y.1, addr := y.2, val := (x y.1).val, tag := (x y.1).tag })
        Accessed i s u w sp hit w [.gstore (accessWidth sp.mode) data rel w.clock]))

/-- R39, R101, R210, R219, R225, R232: the global atomics. After the checks the operands of the lanes are held for D
cycles, with the release and acquire that `omode` gives global accesses. With a result it is a long operation that the held
atomic answers; with D `z` it is short, and as an acquire it bars the wave's later accesses.
Log entry 27 says what the model chose here. -/
def Obligations.GlobalAtomics : Prop :=
  ∀ (s : State) (u : Nat) (w : Wave) (sp : Split) (d a b : Operand) (i : Instr) (op : AtomOp),
    (i = .gadd d a b ∧ op = .add (satOn sp.mode) (isSigned (itype sp.mode)) ∨
      i = .gmin d a b ∧ op = .min (isSigned (itype sp.mode)) ∨ i = .gmax d a b ∧ op = .max (isSigned (itype sp.mode)) ∨
      i = .gxchg d a b ∧ op = .xchg ∨ i = .gcas d a b ∧ op = .cas ∨ i = .gand d a b ∧ op = .and ∨
      i = .gor d a b ∧ op = .or) →
    CleanLanes i s u w sp a true →
    GlobalTested i s u w sp (fun l => (readPair (ctxFor s u w sp i) a l).val.toNat) .atomic (fun ls hit =>
      let c := ctxFor s u w sp i
      let lanes : List AtomLane := (atomOnce d ls).map (fun x =>
        { lane := x.1, addr := x.2, b := readI c b x.1, c := if op = .cas then readI c d x.1 else {} })
      let acq := pointOf (acquireOf sp i) 2
      let eff := Effect.gatomic (accessWidth sp.mode) op lanes (pointOf (releaseOf sp i) 2) acq (dropsOrder sp i 2) w.clock
      (d = .z → acq = none → Accessed i s u w sp hit w [eff]) ∧
      (∀ p, d = .z → acq = some p → Accessed i s u w sp hit { w with fences := w.fences ++
        [{ waitHeld := [s.nextId], set := p.set, scope := p.scope, blocksM := true }] } [eff]) ∧
      (d ≠ .z → ∃ o, Begun i s u w sp d o ∧ o.kind = .answered none 0 [] ∧
        o.acquire = acq.map (fun p => (p.scope, p.set)) ∧ Accessed i s u w sp hit (addOp w o) [eff]))

/-- R232 to R234: `fence`. Relaxed it only issues; a release is held for D cycles among the wave's effects; an acquire
waits for the earlier reads of a class of its set and bars pipes M and Q until then; a full fence also bars the later
accesses until the earlier held writes are performed. R147: `icsync` drops the lines its core has cached and the fetched
words of every split of its seat's waves, which are fetched again; the writes on their way take their places, and no other
byte and no register changes.
Log entry 88 says what the model chose here. -/
def Obligations.Fences : Prop :=
  ∀ (s : State) (u : Nat) (w : Wave) (sp : Split) (o : Byte),
    let set := storageSet o
    let scope := scopeOf o
    let acq : Fence := { waitOps := (w.ops.filter (fun x => decide (x.reads &&& set ≠ 0))).map (·.id), set := set,
                         scope := scope, acquire := true, blocksM := true }
    let full : Fence := { waitHeld := heldWrites s u set, set := set, scope := scope, full := true }
    (semantics o = 0 → DoneNext (.fence o) s u w sp w []) ∧
    (semantics o = 1 → DoneNext (.fence o) s u w sp { w with fences := w.fences ++ [acq] } []) ∧
    (semantics o = 2 → DoneNext (.fence o) s u w sp w [.relFence scope set]) ∧
    (semantics o = 3 → DoneNext (.fence o) s u w sp { w with fences := w.fences ++ [acq, full] } [.relFence scope set]) ∧
    (Ready .icsync s u w sp → sp.trump = none →
       ∃ t, exec .icsync s = .next t ∧ RegsSame w (waveOf t u) ∧ (waveOf t u).wstat = w.wstat ∧ t.held = s.held ∧
        t.blocks = s.blocks ∧ (coreOf t w.core).code = [] ∧
        (∀ a, (∀ f ∈ s.flights, f.2.pos = none → ∀ y ∈ f.2.bytes, y.1 ≠ a) → memGet t.mem a = memGet s.mem a) ∧
        ∀ v x, mget t.waves v = some x → x.core = w.core → x.seat = w.seat →
          (∀ y ∈ x.splits ++ x.deferred, y.clause = none) ∧
          ∀ f, x.frame = some f → ∀ y ∈ f.splits ++ f.deferred, y.clause = none)

/-- R222, R74, R104: `wseq`. A base that is no open ingress window of the context traps with INGRESS and its low word; a
committed number that has not reached B parks the split; otherwise the committed number is written into D and the wave
goes on, its sticky flags unchanged but for SCOPE_MISS. -/
def Obligations.WindowWaits : Prop :=
  ∀ (s : State) (u : Nat) (w : Wave) (sp : Split) (d a b : Operand),
    let i : Instr := .wseq d a b
    CleanU i s u w sp [(a, true)] →
    let base := (readUPair (ctxFor s u w sp i) a).toNat
    let n := (readUPair (ctxFor s u w sp i) b).toNat
    let open_ (x : Window) : Bool := decide (x.ctx = w.ctx ∧ x.base = base) && x.opened
    ((partOf s w.part).windows.find? open_ = none → Traps i s u w sp .ingress (BitVec.ofNat 32 base)) ∧
    (∀ x, (partOf s w.part).windows.find? open_ = some x →
      (x.c < n → Done i s u w sp (parkedAt sp i (.window base n (if activeMask w sp i = 0 then none else uniformDest d)) none)
        w []) ∧
      (n ≤ x.c → Ready i s u w sp → sp.trump = none → ∃ t, exec i s = .next t ∧
        RegsSame (putUPair w (activeMask w sp i) d ⟨BitVec.ofNat 64 x.c, .clean⟩) (waveOf t u) ∧
        splitOf (waveOf t u) sp.entry = some (nextWord sp i) ∧ t.held = s.held ∧ t.blocks = s.blocks ∧
        ((waveOf t u).wstat = w.wstat ∨ (waveOf t u).wstat = w.wstat ||| fMISS)))

/-! ### Matrix state and the arrays -/

/-- R86, R247, R248, R250, R255, R259, R260: `tcfg`, `twin`, `accz`, `hist`, `hclr` and `hscale`. A word that breaks its
field rule traps with ILLEGAL_FIELD, a tile outside the allocation or an accumulator the block lacks with TILE_CONFIG;
otherwise the write is held for D cycles. `hist` counts the exponents of the active lanes that are not NaN; `hscale` writes
the scale of the histogram as its wave sees it.
Log entry 33 says what the model chose here. -/
def Obligations.MatrixState : Prop :=
  ∀ (s : State) (u : Nat) (w : Wave) (sp : Split) (d a : Operand) (n : Nat),
    let held (i : Instr) (m : MatrixWrite) : Prop := DoneNext i s u w sp w [.matrix m]
    (w.block = none → ∀ i, (i = .tcfg (.t n) a ∨ i = .twin (.t n) a ∨ i = .accz (.acc n) ∨ i = .hist a ∨ i = .hclr ∨
      i = .hscale d a) → TrapsOpen i s u w sp .looseWave) ∧
    (∀ k, w.block = some k →
      (let i : Instr := .tcfg (.t n) a
       let x := readU (ctxFor s u w sp i) a
       let rows := x.toNat % 2 ^ 8
       let rb := x.toNat / 2 ^ 8 % 2 ^ 8
       ChecksThen i s u w sp
         [(decide (rows = 0) || decide (128 < rows) || decide (rb = 0) || decide (16 < rb) ||
            decide (8 < x.toNat / 2 ^ 16 % 2 ^ 4), .illegalField, x),
          (decide ((blockOf s k).tileLen < 256 * (x.toNat / 2 ^ 20) + 16 * rb * rows), .tileConfig, x)] (held i (.tconf n x))) ∧
      (let i : Instr := .twin (.t n) a
       let x := readU (ctxFor s u w sp i) a
       ChecksThen i s u w sp [(decide (2 ^ 22 ≤ x.toNat) || decide (127 < x.toNat % 2 ^ 8), .illegalField, x)]
         (held i (.twind n x))) ∧
      ChecksThen (.accz (.acc n)) s u w sp
        [(decide ((blockOf s k).accs ≤ n), .tileConfig, BitVec.ofNat 32 (Operand.acc n).code)]
        (held (.accz (.acc n)) (.accClear n)) ∧
      (let i : Instr := .hist a
       let value (l : Nat) : TVal := read32 (ctxFor s u w sp i) a l
       let isNum (l : Nat) : Bool := !(decide ((value l).val.toNat / 2 ^ 23 % 2 ^ 8 = 255) &&
         decide ((value l).val.toNat % 2 ^ 23 ≠ 0))
       let lanes := (lanesOf (activeMask w sp i)).filter isNum
       held i (.histAdd (lanes.map (fun l => (value l).val.toNat / 2 ^ 23 % 2 ^ 8)) (mergeTags (lanes.map (fun l => (value l).tag))))) ∧
      held .hclr .histClear ∧
      (let i : Instr := .hscale d a
       let x := readU (ctxFor s u w sp i) a
       let q := x.toNat % 2 ^ 11
       let f := x.toNat / 2 ^ 16 % 2 ^ 4
       let b := seenBlock s u k
       ChecksThen i s u w sp
         [(decide (q = 0) || decide (1024 < q) || !([3, 4, 5, 6, 7, 8].contains f) || decide (x.toNat / 2 ^ 11 % 2 ^ 5 ≠ 0) ||
            decide (2 ^ 20 ≤ x.toNat), .illegalField, x)]
         (DoneNext i s u w sp (putU w (activeMask w sp i) d ⟨BitVec.ofNat 32 (scaleFor b.hist q f), seeTag s.tags w.part b.histTag⟩) [])))

/-- R61, R86, R255, R258, R259: `accrd` and `accwr`. The control word, the slot and the accumulator are checked in that
order. `accrd` writes the part the word names of the elements as the wave sees them, with their tags; `accwr` holds the
elements of the active lanes for D cycles and raises the flags of their conversion now.
Log entries 34 and 35 say what the model chose here. -/
def Obligations.AccumulatorAccess : Prop :=
  ∀ (s : State) (u : Nat) (w : Wave) (sp : Split) (d a b : Operand) (n : Nat),
    let bad (x : Nat) (writes : Bool) : Bool :=
      decide (2 ^ 28 ≤ x) || decide (10 ≤ x / 2 ^ 24 % 2 ^ 4) || decide (x / 2 ^ 24 % 2 ^ 4 = 6) ||
      (writes && decide (x / 2 ^ 24 % 2 ^ 4 ≠ 0)) || x.testBit 23 || decide (64 < x / 2 ^ 16 % 2 ^ 7) || x.testBit 15 ||
      decide (63 < x / 2 ^ 8 % 2 ^ 7) || x.testBit 7 || decide (4 < x / 2 ^ 4 % 2 ^ 3) || x.testBit 3
    let elem (x l : Nat) : Nat := 8192 * n + 128 * (x / 2 ^ 8 % 2 ^ 7) + x / 2 ^ 16 % 2 ^ 7 + l
    let checks (k : Nat) (x : Word) (writes : Bool) : List (Bool × Cause × Word) :=
      let slot := slotWord s w.grid (x.toNat % 8)
      [(bad x.toNat writes, .illegalField, x), (slotBad slot.toNat, .formatSlot, slot),
       (decide ((blockOf s k).accs ≤ n), .tileConfig, BitVec.ofNat 32 (Operand.acc n).code)]
    (w.block = none → TrapsOpen (.accrd d (.acc n) b) s u w sp .looseWave ∧ TrapsOpen (.accwr (.acc n) a b) s u w sp .looseWave) ∧
    (∀ k, w.block = some k →
      (let i : Instr := .accrd d (.acc n) b
       let x := readU (ctxFor s u w sp i) b
       let part := x.toNat / 2 ^ 4 % 2 ^ 3
       let slot := (slotWord s w.grid (x.toNat % 8)).toNat
       ChecksThen i s u w sp (checks k x false) (ResultsDone i s u w sp d false (fun _ l =>
         let y := mgetD (seenBlock s u k).acc (elem x.toNat l) {}
         let r : Nat × Sticky := if part = 0 then accOut slot (x.toNat / 2 ^ 24 % 2 ^ 4) y
           else if part = 4 then (if y.lost then 1 else 0, 0) else (y.bits.toNat / 2 ^ (32 * (part - 1)) % 2 ^ 32, 0)
         (BitVec.ofNat 64 r.1, [seeTag s.tags w.part y.tag], r.2)))) ∧
      (let i : Instr := .accwr (.acc n) a b
       let c := ctxFor s u w sp i
       let x := readU c b
       let part := x.toNat / 2 ^ 4 % 2 ^ 3
       let slot := (slotWord s w.grid (x.toNat % 8)).toNat
       let lanes := lanesOf (activeMask w sp i)
       ChecksThen i s u w sp (checks k x true)
         ((part = 0 → DoneNext i s u w sp { w with wstat := w.wstat ||| lanes.foldl (fun f l => f |||
             (accIn slot ((read32 c a l).val.setWidth 32) (read32 c a l).tag).2) 0 }
           [.matrix (.acc (lanes.map (fun l => (elem x.toNat l, (accIn slot ((read32 c a l).val.setWidth 32) (read32 c a l).tag).1))) 0)]) ∧
          (part ≠ 0 → DoneNext i s u w sp w [.matrix (.acc (lanes.map (fun l =>
             (elem x.toNat l, { bits := (read32 c a l).val.setWidth 96, tag := (read32 c a l).tag }))) part)]))))

/-- R61, R255, R261: `qcvt`. After its checks it holds for D cycles the 38 bytes of the two Q4X blocks that the quantiser
makes of the lanes, a lane outside ACTIVE counting as clean +0, at block j of the tile row, and raises their flags now. -/
def Obligations.Quantising : Prop :=
  ∀ (s : State) (u : Nat) (w : Wave) (sp : Split) (a : Operand) (n : Nat) (m : BitVec 5) (f : BitVec 3),
    let i : Instr := .qcvt (.t n) a m f
    (w.block = none → TrapsOpen i s u w sp .looseWave) ∧
    (∀ k, w.block = some k →
      let c := ctxFor s u w sp i
      let x := (sReg w m.toNat).val
      let cfg := (mgetD (seenBlock s u k).tconf n 0).toNat
      let row := x.toNat / 2 ^ 8 % 2 ^ 7
      let j := x.toNat / 2 ^ 16 % 2 ^ 8
      let rb := cfg / 2 ^ 8 % 2 ^ 8
      let slot := slotWord s w.grid f.toNat
      let lane (l : Nat) : QLane := if inMask (activeMask w sp i) l then
          (fdecode f32 (read32 c a l).val.toNat, (read32 c a l).tag) else (.fin false 0 0, .clean)
      let low := q4xMake slot.toNat (x.toNat % 2 ^ 8) lane
      let high := q4xMake slot.toNat (x.toNat % 2 ^ 8) (fun l => lane (l + 32))
      let start := 256 * (cfg / 2 ^ 20 % 2 ^ 12) + 16 * rb * row + 19 * j
      let cells := low.1 ++ high.1
      ChecksThen i s u w sp
        [(x.toNat.testBit 15 || decide (2 ^ 24 ≤ x.toNat) || decide (x.toNat % 2 ^ 8 = 255) || decide (cfg % 2 ^ 8 ≤ row) ||
            decide (16 * rb / 19 < j + 2), .illegalField, x),
         (decide (cfg / 2 ^ 16 % 2 ^ 4 ≠ 6), .tileShape, BitVec.ofNat 32 (Operand.t n).code),
         (slotBad slot.toNat, .formatSlot, slot)]
        (DoneNext i s u w sp { w with wstat := w.wstat ||| (low.2 ||| high.2) }
          [.matrix (.tile (addrBytes start (cells.map (·.1)))
            ((cells.zip (List.range 38)).flatMap (fun y => y.1.2.map (fun g => ((start + y.2) / 32, g)))))]))

/-- R38, R39, R63, R64, R250, R254, R255: `mma` and `mmaw`. With ACTIVE empty they are no-ops; the checks of R255 are made in
its order over the tile configurations as the wave sees them; then a request enters `qm`. What a product adds to an
accumulator element: in fixed96 a group of G elements adds Floor(T × 2^P), T the exact sum of its scaled products; a sum
outside the range saturates with ACC_SAT, and an inexact floor sets the lost indicator. In float96 a chunk of 16 elements
adds its exact sum, rounded once to nearest even; a NaN factor or scale gives the default NaN. Groups and chunks follow one
another in ascending K.
Log entry 91 says what the model chose here. -/
def Obligations.Multiplies : Prop :=
  (∀ (s : State) (u : Nat) (w : Wave) (sp : Split) (f : BitVec 3) (n ta tb : Nat) (window : Bool) (i : Instr),
     (window = false ∧ i = .mma f (.acc n) (.t ta) (.t tb) ∨ window = true ∧ i = .mmaw f (.acc n) (.t ta) (.t tb)) →
     (w.block = none → TrapsOpen i s u w sp .looseWave) ∧
     (∀ k, w.block = some k →
       let b := seenBlock s u k
       let slot := slotWord s w.grid f.toNat
       let ca := (mgetD b.tconf ta 0).toNat
       let cb := (mgetD b.tconf tb 0).toNat
       let wa := (mgetD b.twind ta 0).toNat
       let rows (x : Nat) : Nat := x % 2 ^ 8
       let form (x : Nat) : Nat := x / 2 ^ 16 % 2 ^ 4
       let taps := wa / 2 ^ 8 % 2 ^ 4 + 1
       let last := wa % 2 ^ 8 + (wa / 2 ^ 16 % 2 ^ 6) * (wa / 2 ^ 12 % 2 ^ 4 + 1) + (taps - 1)
       let ka := tileK ca (fsA slot.toNat) (fsScale slot.toNat)
       let active := (lanesOf (activeMask w sp i)).length
       (active = 0 → DoneNext i s u w sp w []) ∧
       (active ≠ 0 → ChecksThen i s u w sp
         [(decide (1 < active), .illegalIssue, BitVec.ofNat 32 active), (decide (b.kind = .dummy), .illegalIssue, 0),
          (slotBad slot.toNat, .formatSlot, slot), (decide (b.accs ≤ n), .tileConfig, BitVec.ofNat 32 (Operand.acc n).code),
          (decide (form ca ≠ fsA slot.toNat) || decide (rows ca = 0), .tileShape, BitVec.ofNat 32 (Operand.t ta).code),
          (decide (form cb ≠ fsB slot.toNat) || decide (rows cb = 0), .tileShape, BitVec.ofNat 32 (Operand.t tb).code),
          (if window then decide (rows ca ≤ last) else decide (64 < rows ca), .tileShape, BitVec.ofNat 32 (Operand.t ta).code),
          (decide (tileK cb (fsB slot.toNat) (fsScale slot.toNat) ≠ if window then taps * ka else ka), .tileShape,
            BitVec.ofNat 32 (Operand.t tb).code)]
         (EngineBegun i s u w sp 4 (.mma window slot n ta tb (mgetD b.tconf ta 0) (mgetD b.tconf tb 0) (mgetD b.twind ta 0)) false)))) ∧
  ∀ (slot : Nat) (x : AccElem) (a b : List MElem) (tag : Tag), a.length = b.length →
    let r := accumulate slot x a b tag
    let G := if fsFloat slot ∨ groupSize (fsA slot) (fsScale slot) = 16 ∨ groupSize (fsB slot) (fsScale slot) = 16 then 16 else 32
    (a.length ≤ G → fsFloat slot = false → AllFinite a → AllFinite b →
      let t := exactDot a b * 2 ^ fsP slot
      let sum := x.bits.toInt + ⌊t⌋
      r.1.lost = (x.lost || decide ((⌊t⌋ : ℚ) ≠ t)) ∧
      (sum < -2 ^ 95 → r.1.bits.toInt = -2 ^ 95 ∧ r.2 = fACCSAT) ∧
      (2 ^ 95 - 1 < sum → r.1.bits.toInt = 2 ^ 95 - 1 ∧ r.2 = fACCSAT) ∧
      (-2 ^ 95 ≤ sum → sum ≤ 2 ^ 95 - 1 → r.1.bits.toInt = sum ∧ r.2 = 0)) ∧
    (a.length ≤ G → fsFloat slot = true → a ≠ [] → r.1.lost = x.lost ∧
      (AllFinite a → AllFinite b → ∀ n m e neg k g, fdecode f96 x.bits.toNat = .fin n m e → k ≠ 0 →
        exactOf (.fin neg k g) = exactOf (.fin n m e) + exactDot a b →
        r.1.bits = BitVec.ofNat 96 (roundF f96 0 false neg k g).1) ∧
      ((∃ y ∈ a.zip b, y.1.bad = true ∨ y.2.bad = true ∨ (∃ n f, y.1.v = .nan n f) ∨ ∃ n f, y.2.v = .nan n f) →
        r.1.bits = BitVec.ofNat 96 (0x7FFF * 2 ^ 80 + 2 ^ 79))) ∧
    (∀ a' b', a.length = G → a'.length = b'.length →
      let z := accumulate slot x (a ++ a') (b ++ b') tag
      let y := accumulate slot r.1 a' b' tag
      z.1.bits = y.1.bits ∧ z.1.lost = y.1.lost ∧ z.2 = r.2 ||| y.2)

/-! ### Engine queues, copies, decks, cohorts, launches -/

/-- R86, R162, R165, R170, R173, R174: `cpin`, `cpout` and `gath`. After the checks in their order a request enters the
named copy queue (`qg` for `gath`) and joins the open batch; with no place the wave waits.
Log entries 30 and 50 say what the model chose here. -/
def Obligations.Copies : Prop :=
  ∀ (s : State) (u : Nat) (w : Wave) (sp : Split) (q n : Nat) (a b d : Operand) (i : Instr) (out : Bool),
    ((out = false ∧ i = .cpin (.q q) (.s n) ∨ out = true ∧ i = .cpout (.q q) (.s n)) →
      (w.block = none → TrapsOpen i s u w sp .looseWave) ∧
      (w.block ≠ none → (∀ j, j < 8 → seeTag s.tags w.part (sReg w (n + j)).tag = .clean) →
        let r (j : Nat) : Word := (sReg w (n + j)).val
        let x (j : Nat) : Nat := (r j).toNat
        let lay : Layout := { w0 := x 4, w1 := x 5, w2 := x 6 }
        let length := x 7 % 2 ^ 24
        let req : CopyReq := { desc := x 0 + 2 ^ 32 * x 1, coord := [x 2 % 2 ^ 16, x 2 / 2 ^ 16, x 3 % 2 ^ 16, x 3 / 2 ^ 16],
                               layout := [r 4, r 5, r 6], stream := (x 7).testBit 25, halo := (x 7).testBit 24,
                               length := length, pkr := w.pkr }
        ChecksThen i s u w sp
          [(decide (2 ^ 17 ≤ x 1), .illegalField, r 1), (decide (2 ^ 26 ≤ x 7), .illegalField, r 7),
           (layoutBad lay, .illegalField, r 4), (decide (x 0 % 2 ^ 6 ≠ 0), .copyAlign, r 0),
           (decide (length % layEsize lay ≠ 0), .copyAlign, BitVec.ofNat 32 length)]
          (EngineBegun i s u w sp q (.copy out [(u, req)]) true))) ∧
    (let g : Instr := .gath d a b
     (w.block = none → TrapsOpen g s u w sp .looseWave) ∧
     (∀ k, w.block = some k → CleanLanes g s u w sp a true →
       let ls := activeAddrs w sp g (fun l => (readPair (ctxFor s u w sp g) a l).val.toNat)
       let ctl := readU (ctxFor s u w sp g) b
       let off := readU (ctxFor s u w sp g) d
       let e := 2 ^ (ctl.toNat % 4)
       let lane := ls.find? (fun l => decide (l.2 % e ≠ 0))
       (ls = [] → DoneNext g s u w sp w []) ∧
       (ls ≠ [] → ChecksThen g s u w sp
         [(decide (4 ≤ ctl.toNat), .illegalField, ctl),
          (decide (off.toNat % e ≠ 0) || decide ((blockOf s k).spadLen < off.toNat + 64 * e), .spadRange, off),
          (lane.isSome, .copyAlign, BitVec.ofNat 32 ((lane.map (·.1)).getD 0))]
         (EngineBegun g s u w sp 6 (.gather e off.toNat ls) true))))

/-- R172, R174: `bcpin` and `bcpout`. After the checks of a copy, the first slice of a collective takes a place in the queue
and counts the block's waves; a wave that has supplied its slice, or meets a collective with every counted slice, waits; a
slice of the other direction traps with ILLEGAL_ISSUE; otherwise the wave's slice joins, with a long operation and the open
batch, and its arrival is held for D cycles.
Log entries 14 and 30 say what the model chose here. -/
def Obligations.BlockCopies : Prop :=
  ∀ (s : State) (u : Nat) (w : Wave) (sp : Split) (q n k : Nat) (i : Instr) (out : Bool),
    (out = false ∧ i = .bcpin (.q q) (.s n) ∨ out = true ∧ i = .bcpout (.q q) (.s n)) →
    (w.block = none → TrapsOpen i s u w sp .looseWave) ∧
    (w.block = some k → (∀ j, j < 8 → seeTag s.tags w.part (sReg w (n + j)).tag = .clean) →
      let c := ctxFor s u w sp i
      (∀ x, requestTrap c (.s n) = some x → Traps i s u w sp x.1 x.2) ∧
      (requestTrap c (.s n) = none →
        let b := blockOf s k
        let supplied (x : Collective) (t : State) : Prop :=
          ∃ o y, mget (blockOf t k).collectives q = some y ∧
            y.slices = x.slices ++ [(w.wid, u, o.id, requestOf c (.s n))] ∧ y.out = out ∧ y.counted = x.counted ∧
            y.count = x.count ∧ y.id = x.id ∧ (waveOf t u).ops = w.ops ++ [o] ∧ o.flag = flagOf sp i ∧
            o.queue = some q ∧ (waveOf t u).openBatch = w.openBatch ++ [o.id] ∧ RegsSame w (waveOf t u) ∧
            splitOf (waveOf t u) sp.entry = some (nextWord sp i) ∧
            Holds s t u [.collective q y.id]
        (∀ x, mget b.collectives q = some x →
          let ready := (∀ y ∈ x.slices, y.2.1 ≠ u) ∧ x.slices.length + x.empties.length < x.count
          (¬ ready → Waits i s u w sp) ∧
          (ready → x.out ≠ out → Traps i s u w sp .illegalIssue (BitVec.ofNat 32 (Operand.q q).code)) ∧
          (ready → x.out = out → Ready i s u w sp → sp.trump = none → ∃ t, exec i s = .next t ∧ supplied x t)) ∧
        (mget b.collectives q = none →
          (queueRoom s w q = false → Waits i s u w sp) ∧
          (queueRoom s w q = true → Ready i s u w sp → sp.trump = none → ∃ t, exec i s = .next t ∧
            supplied { id := s.nextId, out := out, count := b.members.length, counted := b.members.map (·.1), slices := [] } t))))

/-- R162, R180: `qfence` takes a place in every queue it names and holds one request for all the markers, or waits until
each has one; a loose wave traps. R74, R104, R270, R279: `cbar` of a cohort its core is no member of traps with
ILLEGAL_COHORT and the index; otherwise its arrival is held for D cycles and its split parks until its generation is
released.
Log entry 14 says what the model chose here. -/
def Obligations.QueueFences : Prop :=
  ∀ (s : State) (u : Nat) (w : Wave) (sp : Split) (d a : Operand) (q : Byte),
    (w.block = none → TrapsOpen (.qfence q) s u w sp .looseWave) ∧
    (w.block ≠ none →
      ((∃ n, n < 7 ∧ q.getLsbD n = true ∧ queueRoom s w n = false) → Waits (.qfence q) s u w sp) ∧
      ((∀ n, n < 7 → q.getLsbD n = true → queueRoom s w n = true) →
        DoneNext (.qfence q) s u w sp w [.markers q s.nextId])) ∧
    (let i : Instr := .cbar d a
     CleanU i s u w sp [(a, false)] →
       let idx := (readU (ctxFor s u w sp i) a).toNat
       let member := ∃ x, mget (partOf s w.part).cohorts idx = some x ∧ w.core ∈ x.members
       (¬ member → Traps i s u w sp .illegalCohort (BitVec.ofNat 32 idx)) ∧
       (member → Done i s u w sp
         (parkedAt sp i (.cohort w.part idx s.nextId none (if activeMask w sp i = 0 then none else uniformDest d)) none) w
         [.cohort idx]))

/-- R262, R263, R270, R280: `mdrain` and `cred`. After their checks in order a contribution is counted among the cohort's
pending ones, a long operation on flag B is counted, and its leaving is held for D cycles; while an earlier contribution of
the block is in a round not yet formed the wave waits. `cred` with ACTIVE empty is a no-op.
Log entries 30 and 34 say what the model chose here. -/
def Obligations.Contributions : Prop :=
  ∀ (s : State) (u : Nat) (w : Wave) (sp : Split) (a b : Operand) (n : Nat) (m : BitVec 5) (f : BitVec 3),
    let contributed (i : Instr) (idx : Nat) (P : Contribution → Prop) : Prop :=
      ∃ t o y e, exec i s = .next t ∧ (waveOf t u).ops = w.ops ++ [o] ∧ o.flag = flagOf sp i ∧ o.queue = some 5 ∧
        RegsSame w (waveOf t u) ∧ (waveOf t u).wstat = w.wstat ∧ splitOf (waveOf t u) sp.entry = some (nextWord sp i) ∧
        (∀ x, mget (partOf s w.part).cohorts idx = some x →
          mget (partOf t w.part).cohorts idx = some { x with pending := x.pending ++ [y] }) ∧
        Holds s t u [.contribute w.part idx e] ∧ y.entry.id = e ∧ y.entry.wave = u ∧ y.core = w.core ∧ P y
    let member (idx : Nat) : Bool := match mget (partOf s w.part).cohorts idx with
      | some x => x.members.contains w.core
      | none => false
    (let i : Instr := .mdrain (.acc n) a m f
     (w.block = none → TrapsOpen i s u w sp .looseWave) ∧
     (∀ k, w.block = some k → CleanU i s u w sp [(a, true), (.s m.toNat, false)] →
       let ctl := (sReg w m.toNat).val
       let x := ctl.toNat
       let rows := x / 2 ^ 14 % 2 ^ 6 + 1
       let first := x / 2 ^ 8 % 2 ^ 6
       let fmt := x / 2 ^ 20 % 2 ^ 4
       let dest := (readUPair (ctxFor s u w sp i) a).toNat
       let slot := slotWord s w.grid f.toNat
       ChecksThen i s u w sp
         [(decide (2 ^ 28 ≤ x) || decide (10 ≤ fmt) || decide (fmt = 6) || decide (64 < first + rows), .illegalField, ctl),
          (decide (dest % 2 ^ 6 ≠ 0), .memAlign, BitVec.ofNat 32 dest),
          (decide (dest / 2 ^ 49 = 0) && decide (1 < rows), .memAlign, BitVec.ofNat 32 (dest / 2 ^ 32)),
          (slotBad slot.toNat, .formatSlot, slot),
          (decide ((blockOf s k).accs ≤ n), .tileConfig, BitVec.ofNat 32 (Operand.acc n).code),
          (!member (x % 2 ^ 8), .illegalCohort, BitVec.ofNat 32 (x % 2 ^ 8))]
         ((unformed s (ctxFor s u w sp i) true = true → Waits i s u w sp) ∧
          (unformed s (ctxFor s u w sp i) true = false → Ready i s u w sp → sp.trump = none →
            contributed i (x % 2 ^ 8) (fun y => y.drain = true ∧ y.slot = slot ∧ y.ctl = ctl ∧ y.dest = dest % 2 ^ 49 ∧
              y.pitch = dest / 2 ^ 49 ∧ y.elems = drainElems (seenBlock s u k) (seeTag s.tags w.part) n (drainCtl x)))))) ∧
    (let i : Instr := .cred (.v n) a b
     CleanU i s u w sp [(b, false)] →
       let c := ctxFor s u w sp i
       let ctl := readU c b
       let x := ctl.toNat
       let ty := x / 2 ^ 12 % 2 ^ 4
       let op := x / 2 ^ 8 % 2 ^ 4
       let wide := decide (3 ≤ ty)
       (activeMask w sp i = 0 → DoneNext i s u w sp w []) ∧
       (activeMask w sp i ≠ 0 → ChecksThen i s u w sp
         [(decide (2 ^ 17 ≤ x) || decide (5 < ty) || decide (4 < op) || (decide (3 ≤ op) && (decide (ty = 2) || decide (ty = 5))),
            .illegalField, ctl),
          (credOperandBad (.v n) a wide, .illegalOperand, i.word),
          (!member (x % 2 ^ 8), .illegalCohort, BitVec.ofNat 32 (x % 2 ^ 8))]
         ((unformed s c false = true → Waits i s u w sp) ∧
          (unformed s c false = false → Ready i s u w sp → sp.trump = none →
            contributed i (x % 2 ^ 8) (fun y => y.drain = false ∧ y.ctl = ctl ∧ y.dst = w.wbase + n ∧
              y.lanes = (lanesOf (activeMask w sp i)).map (fun l =>
                ⟨l, (readLane c a wide (decide (ty = 3)) l).val, (readLane c a wide (decide (ty = 3)) l).tag⟩))))))

/-- R162, R282 to R285: `dput`, `dtake` and `sdwait`. A deck outside the grid's deck set traps with ILLEGAL_DECK, `trapval`
the lowest lane that names one or the deck. `dput` waits until its items fit in the die's buffer and holds them; `dtake`
releases what the wave had drawn and asks `qg`; `sdwait` releases it and parks until the set is quiet. -/
def Obligations.Decks : Prop :=
  ∀ (s : State) (u : Nat) (w : Wave) (sp : Split) (a b : Operand) (n p : Nat),
    let inSet (d : Nat) : Bool := decide (d < 64) && (gridOf s w.grid).launch.decks.getLsbD d
    (let i : Instr := .dput (.v n) b
     let c := ctxFor s u w sp i
     let lanes := lanesOf (activeMask w sp i)
     let deck (l : Nat) : Nat := (read32 c b l).val.toNat
     (∀ l ∈ lanesOf (sp.mask &&& w.live), (read32 c b l).tag = .clean) →
     (∀ l, lanes.find? (fun l => !inSet (deck l)) = some l →
       Traps i s u w sp .illegalDeck (BitVec.ofNat 32 (if rank b = 0 then deck l else l))) ∧
     ((∀ l ∈ lanes, inSet (deck l) = true) →
       (4096 < inFlight s w.part (dieOfCore w.core) + lanes.length → Waits i s u w sp) ∧
       (inFlight s w.part (dieOfCore w.core) + lanes.length ≤ 4096 →
         (lanes = [] → DoneNext i s u w sp w []) ∧
         (lanes ≠ [] → DoneNext i s u w sp w [.deckPut (lanes.map (fun l => (deck l, [0, 1, 2, 3].map (fun j =>
           let x := vLane (mgetD w.v (w.wbase + (n + j)) {}) l
           ⟨x.val, seeTag s.tags w.part x.tag⟩))))])))) ∧
    (let i : Instr := .dtake (.p p) (.v n) b
     CleanU i s u w sp [(b, false)] →
       let deck := (readU (ctxFor s u w sp i) b).toNat
       (inSet deck = false → Traps i s u w sp .illegalDeck (BitVec.ofNat 32 deck)) ∧
       (inSet deck = true → queueRoom s w 6 = false → Waits i s u w sp) ∧
       (inSet deck = true → queueRoom s w 6 = true → Ready i s u w sp → sp.trump = none → ∃ t o e, exec i s = .next t ∧
         Ends i s t u w sp (nextWord sp i) (addOp { w with drawn := [] } o) [.deckRelease w.drawn, .enter 6 e] ∧
         o.flag = flagOf sp i ∧ o.queue = some 6 ∧ e.work = .take deck p (w.wbase + n) (lanesOf (activeMask w sp i)) ∧
         e.wave = u ∧ e.block = w.block ∧ e.pkr = w.pkr ∧ e.ops = [(u, o.id)])) ∧
    (let i : Instr := .sdwait a
     CleanU i s u w sp [(a, true)] →
       let set := readUPair (ctxFor s u w sp i) a
       (∀ x, (List.range 64).find? (fun d => set.getLsbD d && !inSet d) = some x →
         Traps i s u w sp .illegalDeck (BitVec.ofNat 32 x)) ∧
       ((∀ d, d < 64 → set.getLsbD d = true → inSet d = true) →
         Done i s u w sp (parkedAt sp i (.decks set s.nextId false) none) { w with drawn := [] } [.deckRelease w.drawn]))

/-- R88, R104, R276 to R278: `launch`, `lstat` and `lwait`. `launch` checks its queue, its address and its record as a load by
lane 0, holds the launch and waits for it; `lstat` writes the grid's state now; `lwait` writes it where the grid is
complete or unknown and parks otherwise.
Log entries 37, 38 and 39 say what the model chose here. -/
def Obligations.GridLaunch : Prop :=
  ∀ (s : State) (u : Nat) (w : Wave) (sp : Split) (d a b : Operand) (n : Nat),
    (let i : Instr := .launch (.s n) a b
     CleanU i s u w sp [(a, true), (b, false)] →
       let x := (readUPair (ctxFor s u w sp i) a).toNat
       let q := readU (ctxFor s u w sp i) b
       let pieces := [(0, x), (0, x + 64), (0, x + 128), (0, x + 192)]
       ChecksThen i s u w sp [(decide (255 < q.toNat), .illegalField, q), (decide (x % 64 ≠ 0), .memAlign, 0)]
         ((∀ f, checkLanes s (agentOf w) .load 64 pieces = some f → Ready i s u w sp →
             exec i s = .next (checkFailed s (ctxFor s u w sp i) f)) ∧
          (checkLanes s (agentOf w) .load 64 pieces = none →
             ∃ m, Accessed i s u w sp (watchHit s w pieces 64 false false true) { w with waitHeld := some m }
               [.launch x q.toNat n]))) ∧
    (let looked (i : Instr) (x : Nat) : Prop := Ready i s u w sp → sp.trump = none → ∃ t, exec i s = .next t ∧
       RegsSame (putU w (activeMask w sp i) d ⟨BitVec.ofNat 32 x, .clean⟩) (waveOf t u) ∧ (waveOf t u).wstat = w.wstat ∧
       splitOf (waveOf t u) sp.entry = some (nextWord sp i) ∧ t.held = s.held ∧ t.blocks = s.blocks
     let grid (i : Instr) : Nat := (gridState s w.part (readU (ctxFor s u w sp i) a).toNat).1
     (CleanU (.lstat d a) s u w sp [(a, false)] → looked (.lstat d a) (grid (.lstat d a))) ∧
     (CleanU (.lwait d a) s u w sp [(a, false)] →
       (2 ≤ grid (.lwait d a) → looked (.lwait d a) (grid (.lwait d a))) ∧
       (grid (.lwait d a) < 2 → Done (.lwait d a) s u w sp
         (parkedAt sp (.lwait d a) (.grid (readU (ctxFor s u w sp (.lwait d a)) a).toNat
           (if activeMask w sp (.lwait d a) = 0 then none else uniformDest d)) none) w [])))

/-! ### The moves of the device -/

/-- R226, R228, R337, R349: HOLDBACK_RELEASE. A held store, map change, release fence, record or stop whose time has come
leaves its seat once every older effect of the seat has: a scratchpad store writes its bytes, the highest lane last, a
global one, once its wave's older loads of its bytes are performed, the bytes of a granule whose home is its die at once, and
no other byte; a map change enters or ends its grant; a stop faults its block or wave, or stops the waves of its stop set.
Log entries 12 and 24 say what the model chose here. -/
def Obligations.HeldStores : Prop :=
  ∀ (s : State) (n : Nat) (h : Held), Due s n h →
    let i : Instr := .holdbackRelease n
    let left (t : State) : Prop := t.held = s.held.filter (fun x => !decide (x.id = n))
    let w := waveOf s h.wave
    let see := seeTag s.tags w.part
    let stored (bytes : List (Nat × Byte)) : Prop := Made i s (fun t =>
      (NoErrors s → ∀ k a, memGet (blockOf t k).spad a = memGet (blockOf s k).spad a) ∧
      (s.ports = [] → ∀ a, (∀ x ∈ bytes, x.1 ≠ a) → memGet t.mem a = memGet s.mem a) ∧
      (s.ports = [] → (∀ x ∈ bytes, regionOf x.1 = 0 ∧ homeDie (diesOf s w.part) x.1 = dieOfCore h.core) →
        ∀ a, memGet t.mem a = memGet (memWrite s.mem bytes) a))
    (∀ width ls, h.eff = .sstore width ls → ∀ k b, h.block = some k → mget s.blocks k = some b →
      spadMay s k (laneBytes width ls) (laneTags see ls) = true → bankFree s h = true →
      Made i s (fun t => left t ∧ (∀ a, memGet t.mem a = memGet s.mem a) ∧ (NoErrors s →
        (∀ a, memGet (blockOf t k).spad a = memGet (memWrite b.spad (laneBytes width ls)) a) ∧
        (∀ j, j ≠ k → ∀ a, memGet (blockOf t j).spad a = memGet (blockOf s j).spad a)))) ∧
    (∀ width ls rel clock, h.eff = .gstore width ls rel clock →
      globalMay s (laneBytes width ls) (laneTags see ls) = true →
      LoadsLeave { dropHeld s n with tags := absorb s.tags (lanePairs see ls) } h (laneBytes width ls) →
      stored (laneBytes width ls)) ∧
    (∀ bytes tags clock, h.eff = .vstore bytes tags clock →
      globalMay s bytes (fun g => mergeTags ((tags.filter (fun t => decide (t.1 = g))).map (·.2))) = true →
      LoadsLeave (dropHeld s n) h bytes → stored bytes) ∧
    (∀ first k, h.eff = .splitRecords first k →
      let at_ := w.spillTop - 32 * (first + k - 1)
      let bytes := spillBytesAt (dropHeld s n) w at_ ((List.range (32 * k)).map (Config.splitRecord n))
      (at_ < w.spillBase + 384 * w.lo → Made i s (fun t => left t ∧ BytesSame s t)) ∧
      (w.spillBase + 384 * w.lo ≤ at_ → LoadsLeave (dropHeld s n) h bytes → stored bytes)) ∧
    (∀ index word wbase g, h.eff = .grant index word wbase → mget s.grids w.grid = some g → Made i s (fun t =>
      left t ∧ BytesSame s t ∧ (∀ j, j ≠ index → mget (gridOf t w.grid).grants j = mget g.grants j) ∧
      (word.getLsbD 4 = false → ∃ x, mget (gridOf t w.grid).grants index = some x ∧ x.block = h.block.getD 0 ∧
        x.write = word.getLsbD 3 ∧ x.ending = false ∧ (word.toNat % 4 = 0 → x.arr = .spad) ∧
        (word.toNat % 4 = 1 → x.arr = .window h.wave wbase) ∧ (word.toNat % 4 = 2 → x.arr = .tile) ∧
        (word.toNat % 4 = 3 → x.arr = .acc)) ∧
      (word.getLsbD 4 = true → mget (gridOf t w.grid).grants index =
        (mget g.grants index).map (fun x => if x.block = h.block.getD 0 then { x with ending := true } else x)))) ∧
    (∀ scope set, h.eff = .relFence scope set → mget s.waves h.wave = some w → Made i s (fun t => left t ∧ BytesSame s t ∧
      RegsSame w (waveOf t h.wave) ∧ (waveOf t h.wave).relClock =
        clockJoin w.relClock (if set &&& 2 = 0 then w.clock else clockJoin w.clock w.wrote))) ∧
    (∀ p e, h.eff = .record p e → Made i s (fun t => left t ∧ BytesSame s t ∧ Records s t p e ∧ t.blocks = s.blocks)) ∧
    (∀ c, h.eff = .suspect c → Made i s (fun t => left t ∧ BytesSame s t ∧
      (coreOf t c).health = if (coreOf s c).health = .healthy then .suspect else (coreOf s c).health)) ∧
    (∀ grid p k e g, h.eff = .kills grid p k e → mget s.grids grid = some g → Made i s (fun t => left t ∧ BytesSame s t ∧
      (gridOf t grid).kills = g.kills + k ∧ (g.kills = 0 → Records s t p e))) ∧
    (∀ k p e b, h.eff = .stop (some k) p e → mget s.blocks k = some b → Made i s (fun t => left t ∧ BytesSame s t ∧
      (blockOf t k).fault = true ∧ (b.fault = false →
        ((∀ x ∈ (partOf s (gridOf s b.grid).part).saves, b.grid ∉ x.follow) → Records s t p e) ∧
        ∀ g, mget s.grids b.grid = some g → (gridOf t b.grid).error = true))) ∧
    (∀ p e, h.eff = .stop none p e → mget s.waves h.wave = some w → Made i s (fun t => BytesSame s t ∧
      ((∀ x ∈ (partOf s (gridOf s w.grid).part).saves, w.grid ∉ x.follow) → Records s t p e) ∧
      (waveOf t h.wave).state = .faulted ∧ ∀ g, mget s.grids w.grid = some g → (gridOf t w.grid).error = true)) ∧
    (∀ block cores ctx, h.eff = .stopSet block cores ctx → Made i s (fun t => left t ∧ BytesSame s t ∧
      ∀ u x, mget s.waves u = some x → x.ctx = ctx →
        (∀ k, block = some k → x.block = some k) → (block = none → x.core ∈ cores) →
        (x.state = .run → (waveOf t u).state = .debug) ∧ (x.state = .saving → (waveOf t u).state = .savingDebug)))

/-- R86, R89 to R96, R157, R77, R279, R337: membership and barriers. `grow` places its waves and writes their number, the
new waves with the registers and the address it gave; `attach` writes the first status that applies; a detached wave
leaves its block and its decks' items, an ended or dead one is gone; an arrival advances its wave and settles the
barriers; a shrink request is posted and cleared; a block with nothing outstanding retires; a parked split wakes past its
yield point or at its continuation.
Log entry 56 says what the model chose here. -/
def Obligations.MembershipMoves : Prop :=
  ∀ (s : State) (n : Nat) (h : Held) (w : Wave),
    (Due s n h → mget s.waves h.wave = some w →
      (∀ want loose pc dst ss as clock k b, h.eff = .grow want loose pc dst ss as clock → w.block = some k →
        mget s.blocks k = some b → h.wave < s.nextId →
        let room := waveRoom s w.core (gridOf s w.grid).launch.stack
        let g := if 0 < b.shrink ∨ b.preempt.isSome = true then 0 else if loose then Nat.min want room
          else Nat.min (Nat.min want (b.maxWaves - b.members.length)) room
        Made (.growPerform n) s (fun t => BytesSame s t ∧
          (∀ d, dst = some d → sReg (waveOf t h.wave) d = ⟨BitVec.ofNat 32 g, .clean⟩) ∧
          ∀ u, s.nextId ≤ u → u < s.nextId + g → ∃ x sp, mget t.waves u = some x ∧ x.s = ss ∧ x.a = as ∧ x.grid = w.grid ∧
            x.core = w.core ∧ x.block = (if loose then none else some k) ∧ x.splits = [sp] ∧ sp.pc = pc)) ∧
      (∀ index dst, h.eff = .attach index dst →
        let found := s.blocks.find? (fun b => decide (b.2.grid = w.grid ∧ b.2.index = index ∧ b.2.core = w.core))
        let answers (x : Word) (P : State → Prop) : Prop := Made (.attachPerform n) s (fun t => BytesSame s t ∧
          (∀ d, dst = some d → sReg (waveOf t h.wave) d = ⟨x, .clean⟩) ∧ P t)
        (found = none → answers 1 (fun t => (waveOf t h.wave).block = w.block)) ∧
        (∀ k b, found = some (k, b) →
          let late := 0 < b.shrink ∨ b.preempt.isSome = true ∨ b.retired = true ∨ b.fault = true
          (late → answers 3 (fun t => (waveOf t h.wave).block = w.block)) ∧
          (¬ late → b.maxWaves ≤ b.members.length → answers 2 (fun t => (waveOf t h.wave).block = w.block)) ∧
          (¬ late → b.members.length < b.maxWaves → answers 0 (fun t => (waveOf t h.wave).block = some k ∧
            (mget (blockOf t k).members h.wave).isSome = true)))) ∧
      (joinsWaiting (dropHeld s n) w.block = false →
        (h.eff = .detach true → ∀ k, w.block = some k → Made (.detachPerform n) s (fun t => BytesSame s t ∧
          (waveOf t h.wave).block = none ∧ (waveOf t h.wave).drawn = [] ∧ mget (blockOf t k).members h.wave = none)) ∧
        (h.eff = .detach false → Made (.detachPerform n) s (fun t => BytesSame s t ∧ mget t.waves h.wave = none)) ∧
        (h.eff = .finish → Made (.endPerform n) s (fun t => BytesSame s t ∧ mget t.waves h.wave = none)) ∧
        (h.eff = .dead → w.state ≠ .faulted ∨ waveIdle (dropHeld s n) h.wave = true →
          Made (.deadWaveLeave n) s (fun t => BytesSame s t ∧ mget t.waves h.wave = none))) ∧
      (∀ m dst k b, (h.eff = .arrive m ∨ h.eff = .arriveTo m dst) → m < 4 → w.block = some k → mget s.blocks k = some b →
        joinsFirst (dropHeld s n) k = false →
        let e := memE (mgetD b.members h.wave {}) m
        let x := barAt b m
        Made (.barrierArrive n) s (fun t => BytesSame s t ∧
          memE (mgetD (blockOf t k).members h.wave {}) m = e + 1 ∧
          barAt (blockOf t k) m = settleBar 8 (if e = x.g then { x with c := x.c + 1 } else { x with cn := x.cn + 1 }) ∧
          (∀ d, h.eff = .arriveTo m (some d) → sReg (waveOf t h.wave) d = ⟨e, .clean⟩))) ∧
      (∀ idx c p, h.eff = .cohort idx → mget s.parts w.part = some p → mget p.cohorts idx = some c →
        Made (.cohortArrivalPerform n) s (fun t => (s.ports = [] → BytesSame s t) ∧
          ∃ y, mget (partOf t w.part).cohorts idx = some y ∧
          mgetD y.arrivals h.core 0 = mgetD c.arrivals h.core 0 + 1 ∧ c.released ≤ y.released))) ∧
    (∀ k x b, mget s.blocks k = some b → 1 ≤ x → x ≤ 63 → x + 1 ≤ b.members.length → pressure s k = true →
      controlled s (gridOf s b.grid).part = true →
      Made (.shrinkRequestPost k x) s (fun t => BytesSame s t ∧ blockOf t k = { b with shrink := x })) ∧
    (∀ k b, mget s.blocks k = some b → 0 < b.shrink → pressure s k = false →
      Made (.shrinkRequestClear k) s (fun t => BytesSame s t ∧ blockOf t k = { b with shrink := 0 })) ∧
    (∀ k b, mget s.blocks k = some b → (∀ j ∈ withPartner s k, blockOver s j = true ∧ mapBusy s j = false) →
      Made (.blockRetire k) s (fun t => (∀ a, memGet t.mem a = memGet s.mem a) ∧
        (∀ j ∈ withPartner s k, mget t.blocks j = none) ∧
        ∀ u x, mget s.waves u = some x → (∃ j ∈ withPartner s k, x.block = some j) → mget t.waves u = none)) ∧
    (∀ u e p sp x, mget s.waves u = some x → splitOf x e = some sp → wakeable s x e = some p →
      Made (.parkedSplitWake u e) s (fun t => t.blocks = s.blocks ∧ splitOf (waveOf t u) e = some (wakeSplit sp p)))

/-- R95, R161, R172, R180, R208, R213, R247, R259, R260, R263, R276, R280, R283, R285, R348: held changes of matrix state, keys,
watchpoints, grants, launches, decks and engine requests take effect when their time has come: a histogram counts each bin
named, at most to 2^32 - 1, an accumulator takes its elements or a raw part of each; a reduction round forms
once each member core has a contribution that has left it.
Log entries 7, 53 and 55 say what the model chose here. -/
def Obligations.UnitMoves : Prop :=
  ∀ (s : State) (n : Nat) (h : Held),
    (Due s n h → ∀ k b x, h.block = some k → mget s.blocks k = some b → h.eff = .matrix x →
      let writes (P : Block → Prop) : Prop := Made (.matrixWritePerform n) s (fun t => BytesSame s t ∧ P (blockOf t k))
      (∀ j v, x = .tconf j v → writes (fun y => mget y.tconf j = some v ∧ mget y.twind j = none ∧ y.acc = b.acc ∧
        y.tile = b.tile ∧ ∀ m, m ≠ j → mget y.tconf m = mget b.tconf m ∧ mget y.twind m = mget b.twind m)) ∧
      (∀ j v, x = .twind j v → writes (fun y => mget y.twind j = some v ∧ y.tconf = b.tconf ∧ y.acc = b.acc ∧
        y.tile = b.tile ∧ ∀ m, m ≠ j → mget y.twind m = mget b.twind m)) ∧
      (∀ j, x = .accClear j → writes (fun y => y.tile = b.tile ∧
        ∀ m, mgetD y.acc m {} = if m / 8192 = j then {} else mgetD b.acc m {})) ∧
      (∀ bins tag, x = .histAdd bins tag → writes (fun y => y.acc = b.acc ∧ y.tile = b.tile ∧
        ((∀ m z, mget b.hist m = some z → z < 2 ^ 32) →
          ∀ m, mgetD y.hist m 0 = Nat.min (2 ^ 32 - 1) (mgetD b.hist m 0 + bins.count m)) ∧
        ∀ m, m ∉ bins → mgetD y.hist m 0 = mgetD b.hist m 0)) ∧
      (x = .histClear → writes (fun y => (∀ m, mgetD y.hist m 0 = 0) ∧ y.acc = b.acc ∧ y.tile = b.tile)) ∧
      (∀ bytes tags, x = .tile bytes tags → s.tags = [] → writes (fun y => y.acc = b.acc ∧
        ∀ a, memGet y.tile a = memGet (memWrite b.tile bytes) a)) ∧
      (∀ elems part, x = .acc elems part → s.tags = [] → writes (fun y => y.tile = b.tile ∧
        (∀ m, (∀ e ∈ elems, e.1 ≠ m) → mgetD y.acc m {} = mgetD b.acc m {}) ∧
        ((elems.map (·.1)).Nodup → ∀ e ∈ elems, let old := mgetD b.acc e.1 {}
          let new := mgetD y.acc e.1 {}
          (part = 0 → new.bits = e.2.bits ∧ new.lost = e.2.lost) ∧
          (1 ≤ part → part ≤ 3 → new.lost = old.lost ∧ ∀ j, j < 3 → new.bits.extractLsb' (32 * j) 32 =
            if j + 1 = part then e.2.bits.extractLsb' 0 32 else old.bits.extractLsb' (32 * j) 32) ∧
          (part = 4 → new.bits = old.bits ∧ new.lost = e.2.bits.getLsbD 0))))) ∧
    (Due s n h → ∀ x c, h.eff = .pkrContext x → mget s.ctxs (waveOf s h.wave).ctx = some c →
      Made (.pkrContextUpdate n) s (fun t => BytesSame s t ∧ mget t.ctxs (waveOf s h.wave).ctx = some { c with pkr := x } ∧
        (waveOf t h.wave).pkr = (waveOf s h.wave).pkr)) ∧
    (heldOf s n = some h → h.due ≤ s.now → ∀ set clear k b, h.eff = .watch set clear →
      (waveOf s h.wave).block = some k → mget s.blocks k = some b →
      Made (.watchpointUpdate n) s (fun t => BytesSame s t ∧ ∀ j, j < 4 → mget (blockOf t k).watch j =
        ((set.reverse.find? (fun x => decide (x.1 = j))).map (·.2)).or (if clear.getLsbD j then none else mget b.watch j))) ∧
    (∀ g x y r, mget s.grids g = some y → mget y.grants x = some r → r.ending = true →
      (∀ c ∈ s.cores, ∀ q ∈ c.2.queues, ∀ e ∈ q.entries, e.grid = g → x ∉ e.grants) →
      Made (.grantEnd g x) s (fun t => BytesSame s t ∧ mget (gridOf t g).grants x = none ∧
        ∀ j, j ≠ x → mget (gridOf t g).grants j = mget y.grants j)) ∧
    (Due s n h → ∀ x q d w, h.eff = .launch x q d → mget s.waves h.wave = some w →
      Made (.launchPerform n) s (fun t => BytesSame s t ∧ ∃ st hd,
        sReg (waveOf t h.wave) d = ⟨BitVec.ofNat 32 st, .clean⟩ ∧ sReg (waveOf t h.wave) (d + 1) = ⟨BitVec.ofNat 32 hd, .clean⟩ ∧
        (st = 0 → hd = (partOf s w.part).nextHandle ∧ ∃ k g, s.nextId ≤ k ∧ mget t.grids k = some g ∧ g.handle = hd ∧
          g.ctx = w.ctx ∧ g.part = w.part ∧ g.queue = q ∧ g.state = 0) ∧
        (st ≠ 0 → hd = 0 ∧ t.grids = s.grids))) ∧
    (∀ p k d die l x, groupAt s n = some (p, k, d, die, l) → mget s.parts p = some x → mget x.decks k = some d →
      deckRoom d l.length = true → oldestGroup d n die = true →
      Made (.deckAppend n) s (fun t => BytesSame s t ∧ mget (partOf t p).decks k = some { d with
        items := d.items ++ l, flying := d.flying.filter (fun g => !decide (g.1 = n)) })) ∧
    (Due s n h → groupAt s n = none → ∀ l x, h.eff = .deckPut l → mget s.parts (waveOf s h.wave).part = some x →
      Made (.deckAppend n) s (fun t => BytesSame s t ∧ ∀ k d, mget x.decks k = some d →
        ∃ y, mget (partOf t (waveOf s h.wave).part).decks k = some y ∧ y.heldItems = d.heldItems ∧
          y.items.length + (y.flying.map (fun g => g.2.2.length)).sum =
            d.items.length + (d.flying.map (fun g => g.2.2.length)).sum + (l.filter (fun z => decide (z.1 = k))).length)) ∧
    (Due s n h → ∀ l p x, h.eff = .deckRelease l → partOfDie s (dieOfCore h.core) = some p → mget s.parts p = some x →
      Made (.deckHoldRelease n) s (fun t => BytesSame s t ∧ ∀ k d, mget x.decks k = some d →
        ∃ y, mget (partOf t p).decks k = some y ∧ y.items = d.items ∧
          y.heldItems = d.heldItems - ((l.filter (fun z => decide (z.1 = k))).map (·.2)).sum)) ∧
    (∀ p set u w, mget s.waves u = some w → waitsFor s p set w = true →
      (∀ d, d < 64 → set.getLsbD d = true → deckQuiet s p d = true) →
      Made (.showdownQuiescence p set) s (fun t => BytesSame s t ∧ t.held = s.held ∧
        ∀ v x, mget s.waves v = some x → waveOf t v = if x.part = p then takeReport s set x else x)) ∧
    (Due s n h → ∀ q e, h.eff = .enter q e → let y := queueAt (coreOf s h.core) q
      Made (.engineRequestEnter n) s (fun t => BytesSame s t ∧ queueAt (coreOf t h.core) q = { y with
        entries := y.entries ++ [{ e with num := (y.next + 1).toNat, ready := s.now + Config.engineStart e.id
                                          clock := clockJoin e.clock (waveOf s h.wave).released }]
        issued := y.issued.filter (fun p => !decide (p.1 = e.id)), next := y.next + 1 })) ∧
    (Due s n h → ∀ set group, h.eff = .markers set group → Made (.engineRequestEnter n) s (fun t => BytesSame s t ∧
      ∀ q, q < 7 →
        (bitAt set.toNat q = true → ∃ e, e.work = .marker group ∧
          (queueAt (coreOf t h.core) q).entries = (queueAt (coreOf s h.core) q).entries ++ [e]) ∧
        (bitAt set.toNat q = false → queueAt (coreOf t h.core) q = queueAt (coreOf s h.core) q))) ∧
    (Due s n h → ∀ p idx m x c, h.eff = .contribute p idx m → mget s.parts p = some x → mget x.cohorts idx = some c →
      Made (.engineRequestEnter n) s (fun t => (s.ports = [] → BytesSame s t) ∧ mget (partOf t p).cohorts idx = some { c with
        pending := c.pending.map (fun y => if y.entry.id = m then { y with left := true, entry := { y.entry with
          clock := clockJoin y.entry.clock (waveOf s h.wave).released } } else y) })) ∧
    (Due s n h → ∀ q k b x, h.eff = .collective q x.id → h.block = some k → mget s.blocks k = some b →
      mget b.collectives q = some x →
      let whole := x.count ≤ x.slices.length + x.empties.length ∧ ∀ y ∈ s.held, y.id ≠ n → y.eff ≠ .collective q x.id
      (¬ whole → Made (.collectiveEnter n) s (fun t => BytesSame s t ∧
        ∃ l, mget (blockOf t k).collectives q = some { x with clock := l })) ∧
      (whole → Made (.collectiveEnter n) s (fun t => BytesSame s t ∧ mget (blockOf t k).collectives q = none ∧
        ∃ e l, (queueAt (coreOf t h.core) q).entries = (queueAt (coreOf s h.core) q).entries ++ [e] ∧ e.id = x.id ∧
          e.work = .copy x.out l ∧ ∀ y, y ∈ l ↔ ∃ z ∈ x.slices, z.1 < 64 ∧ y = (z.2.1, z.2.2.2)))) ∧
    (∀ x, formedAt s n = some x → placesTaken s x.2.core 5 < Config.queueDepth →
      Made (.roundForm n) s (fun t => BytesSame s t ∧ ∃ e, e.id = x.2.entry.id ∧
        (queueAt (coreOf t x.2.core) 5).entries = (queueAt (coreOf s x.2.core) 5).entries ++ [e])) ∧
    (∀ p idx c drain items x, formedAt s n = none → pendingAt s n = some (p, idx, c, drain) → mget s.parts p = some x →
      mget x.cohorts idx = some c → firstItems c drain = some items → (∃ y ∈ items, y.entry.id = n) →
      peersCount x c (if drain then 1 else 2) (if drain then c.formedDrain else c.formedRed) = false →
      Made (.roundForm n) s (fun t => BytesSame s t ∧ ∃ y, mget (partOf t p).cohorts idx = some y ∧
        (∀ z ∈ y.pending, ∀ w ∈ items, z.entry.id ≠ w.entry.id) ∧
        y.formedDrain = (if drain then c.formedDrain + 1 else c.formedDrain) ∧
        y.formedRed = (if drain then c.formedRed else c.formedRed + 1)))

/-- R38, R146, R185, R194 to R199, R219, R225, R227, R232: the moves of memory. A long operation completes with its results
written and its flag counted down; a flight is applied at its home with the other half of its line, then in each view; an
atomic, `ldlk` or `stul` is performed at its bank, a waiting lock is granted and a lock lapses; the scrub reads a row and
changes no byte of one without errors.
Log entries 7, 40, 42 and 49 say what the model chose here. -/
def Obligations.MemoryMoves : Prop :=
  ∀ (s : State) (n : Nat) (h : Held),
    let answered (t : State) (m : Nat) (P : List LaneVal → Prop) : Prop :=
      ∀ o ∈ (waveOf t h.wave).ops, o.id = m → ∃ vals f hs, o.kind = .answered (some vals) f hs ∧ P vals
    (∀ u w o r, ownerOf s n = some (u, w, o) →
      let take (t : State) : LongOp := takeLanes t u (waveOf t u) o (fun l => !olderLoad w.ops o l.addr)
      let read := noteTaken (decoded (fun t => modWave t u (fun w => { w with
        ops := w.ops.map (fun x => if x.id = n then take t else x) })) (servedLoad s w o))
      outcome w.live (take read) = some r → o.due ≤ s.now → seatStalled s w.core w.seat = false →
      Made (.longOpComplete n) s (fun t => t.held = s.held ∧
        (∀ x ∈ (waveOf t u).ops, x.id ≠ n) ∧ (waveOf t u).flags = flagSub w.flags o.flag ∧ (NoErrors s →
          t.blocks = s.blocks ∧ RegsSame (r.1.foldl (fun w x => writeDone w o.dst o.wide x) w) (waveOf t u) ∧
          (o.acquire = none → t.mem = s.mem ∧ (waveOf t u).wstat = (waveOf read u).wstat ||| r.2.1)))) ∧
    (∀ f, mget s.flights n = some f → f.id = n → f.pos = none →
      let may (g : Flight) : Prop := g.homeAt ≤ s.now ∧ mayHome s g = true ∧ homeMay s g = true
      let twin := f.twin.bind (mget s.flights)
      may f → (∀ g, twin = some g → g.pos ≠ none ∨ may g) →
      Made (.writeApplyHome n) s (fun t => t.blocks = s.blocks ∧ t.waves = s.waves ∧
        (s.ports = [] → OneGranule f.bytes →
          ((∀ g, twin = some g → g.pos ≠ none) → ∀ a, memGet t.mem a = memGet (memWrite s.mem f.bytes) a) ∧
          (∀ g, twin = some g → g.pos = none → OneGranule g.bytes →
            ∀ a, memGet t.mem a = memGet (memWrite (memWrite s.mem f.bytes) g.bytes) a)))) ∧
    (∀ f d, mget s.flights n = some f → f.id = n → f.pos ≠ none → d ∈ f.todo → mgetD f.viewAt d 0 ≤ s.now →
      precededAt s f d = true →
      Made (.writeApplyRemote n d) s (fun t => t.blocks = s.blocks ∧ t.waves = s.waves ∧ (s.ports = [] → t.mem = s.mem) ∧
        ∀ g, mget t.flights n = some g → d ∉ g.todo)) ∧
    (Due s n h → ∀ width op ls rel acq miss clock, h.eff = .gatomic width op ls rel acq miss clock →
      let area := ls.flatMap (fun l => addrBytes l.addr (toBytes width 0))
      let see := seeTag s.tags (waveOf s h.wave).part
      globalMay s area (fun g => mergeTags
        ((ls.filter (fun l => decide (l.addr / 32 = g))).flatMap (fun l => [see l.b.tag, see l.c.tag]))) = true →
      LoadsLeave (dropHeld s n) h area →
      Made (.atomicPerform n) s (fun t => (NoErrors s → t.blocks = s.blocks) ∧
        (∀ m, h.op = some m → answered t m (fun vals => vals.map (·.lane) = ls.map (·.lane))) ∧
        (NoErrors s → s.flights = [] → s.ports = [] →
          (∀ a, (∀ l ∈ ls, ¬ (l.addr ≤ a ∧ a < l.addr + width)) → memGet t.mem a = memGet s.mem a) ∧
          ∀ l, ls = [l] → l.addr % 32 + width ≤ 32 → let old := ofBytes (memRead s.mem l.addr width)
            (∀ a, memGet t.mem a = memGet (memWrite s.mem
              (addrBytes l.addr (toBytes width (atomApply width op old l.b.val.toNat l.c.val.toNat).1))) a) ∧
            ∀ m, h.op = some m → answered t m (fun vals => vals.map (·.val) = [BitVec.ofNat 64 old])))) ∧
    (Due s n h → ∀ width op ls rel acq miss k b, h.eff = .satomic width op ls rel acq miss → h.block = some k →
      mget s.blocks k = some b →
      (∀ l ∈ ls, spadMay s k (addrBytes l.addr (toBytes width 0))
        (fun _ => mergeTags ([l.b.tag] ++ if op = .cas then [l.c.tag] else [])) = true) →
      bankFree s h = true →
      Made (.spadAtomicPerform n) s (fun t =>
        (NoErrors s → ∀ j, j ≠ k → ∀ a, memGet (blockOf t j).spad a = memGet (blockOf s j).spad a) ∧
        (∀ m, h.op = some m → answered t m (fun vals => vals.map (·.lane) = ls.map (·.lane))) ∧
        (NoErrors s → ∀ l, ls = [l] → let old := ofBytes (memRead b.spad l.addr width)
          (∀ a, memGet (blockOf t k).spad a = memGet (memWrite b.spad
            (addrBytes l.addr (toBytes width (atomApply width op old l.b.val.toNat l.c.val.toNat).1))) a) ∧
          ∀ m, h.op = some m → answered t m (fun vals => vals.map (·.val) = [BitVec.ofNat 64 old])))) ∧
    (Due s n h → ∀ width ls m, h.eff = .ldlk width ls → h.op = some m → bankFree s h = true →
      Made (.ldlkPerform n) s (fun t => (NoErrors s → BytesSame s t) ∧
        t.held = s.held.filter (fun x => !decide (x.id = n)))) ∧
    (∀ c bit x u m lane rest, mget (coreOf s c).locks bit = some x → x.owner = none → x.waiting = (u, m, lane) :: rest →
      Made (.lockWaitGrant c bit) s (fun t => (NoErrors s → BytesSame s t) ∧ (lockTodo (waveOf s u) m ≠ [] →
        inMask (waveOf s u).live lane = true → (mgetD (coreOf t c).locks bit {}).owner = some (u, lane)))) ∧
    (Due s n h → ∀ width ls k b, h.eff = .stul width ls → h.block = some k → mget s.blocks k = some b →
      spadMay s k (laneBytes width ls) (laneTags (seeTag s.tags (partOfBlock s k)) ls) = true → bankFree s h = true →
      Made (.stulPerform n) s (fun t => (∀ a, memGet t.mem a = memGet s.mem a) ∧
        (∀ m, h.op = some m → answered t m (fun vals => vals.map (·.lane) = ls.map (·.lane))) ∧
        (NoErrors s → ∀ l, ls = [l] → let lock (t : State) := (mgetD (coreOf t b.core).locks (lockBit b l.addr width) {}).owner
          (lock s = some (h.wave, l.lane) → lock t = none ∧ (∀ a, memGet (blockOf t k).spad a =
              memGet (memWrite b.spad (addrBytes l.addr (toBytes width l.val.toNat))) a) ∧
            ∀ m, h.op = some m → answered t m (fun vals => vals.map (·.val) = [1])) ∧
          (lock s ≠ some (h.wave, l.lane) → lock t = lock s ∧ BytesSame s t ∧
            ∀ m, h.op = some m → answered t m (fun vals => vals.map (·.val) = [0]))))) ∧
    (∀ c bit x, mget (coreOf s c).locks bit = some x → x.owner ≠ none → x.at_ + Config.lockLapse ≤ s.now →
      Made (.lockExpiry c bit) s (fun t => BytesSame s t ∧ (mgetD (coreOf t c).locks bit {}).owner = none)) ∧
    (∀ c r, Made (.spadScrub c r) s (fun t => t.waves = s.waves ∧
      ((∀ k, rowOwner s c r = some k → rowErrors (coreOf s (blockOf s k).core) r = []) → t = s)))

/-- R161, R163, R166 to R168, R171, R173, R178, R180, R251, R253, R256, R257, R264, R280, R284: the moves of the engines and the
arrays. The entry at the head of a queue does its work, its writes held: a copy the bytes of each element from its place to
the other side or the fill of one out of bounds, a gather its lanes' elements, the root of a drain round the converted
elements row by row; a product adds row by row of A and of B to the accumulator's elements. Each write is released; the
entry completes with its operations; the markers of a `qfence` complete together; an array is granted to a partner and finishes with its
accumulator writes held.
Log entries 7, 33, 50, 51, 53 and 91 say what the model chose here. -/
def Obligations.EngineMoves : Prop :=
  ∀ (s : State) (c q : Nat),
    let entries (t : State) : List Entry := (queueAt (coreOf t c) q).entries
    (∀ e rest, entries s = e :: rest → e.stage = .waiting → e.ready ≤ s.now → coreStalled s c = false →
      let performs (P : State → Prop) : Prop := Made (.engineEntryPerform c q) s (fun t => P t ∧
        (NoErrors s → ∀ k a, memGet (blockOf t k).spad a = memGet (blockOf s k).spad a) ∧
        ∀ z ∈ entries t, z.id = e.id → z.stage = .releasing)
      let holding (P : List Held → Prop) (t : State) : Prop :=
        ∃ hs, t.held = s.held ++ hs ∧ (∀ h ∈ hs, ∃ x, h.eff = .engine e.id q x) ∧ P hs
      let s0 := syncTo s (dieOfCore c) (clockJoin e.clock (queueAt (coreOf s c) q).clock)
      let k := e.block.getD 0
      ((∃ out l, e.work = .copy out l) ∨ (∃ m f l, e.work = .gather m f l) → performs (holding (fun _ => True))) ∧
      (∀ out u r pa d, NoErrors s → e.work = .copy out [(u, r)] →
        let g := entryAgent s0 c e r.pkr
        let size := layEsize (reqLayout r)
        let ext := extents d r.halo
        let idx (m : Nat) := boxIndex ext m
        let off (m : Nat) := boxOffset (reqLayout r) d ext (idx m)
        let inside (m : Nat) : Prop := ∀ j, j < d.dims →
          0 ≤ boxPos d r (idx m) j ∧ boxPos d r (idx m) j < ((nth d.size j 1 : Nat) : Int)
        let at_ (m : Nat) (x : EngineDest × Nat) : Prop := ∃ a word,
          elementAddr s0 g u d (fun j => (boxPos d r (idx m) j).toNat) = .ok (a, word) ∧ outsideCheck s0 g d a out = .ok x
        let n := r.length / size
        0 < n → engineCheck s0 g .load r.desc 64 = .ok pa → descOf ((entryBytes s0 c u g.part pa 64).map (·.1)) size = some d →
        n ≤ ext.foldl (· * ·) 1 →
        (∀ m, m < n → off m + size ≤ (blockOf s k).spadLen ∧ (inside m → ∃ x, at_ m x)) →
        performs (holding (fun hs => ∀ dest a b, HoldsByte hs e.id q dest a b ↔ ∃ m j, m < n ∧ j < size ∧
          ((inside m ∧ ∃ x, at_ m x ∧
              if out then dest = x.1 ∧ a = x.2 + j ∧ b = (nth (placeBytes s0 c u g.part (.spad k, off m) size) j (0, .clean)).1
              else dest = .spad k ∧ a = off m + j ∧ b = (nth (placeBytes s0 c u g.part x size) j (0, .clean)).1) ∨
            (¬ inside m ∧ out = false ∧ dest = .spad k ∧ a = off m + j ∧ b = nth (fillBytes d) j 0))))) ∧
      (∀ size start ls, NoErrors s → e.work = .gather size start ls →
        let g := entryAgent s0 c e e.pkr
        (∀ l ∈ ls, ∃ pa, engineCheck s0 g .load l.2 size = .ok pa) →
        performs (holding (fun hs => ∀ dest a b, HoldsByte hs e.id q dest a b ↔ ∃ l ∈ ls, ∃ pa j,
          engineCheck s0 g .load l.2 size = .ok pa ∧ j < size ∧ dest = .spad k ∧ a = start + l.1 * size + j ∧
          b = (nth (entryBytes s0 c e.wave g.part pa size) j (0, .clean)).1))) ∧
      (∀ p n r, e.work = .drain p n → roundOf s p n = some r →
        (r.mismatch = true ∨ r.due ≤ s.now ∧ ∃ y ∈ r.items, y.entry.id = e.id) → q = 5 → performs (holding (fun hs =>
          (r.mismatch = true ∨ r.drain = false ∨ (∀ root, r.items.head? = some root → root.entry.id ≠ e.id) → hs = []) ∧
          ∀ root l, let r' := seenRound (seeTag s0.tags p) r
            r'.items = root :: l → root.entry.id = e.id → r.mismatch = false → r.drain = true →
            (∀ x ∈ drainPieces r' root, ∃ pa, engineCheck s0 (entryAgent s0 c e e.pkr) .store x.1 x.2.1.length = .ok pa) →
            let y := drainCtl root.ctl.toNat
            let w := outWidth y.fmt
            let put (va : Nat) (bytes : List Byte) : Prop := ∃ pa,
              engineCheck s0 (entryAgent s0 c e e.pkr) .store va bytes.length = .ok pa ∧
              ∀ j, j < bytes.length → HoldsByte hs e.id q .memory (pa + j) (nth bytes j 0)
            let value (col row j : Nat) : Nat := (drainElem r' root col (128 * row + j)).x.1
            (∀ row col, row < y.rows → col < 16 → (∃ z ∈ roundWords r'.items r'.peers, (drainCtl z.2.toNat).col = col) →
              let base := root.dest + 64 * root.pitch * row + 128 * col * w / 8
              (w ≠ 4 → ∀ j, j < 128 → put (base + j * (w / 8)) (toBytes (w / 8) (value col row j))) ∧
              (w = 4 → ∀ j, j < 64 → put (base + j)
                [BitVec.ofNat 8 (value col row (2 * j) % 16 + 16 * (value col row (2 * j + 1) % 16))])) ∧
            ∀ dest a b, HoldsByte hs e.id q dest a b → dest = .memory ∧ ∃ x ∈ drainPieces r' root, ∃ pa,
              engineCheck s0 (entryAgent s0 c e e.pkr) .store x.1 x.2.1.length = .ok pa ∧ pa ≤ a ∧ a < pa + x.2.1.length))) ∧
      (∀ k p v lanes, e.work = .take k p v lanes → performs (fun t => t.held = s.held ∧
        (mgetD (partOf t (ctxOf s e.ctx).part).decks k {}).items =
          (mgetD (partOf s (ctxOf s e.ctx).part).decks k {}).items.drop lanes.length)) ∧
      (∀ win slot x y z ca cb wa, e.work = .mma win slot x y z ca cb wa → mmaMay s c e = true →
        Made (.engineEntryPerform c q) s (fun t => t.held = s.held ∧ (NoErrors s → t.blocks = s.blocks) ∧
          ((productShape slot.toNat ca.toNat wa.toNat win).isSome = true → partnerOf s k = none →
            (coreOf t c).array.busy = some e.id) ∧
          ∀ m kk rows, NoErrors s → q = 4 → productShape slot.toNat ca.toNat wa.toNat win = some (m, kk, rows) →
            ∃ e' rest', entries t = e' :: rest' ∧ e'.id = e.id ∧
              (partnerOf s k = none → ∃ l, e'.product = [(k, l)] ∧
                Product (blockOf s k) (blockOf s k) slot.toNat ca.toNat cb.toNat x m rows l) ∧
              (∀ k2, partnerOf s k = some k2 → let cb2 := (mgetD (blockOf s k2).tconf z 0).toNat
                (tcElem cb2 ≠ fsB slot.toNat ∨ tcRows cb2 = 0 ∨ tileK cb2 (fsB slot.toNat) (fsScale slot.toNat) ≠ kk →
                  e'.fail = some (.tileShape, 0) ∧ e'.product = e.product) ∧
                (tcElem cb2 = fsB slot.toNat → tcRows cb2 ≠ 0 → tileK cb2 (fsB slot.toNat) (fsScale slot.toNat) = kk →
                  ∃ l l2, e'.product = [(k, l), (k2, l2)] ∧
                    Product (blockOf s k) (blockOf s k) slot.toNat ca.toNat cb.toNat x m rows l ∧
                    Product (blockOf s k) (blockOf s k2) slot.toNat ca.toNat cb2 x m rows l2))))) ∧
    (∀ n h m xs, heldOf s n = some h → h.eff = .engine m q xs → h.due ≤ s.now → coreStalled s h.core = false →
      matched s h = true →
      (∀ x ∈ xs, engineMay s x (seeTag s.tags ((partOfDie s (dieOfCore h.core)).getD 0) x.tag) = true) →
      let released (P : State → Prop) : Prop := Made (.engineWriteRelease n) s (fun t => heldOf t n = none ∧ P t)
      released (fun _ => True) ∧ ∀ x, xs = [x] →
        (∀ k b, x.dest = .spad k → mget s.blocks k = some b → released (fun t =>
          (∀ a, memGet t.mem a = memGet s.mem a) ∧
          (NoErrors s → ∀ a, memGet (blockOf t k).spad a = memGet (memWrite b.spad x.cells) a))) ∧
        (∀ k b, x.dest = .tile k → mget s.blocks k = some b → released (fun t =>
          BytesSame s t ∧ ∀ a, memGet (blockOf t k).tile a = memGet (memWrite b.tile x.cells) a)) ∧
        (∀ k, x.dest = .acc k → released (fun t => BytesSame s t)) ∧
        (∀ v k, x.dest = .window v k → released (fun t => BytesSame s t)) ∧
        (x.dest = .memory → released (fun t =>
          (∀ k a, memGet (blockOf t k).spad a = memGet (blockOf s k).spad a) ∧ (s.ports = [] →
            (∀ y ∈ x.cells, regionOf y.1 = 0) → ∀ a, (∀ y ∈ x.cells, y.1 ≠ a) → memGet t.mem a = memGet s.mem a)))) ∧
    (∀ e rest, entries s = e :: rest → e.stage = .releasing → e.ready ≤ s.now → entryDone s e = true →
      coreStalled s c = false → (∀ x ∈ e.ops, seatStalled s c (waveOf s x.1).seat = false) →
      Made (.engineEntryComplete c q) s (fun t => entries t = rest ∧
        (queueAt (coreOf t c) q).completed = BitVec.ofNat 64 e.num ∧
        ∀ x ∈ e.ops, ∀ o ∈ (waveOf t x.1).ops, o.id ≠ x.2)) ∧
    (∀ n k x, s.cores.find? (fun x => !(markedQueues x.2 n).isEmpty) = some (k, x) → mget s.cores k = some x →
      (∀ j ∈ markedQueues x n, ((queueAt x j).entries.head?).map (fun e => e.work) = some (.marker n)) →
      coreStalled s k = false →
      Made (.qfenceComplete n) s (fun t => BytesSame s t ∧ t.held = s.held ∧
        ∀ j, (queueAt (coreOf t k) j).entries =
          if j ∈ markedQueues x n then (queueAt x j).entries.tail else (queueAt x j).entries)) ∧
    (∀ e, c % 2 = 1 → qmHead s (c - 1) = some e → mmaReady s e = true → (coreOf s (c - 1)).array.busy = none →
      (∃ k, partnerOf s (e.block.getD 0) = some k ∧ (blockOf s k).core = c) → (coreOf s c).array.busy = none →
      (coreOf s c).array.slaved = false → ((coreOf s c).array.turn = false ∨ (qmHead s c).any (fun x => mmaReady s x) = false) →
      Made (.arrayGrant c) s (fun t => BytesSame s t ∧ (coreOf t c).array.slaved = true ∧
        (coreOf t c).array.asked = some e.id)) ∧
    (∀ e, (coreOf s c).array.busy = some e.id → qmHead s c = some e → (coreOf s c).array.until_ ≤ s.now →
      Made (.arrayOpFinish c) s (fun t => BytesSame s t ∧ (coreOf t c).array.busy = none ∧
        ∃ hs, t.held = s.held ++ hs ∧ hs.map (·.eff) = e.product.map (fun p => .matrix (.acc p.2 0)) ∧
          ∀ h ∈ hs, h.due = s.now + Config.holdback ∧ h.wave = e.wave))

/-- R36, R42, R79, R143, R144, R209, R252, R272, R273, R275, R341 to R346, R371: fetching and placement. A split that must
fetch gets its clause, traps or suspends its wave; a page that came back lets the wave fetch again; the watchdog traps; the
Draw places a block and steps its generator; a pre-empted block drains, is written, is saved and returns.
Log entries 11, 64, 74, 75, 76, 77, 79 and 104 say what the model chose here. -/
def Obligations.PlacementMoves : Prop :=
  ∀ (s : State),
    (∀ u e w sp, mget s.waves u = some w → splitOf w e = some sp → mustFetch s w sp = true →
      let a := sp.resume.getD sp.pc
      Made (.clauseFetch u e) s (fun t => BytesSame s t ∧ RegsSame w (waveOf t u) ∧
        (∀ va m, fetchClause s w a = .missing va m → ∃ f, (waveOf t u).fetch = some f ∧ f.page = va / 0x10000) ∧
        (∀ va, fetchClause s w a = .noPerm va → (waveOf t u).trapc = BitVec.ofNat 17 (Cause.fetchPerm.code + 0x10000) ∧
          (waveOf t u).trappc = va ∧ (waveOf t u).trapval = BitVec.ofNat 32 va) ∧
        (∀ c l, fetchClause s w a = .clause c l → isHeader (c.words.headD 0) = true → sp.resume = none →
          (headerFault c = none → ∃ x ∈ (waveOf t u).splits, x.clause = some c ∧ x.pc = sp.pc) ∧
          (∀ v, headerFault c = some v → (waveOf t u).trappc = a ∧ (waveOf t u).trapval = v ∧
            (waveOf t u).trapc = BitVec.ofNat 17 (Cause.illegalClause.code + 0x10000))))) ∧
    (∀ u w, mget s.waves u = some w → pageBack s w = true →
      Made (.waveResumeFetch u) s (fun t => BytesSame s t ∧ RegsSame w (waveOf t u) ∧ (waveOf t u).fetch = none)) ∧
    (∀ u w sp i, mget s.waves u = some w → pickSplit s w = some sp → nextInstr sp = .ok i → watchdogDue s u w sp i = true →
      Made (.watchdogExpiry u) s (fun t => t.blocks = s.blocks ∧ RegsSame w (waveOf t u) ∧
        (waveOf t u).trapval = BitVec.ofNat 32 (gridOf s w.grid).launch.watchdog ∧ (waveOf t u).wdog = 0)) ∧
    (∀ p x y, mget s.parts p = some x →
      let qs := lowestQueues s (readyQueues s p)
      let tickets (y : Nat × Nat × List Nat) : Nat := (gridOf s y.2.1).launch.tickets
      x.lastPlace ≤ s.now →
      (∀ r ∈ returning s p, (qs.map (fun x => (gridOf s x.2.1).launch.level)).headD 64 < r.1) →
      drawFirst tickets ((xorshift x.draw).toNat % qs.foldl (fun n y => n + tickets y) 0) qs = some y → controlled s p = true →
      Made (.placementEvent p) s (fun t => (partOf t p).draw = xorshift x.draw ∧ (partOf t p).lastPlace = s.now + 1 ∧
        (∀ g, mget s.grids y.2.1 = some g → (gridOf t y.2.1).state = 1 ∧ (gridOf t y.2.1).position = (dealNext s (gridOf s y.2.1)).1 + 1 ∧
          (gridOf t y.2.1).nextBlock = g.nextBlock + y.2.2.length) ∧
        ∀ c, y.2.2 = [c] → ∃ b, mget t.blocks s.nextId = some b ∧ b.grid = y.2.1 ∧ b.core = c ∧
          b.index = (gridOf s y.2.1).nextBlock)) ∧
    (∀ g x missing, mget s.grids g = some x → (∃ q ∈ (partOf s x.part).queues, q.2.head? = some g) → x.eligible = false →
      missing = (leasedPages x).find? (fun va => !pageValid s x.ctx va) → controlled s x.part = true →
      Made (.gridEligible g missing) s (fun t => BytesSame s t ∧
        (missing = none → mget t.grids g = some { x with eligible := true }) ∧
        ∀ va, missing = some va → (mget t.grids g = none ∨ (gridOf t g).error = true) ∧
          ∀ y, mget s.parts x.part = some y → y.pending.length < 256 → y.saves = [] →
            ∃ e ∈ (partOf t x.part).pending, e.cause = .leaseUnmapped ∧ e.addr = va ∧ e.grid = x.handle)) ∧
    (∀ r pte, (s.waves.map (·.2) ++ s.images.flatMap (fun x => x.2.waves.map (·.2))).find? (fun w => waitsText w r) = none →
      Made (.textPageInstall r pte) s (fun t => t = s)) ∧
    (∀ r w, (s.waves.map (·.2) ++ s.images.flatMap (fun x => x.2.waves.map (·.2))).find? (fun w => waitsText w r) = some w →
      controlled s w.part = true → let va := (w.fetch.elim 0 (fun f => f.page)) * 0x10000
      Made (.textPageInstall r none) s (fun t => BytesSame s t ∧
        ∀ k b, mget s.blocks k = some b → b.grid = w.grid → (blockOf t k).fault = true) ∧
      (∀ x pte level, walkFrom ((stopEntry s va 3 (ctxOf s w.ctx).root).elim s
            (fun a => outsideWrite s w.part .clean (some (hostHead w.part)) (addrBytes a (toBytes 8 x.toNat)))) va 3
            (ctxOf s w.ctx).root = .leaf pte level →
        Made (.textPageInstall r (some x)) s (fun t => t.blocks = s.blocks ∧
          ∀ u y, mget s.waves u = some y → waitsText y r = true → ∃ f, (waveOf t u).fetch = some f ∧ f.filed = true))) ∧
    (let stopping (k reason : Nat) (t : State) : Prop :=
       (blockOf t k).preempt = some { drain := .stopping, reason := reason, cmds := [] } ∧ BytesSame s t ∧
       ∀ u x, mget s.waves u = some x → x.block = some k → x.state = .run → (waveOf t u).state = .saving
     ∀ k, controlled s (gridOf s (blockOf s k).grid).part = true →
      (saveOutChoice s (gridOf s (blockOf s k).grid).part = some k → Made (.saveOut k) s (stopping k 0)) ∧
      (∀ r, (r = 1 ∨ r = 2) → preemptable s k = true → Made (.preemptRequest k r) s (stopping k r))) ∧
    (∀ k b r, mget s.blocks k = some b → b.preempt = some r →
      (r.drain = .stopping → (∀ x ∈ s.waves, x.2.block = some k → ∀ y ∈ x.2.splits, y.trump = none) →
        Made (.preemptDraining k) s (fun t => BytesSame s t ∧ (blockOf t k).preempt = some { r with drain := .draining })) ∧
      (r.drain = .draining → unitOver s k = false →
        let n := s.nextId
        let g := gridOf s b.grid
        (holdsUnformed s k = true → Made (.preemptWriting k) s (fun t => BytesSame s t ∧ (blockOf t k).preempt = none)) ∧
        (holdsUnformed s k = false → blockIdle s k = true → mapBusy s k = false →
          (g.launch.idempotent = true →
            (∀ j ∈ withPartner s k, drains s j .draining = true ∧ blockIdle s j = true ∧ mapBusy s j = false) →
            Made (.preemptWriting k) s (fun t => ∀ j ∈ withPartner s k, mget t.blocks j = none)) ∧
          (g.launch.idempotent = false → saveRoom s g.ctx (bodyBytes n) = none →
            Made (.preemptWriting k) s (fun t => BytesSame s t ∧ (blockOf t k).preempt = none ∧
              (blockOf t k).saveAgain = s.now + 1)) ∧
          (∀ o, g.launch.idempotent = false → saveRoom s g.ctx (bodyBytes n) = some o →
            Made (.preemptWriting k) s (fun t => BytesSame s t ∧ (blockOf t k).preempt =
              some { r with drain := .writing, image := some (n, (ctxOf s g.ctx).saveBase + o, bodyBytes n) }))))) ∧
    (∀ k b, mget s.blocks k = some b → (∀ j ∈ withPartner s k, bodyWritten s j = true ∧ mapBusy s j = false) →
      Made (.preemptSaved k) s (fun t => (∀ j ∈ withPartner s k, mget t.blocks j = none) ∧
        ∀ r n va m, b.partner = none → b.preempt = some r → r.image = some (n, va, m) → ∃ x, mget t.images n = some x ∧
          x.body = va ∧ x.bytes = m ∧ x.record = va + m ∧ x.block.grid = b.grid ∧ x.block.index = b.index)) ∧
    (∀ p lvl image n, (returning s p).find? (fun x => decide (x.1 = lvl)) = some (lvl, image, n) →
      least ((returning s p).map (·.1)) = some lvl → (partOf s p).lastPlace ≤ s.now →
      (∀ y ∈ readyQueues s p, lvl ≤ (gridOf s y.2.1).launch.level) → controlled s p = true →
      (∀ x c l pos, image = true → mget s.images n = some x → imageUnit s n = [n] →
        returnPlace s (imageUnit s n) = some (c :: l, pos) →
        Made (.restorePlacement p) s (fun t => mget t.images n = none ∧ ∃ b, mget t.blocks x.bid = some b ∧ b.core = c ∧
          b.grid = x.block.grid ∧ b.index = x.block.index)) ∧
      (∀ x c i l pos, image = false → mget s.grids n = some x → x.again = i :: l → againPlace s x = some ([c], pos) →
        Made (.restorePlacement p) s (fun t => (gridOf t n).again = l ∧ ∃ b, mget t.blocks s.nextId = some b ∧ b.core = c ∧
          b.grid = n ∧ b.index = i)))

/-- R289 to R306, R312 to R315, R327, R331, R332, R340, R350: strikes, margins, the certification of candidates and the
debugger. A report rolls its region back, stalls it and counts; a candidate is installed, tried, audited, settled or
condemned; a debugger reads and writes a stopped wave, steps it and lets it run.
Log entries 10, 46, 47, 48, 59, 60 and 61 say what the model chose here. -/
def Obligations.DeviceMoves : Prop :=
  ∀ (s : State),
    let saved (u : Nat) : Bool := (waveOf s u).block.any (fun k => (blockOf s k).preempt.isSome)
    (∀ c seat, realCore c = true → (∀ n, seat = some n → n < 8) →
      let from_ := match (stallOf s c seat).1 with
        | some n => if s.now < n then (stallOf s c seat).2 else s.now - 23
        | none => s.now - 23
      Made (.strikeReport c seat) s (fun t =>
        (∀ a, memGet t.mem a = memGet s.mem a) ∧ (stallOf t c seat).1 = some (s.now + Config.rollbackStall) ∧
        (coreOf t c).rbk = (if (coreOf s c).rbk = BitVec.allOnes 32 then (coreOf s c).rbk else (coreOf s c).rbk + 1) ∧
        (∀ u w, mget s.waves u = some w → inRegion s c seat w = true →
          (stateAt s u from_ = none → mget t.waves u = some w) ∧
          ∀ old, stateAt s u from_ = some old → (∀ x ∈ s.arrivals, x.wave = u → x.at_ < from_) →
            RegsSame old (waveOf t u) ∧ (waveOf t u).wbase = old.wbase ∧ (waveOf t u).splits = old.splits ∧
            (waveOf t u).deferred = old.deferred ∧ (waveOf t u).flags = old.flags ∧ (waveOf t u).wstat = old.wstat ∧
            (waveOf t u).sig = old.sig ∧ (waveOf t u).wdog = old.wdog ∧ (waveOf t u).batchNo = old.batchNo ∧
            (waveOf t u).killTags = old.killTags ∧ (waveOf t u).pkr = old.pkr ∧ (waveOf t u).trapc = old.trapc ∧
            (waveOf t u).trappc = old.trappc ∧ (waveOf t u).trapval = old.trapval ∧ (waveOf t u).frame = old.frame) ∧
        ∀ h ∈ t.held, h.seat.isSome → ∀ w, mget s.waves h.wave = some w → inRegion s c seat w = true → h.issued < from_)) ∧
    (∀ c seat n, (stallOf s c seat).1 = some n → n ≤ s.now → Made (.rollbackResume c seat) s (fun t => BytesSame s t ∧
      (stallOf t c seat).1 = none ∧ t.waves = s.waves)) ∧
    (∀ c, (coreOf s c).health = .suspect → 2 ^ 24 ≤ (coreOf s c).healthAt → Made (.healthRecover c) s (fun t =>
      BytesSame s t ∧ (coreOf t c).health = .healthy ∧ ∀ d, d ≠ c → coreOf t d = coreOf s d)) ∧
    (∀ l, Made (.marginPlan l) s (fun t => BytesSame s t ∧ t.mplan = s.mplan + 1 ∧
      (∀ c x, mget s.cores c = some x → x.health = .quarantined → (coreOf t c).health = .suspect) ∧
      ∀ c ∈ l, realCore c = true → (coreOf t c).health ≠ .healthy)) ∧
    (∀ c, realCore c = true → Made (.coreReset c) s (fun t => BytesSame s t ∧ t.waves = s.waves ∧ (coreOf t c).rbk = 0 ∧
      (coreOf t c).corrected = 0 ∧ (coreOf t c).fixes = [] ∧ ∀ y ∈ (coreOf t c).seats, y.ptr = [17, 17, 17, 17])) ∧
    (∀ c x, mget s.cores c = some x → x.hot ≠ [] → (dieOf s (dieOfCore c)).hotAt < s.now / 2 ^ 20 →
      Made .hotnessHalve s (fun t => BytesSame s t ∧ (dieOf t (dieOfCore c)).hotAt = s.now / 2 ^ 20 ∧
        ∀ y ∈ (coreOf t c).hot, ∃ z ∈ x.hot, y.1 = z.1 ∧ y.2 ≤ z.2 / 2)) ∧
    (∀ d x p cand guards items, partOfDie s d = some p → (partOf s p).trump = true →
      let e := entryOf s d x
      let is := originalIns e
      let cs := regionIns items
      let ins := (liveIns e.mode is).map (·.1)
      let e' : TrumpEntry := { e with state := .probation, candidate := cand, candSig := crcWords 0 cand, guards := guards,
                                      agreeing := 0, classSet := [], at_ := s.now }
      e.state = .candidate → parseRegion 40 cand 0 15 = some (items, 0) → cand ≠ [] → cand.length ≤ 32 → guards.length ≤ 2 →
      (∀ i ∈ cs, candidateIns e.mode i = true) → (∀ r ∈ (liveIns e.mode cs).map (·.1), r ∈ ins) →
      (∀ r ∈ cs.flatMap (writesOf e.mode), r ∈ is.flatMap (writesOf e.mode)) → issueCost e.mode cs ≤ issueCost e.mode is →
      (∀ g ∈ guards, .s g.1 ∈ ins) → sampleTest s d e' = true →
      Made (.candidateInstall d x cand guards) s (fun t => BytesSame s t ∧ entryOf t d x = e')) ∧
    (∀ d x, (entryOf s d x).state = .candidate → (entryOf s d x).at_ + 2 ^ 24 ≤ s.now → Made (.candidateExpiry d x) s
      (fun t => BytesSame s t ∧ (entryOf t d x).state = .free)) ∧
    (∀ n r o, firstSome (fun d => d.2.trials.find? (fun t => decide (t.id = n))) s.dies = some r → r.done = true →
      searchDone s r.die false n = some o →
      let s1 := modDie s r.die (fun d => { d with trials := d.trials.filter (fun y => !decide (y.id = n)) })
      let e := entryOf s1 r.die r.entry
      Made (.probationCompare n) s (fun t => (∀ k a, memGet (blockOf t k).spad a = memGet (blockOf s k).spad a) ∧
        (∀ y ∈ (dieOf t r.die).trials, y.id ≠ n) ∧
        (e.state = .probation → e.region = r.snap.region →
          (trialAgrees s1 e r.snap o = some false → (entryOf t r.die r.entry).state ≠ .probation) ∧
          (trialAgrees s1 e r.snap o = some true → (entryOf t r.die r.entry).agreeing = Nat.min 65535 (e.agreeing + 1))))) ∧
    (∀ n r o, mget s.tags n = some r → r.resolved = none → r.passed = false → searchDone s r.die true n = some o →
      tagRuns s n = false → let agrees := auditAgrees s (entryOf s r.die r.entry) r.snap o
      Made (.auditComplete n) s (fun t => t.blocks = s.blocks ∧
        (agrees = true → ∀ y, mget t.tags n = some y → y.passed = true) ∧
        (agrees = false → ∀ y, mget t.tags n = some y → y.resolved ≠ none))) ∧
    (∀ n r, mget s.tags n = some r → r.resolved = none → r.level ≠ some 0 → r.issued + 2 ^ 20 ≤ s.now →
      Made (.auditEscalate n) s (fun t => BytesSame s t ∧ mget t.tags n = some { r with level := some 0 })) ∧
    (∀ n r x, mget s.tags n = some r → r.resolved = some x → r.due ≤ s.now → Made (.walkAndScrubComplete n) s (fun t =>
      (∀ k a, memGet (blockOf t k).spad a = memGet (blockOf s k).spad a) ∧ mget t.tags n = none)) ∧
    (∀ u w, mget s.waves u = some w → w.state = .debug →
      let does (x : DebugAccess) (P : Wave → Prop) : Prop := Made (.debugAccess u x) s (fun t => BytesSame s t ∧
        (∀ v, v ≠ u → waveOf t v = waveOf s v) ∧ P (waveOf t u))
      does .read (fun y => y = w) ∧
      (∀ r l v, l < 64 → does (.setV r l v) (fun y => vLane (mgetD y.v (w.wbase + r) {}) l = ⟨v, .clean⟩ ∧ y.s = w.s ∧ y.p = w.p)) ∧
      (∀ r v, does (.setS r v) (fun y => SetsU w y r ⟨v, .clean⟩)) ∧
      (∀ r b st, does (.setA r b st) (fun y => SetsA w y r { base := b, stride := st })) ∧
      (∀ r b, does (.setP r b) (fun y => (pReg y r).bits = b ∧ y.s = w.s ∧ y.v = w.v)) ∧
      (∀ e sp, splitOf w e = some sp →
        (∀ pc, does (.setPc e pc) (fun y => RegsSame w y ∧ ∃ x, splitOf y e = some x ∧ x.pc = pc ∧ x.mask = sp.mask)) ∧
        (∀ m, does (.setMode e m) (fun y => RegsSame w y ∧ splitOf y e = some { sp with mode := m })) ∧
        (∀ o, does (.setOmode e o) (fun y => RegsSame w y ∧ splitOf y e = some { sp with omode := o })) ∧
        (∀ m, does (.setMask e m) (fun y => RegsSame w y ∧ splitOf y e = some { sp with mask := m }))) ∧
      (∀ m, does (.setLive m) (fun y => y = { w with live := m })) ∧
      (∀ f, does (.setWstat f) (fun y => y = { w with wstat := f })) ∧ (∀ x, does (.setSig x) (fun y => y = { w with sig := x })) ∧
      (∀ n, does (.setWdog n) (fun y => y = { w with wdog := n })) ∧ (∀ x, does (.setPkr x) (fun y => y = { w with pkr := x })) ∧
      (∀ n x, does (.setFlag n x) (fun y => RegsSame w y ∧ nth y.flags n 0 = x ∧
        ∀ j, j ≠ n → nth y.flags j 0 = nth w.flags j 0)) ∧
      (∀ c pc x, does (.setTrap c pc x) (fun y => y = { w with trapc := c, trappc := pc, trapval := x })) ∧
      (∀ m mode o sig hd x, does (.setFrame m mode o sig hd x) (fun y => RegsSame w y ∧ y.frame = w.frame.map (fun f =>
        { f with mask := m, mode := mode, omode := o, sig := sig, header := hd, word := x }))) ∧
      (∀ n, does (.setWindow n) (fun y => y = { w with wbase := n })) ∧
      (∀ a b, does (.setCounts a b) (fun y => y = { w with spills := a, fills := b })) ∧
      (∀ n, does (.setCmapix n) (fun y => y = { w with cmapix := n })) ∧
      (∀ l g, does (.setKillTag l g) (fun y => y = { w with killTags := mset w.killTags l g })) ∧
      (∀ x, does (.setTimeHi x) (fun y => y = { w with timeHi := x })) ∧
      (∀ x, does (.setBatch x) (fun y => y = { w with batchNo := x })) ∧
      (∀ n pc m mode o,
        let stands (x : Split) : Prop := x.pc = pc ∧ x.mask = m ∧ x.mode = mode ∧ x.omode = o
        (n < w.deferred.length → does (.setWaiting false n pc m mode o) (fun y => RegsSame w y ∧ y.splits = w.splits ∧
          y.deferred.length = w.deferred.length ∧ (∃ x, y.deferred[n]? = some x ∧ stands x) ∧
          ∀ j, j ≠ n → y.deferred[j]? = w.deferred[j]?)) ∧
        (∀ f, w.frame = some f → n < f.splits.length + f.deferred.length → does (.setWaiting true n pc m mode o) (fun y =>
          RegsSame w y ∧ y.splits = w.splits ∧ y.deferred = w.deferred ∧ ∃ f', y.frame = some f' ∧
          (∃ x, (f'.splits ++ f'.deferred)[n]? = some x ∧ stands x) ∧
          ∀ j, j ≠ n → (f'.splits ++ f'.deferred)[j]? = (f.splits ++ f.deferred)[j]?))) ∧
      (∀ r l g, l < 64 → does (.setVTag r l g) (fun y => ∃ b, vLane (mgetD y.v (w.wbase + r) {}) l =
        ⟨(vLane (mgetD w.v (w.wbase + r) {}) l).val, tagOfBits b g.toNat⟩)) ∧
      (∀ r g, does (.setSTag r g) (fun y => ∃ b, SetsU w y r ⟨(sReg w r).val, tagOfBits b g.toNat⟩)) ∧
      (∀ r g, does (.setATag r g) (fun y => ∃ b, SetsA w y r { aReg w r with tag := tagOfBits b g.toNat })) ∧
      (∀ r l g, l < 64 → does (.setPTag r l g) (fun y => ∃ b, (pReg y r).bits = (pReg w r).bits ∧
        tagAt (pReg y r).tags l = tagOfBits b g.toNat))) ∧
    (∀ ws, (∀ u ∈ ws, (waveOf s u).state = .debug) → Made (.debugResume ws) s (fun t => BytesSame s t ∧
      ∀ u ∈ ws, (waveOf t u).state = (if saved u then .saving else .run) ∧ RegsSame (waveOf s u) (waveOf t u))) ∧
    (∀ u, (waveOf s u).state = .debug → Made (.debugStep u) s (fun t => BytesSame s t ∧
      (waveOf t u).state = (if saved u then .savingStep else .oneStep) ∧ RegsSame (waveOf s u) (waveOf t u))) ∧
    (∀ x c on, mget s.ctxs x = some c → Made (.debuggerAttach x on) s (fun t => BytesSame s t ∧ t.waves = s.waves ∧
      mget t.ctxs x = some { c with debugger := on }))

/-- R276, R309, R351 to R366, R370, R378: the host. A command with a field that breaks its rule completes with status 2, one
that names what its function may not with status 1, and has no other effect; otherwise it is performed and completes with
status 0, or later. A doorbell announces 64-byte records; a ring without progress resets its partition; the status word
says what the partition's hub die is; partitions form, with their timeout and share of the memory, and dissolve; a function is assigned to a world.
Log entries 11, 15, 65, 66, 67, 68, 70, 71, 87, 93 and 104 say what the model chose here. -/
def Obligations.HostMoves : Prop :=
  ∀ (s : State) (p : Nat) (x : Partition),
    (∀ r rest, Command s p x r rest →
      let said (t : State) (st : Nat) (more : List Nat) : Prop :=
        rest = [] → x.pending.length < 256 → Completed t p r st more
      (∀ world root pkr base len, r.cmd = .createContext world root pkr base len →
        let bad := len % 65536 ≠ 0
        let may := worldOpen s p world = true ∧ areaInWorld s root world base len = true ∧ pastHbm root (levelBytes 3) = false
        (bad → Made (.createContext p) s (fun t => t.ctxs = s.ctxs ∧ said t 2 [])) ∧
        (¬ bad → ¬ may → Made (.createContext p) s (fun t => t.ctxs = s.ctxs ∧ said t 1 [])) ∧
        (¬ bad → may → ∀ n a, lowestFree (s.ctxs.map (·.1)) 1 65536 = some n →
          lowestFree (s.ctxs.map (fun x => x.2.asid)) 0 4096 = some a →
          Made (.createContext p) s (fun t => said t 0 [n] ∧ ∃ c, mget t.ctxs n = some c ∧ c.part = p ∧ c.asid = a ∧
            c.world = world ∧ c.root = root ∧ c.pkr = pkr ∧ c.saveBase = base ∧ c.saveLen = len))) ∧
      (∀ ctx rec queue, r.cmd = .launchGrid ctx rec queue →
        let bad := 255 < queue ∨ rec % 64 ≠ 0
        (bad → Made (.launchGrid p) s (fun t => t.grids = s.grids ∧ said t 2 [])) ∧
        (¬ bad → contextOpen s p ctx = false → Made (.launchGrid p) s (fun t => t.grids = s.grids ∧ said t 1 [])) ∧
        (¬ bad → contextOpen s p ctx = true →
          (hostBytes s ctx rec 256 = none → Made (.launchGrid p) s (fun t => t.grids = s.grids ∧ said t 1 [0, 0])) ∧
          (hostBytes s ctx rec 256 ≠ none → Made (.launchGrid p) s (fun t => ∃ st hd,
            (s.upsets = [] → said t (if st = 0 then 0 else 1) [st, hd]) ∧ (st ≠ 0 → t.grids = s.grids) ∧
            (st = 0 → hd = x.nextHandle ∧ ∃ g, mget t.grids s.nextId = some g ∧ g.handle = hd ∧ g.ctx = ctx ∧ g.queue = queue ∧
              g.part = p ∧ g.state = 0))))) ∧
      (∀ ctx grid block reason, r.cmd = .save ctx grid block reason →
        let bad := (block ≠ 0 ∧ grid = 0) ∨ reason < 1 ∨ 2 < reason
        (bad → Made (.save p) s (fun t => t.blocks = s.blocks ∧ said t 2 [])) ∧
        (¬ bad → contextOpen s p ctx = false → Made (.save p) s (fun t => t.blocks = s.blocks ∧ said t 1 [])) ∧
        (¬ bad → contextOpen s p ctx = true → Made (.save p) s (fun t => BytesSame s t ∧
          ∀ k b, mget s.blocks k = some b → namesBlock s ctx grid block b = true → unitOver s k = false →
            ∃ y, (blockOf t k).preempt = some y ∧ s.nextId ∈ y.cmds ∧ y.reason = reason ∧
              (b.preempt = none → y.drain = .stopping) ∧
              ∀ z, b.preempt = some z → y.drain = z.drain ∧ ∀ n ∈ z.cmds, n ∈ y.cmds))) ∧
      (∀ ctx count arr, r.cmd = .launchImage ctx count arr →
        (count = 0 ∨ 4096 < count → Made (.launchImage p) s (fun t => t.images = s.images ∧ said t 2 [])) ∧
        (1 ≤ count → count ≤ 4096 → contextOpen s p ctx = false ∨ contextBytes s ctx arr (8 * count) = none →
          Made (.launchImage p) s (fun t => t.images = s.images ∧ said t 1 [])) ∧
        (∀ l, 1 ≤ count → count ≤ 4096 → contextOpen s p ctx = true → contextBytes s ctx arr (8 * count) = some l →
          let vs := ((List.range count).map (fun k => fieldAt l (8 * k) 8)).eraseDups
          let own (v n : Nat) (y : Image) : Prop :=
            s.images.find? (fun z => decide (z.2.ctx = ctx ∧ z.2.record = v)) = some (n, y) ∧ mget s.images n = some y
          let foreign (v : Nat) (c : List Byte) : Prop :=
            contextBytes s ctx v 64 = some c ∧ (∀ z ∈ s.images, ¬ (z.2.ctx = ctx ∧ z.2.record = v))
          ((∃ v ∈ vs, v % 64 ≠ 0) → Made (.launchImage p) s (fun t => t.images = s.images ∧ said t 2 [])) ∧
          ((∀ v ∈ vs, v % 64 = 0) → s.upsets = [] →
            ((∃ v ∈ vs, contextBytes s ctx v 64 = none) →
              Made (.launchImage p) s (fun t => t.images = s.images ∧ said t 1 [])) ∧
            (∀ v n y, v ∈ vs → own v n y → y.launched = false →
              y.stable ≠ stableWords s p ∨ partnerNamed s ctx vs (n, y) = false →
              Made (.launchImage p) s (fun t => t.images = s.images ∧ said t 1 [])) ∧
            ((∀ v ∈ vs, (contextBytes s ctx v 64).isSome = true) →
              ((∀ v ∈ vs, ∃ n y, own v n y ∧ y.launched = false ∧ y.stable = stableWords s p ∧
                  partnerNamed s ctx vs (n, y) = true ∧ imageGood s y = true ∧
                  ∀ z ∈ (imageUnit s n).filterMap (mget s.images), imageGood s z = true) →
                Made (.launchImage p) s (fun t => said t 0 [vs.length, 0] ∧
                  ∀ v ∈ vs, ∀ n y, own v n y → mget t.images n = some { y with launched := true })) ∧
              (∀ v n y, vs = [v] → own v n y → y.launched = false → y.stable = stableWords s p →
                partnerNamed s ctx vs (n, y) = true → imageUnit s n = [n] → imageGood s y = false →
                Made (.launchImage p) s (fun t => mget t.images n = none)) ∧
              (∀ v c, vs = [v] → foreign v c → mateNamed s ctx vs c = true →
                (recordGood s ctx c = true → (recordContents s ctx c).stable ≠ stableWords s p →
                  Made (.launchImage p) s (fun t => t.images = s.images ∧ said t 1 [])) ∧
                (recordGood s ctx c = true → (recordContents s ctx c).stable = stableWords s p →
                  Made (.launchImage p) s (fun t => said t 0 [1, 0] ∧ ∃ n x, mget t.images n = some x ∧ x.ctx = ctx ∧
                    x.record = v ∧ x.launched = true ∧ x.body = fieldAt c 48 8 ∧ x.bytes = fieldAt c 56 4 ∧
                    x.seq = fieldAt c 0 8 ∧ x.block.index = fieldAt c 20 4 ∧
                    (∀ g, gridOfHandle s ctx (fieldAt c 16 4) = some g → x.block.grid = g) ∧
                    (gridOfHandle s ctx (fieldAt c 16 4) = none → (gridOf t x.block.grid).handle = fieldAt c 16 4))) ∧
                (recordGood s ctx c = false → Made (.launchImage p) s (fun t => t.images = s.images))))))) ∧
      (r.cmd = .resetPartition → Made (.resetPartition p) s (fun t => Cleared t p ∧ Completed t p r 0 [])) ∧
      (∀ ctx base len s0 slot q release aperture reqs, r.cmd = .openWindow ctx base len s0 slot q release aperture reqs →
        let size := q * 2 ^ slot
        let bad := base % 65536 ≠ 0 ∨ len % 65536 ≠ 0 ∨ slot < 12 ∨ 24 < slot ∨ q = 0 ∨ 4 < reqs.length
        let may := contextOpen s p ctx = true ∧ windowLeased s ctx base len = true ∧
          (∀ w ∈ x.windows, windowClash ctx base len aperture size w = false) ∧ aperture + size ≤ 2 ^ 30 ∧ 65536 + size ≤ len
        (bad → Made (.openIngressWindow p) s (fun t => (partOf t p).windows = x.windows ∧ said t 2 [])) ∧
        (¬ bad → ¬ may → Made (.openIngressWindow p) s (fun t => (partOf t p).windows = x.windows ∧ said t 1 [])) ∧
        (¬ bad → may →
          let keep := x.windows.filter (fun w => w.opened || !decide (w.ctx = ctx ∧ w.base < base + len ∧ base < w.base + w.len))
          (lowestFree (keep.map (fun w => w.index)) 0 4096 = none →
            Made (.openIngressWindow p) s (fun t => (partOf t p).windows = x.windows ∧ said t 1 [])) ∧
          ∀ n, lowestFree (keep.map (fun w => w.index)) 0 4096 = some n →
            Made (.openIngressWindow p) s (fun t => (partOf t p).windows = keep ++ [{
              ctx := ctx, base := base, len := len, s0 := s0, slotLog := slot, q := q, release := release
              aperture := aperture, reqs := reqs, c := s0, index := n }]))) ∧
      (∀ base, r.cmd = .closeWindow base →
        let found := x.windows.find? (fun w => w.opened && decide (w.base = base))
        (found = none → Made (.closeIngressWindow p) s (fun t => (partOf t p).windows = x.windows ∧ said t 0 [])) ∧
        (∀ w, found = some w →
          (contextOpen s p w.ctx = false → Made (.closeIngressWindow p) s (fun t =>
            (partOf t p).windows = x.windows ∧ said t 1 [])) ∧
          (contextOpen s p w.ctx = true → Made (.closeIngressWindow p) s (fun t => BytesSame s t ∧
            ∀ y ∈ (partOf t p).windows, y.index = w.index → y.opened = false ∧ y.slots = [] ∧ y.waiting = [])))) ∧
      (∀ d world c, r.cmd = .configureDeck d world c →
        let y := mgetD x.decks d {}
        let bad := 63 < d ∨ 255 < world ∨ c < 8 ∨ 20 < c
        let may := y.items = [] ∧ y.heldItems = 0 ∧ y.flying = [] ∧
          ∀ g ∈ s.grids, g.2.part = p → g.2.launch.decks.getLsbD d = false
        (bad → Made (.configureDeck p) s (fun t => (partOf t p).decks = x.decks ∧ said t 2 [])) ∧
        (¬ bad → ¬ may → Made (.configureDeck p) s (fun t => (partOf t p).decks = x.decks ∧ said t 1 [])) ∧
        (¬ bad → may → Made (.configureDeck p) s (fun t => said t 0 [] ∧
          mget (partOf t p).decks d = some { world := world, cap := c } ∧
          ∀ j, j ≠ d → mget (partOf t p).decks j = mget x.decks j))) ∧
      (∀ n key, r.cmd = .keyStream n key →
        let may (y : Stream) : Prop := y.part = p ∧ y.world = x.world.getD 0
        (mget s.streams n = none → deviceStream x.hub n = false →
          Made (.keyStream p) s (fun t => t.streams = s.streams ∧ said t 1 [])) ∧
        (mget s.streams n = none → deviceStream x.hub n = true → Made (.keyStream p) s (fun t => BytesSame s t ∧
          mget t.streams n = some { part := p, world := x.world.getD 0, key := none, state := .draining, newKey := key,
                                    at_ := s.now, host := r.tag })) ∧
        (∀ y, mget s.streams n = some y → ¬ may y → Made (.keyStream p) s (fun t => t.streams = s.streams ∧ said t 1 [])) ∧
        (∀ y, mget s.streams n = some y → may y → y.state ≠ .draining → Made (.keyStream p) s (fun t => BytesSame s t ∧
          mget t.streams n = some { y with state := .draining, newKey := key, at_ := s.now, host := r.tag }))) ∧
      (∀ e link policy rep, r.cmd = .takePeer e link policy →
        let bad := 15 < e ∨ 7 < link
        let may := (mgetD x.roster e {}).present = false ∧ rep.signed = true ∧
          Config.policyAccepts policy rep.measures = true
        (bad → Made (.admitPeer p rep) s (fun t => (partOf t p).roster = x.roster ∧ said t 2 [])) ∧
        (¬ bad → ¬ may → Made (.admitPeer p rep) s (fun t => (partOf t p).roster = x.roster ∧ said t 1 [])) ∧
        (¬ bad → may → Made (.admitPeer p rep) s (fun t => said t 0 [] ∧ (partOf t p).rosterGen = x.rosterGen + 1 ∧
          (∃ y, mget (partOf t p).roster e = some y ∧ y.present = true ∧ y.link = link ∧ y.identity = rep.identity) ∧
          (∀ w ∈ t.ports, w.stream ≠ peerStream p e) ∧ ∃ z, mget t.streams (peerStream p e) = some z ∧ z.part = p ∧
            z.world = rep.world ∧ z.state = .opened ∧ z.nonce = 0 ∧ z.sent = []))) ∧
      (∀ e, r.cmd = .removePeer e →
        let y := mgetD x.roster e {}
        (15 < e → Made (.removePeer p) s (fun t => (partOf t p).roster = x.roster ∧ said t 2 [])) ∧
        (e ≤ 15 → y.present = false → y.gone = false → Made (.removePeer p) s (fun t =>
          (partOf t p).roster = x.roster ∧ said t 0 [])) ∧
        (e ≤ 15 → y.present = true ∨ y.gone = true → Made (.removePeer p) s (fun t =>
          (partOf t p).rosterGen = x.rosterGen + 1 ∧ (y.present = false → said t 0 []) ∧
          (∃ z, mget (partOf t p).roster e = some z ∧ z.present = false ∧ z.gone = false) ∧
          ∀ z, mget s.streams (peerStream p e) = some z → ∃ z', mget t.streams (peerStream p e) = some z' ∧
            z'.state = .closed ∧ z'.key = none ∧ z'.sent = []))) ∧
      (∀ on n, r.cmd = .trumpControls on n →
        (65535 < n → Made (.trumpControls p) s (fun t => (partOf t p).trump = x.trump ∧ said t 2 [])) ∧
        (n = 0 → Made (.trumpControls p) s (fun t => (partOf t p).trump = x.trump ∧ said t 1 [])) ∧
        (1 ≤ n → n ≤ 65535 → Made (.trumpControls p) s (fun t => (partOf t p).trump = on ∧ (partOf t p).trumpP = n ∧
          (on = false → ∀ d ∈ x.dies, ∀ k, k < (dieOf s d).trump.length →
            (entryOf t d k).state ≠ .probation ∧ (entryOf t d k).state ≠ .promoted)))) ∧
      (∀ ix interval off mask value, r.cmd = .wakeFilter ix interval off mask value →
        let bad := ¬ (interval = 0 ∨ interval = 0xFF ∨ (20 ≤ interval ∧ interval ≤ 34)) ∨ 127 < off
        (bad → Made (.wakeFilterAndIdleInterval p) s (fun t => t.hubs = s.hubs ∧ said t 2 [])) ∧
        (¬ bad → 7 < ix → Made (.wakeFilterAndIdleInterval p) s (fun t => t.hubs = s.hubs ∧ said t 1 [])) ∧
        (¬ bad → ix ≤ 7 → Made (.wakeFilterAndIdleInterval p) s (fun t => said t 0 [] ∧
          mget (hubOf t x.hub).filters ix = some { offset := off, mask := mask, value := value } ∧
          (partOf t p).idle = if interval = 0xFF then x.idle else if interval = 0 then 0 else 2 ^ interval)))) ∧
    (mget s.parts p = some x →
      (∀ records : List (List Byte), x.ready = true → (∀ l ∈ records, l.length = 64) →
        let ring := x.ring ++ records.map hostRecord
        Made (.doorbellWrite p records) s (fun t => BytesSame s t ∧
          ((hubOf s x.hub).gated = true → (hubOf t x.hub).waking = true) ∧
          ∀ r l, ring = r :: l → (∀ n, r.cmd ≠ .unknown n) → (partOf t p).ring = ring)) ∧
      (∀ k, (statusWord s p).getLsbD k =
        (if k = 0 then x.ready else if k = 1 then x.failed else if k = 2 then x.gated else if k = 8 then decide (x.hub = 1)
         else if k = 9 then x.takenOver else false)) ∧
      (x.ring ≠ [] → x.progress + 4 * x.timeout ≤ s.now → Made (.commandRingStall p) s (fun t => Cleared t p)) ∧
      Made (.partitionDissolve p) s (fun t => mget t.parts p = none ∧ (∀ c y, mget t.ctxs c = some y → y.part ≠ p) ∧
        (∀ u w, mget t.waves u = some w → w.part ≠ p)) ∧
      (∀ world, (∀ n, world = some n → 1 ≤ n ∧ n ≤ 255) → Made (.tdispAssign p world) s (fun t => BytesSame s t ∧
        (partOf t p).world = world ∧ ∀ y, mget s.streams p = some y → mget t.streams p = some { y with world := world.getD 0 }))) ∧
    (∀ dies hub timeout share n, lowestFree (s.parts.map (·.1)) 0 4096 = some n → dies ≠ [] →
      dies.eraseDups.length = dies.length → (∀ d ∈ dies, d < Config.dieCount ∧ partOfDie s d = none) → hub < 2 →
      (hubOf s hub).stopped = false → (homedOn s hub).length < 8 →
      (∀ t, timeout = some t → 2 ^ 16 ≤ t ∧ t ≤ 2 ^ 30) → share ≤ hbmLeft s →
      Made (.partitionForm dies ⟨hub, timeout, share⟩) s (fun t => BytesSame s t ∧ ∃ y, mget t.parts n = some y ∧
        (∀ d, d ∈ y.dies ↔ d ∈ dies) ∧ y.hub = hub ∧ y.ready = Config.firmwareVerifies hub ∧
        y.failed = !Config.firmwareVerifies hub ∧ y.gated = (hubOf s hub).gated ∧
        y.timeout = timeout.getD Config.defaultTimeout ∧ y.share = share ∧ y.ring = [] ∧ y.trump = true ∧ y.born = s.now))

/-- R202, R206, R215, R240, R281, R320, R351, R353, R356 to R367: the hub dies. Streams drain or fail; a write that waited too long is
dropped; a hub die gates and wakes; a buffered event goes to its place in the ring; a peer is marked gone; a translation is invalidated;
a write from the host, a peer or storage reaches memory, or an address that does not exist stops the machine; a peer's
arrival and contribution reach their cohort, one that fails authentication is dropped, counted and recorded; a requester's
write to a window lands, waits or is dropped by its header, and a frame that has landed moves the committed number; a
control pair that disagrees stops and, if its firmware verifies, returns
after the reset.
Log entries 15, 45, 69, 72, 73, 81, 84, 87, 93, 104 and 105 say what the model chose here. -/
def Obligations.HubMoves : Prop :=
  ∀ (s : State),
    let written (bytes : List (Nat × Byte)) (t : State) : Prop :=
      (∀ k a, memGet (blockOf t k).spad a = memGet (blockOf s k).spad a) ∧
      ∀ a, memGet t.mem a = memGet (memWrite s.mem bytes) a
    (∀ x y, mget s.streams x = some y → y.state = .draining →
      (y.sent = [] → Made (.streamDrainComplete x) s (fun t => t.blocks = s.blocks ∧ (s.ports = [] →
        BytesSame s t ∧ mget t.streams x = some { y with state := .opened, key := some y.newKey, nonce := 0 }))) ∧
      (y.sent ≠ [] → y.at_ + (partOf s y.part).timeout ≤ s.now → Made (.streamDrainFail x) s (fun t =>
        BytesSame s t ∧ mget t.streams x = some { y with state := .closed, key := none, sent := [] } ∧
        (∀ w ∈ t.ports, w ∈ s.ports ∧ (w.stream = x → portHeld s w = true)) ∧
        (∀ w ∈ s.ports, w.stream ≠ x → w ∈ t.ports)))) ∧
    (∀ p q x w y rest, mget s.parts p = some q → q.windows.find? (fun w => decide (w.index = x)) = some w →
      w.waiting = y :: rest → y.at_ + q.timeout ≤ s.now → Made (.ingressBackpressureTimeout p x) s (fun t => BytesSame s t ∧
        ∀ z ∈ (partOf t p).windows, z.index = x → z.waiting = rest)) ∧
    (∀ n w, s.ports.find? (fun w => decide (w.id = n)) = some w → (∀ z, seeTag s.tags w.part w.tag ≠ .prov z) →
      streamStopped s w.stream = false → w.at_ + (partOf s w.part).timeout ≤ s.now →
      Made (.sharedRequestTimeout n) s (fun t => t.blocks = s.blocks ∧ ∀ y ∈ t.ports, y.id ≠ n)) ∧
    (∀ h, h < 2 →
      ((hubOf s h).gated = false → (hubOf s h).stopped = false → (hubOf s h).guests = [] → homedOn s h ≠ [] →
        (∀ p ∈ homedOn s h, (partOf s p).idle ≠ 0 ∧ (partOf s p).idleSince + (partOf s p).idle ≤ s.now ∧
          partBusy s p = false) →
        Made (.hubDieGate h) s (fun t => BytesSame s t ∧ (hubOf t h).gated = true ∧
          ∀ p ∈ homedOn s h, (partOf t p).gated = true)) ∧
      ((hubOf s h).stopped = false → Made (.controlMismatch h) s (fun t => BytesSame s t ∧
        (hubOf t h).stopped = true ∧ (hubOf t h).stoppedAt = s.now ∧
        (∀ p ∈ homedOn s h, (partOf t p).takenOver = (Config.firmwareVerifies (1 - h) && !(hubOf s (1 - h)).stopped)) ∧
        ∀ p ∈ homedOn s (1 - h), (partOf t p).takenOver = false)) ∧
      (∀ x p auth frame, x < 2 → p ∈ homedOn s h → mget s.parts p = some (partOf s p) →
        Made (.ethernetFrameReceive h x auth ⟨p, frame⟩) s (fun t => BytesSame s t ∧
          let y := hubOf s h
          let z := hubOf t h
          (auth = false ∨ ethOpen s h x p = false → z = { y with dropped := y.dropped + 1 }) ∧
          (auth = true → ethOpen s h x p = true →
            (y.gated = false → z = { y with frames := y.frames ++ [(x, frame)] }) ∧
            (y.gated = true → y.waking = true → y.heldFrames ≠ [] → z =
              if heldFor y x + frame.length ≤ 65536 then { y with heldFrames := y.heldFrames ++ [(x, frame)] }
              else { y with dropped := y.dropped + 1 }) ∧
            (y.gated = true → (y.waking = false ∨ y.heldFrames = []) → z =
              if y.filters.any (fun f => filterMatches frame f.2) then { y with heldFrames := [(x, frame)], waking := true }
              else y))))) ∧
    (∀ h, (hubOf s h).gated = true → wakes s h = true → Made (.hubDieUngate h) s (fun t => BytesSame s t ∧
      (hubOf t h).gated = false ∧ (hubOf t h).waking = false ∧ (hubOf t h).heldFrames = [] ∧
      (hubOf t h).frames = (hubOf s h).frames ++ (hubOf s h).heldFrames ∧ ∀ p ∈ homedOn s h, (partOf t p).gated = false)) ∧
    (∀ h, (hubOf s h).stopped = true → (∀ p ∈ homedOn s h, (hubOf s h).stoppedAt < (partOf s p).born) →
      Made (.hubDieReset h) s (fun t => BytesSame s t ∧ (Config.firmwareVerifies h = false → t = s) ∧
        (Config.firmwareVerifies h = true → (hubOf t h).stopped = false ∧
          ∀ p ∈ homedOn s h, (partOf t p).takenOver = false))) ∧
    (∀ p x e, mget s.parts p = some x → nextEvent x.pending = some e → x.gated = false → eventRoom s x p = true →
      Made (.eventRingWrite p) s (fun t => t.blocks = s.blocks ∧ written (addrBytes (eventPlace x p) (eventBytes e)) t ∧
        mget t.parts p = some { x with pending := x.pending.erase e, events := x.events ++ [eventBytes e] })) ∧
    (∀ p x e y, mget s.parts p = some x → mget x.roster e = some y → y.present = true → Made (.peerGone p e) s (fun t =>
      BytesSame s t ∧ mget (partOf t p).roster e = some { y with present := false, gone := true })) ∧
    (∀ p x asid va len pa pte, mget s.parts p = some x →
      (∀ g ∈ s.grids, g.2.part = p → (asid = none ∨ some (ctxOf s g.2.ctx).asid = asid) →
        ∀ r ∈ (g.2.launch.spillBase, g.2.launch.spillBytes * g.2.launch.spillAreas) :: g.2.launch.leases,
          ¬ (r.1 < va + len ∧ va < r.1 + r.2)) →
      (∀ c ∈ s.cores, x.dies.contains (dieOfCore c.1) = true → c.2.tlb.any (invalidates p asid va len) = true →
        coreBusy s c.1 = false) → controlled s p = true →
      (realAddress pa 8 = false → exec (.tlbinv p asid va len pa pte) s = .fault .noSuchAddress) ∧
      (realAddress pa 8 = true →
        Made (.tlbinv p asid va len pa pte) s (fun t => written (addrBytes pa (toBytes 8 pte.toNat)) t ∧
          ∀ c y, mget s.cores c = some y → x.dies.contains (dieOfCore c) = true →
            ∀ e ∈ (coreOf t c).tlb, invalidates p asid va len e = false))) ∧
    (∀ p x pa data bad, mget s.parts p = some x →
      (realAddress pa data.length = true → Made (.hostInboundWrite p pa data bad) s (written (addrBytes pa data))) ∧
      (realAddress pa data.length = false → exec (.hostInboundWrite p pa data bad) s = .fault .noSuchAddress)) ∧
    (∀ x p e z, x < 8 → (nth (hubOf s (x / 4)).links (x % 4) {}).failed = false → mget s.parts p = some z →
      (∀ auth bad body, flitFits body = true → Made (.peerFlit x false ⟨p, e, auth, bad⟩ body) s (fun t => BytesSame s t ∧
        (nth (hubOf t (x / 4)).links (x % 4) {}).retries = (nth (hubOf s (x / 4)).links (x % 4) {}).retries + 1)) ∧
      (∀ auth bad body, flitFits body = true → auth = false ∨ onLink s x p e = false →
        Made (.peerFlit x true ⟨p, e, auth, bad⟩ body) s (fun t => BytesSame s t ∧
          (∀ j, (partOf t p).cohorts = z.cohorts ∧ mget t.streams j = mget s.streams j) ∧
          (nth (hubOf t (x / 4)).links (x % 4) {}).retries = 0 ∧
          (nth (hubOf t (x / 4)).links (x % 4) {}).dropped = (nth (hubOf s (x / 4)).links (x % 4) {}).dropped + 1 ∧
          (z.pending.length < 256 → ∃ y ∈ (partOf t p).pending, y.cause = .portPoison ∧ y.severity = 2 ∧ y.detail = e))) ∧
      (∀ pa data bad, data.length ≤ 256 → onLink s x p e = true →
        (realAddress pa data.length = true →
          Made (.peerFlit x true ⟨p, e, true, bad⟩ (.write pa data)) s (written (addrBytes pa data))) ∧
        (realAddress pa data.length = false → exec (.peerFlit x true ⟨p, e, true, bad⟩ (.write pa data)) s = .fault .noSuchAddress)) ∧
      (∀ bad, onLink s x p e = true →
        (∀ idx, Made (.peerFlit x true ⟨p, e, true, bad⟩ (.arrive idx)) s (fun t => BytesSame s t ∧
          ∀ c, mget (partOf s p).cohorts idx = some c → c.peers.getLsbD e = true →
            mgetD (mgetD (partOf t p).cohorts idx {}).peerArrivals e 0 = mgetD c.peerArrivals e 0 + 1)) ∧
        (∀ idx drain slot ctl elems lanes, Made (.peerFlit x true ⟨p, e, true, bad⟩ (.contribute idx drain slot ctl elems lanes)) s (fun t =>
          BytesSame s t ∧ ∀ c, mget (partOf s p).cohorts idx = some c → c.peers.getLsbD e = true →
            ∃ y : PeerPart, mget (partOf t p).cohorts idx = some { c with peerItems := c.peerItems ++ [(e, y)] } ∧
              y.drain = drain ∧ y.slot = slot ∧ y.ctl = ctl ∧
              y.elems.map (fun z => (z.1, z.2.bits, z.2.lost)) = elems ∧
              y.lanes.map (fun z => (z.lane, z.val)) = lanes ∧
              (bad = true → ∃ k, (∀ z ∈ y.elems, z.2.tag = .poison k) ∧ ∀ z ∈ y.lanes, z.tag = .poison k)))) ∧
      (∀ fails, 0 < (nth (hubOf s (x / 4)).links (x % 4) {}).retries → Made (.linkRetryFail x fails) s (fun t =>
        let y := nth (hubOf s (x / 4)).links (x % 4) {}
        BytesSame s t ∧ nth (hubOf t (x / 4)).links (x % 4) {} =
          { y with failed := fails || decide (y.width ≤ 1), width := y.width / 2, retries := 0 }))) ∧
    (∀ x y pa data ok, mget s.streams x = some y → y.state ≠ .closed → nvmeStream 0 ≤ x → x < nvmeStream 2 →
      (realAddress pa data.length = true → Made (.nvmeReadComplete x pa data ok) s (written (addrBytes pa data))) ∧
      (realAddress pa data.length = false → exec (.nvmeReadComplete x pa data ok) s = .fault .noSuchAddress)) ∧
    (∀ p x, mget s.parts p = some x → Made (.attestationRequest p) s (fun t => BytesSame s t ∧
      let m := Config.identity :: measures s p
      (partOf t p).report = m ++ [Config.signature m])) ∧
    (∀ p x req off data bad w, mget s.parts p = some x →
      x.windows.find? (fun w => w.opened && decide (w.aperture ≤ off ∧ off < w.aperture + w.q * 2 ^ w.slotLog)) = some w →
      let o := off - w.aperture
      let k := o / 2 ^ w.slotLog
      let b := o % 2 ^ w.slotLog
      let st := mgetD w.slots k {}
      let frame (P : State → Prop) : Prop := Made (.ingressFrameWrite p req off ⟨data, bad⟩) s P
      (req ∉ w.reqs → frame (fun t => BytesSame s t ∧ t.parts = s.parts)) ∧
      (req ∈ w.reqs → frame (fun t => t.blocks = s.blocks)) ∧
      (req ∈ w.reqs → w.waiting ≠ [] → frame (fun t => BytesSame s t ∧
        ∀ z ∈ (partOf t p).windows, z.index = w.index → ∃ v ∈ x.windows, v.index = z.index ∧ ∃ tag,
          (bad = false → tag = .clean) ∧ (bad = true → tag = .poison (BitVec.ofNat 12 x.nextTag)) ∧
          z.waiting = v.waiting ++ [{ off := o, data := data, tag := tag, at_ := s.now }])) ∧
      (req ∈ w.reqs → w.waiting = [] → bad = false → (∀ v ∈ x.windows, v.index = w.index → v = w) → data ≠ [] →
        b + data.length ≤ 2 ^ w.slotLog →
        let new := overSlot st.bytes [(b, data, .clean)]
        let placed (m : List Host.Cell) (va : Nat) (l : List Byte) : List (Nat × Byte) :=
          (addrBytes va l).filterMap (fun c => (contextPa { s with mem := m } w.ctx c.1).map (fun pa => (pa, c.2)))
        let places := placed s.mem (slotVa w k b) data
        let quiet := ∀ m z n len, m ≠ k → mget w.slots m = some z → z.frame = some (n, len) → n ≠ w.c ∧ n ≠ w.c + 1
        (st.frame = none → headerOf new = none → quiet → frame (fun t =>
          (∀ a, memGet t.mem a = memGet (memWrite s.mem places) a) ∧ ∀ v ∈ (partOf t p).windows, v.index = w.index →
            v.c = w.c ∧ v.waiting = [] ∧ mget v.slots k = some { frame := none, bytes := new })) ∧
        (∀ n len, st.frame = none → headerOf new = some (n, len) →
          (n < w.s0 ∨ (n - w.s0) % w.q ≠ k → frame (fun t => BytesSame s t ∧ ∀ v ∈ (partOf t p).windows, v.index = w.index →
            v.c = w.c ∧ mget v.slots k = none)) ∧
          (w.s0 ≤ n → (n - w.s0) % w.q = k → n < w.c → frame (fun t => BytesSame s t ∧
            ∀ v ∈ (partOf t p).windows, v.index = w.index → v.c = w.c)) ∧
          (w.s0 ≤ n → (n - w.s0) % w.q = k → w.c ≤ n → releaseWord s w + w.q ≤ n → frame (fun t => BytesSame s t ∧
            ∀ v ∈ (partOf t p).windows, v.index = w.index → v.c = w.c ∧
              v.waiting = [{ off := o, data := data, tag := .clean, at_ := s.now }])) ∧
          (w.s0 ≤ n → (n - w.s0) % w.q = k → n = w.c → n < releaseWord s w + w.q → 16 + len ≤ 2 ^ w.slotLog →
            quiet →
            let landed := frameLanded w { frame := some (n, len), bytes := new } len
            let m := memWrite s.mem places
            frame (fun t => (∀ v ∈ (partOf t p).windows, v.index = w.index →
                v.c = (if landed then w.c + 1 else w.c) ∧ mget v.slots k = some { frame := some (n, len), bytes := new }) ∧
              ∀ a, memGet t.mem a =
                memGet (memWrite m (if landed then placed m w.base (toBytes 8 (n + 1)) else [])) a)))))

/-! ### Rules of the spec word for word -/

/-- R32, R34: `mode` and `omode` set the split's register of their name, whatever the guard and the active mask are; they
write no register and never raise UNIFORM_MASK; a word that breaks their field rules traps with ILLEGAL_FIELD and the word.
The byte of `fence` is checked by the rule of `omode`. -/
def Obligations.ModeWords : Prop :=
  ∀ (s : State) (u : Nat) (w : Wave) (sp : Split), s.cur = some (u, sp.entry) → mget s.waves u = some w →
    splitOf w sp.entry = some sp →
    (∀ m : BitVec 24, let i : Instr := .mode m
      let x := m.toNat
      let bad := x % 2 ^ 6 ≠ 0 ∨ 4 ≤ x / 2 ^ 18 % 2 ^ 3 ∨ 5 ≤ x / 2 ^ 10 % 2 ^ 3 ∨
        (m.getLsbD 17 = false ∧ x / 2 ^ 13 % 2 ^ 4 ≠ 0)
      ignoresGuard i = true ∧ maskFails w sp i = false ∧
      (bad → exec i s = .next (trapAt s (ctxFor s u w sp i) .illegalField i.word)) ∧
      (¬ bad → Done i s u w sp { nextWord sp i with mode := m } w [])) ∧
    (∀ o : Byte, let bad := 5 ≤ o.toNat % 2 ^ 3 ∨ o.toNat / 2 ^ 3 % 2 ^ 3 = 0
      let i : Instr := .omode o
      ignoresGuard i = true ∧ maskFails w sp i = false ∧
      (bad → exec i s = .next (trapAt s (ctxFor s u w sp i) .illegalField i.word)) ∧
      (¬ bad → Done i s u w sp { nextWord sp i with omode := o } w []) ∧
      (bad → mustWait s u w sp (.fence o) = false →
        exec (.fence o) s = .next (trapAt s (ctxFor s u w sp (.fence o)) .illegalField (Instr.fence o).word))) ∧
    (∀ x lo hi : Word, opcodeOf x = 0x02 → (x.toNat / 2 ^ 8 % 2 ^ 16 ≠ 0) → decodeWord x lo hi = .error (.illegalField x) ∧
      ∃ c : Ctx, c.uid = u ∧ c.sp = sp ∧ badWord s u sp (.illegalField x) = trapAt s c .illegalField x)

/-- R45: integer division. `div` and `rem` never trap: a ready one begins a long operation whose every element, in the lanes
it fixes now, is the quotient or the remainder of the elements of A and B, with the flags DIVZERO and SAT as the rule sets
them. -3 divided by 4 gives 0 and -3, and -3 shifted right by 2 gives -1. -/
def Obligations.DivisionRule : Prop :=
  (∀ (sat signed : Bool) (n a b : Nat), 1 ≤ n → (signed = true → 2 ≤ n) →
    let x := divRem sat signed n a b
    let y := intOf signed n
    x.2.2.1 = x.2.2.2 ∧ Divides sat signed n (y a) (y b) (y x.1) (y x.2.1) x.2.2.1) ∧
  (let x := divRem false true 32 0xFFFFFFFD 4
   x.1 = 0 ∧ x.2.1 = 0xFFFFFFFD ∧ shiftArith 32 0xFFFFFFFD 2 = 0xFFFFFFFF) ∧
  (∀ (s : State) (u : Nat) (w : Wave) (sp : Split) (d a b : Operand) (i : Instr) (q : Bool),
    (i = .div d a b ∧ q = true ∨ i = .rem d a b ∧ q = false) →
    let n := elemBits (itype sp.mode)
    let c := ctxFor s u w sp i
    let el (l k : Nat) := divRem (satOn sp.mode) (isSigned (itype sp.mode)) n
      (elemOf n k (readI c a l).val) (elemOf n k (readI c b l).val)
    LongDone i s u w sp (fun _ o => ∃ vals, o.kind = .result vals ∧ o.dst = dstOf c d ∧ ∀ v ∈ vals,
      v.2 = flagsBelow (intCount c) (fun k => (el v.1.lane k).2.2.1) ∧
      ∀ k, k < intCount c → elemOf n k v.1.val = (if q then (el v.1.lane k).1 else (el v.1.lane k).2.1) % 2 ^ n))

/-! ### The machine -/

/-- R22, R23, R29: words of the spec's listings and the instructions they stand for, with the words they take. -/
def Obligations.DecodedWords : Prop :=
  decode [0x50427A00, 40] = .ok (.mov (.s 2) (.lit32 40), 2) ∧
  decode [0x0A000007] = .ok (.trap 7, 1) ∧
  decode [0x1042427A, 2] = .ok (.add (.s 2) (.s 2) (.lit32 2), 2) ∧
  decode [0x09000000] = .ok (.endWave, 1) ∧
  decode [0x0D4A0011] = .ok (.rdsr (.s 10) 0x11, 1) ∧
  decode [0xE0000001] = .ok (.tret 1, 1) ∧
  decode [0x01C00000] = .ok (.mode 0xC00000, 1) ∧
  decode [0x01000000] = .ok (.mode 0, 1) ∧
  decode [0x030000FF] = .error (.illegalField 0x030000FF) ∧
  decode [0x1F000000] = .ok (.illegalOpcode 0x1F000000, 1)

/-- R22 to R28: decoding is the inverse of encoding. For every well-formed instruction its words decode to it and to
nothing less, and the words that decode to a well-formed instruction are those that encode it.
Log entry 86 says what the model chose here. -/
def Obligations.RoundTrip : Prop :=
  (∀ i : Instr, i.wf = true → decode (encode i) = .ok (i, (encode i).length)) ∧
  (∀ (l : List Word) (i : Instr) (n : Nat), decode l = .ok (i, n) → i.wf = true → encode i = l.take n)

/-- R22, R29, R65, R66, R70, R73, R329: one step. A move from outside whose time has come is made first if its condition
holds, then a failed comparison of a redundant block, then the device's own moves, then an issue, and else one cycle passes.
An issue opens the split's clause, finds the errors of what the instruction reads (none where there is none) and runs the
instruction that its word decodes to; a word that the decoder stops on traps. After it no split issues. A search context that
is chosen issues its next instruction.
Log entries 5, 6, 10 and 75 say what the model chose here. -/
def Obligations.StepRuns : Prop :=
  ∀ (s : State),
    let h := housekeep s
    let quiet := outsideMove h = none ∨ ∃ x, outsideMove h = some x ∧ isEarly (exec x.1 x.2) = true
    (∀ i t, outsideMove h = some (i, t) → isEarly (exec i t) = false → Machine.step s = exec i t) ∧
    (quiet → ∀ k c x, mismatchAt h = some (k, c, x) → Machine.step s = .next (mismatch h k c x)) ∧
    (quiet → mismatchAt h = none → ∀ t, firstMade (ownMoves h) h = some t → Machine.step s = .next t) ∧
    (quiet → mismatchAt h = none → firstMade (ownMoves h) h = none →
      (pickIssue h = none → Machine.step s = .next (nextCycle h) ∧ (nextCycle h).now = h.now + 1) ∧
      (∀ c i, pickIssue h = some c → c.search = some i → Machine.step s = .next (searchIssue h c.wave.core c.wave.seat i)) ∧
      (∀ c sp, pickIssue h = some c → c.search = none → c.wave.state ≠ .oneStep →
          splitOf (waveOf (openClause h c.uid c.entry) c.uid) c.entry = some sp → sp.trump = none →
        let opened (i : Instr) : State := { findOperands (openClause h c.uid c.entry) c.uid c.entry i with
          cur := some (c.uid, c.entry) }
        (∀ x l i, wordsAt sp = x :: l → decodeWord x (nth l 0 0) (nth l 1 0) = .ok i →
          (∀ t, exec i (opened i) = .next t → Machine.step s = .next { endRun t c.uid c.entry with cur := none }) ∧
          ((openClause h c.uid c.entry).upsets = [] →
            opened i = { openClause h c.uid c.entry with cur := some (c.uid, c.entry) })) ∧
        (∀ x l e, wordsAt sp = x :: l → decodeWord x (nth l 0 0) (nth l 1 0) = .error e →
          Machine.step s = .next { endRun (badWord (openClause h c.uid c.entry) c.uid sp e) c.uid c.entry with cur := none })))

/-- Every step keeps the canonical form of global memory: addresses strictly rising, no byte listed that reads as an
unlisted address does.
The list and what an unlisted byte reads as are the model's choice (Log entry 2). -/
def Obligations.MemoryKept : Prop :=
  ∀ s t : State, Memory.wf s.mem = true → Machine.step s = .next t → Memory.wf t.mem = true

/-- R22, R31, R33, R53, R72, R100, R106, R163, R186, R273: what reset and the start of a wave leave. Memory lists nothing
and has its canonical form; no wave, block, grid or partition exists; each core's queue numbers, counts and correction
counters are 0 and its rotation pointers stand at the last place; a new wave's registers are zero and clean, its mode 0,
its omode 0x13, its flags and window base 0. The Draw's seed is 0x2545F491.
That memory never written reads 0, that no bank has failed and that nothing is placed are the model's choice (Log entries 1 and 2). -/
def Obligations.ResetState : Prop :=
  State.reset.memWf ∧ (∀ a, memGet State.reset.mem a = 0) ∧ State.reset.waves = [] ∧ State.reset.blocks = [] ∧
  State.reset.grids = [] ∧ State.reset.parts = [] ∧ State.reset.now = 0 ∧
  (∀ c, let x := coreOf State.reset c
    x.rbk = 0 ∧ x.corrected = 0 ∧ x.failed = none ∧ x.second = false ∧
    (∀ q, (queueAt x q).next = 0 ∧ (queueAt x q).completed = 0 ∧ (queueAt x q).entries = []) ∧
    ∀ n p, nth (seatAt x n).ptr p 17 = 17) ∧
  (let w : Wave := {}
   let sp : Split := {}
   (∀ k l, vLane (mgetD w.v k {}) l = ⟨0, .clean⟩) ∧ (∀ n, sReg w n = ⟨0, .clean⟩) ∧ (∀ n, aReg w n = {}) ∧
   (∀ n, pReg w n = {}) ∧ w.wbase = 0 ∧ w.wstat = 0 ∧ w.spills = 0 ∧ w.fills = 0 ∧ (∀ n, nth w.flags n 0 = 0) ∧
   sp.mode = 0 ∧ sp.omode = 0x13) ∧
  Config.drawSeed = 0x2545F491
end

