-- ==== Sys2Proof/Laws/Maps.lean ====
section
/-! SUPPORT. Laws of the maps by number, of the canonical memory list, of tags and lane masks. -/

namespace Sys2Proof.Machine

/-! ### Maps -/

@[simp] theorem mget_mset_self {α : Type} (m : Map α) (k : Nat) (x : α) : mget (mset m k x) k = some x := by
  induction m with
  | nil => simp [mset, mget]
  | cons c r ih =>
    obtain ⟨i, y⟩ := c
    simp only [mset]
    split
    · simp [mget]
    · split
      · simp [mget]
      · simp [mget, *]

theorem mget_mem {α : Type} {m : Map α} {k : Nat} {x : α} (h : mget m k = some x) : (k, x) ∈ m := by
  induction m with
  | nil => simp [mget] at h
  | cons y r ih =>
    obtain ⟨i, z⟩ := y
    simp only [mget] at h
    split at h
    · rename_i e; cases h; subst e; exact List.mem_cons_self
    · exact List.mem_cons_of_mem _ (ih h)

theorem mget_mset_ne {α : Type} (m : Map α) {k j : Nat} (x : α) (h : j ≠ k) : mget (mset m k x) j = mget m j := by
  induction m with
  | nil => simp [mset, mget, h.symm]
  | cons c r ih =>
    obtain ⟨i, y⟩ := c
    simp only [mset]
    split
    · subst_vars; simp [mget, h.symm]
    · split
      · simp [mget, h.symm]
      · simp [mget, ih]

theorem mget_mset {α : Type} (m : Map α) (k j : Nat) (x : α) :
    mget (mset m k x) j = if j = k then some x else mget m j := by
  split
  · subst_vars; simp
  · exact mget_mset_ne m x ‹_›

theorem mget_mdel {α : Type} (m : Map α) (k j : Nat) : mget (mdel m k) j = if j = k then none else mget m j := by
  induction m with
  | nil => simp [mdel, mget]
  | cons c r ih =>
    obtain ⟨i, y⟩ := c
    simp only [mdel]
    by_cases hik : i = k
    · subst hik
      rw [if_pos rfl, ih]
      by_cases hj : j = i
      · simp [hj]
      · simp [hj, mget, Ne.symm hj]
    · rw [if_neg hik]
      simp only [mget, ih]
      by_cases hij : i = j
      · subst hij; simp [hik]
      · simp [hij]

theorem mgetD_mset {α : Type} (m : Map α) (k j : Nat) (x d : α) :
    mgetD (mset m k x) j d = if j = k then x else mgetD m j d := by
  simp only [mgetD, mget_mset]
  split <;> simp

theorem mgetD_mdel {α : Type} (m : Map α) (k j : Nat) (d : α) :
    mgetD (mdel m k) j d = if j = k then d else mgetD m j d := by
  simp only [mgetD, mget_mdel]
  split <;> simp

@[simp] theorem mgetD_mset_self {α : Type} (m : Map α) (k : Nat) (x d : α) : mgetD (mset m k x) k d = x := by
  simp [mgetD_mset]

theorem mget_mmod {α : Type} (m : Map α) (k j : Nat) (f : α → α) :
    mget (mmod m k f) j = if j = k then (mget m k).map f else mget m j := by
  unfold mmod
  cases hm : mget m k with
  | none => by_cases hj : j = k <;> simp [hj, hm]
  | some x => simp [mget_mset]

/-! ### Rising keys -/

theorem risingFrom_mset {α : Type} (m : Map α) (k : Nat) (x : α) (lo : Option Nat)
    (h : risingFrom lo m = true) (hk : ∀ n, lo = some n → n < k) : risingFrom lo (mset m k x) = true := by
  induction m generalizing lo with
  | nil => cases lo <;> simp_all [mset, risingFrom]
  | cons c r ih =>
    obtain ⟨i, y⟩ := c
    simp only [mset]
    split
    · subst_vars; cases lo <;> simp_all [risingFrom]
    · split
      · cases lo <;> simp_all [risingFrom]
      · have hik : i < k := by omega
        cases lo with
        | none => exact ih (some i) (by simpa [risingFrom] using h) (by simpa using hik)
        | some n =>
          simp only [risingFrom, Bool.and_eq_true, decide_eq_true_eq] at h ⊢
          exact ⟨h.1, ih (some i) h.2 (by simpa using hik)⟩

theorem risingFrom_weaken {α : Type} (m : Map α) {i : Nat} {lo : Option Nat} (hlo : ∀ n, lo = some n → n < i)
    (h : risingFrom (some i) m = true) : risingFrom lo m = true := by
  cases m with
  | nil => cases lo <;> rfl
  | cons c r =>
    obtain ⟨j, y⟩ := c
    cases lo with
    | none => simp_all [risingFrom]
    | some n =>
      simp only [risingFrom, Bool.and_eq_true, decide_eq_true_eq] at h ⊢
      exact ⟨by have := hlo n rfl; omega, h.2⟩

theorem risingFrom_mdel {α : Type} (m : Map α) (k : Nat) (lo : Option Nat) (h : risingFrom lo m = true) :
    risingFrom lo (mdel m k) = true := by
  induction m generalizing lo with
  | nil => simpa [mdel] using h
  | cons c r ih =>
    obtain ⟨i, y⟩ := c
    simp only [mdel]
    split
    · cases lo with
      | none => exact ih none (risingFrom_weaken r (by simp) (by simpa [risingFrom] using h))
      | some n =>
        simp only [risingFrom, Bool.and_eq_true, decide_eq_true_eq] at h
        exact ih (some n) (risingFrom_weaken r (by simpa using h.1) h.2)
    · cases lo with
      | none => exact ih (some i) (by simpa [risingFrom] using h)
      | some n =>
        simp only [risingFrom, Bool.and_eq_true, decide_eq_true_eq] at h ⊢
        exact ⟨h.1, ih (some i) h.2⟩

/-! ### Memory -/

theorem all_mset {α : Type} (p : α → Bool) (m : Map α) (k : Nat) (x : α) (h : m.all (fun c => p c.2) = true)
    (hx : p x = true) : (mset m k x).all (fun c => p c.2) = true := by
  induction m with
  | nil => simp [mset, hx]
  | cons c r ih =>
    obtain ⟨i, y⟩ := c
    simp only [List.all_cons, Bool.and_eq_true] at h
    simp only [mset]
    split
    · simpa [hx] using h.2
    · split
      · simpa [hx] using h
      · simpa [h.1] using ih h.2

theorem all_mdel {α : Type} (p : α → Bool) (m : Map α) (k : Nat) (h : m.all (fun c => p c.2) = true) :
    (mdel m k).all (fun c => p c.2) = true := by
  induction m with
  | nil => rfl
  | cons c r ih =>
    obtain ⟨i, y⟩ := c
    simp only [List.all_cons, Bool.and_eq_true] at h
    simp only [mdel]
    split
    · exact ih h.2
    · simpa [h.1] using ih h.2

/-- Every store of a byte keeps the canonical form. -/
theorem memSet_wf (m : List Host.Cell) (a : Nat) (b : Byte) (h : Memory.wf m = true) : Memory.wf (memSet m a b) = true := by
  simp only [Memory.wf, Bool.and_eq_true] at h ⊢
  unfold memSet
  split
  · exact ⟨risingFrom_mdel m a none h.1, all_mdel (fun x => x != blankByte) m a h.2⟩
  · rename_i hb
    exact ⟨risingFrom_mset m a b none h.1 (by simp), all_mset (fun x => x != blankByte) m a b h.2 (by simpa using hb)⟩

/-- Every store of bytes keeps the canonical form. -/
theorem memWrite_wf (m : List Host.Cell) (l : List (Nat × Byte)) (h : Memory.wf m = true) :
    Memory.wf (memWrite m l) = true := by
  induction l generalizing m with
  | nil => exact h
  | cons c r ih => exact ih _ (memSet_wf m c.1 c.2 h)

/-- A byte read after a store: the byte stored at its address, the old one anywhere else. -/
theorem memGet_memSet (m : List Host.Cell) (a j : Nat) (b : Byte) :
    memGet (memSet m a b) j = if j = a then b else memGet m j := by
  unfold memGet memSet
  by_cases hb : b = blankByte
  · simp only [hb, if_true, mgetD_mdel]
  · simp only [hb, if_false, mgetD_mset]

/-- A store of bytes leaves every address it does not name as it was. -/
theorem memGet_memWrite_other (m : List Host.Cell) (l : List (Nat × Byte)) (j : Nat) (h : ∀ c ∈ l, c.1 ≠ j) :
    memGet (memWrite m l) j = memGet m j := by
  induction l generalizing m with
  | nil => rfl
  | cons c r ih =>
    rw [memWrite, ih _ (fun x hx => h x (List.mem_cons_of_mem _ hx)), memGet_memSet]
    simp [(h c (List.mem_cons_self ..)).symm]

theorem memGet_eq_memRead (m : List Host.Cell) (a n k : Nat) (h : k < n) : (memRead m a n).getD k 0 = memGet m (a + k) := by
  induction n generalizing a k with
  | zero => omega
  | succ n ih =>
    cases k with
    | zero => simp [memRead]
    | succ k =>
      have := ih (a + 1) k (by omega)
      simp only [memRead, List.getD_cons_succ, this]
      congr 1
      omega

theorem addrBytes_fst (l : List Byte) (a j : Nat) : (∀ c ∈ addrBytes a l, c.1 ≠ j) ↔ ¬(a ≤ j ∧ j < a + l.length) := by
  induction l generalizing a with
  | nil => simp [addrBytes]
  | cons b r ih =>
    simp only [addrBytes, List.mem_cons, forall_eq_or_imp, ih, List.length_cons]
    omega

/-- Reading back what was stored: `n` bytes stored from `a` up are read from `a` up. -/
theorem memRead_memWrite (l : List Byte) (m : List Host.Cell) (a : Nat) :
    memRead (memWrite m (addrBytes a l)) a l.length = l := by
  induction l generalizing a m with
  | nil => rfl
  | cons b r ih =>
    simp only [addrBytes, memWrite, List.length_cons, memRead, ih]
    rw [memGet_memWrite_other, memGet_memSet]
    · simp
    · rw [addrBytes_fst]; omega

end Sys2Proof.Machine
end

