-- ==== Sys2Proof/Laws/Lanes.lean ====
section
/-! SUPPORT. Laws of lane masks, tag lists, register lists and of the write of lane results. -/

namespace Sys2Proof.Machine

/-! ### Lane masks -/

theorem mem_allLanes (l : Nat) : l ∈ allLanes ↔ l < 64 := by simp [allLanes, laneCount]

theorem mem_lanesOf (m : LaneMask) (l : Nat) : l ∈ lanesOf m ↔ l < 64 ∧ inMask m l = true := by
  simp [lanesOf, mem_allLanes]

theorem lanesOf_nodup (m : LaneMask) : (lanesOf m).Nodup := (List.nodup_range).filter _

theorem inMask_lt {m : LaneMask} {l : Nat} (h : inMask m l = true) : l < 64 := by
  unfold inMask at h
  by_contra hl
  rw [BitVec.getLsbD_of_ge m l (by omega)] at h
  exact Bool.noConfusion h

theorem maskSum (f : Nat → Bool) (n : Nat) :
    (List.range n).foldl (fun x l => if f l then x + 2 ^ l else x) 0 < 2 ^ n ∧
    ∀ i, ((List.range n).foldl (fun x l => if f l then x + 2 ^ l else x) 0).testBit i = (decide (i < n) && f i) := by
  induction n with
  | zero => simp
  | succ n ih =>
    rw [List.range_succ, List.foldl_append]
    generalize (List.range n).foldl (fun x l => if f l then x + 2 ^ l else x) 0 = x at ih
    obtain ⟨hx, hb⟩ := ih
    simp only [List.foldl_cons, List.foldl_nil]
    cases hf : f n with
    | false =>
      refine ⟨by simp only [Bool.false_eq_true, if_false, Nat.pow_succ]; omega, fun i => ?_⟩
      simp only [Bool.false_eq_true, if_false, hb]
      by_cases hi : i = n
      · subst hi; simp [hf]
      · have : (i < n + 1) ↔ i < n := by omega
        simp [this]
    | true =>
      refine ⟨by simp only [if_true, Nat.pow_succ]; omega, fun i => ?_⟩
      simp only [if_true]
      rw [Nat.add_comm]
      by_cases hi : i = n
      · subst hi
        rw [Nat.testBit_two_pow_add_eq, hb]
        simp [hf]
      · by_cases hlt : i < n
        · rw [Nat.testBit_two_pow_add_gt hlt, hb]
          have : i < n + 1 := by omega
          simp [hlt, this]
        · have h1 : 2 ^ n + x < 2 ^ i := by
            have : 2 ^ (n + 1) ≤ 2 ^ i := Nat.pow_le_pow_right (by decide) (by omega)
            rw [Nat.pow_succ] at this
            omega
          rw [Nat.testBit_lt_two_pow h1]
          have : ¬ i < n + 1 := by omega
          simp [this]

/-- The mask of a property of lanes has exactly the lanes with the property. -/
theorem inMask_maskOf (f : Nat → Bool) (l : Nat) (h : l < 64) : inMask (maskOf f) l = f l := by
  unfold inMask maskOf allLanes laneCount
  rw [BitVec.getLsbD_ofNat, (maskSum f 64).2]
  simp [h]

theorem maskOf_inMask (m : LaneMask) : maskOf (inMask m) = m := by
  apply BitVec.eq_of_getLsbD_eq
  intro i hi
  exact inMask_maskOf (inMask m) i hi

theorem mask_ext {m n : LaneMask} (h : ∀ l, l < 64 → inMask m l = inMask n l) : m = n :=
  BitVec.eq_of_getLsbD_eq h

@[simp] theorem inMask_and (m n : LaneMask) (l : Nat) : inMask (m &&& n) l = (inMask m l && inMask n l) := by
  simp [inMask]

@[simp] theorem inMask_zero (l : Nat) : inMask 0#64 l = false := by simp [inMask]

theorem lanesOf_zero : lanesOf 0 = [] := by simp [lanesOf, inMask_zero]

theorem lanesOf_eq_nil {m : LaneMask} : lanesOf m = [] ↔ m = 0 := by
  constructor
  · intro h
    apply mask_ext
    intro l hl
    by_contra hc
    have : l ∈ lanesOf m := (mem_lanesOf m l).2 ⟨hl, by simpa using hc⟩
    rw [h] at this
    exact absurd this (List.not_mem_nil)
  · rintro rfl; exact lanesOf_zero

/-! ### Lists of registers -/

theorem nth_nthSet {α : Type} (d x : α) (l : List α) (i j : Nat) :
    nth (nthSet d x l i) j d = if j = i then x else nth l j d := by
  induction l generalizing i j with
  | nil =>
    induction i generalizing j with
    | zero => cases j <;> simp [nthSet, nth]
    | succ i ih =>
      cases j with
      | zero => simp [nthSet, nth]
      | succ j => simpa [nthSet, nth] using ih j
  | cons y r ih =>
    cases i with
    | zero => cases j <;> simp [nthSet, nth]
    | succ i =>
      cases j with
      | zero => simp [nthSet, nth]
      | succ j => simpa [nthSet, nth] using ih i j

/-! ### Tags -/

@[simp] theorem tagAt_tagSet (m : Map Tag) (k j : Nat) (t : Tag) :
    tagAt (tagSet m k t) j = if j = k then t else tagAt m j := by
  unfold tagAt tagSet
  cases t <;> simp [mgetD_mset, mgetD_mdel]

theorem tagAt_foldl_tagSet (f : Nat → Tag) (ls : List Nat) (m : Map Tag) (j : Nat) :
    tagAt (ls.foldl (fun t l => tagSet t l (f l)) m) j = if j ∈ ls then f j else tagAt m j := by
  induction ls generalizing m with
  | nil => simp
  | cons l r ih =>
    rw [List.foldl_cons, ih]
    by_cases hr : j ∈ r
    · simp [hr]
    · by_cases hl : j = l
      · subst hl; simp [hr]
      · simp [hr, hl]

@[simp] theorem mergeTag_clean_left (t : Tag) : mergeTag .clean t = t := by cases t <;> rfl
@[simp] theorem mergeTag_clean_right (t : Tag) : mergeTag t .clean = t := by cases t <;> rfl

/-! ### Varying registers -/

theorem nth_map_allLanes {α : Type} (f : Nat → α) (d : α) (l : Nat) (h : l < 64) : nth (allLanes.map f) l d = f l := by
  simp [nth, allLanes, laneCount, h]

/-- A lane of a register after some lanes were replaced. -/
theorem vLane_vRegMap (r : VReg) (m : LaneMask) (f : Nat → Word × Tag) (l : Nat) (h : l < 64) :
    vLane (vRegMap r m f) l = if inMask m l = true then ⟨(f l).1, (f l).2⟩ else vLane r l := by
  unfold vLane vRegMap
  simp only [nth_map_allLanes _ _ _ h, tagAt_foldl_tagSet, mem_lanesOf, h, true_and]
  split <;> simp

end Sys2Proof.Machine
end

