-- ==== Sys2Proof/Laws/Issue.lean ====
section
/-! SUPPORT. Laws of an issue: that a ready instruction reaches its own meaning, what the end of an issue changes and
what it leaves, and that a write of lane results leaves exactly what R104, R105 and R118 say. -/

namespace Sys2Proof.Machine

/-! ### The write of lane results -/

theorem vLane_mset (m : Map VReg) (k j : Nat) (r : VReg) (l : Nat) :
    vLane (mgetD (mset m k r) j {}) l = if j = k then vLane r l else vLane (mgetD m j {}) l := by
  rw [mgetD_mset]; split <;> rfl

theorem halfOf_zero (x : DWord × Tag) : halfOf 0 x = ⟨x.1.setWidth 32, x.2⟩ := by simp [halfOf]
theorem halfOf_one (x : DWord × Tag) : halfOf 1 x = ⟨(x.1 >>> 32).setWidth 32, x.2⟩ := by simp [halfOf]

/-- A write of lane results changes its destination in the active lanes and nothing else. -/
theorem writeLanes_wrote (c : Ctx) (d : Operand) (wide : Bool) (f : Nat → LaneRes) :
    Wrote c.w (writeLanes c d wide f).w c.act c.skip d wide (fun l => ((f l).1, mergeTags (f l).2.1)) := by
  refine ⟨?_, ?_, ?_, ?_⟩
  · intro k l hl
    cases d with
    | v n =>
      simp only [writeLanes, vAfter]
      cases wide
      · simp only [Bool.false_eq_true, if_false, setV, vLane_mset]
        by_cases hk : k = c.w.wbase + n
        · subst hk
          simp only [if_true, vLane_vRegMap _ _ _ _ hl, halfOf_zero, and_true, false_and, and_false, if_false]
          rfl
        · simp [hk]
      · simp only [if_true, setV, vLane_mset]
        by_cases hk : k = c.w.wbase + n
        · subst hk
          have h2 : ¬ (c.w.wbase + n = c.w.wbase + (n + 1)) := by omega
          simp only [h2, if_false, if_true, vLane_vRegMap _ _ _ _ hl, halfOf_zero, and_true, and_false]
          rfl
        · by_cases hk2 : k = c.w.wbase + (n + 1)
          · subst hk2
            simp only [if_true, vLane_vRegMap _ _ _ _ hl, halfOf_one, and_true, hk, and_false, if_false]
            rfl
          · simp [hk, hk2]
    | s n =>
      simp only [writeLanes]
      split
      · rfl
      · split <;> rfl
    | p n => rfl
    | _ => rfl
  · intro m
    cases d with
    | s n =>
      simp only [writeLanes, sAfter]
      cases hs : c.skip
      · simp only [Bool.false_eq_true, if_false, true_and]
        cases wide
        · simp only [Bool.false_eq_true, if_false, setS, sReg, nth_nthSet, halfOf_zero, false_and]
        · simp only [if_true, setSPair, setS, sReg, nth_nthSet, halfOf_zero, halfOf_one, true_and]
          by_cases h1 : m = n + 1
          · subst h1; simp
          · simp [h1]
      · simp
    | v n => simp only [writeLanes]; split <;> rfl
    | p n => rfl
    | _ => rfl
  · intro n
    cases d with
    | v n => simp only [writeLanes]; split <;> rfl
    | s n => simp only [writeLanes]; split; · rfl
             · split <;> rfl
    | p n => rfl
    | _ => rfl
  · intro m l hl
    cases d with
    | p n =>
      simp only [writeLanes, setP, pReg, nth_nthSet, Operand.p.injEq]
      by_cases h : m = n
      · subst h
        simp only [if_true, inMask_maskOf _ _ hl, tagAt_foldl_tagSet, mem_lanesOf, hl, true_and, and_true]
      · have h' : ¬ n = m := fun e => h e.symm
        simp [h, h']
    | v n => simp only [writeLanes]; split <;> simp [pReg, setV]
    | s n =>
      simp only [writeLanes]
      split
      · simp
      · split <;> simp [pReg, setS, setSPair]
    | _ => simp [writeLanes]

/-- A write of lane results leaves the rest of the wave. -/
theorem writeLanes_rest (c : Ctx) (d : Operand) (wide : Bool) (f : Nat → LaneRes) :
    (writeLanes c d wide f).w.rest = c.w.rest ∧ (writeLanes c d wide f).w.splits = c.w.splits ∧
    (writeLanes c d wide f).w.wstat = c.w.wstat := by
  cases d with
  | v n => simp only [writeLanes]; split <;> exact ⟨rfl, rfl, rfl⟩
  | s n =>
    simp only [writeLanes]
    split
    · exact ⟨rfl, rfl, rfl⟩
    · split <;> exact ⟨rfl, rfl, rfl⟩
  | p n => exact ⟨rfl, rfl, rfl⟩
  | _ => exact ⟨rfl, rfl, rfl⟩

/-! ### A ready instruction reaches its meaning -/

theorem seeTag_clean (tags : Map ProvTag) (p : Nat) : seeTag tags p .clean = .clean := rfl

theorem lowestProv_clean (l : List Tag) (h : ∀ t ∈ l, t = .clean) : lowestProv l = none := by
  unfold lowestProv
  rw [List.filterMap_eq_nil_iff.2]
  · rfl
  · intro t ht; rw [h t ht]

theorem lowestPoison_clean (l : List Tag) (h : ∀ t ∈ l, t = .clean) : lowestPoison l = none := by
  unfold lowestPoison
  rw [List.filterMap_eq_nil_iff.2]
  · rfl
  · intro t ht; rw [h t ht]

/-- Clean tags are consumed without effect. -/
theorem consume_clean (tp : Bool) (m : LaneMask) (f : Nat → List Tag) (whole : Bool)
    (h : ∀ l ∈ lanesOf m, ∀ t ∈ f l, t = .clean) : consume tp m f whole = .goes [] := by
  unfold consume
  dsimp only
  rw [lowestProv_clean]
  · dsimp only
    rw [List.filterMap_eq_nil_iff.2]
    intro l hl
    rw [lowestPoison_clean _ (h l hl)]
    rfl
  · intro t ht
    obtain ⟨l, hl, ht⟩ := List.mem_flatMap.1 ht
    exact h l hl t ht

/-- A ready instruction begins its own meaning, in the state as it stood. -/
theorem issue_go {i : Instr} {s : State} {u : Nat} {w : Wave} {sp : Split} (h : Ready i s u w sp) :
    issue i s = .go (ctxFor s u w sp i) s := by
  unfold issue
  rw [h.cur]
  simp only [h.wave, h.split, h.free, h.clear, Bool.false_eq_true, if_false]
  rcases h.guard with hg | hg | hg
  · simp [hg]
  · simp [hg]
  · split
    · rw [consume_clean]
      intro l hl t ht
      simp only [guardTag, List.mem_singleton] at ht
      rw [ht]
      show seeTag s.tags w.part (tagAt (pReg w (guardReg sp.mode)).tags l) = .clean
      rw [hg l hl]
      rfl
    · rfl

/-- With room on its flag an operation issues as its meaning says (R38). -/
theorem unlessFull_room (s t : State) {u : Nat} {w : Wave} {sp : Split} {i : Instr} (h : flagFull w sp i = false) :
    unlessFull s t u w sp i = t := by simp [unlessFull, h]

theorem run_ready {i : Instr} {s : State} {u : Nat} {w : Wave} {sp : Split} (h : Ready i s u w sp)
    (k : State → Ctx → State) : run i s k = .next (k s (ctxFor s u w sp i)) := by
  unfold run
  rw [issue_go h]
  exact congrArg _ (unlessFull_room s _ h.room)

theorem runAlu_ready {i : Instr} {s : State} {u : Nat} {w : Wave} {sp : Split} (h : Ready i s u w sp)
    (f : Ctx → Except (Cause × Word) Alu) : runAlu i s f = .next (finishAlu s (ctxFor s u w sp i) (f (ctxFor s u w sp i))) :=
  run_ready h _

/-- Tags that are clean are consumed without any effect. -/
theorem consumeThen_clean (s : State) (c : Ctx) (m : LaneMask) (f : Nat → List Tag) (whole : Bool)
    (k : State → Ctx → State) (h : ∀ l ∈ lanesOf m, ∀ t ∈ f l, t = .clean) : consumeThen s c m f whole k = k s c := by
  unfold consumeThen
  rw [consume_clean _ _ _ _ h]
  rfl

theorem consumeAll_clean (s : State) (c : Ctx) (tags : List Tag) (k : State → Ctx → State) (h : ∀ t ∈ tags, t = .clean) :
    consumeAll s c tags k = k s c :=
  consumeThen_clean s c _ _ _ k (fun _ _ => h)

/-! ### The end of an issue -/

/-- Deferred splits that come back change the split table, the deferred stack and their counters only. -/
theorem popDeferred_fields (n : Nat) (w : Wave) :
    (popDeferred n w).rest = w.rest ∧ (popDeferred n w).v = w.v ∧ (popDeferred n w).s = w.s ∧
    (popDeferred n w).a = w.a ∧ (popDeferred n w).p = w.p ∧ (popDeferred n w).wstat = w.wstat ∧
    (popDeferred n w).sig = w.sig ∧ (popDeferred n w).wdog = w.wdog ∧ (popDeferred n w).nextIssue = w.nextIssue := by
  induction n generalizing w with
  | zero => exact ⟨rfl, rfl, rfl, rfl, rfl, rfl, rfl, rfl, rfl⟩
  | succ n ih =>
    unfold popDeferred
    split
    · exact ih _
    · exact ⟨rfl, rfl, rfl, rfl, rfl, rfl, rfl, rfl, rfl⟩

theorem find?_append_of_find? {α : Type} (p : α → Bool) (l r : List α) (x : α) (h : l.find? p = some x) :
    (l ++ r).find? p = some x := by
  rw [List.find?_append, h]; rfl

theorem splitOf_popDeferred (n : Nat) (w : Wave) (e : Nat) (x : Split) (h : splitOf w e = some x) :
    splitOf (popDeferred n w) e = some x := by
  induction n generalizing w with
  | zero => exact h
  | succ n ih =>
    unfold popDeferred
    split
    · exact ih _ (find?_append_of_find? _ _ _ _ h)
    · exact h

/-- A split changed in its place in the table is found there. -/
theorem splitOf_map (l : List Split) (e : Nat) (x : Split) (f : Split → Split) (hf : (f x).entry = x.entry)
    (h : l.find? (fun y => decide (y.entry = e)) = some x) :
    (l.map (fun y => if y.entry = e then f y else y)).find? (fun y => decide (y.entry = e)) = some (f x) := by
  induction l with
  | nil => simp at h
  | cons y r ih =>
    simp only [List.find?_cons] at h
    simp only [List.map_cons, List.find?_cons]
    by_cases hy : y.entry = e
    · simp only [hy, decide_true, Option.some.injEq] at h
      subst h
      simp [hy, hf]
    · simp only [hy, decide_false] at h
      simp only [hy, if_false, decide_false]
      exact ih h

theorem splitOf_entry {w : Wave} {e : Nat} {x : Split} (h : splitOf w e = some x) : x.entry = e := by
  have := List.find?_some h
  simpa using this

/-- The wave after the end of an issue, before deferred splits come back. -/
def issuedWave (s : State) (c : Ctx) (w : Wave) (sticky : Sticky) (f : Split → Split) : Wave :=
  { (stampRun c w).1 with
    sig := nextSig c, wdog := nextWdog c, nextIssue := s.now + Config.barrel, wstat := w.wstat ||| sticky, waitTag := none
    splits := w.splits.map (fun x => if x.entry = c.sp.entry then f x else x) }

theorem finishBy_wave (s : State) (c : Ctx) (w : Wave) (st : Sticky) (ps : List (Nat × Nat)) (f : Split → Split) :
    mget (finishBy s c w st ps f).waves c.uid = some (popDeferred 4 (issuedWave s c w st f)) := by
  simp only [finishBy, putWave, charge, modCore, mget_mset_self]
  rfl

theorem finishBy_held (s : State) (c : Ctx) (w : Wave) (st : Sticky) (ps : List (Nat × Nat)) (f : Split → Split) :
    (finishBy s c w st ps f).held = s.held := rfl

/-- The end of an issue leaves everything outside the wave. -/
theorem finishBy_apart (s : State) (c : Ctx) (w : Wave) (st : Sticky) (ps : List (Nat × Nat)) (f : Split → Split) :
    Apart s (finishBy s c w st ps f) c.uid where
  view _ _ := rfl
  home _ := ⟨rfl, rfl⟩
  blocks := rfl
  others x hx := by
    simp only [finishBy, putWave, charge, modCore]
    exact mget_mset_ne _ _ hx
  grids := rfl
  ctxs := rfl
  parts := rfl
  dies := rfl
  hubs := rfl
  images := rfl
  streams := rfl
  ports := rfl
  flights := rfl
  now := rfl

theorem waveOf_eq {s : State} {u : Nat} {w : Wave} (h : mget s.waves u = some w) : waveOf s u = w := by
  simp [waveOf, mgetD, h]

theorem stampRun_plain (c : Ctx) (w : Wave) (h : c.sp.trump = none) : stampRun c w = (w, []) := by
  simp [stampRun, runTag, h]

theorem stepOver_entry (sp : Split) (n : Nat) : (stepOver sp n).entry = sp.entry := by
  unfold stepOver
  split
  · rfl
  · dsimp only
    split
    · split <;> rfl
    · rfl

/-- What the tags of a run change: registers and their tags. -/
theorem stampReg_rest (m : LaneMask) (t : Tag) (x : Wave × List (Nat × Nat)) (r : RegRef) :
    (stampReg m t x r).1.rest = x.1.rest := by
  unfold stampReg
  cases r with
  | v n => rfl
  | p n => rfl
  | s n => dsimp only; split <;> rfl
  | a n => dsimp only; split <;> rfl
  | acc n => rfl

theorem foldl_stampReg_rest (m : LaneMask) (t : Tag) (l : List RegRef) (x : Wave × List (Nat × Nat)) :
    (l.foldl (stampReg m t) x).1.rest = x.1.rest := by
  induction l generalizing x with
  | nil => rfl
  | cons r l ih => rw [List.foldl_cons, ih, stampReg_rest]

theorem stampRun_rest (c : Ctx) (w : Wave) : (stampRun c w).1.rest = w.rest := by
  unfold stampRun
  split
  · exact foldl_stampReg_rest _ _ _ _
  · rfl

/-- The end of an issue of a ready instruction: the wave it leaves has issued, and its split is what `f` makes of it. -/
theorem finishBy_issued {i : Instr} {s s1 : State} {u : Nat} {w : Wave} {sp : Split} (hs : splitOf w sp.entry = some sp)
    (w' : Wave) (hw : w'.splits = w.splits) (st : Sticky) (ps : List (Nat × Nat)) (f : Split → Split)
    (hf : (f sp).entry = sp.entry) (hn : s1.now = s.now) (c : Ctx) (hc : c = ctxFor s u w sp i)
    (ha : Apart s (finishBy s1 c w' st ps f) u) :
    Issued i s (finishBy s1 c w' st ps f) u w (waveOf (finishBy s1 c w' st ps f) u) sp (f sp) := by
  subst hc
  have hmem : mget (finishBy s1 (ctxFor s u w sp i) w' st ps f).waves u =
      some (popDeferred 4 (issuedWave s1 (ctxFor s u w sp i) w' st f)) := finishBy_wave _ _ _ _ _ _
  have hp := popDeferred_fields 4 (issuedWave s1 (ctxFor s u w sp i) w' st f)
  rw [waveOf_eq hmem]
  refine ⟨hmem, ha, ?_, ?_, ?_, ?_⟩
  · apply splitOf_popDeferred
    show (w'.splits.map _).find? _ = _
    rw [hw]
    exact splitOf_map _ _ _ f hf hs
  · intro ht
    rw [hp.2.2.2.2.2.2.1]
    show nextSig (ctxFor s u w sp i) = _
    unfold nextSig
    rw [show (ctxFor s u w sp i).sp.trump = none from ht]
    rfl
  · intro ht
    rw [hp.2.2.2.2.2.2.2.1]
    show nextWdog (ctxFor s u w sp i) = _
    unfold nextWdog
    rw [show (ctxFor s u w sp i).sp.trump = none from ht]
    rfl
  · rw [hp.2.2.2.2.2.2.2.2]
    show s1.now + _ = _
    rw [hn]

/-- An issue that ends at the next word, in the state as it stood. -/
theorem finish_issued {i : Instr} {s : State} {u : Nat} {w : Wave} {sp : Split} (hs : splitOf w sp.entry = some sp)
    (w' : Wave) (hw : w'.splits = w.splits) (st : Sticky) (ps : List (Nat × Nat)) :
    Issued i s (finish s (ctxFor s u w sp i) w' st ps) u w (waveOf (finish s (ctxFor s u w sp i) w' st ps) u) sp
      (stepOver sp (1 + i.lits.length)) :=
  finishBy_issued hs w' hw st ps _ (stepOver_entry sp _) rfl _ rfl (finishBy_apart _ _ _ _ _ _)

/-- The rest of a wave's record after the end of an issue is that of the wave handed to it. -/
theorem finishBy_rest (s : State) (c : Ctx) (w : Wave) (st : Sticky) (ps : List (Nat × Nat)) (f : Split → Split) :
    (waveOf (finishBy s c w st ps f) c.uid).rest = w.rest := by
  rw [waveOf_eq (finishBy_wave s c w st ps f), (popDeferred_fields 4 _).1]
  exact stampRun_rest c w

/-- Registers of a wave after a plain issue are those handed to its end. -/
theorem finishBy_regs (s : State) (c : Ctx) (w : Wave) (st : Sticky) (ps : List (Nat × Nat)) (f : Split → Split)
    (h : c.sp.trump = none) :
    (waveOf (finishBy s c w st ps f) c.uid).v = w.v ∧ (waveOf (finishBy s c w st ps f) c.uid).s = w.s ∧
    (waveOf (finishBy s c w st ps f) c.uid).a = w.a ∧ (waveOf (finishBy s c w st ps f) c.uid).p = w.p ∧
    (waveOf (finishBy s c w st ps f) c.uid).wstat = w.wstat ||| st := by
  obtain ⟨-, h1, h2, h3, h4, h5, -⟩ := popDeferred_fields 4 (issuedWave s c w st f)
  rw [waveOf_eq (finishBy_wave s c w st ps f), h1, h2, h3, h4, h5]
  simp [issuedWave, stampRun_plain c w h]

/-- Two waves with the same registers are written alike. -/
theorem wrote_of_regs {w w' x : Wave} {act : LaneMask} {skip : Bool} {d : Operand} {wide : Bool} {f : Nat → DWord × Tag}
    (h : Wrote w x act skip d wide f) (hv : w'.v = x.v) (hs : w'.s = x.s) (ha : w'.a = x.a) (hp : w'.p = x.p) :
    Wrote w w' act skip d wide f := by
  obtain ⟨h1, h2, h3, h4⟩ := h
  refine ⟨?_, ?_, ?_, ?_⟩
  · rw [hv]; exact h1
  · simp only [sReg, hs]; exact h2
  · simp only [aReg, ha]; exact h3
  · simp only [pReg, hp]; exact h4

/-- The end of a plain register instruction whose results `f` were written into `d`. -/
theorem finish_wroteBy {i : Instr} {s : State} {u : Nat} {w : Wave} {sp : Split} (hs : splitOf w sp.entry = some sp)
    (ht : sp.trump = none) (d : Operand) (wide : Bool) (f : Nat → LaneRes) (st : Sticky) (ps : List (Nat × Nat)) :
    WroteBy i s (finish s (ctxFor s u w sp i) (writeLanes (ctxFor s u w sp i) d wide f).w st ps) u w sp d wide
      (fun l => ((f l).1, mergeTags (f l).2.1)) := by
  have hr := writeLanes_rest (ctxFor s u w sp i) d wide f
  obtain ⟨hv, hu, ha, hp, -⟩ := finishBy_regs s (ctxFor s u w sp i) (writeLanes (ctxFor s u w sp i) d wide f).w st ps
    (fun x => stepOver x (ctxFor s u w sp i).len) ht
  exact ⟨finish_issued hs _ hr.2.1 st ps, (finishBy_rest _ _ _ _ _ _).trans hr.1, rfl,
    wrote_of_regs (writeLanes_wrote (ctxFor s u w sp i) d wide f) hv hu ha hp⟩

/-! ### Issues that end elsewhere, or after an effect was held -/

theorem apart_refl (s : State) (u : Nat) : Apart s s u :=
  ⟨fun _ _ => rfl, fun _ => ⟨rfl, rfl⟩, rfl, fun _ _ => rfl, rfl, rfl, rfl, rfl, rfl, rfl, rfl, rfl, rfl, rfl⟩

theorem apart_trans {s t r : State} {u : Nat} (h : Apart s t u) (k : Apart t r u) : Apart s r u where
  view d a := (k.view d a).trans (h.view d a)
  home a := ⟨(k.home a).1.trans (h.home a).1, (k.home a).2.trans (h.home a).2⟩
  blocks := k.blocks.trans h.blocks
  others x hx := (k.others x hx).trans (h.others x hx)
  grids := k.grids.trans h.grids
  ctxs := k.ctxs.trans h.ctxs
  parts := k.parts.trans h.parts
  dies := k.dies.trans h.dies
  hubs := k.hubs.trans h.hubs
  images := k.images.trans h.images
  streams := k.streams.trans h.streams
  ports := k.ports.trans h.ports
  flights := k.flights.trans h.flights
  now := k.now.trans h.now

/-- Holding an effect leaves everything that an instruction could read. -/
theorem hold_apart (s : State) (u v : Nat) (e : Effect) (o : Option Nat) : Apart s (hold s u e o).2 v :=
  ⟨fun _ _ => rfl, fun _ => ⟨rfl, rfl⟩, rfl, fun _ _ => rfl, rfl, rfl, rfl, rfl, rfl, rfl, rfl, rfl, rfl, rfl⟩

/-- A number drawn leaves everything that an instruction could read. -/
theorem nextId_apart (s : State) (n v : Nat) : Apart s { s with nextId := n } v :=
  ⟨fun _ _ => rfl, fun _ => ⟨rfl, rfl⟩, rfl, fun _ _ => rfl, rfl, rfl, rfl, rfl, rfl, rfl, rfl, rfl, rfl, rfl⟩

/-- The effect held is the newest, of the wave's core, seat and block, and due D cycles later (R226). -/
theorem hold_newest (s : State) (u : Nat) (e : Effect) (o : Option Nat) : (hold s u e o).2.held = s.held ++
    [{ id := s.nextId, issued := s.now, due := s.now + Config.holdback, core := (waveOf s u).core
       seat := some (waveOf s u).seat, wave := u, block := (waveOf s u).block, eff := e, op := o }] := rfl

/-- An issue of plain code that ends with the split at `f sp` and hands on wave `w'`, in a state `s1` that differs from `s`
in nothing an instruction could read. -/
theorem finishBy_facts {i : Instr} {s s1 : State} {u : Nat} {w : Wave} {sp : Split} (hs : splitOf w sp.entry = some sp)
    (ht : sp.trump = none) (h1 : Apart s s1 u) (w' : Wave) (hw : w'.splits = w.splits) (st : Sticky)
    (ps : List (Nat × Nat)) (f : Split → Split) (hf : (f sp).entry = sp.entry) :
    Issued i s (finishBy s1 (ctxFor s u w sp i) w' st ps f) u w
      (waveOf (finishBy s1 (ctxFor s u w sp i) w' st ps f) u) sp (f sp) ∧
    (waveOf (finishBy s1 (ctxFor s u w sp i) w' st ps f) u).rest = w'.rest ∧
    (waveOf (finishBy s1 (ctxFor s u w sp i) w' st ps f) u).v = w'.v ∧
    (waveOf (finishBy s1 (ctxFor s u w sp i) w' st ps f) u).s = w'.s ∧
    (waveOf (finishBy s1 (ctxFor s u w sp i) w' st ps f) u).a = w'.a ∧
    (waveOf (finishBy s1 (ctxFor s u w sp i) w' st ps f) u).p = w'.p ∧
    (waveOf (finishBy s1 (ctxFor s u w sp i) w' st ps f) u).wstat = w'.wstat ||| st := by
  have hr := finishBy_regs s1 (ctxFor s u w sp i) w' st ps f ht
  exact ⟨finishBy_issued hs w' hw st ps f hf h1.now _ rfl (apart_trans h1 (finishBy_apart _ _ _ _ _ _)),
    finishBy_rest s1 (ctxFor s u w sp i) w' st ps f, hr.1, hr.2.1, hr.2.2.1, hr.2.2.2.1, hr.2.2.2.2⟩

theorem regsSame_of {w w' : Wave} (hv : w'.v = w.v) (hs : w'.s = w.s) (ha : w'.a = w.a) (hp : w'.p = w.p) :
    RegsSame w w' :=
  ⟨fun k l => by rw [hv], fun n => by unfold sReg; rw [hs], fun n => by unfold aReg; rw [ha],
    fun n => by unfold pReg; rw [hp]⟩

/-- An issue of plain code that hands on the wave as it stood passes by. -/
theorem finishBy_passed {i : Instr} {s s1 : State} {u : Nat} {w : Wave} {sp : Split} (hs : splitOf w sp.entry = some sp)
    (ht : sp.trump = none) (h1 : Apart s s1 u) (f : Split → Split) (hf : (f sp).entry = sp.entry) :
    PassedBy i s (finishBy s1 (ctxFor s u w sp i) w 0 [] f) u w sp (f sp) := by
  obtain ⟨h, hr, hv, hu, ha, hp, hw⟩ := finishBy_facts (i := i) hs ht h1 w rfl 0 [] f hf
  exact ⟨h, hr, regsSame_of hv hu ha hp, hw.trans BitVec.or_zero⟩

/-- A `nop`-like end of an issue passes by. -/
theorem finishNop_passed {i : Instr} {s s1 : State} {u : Nat} {w : Wave} {sp : Split} (hs : splitOf w sp.entry = some sp)
    (ht : sp.trump = none) (h1 : Apart s s1 u) :
    PassedBy i s (finishNop s1 (ctxFor s u w sp i)) u w sp (stepOver sp (1 + i.lits.length)) :=
  finishBy_passed hs ht h1 _ (stepOver_entry sp _)

end Sys2Proof.Machine
end

