-- ==== Sys2Proof/Laws/State.lean ====
section
/-! SUPPORT. One law per field of the state for each shared update, so that no proof unfolds a record update; and what a
map of the state reads after it was changed. -/

namespace Sys2Proof.Machine

/-! ### putWave -/

@[simp] theorem putWave_now (s : State) (u : Nat) (w : Wave) :
    (putWave s u w).now = s.now := rfl
@[simp] theorem putWave_nextId (s : State) (u : Nat) (w : Wave) :
    (putWave s u w).nextId = s.nextId := rfl
@[simp] theorem putWave_cur (s : State) (u : Nat) (w : Wave) :
    (putWave s u w).cur = s.cur := rfl
@[simp] theorem putWave_inputs (s : State) (u : Nat) (w : Wave) :
    (putWave s u w).inputs = s.inputs := rfl
@[simp] theorem putWave_waves (s : State) (u : Nat) (w : Wave) :
    (putWave s u w).waves = mset s.waves u w := rfl
@[simp] theorem putWave_blocks (s : State) (u : Nat) (w : Wave) :
    (putWave s u w).blocks = s.blocks := rfl
@[simp] theorem putWave_grids (s : State) (u : Nat) (w : Wave) :
    (putWave s u w).grids = s.grids := rfl
@[simp] theorem putWave_ctxs (s : State) (u : Nat) (w : Wave) :
    (putWave s u w).ctxs = s.ctxs := rfl
@[simp] theorem putWave_parts (s : State) (u : Nat) (w : Wave) :
    (putWave s u w).parts = s.parts := rfl
@[simp] theorem putWave_cores (s : State) (u : Nat) (w : Wave) :
    (putWave s u w).cores = s.cores := rfl
@[simp] theorem putWave_dies (s : State) (u : Nat) (w : Wave) :
    (putWave s u w).dies = s.dies := rfl
@[simp] theorem putWave_hubs (s : State) (u : Nat) (w : Wave) :
    (putWave s u w).hubs = s.hubs := rfl
@[simp] theorem putWave_held (s : State) (u : Nat) (w : Wave) :
    (putWave s u w).held = s.held := rfl
@[simp] theorem putWave_mem (s : State) (u : Nat) (w : Wave) :
    (putWave s u w).mem = s.mem := rfl
@[simp] theorem putWave_memTags (s : State) (u : Nat) (w : Wave) :
    (putWave s u w).memTags = s.memTags := rfl
@[simp] theorem putWave_lags (s : State) (u : Nat) (w : Wave) :
    (putWave s u w).lags = s.lags := rfl
@[simp] theorem putWave_flights (s : State) (u : Nat) (w : Wave) :
    (putWave s u w).flights = s.flights := rfl
@[simp] theorem putWave_heads (s : State) (u : Nat) (w : Wave) :
    (putWave s u w).heads = s.heads := rfl
@[simp] theorem putWave_homeSeq (s : State) (u : Nat) (w : Wave) :
    (putWave s u w).homeSeq = s.homeSeq := rfl
@[simp] theorem putWave_tags (s : State) (u : Nat) (w : Wave) :
    (putWave s u w).tags = s.tags := rfl
@[simp] theorem putWave_images (s : State) (u : Nat) (w : Wave) :
    (putWave s u w).images = s.images := rfl
@[simp] theorem putWave_streams (s : State) (u : Nat) (w : Wave) :
    (putWave s u w).streams = s.streams := rfl
@[simp] theorem putWave_ports (s : State) (u : Nat) (w : Wave) :
    (putWave s u w).ports = s.ports := rfl
@[simp] theorem putWave_mplan (s : State) (u : Nat) (w : Wave) :
    (putWave s u w).mplan = s.mplan := rfl
@[simp] theorem putWave_undo (s : State) (u : Nat) (w : Wave) :
    (putWave s u w).undo = s.undo := rfl
@[simp] theorem putWave_arrivals (s : State) (u : Nat) (w : Wave) :
    (putWave s u w).arrivals = s.arrivals := rfl

/-! ### modWave -/

@[simp] theorem modWave_now (s : State) (u : Nat) (f : Wave → Wave) :
    (modWave s u f).now = s.now := rfl
@[simp] theorem modWave_nextId (s : State) (u : Nat) (f : Wave → Wave) :
    (modWave s u f).nextId = s.nextId := rfl
@[simp] theorem modWave_cur (s : State) (u : Nat) (f : Wave → Wave) :
    (modWave s u f).cur = s.cur := rfl
@[simp] theorem modWave_inputs (s : State) (u : Nat) (f : Wave → Wave) :
    (modWave s u f).inputs = s.inputs := rfl
@[simp] theorem modWave_waves (s : State) (u : Nat) (f : Wave → Wave) :
    (modWave s u f).waves = mmod s.waves u f := rfl
@[simp] theorem modWave_blocks (s : State) (u : Nat) (f : Wave → Wave) :
    (modWave s u f).blocks = s.blocks := rfl
@[simp] theorem modWave_grids (s : State) (u : Nat) (f : Wave → Wave) :
    (modWave s u f).grids = s.grids := rfl
@[simp] theorem modWave_ctxs (s : State) (u : Nat) (f : Wave → Wave) :
    (modWave s u f).ctxs = s.ctxs := rfl
@[simp] theorem modWave_parts (s : State) (u : Nat) (f : Wave → Wave) :
    (modWave s u f).parts = s.parts := rfl
@[simp] theorem modWave_cores (s : State) (u : Nat) (f : Wave → Wave) :
    (modWave s u f).cores = s.cores := rfl
@[simp] theorem modWave_dies (s : State) (u : Nat) (f : Wave → Wave) :
    (modWave s u f).dies = s.dies := rfl
@[simp] theorem modWave_hubs (s : State) (u : Nat) (f : Wave → Wave) :
    (modWave s u f).hubs = s.hubs := rfl
@[simp] theorem modWave_held (s : State) (u : Nat) (f : Wave → Wave) :
    (modWave s u f).held = s.held := rfl
@[simp] theorem modWave_mem (s : State) (u : Nat) (f : Wave → Wave) :
    (modWave s u f).mem = s.mem := rfl
@[simp] theorem modWave_memTags (s : State) (u : Nat) (f : Wave → Wave) :
    (modWave s u f).memTags = s.memTags := rfl
@[simp] theorem modWave_lags (s : State) (u : Nat) (f : Wave → Wave) :
    (modWave s u f).lags = s.lags := rfl
@[simp] theorem modWave_flights (s : State) (u : Nat) (f : Wave → Wave) :
    (modWave s u f).flights = s.flights := rfl
@[simp] theorem modWave_heads (s : State) (u : Nat) (f : Wave → Wave) :
    (modWave s u f).heads = s.heads := rfl
@[simp] theorem modWave_homeSeq (s : State) (u : Nat) (f : Wave → Wave) :
    (modWave s u f).homeSeq = s.homeSeq := rfl
@[simp] theorem modWave_tags (s : State) (u : Nat) (f : Wave → Wave) :
    (modWave s u f).tags = s.tags := rfl
@[simp] theorem modWave_images (s : State) (u : Nat) (f : Wave → Wave) :
    (modWave s u f).images = s.images := rfl
@[simp] theorem modWave_streams (s : State) (u : Nat) (f : Wave → Wave) :
    (modWave s u f).streams = s.streams := rfl
@[simp] theorem modWave_ports (s : State) (u : Nat) (f : Wave → Wave) :
    (modWave s u f).ports = s.ports := rfl
@[simp] theorem modWave_mplan (s : State) (u : Nat) (f : Wave → Wave) :
    (modWave s u f).mplan = s.mplan := rfl
@[simp] theorem modWave_undo (s : State) (u : Nat) (f : Wave → Wave) :
    (modWave s u f).undo = s.undo := rfl
@[simp] theorem modWave_arrivals (s : State) (u : Nat) (f : Wave → Wave) :
    (modWave s u f).arrivals = s.arrivals := rfl

/-! ### putBlock -/

@[simp] theorem putBlock_now (s : State) (k : Nat) (b : Block) :
    (putBlock s k b).now = s.now := rfl
@[simp] theorem putBlock_nextId (s : State) (k : Nat) (b : Block) :
    (putBlock s k b).nextId = s.nextId := rfl
@[simp] theorem putBlock_cur (s : State) (k : Nat) (b : Block) :
    (putBlock s k b).cur = s.cur := rfl
@[simp] theorem putBlock_inputs (s : State) (k : Nat) (b : Block) :
    (putBlock s k b).inputs = s.inputs := rfl
@[simp] theorem putBlock_waves (s : State) (k : Nat) (b : Block) :
    (putBlock s k b).waves = s.waves := rfl
@[simp] theorem putBlock_blocks (s : State) (k : Nat) (b : Block) :
    (putBlock s k b).blocks = mset s.blocks k b := rfl
@[simp] theorem putBlock_grids (s : State) (k : Nat) (b : Block) :
    (putBlock s k b).grids = s.grids := rfl
@[simp] theorem putBlock_ctxs (s : State) (k : Nat) (b : Block) :
    (putBlock s k b).ctxs = s.ctxs := rfl
@[simp] theorem putBlock_parts (s : State) (k : Nat) (b : Block) :
    (putBlock s k b).parts = s.parts := rfl
@[simp] theorem putBlock_cores (s : State) (k : Nat) (b : Block) :
    (putBlock s k b).cores = s.cores := rfl
@[simp] theorem putBlock_dies (s : State) (k : Nat) (b : Block) :
    (putBlock s k b).dies = s.dies := rfl
@[simp] theorem putBlock_hubs (s : State) (k : Nat) (b : Block) :
    (putBlock s k b).hubs = s.hubs := rfl
@[simp] theorem putBlock_held (s : State) (k : Nat) (b : Block) :
    (putBlock s k b).held = s.held := rfl
@[simp] theorem putBlock_mem (s : State) (k : Nat) (b : Block) :
    (putBlock s k b).mem = s.mem := rfl
@[simp] theorem putBlock_memTags (s : State) (k : Nat) (b : Block) :
    (putBlock s k b).memTags = s.memTags := rfl
@[simp] theorem putBlock_lags (s : State) (k : Nat) (b : Block) :
    (putBlock s k b).lags = s.lags := rfl
@[simp] theorem putBlock_flights (s : State) (k : Nat) (b : Block) :
    (putBlock s k b).flights = s.flights := rfl
@[simp] theorem putBlock_heads (s : State) (k : Nat) (b : Block) :
    (putBlock s k b).heads = s.heads := rfl
@[simp] theorem putBlock_homeSeq (s : State) (k : Nat) (b : Block) :
    (putBlock s k b).homeSeq = s.homeSeq := rfl
@[simp] theorem putBlock_tags (s : State) (k : Nat) (b : Block) :
    (putBlock s k b).tags = s.tags := rfl
@[simp] theorem putBlock_images (s : State) (k : Nat) (b : Block) :
    (putBlock s k b).images = s.images := rfl
@[simp] theorem putBlock_streams (s : State) (k : Nat) (b : Block) :
    (putBlock s k b).streams = s.streams := rfl
@[simp] theorem putBlock_ports (s : State) (k : Nat) (b : Block) :
    (putBlock s k b).ports = s.ports := rfl
@[simp] theorem putBlock_mplan (s : State) (k : Nat) (b : Block) :
    (putBlock s k b).mplan = s.mplan := rfl
@[simp] theorem putBlock_undo (s : State) (k : Nat) (b : Block) :
    (putBlock s k b).undo = s.undo := rfl
@[simp] theorem putBlock_arrivals (s : State) (k : Nat) (b : Block) :
    (putBlock s k b).arrivals = s.arrivals := rfl

/-! ### modBlock -/

@[simp] theorem modBlock_now (s : State) (k : Nat) (f : Block → Block) :
    (modBlock s k f).now = s.now := rfl
@[simp] theorem modBlock_nextId (s : State) (k : Nat) (f : Block → Block) :
    (modBlock s k f).nextId = s.nextId := rfl
@[simp] theorem modBlock_cur (s : State) (k : Nat) (f : Block → Block) :
    (modBlock s k f).cur = s.cur := rfl
@[simp] theorem modBlock_inputs (s : State) (k : Nat) (f : Block → Block) :
    (modBlock s k f).inputs = s.inputs := rfl
@[simp] theorem modBlock_waves (s : State) (k : Nat) (f : Block → Block) :
    (modBlock s k f).waves = s.waves := rfl
@[simp] theorem modBlock_blocks (s : State) (k : Nat) (f : Block → Block) :
    (modBlock s k f).blocks = mmod s.blocks k f := rfl
@[simp] theorem modBlock_grids (s : State) (k : Nat) (f : Block → Block) :
    (modBlock s k f).grids = s.grids := rfl
@[simp] theorem modBlock_ctxs (s : State) (k : Nat) (f : Block → Block) :
    (modBlock s k f).ctxs = s.ctxs := rfl
@[simp] theorem modBlock_parts (s : State) (k : Nat) (f : Block → Block) :
    (modBlock s k f).parts = s.parts := rfl
@[simp] theorem modBlock_cores (s : State) (k : Nat) (f : Block → Block) :
    (modBlock s k f).cores = s.cores := rfl
@[simp] theorem modBlock_dies (s : State) (k : Nat) (f : Block → Block) :
    (modBlock s k f).dies = s.dies := rfl
@[simp] theorem modBlock_hubs (s : State) (k : Nat) (f : Block → Block) :
    (modBlock s k f).hubs = s.hubs := rfl
@[simp] theorem modBlock_held (s : State) (k : Nat) (f : Block → Block) :
    (modBlock s k f).held = s.held := rfl
@[simp] theorem modBlock_mem (s : State) (k : Nat) (f : Block → Block) :
    (modBlock s k f).mem = s.mem := rfl
@[simp] theorem modBlock_memTags (s : State) (k : Nat) (f : Block → Block) :
    (modBlock s k f).memTags = s.memTags := rfl
@[simp] theorem modBlock_lags (s : State) (k : Nat) (f : Block → Block) :
    (modBlock s k f).lags = s.lags := rfl
@[simp] theorem modBlock_flights (s : State) (k : Nat) (f : Block → Block) :
    (modBlock s k f).flights = s.flights := rfl
@[simp] theorem modBlock_heads (s : State) (k : Nat) (f : Block → Block) :
    (modBlock s k f).heads = s.heads := rfl
@[simp] theorem modBlock_homeSeq (s : State) (k : Nat) (f : Block → Block) :
    (modBlock s k f).homeSeq = s.homeSeq := rfl
@[simp] theorem modBlock_tags (s : State) (k : Nat) (f : Block → Block) :
    (modBlock s k f).tags = s.tags := rfl
@[simp] theorem modBlock_images (s : State) (k : Nat) (f : Block → Block) :
    (modBlock s k f).images = s.images := rfl
@[simp] theorem modBlock_streams (s : State) (k : Nat) (f : Block → Block) :
    (modBlock s k f).streams = s.streams := rfl
@[simp] theorem modBlock_ports (s : State) (k : Nat) (f : Block → Block) :
    (modBlock s k f).ports = s.ports := rfl
@[simp] theorem modBlock_mplan (s : State) (k : Nat) (f : Block → Block) :
    (modBlock s k f).mplan = s.mplan := rfl
@[simp] theorem modBlock_undo (s : State) (k : Nat) (f : Block → Block) :
    (modBlock s k f).undo = s.undo := rfl
@[simp] theorem modBlock_arrivals (s : State) (k : Nat) (f : Block → Block) :
    (modBlock s k f).arrivals = s.arrivals := rfl

/-! ### modGrid -/

@[simp] theorem modGrid_now (s : State) (g : Nat) (f : Grid → Grid) :
    (modGrid s g f).now = s.now := rfl
@[simp] theorem modGrid_nextId (s : State) (g : Nat) (f : Grid → Grid) :
    (modGrid s g f).nextId = s.nextId := rfl
@[simp] theorem modGrid_cur (s : State) (g : Nat) (f : Grid → Grid) :
    (modGrid s g f).cur = s.cur := rfl
@[simp] theorem modGrid_inputs (s : State) (g : Nat) (f : Grid → Grid) :
    (modGrid s g f).inputs = s.inputs := rfl
@[simp] theorem modGrid_waves (s : State) (g : Nat) (f : Grid → Grid) :
    (modGrid s g f).waves = s.waves := rfl
@[simp] theorem modGrid_blocks (s : State) (g : Nat) (f : Grid → Grid) :
    (modGrid s g f).blocks = s.blocks := rfl
@[simp] theorem modGrid_grids (s : State) (g : Nat) (f : Grid → Grid) :
    (modGrid s g f).grids = mmod s.grids g f := rfl
@[simp] theorem modGrid_ctxs (s : State) (g : Nat) (f : Grid → Grid) :
    (modGrid s g f).ctxs = s.ctxs := rfl
@[simp] theorem modGrid_parts (s : State) (g : Nat) (f : Grid → Grid) :
    (modGrid s g f).parts = s.parts := rfl
@[simp] theorem modGrid_cores (s : State) (g : Nat) (f : Grid → Grid) :
    (modGrid s g f).cores = s.cores := rfl
@[simp] theorem modGrid_dies (s : State) (g : Nat) (f : Grid → Grid) :
    (modGrid s g f).dies = s.dies := rfl
@[simp] theorem modGrid_hubs (s : State) (g : Nat) (f : Grid → Grid) :
    (modGrid s g f).hubs = s.hubs := rfl
@[simp] theorem modGrid_held (s : State) (g : Nat) (f : Grid → Grid) :
    (modGrid s g f).held = s.held := rfl
@[simp] theorem modGrid_mem (s : State) (g : Nat) (f : Grid → Grid) :
    (modGrid s g f).mem = s.mem := rfl
@[simp] theorem modGrid_memTags (s : State) (g : Nat) (f : Grid → Grid) :
    (modGrid s g f).memTags = s.memTags := rfl
@[simp] theorem modGrid_lags (s : State) (g : Nat) (f : Grid → Grid) :
    (modGrid s g f).lags = s.lags := rfl
@[simp] theorem modGrid_flights (s : State) (g : Nat) (f : Grid → Grid) :
    (modGrid s g f).flights = s.flights := rfl
@[simp] theorem modGrid_heads (s : State) (g : Nat) (f : Grid → Grid) :
    (modGrid s g f).heads = s.heads := rfl
@[simp] theorem modGrid_homeSeq (s : State) (g : Nat) (f : Grid → Grid) :
    (modGrid s g f).homeSeq = s.homeSeq := rfl
@[simp] theorem modGrid_tags (s : State) (g : Nat) (f : Grid → Grid) :
    (modGrid s g f).tags = s.tags := rfl
@[simp] theorem modGrid_images (s : State) (g : Nat) (f : Grid → Grid) :
    (modGrid s g f).images = s.images := rfl
@[simp] theorem modGrid_streams (s : State) (g : Nat) (f : Grid → Grid) :
    (modGrid s g f).streams = s.streams := rfl
@[simp] theorem modGrid_ports (s : State) (g : Nat) (f : Grid → Grid) :
    (modGrid s g f).ports = s.ports := rfl
@[simp] theorem modGrid_mplan (s : State) (g : Nat) (f : Grid → Grid) :
    (modGrid s g f).mplan = s.mplan := rfl
@[simp] theorem modGrid_undo (s : State) (g : Nat) (f : Grid → Grid) :
    (modGrid s g f).undo = s.undo := rfl
@[simp] theorem modGrid_arrivals (s : State) (g : Nat) (f : Grid → Grid) :
    (modGrid s g f).arrivals = s.arrivals := rfl

/-! ### modCtx -/

@[simp] theorem modCtx_now (s : State) (c : Nat) (f : Context → Context) :
    (modCtx s c f).now = s.now := rfl
@[simp] theorem modCtx_nextId (s : State) (c : Nat) (f : Context → Context) :
    (modCtx s c f).nextId = s.nextId := rfl
@[simp] theorem modCtx_cur (s : State) (c : Nat) (f : Context → Context) :
    (modCtx s c f).cur = s.cur := rfl
@[simp] theorem modCtx_inputs (s : State) (c : Nat) (f : Context → Context) :
    (modCtx s c f).inputs = s.inputs := rfl
@[simp] theorem modCtx_waves (s : State) (c : Nat) (f : Context → Context) :
    (modCtx s c f).waves = s.waves := rfl
@[simp] theorem modCtx_blocks (s : State) (c : Nat) (f : Context → Context) :
    (modCtx s c f).blocks = s.blocks := rfl
@[simp] theorem modCtx_grids (s : State) (c : Nat) (f : Context → Context) :
    (modCtx s c f).grids = s.grids := rfl
@[simp] theorem modCtx_ctxs (s : State) (c : Nat) (f : Context → Context) :
    (modCtx s c f).ctxs = mmod s.ctxs c f := rfl
@[simp] theorem modCtx_parts (s : State) (c : Nat) (f : Context → Context) :
    (modCtx s c f).parts = s.parts := rfl
@[simp] theorem modCtx_cores (s : State) (c : Nat) (f : Context → Context) :
    (modCtx s c f).cores = s.cores := rfl
@[simp] theorem modCtx_dies (s : State) (c : Nat) (f : Context → Context) :
    (modCtx s c f).dies = s.dies := rfl
@[simp] theorem modCtx_hubs (s : State) (c : Nat) (f : Context → Context) :
    (modCtx s c f).hubs = s.hubs := rfl
@[simp] theorem modCtx_held (s : State) (c : Nat) (f : Context → Context) :
    (modCtx s c f).held = s.held := rfl
@[simp] theorem modCtx_mem (s : State) (c : Nat) (f : Context → Context) :
    (modCtx s c f).mem = s.mem := rfl
@[simp] theorem modCtx_memTags (s : State) (c : Nat) (f : Context → Context) :
    (modCtx s c f).memTags = s.memTags := rfl
@[simp] theorem modCtx_lags (s : State) (c : Nat) (f : Context → Context) :
    (modCtx s c f).lags = s.lags := rfl
@[simp] theorem modCtx_flights (s : State) (c : Nat) (f : Context → Context) :
    (modCtx s c f).flights = s.flights := rfl
@[simp] theorem modCtx_heads (s : State) (c : Nat) (f : Context → Context) :
    (modCtx s c f).heads = s.heads := rfl
@[simp] theorem modCtx_homeSeq (s : State) (c : Nat) (f : Context → Context) :
    (modCtx s c f).homeSeq = s.homeSeq := rfl
@[simp] theorem modCtx_tags (s : State) (c : Nat) (f : Context → Context) :
    (modCtx s c f).tags = s.tags := rfl
@[simp] theorem modCtx_images (s : State) (c : Nat) (f : Context → Context) :
    (modCtx s c f).images = s.images := rfl
@[simp] theorem modCtx_streams (s : State) (c : Nat) (f : Context → Context) :
    (modCtx s c f).streams = s.streams := rfl
@[simp] theorem modCtx_ports (s : State) (c : Nat) (f : Context → Context) :
    (modCtx s c f).ports = s.ports := rfl
@[simp] theorem modCtx_mplan (s : State) (c : Nat) (f : Context → Context) :
    (modCtx s c f).mplan = s.mplan := rfl
@[simp] theorem modCtx_undo (s : State) (c : Nat) (f : Context → Context) :
    (modCtx s c f).undo = s.undo := rfl
@[simp] theorem modCtx_arrivals (s : State) (c : Nat) (f : Context → Context) :
    (modCtx s c f).arrivals = s.arrivals := rfl

/-! ### modPart -/

@[simp] theorem modPart_now (s : State) (p : Nat) (f : Partition → Partition) :
    (modPart s p f).now = s.now := rfl
@[simp] theorem modPart_nextId (s : State) (p : Nat) (f : Partition → Partition) :
    (modPart s p f).nextId = s.nextId := rfl
@[simp] theorem modPart_cur (s : State) (p : Nat) (f : Partition → Partition) :
    (modPart s p f).cur = s.cur := rfl
@[simp] theorem modPart_inputs (s : State) (p : Nat) (f : Partition → Partition) :
    (modPart s p f).inputs = s.inputs := rfl
@[simp] theorem modPart_waves (s : State) (p : Nat) (f : Partition → Partition) :
    (modPart s p f).waves = s.waves := rfl
@[simp] theorem modPart_blocks (s : State) (p : Nat) (f : Partition → Partition) :
    (modPart s p f).blocks = s.blocks := rfl
@[simp] theorem modPart_grids (s : State) (p : Nat) (f : Partition → Partition) :
    (modPart s p f).grids = s.grids := rfl
@[simp] theorem modPart_ctxs (s : State) (p : Nat) (f : Partition → Partition) :
    (modPart s p f).ctxs = s.ctxs := rfl
@[simp] theorem modPart_parts (s : State) (p : Nat) (f : Partition → Partition) :
    (modPart s p f).parts = mmod s.parts p f := rfl
@[simp] theorem modPart_cores (s : State) (p : Nat) (f : Partition → Partition) :
    (modPart s p f).cores = s.cores := rfl
@[simp] theorem modPart_dies (s : State) (p : Nat) (f : Partition → Partition) :
    (modPart s p f).dies = s.dies := rfl
@[simp] theorem modPart_hubs (s : State) (p : Nat) (f : Partition → Partition) :
    (modPart s p f).hubs = s.hubs := rfl
@[simp] theorem modPart_held (s : State) (p : Nat) (f : Partition → Partition) :
    (modPart s p f).held = s.held := rfl
@[simp] theorem modPart_mem (s : State) (p : Nat) (f : Partition → Partition) :
    (modPart s p f).mem = s.mem := rfl
@[simp] theorem modPart_memTags (s : State) (p : Nat) (f : Partition → Partition) :
    (modPart s p f).memTags = s.memTags := rfl
@[simp] theorem modPart_lags (s : State) (p : Nat) (f : Partition → Partition) :
    (modPart s p f).lags = s.lags := rfl
@[simp] theorem modPart_flights (s : State) (p : Nat) (f : Partition → Partition) :
    (modPart s p f).flights = s.flights := rfl
@[simp] theorem modPart_heads (s : State) (p : Nat) (f : Partition → Partition) :
    (modPart s p f).heads = s.heads := rfl
@[simp] theorem modPart_homeSeq (s : State) (p : Nat) (f : Partition → Partition) :
    (modPart s p f).homeSeq = s.homeSeq := rfl
@[simp] theorem modPart_tags (s : State) (p : Nat) (f : Partition → Partition) :
    (modPart s p f).tags = s.tags := rfl
@[simp] theorem modPart_images (s : State) (p : Nat) (f : Partition → Partition) :
    (modPart s p f).images = s.images := rfl
@[simp] theorem modPart_streams (s : State) (p : Nat) (f : Partition → Partition) :
    (modPart s p f).streams = s.streams := rfl
@[simp] theorem modPart_ports (s : State) (p : Nat) (f : Partition → Partition) :
    (modPart s p f).ports = s.ports := rfl
@[simp] theorem modPart_mplan (s : State) (p : Nat) (f : Partition → Partition) :
    (modPart s p f).mplan = s.mplan := rfl
@[simp] theorem modPart_undo (s : State) (p : Nat) (f : Partition → Partition) :
    (modPart s p f).undo = s.undo := rfl
@[simp] theorem modPart_arrivals (s : State) (p : Nat) (f : Partition → Partition) :
    (modPart s p f).arrivals = s.arrivals := rfl

/-! ### modCore -/

@[simp] theorem modCore_now (s : State) (c : Nat) (f : Core → Core) :
    (modCore s c f).now = s.now := rfl
@[simp] theorem modCore_nextId (s : State) (c : Nat) (f : Core → Core) :
    (modCore s c f).nextId = s.nextId := rfl
@[simp] theorem modCore_cur (s : State) (c : Nat) (f : Core → Core) :
    (modCore s c f).cur = s.cur := rfl
@[simp] theorem modCore_inputs (s : State) (c : Nat) (f : Core → Core) :
    (modCore s c f).inputs = s.inputs := rfl
@[simp] theorem modCore_waves (s : State) (c : Nat) (f : Core → Core) :
    (modCore s c f).waves = s.waves := rfl
@[simp] theorem modCore_blocks (s : State) (c : Nat) (f : Core → Core) :
    (modCore s c f).blocks = s.blocks := rfl
@[simp] theorem modCore_grids (s : State) (c : Nat) (f : Core → Core) :
    (modCore s c f).grids = s.grids := rfl
@[simp] theorem modCore_ctxs (s : State) (c : Nat) (f : Core → Core) :
    (modCore s c f).ctxs = s.ctxs := rfl
@[simp] theorem modCore_parts (s : State) (c : Nat) (f : Core → Core) :
    (modCore s c f).parts = s.parts := rfl
@[simp] theorem modCore_cores (s : State) (c : Nat) (f : Core → Core) :
    (modCore s c f).cores = mset s.cores c (f (coreOf s c)) := rfl
@[simp] theorem modCore_dies (s : State) (c : Nat) (f : Core → Core) :
    (modCore s c f).dies = s.dies := rfl
@[simp] theorem modCore_hubs (s : State) (c : Nat) (f : Core → Core) :
    (modCore s c f).hubs = s.hubs := rfl
@[simp] theorem modCore_held (s : State) (c : Nat) (f : Core → Core) :
    (modCore s c f).held = s.held := rfl
@[simp] theorem modCore_mem (s : State) (c : Nat) (f : Core → Core) :
    (modCore s c f).mem = s.mem := rfl
@[simp] theorem modCore_memTags (s : State) (c : Nat) (f : Core → Core) :
    (modCore s c f).memTags = s.memTags := rfl
@[simp] theorem modCore_lags (s : State) (c : Nat) (f : Core → Core) :
    (modCore s c f).lags = s.lags := rfl
@[simp] theorem modCore_flights (s : State) (c : Nat) (f : Core → Core) :
    (modCore s c f).flights = s.flights := rfl
@[simp] theorem modCore_heads (s : State) (c : Nat) (f : Core → Core) :
    (modCore s c f).heads = s.heads := rfl
@[simp] theorem modCore_homeSeq (s : State) (c : Nat) (f : Core → Core) :
    (modCore s c f).homeSeq = s.homeSeq := rfl
@[simp] theorem modCore_tags (s : State) (c : Nat) (f : Core → Core) :
    (modCore s c f).tags = s.tags := rfl
@[simp] theorem modCore_images (s : State) (c : Nat) (f : Core → Core) :
    (modCore s c f).images = s.images := rfl
@[simp] theorem modCore_streams (s : State) (c : Nat) (f : Core → Core) :
    (modCore s c f).streams = s.streams := rfl
@[simp] theorem modCore_ports (s : State) (c : Nat) (f : Core → Core) :
    (modCore s c f).ports = s.ports := rfl
@[simp] theorem modCore_mplan (s : State) (c : Nat) (f : Core → Core) :
    (modCore s c f).mplan = s.mplan := rfl
@[simp] theorem modCore_undo (s : State) (c : Nat) (f : Core → Core) :
    (modCore s c f).undo = s.undo := rfl
@[simp] theorem modCore_arrivals (s : State) (c : Nat) (f : Core → Core) :
    (modCore s c f).arrivals = s.arrivals := rfl

/-! ### modDie -/

@[simp] theorem modDie_now (s : State) (d : Nat) (f : Die → Die) :
    (modDie s d f).now = s.now := rfl
@[simp] theorem modDie_nextId (s : State) (d : Nat) (f : Die → Die) :
    (modDie s d f).nextId = s.nextId := rfl
@[simp] theorem modDie_cur (s : State) (d : Nat) (f : Die → Die) :
    (modDie s d f).cur = s.cur := rfl
@[simp] theorem modDie_inputs (s : State) (d : Nat) (f : Die → Die) :
    (modDie s d f).inputs = s.inputs := rfl
@[simp] theorem modDie_waves (s : State) (d : Nat) (f : Die → Die) :
    (modDie s d f).waves = s.waves := rfl
@[simp] theorem modDie_blocks (s : State) (d : Nat) (f : Die → Die) :
    (modDie s d f).blocks = s.blocks := rfl
@[simp] theorem modDie_grids (s : State) (d : Nat) (f : Die → Die) :
    (modDie s d f).grids = s.grids := rfl
@[simp] theorem modDie_ctxs (s : State) (d : Nat) (f : Die → Die) :
    (modDie s d f).ctxs = s.ctxs := rfl
@[simp] theorem modDie_parts (s : State) (d : Nat) (f : Die → Die) :
    (modDie s d f).parts = s.parts := rfl
@[simp] theorem modDie_cores (s : State) (d : Nat) (f : Die → Die) :
    (modDie s d f).cores = s.cores := rfl
@[simp] theorem modDie_dies (s : State) (d : Nat) (f : Die → Die) :
    (modDie s d f).dies = mset s.dies d (f (dieOf s d)) := rfl
@[simp] theorem modDie_hubs (s : State) (d : Nat) (f : Die → Die) :
    (modDie s d f).hubs = s.hubs := rfl
@[simp] theorem modDie_held (s : State) (d : Nat) (f : Die → Die) :
    (modDie s d f).held = s.held := rfl
@[simp] theorem modDie_mem (s : State) (d : Nat) (f : Die → Die) :
    (modDie s d f).mem = s.mem := rfl
@[simp] theorem modDie_memTags (s : State) (d : Nat) (f : Die → Die) :
    (modDie s d f).memTags = s.memTags := rfl
@[simp] theorem modDie_lags (s : State) (d : Nat) (f : Die → Die) :
    (modDie s d f).lags = s.lags := rfl
@[simp] theorem modDie_flights (s : State) (d : Nat) (f : Die → Die) :
    (modDie s d f).flights = s.flights := rfl
@[simp] theorem modDie_heads (s : State) (d : Nat) (f : Die → Die) :
    (modDie s d f).heads = s.heads := rfl
@[simp] theorem modDie_homeSeq (s : State) (d : Nat) (f : Die → Die) :
    (modDie s d f).homeSeq = s.homeSeq := rfl
@[simp] theorem modDie_tags (s : State) (d : Nat) (f : Die → Die) :
    (modDie s d f).tags = s.tags := rfl
@[simp] theorem modDie_images (s : State) (d : Nat) (f : Die → Die) :
    (modDie s d f).images = s.images := rfl
@[simp] theorem modDie_streams (s : State) (d : Nat) (f : Die → Die) :
    (modDie s d f).streams = s.streams := rfl
@[simp] theorem modDie_ports (s : State) (d : Nat) (f : Die → Die) :
    (modDie s d f).ports = s.ports := rfl
@[simp] theorem modDie_mplan (s : State) (d : Nat) (f : Die → Die) :
    (modDie s d f).mplan = s.mplan := rfl
@[simp] theorem modDie_undo (s : State) (d : Nat) (f : Die → Die) :
    (modDie s d f).undo = s.undo := rfl
@[simp] theorem modDie_arrivals (s : State) (d : Nat) (f : Die → Die) :
    (modDie s d f).arrivals = s.arrivals := rfl

/-! ### modHub -/

@[simp] theorem modHub_now (s : State) (h : Nat) (f : Hub → Hub) :
    (modHub s h f).now = s.now := rfl
@[simp] theorem modHub_nextId (s : State) (h : Nat) (f : Hub → Hub) :
    (modHub s h f).nextId = s.nextId := rfl
@[simp] theorem modHub_cur (s : State) (h : Nat) (f : Hub → Hub) :
    (modHub s h f).cur = s.cur := rfl
@[simp] theorem modHub_inputs (s : State) (h : Nat) (f : Hub → Hub) :
    (modHub s h f).inputs = s.inputs := rfl
@[simp] theorem modHub_waves (s : State) (h : Nat) (f : Hub → Hub) :
    (modHub s h f).waves = s.waves := rfl
@[simp] theorem modHub_blocks (s : State) (h : Nat) (f : Hub → Hub) :
    (modHub s h f).blocks = s.blocks := rfl
@[simp] theorem modHub_grids (s : State) (h : Nat) (f : Hub → Hub) :
    (modHub s h f).grids = s.grids := rfl
@[simp] theorem modHub_ctxs (s : State) (h : Nat) (f : Hub → Hub) :
    (modHub s h f).ctxs = s.ctxs := rfl
@[simp] theorem modHub_parts (s : State) (h : Nat) (f : Hub → Hub) :
    (modHub s h f).parts = s.parts := rfl
@[simp] theorem modHub_cores (s : State) (h : Nat) (f : Hub → Hub) :
    (modHub s h f).cores = s.cores := rfl
@[simp] theorem modHub_dies (s : State) (h : Nat) (f : Hub → Hub) :
    (modHub s h f).dies = s.dies := rfl
@[simp] theorem modHub_hubs (s : State) (h : Nat) (f : Hub → Hub) :
    (modHub s h f).hubs = mset s.hubs h (f (hubOf s h)) := rfl
@[simp] theorem modHub_held (s : State) (h : Nat) (f : Hub → Hub) :
    (modHub s h f).held = s.held := rfl
@[simp] theorem modHub_mem (s : State) (h : Nat) (f : Hub → Hub) :
    (modHub s h f).mem = s.mem := rfl
@[simp] theorem modHub_memTags (s : State) (h : Nat) (f : Hub → Hub) :
    (modHub s h f).memTags = s.memTags := rfl
@[simp] theorem modHub_lags (s : State) (h : Nat) (f : Hub → Hub) :
    (modHub s h f).lags = s.lags := rfl
@[simp] theorem modHub_flights (s : State) (h : Nat) (f : Hub → Hub) :
    (modHub s h f).flights = s.flights := rfl
@[simp] theorem modHub_heads (s : State) (h : Nat) (f : Hub → Hub) :
    (modHub s h f).heads = s.heads := rfl
@[simp] theorem modHub_homeSeq (s : State) (h : Nat) (f : Hub → Hub) :
    (modHub s h f).homeSeq = s.homeSeq := rfl
@[simp] theorem modHub_tags (s : State) (h : Nat) (f : Hub → Hub) :
    (modHub s h f).tags = s.tags := rfl
@[simp] theorem modHub_images (s : State) (h : Nat) (f : Hub → Hub) :
    (modHub s h f).images = s.images := rfl
@[simp] theorem modHub_streams (s : State) (h : Nat) (f : Hub → Hub) :
    (modHub s h f).streams = s.streams := rfl
@[simp] theorem modHub_ports (s : State) (h : Nat) (f : Hub → Hub) :
    (modHub s h f).ports = s.ports := rfl
@[simp] theorem modHub_mplan (s : State) (h : Nat) (f : Hub → Hub) :
    (modHub s h f).mplan = s.mplan := rfl
@[simp] theorem modHub_undo (s : State) (h : Nat) (f : Hub → Hub) :
    (modHub s h f).undo = s.undo := rfl
@[simp] theorem modHub_arrivals (s : State) (h : Nat) (f : Hub → Hub) :
    (modHub s h f).arrivals = s.arrivals := rfl

/-! ### dropHeld -/

@[simp] theorem dropHeld_now (s : State) (n : Nat) :
    (dropHeld s n).now = s.now := rfl
@[simp] theorem dropHeld_nextId (s : State) (n : Nat) :
    (dropHeld s n).nextId = s.nextId := rfl
@[simp] theorem dropHeld_cur (s : State) (n : Nat) :
    (dropHeld s n).cur = s.cur := rfl
@[simp] theorem dropHeld_inputs (s : State) (n : Nat) :
    (dropHeld s n).inputs = s.inputs := rfl
@[simp] theorem dropHeld_waves (s : State) (n : Nat) :
    (dropHeld s n).waves = s.waves := rfl
@[simp] theorem dropHeld_blocks (s : State) (n : Nat) :
    (dropHeld s n).blocks = s.blocks := rfl
@[simp] theorem dropHeld_grids (s : State) (n : Nat) :
    (dropHeld s n).grids = s.grids := rfl
@[simp] theorem dropHeld_ctxs (s : State) (n : Nat) :
    (dropHeld s n).ctxs = s.ctxs := rfl
@[simp] theorem dropHeld_parts (s : State) (n : Nat) :
    (dropHeld s n).parts = s.parts := rfl
@[simp] theorem dropHeld_cores (s : State) (n : Nat) :
    (dropHeld s n).cores = s.cores := rfl
@[simp] theorem dropHeld_dies (s : State) (n : Nat) :
    (dropHeld s n).dies = s.dies := rfl
@[simp] theorem dropHeld_hubs (s : State) (n : Nat) :
    (dropHeld s n).hubs = s.hubs := rfl
@[simp] theorem dropHeld_held (s : State) (n : Nat) :
    (dropHeld s n).held = s.held.filter (fun x => !decide (x.id = n)) := rfl
@[simp] theorem dropHeld_mem (s : State) (n : Nat) :
    (dropHeld s n).mem = s.mem := rfl
@[simp] theorem dropHeld_memTags (s : State) (n : Nat) :
    (dropHeld s n).memTags = s.memTags := rfl
@[simp] theorem dropHeld_lags (s : State) (n : Nat) :
    (dropHeld s n).lags = s.lags := rfl
@[simp] theorem dropHeld_flights (s : State) (n : Nat) :
    (dropHeld s n).flights = s.flights := rfl
@[simp] theorem dropHeld_heads (s : State) (n : Nat) :
    (dropHeld s n).heads = s.heads := rfl
@[simp] theorem dropHeld_homeSeq (s : State) (n : Nat) :
    (dropHeld s n).homeSeq = s.homeSeq := rfl
@[simp] theorem dropHeld_tags (s : State) (n : Nat) :
    (dropHeld s n).tags = s.tags := rfl
@[simp] theorem dropHeld_images (s : State) (n : Nat) :
    (dropHeld s n).images = s.images := rfl
@[simp] theorem dropHeld_streams (s : State) (n : Nat) :
    (dropHeld s n).streams = s.streams := rfl
@[simp] theorem dropHeld_ports (s : State) (n : Nat) :
    (dropHeld s n).ports = s.ports := rfl
@[simp] theorem dropHeld_mplan (s : State) (n : Nat) :
    (dropHeld s n).mplan = s.mplan := rfl
@[simp] theorem dropHeld_undo (s : State) (n : Nat) :
    (dropHeld s n).undo = s.undo := rfl
@[simp] theorem dropHeld_arrivals (s : State) (n : Nat) :
    (dropHeld s n).arrivals = s.arrivals := rfl

/-! ### hold -/

@[simp] theorem hold_now (s : State) (u : Nat) (e : Effect) (o : Option Nat) :
    (hold s u e o).2.now = s.now := rfl
@[simp] theorem hold_nextId (s : State) (u : Nat) (e : Effect) (o : Option Nat) :
    (hold s u e o).2.nextId = s.nextId + 1 := rfl
@[simp] theorem hold_cur (s : State) (u : Nat) (e : Effect) (o : Option Nat) :
    (hold s u e o).2.cur = s.cur := rfl
@[simp] theorem hold_inputs (s : State) (u : Nat) (e : Effect) (o : Option Nat) :
    (hold s u e o).2.inputs = s.inputs := rfl
@[simp] theorem hold_waves (s : State) (u : Nat) (e : Effect) (o : Option Nat) :
    (hold s u e o).2.waves = s.waves := rfl
@[simp] theorem hold_blocks (s : State) (u : Nat) (e : Effect) (o : Option Nat) :
    (hold s u e o).2.blocks = s.blocks := rfl
@[simp] theorem hold_grids (s : State) (u : Nat) (e : Effect) (o : Option Nat) :
    (hold s u e o).2.grids = s.grids := rfl
@[simp] theorem hold_ctxs (s : State) (u : Nat) (e : Effect) (o : Option Nat) :
    (hold s u e o).2.ctxs = s.ctxs := rfl
@[simp] theorem hold_parts (s : State) (u : Nat) (e : Effect) (o : Option Nat) :
    (hold s u e o).2.parts = s.parts := rfl
@[simp] theorem hold_cores (s : State) (u : Nat) (e : Effect) (o : Option Nat) :
    (hold s u e o).2.cores = s.cores := rfl
@[simp] theorem hold_dies (s : State) (u : Nat) (e : Effect) (o : Option Nat) :
    (hold s u e o).2.dies = s.dies := rfl
@[simp] theorem hold_hubs (s : State) (u : Nat) (e : Effect) (o : Option Nat) :
    (hold s u e o).2.hubs = s.hubs := rfl
@[simp] theorem hold_held (s : State) (u : Nat) (e : Effect) (o : Option Nat) :
    (hold s u e o).2.held = s.held ++ [{ id := s.nextId, issued := s.now, due := s.now + Config.holdback, core := (waveOf s u).core, seat := some (waveOf s u).seat, wave := u, block := (waveOf s u).block, eff := e, op := o }] := rfl
@[simp] theorem hold_mem (s : State) (u : Nat) (e : Effect) (o : Option Nat) :
    (hold s u e o).2.mem = s.mem := rfl
@[simp] theorem hold_memTags (s : State) (u : Nat) (e : Effect) (o : Option Nat) :
    (hold s u e o).2.memTags = s.memTags := rfl
@[simp] theorem hold_lags (s : State) (u : Nat) (e : Effect) (o : Option Nat) :
    (hold s u e o).2.lags = s.lags := rfl
@[simp] theorem hold_flights (s : State) (u : Nat) (e : Effect) (o : Option Nat) :
    (hold s u e o).2.flights = s.flights := rfl
@[simp] theorem hold_heads (s : State) (u : Nat) (e : Effect) (o : Option Nat) :
    (hold s u e o).2.heads = s.heads := rfl
@[simp] theorem hold_homeSeq (s : State) (u : Nat) (e : Effect) (o : Option Nat) :
    (hold s u e o).2.homeSeq = s.homeSeq := rfl
@[simp] theorem hold_tags (s : State) (u : Nat) (e : Effect) (o : Option Nat) :
    (hold s u e o).2.tags = s.tags := rfl
@[simp] theorem hold_images (s : State) (u : Nat) (e : Effect) (o : Option Nat) :
    (hold s u e o).2.images = s.images := rfl
@[simp] theorem hold_streams (s : State) (u : Nat) (e : Effect) (o : Option Nat) :
    (hold s u e o).2.streams = s.streams := rfl
@[simp] theorem hold_ports (s : State) (u : Nat) (e : Effect) (o : Option Nat) :
    (hold s u e o).2.ports = s.ports := rfl
@[simp] theorem hold_mplan (s : State) (u : Nat) (e : Effect) (o : Option Nat) :
    (hold s u e o).2.mplan = s.mplan := rfl
@[simp] theorem hold_undo (s : State) (u : Nat) (e : Effect) (o : Option Nat) :
    (hold s u e o).2.undo = s.undo := rfl
@[simp] theorem hold_arrivals (s : State) (u : Nat) (e : Effect) (o : Option Nat) :
    (hold s u e o).2.arrivals = s.arrivals := rfl

/-! ### setV -/

@[simp] theorem setV_core (w : Wave) (n : Nat) (x : VReg) : (setV w n x).core = w.core := rfl
@[simp] theorem setV_seat (w : Wave) (n : Nat) (x : VReg) : (setV w n x).seat = w.seat := rfl
@[simp] theorem setV_slot (w : Wave) (n : Nat) (x : VReg) : (setV w n x).slot = w.slot := rfl
@[simp] theorem setV_grid (w : Wave) (n : Nat) (x : VReg) : (setV w n x).grid = w.grid := rfl
@[simp] theorem setV_ctx (w : Wave) (n : Nat) (x : VReg) : (setV w n x).ctx = w.ctx := rfl
@[simp] theorem setV_part (w : Wave) (n : Nat) (x : VReg) : (setV w n x).part = w.part := rfl
@[simp] theorem setV_block (w : Wave) (n : Nat) (x : VReg) : (setV w n x).block = w.block := rfl
@[simp] theorem setV_wid (w : Wave) (n : Nat) (x : VReg) : (setV w n x).wid = w.wid := rfl
@[simp] theorem setV_s (w : Wave) (n : Nat) (x : VReg) : (setV w n x).s = w.s := rfl
@[simp] theorem setV_a (w : Wave) (n : Nat) (x : VReg) : (setV w n x).a = w.a := rfl
@[simp] theorem setV_p (w : Wave) (n : Nat) (x : VReg) : (setV w n x).p = w.p := rfl
@[simp] theorem setV_wbase (w : Wave) (n : Nat) (x : VReg) : (setV w n x).wbase = w.wbase := rfl
@[simp] theorem setV_lo (w : Wave) (n : Nat) (x : VReg) : (setV w n x).lo = w.lo := rfl
@[simp] theorem setV_resident (w : Wave) (n : Nat) (x : VReg) : (setV w n x).resident = w.resident := rfl
@[simp] theorem setV_spills (w : Wave) (n : Nat) (x : VReg) : (setV w n x).spills = w.spills := rfl
@[simp] theorem setV_fills (w : Wave) (n : Nat) (x : VReg) : (setV w n x).fills = w.fills := rfl
@[simp] theorem setV_spillBase (w : Wave) (n : Nat) (x : VReg) : (setV w n x).spillBase = w.spillBase := rfl
@[simp] theorem setV_spillTop (w : Wave) (n : Nat) (x : VReg) : (setV w n x).spillTop = w.spillTop := rfl
@[simp] theorem setV_spillArea (w : Wave) (n : Nat) (x : VReg) : (setV w n x).spillArea = w.spillArea := rfl
@[simp] theorem setV_spillRecs (w : Wave) (n : Nat) (x : VReg) : (setV w n x).spillRecs = w.spillRecs := rfl
@[simp] theorem setV_live (w : Wave) (n : Nat) (x : VReg) : (setV w n x).live = w.live := rfl
@[simp] theorem setV_killTags (w : Wave) (n : Nat) (x : VReg) : (setV w n x).killTags = w.killTags := rfl
@[simp] theorem setV_splits (w : Wave) (n : Nat) (x : VReg) : (setV w n x).splits = w.splits := rfl
@[simp] theorem setV_deferred (w : Wave) (n : Nat) (x : VReg) : (setV w n x).deferred = w.deferred := rfl
@[simp] theorem setV_flags (w : Wave) (n : Nat) (x : VReg) : (setV w n x).flags = w.flags := rfl
@[simp] theorem setV_wstat (w : Wave) (n : Nat) (x : VReg) : (setV w n x).wstat = w.wstat := rfl
@[simp] theorem setV_sig (w : Wave) (n : Nat) (x : VReg) : (setV w n x).sig = w.sig := rfl
@[simp] theorem setV_wdog (w : Wave) (n : Nat) (x : VReg) : (setV w n x).wdog = w.wdog := rfl
@[simp] theorem setV_trapc (w : Wave) (n : Nat) (x : VReg) : (setV w n x).trapc = w.trapc := rfl
@[simp] theorem setV_trappc (w : Wave) (n : Nat) (x : VReg) : (setV w n x).trappc = w.trappc := rfl
@[simp] theorem setV_trapval (w : Wave) (n : Nat) (x : VReg) : (setV w n x).trapval = w.trapval := rfl
@[simp] theorem setV_frame (w : Wave) (n : Nat) (x : VReg) : (setV w n x).frame = w.frame := rfl
@[simp] theorem setV_skid (w : Wave) (n : Nat) (x : VReg) : (setV w n x).skid = w.skid := rfl
@[simp] theorem setV_timeHi (w : Wave) (n : Nat) (x : VReg) : (setV w n x).timeHi = w.timeHi := rfl
@[simp] theorem setV_pkr (w : Wave) (n : Nat) (x : VReg) : (setV w n x).pkr = w.pkr := rfl
@[simp] theorem setV_cmapix (w : Wave) (n : Nat) (x : VReg) : (setV w n x).cmapix = w.cmapix := rfl
@[simp] theorem setV_batchNo (w : Wave) (n : Nat) (x : VReg) : (setV w n x).batchNo = w.batchNo := rfl
@[simp] theorem setV_openBatch (w : Wave) (n : Nat) (x : VReg) : (setV w n x).openBatch = w.openBatch := rfl
@[simp] theorem setV_sealed (w : Wave) (n : Nat) (x : VReg) : (setV w n x).sealed = w.sealed := rfl
@[simp] theorem setV_drawn (w : Wave) (n : Nat) (x : VReg) : (setV w n x).drawn = w.drawn := rfl
@[simp] theorem setV_ops (w : Wave) (n : Nat) (x : VReg) : (setV w n x).ops = w.ops := rfl
@[simp] theorem setV_fetch (w : Wave) (n : Nat) (x : VReg) : (setV w n x).fetch = w.fetch := rfl
@[simp] theorem setV_nextIssue (w : Wave) (n : Nat) (x : VReg) : (setV w n x).nextIssue = w.nextIssue := rfl
@[simp] theorem setV_waitTag (w : Wave) (n : Nat) (x : VReg) : (setV w n x).waitTag = w.waitTag := rfl
@[simp] theorem setV_waitHeld (w : Wave) (n : Nat) (x : VReg) : (setV w n x).waitHeld = w.waitHeld := rfl
@[simp] theorem setV_state (w : Wave) (n : Nat) (x : VReg) : (setV w n x).state = w.state := rfl
@[simp] theorem setV_fences (w : Wave) (n : Nat) (x : VReg) : (setV w n x).fences = w.fences := rfl
@[simp] theorem setV_clock (w : Wave) (n : Nat) (x : VReg) : (setV w n x).clock = w.clock := rfl
@[simp] theorem setV_wrote (w : Wave) (n : Nat) (x : VReg) : (setV w n x).wrote = w.wrote := rfl
@[simp] theorem setV_engineWrote (w : Wave) (n : Nat) (x : VReg) : (setV w n x).engineWrote = w.engineWrote := rfl
@[simp] theorem setV_relClock (w : Wave) (n : Nat) (x : VReg) : (setV w n x).relClock = w.relClock := rfl
@[simp] theorem setV_released (w : Wave) (n : Nat) (x : VReg) : (setV w n x).released = w.released := rfl
@[simp] theorem setV_readHeads (w : Wave) (n : Nat) (x : VReg) : (setV w n x).readHeads = w.readHeads := rfl
@[simp] theorem setV_pendingHit (w : Wave) (n : Nat) (x : VReg) : (setV w n x).pendingHit = w.pendingHit := rfl
@[simp] theorem setV_skidFrom (w : Wave) (n : Nat) (x : VReg) : (setV w n x).skidFrom = w.skidFrom := rfl
@[simp] theorem setV_fenceHeads (w : Wave) (n : Nat) (x : VReg) : (setV w n x).fenceHeads = w.fenceHeads := rfl

/-! ### setS -/

@[simp] theorem setS_core (w : Wave) (n : Nat) (x : TWord) : (setS w n x).core = w.core := rfl
@[simp] theorem setS_seat (w : Wave) (n : Nat) (x : TWord) : (setS w n x).seat = w.seat := rfl
@[simp] theorem setS_slot (w : Wave) (n : Nat) (x : TWord) : (setS w n x).slot = w.slot := rfl
@[simp] theorem setS_grid (w : Wave) (n : Nat) (x : TWord) : (setS w n x).grid = w.grid := rfl
@[simp] theorem setS_ctx (w : Wave) (n : Nat) (x : TWord) : (setS w n x).ctx = w.ctx := rfl
@[simp] theorem setS_part (w : Wave) (n : Nat) (x : TWord) : (setS w n x).part = w.part := rfl
@[simp] theorem setS_block (w : Wave) (n : Nat) (x : TWord) : (setS w n x).block = w.block := rfl
@[simp] theorem setS_wid (w : Wave) (n : Nat) (x : TWord) : (setS w n x).wid = w.wid := rfl
@[simp] theorem setS_v (w : Wave) (n : Nat) (x : TWord) : (setS w n x).v = w.v := rfl
@[simp] theorem setS_a (w : Wave) (n : Nat) (x : TWord) : (setS w n x).a = w.a := rfl
@[simp] theorem setS_p (w : Wave) (n : Nat) (x : TWord) : (setS w n x).p = w.p := rfl
@[simp] theorem setS_wbase (w : Wave) (n : Nat) (x : TWord) : (setS w n x).wbase = w.wbase := rfl
@[simp] theorem setS_lo (w : Wave) (n : Nat) (x : TWord) : (setS w n x).lo = w.lo := rfl
@[simp] theorem setS_resident (w : Wave) (n : Nat) (x : TWord) : (setS w n x).resident = w.resident := rfl
@[simp] theorem setS_spills (w : Wave) (n : Nat) (x : TWord) : (setS w n x).spills = w.spills := rfl
@[simp] theorem setS_fills (w : Wave) (n : Nat) (x : TWord) : (setS w n x).fills = w.fills := rfl
@[simp] theorem setS_spillBase (w : Wave) (n : Nat) (x : TWord) : (setS w n x).spillBase = w.spillBase := rfl
@[simp] theorem setS_spillTop (w : Wave) (n : Nat) (x : TWord) : (setS w n x).spillTop = w.spillTop := rfl
@[simp] theorem setS_spillArea (w : Wave) (n : Nat) (x : TWord) : (setS w n x).spillArea = w.spillArea := rfl
@[simp] theorem setS_spillRecs (w : Wave) (n : Nat) (x : TWord) : (setS w n x).spillRecs = w.spillRecs := rfl
@[simp] theorem setS_live (w : Wave) (n : Nat) (x : TWord) : (setS w n x).live = w.live := rfl
@[simp] theorem setS_killTags (w : Wave) (n : Nat) (x : TWord) : (setS w n x).killTags = w.killTags := rfl
@[simp] theorem setS_splits (w : Wave) (n : Nat) (x : TWord) : (setS w n x).splits = w.splits := rfl
@[simp] theorem setS_deferred (w : Wave) (n : Nat) (x : TWord) : (setS w n x).deferred = w.deferred := rfl
@[simp] theorem setS_flags (w : Wave) (n : Nat) (x : TWord) : (setS w n x).flags = w.flags := rfl
@[simp] theorem setS_wstat (w : Wave) (n : Nat) (x : TWord) : (setS w n x).wstat = w.wstat := rfl
@[simp] theorem setS_sig (w : Wave) (n : Nat) (x : TWord) : (setS w n x).sig = w.sig := rfl
@[simp] theorem setS_wdog (w : Wave) (n : Nat) (x : TWord) : (setS w n x).wdog = w.wdog := rfl
@[simp] theorem setS_trapc (w : Wave) (n : Nat) (x : TWord) : (setS w n x).trapc = w.trapc := rfl
@[simp] theorem setS_trappc (w : Wave) (n : Nat) (x : TWord) : (setS w n x).trappc = w.trappc := rfl
@[simp] theorem setS_trapval (w : Wave) (n : Nat) (x : TWord) : (setS w n x).trapval = w.trapval := rfl
@[simp] theorem setS_frame (w : Wave) (n : Nat) (x : TWord) : (setS w n x).frame = w.frame := rfl
@[simp] theorem setS_skid (w : Wave) (n : Nat) (x : TWord) : (setS w n x).skid = w.skid := rfl
@[simp] theorem setS_timeHi (w : Wave) (n : Nat) (x : TWord) : (setS w n x).timeHi = w.timeHi := rfl
@[simp] theorem setS_pkr (w : Wave) (n : Nat) (x : TWord) : (setS w n x).pkr = w.pkr := rfl
@[simp] theorem setS_cmapix (w : Wave) (n : Nat) (x : TWord) : (setS w n x).cmapix = w.cmapix := rfl
@[simp] theorem setS_batchNo (w : Wave) (n : Nat) (x : TWord) : (setS w n x).batchNo = w.batchNo := rfl
@[simp] theorem setS_openBatch (w : Wave) (n : Nat) (x : TWord) : (setS w n x).openBatch = w.openBatch := rfl
@[simp] theorem setS_sealed (w : Wave) (n : Nat) (x : TWord) : (setS w n x).sealed = w.sealed := rfl
@[simp] theorem setS_drawn (w : Wave) (n : Nat) (x : TWord) : (setS w n x).drawn = w.drawn := rfl
@[simp] theorem setS_ops (w : Wave) (n : Nat) (x : TWord) : (setS w n x).ops = w.ops := rfl
@[simp] theorem setS_fetch (w : Wave) (n : Nat) (x : TWord) : (setS w n x).fetch = w.fetch := rfl
@[simp] theorem setS_nextIssue (w : Wave) (n : Nat) (x : TWord) : (setS w n x).nextIssue = w.nextIssue := rfl
@[simp] theorem setS_waitTag (w : Wave) (n : Nat) (x : TWord) : (setS w n x).waitTag = w.waitTag := rfl
@[simp] theorem setS_waitHeld (w : Wave) (n : Nat) (x : TWord) : (setS w n x).waitHeld = w.waitHeld := rfl
@[simp] theorem setS_state (w : Wave) (n : Nat) (x : TWord) : (setS w n x).state = w.state := rfl
@[simp] theorem setS_fences (w : Wave) (n : Nat) (x : TWord) : (setS w n x).fences = w.fences := rfl
@[simp] theorem setS_clock (w : Wave) (n : Nat) (x : TWord) : (setS w n x).clock = w.clock := rfl
@[simp] theorem setS_wrote (w : Wave) (n : Nat) (x : TWord) : (setS w n x).wrote = w.wrote := rfl
@[simp] theorem setS_engineWrote (w : Wave) (n : Nat) (x : TWord) : (setS w n x).engineWrote = w.engineWrote := rfl
@[simp] theorem setS_relClock (w : Wave) (n : Nat) (x : TWord) : (setS w n x).relClock = w.relClock := rfl
@[simp] theorem setS_released (w : Wave) (n : Nat) (x : TWord) : (setS w n x).released = w.released := rfl
@[simp] theorem setS_readHeads (w : Wave) (n : Nat) (x : TWord) : (setS w n x).readHeads = w.readHeads := rfl
@[simp] theorem setS_pendingHit (w : Wave) (n : Nat) (x : TWord) : (setS w n x).pendingHit = w.pendingHit := rfl
@[simp] theorem setS_skidFrom (w : Wave) (n : Nat) (x : TWord) : (setS w n x).skidFrom = w.skidFrom := rfl
@[simp] theorem setS_fenceHeads (w : Wave) (n : Nat) (x : TWord) : (setS w n x).fenceHeads = w.fenceHeads := rfl

/-! ### setA -/

@[simp] theorem setA_core (w : Wave) (n : Nat) (x : AReg) : (setA w n x).core = w.core := rfl
@[simp] theorem setA_seat (w : Wave) (n : Nat) (x : AReg) : (setA w n x).seat = w.seat := rfl
@[simp] theorem setA_slot (w : Wave) (n : Nat) (x : AReg) : (setA w n x).slot = w.slot := rfl
@[simp] theorem setA_grid (w : Wave) (n : Nat) (x : AReg) : (setA w n x).grid = w.grid := rfl
@[simp] theorem setA_ctx (w : Wave) (n : Nat) (x : AReg) : (setA w n x).ctx = w.ctx := rfl
@[simp] theorem setA_part (w : Wave) (n : Nat) (x : AReg) : (setA w n x).part = w.part := rfl
@[simp] theorem setA_block (w : Wave) (n : Nat) (x : AReg) : (setA w n x).block = w.block := rfl
@[simp] theorem setA_wid (w : Wave) (n : Nat) (x : AReg) : (setA w n x).wid = w.wid := rfl
@[simp] theorem setA_v (w : Wave) (n : Nat) (x : AReg) : (setA w n x).v = w.v := rfl
@[simp] theorem setA_s (w : Wave) (n : Nat) (x : AReg) : (setA w n x).s = w.s := rfl
@[simp] theorem setA_p (w : Wave) (n : Nat) (x : AReg) : (setA w n x).p = w.p := rfl
@[simp] theorem setA_wbase (w : Wave) (n : Nat) (x : AReg) : (setA w n x).wbase = w.wbase := rfl
@[simp] theorem setA_lo (w : Wave) (n : Nat) (x : AReg) : (setA w n x).lo = w.lo := rfl
@[simp] theorem setA_resident (w : Wave) (n : Nat) (x : AReg) : (setA w n x).resident = w.resident := rfl
@[simp] theorem setA_spills (w : Wave) (n : Nat) (x : AReg) : (setA w n x).spills = w.spills := rfl
@[simp] theorem setA_fills (w : Wave) (n : Nat) (x : AReg) : (setA w n x).fills = w.fills := rfl
@[simp] theorem setA_spillBase (w : Wave) (n : Nat) (x : AReg) : (setA w n x).spillBase = w.spillBase := rfl
@[simp] theorem setA_spillTop (w : Wave) (n : Nat) (x : AReg) : (setA w n x).spillTop = w.spillTop := rfl
@[simp] theorem setA_spillArea (w : Wave) (n : Nat) (x : AReg) : (setA w n x).spillArea = w.spillArea := rfl
@[simp] theorem setA_spillRecs (w : Wave) (n : Nat) (x : AReg) : (setA w n x).spillRecs = w.spillRecs := rfl
@[simp] theorem setA_live (w : Wave) (n : Nat) (x : AReg) : (setA w n x).live = w.live := rfl
@[simp] theorem setA_killTags (w : Wave) (n : Nat) (x : AReg) : (setA w n x).killTags = w.killTags := rfl
@[simp] theorem setA_splits (w : Wave) (n : Nat) (x : AReg) : (setA w n x).splits = w.splits := rfl
@[simp] theorem setA_deferred (w : Wave) (n : Nat) (x : AReg) : (setA w n x).deferred = w.deferred := rfl
@[simp] theorem setA_flags (w : Wave) (n : Nat) (x : AReg) : (setA w n x).flags = w.flags := rfl
@[simp] theorem setA_wstat (w : Wave) (n : Nat) (x : AReg) : (setA w n x).wstat = w.wstat := rfl
@[simp] theorem setA_sig (w : Wave) (n : Nat) (x : AReg) : (setA w n x).sig = w.sig := rfl
@[simp] theorem setA_wdog (w : Wave) (n : Nat) (x : AReg) : (setA w n x).wdog = w.wdog := rfl
@[simp] theorem setA_trapc (w : Wave) (n : Nat) (x : AReg) : (setA w n x).trapc = w.trapc := rfl
@[simp] theorem setA_trappc (w : Wave) (n : Nat) (x : AReg) : (setA w n x).trappc = w.trappc := rfl
@[simp] theorem setA_trapval (w : Wave) (n : Nat) (x : AReg) : (setA w n x).trapval = w.trapval := rfl
@[simp] theorem setA_frame (w : Wave) (n : Nat) (x : AReg) : (setA w n x).frame = w.frame := rfl
@[simp] theorem setA_skid (w : Wave) (n : Nat) (x : AReg) : (setA w n x).skid = w.skid := rfl
@[simp] theorem setA_timeHi (w : Wave) (n : Nat) (x : AReg) : (setA w n x).timeHi = w.timeHi := rfl
@[simp] theorem setA_pkr (w : Wave) (n : Nat) (x : AReg) : (setA w n x).pkr = w.pkr := rfl
@[simp] theorem setA_cmapix (w : Wave) (n : Nat) (x : AReg) : (setA w n x).cmapix = w.cmapix := rfl
@[simp] theorem setA_batchNo (w : Wave) (n : Nat) (x : AReg) : (setA w n x).batchNo = w.batchNo := rfl
@[simp] theorem setA_openBatch (w : Wave) (n : Nat) (x : AReg) : (setA w n x).openBatch = w.openBatch := rfl
@[simp] theorem setA_sealed (w : Wave) (n : Nat) (x : AReg) : (setA w n x).sealed = w.sealed := rfl
@[simp] theorem setA_drawn (w : Wave) (n : Nat) (x : AReg) : (setA w n x).drawn = w.drawn := rfl
@[simp] theorem setA_ops (w : Wave) (n : Nat) (x : AReg) : (setA w n x).ops = w.ops := rfl
@[simp] theorem setA_fetch (w : Wave) (n : Nat) (x : AReg) : (setA w n x).fetch = w.fetch := rfl
@[simp] theorem setA_nextIssue (w : Wave) (n : Nat) (x : AReg) : (setA w n x).nextIssue = w.nextIssue := rfl
@[simp] theorem setA_waitTag (w : Wave) (n : Nat) (x : AReg) : (setA w n x).waitTag = w.waitTag := rfl
@[simp] theorem setA_waitHeld (w : Wave) (n : Nat) (x : AReg) : (setA w n x).waitHeld = w.waitHeld := rfl
@[simp] theorem setA_state (w : Wave) (n : Nat) (x : AReg) : (setA w n x).state = w.state := rfl
@[simp] theorem setA_fences (w : Wave) (n : Nat) (x : AReg) : (setA w n x).fences = w.fences := rfl
@[simp] theorem setA_clock (w : Wave) (n : Nat) (x : AReg) : (setA w n x).clock = w.clock := rfl
@[simp] theorem setA_wrote (w : Wave) (n : Nat) (x : AReg) : (setA w n x).wrote = w.wrote := rfl
@[simp] theorem setA_engineWrote (w : Wave) (n : Nat) (x : AReg) : (setA w n x).engineWrote = w.engineWrote := rfl
@[simp] theorem setA_relClock (w : Wave) (n : Nat) (x : AReg) : (setA w n x).relClock = w.relClock := rfl
@[simp] theorem setA_released (w : Wave) (n : Nat) (x : AReg) : (setA w n x).released = w.released := rfl
@[simp] theorem setA_readHeads (w : Wave) (n : Nat) (x : AReg) : (setA w n x).readHeads = w.readHeads := rfl
@[simp] theorem setA_pendingHit (w : Wave) (n : Nat) (x : AReg) : (setA w n x).pendingHit = w.pendingHit := rfl
@[simp] theorem setA_skidFrom (w : Wave) (n : Nat) (x : AReg) : (setA w n x).skidFrom = w.skidFrom := rfl
@[simp] theorem setA_fenceHeads (w : Wave) (n : Nat) (x : AReg) : (setA w n x).fenceHeads = w.fenceHeads := rfl

/-! ### setP -/

@[simp] theorem setP_core (w : Wave) (n : Nat) (x : PReg) : (setP w n x).core = w.core := rfl
@[simp] theorem setP_seat (w : Wave) (n : Nat) (x : PReg) : (setP w n x).seat = w.seat := rfl
@[simp] theorem setP_slot (w : Wave) (n : Nat) (x : PReg) : (setP w n x).slot = w.slot := rfl
@[simp] theorem setP_grid (w : Wave) (n : Nat) (x : PReg) : (setP w n x).grid = w.grid := rfl
@[simp] theorem setP_ctx (w : Wave) (n : Nat) (x : PReg) : (setP w n x).ctx = w.ctx := rfl
@[simp] theorem setP_part (w : Wave) (n : Nat) (x : PReg) : (setP w n x).part = w.part := rfl
@[simp] theorem setP_block (w : Wave) (n : Nat) (x : PReg) : (setP w n x).block = w.block := rfl
@[simp] theorem setP_wid (w : Wave) (n : Nat) (x : PReg) : (setP w n x).wid = w.wid := rfl
@[simp] theorem setP_v (w : Wave) (n : Nat) (x : PReg) : (setP w n x).v = w.v := rfl
@[simp] theorem setP_s (w : Wave) (n : Nat) (x : PReg) : (setP w n x).s = w.s := rfl
@[simp] theorem setP_a (w : Wave) (n : Nat) (x : PReg) : (setP w n x).a = w.a := rfl
@[simp] theorem setP_wbase (w : Wave) (n : Nat) (x : PReg) : (setP w n x).wbase = w.wbase := rfl
@[simp] theorem setP_lo (w : Wave) (n : Nat) (x : PReg) : (setP w n x).lo = w.lo := rfl
@[simp] theorem setP_resident (w : Wave) (n : Nat) (x : PReg) : (setP w n x).resident = w.resident := rfl
@[simp] theorem setP_spills (w : Wave) (n : Nat) (x : PReg) : (setP w n x).spills = w.spills := rfl
@[simp] theorem setP_fills (w : Wave) (n : Nat) (x : PReg) : (setP w n x).fills = w.fills := rfl
@[simp] theorem setP_spillBase (w : Wave) (n : Nat) (x : PReg) : (setP w n x).spillBase = w.spillBase := rfl
@[simp] theorem setP_spillTop (w : Wave) (n : Nat) (x : PReg) : (setP w n x).spillTop = w.spillTop := rfl
@[simp] theorem setP_spillArea (w : Wave) (n : Nat) (x : PReg) : (setP w n x).spillArea = w.spillArea := rfl
@[simp] theorem setP_spillRecs (w : Wave) (n : Nat) (x : PReg) : (setP w n x).spillRecs = w.spillRecs := rfl
@[simp] theorem setP_live (w : Wave) (n : Nat) (x : PReg) : (setP w n x).live = w.live := rfl
@[simp] theorem setP_killTags (w : Wave) (n : Nat) (x : PReg) : (setP w n x).killTags = w.killTags := rfl
@[simp] theorem setP_splits (w : Wave) (n : Nat) (x : PReg) : (setP w n x).splits = w.splits := rfl
@[simp] theorem setP_deferred (w : Wave) (n : Nat) (x : PReg) : (setP w n x).deferred = w.deferred := rfl
@[simp] theorem setP_flags (w : Wave) (n : Nat) (x : PReg) : (setP w n x).flags = w.flags := rfl
@[simp] theorem setP_wstat (w : Wave) (n : Nat) (x : PReg) : (setP w n x).wstat = w.wstat := rfl
@[simp] theorem setP_sig (w : Wave) (n : Nat) (x : PReg) : (setP w n x).sig = w.sig := rfl
@[simp] theorem setP_wdog (w : Wave) (n : Nat) (x : PReg) : (setP w n x).wdog = w.wdog := rfl
@[simp] theorem setP_trapc (w : Wave) (n : Nat) (x : PReg) : (setP w n x).trapc = w.trapc := rfl
@[simp] theorem setP_trappc (w : Wave) (n : Nat) (x : PReg) : (setP w n x).trappc = w.trappc := rfl
@[simp] theorem setP_trapval (w : Wave) (n : Nat) (x : PReg) : (setP w n x).trapval = w.trapval := rfl
@[simp] theorem setP_frame (w : Wave) (n : Nat) (x : PReg) : (setP w n x).frame = w.frame := rfl
@[simp] theorem setP_skid (w : Wave) (n : Nat) (x : PReg) : (setP w n x).skid = w.skid := rfl
@[simp] theorem setP_timeHi (w : Wave) (n : Nat) (x : PReg) : (setP w n x).timeHi = w.timeHi := rfl
@[simp] theorem setP_pkr (w : Wave) (n : Nat) (x : PReg) : (setP w n x).pkr = w.pkr := rfl
@[simp] theorem setP_cmapix (w : Wave) (n : Nat) (x : PReg) : (setP w n x).cmapix = w.cmapix := rfl
@[simp] theorem setP_batchNo (w : Wave) (n : Nat) (x : PReg) : (setP w n x).batchNo = w.batchNo := rfl
@[simp] theorem setP_openBatch (w : Wave) (n : Nat) (x : PReg) : (setP w n x).openBatch = w.openBatch := rfl
@[simp] theorem setP_sealed (w : Wave) (n : Nat) (x : PReg) : (setP w n x).sealed = w.sealed := rfl
@[simp] theorem setP_drawn (w : Wave) (n : Nat) (x : PReg) : (setP w n x).drawn = w.drawn := rfl
@[simp] theorem setP_ops (w : Wave) (n : Nat) (x : PReg) : (setP w n x).ops = w.ops := rfl
@[simp] theorem setP_fetch (w : Wave) (n : Nat) (x : PReg) : (setP w n x).fetch = w.fetch := rfl
@[simp] theorem setP_nextIssue (w : Wave) (n : Nat) (x : PReg) : (setP w n x).nextIssue = w.nextIssue := rfl
@[simp] theorem setP_waitTag (w : Wave) (n : Nat) (x : PReg) : (setP w n x).waitTag = w.waitTag := rfl
@[simp] theorem setP_waitHeld (w : Wave) (n : Nat) (x : PReg) : (setP w n x).waitHeld = w.waitHeld := rfl
@[simp] theorem setP_state (w : Wave) (n : Nat) (x : PReg) : (setP w n x).state = w.state := rfl
@[simp] theorem setP_fences (w : Wave) (n : Nat) (x : PReg) : (setP w n x).fences = w.fences := rfl
@[simp] theorem setP_clock (w : Wave) (n : Nat) (x : PReg) : (setP w n x).clock = w.clock := rfl
@[simp] theorem setP_wrote (w : Wave) (n : Nat) (x : PReg) : (setP w n x).wrote = w.wrote := rfl
@[simp] theorem setP_engineWrote (w : Wave) (n : Nat) (x : PReg) : (setP w n x).engineWrote = w.engineWrote := rfl
@[simp] theorem setP_relClock (w : Wave) (n : Nat) (x : PReg) : (setP w n x).relClock = w.relClock := rfl
@[simp] theorem setP_released (w : Wave) (n : Nat) (x : PReg) : (setP w n x).released = w.released := rfl
@[simp] theorem setP_readHeads (w : Wave) (n : Nat) (x : PReg) : (setP w n x).readHeads = w.readHeads := rfl
@[simp] theorem setP_pendingHit (w : Wave) (n : Nat) (x : PReg) : (setP w n x).pendingHit = w.pendingHit := rfl
@[simp] theorem setP_skidFrom (w : Wave) (n : Nat) (x : PReg) : (setP w n x).skidFrom = w.skidFrom := rfl
@[simp] theorem setP_fenceHeads (w : Wave) (n : Nat) (x : PReg) : (setP w n x).fenceHeads = w.fenceHeads := rfl

/-! ### setSPair -/

@[simp] theorem setSPair_core (w : Wave) (n : Nat) (x : TVal) : (setSPair w n x).core = w.core := rfl
@[simp] theorem setSPair_seat (w : Wave) (n : Nat) (x : TVal) : (setSPair w n x).seat = w.seat := rfl
@[simp] theorem setSPair_slot (w : Wave) (n : Nat) (x : TVal) : (setSPair w n x).slot = w.slot := rfl
@[simp] theorem setSPair_grid (w : Wave) (n : Nat) (x : TVal) : (setSPair w n x).grid = w.grid := rfl
@[simp] theorem setSPair_ctx (w : Wave) (n : Nat) (x : TVal) : (setSPair w n x).ctx = w.ctx := rfl
@[simp] theorem setSPair_part (w : Wave) (n : Nat) (x : TVal) : (setSPair w n x).part = w.part := rfl
@[simp] theorem setSPair_block (w : Wave) (n : Nat) (x : TVal) : (setSPair w n x).block = w.block := rfl
@[simp] theorem setSPair_wid (w : Wave) (n : Nat) (x : TVal) : (setSPair w n x).wid = w.wid := rfl
@[simp] theorem setSPair_v (w : Wave) (n : Nat) (x : TVal) : (setSPair w n x).v = w.v := rfl
@[simp] theorem setSPair_a (w : Wave) (n : Nat) (x : TVal) : (setSPair w n x).a = w.a := rfl
@[simp] theorem setSPair_p (w : Wave) (n : Nat) (x : TVal) : (setSPair w n x).p = w.p := rfl
@[simp] theorem setSPair_wbase (w : Wave) (n : Nat) (x : TVal) : (setSPair w n x).wbase = w.wbase := rfl
@[simp] theorem setSPair_lo (w : Wave) (n : Nat) (x : TVal) : (setSPair w n x).lo = w.lo := rfl
@[simp] theorem setSPair_resident (w : Wave) (n : Nat) (x : TVal) : (setSPair w n x).resident = w.resident := rfl
@[simp] theorem setSPair_spills (w : Wave) (n : Nat) (x : TVal) : (setSPair w n x).spills = w.spills := rfl
@[simp] theorem setSPair_fills (w : Wave) (n : Nat) (x : TVal) : (setSPair w n x).fills = w.fills := rfl
@[simp] theorem setSPair_spillBase (w : Wave) (n : Nat) (x : TVal) : (setSPair w n x).spillBase = w.spillBase := rfl
@[simp] theorem setSPair_spillTop (w : Wave) (n : Nat) (x : TVal) : (setSPair w n x).spillTop = w.spillTop := rfl
@[simp] theorem setSPair_spillArea (w : Wave) (n : Nat) (x : TVal) : (setSPair w n x).spillArea = w.spillArea := rfl
@[simp] theorem setSPair_spillRecs (w : Wave) (n : Nat) (x : TVal) : (setSPair w n x).spillRecs = w.spillRecs := rfl
@[simp] theorem setSPair_live (w : Wave) (n : Nat) (x : TVal) : (setSPair w n x).live = w.live := rfl
@[simp] theorem setSPair_killTags (w : Wave) (n : Nat) (x : TVal) : (setSPair w n x).killTags = w.killTags := rfl
@[simp] theorem setSPair_splits (w : Wave) (n : Nat) (x : TVal) : (setSPair w n x).splits = w.splits := rfl
@[simp] theorem setSPair_deferred (w : Wave) (n : Nat) (x : TVal) : (setSPair w n x).deferred = w.deferred := rfl
@[simp] theorem setSPair_flags (w : Wave) (n : Nat) (x : TVal) : (setSPair w n x).flags = w.flags := rfl
@[simp] theorem setSPair_wstat (w : Wave) (n : Nat) (x : TVal) : (setSPair w n x).wstat = w.wstat := rfl
@[simp] theorem setSPair_sig (w : Wave) (n : Nat) (x : TVal) : (setSPair w n x).sig = w.sig := rfl
@[simp] theorem setSPair_wdog (w : Wave) (n : Nat) (x : TVal) : (setSPair w n x).wdog = w.wdog := rfl
@[simp] theorem setSPair_trapc (w : Wave) (n : Nat) (x : TVal) : (setSPair w n x).trapc = w.trapc := rfl
@[simp] theorem setSPair_trappc (w : Wave) (n : Nat) (x : TVal) : (setSPair w n x).trappc = w.trappc := rfl
@[simp] theorem setSPair_trapval (w : Wave) (n : Nat) (x : TVal) : (setSPair w n x).trapval = w.trapval := rfl
@[simp] theorem setSPair_frame (w : Wave) (n : Nat) (x : TVal) : (setSPair w n x).frame = w.frame := rfl
@[simp] theorem setSPair_skid (w : Wave) (n : Nat) (x : TVal) : (setSPair w n x).skid = w.skid := rfl
@[simp] theorem setSPair_timeHi (w : Wave) (n : Nat) (x : TVal) : (setSPair w n x).timeHi = w.timeHi := rfl
@[simp] theorem setSPair_pkr (w : Wave) (n : Nat) (x : TVal) : (setSPair w n x).pkr = w.pkr := rfl
@[simp] theorem setSPair_cmapix (w : Wave) (n : Nat) (x : TVal) : (setSPair w n x).cmapix = w.cmapix := rfl
@[simp] theorem setSPair_batchNo (w : Wave) (n : Nat) (x : TVal) : (setSPair w n x).batchNo = w.batchNo := rfl
@[simp] theorem setSPair_openBatch (w : Wave) (n : Nat) (x : TVal) : (setSPair w n x).openBatch = w.openBatch := rfl
@[simp] theorem setSPair_sealed (w : Wave) (n : Nat) (x : TVal) : (setSPair w n x).sealed = w.sealed := rfl
@[simp] theorem setSPair_drawn (w : Wave) (n : Nat) (x : TVal) : (setSPair w n x).drawn = w.drawn := rfl
@[simp] theorem setSPair_ops (w : Wave) (n : Nat) (x : TVal) : (setSPair w n x).ops = w.ops := rfl
@[simp] theorem setSPair_fetch (w : Wave) (n : Nat) (x : TVal) : (setSPair w n x).fetch = w.fetch := rfl
@[simp] theorem setSPair_nextIssue (w : Wave) (n : Nat) (x : TVal) : (setSPair w n x).nextIssue = w.nextIssue := rfl
@[simp] theorem setSPair_waitTag (w : Wave) (n : Nat) (x : TVal) : (setSPair w n x).waitTag = w.waitTag := rfl
@[simp] theorem setSPair_waitHeld (w : Wave) (n : Nat) (x : TVal) : (setSPair w n x).waitHeld = w.waitHeld := rfl
@[simp] theorem setSPair_state (w : Wave) (n : Nat) (x : TVal) : (setSPair w n x).state = w.state := rfl
@[simp] theorem setSPair_fences (w : Wave) (n : Nat) (x : TVal) : (setSPair w n x).fences = w.fences := rfl
@[simp] theorem setSPair_clock (w : Wave) (n : Nat) (x : TVal) : (setSPair w n x).clock = w.clock := rfl
@[simp] theorem setSPair_wrote (w : Wave) (n : Nat) (x : TVal) : (setSPair w n x).wrote = w.wrote := rfl
@[simp] theorem setSPair_engineWrote (w : Wave) (n : Nat) (x : TVal) : (setSPair w n x).engineWrote = w.engineWrote := rfl
@[simp] theorem setSPair_relClock (w : Wave) (n : Nat) (x : TVal) : (setSPair w n x).relClock = w.relClock := rfl
@[simp] theorem setSPair_released (w : Wave) (n : Nat) (x : TVal) : (setSPair w n x).released = w.released := rfl
@[simp] theorem setSPair_readHeads (w : Wave) (n : Nat) (x : TVal) : (setSPair w n x).readHeads = w.readHeads := rfl
@[simp] theorem setSPair_pendingHit (w : Wave) (n : Nat) (x : TVal) : (setSPair w n x).pendingHit = w.pendingHit := rfl
@[simp] theorem setSPair_skidFrom (w : Wave) (n : Nat) (x : TVal) : (setSPair w n x).skidFrom = w.skidFrom := rfl
@[simp] theorem setSPair_fenceHeads (w : Wave) (n : Nat) (x : TVal) : (setSPair w n x).fenceHeads = w.fenceHeads := rfl

/-! ### What is read after a change -/

theorem waveOf_modWave {s : State} {u : Nat} {w : Wave} (f : Wave → Wave) (h : mget s.waves u = some w) :
    waveOf (modWave s u f) u = f w := by
  simp [waveOf, mgetD, mget_mmod, h]

theorem waveOf_modWave_ne (s : State) {u x : Nat} (f : Wave → Wave) (h : x ≠ u) : waveOf (modWave s u f) x = waveOf s x := by
  simp [waveOf, mgetD, mget_mmod, h]

theorem waveOf_putWave (s : State) (u : Nat) (w : Wave) : waveOf (putWave s u w) u = w := by
  simp [waveOf, mgetD]

theorem blockOf_modBlock {s : State} {k : Nat} {b : Block} (f : Block → Block) (h : mget s.blocks k = some b) :
    blockOf (modBlock s k f) k = f b := by
  simp [blockOf, mgetD, mget_mmod, h]

theorem coreOf_modCore (s : State) (c : Nat) (f : Core → Core) : coreOf (modCore s c f) c = f (coreOf s c) := by
  simp [coreOf, mgetD]

theorem dieOf_modDie (s : State) (d : Nat) (f : Die → Die) : dieOf (modDie s d f) d = f (dieOf s d) := by
  simp [dieOf, mgetD]

theorem partOf_modPart {s : State} {p : Nat} {x : Partition} (f : Partition → Partition) (h : mget s.parts p = some x) :
    partOf (modPart s p f) p = f x := by
  simp [partOf, mgetD, mget_mmod, h]

/-- A uniform register after another was written. -/
theorem sReg_setS (w : Wave) (n m : Nat) (x : TWord) : sReg (setS w n x) m = if m = n then x else sReg w m := by
  simp [sReg, setS, nth_nthSet]

end Sys2Proof.Machine
end

