-- ==== Sys2Proof/Laws/Done.lean ====
section
/-! SUPPORT. How a claim that an instruction is done, traps or waits follows from the end of its meaning. -/

namespace Sys2Proof.Machine

theorem holds_nil {s t : State} {u : Nat} (h : t.held = s.held) : Holds s t u [] :=
  ⟨[], by simp [h], rfl, by simp⟩

/-- One effect held by `hold`, after changes that leave the wave's place. -/
theorem holds_one' {s s1 t : State} {u : Nat} {e : Effect} {o : Option Nat} (hh : s1.held = s.held)
    (hc : (waveOf s1 u).core = (waveOf s u).core) (hs : (waveOf s1 u).seat = (waveOf s u).seat)
    (hb : (waveOf s1 u).block = (waveOf s u).block) (hn : s1.now = s.now) (h : t.held = (hold s1 u e o).2.held) :
    Holds s t u [e] := by
  refine ⟨[{ id := s1.nextId, issued := s1.now, due := s1.now + Config.holdback, core := (waveOf s1 u).core
             seat := some (waveOf s1 u).seat, wave := u, block := (waveOf s1 u).block, eff := e, op := o }], ?_, rfl, ?_⟩
  · rw [h, hold_newest, hh]
  · intro x hx
    rw [List.mem_singleton] at hx
    subst hx
    simp [hn, hc, hs, hb]

/-- One effect held by `hold` after numbers were drawn. -/
theorem holds_one {s s1 t : State} {u : Nat} {e : Effect} {o : Option Nat} (hh : s1.held = s.held) (hw : s1.waves = s.waves)
    (hn : s1.now = s.now) (h : t.held = (hold s1 u e o).2.held) : Holds s t u [e] := by
  have : waveOf s1 u = waveOf s u := by simp [waveOf, hw]
  exact holds_one' hh (by rw [this]) (by rw [this]) (by rw [this]) hn h

/-- An effect held after another. -/
theorem holds_app {s s1 t : State} {u : Nat} {e : Effect} {o : Option Nat} {es : List Effect} (hh : Holds s s1 u es)
    (hw : waveOf s1 u = waveOf s u) (hn : s1.now = s.now) (h : t.held = (hold s1 u e o).2.held) : Holds s t u (es ++ [e]) := by
  obtain ⟨hs, h1, h2, h3⟩ := hh
  refine ⟨hs ++ [{ id := s1.nextId, issued := s1.now, due := s1.now + Config.holdback, core := (waveOf s1 u).core
                   seat := some (waveOf s1 u).seat, wave := u, block := (waveOf s1 u).block, eff := e, op := o }], ?_, ?_, ?_⟩
  · rw [h, hold_newest, h1, List.append_assoc]
  · rw [List.map_append, h2]; rfl
  · intro x hx
    rcases List.mem_append.1 hx with hx | hx
    · exact h3 x hx
    · rw [List.mem_singleton] at hx
      subst hx
      simp [hn, hw]

/-- The end of a plain issue, whatever the state it ends in, is the end of its instruction. -/
theorem ends_of {i : Instr} {s s1 : State} {u : Nat} {w : Wave} {sp : Split} (h : Ready i s u w sp) (ht : sp.trump = none)
    (ha : Apart s s1 u) (w' : Wave) (hw : w'.splits = w.splits) (st : Sticky) (ps : List (Nat × Nat)) (f : Split → Split)
    (hf : (f sp).entry = sp.entry) {es : List Effect} (hh : Holds s s1 u es) :
    Ends i s (finishBy s1 (ctxFor s u w sp i) w' st ps f) u w sp (f sp) { w' with wstat := w'.wstat ||| st } es := by
  obtain ⟨f1, f2, f3, f4, f5, f6, f7⟩ := finishBy_facts (i := i) h.split ht ha w' hw st ps f hf
  refine ⟨f1, f2, regsSame_of f3 f4 f5 f6, f7, ?_⟩
  obtain ⟨hs, h1, h2, h3⟩ := hh
  exact ⟨hs, (finishBy_held _ _ _ _ _ _).trans h1, h2, h3⟩

/-- An encoded instruction whose meaning ends its issue is done. -/
theorem done_of {i : Instr} {s s1 : State} {u : Nat} {w : Wave} {sp sp' : Split} {k : State → Ctx → State}
    (hx : exec i s = run i s k) (w0 : Wave) (f : Split → Split)
    (hk : k s (ctxFor s u w sp i) = finishBy s1 (ctxFor s u w sp i) w0 0 [] f) (ha : Apart s s1 u)
    (hw : w0.splits = w.splits) (hf : (f sp).entry = sp.entry) (hsp : sp' = f sp) {w' : Wave} (hw' : w' = w0)
    {es : List Effect} (hh : Holds s s1 u es) : Done i s u w sp sp' w' es := by
  intro h ht
  subst hsp hw'
  refine ⟨_, by rw [hx, run_ready h, hk], ?_⟩
  have := ends_of h ht ha w' hw 0 [] f hf hh
  have e : ({ w' with wstat := w'.wstat ||| 0 } : Wave) = w' := by
    rw [show w'.wstat ||| (0 : Sticky) = w'.wstat from BitVec.or_zero]
  rwa [e] at this

/-- As `done_of`, for a meaning that ends at the next word. -/
theorem doneNext_of {i : Instr} {s s1 : State} {u : Nat} {w : Wave} {sp : Split} {k : State → Ctx → State}
    (hx : exec i s = run i s k) (w0 : Wave) (hk : k s (ctxFor s u w sp i) = finish s1 (ctxFor s u w sp i) w0 0 [])
    (ha : Apart s s1 u) (hw : w0.splits = w.splits) {w' : Wave} (hw' : w' = w0) {es : List Effect} (hh : Holds s s1 u es) :
    DoneNext i s u w sp w' es :=
  done_of hx w0 _ hk ha hw (stepOver_entry sp _) rfl hw' hh

/-- A meaning that only ends its issue, in the state as it stood. -/
theorem doneNext_plain {i : Instr} {s : State} {u : Nat} {w : Wave} {sp : Split} {k : State → Ctx → State}
    (hx : exec i s = run i s k) (w' : Wave) (hk : k s (ctxFor s u w sp i) = finish s (ctxFor s u w sp i) w' 0 [])
    (hw : w'.splits = w.splits) : DoneNext i s u w sp w' [] :=
  doneNext_of hx w' hk (apart_refl s u) hw rfl (holds_nil rfl)

/-- A meaning that holds one effect and ends its issue. -/
theorem doneNext_hold {i : Instr} {s : State} {u : Nat} {w : Wave} {sp : Split} {k : State → Ctx → State} {e : Effect}
    {o : Option Nat} (hx : exec i s = run i s k) (w' : Wave)
    (hk : k s (ctxFor s u w sp i) = finish (hold s u e o).2 (ctxFor s u w sp i) w' 0 [])
    (hw : w'.splits = w.splits) : DoneNext i s u w sp w' [e] :=
  doneNext_of hx w' hk (hold_apart s u u e o) hw rfl (holds_one rfl rfl rfl rfl)

theorem traps_of {i : Instr} {s : State} {u : Nat} {w : Wave} {sp : Split} {k : State → Ctx → State} {cause : Cause}
    {val : Word} (hx : exec i s = run i s k)
    (hk : k s (ctxFor s u w sp i) = trapAt s (ctxFor s u w sp i) cause val) : Traps i s u w sp cause val := by
  intro h
  rw [hx, run_ready h, hk]

theorem trapsOpen_of {i : Instr} {s : State} {u : Nat} {w : Wave} {sp : Split} {k : State → Ctx → State} {cause : Cause}
    (hx : exec i s = run i s k) (hk : k s (ctxFor s u w sp i) = trapOpen s (ctxFor s u w sp i) cause) :
    TrapsOpen i s u w sp cause := by
  intro h
  rw [hx, run_ready h, hk]
  rfl

theorem waits_of {i : Instr} {s : State} {u : Nat} {w : Wave} {sp : Split} {k : State → Ctx → State}
    (hx : exec i s = run i s k) (hk : k s (ctxFor s u w sp i) = stall s u) : Waits i s u w sp := by
  intro h
  rw [hx, run_ready h, hk]

/-- A branch to a good target goes on. -/
theorem withTarget_good {s : State} {c : Ctx} {va : Nat} (k : State → State) (h : GoodTarget s c.w va) :
    withTarget s c va k = k s := by
  unfold withTarget
  rcases h with h | h <;> rw [h]

/-- Clean uniform operands are consumed without effect. -/
theorem consumeAll_cleanU {i : Instr} {s : State} {u : Nat} {w : Wave} {sp : Split} {xs : List (Operand × Bool)}
    (h : CleanU i s u w sp xs) (s1 : State) (k : State → Ctx → State) :
    consumeAll s1 (ctxFor s u w sp i) (xs.map (fun x => tagU (ctxFor s u w sp i) x.1 x.2)) k = k s1 (ctxFor s u w sp i) := by
  apply consumeAll_clean
  intro t ht
  obtain ⟨x, hx, rfl⟩ := List.mem_map.1 ht
  exact h x hx

/-- An attached wave goes on with its block. -/
theorem attached_some {s : State} {c : Ctx} {b : Nat} (k : Nat → State) (h : c.w.block = some b) : attached s c k = k b := by
  unfold attached; rw [h]

theorem attached_none {s : State} {c : Ctx} (k : Nat → State) (h : c.w.block = none) :
    attached s c k = trapOpen s c .looseWave := by
  unfold attached; rw [h]

/-- A read into a uniform destination, in the spellings of the meanings. -/
theorem putResult_putU (s : State) (u : Nat) (w y : Wave) (sp : Split) (i : Instr) (d : Operand) (x : Word) :
    (if (ctxFor s u w sp i).skip then y else putResult y (uniformDest d) x) = putU y (activeMask w sp i) d ⟨x, .clean⟩ := by
  have h : (ctxFor s u w sp i).skip = decide (activeMask w sp i = 0) := rfl
  rw [h]
  cases d with
  | s n => simp only [putU, uniformDest, putResult, decide_eq_true_eq]
  | _ => simp only [putU, uniformDest, putResult, ite_self]

theorem putPair_putUPair (s : State) (u : Nat) (w y : Wave) (sp : Split) (i : Instr) (d : Operand) (x : DWord) :
    (if (ctxFor s u w sp i).skip then y else putPair y (uniformDest d) x) = putUPair y (activeMask w sp i) d ⟨x, .clean⟩ := by
  have h : (ctxFor s u w sp i).skip = decide (activeMask w sp i = 0) := rfl
  rw [h]
  cases d with
  | s n => simp only [putUPair, uniformDest, putPair, decide_eq_true_eq]
  | _ => simp only [putUPair, uniformDest, putPair, ite_self]

theorem putResult_skip (s : State) (u : Nat) (w y : Wave) (sp : Split) (i : Instr) (d : Operand) (x : Word) :
    putResult y (if (ctxFor s u w sp i).skip then none else uniformDest d) x = putU y (activeMask w sp i) d ⟨x, .clean⟩ := by
  rw [← putResult_putU s u w y sp i d x]
  split <;> rfl

theorem putPair_skip (s : State) (u : Nat) (w y : Wave) (sp : Split) (i : Instr) (d : Operand) (x : DWord) :
    putPair y (if (ctxFor s u w sp i).skip then none else uniformDest d) x = putUPair y (activeMask w sp i) d ⟨x, .clean⟩ := by
  rw [← putPair_putUPair s u w y sp i d x]
  split <;> rfl

@[simp] theorem putU_splits (w : Wave) (m : LaneMask) (d : Operand) (x : TWord) : (putU w m d x).splits = w.splits := by
  unfold putU; split
  · split <;> rfl
  · rfl

@[simp] theorem putUPair_splits (w : Wave) (m : LaneMask) (d : Operand) (x : TVal) : (putUPair w m d x).splits = w.splits := by
  unfold putUPair; split
  · split <;> rfl
  · rfl

/-- One effect held, and the split parked or elsewhere. -/
theorem done_hold {i : Instr} {s : State} {u : Nat} {w : Wave} {sp : Split} {k : State → Ctx → State} {e : Effect}
    {o : Option Nat} (hx : exec i s = run i s k) (w' : Wave) (f : Split → Split)
    (hk : k s (ctxFor s u w sp i) = finishBy (hold s u e o).2 (ctxFor s u w sp i) w' 0 [] f)
    (hw : w'.splits = w.splits) (hf : (f sp).entry = sp.entry) : Done i s u w sp (f sp) w' [e] :=
  done_of hx w' f hk (hold_apart s u u e o) hw hf rfl rfl (holds_one rfl rfl rfl rfl)

end Sys2Proof.Machine
end

