-- ==== Sys2Proof/Laws/Traps.lean ====
section
/-! SUPPORT. Laws of taking a trap: what a wave is after it, whether it enters its handler or stops. -/

namespace Sys2Proof.Machine

/-- A wave with the trap registers of a trap (R334). -/
def trapWave (s : State) (w : Wave) (cause : Cause) (val : Word) (pc : Nat) (noskip : Bool) : Wave :=
  { w with
    trapc := BitVec.ofNat 17 (cause.code + if noskip then 0x10000 else 0), trappc := pc, trapval := val, wdog := 0, waitTag := none
    nextIssue := s.now + Config.barrel }

theorem putWave_apart (s : State) (u : Nat) (w : Wave) : Apart s (putWave s u w) u where
  view _ _ := rfl
  home _ := ⟨rfl, rfl⟩
  blocks := rfl
  others _ hx := mget_mset_ne _ _ hx
  grids := rfl
  ctxs := rfl
  parts := rfl
  dies := rfl
  hubs := rfl
  images := rfl
  streams := rfl
  ports := rfl
  flights := rfl
  now := rfl

theorem modWave_apart (s : State) (u : Nat) (f : Wave → Wave) : Apart s (modWave s u f) u where
  view _ _ := rfl
  home _ := ⟨rfl, rfl⟩
  blocks := rfl
  others x hx := by simp [mget_mmod, hx]
  grids := rfl
  ctxs := rfl
  parts := rfl
  dies := rfl
  hubs := rfl
  images := rfl
  streams := rfl
  ports := rfl
  flights := rfl
  now := rfl

theorem modCore_apart (s : State) (c v : Nat) (f : Core → Core) : Apart s (modCore s c f) v :=
  ⟨fun _ _ => rfl, fun _ => ⟨rfl, rfl⟩, rfl, fun _ _ => rfl, rfl, rfl, rfl, rfl, rfl, rfl, rfl, rfl, rfl, rfl⟩

theorem charge_apart (s : State) (c : Ctx) (v : Nat) : Apart s (charge s c) v :=
  ⟨fun _ _ => rfl, fun _ => ⟨rfl, rfl⟩, rfl, fun _ _ => rfl, rfl, rfl, rfl, rfl, rfl, rfl, rfl, rfl, rfl, rfl⟩

/-- A trap with a handler that is not running: the wave is in it, and nothing else changes. -/
theorem takeTrapAt_enters (s : State) (u : Nat) (sp : Split) (cause : Cause) (val : Word) (pc : Nat) (ns : Bool) (back len : Nat)
    (hf : (waveOf s u).frame = none) (hh : (gridOf s (waveOf s u).grid).launch.handler ≠ 0) :
    mget (takeTrapAt s u sp cause val pc ns back len).waves u =
      some (enterHandler (trapWave s (waveOf s u) cause val pc ns) sp (gridOf s (waveOf s u).grid).launch.handler back len) ∧
    Apart s (takeTrapAt s u sp cause val pc ns back len) u := by
  unfold takeTrapAt
  dsimp only
  split
  · rename_i f h; rw [hf] at h; cases h
  rw [if_neg hh]
  generalize hw : enterHandler _ sp _ back len = w2
  have e : enterHandler (trapWave s (waveOf s u) cause val pc ns) sp (gridOf s (waveOf s u).grid).launch.handler back len = w2 := hw
  rw [e]
  have h2 : ∀ t : State, t = (if (waveOf s u).spillRecs < w2.spillRecs then
      (hold (putWave (putWave s u (trapWave s (waveOf s u) cause val pc ns)) u w2) u
        (.splitRecords ((waveOf s u).spillRecs + 1) (w2.spillRecs - (waveOf s u).spillRecs)) none).2
      else putWave (putWave s u (trapWave s (waveOf s u) cause val pc ns)) u w2) →
      mget t.waves u = some w2 ∧ Apart s t u := by
    intro t ht
    have ha : Apart s (putWave (putWave s u (trapWave s (waveOf s u) cause val pc ns)) u w2) u :=
      apart_trans (putWave_apart _ _ _) (putWave_apart _ _ _)
    by_cases h : (waveOf s u).spillRecs < w2.spillRecs
    · rw [if_pos h] at ht
      subst ht
      exact ⟨by simp, apart_trans ha (hold_apart _ _ _ _ _)⟩
    · rw [if_neg h] at ht
      subst ht
      exact ⟨by simp, ha⟩
  generalize hs2 : (if (waveOf s u).spillRecs < w2.spillRecs then _ else _ : State) = s2
  have h3 := h2 s2 (hs2.symm.trans rfl)
  by_cases hr : cause.alwaysRecords = true
  · simp only [hr, if_true]
    exact ⟨by simpa using h3.1, apart_trans h3.2 (hold_apart _ _ _ _ _)⟩
  · simp only [hr]
    exact h3

/-- A trap that no handler takes: the wave stops with the cause. -/
theorem takeTrapAt_stops (s : State) (u : Nat) (sp : Split) (cause : Cause) (val : Word) (pc : Nat) (ns : Bool) (back len : Nat)
    (hf : (waveOf s u).frame = none) (hh : (gridOf s (waveOf s u).grid).launch.handler = 0) :
    takeTrapAt s u sp cause val pc ns back len =
      stopWave (putWave s u (trapWave s (waveOf s u) cause val pc ns)) u cause pc val.toNat (trapTag cause val) := by
  unfold takeTrapAt
  dsimp only
  split
  · rename_i f h; rw [hf] at h; cases h
  rw [if_pos hh]
  rfl

/-- A trap in a handler: the wave stops with DOUBLE_TRAP. -/
theorem takeTrapAt_double (s : State) (u : Nat) (sp : Split) (cause : Cause) (val : Word) (pc : Nat) (ns : Bool) (back len : Nat)
    (f : Frame) (hf : (waveOf s u).frame = some f) :
    takeTrapAt s u sp cause val pc ns back len =
      stopWave (putWave s u (trapWave s (waveOf s u) cause val pc ns)) u .doubleTrap pc cause.code
        (trapTag cause val) := by
  unfold takeTrapAt
  dsimp only
  split
  · rfl
  · rename_i h; rw [hf] at h; cases h

/-- A stopped wave. -/
theorem stopWave_wave {s : State} {u : Nat} {w : Wave} (h : mget s.waves u = some w) (cause : Cause) (addr detail : Nat) (tag : Tag) :
    mget (stopWave s u cause addr detail tag).waves u = some { w with state := .faulted } := by
  simp [stopWave, mget_mmod, h]

theorem stopWave_apart (s : State) (u : Nat) (cause : Cause) (addr detail : Nat) (tag : Tag) :
    Apart s (stopWave s u cause addr detail tag) u :=
  apart_trans (modWave_apart _ _ _) (hold_apart _ _ _ _ _)

end Sys2Proof.Machine
end

