-- ==== Sys2Proof/Laws/Access.lean ====
section
/-! SUPPORT. Laws of accesses to memory: what pipe charges and translations leave, how an access ends with its
watchpoint hit, and how the checks of an access lead to its own effect. -/

namespace Sys2Proof.Machine

/-- A change of a core leaves how an instruction ended. -/
theorem ends_modCore {i : Instr} {s t : State} {u : Nat} {w w' : Wave} {sp sp' : Split} {es : List Effect} (c : Nat)
    (f : Core → Core) (h : Ends i s t u w sp sp' w' es) : Ends i s (modCore t c f) u w sp sp' w' es :=
  ⟨⟨h.issued.wave, apart_trans h.issued.apart (modCore_apart t c u f), h.issued.split, h.issued.sig, h.issued.wdog,
    h.issued.next⟩, h.rest, h.regs, h.wstat, h.held⟩

/-! ### What a trap leaves, whether it is taken or stops the wave -/

/-- A trap taken outside a handler: its trap registers, and what it leaves. -/
structure TrapLeft (s t : State) (u : Nat) (cause : Cause) (val : Word) (pc : Nat) (ns : Bool) : Prop where
  trapc : (waveOf t u).trapc = BitVec.ofNat 17 (cause.code + if ns then 0x10000 else 0)
  trappc : (waveOf t u).trappc = pc
  trapval : (waveOf t u).trapval = val
  regs : RegsSame (waveOf s u) (waveOf t u)
  ops : (waveOf t u).ops = (waveOf s u).ops
  flags : (waveOf t u).flags = (waveOf s u).flags
  apart : Apart s t u
  held : ∀ h ∈ s.held, h ∈ t.held

theorem held_ite {p : Prop} [Decidable p] {a b : State} {h : Held} (ha : h ∈ a.held) (hb : h ∈ b.held) :
    h ∈ (if p then a else b).held := by
  split <;> assumption

theorem takeTrapAt_left (s : State) (u : Nat) (sp : Split) (cause : Cause) (val : Word) (pc : Nat) (ns : Bool) (back len : Nat)
    (hf : (waveOf s u).frame = none) : TrapLeft s (takeTrapAt s u sp cause val pc ns back len) u cause val pc ns := by
  by_cases hh : (gridOf s (waveOf s u).grid).launch.handler = 0
  · rw [takeTrapAt_stops s u sp cause val pc ns back len hf hh]
    have h1 : mget (putWave s u (trapWave s (waveOf s u) cause val pc ns)).waves u =
      some (trapWave s (waveOf s u) cause val pc ns) := by simp
    have h2 := waveOf_eq (stopWave_wave h1 cause pc val.toNat (trapTag cause val))
    exact ⟨by rw [h2]; rfl, by rw [h2]; rfl, by rw [h2]; rfl, by rw [h2]; exact regsSame_of rfl rfl rfl rfl, by rw [h2]; rfl,
      by rw [h2]; rfl, apart_trans (putWave_apart _ _ _) (stopWave_apart _ _ _ _ _ _),
      fun h hm => List.mem_append_left _ hm⟩
  · obtain ⟨h1, h2⟩ := takeTrapAt_enters s u sp cause val pc ns back len hf hh
    have h3 := waveOf_eq h1
    refine ⟨by rw [h3]; rfl, by rw [h3]; rfl, by rw [h3]; rfl, by rw [h3]; exact regsSame_of rfl rfl rfl rfl, by rw [h3]; rfl,
      by rw [h3]; rfl, h2, ?_⟩
    intro h hm
    unfold takeTrapAt
    dsimp only
    split
    · rename_i f hq; rw [hf] at hq; cases hq
    rw [if_neg hh]
    have h2 := held_ite (p := (waveOf s u).spillRecs < (enterHandler (trapWave s (waveOf s u) cause val pc ns) sp
      (gridOf s (waveOf s u).grid).launch.handler back len).spillRecs) (h := h) (a := (hold (putWave (putWave s u
        (trapWave s (waveOf s u) cause val pc ns)) u (enterHandler (trapWave s (waveOf s u) cause val pc ns) sp
      (gridOf s (waveOf s u).grid).launch.handler back len)) u (.splitRecords ((waveOf s u).spillRecs + 1)
      ((enterHandler (trapWave s (waveOf s u) cause val pc ns) sp
      (gridOf s (waveOf s u).grid).launch.handler back len).spillRecs - (waveOf s u).spillRecs)) none).2)
      (b := putWave (putWave s u
        (trapWave s (waveOf s u) cause val pc ns)) u (enterHandler (trapWave s (waveOf s u) cause val pc ns) sp
      (gridOf s (waveOf s u).grid).launch.handler back len)) (List.mem_append_left _ hm) hm
    exact held_ite (List.mem_append_left _ h2) h2

/-! ### The watchpoint hit of an access -/

theorem rest_frame {w w' : Wave} (h : w.rest = w'.rest) : w.frame = w'.frame :=
  (congrArg Wave.frame h : w.rest.frame = w'.rest.frame)
theorem rest_ops {w w' : Wave} (h : w.rest = w'.rest) : w.ops = w'.ops :=
  (congrArg Wave.ops h : w.rest.ops = w'.rest.ops)
theorem rest_flags {w w' : Wave} (h : w.rest = w'.rest) : w.flags = w'.flags :=
  (congrArg Wave.flags h : w.rest.flags = w'.rest.flags)
theorem rest_ctx {w w' : Wave} (h : w.rest = w'.rest) : w.ctx = w'.ctx :=
  (congrArg Wave.ctx h : w.rest.ctx = w'.rest.ctx)

theorem regsSame_trans {a b c : Wave} (h : RegsSame a b) (k : RegsSame b c) : RegsSame a c :=
  ⟨fun x l => (k.v x l).trans (h.v x l), fun n => (k.s n).trans (h.s n), fun n => (k.a n).trans (h.a n),
    fun n => (k.p n).trans (h.p n)⟩

/-- An access that has had its effect in `t0` ends with its watchpoint hit. -/
theorem accessed_of {i : Instr} {s t0 : State} {u : Nat} {w w' : Wave} {sp : Split} {hit : Option (Nat × Nat)}
    {es : List Effect} (hx : Ready i s u w sp → exec i s = .next (afterAccess t0 (ctxFor s u w sp i) hit))
    (hf : w'.frame = w.frame) (hc : w'.ctx = w.ctx)
    (he : Ready i s u w sp → sp.trump = none → Ends i s t0 u w sp (nextWord sp i) w' es) : Accessed i s u w sp hit w' es := by
  refine ⟨?_, ?_, ?_⟩
  · intro hn h ht
    exact ⟨t0, by rw [hx h, hn]; rfl, he h ht⟩
  · intro x hn hfr h ht
    have e := he h ht
    have h1 : (waveOf t0 u).frame = w.frame := (rest_frame e.rest).trans hf
    have h2 : (waveOf t0 u).frame.isSome = true := by
      rw [h1]; cases hh : w.frame with
      | none => exact absurd hh hfr
      | some _ => rfl
    have h3 : waveOf (modWave t0 u (fun w => { w with pendingHit := some (x.1, x.2, sp.pc + 4 * (1 + i.lits.length)) })) u = { waveOf t0 u with pendingHit := some (x.1, x.2, sp.pc + 4 * (1 + i.lits.length)) } :=
      waveOf_eq (by simp [mget_mmod, e.issued.wave])
    refine ⟨modWave t0 u (fun w => { w with pendingHit := some (x.1, x.2, sp.pc + 4 * (1 + i.lits.length)) }), ?_, ⟨?_, ?_, ?_, ?_, e.held⟩⟩
    · rw [hx h, hn]
      show Host.Outcome.next (if (waveOf t0 u).frame.isSome then _ else _) = _
      rw [if_pos h2]
      rfl
    · rw [h3]
      exact ⟨by simp [mget_mmod, e.issued.wave], apart_trans e.issued.apart (modWave_apart _ _ _), e.issued.split, e.issued.sig,
        e.issued.wdog, e.issued.next⟩
    · rw [h3]
      have := e.rest
      show ({ (waveOf t0 u).rest with pendingHit := some (x.1, x.2, sp.pc + 4 * (1 + i.lits.length)) } : Wave) = { w'.rest with pendingHit := some (x.1, x.2, sp.pc + 4 * (1 + i.lits.length)) }
      rw [this]
    · rw [h3]; exact ⟨e.regs.v, e.regs.s, e.regs.a, e.regs.p⟩
    · rw [h3]; exact e.wstat
  · intro x hn hfr h ht
    have e := he h ht
    have h1 : (waveOf t0 u).frame = none := ((rest_frame e.rest).trans hf).trans hfr
    have hctx : (waveOf t0 u).ctx = w.ctx := (rest_ctx e.rest).trans hc
    have hco : ctxOf t0 (waveOf t0 u).ctx = ctxOf s w.ctx := by
      rw [hctx]; unfold ctxOf; rw [e.issued.apart.ctxs]
    have hex : exec i s = .next (deliverHit t0 u sp.entry x.1 x.2 (sp.pc + 4 * (1 + i.lits.length))) := by
      rw [hx h, hn]
      show Host.Outcome.next (if (waveOf t0 u).frame.isSome then _ else _) = _
      rw [h1]
      rfl
    obtain ⟨hs, g1, g2, g3⟩ := e.held
    have hes : ∀ y ∈ es, ∃ h ∈ t0.held, h.eff = y ∧ h.wave = u ∧ h.issued = s.now ∧ h.due = s.now + Config.holdback := by
      intro y hy
      rw [← g2] at hy
      obtain ⟨z, hz, rfl⟩ := List.mem_map.1 hy
      exact ⟨z, by rw [g1]; exact List.mem_append_right _ hz, rfl, (g3 z hz).1, (g3 z hz).2.1, (g3 z hz).2.2.1⟩
    cases hd : (ctxOf s w.ctx).debugger with
    | true =>
      have hdl : deliverHit t0 u sp.entry x.1 x.2 (sp.pc + 4 * (1 + i.lits.length)) = broadcastStop (modWave t0 u debugStop) u
          (match (waveOf t0 u).block with
            | some k => (mget (blockOf t0 k).watch x.1).bind (·.cohort)
            | none => none) := by
        unfold deliverHit
        simp only [hco, hd, if_true] <;> rfl
      generalize (match (waveOf t0 u).block with
            | some k => (mget (blockOf t0 k).watch x.1).bind (·.cohort)
            | none => none) = co at hdl
      have hw1 : mget (modWave t0 u debugStop).waves u =
          some (debugStop (waveOf t0 u)) := by simp [mget_mmod, e.issued.wave]
      have h2 := waveOf_eq (s := broadcastStop (modWave t0 u debugStop) u co) hw1
      refine ⟨_, hex, ?_⟩
      rw [hdl]
      refine ⟨apart_trans e.issued.apart (apart_trans (modWave_apart _ _ _) (hold_apart _ _ _ _ _)), ?_, ?_, ?_, ?_, ?_, ?_⟩
      · rw [h2]; exact regsSame_trans e.regs (regsSame_of rfl rfl rfl rfl)
      · rw [h2]; exact (rest_ops e.rest : (waveOf t0 u).ops = w'.ops)
      · rw [h2]; exact (rest_flags e.rest : (waveOf t0 u).flags = w'.flags)
      · intro y hy
        obtain ⟨z, hz, r⟩ := hes y hy
        exact ⟨z, List.mem_append_left _ hz, r⟩
      · intro q; cases q
      · intro _
        rw [h2]
        refine ⟨rfl, rfl, _, List.mem_append_right _ (List.mem_singleton.2 rfl), rfl, ?_⟩
        dsimp only
        have h5 := waveOf_eq hw1
        exact ⟨_, _, by rw [h5]; show Effect.stopSet _ _ (waveOf t0 u).ctx = _; rw [hctx]⟩
    | false =>
      have hsp : splitOf (waveOf t0 u) sp.entry = some (nextWord sp i) := e.issued.split
      have hdl : deliverHit t0 u sp.entry x.1 x.2 (sp.pc + 4 * (1 + i.lits.length)) = takeTrapAt t0 u (nextWord sp i) .watchpoint (BitVec.ofNat 32 (x.1 + 4 * x.2))
          (sp.pc + 4 * (1 + i.lits.length)) true (nextWord sp i).pc 0 := by
        unfold deliverHit
        simp only [hco, hd, Bool.false_eq_true, if_false, hsp]
      have hl := takeTrapAt_left t0 u (nextWord sp i) .watchpoint (BitVec.ofNat 32 (x.1 + 4 * x.2))
        (sp.pc + 4 * (1 + i.lits.length)) true (nextWord sp i).pc 0 h1
      rw [← hdl] at hl
      refine ⟨_, hex, apart_trans e.issued.apart hl.apart, regsSame_trans e.regs hl.regs, hl.ops.trans (rest_ops e.rest),
        hl.flags.trans (rest_flags e.rest), ?_, fun _ => ⟨hl.trapc, hl.trappc, hl.trapval⟩, fun q => by cases q⟩
      intro y hy
      obtain ⟨z, hz, r⟩ := hes y hy
      exact ⟨z, hl.held z hz, r⟩

/-! ### The checks -/

theorem find?_map_lanes (l : List Nat) (off : Nat → Nat) (p : Nat × Nat → Bool) :
    (l.map (fun x => (x, off x))).find? p = (l.find? (fun x => p (x, off x))).map (fun x => (x, off x)) := by
  rw [List.find?_map]; rfl

/-- A meaning that makes the checks of the scratchpad, then `k`. -/
theorem spadTested_of {i : Instr} {s : State} {u : Nat} {w : Wave} {sp : Split} {off : Nat → Nat} {wr rd : Bool}
    {P : Nat → List (Nat × Nat) → Option (Nat × Nat) → Prop} {m : State → Ctx → State} {g : Ctx → Nat → Nat}
    {k : State → Ctx → List (Nat × Nat) → State} (hx : exec i s = run i s m)
    (hm : m s (ctxFor s u w sp i) = attached s (ctxFor s u w sp i) (fun _ => spadChecked s (ctxFor s u w sp i) g wr rd k))
    (hg : g (ctxFor s u w sp i) = off)
    (hp : ∀ b hit n, w.block = some b → let ls := activeAddrs w sp i off
      (Ready i s u w sp → exec i s = .next (afterAccess (occupyM (k s (ctxFor s u w sp i) ls) (ctxFor s u w sp i) n) (ctxFor s u w sp i) hit)) →
      P b ls hit) : SpadTested i s u w sp off wr rd P := by
  have hr : ∀ h : Ready i s u w sp, exec i s = .next (m s (ctxFor s u w sp i)) := fun h => by rw [hx, run_ready h]
  refine ⟨?_, ?_⟩
  · intro hb h
    rw [hr h, hm]
    rw [attached_none (c := ctxFor s u w sp i) _ hb]
    rfl
  · intro b hb
    have hm2 : m s (ctxFor s u w sp i) = spadChecked s (ctxFor s u w sp i) g wr rd k := by
      rw [hm, attached_some (c := ctxFor s u w sp i) _ hb]
    have hls : laneOffsets (ctxFor s u w sp i) (g (ctxFor s u w sp i)) = activeAddrs w sp i off := by rw [hg]; rfl
    have hbk : (blockOf s ((ctxFor s u w sp i).w.block.getD 0)) = blockOf s b := by
      show blockOf s (w.block.getD 0) = _; rw [hb]; rfl
    unfold spadChecked at hm2
    dsimp only at hm2
    rw [hls, hbk] at hm2
    refine ⟨?_, ?_, ?_, ?_⟩
    · intro ha
      have : activeAddrs w sp i off = [] := by unfold activeAddrs; rw [ha]; rfl
      rw [this] at hm2
      exact doneNext_plain hx w hm2 rfl
    · intro l hl h
      have hne : (activeAddrs w sp i off).isEmpty = false := by
        unfold activeAddrs
        rw [List.isEmpty_map]
        cases hq : lanesOf (activeMask w sp i) with
        | nil => rw [hq] at hl; simp at hl
        | cons _ _ => rfl
      rw [hne] at hm2
      have hfd : (activeAddrs w sp i off).find? (fun x => decide (x.2 % accessWidth (ctxFor s u w sp i).sp.mode ≠ 0)) =
          some (l, off l) := by
        unfold activeAddrs
        rw [find?_map_lanes]
        exact congrArg (Option.map _) hl
      rw [hfd] at hm2
      rw [hr h, hm2]
      rfl
    · intro hal l hl h
      have hne : (activeAddrs w sp i off).isEmpty = false := by
        unfold activeAddrs
        rw [List.isEmpty_map]
        cases hq : lanesOf (activeMask w sp i) with
        | nil => rw [hq] at hl; simp at hl
        | cons _ _ => rfl
      have hf1 : (activeAddrs w sp i off).find? (fun x => decide (x.2 % accessWidth (ctxFor s u w sp i).sp.mode ≠ 0)) = none := by
        unfold activeAddrs
        rw [List.find?_eq_none]
        intro x hxm
        obtain ⟨y, hy, rfl⟩ := List.mem_map.1 hxm
        have := hal y hy
        show ¬ (decide (off y % accessWidth sp.mode ≠ 0) = true)
        simpa using this
      have hf2 : (activeAddrs w sp i off).find? (fun x => decide ((blockOf s b).spadLen < x.2 +
          accessWidth (ctxFor s u w sp i).sp.mode)) = some (l, off l) := by
        unfold activeAddrs
        rw [find?_map_lanes]
        exact congrArg (Option.map _) hl
      rw [hne, hf1, hf2] at hm2
      rw [hr h, hm2]
      rfl
    · intro hne0 hal
      have hne : (activeAddrs w sp i off).isEmpty = false := by
        unfold activeAddrs
        rw [List.isEmpty_map]
        cases hq : lanesOf (activeMask w sp i) with
        | nil => exact absurd hq hne0
        | cons _ _ => rfl
      have hf1 : (activeAddrs w sp i off).find? (fun x => decide (x.2 % accessWidth (ctxFor s u w sp i).sp.mode ≠ 0)) = none := by
        unfold activeAddrs
        rw [List.find?_eq_none]
        intro x hxm
        obtain ⟨y, hy, rfl⟩ := List.mem_map.1 hxm
        have := (hal y hy).1
        show ¬ (decide (off y % accessWidth sp.mode ≠ 0) = true)
        simpa using this
      have hf2 : (activeAddrs w sp i off).find? (fun x => decide ((blockOf s b).spadLen < x.2 +
          accessWidth (ctxFor s u w sp i).sp.mode)) = none := by
        unfold activeAddrs
        rw [List.find?_eq_none]
        intro x hxm
        obtain ⟨y, hy, rfl⟩ := List.mem_map.1 hxm
        have := (hal y hy).2
        show ¬ (decide ((blockOf s b).spadLen < off y + accessWidth sp.mode) = true)
        simpa using this
      rw [hne, hf1, hf2] at hm2
      refine hp b _ (bankCycles s (ctxFor s u w sp i).w.core (blockOf s b).spadBase (activeAddrs w sp i off)
                (accessWidth (ctxFor s u w sp i).sp.mode)) hb (fun h => ?_)
      rw [hr h, hm2]
      rfl

/-- The end of an issue at the next word, in a state that differs from `s` by held effects and numbers only. -/
theorem ends_finish {i : Instr} {s s1 : State} {u : Nat} {w : Wave} {sp : Split} (h : Ready i s u w sp) (ht : sp.trump = none)
    (ha : Apart s s1 u) (w' : Wave) (hw : w'.splits = w.splits) {es : List Effect} (hh : Holds s s1 u es) :
    Ends i s (finish s1 (ctxFor s u w sp i) w' 0 []) u w sp (nextWord sp i) w' es := by
  have := ends_of h ht ha w' hw 0 [] (fun x => stepOver x (1 + i.lits.length)) (stepOver_entry sp _) hh
  have e : ({ w' with wstat := w'.wstat ||| 0 } : Wave) = w' := by
    rw [show w'.wstat ||| (0 : Sticky) = w'.wstat from BitVec.or_zero]
  rwa [e] at this

/-- A scratchpad access whose own effect ends the issue. -/
theorem accessed_finish {i : Instr} {s s1 : State} {u : Nat} {w w' : Wave} {sp : Split} {hit : Option (Nat × Nat)} {n : Nat}
    {es : List Effect} (hx : Ready i s u w sp → exec i s = .next (afterAccess (occupyM (finish s1 (ctxFor s u w sp i) w' 0 [])
      (ctxFor s u w sp i) n) (ctxFor s u w sp i) hit)) (ha : Apart s s1 u) (hw : w'.splits = w.splits)
    (hf : w'.frame = w.frame) (hc : w'.ctx = w.ctx) (hh : Holds s s1 u es) : Accessed i s u w sp hit w' es :=
  accessed_of hx hf hc (fun h ht => ends_modCore _ _ (ends_finish h ht ha w' hw hh))

/-- The addresses of the active lanes, clean, are consumed without effect. -/
theorem clean_single {i : Instr} {s : State} {u : Nat} {w : Wave} {sp : Split} {a : Operand}
    (h : CleanLanes i s u w sp a false) (s1 : State) (b : Bool) (k : State → Ctx → State) :
    consumeThen s1 (ctxFor s u w sp i) (ctxFor s u w sp i).act (fun l => [(read32 (ctxFor s u w sp i) a l).tag]) b k =
      k s1 (ctxFor s u w sp i) := by
  apply consumeThen_clean
  intro l hl t ht
  rw [List.mem_singleton.1 ht]
  exact h l hl

theorem clean_pair {i : Instr} {s : State} {u : Nat} {w : Wave} {sp : Split} {a : Operand}
    (h : CleanLanes i s u w sp a true) (s1 : State) (b : Bool) (k : State → Ctx → State) :
    consumeThen s1 (ctxFor s u w sp i) (ctxFor s u w sp i).act (fun l => [(readPair (ctxFor s u w sp i) a l).tag]) b k =
      k s1 (ctxFor s u w sp i) := by
  apply consumeThen_clean
  intro l hl t ht
  rw [List.mem_singleton.1 ht]
  exact h l hl

/-- The layout registers and the index of each lane, clean, are consumed without effect. -/
theorem clean_layout {i : Instr} {s : State} {u : Nat} {w : Wave} {sp : Split} {a : Operand} {n : Nat}
    (h : CleanLanes i s u w sp a false) (hu : CleanU i s u w sp [(.s n, false), (.s (n + 1), false), (.s (n + 2), false)])
    (s1 : State) (b : Bool) (k : State → Ctx → State) :
    consumeThen s1 (ctxFor s u w sp i) (ctxFor s u w sp i).act (fun l => [tagU (ctxFor s u w sp i) (.s n) false,
      tagU (ctxFor s u w sp i) (.s (n + 1)) false, tagU (ctxFor s u w sp i) (.s (n + 2)) false,
      (read32 (ctxFor s u w sp i) a l).tag]) b k = k s1 (ctxFor s u w sp i) := by
  apply consumeThen_clean
  intro l hl t ht
  simp only [List.mem_cons, List.mem_nil_iff, or_false] at ht
  rcases ht with rfl | rfl | rfl | rfl
  · exact hu (.s n, false) (by simp)
  · exact hu (.s (n + 1), false) (by simp)
  · exact hu (.s (n + 2), false) (by simp)
  · exact h l hl

/-! ### Global accesses -/

/-- A caching of translations changes at most the cores. -/
theorem cacheWalk_cores (s : State) (core part ctx va : Nat) : ∃ cs, cacheWalk s core part ctx va = { s with cores := cs } := by
  unfold cacheWalk
  split
  · exact ⟨_, rfl⟩
  · exact ⟨s.cores, rfl⟩

theorem foldl_cores (f : State → Nat → State) (h : ∀ s n, ∃ cs, f s n = { s with cores := cs }) (l : List Nat) (s : State) :
    ∃ cs, l.foldl f s = { s with cores := cs } := by
  induction l generalizing s with
  | nil => exact ⟨s.cores, rfl⟩
  | cons x r ih =>
    obtain ⟨c, hc⟩ := h s x
    obtain ⟨c2, h2⟩ := ih (f s x)
    exact ⟨c2, by rw [List.foldl_cons, h2, hc]⟩

theorem cacheAll_cores (s : State) (g : Agent) (l : List Nat) : ∃ cs, cacheAll s g l = { s with cores := cs } :=
  foldl_cores _ (fun s _ => cacheWalk_cores s _ _ _ _) _ s

theorem cores_apart (s : State) (cs : Map Core) (u : Nat) : Apart s { s with cores := cs } u :=
  ⟨fun _ _ => rfl, fun _ => ⟨rfl, rfl⟩, rfl, fun _ _ => rfl, rfl, rfl, rfl, rfl, rfl, rfl, rfl, rfl, rfl, rfl⟩

/-- A meaning that makes the checks of a global access, then `k`. -/
theorem globalTested_of {i : Instr} {s : State} {u : Nat} {w : Wave} {sp : Split} {a : Operand} {kind : Access}
    {P : List (Nat × Nat) → Option (Nat × Nat) → Prop} {m : State → Ctx → State}
    {k : State → Ctx → List (Nat × Nat) → State} (hx : exec i s = run i s m) (hcl : CleanLanes i s u w sp a true)
    (hm : m s (ctxFor s u w sp i) = globalAccess s (ctxFor s u w sp i) a kind k)
    (hp : ∀ ls hit cs, (Ready i s u w sp →
      exec i s = .next (afterAccess (k { s with cores := cs } (ctxFor s u w sp i) ls) (ctxFor s u w sp i) hit)) → P ls hit) :
    GlobalTested i s u w sp (fun l => (readPair (ctxFor s u w sp i) a l).val.toNat) kind P := by
  have hr : ∀ h : Ready i s u w sp, exec i s = .next (m s (ctxFor s u w sp i)) := fun h => by rw [hx, run_ready h]
  unfold globalAccess at hm
  rw [clean_pair hcl] at hm
  dsimp only at hm
  have hls : laneOffsets (ctxFor s u w sp i) (fun l => (readPair (ctxFor s u w sp i) a l).val.toNat) =
    activeAddrs w sp i (fun l => (readPair (ctxFor s u w sp i) a l).val.toNat) := rfl
  rw [hls] at hm
  refine ⟨?_, ?_, ?_⟩
  · intro ha
    rw [if_pos (by rw [ha]; rfl)] at hm
    exact doneNext_plain hx w hm rfl
  · intro ha f hf h
    rw [if_neg (by simpa using ha)] at hm
    have hf' : checkLanes s (agentOf (ctxFor s u w sp i).w) kind (accessWidth (ctxFor s u w sp i).sp.mode)
      (activeAddrs w sp i (fun l => (readPair (ctxFor s u w sp i) a l).val.toNat)) = some f := hf
    rw [hf'] at hm
    rw [hr h, hm]
  · intro ha hf
    rw [if_neg (by simpa using ha)] at hm
    have hf' : checkLanes s (agentOf (ctxFor s u w sp i).w) kind (accessWidth (ctxFor s u w sp i).sp.mode)
      (activeAddrs w sp i (fun l => (readPair (ctxFor s u w sp i) a l).val.toNat)) = none := hf
    rw [hf'] at hm
    obtain ⟨cs, hcs⟩ := cacheAll_cores s (agentOf (ctxFor s u w sp i).w)
      ((activeAddrs w sp i (fun l => (readPair (ctxFor s u w sp i) a l).val.toNat)).map (·.2))
    dsimp only at hm
    rw [hcs] at hm
    exact hp _ _ cs (fun h => by rw [hr h, hm]; rfl)

/-- A global access whose own effect ends the issue. -/
theorem accessed_finishG {i : Instr} {s s1 : State} {u : Nat} {w w' : Wave} {sp : Split} {hit : Option (Nat × Nat)}
    {es : List Effect} (hx : Ready i s u w sp → exec i s = .next (afterAccess (finish s1 (ctxFor s u w sp i) w' 0 [])
      (ctxFor s u w sp i) hit)) (ha : Apart s s1 u) (hw : w'.splits = w.splits)
    (hf : w'.frame = w.frame) (hc : w'.ctx = w.ctx) (hh : Holds s s1 u es) : Accessed i s u w sp hit w' es :=
  accessed_of hx hf hc (fun h ht => ends_finish h ht ha w' hw hh)

end Sys2Proof.Machine
end

