-- ==== Sys2Proof/Laws/Control.lean ====
section
/-! SUPPORT. Laws of branches, parked splits and consumed operands, as the claims about control flow use them. -/

namespace Sys2Proof.Machine

/-- A meaning that tests a target and goes on with `g`. -/
theorem targetTested_of {i : Instr} {s : State} {u : Nat} {w : Wave} {sp : Split} {va : Nat} {P : Prop} {k : State → Ctx → State}
    {g : State → State} (hx : exec i s = run i s k) (hk : k s (ctxFor s u w sp i) = withTarget s (ctxFor s u w sp i) va g)
    (hp : k s (ctxFor s u w sp i) = g s → P) : TargetTested i s u w sp va P := by
  refine ⟨?_, ?_, ?_⟩
  · intro h; exact hp (hk.trans (withTarget_good (c := ctxFor s u w sp i) g h))
  · intro h
    refine traps_of hx (hk.trans ?_)
    unfold withTarget
    rw [show targetTest s (ctxFor s u w sp i).w va = .other from h]
  · intro m h hr
    rw [hx, run_ready hr, hk]
    unfold withTarget
    rw [show targetTest s (ctxFor s u w sp i).w va = .missing m from h]
    rfl

/-- A whole split that goes to a header. -/
theorem jump_done {i : Instr} {s : State} {u : Nat} {w : Wave} {sp : Split} {va : Nat} {k : State → Ctx → State} 
   (hx : exec i s = run i s k) (w' : Wave) (hk : k s (ctxFor s u w sp i) = finishJump s (ctxFor s u w sp i) w' va)
   (hw : w'.splits = w.splits) : Done i s u w sp (jumpTo sp va) w' [] :=
  done_of hx w' _ hk (apart_refl s u) hw rfl rfl rfl (holds_nil rfl)

/-- A split that parks. -/
theorem park_done {i : Instr} {s : State} {u : Nat} {w : Wave} {sp : Split} {cond : Cond} {t : Option Nat} {k : State → Ctx → State} 
   (hx : exec i s = run i s k) (hk : k s (ctxFor s u w sp i) = finishPark s (ctxFor s u w sp i) w cond t) :
   Done i s u w sp (parkedAt sp i cond t) w [] :=
  done_of hx w _ hk (apart_refl s u) rfl rfl rfl rfl (holds_nil rfl)

/-- One clean uniform operand is consumed without effect. -/
theorem clean1 {i : Instr} {s : State} {u : Nat} {w : Wave} {sp : Split} {a : Operand} {b : Bool}
    (h : CleanU i s u w sp [(a, b)]) (s1 : State) (k : State → Ctx → State) :
    consumeAll s1 (ctxFor s u w sp i) [tagU (ctxFor s u w sp i) a b] k = k s1 (ctxFor s u w sp i) :=
  consumeAll_cleanU h s1 k

/-- A branch whose condition bits are clean goes on to the test of its target. -/
theorem branch_clean {i : Instr} {s : State} {u : Nat} {w : Wave} {sp : Split} {p : Operand} {o : BitVec 16} 
  (h : ∀ l, inMask (sp.mask &&& w.live) l = true → (readPred (ctxFor s u w sp i) p l).2 = .clean)
  (k : State → Ctx → LaneMask → LaneMask → Nat → State) :
  branchThen s (ctxFor s u w sp i) p o k = withTarget s (ctxFor s u w sp i) (wordOffset sp.pc o.toInt) (fun s2 =>
    k s2 (ctxFor s u w sp i) (sp.mask &&& w.live) (maskOf (fun l => inMask (sp.mask &&& w.live) l && (readPred (ctxFor s u w sp i) p l).1))
     (wordOffset sp.pc o.toInt)) := by
  unfold branchThen
  rw [consumeThen_clean]
  · rfl
  · intro l hl t ht
    rw [List.mem_singleton] at ht
    rw [ht]
    exact h l ((mem_lanesOf _ _).1 hl).2

/-- A mask is empty when no lane is in it. -/
theorem mask_eq_zero (m : LaneMask) : m = 0 ↔ ∀ l, l < 64 → inMask m l = false := by
  constructor
  · rintro rfl l _; simp [inMask]
  · intro h
    apply BitVec.eq_of_getLsbD_eq
    intro i hi
    have := h i hi
    simpa [inMask] using this

/-- Masks are equal when they hold the same lanes. -/
theorem mask_iff (m n : LaneMask) : m = n ↔ ∀ l, l < 64 → inMask m l = inMask n l := by
  constructor
  · rintro rfl l _; rfl
  · intro h
    apply BitVec.eq_of_getLsbD_eq
    intro i hi
    exact h i hi

end Sys2Proof.Machine
end

