-- ==== Sys2Proof/Laws/Engines.lean ====
section
/-! SUPPORT. Laws of checks made in order and of requests to engine queues. -/

namespace Sys2Proof.Machine

/-- The first check that holds decides; checks made one after the other are a list of them. -/
theorem checks_cons {i : Instr} {s : State} {u : Nat} {w : Wave} {sp : Split} {b : Bool} {cause : Cause} {val : Word}
    {r : List (Bool × Cause × Word)} {P : Prop} (h1 : b = true → Traps i s u w sp cause val)
    (h2 : b = false → ChecksThen i s u w sp r P) : ChecksThen i s u w sp ((b, cause, val) :: r) P := by
  cases b with
  | true =>
    refine ⟨?_, ?_⟩
    · intro x hx
      simp only [List.find?_cons, Option.some.injEq] at hx
      subst hx
      exact h1 rfl
    · intro hx
      simp at hx
  | false =>
    refine ⟨?_, ?_⟩
    · intro x hx
      simp only [List.find?_cons] at hx
      exact (h2 rfl).1 x hx
    · intro hx
      simp only [List.find?_cons] at hx
      exact (h2 rfl).2 hx

theorem checks_nil {i : Instr} {s : State} {u : Nat} {w : Wave} {sp : Split} {P : Prop} (h : P) :
    ChecksThen i s u w sp [] P :=
  ⟨fun x hx => by simp at hx, fun _ => h⟩

theorem nth_nthSet_self {α : Type} (d x : α) (l : List α) (n : Nat) : nth (nthSet d x l n) n d = x := by
  rw [nth_nthSet]; simp

/-- A meaning that asks for a place in a queue and starts a request. -/
theorem engineBegun_of {i : Instr} {s : State} {u : Nat} {w : Wave} {sp : Split} {q : Nat} {work : Work} {batch : Bool}
    {k : State → Ctx → State} (hx : exec i s = run i s k)
    (hk : k s (ctxFor s u w sp i) = withPlaces s (ctxFor s u w sp i) [q] (fun s1 => startEngine s1 (ctxFor s u w sp i) q work batch)) :
    EngineBegun i s u w sp q work batch := by
  have hq : ([q].all (queueRoom s (ctxFor s u w sp i).w)) = queueRoom s w q := by
    show (queueRoom s w q && true) = _
    rw [Bool.and_true]
  refine ⟨?_, ?_⟩
  · intro hr
    refine waits_of hx (hk.trans ?_)
    unfold withPlaces
    rw [hq, hr]
    rfl
  · intro hr h ht
    let c := ctxFor s u w sp i
    let o := engineOp c s.nextId q (destRegs c)
    let s1 : State := { s with nextId := s.nextId + 1 }
    let e := entryFor s1 c work [(u, o.id)]
    let s2 := takePlace { s1 with nextId := s1.nextId + 1 } w.core q e.id w.block
    let s3 := (hold s2 u (.enter q e) (some o.id)).2
    let w' : Wave := { addOp w o with openBatch := if batch then w.openBatch ++ [o.id] else w.openBatch }
    have he : exec i s = .next (finish s3 c w' 0 []) := by
      rw [hx, run_ready h, hk]
      unfold withPlaces
      rw [hq, hr]
      cases batch <;> rfl
    have ha : Apart s s3 u := apart_trans (apart_trans (nextId_apart s (s.nextId + 1 + 1) u) (modCore_apart _ _ _ _)) (hold_apart s2 u u _ _)
    have hh : Holds s s3 u [.enter q e] := holds_one' (s1 := s2) rfl rfl rfl rfl rfl rfl
    refine ⟨finish s3 c w' 0 [], o, e, he, ends_finish h ht ha w' rfl hh, rfl, rfl, rfl, rfl, rfl, rfl, rfl, rfl, rfl, rfl, rfl, ?_⟩
    show (nth (mgetD (mset s3.cores w.core _) w.core ({} : Core)).queues q {}).issued = _
    rw [mgetD_mset_self]
    show (nth (mgetD (mset s.cores w.core _) w.core ({} : Core)).queues q {}).issued = _
    rw [mgetD_mset_self]
    show (nth (nthSet ({} : Queue) _ _ q) q ({} : Queue)).issued = _
    rw [nth_nthSet_self]
    rfl

end Sys2Proof.Machine
end

