-- ==== Sys2Proof/Laws/Errors.lean ====
section
/-! SUPPORT. Where no error waits to be found (R184, R311, R320), reading finds none: the operations that look for errors
change nothing. A block without a shadow waits for no comparison (R328). -/

namespace Sys2Proof.Machine

theorem coreOf_noErrors (s : State) (h : ∀ c ∈ s.cores, c.2.spadErrors = []) (c : Nat) : (coreOf s c).spadErrors = [] := by
  unfold coreOf
  rcases hx : mget s.cores c with _ | x
  · simp [mgetD, hx]
  · simpa [mgetD, hx] using h _ (mget_mem hx)

theorem readRowFor_clean (scrub : Bool) (s : State) (h : ∀ c ∈ s.cores, c.2.spadErrors = []) (k row : Nat) :
    readRowFor scrub s k row = s := by
  simp [readRowFor, rowErrors, coreOf_noErrors s h]

theorem readRows_clean (s : State) (h : ∀ c ∈ s.cores, c.2.spadErrors = []) (k : Nat) (offs : List Nat) :
    readRows s k offs = s := by
  unfold readRows readRow
  dsimp only
  generalize (List.map (fun o => ((blockOf s k).spadBase + o) / 256) offs).eraseDups = l
  induction l with
  | nil => rfl
  | cons r l ih => simp only [List.foldl_cons, readRowFor_clean false s h]; exact ih

theorem readPlaces_clean (s : State) (hu : s.upsets = []) (h : ∀ c ∈ s.cores, c.2.spadErrors = []) (part : Nat)
    (l : List (EngineDest × Nat)) : readPlaces s part l = s := by
  unfold readPlaces
  simp only [hu, List.isEmpty_nil, if_true]
  generalize (List.map (fun x => x.1) (spadPlaces l)).eraseDups = m
  induction m with
  | nil => rfl
  | cons k m ih => simp only [List.foldl_cons, readRows_clean s h]; exact ih

theorem readMemory_clean (s : State) (hu : s.upsets = []) (part : Nat) (pas : List Nat) : readMemory s part pas = s := by
  simp [readMemory, hu]

theorem decoded_clean (take : State → State) (s : State) (hu : s.upsets = []) (h : ∀ c ∈ s.cores, c.2.spadErrors = []) :
    decoded take s = take s := by
  have e : s.cores.all (fun c => c.2.spadErrors.isEmpty) = true := by simpa using h
  simp [decoded, hu, e]

theorem findOperands_clean (s : State) (hu : s.upsets = []) (u e : Nat) (i : Instr) : findOperands s u e i = s := by
  unfold findOperands; rw [hu]

theorem raiseSpad_clean (s : State) (hu : s.upsets = []) : raiseSpad s = s := by
  unfold raiseSpad; rw [hu]; rfl

theorem mismatchAt_clean (s : State) (hu : s.upsets = []) : mismatchAt s = none := by
  unfold mismatchAt; rw [hu]; rfl

theorem matched_alone (s : State) (h : Held) (hk : ∀ k, h.block = some k → (blockOf s k).redundant = none) :
    matched s h = true := by
  unfold matched
  split
  · rename_i k e; simp [hk k e]
  · rfl

end Sys2Proof.Machine
end

