-- ==== Sys2Proof/Laws/PerInstr.lean ====
section
/-! SUPPORT. The round trip of the encodings, per instruction: the words of a well-formed instruction decode to it
(R22 to R28). One lemma per shape of an encoding; each instruction's lemma names its shape and its opcode. -/

namespace Sys2Proof.Laws

theorem packWord_fields (op d a b : Nat) (h : op < 256) (hd : d < 256) (ha : a < 256) (hb : b < 256) :
    opcodeOf (packWord op d a b) = op ∧ fieldD (packWord op d a b) = d ∧ fieldA (packWord op d a b) = a ∧
    fieldB (packWord op d a b) = b := by
  unfold opcodeOf fieldD fieldA fieldB packWord
  rw [BitVec.toNat_ofNat, Nat.mod_eq_of_lt (by omega)]
  omega

/-- What a field that takes no literal word says, whatever words follow. -/
def Plain (o : Operand) : Prop :=
  o.code < 256 ∧ litsOfCode o.code = 0 ∧ o.lits = [] ∧ ∀ lo hi, operandOf o.code lo hi = o

theorem litsOfCode_zero (c : Nat) (h : c ≠ 0x7A) (k : c ≠ 0x7B) : litsOfCode c = 0 := by
  simp [litsOfCode, h, k]

theorem plain_of_inRange (o : Operand) (h : o.inRange = true) (hl : o.isLit = false) : Plain o := by
  cases o with
  | lit32 w => simp [Operand.isLit] at hl
  | lit64 x => simp [Operand.isLit] at hl
  | reserved c =>
    have h : 0xA4 ≤ c.toNat ∧ c.toNat < 0xA8 ∨ 0xAF ≤ c.toNat := of_decide_eq_true h
    have hc := c.isLt
    refine ⟨hc, litsOfCode_zero _ (by simp only [Operand.code]; omega) (by simp only [Operand.code]; omega), rfl, fun lo hi => ?_⟩
    simp only [Operand.code, operandOf]
    rw [BitVec.ofNat_toNat, BitVec.setWidth_eq]
    repeat (refine (if_neg ?_).trans ?_; · omega)
    rfl
  | z => exact ⟨by decide, rfl, rfl, fun _ _ => rfl⟩
  | lane => exact ⟨by decide, rfl, rfl, fun _ _ => rfl⟩
  | wid => exact ⟨by decide, rfl, rfl, fun _ _ => rfl⟩
  | bid => exact ⟨by decide, rfl, rfl, fun _ _ => rfl⟩
  | live => exact ⟨by decide, rfl, rfl, fun _ _ => rfl⟩
  | act => exact ⟨by decide, rfl, rfl, fun _ _ => rfl⟩
  | _ =>
    simp only [Operand.inRange, decide_eq_true_eq] at h
    refine ⟨by simp only [Operand.code]; omega,
      litsOfCode_zero _ (by simp only [Operand.code]; omega) (by simp only [Operand.code]; omega), rfl, fun lo hi => ?_⟩
    simp only [Operand.code, operandOf]
    repeat (refine (if_neg ?_).trans ?_; · omega)
    refine (if_pos ?_).trans ?_
    · omega
    · first | rw [Nat.add_sub_cancel_left] | rfl

/-- The operand of a field, read with the literal words that stand after an instruction whose only literal it is. -/
theorem operand_read (o : Operand) (h : o.inRange = true) :
    o.code < 256 ∧ litsOfCode o.code = o.lits.length ∧ operandOf o.code (o.lits.getD 0 0) (o.lits.getD 1 0) = o := by
  by_cases hl : o.isLit = false
  · obtain ⟨a, b, c, d⟩ := plain_of_inRange o h hl
    exact ⟨a, by rw [b, c]; rfl, d _ _⟩
  · cases o with
    | lit32 w => exact ⟨by simp [Operand.code], rfl, rfl⟩
    | lit64 x =>
      refine ⟨by simp [Operand.code], rfl, ?_⟩
      show Operand.lit64 ((x >>> 32).setWidth 32 ++ x.setWidth 32) = .lit64 x
      congr 1
      ext i hi
      simp only [BitVec.getElem_append, BitVec.getElem_setWidth, BitVec.getLsbD_ushiftRight]
      split
      · exact BitVec.getLsbD_eq_getElem hi
      · rw [show 32 + (i - 32) = i by omega]; exact BitVec.getLsbD_eq_getElem hi
    | _ => simp [Operand.isLit] at hl

/-- A field's zeros: the fields that must be zero are. -/
theorem zeroOk_of {w : Word} {op d a b : Nat} (h : opcodeOf w = op ∧ fieldD w = d ∧ fieldA w = a ∧ fieldB w = b)
    (hd : d = 0 ∨ 16 ∉ zeroFields op) (ha : a = 0 ∨ 8 ∉ zeroFields op) (hb : b = 0 ∨ 0 ∉ zeroFields op)
    (hs : ∀ sh ∈ zeroFields op, sh = 16 ∨ sh = 8 ∨ sh = 0) : zeroOk w = true := by
  obtain ⟨h, rfl, rfl, rfl⟩ := h
  unfold zeroOk
  rw [h, List.all_eq_true]
  intro sh m
  unfold fieldD at hd
  unfold fieldA at ha
  unfold fieldB at hb
  rw [decide_eq_true_eq]
  obtain rfl | rfl | rfl := hs sh m
  · simpa using hd.resolve_right (absurd m)
  · simpa using ha.resolve_right (absurd m)
  · simpa using hb.resolve_right (absurd m)

theorem decode_cons {w : Word} {l : List Word} {i : Instr} (h : decodeWord w (l.getD 0 0) (l.getD 1 0) = .ok i)
    (hn : litWords w = l.length) : decode (w :: l) = .ok (i, (w :: l).length) := by
  unfold decode
  dsimp only
  rw [h, hn, List.length_cons, Nat.add_comm]
  exact if_neg (Nat.lt_irrefl _)

/-- What every encoding shares: a word of four fields, the literal words after it, zeros where the opcode asks for
them, the opcode's count of literal words, and the instruction that its fields say. -/
theorem round {i : Instr} {l : List Word} (op d a b : Nat) (hr : op < 256 ∧ d < 256 ∧ a < 256 ∧ b < 256)
    (hw : i.word? = some (packWord op d a b)) (hl : i.lits = l)
    (hs : ∀ sh ∈ zeroFields op, sh = 16 ∨ sh = 8 ∨ sh = 0)
    (hd : d = 0 ∨ 16 ∉ zeroFields op) (ha : a = 0 ∨ 8 ∉ zeroFields op) (hb : b = 0 ∨ 0 ∉ zeroFields op)
    (hn : ∀ w, opcodeOf w = op → fieldD w = d → fieldA w = a → fieldB w = b → litWords w = l.length)
    (hf : ∀ w, opcodeOf w = op → fieldD w = d → fieldA w = a → fieldB w = b →
      decodeFields w (l.getD 0 0) (l.getD 1 0) = .ok i) :
    decode (encode i) = .ok (i, (encode i).length) := by
  have p := packWord_fields op d a b hr.1 hr.2.1 hr.2.2.1 hr.2.2.2
  generalize packWord op d a b = w at p hw
  have he : encode i = w :: l := by unfold encode; rw [hw, hl]
  rw [he]
  have hz : decodeWord w (l.getD 0 0) (l.getD 1 0) = .ok i :=
    (if_pos (zeroOk_of p hd ha hb hs)).trans (hf w p.1 p.2.1 p.2.2.1 p.2.2.2)
  exact decode_cons hz (hn w p.1 p.2.1 p.2.2.1 p.2.2.2)

/-- A well-formed instruction's operands: in range, no literal where no literal may stand, and one literal at most. -/
theorem wf_operands {i : Instr} {l : List (Operand × Bool)} (h : i.wf = true) (ho : i.operands = l) :
    l.all (fun o => o.1.inRange && (o.2 || !o.1.isLit)) = true ∧ (l.filter (fun o => o.1.isLit)).length ≤ 1 := by
  unfold Instr.wf Instr.encodable at h
  simp only [Bool.and_eq_true] at h
  rw [ho] at h
  exact ⟨h.1.1.2, of_decide_eq_true h.1.2⟩

/-- Two fields of which one is no literal: the literal words after the instruction are the other's, and both are
read. -/
theorem pair_read (a b : Operand) (ha : a.inRange = true) (hb : b.inRange = true) (h : a.isLit = false ∨ b.isLit = false) :
    (if litsOfCode a.code = 0 then litsOfCode b.code else litsOfCode a.code) = (a.lits ++ b.lits).length ∧
    operandOf a.code ((a.lits ++ b.lits).getD 0 0) ((a.lits ++ b.lits).getD 1 0) = a ∧
    operandOf b.code ((a.lits ++ b.lits).getD 0 0) ((a.lits ++ b.lits).getD 1 0) = b := by
  obtain ⟨-, na, ra⟩ := operand_read a ha
  obtain ⟨-, nb, rb⟩ := operand_read b hb
  obtain h | h := h
  · obtain ⟨-, z, e, q⟩ := plain_of_inRange a ha h
    rw [z, e, nb]
    exact ⟨rfl, q _ _, rb⟩
  · obtain ⟨-, z, e, q⟩ := plain_of_inRange b hb h
    rw [z, e, na, List.append_nil]
    refine ⟨?_, ra, q _ _⟩
    split <;> rename_i k
    · exact k.symm
    · rfl

theorem byte_of {c : Byte} {n : Nat} (h : n = c.toNat) : BitVec.ofNat 8 n = c := by
  rw [h, BitVec.ofNat_toNat, BitVec.setWidth_eq]

theorem field_low16 {w : Word} {o : BitVec 16} (ha : fieldA w = o.toNat / 256) (hb : fieldB w = o.toNat % 256) :
    w.setWidth 16 = o := by
  apply BitVec.eq_of_toNat_eq
  rw [BitVec.toNat_setWidth]
  unfold fieldA at ha
  unfold fieldB at hb
  have := o.isLt
  omega

/-- The condition of `Instr.encodable` that is a row's own. -/
theorem wf_extra {i : Instr} : i.wf = true →
    (match i with
      | .mode m => decide (m.toNat % 64 = 0)
      | .rdsr _ n => decide (n.toNat ≠ 0x18)
      | .wrsr _ n => decide (n.toNat ≠ 0x3B ∧ n.toNat ≠ 0xA1)
      | .mgrantCreate (.lit32 g) => !g.getLsbD 4
      | .mgrantRevoke (.lit32 g) => g.getLsbD 4
      | .mgrantRevoke _ => false
      | .illegalOpcode w => reservedOpcode (opcodeOf w)
      | _ => true) = true := by
  intro h
  unfold Instr.wf Instr.encodable at h
  exact (Bool.and_eq_true _ _ ▸ h).2

theorem halves (x : BitVec 64) : ((x >>> 32).setWidth 32 ++ x.setWidth 32 : BitVec 64) = x := by
  have h := (operand_read (.lit64 x) rfl).2.2
  injection h

theorem high_of {m : BitVec 5} {n : BitVec 3} {k : Nat} (h : k = m.toNat * 8 + n.toNat) : BitVec.ofNat 5 (k / 8) = m := by
  apply BitVec.eq_of_toNat_eq
  rw [BitVec.toNat_ofNat]
  omega

theorem low_of {m : BitVec 5} {n : BitVec 3} {k : Nat} (h : k = m.toNat * 8 + n.toNat) : BitVec.ofNat 3 (k % 8) = n := by
  apply BitVec.eq_of_toNat_eq
  rw [BitVec.toNat_ofNat]
  omega

theorem word24 (op : BitVec 8) (o : BitVec 24) :
    (op ++ o : Word) = packWord op.toNat (o.toNat / 65536) (o.toNat / 256 % 256) (o.toNat % 256) := by
  apply BitVec.eq_of_toNat_eq
  unfold packWord
  rw [BitVec.toNat_append, BitVec.toNat_ofNat, Nat.shiftLeft_eq, Nat.mul_comm, ← Nat.two_pow_add_eq_or_of_lt o.isLt]
  omega

theorem field_low24 {w : Word} {o : BitVec 24} (hd : fieldD w = o.toNat / 65536) (ha : fieldA w = o.toNat / 256 % 256)
    (hb : fieldB w = o.toNat % 256) : w.setWidth 24 = o := by
  apply BitVec.eq_of_toNat_eq
  rw [BitVec.toNat_setWidth]
  unfold fieldD at hd
  unfold fieldA at ha
  unfold fieldB at hb
  have := o.isLt
  omega

theorem eight (n : BitVec 3) : n = 0 ∨ n = 1 ∨ n = 2 ∨ n = 3 ∨ n = 4 ∨ n = 5 ∨ n = 6 ∨ n = 7 := by
  revert n
  decide

/-- Fields D, A and B, with D never a literal. -/
theorem round_dab (mk : Operand → Operand → Operand → Instr) (op : Nat) (d a b : Operand) (h : (mk d a b).wf = true)
    (ho : (mk d a b).operands = [(d, false), (a, true), (b, true)]) (hop : op < 256)
    (hw : (mk d a b).word? = some (packWord op d.code a.code b.code)) (hl : (mk d a b).lits = a.lits ++ b.lits)
    (hz : zeroFields op = [])
    (hn : ∀ w, opcodeOf w = op → litWords w = if litsOfCode (fieldA w) = 0 then litsOfCode (fieldB w) else litsOfCode (fieldA w))
    (hf : ∀ w lo hi, opcodeOf w = op → decodeFields w lo hi =
      .ok (mk (operandOf (fieldD w) lo hi) (operandOf (fieldA w) lo hi) (operandOf (fieldB w) lo hi))) :
    decode (encode (mk d a b)) = .ok (mk d a b, (encode (mk d a b)).length) := by
  obtain ⟨r, n⟩ := wf_operands h ho
  simp only [List.all_cons, List.all_nil, Bool.false_or, Bool.true_or, Bool.and_true, Bool.and_eq_true,
    Bool.not_eq_true'] at r
  obtain ⟨⟨rd, ld⟩, ra, rb⟩ := r
  have one : a.isLit = false ∨ b.isLit = false := by
    by_contra k
    simp only [not_or, Bool.not_eq_false] at k
    simp [k.1, k.2, ld] at n
  obtain ⟨n', qa, qb⟩ := pair_read a b ra rb one
  obtain ⟨cd, -, -, qd⟩ := plain_of_inRange d rd ld
  refine round op d.code a.code b.code ⟨hop, cd, (operand_read a ra).1, (operand_read b rb).1⟩ hw hl (by simp [hz])
    (.inr (by simp [hz])) (.inr (by simp [hz])) (.inr (by simp [hz])) (fun w e _ fa fb => ?_) (fun w e fd fa fb => ?_)
  · rw [hn w e, fa, fb, n']
  · rw [hf _ _ _ e, fd, fa, fb, qd, qa, qb]

/-- Fields A and B. -/
theorem round_ab (mk : Operand → Operand → Instr) (op : Nat) (a b : Operand) (h : (mk a b).wf = true)
    (ho : (mk a b).operands = [(a, true), (b, true)]) (hop : op < 256)
    (hw : (mk a b).word? = some (packWord op 0 a.code b.code)) (hl : (mk a b).lits = a.lits ++ b.lits)
    (hz : zeroFields op = [16])
    (hn : ∀ w, opcodeOf w = op → litWords w = if litsOfCode (fieldA w) = 0 then litsOfCode (fieldB w) else litsOfCode (fieldA w))
    (hf : ∀ w lo hi, opcodeOf w = op → decodeFields w lo hi =
      .ok (mk (operandOf (fieldA w) lo hi) (operandOf (fieldB w) lo hi))) :
    decode (encode (mk a b)) = .ok (mk a b, (encode (mk a b)).length) := by
  obtain ⟨r, n⟩ := wf_operands h ho
  simp only [List.all_cons, List.all_nil, Bool.true_or, Bool.and_true, Bool.and_eq_true] at r
  obtain ⟨ra, rb⟩ := r
  have one : a.isLit = false ∨ b.isLit = false := by
    by_contra k
    simp only [not_or, Bool.not_eq_false] at k
    simp [k.1, k.2] at n
  obtain ⟨n', qa, qb⟩ := pair_read a b ra rb one
  refine round op 0 a.code b.code ⟨hop, by omega, (operand_read a ra).1, (operand_read b rb).1⟩ hw hl (by simp [hz])
    (.inl rfl) (.inr (by simp [hz])) (.inr (by simp [hz])) (fun w e _ fa fb => ?_) (fun w e _ fa fb => ?_)
  · rw [hn w e, fa, fb, n']
  · rw [hf _ _ _ e, fa, fb, qa, qb]

/-- Fields D and A, with D never a literal, and a byte B. -/
theorem round_da (mk : Operand → Operand → Instr) (op k : Nat) (d a : Operand) (h : (mk d a).wf = true)
    (ho : (mk d a).operands = [(d, false), (a, true)]) (hop : op < 256) (hk : k < 256)
    (hw : (mk d a).word? = some (packWord op d.code a.code k)) (hl : (mk d a).lits = a.lits)
    (hz : zeroFields op = [] ∨ zeroFields op = [0] ∧ k = 0)
    (hn : ∀ w, opcodeOf w = op → litWords w = litsOfCode (fieldA w))
    (hf : ∀ w lo hi, opcodeOf w = op → fieldB w = k → decodeFields w lo hi =
      .ok (mk (operandOf (fieldD w) lo hi) (operandOf (fieldA w) lo hi))) :
    decode (encode (mk d a)) = .ok (mk d a, (encode (mk d a)).length) := by
  obtain ⟨r, n⟩ := wf_operands h ho
  simp only [List.all_cons, List.all_nil, Bool.false_or, Bool.true_or, Bool.and_true, Bool.and_eq_true,
    Bool.not_eq_true'] at r
  obtain ⟨⟨rd, ld⟩, ra⟩ := r
  obtain ⟨ca, n', qa⟩ := operand_read a ra
  obtain ⟨cd, -, -, qd⟩ := plain_of_inRange d rd ld
  refine round op d.code a.code k ⟨hop, cd, ca, hk⟩ hw hl
    (by obtain hz | ⟨hz, -⟩ := hz <;> simp [hz]) (.inr (by obtain hz | ⟨hz, -⟩ := hz <;> simp [hz]))
    (.inr (by obtain hz | ⟨hz, -⟩ := hz <;> simp [hz])) (by obtain hz | ⟨hz, hz'⟩ := hz <;> simp [*])
    (fun w e _ fa _ => ?_) (fun w e fd fa fb => ?_)
  · rw [hn w e, fa, n']
  · rw [hf _ _ _ e fb, fd, fa, qd, qa]

/-- Field A and bytes D and B. -/
theorem round_a (mk : Operand → Instr) (op j k : Nat) (a : Operand) (h : (mk a).wf = true)
    (ho : (mk a).operands = [(a, true)]) (hop : op < 256) (hj : j < 256) (hk : k < 256)
    (hw : (mk a).word? = some (packWord op j a.code k)) (hl : (mk a).lits = a.lits)
    (hz : zeroFields op = [16] ∧ j = 0 ∨ zeroFields op = [16, 0] ∧ j = 0 ∧ k = 0 ∨ zeroFields op = [0] ∧ k = 0)
    (hn : ∀ w, opcodeOf w = op → litWords w = litsOfCode (fieldA w))
    (hf : ∀ w, opcodeOf w = op → fieldD w = j → fieldB w = k → operandOf (fieldA w) (a.lits.getD 0 0) (a.lits.getD 1 0) = a →
      decodeFields w (a.lits.getD 0 0) (a.lits.getD 1 0) = .ok (mk a)) :
    decode (encode (mk a)) = .ok (mk a, (encode (mk a)).length) := by
  obtain ⟨r, n⟩ := wf_operands h ho
  simp only [List.all_cons, List.all_nil, Bool.true_or, Bool.and_true] at r
  obtain ⟨ca, n', qa⟩ := operand_read a r
  refine round op j a.code k ⟨hop, hj, ca, hk⟩ hw hl
    (by obtain ⟨hz, -⟩ | ⟨hz, -⟩ | ⟨hz, -⟩ := hz <;> simp [hz])
    (by obtain ⟨hz, k⟩ | ⟨hz, k, -⟩ | ⟨hz, -⟩ := hz <;> simp [*])
    (.inr (by obtain ⟨hz, -⟩ | ⟨hz, -⟩ | ⟨hz, -⟩ := hz <;> simp [hz]))
    (by obtain ⟨hz, -⟩ | ⟨hz, -, k⟩ | ⟨hz, k⟩ := hz <;> simp [*])
    (fun w e _ fa _ => ?_) (fun w e fd fa fb => ?_)
  · rw [hn w e, fa, n']
  · exact hf _ e fd fb (by rw [fa, qa])

/-- Field D, never a literal, and bytes A and B. -/
theorem round_d (mk : Operand → Instr) (op j k : Nat) (d : Operand) (h : (mk d).wf = true)
    (ho : (mk d).operands = [(d, false)]) (hop : op < 256) (hj : j < 256) (hk : k < 256)
    (hw : (mk d).word? = some (packWord op d.code j k)) (hl : (mk d).lits = [])
    (hz : zeroFields op = [] ∨ zeroFields op = [8] ∧ j = 0 ∨ zeroFields op = [8, 0] ∧ j = 0 ∧ k = 0)
    (hn : ∀ w, opcodeOf w = op → litWords w = 0)
    (hf : ∀ w, opcodeOf w = op → fieldA w = j → fieldB w = k → decodeFields w 0 0 = .ok (mk (operandOf (fieldD w) 0 0))) :
    decode (encode (mk d)) = .ok (mk d, (encode (mk d)).length) := by
  obtain ⟨r, n⟩ := wf_operands h ho
  simp only [List.all_cons, List.all_nil, Bool.false_or, Bool.and_true, Bool.and_eq_true, Bool.not_eq_true'] at r
  obtain ⟨cd, -, -, qd⟩ := plain_of_inRange d r.1 r.2
  refine round op d.code j k ⟨hop, cd, hj, hk⟩ hw hl
    (by obtain hz | ⟨hz, -⟩ | ⟨hz, -⟩ := hz <;> simp [hz])
    (.inr (by obtain hz | ⟨hz, -⟩ | ⟨hz, -⟩ := hz <;> simp [hz]))
    (by obtain hz | ⟨hz, k⟩ | ⟨hz, k, -⟩ := hz <;> simp [*])
    (by obtain hz | ⟨hz, -⟩ | ⟨hz, -, k⟩ := hz <;> simp [*])
    (fun w e _ _ _ => ?_) (fun w e fd fa fb => ?_)
  · rw [hn w e, List.length_nil]
  · rw [List.getD_nil, List.getD_nil, hf _ e fa fb, fd, qd]

/-- The family: the words of a well-formed instruction decode to it and to nothing less (R22 to R28). -/
def Encoding.Statement (i : Instr) : Prop := i.wf = true → decode (encode i) = .ok (i, (encode i).length)

/-- A row without an encoding is not well formed. -/
theorem encoding_none {i : Instr} (h : i.word? = none) : Encoding.Statement i := by
  intro w
  unfold Instr.wf Instr.encodable at w
  rw [h] at w
  simp at w

end Sys2Proof.Laws

namespace Sys2Proof.Laws.Encoding

set_option maxRecDepth 20000


theorem ill (d : Byte) (a : Byte) (b : Byte) : Statement (.ill d a b) := fun _ => round 0x00 d.toNat a.toNat b.toNat ⟨by decide, d.isLt, a.isLt, b.isLt⟩ rfl rfl (by decide) (.inr (by decide))
  (.inr (by decide)) (.inr (by decide)) (fun w e _ _ _ => by delta litWords; rw [e]; rfl)
  (fun w e kd ka kb => by
    delta decodeFields; rw [e]
    show Except.ok (Instr.ill (BitVec.ofNat 8 (fieldD w)) (BitVec.ofNat 8 (fieldA w)) (BitVec.ofNat 8 (fieldB w))) = _
    rw [byte_of kd, byte_of ka, byte_of kb])
theorem mode (m : BitVec 24) : Statement (.mode m) := fun _ => by
  have p := word24 0x01#8 m
  exact round 0x01 (m.toNat / 65536) (m.toNat / 256 % 256) (m.toNat % 256) ⟨by decide, by omega, by omega, by omega⟩
    (congrArg some p) rfl (by decide) (.inr (by decide)) (.inr (by decide)) (.inr (by decide))
    (fun w e _ _ _ => by delta litWords; rw [e]; rfl)
    (fun w e kd ka kb => by delta decodeFields; rw [e]; exact congrArg (fun x => Except.ok (Instr.mode x)) (field_low24 kd ka kb))
theorem omode (o : Byte) : Statement (.omode o) := fun _ => round 0x02 0 0 o.toNat ⟨by decide, by decide, by decide, o.isLt⟩ rfl rfl (by decide) (.inl rfl) (.inl rfl)
  (.inr (by decide)) (fun w e _ _ _ => by delta litWords; rw [e]; rfl)
  (fun w e _ _ k => by delta decodeFields; rw [e]; exact congrArg (fun x => Except.ok (Instr.omode x)) (byte_of k))
theorem nop : Statement .nop := fun _ => round 0x03 0 0 0 (by decide) rfl rfl (by decide) (.inl rfl) (.inl rfl) (.inl rfl)
  (fun w e _ _ _ => by delta litWords; rw [e]; rfl) (fun w e _ _ _ => by delta decodeFields; rw [e]; rfl)
theorem sigck (sig : Word) : Statement (.sigck sig) := fun _ => round (l := [sig]) 0x04 0 0x7A 0 (by decide) rfl rfl (by decide) (.inl rfl) (.inr (by decide)) (.inl rfl)
  (fun w e _ ka _ => by delta litWords; rw [e]; show litsOfCode (fieldA w) = _; rw [ka]; rfl)
  (fun w e _ ka _ => by delta decodeFields; rw [e]; refine (if_pos ka).trans ?_; rfl)
theorem rnote (regs : DWord) : Statement (.rnote regs) := fun _ => round (l := (Operand.lits (.lit64 regs))) 0x05 0 0x7B 0 (by decide) rfl rfl (by decide) (.inl rfl) (.inr (by decide)) (.inl rfl)
  (fun w e _ ka _ => by delta litWords; rw [e]; show litsOfCode (fieldA w) = _; rw [ka]; rfl)
  (fun w e _ ka _ => by delta decodeFields; rw [e]; refine (if_pos ka).trans ?_; exact congrArg (fun x => Except.ok (Instr.rnote x)) (halves _))
theorem elect (d : Operand) : Statement (.elect d) := fun h => round_d .elect 0x06 0 0 _ h rfl (by decide) (by decide) (by decide) rfl rfl (.inr (.inr ⟨rfl, rfl, rfl⟩)) (fun w e => by delta litWords; rw [e]; rfl)
  (fun w e _ _ => by delta decodeFields; rw [e]; rfl)
theorem yield : Statement .yield := fun _ => round 0x07 0 0 0 (by decide) rfl rfl (by decide) (.inl rfl) (.inl rfl) (.inl rfl)
  (fun w e _ _ _ => by delta litWords; rw [e]; rfl) (fun w e _ _ _ => by delta decodeFields; rw [e]; rfl)
theorem yieldon (a : Operand) (b : Operand) : Statement (.yieldon a b) := fun h => round_ab .yieldon 0x08 _ _ h rfl (by decide) rfl rfl rfl (fun w e => by delta litWords; rw [e]; rfl) (fun w lo hi e => by delta decodeFields; rw [e]; rfl)
theorem endWave : Statement .endWave := fun _ => round 0x09 0 0 0 (by decide) rfl rfl (by decide) (.inl rfl) (.inl rfl) (.inl rfl)
  (fun w e _ _ _ => by delta litWords; rw [e]; rfl) (fun w e _ _ _ => by delta decodeFields; rw [e]; rfl)
theorem trap (c : Byte) : Statement (.trap c) := fun _ => round 0x0A 0 0 c.toNat ⟨by decide, by decide, by decide, c.isLt⟩ rfl rfl (by decide) (.inl rfl) (.inl rfl)
  (.inr (by decide)) (fun w e _ _ _ => by delta litWords; rw [e]; rfl)
  (fun w e _ _ k => by delta decodeFields; rw [e]; exact congrArg (fun x => Except.ok (Instr.trap x)) (byte_of k))
theorem brk (c : Byte) : Statement (.brk c) := fun _ => round 0x0B 0 0 c.toNat ⟨by decide, by decide, by decide, c.isLt⟩ rfl rfl (by decide) (.inl rfl) (.inl rfl)
  (.inr (by decide)) (fun w e _ _ _ => by delta litWords; rw [e]; rfl)
  (fun w e _ _ k => by delta decodeFields; rw [e]; exact congrArg (fun x => Except.ok (Instr.brk x)) (byte_of k))
theorem qfeat (d : Operand) (a : Operand) : Statement (.qfeat d a) := fun h => round_da .qfeat 0x0C 0 _ _ h rfl (by decide) (by decide) rfl rfl (.inr ⟨rfl, rfl⟩) (fun w e => by delta litWords; rw [e]; rfl) (fun w lo hi e _ => by delta decodeFields; rw [e]; rfl)
theorem rdsr (d : Operand) (n : Byte) : Statement (.rdsr d n) := by
  intro h
  have z : n.toNat ≠ 0x18 := of_decide_eq_true (wf_extra h)
  exact round_d (fun d => .rdsr d n) 0x0D 0 n.toNat _ h rfl (by decide) (by decide) n.isLt rfl rfl (.inr (.inl ⟨rfl, rfl⟩)) (fun w e => by delta litWords; rw [e]; rfl)
    (fun w e _ k => by
      delta decodeFields; rw [e]
      exact (if_neg (k ▸ z)).trans (congrArg (fun x => Except.ok (Instr.rdsr _ x)) (byte_of k)))
theorem rdsrTimelo (d : Operand) : Statement (.rdsrTimelo d) := fun h => round_d .rdsrTimelo 0x0D 0 0x18 _ h rfl (by decide) (by decide) (by decide) rfl rfl (.inr (.inl ⟨rfl, rfl⟩)) (fun w e => by delta litWords; rw [e]; rfl)
  (fun w e _ k => by delta decodeFields; rw [e]; exact if_pos k)
theorem wrsr (a : Operand) (n : Byte) : Statement (.wrsr a n) := by
  intro h
  have z := wf_extra h
  have z : n.toNat ≠ 0x3B ∧ n.toNat ≠ 0xA1 := of_decide_eq_true z
  exact round_a (fun a => .wrsr a n) 0x0E 0 n.toNat _ h rfl (by decide) (by decide) n.isLt rfl rfl (.inl ⟨rfl, rfl⟩) (fun w e => by delta litWords; rw [e]; rfl)
    (fun w e _ k q => by
      delta decodeFields; rw [e]
      refine (if_neg (k ▸ z.1)).trans ((if_neg (k ▸ z.2)).trans ?_)
      exact congrArg₂ (fun x y => Except.ok (Instr.wrsr x y)) q (byte_of k))
theorem mgrantCreate (a : Operand) : Statement (.mgrantCreate a) := by
  intro h
  have z := wf_extra h
  exact round_a .mgrantCreate 0x0E 0 0x3B _ h rfl (by decide) (by decide) (by decide) rfl rfl (.inl ⟨rfl, rfl⟩) (fun w e => by delta litWords; rw [e]; rfl)
    (fun w e _ k q => by
      delta decodeFields; rw [e]
      refine (if_pos k).trans ?_
      rw [q]
      cases a with
      | lit32 g =>
        have z : (!g.getLsbD 4) = true := z
        exact if_neg (by rw [Bool.not_eq_true'] at z; rw [z]; decide)
      | _ => rfl)
theorem mgrantRevoke (a : Operand) : Statement (.mgrantRevoke a) := by
  intro h
  have z := wf_extra h
  exact round_a .mgrantRevoke 0x0E 0 0x3B _ h rfl (by decide) (by decide) (by decide) rfl rfl (.inl ⟨rfl, rfl⟩) (fun w e => by delta litWords; rw [e]; rfl)
    (fun w e _ k q => by
      delta decodeFields; rw [e]
      refine (if_pos k).trans ?_
      rw [q]
      cases a with
      | lit32 g =>
        have z : g.getLsbD 4 = true := z
        exact if_pos z
      | _ => exact absurd (show false = true from z) (by decide))
theorem sigWrite (a : Operand) : Statement (.sigWrite a) := fun h => round_a .sigWrite 0x0E 0 0xA1 _ h rfl (by decide) (by decide) (by decide) rfl rfl (.inl ⟨rfl, rfl⟩) (fun w e => by delta litWords; rw [e]; rfl)
  (fun w e _ k q => by
    delta decodeFields; rw [e]
    refine (if_neg (by rw [k]; decide)).trans ((if_pos k).trans ?_)
    exact congrArg (fun x => Except.ok (Instr.sigWrite x)) q)
theorem pkset (a : Operand) : Statement (.pkset a) := fun h => round_a .pkset 0x0F 0 0 _ h rfl (by decide) (by decide) (by decide) rfl rfl (.inr (.inl ⟨rfl, rfl, rfl⟩)) (fun w e => by delta litWords; rw [e]; rfl)
  (fun w e _ _ q => by delta decodeFields; rw [e]; exact congrArg (fun x => Except.ok (Instr.pkset x)) q)
theorem add (d : Operand) (a : Operand) (b : Operand) : Statement (.add d a b) := fun h => round_dab .add 0x10 _ _ _ h rfl (by decide) rfl rfl rfl (fun w e => by delta litWords; rw [e]; rfl) (fun w lo hi e => by delta decodeFields; rw [e]; rfl)
theorem sub (d : Operand) (a : Operand) (b : Operand) : Statement (.sub d a b) := fun h => round_dab .sub 0x11 _ _ _ h rfl (by decide) rfl rfl rfl (fun w e => by delta litWords; rw [e]; rfl) (fun w lo hi e => by delta decodeFields; rw [e]; rfl)
theorem neg (d : Operand) (a : Operand) : Statement (.neg d a) := fun h => round_da .neg 0x12 0 _ _ h rfl (by decide) (by decide) rfl rfl (.inr ⟨rfl, rfl⟩) (fun w e => by delta litWords; rw [e]; rfl) (fun w lo hi e _ => by delta decodeFields; rw [e]; rfl)
theorem mul (d : Operand) (a : Operand) (b : Operand) : Statement (.mul d a b) := fun h => round_dab .mul 0x13 _ _ _ h rfl (by decide) rfl rfl rfl (fun w e => by delta litWords; rw [e]; rfl) (fun w lo hi e => by delta decodeFields; rw [e]; rfl)
theorem mulhi (d : Operand) (a : Operand) (b : Operand) : Statement (.mulhi d a b) := fun h => round_dab .mulhi 0x14 _ _ _ h rfl (by decide) rfl rfl rfl (fun w e => by delta litWords; rw [e]; rfl) (fun w lo hi e => by delta decodeFields; rw [e]; rfl)
theorem mad (d : Operand) (a : Operand) (b : Operand) : Statement (.mad d a b) := fun h => round_dab .mad 0x15 _ _ _ h rfl (by decide) rfl rfl rfl (fun w e => by delta litWords; rw [e]; rfl) (fun w lo hi e => by delta decodeFields; rw [e]; rfl)
theorem div (d : Operand) (a : Operand) (b : Operand) : Statement (.div d a b) := fun h => round_dab .div 0x16 _ _ _ h rfl (by decide) rfl rfl rfl (fun w e => by delta litWords; rw [e]; rfl) (fun w lo hi e => by delta decodeFields; rw [e]; rfl)
theorem rem (d : Operand) (a : Operand) (b : Operand) : Statement (.rem d a b) := fun h => round_dab .rem 0x17 _ _ _ h rfl (by decide) rfl rfl rfl (fun w e => by delta litWords; rw [e]; rfl) (fun w lo hi e => by delta decodeFields; rw [e]; rfl)
theorem min (d : Operand) (a : Operand) (b : Operand) : Statement (.min d a b) := fun h => round_dab .min 0x18 _ _ _ h rfl (by decide) rfl rfl rfl (fun w e => by delta litWords; rw [e]; rfl) (fun w lo hi e => by delta decodeFields; rw [e]; rfl)
theorem max (d : Operand) (a : Operand) (b : Operand) : Statement (.max d a b) := fun h => round_dab .max 0x19 _ _ _ h rfl (by decide) rfl rfl rfl (fun w e => by delta litWords; rw [e]; rfl) (fun w lo hi e => by delta decodeFields; rw [e]; rfl)
theorem abs (d : Operand) (a : Operand) : Statement (.abs d a) := fun h => round_da .abs 0x1A 0 _ _ h rfl (by decide) (by decide) rfl rfl (.inr ⟨rfl, rfl⟩) (fun w e => by delta litWords; rw [e]; rfl) (fun w lo hi e _ => by delta decodeFields; rw [e]; rfl)
theorem dot4 (d : Operand) (a : Operand) (b : Operand) : Statement (.dot4 d a b) := fun h => round_dab .dot4 0x1B _ _ _ h rfl (by decide) rfl rfl rfl (fun w e => by delta litWords; rw [e]; rfl) (fun w lo hi e => by delta decodeFields; rw [e]; rfl)
theorem brev (d : Operand) (a : Operand) : Statement (.brev d a) := fun h => round_da .brev 0x1C 0 _ _ h rfl (by decide) (by decide) rfl rfl (.inr ⟨rfl, rfl⟩) (fun w e => by delta litWords; rw [e]; rfl) (fun w lo hi e _ => by delta decodeFields; rw [e]; rfl)
theorem popc (d : Operand) (a : Operand) : Statement (.popc d a) := fun h => round_da .popc 0x1D 0 _ _ h rfl (by decide) (by decide) rfl rfl (.inr ⟨rfl, rfl⟩) (fun w e => by delta litWords; rw [e]; rfl) (fun w lo hi e _ => by delta decodeFields; rw [e]; rfl)
theorem clz (d : Operand) (a : Operand) : Statement (.clz d a) := fun h => round_da .clz 0x1E 0 _ _ h rfl (by decide) (by decide) rfl rfl (.inr ⟨rfl, rfl⟩) (fun w e => by delta litWords; rw [e]; rfl) (fun w lo hi e _ => by delta decodeFields; rw [e]; rfl)
theorem cmpeq (d : Operand) (a : Operand) (b : Operand) : Statement (.cmpeq d a b) := fun h => round_dab .cmpeq 0x20 _ _ _ h rfl (by decide) rfl rfl rfl (fun w e => by delta litWords; rw [e]; rfl) (fun w lo hi e => by delta decodeFields; rw [e]; rfl)
theorem cmpne (d : Operand) (a : Operand) (b : Operand) : Statement (.cmpne d a b) := fun h => round_dab .cmpne 0x21 _ _ _ h rfl (by decide) rfl rfl rfl (fun w e => by delta litWords; rw [e]; rfl) (fun w lo hi e => by delta decodeFields; rw [e]; rfl)
theorem cmplt (d : Operand) (a : Operand) (b : Operand) : Statement (.cmplt d a b) := fun h => round_dab .cmplt 0x22 _ _ _ h rfl (by decide) rfl rfl rfl (fun w e => by delta litWords; rw [e]; rfl) (fun w lo hi e => by delta decodeFields; rw [e]; rfl)
theorem cmple (d : Operand) (a : Operand) (b : Operand) : Statement (.cmple d a b) := fun h => round_dab .cmple 0x23 _ _ _ h rfl (by decide) rfl rfl rfl (fun w e => by delta litWords; rw [e]; rfl) (fun w lo hi e => by delta decodeFields; rw [e]; rfl)
theorem and (d : Operand) (a : Operand) (b : Operand) : Statement (.and d a b) := fun h => round_dab .and 0x24 _ _ _ h rfl (by decide) rfl rfl rfl (fun w e => by delta litWords; rw [e]; rfl) (fun w lo hi e => by delta decodeFields; rw [e]; rfl)
theorem or (d : Operand) (a : Operand) (b : Operand) : Statement (.or d a b) := fun h => round_dab .or 0x25 _ _ _ h rfl (by decide) rfl rfl rfl (fun w e => by delta litWords; rw [e]; rfl) (fun w lo hi e => by delta decodeFields; rw [e]; rfl)
theorem xor (d : Operand) (a : Operand) (b : Operand) : Statement (.xor d a b) := fun h => round_dab .xor 0x26 _ _ _ h rfl (by decide) rfl rfl rfl (fun w e => by delta litWords; rw [e]; rfl) (fun w lo hi e => by delta decodeFields; rw [e]; rfl)
theorem not (d : Operand) (a : Operand) : Statement (.not d a) := fun h => round_da .not 0x27 0 _ _ h rfl (by decide) (by decide) rfl rfl (.inr ⟨rfl, rfl⟩) (fun w e => by delta litWords; rw [e]; rfl) (fun w lo hi e _ => by delta decodeFields; rw [e]; rfl)
theorem shl (d : Operand) (a : Operand) (b : Operand) : Statement (.shl d a b) := fun h => round_dab .shl 0x28 _ _ _ h rfl (by decide) rfl rfl rfl (fun w e => by delta litWords; rw [e]; rfl) (fun w lo hi e => by delta decodeFields; rw [e]; rfl)
theorem shr (d : Operand) (a : Operand) (b : Operand) : Statement (.shr d a b) := fun h => round_dab .shr 0x29 _ _ _ h rfl (by decide) rfl rfl rfl (fun w e => by delta litWords; rw [e]; rfl) (fun w lo hi e => by delta decodeFields; rw [e]; rfl)
theorem sra (d : Operand) (a : Operand) (b : Operand) : Statement (.sra d a b) := fun h => round_dab .sra 0x2A _ _ _ h rfl (by decide) rfl rfl rfl (fun w e => by delta litWords; rw [e]; rfl) (fun w lo hi e => by delta decodeFields; rw [e]; rfl)
theorem bfe (d : Operand) (a : Operand) (b : Operand) : Statement (.bfe d a b) := fun h => round_dab .bfe 0x2B _ _ _ h rfl (by decide) rfl rfl rfl (fun w e => by delta litWords; rw [e]; rfl) (fun w lo hi e => by delta decodeFields; rw [e]; rfl)
theorem bfi (d : Operand) (a : Operand) (b : Operand) : Statement (.bfi d a b) := fun h => round_dab .bfi 0x2C _ _ _ h rfl (by decide) rfl rfl rfl (fun w e => by delta litWords; rw [e]; rfl) (fun w lo hi e => by delta decodeFields; rw [e]; rfl)
theorem fadd (d : Operand) (a : Operand) (b : Operand) : Statement (.fadd d a b) := fun h => round_dab .fadd 0x30 _ _ _ h rfl (by decide) rfl rfl rfl (fun w e => by delta litWords; rw [e]; rfl) (fun w lo hi e => by delta decodeFields; rw [e]; rfl)
theorem fsub (d : Operand) (a : Operand) (b : Operand) : Statement (.fsub d a b) := fun h => round_dab .fsub 0x31 _ _ _ h rfl (by decide) rfl rfl rfl (fun w e => by delta litWords; rw [e]; rfl) (fun w lo hi e => by delta decodeFields; rw [e]; rfl)
theorem fmul (d : Operand) (a : Operand) (b : Operand) : Statement (.fmul d a b) := fun h => round_dab .fmul 0x32 _ _ _ h rfl (by decide) rfl rfl rfl (fun w e => by delta litWords; rw [e]; rfl) (fun w lo hi e => by delta decodeFields; rw [e]; rfl)
theorem fma (d : Operand) (a : Operand) (b : Operand) : Statement (.fma d a b) := fun h => round_dab .fma 0x33 _ _ _ h rfl (by decide) rfl rfl rfl (fun w e => by delta litWords; rw [e]; rfl) (fun w lo hi e => by delta decodeFields; rw [e]; rfl)
theorem fneg (d : Operand) (a : Operand) : Statement (.fneg d a) := fun h => round_da .fneg 0x34 0 _ _ h rfl (by decide) (by decide) rfl rfl (.inr ⟨rfl, rfl⟩) (fun w e => by delta litWords; rw [e]; rfl) (fun w lo hi e _ => by delta decodeFields; rw [e]; rfl)
theorem fabs (d : Operand) (a : Operand) : Statement (.fabs d a) := fun h => round_da .fabs 0x35 0 _ _ h rfl (by decide) (by decide) rfl rfl (.inr ⟨rfl, rfl⟩) (fun w e => by delta litWords; rw [e]; rfl) (fun w lo hi e _ => by delta decodeFields; rw [e]; rfl)
theorem fmin (d : Operand) (a : Operand) (b : Operand) : Statement (.fmin d a b) := fun h => round_dab .fmin 0x36 _ _ _ h rfl (by decide) rfl rfl rfl (fun w e => by delta litWords; rw [e]; rfl) (fun w lo hi e => by delta decodeFields; rw [e]; rfl)
theorem fmax (d : Operand) (a : Operand) (b : Operand) : Statement (.fmax d a b) := fun h => round_dab .fmax 0x37 _ _ _ h rfl (by decide) rfl rfl rfl (fun w e => by delta litWords; rw [e]; rfl) (fun w lo hi e => by delta decodeFields; rw [e]; rfl)
theorem fdiv (d : Operand) (a : Operand) (b : Operand) : Statement (.fdiv d a b) := fun h => round_dab .fdiv 0x38 _ _ _ h rfl (by decide) rfl rfl rfl (fun w e => by delta litWords; rw [e]; rfl) (fun w lo hi e => by delta decodeFields; rw [e]; rfl)
theorem fsqrt (d : Operand) (a : Operand) : Statement (.fsqrt d a) := fun h => round_da .fsqrt 0x39 0 _ _ h rfl (by decide) (by decide) rfl rfl (.inr ⟨rfl, rfl⟩) (fun w e => by delta litWords; rw [e]; rfl) (fun w lo hi e _ => by delta decodeFields; rw [e]; rfl)
theorem frcp (d : Operand) (a : Operand) : Statement (.frcp d a) := fun h => round_da .frcp 0x3A 0 _ _ h rfl (by decide) (by decide) rfl rfl (.inr ⟨rfl, rfl⟩) (fun w e => by delta litWords; rw [e]; rfl) (fun w lo hi e _ => by delta decodeFields; rw [e]; rfl)
theorem frsq (d : Operand) (a : Operand) : Statement (.frsq d a) := fun h => round_da .frsq 0x3B 0 _ _ h rfl (by decide) (by decide) rfl rfl (.inr ⟨rfl, rfl⟩) (fun w e => by delta litWords; rw [e]; rfl) (fun w lo hi e _ => by delta decodeFields; rw [e]; rfl)
theorem fexp2 (d : Operand) (a : Operand) : Statement (.fexp2 d a) := fun h => round_da .fexp2 0x3C 0 _ _ h rfl (by decide) (by decide) rfl rfl (.inr ⟨rfl, rfl⟩) (fun w e => by delta litWords; rw [e]; rfl) (fun w lo hi e _ => by delta decodeFields; rw [e]; rfl)
theorem flog2 (d : Operand) (a : Operand) : Statement (.flog2 d a) := fun h => round_da .flog2 0x3D 0 _ _ h rfl (by decide) (by decide) rfl rfl (.inr ⟨rfl, rfl⟩) (fun w e => by delta litWords; rw [e]; rfl) (fun w lo hi e _ => by delta decodeFields; rw [e]; rfl)
theorem fsin (d : Operand) (a : Operand) : Statement (.fsin d a) := fun h => round_da .fsin 0x3E 0 _ _ h rfl (by decide) (by decide) rfl rfl (.inr ⟨rfl, rfl⟩) (fun w e => by delta litWords; rw [e]; rfl) (fun w lo hi e _ => by delta decodeFields; rw [e]; rfl)
theorem fcos (d : Operand) (a : Operand) : Statement (.fcos d a) := fun h => round_da .fcos 0x3F 0 _ _ h rfl (by decide) (by decide) rfl rfl (.inr ⟨rfl, rfl⟩) (fun w e => by delta litWords; rw [e]; rfl) (fun w lo hi e _ => by delta decodeFields; rw [e]; rfl)
theorem frnd (d : Operand) (a : Operand) : Statement (.frnd d a) := fun h => round_da .frnd 0x40 0 _ _ h rfl (by decide) (by decide) rfl rfl (.inr ⟨rfl, rfl⟩) (fun w e => by delta litWords; rw [e]; rfl) (fun w lo hi e _ => by delta decodeFields; rw [e]; rfl)
theorem fcmpeq (d : Operand) (a : Operand) (b : Operand) : Statement (.fcmpeq d a b) := fun h => round_dab .fcmpeq 0x41 _ _ _ h rfl (by decide) rfl rfl rfl (fun w e => by delta litWords; rw [e]; rfl) (fun w lo hi e => by delta decodeFields; rw [e]; rfl)
theorem fcmplt (d : Operand) (a : Operand) (b : Operand) : Statement (.fcmplt d a b) := fun h => round_dab .fcmplt 0x42 _ _ _ h rfl (by decide) rfl rfl rfl (fun w e => by delta litWords; rw [e]; rfl) (fun w lo hi e => by delta decodeFields; rw [e]; rfl)
theorem fcmple (d : Operand) (a : Operand) (b : Operand) : Statement (.fcmple d a b) := fun h => round_dab .fcmple 0x43 _ _ _ h rfl (by decide) rfl rfl rfl (fun w e => by delta litWords; rw [e]; rfl) (fun w lo hi e => by delta decodeFields; rw [e]; rfl)
theorem fcmpun (d : Operand) (a : Operand) (b : Operand) : Statement (.fcmpun d a b) := fun h => round_dab .fcmpun 0x44 _ _ _ h rfl (by decide) rfl rfl rfl (fun w e => by delta litWords; rw [e]; rfl) (fun w lo hi e => by delta decodeFields; rw [e]; rfl)
theorem fclass (d : Operand) (a : Operand) : Statement (.fclass d a) := fun h => round_da .fclass 0x45 0 _ _ h rfl (by decide) (by decide) rfl rfl (.inr ⟨rfl, rfl⟩) (fun w e => by delta litWords; rw [e]; rfl) (fun w lo hi e _ => by delta decodeFields; rw [e]; rfl)
theorem cmul (d : Operand) (a : Operand) (b : Operand) : Statement (.cmul d a b) := fun h => round_dab .cmul 0x46 _ _ _ h rfl (by decide) rfl rfl rfl (fun w e => by delta litWords; rw [e]; rfl) (fun w lo hi e => by delta decodeFields; rw [e]; rfl)
theorem cmad (d : Operand) (a : Operand) (b : Operand) : Statement (.cmad d a b) := fun h => round_dab .cmad 0x47 _ _ _ h rfl (by decide) rfl rfl rfl (fun w e => by delta litWords; rw [e]; rfl) (fun w lo hi e => by delta decodeFields; rw [e]; rfl)
theorem cvtif (d : Operand) (a : Operand) : Statement (.cvtif d a) := fun h => round_da .cvtif 0x48 0 _ _ h rfl (by decide) (by decide) rfl rfl (.inr ⟨rfl, rfl⟩) (fun w e => by delta litWords; rw [e]; rfl) (fun w lo hi e _ => by delta decodeFields; rw [e]; rfl)
theorem cvtfi (d : Operand) (a : Operand) : Statement (.cvtfi d a) := fun h => round_da .cvtfi 0x49 0 _ _ h rfl (by decide) (by decide) rfl rfl (.inr ⟨rfl, rfl⟩) (fun w e => by delta litWords; rw [e]; rfl) (fun w lo hi e _ => by delta decodeFields; rw [e]; rfl)
theorem cvtff (d : Operand) (a : Operand) (c : Byte) : Statement (.cvtff d a c) :=
  fun h => round_da (fun d a => .cvtff d a c) 0x4A c.toNat _ _ h rfl (by decide) c.isLt rfl rfl (.inl rfl) (fun w e => by delta litWords; rw [e]; rfl)
    (fun w lo hi e k => by delta decodeFields; rw [e]; exact congrArg (fun x => Except.ok (Instr.cvtff _ _ x)) (byte_of k))
theorem cvtn8 (d : Operand) (a : Operand) (c : Byte) : Statement (.cvtn8 d a c) :=
  fun h => round_da (fun d a => .cvtn8 d a c) 0x4B c.toNat _ _ h rfl (by decide) c.isLt rfl rfl (.inl rfl) (fun w e => by delta litWords; rw [e]; rfl)
    (fun w lo hi e k => by delta decodeFields; rw [e]; exact congrArg (fun x => Except.ok (Instr.cvtn8 _ _ x)) (byte_of k))
theorem cvtw8 (d : Operand) (a : Operand) (c : Byte) : Statement (.cvtw8 d a c) :=
  fun h => round_da (fun d a => .cvtw8 d a c) 0x4C c.toNat _ _ h rfl (by decide) c.isLt rfl rfl (.inl rfl) (fun w e => by delta litWords; rw [e]; rfl)
    (fun w lo hi e k => by delta decodeFields; rw [e]; exact congrArg (fun x => Except.ok (Instr.cvtw8 _ _ x)) (byte_of k))
theorem mov (d : Operand) (a : Operand) : Statement (.mov d a) := fun h => round_da .mov 0x50 0 _ _ h rfl (by decide) (by decide) rfl rfl (.inr ⟨rfl, rfl⟩) (fun w e => by delta litWords; rw [e]; rfl) (fun w lo hi e _ => by delta decodeFields; rw [e]; rfl)
theorem sel (d : Operand) (a : Operand) (b : Operand) : Statement (.sel d a b) := fun h => round_dab .sel 0x51 _ _ _ h rfl (by decide) rfl rfl rfl (fun w e => by delta litWords; rw [e]; rfl) (fun w lo hi e => by delta decodeFields; rw [e]; rfl)
theorem promote (d : Operand) (a : Operand) (b : Operand) : Statement (.promote d a b) := fun h => round_dab .promote 0x52 _ _ _ h rfl (by decide) rfl rfl rfl (fun w e => by delta litWords; rw [e]; rfl) (fun w lo hi e => by delta decodeFields; rw [e]; rfl)
theorem demote (d : Operand) (a : Operand) : Statement (.demote d a) := fun h => round_da .demote 0x53 0 _ _ h rfl (by decide) (by decide) rfl rfl (.inr ⟨rfl, rfl⟩) (fun w e => by delta litWords; rw [e]; rfl) (fun w lo hi e _ => by delta decodeFields; rw [e]; rfl)
theorem vall (d : Operand) (a : Operand) : Statement (.vall d a) := fun h => round_da .vall 0x54 0 _ _ h rfl (by decide) (by decide) rfl rfl (.inr ⟨rfl, rfl⟩) (fun w e => by delta litWords; rw [e]; rfl) (fun w lo hi e _ => by delta decodeFields; rw [e]; rfl)
theorem vany (d : Operand) (a : Operand) : Statement (.vany d a) := fun h => round_da .vany 0x55 0 _ _ h rfl (by decide) (by decide) rfl rfl (.inr ⟨rfl, rfl⟩) (fun w e => by delta litWords; rw [e]; rfl) (fun w lo hi e _ => by delta decodeFields; rw [e]; rfl)
theorem veq (d : Operand) (a : Operand) : Statement (.veq d a) := fun h => round_da .veq 0x56 0 _ _ h rfl (by decide) (by decide) rfl rfl (.inr ⟨rfl, rfl⟩) (fun w e => by delta litWords; rw [e]; rfl) (fun w lo hi e _ => by delta decodeFields; rw [e]; rfl)
theorem ballot (d : Operand) (a : Operand) : Statement (.ballot d a) := fun h => round_da .ballot 0x57 0 _ _ h rfl (by decide) (by decide) rfl rfl (.inr ⟨rfl, rfl⟩) (fun w e => by delta litWords; rw [e]; rfl) (fun w lo hi e _ => by delta decodeFields; rw [e]; rfl)
theorem shfl (d : Operand) (a : Operand) (b : Operand) : Statement (.shfl d a b) := fun h => round_dab .shfl 0x58 _ _ _ h rfl (by decide) rfl rfl rfl (fun w e => by delta litWords; rw [e]; rfl) (fun w lo hi e => by delta decodeFields; rw [e]; rfl)
theorem shflx (d : Operand) (a : Operand) (m : Byte) : Statement (.shflx d a m) :=
  fun h => round_da (fun d a => .shflx d a m) 0x59 m.toNat _ _ h rfl (by decide) m.isLt rfl rfl (.inl rfl) (fun w e => by delta litWords; rw [e]; rfl)
    (fun w lo hi e k => by delta decodeFields; rw [e]; exact congrArg (fun x => Except.ok (Instr.shflx _ _ x)) (byte_of k))
theorem shfldn (d : Operand) (a : Operand) (m : Byte) : Statement (.shfldn d a m) :=
  fun h => round_da (fun d a => .shfldn d a m) 0x5A m.toNat _ _ h rfl (by decide) m.isLt rfl rfl (.inl rfl) (fun w e => by delta litWords; rw [e]; rfl)
    (fun w lo hi e k => by delta decodeFields; rw [e]; exact congrArg (fun x => Except.ok (Instr.shfldn _ _ x)) (byte_of k))
theorem shflup (d : Operand) (a : Operand) (m : Byte) : Statement (.shflup d a m) :=
  fun h => round_da (fun d a => .shflup d a m) 0x5B m.toNat _ _ h rfl (by decide) m.isLt rfl rfl (.inl rfl) (fun w e => by delta litWords; rw [e]; rfl)
    (fun w lo hi e k => by delta decodeFields; rw [e]; exact congrArg (fun x => Except.ok (Instr.shflup _ _ x)) (byte_of k))
theorem pand (d : Operand) (a : Operand) (b : Operand) : Statement (.pand d a b) := fun h => round_dab .pand 0x5C _ _ _ h rfl (by decide) rfl rfl rfl (fun w e => by delta litWords; rw [e]; rfl) (fun w lo hi e => by delta decodeFields; rw [e]; rfl)
theorem por (d : Operand) (a : Operand) (b : Operand) : Statement (.por d a b) := fun h => round_dab .por 0x5D _ _ _ h rfl (by decide) rfl rfl rfl (fun w e => by delta litWords; rw [e]; rfl) (fun w lo hi e => by delta decodeFields; rw [e]; rfl)
theorem pxor (d : Operand) (a : Operand) (b : Operand) : Statement (.pxor d a b) := fun h => round_dab .pxor 0x5E _ _ _ h rfl (by decide) rfl rfl rfl (fun w e => by delta litWords; rw [e]; rfl) (fun w lo hi e => by delta decodeFields; rw [e]; rfl)
theorem pnot (d : Operand) (a : Operand) : Statement (.pnot d a) := fun h => round_da .pnot 0x5F 0 _ _ h rfl (by decide) (by decide) rfl rfl (.inr ⟨rfl, rfl⟩) (fun w e => by delta litWords; rw [e]; rfl) (fun w lo hi e _ => by delta decodeFields; rw [e]; rfl)
theorem jmp (o : BitVec 24) : Statement (.jmp o) := fun _ => by
  have p := word24 0x60#8 o
  exact round 0x60 (o.toNat / 65536) (o.toNat / 256 % 256) (o.toNat % 256) ⟨by decide, by omega, by omega, by omega⟩
    (congrArg some p) rfl (by decide) (.inr (by decide)) (.inr (by decide)) (.inr (by decide))
    (fun w e _ _ _ => by delta litWords; rw [e]; rfl)
    (fun w e kd ka kb => by delta decodeFields; rw [e]; exact congrArg (fun x => Except.ok (Instr.jmp x)) (field_low24 kd ka kb))
theorem bp (p : Operand) (o : BitVec 16) : Statement (.bp p o) :=
  fun h => round_d (fun p => .bp p o) 0x61 (o.toNat / 256) (o.toNat % 256) _ h rfl (by decide) (by omega) (by omega) rfl rfl (.inl rfl) (fun w e => by delta litWords; rw [e]; rfl)
    (fun w e ka kb => by delta decodeFields; rw [e]; exact congrArg (fun x => Except.ok (Instr.bp _ x)) (field_low16 ka kb))
theorem bnp (p : Operand) (o : BitVec 16) : Statement (.bnp p o) :=
  fun h => round_d (fun p => .bnp p o) 0x62 (o.toNat / 256) (o.toNat % 256) _ h rfl (by decide) (by omega) (by omega) rfl rfl (.inl rfl) (fun w e => by delta litWords; rw [e]; rfl)
    (fun w e ka kb => by delta decodeFields; rw [e]; exact congrArg (fun x => Except.ok (Instr.bnp _ x)) (field_low16 ka kb))
theorem bany (p : Operand) (o : BitVec 16) : Statement (.bany p o) :=
  fun h => round_d (fun p => .bany p o) 0x63 (o.toNat / 256) (o.toNat % 256) _ h rfl (by decide) (by omega) (by omega) rfl rfl (.inl rfl) (fun w e => by delta litWords; rw [e]; rfl)
    (fun w e ka kb => by delta decodeFields; rw [e]; exact congrArg (fun x => Except.ok (Instr.bany _ x)) (field_low16 ka kb))
theorem ball (p : Operand) (o : BitVec 16) : Statement (.ball p o) :=
  fun h => round_d (fun p => .ball p o) 0x64 (o.toNat / 256) (o.toNat % 256) _ h rfl (by decide) (by omega) (by omega) rfl rfl (.inl rfl) (fun w e => by delta litWords; rw [e]; rfl)
    (fun w e ka kb => by delta decodeFields; rw [e]; exact congrArg (fun x => Except.ok (Instr.ball _ x)) (field_low16 ka kb))
theorem bnone (p : Operand) (o : BitVec 16) : Statement (.bnone p o) :=
  fun h => round_d (fun p => .bnone p o) 0x65 (o.toNat / 256) (o.toNat % 256) _ h rfl (by decide) (by omega) (by omega) rfl rfl (.inl rfl) (fun w e => by delta litWords; rw [e]; rfl)
    (fun w e ka kb => by delta decodeFields; rw [e]; exact congrArg (fun x => Except.ok (Instr.bnone _ x)) (field_low16 ka kb))
theorem call (f : Byte) (o : BitVec 16) : Statement (.call f o) :=
  fun _ => round 0x66 f.toNat (o.toNat / 256) (o.toNat % 256) ⟨by decide, f.isLt, by omega, by omega⟩ rfl rfl (by decide)
    (.inr (by decide)) (.inr (by decide)) (.inr (by decide)) (fun w e _ _ _ => by delta litWords; rw [e]; rfl)
    (fun w e kd ka kb => by delta decodeFields; rw [e]; exact congrArg₂ (fun x y => Except.ok (Instr.call x y)) (byte_of kd) (field_low16 ka kb))
theorem ret (a : Operand) : Statement (.ret a) := fun h => round_a .ret 0x67 0 0 _ h rfl (by decide) (by decide) (by decide) rfl rfl (.inr (.inl ⟨rfl, rfl, rfl⟩)) (fun w e => by delta litWords; rw [e]; rfl)
  (fun w e _ _ q => by delta decodeFields; rw [e]; exact congrArg (fun x => Except.ok (Instr.ret x)) q)
theorem jmpi (a : Operand) : Statement (.jmpi a) := fun h => round_a .jmpi 0x68 0 0 _ h rfl (by decide) (by decide) (by decide) rfl rfl (.inr (.inl ⟨rfl, rfl, rfl⟩)) (fun w e => by delta litWords; rw [e]; rfl)
  (fun w e _ _ q => by delta decodeFields; rw [e]; exact congrArg (fun x => Except.ok (Instr.jmpi x)) q)
theorem calli (f : Byte) (a : Operand) : Statement (.calli f a) :=
  fun h => round_a (fun a => .calli f a) 0x69 f.toNat 0 _ h rfl (by decide) f.isLt (by decide) rfl rfl (.inr (.inr ⟨rfl, rfl⟩)) (fun w e => by delta litWords; rw [e]; rfl)
    (fun w e k _ q => by delta decodeFields; rw [e]; exact congrArg₂ (fun x y => Except.ok (Instr.calli x y)) (byte_of k) q)
theorem bar (a : Operand) : Statement (.bar a) := fun h => round_a .bar 0x70 0 0 _ h rfl (by decide) (by decide) (by decide) rfl rfl (.inr (.inl ⟨rfl, rfl, rfl⟩)) (fun w e => by delta litWords; rw [e]; rfl)
  (fun w e _ _ q => by delta decodeFields; rw [e]; exact congrArg (fun x => Except.ok (Instr.bar x)) q)
theorem barrive (d : Operand) (a : Operand) : Statement (.barrive d a) := fun h => round_da .barrive 0x71 0 _ _ h rfl (by decide) (by decide) rfl rfl (.inr ⟨rfl, rfl⟩) (fun w e => by delta litWords; rw [e]; rfl) (fun w lo hi e _ => by delta decodeFields; rw [e]; rfl)
theorem bwait (a : Operand) (b : Operand) : Statement (.bwait a b) := fun h => round_ab .bwait 0x72 _ _ h rfl (by decide) rfl rfl rfl (fun w e => by delta litWords; rw [e]; rfl) (fun w lo hi e => by delta decodeFields; rw [e]; rfl)
theorem grow (d : Operand) (a : Operand) (b : Operand) : Statement (.grow d a b) := fun h => round_dab .grow 0x73 _ _ _ h rfl (by decide) rfl rfl rfl (fun w e => by delta litWords; rw [e]; rfl) (fun w lo hi e => by delta decodeFields; rw [e]; rfl)
theorem attach (d : Operand) (a : Operand) : Statement (.attach d a) := fun h => round_da .attach 0x74 0 _ _ h rfl (by decide) (by decide) rfl rfl (.inr ⟨rfl, rfl⟩) (fun w e => by delta litWords; rw [e]; rfl) (fun w lo hi e _ => by delta decodeFields; rw [e]; rfl)
theorem detach (a : Operand) : Statement (.detach a) := fun h => round_a .detach 0x75 0 0 _ h rfl (by decide) (by decide) (by decide) rfl rfl (.inr (.inl ⟨rfl, rfl, rfl⟩)) (fun w e => by delta litWords; rw [e]; rfl)
  (fun w e _ _ q => by delta decodeFields; rw [e]; exact congrArg (fun x => Except.ok (Instr.detach x)) q)
theorem shrinkq (d : Operand) : Statement (.shrinkq d) := fun h => round_d .shrinkq 0x76 0 0 _ h rfl (by decide) (by decide) (by decide) rfl rfl (.inr (.inr ⟨rfl, rfl, rfl⟩)) (fun w e => by delta litWords; rw [e]; rfl)
  (fun w e _ _ => by delta decodeFields; rw [e]; rfl)
theorem bmem (d : Operand) (a : Operand) : Statement (.bmem d a) := fun h => round_da .bmem 0x77 0 _ _ h rfl (by decide) (by decide) rfl rfl (.inr ⟨rfl, rfl⟩) (fun w e => by delta litWords; rw [e]; rfl) (fun w lo hi e _ => by delta decodeFields; rw [e]; rfl)
theorem lds (d : Operand) (a : Operand) : Statement (.lds d a) := fun h => round_da .lds 0x80 0 _ _ h rfl (by decide) (by decide) rfl rfl (.inr ⟨rfl, rfl⟩) (fun w e => by delta litWords; rw [e]; rfl) (fun w lo hi e _ => by delta decodeFields; rw [e]; rfl)
theorem sts (a : Operand) (b : Operand) : Statement (.sts a b) := fun h => round_ab .sts 0x81 _ _ h rfl (by decide) rfl rfl rfl (fun w e => by delta litWords; rw [e]; rfl) (fun w lo hi e => by delta decodeFields; rw [e]; rfl)
theorem ldsl (d : Operand) (a : Operand) (b : Operand) : Statement (.ldsl d a b) := fun h => round_dab .ldsl 0x82 _ _ _ h rfl (by decide) rfl rfl rfl (fun w e => by delta litWords; rw [e]; rfl) (fun w lo hi e => by delta decodeFields; rw [e]; rfl)
theorem stsl (d : Operand) (a : Operand) (b : Operand) : Statement (.stsl d a b) := by
  intro h
  obtain ⟨r, n⟩ := wf_operands (l := [(d, true), (a, true), (b, true)]) h rfl
  simp only [List.all_cons, List.all_nil, Bool.true_or, Bool.and_true, Bool.and_eq_true] at r
  obtain ⟨cd, rd, qd⟩ := operand_read d r.1
  obtain ⟨ca, ra, qa⟩ := operand_read a r.2.1
  obtain ⟨cb, rb, qb⟩ := operand_read b r.2.2
  by_cases ld : d.isLit = false
  · have one : a.isLit = false ∨ b.isLit = false := by
      by_contra k
      simp only [not_or, Bool.not_eq_false] at k
      simp [k.1, k.2, ld] at n
    obtain ⟨-, zd, ed, pd⟩ := plain_of_inRange d r.1 ld
    obtain ⟨n', pa, pb⟩ := pair_read a b r.2.1 r.2.2 one
    refine round (l := a.lits ++ b.lits) 0x83 d.code a.code b.code ⟨by decide, cd, ca, cb⟩ rfl
      (by show d.lits ++ a.lits ++ b.lits = _; rw [ed]; rfl) (by decide) (.inr (by decide)) (.inr (by decide)) (.inr (by decide))
      (fun w e fd fa fb => ?_) (fun w e fd fa fb => ?_)
    · delta litWords; rw [e]
      refine (if_pos (by rw [fd, zd])).trans ?_
      rw [fa, fb, n']
    · delta decodeFields; rw [e]
      show Except.ok (Instr.stsl (operandOf (fieldD w) _ _) (operandOf (fieldA w) _ _) (operandOf (fieldB w) _ _)) = _
      rw [fd, fa, fb, pd, pa, pb]
  · have ld : d.isLit = true := by simpa using ld
    have la : a.isLit = false := by
      by_contra k
      simp [show a.isLit = true by simpa using k, ld, List.filter_cons] at n
    have lb : b.isLit = false := by
      by_contra k
      simp [show b.isLit = true by simpa using k, ld, la] at n
    obtain ⟨-, za, ea, pa⟩ := plain_of_inRange a r.2.1 la
    obtain ⟨-, zb, eb, pb⟩ := plain_of_inRange b r.2.2 lb
    refine round (l := d.lits) 0x83 d.code a.code b.code ⟨by decide, cd, ca, cb⟩ rfl
      (by show d.lits ++ a.lits ++ b.lits = _; rw [ea, eb, List.append_nil, List.append_nil]) (by decide)
      (.inr (by decide)) (.inr (by decide)) (.inr (by decide)) (fun w e fd fa fb => ?_) (fun w e fd fa fb => ?_)
    · delta litWords; rw [e]
      refine (if_neg ?_).trans (by rw [fd, rd])
      rw [fd, rd]
      cases d <;> first | (simp [Operand.isLit] at ld; done) | simp [Operand.lits]
    · delta decodeFields; rw [e]
      show Except.ok (Instr.stsl (operandOf (fieldD w) _ _) (operandOf (fieldA w) _ _) (operandOf (fieldB w) _ _)) = _
      rw [fd, fa, fb, qd, pa, pb]
theorem ldlk (d : Operand) (a : Operand) : Statement (.ldlk d a) := fun h => round_da .ldlk 0x84 0 _ _ h rfl (by decide) (by decide) rfl rfl (.inr ⟨rfl, rfl⟩) (fun w e => by delta litWords; rw [e]; rfl) (fun w lo hi e _ => by delta decodeFields; rw [e]; rfl)
theorem stul (d : Operand) (a : Operand) (b : Operand) : Statement (.stul d a b) := fun h => round_dab .stul 0x85 _ _ _ h rfl (by decide) rfl rfl rfl (fun w e => by delta litWords; rw [e]; rfl) (fun w lo hi e => by delta decodeFields; rw [e]; rfl)
theorem sadd (d : Operand) (a : Operand) (b : Operand) : Statement (.sadd d a b) := fun h => round_dab .sadd 0x86 _ _ _ h rfl (by decide) rfl rfl rfl (fun w e => by delta litWords; rw [e]; rfl) (fun w lo hi e => by delta decodeFields; rw [e]; rfl)
theorem smin (d : Operand) (a : Operand) (b : Operand) : Statement (.smin d a b) := fun h => round_dab .smin 0x87 _ _ _ h rfl (by decide) rfl rfl rfl (fun w e => by delta litWords; rw [e]; rfl) (fun w lo hi e => by delta decodeFields; rw [e]; rfl)
theorem smax (d : Operand) (a : Operand) (b : Operand) : Statement (.smax d a b) := fun h => round_dab .smax 0x88 _ _ _ h rfl (by decide) rfl rfl rfl (fun w e => by delta litWords; rw [e]; rfl) (fun w lo hi e => by delta decodeFields; rw [e]; rfl)
theorem sxchg (d : Operand) (a : Operand) (b : Operand) : Statement (.sxchg d a b) := fun h => round_dab .sxchg 0x89 _ _ _ h rfl (by decide) rfl rfl rfl (fun w e => by delta litWords; rw [e]; rfl) (fun w lo hi e => by delta decodeFields; rw [e]; rfl)
theorem scas (d : Operand) (a : Operand) (b : Operand) : Statement (.scas d a b) := fun h => round_dab .scas 0x8A _ _ _ h rfl (by decide) rfl rfl rfl (fun w e => by delta litWords; rw [e]; rfl) (fun w lo hi e => by delta decodeFields; rw [e]; rfl)
theorem sand (d : Operand) (a : Operand) (b : Operand) : Statement (.sand d a b) := fun h => round_dab .sand 0x8B _ _ _ h rfl (by decide) rfl rfl rfl (fun w e => by delta litWords; rw [e]; rfl) (fun w lo hi e => by delta decodeFields; rw [e]; rfl)
theorem sor (d : Operand) (a : Operand) (b : Operand) : Statement (.sor d a b) := fun h => round_dab .sor 0x8C _ _ _ h rfl (by decide) rfl rfl rfl (fun w e => by delta litWords; rw [e]; rfl) (fun w lo hi e => by delta decodeFields; rw [e]; rfl)
theorem ld (d : Operand) (a : Operand) : Statement (.ld d a) := fun h => round_da .ld 0x90 0 _ _ h rfl (by decide) (by decide) rfl rfl (.inr ⟨rfl, rfl⟩) (fun w e => by delta litWords; rw [e]; rfl) (fun w lo hi e _ => by delta decodeFields; rw [e]; rfl)
theorem st (a : Operand) (b : Operand) : Statement (.st a b) := fun h => round_ab .st 0x91 _ _ h rfl (by decide) rfl rfl rfl (fun w e => by delta litWords; rw [e]; rfl) (fun w lo hi e => by delta decodeFields; rw [e]; rfl)
theorem ldacq (d : Operand) (a : Operand) : Statement (.ldacq d a) := fun h => round_da .ldacq 0x92 0 _ _ h rfl (by decide) (by decide) rfl rfl (.inr ⟨rfl, rfl⟩) (fun w e => by delta litWords; rw [e]; rfl) (fun w lo hi e _ => by delta decodeFields; rw [e]; rfl)
theorem strel (a : Operand) (b : Operand) : Statement (.strel a b) := fun h => round_ab .strel 0x93 _ _ h rfl (by decide) rfl rfl rfl (fun w e => by delta litWords; rw [e]; rfl) (fun w lo hi e => by delta decodeFields; rw [e]; rfl)
theorem gadd (d : Operand) (a : Operand) (b : Operand) : Statement (.gadd d a b) := fun h => round_dab .gadd 0x94 _ _ _ h rfl (by decide) rfl rfl rfl (fun w e => by delta litWords; rw [e]; rfl) (fun w lo hi e => by delta decodeFields; rw [e]; rfl)
theorem gmin (d : Operand) (a : Operand) (b : Operand) : Statement (.gmin d a b) := fun h => round_dab .gmin 0x95 _ _ _ h rfl (by decide) rfl rfl rfl (fun w e => by delta litWords; rw [e]; rfl) (fun w lo hi e => by delta decodeFields; rw [e]; rfl)
theorem gmax (d : Operand) (a : Operand) (b : Operand) : Statement (.gmax d a b) := fun h => round_dab .gmax 0x96 _ _ _ h rfl (by decide) rfl rfl rfl (fun w e => by delta litWords; rw [e]; rfl) (fun w lo hi e => by delta decodeFields; rw [e]; rfl)
theorem gxchg (d : Operand) (a : Operand) (b : Operand) : Statement (.gxchg d a b) := fun h => round_dab .gxchg 0x97 _ _ _ h rfl (by decide) rfl rfl rfl (fun w e => by delta litWords; rw [e]; rfl) (fun w lo hi e => by delta decodeFields; rw [e]; rfl)
theorem gcas (d : Operand) (a : Operand) (b : Operand) : Statement (.gcas d a b) := fun h => round_dab .gcas 0x98 _ _ _ h rfl (by decide) rfl rfl rfl (fun w e => by delta litWords; rw [e]; rfl) (fun w lo hi e => by delta decodeFields; rw [e]; rfl)
theorem gand (d : Operand) (a : Operand) (b : Operand) : Statement (.gand d a b) := fun h => round_dab .gand 0x99 _ _ _ h rfl (by decide) rfl rfl rfl (fun w e => by delta litWords; rw [e]; rfl) (fun w lo hi e => by delta decodeFields; rw [e]; rfl)
theorem gor (d : Operand) (a : Operand) (b : Operand) : Statement (.gor d a b) := fun h => round_dab .gor 0x9A _ _ _ h rfl (by decide) rfl rfl rfl (fun w e => by delta litWords; rw [e]; rfl) (fun w lo hi e => by delta decodeFields; rw [e]; rfl)
theorem fence (o : Byte) : Statement (.fence o) := fun _ => round 0x9B 0 0 o.toNat ⟨by decide, by decide, by decide, o.isLt⟩ rfl rfl (by decide) (.inl rfl) (.inl rfl)
  (.inr (by decide)) (fun w e _ _ _ => by delta litWords; rw [e]; rfl)
  (fun w e _ _ k => by delta decodeFields; rw [e]; exact congrArg (fun x => Except.ok (Instr.fence x)) (byte_of k))
theorem pref (a : Operand) (h : Byte) : Statement (.pref a h) :=
  fun hw => round_a (fun a => .pref a h) 0x9C 0 h.toNat _ hw rfl (by decide) (by decide) h.isLt rfl rfl (.inl ⟨rfl, rfl⟩) (fun w e => by delta litWords; rw [e]; rfl)
    (fun w e _ k q => by delta decodeFields; rw [e]; exact congrArg₂ (fun x y => Except.ok (Instr.pref x y)) q (byte_of k))
theorem wseq (d : Operand) (a : Operand) (b : Operand) : Statement (.wseq d a b) := fun h => round_dab .wseq 0x9D _ _ _ h rfl (by decide) rfl rfl rfl (fun w e => by delta litWords; rw [e]; rfl) (fun w lo hi e => by delta decodeFields; rw [e]; rfl)
theorem icsync : Statement .icsync := fun _ => round 0x9E 0 0 0 (by decide) rfl rfl (by decide) (.inl rfl) (.inl rfl) (.inl rfl)
  (fun w e _ _ _ => by delta litWords; rw [e]; rfl) (fun w e _ _ _ => by delta decodeFields; rw [e]; rfl)
theorem mma (n : BitVec 3) (d : Operand) (a : Operand) (b : Operand) : Statement (.mma n d a b) := by
  intro h
  obtain rfl | rfl | rfl | rfl | rfl | rfl | rfl | rfl := eight n
  · exact round_dab (.mma 0) 0xA0 _ _ _ h rfl (by decide) rfl rfl rfl (fun w e => by delta litWords; rw [e]; rfl) (fun w lo hi e => by delta decodeFields; rw [e]; rfl)
  · exact round_dab (.mma 1) 0xA1 _ _ _ h rfl (by decide) rfl rfl rfl (fun w e => by delta litWords; rw [e]; rfl) (fun w lo hi e => by delta decodeFields; rw [e]; rfl)
  · exact round_dab (.mma 2) 0xA2 _ _ _ h rfl (by decide) rfl rfl rfl (fun w e => by delta litWords; rw [e]; rfl) (fun w lo hi e => by delta decodeFields; rw [e]; rfl)
  · exact round_dab (.mma 3) 0xA3 _ _ _ h rfl (by decide) rfl rfl rfl (fun w e => by delta litWords; rw [e]; rfl) (fun w lo hi e => by delta decodeFields; rw [e]; rfl)
  · exact round_dab (.mma 4) 0xA4 _ _ _ h rfl (by decide) rfl rfl rfl (fun w e => by delta litWords; rw [e]; rfl) (fun w lo hi e => by delta decodeFields; rw [e]; rfl)
  · exact round_dab (.mma 5) 0xA5 _ _ _ h rfl (by decide) rfl rfl rfl (fun w e => by delta litWords; rw [e]; rfl) (fun w lo hi e => by delta decodeFields; rw [e]; rfl)
  · exact round_dab (.mma 6) 0xA6 _ _ _ h rfl (by decide) rfl rfl rfl (fun w e => by delta litWords; rw [e]; rfl) (fun w lo hi e => by delta decodeFields; rw [e]; rfl)
  · exact round_dab (.mma 7) 0xA7 _ _ _ h rfl (by decide) rfl rfl rfl (fun w e => by delta litWords; rw [e]; rfl) (fun w lo hi e => by delta decodeFields; rw [e]; rfl)
theorem mmaw (n : BitVec 3) (d : Operand) (a : Operand) (b : Operand) : Statement (.mmaw n d a b) := by
  intro h
  obtain rfl | rfl | rfl | rfl | rfl | rfl | rfl | rfl := eight n
  · exact round_dab (.mmaw 0) 0xA8 _ _ _ h rfl (by decide) rfl rfl rfl (fun w e => by delta litWords; rw [e]; rfl) (fun w lo hi e => by delta decodeFields; rw [e]; rfl)
  · exact round_dab (.mmaw 1) 0xA9 _ _ _ h rfl (by decide) rfl rfl rfl (fun w e => by delta litWords; rw [e]; rfl) (fun w lo hi e => by delta decodeFields; rw [e]; rfl)
  · exact round_dab (.mmaw 2) 0xAA _ _ _ h rfl (by decide) rfl rfl rfl (fun w e => by delta litWords; rw [e]; rfl) (fun w lo hi e => by delta decodeFields; rw [e]; rfl)
  · exact round_dab (.mmaw 3) 0xAB _ _ _ h rfl (by decide) rfl rfl rfl (fun w e => by delta litWords; rw [e]; rfl) (fun w lo hi e => by delta decodeFields; rw [e]; rfl)
  · exact round_dab (.mmaw 4) 0xAC _ _ _ h rfl (by decide) rfl rfl rfl (fun w e => by delta litWords; rw [e]; rfl) (fun w lo hi e => by delta decodeFields; rw [e]; rfl)
  · exact round_dab (.mmaw 5) 0xAD _ _ _ h rfl (by decide) rfl rfl rfl (fun w e => by delta litWords; rw [e]; rfl) (fun w lo hi e => by delta decodeFields; rw [e]; rfl)
  · exact round_dab (.mmaw 6) 0xAE _ _ _ h rfl (by decide) rfl rfl rfl (fun w e => by delta litWords; rw [e]; rfl) (fun w lo hi e => by delta decodeFields; rw [e]; rfl)
  · exact round_dab (.mmaw 7) 0xAF _ _ _ h rfl (by decide) rfl rfl rfl (fun w e => by delta litWords; rw [e]; rfl) (fun w lo hi e => by delta decodeFields; rw [e]; rfl)
theorem tcfg (d : Operand) (a : Operand) : Statement (.tcfg d a) := fun h => round_da .tcfg 0xB0 0 _ _ h rfl (by decide) (by decide) rfl rfl (.inr ⟨rfl, rfl⟩) (fun w e => by delta litWords; rw [e]; rfl) (fun w lo hi e _ => by delta decodeFields; rw [e]; rfl)
theorem twin (d : Operand) (a : Operand) : Statement (.twin d a) := fun h => round_da .twin 0xB1 0 _ _ h rfl (by decide) (by decide) rfl rfl (.inr ⟨rfl, rfl⟩) (fun w e => by delta litWords; rw [e]; rfl) (fun w lo hi e _ => by delta decodeFields; rw [e]; rfl)
theorem accz (d : Operand) : Statement (.accz d) := fun h => round_d .accz 0xB2 0 0 _ h rfl (by decide) (by decide) (by decide) rfl rfl (.inr (.inr ⟨rfl, rfl, rfl⟩)) (fun w e => by delta litWords; rw [e]; rfl)
  (fun w e _ _ => by delta decodeFields; rw [e]; rfl)
theorem accrd (d : Operand) (a : Operand) (b : Operand) : Statement (.accrd d a b) := fun h => round_dab .accrd 0xB3 _ _ _ h rfl (by decide) rfl rfl rfl (fun w e => by delta litWords; rw [e]; rfl) (fun w lo hi e => by delta decodeFields; rw [e]; rfl)
theorem accwr (d : Operand) (a : Operand) (b : Operand) : Statement (.accwr d a b) := fun h => round_dab .accwr 0xB4 _ _ _ h rfl (by decide) rfl rfl rfl (fun w e => by delta litWords; rw [e]; rfl) (fun w lo hi e => by delta decodeFields; rw [e]; rfl)
theorem mdrain (d : Operand) (a : Operand) (m : BitVec 5) (n : BitVec 3) : Statement (.mdrain d a m n) :=
  fun h => round_da (fun d a => .mdrain d a m n) 0xB5 (m.toNat * 8 + n.toNat) _ _ h rfl (by decide) (by omega) rfl rfl (.inl rfl) (fun w e => by delta litWords; rw [e]; rfl)
    (fun w lo hi e k => by delta decodeFields; rw [e]; exact congrArg₂ (fun x y => Except.ok (Instr.mdrain _ _ x y)) (high_of k) (low_of k))
theorem hist (a : Operand) : Statement (.hist a) := fun h => round_a .hist 0xB6 0 0 _ h rfl (by decide) (by decide) (by decide) rfl rfl (.inr (.inl ⟨rfl, rfl, rfl⟩)) (fun w e => by delta litWords; rw [e]; rfl)
  (fun w e _ _ q => by delta decodeFields; rw [e]; exact congrArg (fun x => Except.ok (Instr.hist x)) q)
theorem hclr : Statement .hclr := fun _ => round 0xB7 0 0 0 (by decide) rfl rfl (by decide) (.inl rfl) (.inl rfl) (.inl rfl)
  (fun w e _ _ _ => by delta litWords; rw [e]; rfl) (fun w e _ _ _ => by delta decodeFields; rw [e]; rfl)
theorem hscale (d : Operand) (a : Operand) : Statement (.hscale d a) := fun h => round_da .hscale 0xB8 0 _ _ h rfl (by decide) (by decide) rfl rfl (.inr ⟨rfl, rfl⟩) (fun w e => by delta litWords; rw [e]; rfl) (fun w lo hi e _ => by delta decodeFields; rw [e]; rfl)
theorem qcvt (d : Operand) (a : Operand) (m : BitVec 5) (n : BitVec 3) : Statement (.qcvt d a m n) :=
  fun h => round_da (fun d a => .qcvt d a m n) 0xB9 (m.toNat * 8 + n.toNat) _ _ h rfl (by decide) (by omega) rfl rfl (.inl rfl) (fun w e => by delta litWords; rw [e]; rfl)
    (fun w lo hi e k => by delta decodeFields; rw [e]; exact congrArg₂ (fun x y => Except.ok (Instr.qcvt _ _ x y)) (high_of k) (low_of k))
theorem cpin (d : Operand) (a : Operand) : Statement (.cpin d a) := fun h => round_da .cpin 0xC0 0 _ _ h rfl (by decide) (by decide) rfl rfl (.inr ⟨rfl, rfl⟩) (fun w e => by delta litWords; rw [e]; rfl) (fun w lo hi e _ => by delta decodeFields; rw [e]; rfl)
theorem cpout (d : Operand) (a : Operand) : Statement (.cpout d a) := fun h => round_da .cpout 0xC1 0 _ _ h rfl (by decide) (by decide) rfl rfl (.inr ⟨rfl, rfl⟩) (fun w e => by delta litWords; rw [e]; rfl) (fun w lo hi e _ => by delta decodeFields; rw [e]; rfl)
theorem bcpin (d : Operand) (a : Operand) : Statement (.bcpin d a) := fun h => round_da .bcpin 0xC2 0 _ _ h rfl (by decide) (by decide) rfl rfl (.inr ⟨rfl, rfl⟩) (fun w e => by delta litWords; rw [e]; rfl) (fun w lo hi e _ => by delta decodeFields; rw [e]; rfl)
theorem bcpout (d : Operand) (a : Operand) : Statement (.bcpout d a) := fun h => round_da .bcpout 0xC3 0 _ _ h rfl (by decide) (by decide) rfl rfl (.inr ⟨rfl, rfl⟩) (fun w e => by delta litWords; rw [e]; rfl) (fun w lo hi e _ => by delta decodeFields; rw [e]; rfl)
theorem gath (d : Operand) (a : Operand) (b : Operand) : Statement (.gath d a b) := fun h => round_dab .gath 0xC4 _ _ _ h rfl (by decide) rfl rfl rfl (fun w e => by delta litWords; rw [e]; rfl) (fun w lo hi e => by delta decodeFields; rw [e]; rfl)
theorem cseal (d : Operand) : Statement (.cseal d) := fun h => round_d .cseal 0xC5 0 0 _ h rfl (by decide) (by decide) (by decide) rfl rfl (.inr (.inr ⟨rfl, rfl, rfl⟩)) (fun w e => by delta litWords; rw [e]; rfl)
  (fun w e _ _ => by delta decodeFields; rw [e]; rfl)
theorem cwait (n : Byte) : Statement (.cwait n) := fun _ => round 0xC6 0 0 n.toNat ⟨by decide, by decide, by decide, n.isLt⟩ rfl rfl (by decide) (.inl rfl) (.inl rfl)
  (.inr (by decide)) (fun w e _ _ _ => by delta litWords; rw [e]; rfl)
  (fun w e _ _ k => by delta decodeFields; rw [e]; exact congrArg (fun x => Except.ok (Instr.cwait x)) (byte_of k))
theorem qfence (q : Byte) : Statement (.qfence q) := fun _ => round 0xC7 0 0 q.toNat ⟨by decide, by decide, by decide, q.isLt⟩ rfl rfl (by decide) (.inl rfl) (.inl rfl)
  (.inr (by decide)) (fun w e _ _ _ => by delta litWords; rw [e]; rfl)
  (fun w e _ _ k => by delta decodeFields; rw [e]; exact congrArg (fun x => Except.ok (Instr.qfence x)) (byte_of k))
theorem qseq (d : Operand) (a : Operand) : Statement (.qseq d a) := fun h => round_da .qseq 0xC8 0 _ _ h rfl (by decide) (by decide) rfl rfl (.inr ⟨rfl, rfl⟩) (fun w e => by delta litWords; rw [e]; rfl) (fun w lo hi e _ => by delta decodeFields; rw [e]; rfl)
theorem cbar (d : Operand) (a : Operand) : Statement (.cbar d a) := fun h => round_da .cbar 0xD0 0 _ _ h rfl (by decide) (by decide) rfl rfl (.inr ⟨rfl, rfl⟩) (fun w e => by delta litWords; rw [e]; rfl) (fun w lo hi e _ => by delta decodeFields; rw [e]; rfl)
theorem cred (d : Operand) (a : Operand) (b : Operand) : Statement (.cred d a b) := fun h => round_dab .cred 0xD1 _ _ _ h rfl (by decide) rfl rfl rfl (fun w e => by delta litWords; rw [e]; rfl) (fun w lo hi e => by delta decodeFields; rw [e]; rfl)
theorem dput (a : Operand) (b : Operand) : Statement (.dput a b) := fun h => round_ab .dput 0xD2 _ _ h rfl (by decide) rfl rfl rfl (fun w e => by delta litWords; rw [e]; rfl) (fun w lo hi e => by delta decodeFields; rw [e]; rfl)
theorem dtake (d : Operand) (a : Operand) (b : Operand) : Statement (.dtake d a b) := fun h => round_dab .dtake 0xD3 _ _ _ h rfl (by decide) rfl rfl rfl (fun w e => by delta litWords; rw [e]; rfl) (fun w lo hi e => by delta decodeFields; rw [e]; rfl)
theorem sdwait (a : Operand) : Statement (.sdwait a) := fun h => round_a .sdwait 0xD4 0 0 _ h rfl (by decide) (by decide) (by decide) rfl rfl (.inr (.inl ⟨rfl, rfl, rfl⟩)) (fun w e => by delta litWords; rw [e]; rfl)
  (fun w e _ _ q => by delta decodeFields; rw [e]; exact congrArg (fun x => Except.ok (Instr.sdwait x)) q)
theorem launch (d : Operand) (a : Operand) (b : Operand) : Statement (.launch d a b) := fun h => round_dab .launch 0xD5 _ _ _ h rfl (by decide) rfl rfl rfl (fun w e => by delta litWords; rw [e]; rfl) (fun w lo hi e => by delta decodeFields; rw [e]; rfl)
theorem lwait (d : Operand) (a : Operand) : Statement (.lwait d a) := fun h => round_da .lwait 0xD6 0 _ _ h rfl (by decide) (by decide) rfl rfl (.inr ⟨rfl, rfl⟩) (fun w e => by delta litWords; rw [e]; rfl) (fun w lo hi e _ => by delta decodeFields; rw [e]; rfl)
theorem lstat (d : Operand) (a : Operand) : Statement (.lstat d a) := fun h => round_da .lstat 0xD7 0 _ _ h rfl (by decide) (by decide) rfl rfl (.inr ⟨rfl, rfl⟩) (fun w e => by delta litWords; rw [e]; rfl) (fun w lo hi e _ => by delta decodeFields; rw [e]; rfl)
theorem tret (k : Byte) : Statement (.tret k) := fun _ => round 0xE0 0 0 k.toNat ⟨by decide, by decide, by decide, k.isLt⟩ rfl rfl (by decide) (.inl rfl) (.inl rfl)
  (.inr (by decide)) (fun w e _ _ _ => by delta litWords; rw [e]; rfl)
  (fun w e _ _ k => by delta decodeFields; rw [e]; exact congrArg (fun x => Except.ok (Instr.tret x)) (byte_of k))
theorem wpset (a : Operand) (i : Byte) : Statement (.wpset a i) :=
  fun hw => round_a (fun a => .wpset a i) 0xE1 0 i.toNat _ hw rfl (by decide) (by decide) i.isLt rfl rfl (.inl ⟨rfl, rfl⟩) (fun w e => by delta litWords; rw [e]; rfl)
    (fun w e _ k q => by delta decodeFields; rw [e]; exact congrArg₂ (fun x y => Except.ok (Instr.wpset x y)) q (byte_of k))
theorem wpclr (m : Byte) : Statement (.wpclr m) := fun _ => round 0xE2 0 0 m.toNat ⟨by decide, by decide, by decide, m.isLt⟩ rfl rfl (by decide) (.inl rfl) (.inl rfl)
  (.inr (by decide)) (fun w e _ _ _ => by delta litWords; rw [e]; rfl)
  (fun w e _ _ k => by delta decodeFields; rw [e]; exact congrArg (fun x => Except.ok (Instr.wpclr x)) (byte_of k))
theorem pchk (d : Operand) (a : Operand) (m : Byte) : Statement (.pchk d a m) :=
  fun h => round_da (fun d a => .pchk d a m) 0xE3 m.toNat _ _ h rfl (by decide) m.isLt rfl rfl (.inl rfl) (fun w e => by delta litWords; rw [e]; rfl)
    (fun w lo hi e k => by delta decodeFields; rw [e]; exact congrArg (fun x => Except.ok (Instr.pchk _ _ x)) (byte_of k))
theorem ptag (d : Operand) (a : Operand) : Statement (.ptag d a) := fun h => round_da .ptag 0xE4 0 _ _ h rfl (by decide) (by decide) rfl rfl (.inr ⟨rfl, rfl⟩) (fun w e => by delta litWords; rw [e]; rfl) (fun w lo hi e _ => by delta decodeFields; rw [e]; rfl)
theorem clauseFetch (w : Nat) (e : Nat) : Statement (.clauseFetch w e) := encoding_none rfl
theorem waveResumeFetch (w : Nat) : Statement (.waveResumeFetch w) := encoding_none rfl
theorem longOpComplete (n : Nat) : Statement (.longOpComplete n) := encoding_none rfl
theorem holdbackRelease (n : Nat) : Statement (.holdbackRelease n) := encoding_none rfl
theorem writeApplyHome (n : Nat) : Statement (.writeApplyHome n) := encoding_none rfl
theorem writeApplyRemote (n : Nat) (d : Nat) : Statement (.writeApplyRemote n d) := encoding_none rfl
theorem atomicPerform (n : Nat) : Statement (.atomicPerform n) := encoding_none rfl
theorem spadAtomicPerform (n : Nat) : Statement (.spadAtomicPerform n) := encoding_none rfl
theorem ldlkPerform (n : Nat) : Statement (.ldlkPerform n) := encoding_none rfl
theorem lockWaitGrant (c : Nat) (l : Nat) : Statement (.lockWaitGrant c l) := encoding_none rfl
theorem stulPerform (n : Nat) : Statement (.stulPerform n) := encoding_none rfl
theorem lockExpiry (c : Nat) (l : Nat) : Statement (.lockExpiry c l) := encoding_none rfl
theorem growPerform (n : Nat) : Statement (.growPerform n) := encoding_none rfl
theorem attachPerform (n : Nat) : Statement (.attachPerform n) := encoding_none rfl
theorem detachPerform (n : Nat) : Statement (.detachPerform n) := encoding_none rfl
theorem endPerform (n : Nat) : Statement (.endPerform n) := encoding_none rfl
theorem deadWaveLeave (n : Nat) : Statement (.deadWaveLeave n) := encoding_none rfl
theorem barrierArrive (n : Nat) : Statement (.barrierArrive n) := encoding_none rfl
theorem parkedSplitWake (w : Nat) (e : Nat) : Statement (.parkedSplitWake w e) := encoding_none rfl
theorem shrinkRequestClear (k : Nat) : Statement (.shrinkRequestClear k) := encoding_none rfl
theorem blockRetire (k : Nat) : Statement (.blockRetire k) := encoding_none rfl
theorem watchdogExpiry (w : Nat) : Statement (.watchdogExpiry w) := encoding_none rfl
theorem engineRequestEnter (n : Nat) : Statement (.engineRequestEnter n) := encoding_none rfl
theorem collectiveEnter (n : Nat) : Statement (.collectiveEnter n) := encoding_none rfl
theorem engineEntryPerform (c : Nat) (q : Nat) : Statement (.engineEntryPerform c q) := encoding_none rfl
theorem engineWriteRelease (n : Nat) : Statement (.engineWriteRelease n) := encoding_none rfl
theorem engineEntryComplete (c : Nat) (q : Nat) : Statement (.engineEntryComplete c q) := encoding_none rfl
theorem qfenceComplete (n : Nat) : Statement (.qfenceComplete n) := encoding_none rfl
theorem roundForm (n : Nat) : Statement (.roundForm n) := encoding_none rfl
theorem cohortArrivalPerform (n : Nat) : Statement (.cohortArrivalPerform n) := encoding_none rfl
theorem arrayGrant (c : Nat) : Statement (.arrayGrant c) := encoding_none rfl
theorem arrayOpFinish (c : Nat) : Statement (.arrayOpFinish c) := encoding_none rfl
theorem matrixWritePerform (n : Nat) : Statement (.matrixWritePerform n) := encoding_none rfl
theorem pkrContextUpdate (n : Nat) : Statement (.pkrContextUpdate n) := encoding_none rfl
theorem watchpointUpdate (n : Nat) : Statement (.watchpointUpdate n) := encoding_none rfl
theorem grantEnd (g : Nat) (x : Nat) : Statement (.grantEnd g x) := encoding_none rfl
theorem launchPerform (n : Nat) : Statement (.launchPerform n) := encoding_none rfl
theorem placementEvent (p : Nat) : Statement (.placementEvent p) := encoding_none rfl
theorem saveOut (k : Nat) : Statement (.saveOut k) := encoding_none rfl
theorem preemptDraining (k : Nat) : Statement (.preemptDraining k) := encoding_none rfl
theorem preemptWriting (k : Nat) : Statement (.preemptWriting k) := encoding_none rfl
theorem preemptSaved (k : Nat) : Statement (.preemptSaved k) := encoding_none rfl
theorem restorePlacement (p : Nat) : Statement (.restorePlacement p) := encoding_none rfl
theorem rollbackResume (c : Nat) (seat : Option Nat) : Statement (.rollbackResume c seat) := encoding_none rfl
theorem healthRecover (c : Nat) : Statement (.healthRecover c) := encoding_none rfl
theorem hotnessHalve : Statement .hotnessHalve := encoding_none rfl
theorem candidateExpiry (d : Nat) (x : Nat) : Statement (.candidateExpiry d x) := encoding_none rfl
theorem probationCompare (n : Nat) : Statement (.probationCompare n) := encoding_none rfl
theorem auditComplete (t : Nat) : Statement (.auditComplete t) := encoding_none rfl
theorem auditEscalate (t : Nat) : Statement (.auditEscalate t) := encoding_none rfl
theorem deckAppend (n : Nat) : Statement (.deckAppend n) := encoding_none rfl
theorem deckHoldRelease (n : Nat) : Statement (.deckHoldRelease n) := encoding_none rfl
theorem showdownQuiescence (p : Nat) (set : DWord) : Statement (.showdownQuiescence p set) := encoding_none rfl
theorem ingressBackpressureTimeout (p : Nat) (x : Nat) : Statement (.ingressBackpressureTimeout p x) := encoding_none rfl
theorem createContext (p : Nat) : Statement (.createContext p) := encoding_none rfl
theorem launchGrid (p : Nat) : Statement (.launchGrid p) := encoding_none rfl
theorem save (p : Nat) : Statement (.save p) := encoding_none rfl
theorem launchImage (p : Nat) : Statement (.launchImage p) := encoding_none rfl
theorem streamDrainComplete (x : Nat) : Statement (.streamDrainComplete x) := encoding_none rfl
theorem streamDrainFail (x : Nat) : Statement (.streamDrainFail x) := encoding_none rfl
theorem resetPartition (p : Nat) : Statement (.resetPartition p) := encoding_none rfl
theorem commandRingStall (p : Nat) : Statement (.commandRingStall p) := encoding_none rfl
theorem sharedRequestTimeout (n : Nat) : Statement (.sharedRequestTimeout n) := encoding_none rfl
theorem hubDieGate (h : Nat) : Statement (.hubDieGate h) := encoding_none rfl
theorem hubDieUngate (h : Nat) : Statement (.hubDieUngate h) := encoding_none rfl
theorem eventRingWrite (p : Nat) : Statement (.eventRingWrite p) := encoding_none rfl
theorem reserved_cases : ∀ op : Fin 256, reservedOpcode op.val = true → op.val ∈ [0x1F, 0x2D, 0x2E, 0x2F, 0x4D, 0x4E, 0x4F, 0x6A, 0x6B, 0x6C, 0x6D, 0x6E, 0x6F, 0x78, 0x79, 0x7A, 0x7B, 0x7C, 0x7D, 0x7E, 0x7F, 0x8D, 0x8E, 0x8F, 0x9F, 0xBA, 0xBB, 0xBC, 0xBD, 0xBE, 0xBF, 0xC9, 0xCA, 0xCB, 0xCC, 0xCD, 0xCE, 0xCF, 0xD8, 0xD9, 0xDA, 0xDB, 0xDC, 0xDD, 0xDE, 0xDF, 0xE5, 0xE6, 0xE7, 0xE8, 0xE9, 0xEA, 0xEB, 0xEC, 0xED, 0xEE, 0xEF, 0xF0, 0xF1, 0xF2, 0xF3, 0xF4, 0xF5, 0xF6, 0xF7, 0xF8, 0xF9, 0xFA, 0xFB, 0xFC, 0xFD, 0xFE, 0xFF] := by decide

theorem reserved_says (w : Word) (h : reservedOpcode (opcodeOf w) = true) :
    zeroOk w = true ∧ litWords w = 0 ∧ decodeFields w 0 0 = .ok (.illegalOpcode w) := by
  have k : opcodeOf w < 256 := by
    have := w.isLt
    unfold opcodeOf
    omega
  have m := reserved_cases ⟨opcodeOf w, k⟩ h
  simp only [List.mem_cons, List.not_mem_nil, or_false] at m
  rcases m with e | e | e | e | e | e | e | e | e | e | e | e | e | e | e | e | e | e | e | e | e | e | e | e | e | e | e | e | e | e | e | e | e | e | e | e | e | e | e | e | e | e | e | e | e | e | e | e | e | e | e | e | e | e | e | e | e | e | e | e | e | e | e | e | e | e | e | e | e | e | e | e | e <;>
    exact ⟨zeroOk_of ⟨e, rfl, rfl, rfl⟩ (.inr (by decide)) (.inr (by decide)) (.inr (by decide)) (by decide),
      by delta litWords; rw [e]; rfl, by delta decodeFields; rw [e]; rfl⟩


theorem illegalOpcode (w : Word) : Statement (.illegalOpcode w) := by
  intro h
  have z : reservedOpcode (opcodeOf w) = true := wf_extra h
  obtain ⟨e, f, g⟩ := reserved_says w z
  have hd : decodeWord w (([] : List Word).getD 0 0) (([] : List Word).getD 1 0) = .ok (.illegalOpcode w) :=
    (if_pos e).trans g
  exact decode_cons hd f
theorem walkAndScrubComplete (t : Nat) : Statement (.walkAndScrubComplete t) := encoding_none rfl
theorem textPageInstall (r : Nat) (pte : Option DWord) : Statement (.textPageInstall r pte) := encoding_none rfl
theorem spadScrub (c : Nat) (r : Nat) : Statement (.spadScrub c r) := encoding_none rfl
theorem shrinkRequestPost (k : Nat) (x : Nat) : Statement (.shrinkRequestPost k x) := encoding_none rfl
theorem peerGone (p : Nat) (e : Nat) : Statement (.peerGone p e) := encoding_none rfl
theorem debugAccess (w : Nat) (x : DebugAccess) : Statement (.debugAccess w x) := encoding_none rfl
theorem debugResume (ws : List Nat) : Statement (.debugResume ws) := encoding_none rfl
theorem debugStep (w : Nat) : Statement (.debugStep w) := encoding_none rfl
theorem tlbinv (p : Nat) (asid : Option Nat) (va : Nat) (len : Nat) (pa : Nat) (pte : DWord) : Statement (.tlbinv p asid va len pa pte) := encoding_none rfl
theorem gridEligible (g : Nat) (missing : Option Nat) : Statement (.gridEligible g missing) := encoding_none rfl
theorem preemptRequest (k : Nat) (r : Nat) : Statement (.preemptRequest k r) := encoding_none rfl
theorem strikeReport (c : Nat) (seat : Option Nat) : Statement (.strikeReport c seat) := encoding_none rfl
theorem marginPlan (uncovered : List Nat) : Statement (.marginPlan uncovered) := encoding_none rfl
theorem candidateInstall (d : Nat) (x : Nat) (cand : List Word) (guards : List (Nat × Word)) : Statement (.candidateInstall d x cand guards) := encoding_none rfl
theorem ingressFrameWrite (p : Nat) (req : Nat) (off : Nat) (data : Payload) : Statement (.ingressFrameWrite p req off data) := encoding_none rfl
theorem doorbellWrite (p : Nat) (records : List (List Byte)) : Statement (.doorbellWrite p records) := encoding_none rfl
theorem openIngressWindow (p : Nat) : Statement (.openIngressWindow p) := encoding_none rfl
theorem closeIngressWindow (p : Nat) : Statement (.closeIngressWindow p) := encoding_none rfl
theorem configureDeck (p : Nat) : Statement (.configureDeck p) := encoding_none rfl
theorem keyStream (p : Nat) : Statement (.keyStream p) := encoding_none rfl
theorem admitPeer (p : Nat) (report : PeerReport) : Statement (.admitPeer p report) := encoding_none rfl
theorem removePeer (p : Nat) : Statement (.removePeer p) := encoding_none rfl
theorem trumpControls (p : Nat) : Statement (.trumpControls p) := encoding_none rfl
theorem wakeFilterAndIdleInterval (p : Nat) : Statement (.wakeFilterAndIdleInterval p) := encoding_none rfl
theorem partitionForm (dies : List Nat) (order : FormOrder) : Statement (.partitionForm dies order) := encoding_none rfl
theorem hostInboundWrite (p : Nat) (pa : Nat) (data : List Byte) (bad : Bool) : Statement (.hostInboundWrite p pa data bad) := encoding_none rfl
theorem peerFlit (x : Nat) (ok : Bool) (head : FlitHead) (body : PeerBody) : Statement (.peerFlit x ok head body) := encoding_none rfl
theorem linkRetryFail (x : Nat) (fails : Bool) : Statement (.linkRetryFail x fails) := encoding_none rfl
theorem ethernetFrameReceive (h : Nat) (x : Nat) (auth : Bool) (frame : EthFrame) : Statement (.ethernetFrameReceive h x auth frame) := encoding_none rfl
theorem nvmeReadComplete (x : Nat) (pa : Nat) (data : List Byte) (ok : Bool) : Statement (.nvmeReadComplete x pa data ok) := encoding_none rfl
theorem attestationRequest (p : Nat) : Statement (.attestationRequest p) := encoding_none rfl
theorem controlMismatch (h : Nat) : Statement (.controlMismatch h) := encoding_none rfl
theorem partitionDissolve (p : Nat) : Statement (.partitionDissolve p) := encoding_none rfl
theorem hubDieReset (h : Nat) : Statement (.hubDieReset h) := encoding_none rfl
theorem debuggerAttach (x : Nat) (on : Bool) : Statement (.debuggerAttach x on) := encoding_none rfl
theorem coreReset (c : Nat) : Statement (.coreReset c) := encoding_none rfl
theorem tdispAssign (p : Nat) (world : Option Nat) : Statement (.tdispAssign p world) := encoding_none rfl

end Sys2Proof.Laws.Encoding
end

