-- ==== Sys2Proof/Laws/Registers.lean ====
section
/-! SUPPORT. Laws of register instructions: the elements of a result, and that a ready instruction whose results are
written as lanes is done. -/

namespace Sys2Proof.Machine

/-! ### Elements -/

theorem elements_fst_lt (n : Nat) (f : Nat → Nat × Sticky) (m : Nat) :
    ((List.range m).foldl (fun x k => (x.1 + (f k).1 % 2 ^ n * 2 ^ (n * k), x.2 ||| (f k).2)) ((0, 0) : Nat × Sticky)).1
      < 2 ^ (n * m) := by
  induction m with
  | zero => simp
  | succ m ih =>
    rw [List.range_succ, List.foldl_append]
    simp only [List.foldl_cons, List.foldl_nil]
    have h1 : (f m).1 % 2 ^ n < 2 ^ n := Nat.mod_lt _ (Nat.two_pow_pos n)
    have h2 : (f m).1 % 2 ^ n * 2 ^ (n * m) ≤ (2 ^ n - 1) * 2 ^ (n * m) := Nat.mul_le_mul_right _ (by omega)
    have h3 : 2 ^ (n * (m + 1)) = (2 ^ n - 1) * 2 ^ (n * m) + 2 ^ (n * m) := by
      rw [Nat.mul_succ, Nat.pow_add, Nat.mul_comm (2 ^ (n * m)), Nat.sub_mul, Nat.one_mul,
        Nat.sub_add_cancel (Nat.le_mul_of_pos_left _ (Nat.two_pow_pos n))]
    omega

theorem elements_fst_elem (n : Nat) (f : Nat → Nat × Sticky) (m k : Nat) (hk : k < m) :
    ((List.range m).foldl (fun x k => (x.1 + (f k).1 % 2 ^ n * 2 ^ (n * k), x.2 ||| (f k).2)) ((0, 0) : Nat × Sticky)).1
      / 2 ^ (n * k) % 2 ^ n = (f k).1 % 2 ^ n := by
  induction m with
  | zero => omega
  | succ m ih =>
    have hlt := elements_fst_lt n f m
    rw [List.range_succ, List.foldl_append]
    simp only [List.foldl_cons, List.foldl_nil]
    by_cases h : k = m
    · subst h
      rw [Nat.add_mul_div_right _ _ (Nat.two_pow_pos _), Nat.div_eq_of_lt hlt, Nat.zero_add, Nat.mod_mod]
    · have hk' : k < m := by omega
      rw [← ih hk']
      have e : (f m).1 % 2 ^ n * 2 ^ (n * m) = ((f m).1 % 2 ^ n * 2 ^ (n * (m - k - 1))) * 2 ^ n * 2 ^ (n * k) := by
        rw [Nat.mul_assoc, Nat.mul_assoc, ← Nat.pow_add, ← Nat.pow_add]
        congr 2
        have : m = (m - k - 1) + 1 + k := by omega
        nth_rewrite 1 [this]
        rw [Nat.mul_add, Nat.mul_add, Nat.mul_one, Nat.add_assoc]
      rw [e, Nat.add_mul_div_right _ _ (Nat.two_pow_pos _), Nat.add_mul_mod_self_right]

theorem elements_snd (n wd : Nat) (f : Nat → Nat × Sticky) :
    (elements n wd f).2 = flagsBelow (wd / n) (fun k => (f k).2) := by
  unfold elements flagsBelow
  generalize wd / n = m
  induction m with
  | zero => rfl
  | succ m ih =>
    rw [List.range_succ, List.foldl_append, List.foldl_append]
    simp only [List.foldl_cons, List.foldl_nil]
    rw [← ih]

/-- An element of a value put together from elements. -/
theorem elemOf_elements (n wd : Nat) (f : Nat → Nat × Sticky) (k : Nat) (hw : wd ≤ 64) (hk : k < wd / n) :
    elemOf n k (BitVec.ofNat 64 (elements n wd f).1) = (f k).1 % 2 ^ n := by
  have hlt : (elements n wd f).1 < 2 ^ (n * (wd / n)) := elements_fst_lt n f (wd / n)
  have h64 : 2 ^ (n * (wd / n)) ≤ 2 ^ 64 := Nat.pow_le_pow_right (by decide) (Nat.le_trans (Nat.mul_div_le wd n) hw)
  unfold elemOf
  rw [BitVec.toNat_ofNat, Nat.mod_eq_of_lt (Nat.lt_of_lt_of_le hlt h64)]
  exact elements_fst_elem n f (wd / n) k hk

theorem intWidth_le (c : Ctx) : intWidth c ≤ 64 := by unfold intWidth; split <;> omega
theorem floatWidth_le (c : Ctx) : floatWidth c ≤ 64 := by unfold floatWidth; split <;> omega

/-- The flags a write of lane results raises. -/
theorem writeLanes_sticky (c : Ctx) (d : Operand) (wide : Bool) (f : Nat → LaneRes) :
    (writeLanes c d wide f).sticky = flagsOf d c.act c.skip (fun l => (f l).2.2) := by
  cases d with
  | s n => simp only [writeLanes, flagsOf]; split <;> simp_all
  | _ => rfl

/-! ### Ready instructions are done -/

/-- A register instruction whose meaning writes lane results `f`: what it answers. -/
theorem runAlu_done {i : Instr} {s : State} {u : Nat} {w : Wave} {sp : Split} {g : Ctx → Except (Cause × Word) Alu}
    {d : Operand} {wide : Bool} {f : Nat → LaneRes} (hx : exec i s = runAlu i s g) (h : Ready i s u w sp)
    (ht : sp.trump = none) (hg : g (ctxFor s u w sp i) = .ok (writeLanes (ctxFor s u w sp i) d wide f)) :
    ∃ t, exec i s = .next t ∧ WroteBy i s t u w sp d wide (fun l => ((f l).1, mergeTags (f l).2.1)) ∧
      (waveOf t u).wstat = w.wstat ||| flagsOf d (activeMask w sp i) (decide (activeMask w sp i = 0)) (fun l => (f l).2.2) := by
  refine ⟨_, by rw [hx, runAlu_ready h, hg], ?_, ?_⟩
  · exact finish_wroteBy h.split ht d wide f _ _
  · have := (finishBy_regs s (ctxFor s u w sp i) (writeLanes (ctxFor s u w sp i) d wide f).w
      (writeLanes (ctxFor s u w sp i) d wide f).sticky (writeLanes (ctxFor s u w sp i) d wide f).pairs
      (fun x => stepOver x (ctxFor s u w sp i).len) ht).2.2.2.2
    refine this.trans ?_
    rw [(writeLanes_rest _ _ _ _).2.2, writeLanes_sticky]
    rfl

/-- A register instruction whose results are put together from elements is done. -/
theorem elements_done {i : Instr} {s : State} {u : Nat} {w : Wave} {sp : Split} {g : Ctx → Except (Cause × Word) Alu}
    {d : Operand} {wide : Bool} {n wd : Nat} {tag : Nat → List Tag} {f : Nat → Nat → Nat × Sticky}
    (hx : exec i s = runAlu i s g) (hw : wd ≤ 64)
    (hg : g (ctxFor s u w sp i) = .ok (writeLanes (ctxFor s u w sp i) d wide (fun l =>
      (BitVec.ofNat 64 (elements n wd (f l)).1, tag l, (elements n wd (f l)).2)))) :
    ElementsDone i s u w sp d wide n (wd / n) tag f := by
  intro h ht
  obtain ⟨t, h1, h2, h3⟩ := runAlu_done hx h ht hg
  refine ⟨t, _, h1, h2, fun l k hk => elemOf_elements n wd (f l) k hw hk, fun _ => rfl, ?_⟩
  rw [h3]
  simp only [elements_snd]

theorem flagsOf_zero (d : Operand) (act : LaneMask) (skip : Bool) : flagsOf d act skip (fun _ => 0) = 0 := by
  have h : ∀ l : List Nat, l.foldl (fun (x : Sticky) _ => x ||| 0) 0 = 0 := by
    intro l; induction l with
    | nil => rfl
    | cons y r ih => simp
  cases d with
  | s n => simp only [flagsOf]; split <;> rfl
  | _ => exact h _

/-- A register instruction whose lane results raise no flag is done. -/
theorem lanes_done {i : Instr} {s : State} {u : Nat} {w : Wave} {sp : Split} {g : Ctx → Except (Cause × Word) Alu}
    {d : Operand} {wide : Bool} {tag : Ctx → Nat → List Tag} {f : Ctx → Nat → DWord}
    (hx : exec i s = runAlu i s g)
    (hg : g (ctxFor s u w sp i) = .ok (writeLanes (ctxFor s u w sp i) d wide (fun l =>
      (f (ctxFor s u w sp i) l, tag (ctxFor s u w sp i) l, 0)))) :
    LanesDone i s u w sp d wide tag f := by
  intro h ht
  obtain ⟨t, h1, h2, h3⟩ := runAlu_done hx h ht hg
  refine ⟨t, _, h1, h2, fun _ => rfl, ?_⟩
  rw [h3, flagsOf_zero]
  exact BitVec.or_zero

theorem flagsBelow_zero (m : Nat) : flagsBelow m (fun _ => 0) = 0 := by
  unfold flagsBelow
  induction List.range m with
  | nil => rfl
  | cons y r ih => simp

/-- A register instruction whose results are put together from elements without flags is done. -/
theorem bits_done {i : Instr} {s : State} {u : Nat} {w : Wave} {sp : Split} {g : Ctx → Except (Cause × Word) Alu}
    {d : Operand} {wide : Bool} {n wd : Nat} {tag : Nat → List Tag} {f : Nat → Nat → Nat}
    (hx : exec i s = runAlu i s g) (hw : wd ≤ 64)
    (hg : g (ctxFor s u w sp i) = .ok (writeLanes (ctxFor s u w sp i) d wide (fun l =>
      (BitVec.ofNat 64 (elements n wd (fun k => (f l k, 0))).1, tag l, 0)))) :
    BitsDone i s u w sp d wide n (wd / n) tag f := by
  intro h ht
  obtain ⟨t, h1, h2, h3⟩ := runAlu_done hx h ht hg
  refine ⟨t, _, h1, h2, fun l k hk => elemOf_elements n wd _ k hw hk, fun _ => rfl, ?_⟩
  rw [h3, flagsOf_zero]
  exact BitVec.or_zero

/-- A register instruction with lane results of its own is done. -/
theorem results_done {i : Instr} {s : State} {u : Nat} {w : Wave} {sp : Split} {g : Ctx → Except (Cause × Word) Alu}
    {d : Operand} {wide : Bool} {f : Ctx → Nat → LaneRes} (hx : exec i s = runAlu i s g)
    (hg : g (ctxFor s u w sp i) = .ok (writeLanes (ctxFor s u w sp i) d wide (f (ctxFor s u w sp i)))) :
    ResultsDone i s u w sp d wide f := by
  intro h ht
  obtain ⟨t, h1, h2, h3⟩ := runAlu_done hx h ht hg
  exact ⟨t, _, h1, h2, fun _ => rfl, h3⟩

/-- A comparison is done. -/
theorem compare_done {i : Instr} {s : State} {u : Nat} {w : Wave} {sp : Split} {g : Ctx → Except (Cause × Word) Alu}
    {d : Operand} {wide : Bool} {n wd : Nat} {tag : Nat → List Tag} {rel : Nat → Nat → Bool × Sticky}
    (hx : exec i s = runAlu i s g) (hw : wd ≤ 64)
    (hg : g (ctxFor s u w sp i) = .ok (writeLanes (ctxFor s u w sp i) d wide (fun l =>
      cmpLane d n wd (tag l) (rel l)))) :
    CompareDone i s u w sp d wide n (wd / n) tag rel := by
  intro h ht
  obtain ⟨t, h1, h2, h3⟩ := runAlu_done hx h ht hg
  refine ⟨t, _, h1, h2, ?_, ?_⟩
  · intro l; cases d <;> rfl
  · cases d with
    | v m =>
      refine ⟨fun l k hk => ?_, ?_⟩
      · have := elemOf_elements n wd (fun k => (if (rel l k).1 then 2 ^ n - 1 else 0, (rel l k).2)) k hw hk
        refine this.trans ?_
        dsimp only
        have hp := Nat.two_pow_pos n
        split
        · exact Nat.mod_eq_of_lt (by omega)
        · exact Nat.zero_mod _
      · rw [h3]
        simp only [cmpLane, elements_snd]
    | p m => exact ⟨fun _ => rfl, h3⟩
    | s m => exact ⟨fun _ => rfl, h3⟩
    | _ => trivial

/-! ### One field of a value replaced -/

theorem field_split (x n k : Nat) : x - x / 2 ^ (n * k) % 2 ^ n * 2 ^ (n * k) =
    x / 2 ^ (n * k + n) * 2 ^ (n * k + n) + x % 2 ^ (n * k) := by
  have h1 := Nat.div_add_mod x (2 ^ (n * k))
  have h2 := Nat.div_add_mod (x / 2 ^ (n * k)) (2 ^ n)
  have h3 : x / 2 ^ (n * k) / 2 ^ n = x / 2 ^ (n * k + n) := by rw [Nat.div_div_eq_div_mul, ← Nat.pow_add]
  rw [h3] at h2
  have h4 : x = x / 2 ^ (n * k + n) * 2 ^ (n * k + n) + x / 2 ^ (n * k) % 2 ^ n * 2 ^ (n * k) + x % 2 ^ (n * k) := by
    conv => lhs; rw [← h1, ← h2]
    rw [Nat.pow_add]
    ring
  omega

/-- A value whose field `k` of `n` bits is replaced: that field is the new one, every other field stands. -/
theorem elemOf_insert (x r n k j : Nat) (hj : n * (j + 1) ≤ 64) :
    elemOf n j (BitVec.ofNat 64 (x - x / 2 ^ (n * k) % 2 ^ n * 2 ^ (n * k) + r % 2 ^ n * 2 ^ (n * k))) =
      if j = k then r % 2 ^ n else x / 2 ^ (n * j) % 2 ^ n := by
  have hr : r % 2 ^ n < 2 ^ n := Nat.mod_lt _ (Nat.two_pow_pos n)
  generalize r % 2 ^ n = r' at hr
  have hlow : ∀ y, elemOf n j (BitVec.ofNat 64 y) = y / 2 ^ (n * j) % 2 ^ n := by
    intro y
    unfold elemOf
    rw [BitVec.toNat_ofNat, ← Nat.mod_mul_right_div_self, ← Nat.mod_mul_right_div_self, ← Nat.pow_add,
      Nat.mod_mod_of_dvd _ (Nat.pow_dvd_pow 2 (by rw [Nat.mul_succ] at hj; exact hj))]
  rw [hlow, field_split]
  have hm : x % 2 ^ (n * k) < 2 ^ (n * k) := Nat.mod_lt _ (Nat.two_pow_pos _)
  rcases Nat.lt_trichotomy j k with h | h | h
  · rw [if_neg (by omega)]
    obtain ⟨e, he⟩ : ∃ e, n * k = n * j + n + e := ⟨n * (k - j - 1), by
      have : k = j + 1 + (k - j - 1) := by omega
      nth_rewrite 1 [this]
      ring⟩
    have h1 : x / 2 ^ (n * k + n) * 2 ^ (n * k + n) + x % 2 ^ (n * k) + r' * 2 ^ (n * k) =
        x % 2 ^ (n * k) + 2 ^ (n * j) * (2 ^ n * (2 ^ e * (x / 2 ^ (n * k + n) * 2 ^ n + r'))) := by
      rw [Nat.pow_add, he, Nat.pow_add, Nat.pow_add]
      ring
    rw [h1, Nat.add_mul_div_left _ _ (Nat.two_pow_pos _), Nat.add_mul_mod_self_left]
    conv => lhs; rw [he, Nat.add_assoc, Nat.pow_add, Nat.mod_mul_right_div_self, Nat.pow_add,
      Nat.mod_mod_of_dvd _ (Nat.dvd_mul_right _ _)]
  · subst h
    rw [if_pos rfl]
    have h1 : x / 2 ^ (n * j + n) * 2 ^ (n * j + n) + x % 2 ^ (n * j) + r' * 2 ^ (n * j) =
        x % 2 ^ (n * j) + 2 ^ (n * j) * (r' + 2 ^ n * (x / 2 ^ (n * j + n))) := by
      rw [Nat.pow_add]; ring
    rw [h1, Nat.add_mul_div_left _ _ (Nat.two_pow_pos _), Nat.div_eq_of_lt hm, Nat.zero_add, Nat.add_mul_mod_self_left,
      Nat.mod_eq_of_lt hr]
  · rw [if_neg (by omega)]
    obtain ⟨e, he⟩ : ∃ e, n * j = n * k + n + e := ⟨n * (j - k - 1), by
      have : j = k + 1 + (j - k - 1) := by omega
      nth_rewrite 1 [this]
      ring⟩
    have hs : x % 2 ^ (n * k) + r' * 2 ^ (n * k) < 2 ^ (n * k + n) := by
      have : r' * 2 ^ (n * k) ≤ (2 ^ n - 1) * 2 ^ (n * k) := Nat.mul_le_mul_right _ (by omega)
      have h2 : 2 ^ (n * k + n) = (2 ^ n - 1) * 2 ^ (n * k) + 2 ^ (n * k) := by
        rw [Nat.pow_add, Nat.mul_comm (2 ^ (n * k)), Nat.sub_mul, Nat.one_mul,
          Nat.sub_add_cancel (Nat.le_mul_of_pos_left _ (Nat.two_pow_pos n))]
      omega
    rw [Nat.add_assoc, he, Nat.pow_add _ (n * k + n) e, ← Nat.div_div_eq_div_mul, Nat.add_comm,
      Nat.add_mul_div_right _ _ (Nat.two_pow_pos _), Nat.div_eq_of_lt hs, Nat.zero_add, Nat.div_div_eq_div_mul]

/-! ### Instructions of one result, affine results, long operations -/

/-- A plain register instruction whose meaning hands on wave `x.w`, no flag raised. -/
theorem alu_simply {i : Instr} {s : State} {u : Nat} {w : Wave} {sp : Split} {g : Ctx → Except (Cause × Word) Alu}
    {x : Alu} {P : State → Prop} (hx : exec i s = runAlu i s g) (hg : g (ctxFor s u w sp i) = .ok x)
    (h1 : x.w.splits = w.splits) (h2 : x.w.rest = w.rest) (h3 : x.w.wstat = w.wstat) (h4 : x.sticky = 0)
    (hP : ∀ t, (waveOf t u).v = x.w.v → (waveOf t u).s = x.w.s → (waveOf t u).a = x.w.a → (waveOf t u).p = x.w.p → P t) :
    SimplyDone i s u w sp P := by
  intro h ht
  refine ⟨_, by rw [hx, runAlu_ready h, hg], ?_⟩
  obtain ⟨f1, f2, f3, f4, f5, f6, f7⟩ := finishBy_facts (i := i) h.split ht (apart_refl s u) x.w h1 x.sticky x.pairs
    (fun y => stepOver y (1 + i.lits.length)) (stepOver_entry sp _)
  have f8 : x.w.wstat ||| x.sticky = w.wstat := by rw [h4, h3]; exact BitVec.or_zero
  exact ⟨f1, f2.trans h2, f7.trans f8, rfl, hP _ f3 f4 f5 f6⟩

/-- The whole of a predicate written sets exactly it. -/
theorem setsP_of (c : Ctx) (w' : Wave) (n : Nat) (m : LaneMask) (tag : Nat → Tag)
   (h1 : w'.v = (wholePred c n m tag).v) (h2 : w'.s = (wholePred c n m tag).s) (h3 : w'.a = (wholePred c n m tag).a)
   (h4 : w'.p = (wholePred c n m tag).p) : SetsP c.w w' n m tag := by
  refine ⟨?_, ?_, ?_, ?_, ?_, ?_⟩
  · unfold pReg; rw [h4]; simp [wholePred, setP, nth_nthSet]
  · intro l hl
    unfold pReg; rw [h4]; simp [wholePred, setP, nth_nthSet, tagAt_foldl_tagSet, mem_allLanes, hl]
  · intro k l; rw [h1]; rfl
  · intro j; unfold sReg; rw [h2]; rfl
  · intro j; unfold aReg; rw [h3]; rfl
  · intro j hj; unfold pReg; rw [h4]; simp [wholePred, setP, nth_nthSet, hj]

/-- An affine result is done as R102 to R104 say. -/
theorem affine_done {i : Instr} {s : State} {u : Nat} {w : Wave} {sp : Split} {g : Ctx → Except (Cause × Word) Alu}
    {n : Nat} {base : DWord} {stride : Int} {tags : List Tag} {ex : Nat → Int} (hx : exec i s = runAlu i s g)
    (hg : g (ctxFor s u w sp i) = affineOut (ctxFor s u w sp i) n base stride tags ex) :
    AffineDone i s u w sp n base stride tags ex := by
  have hsp : (ctxFor s u w sp i).sp = sp := rfl
  refine ⟨?_, ?_, ?_, ?_⟩
  · intro h0
    refine alu_simply (x := { w := w }) hx ?_ rfl rfl rfl rfl (fun t => regsSame_of)
    rw [hg]; unfold affineOut
    have : (ctxFor s u w sp i).skip = true := decide_eq_true h0
    simp only [this, if_true]; rfl
  · intro h0 ho h
    rw [hx, runAlu_ready h, hg]; unfold affineOut
    have : (ctxFor s u w sp i).skip = false := decide_eq_false h0
    simp only [this, if_false, Bool.false_eq_true, hsp, ho, if_true]
    rfl
  · intro h0 ho ht l hl h
    rw [hx, runAlu_ready h, hg]; unfold affineOut
    have : (ctxFor s u w sp i).skip = false := decide_eq_false h0
    simp only [this, if_false, Bool.false_eq_true, hsp, ho, ht, if_true]
    have hw : (ctxFor s u w sp i).w = w := rfl
    simp only [hw, hl]
    rfl
  · intro h0 ho ht
    refine alu_simply (x := { w := setA w n { base := base, stride := BitVec.ofInt 32 stride, tag := mergeTags tags }, pairs := absorptions tags }) hx ?_ rfl rfl rfl rfl ?_
    · rw [hg]; unfold affineOut
      have : (ctxFor s u w sp i).skip = false := decide_eq_false h0
      simp only [this, if_false, Bool.false_eq_true, hsp, ho]
      by_cases htest : (aovOn sp.mode || satOn sp.mode) = true
      · have hn : (lanesOf w.live).find? (fun l => decide (ex l < intMin (isSigned (itype sp.mode)) (elemBits (itype sp.mode)) ∨
          intMax (isSigned (itype sp.mode)) (elemBits (itype sp.mode)) < ex l)) = none := by
          rw [List.find?_eq_none]
          intro l hl
          have := ht htest l hl
          dsimp only at this
          rw [this]; exact Bool.false_ne_true
        have hw : (ctxFor s u w sp i).w = w := rfl
        simp only [htest, if_true, hw, hn]
      · simp only [htest, if_false, Bool.false_eq_true]
        rfl
    · intro t h1 h2 h3 h4
      refine ⟨?_, ?_, ?_, ?_, ?_⟩
      · unfold aReg; rw [h3]; simp [setA, nth_nthSet]
      · intro k l; rw [h1]; rfl
      · intro j; unfold sReg; rw [h2]; rfl
      · intro j hj; unfold aReg; rw [h3]; simp [setA, nth_nthSet, hj]
      · intro j; unfold pReg; rw [h4]; rfl

/-- A flag counts one operation more. -/
theorem flagAdd_nth (fs : List Nat) (f g : Nat) : nth (flagAdd fs f) g 0 = if g = f then nth fs g 0 + 1 else nth fs g 0 := by
  unfold flagAdd
  rw [nth_nthSet]
  split
  · rename_i h; rw [h]
  · rfl

/-- The beginning of a long operation with results. -/
theorem long_done {i : Instr} {s : State} {u : Nat} {w : Wave} {sp : Split} {d : Operand} {wide : Ctx → Bool}
    (g : Ctx → Nat → LaneRes) (hx : exec i s = run i s (fun s1 c => startLong s1 c d (wide c) (g c))) (P : State → LongOp → Prop)
    (hP : ∀ t o, t.held = s.held → o.kind = .result (longResults (ctxFor s u w sp i) d (g (ctxFor s u w sp i))).1 →
      o.dst = dstOf (ctxFor s u w sp i) d → o.wide = wide (ctxFor s u w sp i) → s.now < o.due → P t o) :
    LongDone i s u w sp P := by
  intro h ht
  let o : LongOp := { id := s.nextId, flag := flagOf sp i, dests := destRegs (ctxFor s u w sp i), dst := dstOf (ctxFor s u w sp i) d, wide := wide (ctxFor s u w sp i)
                      due := s.now + 1 + Config.longLatency s.nextId
                      kind := .result (longResults (ctxFor s u w sp i) d (g (ctxFor s u w sp i))).1 }
  refine ⟨_, o, by rw [hx, run_ready h], ?_⟩
  have ha : Apart s { s with nextId := s.nextId + 1 } u := nextId_apart s (s.nextId + 1) u
  obtain ⟨f1, f2, f3, f4, f5, f6, f7⟩ := finishBy_facts (i := i) h.split ht ha (addOp w o) rfl 0
    (longResults (ctxFor s u w sp i) d (g (ctxFor s u w sp i))).2
    (fun y => stepOver y (1 + i.lits.length)) (stepOver_entry sp _)
  refine ⟨f1, regsSame_of f3 f4 f5 f6, f7.trans BitVec.or_zero, ?_, rfl, rfl, hP _ o rfl rfl rfl rfl ?_⟩
  · have e1 := congrArg Wave.ops f2
    have e2 := congrArg Wave.flags f2
    exact ⟨e1, fun f => by
      have : (waveOf (finishBy { s with nextId := s.nextId + 1 } (ctxFor s u w sp i) (addOp w o) 0
    (longResults (ctxFor s u w sp i) d (g (ctxFor s u w sp i))).2
    (fun y => stepOver y (1 + i.lits.length))) u).flags = flagAdd w.flags o.flag := e2
      exact (congrArg (fun x => nth x f 0) this).trans (flagAdd_nth _ _ _)⟩
  · show s.now < s.now + 1 + _; omega

/-- The results a long operation will write: one for a uniform destination, one per active lane for any other. -/
theorem longResults_fst (s : State) (u : Nat) (w : Wave) (sp : Split) (i : Instr) (d : Operand) (f : Nat → LaneRes) :
    (longResults (ctxFor s u w sp i) d f).1 = (match d with
      | .s _ => if activeMask w sp i = 0 then [] else [0]
      | _ => lanesOf (activeMask w sp i)).map (fun l => (⟨l, (f l).1, mergeTags (f l).2.1⟩, (f l).2.2)) := by
  unfold longResults
  cases d with
  | s n =>
    dsimp only
    by_cases h : activeMask w sp i = 0
    · have : (ctxFor s u w sp i).skip = true := decide_eq_true h
      simp only [this, h, if_true]; rfl
    · have : (ctxFor s u w sp i).skip = false := decide_eq_false h
      simp only [this, h, if_false, Bool.false_eq_true]; rfl
  | _ => rfl

end Sys2Proof.Machine
end

