-- ==== Sys2Proof/Tests/Slice0.lean ====
section
/-! SUPPORT. Tests: well-formed and ill-formed terms, words written out from the spec's encodings, a state that meets the
hypotheses of each statement, and single steps whose results are computed by hand from the rules. -/

set_option Elab.async false

namespace Sys2Proof.Tests

open Sys2Proof Sys2Proof.Machine

/-! ### A small machine -/

/-- The state, wave and split of one instruction about to issue; the wave is number 10. -/
structure Case where
  s : State
  w : Wave
  sp : Split
  i : Instr

/-- Tables that map the first GiB to itself, readable, writable and executable, and the second without execution; a
clause header at 0x1000 and one of three body words at 0x1100 (R35, R200, R201). -/
def tables : List Host.Cell :=
  [(0x1003, 0xFC), (0x1100, 0x02), (0x1103, 0xFC), (0x10000, 0x01), (0x10002, 0x02), (0x20000, 0x0F), (0x20001, 0x08),
   (0x20008, 0x07), (0x20009, 0x08), (0x2000B, 0x40)]

/-- A wave of block 1 of grid 2 in context 3: `s0:s1` an address, `s2` 64, `s8` an address, `s10` 0. -/
def wave0 : Wave :=
  { grid := 2, ctx := 3, block := some 1, spillBase := 0x40000, spillTop := 0x50000
    s := [⟨0x2000, .clean⟩, {}, ⟨64, .clean⟩, {}, {}, {}, {}, {}, ⟨0x2000, .clean⟩] }

/-- The wave outside any block. -/
def loose : Wave := { wave0 with block := none }

/-- The wave in its trap handler (R335). -/
def inHandler : Wave := { wave0 with frame := some { mask := BitVec.allOnes 64, sig := 5, header := 0x1040, word := 1 }, trapc := 0x3A }

/-- The wave with register `s n` set to `x`. -/
def withS (w : Wave) (n : Nat) (x : Word) : Wave := setS w n ⟨x, .clean⟩

def block1 : Block :=
  { grid := 2, maxWaves := 4, members := [(10, {})], spadLen := 4096, tileLen := 8192, accs := 2 }

def grid2 : Grid :=
  { handle := 1, ctx := 3, state := 1
    launch := { handler := 0x1000, leases := [(0x1000, 0x8000), (0x40000000, 0x1000)], decks := 1 } }

def part0 : Partition :=
  { dies := [0], cmap := [0], ready := true, timeout := 4096, cohorts := [(0, { members := [0] })], decks := [(0, { cap := 8 })] }

/-- Wave `w` with the one split `sp` in its machine. -/
def bench (w : Wave) (sp : Split) : State :=
  { State.reset with
    now := 1000, nextId := 100, cur := some (10, 0), waves := [(10, { w with splits := sp :: w.splits })]
    blocks := [(1, block1)], grids := [(2, grid2)], ctxs := [(3, { root := 0x10000 })], parts := [(0, part0)], cores := [(0, {})]
    mem := tables }

/-- The split at the first word of a clause at 0x1040 that holds `i` and two `nop`s, under the mode `m`. -/
def at_ (m : BitVec 24) (i : Instr) : Split :=
  { mode := m, pc := 0x1044, runStart := 0x1044, opened := true
    clause := some ⟨0x1040, 0xFC000032 :: (encode i ++ [0x03000000, 0x03000000])⟩ }

/-- Instruction `i` of wave `w` under mode `m`, in the machine changed by `f`. -/
def caseOf (w : Wave) (f : State → State) (m : BitVec 24) (i : Instr) : Case :=
  { s := f (bench w (at_ m i)), w := { w with splits := at_ m i :: w.splits }, sp := at_ m i, i := i }

/-- Instruction `i` under mode 0. -/
def plain (i : Instr) : Case := caseOf wave0 id 0 i
def byLoose (i : Instr) : Case := caseOf loose id 0 i
/-- The mode with a guard `p0`, all of whose bits are 0, and `ws`, so that ACTIVE is empty (R32). -/
def noLanes : BitVec 24 := 0x020040
def unguarded (i : Instr) : Case := caseOf wave0 id noLanes i

/-- The case with its split changed. -/
def Case.re (c : Case) (sp : Split) : Case :=
  { c with sp := sp, w := { c.w with splits := [sp] }, s := { c.s with waves := [(10, { c.w with splits := [sp] })] } }
/-- The case with no lane in its split. -/
def masked (c : Case) : Case := c.re { c.sp with mask := 0 }

def Case.act (c : Case) : LaneMask := activeMask c.w c.sp c.i
def Case.ctx (c : Case) : Ctx := ctxFor c.s 10 c.w c.sp c.i

/-- Whether the hypotheses that every instruction's statement shares hold. -/
def Case.ok (c : Case) : Bool :=
  decide (c.s.cur = some (10, c.sp.entry)) && decide (mget c.s.waves 10 = some c.w) &&
  decide (splitOf c.w c.sp.entry = some c.sp) && !mustWait c.s 10 c.w c.sp c.i && !flagFull c.w c.sp c.i && decide (issueCause c.s c.w c.sp c.i = none) &&
  (!guardOn c.sp.mode || ignoresGuard c.i ||
    (lanesOf (c.sp.mask &&& c.w.live)).all (fun l => decide (tagAt (pReg c.w (guardReg c.sp.mode)).tags l = .clean))) &&
  c.sp.trump.isNone

def isNext (o : Host.Outcome State Fault Refusal) : Bool :=
  match o with
  | .next _ => true
  | _ => false

/-- Each case is ready, runs plain code, meets its own condition, and answers a next state. -/
def Meets (l : List (Case × (Case → Bool))) : Prop :=
  ∀ x ∈ l, Ready x.1.i x.1.s 10 x.1.w x.1.sp ∧ x.1.sp.trump = none ∧ x.2 x.1 = true ∧ isNext (exec x.1.i x.1.s) = true

theorem meets (l : List (Case × (Case → Bool))) (h : l.all (fun x => x.1.ok && x.2 x.1 && isNext (exec x.1.i x.1.s)) = true) :
    Meets l := by
  intro x m
  have k := List.all_eq_true.mp h x m
  simp only [Bool.and_eq_true, Case.ok, decide_eq_true_eq, Bool.not_eq_true', Bool.or_eq_true, List.all_eq_true,
    Option.isNone_iff_eq_none] at k
  obtain ⟨⟨⟨⟨⟨⟨⟨⟨⟨a, b⟩, c⟩, d⟩, r⟩, e⟩, f⟩, g⟩, p⟩, q⟩ := k
  refine ⟨⟨a, b, c, d, r, e, ?_⟩, g, p, q⟩
  obtain (f | f) | f := f
  · exact .inl f
  · exact .inr (.inl f)
  · exact .inr (.inr f)

/-- Cases with no condition of their own. -/
def every (l : List Case) : List (Case × (Case → Bool)) := l.map (fun c => (c, fun _ => true))

/-! ### Well-formed and ill-formed terms -/

theorem test_wf_add : (Instr.add (.v 63) (.s 31) (.lit32 0)).wf = true := by decide
theorem test_ill_register : (Instr.add (.v 64) (.s 31) (.v 0)).wf = false := by decide
theorem test_ill_uniform : (Instr.add (.v 0) (.s 32) (.v 0)).wf = false := by decide
theorem test_ill_literal_place : (Instr.add (.lit32 0) (.s 31) (.v 0)).wf = false := by decide
theorem test_ill_two_literals : (Instr.add (.v 0) (.lit32 1) (.lit32 2)).wf = false := by decide
theorem test_ill_mode : (Instr.mode 0x3F).wf = false := by decide
theorem test_ill_rdsr : (Instr.rdsr (.s 0) 0x18).wf = false := by decide
theorem test_ill_wrsr : (Instr.wrsr (.s 0) 0x3B).wf = false ∧ (Instr.wrsr (.s 0) 0xA1).wf = false := by decide
theorem test_ill_mgrant : (Instr.mgrantCreate (.lit32 0x10)).wf = false ∧ (Instr.mgrantRevoke (.lit32 0)).wf = false := by decide
theorem test_ill_opcode : (Instr.illegalOpcode 0x10000000).wf = false := by decide
theorem test_ill_event : (Instr.hotnessHalve).wf = false := by decide

/-! ### Words written out from R22, R23, R26 and R28 -/

/-- Whether the words decode to the instruction, which takes `n` of them. -/
def reads (l : List Word) (i : Instr) (n : Nat) : Bool :=
  match decode l with
  | .ok (j, k) => decide (j = i ∧ k = n)
  | .error _ => false

/-- Opcode, D, A, B. -/
theorem test_words_alu :
    reads [0x10040142] (.add (.v 4) (.v 1) (.s 2)) 1 = true ∧ reads [0x1604427A, 7] (.div (.v 4) (.s 2) (.lit32 7)) 2 = true ∧
    reads [0x22717942] (.cmplt (.p 1) .lane (.s 2)) 1 = true ∧ reads [0x2B040142] (.bfe (.v 4) (.v 1) (.s 2)) 1 = true := by
  decide +kernel
theorem test_words_float :
    reads [0x33040142] (.fma (.v 4) (.v 1) (.s 2)) 1 = true ∧ reads [0x380401FF] (.fdiv (.v 4) (.v 1) (.s 2)) 1 = false ∧
    reads [0x4A040101] (.cvtff (.v 4) (.v 1) 1) 1 = true ∧ reads [0x30047B42, 1, 2] (.fadd (.v 4) (.lit64 0x200000001) (.s 2)) 3 = true := by
  decide +kernel
theorem test_words_class :
    reads [0x50617900] (.mov (.a 1) .lane) 1 = true ∧ reads [0x51047102] (.sel (.v 4) (.p 1) (.v 2)) 1 = true ∧
    reads [0x5904023F] (.shflx (.v 4) (.v 2) 63) 1 = true ∧ reads [0x5C71727E] (.pand (.p 1) (.p 2) .live) 1 = true := by
  decide +kernel
theorem test_words_control :
    reads [0x60FFFFEF] (.jmp (-17)) 1 = true ∧ reads [0x6171FFEF] (.bp (.p 1) (-17)) 1 = true ∧ reads [0x663F8000] (.call 63 (-32768)) 1 = true ∧
    reads [0x67004400] (.ret (.s 4)) 1 = true ∧ reads [0x69047B00, 0x1000, 0] (.calli 4 (.lit64 0x1000)) 3 = true := by
  decide +kernel
theorem test_words_members :
    reads [0x7000A300] (.bar (.b 3)) 1 = true ∧ reads [0x7144A000] (.barrive (.s 4) (.b 0)) 1 = true ∧
    reads [0x73444240] (.grow (.s 4) (.s 2) (.s 0)) 1 = true ∧ reads [0x77447D00] (.bmem (.s 4) .bid) 1 = true := by
  decide +kernel
theorem test_words_scratchpad :
    reads [0x80044200] (.lds (.v 4) (.s 2)) 1 = true ∧ reads [0x81004204] (.sts (.s 2) (.v 4)) 1 = true ∧
    reads [0x83034204] (.stsl (.v 3) (.s 2) (.v 4)) 1 = true ∧ reads [0x8A044203] (.scas (.v 4) (.s 2) (.v 3)) 1 = true := by
  decide +kernel
theorem test_words_global :
    reads [0x90044200] (.ld (.v 4) (.s 2)) 1 = true ∧ reads [0x93004004] (.strel (.s 0) (.v 4)) 1 = true ∧ reads [0x94784003] (.gadd .z (.s 0) (.v 3)) 1 = true ∧
    reads [0x9B0000C4] (.fence 0xC4) 1 = true ∧ reads [0x9C004001] (.pref (.s 0) 1) 1 = true ∧ reads [0x9E000000] .icsync 1 = true := by
  decide +kernel
theorem test_words_matrix :
    reads [0xA3908081] (.mma 3 (.acc 0) (.t 0) (.t 1)) 1 = true ∧ reads [0xAF978F8E] (.mmaw 7 (.acc 7) (.t 15) (.t 14)) 1 = true ∧
    reads [0xB09F4200] (.tcfg (.fs 7) (.s 2)) 1 = true ∧ reads [0xB5909FFA] (.mdrain (.acc 0) (.fs 7) 31 2) 1 = true := by
  decide +kernel
theorem test_words_engines :
    reads [0xC0804000] (.cpin (.t 0) (.s 0)) 1 = true ∧ reads [0xC600000F] (.cwait 15) 1 = true ∧ reads [0xC700007F] (.qfence 0x7F) 1 = true ∧
    reads [0xC844AE00] (.qseq (.s 4) (.q 6)) 1 = true := by
  decide +kernel
theorem test_words_cohorts :
    reads [0xD0444200] (.cbar (.s 4) (.s 2)) 1 = true ∧ reads [0xD2004204] (.dput (.s 2) (.v 4)) 1 = true ∧ reads [0xD5444042] (.launch (.s 4) (.s 0) (.s 2)) 1 = true ∧
    reads [0xD7444200] (.lstat (.s 4) (.s 2)) 1 = true := by
  decide +kernel
theorem test_words_system :
    reads [0x0D440011] (.rdsr (.s 4) 0x11) 1 = true ∧ reads [0x0E004210] (.wrsr (.s 2) 0x10) 1 = true ∧ reads [0xE1005C03] (.wpset (.s 28) 3) 1 = true ∧
    reads [0xE200000F] (.wpclr 15) 1 = true ∧ reads [0xE3700107] (.pchk (.p 0) (.v 1) 7) 1 = true ∧ reads [0x00123456] (.ill 0x12 0x34 0x56) 1 = true := by
  decide +kernel
/-- A literal in the last place of a body has no word, and the last byte of `bar` must be 0 (R24, R29). -/
theorem test_words_stop : (decode [0x10047A42]).isOk = false ∧ (decode [0x7000A301]).isOk = false := by
  decide +kernel

/-! ### Single steps -/

/-- What wave 10 holds after one instruction under mode `m`. -/
def waveAfter (m : BitVec 24) (i : Instr) : Wave :=
  match exec i (caseOf wave0 id m i).s with
  | .next t => waveOf t 10
  | _ => {}
def sAfter (i : Instr) (n : Nat) : Word := (sReg (waveAfter 0 i) n).val
def vAfter (i : Instr) (r l : Nat) : Word := (vLane (mgetD (waveAfter 0 i).v r {}) l).val
def pAfter (i : Instr) (n : Nat) : DWord := (pReg (waveAfter 0 i) n).bits

/-- 64 + (2^32 - 1) = 63 modulo 2^32; 64 - 65 = 2^32 - 1. -/
theorem test_add_wraps : sAfter (.add (.s 4) (.s 2) (.lit32 0xFFFFFFFF)) 4 = 63 ∧ sAfter (.sub (.s 2) (.s 2) (.lit32 65)) 2 = 0xFFFFFFFF := by decide +kernel
/-- Lane 63 adds 64. -/
theorem test_add_lanes : vAfter (.add (.v 1) .lane (.s 2)) 1 63 = 127 ∧ vAfter (.add (.v 1) .lane (.s 2)) 1 0 = 64 := by decide +kernel
/-- 64 has its one bit at place 6: 25 leading zeros, and bit 25 when reversed. -/
theorem test_bits : sAfter (.popc (.s 4) (.s 2)) 4 = 1 ∧ sAfter (.clz (.s 4) (.s 2)) 4 = 25 ∧ sAfter (.brev (.s 4) (.s 2)) 4 = 0x02000000 := by decide +kernel
theorem test_shift : sAfter (.shl (.s 4) (.s 2) (.lit32 4)) 4 = 1024 ∧ sAfter (.shr (.s 4) (.s 2) (.lit32 6)) 4 = 1 := by decide +kernel
/-- The lanes below 32. -/
theorem test_compare : pAfter (.cmplt (.p 1) .lane (.lit32 32)) 1 = 0xFFFFFFFF := by decide +kernel
/-- 1.0 + 0.0, 1.0 + 1.0 × 0.0 and the number 64. -/
theorem test_float : vAfter (.fadd (.v 1) (.v 2) (.lit32 0x3F800000)) 1 9 = 0x3F800000 ∧ vAfter (.fneg (.v 1) (.lit32 0x3F800000)) 1 9 = 0xBF800000 ∧
    vAfter (.cvtif (.v 1) (.s 2)) 1 9 = 0x42800000 := by decide +kernel
/-- The split goes on 17 words before the branch word. -/
theorem test_jump : ((waveAfter 0 (.jmp (-17))).splits.map (·.pc)) = [0x1044 - 68] := by decide +kernel
/-- The frame's base moves by 4, and the register file keeps its values. -/
theorem test_call : (waveAfter 0 (.call 4 (-17))).wbase = wave0.wbase + 4 := by decide +kernel
/-- A trap saves cause, word and value (R29, R335). -/
theorem test_trap : (waveAfter 0 (.ill 0 0 0)).trapc ≠ wave0.trapc ∧ (waveAfter 0 (.ill 0 0 0)).frame.isSome = true := by decide +kernel

/-! ### The machine between steps -/

/-- Each state meets its condition, and the move answers a next state in it. -/
def Moves (l : List (State × Instr × (State → Bool))) : Prop :=
  ∀ x ∈ l, x.2.2 x.1 = true ∧ isNext (exec x.2.1 x.1) = true

theorem moves (l : List (State × Instr × (State → Bool))) (h : l.all (fun x => x.2.2 x.1 && isNext (exec x.2.1 x.1)) = true) :
    Moves l := by
  intro x m
  have k := List.all_eq_true.mp h x m
  rwa [Bool.and_eq_true] at k

/-- The machine between steps. -/
def quiet : State := { (plain .nop).s with cur := none }
/-- Effect 50 of wave 10, issued at cycle 900 and due at 924. -/
def heldBy (u : Nat) (b : Option Nat) (e : Effect) (op : Option Nat) : Held :=
  { id := 50, issued := 900, due := 924, core := 0, seat := some 0, wave := u, block := b, eff := e, op := op }
def holding (s : State) (e : Effect) : State := { s with held := [heldBy 10 (some 1) e none] }
/-- The machine with its wave, block, grid, partition or core 0 changed. -/
def withWave (s : State) (w : Wave) : State := { s with waves := [(10, w)] }
def withBlock (s : State) (b : Block) : State := { s with blocks := [(1, b)] }
def withGrid (s : State) (g : Grid) : State := { s with grids := [(2, g)] }
def withPart (s : State) (p : Partition) : State := { s with parts := [(0, p)] }
def withCore (s : State) (c : Core) : State := { s with cores := [(0, c)] }

/-- Whether effect 50 is due and every older effect of its seat has left. -/
def isDue (s : State) : Bool :=
  match heldOf s 50 with
  | some h => decide (h.due ≤ s.now) && seatFree s h
  | none => false

/-! ### Witnesses: the step, memory, the round trip -/

/-- The machine whose split stands at the words `l`. -/
def standing (l : List Word) : State := withWave quiet { wave0 with splits := [{ at_ 0 .nop with clause := some ⟨0x1040, 0xFC000032 :: l⟩ }] }
def opens (s : State) : Option (Cand × Split × State) :=
  match pickIssue (housekeep s) with
  | some c =>
    let t := openClause (housekeep s) c.uid c.entry
    (splitOf (waveOf t c.uid) c.entry).map (fun sp => (c, sp, { t with cur := some (c.uid, c.entry) }))
  | none => none
def quietOutside (s : State) : Bool := (outsideMove (housekeep s)).isNone
def quietInside (s : State) : Bool :=
  (mismatchAt (housekeep s)).isNone && (firstMade (ownMoves (housekeep s)) (housekeep s)).isNone

theorem witness_StepRuns_outside :
    let s : State := { quiet with inputs := [(1000, .hostInboundWrite 0 0x3000 [1] false)] }
    (match outsideMove (housekeep s) with
      | some (i, t) => !isEarly (exec i t)
      | none => false) = true ∧ isNext (Machine.step s) = true := by
  decide +kernel

theorem witness_StepRuns_own :
    let s := holding quiet (.sstore 4 [{ lane := 0, addr := 8, val := 5 }])
    quietOutside s = true ∧ quietInside s = false ∧ isNext (Machine.step s) = true := by
  decide +kernel

/-- A move from outside whose condition does not hold yet comes after the device's own moves. -/
theorem witness_StepRuns_early :
    let s : State := { holding quiet (.sstore 4 [{ lane := 0, addr := 8, val := 5 }]) with inputs := [(0, .rollbackResume 0 none)] }
    (match outsideMove (housekeep s) with
      | some (i, t) => isEarly (exec i t)
      | none => false) = true ∧ quietInside s = false := by
  decide +kernel

theorem witness_StepRuns_cycle :
    quietOutside State.reset = true ∧ quietInside State.reset = true ∧ (pickIssue (housekeep State.reset)).isNone = true ∧
    isNext (Machine.step State.reset) = true := by
  decide +kernel

theorem witness_StepRuns_issue :
    quietOutside quiet = true ∧ quietInside quiet = true ∧ (match opens quiet with
      | some (c, sp, t) => c.search.isNone && decide (c.wave.state ≠ .oneStep) && sp.trump.isNone && (match decode (wordsAt sp) with
        | .ok (i, 1) => decide (i = .nop) && isNext (exec i t)
        | _ => false)
      | none => false) = true ∧ isNext (Machine.step quiet) = true := by
  decide +kernel

theorem witness_StepRuns_bad :
    let s := standing [0x030000FF, 0x03000000, 0x03000000]
    quietOutside s = true ∧ quietInside s = true ∧ (match opens s with
      | some (c, sp, _) => c.search.isNone && decide (c.wave.state ≠ .oneStep) && sp.trump.isNone && (match decode (wordsAt sp) with
        | .ok _ => false
        | .error _ => true)
      | none => false) = true ∧ isNext (Machine.step s) = true := by
  decide +kernel

/-- The effect of a redundant block whose comparison fails comes before the device's moves, once the shadow has produced its own. -/
theorem witness_StepRuns_mismatch (h : Config.shadowDelay 50 ≤ 100) :
    let s : State := { holding (withBlock quiet { block1 with redundant := some 1 }) (.sstore 4 [{ lane := 0, addr := 8, val := 5 }]) with
      upsets := [(1000, .shadow 1)] }
    (outsideMove s).isNone = true ∧ (mismatchAt s).isSome = true := by
  intro s
  refine ⟨by decide +kernel, ?_⟩
  have m : matched s (heldBy 10 (some 1) (.sstore 4 [{ lane := 0, addr := 8, val := 5 }]) none) = true := by
    have d : decide (900 + Config.shadowDelay 50 ≤ 1000) = true := decide_eq_true (by omega)
    show (false || ((false || decide (900 + Config.shadowDelay 50 ≤ 1000)) && true)) = true
    rw [d]; rfl
  have f : seatFree s (heldBy 10 (some 1) (.sstore 4 [{ lane := 0, addr := 8, val := 5 }]) none) = true := by
    unfold seatFree; rw [m]; decide +kernel
  have g : (s.held.find? (fun (h : Held) => decide (h.block = some 1 ∧ h.seat.isSome ∧ h.due ≤ s.now) && seatFree s h)).isSome = true := by
    rw [List.find?_isSome]
    exact ⟨_, List.mem_singleton.mpr rfl, by rw [f]; decide +kernel⟩
  obtain ⟨y, e⟩ := Option.isSome_iff_exists.mp g
  show (firstSome (fun (o : Option (Nat × Nat × Held)) => o) [(s.held.find? (fun (h : Held) =>
    decide (h.block = some 1 ∧ h.seat.isSome ∧ h.due ≤ s.now) && seatFree s h)).map (fun h => (1, 1, h))]).isSome = true
  rw [e]; rfl

/-- A machine without waves in which search context 1 of seat 7 has an instruction of a raised audit to issue. -/
theorem witness_StepRuns_search :
    let x : SearchRun := { audit := true, id := 6, wave := wave0, words := encode (.add (.v 1) (.v 2) (.s 2)) }
    let snap : Snapshot := { region := 0x1000, wave := wave0, split := {} }
    let s : State := { quiet with
      waves := [], blocks := [], grids := []
      tags := [(6, { part := 0, die := 0, entry := 0, snap := snap, issued := 1000, level := some 0 })]
      dies := [(0, {})], cores := [(0, { seats := List.replicate 7 {} ++ [{ search := [none, some x] }] })] }
    quietOutside s = true ∧ quietInside s = true ∧
    ((pickIssue (housekeep s)).bind (fun c => c.search)) = some 1 ∧ isNext (Machine.step s) = true := by
  decide +kernel

/-- A step that writes a byte of memory. -/
theorem witness_MemoryKept :
    let s : State := { quiet with inputs := [(0, .hostInboundWrite 0 0x3000 [1] false)] }
    Memory.wf s.mem = true ∧ (match Machine.step s with
      | .next t => decide (memGet t.mem 0x3000 = 1 ∧ memGet s.mem 0x3000 = 0)
      | _ => false) = true := by
  decide +kernel

theorem witness_RoundTrip :
    (Instr.fma (.v 63) .lane (.lit64 0xFFFFFFFFFFFFFFFF)).wf = true ∧ (Instr.jmp (-8388608)).wf = true ∧
    (Instr.illegalOpcode 0x1F123456).wf = true ∧ (Instr.wpset (.s 28) 3).wf = true := by
  decide +kernel

/-! ### Witnesses: instructions on registers -/

theorem witness_IntegerResults : Meets (every [plain (.add (.v 4) (.v 1) (.s 2)), plain (.sub (.s 4) (.s 0) (.s 2)),
    plain (.neg .z .lane), plain (.mul (.v 1) .lane (.lit32 3)), plain (.mulhi (.v 1) .lane (.s 2)), plain (.mad (.v 1) .lane (.s 2)),
    plain (.min (.v 1) .lane (.s 2)), plain (.max (.v 1) .lane (.s 2)), plain (.abs (.v 1) .lane),
    caseOf wave0 id 0xC00000 (.add (.v 4) (.v 2) (.lit64 0x100000000))]) := meets _ (by decide +kernel)

theorem witness_BitResults : Meets (every [plain (.dot4 (.v 1) .lane (.s 2)), plain (.brev (.v 1) .lane), plain (.popc (.v 1) .lane),
    plain (.clz (.v 1) .lane), plain (.and (.v 1) .lane (.s 2)), plain (.or (.v 1) .lane (.s 2)), plain (.xor (.v 1) .lane (.s 2)),
    plain (.not (.v 1) .lane), plain (.shl (.v 1) .lane (.s 2)), plain (.shr (.v 1) .lane (.s 2)), plain (.sra (.v 1) .lane (.s 2)),
    plain (.bfe (.v 1) .lane (.s 2)), plain (.bfi (.v 1) .lane (.s 2))]) := meets _ (by decide +kernel)

theorem witness_CompareResults : Meets (every [plain (.cmpeq (.p 1) .lane (.s 2)), plain (.cmpne (.v 1) .lane (.s 2)),
    plain (.cmplt (.p 1) .lane (.s 2)), plain (.cmple (.s 4) (.s 0) (.s 2)), plain (.fcmpeq (.p 1) (.v 2) (.s 2)),
    plain (.fcmplt (.v 1) (.v 2) (.s 2)), plain (.fcmple (.s 4) (.s 0) (.s 2)), plain (.fcmpun (.p 1) (.v 2) (.s 2)),
    plain (.fclass (.v 1) (.v 2)), caseOf wave0 id 0x040000 (.fclass (.v 1) (.v 2))]) := meets _ (by decide +kernel)

theorem witness_FloatResults : Meets (every [plain (.fadd (.v 1) (.v 2) (.s 2)), plain (.fsub (.v 1) (.v 2) (.s 2)),
    plain (.fmul (.v 1) (.v 2) (.s 2)), plain (.fma (.v 1) (.v 2) (.s 2)), plain (.fneg (.v 1) (.v 2)), plain (.fabs (.v 1) (.v 2)),
    plain (.fmin (.v 1) (.v 2) (.s 2)), plain (.fmax (.v 1) (.v 2) (.s 2)), plain (.frcp (.s 4) (.s 2)), plain (.frsq (.s 4) (.s 2)),
    plain (.fexp2 (.s 4) (.s 2)), plain (.flog2 (.s 4) (.s 2)), plain (.fsin (.s 4) (.s 2)), plain (.fcos (.s 4) (.s 2)),
    plain (.frnd (.v 1) (.v 2)), plain (.cmul (.v 2) (.v 4) (.s 2)), plain (.cmad (.v 2) (.v 4) (.s 2))]) := meets _ (by decide +kernel)

/-- Packed and single forms of the conversions; field 3 of bytes and field 7 of nibbles. -/
theorem witness_ConversionResults : Meets [
    (plain (.cvtif (.v 1) (.v 2)), fun c => !packedI (itype c.sp.mode)),
    (caseOf wave0 id 0x440000 (.cvtif (.v 1) (.v 2)), fun c => packedI (itype c.sp.mode)),
    (plain (.cvtfi (.v 1) (.v 2)), fun c => !packedI (itype c.sp.mode)),
    (caseOf wave0 id 0x440000 (.cvtfi (.v 1) (.v 2)), fun c => packedI (itype c.sp.mode)),
    (caseOf wave0 id 0x040000 (.cvtff (.v 1) (.v 2) 2), fun c => packedF (ftype c.sp.mode)),
    (caseOf wave0 id 0x040000 (.cvtff (.v 1) (.v 2) 0x10), fun c => packedF (ftype c.sp.mode)),
    (plain (.cvtff (.v 1) (.v 2) 0x11), fun c => !packedF (ftype c.sp.mode)),
    (plain (.cvtff (.v 2) (.v 2) 3), fun c => !packedF (ftype c.sp.mode)),
    (plain (.cvtn8 (.v 1) (.v 2) 0x33), fun _ => decide (narrowBits 0x33 * 4 ≤ 32)),
    (plain (.cvtn8 (.v 1) (.v 2) 0x77), fun _ => decide (narrowBits 0x77 * 8 ≤ 32)),
    (plain (.cvtw8 (.v 1) (.v 2) 0x33), fun _ => true)] := meets _ (by decide +kernel)

theorem witness_ClassResults : Meets ([
    (unguarded (.demote (.s 4) (.v 2)), fun c => decide (lanesOf c.act = [])),
    (plain (.demote (.s 4) (.v 2)), fun c => (lanesOf c.act).all (fun l => decide ((readI c.ctx (.v 2) l).val = 0))),
    (caseOf { wave0 with v := [(2, { vals := [0, 1] })] } id 0 (.demote (.s 4) (.v 2)),
      fun c => decide ((lanesOf c.act).find? (fun l => decide ((readI c.ctx (.v 2) l).val ≠ 0)) = some 1)),
    (unguarded (.vall (.s 4) (.p 2)), fun c => decide (lanesOf c.act = [])),
    (unguarded (.vany (.s 4) (.p 2)), fun c => decide (lanesOf c.act = [])),
    (unguarded (.veq (.s 4) (.p 2)), fun c => decide (lanesOf c.act = [])),
    (plain (.vall (.p 1) (.v 2)), fun c => decide (lanesOf c.act ≠ [])),
    (plain (.vany (.p 1) .live), fun c => decide (lanesOf c.act ≠ [])),
    (plain (.veq (.s 4) (.p 2)), fun c => decide (lanesOf c.act ≠ []))] ++
    every [plain (.mov (.v 1) (.v 2)), plain (.promote (.v 1) (.s 2) (.v 0)), plain (.sel (.v 1) (.p 1) (.v 2)),
      plain (.shfl (.v 1) (.v 2) .lane), plain (.shflx (.v 1) (.v 2) 63), plain (.shfldn (.v 1) (.v 2) 63),
      plain (.shflup (.v 1) (.v 2) 63), plain (.pand (.p 1) (.p 2) .live), plain (.por (.p 1) (.p 2) .live),
      plain (.pxor (.p 1) (.p 2) .live), plain (.pnot (.p 1) (.p 2)), plain (.ptag (.v 1) (.p 2)), plain (.ptag (.v 1) (.v 2))]) :=
  meets _ (by decide +kernel)

theorem witness_MaskResults : Meets (every [plain (.ballot (.p 1) (.v 2)), plain (.ballot (.s 4) .live), plain (.elect (.p 1)),
    plain (.elect (.s 4)), plain (.pchk (.p 1) (.v 1) 1), plain (.pchk (.p 1) (.p 2) 7)]) := meets _ (by decide +kernel)

/-- With ACTIVE empty; a stride of 2^31 under a 64-bit type; lane 2 leaving the type under `aov`; and neither. -/
theorem witness_AffineResults : Meets ([
    (unguarded (.add (.a 1) .lane (.s 2)), fun c => decide (c.act = 0)),
    (unguarded (.mov (.a 1) .lane), fun c => decide (c.act = 0)),
    (unguarded (.promote (.a 1) (.s 2) (.s 2)), fun c => decide (c.act = 0)),
    (caseOf { wave0 with a := [{ stride := 0x7FFFFFFF }] } id 0xC00000 (.add (.a 1) (.a 0) .lane), fun c =>
      decide ((affineSrc c.ctx (.a 0)).2.1.toInt + (affineSrc c.ctx .lane).2.1.toInt = 2 ^ 31)),
    (caseOf { wave0 with a := [{ base := 0x7FFFFFFE }] } id 0x100 (.add (.a 1) (.a 0) .lane), fun c =>
      decide ((lanesOf c.w.live).find? (fun l => decide (intMax true 32 < affineExact c.ctx (.a 0) l + affineExact c.ctx .lane l)) = some 2))] ++
    [(caseOf wave0 id 0x100 (.add .z .lane (.s 2)), fun c => affineZ c.sp.mode .z [.lane, .s 2]),
     (caseOf { wave0 with a := [{ stride := 0x7FFFFFFF }] } id 0xC00000 (.add .z (.a 0) .lane), fun c => affineZ c.sp.mode .z [.a 0, .lane]),
     (caseOf { wave0 with a := [{ base := 0x7FFFFFFE }] } id 0x100 (.add .z (.a 0) .lane), fun c => affineZ c.sp.mode .z [.a 0, .lane]),
     (plain (.sub .z .lane (.s 2)), fun c => affineZ c.sp.mode .z [.lane, .s 2]), (plain (.neg .z .lane), fun c => affineZ c.sp.mode .z [.lane]),
     (plain (.mul .z .lane (.s 2)), fun c => affineZ c.sp.mode .z [.lane, .s 2]), (plain (.shl .z .lane (.lit32 31)), fun c => affineZ c.sp.mode .z [.lane, .lit32 31])] ++
    every [caseOf wave0 id 0x100 (.add (.a 1) .lane (.s 2)), plain (.sub (.a 1) .lane (.s 2)), plain (.neg (.a 1) .lane),
      plain (.mul (.a 1) .lane (.s 2)), plain (.shl (.a 1) .lane (.lit32 31)), plain (.shl (.a 1) .lane (.lit32 32)),
      plain (.mov (.a 1) .lane), plain (.promote (.a 1) (.s 2) (.s 2))]) := meets _ (by decide +kernel)

theorem witness_LongOperations : Meets (every [plain (.div (.v 1) .lane (.s 2)), plain (.rem (.s 4) (.s 0) (.s 2)),
    plain (.fdiv (.v 1) (.v 2) (.s 2)), plain (.fsqrt (.v 1) (.v 2)), unguarded (.div (.s 4) (.s 0) (.s 2))]) :=
  meets _ (by decide +kernel)

/-! ### Witnesses: system instructions and traps -/

theorem witness_PlainInstructions : Meets ([
    (plain (.rnote 0x7878787878787878), fun _ => (List.range 8).all (fun k => decide (elemOf 8 k (0x7878787878787878 : DWord) ≤ 0x78))),
    (plain (.rnote 0x7979000000000000), fun _ => decide (elemOf 8 6 (0x7979000000000000 : DWord) = 0x79)),
    (plain (.rnote 0x79), fun _ => decide (elemOf 8 0 (0x79 : DWord) = 0x79))] ++
    every [plain .nop, plain .yield, plain (.pref (.s 0) 0), plain (.pref (.lit64 0) 1), plain (.mode 0xC00000), plain (.omode 0x13)]) :=
  meets _ (by decide +kernel)

/-- The machine with a debugger attached to context 3. -/
def debugged (s : State) : State := { s with ctxs := [(3, { root := 0x10000, debugger := true })] }

theorem witness_TrapInstructions : Meets [(plain (.trap 7), fun _ => true),
    (plain (.brk 7), fun c => !(ctxOf c.s c.w.ctx).debugger),
    (caseOf wave0 debugged 0 (.brk 7), fun c => (ctxOf c.s c.w.ctx).debugger)] := meets _ (by decide +kernel)

/-- An instruction that does not become ready: the state in which its cause applies. -/
def Case.caught (c : Case) (x : Cause × Word) : Bool :=
  decide (c.s.cur = some (10, c.sp.entry)) && decide (mget c.s.waves 10 = some c.w) &&
  decide (splitOf c.w c.sp.entry = some c.sp) && !mustWait c.s 10 c.w c.sp c.i && decide (issueCause c.s c.w c.sp c.i = some x)

theorem witness_TrapInstructions_opcode : (plain (.ill 1 2 3)).caught (.illegalOpcode, 0x00010203) = true ∧
    (plain (.illegalOpcode 0x1F000000)).caught (.illegalOpcode, 0x1F000000) = true := by decide +kernel

/-- The wave while operation 1 will write `r`. -/
def pending1 (r : RegRef) : Wave :=
  { wave0 with ops := [{ id := 1, flag := 0, dests := [r], dst := .none, kind := .engine [] 0 }], flags := [1] }

/-- R29: cases of the orders from 2 to 7. -/
theorem witness_IssueTests :
    (plain (.ill 1 2 3)).caught (.illegalOpcode, 0x00010203) = true ∧
    (plain (.cwait 16)).caught (.illegalField, 0xC6000010) = true ∧
    (plain (.add (.v 1) (.lit32 1) (.lit32 2))).caught (.illegalOperand, 0x10017A7A) = true ∧
    ((plain (.mov (.s 4) (.lit32 1))).re { at_ 0 (.mov (.s 4) (.lit32 1)) with clause := some ⟨0x1040, [0xFC000000, 0x50447A00]⟩ }).caught
      (.illegalClause, 0x50447A00) = true ∧
    (plain (.add (.s 4) (.v 1) (.s 2))).caught (.illegalClass, 0x10440142) = true ∧
    (plain (.vany (.s 4) (.v 1))).caught (.illegalClass, 0x55440100) = true ∧
    (plain (.vany (.s 4) (.p 1))).ok = true ∧
    (caseOf (pending1 (.p 0)) id 0x020000 (.add (.v 1) (.v 2) (.v 4))).caught (.hazard, 0x70) = true ∧
    (caseOf (pending1 (.s 31)) id 0 (.grow (.s 4) (.s 0) (.lit32 1))).caught (.hazard, 0x5F) = true ∧
    (caseOf (pending1 (.v 3)) id 0 (.call 8 0)).caught (.hazard, 3) = true ∧
    (plain (.add (.p 1) (.v 1) (.v 2))).caught (.illegalOperand, 0x10710102) = true ∧
    (caseOf wave0 id 0xC00000 (.add (.v 1) (.v 2) (.v 4))).caught (.illegalOperand, 0x10010204) = true ∧
    (plain (.mov (.s 4) (.v 1))).caught (.illegalClass, 0x50440100) = true ∧
    (caseOf wave0 id 0x020000 (.mov (.s 4) (.s 0))).caught (.uniformMask, 0x50444000) = true ∧
    (caseOf { wave0 with wdog := 2 ^ 26 } id 0 .nop).caught (.watchdog, 26) = true ∧
    (caseOf (pending1 (.v 3)) id 0
      (.cred (.v 4) (.v 2) (.lit32 0x3000))).caught (.hazard, 2) = true ∧
    (caseOf wave0 id 0x440000 (.dot4 (.v 1) (.v 2) (.v 3))).caught (.illegalType, 0x440000) = true := by decide +kernel

theorem witness_TrapEntry : wave0.frame = none ∧ (gridOf (plain .nop).s wave0.grid).launch.handler ≠ 0 ∧
    mget (plain .nop).s.waves 10 = some (plain .nop).w := by decide +kernel

/-- A grid without a handler (R337). -/
def noHandler (s : State) : State := { s with grids := [(2, { grid2 with launch := { grid2.launch with handler := 0 } })] }

theorem witness_TrapStops : (gridOf (caseOf wave0 noHandler 0 .nop).s 2).launch.handler = 0 ∧
    mget (caseOf inHandler id 0 .nop).s.waves 10 = some (caseOf inHandler id 0 .nop).w ∧ inHandler.frame ≠ none := by decide +kernel

theorem witness_TrapReturn : Meets [
    (plain (.tret 0), fun c => c.w.frame.isNone),
    (caseOf { inHandler with trapc := 0x1003A } id 0 (.tret 1), fun c => c.w.frame.isSome && c.w.trapc.getLsbD 16),
    (caseOf inHandler id 0 (.tret 1), fun c => c.w.frame.isSome && !c.w.trapc.getLsbD 16 && c.w.pendingHit.isNone),
    (caseOf { inHandler with trapc := 0x1003A } id 0 (.tret 0), fun c => c.w.frame.isSome && c.w.pendingHit.isNone),
    (caseOf { inHandler with pendingHit := some (1, 2, 0x1040) } id 0 (.tret 0), fun c => c.w.pendingHit.isSome && !(ctxOf c.s c.w.ctx).debugger),
    (caseOf { inHandler with pendingHit := some (1, 2, 0x1040) } debugged 0 (.tret 0), fun c => c.w.pendingHit.isSome && (ctxOf c.s c.w.ctx).debugger)] :=
  meets _ (by decide +kernel)

theorem witness_SignatureCheck : Meets [(plain (.sigck 0), fun c => decide (c.w.sig = 0)),
    (plain (.sigck 1), fun c => decide (c.w.sig ≠ 1))] := meets _ (by decide +kernel)

theorem witness_SystemReads : Meets ([
    (plain (.qfeat (.s 4) (.lit32 0x1F)), fun _ => true), (plain (.qfeat (.s 4) (.lit32 0x20)), fun _ => true),
    (byLoose (.shrinkq (.s 4)), fun c => c.w.block.isNone), (byLoose (.bmem (.s 4) .z), fun c => c.w.block.isNone)] ++
    every [plain (.rdsr (.s 4) 0x10), unguarded (.rdsr (.s 4) 0x11), plain (.rdsrTimelo (.s 4)), plain (.qseq (.s 4) (.q 6)),
      plain (.shrinkq (.s 4)), plain (.bmem (.s 4) (.b 3)), plain (.bmem (.s 4) .z)]) := meets _ (by decide +kernel)

/-- The grid with a grant 1 of another block. -/
def granted (s : State) : State := { s with grids := [(2, { grid2 with grants := [(1, ⟨9, true, .spad, false⟩)] })] }

theorem witness_SystemWrites : Meets ([
    (unguarded (.pkset (.lit64 5)), fun c => decide (c.act = 0)), (plain (.pkset (.s 0)), fun c => decide (c.act ≠ 0)),
    (byLoose (.mgrantCreate (.lit32 0)), fun c => c.w.block.isNone), (byLoose (.mgrantRevoke (.lit32 0x10)), fun c => c.w.block.isNone),
    (caseOf wave0 granted 0 (.mgrantCreate (.lit32 0x01000000)), fun c => (mget (gridOf c.s 2).grants 1).isSome),
    (plain (.mgrantCreate (.lit32 0x01000004)), fun _ => true), (plain (.mgrantCreate (.lit32 0x01000020)), fun _ => true),
    (plain (.mgrantCreate (.lit32 0xFF00000B)), fun c => decide (c.act ≠ 0)),
    (plain (.mgrantRevoke (.lit32 0xFF000010)), fun c => decide (c.act ≠ 0)),
    (unguarded (.mgrantCreate (.lit32 0xFF00000B)), fun c => decide (c.act = 0))] ++
    every [plain (.wrsr (.lit32 511) 0x10), plain (.wrsr (.lit32 512) 0x10), plain (.wrsr (.lit32 511) 0x80),
      plain (.wrsr (.lit32 512) 0x80), plain (.wrsr (.s 2) 0x28), plain (.wrsr (.s 2) 0x29), unguarded (.wrsr (.lit32 512) 0x10), unguarded (.sigWrite (.lit32 5)), unguarded (.mgrantCreate (.lit32 4)),
      plain (.sigWrite (.lit32 5))]) := meets _ (by decide +kernel)

/-- The four registers of a watchpoint, `s4` to `s7`. -/
def watching (h len ix : Word) : Wave := withS (withS (withS (withS wave0 4 0x2000) 5 h) 6 len) 7 ix

theorem witness_Watchpoints : Meets ([
    (masked (caseOf (watching 0 0x10001 0) id 0x40 (.wpset (.s 4) 0)), fun c => decide (c.act = 0)),
    (masked (caseOf wave0 id 0x40 (.wpclr 1)), fun c => decide (c.act = 0))] ++ every [byLoose (.wpset (.s 4) 3), byLoose (.wpclr 1),
    caseOf (watching 0x20000 0x10001 0) id 0 (.wpset (.s 4) 0), caseOf (watching 1 0x50001 0) id 0 (.wpset (.s 4) 0),
    caseOf (watching 0x1FFFF 0x80001 0) id 0 (.wpset (.s 4) 0), caseOf (watching 0 0x00001 0) id 0 (.wpset (.s 4) 0),
    caseOf (watching 0 0x10000 0) id 0 (.wpset (.s 4) 0), caseOf (watching 0 0x10001 0x200) id 0 (.wpset (.s 4) 0),
    caseOf (watching 0 0x10001 0x1FF) id 0 (.wpset (.s 4) 0), caseOf (watching 0x1FFFF 0x3FFFF 0x100) id 0 (.wpset (.s 4) 3),
    caseOf (watching 0 0x7FFFF 0) id 0 (.wpset (.s 4) 0), caseOf (watching 0 0x10001 0x100) id 0 (.wpset (.s 4) 0),
    caseOf (watching 0 0x10001 0x101) id 0 (.wpset (.s 4) 0), plain (.wpclr 15)]) := meets _ (by decide +kernel)

/-! ### Witnesses: control flow and membership -/

/-- Offsets from 0x1044 to the header at 0x1000, to the word 0 at 0x1080, and to an unmapped page. -/
theorem witness_Jumps : Meets ([
    (plain (.jmp (-17)), fun (c : Case) => (targetTest c.s c.w 0x1000 matches .header)),
    (plain (.jmp 15), fun (c : Case) => (targetTest c.s c.w 0x1080 matches .other)),
    (plain (.jmpi (.lit64 0x80000000)), fun (c : Case) => (targetTest c.s c.w 0x80000000 matches .missing _)),
    (plain (.jmpi (.lit64 0x40000000)), fun (c : Case) => (targetTest c.s c.w 0x40000000 matches .noPerm)),
    (plain (.jmpi (.lit64 0x2000000000000)), fun _ => true),
    (plain (.jmpi (.lit64 0x1FFFFFFFFFFFF)), fun (c : Case) => (targetTest c.s c.w 0x1FFFFFFFFFFFF matches .other))] ++
    every [plain (.jmpi (.lit64 0x1000)), plain (.bany (.p 1) (-17)), plain (.ball (.p 1) (-17)), plain (.bnone (.p 1) (-17)),
      caseOf { wave0 with p := [{}, { bits := BitVec.allOnes 64 }] } id 0 (.ball (.p 1) (-17)),
      caseOf { wave0 with p := [{}, { bits := 1 }] } id 0 (.bany (.p 1) (-17)),
      caseOf { wave0 with p := [{}, { bits := 1 }] } id 0 (.bnone (.p 1) (-17))]) := meets _ (by decide +kernel)

/-- A wave whose `p1` holds in lane 0, with more running and deferred splits beside the one that issues. -/
def branching (running deferred top : Nat) : Wave :=
  { wave0 with
    p := [{}, { bits := 1 }], spillTop := top
    splits := (List.range running).map (fun k => { entry := k + 1, mask := 0, pc := 0x1000 })
    deferred := (List.range deferred).map (fun _ => { mask := 0, pc := 0x1000 }) }

theorem witness_Divergence : Meets [
    (plain (.bp (.p 1) (-17)), fun _ => true), (plain (.bnp (.p 1) (-17)), fun _ => true),
    (caseOf (branching 0 0 0x50000) id 0 (.bp (.p 1) (-17)), fun c => decide (freeEntry c.w = some 1)),
    (caseOf (branching 3 0 0x50000) id 0 (.bnp (.p 1) (-17)), fun c => decide (freeEntry c.w = none)),
    (caseOf (branching 3 7 0x50000) id 0 (.bp (.p 1) (-17)), fun c => decide (c.w.deferred.length < 8)),
    (caseOf (branching 3 8 0x50000) id 0 (.bp (.p 1) (-17)), fun c => decide (freeEntry c.w = none) && recordFits c.w (c.w.deferred.length + 1 - 8)),
    (caseOf (branching 3 0 0x50000) id 0 (.bp (.p 1) 47), fun c => c.w.splits.all (fun x => decide (x.pc ≤ 0x1100))),
    (caseOf { branching 3 0 0x50000 with splits := (branching 3 0 0x50000).splits.map (fun x => { x with pc := 0x1100 }) } id 0 (.bp (.p 1) 47), fun c =>
      c.w.splits.any (mergesWith { entry := 0, mask := 1, mode := c.sp.mode, omode := c.sp.omode, pc := 0x1100, runStart := 0x1100 })),
    (caseOf (branching 3 8 0x40000) id 0 (.bp (.p 1) (-17)), fun c =>
      decide (freeEntry c.w = none) && !recordFits c.w (c.w.deferred.length + 1 - 8))] := meets _ (by decide +kernel)

theorem witness_Calls : Meets [
    (plain (.call 0 (-17)), fun c => decide (c.w.lo ≤ c.w.wbase)),
    (caseOf { wave0 with resident := 128 } id 0 (.call 63 (-17)), fun c => decide (c.w.wbase + 63 + 64 - c.w.resident = c.w.lo)),
    (plain (.call 63 (-17)), fun c => decide (c.w.lo < c.w.wbase + 63 + 64 - c.w.resident)),
    (caseOf { wave0 with wbase := 65535, lo := 65535 } id 0 (.call 1 (-17)), fun c => decide (65535 < c.w.wbase + 1)),
    (caseOf { wave0 with spillTop := 0x40000 } id 0 (.call 1 (-17)), fun c => decide (c.w.spillTop < c.w.spillBase + 384)),
    (plain (.calli 4 (.lit64 0x1000)), fun _ => true), (plain (.calli 4 (.lit64 0x2000000000000)), fun _ => true)] :=
  meets _ (by decide +kernel)

/-- A wave whose `s4:s5` holds the link of a return to position `pos` of the clause at `h`, with a frame of `f` (R154). -/
def linked (h pos f : Nat) (w : Wave) : Wave :=
  setSPair w 4 ⟨BitVec.ofNat 64 (h + 4 * pos + pos * 2 ^ 49 + f * 2 ^ 58), .clean⟩

theorem witness_Returns : Meets [
    (plain (.ret (.s 4)), fun _ => true), (caseOf (linked 0x1100 1 1 wave0) id 0 (.ret (.s 4)), fun c => decide (c.w.wbase < 1)),
    (caseOf (linked 0x80000000 1 0 wave0) id 0 (.ret (.s 4)), fun (c : Case) => (codeWord c.s c.w 0x80000000 matches .missing _)),
    (caseOf (linked 0x40000000 1 0 wave0) id 0 (.ret (.s 4)), fun (c : Case) => (codeWord c.s c.w 0x40000000 matches .noPerm)),
    (caseOf (linked 0x1080 1 0 wave0) id 0 (.ret (.s 4)), fun (c : Case) => (codeWord c.s c.w 0x1080 matches .words _ _ _)),
    (caseOf (linked 0x1100 5 0 wave0) id 0 (.ret (.s 4)), fun _ => true),
    (caseOf (linked 0x1100 4 0 wave0) id 0 (.ret (.s 4)), fun (c : Case) => (codeWord c.s c.w 0x1100 matches .words _ _ _)),
    (caseOf (linked 0x1100 1 63 { wave0 with wbase := 63, lo := 63 }) id 0 (.ret (.s 4)), fun c => decide (c.w.wbase = 63))] :=
  meets _ (by decide +kernel)

/-- A wave with 16 sealed batches, none finished, whose operations count on flag 3. -/
def sealing (n : Nat) : Wave :=
  { wave0 with
    ops := (List.range n).map (fun k => { id := k, flag := 3, dests := [], dst := .none, kind := .engine [] 0 })
    flags := [0, 0, 0, n], sealed := (List.range n).map (fun k => [k]) }

theorem witness_Yields : Meets [
    (plain (.yieldon (.lit32 0x00000010) .z), fun _ => true), (plain (.yieldon (.lit32 0x10001000) .z), fun _ => true),
    (plain (.yieldon (.lit32 0x30000000) .z), fun _ => true), (plain (.yieldon (.lit32 0x0000000F) .z), fun c => decide (openSeals c.w ≤ 15)),
    (caseOf (sealing 16) id 0 (.yieldon (.lit32 0x0000000F) .z), fun c => decide (15 < openSeals c.w)),
    (caseOf (sealing 1) id 0 (.yieldon (.lit32 0x10000008) .z), fun c => decide (nth c.w.flags 3 0 = 1)),
    (caseOf (sealing 1) id 0 (.yieldon (.lit32 0x10000FF7) .z), fun _ => true),
    (plain (.yieldon (.lit32 0x20000000) .z), fun _ => true), (plain (.yieldon (.lit32 0x2FFFFFFF) .z), fun _ => true),
    (caseOf (withS wave0 4 (-17)) id 0 (.yieldon (.lit32 0x20000001) (.s 4)), fun _ => true),
    (caseOf (withS wave0 4 (-17)) id 0 (.yieldon (.lit32 0x20000000) (.s 4)), fun _ => true),
    (caseOf (sealing 15) id 0 (.cwait 15), fun c => decide (openSeals c.w = 15)),
    (caseOf (sealing 16) id 0 (.cwait 15), fun c => decide (15 < openSeals c.w)),
    (caseOf (sealing 15) id 0 (.cseal (.s 4)), fun c => decide (openSeals c.w < 16)),
    (caseOf (sealing 16) id 0 (.cseal .z), fun c => decide (16 ≤ openSeals c.w))] := meets _ (by decide +kernel)

/-- The block with barrier 3 at generation `g` and its member at `e`. -/
def barred (g e : Word) (s : State) : State :=
  { s with blocks := [(1, { block1 with barriers := [{}, {}, {}, { g := g, m := 1 }], members := [(10, { e := [0, 0, 0, e] })] })] }

theorem witness_Barriers : Meets (every [byLoose (.bar (.b 0)), byLoose (.barrive (.s 4) (.b 0)), byLoose (.bwait (.b 0) (.s 2)),
    caseOf wave0 (barred 5 5) 0 (.bar (.b 3)), caseOf wave0 (barred 0xFFFFFFFF 0) 0 (.bar (.b 3)),
    caseOf wave0 (barred 5 6) 0 (.barrive .z (.b 3)), caseOf wave0 (barred 5 7) 0 (.bar (.b 3)),
    caseOf wave0 (barred 5 7) 0 (.barrive (.s 4) (.b 3)), caseOf wave0 (barred 5 6) 0 (.bwait (.b 3) (.lit32 6)),
    caseOf wave0 (barred 5 6) 0 (.bwait (.b 3) (.lit32 5)), caseOf wave0 (barred 5 6) 0 (.bwait (.b 3) (.lit32 4))]) :=
  meets _ (by decide +kernel)

theorem witness_Membership : Meets [
    (byLoose (.grow (.s 4) (.lit32 1) (.s 2)), fun c => c.w.block.isNone), (byLoose (.detach .z), fun c => c.w.block.isNone),
    (plain (.attach (.s 4) (.lit32 0)), fun c => c.w.block.isSome), (plain (.grow (.s 4) (.lit32 0) (.s 2)), fun _ => true),
    (plain (.grow (.s 4) (.lit32 0x41) (.s 2)), fun _ => true), (plain (.grow (.s 4) (.lit32 0x201) (.s 2)), fun _ => true),
    (caseOf (withS wave0 4 (-17)) id 0 (.grow .z (.lit32 63) (.s 4)), fun _ => true),
    (caseOf (withS wave0 4 (-17)) id 0 (.grow (.s 5) (.lit32 0x101) (.s 4)), fun _ => true),
    (byLoose (.attach (.s 4) (.lit32 0xFFFFFFFF)), fun c => c.w.block.isNone), (plain (.detach .z), fun _ => true),
    (plain (.detach (.lit32 1)), fun _ => true), (plain (.detach (.lit32 2)), fun _ => true), (plain .endWave, fun _ => true)] :=
  meets _ (by decide +kernel)

/-! ### Witnesses: scratchpad and global memory -/

/-- No lane, a misaligned offset, one past the end, the last word; under a 64-bit type the last pair. -/
theorem witness_ScratchpadLoads : Meets (every [byLoose (.lds (.v 1) (.s 2)), byLoose (.ldlk (.v 1) (.s 2)), byLoose (.ldsl (.v 1) (.s 4) (.v 2)),
    unguarded (.lds (.v 1) (.s 2)), unguarded (.ldlk (.v 1) (.s 2)), unguarded (.ldsl (.v 1) (.s 4) (.v 2)),
    caseOf (withS wave0 4 2) id 0 (.lds (.v 1) (.s 4)), caseOf (withS wave0 4 0x1000) id 0 (.lds (.v 1) (.s 4)),
    caseOf (withS wave0 4 0xFFC) id 0 (.lds (.v 1) (.s 4)), caseOf (withS wave0 4 0xFF8) id 0xC00000 (.lds (.v 2) (.s 4)),
    caseOf (withS wave0 4 0xFF4) id 0xC00000 (.ldlk (.v 2) (.s 4)), caseOf (withS wave0 4 0xFFC) id 0 (.ldlk .z (.s 4)),
    plain (.ldsl (.v 1) (.s 4) (.v 2)), caseOf (withS wave0 4 7) id 0 (.ldsl (.v 1) (.s 4) (.v 2)), caseOf (withS wave0 4 7) id noLanes (.ldsl (.v 1) (.s 4) (.v 2))]) := meets _ (by decide +kernel)

theorem witness_ScratchpadStores : Meets (every [byLoose (.sts (.s 2) (.v 1)), byLoose (.stul (.p 1) (.s 2) (.v 1)),
    byLoose (.stsl (.v 1) (.s 4) (.v 2)), unguarded (.sts (.s 2) (.v 1)), unguarded (.stul .z (.s 2) (.v 1)),
    unguarded (.stsl (.v 1) (.s 4) (.v 2)), caseOf (withS wave0 4 2) id 0 (.sts (.s 4) (.v 1)),
    caseOf (withS wave0 4 0x1000) id 0 (.stul (.p 1) (.s 4) (.v 1)), caseOf (withS wave0 4 0xFFC) id 0 (.sts (.s 4) (.lit32 7)),
    caseOf (withS wave0 4 0xFF8) id 0xC00000 (.stul (.p 1) (.s 4) (.v 2)), plain (.stsl (.lit32 1) (.s 4) (.v 2)),
    caseOf (withS wave0 4 7) id 0 (.stsl (.v 1) (.s 4) (.v 2)), caseOf (withS wave0 4 7) id noLanes (.stsl (.v 1) (.s 4) (.v 2))]) := meets _ (by decide +kernel)

/-- The omode with semantics ar, the scratchpad and global sets, at device scope, under which atomics order (R225). -/
def ordered (c : Case) (o : Byte) : Case := c.re { c.sp with omode := o }

theorem witness_ScratchpadAtomics : Meets ((every [plain (.sadd (.v 1) (.s 2) (.v 3)), plain (.smin (.v 1) (.s 2) (.v 3)), plain (.smax (.v 1) (.s 2) (.v 3)),
    plain (.sxchg (.v 1) (.s 2) (.v 3)), plain (.scas (.v 1) (.s 2) (.v 3)), plain (.sand (.v 1) (.s 2) (.v 3)), plain (.sor (.v 1) (.s 2) (.v 3)),
    plain (.sadd .z (.s 2) (.v 3)), byLoose (.sor .z (.s 2) (.v 3)), unguarded (.sand (.v 1) (.s 2) (.v 3)),
    caseOf (withS wave0 4 0x1000) id 0 (.sxchg (.v 1) (.s 4) (.v 3)), caseOf (withS wave0 4 1) id 0 (.smin .z (.s 4) (.v 3))]) ++
    [(ordered (plain (.sadd .z (.s 2) (.v 3))) 0xDB, fun c => (pointOf (acquireOf c.sp c.i) 1).isSome),
     (ordered (plain (.smax (.v 1) (.s 2) (.v 3))) 0xDB, fun c => (pointOf (acquireOf c.sp c.i) 1).isSome)]) :=
  meets _ (by decide +kernel)

/-- The agent of the wave, and the first failing step of each kind: alignment, lease, leaf, permission (an ingress page
has none here: the atomic outside region 0 and the store to a page without write), key, world. -/
theorem witness_AccessChecks :
    let g := agentOf wave0
    let s := (plain .nop).s
    let cause (s : State) (g : Agent) (k : Access) (ls : List (Nat × Nat)) : Option (Cause × Nat) :=
      (checkLanes s g k 4 ls).map (fun f => (f.cause, f.lane))
    let keyed := (s.mem.map (fun x => if x.1 = 0x20000 then (0x20000, 0x2F) else x) : List Host.Cell)
    let foreign := s.mem.filter (fun x => decide (x.1 < 0x20006)) ++ [((0x20006 : Nat), (0x10 : Byte))] ++
      s.mem.filter (fun x => decide (0x20006 < x.1))
    cause s g .load [(0, 0x2000), (1, 0x2002)] = some (.memAlign, 1) ∧
    cause s g .load [(0, 0x2000), (5, 0x9000)] = some (.leaseViolation, 5) ∧
    cause { s with mem := [] } g .load [(3, 0x2000)] = some (.dataFault, 3) ∧
    cause { s with mem := tables.map (fun x => if x.1 = 0x20000 then (0x20000, 0x0B) else x) } g .store [(0, 0x2000)] = some (.accessPerm, 0) ∧
    cause { s with mem := keyed } { g with pkr := 0x4 } .load [(0, 0x2000)] = some (.keyPerm, 0) ∧
    cause { s with mem := keyed } { g with pkr := 0x8 } .store [(0, 0x2000)] = some (.keyPerm, 0) ∧
    cause { s with mem := foreign } g .load [(0, 0x2000)] = some (.world, 0) ∧
    cause s g .load [(0, 0x2000), (63, 0x8FFC)] = none ∧ mget s.waves 10 = some (plain .nop).w := by decide +kernel

theorem witness_GlobalAccesses : Meets ([
    (unguarded (.ld (.v 1) (.s 0)), fun c => decide (c.act = 0)), (unguarded (.st (.s 0) (.v 1)), fun c => decide (c.act = 0)),
    (caseOf (withS wave0 0 0x2001) id 0 (.ld (.v 1) (.s 0)), fun c => (checkLanes c.s (agentOf c.w) .load 4 [(0, 0x2001)]).isSome),
    (caseOf (withS wave0 0 0xFFFF0000) id 0 (.strel (.s 0) (.v 1)), fun c => (checkLanes c.s (agentOf c.w) .store 4 [(0, 0xFFFF0000)]).isSome)] ++
    every [plain (.ld (.v 1) (.s 0)), plain (.ld (.s 4) (.s 0)), plain (.ld .z (.lit64 0x2000)), plain (.ldacq (.v 1) (.s 0)), plain (.st (.s 0) (.v 1)),
      plain (.strel (.lit64 0x2000) (.lane))]) := meets _ (by decide +kernel)

theorem witness_GlobalAtomics : Meets (every [plain (.gadd (.v 1) (.s 0) (.v 3)), plain (.gmin (.v 1) (.s 0) (.v 3)), plain (.gmax (.s 4) (.s 0) (.s 2)),
    plain (.gxchg (.v 1) (.s 0) (.v 3)), plain (.gcas (.v 1) (.s 0) (.v 3)), plain (.gand (.v 1) (.s 0) (.v 3)), plain (.gor .z (.s 0) (.v 3)),
    unguarded (.gor .z (.s 0) (.v 3)), caseOf (withS wave0 0 0x2001) id 0 (.gadd (.v 1) (.s 0) (.v 3))] ++
    [(ordered (plain (.gadd .z (.s 0) (.v 3))) 0xDB, fun c => (pointOf (acquireOf c.sp c.i) 2).isSome),
     (ordered (plain (.gadd (.v 1) (.s 0) (.v 3))) 0xDB, fun c => (pointOf (acquireOf c.sp c.i) 2).isSome)]) := meets _ (by decide +kernel)

theorem witness_Fences : Meets (every [plain (.fence 0x13), plain (.fence 0x53), plain (.fence 0x93), plain (.fence 0xD3), plain .icsync]) :=
  meets _ (by decide +kernel)

/-- An open window of context 3 at 0x2000 whose committed number is 7. -/
def windowed (s : State) : State :=
  { s with parts := [(0, { part0 with windows := [⟨3, 0x2000, 0x20000, 0, 12, 4, 0, 0, [], 7, [], [], 0, true⟩] })] }

theorem witness_WindowWaits : Meets [
    (plain (.wseq (.s 4) (.s 0) (.lit64 1)), fun c => (partOf c.s 0).windows.isEmpty),
    (caseOf wave0 windowed 0 (.wseq (.s 4) (.s 0) (.lit64 8)), fun c => !(partOf c.s 0).windows.isEmpty),
    (caseOf wave0 windowed 0 (.wseq .z (.s 0) (.lit64 7)), fun c => !(partOf c.s 0).windows.isEmpty)] := meets _ (by decide +kernel)

/-! ### Witnesses: matrix state, engines, cohorts, decks, grids -/

theorem witness_MatrixState : Meets (every [byLoose (.tcfg (.t 0) (.s 2)), byLoose (.twin (.t 0) (.s 2)), byLoose (.accz (.acc 0)),
    byLoose (.hist (.v 1)), byLoose .hclr, byLoose (.hscale (.s 4) (.s 2)), plain (.tcfg (.t 15) (.lit32 0x01F01001)),
    plain (.tcfg (.t 0) (.lit32 0x02001001)), plain (.tcfg (.t 0) (.lit32 0x00000100)), plain (.tcfg (.t 0) (.lit32 0x00001101)),
    plain (.tcfg (.t 0) (.lit32 0x00090101)), plain (.twin (.t 0) (.lit32 0x3FFFFF)), plain (.twin (.t 0) (.lit32 0x400000)),
    plain (.accz (.acc 1)), plain (.accz (.acc 2)), plain (.hist (.v 1)), unguarded (.hist (.s 2)), plain .hclr,
    plain (.hscale (.s 4) (.lit32 0x30400)), plain (.hscale (.s 4) (.lit32 0x80001)), plain (.hscale (.s 4) (.lit32 0x30401)),
    plain (.hscale (.s 4) (.lit32 0x20001)), unguarded (.hscale (.s 4) (.lit32 0x30001))]) := meets _ (by decide +kernel)

/-- The grid with an invalid format slot 0 (R61). -/
def badSlot (s : State) : State := { s with grids := [(2, { grid2 with launch := { grid2.launch with slots := [0xC0000000] } })] }

theorem witness_AccumulatorAccess : Meets (every [byLoose (.accrd (.v 1) (.acc 0) (.lit32 0)), byLoose (.accwr (.acc 0) (.v 1) (.lit32 0)),
    plain (.accrd (.v 1) (.acc 1) (.lit32 0x09403F00)), plain (.accrd (.v 1) (.acc 0) (.lit32 0x00410000)),
    plain (.accrd (.v 1) (.acc 0) (.lit32 0x10000000)), caseOf wave0 badSlot 0 (.accrd (.v 1) (.acc 0) (.lit32 0)),
    plain (.accrd (.v 1) (.acc 2) (.lit32 0)), plain (.accrd (.v 1) (.acc 0) (.lit32 0x40)), plain (.accrd .z (.acc 0) (.lit32 0x30)),
    plain (.accwr (.acc 0) (.v 1) (.lit32 0)), plain (.accwr (.acc 0) (.s 2) (.lit32 0x10)), plain (.accwr (.acc 0) (.v 1) (.lit32 0x01000000)),
    caseOf wave0 badSlot 0 (.accwr (.acc 0) (.v 1) (.lit32 0)), plain (.accwr (.acc 2) (.v 1) (.lit32 0))]) := meets _ (by decide +kernel)

/-- The block with `tconf0` and `tconf1`. -/
def tiled (a b : Word) (s : State) : State := { s with blocks := [(1, { block1 with tconf := [(0, a), (1, b)] })] }

theorem witness_Quantising : Meets (every [byLoose (.qcvt (.t 0) (.v 1) 3 0), plain (.qcvt (.t 0) (.v 1) 3 0),
    caseOf wave0 (tiled 0x00060301 0) 0 (.qcvt (.t 0) (.v 1) 3 0), caseOf wave0 (tiled 0x00060201 0) 0 (.qcvt (.t 0) (.v 1) 3 0),
    caseOf wave0 (tiled 0x00050301 0) 0 (.qcvt (.t 0) (.v 1) 3 0), caseOf wave0 (badSlot ∘ tiled 0x00060301 0) 0 (.qcvt (.t 0) (.v 1) 3 0),
    caseOf (withS wave0 3 0xFF) (tiled 0x00060301 0) 0 (.qcvt (.t 0) (.v 1) 3 0),
    caseOf (withS wave0 3 0x7F00) (tiled 0x00060380 0) 0 (.qcvt (.t 0) (.v 1) 3 0)]) := meets _ (by decide +kernel)

/-- A wave whose `p0` guards lane 0 alone, with a mode that uses it. -/
def oneLane (f : State → State) (i : Instr) : Case := caseOf { wave0 with p := [{ bits := 1 }] } f 0x020000 i
/-- Every queue of core 0 full of requests of block 1. -/
def fullQueues (s : State) : State :=
  { s with cores := [(0, { queues := List.replicate 7 { issued := (List.range 64).map (fun k => (k, some 1)) } })] }
/-- The block as the dummy of a pair (R252). -/
def asDummy (s : State) : State := { s with blocks := [(1, { block1 with kind := .dummy })] }

theorem witness_Multiplies : Meets ([
    (oneLane (tiled 0x101 0x101) (.mma 0 (.acc 0) (.t 0) (.t 1)), fun c => decide ((lanesOf c.act).length = 1) && queueRoom c.s c.w 4),
    (oneLane (tiled 0x101 0x101) (.mmaw 0 (.acc 1) (.t 0) (.t 1)), fun c => queueRoom c.s c.w 4),
    (oneLane (fullQueues ∘ tiled 0x101 0x101) (.mma 0 (.acc 0) (.t 0) (.t 1)), fun c => !queueRoom c.s c.w 4)] ++
    every [byLoose (.mma 0 (.acc 0) (.t 0) (.t 1)), byLoose (.mmaw 7 (.acc 0) (.t 0) (.t 1)), unguarded (.mma 0 (.acc 0) (.t 0) (.t 1)),
      plain (.mma 0 (.acc 0) (.t 0) (.t 1)), oneLane asDummy (.mma 0 (.acc 0) (.t 0) (.t 1)),
      oneLane badSlot (.mma 0 (.acc 0) (.t 0) (.t 1)), oneLane id (.mma 0 (.acc 2) (.t 0) (.t 1)), oneLane id (.mma 0 (.acc 0) (.t 0) (.t 1)),
      oneLane (tiled 0x101 0) (.mma 0 (.acc 0) (.t 0) (.t 1)), oneLane (tiled 0x141 0x101) (.mma 0 (.acc 0) (.t 0) (.t 1)),
      oneLane (tiled 0x101 0x201) (.mma 0 (.acc 0) (.t 0) (.t 1)), oneLane (tiled 0x140 0x101) (.mma 0 (.acc 0) (.t 0) (.t 1))]) :=
  meets _ (by decide +kernel)

def eleven : MElem := { v := .fin false 11 (-1) }
def half : MElem := { v := .fin true 1 (-1) }
def nan1 : MElem := { v := .nan false 0 }
/-- The largest and the least fixed96 number. -/
def top96 : AccElem := { bits := BitVec.ofNat 96 (2 ^ 95 - 1) }
def low96 : AccElem := { bits := BitVec.ofNat 96 (2 ^ 95) }

/-- Rows of one product, -11/4, in fixed96 with P = 0: the floor is -3 and the lost indicator is set; the extremes saturate. In
float96 a sum is exact, and a NaN factor gives a NaN. -/
theorem witness_Multiplies_product :
    AllFinite [eleven] ∧ AllFinite [half] ∧ exactDot [eleven] [half] = -11 / 4 ∧ ⌊exactDot [eleven] [half] * 2 ^ fsP 0⌋ = -3 ∧
    low96.bits.toInt + -3 < -2 ^ 95 ∧ exactDot [eleven] [eleven] = 121 / 4 ∧ ⌊exactDot [eleven] [eleven] * 2 ^ fsP 0⌋ = 30 ∧
    2 ^ 95 - 1 < top96.bits.toInt + 30 ∧ fsFloat 0 = false ∧ fsFloat 0x100 = true ∧
    fdecode f96 (({} : AccElem).bits.toNat) = .fin false 0 (-16462) ∧
    exactOf (.fin true 11 (-2)) = exactOf (.fin false 0 (-16462)) + exactDot [eleven] [half] ∧
    (∃ y ∈ [nan1].zip [half], ∃ n f, y.1.v = .nan n f) := by
  have d1 : exactDot [eleven] [half] = -11 / 4 := by simp [exactDot, exactOf, eleven, half]; norm_num
  have d2 : exactDot [eleven] [eleven] = 121 / 4 := by simp [exactDot, exactOf, eleven]; norm_num
  have p0 : fsP 0 = 0 := by decide
  refine ⟨?_, ?_, d1, ?_, by decide, d2, ?_, by decide, by decide, by decide, by decide +kernel, ?_, ?_⟩
  · intro y m
    rw [List.mem_singleton.mp m]
    exact ⟨rfl, false, 11, -1, rfl⟩
  · intro y m
    rw [List.mem_singleton.mp m]
    exact ⟨rfl, true, 1, -1, rfl⟩
  · rw [d1, p0, Int.floor_eq_iff]; norm_num
  · rw [d2, p0, Int.floor_eq_iff]; norm_num
  · rw [d1]; simp [exactOf]; norm_num
  · exact ⟨(nan1, half), List.mem_singleton.mpr rfl, false, 0, rfl⟩

/-- A request in `s4` to `s11` of 0 bytes at address 0 with the plain layout. -/
def requesting : Wave := withS wave0 8 0

theorem witness_Copies : Meets ([
    (caseOf requesting id 0 (.cpin (.q 3) (.s 4)), fun c => queueRoom c.s c.w 3), (caseOf requesting id 0 (.cpout (.q 0) (.s 4)), fun c => queueRoom c.s c.w 0),
    (caseOf requesting fullQueues 0 (.cpin (.q 0) (.s 4)), fun c => !queueRoom c.s c.w 0),
    (plain (.gath (.s 4) (.s 0) (.lit32 0)), fun c => queueRoom c.s c.w 6),
    (caseOf wave0 fullQueues 0 (.gath (.s 4) (.s 0) (.lit32 0)), fun c => !queueRoom c.s c.w 6)] ++
    every [byLoose (.cpin (.q 0) (.s 4)), byLoose (.gath (.s 4) (.s 0) (.s 2)), caseOf (withS requesting 5 0x20000) id 0 (.cpin (.q 0) (.s 4)),
      caseOf (withS requesting 11 0x4000000) id 0 (.cpin (.q 0) (.s 4)), caseOf (withS requesting 8 7) id 0 (.cpout (.q 0) (.s 4)),
      caseOf (withS requesting 4 32) id 0 (.cpin (.q 0) (.s 4)), unguarded (.gath (.s 4) (.s 0) (.lit32 0)),
      plain (.gath (.s 4) (.s 0) (.lit32 4)), caseOf (withS wave0 4 1) id 0 (.gath (.s 4) (.s 0) (.lit32 1)),
      caseOf (withS wave0 4 4033) id 0 (.gath (.s 4) (.s 0) (.lit32 0)), caseOf (withS wave0 4 4032) id 0 (.gath (.s 4) (.s 0) (.lit32 0)),
      caseOf (withS wave0 0 1) id 0 (.gath (.s 4) (.s 0) (.lit32 1))]) := meets _ (by decide +kernel)

/-- The block with an open collective of queue 0 that counts the waves `l`, supplied by the waves `m`. -/
def collecting (out : Bool) (l m : List Nat) (s : State) : State :=
  let r : CopyReq := { desc := 0, coord := [], layout := [], stream := false, halo := false, length := 0 }
  { s with blocks := [(1, { block1 with collectives := [(0, { id := 50, out := out, count := l.length, counted := l, slices := m.map (fun u => (0, u, 0, r)) })] })] }

theorem witness_BlockCopies : Meets ([
    (caseOf requesting id 0 (.bcpin (.q 0) (.s 4)), fun c => queueRoom c.s c.w 0 && (mget (blockOf c.s 1).collectives 0).isNone),
    (caseOf requesting fullQueues 0 (.bcpout (.q 0) (.s 4)), fun c => !queueRoom c.s c.w 0)] ++
    every [byLoose (.bcpin (.q 0) (.s 4)), byLoose (.bcpout (.q 0) (.s 4)), caseOf (withS requesting 5 0x20000) id 0 (.bcpin (.q 0) (.s 4)),
      caseOf requesting (collecting false [10] [10]) 0 (.bcpin (.q 0) (.s 4)), caseOf requesting (collecting false [11] []) 0 (.bcpin (.q 0) (.s 4)),
      caseOf requesting (collecting true [10] []) 0 (.bcpin (.q 0) (.s 4)), caseOf requesting (collecting true [10, 11] []) 0 (.bcpout (.q 0) (.s 4)),
      caseOf requesting (collecting false [10] []) 0 (.bcpin (.q 0) (.s 4))]) := meets _ (by decide +kernel)

theorem witness_QueueFences : Meets [
    (byLoose (.qfence 1), fun c => c.w.block.isNone), (plain (.qfence 0x7F), fun c => (List.range 7).all (fun n => queueRoom c.s c.w n)),
    (caseOf wave0 fullQueues 0 (.qfence 0x40), fun c => !queueRoom c.s c.w 6), (plain (.cbar (.s 4) (.lit32 0)), fun _ => true),
    (plain (.cbar .z (.lit32 1)), fun _ => true)] := meets _ (by decide +kernel)

/-- The cohort with a pending contribution of block 1. -/
def contributing (drain : Bool) (s : State) : State :=
  { s with parts := [(0, { part0 with cohorts := [(0, { members := [0], pending := [{ entry := { id := 50, wave := 10, block := some 1, grid := 2, ctx := 3, pkr := 0, work := .drain 0 0 }, part := 0, cohort := 0, core := 0, drain := drain }] })] })] }

theorem witness_Contributions : Meets ([
    (plain (.mdrain (.acc 1) (.s 0) 3 0), fun c => !unformed c.s c.ctx true),
    (caseOf wave0 (contributing true) 0 (.mdrain (.acc 0) (.s 0) 3 0), fun c => unformed c.s c.ctx true),
    (plain (.cred (.v 4) (.v 1) (.lit32 0)), fun c => !unformed c.s c.ctx false),
    (caseOf wave0 (contributing false) 0 (.cred (.v 4) (.v 1) (.lit32 0x15200)), fun c => unformed c.s c.ctx false),
    (unguarded (.cred (.v 4) (.v 1) (.lit32 0xFFFFFFFF)), fun c => decide (c.act = 0))] ++
    every [byLoose (.mdrain (.acc 0) (.s 0) 3 0), caseOf (withS wave0 3 0x10000000) id 0 (.mdrain (.acc 0) (.s 0) 3 0),
      caseOf (withS wave0 3 0x00104000) id 0 (.mdrain (.acc 0) (.s 0) 3 0), caseOf (withS wave0 0 32) id 0 (.mdrain (.acc 0) (.s 0) 3 0),
      caseOf (withS wave0 3 0x4000) id 0 (.mdrain (.acc 0) (.s 0) 3 0), caseOf wave0 badSlot 0 (.mdrain (.acc 0) (.s 0) 3 0),
      plain (.mdrain (.acc 2) (.s 0) 3 0), caseOf (withS wave0 3 1) id 0 (.mdrain (.acc 0) (.s 0) 3 0),
      plain (.cred (.v 4) (.v 1) (.lit32 0x20000)), plain (.cred (.v 4) (.v 1) (.lit32 0x05500)), plain (.cred (.v 4) (.v 1) (.lit32 0x03000)),
      plain (.cred (.v 4) (.v 1) (.lit32 1)),
      plain (.cred (.v 4) (.v 2) (.lit32 0x3000))]) :=
  meets _ (by decide +kernel)

theorem witness_Decks : Meets ([
    (plain (.dput (.v 4) (.lit32 1)), fun c => decide ((lanesOf c.act).length = 64)),
    (caseOf { wave0 with v := [(2, { vals := [0, 0, 64] })] } id 0 (.dput (.v 4) (.v 2)), fun c => decide ((read32 c.ctx (.v 2) 2).val = 64)),
    (plain (.dput (.v 4) (.lit32 0)), fun c => decide (inFlight c.s 0 0 + (lanesOf c.act).length ≤ 4096)),
    (unguarded (.dput (.v 4) (.lit32 0)), fun c => decide (lanesOf c.act = [])),
    (caseOf wave0 (fun s => { s with parts := [(0, { part0 with decks := [(0, { cap := 20, flying := [(1, 0, List.replicate 4033 { words := [] })] })] })] }) 0
      (.dput (.v 4) (.lit32 0)), fun c => decide (inFlight c.s 0 0 + (lanesOf c.act).length = 4097)),
    (caseOf wave0 fullQueues 0 (.dtake (.p 1) (.v 4) (.lit32 0)), fun c => !queueRoom c.s c.w 6)] ++
    every [plain (.dtake (.p 1) (.v 4) (.lit32 63)), plain (.dtake (.p 1) (.v 4) (.lit32 0)), plain (.sdwait (.lit64 3)), plain (.sdwait (.lit64 1)),
      plain (.sdwait (.lit64 0))]) := meets _ (by decide +kernel)

theorem witness_GridLaunch : Meets ([
    (caseOf (withS wave0 6 255) id 0 (.launch (.s 4) (.lit64 0x8F00) (.s 6)), fun c => (checkLanes c.s (agentOf c.w) .load 64 [(0, 0x8F00), (0, 0x8FC0)]).isNone),
    (caseOf (withS wave0 6 0) id 0 (.launch (.s 4) (.lit64 0x8F40) (.s 6)), fun c => (checkLanes c.s (agentOf c.w) .load 64 [(0, 0x9000)]).isSome),
    (plain (.lwait (.s 4) (.lit32 1)), fun c => decide ((gridState c.s 0 1).1 = 1)), (plain (.lwait .z (.lit32 2)), fun c => decide ((gridState c.s 0 2).1 = 4)),
    (plain (.lstat (.s 4) (.lit32 1)), fun _ => true)] ++
    every [caseOf (withS wave0 6 256) id 0 (.launch (.s 4) (.lit64 0x3000) (.s 6)), plain (.launch (.s 4) (.lit64 0x3020) (.s 6)),
      unguarded (.lstat (.s 4) (.lit32 1))]) := meets _ (by decide +kernel)

theorem witness_ModeWords : Meets (every [plain (.mode 0xEFF3C0), plain (.omode 0x09), plain (.fence 0x13)]) ∧
    mustWait (plain (.fence 5)).s 10 (plain (.fence 5)).w (plain (.fence 5)).sp (.fence 5) = false ∧
    opcodeOf 0x02010013 = 0x02 ∧ (0x02010013 : Word).toNat / 2 ^ 8 % 2 ^ 16 ≠ 0 :=
  ⟨meets _ (by decide +kernel), by decide +kernel⟩

theorem witness_DivisionRule : Meets (every [plain (.div (.v 1) .lane (.s 2)), plain (.rem (.v 1) .lane .z)]) ∧
    divRem false true 8 0x80 0xFF = (0x80, 0, 0, 0) ∧ divRem true true 8 0x80 0xFF = (0x7F, 0, fSAT, fSAT) ∧
    divRem false true 8 0xF9 2 = (0xFD, 0xFF, 0, 0) ∧ divRem false false 8 7 0 = (0xFF, 7, fDIVZERO, fDIVZERO) :=
  ⟨meets _ (by decide +kernel), by decide +kernel⟩

/-! ### Witnesses: the moves of the device -/

def event1 : Event := { src := 0, seq := 0, time := 0, cause := .trap }
def store1 : List StoreLane := [{ lane := 0, addr := 0x2000, val := 5 }]

/-- Whether the older loads leave a write of effect 50 free to go. -/
def loadsLeave (s : State) (bytes : List (Nat × Byte)) : Bool :=
  match heldOf s 50 with
  | some h => let touch (a : Nat) : Bool := bytes.any (fun b => decide (b.1 = a))
    loadsTaken (waveOf (captureBefore (dropHeld s 50) h.wave h.id false touch) h.wave) h.id touch
  | none => false

theorem witness_HeldStores : Moves [
    (holding quiet (.sstore 4 [{ lane := 0, addr := 8, val := 5 }]), .holdbackRelease 50, fun s => isDue s &&
      spadMay s 1 (laneBytes 4 [{ lane := 0, addr := 8, val := 5 }]) (laneTags id [{ lane := 0, addr := 8, val := 5 }]) &&
      bankFree s (heldBy 10 (some 1) (.sstore 4 [{ lane := 0, addr := 8, val := 5 }]) none)),
    (holding quiet (.gstore 4 store1 none []), .holdbackRelease 50, fun s => isDue s && loadsLeave s (laneBytes 4 store1) && globalMay s (laneBytes 4 store1) (laneTags id store1) &&
      decide (homeDie (diesOf s 0) 0x2000 = 0)),
    (holding quiet (.vstore [(0x40000, 1)] [(0x2000, .clean)] []), .holdbackRelease 50, fun s => isDue s &&
      loadsLeave s [(0x40000, 1)] && globalMay s [(0x40000, 1)] (fun _ => .clean)),
    (holding quiet (.splitRecords 0 1), .holdbackRelease 50, isDue),
    (holding quiet (.grant 255 0xFF00000B 0), .holdbackRelease 50, fun s => isDue s && (mget s.grids 2).isSome),
    (holding (withGrid quiet { grid2 with grants := [(255, ⟨1, true, .spad, false⟩)] }) (.grant 255 0xFF000010 0), .holdbackRelease 50, isDue),
    (holding quiet (.relFence 3 7), .holdbackRelease 50, isDue), (holding quiet (.record 0 event1), .holdbackRelease 50, isDue),
    (holding quiet (.suspect 0), .holdbackRelease 50, isDue), (holding quiet (.kills 2 0 1 event1), .holdbackRelease 50, isDue),
    (holding quiet (.stop (some 1) 0 event1), .holdbackRelease 50, isDue),
    (holding (withWave quiet { loose with splits := [{}] }) (.stop none 0 event1), .holdbackRelease 50, isDue),
    (holding quiet (.stopSet (some 1) [] 3), .holdbackRelease 50, isDue)] := moves _ (by decide +kernel)

/-- The grid whose queue's head wants 129 waves: more than a core's slots (R92). -/
def pressed (s : State) : State :=
  withPart (withGrid s { grid2 with eligible := true, launch := { grid2.launch with waves := 129 } }) { part0 with queues := [(0, [2])] }
/-- The block with a second member. -/
def twoMembers : Block := { block1 with members := [(10, {}), (11, {})] }
def looseHere (s : State) : State := withWave s { loose with splits := [{}] }
/-- A split parked on a condition that held at cycle 990. -/
def parkedSplit (c : Cond) (ready : Option Nat) : Split := { park := some { cond := c, readyAt := ready } }

theorem witness_MembershipMoves : Moves [
    (holding quiet (.grow 3 false 0x1000 (some 4) [] [] []), .growPerform 50, isDue),
    (holding quiet (.grow 63 true 0x1000 none [] [] []), .growPerform 50, isDue),
    (holding (withBlock quiet { block1 with shrink := 1 }) (.grow 3 false 0x1000 (some 4) [] [] []), .growPerform 50, isDue),
    (holding (looseHere quiet) (.attach 7 (some 4)), .attachPerform 50, isDue),
    (holding (looseHere (withBlock quiet { block1 with shrink := 1 })) (.attach 0 (some 4)), .attachPerform 50, isDue),
    (holding (looseHere (withBlock quiet { block1 with maxWaves := 1 })) (.attach 0 (some 4)), .attachPerform 50, isDue),
    (holding (looseHere quiet) (.attach 0 none), .attachPerform 50, isDue),
    (holding quiet (.detach true), .detachPerform 50, isDue), (holding quiet (.detach false), .detachPerform 50, isDue),
    (holding quiet .finish, .endPerform 50, isDue), (holding quiet .dead, .deadWaveLeave 50, isDue),
    (holding (withWave quiet { wave0 with state := .faulted }) .dead, .deadWaveLeave 50, fun s => isDue s && waveIdle (dropHeld s 50) 10),
    (holding quiet (.arrive 3), .barrierArrive 50, fun s => isDue s && !joinsFirst (dropHeld s 50) 1),
    (holding (barred 5 6 quiet) (.arriveTo 3 (some 4)), .barrierArrive 50, fun s => isDue s && !joinsFirst (dropHeld s 50) 1),
    (holding quiet (.cohort 0), .cohortArrivalPerform 50, isDue),
    (pressed (withBlock quiet twoMembers), .shrinkRequestPost 1 1, fun s => pressure s 1),
    (withBlock quiet { block1 with shrink := 63 }, .shrinkRequestClear 1, fun s => !pressure s 1),
    (withBlock quiet { block1 with retired := true }, .blockRetire 1, fun s => (withPartner s 1).all (blockOver s)),
    (withWave quiet { wave0 with splits := [parkedSplit (.delay 990) (some 1000)] }, .parkedSplitWake 10 0, fun s =>
      (wakeable s (waveOf s 10) 0).isSome)] := moves _ (by decide +kernel)

def entry1 (w : Work) : Entry := { id := 60, wave := 10, block := some 1, grid := 2, ctx := 3, pkr := 0, work := w }
def contribution1 (drain left : Bool) : Contribution :=
  { entry := entry1 (.drain 0 0), part := 0, cohort := 0, core := 0, drain := drain, left := left }
def collective1 : Collective := { id := 60, out := false, count := 1, counted := [10], slices := [] }

theorem witness_UnitMoves : Moves [
    (holding quiet (.matrix (.tconf 15 0x101)), .matrixWritePerform 50, isDue), (holding quiet (.matrix (.twind 0 1)), .matrixWritePerform 50, isDue),
    (holding quiet (.matrix (.accClear 1)), .matrixWritePerform 50, isDue), (holding quiet (.matrix (.histAdd [255] .clean)), .matrixWritePerform 50, isDue),
    (holding quiet (.matrix .histClear), .matrixWritePerform 50, isDue),
    (holding quiet (.matrix (.tile [(8191, 1)] [])), .matrixWritePerform 50, fun s => isDue s && s.tags.isEmpty),
    (holding quiet (.matrix (.histAdd [7, 7] .clean)), .matrixWritePerform 50, isDue),
    (holding quiet (.matrix (.acc [(0, {})] 0)), .matrixWritePerform 50, fun s => isDue s && s.tags.isEmpty),
    (holding quiet (.matrix (.acc [(0, {}), (1, {})] 1)), .matrixWritePerform 50, fun s => isDue s && s.tags.isEmpty),
    (holding quiet (.matrix (.acc [(0, { bits := 1 })] 4)), .matrixWritePerform 50, fun s => isDue s && s.tags.isEmpty),
    (holding quiet (.pkrContext 5), .pkrContextUpdate 50, fun s => isDue s && (mget s.ctxs 3).isSome),
    (holding quiet (.watch [(3, ⟨0, 1, true, true, true, none⟩)] 1), .watchpointUpdate 50, isDue),
    (withGrid quiet { grid2 with grants := [(0, ⟨1, true, .spad, true⟩)] }, .grantEnd 2 0, fun s => s.cores.all (fun c => c.2.queues.isEmpty)),
    (holding quiet (.launch 0x3000 255 4), .launchPerform 50, isDue),
    (withPart quiet { part0 with decks := [(0, { cap := 8, flying := [(50, 0, List.replicate 256 { words := [] })] })] }, .deckAppend 50, fun s =>
      match groupAt s 50 with
      | some (_, _, d, die, l) => deckRoom d l.length && oldestGroup d 50 die
      | none => false),
    (holding quiet (.deckPut [(0, [])]), .deckAppend 50, fun s => isDue s && (groupAt s 50).isNone),
    (holding (withPart quiet { part0 with decks := [(0, { cap := 8, heldItems := 1 })] }) (.deckRelease [(0, 1)]), .deckHoldRelease 50, fun s =>
      isDue s && decide (partOfDie s 0 = some 0)),
    (withWave quiet { wave0 with splits := [parkedSplit (.decks 1 0 false) none] }, .showdownQuiescence 0 1, fun s =>
      waitsFor s 0 1 (waveOf s 10) && deckQuiet s 0 0),
    (holding quiet (.enter 6 (entry1 (.gather 1 0 []))), .engineRequestEnter 50, isDue),
    (holding quiet (.markers 0x7F 9), .engineRequestEnter 50, isDue),
    (holding (withPart quiet { part0 with cohorts := [(0, { members := [0], pending := [contribution1 true false] })] }) (.contribute 0 0 60),
      .engineRequestEnter 50, isDue),
    (holding (withBlock quiet { block1 with collectives := [(3, collective1)] }) (.collective 3 60), .collectiveEnter 50, isDue),
    (withPart quiet { part0 with rounds := [(0, { drain := true, items := [contribution1 true true] })] }, .roundForm 60, fun s =>
      (formedAt s 60).isSome && decide (placesTaken s 0 5 < Config.queueDepth)),
    (withPart quiet { part0 with cohorts := [(0, { members := [0], pending := [contribution1 false true] })] }, .roundForm 60, fun s =>
      (formedAt s 60).isNone && (pendingAt s 60).isSome)] := moves _ (by decide +kernel)

/-- The wave with operation 60 of flag 2. -/
def operating (k : OpKind) : Wave :=
  { wave0 with ops := [{ id := 60, flag := 2, dests := [], dst := .v 1, kind := k }], flags := [0, 0, 1] }
def flight1 (pos : Option Nat) : Flight :=
  { id := 70, bytes := [(0x2000, 7)], tag := .clean, whole := false, src := 0, seq := 1, clock := [], home := 0, pos := pos, todo := [1], homeAt := 1000,
    viewAt := [(1, 1000)] }
def atomLanes : List AtomLane := [{ lane := 0, addr := 0x100, b := { val := 3 } }]

theorem witness_MemoryMoves : Moves [
    (withWave quiet (operating (.result [(⟨0, 9, .clean⟩, 0)])), .longOpComplete 60, fun s => match ownerOf s 60 with
      | some (u, w, o) => (outcome w.live (takeLanes s u w o (fun _ => true))).isSome && decide (o.due ≤ s.now) && !seatStalled s w.core w.seat
      | none => false),
    (withWave quiet (operating (.gload [{ lane := 0, addr := 0x2000, moment := 1000 }])), .longOpComplete 60, fun s => match ownerOf s 60 with
      | some (u, w, o) => (outcome w.live (takeLanes s u w o (fun _ => true))).isSome
      | none => false),
    ({ quiet with flights := [(70, flight1 none)] }, .writeApplyHome 70, fun s => mayHome s (flight1 none) && homeMay s (flight1 none)),
    ({ quiet with flights := [(70, flight1 (some 0))] }, .writeApplyRemote 70 1, fun s => precededAt s (flight1 (some 0)) 1),
    ({ holding (withWave quiet (operating (.answered none 0 []))) (.gatomic 4 (.add false true) [{ lane := 0, addr := 0x2000, b := { val := 3 } }] none none false []) with
        held := [heldBy 10 (some 1) (.gatomic 4 (.add false true) [{ lane := 0, addr := 0x2000, b := { val := 3 } }] none none false []) (some 60)] },
      .atomicPerform 50, fun s => isDue s && loadsLeave s (addrBytes 0x2000 (toBytes 4 0))),
    ({ withWave quiet (operating (.answered none 0 [])) with held := [heldBy 10 (some 1) (.satomic 4 .xchg atomLanes none none false) (some 60)] },
      .spadAtomicPerform 50, fun s => isDue s && bankFree s (heldBy 10 (some 1) (.satomic 4 .xchg atomLanes none none false) (some 60))),
    ({ withWave quiet (operating (.locks [(0, 0x100)] [] [] [])) with held := [heldBy 10 (some 1) (.ldlk 4 [(0, 0x100)]) (some 60)] }, .ldlkPerform 50, fun s =>
      isDue s && bankFree s (heldBy 10 (some 1) (.ldlk 4 [(0, 0x100)]) (some 60))),
    (withCore (withWave quiet (operating (.locks [(0, 0x100)] [] [] []))) { locks := [(64, { waiting := [(10, 60, 0)] })] }, .lockWaitGrant 0 64, fun s =>
      decide (lockTodo (waveOf s 10) 60 ≠ [])),
    ({ withWave quiet (operating (.answered none 0 [])) with held := [heldBy 10 (some 1) (.stul 4 [{ lane := 0, addr := 0x100, val := 1 }]) (some 60)] },
      .stulPerform 50, fun s => isDue s && bankFree s (heldBy 10 (some 1) (.stul 4 [{ lane := 0, addr := 0x100, val := 1 }]) (some 60)) &&
        spadMay s 1 (laneBytes 4 [{ lane := 0, addr := 0x100, val := 1 }]) (laneTags id [{ lane := 0, addr := 0x100, val := 1 }])),
    ({ withCore quiet { locks := [(1023, { owner := some (10, 0), at_ := 1000 })] } with now := 5096 }, .lockExpiry 0 1023, fun s => decide (1000 + Config.lockLapse = s.now)),
    (quiet, .spadScrub 0 0, fun _ => true)] := moves _ (by decide +kernel)

def queued (q : Nat) (l : List Entry) : State :=
  withCore quiet { queues := List.replicate q {} ++ [{ entries := l }] }
def ready1 (w : Work) : Entry := { entry1 w with ready := 1000 }
def engineHeld (d : EngineDest) (cells : List (Nat × Byte)) : State :=
  { quiet with held := [{ heldBy 10 (some 1) (.engine 60 0 [{ dest := d, cells := cells }]) none with seat := none }] }
def releasing : Entry := { ready1 (.gather 1 0 []) with stage := .releasing, ops := [(10, 60)] }
/-- The pair of block 1, its partner block 9 on core 1 (R252). -/
def paired (s : State) : State :=
  { withGrid s { grid2 with launch := { grid2.launch with partnered := true } } with
    blocks := [(1, { block1 with partner := some 9, kind := .declarer }), (9, { block1 with core := 1, kind := .dummy, partner := some 1, members := [] })] }
def multiply : Entry := ready1 (.mma false 0 0 0 1 0x101 0x101 0)

/-- The pair, whose blocks hold the tile configurations 0x101 and `b`, with the dummy's array slaved. -/
def pairing (b : Word) : State :=
  let s := paired (queued 4 [multiply])
  { s with blocks := s.blocks.map (fun x => (x.1, { x.2 with tconf := [(1, if x.1 = 1 then 0x101 else b)] }))
           cores := s.cores ++ [(1, { array := { slaved := true } })] }
/-- One element of four bytes of a row of four at 0x4000, by the descriptor at 0x3000, to offset 0 of the scratchpad. -/
def request1 : CopyReq :=
  { desc := 0x3000, coord := [3], layout := [0x20000000, 0, 0], stream := false, halo := false, length := 4 }
def described (s : State) : State :=
  { s with mem := memWrite s.mem [(0x3001, 0x40), (0x3008, 4), (0x301C, 2), (0x3020, 1), (0x400C, 7)] }
def isOk (x : Except (Cause × Nat) Nat) : Bool :=
  match x with
  | .ok _ => true
  | .error _ => false
/-- Whether the descriptor and the element of `request1` are read or written without an error. -/
def copyFits (s : State) (out : Bool) : Bool :=
  let g := entryAgent s 0 (ready1 (.copy out [])) 0
  isOk (engineCheck s g .load 0x3000 64) && isOk (engineCheck s g (if out then .store else .load) 0x400C 4) &&
  (descOf ((entryBytes s 0 10 0 0x3000 64).map (·.1)) 4).any (fun d => decide (extents d false = [1, 1, 1, 1] ∧ d.size = [4, 1, 1, 1]))
/-- A drain round of one contribution, its root: two rows of column 0. -/
def rooted : Contribution := { contribution1 true true with ctl := 0x4000, dest := 0x4000, pitch := 2 }
def draining0 : Round := { drain := true, items := [rooted], due := 1000 }

theorem witness_EngineMoves : Moves [
    (queued 0 [ready1 (.copy false [])], .engineEntryPerform 0 0, fun s => !coreStalled s 0),
    (described (queued 0 [ready1 (.copy false [(10, request1)])]), .engineEntryPerform 0 0, fun s => copyFits s false),
    (described (queued 0 [ready1 (.copy true [(10, request1)])]), .engineEntryPerform 0 0, fun s => copyFits s true),
    (described (queued 0 [ready1 (.copy false [(10, { request1 with coord := [4] })])]), .engineEntryPerform 0 0, fun s => copyFits s false),
    (queued 6 [ready1 (.gather 1 0 [])], .engineEntryPerform 0 6, fun s => !coreStalled s 0),
    (queued 6 [ready1 (.gather 4 8 [(63, 0x4000)])], .engineEntryPerform 0 6, fun s =>
      isOk (engineCheck s (entryAgent s 0 (ready1 (.gather 4 8 [])) 0) .load 0x4000 4)),
    (queued 6 [ready1 (.take 0 1 4 [0])], .engineEntryPerform 0 6, fun s => !coreStalled s 0),
    (withPart (queued 5 [ready1 (.drain 0 0)]) { part0 with rounds := [(0, { drain := false, mismatch := true, items := [] })] }, .engineEntryPerform 0 5, fun s =>
      (roundOf s 0 0).any (·.mismatch)),
    (withPart (queued 5 [ready1 (.drain 0 0)]) { part0 with rounds := [(0, { drain := false, items := [contribution1 false true], due := 1000 })] }, .engineEntryPerform 0 5, fun s =>
      (roundOf s 0 0).any (fun r => decide (r.due ≤ s.now) && r.items.any (fun y => decide (y.entry.id = 60)))),
    (withPart (queued 5 [ready1 (.drain 0 0)]) { part0 with rounds := [(0, draining0)] }, .engineEntryPerform 0 5, fun s =>
      (roundOf s 0 0).any (fun r => decide (r.due ≤ s.now)) && decide ((drainPieces draining0 rooted).length = 256) && (drainPieces draining0 rooted).all (fun x =>
        isOk (engineCheck s (entryAgent s 0 (ready1 (.drain 0 0)) 0) .store x.1 x.2.1.length))),
    (queued 4 [multiply], .engineEntryPerform 0 4, fun s => mmaMay s 0 multiply && (productShape 0 0x101 0 false).isSome),
    (pairing 0, .engineEntryPerform 0 4, fun s => mmaMay s 0 multiply && decide (partnerOf s 1 = some 9)),
    (pairing 0x101, .engineEntryPerform 0 4, fun s => mmaMay s 0 multiply && decide (partnerOf s 1 = some 9)),
    (engineHeld (.spad 1) [(0, 1)], .engineWriteRelease 50, fun s => (heldOf s 50).any (matched s) && engineMay s { dest := .spad 1, cells := [(0, 1)] } .clean),
    (engineHeld (.tile 1) [(8191, 1)], .engineWriteRelease 50, fun s => (heldOf s 50).any (matched s) && engineMay s { dest := .tile 1, cells := [(8191, 1)] } .clean),
    (engineHeld (.acc 1) [(0, 1)], .engineWriteRelease 50, fun s => (heldOf s 50).any (matched s) && engineMay s { dest := .acc 1, cells := [(0, 1)] } .clean),
    (engineHeld (.window 10 0) [(0, 1)], .engineWriteRelease 50, fun s => (heldOf s 50).any (matched s) && engineMay s { dest := .window 10 0, cells := [(0, 1)] } .clean),
    (engineHeld .memory [(0x2000, 1)], .engineWriteRelease 50, fun s => (heldOf s 50).any (matched s) && engineMay s { dest := .memory, cells := [(0x2000, 1)] } .clean),
    (withWave (queued 6 [releasing]) (operating (.engine [] 0)), .engineEntryComplete 0 6, fun s => entryDone s releasing && !seatStalled s 0 0),
    (queued 0 [ready1 (.marker 9)], .qfenceComplete 9, fun s => decide (markedQueues (coreOf s 0) 9 = [0])),
    (paired (queued 4 [multiply]), .arrayGrant 1, fun s => mmaReady s multiply && decide (partnerOf s 1 = some 9) && (coreOf s 1).array.busy.isNone),
    (withCore quiet { queues := List.replicate 4 {} ++ [{ entries := [multiply] }], array := { busy := some 60, until_ := 1000 } }, .arrayOpFinish 0, fun s =>
      decide (qmHead s 0 = some multiply))] := moves _ (by decide +kernel)

/-- A wave whose split must fetch at an address. -/
def fetching (va : Nat) (back : Option Nat) : Wave := { wave0 with splits := [{ pc := va, resume := back }] }
def suspended (page : Nat) : Wave := { wave0 with splits := [{ pc := 0x1000 }], fetch := some { seq := 4, page := page } }
/-- The wave whose request has been answered. -/
def answered1 : Wave := { suspended 0 with fetch := some { seq := 4, page := 0, filed := true } }
def tired : Wave := { wave0 with wdog := 2 ^ 26, splits := [at_ 0 .nop] }
/-- A grid at the head of queue 0 with one block to place. -/
def waitingGrid : Grid := { grid2 with state := 0, eligible := true, launch := { grid2.launch with leases := [(0x10000, 0x10000)] } }
def launching (s : State) : State := withPart (withGrid { s with blocks := [], waves := [] } waitingGrid) { part0 with queues := [(0, [2])] }
def stoppingBlock (d : Drain) : Block := { block1 with preempt := some { drain := d, reason := 1 } }
def writtenBlock : Block := { block1 with preempt := some { drain := .writing, reason := 1, image := some (70, 0x100000, 64) } }
def image1 : Image :=
  { ctx := 3, record := 0x100040, body := 0x100000, bytes := 64, seq := 0, block := writtenBlock, waves := [], reason := 1, need := 64, crc := 0, stable := [] }

theorem witness_PlacementMoves : Moves [
    (withWave quiet (fetching 0x1000 none), .clauseFetch 10 0, fun s => (fetchClause s (waveOf s 10) 0x1000 matches .clause _ _) && mustFetch s (waveOf s 10) { pc := 0x1000 }),
    (withWave quiet (fetching 0x1080 none), .clauseFetch 10 0, fun s => (fetchClause s (waveOf s 10) 0x1080 matches .clause _ _)),
    (withWave quiet (fetching 0x40000000 none), .clauseFetch 10 0, fun s => (fetchClause s (waveOf s 10) 0x40000000 matches .noPerm _)),
    (withWave quiet (fetching 0x80000000 none), .clauseFetch 10 0, fun s => (fetchClause s (waveOf s 10) 0x80000000 matches .missing _ _)),
    (withWave quiet answered1, .waveResumeFetch 10, fun s => pageBack s (waveOf s 10)),
    (withWave quiet tired, .watchdogExpiry 10, fun s => watchdogDue s 10 (waveOf s 10) (at_ 0 .nop) .nop),
    (launching quiet, .placementEvent 0, fun s => decide ((lowestQueues s (readyQueues s 0)).length = 1) && (returning s 0).isEmpty),
    (withPart (withGrid quiet { waitingGrid with eligible := false }) { part0 with queues := [(0, [2])] }, .gridEligible 2 none, fun s =>
      (leasedPages (gridOf s 2)).all (fun va => pageValid s 3 va)),
    (withPart (withGrid quiet { waitingGrid with eligible := false, launch := { grid2.launch with leases := [(0x80000000, 1)] } }) { part0 with queues := [(0, [2])] },
      .gridEligible 2 (some 0x80000000), fun s => !pageValid s 3 0x80000000),
    (withWave quiet (suspended 0x8000), .textPageInstall 4 none, fun s => waitsText (waveOf s 10) 4),
    (withWave quiet (suspended 0x8000), .textPageInstall 4 (some 0x8000080F), fun s => waitsText (waveOf s 10) 4),
    (quiet, .textPageInstall 4 (some 1), fun s => !waitsText (waveOf s 10) 4),
    (quiet, .preemptRequest 1 1, fun s => preemptable s 1), (quiet, .preemptRequest 1 2, fun s => preemptable s 1),
    (withPart (withWave { quiet with grids := [(2, grid2), (5, { waitingGrid with launch := { grid2.launch with waves := 129 } })] }
        { wave0 with splits := [parkedSplit (.delay 5000) none] }) { part0 with queues := [(0, [5])] }, .saveOut 1, fun s => decide (saveOutChoice s 0 = some 1)),
    (withBlock quiet (stoppingBlock .stopping), .preemptDraining 1, fun s => s.waves.all (fun x => x.2.splits.all (fun y => y.trump.isNone))),
    (contributing false (withBlock quiet (stoppingBlock .draining)), .preemptWriting 1, fun s => holdsUnformed s 1 && !unitOver s 1),
    (withGrid (withBlock quiet (stoppingBlock .draining)) { grid2 with launch := { grid2.launch with idempotent := true } }, .preemptWriting 1, fun s =>
      !holdsUnformed s 1 && !unitOver s 1 && !mapBusy s 1 && blockIdle s 1 && (withPartner s 1).all (fun j => drains s j .draining)),
    (withBlock quiet writtenBlock, .preemptSaved 1, fun s => (withPartner s 1).all (bodyWritten s)),
    (withGrid { quiet with blocks := [], waves := [] } { grid2 with again := [0] }, .restorePlacement 0, fun s =>
      ((returning s 0).map (fun x => x.2.1) == [false]) && (againPlace s (gridOf s 2)).isSome),
    ({ quiet with blocks := [], waves := [], images := [(70, { image1 with launched := true })] }, .restorePlacement 0, fun s =>
      ((returning s 0).map (fun x => x.2.1) == [true]) && (returnPlace s (imageUnit s 70)).isSome)] := moves _ (by decide +kernel)

/-- Whether an image's body has room depends on its length, which the spec leaves open: a save area of no bytes has none, one as
long as the body and its record has. -/
theorem witness_PlacementMoves_room :
    saveRoom (withBlock quiet (stoppingBlock .draining)) 3 (bodyBytes 100) = none ∧
    saveRoom { State.reset with ctxs := [(3, { saveLen := bodyBytes 100 + 64 })] } 3 (bodyBytes 100) = some 0 := by
  generalize bodyBytes 100 = n
  refine ⟨?_, ?_⟩
  · simp [saveRoom, ctxOf, mgetD, mget, withBlock, quiet, plain, caseOf, bench]
  · simp [saveRoom, ctxOf, mgetD, mget, areaHeld, State.reset]

/-- A region of one `add` in clause form, one that moves 5 instead, an entry for it, a snapshot of it, a trial. -/
def region1 : List Word := 0xFC000000 :: encode (.add (.v 1) (.v 2) (.s 2))
def region5 : List Word := 0xFC000001 :: encode (.mov (.v 1) (.lit32 5))
def entryT (st : TrumpState) (cand : List Word) : TrumpEntry :=
  { state := st, region := 0x1000, original := region1, candidate := cand, omode := 0x13, unresolved := 1 }
def snap1 : Snapshot := { region := 0x1000, wave := wave0, split := {} }
def withEntry (s : State) (e : TrumpEntry) : State := { s with dies := [(0, { trump := [e], samples := List.replicate 64 snap1 })] }
def trying (st : TrumpState) (cand : List Word) : State :=
  { quiet with dies := [(0, { trump := [entryT st cand], trials := [{ id := 80, die := 0, entry := 0, snap := snap1, done := true }] })] }
/-- The snapshot with the registers that the original leaves. -/
def tag1 : ProvTag :=
  { part := 0, die := 0, entry := 0, snap := { snap1 with outs := (snapRun quiet snap1 region1).w }, issued := 0 }
/-- The machine in which search context 0 of seat 0 has run `words` on the snapshot. -/
def searched (audit : Bool) (n : Nat) (words : List Word) (s : State) : State :=
  withCore s { seats := [{ search := [some { audit := audit, id := n, wave := (snapRun s snap1 words).w, words := [] }, none] }] }
def tagged (cand : List Word) (r : ProvTag) : State := { withEntry quiet (entryT .promoted cand) with tags := [(6, r)] }
def stopped : State := withWave quiet { wave0 with state := .debug, splits := [{}] }
def trialOf (s : State) (n : Nat) : Option Trial := firstSome (fun d => d.2.trials.find? (fun t => decide (t.id = n))) s.dies

theorem witness_DeviceMoves : Moves [
    (quiet, .strikeReport 0 (some 7), fun _ => realCore 0), (quiet, .strikeReport 35 none, fun _ => realCore 35),
    (withCore quiet { coreOf State.reset 0 with rbk := BitVec.allOnes 32 }, .strikeReport 0 (some 0), fun s =>
      realCore 0 && decide ((coreOf s 0).rbk = BitVec.allOnes 32)),
    (withCore quiet { stall := some 1000 }, .rollbackResume 0 none, fun s => decide ((stallOf s 0 none).1 = some s.now)),
    (withCore quiet { health := .suspect, healthAt := 2 ^ 24 }, .healthRecover 0, fun s => decide ((coreOf s 0).health = .suspect)),
    (withCore quiet { health := .quarantined }, .marginPlan [0, 35], fun _ => realCore 35), (quiet, .marginPlan [], fun _ => true),
    (withCore quiet { rbk := 3, corrected := 2 }, .coreReset 0, fun _ => realCore 0),
    ({ withCore quiet { hot := [(0x1000, 9)] } with now := 2 ^ 20 }, .hotnessHalve, fun s => decide ((dieOf s 0).hotAt < s.now / 2 ^ 20)),
    (withEntry quiet (entryT .candidate []), .candidateInstall 0 0 region1 [(2, 64)], fun s =>
      let e := entryT .candidate []
      let is := originalIns e
      let cs := match parseRegion 40 region1 0 15 with
        | some (items, 0) => regionIns items
        | _ => []
      decide (cs ≠ [] ∧ entryOf s 0 0 = e ∧ partOfDie s 0 = some 0) && (partOf s 0).trump && cs.all (candidateIns e.mode) &&
        decide (issueCost e.mode cs ≤ issueCost e.mode is)),
    ({ withEntry quiet (entryT .candidate []) with now := 2 ^ 24 }, .candidateExpiry 0 0, fun s => decide ((entryOf s 0 0).at_ + 2 ^ 24 ≤ s.now)),
    (searched false 80 region1 (trying .probation region1), .probationCompare 80, fun s => (trialOf s 80).isSome &&
      (searchDone s 0 false 80).any (fun o => decide (trialAgrees s (entryOf s 0 0) snap1 o = some true))),
    (searched false 80 region5 (trying .probation region5), .probationCompare 80, fun s => (trialOf s 80).isSome &&
      (searchDone s 0 false 80).any (fun o => decide (trialAgrees s (entryOf s 0 0) snap1 o = some false))),
    (searched true 6 region1 (tagged region1 tag1), .auditComplete 6, fun s => !tagRuns s 6 &&
      (searchDone s 0 true 6).any (fun o => auditAgrees s (entryOf s 0 0) tag1.snap o)),
    (searched true 6 region1 (tagged region5 { tag1 with snap := snap1 }), .auditComplete 6, fun s => !tagRuns s 6 &&
      (searchDone s 0 true 6).any (fun o => !auditAgrees s (entryOf s 0 0) snap1 o)),
    ({ tagged region1 { tag1 with level := some 2 } with now := 2 ^ 20 }, .auditEscalate 6, fun s => decide (tag1.issued + 2 ^ 20 ≤ s.now)),
    (tagged region1 { tag1 with resolved := some .condemned }, .walkAndScrubComplete 6, fun s => (mget s.tags 6).isSome),
    (stopped, .debugAccess 10 .read, fun s => decide ((waveOf s 10).state = .debug)), (stopped, .debugAccess 10 (.setV 7 63 9), fun _ => true),
    (stopped, .debugAccess 10 (.setS 3 9), fun _ => true), (stopped, .debugAccess 10 (.setA 3 9 1), fun _ => true),
    (stopped, .debugAccess 10 (.setP 3 9), fun _ => true), (stopped, .debugAccess 10 (.setPc 0 0x1044), fun s => (splitOf (waveOf s 10) 0).isSome),
    (stopped, .debugAccess 10 (.setMode 0 0x40), fun s => (splitOf (waveOf s 10) 0).isSome),
    (stopped, .debugAccess 10 (.setOmode 0 0x14), fun s => (splitOf (waveOf s 10) 0).isSome),
    (stopped, .debugAccess 10 (.setMask 0 1), fun s => (splitOf (waveOf s 10) 0).isSome), (stopped, .debugAccess 10 (.setLive 1), fun _ => true),
    (stopped, .debugAccess 10 (.setWstat 1), fun _ => true), (stopped, .debugAccess 10 (.setSig 1), fun _ => true),
    (stopped, .debugAccess 10 (.setWdog 1), fun _ => true), (stopped, .debugAccess 10 (.setPkr 1), fun _ => true),
    (stopped, .debugAccess 10 (.setFlag 7 1), fun _ => true),
    (stopped, .debugAccess 10 (.setTrap 0x30 0x1044 7), fun _ => true),
    (withWave stopped { inHandler with state := .debug, splits := [{}] }, .debugAccess 10 (.setFrame 1 0 0x13 5 0x1040 1), fun s => (waveOf s 10).frame.isSome),
    (stopped, .debugAccess 10 (.setWindow 64), fun _ => true), (stopped, .debugAccess 10 (.setCounts 1 2), fun _ => true),
    (stopped, .debugAccess 10 (.setCmapix 511), fun _ => true), (stopped, .debugAccess 10 (.setKillTag 63 1), fun _ => true),
    (stopped, .debugAccess 10 (.setTimeHi 1), fun _ => true), (stopped, .debugAccess 10 (.setBatch 1), fun _ => true),
    (withWave stopped { wave0 with state := .debug, deferred := [{}] }, .debugAccess 10 (.setWaiting false 0 0x1044 1 0 0x13), fun s =>
      decide (0 < (waveOf s 10).deferred.length)),
    (withWave stopped { inHandler with state := .debug, frame := some { splits := [{}], deferred := [{}], mask := 1, sig := 5, header := 0x1040, word := 1 } },
      .debugAccess 10 (.setWaiting true 1 0x1044 1 0 0x13), fun s => (waveOf s 10).frame.any (fun f => decide (1 < f.splits.length + f.deferred.length))),
    (stopped, .debugAccess 10 (.setVTag 7 63 0x1001), fun _ => true), (stopped, .debugAccess 10 (.setSTag 3 0x1001), fun _ => true),
    (stopped, .debugAccess 10 (.setATag 3 0), fun _ => true), (stopped, .debugAccess 10 (.setPTag 3 63 0x2001), fun _ => true),
    (stopped, .debugResume [10], fun s => decide ((waveOf s 10).state = .debug)), (stopped, .debugStep 10, fun s => decide ((waveOf s 10).state = .debug)),
    (quiet, .debuggerAttach 3 true, fun s => (mget s.ctxs 3).isSome), (quiet, .debuggerAttach 3 false, fun s => (mget s.ctxs 3).isSome)] :=
  moves _ (by decide +kernel)

/-- The machine in which command `c` heads the ring. -/
def asked (s : State) (c : HostCmd) : State := withPart s { part0 with ring := [{ tag := 7, pad := 0, cmd := c }] }
def asks (s : State) : Bool := (partOf s 0).ready && !(hubOf s 0).gated && !(partOf s 0).ring.isEmpty && decide ((partOf s 0).pending.length < 256)
/-- The machine whose pages take ingress, with one lease over the first 32 pages. -/
def ingressed (s : State) : State :=
  { withGrid s { grid2 with launch := { grid2.launch with leases := [(0x10000, 0x200000)] } } with mem := memWrite tables [(0x20000, 0x0B), (0x20007, 0x10)] }
def window1 : Window :=
  { ctx := 3, base := 0x10000, len := 0x20000, s0 := 0, slotLog := 12, q := 1, release := 0, aperture := 0, reqs := [5], c := 0 }
/-- An image whose record holds the check word of a body of zeros, and the array that names it. -/
def imaged (y : Image) : State :=
  { quiet with images := [(70, y)], mem := memWrite tables (addrBytes 0x2000 (toBytes 8 0x100040) ++
      addrBytes 0x10007C (toBytes 4 (bodyCheck (List.replicate 64 0)).toNat)) }
def image2 : Image := { image1 with stable := stableWords quiet 0 }
def peer1 : Roster := { link := 0, present := true }
def rostered (s : State) (y : Roster) : State :=
  { s with parts := s.parts.map (fun x => (x.1, { x.2 with roster := [(4, y)] })) }
def report1 (ok : Bool) : PeerReport := { identity := 9, world := 0, measures := [], signed := ok }
def noGrids : State := { quiet with grids := [], blocks := [], waves := [] }

/-- A record of command 0x0D with the host tag 7. -/
def record1 : List Byte := 0x0D :: 0 :: 0 :: 0 :: 7 :: List.replicate 59 0

theorem witness_HostMoves : Moves [
    (asked quiet (.createContext 0 0x10000 0 0x10000 0x10000), .createContext 0, fun s => asks s && worldOpen s 0 0 && areaInWorld s 0x10000 0 0x10000 0x10000),
    (asked quiet (.createContext 0 0x10000 0 0 0x10001), .createContext 0, asks), (asked quiet (.createContext 1 0x10000 0 0 0), .createContext 0, asks),
    (asked quiet (.launchGrid 3 0x3000 255), .launchGrid 0, fun s => asks s && contextOpen s 0 3 && (hostBytes s 3 0x3000 256).isSome),
    (asked quiet (.launchGrid 3 0x3001 0), .launchGrid 0, asks), (asked quiet (.launchGrid 4 0x3000 0), .launchGrid 0, fun s => asks s && !contextOpen s 0 4),
    (asked quiet (.launchGrid 3 0x80000000 0), .launchGrid 0, fun s => asks s && (hostBytes s 3 0x80000000 256).isNone),
    (asked quiet (.save 3 0 0 1), .save 0, fun s => asks s && contextOpen s 0 3 && namesBlock s 3 0 0 block1 && !unitOver s 1),
    (asked quiet (.save 3 0 1 1), .save 0, asks), (asked quiet (.save 4 0 0 2), .save 0, fun s => asks s && !contextOpen s 0 4),
    (asked quiet (.launchImage 3 4097 0x2000), .launchImage 0, asks), (asked quiet (.launchImage 4 4096 0x2000), .launchImage 0, fun s => asks s && !contextOpen s 0 4),
    (asked quiet .resetPartition, .resetPartition 0, asks),
    (asked (ingressed quiet) (.openWindow 3 0x10000 0x20000 0 12 1 0 0 [5]), .openIngressWindow 0, fun s => asks s && contextOpen s 0 3 && windowLeased s 3 0x10000 0x20000),
    (asked (ingressed quiet) (.openWindow 3 0x10000 0x20000 0 24 1 0 0 [5]), .openIngressWindow 0, fun s => asks s && windowLeased s 3 0x10000 0x20000),
    (withPart (ingressed quiet) { part0 with windows := [{ window1 with base := 0x30000, aperture := 0x1000, index := 0 }, { window1 with opened := false, index := 1 }]
                                             ring := [{ tag := 7, pad := 0, cmd := .openWindow 3 0x10000 0x20000 0 12 1 0 0 [5] }] }, .openIngressWindow 0, fun s =>
      asks s && windowLeased s 3 0x10000 0x20000 && (partOf s 0).windows.all (fun w => !windowClash 3 0x10000 0x20000 0 4096 w)),
    (withPart (ingressed quiet) { part0 with windows := [window1], ring := [{ tag := 7, pad := 0, cmd := .openWindow 3 0x10000 0x20000 0 12 1 0 0 [5] }] },
      .openIngressWindow 0, fun s => asks s && (partOf s 0).windows.any (windowClash 3 0x10000 0x20000 0 4096)),
    (asked (ingressed quiet) (.openWindow 3 0x10000 0x20000 0 25 1 0 0 [5]), .openIngressWindow 0, asks),
    (asked quiet (.closeWindow 0x10000), .closeIngressWindow 0, asks),
    (withPart quiet { part0 with windows := [window1], ring := [{ tag := 7, pad := 0, cmd := .closeWindow 0x10000 }] }, .closeIngressWindow 0, fun s => asks s && contextOpen s 0 3),
    (withPart { quiet with ctxs := [] } { part0 with windows := [window1], ring := [{ tag := 7, pad := 0, cmd := .closeWindow 0x10000 }] }, .closeIngressWindow 0, fun s =>
      asks s && !contextOpen s 0 3),
    (asked noGrids (.configureDeck 63 255 20), .configureDeck 0, asks), (asked noGrids (.configureDeck 64 0 8), .configureDeck 0, asks),
    (asked quiet (.configureDeck 0 0 8), .configureDeck 0, fun s => asks s && (gridOf s 2).launch.decks.getLsbD 0),
    (asked quiet (.keyStream 0 5), .keyStream 0, fun s => asks s && (mget s.streams 0).isNone && !deviceStream (partOf s 0).hub 0),
    (asked quiet (.keyStream 0x20000 5), .keyStream 0, fun s => asks s && (mget s.streams 0x20000).isNone && deviceStream (partOf s 0).hub 0x20000),
    (asked quiet (.keyStream 0x3000F 5), .keyStream 0, fun s => asks s && deviceStream (partOf s 0).hub 0x3000F),
    (asked quiet (.keyStream 0x20080 5), .keyStream 0, fun s => asks s && !deviceStream (partOf s 0).hub 0x20080),
    (asked { quiet with streams := [(0, { part := 0, world := 0, key := none, state := .closed })] } (.keyStream 0 5), .keyStream 0, asks),
    (asked quiet (.takePeer 15 7 1), .admitPeer 0 (report1 false), asks), (asked quiet (.takePeer 16 0 1), .admitPeer 0 (report1 true), asks),
    (asked quiet (.removePeer 16), .removePeer 0, asks), (asked quiet (.removePeer 15), .removePeer 0, asks),
    (rostered (asked quiet (.removePeer 4)) peer1, .removePeer 0, fun s => asks s && (mgetD (partOf s 0).roster 4 {}).present),
    (rostered (asked quiet (.removePeer 4)) { peer1 with present := false, gone := true }, .removePeer 0, fun s =>
      asks s && (mgetD (partOf s 0).roster 4 {}).gone),
    (asked quiet (.trumpControls false 65535), .trumpControls 0, asks), (asked quiet (.trumpControls true 1), .trumpControls 0, asks),
    (asked quiet (.trumpControls true 0), .trumpControls 0, asks), (asked quiet (.trumpControls true 65536), .trumpControls 0, asks),
    (asked quiet (.wakeFilter 7 34 127 0xFF 0x12), .wakeFilterAndIdleInterval 0, asks), (asked quiet (.wakeFilter 0 0xFF 0 0 0), .wakeFilterAndIdleInterval 0, asks),
    (asked quiet (.wakeFilter 8 0 0 0 0), .wakeFilterAndIdleInterval 0, asks), (asked quiet (.wakeFilter 0 19 0 0 0), .wakeFilterAndIdleInterval 0, asks),
    (asked quiet (.wakeFilter 0 20 128 0 0), .wakeFilterAndIdleInterval 0, asks),
    (quiet, .doorbellWrite 0 [record1], fun s => (partOf s 0).ready && decide (record1.length = 64 ∧ (hostRecord record1).tag = 7)),
    ({ quiet with parts := [(0, part0)], hubs := [(0, { gated := true })] }, .doorbellWrite 0 [], fun s => (hubOf s 0).gated),
    ({ asked quiet .resetPartition with now := 4 * 4096 }, .commandRingStall 0, fun s => !(partOf s 0).ring.isEmpty && decide (4 * (partOf s 0).timeout ≤ s.now)),
    (quiet, .partitionDissolve 0, fun s => (mget s.parts 0).isSome), (quiet, .tdispAssign 0 (some 255), fun _ => true), (quiet, .tdispAssign 0 none, fun _ => true),
    ({ quiet with parts := [] }, .partitionForm [0, 5] ⟨1, none, 0⟩, fun s => decide (0 ≤ hbmLeft s)),
    ({ quiet with parts := [] }, .partitionForm [5] ⟨0, some (2 ^ 30), 576⟩, fun s => decide (576 ≤ hbmLeft s)),
    ({ quiet with parts := [] }, .partitionForm [0, 5] ⟨1, some (2 ^ 16), 1⟩, fun s => decide (lowestFree (s.parts.map (·.1)) 0 4096 = some 0 ∧ 5 < Config.dieCount ∧ partOfDie s 5 = none))] :=
  moves _ (by decide +kernel)

/-- An image is launched where its stable words are the partition's, one of which, the stepping, the spec leaves open. -/
theorem witness_HostMoves_image :
    let s := asked (imaged image2) (.launchImage 3 1 0x2000)
    asks s = true ∧ contextOpen s 0 3 = true ∧ (contextBytes s 3 0x2000 8).map (fun l => fieldAt l 0 8) = some 0x100040 ∧
    (contextBytes s 3 0x100040 64).isSome = true ∧ image2.stable = stableWords s 0 ∧
    (s.images.find? (fun z => decide (z.2.ctx = 3 ∧ z.2.record = 0x100040))).map (·.1) = some 70 ∧
    partnerNamed s 3 [0x100040] (70, image2) = true ∧ imageUnit s 70 = [70] ∧ imageGood s image2 = true := by
  refine ⟨by decide +kernel, by decide +kernel, by decide +kernel, by decide +kernel, rfl, by decide +kernel, by decide +kernel,
    by decide +kernel, by decide +kernel⟩

/-- The machine whose memory holds a record that no image of this device's stands at, of a body of 64 zeros, with check word `n`. -/
def recorded (n : Nat) : State :=
  { quiet with mem := memWrite tables (addrBytes 0x2000 (toBytes 8 0x100040) ++ addrBytes 0x100070 (toBytes 8 0x100000) ++
      addrBytes 0x100078 (toBytes 4 64) ++ addrBytes 0x10007C (toBytes 4 n)) }
/-- Whether the record that the one-record array at 0x2000 names has the right check word. -/
def recordSays (s : State) (good : Bool) : Bool :=
  asks s && contextOpen s 0 3 && decide ((contextBytes s 3 0x2000 8).map (fun l => fieldAt l 0 8) = some 0x100040) && s.images.isEmpty &&
  (contextBytes s 3 0x100040 64).any (fun c => mateNamed s 3 [0x100040] c && decide (recordGood s 3 c = good))

/-- A record of another device, with a right check word and with a wrong one, and an image of this
device's whose body has gone wrong. Which stable words a record's body spells the spec leaves open. -/
theorem witness_HostMoves_record :
    recordSays (asked (recorded (bodyCheck (List.replicate 64 0)).toNat) (.launchImage 3 1 0x2000)) true = true ∧
    recordSays (asked (recorded 1) (.launchImage 3 1 0x2000)) false = true ∧
    imageGood { imaged image2 with mem := memWrite (imaged image2).mem [(0x100000, 1)] } image2 = false := by
  refine ⟨by decide +kernel, by decide +kernel, by decide +kernel⟩

/-- A peer is taken where the partition's policy takes its report; which policies take what the spec leaves open. -/
theorem witness_HostMoves_peer (h : Config.policyAccepts 1 [] = true) :
    let s := asked quiet (.takePeer 15 7 1)
    asks s = true ∧ (mgetD (partOf s 0).roster 15 {}).present = false ∧ (report1 true).signed = true ∧
    Config.policyAccepts 1 (report1 true).measures = true := by
  exact ⟨by decide +kernel, by decide +kernel, by decide +kernel, h⟩

def portWrite1 : PortWrite := { id := 90, part := 0, stream := 0, bytes := [(0x1000000000000, 1)], tag := .clean }
def draining1 (l : List (Nat × PortWrite)) : State :=
  { quiet with streams := [(0, { part := 0, world := 0, key := some 1, newKey := 2, state := .draining, sent := l })] }
def withHub (s : State) (h : Hub) : State := { s with hubs := [(0, h)] }
/-- An idle partition with an interval, whose event ring is up to date. -/
def idlePart : State := withPart { noGrids with now := 2 ^ 30 } { part0 with idle := 2 ^ 20 }
def frame1 : List Byte := List.replicate 64 1
/-- The machine with an open security association of partition 0 on each port of hub die 0. -/
def associated (s : State) : State :=
  { s with streams := [(0x20000, { part := 0, world := 0, key := some 1 }), (0x20040, { part := 0, world := 0, key := some 1 })] }
def peered : State := { rostered quiet peer1 with streams := [(peerStream 0 4, { part := 0, world := 0, key := some 1 })] }
def storage : State := { quiet with streams := [(0x30000, { part := 0, world := 0, key := none })] }
/-- A frame of 48 bytes of payload with sequence number 0: its header and payload fill its first granule. -/
def whole1 : List Byte := List.replicate 8 0 ++ [48] ++ List.replicate 55 0
/-- The peer is a member of cohort 0. -/
def meeting : State := withPart peered { partOf peered 0 with cohorts := [(0, { members := [0], peers := 0x10 })] }
def cached : State := withCore { noGrids with } { tlb := [{ part := 0, asid := 0, page := 0, level := 1, pte := 0 }] }

def landing (w : Window) : State := withPart (ingressed quiet) { part0 with windows := [w] }

theorem witness_HubMoves : Moves [
    (draining1 [], .streamDrainComplete 0, fun s => s.ports.isEmpty),
    ({ draining1 [(5000, portWrite1)] with now := 4096, ports := [portWrite1] }, .streamDrainFail 0, fun s => decide ((partOf s 0).timeout ≤ s.now)),
    ({ withPart quiet { part0 with windows := [{ window1 with waiting := [{ off := 0, data := [1], at_ := 0 }] }] } with now := 4096 }, .ingressBackpressureTimeout 0 0,
      fun s => decide ((partOf s 0).timeout ≤ s.now)),
    ({ quiet with ports := [portWrite1], now := 4096 }, .sharedRequestTimeout 90, fun s => !streamStopped s 0),
    (idlePart, .hubDieGate 0, fun s => !(homedOn s 0).isEmpty && !partBusy s 0), (quiet, .controlMismatch 1, fun s => !(hubOf s 1).stopped),
    (associated quiet, .ethernetFrameReceive 0 1 true ⟨0, frame1⟩, fun s => !(hubOf s 0).gated && ethOpen s 0 1 0),
    (associated quiet, .ethernetFrameReceive 0 0 false ⟨0, frame1⟩, fun s => decide (0 ∈ homedOn s 0)),
    (quiet, .ethernetFrameReceive 0 1 true ⟨0, frame1⟩, fun s => !ethOpen s 0 1 0),
    (associated (withHub quiet { gated := true, waking := true, heldFrames := [(0, frame1), (0, frame1)] }), .ethernetFrameReceive 0 0 true ⟨0, frame1⟩, fun s =>
      decide (heldFor (hubOf s 0) 0 = 64) && ethOpen s 0 0 0),
    (associated (withHub quiet { gated := true, waking := true, heldFrames := [(0, []), (0, List.replicate 64 0)] }), .ethernetFrameReceive 0 0 true
      ⟨0, List.replicate 100 0⟩, fun s => decide (heldFor (hubOf s 0) 0 = 64)),
    (associated (withHub quiet { gated := true, filters := [(0, { offset := 48, mask := 1, value := 1 })] }), .ethernetFrameReceive 0 0 true ⟨0, frame1⟩, fun s =>
      (hubOf s 0).filters.any (fun f => filterMatches frame1 f.2) && ethOpen s 0 0 0),
    (associated (withHub quiet { gated := true }), .ethernetFrameReceive 0 0 true ⟨0, frame1⟩, fun s =>
      !(hubOf s 0).filters.any (fun f => filterMatches frame1 f.2) && ethOpen s 0 0 0),
    (withHub quiet { gated := true, waking := true, heldFrames := [(1, frame1)] }, .hubDieUngate 0, fun s => wakes s 0),
    (peered, .peerGone 0 4, fun s => (mgetD (partOf s 0).roster 4 {}).present),
    (cached, .tlbinv 0 (some 0) 0x1FFFFF 1 0x20000 0, fun s => (coreOf s 0).tlb.any (invalidates 0 (some 0) 0x1FFFFF 1) && !coreBusy s 0),
    (withCore quiet { tlb := [{ part := 0, asid := 0, page := 0, level := 1, pte := 0 }] }, .tlbinv 0 none 0x100000 1 0x20000 0, fun s =>
      controlled s 0 && decide ((coreOf s 0).tlb.length = 1)),
    (quiet, .hostInboundWrite 0 (3 * 2 ^ 48 - 1) [7] false, fun _ => realAddress (3 * 2 ^ 48 - 1) 1),
    (peered, .peerFlit 0 false ⟨0, 4, true, true⟩ (.write 0x2000 [7]), fun s => !(nth (hubOf s 0).links 0 {}).failed),
    (quiet, .peerFlit 7 false ⟨0, 15, false, false⟩ (.arrive 0), fun _ => true),
    (peered, .peerFlit 0 true ⟨0, 4, true, false⟩ (.write 0x2000 [7]), fun s => onLink s 0 0 4 && realAddress 0x2000 1),
    (peered, .peerFlit 0 true ⟨0, 4, false, false⟩ (.write 0x2000 [7]), fun s => onLink s 0 0 4 && decide ((partOf s 0).pending.length < 256)),
    (peered, .peerFlit 0 true ⟨0, 5, true, false⟩ (.write 0x2000 [7]), fun s => !onLink s 0 0 5 && decide ((partOf s 0).pending.length < 256)),
    (meeting, .peerFlit 0 true ⟨0, 4, true, false⟩ (.arrive 0), fun s => onLink s 0 0 4 && (mgetD (partOf s 0).cohorts 0 {}).peers.getLsbD 4),
    (meeting, .peerFlit 0 true ⟨0, 4, true, true⟩ (.contribute 0 false 0 0 [] [(63, 5)]), fun s => onLink s 0 0 4 && (mgetD (partOf s 0).cohorts 0 {}).peers.getLsbD 4),
    (withHub peered { links := [{ retries := 1, width := 1 }] }, .linkRetryFail 0 false, fun _ => true),
    (storage, .nvmeReadComplete 0x30000 0x2000 [7] true, fun s => realAddress 0x2000 1 && (mget s.streams (nvmeStream 0)).isSome),
    (quiet, .attestationRequest 0, fun s => (mget s.parts 0).isSome),
    (withPart quiet { part0 with windows := [window1] }, .ingressFrameWrite 0 6 4095 ⟨[1], false⟩, fun _ => !window1.reqs.contains 6),
    (withPart quiet { part0 with windows := [window1] }, .ingressFrameWrite 0 5 0 ⟨[1], false⟩, fun _ =>
      window1.reqs.contains 5 && (headerOf (overSlot [] [(0, [1], .clean)])).isNone),
    (withPart quiet { part0 with windows := [window1] }, .ingressFrameWrite 0 5 0 ⟨[1], true⟩, fun _ => window1.reqs.contains 5),
    (landing window1, .ingressFrameWrite 0 5 0 ⟨whole1, false⟩, fun s => decide (headerOf (overSlot [] [(0, whole1, .clean)]) = some (0, 48)) &&
      decide (0 < releaseWord s window1 + 1) && frameLanded window1 { frame := some (0, 48), bytes := overSlot [] [(0, whole1, .clean)] } 48),
    (landing { window1 with s0 := 1, c := 1 }, .ingressFrameWrite 0 5 0 ⟨whole1.take 16, false⟩, fun _ =>
      decide (headerOf (overSlot [] [(0, whole1.take 16, .clean)]) = some (0, 48))),
    (landing { window1 with c := 2 }, .ingressFrameWrite 0 5 0 ⟨whole1.take 16, false⟩, fun _ => true),
    (landing window1, .ingressFrameWrite 0 5 0 ⟨9 :: whole1.drop 1, false⟩, fun s => decide (releaseWord s window1 + 1 ≤ 9)),
    (withPart quiet { part0 with windows := [{ window1 with waiting := [{ off := 0, data := [1], at_ := 0 }] }] }, .ingressFrameWrite 0 5 0 ⟨[1], true⟩, fun _ => true)] :=
  moves _ (by decide +kernel)

/-- An event goes to the ring where the ring has room; its slots and what the host has taken the spec leaves open. -/
theorem witness_HubMoves_event :
    let s := withPart quiet { part0 with pending := [{ event1 with src := 9, seq := 3 }, event1] }
    nextEvent (partOf s 0).pending = some event1 ∧ (partOf s 0).gated = false ∧ eventRoom s (partOf s 0) 0 = true := by
  refine ⟨by decide +kernel, by decide +kernel, ?_⟩
  simp [eventRoom, partOf, mgetD, mget, withPart, part0]

/-- Whether a hub die's firmware verifies the spec leaves to the die; either way the reset goes on. -/
theorem witness_HubMoves_reset (b : Bool) (h : Config.firmwareVerifies 0 = b) :
    let s := withHub (withPart quiet { part0 with born := 1000, takenOver := true }) { stopped := true, stoppedAt := 999 }
    (hubOf s 0).stopped = true ∧ (∀ p ∈ homedOn s 0, (hubOf s 0).stoppedAt < (partOf s p).born) ∧
    isNext (execHubDieReset 0 s) = true := by
  intro s
  refine ⟨by decide +kernel, by decide +kernel, ?_⟩
  have c : (hubOf s 0).stopped = true ∧ (homedOn s 0).all (fun p => decide ((hubOf s 0).stoppedAt < (partOf s p).born)) = true := by
    decide +kernel
  unfold execHubDieReset
  rw [if_pos c, h]
  cases b <;> rfl

def noAddress (o : Host.Outcome State Fault Refusal) : Bool :=
  match o with
  | .fault .noSuchAddress => true
  | _ => false

/-- R202: the addresses that do not exist. -/
theorem witness_HubMoves_fault :
    realAddress (3 * 2 ^ 48) 1 = false ∧ noAddress (exec (.hostInboundWrite 0 (3 * 2 ^ 48) [7] false) quiet) = true ∧
    noAddress (exec (.peerFlit 0 true ⟨0, 4, true, false⟩ (.write (3 * 2 ^ 48) [7])) peered) = true ∧
    noAddress (exec (.nvmeReadComplete 0x30000 (3 * 2 ^ 48) [7] true) storage) = true ∧
    noAddress (exec (.tlbinv 0 none 0x100000 1 (3 * 2 ^ 48 - 7) 0) quiet) = true := by
  decide +kernel

end Sys2Proof.Tests
end

section
/-! SUPPORT. Fields of a word as numbers; instructions that consume one clean uniform operand, raise flags, hold a matrix
write or make their checks in order. -/

namespace Sys2Proof.Machine.NumberFormats

/-! ### Fields of a word -/

theorem bitAt_eq_testBit (x i : Nat) : bitAt x i = x.testBit i := Nat.testBit_eq_decide_div_mod_eq.symm

/-- The field from bit `lo` to the top of a word. -/
theorem bits_top (x : Word) {lo : Nat} (h : lo ≤ 31) : bits x.toNat 31 lo = x.toNat / 2 ^ lo := by
  refine Nat.mod_eq_of_lt (Nat.div_lt_of_lt_mul ?_)
  rw [← Nat.pow_add, show lo + (31 + 1 - lo) = 32 by omega]
  exact x.isLt

theorem bits_top_ne_zero (x : Word) {lo : Nat} (h : lo ≤ 31) : bits x.toNat 31 lo ≠ 0 ↔ 2 ^ lo ≤ x.toNat := by
  rw [bits_top x h, ne_eq, Nat.div_eq_zero_iff_lt (Nat.two_pow_pos lo), Nat.not_lt]

/-- The field of a number from bit 0. -/
theorem bits_low (x hi : Nat) : bits x hi 0 = x % 2 ^ (hi + 1) := by
  simp [bits]

/-! ### One clean uniform operand, and ACTIVE empty or not -/

theorem skip_of_empty {s : State} {u : Nat} {w : Wave} {sp : Split} {i : Instr} (h : activeMask w sp i = 0) :
    (ctxFor s u w sp i).skip = true := decide_eq_true h

theorem no_skip_of_active {s : State} {u : Nat} {w : Wave} {sp : Split} {i : Instr} (h : activeMask w sp i ≠ 0) :
    ¬ (ctxFor s u w sp i).skip = true := fun e => h (of_decide_eq_true e)

/-- An instruction that consumes a clean uniform operand and goes on with `k`, which does nothing with ACTIVE empty. -/
theorem doneNext_skip {i : Instr} {s : State} {u : Nat} {w : Wave} {sp : Split} {a : Operand} {wide : Bool}
    {k : State → Ctx → State}
    (hx : exec i s = run i s (fun s1 c => consumeAll s1 c [tagU c a wide]
      (fun s2 c => if c.skip then finishNop s2 c else k s2 c)))
    (hc : CleanU i s u w sp [(a, wide)]) (h : activeMask w sp i = 0) : DoneNext i s u w sp w [] :=
  doneNext_plain hx w ((clean1 hc s _).trans (if_pos (skip_of_empty h))) rfl

/-- As `doneNext_skip`, with ACTIVE not empty. -/
theorem clean1_active {i : Instr} {s : State} {u : Nat} {w : Wave} {sp : Split} {a : Operand} {wide : Bool}
    (k : State → Ctx → State) (hc : CleanU i s u w sp [(a, wide)]) (h : activeMask w sp i ≠ 0) :
    consumeAll s (ctxFor s u w sp i) [tagU (ctxFor s u w sp i) a wide]
      (fun s2 c => if c.skip then finishNop s2 c else k s2 c) = k s (ctxFor s u w sp i) :=
  (clean1 hc s _).trans (if_neg (no_skip_of_active h))

/-! ### Issues that raise flags or hold matrix writes -/

/-- As `doneNext_of`, for a meaning that raises the flags `st`. -/
theorem doneNext_raising {i : Instr} {s s1 : State} {u : Nat} {w : Wave} {sp : Split} {k : State → Ctx → State}
    (hx : exec i s = run i s k) (w' : Wave) (st : Sticky)
    (hk : k s (ctxFor s u w sp i) = finish s1 (ctxFor s u w sp i) w' st []) (ha : Apart s s1 u)
    (hw : w'.splits = w.splits) {es : List Effect} (hh : Holds s s1 u es) :
    DoneNext i s u w sp { w' with wstat := w'.wstat ||| st } es := by
  intro h ht
  exact ⟨_, by rw [hx, run_ready h, hk], ends_of h ht ha w' hw st [] _ (stepOver_entry sp _) hh⟩

/-- A change of the provisional tags leaves everything that an instruction could read. -/
theorem tags_apart (s : State) (tags : Map ProvTag) (u : Nat) : Apart s { s with tags := tags } u :=
  ⟨fun _ _ => rfl, fun _ => ⟨rfl, rfl⟩, rfl, fun _ _ => rfl, rfl, rfl, rfl, rfl, rfl, rfl, rfl, rfl, rfl, rfl⟩

/-- A meaning that holds a matrix write for D cycles and raises the flags `st` now (R247). -/
theorem doneNext_holdMatrix {i : Instr} {s : State} {u : Nat} {w : Wave} {sp : Split} {k : State → Ctx → State}
    (hx : exec i s = run i s k) (tags : Map ProvTag) (m : MatrixWrite) (st : Sticky)
    (hk : k s (ctxFor s u w sp i) = holdMatrix { s with tags := tags } (ctxFor s u w sp i) m st) :
    DoneNext i s u w sp { w with wstat := w.wstat ||| st } [.matrix m] :=
  doneNext_raising hx w st hk (apart_trans (tags_apart s tags u) (hold_apart _ _ _ _ _)) rfl
    (holds_one rfl rfl rfl rfl)

/-- As `doneNext_holdMatrix`, with no flag raised. -/
theorem doneNext_holdSilent {i : Instr} {s : State} {u : Nat} {w : Wave} {sp : Split} {k : State → Ctx → State}
    (hx : exec i s = run i s k) (tags : Map ProvTag) (m : MatrixWrite)
    (hk : k s (ctxFor s u w sp i) = holdMatrix { s with tags := tags } (ctxFor s u w sp i) m 0) :
    DoneNext i s u w sp w [.matrix m] := by
  have h := doneNext_holdMatrix hx tags m 0 hk
  rwa [show w.wstat ||| (0 : Sticky) = w.wstat from BitVec.or_zero] at h

theorem foldl_or_zero (l : List Nat) : l.foldl (fun (f : Sticky) _ => f ||| 0) 0 = 0 :=
  List.foldl_fixed' (fun _ => rfl) l

/-- A meaning that ends with a write of lane results and their flags. -/
theorem resultsDone_of {i : Instr} {s : State} {u : Nat} {w : Wave} {sp : Split} {k : State → Ctx → State} {d : Operand}
    {wide : Bool} {f : Ctx → Nat → LaneRes} (hx : exec i s = run i s k)
    (hk : let r := writeLanes (ctxFor s u w sp i) d wide (f (ctxFor s u w sp i))
      k s (ctxFor s u w sp i) = finish s (ctxFor s u w sp i) r.w r.sticky r.pairs) :
    ResultsDone i s u w sp d wide f := by
  intro h ht
  refine ⟨_, _, by rw [hx, run_ready h, hk], finish_wroteBy h.split ht d wide _ _ _, fun _ => rfl, ?_⟩
  obtain ⟨-, -, -, -, hstat⟩ := finishBy_regs s (ctxFor s u w sp i)
    (writeLanes (ctxFor s u w sp i) d wide (f (ctxFor s u w sp i))).w
    (writeLanes (ctxFor s u w sp i) d wide (f (ctxFor s u w sp i))).sticky
    (writeLanes (ctxFor s u w sp i) d wide (f (ctxFor s u w sp i))).pairs
    (fun x => stepOver x (ctxFor s u w sp i).len) ht
  refine hstat.trans ?_
  rw [(writeLanes_rest _ _ _ _).2.2, writeLanes_sticky]
  rfl

/-! ### Checks in order -/

/-- A meaning that makes a check and then goes on with `go`. -/
theorem checks_ite {i : Instr} {s : State} {u : Nat} {w : Wave} {sp : Split} {k : State → Ctx → State} {b : Bool}
    {p : Prop} [Decidable p] {cause : Cause} {val : Word} {go : State} {r : List (Bool × Cause × Word)} {P : Prop}
    (hx : exec i s = run i s k) (hp : p ↔ b = true)
    (hk : k s (ctxFor s u w sp i) = if p then trapAt s (ctxFor s u w sp i) cause val else go)
    (hgo : k s (ctxFor s u w sp i) = go → ChecksThen i s u w sp r P) :
    ChecksThen i s u w sp ((b, cause, val) :: r) P :=
  checks_cons (fun hb => traps_of hx (hk.trans (if_pos (hp.2 hb))))
    (fun hb => hgo (hk.trans (if_neg (mt hp.1 (by rw [hb]; exact Bool.false_ne_true)))))

/-- The check of a format slot (R61). -/
theorem checks_slot {i : Instr} {s : State} {u : Nat} {w : Wave} {sp : Split} {k : State → Ctx → State} {n : Nat}
    {go : Nat → State} {r : List (Bool × Cause × Word)} {P : Prop} (hx : exec i s = run i s k)
    (hk : k s (ctxFor s u w sp i) = slotThen s (ctxFor s u w sp i) n go)
    (hgo : k s (ctxFor s u w sp i) = go (slotWord s w.grid n).toNat → ChecksThen i s u w sp r P) :
    ChecksThen i s u w sp ((slotBad (slotWord s w.grid n).toNat, .formatSlot, slotWord s w.grid n) :: r) P :=
  checks_ite hx Iff.rfl hk hgo

end Sys2Proof.Machine.NumberFormats
end

section
/-! PROOF. Integer division (R45): the integers of a type, quotients and remainders, and the long operation of `div` and
`rem`. -/

namespace Sys2Proof.Machine.NumberFormats

/-! ### The integers of a type (R43) -/

theorem two_pow_pred {n : Nat} (hn : 1 ≤ n) : ((2 ^ n : Nat) : Int) = 2 * ((2 ^ (n - 1) : Nat) : Int) := by
  obtain ⟨m, rfl⟩ := Nat.exists_eq_add_of_le' hn
  rw [Nat.add_sub_cancel, Nat.pow_succ]
  omega

theorem intMin_nonpos (signed : Bool) (n : Nat) : intMin signed n ≤ 0 := by
  cases signed with
  | false => exact Int.le_refl 0
  | true => simp [intMin]

theorem intMax_nonneg (signed : Bool) (n : Nat) : 0 ≤ intMax signed n := by
  have h1 := Nat.two_pow_pos n
  have h2 := Nat.two_pow_pos (n - 1)
  cases signed with
  | false => show 0 ≤ ((2 ^ n : Nat) : Int) - 1; omega
  | true => show 0 ≤ ((2 ^ (n - 1) : Nat) : Int) - 1; omega

/-- Every bit pattern stands for an integer of its type. -/
theorem intOf_bounds (signed : Bool) {n : Nat} (hn : 1 ≤ n) (a : Nat) :
    intMin signed n ≤ intOf signed n a ∧ intOf signed n a ≤ intMax signed n := by
  have hp := two_pow_pred hn
  have ha : a % 2 ^ n < 2 ^ n := Nat.mod_lt _ (Nat.two_pow_pos n)
  cases signed with
  | false =>
    show (0 : Int) ≤ ((a % 2 ^ n : Nat) : Int) ∧ ((a % 2 ^ n : Nat) : Int) ≤ ((2 ^ n : Nat) : Int) - 1
    omega
  | true =>
    show -((2 ^ (n - 1) : Nat) : Int) ≤ signExt n a ∧ signExt n a ≤ ((2 ^ (n - 1) : Nat) : Int) - 1
    unfold signExt
    dsimp only
    split <;> omega

/-- The low bits of an integer of a type stand for it. -/
theorem intOf_wrapInt (signed : Bool) {n : Nat} (hn : 1 ≤ n) {x : Int} (h1 : intMin signed n ≤ x)
    (h2 : x ≤ intMax signed n) : intOf signed n (wrapInt n x) = x := by
  have hp := two_pow_pred hn
  have hpos := Nat.two_pow_pos n
  have hr : 0 ≤ x % ((2 ^ n : Nat) : Int) ∧ x % ((2 ^ n : Nat) : Int) < ((2 ^ n : Nat) : Int) :=
    ⟨Int.emod_nonneg _ (by omega), Int.emod_lt_of_pos _ (by omega)⟩
  have hmod : wrapInt n x % 2 ^ n = wrapInt n x := Nat.mod_eq_of_lt (by unfold wrapInt; omega)
  have hw : (wrapInt n x : Int) = x % ((2 ^ n : Nat) : Int) := Int.toNat_of_nonneg hr.1
  cases signed with
  | false =>
    replace h2 : x ≤ ((2 ^ n : Nat) : Int) - 1 := h2
    show ((wrapInt n x % 2 ^ n : Nat) : Int) = x
    rw [hmod, hw, Int.emod_eq_of_lt h1 (by omega)]
  | true =>
    replace h1 : -((2 ^ (n - 1) : Nat) : Int) ≤ x := h1
    replace h2 : x ≤ ((2 ^ (n - 1) : Nat) : Int) - 1 := h2
    show signExt n (wrapInt n x) = x
    unfold signExt
    rw [hmod]
    dsimp only
    rcases Int.lt_or_le x 0 with hx | hx
    · rw [← Int.add_emod_right, Int.emod_eq_of_lt (by omega) (by omega)] at hw
      rw [if_neg (by omega)]
      omega
    · rw [Int.emod_eq_of_lt hx (by omega)] at hw
      rw [if_pos (by omega)]
      omega

theorem intOf_zero (signed : Bool) (n : Nat) : intOf signed n 0 = 0 := by
  cases signed <;> simp [intOf, signExt]

theorem intOf_mod (signed : Bool) (n a : Nat) : intOf signed n (a % 2 ^ n) = intOf signed n a := by
  cases signed <;> simp [intOf, signExt]

/-! ### Quotients and remainders (R45) -/

/-- A remainder lies between zero and the dividend. -/
theorem tmod_between (x y : Int) : (0 ≤ x.tmod y ∧ x.tmod y ≤ x) ∨ (x.tmod y ≤ 0 ∧ x ≤ x.tmod y) := by
  have hle : (x.tmod y).natAbs ≤ x.natAbs := by rw [Int.natAbs_tmod]; exact Nat.mod_le _ _
  rcases Int.le_total 0 x with hx | hx
  · have := Int.tmod_nonneg y hx
    omega
  · have h := Int.tmod_nonneg y (Int.neg_nonneg.2 hx)
    rw [Int.neg_tmod] at h
    omega

theorem abs_tmod_lt (x : Int) {y : Int} (hy : y ≠ 0) : |x.tmod y| < |y| := by
  rw [Int.abs_eq_natAbs, Int.abs_eq_natAbs, Int.natAbs_tmod]
  exact Int.ofNat_lt.2 (Nat.mod_lt _ (Int.natAbs_pos.2 hy))

/-- A quotient is as great as its dividend for the divisors 1 and −1 only. -/
theorem natAbs_tdiv_lt {x y : Int} (hx : x ≠ 0) (hy : 1 < y.natAbs) : (x.tdiv y).natAbs < x.natAbs := by
  rw [Int.natAbs_tdiv]
  exact Nat.div_lt_self (Int.natAbs_pos.2 hx) hy

/-- A quotient is an integer of its type, but for the minimum divided by −1 (R45). -/
theorem tdiv_bounds {signed : Bool} {n : Nat} {x y : Int} (hx : intMin signed n ≤ x ∧ x ≤ intMax signed n)
    (hy : intMin signed n ≤ y) (hy0 : y ≠ 0) (hno : ¬ (signed = true ∧ x = intMin true n ∧ y = -1)) :
    intMin signed n ≤ x.tdiv y ∧ x.tdiv y ≤ intMax signed n := by
  have hle := Int.natAbs_tdiv_le_natAbs x y
  cases signed with
  | false =>
    have h0 := Int.tdiv_nonneg hx.1 hy
    replace hx : 0 ≤ x ∧ x ≤ intMax false n := hx
    show 0 ≤ x.tdiv y ∧ x.tdiv y ≤ intMax false n
    omega
  | true =>
    have hmin : intMin true n = -intMax true n - 1 := by simp [intMin, intMax]
    by_cases hm : x = intMin true n
    · by_cases h1 : y = 1
      · rw [h1, Int.tdiv_one]; exact hx
      · have hne : y ≠ -1 := fun h => hno ⟨rfl, hm, h⟩
        have h0 := intMax_nonneg true n
        have := natAbs_tdiv_lt (x := x) (y := y) (by omega) (by omega)
        omega
    · omega

/-- A remainder is an integer of its type. -/
theorem tmod_bounds {signed : Bool} {n : Nat} {x : Int} (hx : intMin signed n ≤ x ∧ x ≤ intMax signed n) (y : Int) :
    intMin signed n ≤ x.tmod y ∧ x.tmod y ≤ intMax signed n := by
  have hmin := intMin_nonpos signed n
  have hmax := intMax_nonneg signed n
  have hr := tmod_between x y
  omega

theorem divRem_zero {sat signed : Bool} {n a b : Nat} (hy : intOf signed n b = 0) : divRem sat signed n a b =
    (wrapInt n (if signed then (if 0 ≤ intOf signed n a then intMax true n else intMin true n) else intMax false n),
      a % 2 ^ n, fDIVZERO, fDIVZERO) := by
  unfold divRem
  exact if_pos hy

theorem divRem_overflow {sat signed : Bool} {n a b : Nat} (hs : signed = true) (hx : intOf signed n a = intMin true n)
    (hy : intOf signed n b = -1) : divRem sat signed n a b =
      if sat then (wrapInt n (intMax true n), 0, fSAT, fSAT) else (wrapInt n (intOf signed n a), 0, 0, 0) := by
  unfold divRem
  dsimp only
  rw [if_neg (by omega), if_pos ⟨hs, hx, hy⟩]

theorem divRem_exact {sat signed : Bool} {n a b : Nat} (hy : intOf signed n b ≠ 0)
    (hno : ¬ (signed = true ∧ intOf signed n a = intMin true n ∧ intOf signed n b = -1)) : divRem sat signed n a b =
      (wrapInt n ((intOf signed n a).tdiv (intOf signed n b)), wrapInt n ((intOf signed n a).tmod (intOf signed n b)),
        0, 0) := by
  unfold divRem
  dsimp only
  rw [if_neg hy, if_neg hno, Int.tmod_def, Int.mul_comm (intOf signed n b)]

/-- Quotient and remainder raise the same flags. -/
theorem divRem_flags_eq (sat signed : Bool) (n a b : Nat) :
    (divRem sat signed n a b).2.2.1 = (divRem sat signed n a b).2.2.2 := by
  unfold divRem
  dsimp only
  split
  · rfl
  · split
    · split <;> rfl
    · rfl

/-- What `divRem` gives is what R45 says. -/
theorem divRem_divides (sat signed : Bool) {n : Nat} (a b : Nat) (hn : 1 ≤ n) :
    Divides sat signed n (intOf signed n a) (intOf signed n b) (intOf signed n (divRem sat signed n a b).1)
      (intOf signed n (divRem sat signed n a b).2.1) (divRem sat signed n a b).2.2.1 := by
  have hx := intOf_bounds signed hn a
  have hy := intOf_bounds signed hn b
  have hmax := intOf_wrapInt signed hn (Int.le_trans (intMin_nonpos signed n) (intMax_nonneg signed n)) (Int.le_refl _)
  have hmin := intOf_wrapInt signed hn (Int.le_refl _) (Int.le_trans (intMin_nonpos signed n) (intMax_nonneg signed n))
  refine ⟨?_, ?_, ?_⟩
  · intro h0
    rw [divRem_zero h0]
    refine ⟨intOf_mod signed n a, rfl, ?_⟩
    cases signed with
    | false => simpa [intMax] using hmax
    | true =>
      simp only [if_true, Bool.true_eq_false, if_false]
      split
      · exact hmax
      · exact hmin
  · intro hs hxm hym
    rw [divRem_overflow hs hxm hym]
    cases sat with
    | true => subst hs; exact ⟨intOf_zero _ n, hmax, rfl⟩
    | false => exact ⟨intOf_zero _ n, intOf_wrapInt signed hn hx.1 hx.2, rfl⟩
  · intro h0 hno
    have hq := tdiv_bounds hx hy.1 h0 hno
    have hr := tmod_bounds hx (intOf signed n b)
    have hsign := tmod_between (intOf signed n a) (intOf signed n b)
    rw [divRem_exact h0 hno, intOf_wrapInt signed hn hq.1 hq.2, intOf_wrapInt signed hn hr.1 hr.2]
    exact ⟨(Int.tdiv_mul_add_tmod _ _).symm, abs_tmod_lt _ h0, by omega, rfl⟩

/-! ### The long operation of a division (R38, R123) -/

/-- A value that a long operation will write is the result of its lane, with its flags. -/
theorem longResults_mem {c : Ctx} {d : Operand} {f : Nat → LaneRes} {v : LaneVal × Sticky}
    (h : v ∈ (longResults c d f).1) : v.1.val = (f v.1.lane).1 ∧ v.2 = (f v.1.lane).2.2 := by
  have hone : ∀ ls : List Nat, v ∈ ls.map (fun l => ((⟨l, (f l).1, mergeTags (f l).2.1⟩, (f l).2.2) : LaneVal × Sticky)) →
      v.1.val = (f v.1.lane).1 ∧ v.2 = (f v.1.lane).2.2 := by
    intro ls hv
    obtain ⟨l, -, rfl⟩ := List.mem_map.1 hv
    exact ⟨rfl, rfl⟩
  unfold longResults at h
  cases d with
  | s n =>
    dsimp only at h
    split at h
    · exact absurd h List.not_mem_nil
    · exact hone [0] h
  | _ => exact hone _ h

/-- An element of an integer result is `f` of the elements of the operands (R118). -/
theorem elemOf_intLane (c : Ctx) (xs : List Operand) (f : List Nat → Nat × Sticky) (l k : Nat) (hk : k < intCount c) :
    elemOf (elemBits (itype c.sp.mode)) k (intLane c xs f l).1 =
      (f (xs.map (fun x => elemOf (elemBits (itype c.sp.mode)) k (readI c x l).val))).1 % 2 ^ elemBits (itype c.sp.mode) := by
  refine (elemOf_elements _ _ _ k (intWidth_le c) hk).trans ?_
  rw [List.map_map]
  rfl

/-- An integer result raises the flags of its elements. -/
theorem intLane_flags (c : Ctx) (xs : List Operand) (f : List Nat → Nat × Sticky) (l : Nat) : (intLane c xs f l).2.2 =
    flagsBelow (intCount c) (fun k => (f (xs.map (fun x => elemOf (elemBits (itype c.sp.mode)) k (readI c x l).val))).2) := by
  refine (elements_snd _ _ _).trans ?_
  simp only [List.map_map]
  rfl

/-- A long operation on integer elements: every value it will write, in the lanes fixed now, is `f` of the elements. -/
theorem longInt_done {i : Instr} {s : State} {u : Nat} {w : Wave} {sp : Split} {d : Operand} (xs : List Operand)
    (f : Ctx → List Nat → Nat × Sticky)
    (hx : exec i s = run i s (fun s1 c => startLong s1 c d (wideI (itype c.sp.mode)) (intLane c xs (f c)))) :
    let c := ctxFor s u w sp i
    let el (l k : Nat) := f c (xs.map (fun x => elemOf (elemBits (itype sp.mode)) k (readI c x l).val))
    LongDone i s u w sp (fun _ o => ∃ vals, o.kind = .result vals ∧ o.dst = dstOf c d ∧ ∀ v ∈ vals,
      v.2 = flagsBelow (intCount c) (fun k => (el v.1.lane k).2) ∧
      ∀ k, k < intCount c → elemOf (elemBits (itype sp.mode)) k v.1.val =
        (el v.1.lane k).1 % 2 ^ elemBits (itype sp.mode)) := by
  intro c el
  refine long_done (fun c => intLane c xs (f c)) hx _ (fun t o _ hkind hdst _ _ => ⟨_, hkind, hdst, fun v hv => ?_⟩)
  obtain ⟨hval, hflags⟩ := longResults_mem hv
  exact ⟨hflags.trans (intLane_flags c xs (f c) v.1.lane),
    fun k hk => by rw [hval]; exact elemOf_intLane c xs (f c) v.1.lane k hk⟩

/-- Quotient and remainder, with their flags, of two elements under the mode of the split. -/
def divElems (c : Ctx) (v : List Nat) : Nat × Nat × Sticky × Sticky :=
  divRem (satOn c.sp.mode) (isSigned (itype c.sp.mode)) (elemBits (itype c.sp.mode)) (v.getD 0 0) (v.getD 1 0)

theorem exec_div (d a b : Operand) (s : State) : exec (.div d a b) s = run (.div d a b) s (fun s1 c =>
    startLong s1 c d (wideI (itype c.sp.mode)) (intLane c [a, b] (fun v => ((divElems c v).1, (divElems c v).2.2.1)))) := rfl

theorem exec_rem (d a b : Operand) (s : State) : exec (.rem d a b) s = run (.rem d a b) s (fun s1 c =>
    startLong s1 c d (wideI (itype c.sp.mode)) (intLane c [a, b] (fun v => ((divElems c v).2.1, (divElems c v).2.2.2)))) := rfl

/-- Settles O55: in exact integers by the three cases of R45, and for `div` and `rem` by the elements of their long
operation. -/
theorem divisionRule : Obligations.DivisionRule := by
  unfold Obligations.DivisionRule
  refine ⟨fun sat signed n a b hn _ => ⟨divRem_flags_eq sat signed n a b, divRem_divides sat signed a b hn⟩,
    by decide, ?_⟩
  rintro s u w sp d a b i q (⟨rfl, rfl⟩ | ⟨rfl, rfl⟩)
  · exact longInt_done [a, b] _ (exec_div d a b s)
  · simp only [divRem_flags_eq]
    exact longInt_done [a, b] _ (exec_rem d a b s)

end Sys2Proof.Machine.NumberFormats
end

section
/-! PROOF. The instructions that write system state (R52, R108, R208, R213, R271, R340, R372). -/

namespace Sys2Proof.Machine.NumberFormats

/-! ### Writes of system state (R340) -/

/-- The wave with `x` in the writable register of number `n` (R52, R108, R271). -/
def writtenSys (w : Wave) (n : Byte) (x : Word) : Wave :=
  if n = 0x10 then { w with wstat := x.setWidth 9 }
  else if n = 0x28 then { w with spills := x }
  else if n = 0x29 then { w with fills := x }
  else if n = 0x80 then { w with cmapix := x.setWidth 9 }
  else w

theorem writtenSys_splits (w : Wave) (n : Byte) (x : Word) : (writtenSys w n x).splits = w.splits := by
  unfold writtenSys
  split_ifs <;> rfl

/-- A nonzero bit above a field of 9 bits refuses the write. -/
theorem sysWrite_none (w : Wave) {n : Byte} {x : Word} (hn : n = 0x10 ∨ n = 0x80) (hx : 2 ^ 9 ≤ x.toNat) :
    sysWrite w n.toNat x = none := by
  have h : ¬ x.toNat / 2 ^ 9 = 0 := fun e => Nat.not_lt.2 hx ((Nat.div_eq_zero_iff_lt (by decide)).1 e)
  rcases hn with rfl | rfl
  · exact if_neg h
  · exact if_neg h

theorem sysWrite_some (w : Wave) {n : Byte} {x : Word} (hgood : ¬ ((n = 0x10 ∨ n = 0x80) ∧ 2 ^ 9 ≤ x.toNat)) :
    sysWrite w n.toNat x = some (writtenSys w n x) := by
  have hx (h : n = 0x10 ∨ n = 0x80) : x.toNat / 2 ^ 9 = 0 :=
    Nat.div_eq_of_lt (Nat.lt_of_not_le fun hle => hgood ⟨h, hle⟩)
  by_cases h10 : n = 0x10
  · subst h10; exact if_pos (hx (.inl rfl))
  by_cases h28 : n = 0x28
  · subst h28; rfl
  by_cases h29 : n = 0x29
  · subst h29; rfl
  by_cases h80 : n = 0x80
  · subst h80; exact if_pos (hx (.inr rfl))
  have hne (m : Byte) (h : n ≠ m) : n.toNat ≠ m.toNat := fun e => h (BitVec.eq_of_toNat_eq e)
  rw [writtenSys, if_neg h10, if_neg h28, if_neg h29, if_neg h80]
  unfold sysWrite
  split
  · exact absurd ‹_› (hne 0x10 h10)
  · exact absurd ‹_› (hne 0x28 h28)
  · exact absurd ‹_› (hne 0x29 h29)
  · exact absurd ‹_› (hne 0x80 h80)
  · rfl

theorem exec_wrsr (a : Operand) (n : Byte) (s : State) : exec (.wrsr a n) s = run (.wrsr a n) s (fun s1 c =>
    consumeAll s1 c [tagU c a false] (fun s2 c => if c.skip then finishNop s2 c
      else match sysWrite c.w n.toNat (readU c a) with
        | none => trapAt s2 c .illegalField (readU c a)
        | some w => finish s2 c w 0 [])) := rfl

/-- `wrsr` of a value that its register refuses traps. -/
theorem wrsr_traps {s : State} {u : Nat} {w : Wave} {sp : Split} {a : Operand} {n : Byte}
    (hc : CleanU (.wrsr a n) s u w sp [(a, false)]) (hact : activeMask w sp (.wrsr a n) ≠ 0) (hn : n = 0x10 ∨ n = 0x80)
    (hx : 2 ^ 9 ≤ (readU (ctxFor s u w sp (.wrsr a n)) a).toNat) :
    Traps (.wrsr a n) s u w sp .illegalField (readU (ctxFor s u w sp (.wrsr a n)) a) := by
  refine traps_of (exec_wrsr a n s) ((clean1_active _ hc hact).trans ?_)
  rw [sysWrite_none _ hn hx]

/-- `wrsr` of any other value leaves it in its register. -/
theorem wrsr_done {s : State} {u : Nat} {w : Wave} {sp : Split} {a : Operand} {n : Byte}
    (hc : CleanU (.wrsr a n) s u w sp [(a, false)]) (hact : activeMask w sp (.wrsr a n) ≠ 0)
    (hgood : ¬ ((n = 0x10 ∨ n = 0x80) ∧ 2 ^ 9 ≤ (readU (ctxFor s u w sp (.wrsr a n)) a).toNat)) :
    DoneNext (.wrsr a n) s u w sp (writtenSys w n (readU (ctxFor s u w sp (.wrsr a n)) a)) [] := by
  refine doneNext_plain (exec_wrsr a n s) _ ((clean1_active _ hc hact).trans ?_) (writtenSys_splits _ _ _)
  rw [sysWrite_some _ hgood]
  rfl

/-- `wrsr sig` with ACTIVE empty does nothing. -/
theorem sigWrite_skips {s : State} {u : Nat} {w : Wave} {sp : Split} {a : Operand}
    (hc : CleanU (.sigWrite a) s u w sp [(a, false)]) (hact : activeMask w sp (.sigWrite a) = 0) :
    DoneNext (.sigWrite a) s u w sp w [] :=
  doneNext_plain rfl w ((clean1 hc s _).trans (if_pos (skip_of_empty hact))) rfl

/-- `wrsr sig` leaves the value written, over the signature of its own update (R372). -/
theorem sigWrite_done {s : State} {u : Nat} {w : Wave} {sp : Split} {a : Operand}
    (hc : CleanU (.sigWrite a) s u w sp [(a, false)]) (hact : activeMask w sp (.sigWrite a) ≠ 0)
    (hr : Ready (.sigWrite a) s u w sp) (ht : sp.trump = none) :
    ∃ t, exec (.sigWrite a) s = .next t ∧ (waveOf t u).sig = readU (ctxFor s u w sp (.sigWrite a)) a ∧
      (waveOf t u).rest = w.rest ∧ RegsSame w (waveOf t u) ∧ (waveOf t u).wstat = w.wstat ∧ Apart s t u ∧
      t.held = s.held ∧ splitOf (waveOf t u) sp.entry = some (nextWord sp (.sigWrite a)) := by
  let c := ctxFor s u w sp (.sigWrite a)
  obtain ⟨issued, rest, regs, wstat⟩ := finishNop_passed (i := .sigWrite a) hr.split ht (apart_refl s u)
  have hw := waveOf_modWave (fun w => { w with sig := readU c a }) issued.wave
  refine ⟨modWave (finishNop s c) u (fun w => { w with sig := readU c a }), ?_, ?_⟩
  · exact (run_ready hr _).trans (congrArg _ ((clean1 hc s _).trans (if_neg (no_skip_of_active hact))))
  · rw [hw]
    exact ⟨rfl, rest, regsSame_trans regs (regsSame_of rfl rfl rfl rfl), wstat,
      apart_trans issued.apart (modWave_apart _ _ _), rfl, issued.split⟩

theorem exec_pkset (a : Operand) (s : State) : exec (.pkset a) s = run (.pkset a) s (fun s1 c =>
    consumeAll s1 c [tagU c a true] (fun s2 c => if c.skip then finishNop s2 c
      else finish (hold s2 c.uid (.pkrContext (readUPair c a)) none).2 c { c.w with pkr := readUPair c a } 0 [])) := rfl

/-- `pkset` sets the keys of its wave and holds those of its context (R208). -/
theorem pkset_done {s : State} {u : Nat} {w : Wave} {sp : Split} {a : Operand}
    (hc : CleanU (.pkset a) s u w sp [(a, true)]) (hact : activeMask w sp (.pkset a) ≠ 0) :
    DoneNext (.pkset a) s u w sp { w with pkr := readUPair (ctxFor s u w sp (.pkset a)) a }
      [.pkrContext (readUPair (ctxFor s u w sp (.pkset a)) a)] :=
  doneNext_hold (exec_pkset a s) _ (clean1_active _ hc hact) rfl

/-! ### Grants (R213) -/

/-- What `mgrant` may not be given: a nonzero bit where zeros stand, or an index that another block of the grid has. -/
def GrantBad (s : State) (w : Wave) (k g : Nat) : Prop :=
  g / 2 ^ 5 % 2 ^ 19 ≠ 0 ∨ g.testBit 2 = true ∨ ∃ r, mget (gridOf s w.grid).grants (g / 2 ^ 24) = some r ∧ r.block ≠ k

/-- A write to `mgrant` by a wave of block `k` whose operand is clean. -/
theorem writeGrant_clean {s : State} {u k : Nat} {w : Wave} {sp : Split} {i : Instr} {a : Operand}
    (hb : w.block = some k) (hc : CleanU i s u w sp [(a, false)]) :
    let c := ctxFor s u w sp i
    let g := readU c a
    let taken : Bool := match mget (gridOf s w.grid).grants (bits g.toNat 31 24) with
      | some r => decide (r.block ≠ k)
      | none => false
    writeGrant a s c = if c.skip then finishNop s c
      else if bits g.toNat 23 5 ≠ 0 ∨ bitAt g.toNat 2 ∨ taken then trapAt s c .illegalField g
      else finishNop (hold s u (.grant (bits g.toNat 31 24) g w.wbase) none).2 c :=
  (attached_some (c := ctxFor s u w sp i) _ hb).trans (clean1 hc s _)

/-- What a write to `mgrant` by a wave of block `k` does. -/
theorem writeGrant_attached {s : State} {u k : Nat} {w : Wave} {sp : Split} {i : Instr} {a : Operand}
    (hb : w.block = some k) (hc : CleanU i s u w sp [(a, false)]) :
    let c := ctxFor s u w sp i
    let g := readU c a
    (activeMask w sp i = 0 → writeGrant a s c = finishNop s c) ∧
    (activeMask w sp i ≠ 0 → GrantBad s w k g.toNat → writeGrant a s c = trapAt s c .illegalField g) ∧
    (activeMask w sp i ≠ 0 → ¬ GrantBad s w k g.toNat →
      writeGrant a s c = finishNop (hold s u (.grant (g.toNat / 2 ^ 24) g w.wbase) none).2 c) := by
  intro c g
  have hbad : (bits g.toNat 23 5 ≠ 0 ∨ bitAt g.toNat 2 = true ∨ (match mget (gridOf s w.grid).grants (bits g.toNat 31 24) with
      | some r => decide (r.block ≠ k)
      | none => false) = true) ↔ GrantBad s w k g.toNat := by
    rw [bitAt_eq_testBit, bits_top g (by decide)]
    refine or_congr Iff.rfl (or_congr Iff.rfl ?_)
    cases mget (gridOf s w.grid).grants (g.toNat / 2 ^ 24) <;> simp
  rw [writeGrant_clean hb hc]
  refine ⟨fun h => if_pos (skip_of_empty h), fun h hg => (if_neg (no_skip_of_active h)).trans (if_pos (hbad.2 hg)),
    fun h hg => (if_neg (no_skip_of_active h)).trans ((if_neg (mt hbad.1 hg)).trans ?_)⟩
  rw [bits_top _ (by decide)]

/-- Settles O18: `wrsr` by the register it names, `wrsr sig`, `pkset` and the writes to `mgrant` by whether ACTIVE is
empty and the value is refused. -/
theorem systemWrites : Obligations.SystemWrites := by
  unfold Obligations.SystemWrites
  intro s u w sp a x
  refine ⟨fun n hc => ⟨fun hact hn hx => wrsr_traps hc hact hn hx, doneNext_skip (exec_wrsr a n s) hc,
      fun hact hgood => wrsr_done hc hact hgood⟩,
    fun hc => ⟨sigWrite_skips hc, fun hact hr ht => sigWrite_done hc hact hr ht⟩,
    fun hc => ⟨doneNext_skip (exec_pkset a s) hc, pkset_done hc⟩, fun i hi => ?_⟩
  have hx : exec i s = run i s (writeGrant a) := by rcases hi with rfl | rfl <;> rfl
  refine ⟨fun hb => trapsOpen_of hx (attached_none _ hb), fun k hb hc => ?_⟩
  obtain ⟨hskip, htrap, hhold⟩ := writeGrant_attached hb hc
  exact ⟨fun h => doneNext_plain hx w (hskip h) rfl, fun h hg => traps_of hx (htrap h hg),
    fun h hg => doneNext_hold hx w (hhold h hg) rfl⟩

end Sys2Proof.Machine.NumberFormats
end

section
/-! PROOF. Access to accumulators (R258, R259) and quantising (R261). -/

namespace Sys2Proof.Machine.NumberFormats

/-! ### Accumulator access (R258, R259) -/

/-- What R258 forbids in a control word, with its fields as numbers. -/
theorem accCtlBad_eq (x : Word) (writes : Bool) : accCtlBad x.toNat writes =
    (decide (2 ^ 28 ≤ x.toNat) || decide (10 ≤ x.toNat / 2 ^ 24 % 2 ^ 4) || decide (x.toNat / 2 ^ 24 % 2 ^ 4 = 6) ||
      (writes && decide (x.toNat / 2 ^ 24 % 2 ^ 4 ≠ 0)) || x.toNat.testBit 23 || decide (64 < x.toNat / 2 ^ 16 % 2 ^ 7) ||
      x.toNat.testBit 15 || decide (63 < x.toNat / 2 ^ 8 % 2 ^ 7) || x.toNat.testBit 7 ||
      decide (4 < x.toNat / 2 ^ 4 % 2 ^ 3) || x.toNat.testBit 3) := by
  have hout (f : Nat) : (!outOk f) = (decide (10 ≤ f) || decide (f = 6)) := by
    rw [Bool.eq_iff_iff]; simp [outOk]
  have htop : decide (bits x.toNat 31 28 ≠ 0) = decide (2 ^ 28 ≤ x.toNat) :=
    decide_eq_decide.2 (bits_top_ne_zero x (by decide))
  unfold accCtlBad
  rw [htop, hout, ← Bool.or_assoc]
  simp only [bitAt_eq_testBit]
  rfl

/-- The checks of `accrd` and `accwr` in their order; then `go` decides. -/
theorem accAccess_checks {i : Instr} {s : State} {u b n : Nat} {w : Wave} {sp : Split} {k : State → Ctx → State}
    {ctl : Operand} {writes : Bool} {go : Nat → Nat → Nat → State} {P : Prop} (hx : exec i s = run i s k)
    (hb : w.block = some b)
    (hk : k s (ctxFor s u w sp i) = accAccess s (ctxFor s u w sp i) (.acc n) ctl writes go) :
    let x := readU (ctxFor s u w sp i) ctl
    let slot := slotWord s w.grid (x.toNat % 8)
    (k s (ctxFor s u w sp i) = go b x.toNat slot.toNat → P) →
    ChecksThen i s u w sp [(accCtlBad x.toNat writes, .illegalField, x), (slotBad slot.toNat, .formatSlot, slot),
      (decide ((blockOf s b).accs ≤ n), .tileConfig, BitVec.ofNat 32 (Operand.acc n).code)] P := by
  intro x slot hP
  refine checks_ite hx Iff.rfl (hk.trans (attached_some _ hb)) (fun h1 => checks_slot hx h1 (fun h2 => ?_))
  exact checks_ite hx decide_eq_true_iff.symm h2 (fun h3 => checks_nil (hP h3))

theorem accAccess_loose {s : State} {u : Nat} {w : Wave} {sp : Split} {i : Instr} {acc ctl : Operand} {writes : Bool}
    {go : Nat → Nat → Nat → State} (hb : w.block = none) :
    accAccess s (ctxFor s u w sp i) acc ctl writes go = trapOpen s (ctxFor s u w sp i) .looseWave :=
  attached_none _ hb

/-- What lane `l` of `accwr` writes: the number of its element, the element, and the flags of its conversion (R259). -/
def accwrLane (c : Ctx) (a : Operand) (n ctl slot l : Nat) : Nat × AccElem × Sticky :=
  let x := read32 c a l
  if bits ctl 6 4 = 0 then (accElemOf n ctl l, accIn slot (x.val.setWidth 32) x.tag)
  else (accElemOf n ctl l, { bits := x.val.setWidth 96, tag := x.tag }, 0)

theorem accwrLane_converts {c : Ctx} {a : Operand} {n ctl slot : Nat} (hp : bits ctl 6 4 = 0) :
    accwrLane c a n ctl slot = fun l => (accElemOf n ctl l, accIn slot ((read32 c a l).val.setWidth 32) (read32 c a l).tag) :=
  funext fun _ => if_pos hp

theorem accwrLane_raw {c : Ctx} {a : Operand} {n ctl slot : Nat} (hp : bits ctl 6 4 ≠ 0) :
    accwrLane c a n ctl slot = fun l =>
      (accElemOf n ctl l, { bits := (read32 c a l).val.setWidth 96, tag := (read32 c a l).tag }, 0) :=
  funext fun _ => if_neg hp

/-- The absorptions of an `accwr` of parts, whose tags meet those of the elements (R300). -/
def accwrPairs (s : State) (c : Ctx) (ctl : Nat) (ls : List (Nat × AccElem × Sticky)) : List (Nat × Nat) :=
  let seen := (seenBlock s c.uid (c.w.block.getD 0)).acc
  if bits ctl 6 4 = 0 then [] else ls.flatMap (fun x => absorptions [c.see (mgetD seen x.1 {}).tag, x.2.1.tag])

/-- `accwr` once its checks are made. -/
def accwrHold (a : Operand) (n : Nat) (s : State) (c : Ctx) (ctl slot : Nat) : State :=
  let ls := (lanesOf c.act).map (accwrLane c a n ctl slot)
  holdMatrix { s with tags := absorb s.tags (accwrPairs s c ctl ls) } c
    (.acc (ls.map (fun x => (x.1, x.2.1))) (bits ctl 6 4)) (ls.foldl (fun f x => f ||| x.2.2) 0)

theorem exec_accwr (a b : Operand) (n : Nat) (s : State) : exec (.accwr (.acc n) a b) s = run (.accwr (.acc n) a b) s
    (fun s1 c => accAccess s1 c (.acc n) b true (fun _ => accwrHold a n s1 c)) := by
  rfl

/-- Part 0 converts: the converted elements are held, and the flags of the conversions raised. -/
theorem accwrHold_converts {s : State} {c : Ctx} {a : Operand} {n ctl slot : Nat} (hp : bits ctl 6 4 = 0) :
    ∃ tags, accwrHold a n s c ctl slot = holdMatrix { s with tags := tags } c
      (.acc ((lanesOf c.act).map (fun l =>
        (accElemOf n ctl l, (accIn slot ((read32 c a l).val.setWidth 32) (read32 c a l).tag).1))) 0)
      ((lanesOf c.act).foldl (fun f l => f ||| (accIn slot ((read32 c a l).val.setWidth 32) (read32 c a l).tag).2) 0) := by
  simp only [accwrHold, accwrLane_converts hp, hp, List.map_map, List.foldl_map]
  exact ⟨_, rfl⟩

/-- Any other part is held as it stands and raises no flag. -/
theorem accwrHold_raw {s : State} {c : Ctx} {a : Operand} {n ctl slot : Nat} (hp : bits ctl 6 4 ≠ 0) :
    ∃ tags, accwrHold a n s c ctl slot = holdMatrix { s with tags := tags } c (.acc ((lanesOf c.act).map (fun l =>
      (accElemOf n ctl l, { bits := (read32 c a l).val.setWidth 96, tag := (read32 c a l).tag }))) (bits ctl 6 4)) 0 := by
  simp only [accwrHold, accwrLane_raw hp, List.map_map, List.foldl_map, foldl_or_zero]
  exact ⟨_, rfl⟩

/-- Settles O36: both instructions make the checks of `accAccess`; `accrd` then writes lane results, `accwr` holds the
elements of its lanes. -/
theorem accumulatorAccess : Obligations.AccumulatorAccess := by
  unfold Obligations.AccumulatorAccess
  intro s u w sp d a b n bad elem checks
  have hbad (x : Word) (writes : Bool) : bad x.toNat writes = accCtlBad x.toNat writes := (accCtlBad_eq x writes).symm
  refine ⟨fun hb => ⟨trapsOpen_of rfl (accAccess_loose hb), trapsOpen_of (exec_accwr a b n s) (accAccess_loose hb)⟩,
    fun k hb => ⟨?_, ?_⟩⟩
  · intro i x part slot
    simp only [checks, hbad]
    exact accAccess_checks rfl hb rfl (fun hgo => resultsDone_of rfl hgo)
  · intro i c x part slot lanes
    simp only [checks, hbad]
    refine accAccess_checks (exec_accwr a b n s) hb rfl (fun hgo => ⟨fun hp => ?_, fun hp => ?_⟩)
    · obtain ⟨tags, h⟩ := accwrHold_converts (s := s) (c := c) (a := a) (n := n) (slot := slot) hp
      exact doneNext_holdMatrix (exec_accwr a b n s) tags _ _ (hgo.trans h)
    · obtain ⟨tags, h⟩ := accwrHold_raw (s := s) (c := c) (a := a) (n := n) (slot := slot) hp
      exact doneNext_holdSilent (exec_accwr a b n s) tags _ (hgo.trans h)

/-! ### Quantising (R261) -/

/-- The 38 bytes of the two blocks that the quantiser makes of 64 lanes, written from `start` up with the tags of their
lanes, and the flags they raise (R261). -/
def quantised (slot scale start : Nat) (lane : Nat → QLane) : MatrixWrite × Sticky :=
  let low := q4xMake slot scale lane
  let high := q4xMake slot scale (fun l => lane (l + 32))
  let cells := low.1 ++ high.1
  (.tile (addrBytes start (cells.map (·.1)))
    ((cells.zip (List.range 38)).flatMap (fun y => y.1.2.map (fun g => ((start + y.2) / 32, g)))), low.2 ||| high.2)

/-- What R261 forbids in the request word under a tile configuration, with the fields as numbers. -/
theorem qcvtBad_iff (x : Word) (cfg : Nat) :
    (bitAt x.toNat 15 = true ∨ bits x.toNat 31 24 ≠ 0 ∨ bits x.toNat 7 0 = 255 ∨ tcRows cfg ≤ bits x.toNat 14 8 ∨
      16 * tcRB cfg / 19 < bits x.toNat 23 16 + 2) ↔
    (x.toNat.testBit 15 || decide (2 ^ 24 ≤ x.toNat) || decide (x.toNat % 2 ^ 8 = 255) ||
      decide (cfg % 2 ^ 8 ≤ x.toNat / 2 ^ 8 % 2 ^ 7) ||
      decide (16 * (cfg / 2 ^ 8 % 2 ^ 8) / 19 < x.toNat / 2 ^ 16 % 2 ^ 8 + 2)) = true := by
  rw [bits_top_ne_zero x (by decide), bitAt_eq_testBit, bits_low, tcRows, bits_low]
  simp only [Bool.or_eq_true, decide_eq_true_eq, or_assoc]
  rfl

/-- The lanes as the quantiser takes them: one outside ACTIVE counts as clean +0. -/
def quantLane (c : Ctx) (a : Operand) (l : Nat) : QLane :=
  if inMask c.act l then (fdecode f32 (read32 c a l).val.toNat, (read32 c a l).tag) else (.fin false 0 0, .clean)

/-- Where `qcvt` writes: block j of the row that the request word names, in a tile of a configuration. -/
def quantStart (x : Word) (cfg : Nat) : Nat :=
  tcStart cfg + 16 * tcRB cfg * bits x.toNat 14 8 + 19 * bits x.toNat 23 16

theorem exec_qcvt (n : Nat) (a : Operand) (m : BitVec 5) (f : BitVec 3) (s : State) :
    exec (.qcvt (.t n) a m f) s = run (.qcvt (.t n) a m f) s (fun s1 c => attached s1 c (fun k =>
      let x := (sReg c.w m.toNat).val
      let cfg := (mgetD (seenBlock s1 c.uid k).tconf n 0).toNat
      if bitAt x.toNat 15 = true ∨ bits x.toNat 31 24 ≠ 0 ∨ bits x.toNat 7 0 = 255 ∨ tcRows cfg ≤ bits x.toNat 14 8 ∨
          16 * tcRB cfg / 19 < bits x.toNat 23 16 + 2 then trapAt s1 c .illegalField x
      else if tcElem cfg ≠ 6 then trapAt s1 c .tileShape (BitVec.ofNat 32 (Operand.t n).code)
      else slotThen s1 c f.toNat (fun slot =>
        let q := quantised slot (bits x.toNat 7 0) (quantStart x cfg) (quantLane c a)
        holdMatrix s1 c q.1 q.2))) := rfl

/-- Settles O37: the checks of `qcvt` in their order, then one held write of the quantised blocks. -/
theorem quantising : Obligations.Quantising := by
  unfold Obligations.Quantising
  intro s u w sp a n m f i
  refine ⟨fun hb => trapsOpen_of (exec_qcvt n a m f s) (attached_none _ hb), fun k hb => ?_⟩
  intro c x cfg row j rb slot lane low high start cells
  refine checks_ite (exec_qcvt n a m f s) (qcvtBad_iff x cfg) (attached_some (c := c) _ hb) (fun h1 => ?_)
  refine checks_ite (exec_qcvt n a m f s) decide_eq_true_iff.symm h1 (fun h2 => checks_slot (exec_qcvt n a m f s) h2
    (fun h3 => checks_nil ?_))
  have hdone := doneNext_holdMatrix (exec_qcvt n a m f s) s.tags _ _ h3
  rw [bits_low] at hdone
  exact hdone

end Sys2Proof.Machine.NumberFormats
end
section
/-! SUPPORT. Instructions of a wave that waits for what it holds, or of a wave of a block. -/

namespace Sys2Proof.Machine.ExecutionContexts

open NumberFormats

/-! ### Issues that wait for the effect they hold (R88) -/

/-- A meaning that holds an effect and waits for it. -/
theorem doneNext_wait {i : Instr} {s : State} {u : Nat} {w : Wave} {sp : Split} {k : State → Ctx → State} {e : Effect}
    (hx : exec i s = run i s k) (hk : k s (ctxFor s u w sp i) = finishWait s (ctxFor s u w sp i) w e) :
    DoneNext i s u w sp { w with waitHeld := some s.nextId } [e] :=
  doneNext_hold hx _ hk rfl

/-- An attached wave consumes clean uniform operands without effect. -/
theorem attached_clean {i : Instr} {s : State} {u : Nat} {w : Wave} {sp : Split} {xs : List (Operand × Bool)}
    (hb : w.block ≠ none) (hc : CleanU i s u w sp xs) (k : State → Ctx → State) :
    attached s (ctxFor s u w sp i) (fun _ => consumeAll s (ctxFor s u w sp i)
      (xs.map (fun x => tagU (ctxFor s u w sp i) x.1 x.2)) k) = k s (ctxFor s u w sp i) := by
  obtain ⟨n, hn⟩ := Option.ne_none_iff_exists'.1 hb
  exact (attached_some (c := ctxFor s u w sp i) _ hn).trans (consumeAll_cleanU hc s k)

end Sys2Proof.Machine.ExecutionContexts
end

section
/-! PROOF. The barrier instructions (R93 to R96). -/

namespace Sys2Proof.Machine.ExecutionContexts

/-- An arrival for the generation under way or the next one goes on. -/
theorem arriveThen_near {s : State} {c : Ctx} {k n : Nat} {go : Word → State} {e : Word}
    (he : memE (mgetD (blockOf s k).members c.uid {}) n = e)
    (h : e = (barAt (blockOf s k) n).g ∨ e = (barAt (blockOf s k) n).g + 1) : arriveThen s c k (.b n) go = go e := by
  subst he
  exact if_pos h

/-- Any other arrival traps. -/
theorem arriveThen_ahead {s : State} {c : Ctx} {k n : Nat} {go : Word → State} {e : Word}
    (he : memE (mgetD (blockOf s k).members c.uid {}) n = e)
    (h : ¬ (e = (barAt (blockOf s k) n).g ∨ e = (barAt (blockOf s k) n).g + 1)) :
    arriveThen s c k (.b n) go = trapAt s c .barrierAhead (BitVec.ofNat 32 (Operand.b n).code) := by
  subst he
  exact if_neg h

theorem genAbove_of_pos {x y : Word} (h : 0 < (x - y).toInt) : genAbove x y = true := decide_eq_true h

theorem genAbove_of_nonpos {x y : Word} (h : (x - y).toInt ≤ 0) : genAbove x y = false :=
  decide_eq_false (Int.not_lt.2 h)

theorem exec_bar (a : Operand) (s : State) : exec (.bar a) s = run (.bar a) s (fun s1 c => attached s1 c (fun k =>
    arriveThen s1 c k a (fun e => finishPark (hold s1 c.uid (.arrive (barOf a)) none).2 c
      { c.w with waitHeld := some s1.nextId } (.generation (barOf a) e) none))) := rfl

theorem exec_barrive (d a : Operand) (s : State) : exec (.barrive d a) s = run (.barrive d a) s (fun s1 c =>
    attached s1 c (fun k => arriveThen s1 c k a (fun _ =>
      finishWait s1 c c.w (.arriveTo (barOf a) (uniformDest d))))) := rfl

theorem exec_bwait (a b : Operand) (s : State) : exec (.bwait a b) s = run (.bwait a b) s (fun s1 c =>
    attached s1 c (fun k => consumeAll s1 c [tagU c b false] (fun s2 c =>
      if !genAbove (memE (mgetD (blockOf s2 k).members c.uid {}) (barOf a)) (readU c b) then
        trapAt s2 c .barrierAhead (readU c b)
      else if genAbove (barAt (blockOf s2 k) (barOf a)).g (readU c b) then finishNop s2 c
      else finishPark s2 c c.w (.generation (barOf a) (readU c b)) none))) := rfl

/-- What `bwait` of an attached wave does once its operand is consumed. -/
theorem bwait_clean {s : State} {u k n : Nat} {w : Wave} {sp : Split} {b : Operand} (hb : w.block = some k)
    (hc : CleanU (.bwait (.b n) b) s u w sp [(b, false)]) :
    let c := ctxFor s u w sp (.bwait (.b n) b)
    let x := readU c b
    attached s c (fun k => consumeAll s c [tagU c b false] (fun s2 c =>
      if !genAbove (memE (mgetD (blockOf s2 k).members c.uid {}) n) (readU c b) then
        trapAt s2 c .barrierAhead (readU c b)
      else if genAbove (barAt (blockOf s2 k) n).g (readU c b) then finishNop s2 c
      else finishPark s2 c c.w (.generation n (readU c b)) none)) =
    if !genAbove (memE (mgetD (blockOf s k).members u {}) n) x then trapAt s c .barrierAhead x
      else if genAbove (barAt (blockOf s k) n).g x then finishNop s c
      else finishPark s c w (.generation n x) none :=
  (attached_some (c := ctxFor s u w sp (.bwait (.b n) b)) _ hb).trans (clean1 hc s _)

/-- Settles O25: an arrival by its generation, `bwait` by where the generation stands. -/
theorem barriers : Obligations.Barriers := by
  unfold Obligations.Barriers
  intro s u w sp d b n a
  refine ⟨fun hb => ⟨trapsOpen_of (exec_bar a s) (attached_none _ hb), trapsOpen_of (exec_barrive d a s) (attached_none _ hb),
    trapsOpen_of (exec_bwait a b s) (attached_none _ hb)⟩, ?_⟩
  intro k hb e g
  refine ⟨fun hnear => ⟨?_, ?_⟩, fun hfar => ⟨?_, ?_⟩, fun hc => ⟨fun he => ?_, fun he hg => ?_, fun he hg => ?_⟩⟩
  · exact done_hold (exec_bar a s) _ (fun x => parkedAt x (.bar a) (.generation n e) none)
      ((attached_some (c := ctxFor s u w sp (.bar a)) _ hb).trans (arriveThen_near rfl hnear)) rfl rfl
  · exact doneNext_wait (exec_barrive d a s)
      ((attached_some (c := ctxFor s u w sp (.barrive d a)) _ hb).trans (arriveThen_near rfl hnear))
  · exact traps_of (exec_bar a s)
      ((attached_some (c := ctxFor s u w sp (.bar a)) _ hb).trans (arriveThen_ahead rfl hfar))
  · exact traps_of (exec_barrive d a s)
      ((attached_some (c := ctxFor s u w sp (.barrive d a)) _ hb).trans (arriveThen_ahead rfl hfar))
  · refine traps_of (exec_bwait a b s) ((bwait_clean hb hc).trans ?_)
    rw [genAbove_of_nonpos he]
    rfl
  · refine doneNext_plain (exec_bwait a b s) w ((bwait_clean hb hc).trans ?_) rfl
    rw [genAbove_of_pos he, genAbove_of_pos hg]
    rfl
  · refine park_done (exec_bwait a b s) ((bwait_clean hb hc).trans ?_)
    rw [genAbove_of_pos he, genAbove_of_nonpos hg]
    rfl

end Sys2Proof.Machine.ExecutionContexts
end

section
/-! PROOF. Elastic membership (R86, R89 to R91, R157). -/

namespace Sys2Proof.Machine.ExecutionContexts

open NumberFormats

/-- What R89 forbids in the word of `grow`. -/
def GrowBad (q : Nat) : Prop := 2 ^ 9 ≤ q ∨ q / 2 ^ 6 % 4 ≠ 0 ∨ q % 64 = 0

theorem growBad_iff (q : Nat) : (q / 2 ^ 9 ≠ 0 ∨ bits q 7 6 ≠ 0 ∨ q % 64 = 0) ↔ GrowBad q :=
  or_congr (by omega) Iff.rfl

theorem exec_grow (d a b : Operand) (s : State) : exec (.grow d a b) s = run (.grow d a b) s (fun s1 c =>
    attached s1 c (fun _ => consumeAll s1 c [tagU c a false, tagU c b false] (fun s2 c =>
      if (readU c a).toNat / 2 ^ 9 ≠ 0 ∨ bits (readU c a).toNat 7 6 ≠ 0 ∨ (readU c a).toNat % 64 = 0 then
        trapAt s2 c .illegalField (readU c a)
      else withTarget s2 c (wordOffset c.sp.pc (readU c b).toInt) (fun s3 => finishWait s3 c c.w
        (.grow ((readU c a).toNat % 64) (bitAt (readU c a).toNat 8) (wordOffset c.sp.pc (readU c b).toInt) (uniformDest d)
          c.w.s c.w.a c.w.clock))))) := rfl

theorem grow_traps {s : State} {u : Nat} {w : Wave} {sp : Split} {d a b : Operand} (hb : w.block ≠ none)
    (hc : CleanU (.grow d a b) s u w sp [(a, false), (b, false)])
    (hbad : GrowBad (readU (ctxFor s u w sp (.grow d a b)) a).toNat) :
    Traps (.grow d a b) s u w sp .illegalField (readU (ctxFor s u w sp (.grow d a b)) a) :=
  traps_of (exec_grow d a b s) ((attached_clean hb hc _).trans (if_pos ((growBad_iff _).2 hbad)))

theorem grow_done {s : State} {u : Nat} {w : Wave} {sp : Split} {d a b : Operand} (hb : w.block ≠ none)
    (hc : CleanU (.grow d a b) s u w sp [(a, false), (b, false)])
    (hgood : ¬ GrowBad (readU (ctxFor s u w sp (.grow d a b)) a).toNat) :
    let c := ctxFor s u w sp (.grow d a b)
    let q := (readU c a).toNat
    let va := wordOffset sp.pc (readU c b).toInt
    TargetTested (.grow d a b) s u w sp va (DoneNext (.grow d a b) s u w sp { w with waitHeld := some s.nextId }
      [.grow (q % 64) (q.testBit 8) va (uniformDest d) w.s w.a w.clock]) := by
  intro c q va
  refine targetTested_of (exec_grow d a b s) ((attached_clean hb hc _).trans (if_neg (mt (growBad_iff _).1 hgood))) (fun hk => ?_)
  rw [← bitAt_eq_testBit]
  exact doneNext_wait (exec_grow d a b s) hk

theorem exec_attach (d a : Operand) (s : State) : exec (.attach d a) s = run (.attach d a) s (fun s1 c =>
    match c.w.block with
    | some _ => trapAt s1 c .illegalIssue 0
    | none => consumeAll s1 c [tagU c a false] (fun s2 c =>
        finishWait s2 c c.w (.attach (readU c a).toNat (uniformDest d)))) := rfl

theorem attach_traps {s : State} {u : Nat} {w : Wave} {sp : Split} {d a : Operand} (hb : w.block ≠ none) :
    Traps (.attach d a) s u w sp .illegalIssue 0 := by
  obtain ⟨n, hn⟩ := Option.ne_none_iff_exists'.1 hb
  refine traps_of (exec_attach d a s) ?_
  have h : (ctxFor s u w sp (.attach d a)).w.block = some n := hn
  rw [h]

theorem attach_done {s : State} {u : Nat} {w : Wave} {sp : Split} {d a : Operand} (hb : w.block = none)
    (hc : CleanU (.attach d a) s u w sp [(a, false)]) :
    DoneNext (.attach d a) s u w sp { w with waitHeld := some s.nextId }
      [.attach (readU (ctxFor s u w sp (.attach d a)) a).toNat (uniformDest d)] := by
  refine doneNext_wait (exec_attach d a s) ?_
  have h : (ctxFor s u w sp (.attach d a)).w.block = none := hb
  rw [h]
  exact clean1 hc s _

theorem exec_detach (a : Operand) (s : State) : exec (.detach a) s = run (.detach a) s (fun s1 c =>
    attached s1 c (fun _ => consumeAll s1 c [tagU c a false] (fun s2 c =>
      if readU c a = 0 ∨ readU c a = 1 then finishWait s2 c c.w (.detach (readU c a = 1))
      else trapAt s2 c .illegalField (readU c a)))) := rfl

/-- Settles O26: each change of membership is held once its operands and fields are good; `grow` then tests its target. -/
theorem membership : Obligations.Membership := by
  unfold Obligations.Membership
  intro s u w sp d a b waiting
  refine ⟨fun hb => ⟨trapsOpen_of (exec_grow d a b s) (attached_none _ hb), trapsOpen_of (exec_detach a s) (attached_none _ hb)⟩,
    attach_traps, fun hb hc => ⟨grow_traps hb hc, grow_done hb hc⟩, attach_done, fun hb hc => ?_, doneNext_wait rfl rfl⟩
  exact ⟨fun hx => doneNext_wait (exec_detach a s) ((attached_clean hb hc _).trans (if_pos hx)),
    fun hx => traps_of (exec_detach a s) ((attached_clean hb hc _).trans (if_neg hx))⟩

end Sys2Proof.Machine.ExecutionContexts
end

section
/-! PROOF. Matrix state (R247, R248, R250, R255, R259, R260). -/

namespace Sys2Proof.Machine.ExecutionContexts

open NumberFormats

/-! ### Configurations and windows of tiles -/

theorem exec_tcfg (n : Nat) (a : Operand) (s : State) : exec (.tcfg (.t n) a) s = run (.tcfg (.t n) a) s (fun s1 c =>
    attached s1 c (fun k =>
      if tcRows (readU c a).toNat = 0 ∨ 128 < tcRows (readU c a).toNat ∨ tcRB (readU c a).toNat = 0 ∨
          16 < tcRB (readU c a).toNat ∨ 8 < tcElem (readU c a).toNat then trapAt s1 c .illegalField (readU c a)
      else if (blockOf s1 k).tileLen < tcStart (readU c a).toNat + 16 * tcRB (readU c a).toNat * tcRows (readU c a).toNat then
        trapAt s1 c .tileConfig (readU c a)
      else holdMatrix s1 c (.tconf n (readU c a)) 0)) := rfl

theorem tcRows_eq (x : Nat) : tcRows x = x % 2 ^ 8 := bits_low x 7

theorem tcStart_eq (x : Word) : tcStart x.toNat = 256 * (x.toNat / 2 ^ 20) := by rw [tcStart, bits_top x (by decide)]

/-- What R248 forbids in a configuration word, with its fields as numbers. -/
theorem tcfgBad_iff (x : Nat) :
    (tcRows x = 0 ∨ 128 < tcRows x ∨ tcRB x = 0 ∨ 16 < tcRB x ∨ 8 < tcElem x) ↔
    (decide (x % 2 ^ 8 = 0) || decide (128 < x % 2 ^ 8) || decide (x / 2 ^ 8 % 2 ^ 8 = 0) ||
      decide (16 < x / 2 ^ 8 % 2 ^ 8) || decide (8 < x / 2 ^ 16 % 2 ^ 4)) = true := by
  simp only [Bool.or_eq_true, decide_eq_true_eq, or_assoc, tcRows_eq]
  rfl

/-- The checks of `tcfg`, then its held write. -/
theorem tcfg_checks {s : State} {u k n : Nat} {w : Wave} {sp : Split} {a : Operand} (hb : w.block = some k) :
    let x := readU (ctxFor s u w sp (.tcfg (.t n) a)) a
    ChecksThen (.tcfg (.t n) a) s u w sp
      [(decide (x.toNat % 2 ^ 8 = 0) || decide (128 < x.toNat % 2 ^ 8) || decide (x.toNat / 2 ^ 8 % 2 ^ 8 = 0) ||
          decide (16 < x.toNat / 2 ^ 8 % 2 ^ 8) || decide (8 < x.toNat / 2 ^ 16 % 2 ^ 4), .illegalField, x),
        (decide ((blockOf s k).tileLen < 256 * (x.toNat / 2 ^ 20) + 16 * (x.toNat / 2 ^ 8 % 2 ^ 8) * (x.toNat % 2 ^ 8)),
          .tileConfig, x)] (DoneNext (.tcfg (.t n) a) s u w sp w [.matrix (.tconf n x)]) := by
  intro x
  refine checks_ite (exec_tcfg n a s) (tcfgBad_iff _) (attached_some (c := ctxFor s u w sp (.tcfg (.t n) a)) _ hb) (fun h1 => ?_)
  refine checks_ite (exec_tcfg n a s) ?_ h1 (fun h2 => checks_nil (doneNext_holdSilent (exec_tcfg n a s) s.tags _ h2))
  rw [decide_eq_true_iff, tcStart_eq, tcRows_eq]
  rfl

theorem exec_twin (n : Nat) (a : Operand) (s : State) : exec (.twin (.t n) a) s = run (.twin (.t n) a) s (fun s1 c =>
    attached s1 c (fun _ =>
      if bits (readU c a).toNat 31 22 ≠ 0 ∨ 127 < bits (readU c a).toNat 7 0 then trapAt s1 c .illegalField (readU c a)
      else holdMatrix s1 c (.twind n (readU c a)) 0)) := rfl

/-- What R250 forbids in a window word, with its fields as numbers. -/
theorem twinBad_iff (x : Word) : (bits x.toNat 31 22 ≠ 0 ∨ 127 < bits x.toNat 7 0) ↔
    (decide (2 ^ 22 ≤ x.toNat) || decide (127 < x.toNat % 2 ^ 8)) = true := by
  rw [bits_top_ne_zero x (by decide), bits_low, Bool.or_eq_true, decide_eq_true_eq, decide_eq_true_eq]

/-- The check of `twin`, then its held write. -/
theorem twin_checks {s : State} {u k n : Nat} {w : Wave} {sp : Split} {a : Operand} (hb : w.block = some k) :
    let x := readU (ctxFor s u w sp (.twin (.t n) a)) a
    ChecksThen (.twin (.t n) a) s u w sp [(decide (2 ^ 22 ≤ x.toNat) || decide (127 < x.toNat % 2 ^ 8), .illegalField, x)]
      (DoneNext (.twin (.t n) a) s u w sp w [.matrix (.twind n x)]) := by
  intro x
  exact checks_ite (exec_twin n a s) (twinBad_iff _) (attached_some (c := ctxFor s u w sp (.twin (.t n) a)) _ hb)
    (fun h => checks_nil (doneNext_holdSilent (exec_twin n a s) s.tags _ h))

/-! ### Accumulators and histograms -/

theorem exec_accz (n : Nat) (s : State) : exec (.accz (.acc n)) s = run (.accz (.acc n)) s (fun s1 c =>
    attached s1 c (fun k =>
      if (blockOf s1 k).accs ≤ n then trapAt s1 c .tileConfig (BitVec.ofNat 32 (Operand.acc n).code)
      else holdMatrix s1 c (.accClear n) 0)) := rfl

/-- The check of `accz`, then its held write. -/
theorem accz_checks {s : State} {u k n : Nat} {w : Wave} {sp : Split} (hb : w.block = some k) :
    ChecksThen (.accz (.acc n)) s u w sp
      [(decide ((blockOf s k).accs ≤ n), .tileConfig, BitVec.ofNat 32 (Operand.acc n).code)]
      (DoneNext (.accz (.acc n)) s u w sp w [.matrix (.accClear n)]) :=
  checks_ite (exec_accz n s) decide_eq_true_iff.symm (attached_some (c := ctxFor s u w sp (.accz (.acc n))) _ hb)
    (fun h => checks_nil (doneNext_holdSilent (exec_accz n s) s.tags _ h))

/-- Whether a decoded value is no NaN. -/
def isNumber : FVal → Bool
  | .nan _ _ => false
  | _ => true

/-- A binary32 is a NaN where its exponent is all ones and its fraction is not zero (R48). -/
theorem isNumber_f32 (x : Nat) :
    isNumber (fdecode f32 x) = !(decide (x / 2 ^ 23 % 2 ^ 8 = 255) && decide (x % 2 ^ 23 ≠ 0)) := by
  have hdecode (ex fr : Nat) (neg : Bool) (y z : Int) (n : Nat) : isNumber (if ex = 255 ∧ Top.ieee = Top.ieee then
      (if fr = 0 then .inf neg else .nan neg fr)
      else if ex = 255 ∧ Top.ieee = Top.nanOnly ∧ fr = 2 ^ 23 - 1 then .nan neg fr
      else if ex = 0 then .fin neg fr y else .fin neg n z) = !(decide (ex = 255) && decide (fr ≠ 0)) := by
    by_cases he : ex = 255
    · by_cases hf : fr = 0 <;> simp [he, hf, isNumber]
    · by_cases h0 : ex = 0 <;> simp [he, h0, isNumber]
  exact hdecode _ _ _ _ _ _

/-- The lanes that `hist` counts. -/
def histLanes (c : Ctx) (a : Operand) : List Nat :=
  (lanesOf c.act).filter (fun l => isNumber (fdecode f32 (read32 c a l).val.toNat))

theorem exec_hist (a : Operand) (s : State) : exec (.hist a) s = run (.hist a) s (fun s1 c => attached s1 c (fun _ =>
    holdMatrix { s1 with tags := absorb s1.tags (absorptions ((histLanes c a).map (fun l => (read32 c a l).tag))) } c
      (.histAdd ((histLanes c a).map (fun l => bits (read32 c a l).val.toNat 30 23))
        (mergeTags ((histLanes c a).map (fun l => (read32 c a l).tag)))) 0)) := rfl

theorem exec_hclr (s : State) : exec .hclr s = run .hclr s (fun s1 c => attached s1 c (fun _ =>
    holdMatrix s1 c .histClear 0)) := rfl

/-- The wave with a value written into a uniform destination, unless the instruction writes nothing. -/
def putUnless (skip : Bool) (d : Option Nat) (w : Wave) (x : TWord) : Wave :=
  match skip, d with
  | false, some r => setS w r x
  | _, _ => w

theorem putUnless_putU (m : LaneMask) (d : Operand) (w : Wave) (x : TWord) :
    putUnless (decide (m = 0)) (uniformDest d) w x = putU w m d x := by
  cases d with
  | s n =>
    by_cases h : m = 0
    · rw [decide_eq_true h]
      exact (if_pos h).symm
    · rw [decide_eq_false h]
      exact (if_neg h).symm
  | _ => cases decide (m = 0) <;> rfl

theorem putUnless_splits (skip : Bool) (d : Option Nat) (w : Wave) (x : TWord) :
    (putUnless skip d w x).splits = w.splits := by
  unfold putUnless
  split <;> rfl

/-! ### Scales -/

theorem exec_hscale (d a : Operand) (s : State) : exec (.hscale d a) s = run (.hscale d a) s (fun s1 c =>
    attached s1 c (fun k =>
      if bits (readU c a).toNat 10 0 = 0 ∨ 1024 < bits (readU c a).toNat 10 0 ∨
          ¬ ([3, 4, 5, 6, 7, 8].contains (bits (readU c a).toNat 19 16)) ∨ bits (readU c a).toNat 15 11 ≠ 0 ∨
          bits (readU c a).toNat 31 20 ≠ 0 then trapAt s1 c .illegalField (readU c a)
      else finish s1 c (putUnless c.skip (uniformDest d) c.w
        ⟨BitVec.ofNat 32 (scaleFor (seenBlock s1 c.uid k).hist (bits (readU c a).toNat 10 0) (bits (readU c a).toNat 19 16)),
          c.see (seenBlock s1 c.uid k).histTag⟩) 0 [])) := rfl

/-- The fields of the word of `hscale` as numbers. -/
theorem hscaleBad_iff (x : Word) :
    (bits x.toNat 10 0 = 0 ∨ 1024 < bits x.toNat 10 0 ∨ ¬ ([3, 4, 5, 6, 7, 8].contains (bits x.toNat 19 16) = true) ∨
      bits x.toNat 15 11 ≠ 0 ∨ bits x.toNat 31 20 ≠ 0) ↔
    (decide (x.toNat % 2 ^ 11 = 0) || decide (1024 < x.toNat % 2 ^ 11) ||
      !([3, 4, 5, 6, 7, 8].contains (x.toNat / 2 ^ 16 % 2 ^ 4)) || decide (x.toNat / 2 ^ 11 % 2 ^ 5 ≠ 0) ||
      decide (2 ^ 20 ≤ x.toNat)) = true := by
  rw [bits_top_ne_zero x (by decide), bits_low]
  simp only [Bool.or_eq_true, decide_eq_true_eq, Bool.not_eq_true', Bool.not_eq_true, or_assoc]
  rfl

/-- The check of `hscale`, then the scale written. -/
theorem hscale_checks {s : State} {u k : Nat} {w : Wave} {sp : Split} {d a : Operand} (hb : w.block = some k) :
    let x := readU (ctxFor s u w sp (.hscale d a)) a
    let b := seenBlock s u k
    ChecksThen (.hscale d a) s u w sp
      [(decide (x.toNat % 2 ^ 11 = 0) || decide (1024 < x.toNat % 2 ^ 11) ||
        !([3, 4, 5, 6, 7, 8].contains (x.toNat / 2 ^ 16 % 2 ^ 4)) || decide (x.toNat / 2 ^ 11 % 2 ^ 5 ≠ 0) ||
        decide (2 ^ 20 ≤ x.toNat), .illegalField, x)]
      (DoneNext (.hscale d a) s u w sp (putU w (activeMask w sp (.hscale d a)) d
        ⟨BitVec.ofNat 32 (scaleFor b.hist (x.toNat % 2 ^ 11) (x.toNat / 2 ^ 16 % 2 ^ 4)), seeTag s.tags w.part b.histTag⟩)
        []) := by
  intro x b
  refine checks_ite (exec_hscale d a s) (hscaleBad_iff _) (attached_some (c := ctxFor s u w sp (.hscale d a)) _ hb)
    (fun h => checks_nil ?_)
  rw [← putUnless_putU, ← bits_low x.toNat 10]
  exact doneNext_plain (exec_hscale d a s) _ h (putUnless_splits _ _ _ _)

/-- Settles O35: the checks of each instruction in their order, then its held write or the scale it reads. -/
theorem matrixState : Obligations.MatrixState := by
  unfold Obligations.MatrixState
  intro s u w sp d a n held
  refine ⟨?_, fun k hb => ⟨tcfg_checks hb, twin_checks hb, accz_checks hb, ?_, ?_, hscale_checks hb⟩⟩
  · rintro hb i (rfl | rfl | rfl | rfl | rfl | rfl)
    · exact trapsOpen_of (exec_tcfg n a s) (attached_none _ hb)
    · exact trapsOpen_of (exec_twin n a s) (attached_none _ hb)
    · exact trapsOpen_of (exec_accz n s) (attached_none _ hb)
    · exact trapsOpen_of (exec_hist a s) (attached_none _ hb)
    · exact trapsOpen_of (exec_hclr s) (attached_none _ hb)
    · exact trapsOpen_of (exec_hscale d a s) (attached_none _ hb)
  · intro i value isNum lanes
    have hlanes : histLanes (ctxFor s u w sp i) a = lanes := List.filter_congr (fun l _ => isNumber_f32 _)
    rw [← hlanes]
    exact doneNext_holdSilent (exec_hist a s) _ _ (attached_some (c := ctxFor s u w sp i) _ hb)
  · exact doneNext_holdSilent (exec_hclr s) s.tags _ (attached_some (c := ctxFor s u w sp .hclr) _ hb)

end Sys2Proof.Machine.ExecutionContexts
end

section
/-! PROOF. Copies and gathers (R165, R170, R173). -/

namespace Sys2Proof.Machine.ExecutionContexts

open NumberFormats

/-! ### Checks made by a function that answers the first trap -/

/-- The trap of a check, if there is one, or else `go`. -/
def trapOr (s : State) (c : Ctx) (t : Option (Cause × Word)) (go : State) : State :=
  match t with
  | some x => trapAt s c x.1 x.2
  | none => go

/-- A meaning that traps as the first of some checks that holds, or goes on. -/
theorem checks_trapOr {i : Instr} {s : State} {u : Nat} {w : Wave} {sp : Split} {k : State → Ctx → State}
    {checks : List (Bool × Cause × Word)} {go : State} {P : Prop} (hx : exec i s = run i s k)
    (hk : k s (ctxFor s u w sp i) = trapOr s (ctxFor s u w sp i) ((checks.find? (·.1)).map (·.2)) go)
    (hP : k s (ctxFor s u w sp i) = go → P) : ChecksThen i s u w sp checks P :=
  ⟨fun x h => traps_of hx (hk.trans (by rw [h]; rfl)), fun h => hP (hk.trans (by rw [h]; rfl))⟩

/-- The trap of a check in front of others. -/
theorem firstTrap_cons {p : Prop} [Decidable p] {b : Bool} {x : Cause × Word} {r : List (Bool × Cause × Word)}
    {y : Option (Cause × Word)} (hp : p ↔ b = true) (hy : y = (r.find? (·.1)).map (·.2)) :
    (if p then some x else y) = (((b, x) :: r).find? (·.1)).map (·.2) := by
  subst hy
  by_cases h : b = true
  · rw [if_pos (hp.2 h), List.find?_cons_of_pos h]
    rfl
  · rw [if_neg (mt hp.1 h), List.find?_cons_of_neg h]

/-! ### Copy requests (R165, R170) -/

/-- The request in the eight registers from `s n` on, with its fields as numbers. -/
def requestAt (w : Wave) (n : Nat) : CopyReq :=
  let x (j : Nat) : Nat := (sReg w (n + j)).val.toNat
  { desc := x 0 + 2 ^ 32 * x 1, coord := [x 2 % 2 ^ 16, x 2 / 2 ^ 16, x 3 % 2 ^ 16, x 3 / 2 ^ 16]
    layout := [(sReg w (n + 4)).val, (sReg w (n + 5)).val, (sReg w (n + 6)).val], stream := (x 7).testBit 25
    halo := (x 7).testBit 24, length := x 7 % 2 ^ 24, pkr := w.pkr }

theorem requestOf_eq (c : Ctx) (n : Nat) : requestOf c (.s n) = requestAt c.w n := by
  unfold requestOf
  dsimp only
  rw [bits_top _ (by decide), bits_top _ (by decide), bitAt_eq_testBit, bitAt_eq_testBit, bits_low, bits_low, bits_low]
  rfl

/-- The checks of a request in their order (R170). -/
def requestChecks (w : Wave) (n : Nat) : List (Bool × Cause × Word) :=
  let r (j : Nat) : Word := (sReg w (n + j)).val
  let lay : Layout := { w0 := (r 4).toNat, w1 := (r 5).toNat, w2 := (r 6).toNat }
  [(decide (2 ^ 17 ≤ (r 1).toNat), .illegalField, r 1), (decide (2 ^ 26 ≤ (r 7).toNat), .illegalField, r 7),
    (layoutBad lay, .illegalField, r 4), (decide ((r 0).toNat % 2 ^ 6 ≠ 0), .copyAlign, r 0),
    (decide ((r 7).toNat % 2 ^ 24 % layEsize lay ≠ 0), .copyAlign, BitVec.ofNat 32 ((r 7).toNat % 2 ^ 24))]

theorem requestTrap_eq (c : Ctx) (n : Nat) :
    requestTrap c (.s n) = ((requestChecks c.w n).find? (·.1)).map (·.2) := by
  unfold requestTrap
  dsimp only
  rw [requestOf_eq]
  refine firstTrap_cons ?_ (firstTrap_cons ?_ (firstTrap_cons Iff.rfl (firstTrap_cons ?_ (firstTrap_cons ?_ rfl))))
  · rw [bits_top_ne_zero _ (by decide), decide_eq_true_iff]; rfl
  · rw [bits_top_ne_zero _ (by decide), decide_eq_true_iff]; rfl
  · rw [bits_low, decide_eq_true_iff]; rfl
  · rw [decide_eq_true_iff]; rfl

/-- What `copyThen` of an attached wave does once the registers of its request are consumed. -/
theorem copyThen_clean {i : Instr} {s : State} {u n : Nat} {w : Wave} {sp : Split} (hb : w.block ≠ none)
    (hc : ∀ j, j < 8 → seeTag s.tags w.part (sReg w (n + j)).tag = .clean) (k : State → Ctx → CopyReq → State) :
    let c := ctxFor s u w sp i
    copyThen s c (.s n) k = trapOr s c (((requestChecks w n).find? (·.1)).map (·.2)) (k s c (requestAt w n)) := by
  intro c
  obtain ⟨b, hb⟩ := Option.ne_none_iff_exists'.1 hb
  have hcopy : copyThen s c (.s n) k = trapOr s c (requestTrap c (.s n)) (k s c (requestOf c (.s n))) := by
    refine (attached_some (c := c) _ hb).trans (consumeAll_clean s c _ _ ?_)
    intro t ht
    obtain ⟨j, hj, rfl⟩ := List.mem_map.1 ht
    exact hc j (List.mem_range.1 hj)
  rw [hcopy, requestTrap_eq, requestOf_eq]
  rfl

/-- A copy makes its checks, then asks for a place in its queue. -/
theorem copy_checks {i : Instr} {s : State} {u n q : Nat} {w : Wave} {sp : Split} {out : Bool}
    (hx : exec i s = run i s (startCopy (.q q) (.s n) out)) (hb : w.block ≠ none)
    (hc : ∀ j, j < 8 → seeTag s.tags w.part (sReg w (n + j)).tag = .clean) :
    ChecksThen i s u w sp (requestChecks w n) (EngineBegun i s u w sp q (.copy out [(u, requestAt w n)]) true) :=
  checks_trapOr hx (copyThen_clean hb hc _) (fun h => engineBegun_of hx h)

/-! ### Gathers (R173) -/

/-- The lanes of a gather with their addresses. -/
def gatherLanes (c : Ctx) (a : Operand) : List (Nat × Nat) := laneOffsets c (fun l => (readPair c a l).val.toNat)

/-- `gath` once its addresses are consumed. -/
def gatherFrom (d a b : Operand) (s : State) (c : Ctx) : State :=
  if (gatherLanes c a).isEmpty then finishNop s c
  else trapOr s c (gatherTrap s c (readU c b).toNat (readU c d).toNat (gatherLanes c a)) (withPlaces s c [6] (fun s1 =>
    startEngine s1 c 6 (.gather (2 ^ ((readU c b).toNat % 4)) (readU c d).toNat (gatherLanes c a)) true))

theorem exec_gath (d a b : Operand) (s : State) : exec (.gath d a b) s = run (.gath d a b) s (fun s1 c =>
    attached s1 c (fun _ => consumeThen s1 c c.act (fun l => [(readPair c a l).tag]) (decide (rank a = 0))
      (gatherFrom d a b))) := rfl

/-- The checks of a gather of block `k` in their order (R173). -/
def gatherChecks (s : State) (k : Nat) (ctl off : Word) (ls : List (Nat × Nat)) : List (Bool × Cause × Word) :=
  let e := 2 ^ (ctl.toNat % 4)
  let lane := ls.find? (fun l => decide (l.2 % e ≠ 0))
  [(decide (4 ≤ ctl.toNat), .illegalField, ctl),
    (decide (off.toNat % e ≠ 0) || decide ((blockOf s k).spadLen < off.toNat + 64 * e), .spadRange, off),
    (lane.isSome, .copyAlign, BitVec.ofNat 32 ((lane.map (·.1)).getD 0))]

theorem gatherTrap_eq {s : State} {c : Ctx} {k : Nat} (hb : c.w.block = some k) (ctl off : Word) (ls : List (Nat × Nat)) :
    gatherTrap s c ctl.toNat off.toNat ls = ((gatherChecks s k ctl off ls).find? (·.1)).map (·.2) := by
  unfold gatherTrap
  dsimp only
  rw [hb, BitVec.ofNat_toNat, BitVec.ofNat_toNat, BitVec.setWidth_eq, BitVec.setWidth_eq]
  refine firstTrap_cons ?_ (firstTrap_cons ?_ ?_)
  · rw [decide_eq_true_iff]; omega
  · rw [Bool.or_eq_true, decide_eq_true_iff, decide_eq_true_iff]; rfl
  · cases ls.find? (fun l => decide (l.2 % 2 ^ (ctl.toNat % 4) ≠ 0)) <;> rfl

/-- A gather of an attached wave with clean addresses: with no lane it does nothing, else it makes its checks, then asks
for a place in `qg`. -/
theorem gath_checks {s : State} {u k : Nat} {w : Wave} {sp : Split} {d a b : Operand} (hb : w.block = some k)
    (hc : CleanLanes (.gath d a b) s u w sp a true) :
    let g : Instr := .gath d a b
    let c := ctxFor s u w sp g
    let ls := activeAddrs w sp g (fun l => (readPair c a l).val.toNat)
    let ctl := readU c b
    let off := readU c d
    (ls = [] → DoneNext g s u w sp w []) ∧
    (ls ≠ [] → ChecksThen g s u w sp (gatherChecks s k ctl off ls)
      (EngineBegun g s u w sp 6 (.gather (2 ^ (ctl.toNat % 4)) off.toNat ls) true)) := by
  intro g c ls ctl off
  have hx := exec_gath d a b s
  have hk := (attached_some (s := s) (c := c) (fun _ => consumeThen s c c.act (fun l => [(readPair c a l).tag])
    (decide (rank a = 0)) (gatherFrom d a b)) hb).trans (clean_pair hc s (decide (rank a = 0)) (gatherFrom d a b))
  have hls : gatherLanes c a = ls := rfl
  refine ⟨fun h => doneNext_plain hx w (hk.trans (if_pos ?_)) rfl, fun h => ?_⟩
  · rw [show gatherLanes (ctxFor s u w sp (.gath d a b)) a = [] from h]
    rfl
  · refine checks_trapOr hx (hk.trans ((if_neg ?_).trans ?_)) (fun hgo => engineBegun_of hx hgo)
    · rwa [List.isEmpty_iff]
    · exact congrArg (fun t => trapOr s c t _) (gatherTrap_eq (c := c) hb ctl off ls)

/-- Settles O39: the checks of a copy or gather in their order, then its request. -/
theorem copies : Obligations.Copies := by
  unfold Obligations.Copies
  intro s u w sp q n a b d i out
  refine ⟨fun hi => ?_, fun hb => trapsOpen_of (exec_gath d a b s) (attached_none _ hb), fun k hb hc => gath_checks hb hc⟩
  have hx : exec i s = run i s (startCopy (.q q) (.s n) out) := by
    rcases hi with ⟨rfl, rfl⟩ | ⟨rfl, rfl⟩ <;> rfl
  exact ⟨fun hb => trapsOpen_of hx (attached_none _ hb), fun hb hc => copy_checks hx hb hc⟩

end Sys2Proof.Machine.ExecutionContexts
end

section
/-! SUPPORT. Bringing writes into the view of a die changes global memory, its tags, views and writes on their way, and
the provisional tags; nothing else (R227, R237, R238). -/

namespace Sys2Proof.Machine.ExecutionContexts

/-- The state without global memory, the views of it, the writes on their way and the provisional tags. -/
def besideMemory (s : State) : State :=
  { s with mem := [], memTags := [], lags := [], flights := [], heads := [], homeSeq := 0, tags := [] }

theorem besideMemory_waves {s t : State} (h : besideMemory t = besideMemory s) : t.waves = s.waves :=
  (congrArg State.waves h : (besideMemory t).waves = (besideMemory s).waves)
theorem besideMemory_blocks {s t : State} (h : besideMemory t = besideMemory s) : t.blocks = s.blocks :=
  (congrArg State.blocks h : (besideMemory t).blocks = (besideMemory s).blocks)
theorem besideMemory_held {s t : State} (h : besideMemory t = besideMemory s) : t.held = s.held :=
  (congrArg State.held h : (besideMemory t).held = (besideMemory s).held)

/-- What each step of a fold leaves, the fold leaves. -/
theorem foldl_kept {α β γ : Type} (g : β → γ) (f : β → α → β) (h : ∀ b a, g (f b a) = g b) (l : List α) (b : β) :
    g (l.foldl f b) = g b := by
  induction l generalizing b with
  | nil => rfl
  | cons x r ih => rw [List.foldl_cons, ih, h]

theorem settleFlight_beside (s : State) (n : Nat) : besideMemory (settleFlight s n) = besideMemory s := by
  unfold settleFlight
  split
  · split <;> rfl
  · rfl

theorem homeByte_beside (f : Flight) (n : Nat) (others : List Nat) (oldTag : Tag) (s : State) (x : Nat × Byte) :
    besideMemory (homeByte f n others oldTag s x) = besideMemory s := rfl

theorem applyHome_beside (s : State) (f : Flight) (dies : List Nat) :
    besideMemory (applyHome s f dies) = besideMemory s := by
  unfold applyHome
  exact (settleFlight_beside _ _).trans (foldl_kept besideMemory _ (homeByte_beside f _ _ _) _ s)

theorem viewApply_beside (f : Flight) (n d : Nat) (tag : Tag) (s : State) (x : Nat × Byte) :
    besideMemory (viewApply f n d tag s x) = besideMemory s := by
  unfold viewApply
  split
  · rfl
  · split
    · rfl
    · split
      · rfl
      · split
        · rfl
        · dsimp only
          split <;> rfl

theorem applyRemote_beside (s : State) (f : Flight) (d : Nat) : besideMemory (applyRemote s f d) = besideMemory s :=
  (settleFlight_beside _ _).trans (foldl_kept besideMemory _ (viewApply_beside f _ d f.tag) _ s)

theorem applyLine_beside (s : State) (f : Flight) (dies : List Nat) :
    besideMemory (applyLine s f dies) = besideMemory s := by
  unfold applyLine
  dsimp only
  split
  · split
    · exact (applyHome_beside _ _ _).trans (applyHome_beside s f dies)
    · exact applyHome_beside s f dies
  · exact applyHome_beside s f dies

theorem bring_beside (k d n : Nat) (s : State) : besideMemory (bring k d s n) = besideMemory s := by
  induction k generalizing d n s with
  | zero => rfl
  | succ k ih =>
    unfold bring
    split
    · rfl
    · next f _ =>
      have hfold (d : Nat) (l : List Nat) (t : State) : besideMemory (l.foldl (bring k d) t) = besideMemory t :=
        foldl_kept besideMemory _ (fun t n => ih d n t) l t
      have hline (t : State) : besideMemory (match mget t.flights n with
          | some g => if g.pos.isNone then applyLine t g ((g.src :: g.home :: g.todo).eraseDups) else t
          | none => t) = besideMemory t := by
        split
        · split
          · exact applyLine_beside _ _ _
          · rfl
        · rfl
      have hremote (t : State) : besideMemory (match mget t.flights n with
          | some h => if h.todo.contains d then applyRemote t h d else t
          | none => t) = besideMemory t := by
        split
        · split
          · exact applyRemote_beside _ _ _
          · rfl
        · rfl
      have hhome : besideMemory (if f.pos.isNone then
          let t := (lineBefore s f).foldl (bring k f.home) s
          match mget t.flights n with
          | some g => if g.pos.isNone then applyLine t g ((g.src :: g.home :: g.todo).eraseDups) else t
          | none => t
        else s) = besideMemory s := by
        split
        · exact (hline _).trans (hfold _ _ s)
        · rfl
      dsimp only at hhome ⊢
      split
      · exact hhome
      · split
        · exact ((hremote _).trans (hfold _ _ _)).trans hhome
        · exact hhome

theorem syncTo_beside (s : State) (d : Nat) (clock : List Nat) : besideMemory (syncTo s d clock) = besideMemory s :=
  foldl_kept besideMemory _ (fun t n => bring_beside _ d n t) _ s

end Sys2Proof.Machine.ExecutionContexts
end

section
/-! PROOF. Launches and the state of a grid (R276 to R278). -/

namespace Sys2Proof.Machine.ExecutionContexts

open NumberFormats

/-! ### Acquiring a clock (R237) -/

/-- Acquiring a clock changes the clock of the wave and what its die sees. -/
theorem acquireClock_wave {s : State} {u : Nat} {w : Wave} (h : mget s.waves u = some w) (clock : List Nat) :
    waveOf (acquireClock s u clock) u = { w with clock := clockJoin w.clock clock } := by
  unfold waveOf acquireClock
  rw [besideMemory_waves (syncTo_beside _ _ _)]
  exact waveOf_modWave _ h

theorem acquireClock_blocks (s : State) (u : Nat) (clock : List Nat) : (acquireClock s u clock).blocks = s.blocks :=
  (besideMemory_blocks (syncTo_beside _ _ _)).trans rfl

theorem acquireClock_held (s : State) (u : Nat) (clock : List Nat) : (acquireClock s u clock).held = s.held :=
  (besideMemory_held (syncTo_beside _ _ _)).trans rfl

/-- An issue at the next word whose wave then acquires a clock: what it writes and leaves. -/
theorem finish_acquires {i : Instr} {s : State} {u : Nat} {w w' : Wave} {sp : Split} (h : Ready i s u w sp)
    (ht : sp.trump = none) (hw : w'.splits = w.splits) (hstat : w'.wstat = w.wstat) (clock : List Nat) :
    let t := acquireClock (finish s (ctxFor s u w sp i) w' 0 []) u clock
    RegsSame w' (waveOf t u) ∧ (waveOf t u).wstat = w.wstat ∧ splitOf (waveOf t u) sp.entry = some (nextWord sp i) ∧
      t.held = s.held ∧ t.blocks = s.blocks := by
  intro t
  have e := ends_finish h ht (apart_refl s u) w' hw (holds_nil rfl)
  have hwave := acquireClock_wave e.issued.wave clock
  have hsplit : splitOf (waveOf t u) sp.entry = splitOf (waveOf (finish s (ctxFor s u w sp i) w' 0 []) u) sp.entry := by
    rw [hwave]
    rfl
  have hregs : RegsSame w' (waveOf t u) := by
    rw [hwave]
    exact ⟨e.regs.v, e.regs.s, e.regs.a, e.regs.p⟩
  have hst : (waveOf t u).wstat = w.wstat := by
    rw [hwave]
    exact e.wstat.trans hstat
  exact ⟨hregs, hst, hsplit.trans e.issued.split, acquireClock_held _ _ _, (acquireClock_blocks _ _ _).trans e.issued.apart.blocks⟩

theorem putU_wstat (w : Wave) (m : LaneMask) (d : Operand) (x : TWord) : (putU w m d x).wstat = w.wstat := by
  unfold putU
  split
  · split <;> rfl
  · rfl

/-! ### `lstat` and `lwait` -/

/-- A meaning that writes a grid's state and acquires its completion. -/
theorem looked_of {i : Instr} {s : State} {u : Nat} {w : Wave} {sp : Split} {d : Operand} {x : Word} {clock : List Nat}
    {k : State → Ctx → State} (hx : exec i s = run i s k)
    (hk : k s (ctxFor s u w sp i) = acquireClock (finish s (ctxFor s u w sp i) (putResult w
      (if (ctxFor s u w sp i).skip then none else uniformDest d) x) 0 []) u clock)
    (h : Ready i s u w sp) (ht : sp.trump = none) : ∃ t, exec i s = .next t ∧
      RegsSame (putU w (activeMask w sp i) d ⟨x, .clean⟩) (waveOf t u) ∧ (waveOf t u).wstat = w.wstat ∧
      splitOf (waveOf t u) sp.entry = some (nextWord sp i) ∧ t.held = s.held ∧ t.blocks = s.blocks := by
  rw [putResult_skip] at hk
  exact ⟨_, by rw [hx, run_ready h, hk], finish_acquires h ht (putU_splits _ _ _ _) (putU_wstat _ _ _ _) clock⟩

theorem exec_lstat (d a : Operand) (s : State) : exec (.lstat d a) s = run (.lstat d a) s (fun s1 c =>
    consumeAll s1 c [tagU c a false] (fun s2 c => acquireClock (finish s2 c (putResult c.w
      (if c.skip then none else uniformDest d) (BitVec.ofNat 32 (gridState s2 c.w.part (readU c a).toNat).1)) 0 [])
      c.uid (gridState s2 c.w.part (readU c a).toNat).2)) := rfl

theorem exec_lwait (d a : Operand) (s : State) : exec (.lwait d a) s = run (.lwait d a) s (fun s1 c =>
    consumeAll s1 c [tagU c a false] (fun s2 c =>
      if 2 ≤ (gridState s2 c.w.part (readU c a).toNat).1 then acquireClock (finish s2 c (putResult c.w
        (if c.skip then none else uniformDest d) (BitVec.ofNat 32 (gridState s2 c.w.part (readU c a).toNat).1)) 0 [])
        c.uid (gridState s2 c.w.part (readU c a).toNat).2
      else finishPark s2 c c.w (.grid (readU c a).toNat (if c.skip then none else uniformDest d)) none)) := rfl

/-- `lwait` of a grid that is not over parks. -/
theorem lwait_parks {s : State} {u : Nat} {w : Wave} {sp : Split} {d a : Operand}
    (hc : CleanU (.lwait d a) s u w sp [(a, false)])
    (hg : (gridState s w.part (readU (ctxFor s u w sp (.lwait d a)) a).toNat).1 < 2) :
    Done (.lwait d a) s u w sp (parkedAt sp (.lwait d a) (.grid (readU (ctxFor s u w sp (.lwait d a)) a).toNat
      (if activeMask w sp (.lwait d a) = 0 then none else uniformDest d)) none) w [] := by
  have hpark := park_done (exec_lwait d a s) ((clean1 hc s _).trans (if_neg (Nat.not_le.2 hg)))
  have hskip : (if (ctxFor s u w sp (.lwait d a)).skip = true then none else uniformDest d) =
      if activeMask w sp (.lwait d a) = 0 then none else uniformDest d :=
    if_congr decide_eq_true_iff rfl rfl
  rwa [hskip] at hpark

/-! ### `launch` -/

/-- `launch` once its queue and address are checked: the checks of its record, then the launch held. -/
def launchFrom (a b : Operand) (n : Nat) (s : State) (c : Ctx) : State :=
  match checkLanes s (agentOf c.w) .load 64 (recordPieces (readUPair c a).toNat) with
  | some f => checkFailed s c f
  | none =>
    afterAccess (finishWait (cacheAll s (agentOf c.w) [(readUPair c a).toNat, (readUPair c a).toNat + 192]) c c.w
      (.launch (readUPair c a).toNat (readU c b).toNat n)) c
      (watchHit s c.w (recordPieces (readUPair c a).toNat) 64 false false true)

theorem exec_launch (a b : Operand) (n : Nat) (s : State) : exec (.launch (.s n) a b) s = run (.launch (.s n) a b) s
    (fun s1 c => consumeAll s1 c [tagU c a true, tagU c b false] (fun s2 c =>
      if 255 < (readU c b).toNat then trapAt s2 c .illegalField (readU c b)
      else if (readUPair c a).toNat % 64 ≠ 0 then trapAt s2 c .memAlign 0
      else launchFrom a b n s2 c)) := rfl

/-- A launch whose record passes its checks is held, as an access of lane 0 to the record. -/
theorem launch_accessed {s : State} {u n : Nat} {w : Wave} {sp : Split} {a b : Operand}
    {k : State → Ctx → State} (hx : exec (.launch (.s n) a b) s = run (.launch (.s n) a b) s k)
    (hk : k s (ctxFor s u w sp (.launch (.s n) a b)) = launchFrom a b n s (ctxFor s u w sp (.launch (.s n) a b))) :
    let i : Instr := .launch (.s n) a b
    let x := (readUPair (ctxFor s u w sp i) a).toNat
    let q := (readU (ctxFor s u w sp i) b).toNat
    checkLanes s (agentOf w) .load 64 (recordPieces x) = none →
      Accessed i s u w sp (watchHit s w (recordPieces x) 64 false false true) { w with waitHeld := some s.nextId }
        [.launch x q n] := by
  intro i x q hnone
  obtain ⟨cs, hcs⟩ := cacheAll_cores s (agentOf w) [x, x + 192]
  have hlaunch : launchFrom a b n s (ctxFor s u w sp i) = afterAccess (finishWait { s with cores := cs } (ctxFor s u w sp i) w
      (.launch x q n)) (ctxFor s u w sp i) (watchHit s w (recordPieces x) 64 false false true) := by
    unfold launchFrom
    rw [show checkLanes s (agentOf (ctxFor s u w sp i).w) .load 64 (recordPieces (readUPair (ctxFor s u w sp i) a).toNat) =
      none from hnone]
    exact congrArg (fun t => afterAccess (finishWait t _ _ _) _ _) hcs
  exact accessed_finishG (fun h => by rw [hx, run_ready h, hk, hlaunch]; rfl)
    (apart_trans (cores_apart s cs u) (hold_apart _ _ _ _ _)) rfl rfl rfl (holds_one rfl rfl rfl rfl)

/-- Settles O44: the checks of `launch` and its held launch; `lstat` and `lwait` by the state of the grid. -/
theorem gridLaunch : Obligations.GridLaunch := by
  unfold Obligations.GridLaunch
  intro s u w sp d a b n
  refine ⟨?_, ?_, ?_⟩
  · intro i hc x q pieces
    have hx := exec_launch a b n s
    refine checks_ite hx decide_eq_true_iff.symm (consumeAll_cleanU hc s _) (fun h1 => ?_)
    refine checks_ite hx decide_eq_true_iff.symm h1 (fun h2 => checks_nil ⟨fun f hf h => ?_, fun hnone => ?_⟩)
    · rw [hx, run_ready h, h2]
      unfold launchFrom
      rw [show checkLanes s (agentOf (ctxFor s u w sp i).w) .load 64 (recordPieces (readUPair (ctxFor s u w sp i) a).toNat) =
        some f from hf]
    · exact ⟨_, launch_accessed hx h2 hnone⟩
  · intro hc
    exact looked_of (exec_lstat d a s) (clean1 hc s _)
  · intro hc
    exact ⟨fun hg => looked_of (exec_lwait d a s) ((clean1 hc s _).trans (if_pos hg)), lwait_parks hc⟩

end Sys2Proof.Machine.ExecutionContexts
end

section
/-! PROOF. A wait for batches that holds is an acquire (R239): it brings writes of the engines to their homes, which `Done`
leaves no room for. -/

namespace Sys2Proof.Machine.ExecutionContexts

/-- A write of die 0 to a granule of its own that has not come to its home. -/
def lateWrite : Flight :=
  { id := 5, bytes := [(0x5000, 1)], tag := .clean, whole := false, src := 0, seq := 1, clock := [], home := 0 }

/-- The split of a wave that waits for no batch. -/
def waitingSplit : Split := {}

/-- A wave one of whose engine entries has made the write. -/
def acquiringWave : Wave := { splits := [waitingSplit], engineWrote := [1] }

/-- The wave about to issue, its engine's write still on its way. -/
def acquiringState : State :=
  { State.reset with cur := some (10, 0), waves := [(10, acquiringWave)], flights := [(5, lateWrite)] }

theorem cwait_ready : Ready (.cwait 0) acquiringState 10 acquiringWave waitingSplit where
  cur := rfl
  wave := rfl
  split := by decide
  free := by decide
  room := by decide
  clear := by decide
  guard := .inl (by decide)

theorem exec_cwait (n : Byte) (s : State) : exec (.cwait n) s = run (.cwait n) s (fun s1 c =>
    if openSeals c.w ≤ n.toNat then completeWait (finishNop s1 c) c.uid
    else finishPark s1 c c.w (.batches n.toNat) none) := rfl

/-- The wait brings the write to its home and takes it out of the flights. -/
theorem cwait_lands : exec (.cwait 0) acquiringState = .next (completeWait (finishNop acquiringState
      (ctxFor acquiringState 10 acquiringWave waitingSplit (.cwait 0))) 10) ∧
    (completeWait (finishNop acquiringState (ctxFor acquiringState 10 acquiringWave waitingSplit (.cwait 0))) 10).flights =
      [] := by
  refine ⟨?_, by decide⟩
  rw [exec_cwait, run_ready cwait_ready]
  exact congrArg _ (if_pos (by decide))

/-- Refutes O24: a `cwait` that holds acquires the engines' writes, so that a write on its way comes to its home; the
statement says that global memory and the flights stand. -/
theorem not_yields : ¬ Obligations.Yields := by
  unfold Obligations.Yields
  intro h
  obtain ⟨-, hwait, -⟩ := h acquiringState 10 acquiringWave waitingSplit
  obtain ⟨t, ht, hends⟩ := (hwait 0).1 (by decide) cwait_ready rfl
  obtain ⟨hexec, hgone⟩ := cwait_lands
  rw [hexec] at ht
  cases ht
  exact absurd (hgone.symm.trans hends.issued.apart.flights) (by decide)

end Sys2Proof.Machine.ExecutionContexts
end

section
/-! PROOF. Branches that divide a split (R83, R151, R317). -/

namespace Sys2Proof.Machine.ExecutionContexts

/-! ### Translations read the tables, the context and the cached entries -/

theorem walkFrom_of_mem {s t : State} (hm : t.mem = s.mem) (va level table : Nat) :
    walkFrom t va level table = walkFrom s va level table := by
  have hnum : ∀ a n, memNum t a n = memNum s a n := fun a n => by unfold memNum; rw [hm]
  induction level generalizing table with
  | zero => unfold walkFrom; rw [hnum]
  | succ k ih => unfold walkFrom; simp only [hnum, ih]

theorem paOf_of_same {s t : State} (hm : t.mem = s.mem) (hc : t.ctxs = s.ctxs) (hn : t.nextId = s.nextId)
    (ht : ∀ c, (coreOf t c).tlb = (coreOf s c).tlb) (g : Agent) (va : Nat) : paOf t g va = paOf s g va := by
  have hctx : ctxOf t g.ctx = ctxOf s g.ctx := by unfold ctxOf; rw [hc]
  have hl : lookup t g.core g.part g.ctx va = lookup s g.core g.part g.ctx va := by
    unfold lookup
    simp only [hctx, ht, hn, walkFrom_of_mem hm]
  unfold paOf
  rw [hl]

/-- The charge of an issue leaves the cached translations. -/
theorem charge_tlb (s : State) (c : Ctx) (k : Nat) : (coreOf (charge s c) k).tlb = (coreOf s k).tlb := by
  show (mgetD (mset s.cores c.old.core _) k ({} : Core)).tlb = _
  by_cases hk : k = c.old.core
  · subst hk
    rw [mgetD_mset_self]
    rfl
  · rw [mgetD_mset, if_neg hk]
    rfl

theorem paOf_finishBy (s : State) (c : Ctx) (w : Wave) (st : Sticky) (ps : List (Nat × Nat)) (f : Split → Split) (g : Agent)
    (va : Nat) : paOf (finishBy s c w st ps f) g va = paOf s g va :=
  paOf_of_same (s := s) (t := finishBy s c w st ps f) rfl rfl rfl (charge_tlb s c) g va

/-! ### Deferred splits that stay or meet others (R82, R83) -/

/-- With the deferred stack empty or the table full no deferred split comes back. -/
theorem popDeferred_stays {w : Wave} (h : w.deferred = [] ∨ freeEntry w = none) (n : Nat) : popDeferred n w = w := by
  cases n with
  | zero => rfl
  | succ n =>
    unfold popDeferred
    rcases h with h | h <;> simp [h]

theorem splits_popDeferred {w : Wave} {x : Split} (h : x ∈ w.splits) (n : Nat) : x ∈ (popDeferred n w).splits := by
  induction n generalizing w with
  | zero => exact h
  | succ n ih =>
    unfold popDeferred
    split
    · exact ih (List.mem_append_left _ h)
    · exact h

/-- What a meeting at a header leaves: the rest of the wave, its registers and flags. -/
theorem meetAt_fields (w : Wave) (sp : Split) (e : Option Nat) :
    (meetAt w sp e).rest = w.rest ∧ (meetAt w sp e).v = w.v ∧ (meetAt w sp e).s = w.s ∧ (meetAt w sp e).a = w.a ∧
    (meetAt w sp e).p = w.p ∧ (meetAt w sp e).wstat = w.wstat ∧
    (meetAt w sp e).sig = (w.splits.filter (mergesWith sp) ++ w.deferred.filter (mergesWith sp)).foldl
      (fun g _ => crc g 0xFFFFFFFF) w.sig := by
  unfold meetAt
  dsimp only
  split
  · obtain ⟨hr, hv, hs, ha, hp, hw, hsig, -⟩ := popDeferred_fields 4 (fewerDeferred { w with
      sig := (w.splits.filter (mergesWith sp) ++ w.deferred.filter (mergesWith sp)).foldl (fun g _ => crc g 0xFFFFFFFF) w.sig
      splits := _ :: w.splits.filter (fun x => !mergesWith sp x) } (w.deferred.filter (fun x => !mergesWith sp x)))
    exact ⟨hr, hv, hs, ha, hp, hw, hsig⟩
  · exact ⟨rfl, rfl, rfl, rfl, rfl, rfl, rfl⟩

/-- A deferred split that meets others takes their lanes and stands where it stood. -/
theorem meetAt_merged (w : Wave) (sp : Split) (e : Option Nat) :
    ∃ x ∈ (meetAt w sp e).splits ++ (meetAt w sp e).deferred, x.pc = sp.pc ∧ x.mode = sp.mode ∧ x.omode = sp.omode ∧
      x.mask = (w.splits.filter (mergesWith sp) ++ w.deferred.filter (mergesWith sp)).foldl (fun k x => k ||| x.mask) sp.mask := by
  have hbase : ∀ b : Split, b = (if sp.clause.isSome then sp else (w.splits.filter (mergesWith sp)).headD sp) →
      b.pc = sp.pc ∧ b.mode = sp.mode ∧ b.omode = sp.omode := by
    rintro b rfl
    split
    · exact ⟨rfl, rfl, rfl⟩
    · cases hf : w.splits.filter (mergesWith sp) with
      | nil => exact ⟨rfl, rfl, rfl⟩
      | cons y r =>
        have hy : mergesWith sp y = true := (List.mem_filter.1 (hf ▸ List.mem_cons_self : y ∈ w.splits.filter (mergesWith sp))).2
        unfold mergesWith standsAt at hy
        simp only [Bool.and_eq_true, decide_eq_true_eq] at hy
        obtain ⟨⟨hm, ho⟩, ⟨⟨⟨hp, -⟩, -⟩, -⟩, -⟩ := hy
        exact ⟨hp, hm, ho⟩
  obtain ⟨hpc, hmode, homode⟩ := hbase _ rfl
  unfold meetAt
  dsimp only
  split
  · refine ⟨_, List.mem_append_left _ (splits_popDeferred (w := fewerDeferred _ _) List.mem_cons_self 4), ?_⟩
    exact ⟨hpc, hmode, homode, rfl⟩
  · refine ⟨_, List.mem_append_right _ List.mem_cons_self, ?_⟩
    exact ⟨hpc, hmode, homode, rfl⟩

/-- A running split that does not merge keeps running. -/
theorem meetAt_kept {w : Wave} {sp x : Split} (e : Option Nat) (hx : x ∈ w.splits) (hm : mergesWith sp x = false) :
    x ∈ (meetAt w sp e).splits := by
  unfold meetAt
  dsimp only
  split
  · exact splits_popDeferred (w := fewerDeferred _ _)
      (List.mem_cons_of_mem _ (List.mem_filter.2 ⟨hx, by rw [hm]; rfl⟩)) 4
  · exact hx

theorem satAdd_zero (x : Word) : satAdd x 0 = x := by
  unfold satAdd
  have hx : (2 ^ 32 - 1).min (x.toNat + 0) = x.toNat := Nat.min_eq_right (by have := x.isLt; omega)
  rw [hx, BitVec.ofNat_toNat, BitVec.setWidth_eq]

/-- A deferred split that meets no other stays as it is; records it was compared with were read back. -/
theorem mergeDeferred_alone {w : Wave} {out : Split} {r : List Split} (hd : w.deferred = out :: r)
    (hno : ∀ x ∈ w.splits ++ r, (arrives out && mergesWith out x) = false) :
    mergeDeferred w = { w with fills := satAdd w.fills ((r.drop 7).filter (fun x => arrives out && standsAt out.pc x)).length } := by
  unfold mergeDeferred
  rw [hd]
  dsimp only
  cases ha : arrives out with
  | false =>
    rw [Bool.not_false, if_pos rfl]
    have hnone : (r.drop 7).filter (fun x => false && standsAt out.pc x) = [] := List.filter_eq_nil_iff.2 (fun _ _ => by simp)
    rw [hnone, List.length_nil, satAdd_zero, ← hd]
  | true =>
    have hsplits : ∀ x ∈ w.splits ++ r, mergesWith out x = false := fun x hx => by
      have := hno x hx
      rwa [ha, Bool.true_and] at this
    have hfilter : ((w.deferred.drop 8).filter (fun x => standsAt out.pc x && !mergesWith out x)) =
        (r.drop 7).filter (fun x => true && standsAt out.pc x) := by
      rw [hd, List.drop_succ_cons]
      refine List.filter_congr (fun x hx => ?_)
      rw [hsplits x (List.mem_append_right _ (List.mem_of_mem_drop hx)), Bool.true_and, Bool.not_false, Bool.and_true]
    rw [Bool.not_true, if_neg (by decide), if_neg (fun h => ?_)]
    · unfold countCompared
      rw [hfilter, ← hd]
    · obtain ⟨x, hx, hm⟩ := List.any_eq_true.1 h
      rw [hsplits x hx] at hm
      exact absurd hm (by decide)

/-- A deferred split at a header meets those that stand there with its mode and omode. -/
theorem mergeDeferred_meets {w : Wave} {out : Split} {r : List Split} (hd : w.deferred = out :: r)
    (hex : ∃ x ∈ w.splits ++ r, (arrives out && mergesWith out x) = true) :
    mergeDeferred w = meetAt { countCompared w out with deferred := r } out none := by
  obtain ⟨x, hx, h⟩ := hex
  obtain ⟨ha, hm⟩ := Bool.and_eq_true_iff.1 h
  unfold mergeDeferred
  rw [hd]
  dsimp only
  rw [ha, if_neg (by decide), if_pos (List.any_eq_true.2 ⟨x, hx, hm⟩)]

/-- What the split deferred last leaves alone where it meets others or not. -/
theorem mergeDeferred_fields (w : Wave) :
    (mergeDeferred w).rest = w.rest ∧ (mergeDeferred w).v = w.v ∧ (mergeDeferred w).s = w.s ∧
    (mergeDeferred w).a = w.a ∧ (mergeDeferred w).p = w.p ∧ (mergeDeferred w).wstat = w.wstat := by
  unfold mergeDeferred
  split
  · next out r _ =>
    split
    · exact ⟨rfl, rfl, rfl, rfl, rfl, rfl⟩
    · dsimp only
      split
      · obtain ⟨hr, hv, hs, ha, hp, hw, -⟩ := meetAt_fields { countCompared w out with deferred := r } out none
        exact ⟨hr, hv, hs, ha, hp, hw⟩
      · exact ⟨rfl, rfl, rfl, rfl, rfl, rfl⟩
  · exact ⟨rfl, rfl, rfl, rfl, rfl, rfl⟩

/-- Where a split has come to a header, those it meets are those it merges with. -/
theorem filter_met {out : Split} (ha : arrives out = true) (l r : List Split) :
    (l ++ r).filter (fun x => arrives out && mergesWith out x) =
      l.filter (mergesWith out) ++ r.filter (mergesWith out) := by
  rw [List.filter_append, ha]
  simp only [Bool.true_and]

/-! ### The split deferred (R83) -/

theorem foldl_max_ge (l : List Split) (a : Nat) :
    a ≤ l.foldl (fun m x => Nat.max m x.pc) a ∧ ∀ x ∈ l, x.pc ≤ l.foldl (fun m x => Nat.max m x.pc) a := by
  induction l generalizing a with
  | nil => exact ⟨Nat.le_refl _, fun x hx => by simp at hx⟩
  | cons y r ih =>
    obtain ⟨h1, h2⟩ := ih (Nat.max a y.pc)
    refine ⟨Nat.le_trans (Nat.le_max_left _ _) h1, fun x hx => ?_⟩
    rcases List.mem_cons.1 hx with rfl | hx
    · exact Nat.le_trans (Nat.le_max_right _ _) h1
    · exact h2 x hx

theorem foldl_max_mem (l : List Split) (a : Nat) : l.foldl (fun m x => Nat.max m x.pc) a = a ∨
    ∃ x ∈ l, x.pc = l.foldl (fun m x => Nat.max m x.pc) a := by
  induction l generalizing a with
  | nil => exact .inl rfl
  | cons y r ih =>
    rcases ih (Nat.max a y.pc) with h | ⟨x, hx, h⟩
    · rcases Nat.le_total a y.pc with hle | hle
      · exact .inr ⟨y, List.mem_cons_self, by rw [List.foldl_cons, h]; exact (Nat.max_eq_right hle).symm⟩
      · exact .inl (by rw [List.foldl_cons, h]; exact Nat.max_eq_left hle)
    · exact .inr ⟨x, List.mem_cons_of_mem _ hx, h⟩

/-- A choice between two elements, folded over a list, picks one of them. -/
theorem foldl_pick_mem {α : Type} {f : α → α → α} (hf : ∀ a b, f a b = a ∨ f a b = b) (l : List α) (a : α) :
    l.foldl f a = a ∨ l.foldl f a ∈ l := by
  induction l generalizing a with
  | nil => exact .inl rfl
  | cons y r ih =>
    rw [List.foldl_cons]
    rcases ih (f a y) with h | h
    · rw [h]
      rcases hf a y with h | h
      · exact .inl h
      · exact .inr (by rw [h]; exact List.mem_cons_self)
    · exact .inr (List.mem_cons_of_mem _ h)

/-- The split deferred is the new one, where no PC exceeds its own, or a running one whose PC none exceeds. -/
theorem deferOne_spec (l : List Split) (new : Split) : (∀ x ∈ l, x.pc ≤ (deferOne l new).pc) ∧
    new.pc ≤ (deferOne l new).pc ∧ (new.pc = (deferOne l new).pc → deferOne l new = new) ∧
    (deferOne l new = new ∨ deferOne l new ∈ l) := by
  obtain ⟨hnew, hall⟩ := foldl_max_ge l new.pc
  unfold deferOne
  dsimp only
  split
  · next h => exact ⟨fun x hx => h ▸ hall x hx, Nat.le_refl _, fun _ => rfl, .inl rfl⟩
  · next h =>
    obtain ⟨y, hy, hpc⟩ := (foldl_max_mem l new.pc).resolve_left (Ne.symm h)
    generalize l.foldl (fun m x => Nat.max m x.pc) new.pc = top at *
    have hmem : (l.filter (fun x => decide (x.pc = top))).foldl (fun m x => if m.entry ≤ x.entry then x else m)
        ((l.filter (fun x => decide (x.pc = top))).headD new) ∈ l.filter (fun x => decide (x.pc = top)) := by
      have hy' : y ∈ l.filter (fun x => decide (x.pc = top)) := List.mem_filter.2 ⟨hy, decide_eq_true hpc⟩
      rcases foldl_pick_mem (f := fun m x : Split => if m.entry ≤ x.entry then x else m)
        (fun a b => by by_cases hab : a.entry ≤ b.entry <;> simp [hab]) (l.filter (fun x => decide (x.pc = top)))
        ((l.filter (fun x => decide (x.pc = top))).headD new) with hp | hp
      · rw [hp]
        cases hl : l.filter (fun x => decide (x.pc = top)) with
        | nil => rw [hl] at hy'; exact absurd hy' (by simp)
        | cons z r => exact List.mem_cons_self
      · exact hp
    obtain ⟨hin, htop⟩ := List.mem_filter.1 hmem
    have htop := of_decide_eq_true htop
    exact ⟨fun x hx => (hall x hx).trans htop.ge, hnew.trans htop.ge, fun he => absurd (he.trans htop) h, .inr hin⟩

/-! ### The division (R151) -/

/-- The lanes that take a branch, its target and the split they make: entry `e`. -/
def branched (sp : Split) (t : LaneMask) (va e : Nat) : Split :=
  { entry := e, mask := t, mode := sp.mode, omode := sp.omode, pc := va, runStart := va }

/-- The split of the lanes that do not take a branch. -/
def staying (i : Instr) (t : LaneMask) (x : Split) : Split :=
  { stepOver x (1 + i.lits.length) with mask := x.mask &&& ~~~t }

/-- The running splits after those of `e` have left lanes `t`. -/
def stayingAt (i : Instr) (t : LaneMask) (e : Nat) (l : List Split) : List Split :=
  l.map (fun x => if x.entry = e then staying i t x else x)

theorem freeEntry_stayingAt {w w' : Wave} {i : Instr} {t : LaneMask} {e : Nat}
    (h : w'.splits = stayingAt i t e w.splits) : freeEntry w' = freeEntry w := by
  have hentry : ∀ x : Split, (if x.entry = e then staying i t x else x).entry = x.entry := fun x => by
    split
    · exact stepOver_entry x _
    · rfl
  unfold freeEntry splitOf
  rw [h]
  unfold stayingAt
  simp only [List.find?_map, Option.isNone_map, Function.comp_def, hentry]

/-- The issue of a branch that divides its split leaves the splits that stay, with nothing popped. -/
theorem staying_wave {i : Instr} (s : State) (u : Nat) (w : Wave) (sp : Split) (t : LaneMask)
    (h : w.deferred = [] ∨ freeEntry w = none) (ht : sp.trump = none) :
    mget (finishBy s (ctxFor s u w sp i) w 0 [] (staying i t)).waves u =
      some (issuedWave s (ctxFor s u w sp i) w 0 (staying i t)) := by
  refine (finishBy_wave s (ctxFor s u w sp i) w 0 [] (staying i t)).trans ?_
  have hst : stampRun (ctxFor s u w sp i) w = (w, []) := stampRun_plain _ w ht
  rw [popDeferred_stays]
  refine h.imp (fun hd => ?_) (fun he => ?_)
  · show (stampRun (ctxFor s u w sp i) w).1.deferred = []
    rw [hst]
    exact hd
  · exact (freeEntry_stayingAt (w := w) rfl).trans he

/-- The splits that run after one of five was deferred: the new one takes its entry. -/
def runningAfter (run : List Split) (sp : Split) (t : LaneMask) (va : Nat) : List Split :=
  let out := deferOne run (branched sp t va 0)
  if out = branched sp t va 0 then run else run.map (fun x => if x = out then branched sp t va out.entry else x)

/-- The records of the spill area after one more split was deferred. -/
def recordsAfter (w : Wave) : Nat := frozenSplits w + w.deferred.length + 1 - 8

/-- The wave `w1` with one of five splits deferred in `n` records, before it meets others. -/
def deferring (w1 : Wave) (sp : Split) (t : LaneMask) (va n : Nat) : Wave :=
  { w1 with
    splits := runningAfter w1.splits sp t va
    deferred := deferOne w1.splits (branched sp t va 0) :: w1.deferred
    sig := crc w1.sig 0xFFFFFFFF, spillRecs := n
    spills := if n = 0 then w1.spills else satAdd w1.spills 1 }

/-- The record of a deferred split, held for its place in the spill area. -/
def recordHeld (r : State) (u : Nat) (w2 : Wave) (n : Nat) : State :=
  (hold r u (.vstore (spillBytesAt r w2 (w2.spillTop - 32 * n)
    ((List.range 32).map (fun k => Config.splitRecord r.nextId k))) [] w2.clock) none).2

/-- What divides a split with four running. -/
theorem divide_full {s : State} {u : Nat} {w : Wave} {sp : Split} {i : Instr} (hf : freeEntry w = none)
    (ht : sp.trump = none) (t : LaneMask) (va : Nat) :
    let s1 := finishBy s (ctxFor s u w sp i) w 0 [] (staying i t)
    let w2 := deferring (issuedWave s (ctxFor s u w sp i) w 0 (staying i t)) sp t va (recordsAfter w)
    let r := putWave s1 u (mergeDeferred w2)
    divide s (ctxFor s u w sp i) t va =
      if recordsAfter w ≠ 0 ∧ !recordFits w (recordsAfter w) then trapOpen s (ctxFor s u w sp i) .stackOverflow
      else if recordsAfter w = 0 then r else recordHeld r u w2 (recordsAfter w) := by
  intro s1 w2 r
  have hw : waveOf s1 u = _ := waveOf_eq (staying_wave (i := i) s u w sp t (.inr hf) ht)
  have hf' : freeEntry (ctxFor s u w sp i).w = none := hf
  have hr : r = putWave s1 u (mergeDeferred (deferring (waveOf s1 u) sp t va (recordsAfter w))) := by rw [hw]
  have hw2 : w2 = deferring (waveOf s1 u) sp t va (recordsAfter w) := by rw [hw]
  rw [hr, hw2]
  unfold divide
  rw [hf']
  rfl

/-- The wave of a plain issue of an instruction that changes no register, before deferred splits come back. -/
theorem issuedWave_plain {s : State} {u : Nat} {w : Wave} {sp : Split} {i : Instr} (ht : sp.trump = none) (f : Split → Split) :
    issuedWave s (ctxFor s u w sp i) w 0 f = { w with
      sig := crc (crc w.sig i.word) (maskTerm sp.mask w.live), wdog := nextWdog (ctxFor s u w sp i)
      nextIssue := s.now + Config.barrel, waitTag := none
      splits := w.splits.map (fun x => if x.entry = sp.entry then f x else x) } := by
  have hst : stampRun (ctxFor s u w sp i) w = (w, []) := stampRun_plain _ w ht
  have hsig : nextSig (ctxFor s u w sp i) = crc (crc w.sig i.word) (maskTerm sp.mask w.live) := by
    unfold nextSig
    rw [show (ctxFor s u w sp i).sp.trump = none from ht]
    rfl
  unfold issuedWave
  rw [hst, hsig, show w.wstat ||| (0 : Sticky) = w.wstat from BitVec.or_zero]
  rfl

theorem inMask_not (m : LaneMask) {l : Nat} (hl : l < 64) : inMask (~~~m) l = !inMask m l := by
  simp [inMask, hl]

/-- The paths of `bp` and `bnp` whose condition bits are clean (R151). -/
theorem branch_splits {s : State} {u : Nat} {w : Wave} {sp : Split} {p : Operand} {o : BitVec 16} {i : Instr} {t : LaneMask}
    (hi : i = .bp p o ∨ i = .bnp p o)
    (ht : ∀ l, l < 64 → inMask t l = (inMask (sp.mask &&& w.live) l &&
      ((readPred (ctxFor s u w sp i) p l).1 == decide (i = .bp p o))))
    (hc : ∀ l, inMask (sp.mask &&& w.live) l = true → (readPred (ctxFor s u w sp i) p l).2 = .clean) :
    ∃ k, exec i s = run i s k ∧ k s (ctxFor s u w sp i) = withTarget s (ctxFor s u w sp i) (wordOffset sp.pc o.toInt)
      (fun s2 => branchSplit s2 (ctxFor s u w sp i) (sp.mask &&& w.live) t (wordOffset sp.pc o.toInt)) := by
  rcases hi with rfl | rfl
  · refine ⟨_, rfl, (branch_clean hc _).trans ?_⟩
    have hmask : t = maskOf (fun l => inMask (sp.mask &&& w.live) l && (readPred (ctxFor s u w sp (.bp p o)) p l).1) :=
      (mask_iff _ _).2 (fun l hl => by rw [ht l hl, inMask_maskOf _ _ hl, decide_eq_true rfl, beq_true])
    rw [hmask]
  · refine ⟨_, rfl, (branch_clean hc _).trans ?_⟩
    have hmask : t = (sp.mask &&& w.live) &&&
        ~~~maskOf (fun l => inMask (sp.mask &&& w.live) l && (readPred (ctxFor s u w sp (.bnp p o)) p l).1) :=
      (mask_iff _ _).2 (fun l hl => by
        rw [ht l hl, inMask_and (sp.mask &&& w.live), inMask_not _ hl, inMask_maskOf _ _ hl, decide_eq_false (by simp), beq_false]
        cases inMask (sp.mask &&& w.live) l <;> rfl)
    rw [hmask]

/-- A split that divides with an entry free (R151): the lanes that branch stand in that entry. -/
theorem divided_free {s : State} {u e : Nat} {w : Wave} {sp : Split} {i : Instr} (hs : splitOf w sp.entry = some sp)
    (ht : sp.trump = none) (hf : freeEntry w = some e) (hd : w.deferred = []) (t : LaneMask) (va : Nat) :
    let r := divide s (ctxFor s u w sp i) t va
    Apart s r u ∧ r.held = s.held ∧ (waveOf r u).rest = w.rest ∧ RegsSame w (waveOf r u) ∧ (waveOf r u).wstat = w.wstat ∧
      (waveOf r u).sig = crc (crc (crc w.sig i.word) (maskTerm sp.mask w.live)) 0xFFFFFFFF ∧
      (waveOf r u).splits = stayingAt i t sp.entry w.splits ++ [branched sp t va e] ∧
      splitOf (waveOf r u) sp.entry = some (staying i t sp) := by
  intro r
  have hr : r = modWave (finishBy s (ctxFor s u w sp i) w 0 [] (staying i t)) u (fun x =>
      { x with splits := x.splits ++ [branched sp t va e], sig := crc x.sig 0xFFFFFFFF }) := by
    have hf' : freeEntry (ctxFor s u w sp i).w = some e := hf
    unfold r divide
    rw [hf']
    rfl
  have hw := staying_wave (i := i) s u w sp t (.inl hd) ht
  rw [issuedWave_plain ht] at hw
  rw [hr, waveOf_modWave _ hw]
  refine ⟨apart_trans (finishBy_apart _ _ _ _ _ _) (modWave_apart _ _ _), rfl, rfl, regsSame_of rfl rfl rfl rfl, rfl, rfl, rfl,
    find?_append_of_find? _ _ _ _ ?_⟩
  exact splitOf_map w.splits sp.entry sp (staying i t) (stepOver_entry sp _) hs

theorem addrBytes_addresses (a : Nat) (l : List Byte) : (addrBytes a l).map (·.1) = (List.range l.length).map (fun k => a + k) := by
  induction l generalizing a with
  | nil => rfl
  | cons b r ih =>
    rw [List.length_cons, List.range_succ_eq_map, List.map_cons, List.map_map, addrBytes, List.map_cons, ih]
    refine congrArg (List.cons _) (List.map_congr_left (fun k _ => ?_))
    show a + 1 + k = a + (k + 1)
    omega

/-- The record held: 32 bytes at its place of the spill area. -/
theorem recordHeld_newest (r : State) (u : Nat) (w2 : Wave) (n : Nat) : ∃ h bytes,
    (recordHeld r u w2 n).held = r.held ++ [h] ∧ h.wave = u ∧ h.due = r.now + Config.holdback ∧
      h.eff = .vstore bytes [] w2.clock ∧
      bytes.map (·.1) = (List.range 32).map (fun k => paOf r (agentOf w2) (w2.spillTop - 32 * n + k)) := by
  refine ⟨_, _, hold_newest _ _ _ _, rfl, rfl, rfl, ?_⟩
  have h := congrArg (List.map (paOf r (agentOf w2))) (addrBytes_addresses (w2.spillTop - 32 * n)
    ((List.range 32).map (fun k => Config.splitRecord r.nextId k)))
  rw [List.length_map, List.length_range, List.map_map, List.map_map] at h
  unfold spillBytesAt
  rw [List.map_map]
  exact h

/-- A split that divides with four running and room for its record (R83). -/
theorem divided_full {s : State} {u : Nat} {w : Wave} {sp : Split} {i : Instr} (hf : freeEntry w = none)
    (ht : sp.trump = none) (t : LaneMask) (va : Nat) (hfit : recordsAfter w = 0 ∨ recordFits w (recordsAfter w) = true) :
    let r := divide s (ctxFor s u w sp i) t va
    waveOf r u = mergeDeferred (deferring (issuedWave s (ctxFor s u w sp i) w 0 (staying i t)) sp t va (recordsAfter w)) ∧
    Apart s r u ∧ (recordsAfter w = 0 → r.held = s.held) ∧
    (recordsAfter w ≠ 0 → ∃ h bytes, r.held = s.held ++ [h] ∧ h.wave = u ∧ h.due = s.now + Config.holdback ∧
      h.eff = .vstore bytes [] w.clock ∧
      bytes.map (·.1) = (List.range 32).map (fun k => paOf s (agentOf w) (w.spillTop - 32 * recordsAfter w + k))) := by
  intro r
  have hr := divide_full (s := s) (u := u) (i := i) hf ht t va
  dsimp only at hr
  have hap := apart_trans (finishBy_apart s (ctxFor s u w sp i) w 0 [] (staying i t)) (putWave_apart _ u
    (mergeDeferred (deferring (issuedWave s (ctxFor s u w sp i) w 0 (staying i t)) sp t va (recordsAfter w))))
  have hroom : ¬ (recordsAfter w ≠ 0 ∧ (!recordFits w (recordsAfter w)) = true) := fun ⟨h0, h1⟩ =>
    hfit.elim h0 (fun h => by rw [h] at h1; exact absurd h1 (by decide))
  rw [if_neg hroom] at hr
  have hw2 := issuedWave_plain (s := s) (u := u) (w := w) (i := i) ht (staying i t)
  by_cases hn : recordsAfter w = 0
  · rw [if_pos hn] at hr
    unfold r
    rw [hr]
    exact ⟨waveOf_putWave _ _ _, hap, fun _ => rfl, fun h => absurd hn h⟩
  · rw [if_neg hn] at hr
    unfold r
    rw [hr]
    refine ⟨waveOf_putWave _ _ _, apart_trans hap (hold_apart _ _ _ _ _), fun h => absurd h hn, fun _ => ?_⟩
    obtain ⟨h, bytes, hheld, hwave, hdue, heff, hbytes⟩ := recordHeld_newest (putWave (finishBy s (ctxFor s u w sp i) w 0 []
      (staying i t)) u (mergeDeferred (deferring (issuedWave s (ctxFor s u w sp i) w 0 (staying i t)) sp t va (recordsAfter w)))) u
      (deferring (issuedWave s (ctxFor s u w sp i) w 0 (staying i t)) sp t va (recordsAfter w)) (recordsAfter w)
    rw [hw2] at heff
    refine ⟨h, bytes, hheld, hwave, hdue, heff, hbytes.trans (List.map_congr_left (fun k _ => ?_))⟩
    rw [hw2]
    exact paOf_finishBy s (ctxFor s u w sp i) w 0 [] (staying i t) (agentOf w) _

/-- Settles O21: the split table after a division by where its entry is found, the deferred split by whether it meets
others. -/
theorem divergence : Obligations.Divergence := by
  unfold Obligations.Divergence
  intro s u w sp p o i t m va hi ht hc
  obtain ⟨k, hx, hk⟩ := branch_splits hi ht hc
  refine targetTested_of hx hk (fun hgo => ⟨fun h => jump_done hx w (hgo.trans (if_pos h)) rfl,
    fun h h0 => doneNext_plain hx w (hgo.trans ((if_neg h).trans (if_pos h0))) rfl, fun h h0 hready htr => ?_⟩)
  have he : exec i s = .next (divide s (ctxFor s u w sp i) t va) := by
    rw [hx, run_ready hready, hgo]
    exact congrArg _ ((if_neg h).trans (if_neg h0))
  intro new stay
  refine ⟨fun e hf hd => ⟨_, he, divided_free hready.split htr hf hd t va⟩, fun hf => ?_⟩
  intro run n out left met
  obtain ⟨hall, hnew, heq, hin⟩ := deferOne_spec run (new 0)
  refine ⟨hall, hnew, heq, hin, fun hn hfit => ?_, fun hfit => ⟨_, he, ?_⟩⟩
  · have hfull := divide_full (s := s) (u := u) (i := i) hf htr t va
    rw [he, hfull]
    exact congrArg _ (if_pos ⟨hn, by rw [show recordFits w (recordsAfter w) = false from hfit]; rfl⟩)
  · obtain ⟨hwave, hap, h0, h1⟩ := divided_full (s := s) (u := u) (i := i) hf htr t va hfit
    rw [issuedWave_plain htr] at hwave
    obtain ⟨frest, fv, fs, fa, fp, fw⟩ := mergeDeferred_fields (deferring { w with
      sig := crc (crc w.sig i.word) (maskTerm sp.mask w.live), wdog := nextWdog (ctxFor s u w sp i)
      nextIssue := s.now + Config.barrel, waitTag := none
      splits := w.splits.map (fun x => if x.entry = sp.entry then staying i t x else x) } sp t va (recordsAfter w))
    rw [hwave]
    refine ⟨hap, frest, regsSame_of fv fs fa fp, fw, h0, h1, fun hno => ?_, fun hex => ?_⟩
    · rw [mergeDeferred_alone rfl hno]
      exact ⟨rfl, rfl, rfl, rfl⟩
    · rw [mergeDeferred_meets rfl hex]
      have ha : arrives out = true := by
        obtain ⟨y, -, hy⟩ := hex
        exact (Bool.and_eq_true_iff.1 hy).1
      have hmet : (left ++ w.deferred).filter met = left.filter (mergesWith out) ++ w.deferred.filter (mergesWith out) :=
        filter_met ha _ _
      obtain ⟨-, -, -, -, -, -, hsig⟩ := meetAt_fields _ _ none
      obtain ⟨x, hx, hpc, hmode, homode, hmask⟩ := meetAt_merged _ _ none
      refine ⟨hsig.trans ?_, ⟨x, hx, hpc, hmode, homode, hmask.trans ?_⟩, fun x hx hm => meetAt_kept none hx ?_⟩
      · rw [hmet]; rfl
      · rw [hmet]; rfl
      · rwa [show met x = mergesWith out x by show (arrives out && mergesWith out x) = _; rw [ha, Bool.true_and]] at hm

end Sys2Proof.Machine.ExecutionContexts
end

section
/-! SUPPORT. Moves that perform a held effect, and what the waves, blocks and bytes of a state keep (R226). -/

namespace Sys2Proof.Machine.ExecutionContexts

/-! ### Bytes that stay -/

theorem bytesSame_of {s t : State} (hm : t.mem = s.mem) (hb : t.blocks = s.blocks) : BytesSame s t :=
  ⟨fun a => by rw [hm], fun k a => by unfold blockOf; rw [hb]⟩

theorem bytesSame_trans {s t r : State} (h : BytesSame s t) (k : BytesSame t r) : BytesSame s r :=
  ⟨fun a => (k.mem a).trans (h.mem a), fun j a => (k.spad j a).trans (h.spad j a)⟩

/-- A change of a block that leaves its scratchpad leaves every byte. -/
theorem bytesSame_modBlock (s : State) (k : Nat) (f : Block → Block) (hf : ∀ b, (f b).spad = b.spad) :
    BytesSame s (modBlock s k f) := by
  refine ⟨fun a => rfl, fun j a => ?_⟩
  have hj : mgetD (mmod s.blocks k f) j ({} : Block) = if j = k then ((mget s.blocks k).map f).getD {} else mgetD s.blocks j {} := by
    unfold mgetD
    rw [mget_mmod]
    split <;> rfl
  show memGet (mgetD (mmod s.blocks k f) j ({} : Block)).spad a = memGet (mgetD s.blocks j {}).spad a
  rw [hj]
  split
  · next h =>
    subst h
    unfold mgetD
    cases mget s.blocks j with
    | none => rfl
    | some b => exact congrArg (fun l => memGet l a) (hf b)
  · rfl

theorem bytesSame_foldl {α : Type} (f : State → α → State) (h : ∀ s x, BytesSame s (f s x)) (l : List α) (s : State) :
    BytesSame s (l.foldl f s) := by
  induction l generalizing s with
  | nil => exact ⟨fun _ => rfl, fun _ _ => rfl⟩
  | cons x r ih => exact bytesSame_trans (h s x) (ih _)

/-! ### A held effect performed -/

theorem dropHeld_bytes (s : State) (n : Nat) : BytesSame s (dropHeld s n) := bytesSame_of rfl rfl

theorem modWave_bytes (s : State) (u : Nat) (f : Wave → Wave) : BytesSame s (modWave s u f) := bytesSame_of rfl rfl

theorem awake_eq (w : Wave) (n : Nat) :
    awake w n = { w with waitHeld := if w.waitHeld = some n then none else w.waitHeld } := by
  unfold awake
  split <;> rfl

/-- A due effect that is no access to a scratchpad is performed as its move says, and its wave looks up. -/
theorem made_perform {i : Instr} {s t : State} {n : Nat} {h : Held} {name : String} {f : State → Held → Option State}
    {P : State → Prop} (hx : exec i s = perform s n name f) (hd : Due s n h) (hs : isSpadEffect h.eff = false)
    (hf : f (dropHeld s n) h = some t) (hP : P (modWave t h.wave (fun w => awake w n))) : Made i s P := by
  refine ⟨_, ?_, hP⟩
  have hserve : servedSeat t h = t := by
    unfold servedSeat
    rw [hs]
    rfl
  rw [hx]
  unfold perform
  rw [hd.held]
  dsimp only
  rw [if_pos ⟨hd.time, hd.free⟩, hf]
  dsimp only
  rw [hserve]

theorem mget_modWave_ne {t : State} {u x : Nat} (f : Wave → Wave) (h : x ≠ u) :
    mget (modWave t u f).waves x = mget t.waves x := by
  show mget (mmod t.waves u f) x = _
  rw [mget_mmod, if_neg h]

theorem mget_modWave_self (t : State) (u : Nat) (f : Wave → Wave) :
    mget (modWave t u f).waves u = (mget t.waves u).map f := by
  show mget (mmod t.waves u f) u = _
  rw [mget_mmod, if_pos rfl]

theorem waveOf_awake {t : State} {u n : Nat} {w : Wave} (h : mget t.waves u = some w) :
    waveOf (modWave t u (fun w => awake w n)) u = awake w n := waveOf_modWave _ h

theorem mget_modBlock_self (t : State) (k : Nat) (f : Block → Block) :
    mget (modBlock t k f).blocks k = (mget t.blocks k).map f := by
  show mget (mmod t.blocks k f) k = _
  rw [mget_mmod, if_pos rfl]

/-- A result written reads back, clean. -/
theorem sReg_putResult (w : Wave) (d : Nat) (x : Word) : sReg (putResult w (some d) x) d = ⟨x, .clean⟩ := by
  unfold putResult
  rw [sReg_setS, if_pos rfl]

/-- A wave that a result was written for and that then looks up. -/
theorem putResult_awake {t : State} {u n : Nat} {w : Wave} (h : mget t.waves u = some w) (dst : Option Nat) (x : Word) :
    let r := modWave (modWave t u (fun w => putResult w dst x)) u (fun w => awake w n)
    (∀ d, dst = some d → sReg (waveOf r u) d = ⟨x, .clean⟩) ∧ (waveOf r u).block = w.block := by
  intro r
  have hw : waveOf r u = awake (putResult w dst x) n :=
    waveOf_awake (by rw [mget_modWave_self, h]; rfl)
  rw [hw, awake_eq]
  refine ⟨fun d hd => ?_, ?_⟩
  · subst hd
    exact sReg_putResult w d x
  · unfold putResult
    split <;> rfl

/-! ### Departures (R85, R91, R157, R277) -/

/-- What the end of a grid leaves: global memory, the blocks and the waves. -/
def placesOf (s : State) : List Host.Cell × Map Block × Map Wave := (s.mem, s.blocks, s.waves)

theorem settleSave_places (s : State) (p : Nat) (x : SaveCmd) : placesOf (settleSave s p x) = placesOf s := by
  unfold settleSave
  split <;> rfl

theorem endFollow_places (s : State) (p g : Nat) : placesOf (endFollow s p g) = placesOf s := by
  unfold endFollow
  refine foldl_kept placesOf _ (fun t x => ?_) _ _
  split
  · rfl
  · exact settleSave_places _ _ _

theorem checkGrid_places (s : State) (n : Nat) : placesOf (checkGrid s n) = placesOf s := by
  unfold checkGrid
  split
  · exact endFollow_places _ _ _
  · rfl

theorem bytesSame_of_places {s t : State} (h : placesOf t = placesOf s) : BytesSame s t :=
  bytesSame_of (congrArg Prod.fst h) (congrArg (fun x => x.2.1) h)

theorem waves_of_places {s t : State} (h : placesOf t = placesOf s) : t.waves = s.waves :=
  congrArg (fun x => x.2.2) h

theorem blocks_of_places {s t : State} (h : placesOf t = placesOf s) : t.blocks = s.blocks :=
  congrArg (fun x => x.2.1) h

theorem dropWave_places (s : State) (u : Nat) :
    (dropWave s u).mem = s.mem ∧ (dropWave s u).blocks = s.blocks ∧ (dropWave s u).waves = mdel s.waves u :=
  ⟨rfl, rfl, rfl⟩

theorem supplyEmpty_waves (s : State) (u k : Nat) : (supplyEmpty s u k).waves = s.waves := by
  unfold supplyEmpty
  refine foldl_kept State.waves _ (fun t x => ?_) _ _
  dsimp only
  split
  · split <;> rfl
  · rfl

theorem supplyEmpty_bytes (s : State) (u k : Nat) : BytesSame s (supplyEmpty s u k) := by
  unfold supplyEmpty
  refine bytesSame_foldl _ (fun t x => ?_) _ _
  dsimp only
  split
  · split
    · exact bytesSame_trans (bytesSame_modBlock t k (fun b => { b with collectives := mset b.collectives x.1 _ }) (fun _ => rfl))
        (bytesSame_of rfl rfl)
    · exact bytesSame_modBlock t k (fun b => { b with collectives := mset b.collectives x.1 _ }) (fun _ => rfl)
  · exact ⟨fun _ => rfl, fun _ _ => rfl⟩

/-- A block that a wave has left. -/
def departed (u : Nat) (b : Block) : Block :=
  { settleAll (leaveAll b u) with shrink := (settleAll (leaveAll b u)).shrink - 1
                                  retired := (settleAll (leaveAll b u)).members.isEmpty }

/-- The state with a wave taken out of its block, which still counts it. -/
def loosened (s : State) (u k : Nat) : State :=
  modWave (supplyEmpty (modCore (endVarying s (waveOf s u).grid u) (waveOf s u).core
    (fun c => dropLocks c u (fun _ => true) true)) u k) u (fun w => { w with block := none })

/-- The wave and the block after the wave has left it, before the block's grants end. -/
def leaving (s : State) (u k : Nat) : State := modBlock (loosened s u k) k (departed u)

theorem leaveBlock_attached {s : State} {u k : Nat} (h : (waveOf s u).block = some k) :
    placesOf (leaveBlock s u) = placesOf (leaving s u k) := by
  unfold leaveBlock
  dsimp only
  rw [h]
  dsimp only
  split <;> rfl

theorem leaveBlock_loose {s : State} {u : Nat} (h : (waveOf s u).block = none) : leaveBlock s u = s := by
  unfold leaveBlock
  dsimp only
  rw [h]

theorem leaving_waves (s : State) (u k : Nat) :
    (leaving s u k).waves = mmod s.waves u (fun w => { w with block := none }) := by
  show mmod (supplyEmpty _ u k).waves u _ = _
  rw [supplyEmpty_waves]
  rfl

theorem leaving_bytes (s : State) (u k : Nat) : BytesSame s (leaving s u k) :=
  bytesSame_trans (bytesSame_trans (bytesSame_of (t := modCore (endVarying s (waveOf s u).grid u) (waveOf s u).core
    (fun c => dropLocks c u (fun _ => true) true)) rfl rfl) (supplyEmpty_bytes _ u k))
    (bytesSame_trans (bytesSame_of (t := loosened s u k) rfl rfl) (bytesSame_modBlock _ k (departed u) (fun _ => rfl)))

theorem leaveBlock_bytes (s : State) (u : Nat) : BytesSame s (leaveBlock s u) := by
  cases h : (waveOf s u).block with
  | none => rw [leaveBlock_loose h]; exact ⟨fun _ => rfl, fun _ _ => rfl⟩
  | some k => exact bytesSame_trans (leaving_bytes s u k) (bytesSame_of_places (leaveBlock_attached h))

/-- A wave that has left its block is no member of it. -/
theorem leaving_members (s : State) (u k : Nat) : mget (blockOf (leaving s u k) k).members u = none := by
  unfold leaving blockOf mgetD
  rw [mget_modBlock_self]
  cases mget (loosened s u k).blocks k with
  | none => rfl
  | some b =>
    show mget (mdel b.members u) u = none
    rw [mget_mdel, if_pos rfl]

/-- A wave that ends is gone, and no byte changes. -/
theorem endWaveNow_gone (s : State) (u : Nat) : BytesSame s (endWaveNow s u) ∧ mget (endWaveNow s u).waves u = none := by
  have hp : placesOf (endWaveNow s u) = placesOf (dropWave (leaveBlock s u) u) := checkGrid_places _ _
  obtain ⟨hm, hb, hw⟩ := dropWave_places (leaveBlock s u) u
  refine ⟨bytesSame_trans (leaveBlock_bytes s u) (bytesSame_trans (bytesSame_of hm hb) (bytesSame_of_places hp)), ?_⟩
  rw [waves_of_places hp, hw, mget_mdel, if_pos rfl]

end Sys2Proof.Machine.ExecutionContexts
end

section
/-! PROOF. Membership changes, arrivals, retirement and wakes performed (R77, R86, R89 to R96, R157, R279, R337). -/

namespace Sys2Proof.Machine.ExecutionContexts

/-! ### Waves placed by `grow` (R67, R89) -/

/-- The seat chosen for a new wave is one of 8, its slot one of 16. -/
theorem pickSlot_bounds (s : State) (core : Nat) :
    ((pickSlot s core).getD (0, 0)).1 < 8 ∧ ((pickSlot s core).getD (0, 0)).2 < 16 := by
  have hbest : ∀ (l : List Nat) (m : Nat × Nat), m.1 < 8 → (∀ k ∈ l, k < 8) → (l.foldl (fun (m : Nat × Nat) k =>
      if m.2 < (freeSlots s core k).length then (k, (freeSlots s core k).length) else m) m).1 < 8 := by
    intro l
    induction l with
    | nil => exact fun m h _ => h
    | cons k r ih =>
      intro m h hl
      rw [List.foldl_cons]
      refine ih _ ?_ (fun j hj => hl j (List.mem_cons_of_mem _ hj))
      split
      · exact hl k List.mem_cons_self
      · exact h
  unfold pickSlot
  dsimp only
  split
  · next n r hfree =>
    refine ⟨hbest _ _ (by decide) (fun k hk => List.mem_range.1 hk), ?_⟩
    have hn : n ∈ freeSlots s core _ := hfree ▸ List.mem_cons_self
    exact List.mem_range.1 (List.mem_filter.1 hn).1
  · exact ⟨by decide, by decide⟩

/-- A wave newly placed for a grid on a core, loose, one split at `pc`. -/
structure NewWave (g core pc : Nat) (x : Wave) : Prop where
  grid : x.grid = g
  core : x.core = core
  block : x.block = none
  splits : ∃ sp, x.splits = [sp] ∧ sp.pc = pc
  seat : x.seat < 8
  slot : x.slot < 16

theorem placeWave_new (s : State) (g core pc : Nat) (clock : List Nat) : ∃ x, NewWave g core pc x ∧
    (placeWave s g core pc 0 none clock).2.waves = mset s.waves s.nextId x :=
  ⟨_, ⟨rfl, rfl, rfl, ⟨_, rfl, rfl⟩, (pickSlot_bounds s core).1, (pickSlot_bounds s core).2⟩, rfl⟩

/-- Waves placed one after another take the next numbers and leave the waves there were. -/
theorem placeWaves_new (k : Nat) (s : State) (g core pc : Nat) (clock : List Nat) :
    let r := placeWaves k s g core pc clock
    (∀ u, u ∈ r.1 ↔ s.nextId ≤ u ∧ u < s.nextId + k) ∧ r.2.mem = s.mem ∧ r.2.blocks = s.blocks ∧
      (∀ u, u < s.nextId → mget r.2.waves u = mget s.waves u) ∧
      ∀ u ∈ r.1, ∃ x, mget r.2.waves u = some x ∧ NewWave g core pc x := by
  induction k generalizing s with
  | zero => exact ⟨fun u => ⟨fun h => absurd h (by simp [placeWaves]), fun h => by omega⟩, rfl, rfl, fun _ _ => rfl,
      fun u h => absurd h (by simp [placeWaves])⟩
  | succ k ih =>
    obtain ⟨x, hx, hw⟩ := placeWave_new s g core pc clock
    obtain ⟨hnum, hmem, hblk, hold, hnew⟩ := ih (placeWave s g core pc 0 none clock).2
    have hid : (placeWave s g core pc 0 none clock).2.nextId = s.nextId + 1 := rfl
    rw [hid] at hnum hold
    have hnums : ∀ u, u ∈ (placeWaves (k + 1) s g core pc clock).1 ↔ u = s.nextId ∨
        u ∈ (placeWaves k (placeWave s g core pc 0 none clock).2 g core pc clock).1 := fun u => List.mem_cons
    refine ⟨fun u => ?_, hmem.trans rfl, hblk.trans rfl, fun u hu => ?_, fun u hu => ?_⟩
    · rw [hnums, hnum]
      omega
    · exact (hold u (by omega)).trans (by rw [hw, mget_mset, if_neg (by omega)])
    · rcases (hnums u).1 hu with rfl | hu
      · exact ⟨x, (hold _ (by omega)).trans (by rw [hw, mget_mset, if_pos rfl]), hx⟩
      · exact hnew u hu

/-- A change made to some waves, which making it again does not alter. -/
theorem mget_foldl_modWave (f : Wave → Wave) (hf : ∀ w, f (f w) = f w) (l : List Nat) (s : State) (u : Nat) :
    mget (l.foldl (fun t u => modWave t u f) s).waves u = if u ∈ l then (mget s.waves u).map f else mget s.waves u := by
  induction l generalizing s with
  | nil => rw [if_neg (by simp)]; rfl
  | cons x r ih =>
    rw [List.foldl_cons, ih]
    by_cases hx : u = x
    · subst hx
      rw [mget_modWave_self, if_pos List.mem_cons_self]
      split
      · cases mget s.waves u with
        | none => rfl
        | some w => exact congrArg some (hf w)
      · rfl
    · rw [mget_modWave_ne f hx]
      simp only [List.mem_cons, hx, false_or]

theorem foldl_modWave_bytes (f : Wave → Wave) (l : List Nat) (s : State) :
    BytesSame s (l.foldl (fun t u => modWave t u f) s) :=
  bytesSame_foldl (fun t u => modWave t u f) (fun _ _ => bytesSame_of rfl rfl) l s

/-! ### Waves that join a block (R86, R95) -/

theorem joinBlock_waves (s : State) (x k u : Nat) {w : Wave} (h : mget s.waves u = some w) :
    ∃ n, mget (joinBlock s x k).waves u = some { w with block := if u = x then some k else w.block, wid := n } := by
  unfold joinBlock
  by_cases hu : u = x
  · subst hu
    rw [if_pos rfl]
    exact ⟨_, (mget_modWave_self _ _ _).trans (by rw [h]; rfl)⟩
  · rw [if_neg hu]
    exact ⟨w.wid, (mget_modWave_ne _ hu).trans h⟩

theorem joinBlock_bytes (s : State) (x k : Nat) : BytesSame s (joinBlock s x k) := by
  unfold joinBlock
  exact bytesSame_trans (bytesSame_of (t := modWave s x _) rfl rfl) (bytesSame_modBlock (modWave s x _) k _ (fun _ => rfl))

/-- A wave that has joined is a member. -/
theorem joinBlock_member {s : State} {k : Nat} {b : Block} (x : Nat) (h : mget s.blocks k = some b) :
    (mget (blockOf (joinBlock s x k) k).members x).isSome = true := by
  unfold joinBlock blockOf mgetD
  dsimp only
  rw [mget_modBlock_self]
  rw [show (modWave s x _).blocks = s.blocks from rfl, h]
  show (mget (mset b.members x _) x).isSome = true
  rw [mget_mset, if_pos rfl]
  rfl

theorem foldl_joinBlock_waves (k u : Nat) (l : List Nat) (s : State) {w : Wave} (h : mget s.waves u = some w) :
    ∃ n, mget (l.foldl (fun t x => joinBlock t x k) s).waves u =
      some { w with block := if u ∈ l then some k else w.block, wid := n } := by
  induction l generalizing s w with
  | nil => exact ⟨w.wid, h⟩
  | cons x r ih =>
    obtain ⟨n, hn⟩ := joinBlock_waves s x k u h
    obtain ⟨m, hm⟩ := ih _ hn
    refine ⟨m, hm.trans ?_⟩
    by_cases hu : u = x
    · simp [hu]
    · simp [hu]

/-! ### `grow` (R89) -/

/-- How many waves a `grow` places. -/
def growCount (s : State) (w : Wave) (want : Nat) (loose : Bool) : Nat :=
  let b := blockOf s (w.block.getD 0)
  let room := waveRoom s w.core (gridOf s w.grid).launch.stack
  if 0 < b.shrink ∨ b.preempt.isSome then 0
  else if loose then Nat.min want room else Nat.min (Nat.min want (b.maxWaves - b.members.length)) room

/-- New waves in the order of their slots. -/
def bySlot (s : State) (news : List Nat) : List Nat :=
  let order := (s.waves.filter (fun x => news.contains x.1)).map (fun x => (16 * x.2.seat + x.2.slot, x.1))
  (List.range 128).flatMap (fun i => (order.filter (fun x => decide (x.1 = i))).map (·.2))

theorem mem_bySlot {s : State} {news : List Nat} {u : Nat} {x : Wave} (h : mget s.waves u = some x) (hu : u ∈ news)
    (hseat : x.seat < 8) (hslot : x.slot < 16) : u ∈ bySlot s news := by
  unfold bySlot
  refine List.mem_flatMap.2 ⟨16 * x.seat + x.slot, List.mem_range.2 (by omega), List.mem_map.2 ⟨(16 * x.seat + x.slot, u), ?_, rfl⟩⟩
  refine List.mem_filter.2 ⟨List.mem_map.2 ⟨(u, x), List.mem_filter.2 ⟨mget_mem h, ?_⟩, rfl⟩, decide_eq_true rfl⟩
  exact List.contains_iff_mem.2 hu

/-- The new waves with the registers they start with. -/
def grown (s : State) (w : Wave) (g pc : Nat) (ss : List TWord) (as : List AReg) (clock : List Nat) : State :=
  let placed := placeWaves g s w.grid w.core pc (clockJoin clock w.wrote)
  placed.1.foldl (fun t u => modWave t u (fun x => { x with s := ss, a := as })) placed.2

/-- The numbers of the new waves. -/
def newNumbers (s : State) (w : Wave) (g pc : Nat) (clock : List Nat) : List Nat :=
  (placeWaves g s w.grid w.core pc (clockJoin clock w.wrote)).1

/-- The new waves of an attached `grow` join its block. -/
def grownIn (s : State) (w : Wave) (g pc : Nat) (loose : Bool) (ss : List TWord) (as : List AReg) (clock : List Nat) : State :=
  let s2 := grown s w g pc ss as clock
  if loose then s2
  else (bySlot s2 (newNumbers s w g pc clock)).foldl (fun t u => joinBlock t u (w.block.getD 0)) s2

theorem exec_growPerform (n : Nat) (s : State) : exec (.growPerform n) s = perform s n "GROW_PERFORM" (fun s1 h =>
    match h.eff with
    | .grow want loose pc dst ss as clock =>
      let w := waveOf s1 h.wave
      let g := growCount s1 w want loose
      some (modWave (grownIn s1 w g pc loose ss as clock) h.wave (fun w => putResult w dst (BitVec.ofNat 32 g)))
    | _ => none) := rfl

/-- What the new waves are, and what stays of the old ones. -/
theorem grownIn_waves (s : State) (w : Wave) (g pc k : Nat) (loose : Bool) (ss : List TWord) (as : List AReg)
    (clock : List Nat) (hk : w.block = some k) :
    let t := grownIn s w g pc loose ss as clock
    BytesSame s t ∧ (∀ u x, u < s.nextId → mget s.waves u = some x → ∃ y, mget t.waves u = some y) ∧
      ∀ u, s.nextId ≤ u → u < s.nextId + g → ∃ x sp, mget t.waves u = some x ∧ x.s = ss ∧ x.a = as ∧ x.grid = w.grid ∧
        x.core = w.core ∧ x.block = (if loose then none else some k) ∧ x.splits = [sp] ∧ sp.pc = pc := by
  intro t
  obtain ⟨hnum, hmem, hblk, hold, hnew⟩ := placeWaves_new g s w.grid w.core pc (clockJoin clock w.wrote)
  have hgrown : ∀ u, mget (grown s w g pc ss as clock).waves u = _ := fun u =>
    mget_foldl_modWave (fun x : Wave => { x with s := ss, a := as }) (fun _ => rfl) _ _ u
  have hbytes : BytesSame s (grown s w g pc ss as clock) :=
    bytesSame_trans (bytesSame_of hmem hblk) (foldl_modWave_bytes _ _ _)
  have holds : ∀ u x, u < s.nextId → mget s.waves u = some x → mget (grown s w g pc ss as clock).waves u = some x := by
    intro u x hu hx
    rw [hgrown u, if_neg (fun h => by have := (hnum u).1 h; omega)]
    exact (hold u hu).trans hx
  have hnews : ∀ u, s.nextId ≤ u → u < s.nextId + g → ∃ x, NewWave w.grid w.core pc x ∧
      mget (grown s w g pc ss as clock).waves u = some { x with s := ss, a := as } := by
    intro u h1 h2
    have hu := (hnum u).2 ⟨h1, h2⟩
    obtain ⟨x, hx, hn⟩ := hnew u hu
    exact ⟨x, hn, by rw [hgrown u, if_pos hu, hx]; rfl⟩
  cases loose with
  | true =>
    refine ⟨hbytes, fun u x hu hx => ⟨x, holds u x hu hx⟩, fun u h1 h2 => ?_⟩
    obtain ⟨x, hn, hx⟩ := hnews u h1 h2
    obtain ⟨sp, hsp, hpc⟩ := hn.splits
    exact ⟨_, sp, hx, rfl, rfl, hn.grid, hn.core, hn.block, hsp, hpc⟩
  | false =>
    have hjoin := fun u (x : Wave) (hx : mget (grown s w g pc ss as clock).waves u = some x) =>
      foldl_joinBlock_waves (w.block.getD 0) u (bySlot (grown s w g pc ss as clock) (newNumbers s w g pc clock)) _ hx
    refine ⟨bytesSame_trans hbytes (bytesSame_foldl _ (fun t u => joinBlock_bytes t u _) _ _), fun u x hu hx => ?_,
      fun u h1 h2 => ?_⟩
    · obtain ⟨n, hn⟩ := hjoin u x (holds u x hu hx)
      exact ⟨_, hn⟩
    · obtain ⟨x, hn, hx⟩ := hnews u h1 h2
      obtain ⟨n, hj⟩ := hjoin u _ hx
      obtain ⟨sp, hsp, hpc⟩ := hn.splits
      refine ⟨_, sp, hj, rfl, rfl, hn.grid, hn.core, ?_, hsp, hpc⟩
      rw [hk]
      exact if_pos (mem_bySlot hx ((hnum u).2 ⟨h1, h2⟩) hn.seat hn.slot)

/-- `grow` performed. -/
theorem grow_made {s : State} {n k want pc : Nat} {h : Held} {w : Wave} {loose : Bool} {dst : Option Nat}
    {ss : List TWord} {as : List AReg} {clock : List Nat} {b : Block} (hd : Due s n h)
    (hw : mget s.waves h.wave = some w) (he : h.eff = .grow want loose pc dst ss as clock) (hk : w.block = some k)
    (hb : mget s.blocks k = some b) (hid : h.wave < s.nextId) :
    let room := waveRoom s w.core (gridOf s w.grid).launch.stack
    let g := if 0 < b.shrink ∨ b.preempt.isSome = true then 0 else if loose then Nat.min want room
      else Nat.min (Nat.min want (b.maxWaves - b.members.length)) room
    Made (.growPerform n) s (fun t => BytesSame s t ∧
      (∀ d, dst = some d → sReg (waveOf t h.wave) d = ⟨BitVec.ofNat 32 g, .clean⟩) ∧
      ∀ u, s.nextId ≤ u → u < s.nextId + g → ∃ x sp, mget t.waves u = some x ∧ x.s = ss ∧ x.a = as ∧ x.grid = w.grid ∧
        x.core = w.core ∧ x.block = (if loose then none else some k) ∧ x.splits = [sp] ∧ sp.pc = pc) := by
  intro room g
  have hwave : waveOf (dropHeld s n) h.wave = w := waveOf_eq hw
  have hcount : growCount (dropHeld s n) w want loose = g := by
    have hblock : blockOf (dropHeld s n) (w.block.getD 0) = b := by
      rw [hk]
      show (mget s.blocks k).getD {} = b
      rw [hb]
      rfl
    unfold growCount
    rw [hblock]
    rfl
  obtain ⟨hbytes, hold, hnew⟩ := grownIn_waves (dropHeld s n) w g pc k loose ss as clock hk
  refine made_perform (exec_growPerform n s) hd (by rw [he]; rfl) (by rw [he]) ?_
  rw [hwave, hcount]
  obtain ⟨y, hy⟩ := hold _ _ hid hw
  refine ⟨bytesSame_trans (bytesSame_trans (dropHeld_bytes s n) hbytes) (bytesSame_of rfl rfl), (putResult_awake hy dst _).1, fun u h1 h2 => ?_⟩
  have hne : u ≠ h.wave := by omega
  rw [mget_modWave_ne _ hne, mget_modWave_ne _ hne]
  exact hnew u h1 h2

/-! ### `attach` (R90) -/

/-- A key of a map finds an element. -/
theorem mget_of_mem {α : Type} {m : Map α} {k : Nat} {x : α} (h : (k, x) ∈ m) : ∃ y, mget m k = some y := by
  induction m with
  | nil => exact absurd h (by simp)
  | cons c r ih =>
    obtain ⟨i, z⟩ := c
    unfold mget
    by_cases hi : i = k
    · exact ⟨z, if_pos hi⟩
    · obtain ⟨y, hy⟩ := ih ((List.mem_cons.1 h).resolve_left (fun e => hi (congrArg Prod.fst e).symm))
      exact ⟨y, (if_neg hi).trans hy⟩

theorem exec_attachPerform (n : Nat) (s : State) : exec (.attachPerform n) s = perform s n "ATTACH_PERFORM" (fun s1 h =>
    match h.eff with
    | .attach index dst =>
      let put (t : State) (x : Word) : State := modWave t h.wave (fun w => putResult w dst x)
      match s1.blocks.find? (fun b => decide (b.2.grid = (waveOf s1 h.wave).grid ∧ b.2.index = index ∧
        b.2.core = (waveOf s1 h.wave).core)) with
      | none => some (put s1 1)
      | some (k, b) =>
        if 0 < b.shrink ∨ b.preempt.isSome ∨ b.retired ∨ b.fault then some (put s1 3)
        else if b.maxWaves ≤ b.members.length then some (put s1 2)
        else some (put (joinBlock s1 h.wave k) 0)
    | _ => none) := rfl

/-- An `attach` that answers status `x` in state `t`. -/
theorem attach_answers {s t : State} {n index : Nat} {h : Held} {w : Wave} {dst : Option Nat} {x : Word} {P : State → Prop}
    (hd : Due s n h) (he : h.eff = .attach index dst) (hbytes : BytesSame (dropHeld s n) t)
    (hw : mget t.waves h.wave = some w)
    (hf : (match s.blocks.find? (fun b => decide (b.2.grid = (waveOf s h.wave).grid ∧ b.2.index = index ∧
        b.2.core = (waveOf s h.wave).core)) with
      | none => some (modWave (dropHeld s n) h.wave (fun w => putResult w dst 1))
      | some (k, b) =>
        if 0 < b.shrink ∨ b.preempt.isSome ∨ b.retired ∨ b.fault then
          some (modWave (dropHeld s n) h.wave (fun w => putResult w dst 3))
        else if b.maxWaves ≤ b.members.length then some (modWave (dropHeld s n) h.wave (fun w => putResult w dst 2))
        else some (modWave (joinBlock (dropHeld s n) h.wave k) h.wave (fun w => putResult w dst 0))) =
      some (modWave t h.wave (fun w => putResult w dst x)))
    (hP : ∀ r, (waveOf r h.wave).block = w.block → r.blocks = t.blocks → P r) :
    Made (.attachPerform n) s (fun t => BytesSame s t ∧ (∀ d, dst = some d → sReg (waveOf t h.wave) d = ⟨x, .clean⟩) ∧ P t) := by
  refine made_perform (exec_attachPerform n s) hd (by rw [he]; rfl) ?_ ⟨?_, (putResult_awake hw dst x).1,
    hP _ (putResult_awake hw dst x).2 rfl⟩
  · rw [he]
    exact hf
  · exact bytesSame_trans (bytesSame_trans (dropHeld_bytes s n) hbytes) (bytesSame_of rfl rfl)

/-- `attach` performed: the first status that applies. -/
theorem attach_made {s : State} {n index : Nat} {h : Held} {w : Wave} {dst : Option Nat} (hd : Due s n h)
    (hw : mget s.waves h.wave = some w) (he : h.eff = .attach index dst) :
    let found := s.blocks.find? (fun b => decide (b.2.grid = w.grid ∧ b.2.index = index ∧ b.2.core = w.core))
    let answers (x : Word) (P : State → Prop) : Prop := Made (.attachPerform n) s (fun t => BytesSame s t ∧
      (∀ d, dst = some d → sReg (waveOf t h.wave) d = ⟨x, .clean⟩) ∧ P t)
    (found = none → answers 1 (fun t => (waveOf t h.wave).block = w.block)) ∧
    (∀ k b, found = some (k, b) →
      let late := 0 < b.shrink ∨ b.preempt.isSome = true ∨ b.retired = true ∨ b.fault = true
      (late → answers 3 (fun t => (waveOf t h.wave).block = w.block)) ∧
      (¬ late → b.maxWaves ≤ b.members.length → answers 2 (fun t => (waveOf t h.wave).block = w.block)) ∧
      (¬ late → b.members.length < b.maxWaves → answers 0 (fun t => (waveOf t h.wave).block = some k ∧
        (mget (blockOf t k).members h.wave).isSome = true))) := by
  intro found answers
  have hwave : waveOf s h.wave = w := waveOf_eq hw
  have hrefl : BytesSame (dropHeld s n) (dropHeld s n) := bytesSame_of rfl rfl
  refine ⟨fun hf => attach_answers hd he hrefl hw ?_ (fun r hr _ => hr), fun k b hf => ?_⟩
  · rw [hwave, show s.blocks.find? _ = none from hf]
  · intro late
    refine ⟨fun hl => attach_answers hd he hrefl hw ?_ (fun r hr _ => hr),
      fun hl hfull => attach_answers hd he hrefl hw ?_ (fun r hr _ => hr), fun hl hroom => ?_⟩
    · rw [hwave, show s.blocks.find? _ = some (k, b) from hf]
      exact if_pos hl
    · rw [hwave, show s.blocks.find? _ = some (k, b) from hf]
      exact (if_neg hl).trans (if_pos hfull)
    · obtain ⟨m, hm⟩ := joinBlock_waves (dropHeld s n) h.wave k h.wave hw
      refine attach_answers hd he (joinBlock_bytes _ _ _) hm ?_ (fun r hr hb => ⟨hr.trans (if_pos rfl), ?_⟩)
      · rw [hwave, show s.blocks.find? _ = some (k, b) from hf]
        exact (if_neg hl).trans (if_neg (Nat.not_le.2 hroom))
      · unfold blockOf
        rw [hb]
        obtain ⟨b', hb'⟩ := mget_of_mem (List.mem_of_find?_eq_some hf)
        exact joinBlock_member (s := dropHeld s n) h.wave hb'

/-! ### Waves that leave (R85, R91, R157) -/

theorem exec_detachPerform (n : Nat) (s : State) : exec (.detachPerform n) s = perform s n "DETACH_PERFORM" (fun s1 h =>
    match h.eff with
    | .detach loose =>
      if joinsWaiting s1 (waveOf s1 h.wave).block then none
      else if loose then
        some (modWave (releaseDrawn (leaveBlock s1 h.wave) (waveOf s1 h.wave).part (waveOf s1 h.wave).drawn) h.wave
          (fun w => { w with drawn := [] }))
      else some (endWaveNow s1 h.wave)
    | _ => none) := rfl

theorem exec_endPerform (n : Nat) (s : State) : exec (.endPerform n) s = perform s n "END_PERFORM" (fun s1 h =>
    match h.eff with
    | .finish => if joinsWaiting s1 (waveOf s1 h.wave).block then none else some (endWaveNow s1 h.wave)
    | _ => none) := rfl

theorem exec_deadWaveLeave (n : Nat) (s : State) : exec (.deadWaveLeave n) s = perform s n "DEAD_WAVE_LEAVE" (fun s1 h =>
    match h.eff with
    | .dead =>
      if joinsWaiting s1 (waveOf s1 h.wave).block then none
      else if (waveOf s1 h.wave).state = .faulted ∧ !waveIdle s1 h.wave then none else some (endWaveNow s1 h.wave)
    | _ => none) := rfl

/-- A move that ends the wave of its effect: it is gone, and no byte changes. -/
theorem ended_made {i : Instr} {s : State} {n : Nat} {h : Held} {name : String} {f : State → Held → Option State}
    (hx : exec i s = perform s n name f) (hd : Due s n h) (hs : isSpadEffect h.eff = false)
    (hf : f (dropHeld s n) h = some (endWaveNow (dropHeld s n) h.wave)) :
    Made i s (fun t => BytesSame s t ∧ mget t.waves h.wave = none) := by
  obtain ⟨hb, hgone⟩ := endWaveNow_gone (dropHeld s n) h.wave
  refine made_perform hx hd hs hf ⟨bytesSame_trans (bytesSame_trans (dropHeld_bytes s n) hb) (bytesSame_of rfl rfl), ?_⟩
  rw [mget_modWave_self, hgone]
  rfl

/-- A wave that detaches as a loose one leaves its block and its decks' items. -/
theorem detach_loose_made {s : State} {n k : Nat} {h : Held} {w : Wave} (hd : Due s n h) (hw : mget s.waves h.wave = some w)
    (hj : joinsWaiting (dropHeld s n) w.block = false) (he : h.eff = .detach true) (hk : w.block = some k) :
    Made (.detachPerform n) s (fun t => BytesSame s t ∧ (waveOf t h.wave).block = none ∧ (waveOf t h.wave).drawn = [] ∧
      mget (blockOf t k).members h.wave = none) := by
  have hwave : waveOf (dropHeld s n) h.wave = w := waveOf_eq hw
  have hp := leaveBlock_attached (s := dropHeld s n) (u := h.wave) (k := k) (by rw [hwave]; exact hk)
  have hleft : mget (leaveBlock (dropHeld s n) h.wave).waves h.wave = some { w with block := none } := by
    rw [waves_of_places hp, leaving_waves, mget_mmod, if_pos rfl]
    show Option.map _ (mget s.waves h.wave) = _
    rw [hw]
    rfl
  refine made_perform (t := modWave (releaseDrawn (leaveBlock (dropHeld s n) h.wave) w.part w.drawn) h.wave
    (fun w => { w with drawn := [] })) (exec_detachPerform n s) hd (by rw [he]; rfl) ?_ ⟨?_, ?_⟩
  · rw [he]
    dsimp only
    rw [hwave, hj, if_neg (by decide)]
    rfl
  · exact bytesSame_trans (bytesSame_trans (dropHeld_bytes s n) (leaveBlock_bytes _ _)) (bytesSame_of rfl rfl)
  · have hr : waveOf (modWave (modWave (releaseDrawn (leaveBlock (dropHeld s n) h.wave) w.part w.drawn) h.wave
        (fun w => { w with drawn := [] })) h.wave (fun w => awake w n)) h.wave =
        awake { { w with block := none } with drawn := [] } n :=
      waveOf_awake ((mget_modWave_self _ _ _).trans (congrArg (Option.map (fun w : Wave => { w with drawn := [] })) hleft))
    rw [hr, awake_eq]
    refine ⟨rfl, rfl, ?_⟩
    have hm := leaving_members (dropHeld s n) h.wave k
    unfold blockOf at hm ⊢
    rw [← blocks_of_places hp] at hm
    exact hm

/-- The moves of a wave that leaves, no join of its block before it. -/
theorem leaves_made {s : State} {n : Nat} {h : Held} {w : Wave} (hd : Due s n h) (hw : mget s.waves h.wave = some w)
    (hj : joinsWaiting (dropHeld s n) w.block = false) :
    (h.eff = .detach true → ∀ k, w.block = some k → Made (.detachPerform n) s (fun t => BytesSame s t ∧
      (waveOf t h.wave).block = none ∧ (waveOf t h.wave).drawn = [] ∧ mget (blockOf t k).members h.wave = none)) ∧
    (h.eff = .detach false → Made (.detachPerform n) s (fun t => BytesSame s t ∧ mget t.waves h.wave = none)) ∧
    (h.eff = .finish → Made (.endPerform n) s (fun t => BytesSame s t ∧ mget t.waves h.wave = none)) ∧
    (h.eff = .dead → w.state ≠ .faulted ∨ waveIdle (dropHeld s n) h.wave = true →
      Made (.deadWaveLeave n) s (fun t => BytesSame s t ∧ mget t.waves h.wave = none)) := by
  have hwave : waveOf (dropHeld s n) h.wave = w := waveOf_eq hw
  refine ⟨fun he k hk => detach_loose_made hd hw hj he hk, fun he => ?_, fun he => ?_, fun he hidle => ?_⟩
  · refine ended_made (exec_detachPerform n s) hd (by rw [he]; rfl) ?_
    rw [he]
    dsimp only
    rw [hwave, hj, if_neg (by decide), if_neg (by decide)]
  · refine ended_made (exec_endPerform n s) hd (by rw [he]; rfl) ?_
    rw [he]
    dsimp only
    rw [hwave, hj, if_neg (by decide)]
  · refine ended_made (exec_deadWaveLeave n s) hd (by rw [he]; rfl) ?_
    rw [he]
    dsimp only
    rw [hwave, hj, if_neg (by decide), if_neg]
    rintro ⟨hf, hi⟩
    rcases hidle with h | h
    · exact h hf
    · rw [h] at hi
      exact absurd hi (by decide)

/-! ### Arrivals (R94, R95) -/

theorem exec_barrierArrive (n : Nat) (s : State) : exec (.barrierArrive n) s = perform s n "BARRIER_ARRIVE" (fun s1 h =>
    if joinsFirst s1 ((waveOf s1 h.wave).block.getD 0) then none
    else match h.eff with
    | .arrive b => some (modBlock s1 ((waveOf s1 h.wave).block.getD 0) (fun x => settleAll (arriveAt x h.wave b)))
    | .arriveTo b d => some (modWave (modBlock s1 ((waveOf s1 h.wave).block.getD 0) (fun x =>
        settleAll (arriveAt x h.wave b))) h.wave (fun w => putResult w d
          (memE (mgetD (blockOf s1 ((waveOf s1 h.wave).block.getD 0)).members h.wave {}) b)))
    | _ => none) := rfl

/-- After an arrival the wave's next generation is one higher, and the barrier has counted it and settled. -/
theorem arriveAt_settled (b : Block) (u m : Nat) (hm : m < 4) :
    let e := memE (mgetD b.members u {}) m
    let x := barAt b m
    memE (mgetD (settleAll (arriveAt b u m)).members u {}) m = e + 1 ∧
      barAt (settleAll (arriveAt b u m)) m =
        settleBar 8 (if e = x.g then { x with c := x.c + 1 } else { x with cn := x.cn + 1 }) := by
  intro e x
  constructor
  · show memE (mgetD (mset b.members u _) u {}) m = _
    rw [mgetD_mset_self]
    exact nth_nthSet_self _ _ _ _
  · have hsettle : ∀ y : Block, barAt (settleAll y) m = settleBar 8 (barAt y m) := fun y => by
      rcases m with _ | _ | _ | _ | m
      · rfl
      · rfl
      · rfl
      · rfl
      · omega
    rw [hsettle]
    exact congrArg (settleBar 8) (nth_nthSet_self _ _ _ _)

/-- An arrival performed. -/
theorem arrive_made {s : State} {n m k : Nat} {h : Held} {w : Wave} {dst : Option Nat} {b : Block} (hd : Due s n h)
    (hw : mget s.waves h.wave = some w) (he : h.eff = .arrive m ∨ h.eff = .arriveTo m dst) (hm : m < 4)
    (hk : w.block = some k) (hb : mget s.blocks k = some b) (hj : joinsFirst (dropHeld s n) k = false) :
    let e := memE (mgetD b.members h.wave {}) m
    let x := barAt b m
    Made (.barrierArrive n) s (fun t => BytesSame s t ∧
      memE (mgetD (blockOf t k).members h.wave {}) m = e + 1 ∧
      barAt (blockOf t k) m = settleBar 8 (if e = x.g then { x with c := x.c + 1 } else { x with cn := x.cn + 1 }) ∧
      (∀ d, h.eff = .arriveTo m (some d) → sReg (waveOf t h.wave) d = ⟨e, .clean⟩)) := by
  intro e x
  have hblock : (waveOf (dropHeld s n) h.wave).block.getD 0 = k := by
    rw [show waveOf (dropHeld s n) h.wave = w from waveOf_eq hw, hk]
    rfl
  have hbk : blockOf (dropHeld s n) k = b := by
    show (mget s.blocks k).getD {} = b
    rw [hb]
    rfl
  have hmod : blockOf (modBlock (dropHeld s n) k (fun x => settleAll (arriveAt x h.wave m))) k =
      settleAll (arriveAt b h.wave m) := blockOf_modBlock (s := dropHeld s n) _ hb
  have hbytes : BytesSame s (modBlock (dropHeld s n) k (fun x => settleAll (arriveAt x h.wave m))) :=
    bytesSame_trans (dropHeld_bytes s n) (bytesSame_modBlock _ k _ (fun _ => rfl))
  obtain ⟨hmem, hbar⟩ := arriveAt_settled b h.wave m hm
  rcases he with he | he
  · refine made_perform (t := modBlock (dropHeld s n) k (fun x => settleAll (arriveAt x h.wave m)))
      (exec_barrierArrive n s) hd (by rw [he]; rfl) ?_ ⟨bytesSame_trans hbytes (modWave_bytes _ _ _), ?_, ?_, fun d hd => ?_⟩
    · rw [hblock, hj, if_neg (by decide), he]
    · exact (congrArg (fun y : Block => memE (mgetD y.members h.wave {}) m) hmod).trans hmem
    · exact (congrArg (fun y : Block => barAt y m) hmod).trans hbar
    · rw [he] at hd
      exact absurd hd (by simp)
  · refine made_perform (t := modWave (modBlock (dropHeld s n) k (fun x => settleAll (arriveAt x h.wave m))) h.wave
      (fun w => putResult w dst e)) (exec_barrierArrive n s) hd (by rw [he]; rfl) ?_
      ⟨bytesSame_trans hbytes (bytesSame_of rfl rfl), ?_, ?_, fun d hdst => ?_⟩
    · rw [hblock, hj, if_neg (by decide), he]
      dsimp only
      rw [hbk]
    · exact (congrArg (fun y : Block => memE (mgetD y.members h.wave {}) m) hmod).trans hmem
    · exact (congrArg (fun y : Block => barAt y m) hmod).trans hbar
    · rw [he] at hdst
      exact (putResult_awake (t := modBlock (dropHeld s n) k _) (u := h.wave) (n := n) hw dst e).1 d (by injection hdst)

/-! ### Shrink requests (R92) -/

theorem shrinkPost_made {s : State} {k x : Nat} {b : Block} (hb : mget s.blocks k = some b)
    (h : 1 ≤ x ∧ x ≤ 63 ∧ x + 1 ≤ b.members.length ∧ pressure s k = true ∧ controlled s (gridOf s b.grid).part = true) :
    Made (.shrinkRequestPost k x) s (fun t => BytesSame s t ∧ blockOf t k = { b with shrink := x }) := by
  refine ⟨modBlock s k (fun b => { b with shrink := x }), ?_, bytesSame_modBlock s k _ (fun _ => rfl),
    blockOf_modBlock (fun b : Block => { b with shrink := x }) hb⟩
  show execShrinkRequestPost k x s = _
  unfold execShrinkRequestPost
  rw [hb]
  exact if_pos h

theorem shrinkClear_made {s : State} {k : Nat} {b : Block} (hb : mget s.blocks k = some b) (hx : 0 < b.shrink)
    (hp : pressure s k = false) :
    Made (.shrinkRequestClear k) s (fun t => BytesSame s t ∧ blockOf t k = { b with shrink := 0 }) := by
  refine ⟨modBlock s k (fun b => { b with shrink := 0 }), ?_, bytesSame_modBlock s k _ (fun _ => rfl),
    blockOf_modBlock (fun b : Block => { b with shrink := 0 }) hb⟩
  show execShrinkRequestClear k s = _
  unfold execShrinkRequestClear
  have hblock : blockOf s k = b := by
    unfold blockOf mgetD
    rw [hb]
    rfl
  rw [hblock, hp]
  exact if_pos ⟨hx, rfl⟩

/-! ### Cohort arrivals (R279) -/

/-- What the ports leave: the waves, the blocks and the cohorts of every partition. -/
def cohortsOf (s : State) : Map Wave × Map Block × (Nat → Map Cohort) :=
  (s.waves, s.blocks, fun p => (partOf s p).cohorts)

/-- A partition changed in other fields keeps its cohorts. -/
theorem modPart_cohorts (s : State) (p : Nat) (f : Partition → Partition) (hf : ∀ x, (f x).cohorts = x.cohorts) :
    cohortsOf (modPart s p f) = cohortsOf s := by
  refine congrArg (fun z => (s.waves, s.blocks, z)) (funext fun q => ?_)
  show (mgetD (mmod s.parts p f) q {}).cohorts = (mgetD s.parts q {}).cohorts
  unfold mgetD
  rw [mget_mmod]
  split
  · next h =>
    subst h
    cases mget s.parts q with
    | none => rfl
    | some x => exact hf x
  · rfl

theorem postEvent_cohorts (s : State) (p : Nat) (e : Event) : cohortsOf (postEvent s p e) = cohortsOf s :=
  modPart_cohorts s p _ (fun _ => rfl)

theorem failStream_cohorts (s : State) (x : Nat) : cohortsOf (failStream s x) = cohortsOf s := by
  unfold failStream
  split
  · rfl
  · exact (postEvent_cohorts _ _ _).trans rfl

theorem landPacket_cohorts (s : State) (x : PortWrite) : cohortsOf (landPacket s x) = cohortsOf s := by
  unfold landPacket
  split <;> rfl

theorem sendOn_cohorts (s : State) (x : PortWrite) : cohortsOf (sendOn s x) = cohortsOf s := by
  unfold sendOn
  split
  · exact landPacket_cohorts s x
  · split
    · exact (failStream_cohorts _ _).trans rfl
    · rfl

theorem pumpOnce_cohorts (l : List PortWrite) (blocked : List Nat) (s : State) :
    cohortsOf (pumpOnce l blocked s) = cohortsOf s := by
  induction l generalizing blocked s with
  | nil => rfl
  | cons x r ih =>
    unfold pumpOnce
    split
    · exact ih _ _
    · split
      · dsimp only
        split
        · exact (ih _ _).trans ((postEvent_cohorts _ _ _).trans rfl)
        · exact (ih _ _).trans rfl
        · split
          · exact (ih _ _).trans ((postEvent_cohorts _ _ _).trans rfl)
          · exact (ih _ _).trans ((sendOn_cohorts _ _).trans rfl)
      · exact ih _ _

theorem portJoin_cohorts (s : State) (part stream world : Nat) (bytes : List (Nat × Byte)) (tag : Tag) (clock : List Nat)
    (wave : Option Nat) : cohortsOf (portJoin s part stream world bytes tag clock wave) = cohortsOf s :=
  (pumpOnce_cohorts _ _ _).trans rfl

theorem sendPeers_cohorts (s : State) (part idx : Nat) (tag : Tag) (clock : List Nat) (u : Nat) :
    cohortsOf (sendPeers s part idx tag clock u) = cohortsOf s := by
  unfold sendPeers
  exact foldl_kept cohortsOf _ (fun t e => portJoin_cohorts t part (peerStream part e) _ [] tag clock (some u)) _ _

/-- Every write that waits at a port is a message without bytes. -/
def OnlyMessages (s : State) : Prop := ∀ x ∈ s.ports, x.bytes = []

/-- A step of the ports that lands nothing: where only messages wait, memory stands and only messages wait. -/
def LandsNothing (s t : State) : Prop := OnlyMessages s → t.mem = s.mem ∧ OnlyMessages t

theorem failStream_lands (s : State) (x : Nat) : LandsNothing s (failStream s x) := by
  intro h
  unfold failStream
  split
  · exact ⟨rfl, h⟩
  · exact ⟨rfl, fun y hy => h y (List.mem_filter.1 hy).1⟩

theorem sendOn_lands (s : State) {x : PortWrite} (hx : x.bytes = []) : LandsNothing s (sendOn s x) := by
  intro h
  unfold sendOn
  split
  · unfold landPacket
    rw [hx]
    exact ⟨rfl, h⟩
  · split
    · exact failStream_lands { s with ports := x :: s.ports } x.stream (fun y hy =>
        (List.mem_cons.1 hy).elim (fun e => e ▸ hx) (h y))
    · exact ⟨rfl, h⟩

theorem pumpOnce_lands (l : List PortWrite) (blocked : List Nat) (s : State) (hl : ∀ x ∈ l, x.bytes = []) :
    LandsNothing s (pumpOnce l blocked s) := by
  induction l generalizing blocked s with
  | nil => exact fun h => ⟨rfl, h⟩
  | cons x r ih =>
    intro h
    have hr : ∀ y ∈ r, y.bytes = [] := fun y hy => hl y (List.mem_cons_of_mem _ hy)
    have hdrop : OnlyMessages { s with ports := s.ports.filter (fun y => !decide (y.id = x.id)) } :=
      fun y hy => h y (List.mem_filter.1 hy).1
    have hpost (p : Nat) (e : Event) : OnlyMessages (postEvent
        { s with ports := s.ports.filter (fun y => !decide (y.id = x.id)) } p e) := hdrop
    unfold pumpOnce
    split
    · exact ih _ _ hr h
    · split
      · dsimp only
        split
        · exact ih _ _ hr (hpost _ _)
        · exact ih _ _ hr hdrop
        · split
          · exact ih _ _ hr (hpost _ _)
          · obtain ⟨hm, ho⟩ := sendOn_lands _ (hl x List.mem_cons_self) hdrop
            obtain ⟨hm', ho'⟩ := ih blocked _ hr ho
            exact ⟨hm'.trans hm, ho'⟩
      · exact ih _ _ hr h

theorem portJoin_lands (s : State) (part stream world : Nat) (tag : Tag) (clock : List Nat) (wave : Option Nat) :
    LandsNothing s (portJoin s part stream world [] tag clock wave) := by
  intro h
  unfold portJoin pumpPorts
  refine pumpOnce_lands _ [] _ (fun y hy => ?_) (fun y hy => ?_)
  · exact (List.mem_append.1 hy).elim (h y) (fun hy => by rw [List.mem_singleton.1 hy])
  · exact (List.mem_append.1 hy).elim (h y) (fun hy => by rw [List.mem_singleton.1 hy])

theorem sendPeers_lands (s : State) (part idx : Nat) (tag : Tag) (clock : List Nat) (u : Nat) :
    LandsNothing s (sendPeers s part idx tag clock u) := by
  have hfold : ∀ (l : List Nat) (g : Nat → Nat) (world : Nat) (t : State), LandsNothing t (l.foldl (fun t e =>
      portJoin t part (g e) world [] tag clock (some u)) t) := by
    intro l g world
    induction l with
    | nil => exact fun t h => ⟨rfl, h⟩
    | cons e r ih =>
      intro t h
      obtain ⟨hm, ho⟩ := portJoin_lands t part (g e) world tag clock (some u) h
      obtain ⟨hm', ho'⟩ := ih _ ho
      exact ⟨hm'.trans hm, ho'⟩
  exact hfold _ (peerStream part) _ s

/-- Generations released for a cohort leave its arrivals and only rise. -/
theorem releaseNext_spec (p : Partition) (n : Nat) (c : Cohort) :
    (releaseNext p n c).arrivals = c.arrivals ∧ c.released ≤ (releaseNext p n c).released := by
  induction n generalizing c with
  | zero => exact ⟨rfl, Nat.le_refl _⟩
  | succ n ih =>
    unfold releaseNext
    split
    · obtain ⟨ha, hr⟩ := ih { c with released := c.released + 1 }
      exact ⟨ha, Nat.le_trans (Nat.le_succ _) hr⟩
    · exact ⟨rfl, Nat.le_refl _⟩

/-- The cohort after an arrival of generation `gen` on a core (R279). -/
def arrivedCohort (p : Partition) (core gen : Nat) (clock : List Nat) (c : Cohort) : Cohort :=
  settleCohort p { c with
    arrivals := mset c.arrivals core (gen + 1)
    relClocks := mset c.relClocks gen (clockJoin (mgetD c.relClocks gen []) clock) }

theorem exec_cohortArrival (n : Nat) (s : State) :
    exec (.cohortArrivalPerform n) s = perform s n "COHORT_ARRIVAL_PERFORM" (fun s1 h =>
      match h.eff with
      | .cohort idx =>
        let w := waveOf s1 h.wave
        let gen := mgetD (mgetD (partOf s1 w.part).cohorts idx {}).arrivals h.core 0
        let clock := clockJoin w.clock w.wrote
        let s2 := modCohort s1 w.part idx (arrivedCohort (partOf s1 w.part) h.core gen clock)
        some (modOlds (modWave (sendPeers s2 w.part idx .clean clock h.wave) h.wave (giveGeneration n gen)) h.wave
          (fun _ => true) (giveGeneration n gen))
      | _ => none) := rfl

/-- A cohort arrival performed. -/
theorem cohortArrival_made {s : State} {n idx : Nat} {h : Held} {w : Wave} {c : Cohort} {p : Partition} (hd : Due s n h)
    (hw : mget s.waves h.wave = some w) (he : h.eff = .cohort idx) (hp : mget s.parts w.part = some p)
    (hc : mget p.cohorts idx = some c) :
    Made (.cohortArrivalPerform n) s (fun t => (s.ports = [] → BytesSame s t) ∧
      ∃ y, mget (partOf t w.part).cohorts idx = some y ∧
        mgetD y.arrivals h.core 0 = mgetD c.arrivals h.core 0 + 1 ∧ c.released ≤ y.released) := by
  have hwave : waveOf (dropHeld s n) h.wave = w := waveOf_eq hw
  have hpart : partOf (dropHeld s n) w.part = p := by
    show (mget s.parts w.part).getD {} = p
    rw [hp]
    rfl
  have hcoh : mgetD p.cohorts idx ({} : Cohort) = c := by
    unfold mgetD
    rw [hc]
    rfl
  let f := arrivedCohort p h.core (mgetD c.arrivals h.core 0) (clockJoin w.clock w.wrote)
  let s2 := modCohort (dropHeld s n) w.part idx f
  let s3 := sendPeers s2 w.part idx .clean (clockJoin w.clock w.wrote) h.wave
  have hcohorts : cohortsOf s3 = cohortsOf s2 := sendPeers_cohorts _ _ _ _ _ _
  refine made_perform (t := modOlds (modWave s3 h.wave (giveGeneration n (mgetD c.arrivals h.core 0))) h.wave
    (fun _ => true) (giveGeneration n (mgetD c.arrivals h.core 0))) (exec_cohortArrival n s) hd (by rw [he]; rfl) ?_
    ⟨fun hports => ?_, f c, ?_, ?_⟩
  · rw [he]
    dsimp only
    rw [hwave, hpart, hcoh]
  · obtain ⟨hm, -⟩ := sendPeers_lands s2 w.part idx .clean (clockJoin w.clock w.wrote) h.wave (fun x hx => by
      rw [show s2.ports = s.ports from rfl, hports] at hx
      exact absurd hx (by simp))
    exact bytesSame_of hm (congrArg (fun z => z.2.1) hcohorts)
  · have hparts := congrFun (congrArg (fun z => z.2.2) hcohorts) w.part
    refine (congrArg (fun m => mget m idx) hparts).trans ?_
    show mget (partOf (modPart (dropHeld s n) w.part (fun x => { x with cohorts := mmod x.cohorts idx f })) w.part).cohorts idx = _
    rw [partOf_modPart (s := dropHeld s n) _ hp]
    show mget (mmod p.cohorts idx f) idx = _
    rw [mget_mmod, if_pos rfl, hc]
    rfl
  · obtain ⟨ha, hr⟩ := releaseNext_spec p (greatest ((mset c.arrivals h.core (mgetD c.arrivals h.core 0 + 1)).map (·.2)))
      { c with
        arrivals := mset c.arrivals h.core (mgetD c.arrivals h.core 0 + 1)
        relClocks := mset c.relClocks (mgetD c.arrivals h.core 0)
          (clockJoin (mgetD c.relClocks (mgetD c.arrivals h.core 0) []) (clockJoin w.clock w.wrote)) }
    refine ⟨(congrArg (fun m => mgetD m h.core 0) ha).trans (mgetD_mset_self _ _ _ _), hr⟩

/-! ### Retirement (R69, R252, R337) -/

theorem countSave_places (s : State) (grid status n : Nat) : placesOf (countSave s grid status n) = placesOf s := by
  unfold countSave
  dsimp only
  split
  · rfl
  · exact (settleSave_places _ _ _).trans rfl

/-- The end of a block's request leaves memory and waves, and makes no block. -/
theorem endPreempt_places (s : State) (k status : Nat) : (endPreempt s k status).mem = s.mem ∧
    (endPreempt s k status).waves = s.waves ∧
    ∀ j, mget s.blocks j = none → mget (endPreempt s k status).blocks j = none := by
  unfold endPreempt
  dsimp only
  split
  · exact ⟨rfl, rfl, fun _ h => h⟩
  · next r _ =>
    have hp : placesOf (r.cmds.foldl (fun t n => countSave t (blockOf s k).grid status n)
        (modBlock s k (fun b => { b with preempt := none }))) = placesOf (modBlock s k (fun b => { b with preempt := none })) :=
      foldl_kept placesOf _ (fun t n => countSave_places _ _ _ _) _ _
    refine ⟨(congrArg Prod.fst hp).trans rfl, (waves_of_places hp).trans rfl, fun j hj => ?_⟩
    rw [blocks_of_places hp]
    show mget (mmod s.blocks k _) j = none
    rw [mget_mmod]
    split
    · next h => rw [← h, hj]; rfl
    · exact hj

theorem foldl_dropWave (l : List Nat) (s : State) : (l.foldl dropWave s).mem = s.mem ∧
    (l.foldl dropWave s).blocks = s.blocks ∧
    ∀ u, mget (l.foldl dropWave s).waves u = if u ∈ l then none else mget s.waves u := by
  induction l generalizing s with
  | nil => exact ⟨rfl, rfl, fun u => (if_neg (by simp)).symm⟩
  | cons x r ih =>
    obtain ⟨hm, hb, hw⟩ := ih (dropWave s x)
    refine ⟨hm.trans rfl, hb.trans rfl, fun u => ?_⟩
    rw [List.foldl_cons, hw u, (dropWave_places s x).2.2, mget_mdel]
    by_cases hu : u = x <;> by_cases hr : u ∈ r <;> simp [hu, hr]

/-- The waves of a block. -/
def wavesIn (s : State) (k : Nat) : List Nat := (s.waves.filter (fun x => decide (x.2.block = some k))).map (·.1)

/-- A block freed: it and its waves are gone, memory stands. -/
theorem freeBlock_gone (s : State) (k : Nat) : (freeBlock s k).mem = s.mem ∧
    (freeBlock s k).blocks = mdel s.blocks k ∧
    ∀ u, mget (freeBlock s k).waves u = if u ∈ wavesIn s k then none else mget s.waves u := by
  obtain ⟨hm, hb, hw⟩ := foldl_dropWave (wavesIn s k) s
  refine ⟨hm, ?_, hw⟩
  show mdel ((wavesIn s k).foldl dropWave s).blocks k = _
  rw [hb]

/-- One block of a retirement. -/
def retireOne (t : State) (j : Nat) : State := freeBlock (endPreempt t j 2) j

theorem retireOne_gone (t : State) (j : Nat) : (retireOne t j).mem = t.mem ∧
    (∀ i, i = j ∨ mget t.blocks i = none → mget (retireOne t j).blocks i = none) ∧
    (∀ u, mget t.waves u = none → mget (retireOne t j).waves u = none) ∧
    ∀ u x, mget t.waves u = some x → mget (retireOne t j).waves u = none ∨
      (mget (retireOne t j).waves u = some x ∧ x.block ≠ some j) := by
  obtain ⟨hm, hw, hb⟩ := endPreempt_places t j 2
  obtain ⟨fm, fb, fw⟩ := freeBlock_gone (endPreempt t j 2) j
  unfold retireOne
  refine ⟨fm.trans hm, fun i hi => ?_, fun u hu => ?_, fun u x hx => ?_⟩
  · rw [fb, mget_mdel]
    split
    · rfl
    · next hne => exact hb i (hi.resolve_left hne)
  · rw [fw, hw, hu]
    split <;> rfl
  · rw [fw, hw, hx]
    split
    · exact .inl rfl
    · next hmem =>
      refine .inr ⟨rfl, fun hblock => hmem ?_⟩
      refine List.mem_map.2 ⟨(u, x), List.mem_filter.2 ⟨?_, decide_eq_true hblock⟩, rfl⟩
      rw [hw]
      exact mget_mem hx

theorem foldl_retireOne (l : List Nat) (s : State) : (l.foldl retireOne s).mem = s.mem ∧
    (∀ i, i ∈ l ∨ mget s.blocks i = none → mget (l.foldl retireOne s).blocks i = none) ∧
    (∀ u, mget s.waves u = none → mget (l.foldl retireOne s).waves u = none) ∧
    ∀ u x, mget s.waves u = some x → (∃ j ∈ l, x.block = some j) → mget (l.foldl retireOne s).waves u = none := by
  induction l generalizing s with
  | nil => exact ⟨rfl, fun i hi => hi.resolve_left (by simp), fun _ h => h, fun u x _ ⟨j, hj, _⟩ => absurd hj (by simp)⟩
  | cons k r ih =>
    obtain ⟨hm, hb, hw, hx⟩ := ih (retireOne s k)
    obtain ⟨gm, gb, gw, gx⟩ := retireOne_gone s k
    refine ⟨hm.trans gm, fun i hi => hb i ?_, fun u hu => hw u (gw u hu), fun u x hu hj => ?_⟩
    · rcases hi with hi | hi
      · exact (List.mem_cons.1 hi).elim (fun e => .inr (gb i (.inl e))) .inl
      · exact .inr (gb i (.inr hi))
    · rcases gx u x hu with h | ⟨h, hne⟩
      · exact hw u h
      · obtain ⟨j, hj, hblock⟩ := hj
        refine hx u x h ⟨j, (List.mem_cons.1 hj).resolve_left (fun e => hne (e ▸ hblock)), hblock⟩

/-- A block with nothing outstanding retires with its partner. -/
theorem retire_made {s : State} {k : Nat} {b : Block} (hb : mget s.blocks k = some b)
    (h : ∀ j ∈ withPartner s k, blockOver s j = true ∧ mapBusy s j = false) :
    Made (.blockRetire k) s (fun t => (∀ a, memGet t.mem a = memGet s.mem a) ∧
      (∀ j ∈ withPartner s k, mget t.blocks j = none) ∧
      ∀ u x, mget s.waves u = some x → (∃ j ∈ withPartner s k, x.block = some j) → mget t.waves u = none) := by
  obtain ⟨hm, hblk, -, hw⟩ := foldl_retireOne (withPartner s k) s
  have hp := checkGrid_places ((withPartner s k).foldl retireOne s) b.grid
  refine ⟨checkGrid ((withPartner s k).foldl retireOne s) b.grid, ?_, fun a => ?_, fun j hj => ?_, fun u x hu hj => ?_⟩
  · show execBlockRetire k s = _
    unfold execBlockRetire
    rw [hb]
    refine if_pos (List.all_eq_true.2 (fun j hj => ?_))
    obtain ⟨h1, h2⟩ := h j hj
    rw [h1, h2]
    rfl
  · exact congrArg (fun l => memGet l a) ((congrArg Prod.fst hp).trans hm)
  · rw [blocks_of_places hp]
    exact hblk j (.inl hj)
  · rw [waves_of_places hp]
    exact hw u x hu hj

/-! ### Wakes (R77) -/

/-- A change of a wave that leaves its splits, and a clock brought into the view of its die. -/
theorem splits_synced {s : State} {u d : Nat} {w : Wave} {f : Wave → Wave} {clock : List Nat} (hw : mget s.waves u = some w)
    (hf : (f w).splits = w.splits) :
    (syncTo (modWave s u f) d clock).blocks = s.blocks ∧
      ∃ x, mget (syncTo (modWave s u f) d clock).waves u = some x ∧ x.splits = w.splits := by
  have hb := syncTo_beside (modWave s u f) d clock
  refine ⟨(besideMemory_blocks hb).trans rfl, f w, ?_, hf⟩
  rw [besideMemory_waves hb, mget_modWave_self, hw]
  rfl

theorem putResult_splits (w : Wave) (d : Option Nat) (x : Word) : (putResult w d x).splits = w.splits := by
  unfold putResult
  split <;> rfl

theorem putPair_splits (w : Wave) (d : Option Nat) (x : DWord) : (putPair w d x).splits = w.splits := by
  unfold putPair
  split <;> rfl

/-- What a wake writes and acquires leaves the blocks and the wave's splits. -/
theorem wakeEffect_splits {s : State} {u : Nat} {w : Wave} (hw : mget s.waves u = some w) (c : Cond) :
    (wakeEffect s u c).blocks = s.blocks ∧ ∃ x, mget (wakeEffect s u c).waves u = some x ∧ x.splits = w.splits := by
  have hstand : s.blocks = s.blocks ∧ ∃ x, mget s.waves u = some x ∧ x.splits = w.splits := ⟨rfl, w, hw, rfl⟩
  have hput (dst : Option Nat) (x : Word) :
      mget (modWave s u (fun w => putResult w dst x)).waves u = some (putResult w dst x) := by
    rw [mget_modWave_self, hw]
    rfl
  have hpair (dst : Option Nat) (x : DWord) :
      mget (modWave s u (fun w => putPair w dst x)).waves u = some (putPair w dst x) := by
    rw [mget_modWave_self, hw]
    rfl
  unfold wakeEffect
  dsimp only
  split
  · obtain ⟨hb, x, hx, hs⟩ := splits_synced (f := fun w => { w with clock := clockJoin w.clock _ }) (hput _ _) rfl
    exact ⟨hb.trans rfl, x, hx, hs.trans (putResult_splits _ _ _)⟩
  · exact hstand
  · obtain ⟨hb, x, hx, hs⟩ := splits_synced (f := fun w => { w with clock := clockJoin w.clock _ }) (hput _ _) rfl
    exact ⟨hb.trans rfl, x, hx, hs.trans (putResult_splits _ _ _)⟩
  · split
    · obtain ⟨hb, x, hx, hs⟩ := splits_synced (f := acquired _ _) (hpair _ _) rfl
      exact ⟨hb.trans rfl, x, hx, hs.trans (putPair_splits _ _ _)⟩
    · exact hstand
  · exact hstand
  · exact hstand
  · unfold yieldDone
    split
    · exact hstand
    · exact splits_synced hw rfl

theorem wakeSplit_entry (x : Split) (p : Park) : (wakeSplit x p).entry = x.entry := by
  unfold wakeSplit
  split
  · rfl
  · dsimp only
    split <;> exact stepOver_entry x p.len

/-- A parked split that may wake stands past its yield point or at its continuation. -/
theorem wake_made {s : State} {u e : Nat} {p : Park} {sp : Split} {x : Wave} (hx : mget s.waves u = some x)
    (hs : splitOf x e = some sp) (hp : wakeable s x e = some p) :
    Made (.parkedSplitWake u e) s (fun t => t.blocks = s.blocks ∧ splitOf (waveOf t u) e = some (wakeSplit sp p)) := by
  obtain ⟨hb, y, hy, hsplits⟩ := wakeEffect_splits hx p.cond
  refine ⟨withSplit (wakeEffect s u p.cond) u e (fun x => wakeSplit x p), ?_, hb, ?_⟩
  · show execParkedSplitWake u e s = _
    unfold execParkedSplitWake
    rw [hx]
    dsimp only
    rw [hp]
  · unfold withSplit
    rw [waveOf_modWave _ hy]
    show (y.splits.map _).find? _ = _
    rw [hsplits]
    exact splitOf_map x.splits e sp (fun x => wakeSplit x p) (wakeSplit_entry sp p) hs

/-- Settles O46, move by move. -/
theorem membershipMoves : Obligations.MembershipMoves := by
  unfold Obligations.MembershipMoves
  intro s n h w
  refine ⟨fun hd hw => ⟨fun want loose pc dst ss as clock k b he hk hb hid => grow_made hd hw he hk hb hid,
    fun index dst he => attach_made hd hw he, fun hj => leaves_made hd hw hj,
    fun m dst k b he hm hk hb hj => arrive_made hd hw he hm hk hb hj,
    fun idx c p he hp hc => cohortArrival_made hd hw he hp hc⟩,
    fun k x b hb h1 h2 h3 h4 h5 => shrinkPost_made hb ⟨h1, h2, h3, h4, h5⟩, fun k b hb hx hp => shrinkClear_made hb hx hp,
    fun k b hb hall => retire_made hb hall, fun u e p sp x hx hs hp => wake_made hx hs hp⟩

end Sys2Proof.Machine.ExecutionContexts
end

section
/-! SUPPORT. Bytes written granule by granule, and what a write of matrix state changes (R217, R247, R255, R260). -/

namespace Sys2Proof.Machine.ExecutionContexts

/-! ### The last byte written to an address -/

/-- The byte at address `a` once the bytes of `l` were written over `d` there. -/
def lastAt (l : List (Nat × Byte)) (a : Nat) (d : Byte) : Byte := l.foldl (fun d x => if x.1 = a then x.2 else d) d

theorem memGet_memWrite (l : List (Nat × Byte)) (m : List Host.Cell) (a : Nat) :
    memGet (memWrite m l) a = lastAt l a (memGet m a) := by
  induction l generalizing m with
  | nil => rfl
  | cons x r ih =>
    show memGet (memWrite (memSet m x.1 x.2) r) a = _
    rw [ih, memGet_memSet]
    unfold lastAt
    rw [List.foldl_cons]
    by_cases h : x.1 = a
    · rw [if_pos h, if_pos h.symm]
    · rw [if_neg h, if_neg (Ne.symm h)]

theorem lastAt_untouched {l : List (Nat × Byte)} {a : Nat} (h : ∀ x ∈ l, x.1 ≠ a) (d : Byte) : lastAt l a d = d := by
  induction l generalizing d with
  | nil => rfl
  | cons x r ih =>
    unfold lastAt
    rw [List.foldl_cons, if_neg (h x List.mem_cons_self)]
    exact ih (fun y hy => h y (List.mem_cons_of_mem _ hy)) d

/-- Only the bytes of its granule decide what an address holds. -/
theorem lastAt_granule (l : List (Nat × Byte)) (a : Nat) (d : Byte) :
    lastAt (l.filter (fun x => decide (x.1 / 32 = a / 32))) a d = lastAt l a d := by
  induction l generalizing d with
  | nil => rfl
  | cons x r ih =>
    by_cases h : x.1 / 32 = a / 32
    · rw [List.filter_cons, if_pos (decide_eq_true h)]
      exact ih _
    · rw [List.filter_cons, if_neg (by simpa using h), ih]
      unfold lastAt
      rw [List.foldl_cons, if_neg (fun e => h (by rw [e]))]

/-- The bytes of granule `g` in a grouping. -/
theorem byGranule_at (l : List (Nat × Byte)) (g : Nat) :
    mgetD (byGranule l) g [] = l.filter (fun x => decide (x.1 / 32 = g)) := by
  have hfold : ∀ (l : List (Nat × Byte)) (m : Map (List (Nat × Byte))),
      mgetD (l.foldl (fun m x => mset m (x.1 / 32) (mgetD m (x.1 / 32) [] ++ [x])) m) g [] =
        mgetD m g [] ++ l.filter (fun x => decide (x.1 / 32 = g)) := by
    intro l
    induction l with
    | nil => exact fun m => (List.append_nil _).symm
    | cons x r ih =>
      intro m
      rw [List.foldl_cons, ih, mgetD_mset]
      by_cases h : x.1 / 32 = g
      · rw [if_pos h.symm, List.filter_cons, if_pos (decide_eq_true h), h, List.append_assoc]
        rfl
      · rw [if_neg (Ne.symm h), List.filter_cons, if_neg (by simpa using h)]
  exact hfold l []

theorem byGranule_rising (l : List (Nat × Byte)) : risingFrom none (byGranule l) = true := by
  have hfold : ∀ (l : List (Nat × Byte)) (m : Map (List (Nat × Byte))), risingFrom none m = true →
      risingFrom none (l.foldl (fun m x => mset m (x.1 / 32) (mgetD m (x.1 / 32) [] ++ [x])) m) = true := by
    intro l
    induction l with
    | nil => exact fun m h => h
    | cons x r ih => exact fun m h => ih _ (risingFrom_mset m _ _ none h (fun n hn => absurd hn (by simp)))
  exact hfold l [] rfl

/-- The keys after the first of a rising map are above it. -/
theorem rising_above {α : Type} {i : Nat} {m : Map α} (h : risingFrom (some i) m = true) : ∀ x ∈ m, i < x.1 := by
  induction m generalizing i with
  | nil => exact fun x hx => absurd hx (by simp)
  | cons c r ih =>
    obtain ⟨j, y⟩ := c
    simp only [risingFrom, Bool.and_eq_true, decide_eq_true_eq] at h
    intro x hx
    rcases List.mem_cons.1 hx with rfl | hx
    · exact h.1
    · exact Nat.lt_trans h.1 (ih h.2 x hx)

theorem mgetD_cons {α : Type} (i k : Nat) (y : α) (r : Map α) (d : α) :
    mgetD ((i, y) :: r) k d = if i = k then y else mgetD r k d := by
  unfold mgetD
  rw [mget]
  split <;> rfl

/-- The element of a rising map is the one found at its key. -/
theorem mgetD_of_rising {α : Type} {m : Map α} (h : risingFrom none m = true) (d : α) : ∀ x ∈ m, mgetD m x.1 d = x.2 := by
  induction m with
  | nil => exact fun x hx => absurd hx (by simp)
  | cons c r ih =>
    obtain ⟨i, y⟩ := c
    have hr : risingFrom (some i) r = true := h
    intro x hx
    rcases List.mem_cons.1 hx with rfl | hx
    · rw [mgetD_cons, if_pos rfl]
    · rw [mgetD_cons, if_neg (Nat.ne_of_lt (rising_above hr x hx))]
      exact ih (risingFrom_weaken r (fun n hn => absurd hn (by simp)) hr) x hx

/-- Groups with other keys leave an address; the group of its granule decides it. -/
theorem foldl_groups {m : Map (List (Nat × Byte))} (h : risingFrom none m = true)
    (hkey : ∀ g ∈ m, ∀ x ∈ g.2, x.1 / 32 = g.1) (a : Nat) (d : Byte) :
    m.foldl (fun d g => lastAt g.2 a d) d = lastAt (mgetD m (a / 32) []) a d := by
  induction m generalizing d with
  | nil => rfl
  | cons c r ih =>
    obtain ⟨i, ys⟩ := c
    have hr : risingFrom (some i) r = true := h
    rw [List.foldl_cons, ih (risingFrom_weaken r (fun n hn => absurd hn (by simp)) hr)
      (fun g hg => hkey g (List.mem_cons_of_mem _ hg))]
    rw [mgetD_cons]
    by_cases hi : i = a / 32
    · have hnone : mgetD r (a / 32) [] = [] := by
        unfold mgetD
        cases hx : mget r (a / 32) with
        | none => rfl
        | some z => exact absurd hi (Nat.ne_of_lt (rising_above hr _ (mget_mem hx)))
      rw [if_pos hi, hnone]
      rfl
    · rw [if_neg hi, lastAt_untouched (l := ys)]
      intro x hx e
      exact hi ((hkey (i, ys) List.mem_cons_self x hx).symm.trans (by rw [e]))

/-- Bytes written granule by granule are written as they stand in their list. -/
theorem byGranule_lastAt (l : List (Nat × Byte)) (a : Nat) (d : Byte) :
    (byGranule l).foldl (fun d g => lastAt g.2 a d) d = lastAt l a d := by
  have hkey : ∀ g ∈ byGranule l, ∀ x ∈ g.2, x.1 / 32 = g.1 := by
    intro g hg x hx
    rw [← mgetD_of_rising (byGranule_rising l) [] g hg, byGranule_at] at hx
    exact of_decide_eq_true (List.mem_filter.1 hx).2
  rw [foldl_groups (byGranule_rising l) hkey, byGranule_at, lastAt_granule]

/-! ### Writes of matrix state -/

theorem mayJournal_noTags (l : List (Nat × Nat × Nat × Tag)) : mayJournal [] l = true := by
  induction l with
  | nil => rfl
  | cons x r ih =>
    have hj : journal ([] : Map ProvTag) x.2.2.2 x.1 x.2.1 x.2.2.1 = [] := by
      unfold journal
      split <;> rfl
    unfold mayJournal
    rw [hj, ih, Bool.and_true]
    split <;> rfl

/-- A write of tile bytes: the bytes land as they stand in their list, the accumulators and the scratchpad stand. -/
theorem applyMatrix_tile (see : Tag → Tag) (b : Block) (bytes : List (Nat × Byte)) (tags : List (Nat × Tag)) :
    (applyMatrix see b (.tile bytes tags)).acc = b.acc ∧ (applyMatrix see b (.tile bytes tags)).spad = b.spad ∧
      ∀ a, memGet (applyMatrix see b (.tile bytes tags)).tile a = memGet (memWrite b.tile bytes) a := by
  have hfold : ∀ (gs : List (Nat × List (Nat × Byte))) (f : Block → Nat × List (Nat × Byte) → Map Tag) (b : Block),
      let r := gs.foldl (fun b g => { b with tile := memWrite b.tile g.2, tileTags := f b g }) b
      r.acc = b.acc ∧ r.spad = b.spad ∧
        ∀ a, memGet r.tile a = gs.foldl (fun d g => lastAt g.2 a d) (memGet b.tile a) := by
    intro gs f
    induction gs with
    | nil => exact fun b => ⟨rfl, rfl, fun _ => rfl⟩
    | cons g r ih =>
      intro b
      obtain ⟨h1, h2, h3⟩ := ih { b with tile := memWrite b.tile g.2, tileTags := f b g }
      refine ⟨h1, h2, fun a => ?_⟩
      rw [List.foldl_cons, List.foldl_cons, ← memGet_memWrite]
      exact h3 a
  obtain ⟨h1, h2, h3⟩ := hfold (byGranule bytes) _ b
  exact ⟨h1, h2, fun a => (h3 a).trans ((byGranule_lastAt bytes a _).trans (memGet_memWrite bytes b.tile a).symm)⟩

/-- A write of matrix state leaves the scratchpad. -/
theorem applyMatrix_spad (see : Tag → Tag) (b : Block) (x : MatrixWrite) : (applyMatrix see b x).spad = b.spad := by
  cases x with
  | tile bytes tags => exact (applyMatrix_tile see b bytes tags).2.1
  | tconf j v => rfl
  | twind j v => rfl
  | accClear j => rfl
  | acc elems part => rfl
  | histAdd bins tag => rfl
  | histClear => rfl

/-- The elements of an accumulator cleared are found no more; the others stand. -/
theorem mgetD_filter_keys {α : Type} (m : Map α) (p : Nat → Bool) (k : Nat) (d : α) :
    mgetD (m.filter (fun x => p x.1)) k d = if p k then mgetD m k d else d := by
  induction m with
  | nil =>
    show d = _
    split <;> rfl
  | cons c r ih =>
    obtain ⟨i, y⟩ := c
    rw [List.filter_cons, mgetD_cons]
    by_cases hi : i = k
    · subst hi
      by_cases hp : p i = true
      · rw [if_pos hp, mgetD_cons, if_pos rfl, if_pos hp, if_pos rfl]
      · rw [if_neg hp, ih, if_neg hp, if_neg hp]
    · rw [if_neg hi]
      split
      · rw [mgetD_cons, if_neg hi, ih]
      · exact ih

/-- Bins counted one after the other, up to the greatest count. -/
theorem histAdd_counts (bins : List Nat) (m : Map Nat) (k : Nat) :
    (mgetD m k 0 < 2 ^ 32 → mgetD (bins.foldl (fun m n => mset m n (satUp (mgetD m n 0) 1)) m) k 0 =
      Nat.min (2 ^ 32 - 1) (mgetD m k 0 + bins.count k)) ∧
    (k ∉ bins → mgetD (bins.foldl (fun m n => mset m n (satUp (mgetD m n 0) 1)) m) k 0 = mgetD m k 0) := by
  induction bins generalizing m with
  | nil =>
    refine ⟨fun h => ?_, fun _ => rfl⟩
    show mgetD m k 0 = _
    rw [List.count_nil, Nat.add_zero]
    exact (Nat.min_eq_right (by omega)).symm
  | cons n r ih =>
    rw [List.foldl_cons]
    obtain ⟨h1, h2⟩ := ih (mset m n (satUp (mgetD m n 0) 1))
    rw [mgetD_mset] at h1 h2
    by_cases hn : k = n
    · subst hn
      rw [if_pos rfl] at h1
      refine ⟨fun h => ?_, fun hk => absurd List.mem_cons_self hk⟩
      have hs : satUp (mgetD m k 0) 1 = min (2 ^ 32 - 1) (mgetD m k 0 + 1) := rfl
      rw [h1 (by rw [hs]; omega), List.count_cons_self, hs]
      show min _ _ = min _ _
      omega
    · rw [if_neg hn] at h1 h2
      rw [List.count_cons_of_ne (Ne.symm hn)]
      exact ⟨h1, fun hk => h2 (fun h => hk (List.mem_cons_of_mem _ h))⟩

theorem mgetD_accSet (m : Map AccElem) (n k : Nat) (x : AccElem) :
    mgetD (accSet m n x) k {} = if k = n then x else mgetD m k {} := by
  unfold accSet
  split
  · next h =>
    rw [mgetD_mdel]
    split
    · exact h.symm
    · rfl
  · exact mgetD_mset _ _ _ _ _

/-- Elements written into an accumulator: the others stand; each that is named once takes its part. -/
theorem accWrite_elements (see : Tag → Tag) (part : Nat) (l : List (Nat × AccElem)) (m : Map AccElem) :
    let r := l.foldl (fun m x => accSet m x.1 (accPart see (mgetD m x.1 {}) x.2 part)) m
    (∀ k, (∀ e ∈ l, e.1 ≠ k) → mgetD r k {} = mgetD m k {}) ∧
      ((l.map (·.1)).Nodup → ∀ e ∈ l, mgetD r e.1 {} = accPart see (mgetD m e.1 {}) e.2 part) := by
  induction l generalizing m with
  | nil => exact ⟨fun _ _ => rfl, fun _ e he => absurd he (by simp)⟩
  | cons x r ih =>
    obtain ⟨h1, h2⟩ := ih (accSet m x.1 (accPart see (mgetD m x.1 {}) x.2 part))
    refine ⟨fun k hk => ?_, fun hnd e he => ?_⟩
    · refine (h1 k (fun e he => hk e (List.mem_cons_of_mem _ he))).trans ?_
      rw [mgetD_accSet, if_neg (Ne.symm (hk x List.mem_cons_self))]
    · rw [List.map_cons, List.nodup_cons] at hnd
      obtain ⟨hnot, hnd⟩ := hnd
      rcases List.mem_cons.1 he with rfl | he
      · refine (h1 e.1 (fun y hy e' => hnot (List.mem_map.2 ⟨y, hy, e'⟩))).trans ?_
        rw [mgetD_accSet, if_pos rfl]
      · refine (h2 hnd e he).trans ?_
        rw [mgetD_accSet, if_neg (fun e' => hnot (List.mem_map.2 ⟨e, he, e'⟩))]

theorem getLsbD_low32 (k : Nat) : (0xFFFFFFFF : BitVec 96).getLsbD k = decide (k < 32) := by
  have h : (0xFFFFFFFF : BitVec 96) = (BitVec.allOnes 32).setWidth 96 := by decide
  rw [h, BitVec.getLsbD_setWidth, BitVec.getLsbD_allOnes]
  by_cases hk : k < 32
  · simp [hk, show k < 96 by omega]
  · simp [hk]

/-- A raw part of an element: 32 of its bits take the value, the others stand (R255). -/
theorem accPart_raw (see : Tag → Tag) (old x : AccElem) {part : Nat} (h1 : 1 ≤ part) (h2 : part ≤ 3) :
    (accPart see old x part).lost = old.lost ∧ ∀ j, j < 3 → (accPart see old x part).bits.extractLsb' (32 * j) 32 =
      if j + 1 = part then x.bits.extractLsb' 0 32 else old.bits.extractLsb' (32 * j) 32 := by
  have hpart : accPart see old x part = { old with
      bits := (old.bits &&& ~~~((0xFFFFFFFF : BitVec 96) <<< (32 * (part - 1)))) |||
        ((x.bits &&& 0xFFFFFFFF) <<< (32 * (part - 1)))
      tag := mergeTag (see old.tag) x.tag } := by
    unfold accPart
    rw [if_neg (by omega), if_neg (by omega)]
  rw [hpart]
  refine ⟨rfl, fun j hj => ?_⟩
  dsimp only
  apply BitVec.eq_of_getLsbD_eq
  intro i hi
  simp only [BitVec.getLsbD_extractLsb', BitVec.getLsbD_or, BitVec.getLsbD_and, BitVec.getLsbD_not,
    BitVec.getLsbD_shiftLeft, getLsbD_low32, hi, decide_true, Bool.true_and]
  by_cases hp : j + 1 = part
  · have h1 : ¬ 32 * j + i < 32 * (part - 1) := by omega
    have h2 : 32 * j + i - 32 * (part - 1) = i := by omega
    have h3 : 32 * j + i < 96 := by omega
    simp [hp, h1, h2, h3, hi]
  · by_cases hlt : 32 * j + i < 32 * (part - 1)
    · have h3 : 32 * j + i < 96 := by omega
      simp [hp, hlt, h3, hi]
    · have h2 : ¬ 32 * j + i - 32 * (part - 1) < 32 := by omega
      have h3 : 32 * j + i < 96 := by omega
      simp [hp, hlt, h2, h3, hi]

end Sys2Proof.Machine.ExecutionContexts
end

section
/-! PROOF. Held changes of matrix state, keys, watchpoints, grants, launches, decks and engine requests performed, and
rounds formed (R161, R172, R180, R208, R213, R247, R259 to R263, R276, R280, R283, R285, R348). -/

namespace Sys2Proof.Machine.ExecutionContexts

/-! ### Matrix state (R247, R255, R260) -/

/-- A write of matrix state with its tags as they are seen when it is performed. -/
def freshWrite (see : Tag → Tag) : MatrixWrite → MatrixWrite
  | .tile bytes tags => .tile bytes (tags.map (fun t => (t.1, see t.2)))
  | .acc elems p => .acc (elems.map (fun x => (x.1, { x.2 with tag := see x.2.tag }))) p
  | .histAdd bins t => .histAdd bins (see t)
  | y => y

/-- The granules and elements a write of matrix state gives states. -/
def writeRuns (see : Tag → Tag) (b : Block) (k : Nat) (x : MatrixWrite) : List (Nat × Nat × Nat × Tag) :=
  ((matrixTouched see b x).filter (fun x => decide (x.1 ≠ 4))).map (fun x => (x.1, k, x.2.1, x.2.2.2))

/-- The provisional tags after a write of matrix state absorbed and journaled them (R300, R301). -/
def writtenTags (see : Tag → Tag) (b : Block) (k : Nat) (x : MatrixWrite) (tags : Map ProvTag) : Map ProvTag :=
  (matrixTouched see b x).foldl (fun t x =>
    let t1 := absorb t (absorptions x.2.2.1)
    if x.1 = 4 then t1 else journal t1 x.2.2.2 x.1 k x.2.1) tags

/-- The tags as the partition of a block sees them. -/
def blockSees (s : State) (k : Nat) : Tag → Tag := seeTag s.tags (gridOf s (blockOf s k).grid).part

theorem exec_matrixWrite (n : Nat) (s : State) :
    exec (.matrixWritePerform n) s = perform s n "MATRIX_WRITE_PERFORM" (fun s1 h =>
      match h.eff with
      | .matrix w =>
        let k := h.block.getD 0
        let see := blockSees s1 k
        let fresh := freshWrite see w
        if mayJournal s1.tags (writeRuns see (blockOf s1 k) k fresh) = true then
          some { modBlock s1 k (fun b => applyMatrix see b fresh) with
            tags := writtenTags see (blockOf s1 k) k fresh s1.tags }
        else none
      | _ => none) := rfl

/-- The matrix write is made: no byte changes, and of the block `P` holds. -/
def MatrixWritten (n : Nat) (s : State) (k : Nat) (P : Block → Prop) : Prop :=
  Made (.matrixWritePerform n) s (fun t => BytesSame s t ∧ P (blockOf t k))

/-- A write of matrix state performed: its block is as the write makes it. -/
theorem matrix_made {s : State} {n k : Nat} {h : Held} {b : Block} {x : MatrixWrite} {P : Block → Prop} (hd : Due s n h)
    (hk : h.block = some k) (hb : mget s.blocks k = some b) (he : h.eff = .matrix x)
    (hj : mayJournal s.tags (writeRuns (blockSees s k) b k (freshWrite (blockSees s k) x)) = true)
    (hP : P (applyMatrix (blockSees s k) b (freshWrite (blockSees s k) x))) :
    MatrixWritten n s k P := by
  have hbk : blockOf (dropHeld s n) k = b := by
    show (mget s.blocks k).getD {} = b
    rw [hb]
    rfl
  have hmod : blockOf (modBlock (dropHeld s n) k (fun b => applyMatrix (blockSees s k) b (freshWrite (blockSees s k) x))) k =
      applyMatrix (blockSees s k) b (freshWrite (blockSees s k) x) := blockOf_modBlock (s := dropHeld s n) _ hb
  refine made_perform (t := { modBlock (dropHeld s n) k (fun b =>
      applyMatrix (blockSees s k) b (freshWrite (blockSees s k) x)) with
      tags := writtenTags (blockSees s k) b k (freshWrite (blockSees s k) x) s.tags })
    (exec_matrixWrite n s) hd (by rw [he]; rfl) ?_ ⟨?_, ?_⟩
  · rw [he]
    dsimp only
    rw [hk, Option.getD_some, hbk]
    exact if_pos hj
  · exact bytesSame_trans (dropHeld_bytes s n) (bytesSame_trans (bytesSame_modBlock _ k _ (fun b => applyMatrix_spad _ b _))
      (bytesSame_of rfl rfl))
  · exact (congrArg P hmod).mpr hP

/-- The elements written, with their tags as seen, are those named. -/
theorem fresh_elements (see : Tag → Tag) (elems : List (Nat × AccElem)) :
    (elems.map (fun x => (x.1, { x.2 with tag := see x.2.tag }))).map (·.1) = elems.map (·.1) := by
  rw [List.map_map]
  rfl

/-- Every write of matrix state, when it is due. -/
theorem matrix_writes {s : State} {n k : Nat} {h : Held} {b : Block} {x : MatrixWrite} (hd : Due s n h)
    (hk : h.block = some k) (hb : mget s.blocks k = some b) (he : h.eff = .matrix x) :
    (∀ j v, x = .tconf j v → MatrixWritten n s k (fun y => mget y.tconf j = some v ∧ mget y.twind j = none ∧ y.acc = b.acc ∧
      y.tile = b.tile ∧ ∀ m, m ≠ j → mget y.tconf m = mget b.tconf m ∧ mget y.twind m = mget b.twind m)) ∧
    (∀ j v, x = .twind j v → MatrixWritten n s k (fun y => mget y.twind j = some v ∧ y.tconf = b.tconf ∧ y.acc = b.acc ∧
      y.tile = b.tile ∧ ∀ m, m ≠ j → mget y.twind m = mget b.twind m)) ∧
    (∀ j, x = .accClear j → MatrixWritten n s k (fun y => y.tile = b.tile ∧
      ∀ m, mgetD y.acc m {} = if m / 8192 = j then {} else mgetD b.acc m {})) ∧
    (∀ bins tag, x = .histAdd bins tag → MatrixWritten n s k (fun y => y.acc = b.acc ∧ y.tile = b.tile ∧
      ((∀ m z, mget b.hist m = some z → z < 2 ^ 32) →
        ∀ m, mgetD y.hist m 0 = Nat.min (2 ^ 32 - 1) (mgetD b.hist m 0 + bins.count m)) ∧
      ∀ m, m ∉ bins → mgetD y.hist m 0 = mgetD b.hist m 0)) ∧
    (x = .histClear → MatrixWritten n s k (fun y => (∀ m, mgetD y.hist m 0 = 0) ∧ y.acc = b.acc ∧ y.tile = b.tile)) ∧
    (∀ bytes tags, x = .tile bytes tags → s.tags = [] → MatrixWritten n s k (fun y => y.acc = b.acc ∧
      ∀ a, memGet y.tile a = memGet (memWrite b.tile bytes) a)) ∧
    (∀ elems part, x = .acc elems part → s.tags = [] → MatrixWritten n s k (fun y => y.tile = b.tile ∧
      (∀ m, (∀ e ∈ elems, e.1 ≠ m) → mgetD y.acc m {} = mgetD b.acc m {}) ∧
      ((elems.map (·.1)).Nodup → ∀ e ∈ elems, let old := mgetD b.acc e.1 {}
        let new := mgetD y.acc e.1 {}
        (part = 0 → new.bits = e.2.bits ∧ new.lost = e.2.lost) ∧
        (1 ≤ part → part ≤ 3 → new.lost = old.lost ∧ ∀ j, j < 3 → new.bits.extractLsb' (32 * j) 32 =
          if j + 1 = part then e.2.bits.extractLsb' 0 32 else old.bits.extractLsb' (32 * j) 32) ∧
        (part = 4 → new.bits = old.bits ∧ new.lost = e.2.bits.getLsbD 0)))) := by
  have made (P : Block → Prop) (hj : mayJournal s.tags (writeRuns (blockSees s k) b k (freshWrite (blockSees s k) x)) = true)
      (hP : P (applyMatrix (blockSees s k) b (freshWrite (blockSees s k) x))) : MatrixWritten n s k P :=
    matrix_made hd hk hb he hj hP
  refine ⟨?_, ?_, ?_, ?_, ?_, ?_, ?_⟩
  · rintro j v rfl
    refine made _ rfl ?_
    refine ⟨mget_mset_self _ _ _, (mget_mdel _ _ _).trans (if_pos rfl), rfl, rfl, fun m hm => ⟨?_, ?_⟩⟩
    · exact mget_mset_ne _ _ hm
    · exact (mget_mdel _ _ _).trans (if_neg hm)
  · rintro j v rfl
    refine made _ rfl ?_
    exact ⟨mget_mset_self _ _ _, rfl, rfl, rfl, fun m hm => mget_mset_ne _ _ hm⟩
  · rintro j rfl
    refine made _ rfl ?_
    refine ⟨rfl, fun m => ?_⟩
    refine (mgetD_filter_keys b.acc (fun i => !decide (i / 8192 = j)) m {}).trans ?_
    by_cases hm : m / 8192 = j <;> simp [hm]
  · rintro bins tag rfl
    refine made _ rfl ?_
    refine ⟨rfl, rfl, fun hall m => (histAdd_counts bins b.hist m).1 ?_,
      fun m hm => (histAdd_counts bins b.hist m).2 hm⟩
    unfold mgetD
    cases hz : mget b.hist m with
    | none => exact Nat.two_pow_pos 32
    | some z => exact hall m z hz
  · rintro rfl
    refine made _ rfl ?_
    exact ⟨fun _ => rfl, rfl, rfl⟩
  · rintro bytes tags rfl ht
    obtain ⟨hacc, -, htile⟩ := applyMatrix_tile (blockSees s k) b bytes (tags.map (fun t => (t.1, blockSees s k t.2)))
    refine made _ (by rw [ht]; exact mayJournal_noTags _) ?_
    exact ⟨hacc, htile⟩
  · rintro elems part rfl ht
    obtain ⟨hother, hnamed⟩ := accWrite_elements (blockSees s k) part
      (elems.map (fun x => (x.1, { x.2 with tag := blockSees s k x.2.tag }))) b.acc
    refine made _ (by rw [ht]; exact mayJournal_noTags _) ?_
    refine ⟨rfl, fun m hm => hother m (fun e he => ?_),
      fun hnd e he => ?_⟩
    · obtain ⟨e', he', rfl⟩ := List.mem_map.1 he
      exact hm e' he'
    · have hnew := hnamed (by rw [fresh_elements]; exact hnd) (e.1, { e.2 with tag := blockSees s k e.2.tag })
        (List.mem_map.2 ⟨e, he, rfl⟩)
      intro old new
      have hn : new = accPart (blockSees s k) old { e.2 with tag := blockSees s k e.2.tag } part := hnew
      rw [hn]
      refine ⟨fun hp => ?_, fun h1 h2 => accPart_raw _ _ _ h1 h2, fun hp => ?_⟩
      · subst hp
        exact ⟨rfl, rfl⟩
      · subst hp
        exact ⟨rfl, rfl⟩

/-! ### Keys, watchpoints and grants (R208, R213, R348) -/

theorem exec_pkrContextUpdate (n : Nat) (s : State) : exec (.pkrContextUpdate n) s = perform s n "PKR_CONTEXT_UPDATE"
    (fun s1 h => match h.eff with
      | .pkrContext x => some (modCtx s1 (waveOf s1 h.wave).ctx (fun c => { c with pkr := x }))
      | _ => none) := rfl

/-- A wave that looks up keeps its keys. -/
theorem pkr_awake (t : State) (u n : Nat) : (waveOf (modWave t u (fun w => awake w n)) u).pkr = (waveOf t u).pkr := by
  unfold waveOf mgetD
  rw [mget_modWave_self]
  cases mget t.waves u with
  | none => rfl
  | some w =>
    show (awake w n).pkr = w.pkr
    rw [awake_eq]

/-- The keys of a context set. -/
theorem pkrContext_made {s : State} {n : Nat} {h : Held} {x : DWord} {c : Context} (hd : Due s n h)
    (he : h.eff = .pkrContext x) (hc : mget s.ctxs (waveOf s h.wave).ctx = some c) :
    Made (.pkrContextUpdate n) s (fun t => BytesSame s t ∧ mget t.ctxs (waveOf s h.wave).ctx = some { c with pkr := x } ∧
      (waveOf t h.wave).pkr = (waveOf s h.wave).pkr) := by
  refine made_perform (t := modCtx (dropHeld s n) (waveOf s h.wave).ctx (fun c => { c with pkr := x }))
    (exec_pkrContextUpdate n s) hd (by rw [he]; rfl) (by rw [he]; rfl) ⟨bytesSame_of rfl rfl, ?_, pkr_awake _ _ _⟩
  show mget (mmod s.ctxs (waveOf s h.wave).ctx _) (waveOf s h.wave).ctx = _
  rw [mget_mmod, if_pos rfl, hc]
  rfl

/-- Registers set one after the other: the last setting of one stands. -/
theorem mget_foldl_mset {α : Type} (l : List (Nat × α)) (m : Map α) (j : Nat) :
    mget (l.foldl (fun m x => mset m x.1 x.2) m) j =
      ((l.reverse.find? (fun x => decide (x.1 = j))).map (·.2)).or (mget m j) := by
  induction l generalizing m with
  | nil => rfl
  | cons x r ih =>
    rw [List.foldl_cons, ih, mget_mset, List.reverse_cons, List.find?_append]
    by_cases h : x.1 = j
    · rw [if_pos h.symm]
      cases r.reverse.find? (fun x => decide (x.1 = j)) <;> simp [h]
    · rw [if_neg (Ne.symm h)]
      cases r.reverse.find? (fun x => decide (x.1 = j)) <;> simp [h]

/-- Registers cleared one after the other. -/
theorem mget_foldl_mdel {α : Type} (p : Nat → Bool) (l : List Nat) (m : Map α) (j : Nat) :
    mget (l.foldl (fun m i => if p i then mdel m i else m) m) j = if j ∈ l ∧ p j = true then none else mget m j := by
  induction l generalizing m with
  | nil => simp
  | cons i r ih =>
    rw [List.foldl_cons, ih]
    by_cases hj : j = i
    · subst hj
      by_cases hp : p j = true <;> simp [hp, mget_mdel]
    · have hi : mget (if p i = true then mdel m i else m) j = mget m j := by
        split
        · rw [mget_mdel, if_neg hj]
        · rfl
      rw [hi]
      simp [hj]

/-- A block with watchpoint registers cleared, then set. -/
def watchChanged (set : List (Nat × Watch)) (clear : Byte) (b : Block) : Block :=
  let m := (List.range 4).foldl (fun m i => if clear.getLsbD i then mdel m i else m) b.watch
  { b with watch := set.foldl (fun m x => mset m x.1 x.2) m }

/-- A block's watchpoint registers changed. -/
theorem watch_made {s : State} {n k : Nat} {h : Held} {set : List (Nat × Watch)} {clear : Byte} {b : Block}
    (hheld : heldOf s n = some h) (hdue : h.due ≤ s.now) (he : h.eff = .watch set clear)
    (hk : (waveOf s h.wave).block = some k) (hb : mget s.blocks k = some b) :
    Made (.watchpointUpdate n) s (fun t => BytesSame s t ∧ ∀ j, j < 4 → mget (blockOf t k).watch j =
      ((set.reverse.find? (fun x => decide (x.1 = j))).map (·.2)).or (if clear.getLsbD j then none else mget b.watch j)) := by
  refine ⟨modBlock (dropHeld s n) k (watchChanged set clear), ?_, bytesSame_trans (dropHeld_bytes s n) (bytesSame_modBlock _ k _ (fun _ => rfl)),
    fun j hj => ?_⟩
  · show execWatchpointUpdate n s = _
    unfold execWatchpointUpdate
    rw [hheld]
    dsimp only
    rw [he]
    dsimp only
    rw [if_pos hdue, hk]
    rfl
  · rw [blockOf_modBlock (s := dropHeld s n) _ hb]
    refine (mget_foldl_mset _ _ _).trans (congrArg _ ?_)
    rw [mget_foldl_mdel]
    simp [hj]

/-- A grant that is ending and resolves no entry is gone. -/
theorem grantEnd_made {s : State} {g x : Nat} {y : Grid} {r : Grant} (hy : mget s.grids g = some y)
    (hr : mget y.grants x = some r) (hend : r.ending = true)
    (hfree : ∀ c ∈ s.cores, ∀ q ∈ c.2.queues, ∀ e ∈ q.entries, e.grid = g → x ∉ e.grants) :
    Made (.grantEnd g x) s (fun t => BytesSame s t ∧ mget (gridOf t g).grants x = none ∧
      ∀ j, j ≠ x → mget (gridOf t g).grants j = mget y.grants j) := by
  have hgrid : gridOf s g = y := by
    unfold gridOf mgetD
    rw [hy]
    rfl
  have hnew : gridOf (modGrid s g (fun y => { y with grants := mdel y.grants x })) g = { y with grants := mdel y.grants x } := by
    show (mget (mmod s.grids g _) g).getD {} = _
    rw [mget_mmod, if_pos rfl, hy]
    rfl
  have huse : grantInUse s g x = false := by
    unfold grantInUse
    refine Bool.eq_false_iff.2 (fun hany => ?_)
    obtain ⟨c, hc, hany⟩ := List.any_eq_true.1 hany
    obtain ⟨q, hq, hany⟩ := List.any_eq_true.1 hany
    obtain ⟨e, he, hany⟩ := List.any_eq_true.1 hany
    obtain ⟨hg, hx⟩ := Bool.and_eq_true_iff.1 hany
    exact hfree c hc q hq e he (of_decide_eq_true hg) (List.contains_iff_mem.1 hx)
  refine ⟨modGrid s g (fun y => { y with grants := mdel y.grants x }), ?_, bytesSame_of rfl rfl, ?_, fun j hj => ?_⟩
  · show execGrantEnd g x s = _
    unfold execGrantEnd
    rw [hgrid, hr]
    exact if_pos ⟨hend, by rw [huse]; rfl⟩
  · rw [hnew]
    exact (mget_mdel _ _ _).trans (if_pos rfl)
  · rw [hnew]
    exact (mget_mdel _ _ _).trans (if_neg hj)

end Sys2Proof.Machine.ExecutionContexts
end

section
/-! PROOF. Launches, decks, engine requests and rounds (R161, R172, R180, R261 to R263, R276, R280, R283, R285). -/

namespace Sys2Proof.Machine.ExecutionContexts

/-! ### Launches (R276) -/

/-- What errors found in memory leave: the bytes, the blocks, the waves, the grids, the next number and the handles. -/
def launchView (s : State) : List Host.Cell × Map Block × Map Wave × Map Grid × Nat × (Nat → Nat) :=
  (s.mem, s.blocks, s.waves, s.grids, s.nextId, fun p => (partOf s p).nextHandle)

/-- A partition changed in other fields keeps its next handle. -/
theorem modPart_launchView (s : State) (p : Nat) (f : Partition → Partition) (hf : ∀ x, (f x).nextHandle = x.nextHandle) :
    launchView (modPart s p f) = launchView s := by
  refine congrArg (fun z => (s.mem, s.blocks, s.waves, s.grids, s.nextId, z)) (funext fun q => ?_)
  show (mgetD (mmod s.parts p f) q {}).nextHandle = (mgetD s.parts q {}).nextHandle
  unfold mgetD
  rw [mget_mmod]
  split
  · next h =>
    subst h
    cases mget s.parts q with
    | none => rfl
    | some x => exact hf x
  · rfl

theorem postEvent_launchView (s : State) (p : Nat) (e : Event) : launchView (postEvent s p e) = launchView s :=
  modPart_launchView s p _ (fun _ => rfl)

theorem createPoison_launchView (s : State) (part : Nat) (e : Event) : launchView (createPoison s part e).2 = launchView s :=
  (postEvent_launchView _ _ _).trans (modPart_launchView s part (fun x =>
    { x with nextTag := if (partOf s part).nextTag = 0xDFF then 1 else (partOf s part).nextTag + 1 }) (fun _ => rfl))

theorem findMemory_launchView (part : Nat) (s : State) (g : Nat) : launchView (findMemory part s g) = launchView s := by
  unfold findMemory
  split
  · rfl
  · exact (createPoison_launchView (dropUpset s (.memory g)) part _).trans rfl

theorem findPieces_launchView (s : State) (w : Wave) (l : List Nat) : launchView (findPieces s w l) = launchView s := by
  unfold findPieces readMemory
  split
  · rfl
  · exact foldl_kept launchView _ (fun t g => findMemory_launchView w.part t g) _ _

theorem listWalk_launchView (s : State) (w : Wave) (va : Nat) : launchView (listWalk s w va) = launchView s := by
  unfold listWalk
  dsimp only
  split
  · exact postEvent_launchView _ _ _
  · rfl

/-- A launch queued: what it answers, and the grid it makes. -/
theorem enqueueGrid_spec (s : State) (part ctx q : Nat) (l : List Byte) (list : Option (List Byte)) (clock : List Nat) :
    let r := enqueueGrid s part ctx q l list clock
    BytesSame s r.2.2 ∧ r.2.2.waves = s.waves ∧
      (r.1 = 0 → r.2.1 = (partOf s part).nextHandle ∧ ∃ g, mget r.2.2.grids s.nextId = some g ∧ g.handle = r.2.1 ∧
        g.ctx = ctx ∧ g.part = part ∧ g.queue = q ∧ g.state = 0) ∧
      (r.1 ≠ 0 → r.2.1 = 0 ∧ r.2.2.grids = s.grids) := by
  unfold enqueueGrid
  dsimp only
  split
  · exact ⟨bytesSame_of rfl rfl, rfl, fun h => absurd h (by simp), fun _ => ⟨rfl, rfl⟩⟩
  · split
    · exact ⟨bytesSame_of rfl rfl, rfl, fun h => absurd h (by simp), fun _ => ⟨rfl, rfl⟩⟩
    · exact ⟨bytesSame_of rfl rfl, rfl, fun _ => ⟨rfl, _, mget_mset_self _ _ _, rfl, rfl, rfl, rfl, rfl⟩,
        fun h => absurd rfl h⟩

/-- A launch of the record at `x`: what it answers, and its state. -/
def launched (s0 : State) (w : Wave) (x q : Nat) : Nat × Nat × State :=
  let s1 := findPieces s0 w ((recordPieces x).map (·.2))
  let l := (recordPieces x).flatMap (fun y => pieceBytes s1 w y.2)
  let addr := fieldAt l 48 8
  let list := if addr = 0 then none else readList s1 w addr
  let s2 := if addr = 0 then s1 else listWalk (findPieces s1 w ((listPieces s1 w addr).getD [])) w addr
  enqueueGrid s2 w.part w.ctx q l list (clockJoin w.clock w.wrote)

/-- A launch is queued in a state whose reads found at most errors of memory. -/
theorem launched_queues (s : State) (w : Wave) (x q : Nat) : ∃ s2 l list clock, launchView s2 = launchView s ∧
    launched s w x q = enqueueGrid s2 w.part w.ctx q l list clock := by
  unfold launched
  refine ⟨_, _, _, _, ?_, rfl⟩
  split
  · exact findPieces_launchView s w _
  · exact (listWalk_launchView _ _ _).trans ((findPieces_launchView _ _ _).trans (findPieces_launchView s w _))

theorem bytesSame_of_launchView {s t : State} (h : launchView t = launchView s) : BytesSame s t :=
  bytesSame_of (congrArg Prod.fst h) (congrArg (fun z => z.2.1) h)

/-- A launch performed. -/
theorem launch_made {s : State} {n x q d : Nat} {h : Held} {w : Wave} (hd : Due s n h) (he : h.eff = .launch x q d)
    (hw : mget s.waves h.wave = some w) :
    Made (.launchPerform n) s (fun t => BytesSame s t ∧ ∃ st hd,
      sReg (waveOf t h.wave) d = ⟨BitVec.ofNat 32 st, .clean⟩ ∧ sReg (waveOf t h.wave) (d + 1) = ⟨BitVec.ofNat 32 hd, .clean⟩ ∧
      (st = 0 → hd = (partOf s w.part).nextHandle ∧ ∃ k g, s.nextId ≤ k ∧ mget t.grids k = some g ∧ g.handle = hd ∧
        g.ctx = w.ctx ∧ g.part = w.part ∧ g.queue = q ∧ g.state = 0) ∧
      (st ≠ 0 → hd = 0 ∧ t.grids = s.grids)) := by
  have hwave : waveOf (dropHeld s n) h.wave = w := waveOf_eq hw
  obtain ⟨s2, l, list, clock, hview, hlaunched⟩ := launched_queues (dropHeld s n) w x q
  obtain ⟨hbytes, hwaves, hzero, hother⟩ := enqueueGrid_spec s2 w.part w.ctx q l list clock
  rw [← hlaunched] at hbytes hwaves hzero hother
  have hin : mget (launched (dropHeld s n) w x q).2.2.waves h.wave = some w := by
    rw [hwaves, show s2.waves = (dropHeld s n).waves from congrArg (fun z => z.2.2.1) hview]
    exact hw
  have hx : exec (.launchPerform n) s = execLaunchPerform n s := rfl
  unfold execLaunchPerform at hx
  refine made_perform (t := modWave (launched (dropHeld s n) w x q).2.2 h.wave (fun y =>
    setS (setS y d ⟨BitVec.ofNat 32 (launched (dropHeld s n) w x q).1, .clean⟩) (d + 1)
      ⟨BitVec.ofNat 32 (launched (dropHeld s n) w x q).2.1, .clean⟩)) hx hd (by rw [he]; rfl) ?_ ?_
  · rw [he]
    dsimp only [launched]
    rw [hwave]
  generalize launched (dropHeld s n) w x q = r at hbytes hwaves hzero hother hin ⊢
  have hfinal : waveOf (modWave (modWave r.2.2 h.wave (fun w => setS (setS w d ⟨BitVec.ofNat 32 r.1, .clean⟩) (d + 1)
      ⟨BitVec.ofNat 32 r.2.1, .clean⟩)) h.wave (fun w => awake w n)) h.wave =
      awake (setS (setS w d ⟨BitVec.ofNat 32 r.1, .clean⟩) (d + 1) ⟨BitVec.ofNat 32 r.2.1, .clean⟩) n :=
    waveOf_awake (by rw [mget_modWave_self, hin]; rfl)
  refine ⟨bytesSame_trans (bytesSame_trans (dropHeld_bytes s n) (bytesSame_of_launchView hview))
    (bytesSame_trans hbytes (bytesSame_of rfl rfl)), r.1, r.2.1, ?_, ?_, fun h0 => ?_, fun h0 => ?_⟩
  · rw [hfinal, awake_eq]
    show sReg (setS (setS w d _) (d + 1) _) d = _
    rw [sReg_setS, if_neg (by omega), sReg_setS, if_pos rfl]
  · rw [hfinal, awake_eq]
    show sReg (setS (setS w d _) (d + 1) _) (d + 1) = _
    rw [sReg_setS, if_pos rfl]
  · obtain ⟨hh, g, hg, rest⟩ := hzero h0
    have hid : s2.nextId = s.nextId := congrArg (fun z => z.2.2.2.2.1) hview
    refine ⟨hh.trans (congrFun (congrArg (fun z => z.2.2.2.2.2) hview) w.part), _, g, hid.ge, hg, rest⟩
  · obtain ⟨hh, hg⟩ := hother h0
    exact ⟨hh, hg.trans (congrArg (fun z => z.2.2.2.1) hview)⟩

/-! ### Decks (R283, R285) -/

/-- The decks of a partition after one was changed. -/
theorem modDeck_decks {s : State} {p : Nat} {x : Partition} (hx : mget s.parts p = some x) (k : Nat) (f : Deck → Deck) :
    mget (modDeck s p k f).parts p = some { x with decks := mmod x.decks k f } := by
  show mget (mmod s.parts p _) p = _
  rw [mget_mmod, if_pos rfl, hx]
  rfl

theorem partOf_eq {s : State} {p : Nat} {x : Partition} (h : mget s.parts p = some x) : partOf s p = x := by
  unfold partOf mgetD
  rw [h]
  rfl

/-- A group on its way that heads its die's groups enters its deck with room. -/
theorem deckGroup_made {s : State} {n p k die : Nat} {d : Deck} {l : List Item} {x : Partition}
    (hg : groupAt s n = some (p, k, d, die, l)) (hx : mget s.parts p = some x) (hk : mget x.decks k = some d)
    (hroom : deckRoom d l.length = true) (hold : oldestGroup d n die = true) :
    Made (.deckAppend n) s (fun t => BytesSame s t ∧ mget (partOf t p).decks k = some { d with
      items := d.items ++ l, flying := d.flying.filter (fun g => !decide (g.1 = n)) }) := by
  refine ⟨modDeck s p k (fun d => { d with
    items := d.items ++ l, flying := d.flying.filter (fun g => !decide (g.1 = n)) }), ?_, bytesSame_of rfl rfl, ?_⟩
  · show execDeckAppend n s = _
    unfold execDeckAppend
    rw [hg]
    exact if_pos ⟨hroom, hold⟩
  · rw [partOf_eq (modDeck_decks hx k _)]
    show mget (mmod x.decks k _) k = _
    rw [mget_mmod, if_pos rfl, hk]
    rfl

/-- The items of a deck and of the groups on their way to it. -/
def deckTotal (d : Deck) : Nat := d.items.length + (d.flying.map (fun g => g.2.2.length)).sum

theorem arriveGroup_total (id die : Nat) (l : List Item) (d : Deck) :
    (arriveGroup id die l d).heldItems = d.heldItems ∧ deckTotal (arriveGroup id die l d) = deckTotal d + l.length := by
  unfold arriveGroup deckTotal
  split
  · refine ⟨rfl, ?_⟩
    dsimp only
    rw [List.length_append]
    omega
  · refine ⟨rfl, ?_⟩
    dsimp only
    rw [List.map_append, List.sum_append]
    simp
    omega

/-- Only the first of equal elements is kept. -/
theorem eraseDups_nodup (l : List Nat) : l.eraseDups.Nodup := by
  induction hn : l.length using Nat.strong_induction_on generalizing l with
  | h n ih =>
    cases l with
    | nil => exact List.nodup_nil
    | cons a r =>
      rw [List.eraseDups_cons, List.nodup_cons]
      refine ⟨fun h => ?_, ih _ ?_ _ rfl⟩
      · have := (List.mem_filter.1 (List.mem_eraseDups.1 h)).2
        simp at this
      · have := List.length_filter_le (fun b => !b == a) r
        rw [List.length_cons] at hn
        omega

/-- Items that arrive at a partition's decks: each deck and the groups on their way to it grow by those named for it. -/
theorem arriveItems_decks (p die : Nat) (clock : List Nat) (l : List (Nat × List TWord)) (ds : List Nat) (hnd : ds.Nodup)
    (s : State) {x : Partition} (hx : mget s.parts p = some x) :
    let t := ds.foldl (fun t d => modDeck { t with nextId := t.nextId + 1 } p d (arriveGroup t.nextId die
      ((l.filter (fun x => decide (x.1 = d))).map (fun x => ({ words := x.2, clock := clock } : Item))))) s
    t.mem = s.mem ∧ t.blocks = s.blocks ∧ ∃ y, mget t.parts p = some y ∧ ∀ k d, mget x.decks k = some d →
      ∃ e, mget y.decks k = some e ∧ e.heldItems = d.heldItems ∧
        deckTotal e = deckTotal d + if k ∈ ds then (l.filter (fun z => decide (z.1 = k))).length else 0 := by
  induction ds generalizing s x with
  | nil => exact ⟨rfl, rfl, x, hx, fun k d hd => ⟨d, hd, rfl, rfl⟩⟩
  | cons c r ih =>
    rw [List.nodup_cons] at hnd
    have hx' := modDeck_decks (s := { s with nextId := s.nextId + 1 }) hx c (arriveGroup s.nextId die
      ((l.filter (fun x => decide (x.1 = c))).map (fun x => ({ words := x.2, clock := clock } : Item))))
    obtain ⟨hm, hb, y, hy, hdecks⟩ := ih hnd.2 _ hx'
    refine ⟨hm.trans rfl, hb.trans rfl, y, hy, fun k d hd => ?_⟩
    by_cases hk : k = c
    · subst hk
      have hthis := arriveGroup_total s.nextId die ((l.filter (fun x => decide (x.1 = k))).map
        (fun x => ({ words := x.2, clock := clock } : Item))) d
      obtain ⟨e, he, hheld, htot⟩ := hdecks k _ ((mget_mmod _ _ _ _).trans ((if_pos rfl).trans (by rw [hd]; rfl)))
      refine ⟨e, he, hheld.trans hthis.1, ?_⟩
      rw [htot, if_neg hnd.1, hthis.2, if_pos List.mem_cons_self, List.length_map]
      rfl
    · obtain ⟨e, he, hheld, htot⟩ := hdecks k d ((mget_mmod _ _ _ _).trans ((if_neg hk).trans hd))
      refine ⟨e, he, hheld, htot.trans ?_⟩
      simp only [List.mem_cons, hk, false_or]

/-- Items put on decks arrive. -/
theorem deckPut_made {s : State} {n : Nat} {h : Held} {l : List (Nat × List TWord)} {x : Partition} (hd : Due s n h)
    (hg : groupAt s n = none) (he : h.eff = .deckPut l) (hx : mget s.parts (waveOf s h.wave).part = some x) :
    Made (.deckAppend n) s (fun t => BytesSame s t ∧ ∀ k d, mget x.decks k = some d →
      ∃ y, mget (partOf t (waveOf s h.wave).part).decks k = some y ∧ y.heldItems = d.heldItems ∧
        y.items.length + (y.flying.map (fun g => g.2.2.length)).sum =
          d.items.length + (d.flying.map (fun g => g.2.2.length)).sum + (l.filter (fun z => decide (z.1 = k))).length) := by
  obtain ⟨hm, hb, y, hy, hdecks⟩ := arriveItems_decks (waveOf s h.wave).part (dieOfCore h.core)
    (clockJoin (waveOf s h.wave).clock (waveOf s h.wave).wrote) l ((l.map (·.1)).eraseDups) (eraseDups_nodup _)
    (dropHeld s n) hx
  have hexec : exec (.deckAppend n) s = execDeckAppend n s := rfl
  unfold execDeckAppend at hexec
  rw [hg] at hexec
  refine made_perform (t := arriveItems (dropHeld s n) (waveOf s h.wave).part (dieOfCore h.core)
    (clockJoin (waveOf s h.wave).clock (waveOf s h.wave).wrote) l) hexec hd (by rw [he]; rfl)
    (by rw [he]; rfl) ⟨bytesSame_of hm hb, fun k d hk => ?_⟩
  obtain ⟨e, hek, hheld, htot⟩ := hdecks k d hk
  refine ⟨e, ?_, hheld, htot.trans (congrArg _ ?_)⟩
  · exact (congrArg (fun z : Partition => mget z.decks k) (partOf_eq hy)).trans hek
  · split
    · rfl
    · next hnot =>
      refine (List.length_eq_zero_iff.2 (List.filter_eq_nil_iff.2 (fun z hz hzk => hnot ?_))).symm
      exact List.mem_eraseDups.2 (List.mem_map.2 ⟨z, hz, of_decide_eq_true hzk⟩)

/-- The decks after holds were released one after the other. -/
def holdsReleased (l : List (Nat × Nat)) (m : Map Deck) : Map Deck :=
  l.foldl (fun m x => mmod m x.1 (fun d => { d with heldItems := d.heldItems - x.2 })) m

/-- Each deck's holds have gone down by those released for it. -/
theorem holdsReleased_deck (l : List (Nat × Nat)) (m : Map Deck) (k : Nat) {d : Deck} (hd : mget m k = some d) :
    ∃ y, mget (holdsReleased l m) k = some y ∧
      y.items = d.items ∧ y.heldItems = d.heldItems - ((l.filter (fun z => decide (z.1 = k))).map (·.2)).sum := by
  induction l generalizing m d with
  | nil => exact ⟨d, hd, rfl, rfl⟩
  | cons x r ih =>
    unfold holdsReleased at ih ⊢
    rw [List.foldl_cons, List.filter_cons]
    by_cases hx : x.1 = k
    · obtain ⟨y, hy, hi, hh⟩ := ih (mmod m x.1 (fun d => { d with heldItems := d.heldItems - x.2 }))
        (d := { d with heldItems := d.heldItems - x.2 }) (by rw [mget_mmod, if_pos hx.symm, hx, hd]; rfl)
      refine ⟨y, hy, hi, hh.trans ?_⟩
      rw [if_pos (decide_eq_true hx), List.map_cons, List.sum_cons]
      exact Nat.sub_sub _ _ _
    · obtain ⟨y, hy, hi, hh⟩ := ih (mmod m x.1 (fun d => { d with heldItems := d.heldItems - x.2 })) (d := d)
        (by rw [mget_mmod, if_neg (Ne.symm hx), hd])
      refine ⟨y, hy, hi, hh.trans ?_⟩
      rw [if_neg (by simpa using hx)]

theorem exec_deckHoldRelease (n : Nat) (s : State) : exec (.deckHoldRelease n) s = perform s n "DECK_HOLD_RELEASE"
    (fun s1 h => match h.eff with
      | .deckRelease items => some (releaseDrawn s1 ((partOfDie s1 (dieOfCore h.core)).getD 0) items)
      | _ => none) := rfl

/-- Holds of drawn items end. -/
theorem deckRelease_made {s : State} {n p : Nat} {h : Held} {l : List (Nat × Nat)} {x : Partition} (hd : Due s n h)
    (he : h.eff = .deckRelease l) (hp : partOfDie s (dieOfCore h.core) = some p) (hx : mget s.parts p = some x) :
    Made (.deckHoldRelease n) s (fun t => BytesSame s t ∧ ∀ k d, mget x.decks k = some d →
      ∃ y, mget (partOf t p).decks k = some y ∧ y.items = d.items ∧
        y.heldItems = d.heldItems - ((l.filter (fun z => decide (z.1 = k))).map (·.2)).sum) := by
  refine made_perform (t := releaseDrawn (dropHeld s n) p l) (exec_deckHoldRelease n s) hd (by rw [he]; rfl) ?_
    ⟨bytesSame_of rfl rfl, fun k d hk => ?_⟩
  · rw [he]
    dsimp only
    rw [show partOfDie (dropHeld s n) (dieOfCore h.core) = some p from hp]
    rfl
  · obtain ⟨y, hy, rest⟩ := holdsReleased_deck l x.decks k hk
    refine ⟨y, ?_, rest⟩
    have hpart := partOf_modPart (s := dropHeld s n) (fun p => { p with decks := holdsReleased l p.decks }) hx
    exact (congrArg (fun z : Partition => mget z.decks k) hpart).trans hy

/-- Every wave of a map changed by the same function. -/
theorem mget_map {α β : Type} (f : α → β) (m : Map α) (k : Nat) :
    mget (m.map (fun x => (x.1, f x.2))) k = (mget m k).map f := by
  induction m with
  | nil => rfl
  | cons c r ih =>
    obtain ⟨i, x⟩ := c
    rw [List.map_cons, mget, mget, ih]
    split <;> rfl

/-- Decks that are quiet are reported to the waves that wait for them. -/
theorem showdown_made {s : State} {p u : Nat} {set : DWord} {w : Wave} (hw : mget s.waves u = some w)
    (hwait : waitsFor s p set w = true) (hquiet : ∀ d, d < 64 → set.getLsbD d = true → deckQuiet s p d = true) :
    Made (.showdownQuiescence p set) s (fun t => BytesSame s t ∧ t.held = s.held ∧
      ∀ v x, mget s.waves v = some x → waveOf t v = if x.part = p then takeReport s set x else x) := by
  have hall : (allLanes.all (fun d => !set.getLsbD d || deckQuiet s p d)) = true := by
    refine List.all_eq_true.2 (fun d hd => ?_)
    cases hset : set.getLsbD d with
    | false => rfl
    | true => rw [hquiet d ((mem_allLanes d).1 hd) hset]; rfl
  have hany : (s.waves.any (fun w => waitsFor s p set w.2)) = true := List.any_eq_true.2 ⟨(u, w), mget_mem hw, hwait⟩
  let f (w : Wave) : Wave := if w.part = p then takeReport s set w else w
  refine ⟨{ s with
      waves := s.waves.map (fun w => (w.1, f w.2))
      undo := s.undo.map (fun y => { y with old := f y.old })
      images := s.images.map (fun x => (x.1, { x.2 with waves := x.2.waves.map (fun w => (w.1, f w.2)) })) }, ?_,
    bytesSame_of rfl rfl, rfl, fun v x hv => ?_⟩
  · show execShowdownQuiescence p set s = _
    unfold execShowdownQuiescence
    dsimp only
    rw [hall, hany]
    rfl
  · show (mget (s.waves.map (fun w => (w.1, f w.2))) v).getD {} = _
    rw [mget_map, hv]
    rfl

end Sys2Proof.Machine.ExecutionContexts
end

section
/-! PROOF. Engine requests, collectives and rounds, and the held changes of units together (R161, R172, R180, R262, R263,
R280). -/

namespace Sys2Proof.Machine.ExecutionContexts

/-! ### Entries of a queue (R161) -/

/-- An entry as it stands in its queue: numbered, with its start. -/
def numbered (s : State) (y : Queue) (e : Entry) : Entry :=
  { e with num := (y.next + 1).toNat, ready := s.now + Config.engineStart e.id }

/-- A queue that an entry has entered. -/
def entered (s : State) (y : Queue) (e : Entry) : Queue :=
  { y with entries := y.entries ++ [numbered s y e], issued := y.issued.filter (fun p => !decide (p.1 = e.id))
           next := y.next + 1 }

/-- An entry enters its queue; the other queues of its core stand. -/
theorem enterQueue_queue (s : State) (core q r : Nat) (e : Entry) : queueAt (coreOf (enterQueue s core q e) core) r =
    if r = q then entered s (queueAt (coreOf s core) q) e else queueAt (coreOf s core) r := by
  unfold enterQueue
  rw [coreOf_modCore]
  show nth (nthSet {} _ (coreOf s core).queues q) r {} = _
  rw [nth_nthSet]
  rfl

theorem exec_engineRequestEnter (n : Nat) (s : State) : exec (.engineRequestEnter n) s =
    execEngineRequestEnter n s := rfl

/-- A request enters its engine queue. -/
theorem enter_made {s : State} {n q : Nat} {h : Held} {e : Entry} (hd : Due s n h) (he : h.eff = .enter q e) :
    let y := queueAt (coreOf s h.core) q
    Made (.engineRequestEnter n) s (fun t => BytesSame s t ∧ queueAt (coreOf t h.core) q = { y with
      entries := y.entries ++ [{ e with num := (y.next + 1).toNat, ready := s.now + Config.engineStart e.id
                                        clock := clockJoin e.clock (waveOf s h.wave).released }]
      issued := y.issued.filter (fun p => !decide (p.1 = e.id)), next := y.next + 1 }) := by
  intro y
  have hx := exec_engineRequestEnter n s
  unfold execEngineRequestEnter at hx
  refine made_perform (t := enterQueue (dropHeld s n) h.core q
    { e with clock := clockJoin e.clock (waveOf s h.wave).released }) hx hd (by rw [he]; rfl) (by rw [he]; rfl)
    ⟨bytesSame_of rfl rfl, ?_⟩
  exact (enterQueue_queue (dropHeld s n) h.core q q _).trans (if_pos rfl)

/-- Markers entered in several queues, one after the other. -/
theorem foldl_enterQueue (core : Nat) (e : Entry) (qs : List Nat) (hnd : qs.Nodup) (s : State) (q : Nat) :
    let t := qs.foldl (fun t q => enterQueue t core q e) s
    (q ∈ qs → ∃ x, x.work = e.work ∧ (queueAt (coreOf t core) q).entries = (queueAt (coreOf s core) q).entries ++ [x]) ∧
    (q ∉ qs → queueAt (coreOf t core) q = queueAt (coreOf s core) q) := by
  induction qs generalizing s with
  | nil => exact ⟨fun h => absurd h (by simp), fun _ => rfl⟩
  | cons r rs ih =>
    rw [List.nodup_cons] at hnd
    obtain ⟨h1, h2⟩ := ih hnd.2 (enterQueue s core r e)
    rw [enterQueue_queue] at h1 h2
    by_cases hq : q = r
    · subst hq
      refine ⟨fun _ => ⟨numbered s (queueAt (coreOf s core) q) e, rfl, ?_⟩, fun h => absurd List.mem_cons_self h⟩
      refine congrArg Queue.entries ((h2 hnd.1).trans (if_pos rfl))
    · rw [if_neg hq] at h1 h2
      exact ⟨fun h => h1 ((List.mem_cons.1 h).resolve_left hq), fun h => h2 (fun h' => h (List.mem_cons_of_mem _ h'))⟩

/-- Markers enter every queue named. -/
theorem markers_made {s : State} {n group : Nat} {set : Byte} {h : Held} (hd : Due s n h) (he : h.eff = .markers set group) :
    Made (.engineRequestEnter n) s (fun t => BytesSame s t ∧ ∀ q, q < 7 →
      (bitAt set.toNat q = true → ∃ e, e.work = .marker group ∧
        (queueAt (coreOf t h.core) q).entries = (queueAt (coreOf s h.core) q).entries ++ [e]) ∧
      (bitAt set.toNat q = false → queueAt (coreOf t h.core) q = queueAt (coreOf s h.core) q)) := by
  have hx := exec_engineRequestEnter n s
  unfold execEngineRequestEnter at hx
  have hmem : ∀ q, q < 7 → (q ∈ (List.range 7).filter (bitAt set.toNat) ↔ bitAt set.toNat q = true) := fun q hq => by
    rw [List.mem_filter, List.mem_range]
    exact and_iff_right hq
  refine made_perform (t := ((List.range 7).filter (bitAt set.toNat)).foldl (fun t q =>
    enterQueue t h.core q (markerEntry (dropHeld s n) h.wave group)) (dropHeld s n)) hx hd (by rw [he]; rfl) (by rw [he])
    ⟨?_, fun q hq => ?_⟩
  · exact bytesSame_trans (dropHeld_bytes s n) (bytesSame_trans (bytesSame_foldl (fun t q => enterQueue t h.core q _)
      (fun _ _ => bytesSame_of rfl rfl) _ _) (bytesSame_of rfl rfl))
  · obtain ⟨h1, h2⟩ := foldl_enterQueue h.core (markerEntry (dropHeld s n) h.wave group) ((List.range 7).filter
      (bitAt set.toNat)) (List.nodup_range.filter _) (dropHeld s n) q
    exact ⟨fun hbit => h1 ((hmem q hq).2 hbit), fun hbit => h2 (fun hin => by rw [(hmem q hq).1 hin] at hbit; exact absurd hbit (by decide))⟩

/-! ### Contributions and collectives (R172, R262, R280) -/

/-- A contribution that has left its wave, with the clock the wave has released. -/
def leftContribution (m : Nat) (clock : List Nat) (c : Cohort) : Cohort :=
  { c with pending := c.pending.map (fun y => if y.entry.id = m then { y with left := true, entry := { y.entry with
      clock := clockJoin y.entry.clock clock } } else y) }

/-- The cohorts of a partition after one was changed. -/
theorem modCohort_at {s : State} {p idx : Nat} {x : Partition} {c : Cohort} (hx : mget s.parts p = some x)
    (hc : mget x.cohorts idx = some c) (f : Cohort → Cohort) :
    mget (partOf (modCohort s p idx f) p).cohorts idx = some (f c) := by
  have hpart := partOf_modPart (fun z : Partition => { z with cohorts := mmod z.cohorts idx f }) hx
  refine (congrArg (fun z : Partition => mget z.cohorts idx) hpart).trans ?_
  show mget (mmod x.cohorts idx f) idx = _
  rw [mget_mmod, if_pos rfl, hc]
  rfl

/-- A contribution leaves its wave. -/
theorem contribute_made {s : State} {n p idx m : Nat} {h : Held} {x : Partition} {c : Cohort} (hd : Due s n h)
    (he : h.eff = .contribute p idx m) (hx : mget s.parts p = some x) (hc : mget x.cohorts idx = some c) :
    Made (.engineRequestEnter n) s (fun t => (s.ports = [] → BytesSame s t) ∧ mget (partOf t p).cohorts idx = some { c with
      pending := c.pending.map (fun y => if y.entry.id = m then { y with left := true, entry := { y.entry with
        clock := clockJoin y.entry.clock (waveOf s h.wave).released } } else y) }) := by
  have hexec := exec_engineRequestEnter n s
  unfold execEngineRequestEnter at hexec
  let s2 := modCohort (dropHeld s n) p idx (leftContribution m (waveOf s h.wave).released)
  have hs2 : mget (partOf s2 p).cohorts idx = some (leftContribution m (waveOf s h.wave).released c) :=
    modCohort_at (s := dropHeld s n) hx hc _
  let t : State := match (mgetD (partOf s2 p).cohorts idx {}).pending.find? (fun y => decide (y.entry.id = m)) with
    | some y =>
      let ts := contributedTags s2 y
      sendPeers { s2 with tags := absorb s2.tags (absorptions ts) } p idx (mergeTags ts) y.entry.clock h.wave
    | none => s2
  have hcohorts : cohortsOf t = cohortsOf s2 := by
    unfold t
    split
    · exact (sendPeers_cohorts _ _ _ _ _ _).trans rfl
    · rfl
  have hmem : OnlyMessages s2 → t.mem = s2.mem := fun ho => by
    unfold t
    split
    · next y _ =>
      exact (sendPeers_lands { s2 with tags := absorb s2.tags (absorptions (contributedTags s2 y)) } p idx _ _ _ ho).1
    · rfl
  refine made_perform (t := t) hexec hd (by rw [he]; rfl) (by rw [he]; rfl) ⟨fun hports => ?_, ?_⟩
  · have ho : OnlyMessages s2 := fun y hy => by
      rw [show s2.ports = s.ports from rfl, hports] at hy
      exact absurd hy (by simp)
    exact bytesSame_of (hmem ho) (congrArg (fun z => z.2.1) hcohorts)
  · have hparts := congrFun (congrArg (fun z => z.2.2) hcohorts) p
    exact (congrArg (fun l => mget l idx) hparts).trans hs2

/-- The slices of a collective with a slot below 64, in the order of their slots. -/
theorem mem_orderedSlices (x : Collective) (y : Nat × CopyReq) :
    y ∈ ((List.range 64).flatMap (fun n => x.slices.filter (fun y => decide (y.1 = n)))).map (fun y => (y.2.1, y.2.2.2)) ↔
      ∃ z ∈ x.slices, z.1 < 64 ∧ y = (z.2.1, z.2.2.2) := by
  rw [List.mem_map]
  constructor
  · rintro ⟨z, hz, rfl⟩
    obtain ⟨k, hk, hz⟩ := List.mem_flatMap.1 hz
    obtain ⟨hz, hzk⟩ := List.mem_filter.1 hz
    exact ⟨z, hz, by rw [of_decide_eq_true hzk]; exact List.mem_range.1 hk, rfl⟩
  · rintro ⟨z, hz, hlt, rfl⟩
    exact ⟨z, List.mem_flatMap.2 ⟨z.1, List.mem_range.2 hlt, List.mem_filter.2 ⟨hz, decide_eq_true rfl⟩⟩, rfl⟩

theorem exec_collectiveEnter (n : Nat) (s : State) : exec (.collectiveEnter n) s = execCollectiveEnter n s := rfl

/-- Whether a collective has every slice and no other arrival of it is held. -/
def collectiveWhole (s : State) (n q : Nat) (x : Collective) : Prop :=
  x.count ≤ x.slices.length + x.empties.length ∧ ∀ y ∈ s.held, y.id ≠ n → y.eff ≠ .collective q x.id

theorem collectiveWhole_iff (s : State) (n q : Nat) (x : Collective) : collectiveWhole s n q x ↔
    (!collectiveFull x || (dropHeld s n).held.any (fun y => decide (y.eff = .collective q x.id))) = false := by
  unfold collectiveWhole collectiveFull
  rw [Bool.or_eq_false_iff, Bool.not_eq_false', decide_eq_true_iff, List.any_eq_false]
  refine and_congr_right (fun _ => ⟨fun h y hy => ?_, fun h y hy hne => ?_⟩)
  · obtain ⟨hin, hid⟩ := List.mem_filter.1 hy
    simpa using h y hin (by simpa using hid)
  · simpa using h y (List.mem_filter.2 ⟨hy, by simpa using hne⟩)

/-- The clock of a collective after a slice of wave `w` arrived from its seat, or an empty one. -/
def collectiveClock (h : Held) (w : Wave) (x : Collective) : List Nat :=
  if h.seat.isSome then clockJoin x.clock (clockJoin w.clock (clockJoin w.relClock w.released)) else x.clock

/-- A slice of a collective arrives; with every slice the copy enters its queue. -/
theorem collective_made {s : State} {n q k : Nat} {h : Held} {b : Block} {x : Collective} (hd : Due s n h)
    (he : h.eff = .collective q x.id) (hk : h.block = some k) (hb : mget s.blocks k = some b)
    (hx : mget b.collectives q = some x) :
    (¬ collectiveWhole s n q x → Made (.collectiveEnter n) s (fun t => BytesSame s t ∧
      ∃ l, mget (blockOf t k).collectives q = some { x with clock := l })) ∧
    (collectiveWhole s n q x → Made (.collectiveEnter n) s (fun t => BytesSame s t ∧
      mget (blockOf t k).collectives q = none ∧
      ∃ e l, (queueAt (coreOf t h.core) q).entries = (queueAt (coreOf s h.core) q).entries ++ [e] ∧ e.id = x.id ∧
        e.work = .copy x.out l ∧ ∀ y, y ∈ l ↔ ∃ z ∈ x.slices, z.1 < 64 ∧ y = (z.2.1, z.2.2.2))) := by
  have hexec := exec_collectiveEnter n s
  unfold execCollectiveEnter at hexec
  have hbk : blockOf (dropHeld s n) k = b := by
    show (mget s.blocks k).getD {} = b
    rw [hb]
    rfl
  have hiff := collectiveWhole_iff s n q x
  constructor
  · intro hnot
    have hmore := Bool.not_eq_false _ ▸ mt hiff.2 hnot
    refine made_perform (t := modBlock (dropHeld s n) k (fun b => { b with
      collectives := mset b.collectives q { x with clock := collectiveClock h (waveOf s h.wave) x } })) hexec hd
      (by rw [he]; rfl) ?_ ⟨?_, collectiveClock h (waveOf s h.wave) x, ?_⟩
    · rw [he]
      dsimp only
      rw [hk, Option.getD_some, hbk, hx]
      dsimp only
      rw [if_neg (fun hne => hne rfl), if_pos hmore]
      rfl
    · exact bytesSame_trans (dropHeld_bytes s n) (bytesSame_trans (bytesSame_modBlock _ k (fun b => { b with
        collectives := mset b.collectives q { x with clock := collectiveClock h (waveOf s h.wave) x } }) (fun _ => rfl))
        (modWave_bytes _ _ _))
    · have hmod := blockOf_modBlock (s := dropHeld s n) (fun b : Block => { b with
        collectives := mset b.collectives q { x with clock := collectiveClock h (waveOf s h.wave) x } }) hb
      exact (congrArg (fun y : Block => mget y.collectives q) hmod).trans (mget_mset_self _ _ _)
  · intro hwhole
    have hmore := hiff.1 hwhole
    let e0 : Entry := { id := x.id, wave := h.wave, block := some k, grid := b.grid
                        ctx := (gridOf (dropHeld s n) b.grid).ctx, pkr := 0
                        clock := collectiveClock h (waveOf s h.wave) x, work := .marker 0 }
    let s1 := modBlock (dropHeld s n) k (fun b => { b with collectives := mdel b.collectives q })
    refine made_perform (t := enterQueue s1 h.core q (collectiveEntry e0 x)) hexec hd (by rw [he]; rfl) ?_
      ⟨?_, ?_, numbered s1 (queueAt (coreOf s1 h.core) q) (collectiveEntry e0 x), _, ?_, rfl, rfl, mem_orderedSlices x⟩
    · rw [he]
      dsimp only
      rw [hk, Option.getD_some, hbk, hx]
      dsimp only
      rw [if_neg (fun hne => hne rfl), hmore, if_neg (by decide)]
      rfl
    · exact bytesSame_trans (bytesSame_trans (dropHeld_bytes s n) (bytesSame_modBlock _ k
        (fun b => { b with collectives := mdel b.collectives q }) (fun _ => rfl))) (bytesSame_of rfl rfl)
    · have hmod := blockOf_modBlock (s := dropHeld s n) (fun b : Block => { b with collectives := mdel b.collectives q }) hb
      exact (congrArg (fun y : Block => mget y.collectives q) hmod).trans ((mget_mdel _ _ _).trans (if_pos rfl))
    · exact congrArg Queue.entries ((enterQueue_queue s1 h.core q q (collectiveEntry e0 x)).trans (if_pos rfl))

/-! ### Rounds (R263, R280) -/

/-- An entry of a formed round enters its core's queue while that has a place. -/
theorem enterItem_room {n : Nat} {s : State} {y : Contribution} (h : placesTaken s y.core 5 < Config.queueDepth) :
    BytesSame s (enterItem n s y) ∧ ∃ e, e.id = y.entry.id ∧
      (queueAt (coreOf (enterItem n s y) y.core) 5).entries = (queueAt (coreOf s y.core) 5).entries ++ [e] := by
  unfold enterItem
  rw [if_neg (Nat.not_le.2 h)]
  exact ⟨bytesSame_of rfl rfl, numbered s (queueAt (coreOf s y.core) 5) y.entry, rfl,
    congrArg Queue.entries ((enterQueue_queue s y.core 5 5 y.entry).trans (if_pos rfl))⟩

theorem enterItem_cohorts (n : Nat) (s : State) (y : Contribution) : cohortsOf (enterItem n s y) = cohortsOf s := by
  unfold enterItem
  split
  · rfl
  · refine Eq.trans (b := cohortsOf (enterQueue s y.core 5 y.entry)) ?_ rfl
    exact modPart_cohorts _ _ _ (fun _ => rfl)

theorem enterItem_bytes (n : Nat) (s : State) (y : Contribution) : BytesSame s (enterItem n s y) := by
  unfold enterItem
  split
  · exact bytesSame_of rfl rfl
  · exact bytesSame_of rfl rfl

/-- An entry that waits for its queue enters it. -/
theorem formed_made {s : State} {n : Nat} {x : Nat × Contribution} (hf : formedAt s n = some x)
    (hroom : placesTaken s x.2.core 5 < Config.queueDepth) :
    Made (.roundForm n) s (fun t => BytesSame s t ∧ ∃ e, e.id = x.2.entry.id ∧
      (queueAt (coreOf t x.2.core) 5).entries = (queueAt (coreOf s x.2.core) 5).entries ++ [e]) := by
  refine ⟨enterItem x.1 s x.2, ?_, enterItem_room hroom⟩
  show execRoundForm n s = _
  unfold execRoundForm
  rw [hf]
  exact if_pos hroom

/-- A cohort once a round has formed of `items` and the peers' parts. -/
def roundTaken (drain : Bool) (items : List Contribution) (peers : List (Nat × PeerPart)) (z : Cohort) : Cohort :=
  { z with
    pending := z.pending.filter (fun y => !(items.map (fun y => y.entry.id)).contains y.entry.id)
    peerItems := peers.foldl (fun l x => l.erase x) z.peerItems
    formedDrain := if drain then z.formedDrain + 1 else z.formedDrain
    formedRed := if drain then z.formedRed else z.formedRed + 1 }

/-- The state with a round formed, before its entries enter their queues. -/
def roundMade (s : State) (p idx : Nat) (drain : Bool) (items : List Contribution) (peers : List (Nat × PeerPart))
    (r : Round) : State :=
  modPart { modCohort s p idx (roundTaken drain items peers) with nextId := s.nextId + 1 } p
    (fun q => { q with rounds := mset q.rounds s.nextId r })

theorem formRound_enters (s : State) (p idx : Nat) (c : Cohort) (drain : Bool) (items : List Contribution) :
    ∃ peers r, ∃ ready : List Contribution, formRound s p idx c drain items =
      ready.foldl (enterItem s.nextId) (roundMade s p idx drain items peers r) := by
  unfold formRound
  exact ⟨_, _, _, rfl⟩

theorem roundMade_cohorts (s : State) (p idx : Nat) (drain : Bool) (items : List Contribution)
    (peers : List (Nat × PeerPart)) (r : Round) :
    cohortsOf (roundMade s p idx drain items peers r) = cohortsOf (modCohort s p idx (roundTaken drain items peers)) := by
  refine Eq.trans (b := cohortsOf { modCohort s p idx (roundTaken drain items peers) with nextId := s.nextId + 1 }) ?_ rfl
  exact modPart_cohorts _ _ _ (fun _ => rfl)

/-- A round that forms takes its contributions from the pending ones and counts itself. -/
theorem formRound_spec {s : State} {p idx : Nat} {x : Partition} {c : Cohort} (hx : mget s.parts p = some x)
    (hc : mget x.cohorts idx = some c) (drain : Bool) (items : List Contribution) :
    BytesSame s (formRound s p idx c drain items) ∧
      ∃ y, mget (partOf (formRound s p idx c drain items) p).cohorts idx = some y ∧
        (∀ z ∈ y.pending, ∀ w ∈ items, z.entry.id ≠ w.entry.id) ∧
        y.formedDrain = (if drain then c.formedDrain + 1 else c.formedDrain) ∧
        y.formedRed = (if drain then c.formedRed else c.formedRed + 1) := by
  obtain ⟨peers, r, ready, hround⟩ := formRound_enters s p idx c drain items
  have hcohorts : cohortsOf (formRound s p idx c drain items) =
      cohortsOf (modCohort s p idx (roundTaken drain items peers)) := by
    rw [hround]
    exact (foldl_kept cohortsOf _ (enterItem_cohorts s.nextId) _ _).trans (roundMade_cohorts _ _ _ _ _ _ _)
  refine ⟨?_, roundTaken drain items peers c, ?_, fun z hz w hw he => ?_, rfl, rfl⟩
  · rw [hround]
    exact bytesSame_trans (bytesSame_of (t := roundMade s p idx drain items peers r) rfl rfl)
      (bytesSame_foldl _ (enterItem_bytes _) _ _)
  · have hp := congrFun (congrArg (fun z => z.2.2) hcohorts) p
    exact (congrArg (fun m => mget m idx) hp).trans (modCohort_at hx hc _)
  · have hgone := (List.mem_filter.1 hz).2
    rw [he, List.contains_iff_mem.2 (List.mem_map.2 ⟨w, hw, rfl⟩)] at hgone
    exact absurd hgone (by decide)

/-- A round forms. -/
theorem round_made {s : State} {n p idx : Nat} {c : Cohort} {drain : Bool} {items : List Contribution} {x : Partition}
    (hf : formedAt s n = none) (hp : pendingAt s n = some (p, idx, c, drain)) (hx : mget s.parts p = some x)
    (hc : mget x.cohorts idx = some c) (hi : firstItems c drain = some items) (hn : ∃ y ∈ items, y.entry.id = n)
    (hpeers : peersCount x c (if drain then 1 else 2) (if drain then c.formedDrain else c.formedRed) = false) :
    Made (.roundForm n) s (fun t => BytesSame s t ∧ ∃ y, mget (partOf t p).cohorts idx = some y ∧
      (∀ z ∈ y.pending, ∀ w ∈ items, z.entry.id ≠ w.entry.id) ∧
      y.formedDrain = (if drain then c.formedDrain + 1 else c.formedDrain) ∧
      y.formedRed = (if drain then c.formedRed else c.formedRed + 1)) := by
  refine ⟨formRound s p idx c drain items, ?_, formRound_spec hx hc drain items⟩
  have hany : items.any (fun y => decide (y.entry.id = n)) = true := by
    obtain ⟨y, hy, hid⟩ := hn
    exact List.any_eq_true.2 ⟨y, hy, decide_eq_true hid⟩
  show execRoundForm n s = _
  unfold execRoundForm
  rw [hf, hp]
  dsimp only
  rw [hi]
  dsimp only
  rw [partOf_eq hx, hpeers, hany]
  rfl

/-- Settles O47, move by move. -/
theorem unitMoves : Obligations.UnitMoves := by
  unfold Obligations.UnitMoves
  intro s n h
  refine ⟨fun hd k b x hk hb he => matrix_writes hd hk hb he, fun hd x c he hc => pkrContext_made hd he hc,
    fun hheld hdue set clear k b he hk hb => watch_made hheld hdue he hk hb,
    fun g x y r hy hr hend hfree => grantEnd_made hy hr hend hfree,
    fun hd x q d w he hw => launch_made hd he hw,
    fun p k d die l x hg hx hk hroom hold => deckGroup_made hg hx hk hroom hold,
    fun hd hg l x he hx => deckPut_made hd hg he hx,
    fun hd l p x he hp hx => deckRelease_made hd he hp hx,
    fun p set u w hw hwait hquiet => showdown_made hw hwait hquiet,
    fun hd q e he => enter_made hd he, fun hd set group he => markers_made hd he,
    fun hd p idx m x c he hx hc => contribute_made hd he hx hc,
    fun hd q k b x he hk hb hx => collective_made hd he hk hb hx,
    fun x hf hroom => formed_made hf hroom,
    fun p idx c drain items x hf hp hx hc hi hn hpeers => round_made hf hp hx hc hi hn hpeers⟩

end Sys2Proof.Machine.ExecutionContexts
end

section
/-! PROOF. Copies between register classes, selection, votes, shuffles, predicate logic and masks (R110 to R117, R326). -/

namespace Sys2Proof.Machine.RegisterClasses

open NumberFormats

/-! ### What a register instruction's meaning answers -/

/-- A meaning that writes lane results without flags, whatever absorptions it records. -/
theorem lanesDone_pairs {i : Instr} {s : State} {u : Nat} {w : Wave} {sp : Split} {g : Ctx → Except (Cause × Word) Alu}
    {d : Operand} {wide : Bool} {tag : Ctx → Nat → List Tag} {f : Ctx → Nat → DWord} {ps : List (Nat × Nat)}
    (hx : exec i s = runAlu i s g)
    (hg : g (ctxFor s u w sp i) = .ok { writeLanes (ctxFor s u w sp i) d wide (fun l =>
      (f (ctxFor s u w sp i) l, tag (ctxFor s u w sp i) l, 0)) with pairs := ps }) :
    LanesDone i s u w sp d wide tag f := by
  intro h ht
  refine ⟨_, _, by rw [hx, runAlu_ready h, hg]; rfl, finish_wroteBy h.split ht d wide
    (fun l => (f (ctxFor s u w sp i) l, tag (ctxFor s u w sp i) l, 0)) _ ps, fun _ => rfl, ?_⟩
  obtain ⟨-, -, -, -, hstat⟩ := finishBy_regs s (ctxFor s u w sp i)
    (writeLanes (ctxFor s u w sp i) d wide (fun l => (f (ctxFor s u w sp i) l, tag (ctxFor s u w sp i) l, 0))).w
    (writeLanes (ctxFor s u w sp i) d wide (fun l => (f (ctxFor s u w sp i) l, tag (ctxFor s u w sp i) l, 0))).sticky
    ps (fun x => stepOver x (ctxFor s u w sp i).len) ht
  refine hstat.trans ?_
  rw [(writeLanes_rest _ _ _ _).2.2, writeLanes_sticky, flagsOf_zero]
  exact BitVec.or_zero

/-- A meaning that hands on the wave as it stood passes by. -/
theorem alu_passed {i : Instr} {s : State} {u : Nat} {w : Wave} {sp : Split} {g : Ctx → Except (Cause × Word) Alu}
    (hx : exec i s = runAlu i s g) (hg : g (ctxFor s u w sp i) = .ok { w := w }) (h : Ready i s u w sp)
    (ht : sp.trump = none) : ∃ t, exec i s = .next t ∧ PassedBy i s t u w sp (stepOver sp (1 + i.lits.length)) :=
  ⟨_, by rw [hx, runAlu_ready h, hg]; rfl, finishNop_passed h.split ht (apart_refl s u)⟩

/-- A meaning that answers a cause traps with it. -/
theorem alu_traps {i : Instr} {s : State} {u : Nat} {w : Wave} {sp : Split} {g : Ctx → Except (Cause × Word) Alu}
    {cause : Cause} {val : Word} (hx : exec i s = runAlu i s g)
    (hg : g (ctxFor s u w sp i) = .error (cause, val)) : Traps i s u w sp cause val :=
  traps_of hx (congrArg (finishAlu s (ctxFor s u w sp i)) hg)

/-! ### Copies (R110, R111, R112) -/

/-- Outside the affine class `mov` writes the lanes of its source. -/
theorem movOf_lanes (c : Ctx) {d : Operand} (hd : ∀ n, d ≠ .a n) (a : Operand) :
    movOf c d a = .ok (writeLanes c d (wideI (itype c.sp.mode)) (copyLane c a)) := by
  cases d with
  | a n => exact absurd rfl (hd n)
  | _ => rfl

/-- Outside the affine class `promote` writes the lanes of its source. -/
theorem promoteOf_lanes (c : Ctx) {d : Operand} (hd : ∀ n, d ≠ .a n) (a b : Operand) :
    promoteOf c d a b = .ok (writeLanes c d (wideI (itype c.sp.mode)) (copyLane c a)) := by
  cases d with
  | a n => exact absurd rfl (hd n)
  | _ => rfl

/-- `sel` writes the lanes of `b` where the bit is 1, and each other lane's own value. -/
theorem selOf_lanes (c : Ctx) (d a b : Operand) :
    selOf c d a b = .ok (writeLanes c d (wideI (itype c.sp.mode)) (fun l =>
      (if (readPred c a l).1 then (readI c b l).val else (readI c d l).val,
        [if (readPred c a l).1 then (readI c b l).tag else (readI c d l).tag, (readPred c a l).2], 0))) := by
  unfold selOf intOut
  congr 2
  funext l
  dsimp only
  split <;> rfl

theorem demoteOf_empty {c : Ctx} (h : lanesOf c.act = []) (d a : Operand) : demoteOf c d a = .ok { w := c.w } := by
  unfold demoteOf
  rw [h]

theorem demoteOf_differs {c : Ctx} {a : Operand} {k l : Nat} {r : List Nat} (h : lanesOf c.act = k :: r)
    (hl : r.find? (fun x => decide ((readI c a x).val ≠ (readI c a k).val)) = some l) (d : Operand) :
    demoteOf c d a = .error (.demoteDivergent, BitVec.ofNat 32 l) := by
  unfold demoteOf
  rw [h]
  dsimp only
  rw [hl]

theorem demoteOf_agrees {c : Ctx} {a : Operand} {k : Nat} {r : List Nat} (h : lanesOf c.act = k :: r)
    (hr : ∀ l ∈ r, (readI c a l).val = (readI c a k).val) (d : Operand) :
    demoteOf c d a = .ok (writeLanes c d (wideI (itype c.sp.mode)) (fun _ =>
      ((readI c a k).val, (lanesOf c.act).map (fun l => (readI c a l).tag), 0))) := by
  have hn : r.find? (fun x => decide ((readI c a x).val ≠ (readI c a k).val)) = none :=
    List.find?_eq_none.2 (fun l hl => by simp [hr l hl])
  unfold demoteOf
  rw [h]
  dsimp only
  rw [hn]
  rfl

/-! ### Votes (R114) -/

theorem voteOut_empty {c : Ctx} (h : lanesOf c.act = []) (d a : Operand) (r : Bool) : voteOut c d a r = .ok { w := c.w } :=
  if_pos (lanesOf_eq_nil.1 h)

theorem voteOut_active {c : Ctx} (h : lanesOf c.act ≠ []) (d a : Operand) (r : Bool) :
    voteOut c d a r = .ok (writeLanes c d false (fun _ =>
      (if r then 1 else 0, (lanesOf c.act).map (fun l => (voteLane c a l).2), 0))) :=
  if_neg (mt lanesOf_eq_nil.2 h)

/-- A vote whose meaning answers `r` of the active lanes is done. -/
theorem vote_done {i : Instr} {s : State} {u : Nat} {w : Wave} {sp : Split} {g : Ctx → Except (Cause × Word) Alu}
    {d a : Operand} (r : Ctx → List Nat → Bool) (hx : exec i s = runAlu i s g)
    (hg : ∀ c, g c = voteOut c d a (r c (lanesOf c.act))) :
    (lanesOf (activeMask w sp i) = [] → Ready i s u w sp → sp.trump = none →
      ∃ t, exec i s = .next t ∧ PassedBy i s t u w sp (stepOver sp (1 + i.lits.length))) ∧
    (lanesOf (activeMask w sp i) ≠ [] → LanesDone i s u w sp d false
      (fun c _ => (lanesOf (activeMask w sp i)).map (fun l => (voteLane c a l).2))
      (fun _ _ => if r (ctxFor s u w sp i) (lanesOf (activeMask w sp i)) then 1 else 0)) :=
  ⟨fun h => alu_passed hx ((hg _).trans (voteOut_empty (c := ctxFor s u w sp i) h d a _)),
    fun h => lanes_done hx ((hg _).trans (voteOut_active (c := ctxFor s u w sp i) h d a _))⟩

/-- A lane's value for `veq`: the bit of a predicate source, or the value of any other. -/
def veqValue (c : Ctx) (a : Operand) (l : Nat) : DWord :=
  match a with
  | .p _ | .live | .act => if (readPred c a l).1 then 1 else 0
  | a => (readI c a l).val

/-- `veq` asks whether every active lane has the value of the first. -/
theorem veqOf_all (c : Ctx) (d a : Operand) : veqOf c d a = voteOut c d a ((lanesOf c.act).all (fun l =>
    veqValue c a l == veqValue c a ((lanesOf c.act).headD 0))) := by
  refine congrArg (voteOut c d a) ?_
  cases lanesOf c.act with
  | nil => rfl
  | cons k r =>
    rw [List.all_cons, List.headD_cons, beq_self_eq_true, Bool.true_and]
    rfl

/-! ### Shuffles (R116) -/

/-- A shuffle is done: lane `l` takes the value of lane `src l`, and its tag if that lane is live. -/
theorem shuffle_done {i : Instr} {s : State} {u : Nat} {w : Wave} {sp : Split} {g : Ctx → Except (Cause × Word) Alu}
    {d a : Operand} {src : Ctx → Nat → Nat} {more : Ctx → Nat → List Tag} (hx : exec i s = runAlu i s g)
    (hg : ∀ c, g c = shuffle c d a (src c) (more c)) :
    LanesDone i s u w sp d (wideI (itype sp.mode))
      (fun c l => (if inMask w.live (src c l) then (readI c a (src c l)).tag else .poison (mgetD w.killTags (src c l) 0)) ::
        more c l)
      (fun c l => (readI c a (src c l)).val) :=
  lanesDone_pairs hx (hg _)

/-! ### The statements -/

/-- Settles O6, instruction by instruction. -/
theorem classResults : Obligations.ClassResults := by
  unfold Obligations.ClassResults
  intro s u w sp d a b m
  refine ⟨fun hd => ⟨lanes_done rfl (movOf_lanes _ hd a), lanes_done rfl (promoteOf_lanes _ hd a b)⟩,
    lanes_done rfl (selOf_lanes _ d a b),
    ⟨?empty, ?agree, ?differ⟩, ⟨vote_done (fun c act => act.all (fun l => (voteLane c a l).1)) rfl (fun _ => rfl),
      vote_done (fun c act => act.any (fun l => (voteLane c a l).1)) rfl (fun _ => rfl), ?veq⟩,
    ⟨shuffle_done rfl (fun _ => rfl), shuffle_done rfl (fun _ => rfl), shuffle_done rfl (fun _ => rfl),
      shuffle_done rfl (fun _ => rfl)⟩,
    ⟨lanes_done rfl rfl, lanes_done rfl rfl, lanes_done rfl rfl, lanes_done rfl rfl⟩, lanes_done rfl rfl⟩
  case empty => exact fun h => alu_passed rfl (demoteOf_empty (c := ctxFor s u w sp (.demote d a)) h d a)
  case agree => exact fun k r h hr => lanes_done rfl (demoteOf_agrees (c := ctxFor s u w sp (.demote d a)) h hr d)
  case differ => exact fun k r l h hl => alu_traps rfl (demoteOf_differs (c := ctxFor s u w sp (.demote d a)) h hl d)
  case veq =>
    exact vote_done (g := fun c => veqOf c d a)
      (fun c act => act.all (fun l => veqValue c a l == veqValue c a (act.headD 0))) rfl (fun c => veqOf_all c d a)

/-! ### Instructions that write the whole of their destination (R104, R115, R326) -/

/-- A meaning that writes the whole of predicate `n`. -/
theorem setsP_done {i : Instr} {s : State} {u : Nat} {w : Wave} {sp : Split} {g : Ctx → Except (Cause × Word) Alu}
    {n : Nat} {m : LaneMask} {tag : Nat → Tag} (hx : exec i s = runAlu i s g)
    (hg : g (ctxFor s u w sp i) = .ok { w := wholePred (ctxFor s u w sp i) n m tag }) :
    SimplyDone i s u w sp (fun t => SetsP w (waveOf t u) n m tag) :=
  alu_simply hx hg rfl rfl rfl rfl (fun _ => setsP_of (ctxFor s u w sp i) _ n m tag)

/-- A meaning that writes one uniform result, or nothing with ACTIVE empty, as a write of lane results does. -/
theorem wroteU_done {i : Instr} {s : State} {u : Nat} {w : Wave} {sp : Split} {g : Ctx → Except (Cause × Word) Alu}
    {n : Nat} {wide : Bool} {x : Alu} {val : DWord} {tags : List Tag} (hx : exec i s = runAlu i s g)
    (hg : g (ctxFor s u w sp i) = .ok x)
    (hw : x.w = (writeLanes (ctxFor s u w sp i) (.s n) wide (fun _ => (val, tags, 0))).w) (hs : x.sticky = 0) :
    SimplyDone i s u w sp (fun t => Wrote w (waveOf t u) (activeMask w sp i) (decide (activeMask w sp i = 0)) (.s n) wide
      (fun _ => (val, mergeTags tags))) := by
  obtain ⟨hrest, hsplits, hstat⟩ := writeLanes_rest (ctxFor s u w sp i) (.s n) wide (fun _ => (val, tags, 0))
  refine alu_simply hx hg (by rw [hw]; exact hsplits) (by rw [hw]; exact hrest) (by rw [hw]; exact hstat) hs ?_
  rw [hw]
  exact fun t => wrote_of_regs (writeLanes_wrote (ctxFor s u w sp i) (.s n) wide (fun _ => (val, tags, 0)))

/-- What `ballot` writes into a uniform pair. -/
def ballotPair (c : Ctx) (n : Nat) (a : Operand) : Alu :=
  let tags := (lanesOf c.act).map (fun l => (voteLane c a l).2)
  if c.skip then { w := c.w }
  else { w := setSPair c.w n ⟨maskOf (fun l => inMask c.act l && (voteLane c a l).1), mergeTags tags⟩
         pairs := absorptions tags }

theorem ballotOf_pair (c : Ctx) (n : Nat) (a : Operand) : ballotOf c (.s n) a = .ok (ballotPair c n a) := by
  unfold ballotPair
  cases h : c.skip <;> simp [ballotOf, h]

theorem ballotPair_wave (c : Ctx) (n : Nat) (a : Operand) : (ballotPair c n a).w = (writeLanes c (.s n) true (fun _ =>
    (maskOf (fun l => inMask c.act l && (voteLane c a l).1), (lanesOf c.act).map (fun l => (voteLane c a l).2), 0))).w := by
  unfold ballotPair
  cases h : c.skip <;> simp [writeLanes, h]

theorem ballotPair_sticky (c : Ctx) (n : Nat) (a : Operand) : (ballotPair c n a).sticky = 0 := by
  unfold ballotPair
  cases h : c.skip <;> simp

/-- The index of the lowest lane of a mask, all ones for none (R115). -/
def lowestIndex (m : LaneMask) : DWord :=
  match lowestLane m with
  | some l => BitVec.ofNat 64 l
  | none => 0xFFFFFFFF

theorem lowestIndex_low (m : LaneMask) : (lowestIndex m).setWidth 32 = (match lowestLane m with
    | some l => BitVec.ofNat 32 l
    | none => 0xFFFFFFFF) := by
  unfold lowestIndex
  cases lowestLane m with
  | none => rfl
  | some l => simp

/-- What `elect` writes into a uniform register. -/
def electIndex (c : Ctx) (n : Nat) : Alu :=
  if c.skip then { w := c.w } else { w := setS c.w n ⟨(lowestIndex c.act).setWidth 32, .clean⟩ }

theorem electOf_index (c : Ctx) (n : Nat) : electOf c (.s n) = .ok (electIndex c n) := by
  unfold electOf electIndex
  rw [lowestIndex_low]
  generalize c.skip = skip
  cases skip <;> rfl

theorem electIndex_wave (c : Ctx) (n : Nat) :
    (electIndex c n).w = (writeLanes c (.s n) false (fun _ => (lowestIndex c.act, [], 0))).w := by
  unfold electIndex
  cases h : c.skip <;> simp [writeLanes, h, mergeTags]

theorem electIndex_sticky (c : Ctx) (n : Nat) : (electIndex c n).sticky = 0 := by
  unfold electIndex
  cases h : c.skip <;> simp

/-- `elect` writes into a predicate the mask of the lowest active lane. -/
theorem electOf_mask (c : Ctx) (n : Nat) : electOf c (.p n) =
    .ok { w := wholePred c n (maskOf (fun l => decide (lowestLane c.act = some l))) (fun _ => .clean) } := by
  unfold electOf
  cases lowestLane c.act with
  | none => rfl
  | some k => simp [eq_comm]

/-- Settles O7, by the class of the destination. -/
theorem maskResults : Obligations.MaskResults := by
  unfold Obligations.MaskResults
  intro s u w sp d a m n
  refine ⟨⟨?_, ?_⟩, ⟨?_, ?_⟩, ?_⟩
  · rintro rfl
    exact setsP_done rfl rfl
  · rintro rfl
    exact wroteU_done rfl (ballotOf_pair _ n a) (ballotPair_wave _ n a) (ballotPair_sticky _ n a)
  · rintro rfl
    exact setsP_done rfl (electOf_mask _ n)
  · rintro rfl
    exact wroteU_done rfl (electOf_index _ n) (electIndex_wave _ n) (electIndex_sticky _ n)
  · intro i c tagIn hit hd
    subst hd
    exact setsP_done rfl rfl

end Sys2Proof.Machine.RegisterClasses
end

section
/-! PROOF. The forms with an affine destination, and those that `z` leaves in the affine class (R101 to R103, R110, R111,
R127). -/

namespace Sys2Proof.Machine.RegisterClasses

open NumberFormats

/-! ### Results of the affine class -/

/-- A meaning that hands on the wave as it stood changes no register. -/
theorem unchanged_done {i : Instr} {s : State} {u : Nat} {w : Wave} {sp : Split} {g : Ctx → Except (Cause × Word) Alu}
    (hx : exec i s = runAlu i s g) (hg : g (ctxFor s u w sp i) = .ok { w := w }) :
    SimplyDone i s u w sp (fun t => RegsSame w (waveOf t u)) :=
  alu_simply hx hg rfl rfl rfl rfl (fun _ => regsSame_of)

/-- An affine register written is the only one that changes. -/
theorem setsA_of {w w' : Wave} {n : Nat} {x : AReg} (hv : w'.v = w.v) (hs : w'.s = w.s) (ha : w'.a = (setA w n x).a)
    (hp : w'.p = w.p) : SetsA w w' n x where
  here := by unfold aReg; rw [ha]; simp [setA, nth_nthSet]
  v k l := by rw [hv]
  s j := by unfold sReg; rw [hs]
  a j hj := by unfold aReg; rw [ha]; simp [setA, nth_nthSet, hj]
  p j := by unfold pReg; rw [hp]

/-- A meaning that copies into an affine register, or writes nothing with ACTIVE empty. -/
theorem affineCopy_done {i : Instr} {s : State} {u : Nat} {w : Wave} {sp : Split} {g : Ctx → Except (Cause × Word) Alu}
    {n : Nat} {x : AReg} {ps : List (Nat × Nat)} (hx : exec i s = runAlu i s g)
    (hg : g (ctxFor s u w sp i) = if (ctxFor s u w sp i).skip then .ok { w := w } else .ok { w := setA w n x, pairs := ps }) :
    (activeMask w sp i = 0 → SimplyDone i s u w sp (fun t => RegsSame w (waveOf t u))) ∧
    (activeMask w sp i ≠ 0 → SimplyDone i s u w sp (fun t => SetsA w (waveOf t u) n x)) :=
  ⟨fun h => unchanged_done hx (hg.trans (if_pos (skip_of_empty h))),
    fun h => alu_simply hx (hg.trans (if_neg (no_skip_of_active h))) rfl rfl rfl rfl (fun _ hv hs ha hp => setsA_of hv hs ha hp)⟩

/-- The lowest live lane that the tests of R103 find, if they are made. -/
def leavesType (c : Ctx) (ex : Nat → Int) : Option Nat :=
  if aovOn c.sp.mode || satOn c.sp.mode then
    (lanesOf c.w.live).find? (fun l => decide (ex l < intMin (isSigned (itype c.sp.mode)) (elemBits (itype c.sp.mode)) ∨
      intMax (isSigned (itype c.sp.mode)) (elemBits (itype c.sp.mode)) < ex l))
  else none

/-- Whether a stride leaves 32 bits under a 64-bit type (R102). -/
def strideOut (c : Ctx) (stride : Int) : Bool :=
  wideI (itype c.sp.mode) && decide (stride < -(2 ^ 31 : Int) ∨ (2 ^ 31 : Int) ≤ stride)

theorem affineTests_eq (c : Ctx) (stride : Int) (ex : Nat → Int) : affineTests c stride ex =
    if strideOut c stride then .error (.affineOverflow, 64)
    else match leavesType c ex with
      | some l => .error (.affineOverflow, BitVec.ofNat 32 l)
      | none => .ok { w := c.w } := by
  show Except.map _ (if strideOut c stride then (.error (.affineOverflow, 64) : Except (Cause × Word) Alu)
    else match leavesType c ex with
      | some l => .error (.affineOverflow, BitVec.ofNat 32 l)
      | none => _) = _
  split
  · rfl
  · cases leavesType c ex <;> rfl

/-- A meaning that makes the tests of an affine destination and writes nothing. -/
theorem tested_done {i : Instr} {s : State} {u : Nat} {w : Wave} {sp : Split} {g : Ctx → Except (Cause × Word) Alu}
    {stride : Int} {ex : Nat → Int} (hx : exec i s = runAlu i s g)
    (hg : g (ctxFor s u w sp i) = affineTests (ctxFor s u w sp i) stride ex) : AffineTested i s u w sp stride ex := by
  rw [affineTests_eq] at hg
  have hin : strideOut (ctxFor s u w sp i) stride = false → g (ctxFor s u w sp i) = match leavesType (ctxFor s u w sp i) ex with
      | some l => .error (.affineOverflow, BitVec.ofNat 32 l)
      | none => .ok { w := w } := fun ho => hg.trans (if_neg (Bool.eq_false_iff.1 ho))
  refine ⟨fun ho => alu_traps hx (hg.trans (if_pos ho)), fun ho ht l hl => alu_traps hx ?_, fun ho ht => unchanged_done hx ?_⟩
  · have hfound : leavesType (ctxFor s u w sp i) ex = some l := (if_pos ht).trans hl
    rw [hin ho, hfound]
  · have hnone : leavesType (ctxFor s u w sp i) ex = none := by
      unfold leavesType
      split
      · exact List.find?_eq_none.2 (fun l hl => Bool.eq_false_iff.1 (ht ‹_› l hl))
      · rfl
    rw [hin ho, hnone]

/-! ### The instructions -/

/-- The affine product: the uniform source is the factor. -/
theorem mulOf_affine (c : Ctx) (n : Nat) (a b : Operand) :
    let x := if rank b = 0 then a else b
    let k := if rank b = 0 then b else a
    mulOf c (.a n) a b = affineOut c n ((affineSrc c x).1 * (affineSrc c k).1)
      ((affineSrc c x).2.1.toInt * factorOf c k) [(affineSrc c x).2.2, (affineSrc c k).2.2]
      (fun l => affineExact c a l * affineExact c b l) := by
  unfold mulOf
  by_cases h : rank b = 0 <;> simp only [h, if_true, if_false]

/-- The affine shift: base and stride are shifted alike. -/
theorem shlOf_affine (c : Ctx) (n : Nat) (a b : Operand) :
    let k := (readU c b).toNat
    let inside := k < elemBits (itype c.sp.mode)
    shlOf c (.a n) a b = affineOut c n (if inside then (affineSrc c a).1 <<< k else 0)
      (if inside then (affineSrc c a).2.1.toInt * ((2 ^ Nat.min k 128 : Nat) : Int) else 0)
      [(affineSrc c a).2.2, tagU c b false] (fun l => affineExact c a l * ((2 ^ Nat.min k 128 : Nat) : Int)) := by
  simp only [shlOf, decide_eq_true_eq]

theorem addOf_tests {c : Ctx} {a b : Operand} (h : affineZ c.sp.mode .z [a, b] = true) : addOf c .z a b =
    affineTests c ((affineSrc c a).2.1.toInt + (affineSrc c b).2.1.toInt) (fun l => affineExact c a l + affineExact c b l) :=
  if_pos h

theorem subOf_tests {c : Ctx} {a b : Operand} (h : affineZ c.sp.mode .z [a, b] = true) : subOf c .z a b =
    affineTests c ((affineSrc c a).2.1.toInt - (affineSrc c b).2.1.toInt) (fun l => affineExact c a l - affineExact c b l) :=
  if_pos h

theorem negOf_tests {c : Ctx} {a : Operand} (h : affineZ c.sp.mode .z [a] = true) : negOf c .z a =
    affineTests c (-(affineSrc c a).2.1.toInt) (fun l => -affineExact c a l) :=
  if_pos h

theorem mulOf_tests {c : Ctx} {a b : Operand} (h : affineZ c.sp.mode .z [a, b] = true) :
    let x := if rank b = 0 then a else b
    let k := if rank b = 0 then b else a
    rank k = 0 → mulOf c .z a b = affineTests c ((affineSrc c x).2.1.toInt * factorOf c k)
      (fun l => affineExact c a l * affineExact c b l) := by
  intro x k hk
  have hp : (if rank b = 0 then (a, b) else (b, a)) = (x, k) := by
    by_cases hb : rank b = 0 <;> simp only [x, k, hb, if_true, if_false]
  unfold mulOf
  simp only [hp, h, hk, decide_true, Bool.and_true, if_true]

theorem shlOf_tests {c : Ctx} {a b : Operand} (h : affineZ c.sp.mode .z [a, b] = true) (hb : rank b = 0) :
    let k := (readU c b).toNat
    shlOf c .z a b = affineTests c
      (if k < elemBits (itype c.sp.mode) then (affineSrc c a).2.1.toInt * ((2 ^ Nat.min k 128 : Nat) : Int) else 0)
      (fun l => affineExact c a l * ((2 ^ Nat.min k 128 : Nat) : Int)) := by
  simp only [shlOf, h, hb, decide_true, Bool.and_true, if_true, decide_eq_true_eq]

/-- Settles O8, form by form. -/
theorem affineResults : Obligations.AffineResults := by
  unfold Obligations.AffineResults
  intro s u w sp a b n
  refine ⟨affine_done rfl rfl, affine_done rfl rfl, affine_done rfl rfl, affine_done rfl (mulOf_affine _ n a b),
    affine_done rfl (shlOf_affine _ n a b), affineCopy_done rfl rfl, affineCopy_done rfl rfl,
    fun h => ⟨?_, ?_, ?_, ?_⟩, fun h => ?_⟩
  · exact tested_done rfl (addOf_tests h)
  · exact tested_done rfl (subOf_tests h)
  · exact fun hk => tested_done rfl (mulOf_tests h hk)
  · exact fun hb => tested_done rfl (shlOf_tests h hb)
  · exact tested_done rfl (negOf_tests h)

end Sys2Proof.Machine.RegisterClasses
end

section
/-! SUPPORT. The window stack (R106, R107): what a shift of the window makes of the wave, of its registers and of the
state. -/

namespace Sys2Proof.Machine.RegisterClasses

open NumberFormats ExecutionContexts

/-! ### The end of an issue, in any state -/

/-- The split that issued is found where the end of the issue moved it. -/
theorem splitOf_finishBy (s : State) (c : Ctx) (w : Wave) (st : Sticky) (ps : List (Nat × Nat)) (f : Split → Split)
    (hs : splitOf w c.sp.entry = some c.sp) (hf : (f c.sp).entry = c.sp.entry) :
    splitOf (waveOf (finishBy s c w st ps f) c.uid) c.sp.entry = some (f c.sp) := by
  rw [waveOf_eq (finishBy_wave s c w st ps f)]
  exact splitOf_popDeferred 4 _ _ _ (splitOf_map w.splits _ _ f hf hs)

/-- With no split deferred none comes back, and no record of one is filled. -/
theorem fills_finishBy (s : State) (c : Ctx) (w : Wave) (st : Sticky) (ps : List (Nat × Nat)) (f : Split → Split)
    (ht : c.sp.trump = none) (hd : w.deferred = []) : (waveOf (finishBy s c w st ps f) c.uid).fills = w.fills := by
  have hi : (issuedWave s c w st f).deferred = [] ∧ (issuedWave s c w st f).fills = w.fills := by
    unfold issuedWave
    rw [stampRun_plain c w ht]
    exact ⟨hd, rfl⟩
  rw [waveOf_eq (finishBy_wave s c w st ps f), popDeferred_stays (.inl hi.1), hi.2]

/-! ### Registers set and dropped by number -/

theorem sReg_of_eq {w w' : Wave} (h : w'.s = w.s) (n : Nat) : sReg w' n = sReg w n := by unfold sReg; rw [h]
theorem aReg_of_eq {w w' : Wave} (h : w'.a = w.a) (n : Nat) : aReg w' n = aReg w n := by unfold aReg; rw [h]
theorem pReg_of_eq {w w' : Wave} (h : w'.p = w.p) (n : Nat) : pReg w' n = pReg w n := by unfold pReg; rw [h]

theorem vLane_empty (l : Nat) : vLane {} l = {} := by simp [vLane, nth, tagAt, mgetD, mget]

/-- A lane of a register after some registers were dropped. -/
theorem vLane_filter (m : Map VReg) (p : Nat → Bool) (k l : Nat) :
    vLane (mgetD (m.filter (fun x => p x.1)) k {}) l = if p k then vLane (mgetD m k {}) l else {} := by
  rw [mgetD_filter_keys]
  split
  · rfl
  · exact vLane_empty l

theorem vLane_dropFrom (m : Map VReg) (j k l : Nat) :
    vLane (mgetD (dropFrom m j) k {}) l = if k < j then vLane (mgetD m k {}) l else {} :=
  (vLane_filter m (fun x => decide (x < j)) k l).trans (if_congr decide_eq_true_iff rfl rfl)

theorem vLane_dropRange (m : Map VReg) (i j k l : Nat) :
    vLane (mgetD (dropRange m i j) k {}) l = if i ≤ k ∧ k < j then {} else vLane (mgetD m k {}) l := by
  have h := vLane_filter m (fun x => !decide (i ≤ x ∧ x < j)) k l
  by_cases hk : i ≤ k ∧ k < j
  · rw [decide_eq_true hk] at h
    rw [if_pos hk]
    exact h
  · rw [decide_eq_false hk] at h
    rw [if_neg hk]
    exact h

/-- Registers set from `b` up. -/
theorem mgetD_foldl_range {α : Type} (g : Nat → α) (m : Map α) (b n k : Nat) (d : α) :
    mgetD ((List.range n).foldl (fun m j => mset m (b + j) (g (b + j))) m) k d =
      if b ≤ k ∧ k < b + n then g k else mgetD m k d := by
  induction n with
  | zero =>
    rw [if_neg (by omega)]
    rfl
  | succ n ih =>
    rw [List.range_succ, List.foldl_append, List.foldl_cons, List.foldl_nil, mgetD_mset, ih]
    by_cases hk : k = b + n
    · rw [if_pos hk, if_pos (by omega), hk]
    · rw [if_neg hk]
      exact if_congr (by omega) rfl rfl

/-! ### A window that moves up -/

/-- The lowest register that must stay resident with the window at `newW` (R106). -/
def needed (w : Wave) (newW : Nat) : Nat := newW + 64 - w.resident

/-- The wave whose window has moved up; `id` numbers the spill it waits for. -/
def windowUp (id : Nat) (w : Wave) (newW : Nat) : Wave :=
  { w with
    v := dropRange (dropRange w.v w.lo (Nat.max (needed w newW) w.lo))
      (Nat.max (w.wbase + 64) (Nat.max (needed w newW) w.lo)) (newW + 64)
    lo := Nat.max (needed w newW) w.lo, wbase := newW, spills := satAdd w.spills (needed w newW - w.lo)
    waitHeld := if needed w newW - w.lo = 0 then w.waitHeld else some id }

/-- The state with the registers spilled that a window at `newW` leaves behind. -/
def spilled (s : State) (u : Nat) (w : Wave) (newW : Nat) : State :=
  if needed w newW - w.lo = 0 then s else spillRegs s u w (needed w newW - w.lo)

theorem shiftWindow_up {w : Wave} {newW : Nat} (h : w.wbase < newW) (s : State) (u : Nat) :
    shiftWindow s u w newW = (spilled s u w newW, windowUp s.nextId w newW) := if_pos h

/-- Registers spilled and registers new to the window read clear; every other stands. -/
theorem windowUp_lane (id : Nat) (w : Wave) (newW k l : Nat) :
    vLane (mgetD (windowUp id w newW).v k {}) l =
      if (w.lo ≤ k ∧ k < needed w newW) ∨
          (Nat.max (w.wbase + 64) (Nat.max (needed w newW) w.lo) ≤ k ∧ k < newW + 64) then {}
      else vLane (mgetD w.v k {}) l := by
  have hmax : (w.lo ≤ k ∧ k < Nat.max (needed w newW) w.lo) ↔ (w.lo ≤ k ∧ k < needed w newW) := by
    show (w.lo ≤ k ∧ k < max (needed w newW) w.lo) ↔ _
    omega
  unfold windowUp
  dsimp only
  rw [vLane_dropRange, vLane_dropRange]
  by_cases hnew : Nat.max (w.wbase + 64) (Nat.max (needed w newW) w.lo) ≤ k ∧ k < newW + 64
  · rw [if_pos hnew, if_pos (.inr hnew)]
  · rw [if_neg hnew]
    exact if_congr (by rw [hmax, or_iff_left hnew]) rfl rfl

theorem spillRegs_apart (s : State) (u : Nat) (w : Wave) (n : Nat) : Apart s (spillRegs s u w n) u :=
  apart_trans (tags_apart s _ u) (hold_apart _ u u _ _)

theorem spilled_apart (s : State) (u : Nat) (w : Wave) (newW : Nat) : Apart s (spilled s u w newW) u := by
  unfold spilled
  split
  · exact apart_refl s u
  · exact spillRegs_apart s u w _

theorem spilled_held_none {w : Wave} {newW : Nat} (h : needed w newW ≤ w.lo) (s : State) (u : Nat) :
    (spilled s u w newW).held = s.held := by
  rw [spilled, if_pos (Nat.sub_eq_zero_of_le h)]

/-- A spill is one held write of the images of the registers below the lowest that stays (R107). -/
theorem spilled_held_one {w : Wave} {newW : Nat} (h : w.lo < needed w newW) (s : State) (u : Nat) :
    ∃ x, (spilled s u w newW).held = s.held ++ [x] ∧ x.wave = u ∧ x.due = s.now + Config.holdback ∧ ∃ tags, x.eff =
      .vstore (((List.range (needed w newW - w.lo)).map (fun k => w.lo + k)).flatMap (fun r =>
        spillBytesAt s w (w.spillBase + 384 * r) (spillImage (seeTag s.tags w.part) (mgetD w.v r {})))) tags w.clock := by
  rw [spilled, if_neg (by omega)]
  exact ⟨_, hold_newest _ _ _ _, rfl, rfl, _, rfl⟩

/-! ### A window that stays or moves down -/

/-- The wave whose window has moved down to `newW`, its registers filled as the state shows their images. -/
def windowDown (s : State) (u : Nat) (w : Wave) (newW : Nat) : Wave :=
  { w with
    v := dropFrom ((List.range (w.lo - newW)).foldl (fun m k => mset m (newW + k)
      (fillImage s u w (fillRecord s u w newW).1 (w.spillBase + 384 * (newW + k)))) w.v) (Nat.min w.lo newW + w.resident)
    lo := Nat.min w.lo newW, wbase := newW, fills := satAdd w.fills (w.lo - newW) }

theorem shiftWindow_down {w : Wave} {newW : Nat} (h : newW ≤ w.wbase) (s : State) (u : Nat) :
    shiftWindow s u w newW =
      ((fillRecord (readMemory s w.part (filledPlaces s w newW)) u w newW).2,
        windowDown (readMemory s w.part (filledPlaces s w newW)) u w newW) := if_neg (Nat.not_lt.2 h)

/-- Resident registers below the old `Lo` are those of their images; every other resident register stands. -/
theorem windowDown_lane (s : State) (u : Nat) (w : Wave) {newW k : Nat} (hk : k < Nat.min w.lo newW + w.resident) (l : Nat) :
    vLane (mgetD (windowDown s u w newW).v k {}) l =
      if newW ≤ k ∧ k < w.lo then vLane (fillImage s u w (fillRecord s u w newW).1 (w.spillBase + 384 * k)) l
      else vLane (mgetD w.v k {}) l := by
  unfold windowDown
  dsimp only
  rw [vLane_dropFrom, if_pos hk,
    mgetD_foldl_range (fun r => fillImage s u w (fillRecord s u w newW).1 (w.spillBase + 384 * r))]
  by_cases h : newW ≤ k ∧ k < w.lo
  · rw [if_pos h, if_pos (by omega)]
  · rw [if_neg h, if_neg (by omega)]

/-- Where every image holds tag states no record is written. -/
theorem fillRecord_good {s : State} {u : Nat} {w : Wave} {newW : Nat}
    (h : ∀ va ∈ filledImages w newW, ∀ l, l < 64 → badTag (fillHalf s u w va l) = false) :
    fillRecord s u w newW = (0, s) := by
  have hn : (filledImages w newW).find? (fun va => allLanes.any (fun l => badTag (fillHalf s u w va l))) = none := by
    refine List.find?_eq_none.2 (fun va hva => ?_)
    rw [List.any_eq_true]
    rintro ⟨l, hl, hb⟩
    rw [h va hva l ((mem_allLanes l).1 hl)] at hb
    exact Bool.false_ne_true hb
  unfold fillRecord
  rw [hn]

/-- With `Lo` not above the new window there is no image to fill. -/
theorem filledImages_none {w : Wave} {newW : Nat} (h : w.lo ≤ newW) : filledImages w newW = [] := by
  rw [filledImages, Nat.sub_eq_zero_of_le h]
  rfl

theorem readMemory_nil (s : State) (part : Nat) : readMemory s part [] = s := by
  unfold readMemory
  split <;> rfl

/-- Nothing is filled, and no state changes, with `Lo` not above the new window. -/
theorem shiftWindow_stays {w : Wave} {newW : Nat} (h : newW ≤ w.wbase) (hlo : w.lo ≤ newW) (s : State) (u : Nat) :
    shiftWindow s u w newW = (s, windowDown s u w newW) := by
  have hi := filledImages_none hlo
  have hp : filledPlaces s w newW = [] := by rw [filledPlaces, hi]; rfl
  have hr : fillRecord s u w newW = (0, s) := fillRecord_good (fun va hva => by rw [hi] at hva; cases hva)
  rw [shiftWindow_down h, hp, readMemory_nil, hr]

/-- Every read finds no error where none stands: the images are read as the state shows them. -/
theorem shiftWindow_clean {s : State} {u : Nat} {w : Wave} {newW : Nat} (h : newW ≤ w.wbase) (hu : s.upsets = [])
    (hb : ∀ va ∈ filledImages w newW, ∀ l, l < 64 → badTag (fillHalf s u w va l) = false) :
    shiftWindow s u w newW = (s, windowDown s u w newW) := by
  rw [shiftWindow_down h, readMemory_clean s hu, fillRecord_good hb]

end Sys2Proof.Machine.RegisterClasses
end

section
/-! PROOF. Calls (R106, R107, R154, R155). -/

namespace Sys2Proof.Machine.RegisterClasses

open NumberFormats

/-! ### The link (R154) -/

/-- The wave with a link in `s30:s31`. -/
def linked (w : Wave) (link : DWord) : Wave := setSPair w 30 ⟨link, .clean⟩

theorem linked_sReg (w : Wave) (link : DWord) (n : Nat) : sReg (linked w link) n =
    if n = 30 then ⟨link.setWidth 32, .clean⟩ else if n = 31 then ⟨(link >>> 32).setWidth 32, .clean⟩ else sReg w n := by
  unfold linked setSPair
  rw [sReg_setS, sReg_setS]
  by_cases h : n = 30
  · rw [if_neg (by omega), if_pos h, if_pos h]
  · rw [if_neg h, if_neg h]

/-! ### What a call comes to (R155) -/

/-- A frame that the window stack or the spill area cannot take. -/
theorem shiftFails_iff (w : Wave) (f : Nat) : shiftFails w (w.wbase + f) = true ↔
    65535 < w.wbase + f ∨ (0 < f ∧ w.lo < needed w (w.wbase + f) ∧
      w.spillTop < w.spillBase + 384 * needed w (w.wbase + f) + 32 * w.spillRecs) := by
  have hlo : w.lo + w.resident < w.wbase + f + 64 ↔ w.lo < needed w (w.wbase + f) := by
    unfold needed
    omega
  have hf : w.wbase < w.wbase + f ↔ 0 < f := Nat.lt_add_right_iff_pos
  unfold shiftFails
  rw [Bool.or_eq_true, Bool.and_eq_true, decide_eq_true_iff, decide_eq_true_iff, decide_eq_true_iff, hlo, hf, and_assoc]
  rfl

theorem callTo_full {c : Ctx} {f : Nat} (h : shiftFails c.w (c.w.wbase + f) = true) (s : State) (va : Nat) :
    callTo s c f va = trapAt s c .stackOverflow (BitVec.ofNat 32 (c.w.wbase + f)) := if_pos h

theorem callTo_fits {i : Instr} {s : State} {u : Nat} {w : Wave} {sp : Split} {f : Nat}
    (h : ¬ shiftFails w (w.wbase + f) = true) (va : Nat) : callTo s (ctxFor s u w sp i) f va =
      finishJump (shiftWindow s u (linked w (linkOf sp (1 + i.lits.length) f)) (w.wbase + f)).1 (ctxFor s u w sp i)
        (shiftWindow s u (linked w (linkOf sp (1 + i.lits.length) f)) (w.wbase + f)).2 va := if_neg h

/-- What a call whose frame is 0 leaves of its wave (R106, R154). -/
structure CalledInPlace (w w' : Wave) (sp : Split) (link : DWord) (va : Nat) : Prop where
  split : splitOf w' sp.entry = some (jumpTo sp va)
  wbase : w'.wbase = w.wbase
  s : ∀ n, sReg w' n = if n = 30 then ⟨link.setWidth 32, .clean⟩
    else if n = 31 then ⟨(link >>> 32).setWidth 32, .clean⟩ else sReg w n
  ap : ∀ n, aReg w' n = aReg w n ∧ pReg w' n = pReg w n
  wstat : w'.wstat = w.wstat

/-- A jump whose wave holds the link and has its window where it was, in any state. -/
theorem jumped_inPlace {i : Instr} {s : State} {u : Nat} {w : Wave} {sp : Split} (hs : splitOf w sp.entry = some sp)
    (ht : sp.trump = none) (s1 r : State) (link : DWord) (va : Nat) :
    CalledInPlace w (waveOf (finishJump s1 (ctxFor s u w sp i) (windowDown r u (linked w link) w.wbase) va) u) sp link va := by
  obtain ⟨-, hsreg, hareg, hpreg, hstat⟩ := finishBy_regs s1 (ctxFor s u w sp i) (windowDown r u (linked w link) w.wbase) 0 []
    (fun x => jumpTo x va) ht
  have hrest := finishBy_rest s1 (ctxFor s u w sp i) (windowDown r u (linked w link) w.wbase) 0 [] (fun x => jumpTo x va)
  have hwbase := congrArg Wave.wbase hrest
  refine ⟨splitOf_finishBy s1 (ctxFor s u w sp i) _ 0 [] (fun x => jumpTo x va) hs rfl, ?_, fun n => ?_,
    fun n => ⟨aReg_of_eq (w := w) hareg n, pReg_of_eq (w := w) hpreg n⟩, hstat.trans BitVec.or_zero⟩
  · exact hwbase
  · rw [← linked_sReg]
    exact sReg_of_eq (w := linked w link) hsreg n

/-- With `Lo` not above the window it leaves every resident register and the rest of the wave. -/
theorem jumped_inPlace_stays {i : Instr} {s : State} {u : Nat} {w : Wave} {sp : Split} (hs : splitOf w sp.entry = some sp)
    (ht : sp.trump = none) (hlo : w.lo ≤ w.wbase) (link : DWord) (va : Nat) :
    let t := finishJump s (ctxFor s u w sp i) (windowDown s u (linked w link) w.wbase) va
    Issued i s t u w (waveOf t u) sp (jumpTo sp va) ∧ (waveOf t u).rest = w.rest ∧ t.held = s.held ∧
      ∀ k l, k < w.lo + w.resident → vLane (mgetD (waveOf t u).v k {}) l = vLane (mgetD w.v k {}) l := by
  intro t
  obtain ⟨hissued, hrest, hv, -, -, -, -⟩ := finishBy_facts (i := i) hs ht (apart_refl s u)
    (windowDown s u (linked w link) w.wbase) rfl 0 [] (fun x => jumpTo x va) rfl
  have hmin : Nat.min w.lo w.wbase = w.lo := Nat.min_eq_left hlo
  refine ⟨hissued, hrest.trans ?_, rfl, fun k l hk => ?_⟩
  · show ({ w with lo := Nat.min w.lo w.wbase } : Wave).rest = w.rest
    rw [hmin]
  · have hk' : k < Nat.min (linked w link).lo w.wbase + (linked w link).resident := by
      show k < Nat.min w.lo w.wbase + w.resident
      rw [hmin]
      exact hk
    have hlane := windowDown_lane s u (linked w link) hk' l
    rw [if_neg (fun h => Nat.not_lt.2 hlo (Nat.lt_of_le_of_lt h.1 h.2))] at hlane
    exact (congrArg (fun m => vLane (mgetD m k {}) l) hv).trans hlane

theorem call_inPlace {i : Instr} {s : State} {u : Nat} {w : Wave} {sp : Split} (hs : splitOf w sp.entry = some sp)
    (ht : sp.trump = none) (h : ¬ shiftFails w w.wbase = true) (va : Nat) :
    let t := callTo s (ctxFor s u w sp i) 0 va
    CalledInPlace w (waveOf t u) sp (linkOf sp (1 + i.lits.length) 0) va ∧
    (w.lo ≤ w.wbase → Issued i s t u w (waveOf t u) sp (jumpTo sp va) ∧ (waveOf t u).rest = w.rest ∧ t.held = s.held ∧
      ∀ k l, k < w.lo + w.resident → vLane (mgetD (waveOf t u).v k {}) l = vLane (mgetD w.v k {}) l) := by
  rw [callTo_fits (f := 0) h, Nat.add_zero]
  refine ⟨?_, fun hlo => ?_⟩
  · rw [shiftWindow_down (w := linked w _) (newW := w.wbase) (Nat.le_refl _)]
    exact jumped_inPlace hs ht _ _ _ va
  · rw [shiftWindow_stays (w := linked w _) (newW := w.wbase) (Nat.le_refl _) hlo]
    exact jumped_inPlace_stays hs ht hlo _ va

/-- What a call with a frame leaves of its wave: W up by the frame, the link, spilled and new registers clear. -/
structure CalledUp (s : State) (w w' : Wave) (link : DWord) (newW : Nat) : Prop where
  rest : w'.rest = { w with
    wbase := newW, lo := Nat.max (needed w newW) w.lo, spills := satAdd w.spills (needed w newW - w.lo)
    waitHeld := if w.lo < needed w newW then some s.nextId else w.waitHeld }.rest
  v : ∀ k l, vLane (mgetD w'.v k {}) l =
    if (w.lo ≤ k ∧ k < needed w newW) ∨
        (Nat.max (w.wbase + 64) (Nat.max (needed w newW) w.lo) ≤ k ∧ k < newW + 64) then {}
    else vLane (mgetD w.v k {}) l
  s : ∀ n, sReg w' n = if n = 30 then ⟨link.setWidth 32, .clean⟩
    else if n = 31 then ⟨(link >>> 32).setWidth 32, .clean⟩ else sReg w n
  ap : ∀ n, aReg w' n = aReg w n ∧ pReg w' n = pReg w n
  wstat : w'.wstat = w.wstat

/-- A jump whose wave holds the link and has its window moved up. -/
theorem jumped_up {i : Instr} {s : State} {u : Nat} {w : Wave} {sp : Split} (hs : splitOf w sp.entry = some sp)
    (ht : sp.trump = none) (link : DWord) (newW va : Nat) :
    let t := finishJump (spilled s u (linked w link) newW) (ctxFor s u w sp i) (windowUp s.nextId (linked w link) newW) va
    Issued i s t u w (waveOf t u) sp (jumpTo sp va) ∧ CalledUp s w (waveOf t u) link newW := by
  intro t
  obtain ⟨hissued, hrest, hv, hsreg, hareg, hpreg, hstat⟩ := finishBy_facts (i := i) hs ht
    (spilled_apart s u (linked w link) newW) (windowUp s.nextId (linked w link) newW) rfl 0 [] (fun x => jumpTo x va) rfl
  have hwait : (if needed w newW - w.lo = 0 then w.waitHeld else some s.nextId) =
      if w.lo < needed w newW then some s.nextId else w.waitHeld := by
    by_cases h : w.lo < needed w newW
    · rw [if_neg (by omega), if_pos h]
    · rw [if_pos (by omega), if_neg h]
  refine ⟨hissued, hrest.trans ?_, fun k l => ?_, fun n => ?_,
    fun n => ⟨aReg_of_eq (w := w) hareg n, pReg_of_eq (w := w) hpreg n⟩, hstat.trans BitVec.or_zero⟩
  · rw [← hwait]
    rfl
  · exact (congrArg (fun m => vLane (mgetD m k {}) l) hv).trans (windowUp_lane _ (linked w link) newW k l)
  · rw [← linked_sReg]
    exact sReg_of_eq (w := linked w link) hsreg n

theorem call_moves {i : Instr} {s : State} {u : Nat} {w : Wave} {sp : Split} (hs : splitOf w sp.entry = some sp)
    (ht : sp.trump = none) {f : Nat} (hf : 0 < f) (h : ¬ shiftFails w (w.wbase + f) = true) (va : Nat) :
    let t := callTo s (ctxFor s u w sp i) f va
    let link := linkOf sp (1 + i.lits.length) f
    Issued i s t u w (waveOf t u) sp (jumpTo sp va) ∧ CalledUp s w (waveOf t u) link (w.wbase + f) ∧
      t.held = (spilled s u (linked w link) (w.wbase + f)).held := by
  rw [callTo_fits h, shiftWindow_up (w := linked w _) (newW := w.wbase + f) (Nat.lt_add_of_pos_right hf)]
  obtain ⟨hissued, hcalled⟩ := jumped_up (i := i) (s := s) (u := u) hs ht (linkOf sp (1 + i.lits.length) f) (w.wbase + f) va
  exact ⟨hissued, hcalled, finishBy_held _ _ _ _ _ _⟩

/-! ### `call` and `calli` -/

/-- Their meanings test the target and call. -/
theorem call_meaning {s : State} {u : Nat} {w : Wave} {sp : Split} {f : Byte} {o : BitVec 16} {a : Operand} {i : Instr}
    {va : Nat} (hi : i = .call f o ∧ va = wordOffset sp.pc o.toInt ∨
      i = .calli f a ∧ CleanU i s u w sp [(a, true)] ∧ va = (readUPair (ctxFor s u w sp i) a).toNat) :
    ∃ k, exec i s = run i s k ∧
      (i = .calli f a → 2 ^ 49 ≤ va → k s (ctxFor s u w sp i) =
        trapAt s (ctxFor s u w sp i) .illegalTarget (BitVec.ofNat 32 va)) ∧
      ((i = .calli f a → va < 2 ^ 49) → k s (ctxFor s u w sp i) =
        withTarget s (ctxFor s u w sp i) va (fun s1 => callTo s1 (ctxFor s u w sp i) f.toNat va)) := by
  rcases hi with ⟨rfl, rfl⟩ | ⟨rfl, hc, rfl⟩
  · exact ⟨_, rfl, fun h => (by cases h), fun _ => rfl⟩
  · exact ⟨_, rfl, fun _ h => (clean1 hc s _).trans (if_pos h), fun h => (clean1 hc s _).trans (if_neg (Nat.not_le.2 (h rfl)))⟩

/-- Settles O22: no frame, a frame that fits, and one that does not. -/
theorem calls : Obligations.Calls := by
  unfold Obligations.Calls
  intro s u w sp f o a i va hi
  obtain ⟨k, hx, hfar, hnear⟩ := call_meaning hi
  refine ⟨fun h hv => traps_of hx (hfar h hv), fun hv => targetTested_of hx (hnear hv) (fun hk => ?_)⟩
  intro new need full
  have hfull : shiftFails w (w.wbase + f.toNat) = true ↔ full := shiftFails_iff w f.toNat
  have hcall : ∀ h : Ready i s u w sp, exec i s = .next (callTo s (ctxFor s u w sp i) f.toNat va) := fun h => by
    rw [hx, run_ready h, hk]
  refine ⟨fun h => traps_of hx (hk.trans (callTo_full (c := ctxFor s u w sp i) (hfull.2 h) s va)), fun h hf hr ht => ?_,
    fun h hf hr ht => ?_⟩
  · have hfit : ¬ shiftFails w (w.wbase + f.toNat) = true := mt hfull.1 h
    refine ⟨_, hcall hr, ?_⟩
    rw [hf] at hfit ⊢
    obtain ⟨⟨hsplit, hwbase, hsreg, hap, hstat⟩, hstays⟩ := call_inPlace (i := i) (s := s) (u := u) hr.split ht hfit va
    exact ⟨hsplit, hwbase, hsreg, hap, hstat, hstays⟩
  · obtain ⟨hissued, ⟨hrest, hv, hsreg, hap, hstat⟩, hheld⟩ :=
      call_moves (i := i) (s := s) (u := u) hr.split ht hf (mt hfull.1 h) va
    exact ⟨_, hcall hr, hissued, hrest, hv, hsreg, hap, hstat,
      fun hn => hheld.trans (spilled_held_none (w := linked w _) hn s u),
      fun hn => hheld ▸ spilled_held_one (w := linked w _) hn s u⟩

end Sys2Proof.Machine.RegisterClasses
end

section
/-! PROOF. Returns (R106, R107, R156). -/

namespace Sys2Proof.Machine.RegisterClasses

open NumberFormats

/-! ### The meaning of `ret` (R156) -/

/-- The frame of a link: bits 63 to 58. -/
theorem bits_frame (x : DWord) : bits x.toNat 63 58 = x.toNat / 2 ^ 58 :=
  Nat.mod_eq_of_lt (Nat.div_lt_of_lt_mul (by rw [← Nat.pow_add]; exact x.isLt))

/-- The header of a return address `ra` at position `pos` of its body. -/
def headerOf (ra pos : Nat) : Nat := wrapInt 49 ((ra : Int) - 4 * pos)

/-- Whether `y`, the word at address `h`, is no header of a body with position `pos`. -/
def badHeader (y : Word) (h pos : Nat) : Bool := !isHeader y || h % 4 != 0 || decide (y.toNat % 16 + 1 + 1 < pos)

theorem badHeader_iff (y : Word) (h pos : Nat) :
    badHeader y h pos = true ↔ ¬ (isHeader y = true ∧ h % 4 = 0 ∧ pos ≤ y.toNat % 16 + 2) := by
  unfold badHeader
  rw [Bool.or_eq_true, Bool.or_eq_true, Bool.not_eq_true', bne_iff_ne, decide_eq_true_iff, ← Bool.not_eq_true,
    not_and_or, not_and_or, or_assoc]
  exact or_congr Iff.rfl (or_congr Iff.rfl (by omega))

/-- The end of a `ret` that its link and header allow. -/
def returnEnd (s : State) (c : Ctx) (ra pos f len : Nat) : State :=
  let r := shiftWindow s c.uid c.w (c.w.wbase - f)
  finishBy r.1 c r.2 0 [] (fun sp => returnTo sp ra (headerOf ra pos) pos len)

/-- A `ret` with return address, position and frame of its link. -/
def returnBy (s : State) (c : Ctx) (link ra pos f : Nat) : State :=
  if bits link 57 54 ≠ 0 ∨ pos = 0 ∨ c.w.wbase < f then trapAt s c .badReturn (BitVec.ofNat 32 link)
  else match codeWord s c.w (headerOf ra pos) with
    | .missing m => suspend s c.uid (headerOf ra pos) m
    | .noPerm => trapAt s c .fetchPerm (BitVec.ofNat 32 (headerOf ra pos))
    | .words _ l _ =>
      if badHeader (l.headD 0) (headerOf ra pos) pos then trapAt s c .badReturn (BitVec.ofNat 32 link)
      else returnEnd s c ra pos f ((l.headD 0).toNat % 16 + 1)

/-- With a clean link `ret` goes on as the fields of the link say. -/
theorem ret_meaning {s : State} {u : Nat} {w : Wave} {sp : Split} {a : Operand} (hc : CleanU (.ret a) s u w sp [(a, true)]) :
    let c := ctxFor s u w sp (.ret a)
    let link := (readUPair c a).toNat
    ∃ k, exec (.ret a) s = run (.ret a) s k ∧
      k s c = returnBy s c link (link % 2 ^ 49) (link / 2 ^ 49 % 2 ^ 5) (link / 2 ^ 58) := by
  refine ⟨_, rfl, (clean1 hc s _).trans ?_⟩
  rw [← bits_low, ← bits_frame]
  rfl

theorem returnBy_badLink {c : Ctx} {link pos f : Nat} (h : ¬ (link / 2 ^ 54 % 2 ^ 4 = 0 ∧ pos ≠ 0 ∧ f ≤ c.w.wbase))
    (s : State) (ra : Nat) : returnBy s c link ra pos f = trapAt s c .badReturn (BitVec.ofNat 32 link) := by
  refine if_pos ?_
  show link / 2 ^ 54 % 2 ^ 4 ≠ 0 ∨ pos = 0 ∨ c.w.wbase < f
  omega

section
variable {s : State} {c : Ctx} {link ra pos f : Nat}
  (hlink : link / 2 ^ 54 % 2 ^ 4 = 0 ∧ pos ≠ 0 ∧ f ≤ c.w.wbase)
include hlink

theorem returnBy_goodLink : returnBy s c link ra pos f = match codeWord s c.w (headerOf ra pos) with
    | .missing m => suspend s c.uid (headerOf ra pos) m
    | .noPerm => trapAt s c .fetchPerm (BitVec.ofNat 32 (headerOf ra pos))
    | .words _ l _ =>
      if badHeader (l.headD 0) (headerOf ra pos) pos then trapAt s c .badReturn (BitVec.ofNat 32 link)
      else returnEnd s c ra pos f ((l.headD 0).toNat % 16 + 1) := by
  refine if_neg ?_
  show ¬ (link / 2 ^ 54 % 2 ^ 4 ≠ 0 ∨ pos = 0 ∨ c.w.wbase < f)
  omega

theorem returnBy_missing {m : Bool} (h : codeWord s c.w (headerOf ra pos) = .missing m) :
    returnBy s c link ra pos f = suspend s c.uid (headerOf ra pos) m := by
  rw [returnBy_goodLink hlink, h]

theorem returnBy_noPerm (h : codeWord s c.w (headerOf ra pos) = .noPerm) :
    returnBy s c link ra pos f = trapAt s c .fetchPerm (BitVec.ofNat 32 (headerOf ra pos)) := by
  rw [returnBy_goodLink hlink, h]

variable {x : Nat} {y : Word} {l : List Word} {z : Bool} (hword : codeWord s c.w (headerOf ra pos) = .words x (y :: l) z)
include hword

theorem returnBy_badHeader (h : ¬ (isHeader y = true ∧ headerOf ra pos % 4 = 0 ∧ pos ≤ y.toNat % 16 + 2)) :
    returnBy s c link ra pos f = trapAt s c .badReturn (BitVec.ofNat 32 link) := by
  rw [returnBy_goodLink hlink, hword]
  exact if_pos ((badHeader_iff y _ pos).2 h)

theorem returnBy_goodHeader (h : isHeader y = true ∧ headerOf ra pos % 4 = 0 ∧ pos ≤ y.toNat % 16 + 2) :
    returnBy s c link ra pos f = returnEnd s c ra pos f (y.toNat % 16 + 1) := by
  rw [returnBy_goodLink hlink, hword]
  exact if_neg (mt (badHeader_iff y _ pos).1 (not_not.2 h))

end

/-! ### The window moved down (R106, R107) -/

/-- The end of an issue whose wave has its window moved down, in any state. -/
theorem movedDown_finishBy {i : Instr} {s : State} {u : Nat} {w : Wave} {sp : Split} (ht : sp.trump = none)
    (s1 read : State) (newW : Nat) (g : Split → Split) :
    MovedDown read u w (waveOf (finishBy s1 (ctxFor s u w sp i) (windowDown read u w newW) 0 [] g) u) newW
      (fillRecord read u w newW).1 := by
  obtain ⟨hv, hsreg, hareg, hpreg, hstat⟩ := finishBy_regs s1 (ctxFor s u w sp i) (windowDown read u w newW) 0 [] g ht
  have hrest := finishBy_rest s1 (ctxFor s u w sp i) (windowDown read u w newW) 0 [] g
  have hwbase := congrArg Wave.wbase hrest
  have hlo := congrArg Wave.lo hrest
  exact {
    wbase := hwbase
    lo := hlo
    rest := hrest
    fills := fun hd => fills_finishBy s1 (ctxFor s u w sp i) (windowDown read u w newW) 0 [] g ht hd
    v := fun k l _ hk => (congrArg (fun m => vLane (mgetD m k {}) l) hv).trans (windowDown_lane read u w hk l)
    regs := fun n => ⟨sReg_of_eq (w := w) hsreg n, aReg_of_eq (w := w) hareg n, pReg_of_eq (w := w) hpreg n⟩
    wstat := hstat.trans BitVec.or_zero }

/-- A return moves the window down, and its split stands at the return address. -/
theorem returned_down {i : Instr} {s : State} {u : Nat} {w : Wave} {sp : Split} (hs : splitOf w sp.entry = some sp)
    (ht : sp.trump = none) (ra pos f len : Nat) :
    let t := returnEnd s (ctxFor s u w sp i) ra pos f len
    let read := readMemory s w.part (filledPlaces s w (w.wbase - f))
    splitOf (waveOf t u) sp.entry = some (returnTo sp ra (headerOf ra pos) pos len) ∧
    MovedDown read u w (waveOf t u) (w.wbase - f) (fillRecord read u w (w.wbase - f)).1 := by
  have he : returnEnd s (ctxFor s u w sp i) ra pos f len = finishBy _ _ _ 0 [] _ :=
    congrArg (fun r : State × Wave => finishBy r.1 (ctxFor s u w sp i) r.2 0 []
      (fun sp => returnTo sp ra (headerOf ra pos) pos len)) (shiftWindow_down (Nat.sub_le w.wbase f) s u)
  rw [he]
  exact ⟨splitOf_finishBy _ (ctxFor s u w sp i) _ 0 [] _ hs rfl, movedDown_finishBy ht _ _ _ _⟩

/-- Where the read meets no error and every image holds tag states, nothing else changes. -/
theorem returned_clean {i : Instr} {s : State} {u : Nat} {w : Wave} {sp : Split} (hs : splitOf w sp.entry = some sp)
    (ht : sp.trump = none) (ra pos f len : Nat) (hu : s.upsets = [])
    (hb : ∀ va ∈ filledImages w (w.wbase - f), ∀ l, l < 64 → badTag (fillHalf s u w va l) = false) :
    let t := returnEnd s (ctxFor s u w sp i) ra pos f len
    Issued i s t u w (waveOf t u) sp (returnTo sp ra (headerOf ra pos) pos len) ∧ t.held = s.held := by
  have he : returnEnd s (ctxFor s u w sp i) ra pos f len = finishBy _ _ _ 0 [] _ :=
    congrArg (fun r : State × Wave => finishBy r.1 (ctxFor s u w sp i) r.2 0 []
      (fun sp => returnTo sp ra (headerOf ra pos) pos len)) (shiftWindow_clean (Nat.sub_le w.wbase f) hu hb)
  rw [he]
  obtain ⟨hissued, -⟩ := finishBy_facts (i := i) hs ht (apart_refl s u) (windowDown s u w (w.wbase - f)) rfl 0 []
    (fun sp => returnTo sp ra (headerOf ra pos) pos len) rfl
  exact ⟨hissued, finishBy_held _ _ _ _ _ _⟩

/-- Settles O23: the link, the line of its header, the header, and the return. -/
theorem returns : Obligations.Returns := by
  unfold Obligations.Returns
  intro s u w sp a hc link ra pos f h low fields
  obtain ⟨k, hx, hk⟩ := ret_meaning hc
  have hrun : ∀ (hr : Ready (.ret a) s u w sp) {t : State}, returnBy s (ctxFor s u w sp (.ret a)) link ra pos f = t →
      exec (.ret a) s = .next t := fun hr t ht => by rw [hx, run_ready hr, hk.trans ht]
  refine ⟨fun hn => traps_of hx (hk.trans (returnBy_badLink (c := ctxFor s u w sp (.ret a)) hn s ra)),
    fun hl m hm hr => hrun hr (returnBy_missing hl hm), fun hl hp => traps_of hx (hk.trans (returnBy_noPerm hl hp)),
    fun hl x y l z hw => ⟨fun hn => traps_of hx (hk.trans (returnBy_badHeader hl hw hn)), fun hg hr ht => ?_⟩⟩
  obtain ⟨hsplit, hdown⟩ := returned_down (i := .ret a) (s := s) (u := u) hr.split ht ra pos f (y.toNat % 16 + 1)
  exact ⟨_, hrun hr (returnBy_goodHeader hl hw hg), hsplit, hdown, returned_clean hr.split ht ra pos f _⟩

end Sys2Proof.Machine.RegisterClasses
end

section
/-! SUPPORT. Register instructions on elements (R118): an integer, float or bit instruction whose meaning is of a shared
shape is done. -/

namespace Sys2Proof.Machine.Arithmetic

variable {i : Instr} {s : State} {u : Nat} {w : Wave} {sp : Split} {g : Ctx → Except (Cause × Word) Alu} {d a b : Operand}

/-! ### Integers -/

/-- An instruction on the integers of one operand is done. -/
theorem int1_done {f : Ctx → Int → Nat × Sticky} (hx : exec i s = runAlu i s g)
    (hg : g (ctxFor s u w sp i) = int1 (ctxFor s u w sp i) d a (f (ctxFor s u w sp i))) :
    IntDone i s u w sp d [a] (fun c l k => f c (intAt c a l k)) :=
  elements_done hx (intWidth_le _) hg

/-- An instruction on the integers of two operands is done. -/
theorem int2_done {f : Ctx → Int → Int → Nat × Sticky} (hx : exec i s = runAlu i s g)
    (hg : g (ctxFor s u w sp i) = int2 (ctxFor s u w sp i) d a b (f (ctxFor s u w sp i))) :
    IntDone i s u w sp d [a, b] (fun c l k => f c (intAt c a l k) (intAt c b l k)) :=
  elements_done hx (intWidth_le _) hg

/-- An instruction on the elements of its two operands and of the old D is done. -/
theorem intLane3_done {f : Ctx → List Nat → Nat × Sticky} (hx : exec i s = runAlu i s g)
    (hg : g (ctxFor s u w sp i) = intOut (ctxFor s u w sp i) d (intLane (ctxFor s u w sp i) [a, b, d] (f (ctxFor s u w sp i)))) :
    IntDone i s u w sp d [a, b, d] (fun c l k =>
      f c ([a, b, d].map (fun x => elemOf (elemBits (itype c.sp.mode)) k (readI c x l).val))) :=
  elements_done hx (intWidth_le _) hg

/-- An instruction on the bits of each element of one operand is done. -/
theorem bits1_done {f : Ctx → Nat → Nat} (hx : exec i s = runAlu i s g)
    (hg : g (ctxFor s u w sp i) = bits1 (ctxFor s u w sp i) d a (f (ctxFor s u w sp i))) :
    IntDone i s u w sp d [a] (fun c l k => (f c (elemOf (elemBits (itype c.sp.mode)) k (readI c a l).val), 0)) :=
  elements_done hx (intWidth_le _) hg

/-- A bitwise instruction is done. -/
theorem bitwise_done {f : DWord → DWord → DWord} (hx : exec i s = runAlu i s g)
    (hg : g (ctxFor s u w sp i) = bitwise (ctxFor s u w sp i) d a b f) :
    LanesDone i s u w sp d (wideI (itype sp.mode)) (fun c l => [(readI c a l).tag, (readI c b l).tag])
      (fun c l => f (readI c a l).val (readI c b l).val) :=
  lanes_done hx hg

/-- A shift of each element is done. -/
theorem shift_done {f : Nat → Nat → Nat → Nat} (hx : exec i s = runAlu i s g)
    (hg : g (ctxFor s u w sp i) = intOut (ctxFor s u w sp i) d (shiftLane (ctxFor s u w sp i) a b f)) :
    let c := ctxFor s u w sp i
    let n := elemBits (itype sp.mode)
    BitsDone i s u w sp d (wideI (itype sp.mode)) n (intCount c) (fun l => [(readI c a l).tag, (read32 c b l).tag])
      (fun l k => f n (elemOf n k (readI c a l).val) (shiftCount c b l k)) :=
  bits_done hx (intWidth_le _) hg

/-! ### Floats -/

/-- A float instruction of one operand is done. -/
theorem float1_done {f : FEnv → Nat → Nat × Sticky} (hx : exec i s = runAlu i s g)
    (hg : g (ctxFor s u w sp i) = float1 (ctxFor s u w sp i) d a f) :
    FloatDone i s u w sp d [a] (fun c l k => f (floatEnv c) (fltAt c a l k)) :=
  elements_done hx (floatWidth_le _) hg

/-- A float instruction of two operands is done. -/
theorem float2_done {f : FEnv → Nat → Nat → Nat × Sticky} (hx : exec i s = runAlu i s g)
    (hg : g (ctxFor s u w sp i) = float2 (ctxFor s u w sp i) d a b f) :
    FloatDone i s u w sp d [a, b] (fun c l k => f (floatEnv c) (fltAt c a l k) (fltAt c b l k)) :=
  elements_done hx (floatWidth_le _) hg

/-! ### Comparisons -/

/-- A comparison of integers is done. -/
theorem cmpInt_done {rel : Int → Int → Bool} (hx : exec i s = runAlu i s g)
    (hg : g (ctxFor s u w sp i) = cmpInt (ctxFor s u w sp i) d a b rel) :
    let c := ctxFor s u w sp i
    CompareDone i s u w sp d (isPair .cmpI sp.mode d) (elemBits (itype sp.mode)) (intCount c)
      (fun l => [(readI c a l).tag, (readI c b l).tag]) (fun l k => (rel (intAt c a l k) (intAt c b l k), 0)) :=
  compare_done hx (intWidth_le _) hg

/-- A comparison of floats is done. -/
theorem cmpFloat_done {r : Nat} (hx : exec i s = runAlu i s g)
    (hg : g (ctxFor s u w sp i) = cmpFloat (ctxFor s u w sp i) d a b r) :
    let c := ctxFor s u w sp i
    CompareDone i s u w sp d (isPair .cmpF sp.mode d) (floatBits c) (floatCount c)
      (fun l => [(readF c a l).tag, (readF c b l).tag]) (fun l k => fcmpE (floatEnv c) r (fltAt c a l k) (fltAt c b l k)) :=
  compare_done hx (floatWidth_le _) hg

end Sys2Proof.Machine.Arithmetic
end

section
/-! PROOF. Integer instructions, bits, shifts and fields (R44, R118, R122, R124 to R128), outside the affine class. -/

namespace Sys2Proof.Machine.Arithmetic

/-! ### The meanings outside the affine class (R101, R102) -/

section
variable {c : Ctx} {d a b : Operand}

theorem addOf_elements (hd : ∀ n, d ≠ .a n) (hz : affineZ c.sp.mode d [a, b] = false) :
    addOf c d a b = int2 c d a b (fun x y => intReduce c (x + y)) := by
  cases d with
  | a n => exact absurd rfl (hd n)
  | _ => simp only [addOf, hz, Bool.false_eq_true, if_false]

theorem subOf_elements (hd : ∀ n, d ≠ .a n) (hz : affineZ c.sp.mode d [a, b] = false) :
    subOf c d a b = int2 c d a b (fun x y => intReduce c (x - y)) := by
  cases d with
  | a n => exact absurd rfl (hd n)
  | _ => simp only [subOf, hz, Bool.false_eq_true, if_false]

theorem negOf_elements (hd : ∀ n, d ≠ .a n) (hz : affineZ c.sp.mode d [a] = false) :
    negOf c d a = int1 c d a (fun x => intReduce c (-x)) := by
  cases d with
  | a n => exact absurd rfl (hd n)
  | _ => simp only [negOf, hz, Bool.false_eq_true, if_false]

/-- A product is affine only where one of its sources is uniform. -/
theorem mulOf_elements (hd : ∀ n, d ≠ .a n)
    (hz : affineZ c.sp.mode d [a, b] = false ∨ (rank a ≠ 0 ∧ rank b ≠ 0)) :
    mulOf c d a b = int2 c d a b (fun x y => intReduce c (x * y)) := by
  have hn : (affineZ c.sp.mode d [a, b] && decide (rank (if rank b = 0 then (a, b) else (b, a)).2 = 0)) = false := by
    rcases hz with hz | ⟨ha, hb⟩
    · simp [hz]
    · simp [ha, hb]
  cases d with
  | a n => exact absurd rfl (hd n)
  | _ => simp only [mulOf, hn, Bool.false_eq_true, if_false]

/-- A shift is affine only where its count is uniform. -/
theorem shlOf_elements (hd : ∀ n, d ≠ .a n) (hz : affineZ c.sp.mode d [a, b] = false ∨ rank b ≠ 0) :
    shlOf c d a b = intOut c d (shiftLane c a b shiftLeft) := by
  have hn : (affineZ c.sp.mode d [a, b] && decide (rank b = 0)) = false := by
    rcases hz with hz | hb
    · simp [hz]
    · simp [hb]
  cases d with
  | a n => exact absurd rfl (hd n)
  | _ => simp only [shlOf, hn, Bool.false_eq_true, if_false]

end

/-! ### The statements -/

/-- Settles O1, instruction by instruction. -/
theorem integerResults : Obligations.IntegerResults := by
  unfold Obligations.IntegerResults
  intro s u w sp d a b
  refine ⟨fun hd => ⟨fun hz => ⟨?add, ?sub⟩, fun hz => ?neg, fun hz => ?mul⟩, ?mulhi, ?mad, ?min, ?max, ?abs⟩
  case add => exact int2_done (f := fun c x y => intReduce c (x + y)) rfl (addOf_elements hd hz)
  case sub => exact int2_done (f := fun c x y => intReduce c (x - y)) rfl (subOf_elements hd hz)
  case neg => exact int1_done (f := fun c x => intReduce c (-x)) rfl (negOf_elements hd hz)
  case mul => exact int2_done (f := fun c x y => intReduce c (x * y)) rfl (mulOf_elements hd hz)
  case mulhi => exact int2_done (f := fun c x y =>
      (wrapInt (elemBits (itype c.sp.mode)) ((x * y).fdiv ((2 ^ elemBits (itype c.sp.mode) : Nat) : Int)), 0)) rfl rfl
  case mad => exact intLane3_done (f := fun c v =>
      intReduce c (intElem c (v.getD 0 0) * intElem c (v.getD 1 0) + intElem c (v.getD 2 0))) rfl rfl
  case min => exact int2_done (f := fun c x y => (wrapInt (elemBits (itype c.sp.mode)) (if x ≤ y then x else y), 0)) rfl rfl
  case max => exact int2_done (f := fun c x y => (wrapInt (elemBits (itype c.sp.mode)) (if x ≤ y then y else x), 0)) rfl rfl
  case abs => exact int1_done (f := fun c x => intReduce c (if x < 0 then -x else x)) rfl rfl

/-- Settles O2, instruction by instruction. -/
theorem bitResults : Obligations.BitResults := by
  unfold Obligations.BitResults
  intro s u w sp d a b
  refine ⟨?dot4, ?brev, ?popc, ?clz, ?and, ?or, ?xor, ?not, ⟨fun hd hz => ?shl, ?shr, ?sra⟩, ?bfe, ?bfi⟩
  case dot4 => exact intLane3_done (f := fun c v =>
      intReduce c (dot4Sum (isSigned (itype c.sp.mode)) (v.getD 0 0) (v.getD 1 0) (v.getD 2 0))) rfl rfl
  case brev => exact bits1_done (f := fun c => revBits (elemBits (itype c.sp.mode))) rfl rfl
  case popc => exact bits1_done (f := fun c => popCount (elemBits (itype c.sp.mode))) rfl rfl
  case clz => exact bits1_done (f := fun c => leadingZeros (elemBits (itype c.sp.mode))) rfl rfl
  case and => exact bitwise_done (f := (· &&& ·)) rfl rfl
  case or => exact bitwise_done (f := (· ||| ·)) rfl rfl
  case xor => exact bitwise_done (f := (· ^^^ ·)) rfl rfl
  case not => exact lanes_done rfl rfl
  case shl => exact shift_done (f := shiftLeft) rfl (shlOf_elements hd hz)
  case shr => exact shift_done (f := shiftRight) rfl rfl
  case sra => exact shift_done (f := shiftArith) rfl rfl
  case bfe => exact lanes_done rfl rfl
  case bfi => exact lanes_done rfl rfl

end Sys2Proof.Machine.Arithmetic
end

section
/-! PROOF. Comparisons and float classes (R129, R135, R136). -/

namespace Sys2Proof.Machine.Arithmetic

/-- The masks of a packed `fclass`: one of 16 bits for each half. -/
theorem fclassOf_packed {c : Ctx} (h : packedF (ftype c.sp.mode) = true) (d a : Operand) :
    fclassOf c d a = .ok (writeLanes c d false (fun l =>
      (BitVec.ofNat 64 (elements 16 32 (fun k => (fclassE (floatEnv c) (fltAt c a l k), 0))).1, [(readF c a l).tag], 0))) := by
  simp only [fclassOf, h, if_true, fltAt]

theorem fclassOf_single {c : Ctx} (h : packedF (ftype c.sp.mode) = false) (d a : Operand) :
    fclassOf c d a = .ok (writeLanes c d false (fun l =>
      (BitVec.ofNat 64 (fclassE (floatEnv c) (readF c a l).val.toNat), [(readF c a l).tag], 0))) := by
  simp only [fclassOf, h, Bool.false_eq_true, if_false]

/-- `fclass` on single elements is done, without a flag. -/
theorem fclass_single_done {s : State} {u : Nat} {w : Wave} {sp : Split} (hp : packedF (ftype sp.mode) = false)
    (d a : Operand) : LanesDone (.fclass d a) s u w sp d false (fun c l => [(readF c a l).tag])
      (fun c l => BitVec.ofNat 64 (fclassE (floatEnv c) (readF c a l).val.toNat)) :=
  lanes_done rfl (fclassOf_single (c := ctxFor s u w sp (.fclass d a)) hp d a)

/-- `fclass` on packed elements is done, without a flag. -/
theorem fclass_packed_done {s : State} {u : Nat} {w : Wave} {sp : Split} (hp : packedF (ftype sp.mode) = true)
    (d a : Operand) :
    let c := ctxFor s u w sp (.fclass d a)
    BitsDone (.fclass d a) s u w sp d false 16 2 (fun l => [(readF c a l).tag])
      (fun l k => fclassE (floatEnv c) (fltAt c a l k)) :=
  bits_done (wd := 32) rfl (by decide) (fclassOf_packed (c := ctxFor s u w sp (.fclass d a)) hp d a)

/-- Settles O3, instruction by instruction. -/
theorem compareResults : Obligations.CompareResults := by
  unfold Obligations.CompareResults
  intro s u w sp d a b
  refine ⟨?ints, ?flts, fun h ht => ?cls⟩
  case ints =>
    dsimp only
    exact ⟨cmpInt_done (rel := fun x y => decide (x = y)) rfl rfl, cmpInt_done (rel := fun x y => decide (x ≠ y)) rfl rfl,
      cmpInt_done (rel := fun x y => decide (x < y)) rfl rfl, cmpInt_done (rel := fun x y => decide (x ≤ y)) rfl rfl⟩
  case flts =>
    dsimp only
    exact ⟨cmpFloat_done rfl rfl, cmpFloat_done rfl rfl, cmpFloat_done rfl rfl, cmpFloat_done rfl rfl⟩
  case cls =>
    cases hp : packedF (ftype sp.mode) with
    | false =>
      obtain ⟨t, g, hx, hw, hg, hstat⟩ := fclass_single_done hp d a h ht
      exact ⟨t, g, hx, hw, fun l => congrArg Prod.snd (hg l), hstat, fun _ l => congrArg Prod.fst (hg l), nofun⟩
    | true =>
      obtain ⟨t, g, hx, hw, hg, htag, hstat⟩ := fclass_packed_done hp d a h ht
      exact ⟨t, g, hx, hw, htag, hstat, nofun, fun _ => hg⟩

end Sys2Proof.Machine.Arithmetic
end

section
/-! PROOF. Float instructions on elements and complex products (R118, R130 to R134, R137). -/

namespace Sys2Proof.Machine.Arithmetic

open RegisterClasses

/-! ### What R29 leaves of an operand (R23 to R25) -/

section
variable {i : Instr} {s : State} {u : Nat} {w : Wave} {sp : Split}

/-- An instruction that issues has passed the tests of its operands and of their classes. -/
theorem operandsOk_of_ready (h : Ready i s u w sp) : operandFault i sp.mode = false ∧ classOk i sp.mode = true := by
  have hclear := h.clear
  unfold issueCause at hclear
  split at hclear
  case h_1 => nomatch hclear
  case h_2 => nomatch hclear
  case h_3 =>
    split at hclear
    case h_1 => nomatch hclear
    case h_2 =>
      split at hclear
      case isTrue => nomatch hclear
      case isFalse hop =>
        split at hclear
        case isTrue => nomatch hclear
        case isFalse =>
          split at hclear
          case isTrue => nomatch hclear
          case isFalse hcl => exact ⟨Bool.eq_false_iff.2 hop, by simpa using hcl⟩

/-- Every slot of an instruction that issues holds an operand its form accepts. -/
theorem slotOk_of_ready (h : Ready i s u w sp) {x : Slot} (hx : x ∈ slots i) : slotOk sp.mode x = true := by
  obtain ⟨hop, hcl⟩ := operandsOk_of_ready h
  simp only [classOk, Bool.and_eq_true, Bool.not_eq_true'] at hcl
  obtain ⟨⟨-, helse⟩, -⟩ := hcl
  simp only [operandFault, helse, Bool.or_eq_false_iff, Bool.not_eq_false', List.all_eq_true, Bool.and_false,
    Bool.or_false] at hop
  obtain ⟨hslots, -⟩ := hop
  exact hslots x hx

/-- A destination whose form accepts varying and uniform pairs only is one of the two. -/
theorem pairDest_of_ready {d : Operand} {rd : Bool} (hx : ⟨d, [.v, .s], .pair, rd, true⟩ ∈ slots i)
    (h : Ready i s u w sp) : (∃ n, d = .v n) ∨ ∃ n, d = .s n := by
  have hslot := slotOk_of_ready h hx
  cases d with
  | v n => exact .inl ⟨n, rfl⟩
  | s n => exact .inr ⟨n, rfl⟩
  | _ => simp [slotOk, opKind] at hslot

end

/-! ### Two halves written (R137) -/

/-- Lane results `f` written into the low register of the pair `d`, and `g` into the high one. -/
def writeHalves (c : Ctx) (d : Operand) (f g : Nat → LaneRes) : Alu :=
  let lo := writeLanes c d false f
  let hi := writeLanes { c with w := lo.w } (halfReg d 1) false g
  { w := hi.w, sticky := lo.sticky ||| hi.sticky, pairs := lo.pairs ++ hi.pairs }

theorem complexOf_halves (c : Ctx) (d a b : Operand) (plus : Bool) :
    complexOf c d a b plus = .ok (writeHalves c d (complexLane c d a b plus 0) (complexLane c d a b plus 1)) := rfl

theorem flagsOf_halfReg (d : Operand) (act : LaneMask) (skip : Bool) (h : Nat → Sticky) :
    flagsOf (halfReg d 1) act skip h = flagsOf d act skip h := by
  cases d <;> rfl

/-- The flags of both halves are raised. -/
theorem writeHalves_sticky (c : Ctx) (d : Operand) (f g : Nat → LaneRes) : (writeHalves c d f g).sticky =
    flagsOf d c.act c.skip (fun l => (f l).2.2) ||| flagsOf d c.act c.skip (fun l => (g l).2.2) := by
  unfold writeHalves
  dsimp only
  rw [writeLanes_sticky, writeLanes_sticky, flagsOf_halfReg]

/-- A write of both halves leaves the rest of the wave. -/
theorem writeHalves_rest (c : Ctx) (d : Operand) (f g : Nat → LaneRes) :
    (writeHalves c d f g).w.rest = c.w.rest ∧ (writeHalves c d f g).w.splits = c.w.splits ∧
    (writeHalves c d f g).w.wstat = c.w.wstat := by
  obtain ⟨hrest, hsplits, hstat⟩ := writeLanes_rest c d false f
  obtain ⟨hrest', hsplits', hstat'⟩ :=
    writeLanes_rest { c with w := (writeLanes c d false f).w } (halfReg d 1) false g
  exact ⟨hrest'.trans hrest, hsplits'.trans hsplits, hstat'.trans hstat⟩

/-- A write into a varying or uniform register leaves the predicates. -/
theorem writeLanes_p {d : Operand} (hd : (∃ n, d = .v n) ∨ ∃ n, d = .s n) (c : Ctx) (wide : Bool) (f : Nat → LaneRes) :
    (writeLanes c d wide f).w.p = c.w.p := by
  rcases hd with ⟨n, rfl⟩ | ⟨n, rfl⟩
  · cases wide <;> rfl
  · simp only [writeLanes]
    split
    · rfl
    · cases wide <;> rfl

/-- The registers that a write of both halves leaves. -/
theorem writeHalves_wrote {d : Operand} (hd : (∃ n, d = .v n) ∨ ∃ n, d = .s n) (c : Ctx) (f g : Nat → LaneRes) {w : Wave}
    (hv : w.v = (writeHalves c d f g).w.v) (hs : w.s = (writeHalves c d f g).w.s) (ha : w.a = (writeHalves c d f g).w.a)
    (hp : w.p = (writeHalves c d f g).w.p) :
    WroteHalves c.w w c.act c.skip d (fun l => ((f l).1, mergeTags (f l).2.1)) (fun l => ((g l).1, mergeTags (g l).2.1)) := by
  let c' : Ctx := { c with w := (writeLanes c d false f).w }
  have hlo := writeLanes_wrote c d false f
  have hhi := wrote_of_regs (writeLanes_wrote c' (halfReg d 1) false g) hv hs ha hp
  have hd' : (∃ n, halfReg d 1 = .v n) ∨ ∃ n, halfReg d 1 = .s n := by
    rcases hd with ⟨n, rfl⟩ | ⟨n, rfl⟩
    · exact .inl ⟨n + 1, rfl⟩
    · exact .inr ⟨n + 1, rfl⟩
  have hpred : w.p = c.w.p := hp.trans ((writeLanes_p hd' c' false g).trans (writeLanes_p hd c false f))
  obtain ⟨hrest, -, -⟩ := writeLanes_rest c d false f
  have hbase : c'.w.wbase = c.w.wbase := (congrArg Wave.wbase hrest :)
  rcases hd with ⟨n, rfl⟩ | ⟨n, rfl⟩
  · refine ⟨fun k l hl => ?_, fun m => (hhi.s m).trans (hlo.s m), fun m => (hhi.a m).trans (hlo.a m), pReg_of_eq hpred⟩
    rw [hhi.v k l hl, ← hlo.v k l hl]
    simp only [vAfter, halfReg, hbase, Bool.false_eq_true, false_and, and_false, if_false]
    rfl
  · refine ⟨fun k l hl => (hhi.v k l hl).trans (hlo.v k l hl), fun m => ?_, fun m => (hhi.a m).trans (hlo.a m),
      pReg_of_eq hpred⟩
    rw [hhi.s m, ← hlo.s m]
    simp only [sAfter, halfReg, Bool.false_eq_true, false_and, and_false, if_false]
    rfl

/-- An instruction that writes both halves of a pair is done. -/
theorem halves_done {i : Instr} {s : State} {u : Nat} {w : Wave} {sp : Split} {m : Ctx → Except (Cause × Word) Alu}
    {d : Operand} {f g : Ctx → Nat → LaneRes} (hx : exec i s = runAlu i s m)
    (hm : m (ctxFor s u w sp i) = .ok (writeHalves (ctxFor s u w sp i) d (f (ctxFor s u w sp i)) (g (ctxFor s u w sp i))))
    (hd : Ready i s u w sp → (∃ n, d = .v n) ∨ ∃ n, d = .s n) : HalvesDone i s u w sp d f g := by
  intro h ht
  let c := ctxFor s u w sp i
  let x := writeHalves c d (f c) (g c)
  obtain ⟨hrest, hsplits, hstat⟩ := writeHalves_rest c d (f c) (g c)
  obtain ⟨hissued, hrest', hv, hs, ha, hp, hstat'⟩ := finishBy_facts (i := i) h.split ht (apart_refl s u) x.w hsplits
    x.sticky x.pairs (fun y => stepOver y (1 + i.lits.length)) (stepOver_entry sp _)
  refine ⟨_, by rw [hx, runAlu_ready h, hm]; rfl, hissued, hrest'.trans hrest, rfl,
    writeHalves_wrote (hd h) c (f c) (g c) hv hs ha hp, hstat'.trans ?_⟩
  rw [hstat, writeHalves_sticky, BitVec.or_assoc]
  rfl

/-! ### The statement -/

/-- Settles O4, instruction by instruction. -/
theorem floatResults : Obligations.FloatResults := by
  unfold Obligations.FloatResults
  intro s u w sp d a b
  refine ⟨?add, ?sub, ?mul, ?fma, ?neg, ?abs, ?min, ?max, ?rcp, ?rsq, ?exp2, ?log2, ?sin, ?cos, ?rnd, ?cmul, ?cmad⟩
  case add => exact float2_done (f := faddE) rfl rfl
  case sub => exact float2_done (f := fsubE) rfl rfl
  case mul => exact float2_done (f := fmulE) rfl rfl
  case fma => exact elements_done rfl (floatWidth_le _) rfl
  case neg => exact float1_done (f := fun g => fsignE g false) rfl rfl
  case abs => exact float1_done (f := fun g => fsignE g true) rfl rfl
  case min => exact float2_done (f := fun g => fminmaxE g false) rfl rfl
  case max => exact float2_done (f := fun g => fminmaxE g true) rfl rfl
  case rcp => exact float1_done (f := fun g => ffunE g .rcp) rfl rfl
  case rsq => exact float1_done (f := fun g => ffunE g .rsq) rfl rfl
  case exp2 => exact float1_done (f := fun g => ffunE g .exp2) rfl rfl
  case log2 => exact float1_done (f := fun g => ffunE g .log2) rfl rfl
  case sin => exact float1_done (f := fun g => ffunE g .sin) rfl rfl
  case cos => exact float1_done (f := fun g => ffunE g .cos) rfl rfl
  case rnd => exact float1_done (f := frndE) rfl rfl
  case cmul =>
    exact halves_done rfl (complexOf_halves _ d a b false) (pairDest_of_ready (.tail _ (.tail _ (.head _))))
  case cmad =>
    exact halves_done rfl (complexOf_halves _ d a b true) (pairDest_of_ready (.tail _ (.tail _ (.head _))))

end Sys2Proof.Machine.Arithmetic
end

section
/-! PROOF. Conversions (R138 to R141). -/

namespace Sys2Proof.Machine.Arithmetic

/-! ### Integers and floats (R138) -/

section
variable {i : Instr} {s : State} {u : Nat} {w : Wave} {sp : Split} {g : Ctx → Except (Cause × Word) Alu} {d : Operand}

/-- A conversion of each element, or of the whole value where the type is not packed, is done. -/
theorem conversion_done {packed wide : Bool} {n : Nat} {x : Ctx → Nat → TVal} {conv : Nat → Nat × Sticky}
    (hx : exec i s = runAlu i s g)
    (hg : g (ctxFor s u w sp i) = .ok (writeLanes (ctxFor s u w sp i) d wide (fun l =>
      let v := x (ctxFor s u w sp i) l
      let r := if packed then elements 16 32 (fun k => conv (elemOf n k v.val)) else conv v.val.toNat
      (BitVec.ofNat 64 r.1, [v.tag], r.2)))) :
    if packed then ElementsDone i s u w sp d wide 16 2 (fun l => [(x (ctxFor s u w sp i) l).tag])
      (fun l k => conv (elemOf n k (x (ctxFor s u w sp i) l).val))
    else ResultsDone i s u w sp d wide (fun c l =>
      (BitVec.ofNat 64 (conv (x c l).val.toNat).1, [(x c l).tag], (conv (x c l).val.toNat).2)) := by
  cases packed with
  | true =>
    simp only [if_true] at hg ⊢
    exact elements_done (wd := 32) hx (by decide) hg
  | false =>
    simp only [Bool.false_eq_true, if_false] at hg ⊢
    exact results_done hx hg

end

/-! ### Between float formats (R139) -/

/-- A packed float format is 16 bits wide: its values are no pairs. -/
theorem not_f64_of_packed {t : Nat} (h : packedF t = true) : decide (t = 3) = false := by
  simp only [packedF, decide_eq_true_eq] at h
  exact decide_eq_false (by omega)

/-- A value of the mode's float type in the format that the field of `cvtff` names. -/
def reformat (c : Ctx) (m : Byte) (v : Nat) : Nat × Sticky :=
  cvtffE (fmtOf (ftype c.sp.mode)) ⟨fmtOf (m.toNat % 8), rounding c.sp.mode, ftzOn c.sp.mode⟩ v

/-- The half of a register that the field of `cvtff` names. -/
def namedHalf (m : Byte) : Nat := if m.getLsbD 4 then 1 else 0

section
variable {c : Ctx} {m : Byte} (d a : Operand)

/-- Packed to packed: each element is converted. -/
theorem cvtffOf_packed (hf : packedF (ftype c.sp.mode) = true) (ht : packedF (m.toNat % 8) = true) :
    let r (l : Nat) := elements 16 32 (fun k => reformat c m (elemOf 16 k (readF c a l).val))
    cvtffOf c d a m = .ok (writeLanes c d (decide (m.toNat % 8 = 3)) (fun l =>
      (BitVec.ofNat 64 (r l).1, [(readF c a l).tag], (r l).2))) := by
  simp only [cvtffOf, hf, ht, if_true, reformat]

/-- Packed to single: a half of A is widened. -/
theorem cvtffOf_widening (hf : packedF (ftype c.sp.mode) = true) (ht : packedF (m.toNat % 8) = false) :
    let r (l : Nat) := reformat c m (elemOf 16 (namedHalf m) (readF c a l).val)
    cvtffOf c d a m = .ok (writeLanes c d (decide (m.toNat % 8 = 3)) (fun l =>
      (BitVec.ofNat 64 (r l).1, [(readF c a l).tag], (r l).2))) := by
  simp only [cvtffOf, hf, ht, if_true, Bool.false_eq_true, if_false, reformat, namedHalf]

/-- Single to packed: a half of D takes the narrowed value, the other stands. -/
theorem cvtffOf_narrowing (hf : packedF (ftype c.sp.mode) = false) (ht : packedF (m.toNat % 8) = true) :
    let r (l : Nat) := reformat c m (readF c a l).val.toNat
    cvtffOf c d a m = .ok (writeLanes c d false (fun l =>
      (BitVec.ofNat 64 ((r l).1 * 2 ^ (16 * namedHalf m) +
          elemOf 16 (1 - namedHalf m) (read32 c d l).val * 2 ^ (16 * (1 - namedHalf m))),
        [(readF c a l).tag, (read32 c d l).tag], (r l).2))) := by
  simp only [cvtffOf, hf, ht, not_f64_of_packed ht, if_true, Bool.false_eq_true, if_false, reformat, namedHalf]

/-- Single to single: the value is converted. -/
theorem cvtffOf_single (hf : packedF (ftype c.sp.mode) = false) (ht : packedF (m.toNat % 8) = false) :
    let r (l : Nat) := reformat c m (readF c a l).val.toNat
    cvtffOf c d a m = .ok (writeLanes c d (decide (m.toNat % 8 = 3)) (fun l =>
      (BitVec.ofNat 64 (r l).1, [(readF c a l).tag], (r l).2))) := by
  simp only [cvtffOf, hf, ht, Bool.false_eq_true, if_false, reformat]

end

/-! ### Narrow values (R140, R141) -/

/-- `cvtn8` is done: field `k` of D takes the narrow value, every other field stands. -/
theorem cvtn8_done {s : State} {u : Nat} {w : Wave} {sp : Split} {d a : Operand} {m : Byte} :
    let c := ctxFor s u w sp (.cvtn8 d a m)
    let n := narrowBits m
    let k := m.toNat / 16 % 8
    let conv (l : Nat) := toNarrow (narrowOf (m.toNat % 16)) (rounding sp.mode) (satOn sp.mode) f32
      ((floatEnv c).rd (readF c a l).val.toNat)
    n * (k + 1) ≤ 32 → RegDone (.cvtn8 d a m) s u w sp d false (fun r f =>
       (∀ l, (f l).2 = mergeTags [(readF c a l).tag, (read32 c d l).tag] ∧ elemOf n k (f l).1 = (conv l).1 % 2 ^ n ∧
         ∀ j, j ≠ k → n * (j + 1) ≤ 32 → elemOf n j (f l).1 = elemOf n j (read32 c d l).val) ∧
       (waveOf r u).wstat = w.wstat ||| flagsOf d (activeMask w sp (.cvtn8 d a m))
         (decide (activeMask w sp (.cvtn8 d a m) = 0)) (fun l => (conv l).2)) := by
  intro c n k conv hk h ht
  obtain ⟨t, hx, hw, hstat⟩ := runAlu_done (g := fun c => cvtn8Of c d a m) (d := d) rfl h ht rfl
  refine ⟨t, _, hx, hw, fun l => ⟨rfl, ?_, fun j hj hj32 => ?_⟩, hstat⟩
  · exact (elemOf_insert _ _ _ _ _ (by omega)).trans (if_pos rfl)
  · exact (elemOf_insert _ _ _ _ _ (by omega)).trans (if_neg hj)

/-- Settles O5, instruction by instruction. -/
theorem conversionResults : Obligations.ConversionResults := by
  unfold Obligations.ConversionResults
  intro s u w sp d a m
  refine ⟨?cvtif, ?cvtfi, ?cvtff, cvtn8_done, results_done rfl rfl⟩
  case cvtif => exact conversion_done (x := fun c l => readI c a l) rfl rfl
  case cvtfi => exact conversion_done (x := fun c l => readF c a l) rfl rfl
  case cvtff =>
    dsimp only
    let c := ctxFor s u w sp (.cvtff d a m)
    split
    case isTrue hp =>
      obtain ⟨hf, ht⟩ := hp
      exact elements_done (wd := 32) rfl (by decide) (cvtffOf_packed (c := c) d a hf ht)
    case isFalse hp =>
      split
      case isTrue hf =>
        have ht : packedF (m.toNat % 8) = false := Bool.eq_false_iff.2 (fun ht => hp ⟨hf, ht⟩)
        exact results_done rfl (cvtffOf_widening (c := c) d a hf ht)
      case isFalse hf =>
        have hf := Bool.eq_false_iff.2 hf
        split
        case isTrue ht => exact results_done rfl (cvtffOf_narrowing (c := c) d a hf ht)
        case isFalse ht => exact results_done rfl (cvtffOf_single (c := c) d a hf (Bool.eq_false_iff.2 ht))

end Sys2Proof.Machine.Arithmetic
end

section
/-! PROOF. The check of the signature (R158): what reaching a `sigck` leaves, what any trap leaves in or outside a handler,
and the two ends of the instruction. -/

namespace Sys2Proof.Machine.ExecutionContexts

open RegisterClasses

/-! ### Reaching a `sigck` (R288, R289, R295) -/

/-- The state without the tables in which regions are counted, tried and nominated, and their events: those of the cores,
the dies and the partitions. -/
def offTables (s : State) : State := { s with cores := [], dies := [], parts := [] }

theorem trumpEvent_offTables (s : State) (die what entry region more : Nat) :
    offTables (trumpEvent s die what entry region more) = offTables s := by
  unfold trumpEvent
  split <;> rfl

theorem nominate_offTables (s : State) (die cls pa : Nat) (sp : Split) (words : List (Nat × Word)) (is : List Instr) :
    offTables (nominate s die cls pa sp words is) = offTables s := by
  unfold nominate
  dsimp only
  split
  · split
    · rfl
    · exact trumpEvent_offTables _ _ _ _ _ _
  · rfl

/-- Reaching a `sigck` ends a trial, counts its region and may nominate it; nothing outside those tables changes. -/
theorem reachSigck_offTables (s : State) (c : Ctx) : offTables (reachSigck s c) = offTables s := by
  unfold reachSigck
  extract_lets die s1 n
  have h1 : offTables s1 = offTables s := by
    unfold s1
    split <;> rfl
  clear_value s1
  split
  · exact h1
  · split
    · split
      · dsimp only
        split
        · exact (nominate_offTables _ _ _ _ _ _ _).trans h1
        · exact h1
      · exact h1
    · exact h1

section

variable (s : State) (c : Ctx)

theorem reachSigck_waves : (reachSigck s c).waves = s.waves := (congrArg State.waves (reachSigck_offTables s c) :)
theorem reachSigck_blocks : (reachSigck s c).blocks = s.blocks := (congrArg State.blocks (reachSigck_offTables s c) :)
theorem reachSigck_held : (reachSigck s c).held = s.held := (congrArg State.held (reachSigck_offTables s c) :)
theorem reachSigck_mem : (reachSigck s c).mem = s.mem := (congrArg State.mem (reachSigck_offTables s c) :)
theorem reachSigck_now : (reachSigck s c).now = s.now := (congrArg State.now (reachSigck_offTables s c) :)

end

/-! ### What any trap leaves (R334, R335, R337) -/

/-- A wave put into the state and then stopped. -/
theorem waveOf_stopWave_putWave (s : State) (u : Nat) (w : Wave) (cause : Cause) (addr detail : Nat) (tag : Tag) :
    waveOf (stopWave (putWave s u w) u cause addr detail tag) u = { w with state := .faulted } :=
  waveOf_eq (stopWave_wave (mget_mset_self _ _ _) cause addr detail tag)

/-- A trap leaves its trap registers, the registers and the effects held also where it stops a wave in its handler. -/
theorem takeTrapAt_leaves (s : State) (u : Nat) (sp : Split) (cause : Cause) (val : Word) (pc : Nat) (ns : Bool)
    (back len : Nat) : TrapLeft s (takeTrapAt s u sp cause val pc ns back len) u cause val pc ns := by
  cases hf : (waveOf s u).frame with
  | none => exact takeTrapAt_left s u sp cause val pc ns back len hf
  | some f =>
    rw [takeTrapAt_double s u sp cause val pc ns back len f hf]
    have hw := waveOf_stopWave_putWave s u (trapWave s (waveOf s u) cause val pc ns) .doubleTrap pc cause.code (trapTag cause val)
    constructor
    case regs => rw [hw]; exact regsSame_of rfl rfl rfl rfl
    case apart => exact apart_trans (putWave_apart _ _ _) (stopWave_apart _ _ _ _ _ _)
    case held => exact fun h hm => List.mem_append_left _ hm
    all_goals rw [hw]; rfl

/-- The frame of a trap keeps the signature as the trap finds it. -/
theorem takeTrapAt_frame_sig (s : State) (u : Nat) (sp : Split) (cause : Cause) (val : Word) (pc : Nat) (ns : Bool)
    (back len : Nat) (hf : (waveOf s u).frame = none) {f : Frame}
    (h : (waveOf (takeTrapAt s u sp cause val pc ns back len) u).frame = some f) : f.sig = (waveOf s u).sig := by
  by_cases hh : (gridOf s (waveOf s u).grid).launch.handler = 0
  · rw [takeTrapAt_stops s u sp cause val pc ns back len hf hh, waveOf_stopWave_putWave] at h
    exact absurd (hf.symm.trans h) (by simp)
  · rw [waveOf_eq (takeTrapAt_enters s u sp cause val pc ns back len hf hh).1] at h
    obtain rfl := Option.some.inj h
    rfl

/-! ### The two ends of `sigck` (R158) -/

/-- The wave with its signature cleared and the split of `entry` in no trial. -/
def signatureClosed (entry : Nat) (w : Wave) : Wave :=
  { w with sig := 0, splits := w.splits.map (fun y => if y.entry = entry then { y with sampled := none } else y) }

theorem signatureClosed_regs (entry : Nat) (w : Wave) : RegsSame w (signatureClosed entry w) :=
  regsSame_of rfl rfl rfl rfl

theorem splitOf_signatureClosed {entry : Nat} {w : Wave} {x : Split} (h : splitOf w entry = some x) :
    splitOf (signatureClosed entry w) entry = some { x with sampled := none } :=
  splitOf_map w.splits entry x (fun y => { y with sampled := none }) rfl h

/-- The end of an issue that does nothing leaves the effects held, the blocks and the memory. -/
theorem finishNop_stores (s : State) (c : Ctx) :
    (finishNop s c).held = s.held ∧ (finishNop s c).blocks = s.blocks ∧ (finishNop s c).mem = s.mem := ⟨rfl, rfl, rfl⟩

theorem exec_sigck (x : Word) (s : State) : exec (.sigck x) s = run (.sigck x) s (fun s1 c =>
    if c.w.sig = x then modWave (finishNop (reachSigck s1 c) c) c.uid (signatureClosed c.sp.entry)
    else trapAt (modWave (hold (reachSigck s1 c) c.uid (.suspect c.w.core) none).2 c.uid (signatureClosed c.sp.entry)) c
      .signature c.w.sig) := rfl

section

variable {s : State} {u : Nat} {w : Wave} {sp : Split} {x : Word}

/-- What the end of an issue leaves of the wave, its signature then cleared, in whatever state it ends. -/
theorem waveOf_closed {i : Instr} (s1 : State) (hs : splitOf w sp.entry = some sp) (ht : sp.trump = none) :
    let v := waveOf (modWave (finishNop s1 (ctxFor s u w sp i)) u (signatureClosed sp.entry)) u
    v.sig = 0 ∧ v.rest = w.rest ∧ RegsSame w v ∧ v.wstat = w.wstat ∧
      splitOf v sp.entry = some { nextWord sp i with sampled := none } := by
  intro v
  let step (y : Split) : Split := stepOver y (ctxFor s u w sp i).len
  have hm := finishBy_wave s1 (ctxFor s u w sp i) w 0 [] step
  have hv : v = signatureClosed sp.entry (waveOf (finishNop s1 (ctxFor s u w sp i)) u) :=
    (waveOf_modWave _ hm).trans (congrArg _ (waveOf_eq hm).symm)
  obtain ⟨regV, regS, regA, regP, hstat⟩ := finishBy_regs s1 (ctxFor s u w sp i) w 0 [] step ht
  rw [hv]
  exact ⟨rfl, finishBy_rest s1 (ctxFor s u w sp i) w 0 [] step,
    regsSame_trans (regsSame_of regV regS regA regP) (signatureClosed_regs _ _), hstat.trans BitVec.or_zero,
    splitOf_signatureClosed (splitOf_finishBy s1 (ctxFor s u w sp i) w 0 [] step hs (stepOver_entry sp _))⟩

/-- The signature agrees: the issue ends at the next word and leaves the signature cleared. -/
theorem sigck_agrees (hr : Ready (.sigck x) s u w sp) (ht : sp.trump = none) (hx : w.sig = x) :
    ∃ t, exec (.sigck x) s = .next t ∧ (waveOf t u).sig = 0 ∧ (waveOf t u).rest = w.rest ∧
      RegsSame w (waveOf t u) ∧ (waveOf t u).wstat = w.wstat ∧
      splitOf (waveOf t u) sp.entry = some { nextWord sp (.sigck x) with sampled := none } ∧ t.held = s.held ∧
      t.blocks = s.blocks ∧ ∀ a, memGet t.mem a = memGet s.mem a := by
  let c := ctxFor s u w sp (.sigck x)
  let t := modWave (finishNop (reachSigck s c) c) u (signatureClosed sp.entry)
  obtain ⟨hsig, hrest, hregs, hstat, hsplit⟩ := waveOf_closed (i := .sigck x) (reachSigck s c) hr.split ht
  obtain ⟨hheld, hblocks, hmem⟩ := finishNop_stores (reachSigck s c) c
  exact ⟨t, (exec_sigck x s).trans ((run_ready hr _).trans (congrArg _ (if_pos hx))), hsig, hrest, hregs, hstat,
    hsplit, (modWave_held _ _ _).trans (hheld.trans (reachSigck_held s c)),
    (modWave_blocks _ _ _).trans (hblocks.trans (reachSigck_blocks s c)),
    fun a => congrArg (memGet · a) ((modWave_mem _ _ _).trans (hmem.trans (reachSigck_mem s c)))⟩

/-- The signature differs: the core's loss of trust is held, the signature is cleared, and the instruction traps with the
signature that was compared. -/
theorem sigck_differs (hr : Ready (.sigck x) s u w sp) (hx : w.sig ≠ x) :
    ∃ t, exec (.sigck x) s = .next t ∧ (waveOf t u).trapc = BitVec.ofNat 17 Cause.signature.code ∧
      (waveOf t u).trappc = sp.pc ∧ (waveOf t u).trapval = w.sig ∧ RegsSame w (waveOf t u) ∧
      (∀ f, (waveOf t u).frame = some f → w.frame = none → f.sig = 0) ∧
      ∃ h ∈ t.held, h.eff = .suspect w.core ∧ h.due = s.now + Config.holdback := by
  let c := ctxFor s u w sp (.sigck x)
  let s1 := (hold (reachSigck s c) u (.suspect w.core) none).2
  let s2 := charge (modWave s1 u (signatureClosed sp.entry)) c
  have hwave : waveOf s2 u = signatureClosed sp.entry w :=
    waveOf_modWave (s := s1) _ ((congrArg (mget · u) (reachSigck_waves s c)).trans hr.wave)
  obtain ⟨trapc, trappc, trapval, regs, -, -, -, held⟩ :=
    takeTrapAt_leaves s2 u sp .signature w.sig sp.pc false sp.pc c.len
  rw [hwave] at regs
  refine ⟨takeTrapAt s2 u sp .signature w.sig sp.pc false sp.pc c.len,
    (exec_sigck x s).trans ((run_ready hr _).trans (congrArg _ (if_neg hx))), trapc, trappc, trapval,
    regsSame_trans (signatureClosed_regs _ _) regs, ?_, ?_⟩
  · intro f hf hnone
    have hout : (waveOf s2 u).frame = none := (congrArg Wave.frame hwave).trans hnone
    exact (takeTrapAt_frame_sig _ _ _ _ _ _ _ _ _ hout hf).trans (congrArg Wave.sig hwave)
  · exact ⟨_, held _ (List.mem_append_right _ (List.mem_singleton_self _)), rfl,
      congrArg (· + Config.holdback) (reachSigck_now s c)⟩

end

/-- Settles O16, by whether the signature agrees with the literal. -/
theorem signatureCheck : Obligations.SignatureCheck := by
  unfold Obligations.SignatureCheck
  intro s u w sp x hr ht
  exact ⟨sigck_agrees hr ht, sigck_differs hr⟩

end Sys2Proof.Machine.ExecutionContexts
end

section
/-! PROOF. `dput`, `dtake` and `sdwait` (R282 to R285): the deck that no set holds traps first; then the die's buffer, the
queue or the report is waited for. -/

namespace Sys2Proof.Machine.QueuesAndCopies

open NumberFormats ExecutionContexts

/-! ### `dput` -/

/-- `dput` of register quad `n` once its decks are consumed. -/
def putFrom (n : Nat) (b : Operand) (s : State) (c : Ctx) : State :=
  let deck (l : Nat) : Nat := (read32 c b l).val.toNat
  match (lanesOf c.act).find? (fun l => !deckOk s c (deck l)) with
  | some l => trapAt s c .illegalDeck (BitVec.ofNat 32 (if decide (rank b = 0) then deck l else l))
  | none =>
    if 4096 < inFlight s c.w.part (dieOfCore c.w.core) + laneTotal c.act then stall s c.uid
    else if c.act = 0 then finishNop s c
    else finishNop (hold s c.uid (.deckPut ((lanesOf c.act).map (fun l => (deck l, itemWords c (.v n) l)))) none).2 c

theorem exec_dput (n : Nat) (b : Operand) (s : State) : exec (.dput (.v n) b) s = run (.dput (.v n) b) s (fun s1 c =>
    consumeThen s1 c (c.sp.mask &&& c.w.live) (fun l => [(read32 c b l).tag]) (decide (rank b = 0)) (putFrom n b)) := rfl

section
variable {s : State} {u n : Nat} {w : Wave} {sp : Split} {b : Operand}

/-- The decks of `dput`, clean in every lane of the split, are consumed without effect. -/
theorem dput_clean (hc : ∀ l ∈ lanesOf (sp.mask &&& w.live), (read32 (ctxFor s u w sp (.dput (.v n) b)) b l).tag = .clean) :
    let c := ctxFor s u w sp (.dput (.v n) b)
    consumeThen s c (c.sp.mask &&& c.w.live) (fun l => [(read32 c b l).tag]) (decide (rank b = 0)) (putFrom n b) =
      putFrom n b s c := by
  intro c
  refine consumeThen_clean s c _ _ _ _ fun l hl t ht => ?_
  rw [List.mem_singleton.1 ht]
  exact hc l hl

theorem putFrom_outside {c : Ctx} {l : Nat}
    (hl : (lanesOf c.act).find? (fun l => !deckOk s c (read32 c b l).val.toNat) = some l) :
    putFrom n b s c = trapAt s c .illegalDeck (BitVec.ofNat 32 (if rank b = 0 then (read32 c b l).val.toNat else l)) := by
  simp only [putFrom, hl, decide_eq_true_eq]

/-- Where every lane names a deck of the set, the items wait for room, and are held unless there are none. -/
theorem putFrom_inside {c : Ctx} (hin : ∀ l ∈ lanesOf c.act, deckOk s c (read32 c b l).val.toNat = true) :
    putFrom n b s c =
      if 4096 < inFlight s c.w.part (dieOfCore c.w.core) + laneTotal c.act then stall s c.uid
      else if c.act = 0 then finishNop s c
      else finishNop (hold s c.uid (.deckPut ((lanesOf c.act).map (fun l =>
        ((read32 c b l).val.toNat, itemWords c (.v n) l)))) none).2 c := by
  have hnone : (lanesOf c.act).find? (fun l => !deckOk s c (read32 c b l).val.toNat) = none :=
    List.find?_eq_none.2 fun l hl => by simp [hin l hl]
  simp only [putFrom, hnone]

/-- `dput` with clean decks: it traps, waits for the die's buffer, does nothing with no lane, or holds its items. -/
theorem dput_items :
    let i : Instr := .dput (.v n) b
    let c := ctxFor s u w sp i
    let lanes := lanesOf (activeMask w sp i)
    let inSet (d : Nat) : Bool := decide (d < 64) && (gridOf s w.grid).launch.decks.getLsbD d
    let deck (l : Nat) : Nat := (read32 c b l).val.toNat
    (∀ l ∈ lanesOf (sp.mask &&& w.live), (read32 c b l).tag = .clean) →
    (∀ l, lanes.find? (fun l => !inSet (deck l)) = some l →
      Traps i s u w sp .illegalDeck (BitVec.ofNat 32 (if rank b = 0 then deck l else l))) ∧
    ((∀ l ∈ lanes, inSet (deck l) = true) →
      (4096 < inFlight s w.part (dieOfCore w.core) + lanes.length → Waits i s u w sp) ∧
      (inFlight s w.part (dieOfCore w.core) + lanes.length ≤ 4096 →
        (lanes = [] → DoneNext i s u w sp w []) ∧
        (lanes ≠ [] → DoneNext i s u w sp w [.deckPut (lanes.map (fun l => (deck l, itemWords c (.v n) l)))]))) := by
  intro i c lanes inSet deck hc
  have hx := exec_dput n b s
  have hclean := dput_clean hc
  refine ⟨fun l hl => traps_of hx (hclean.trans (putFrom_outside hl)), fun hin => ?_⟩
  have hput := hclean.trans (putFrom_inside hin)
  refine ⟨fun hfull => waits_of hx (hput.trans (if_pos hfull)), fun hroom => ?_⟩
  have hgo := hput.trans (if_neg (Nat.not_lt.2 hroom))
  exact ⟨fun h => doneNext_plain hx w (hgo.trans (if_pos (lanesOf_eq_nil.1 h))) rfl,
    fun h => doneNext_hold hx w (hgo.trans (if_neg (mt lanesOf_eq_nil.2 h))) rfl⟩

end

/-! ### `dtake` -/

/-- `dtake` once its deck is consumed. -/
def takeFrom (p n : Nat) (b : Operand) (s : State) (c : Ctx) : State :=
  let deck := (readU c b).toNat
  if !deckOk s c deck then trapAt s c .illegalDeck (BitVec.ofNat 32 deck)
  else withPlaces s c [6] (fun s1 =>
    startEngine (dropDrawn s1 c).2.1 (dropDrawn s1 c).2.2 6 (.take deck p (c.w.wbase + n) (lanesOf c.act)) false)

theorem exec_dtake (p n : Nat) (b : Operand) (s : State) : exec (.dtake (.p p) (.v n) b) s =
    run (.dtake (.p p) (.v n) b) s (fun s1 c => consumeAll s1 c [tagU c b false] (takeFrom p n b)) := rfl

/-- What a wave has drawn has no part in the end of an issue. -/
theorem finish_withDrawn (s : State) (c : Ctx) (d : Map Nat) (w : Wave) (st : Sticky) (ps : List (Nat × Nat)) :
    finish s { c with w := { c.w with drawn := d } } w st ps = finish s c w st ps := rfl

/-- A request of `qg` that follows the held release of what the wave had drawn (R284, R285). -/
theorem taken_begun {i : Instr} {s : State} {u : Nat} {w : Wave} {sp : Split} {k : State → Ctx → State} {work : Work}
    (hx : exec i s = run i s k) (hk : k s (ctxFor s u w sp i) = startEngine (dropDrawn s (ctxFor s u w sp i)).2.1
      (dropDrawn s (ctxFor s u w sp i)).2.2 6 work false) (hr : Ready i s u w sp) (ht : sp.trump = none) :
    ∃ t o e, exec i s = .next t ∧
      Ends i s t u w sp (nextWord sp i) (addOp { w with drawn := [] } o) [.deckRelease w.drawn, .enter 6 e] ∧
      o.flag = flagOf sp i ∧ o.queue = some 6 ∧ e.work = work ∧ e.wave = u ∧ e.block = w.block ∧ e.pkr = w.pkr ∧
      e.ops = [(u, o.id)] := by
  let c : Ctx := { ctxFor s u w sp i with w := { w with drawn := [] } }
  let s0 := (hold s u (.deckRelease w.drawn) none).2
  let o := engineOp c s0.nextId 6 (destRegs c)
  let e := entryFor { s0 with nextId := s0.nextId + 1 } c work [(u, o.id)]
  let s1 := takePlace { s0 with nextId := s0.nextId + 1 + 1 } w.core 6 e.id w.block
  let s2 := (hold s1 u (.enter 6 e) (some o.id)).2
  have hexec : exec i s = .next (finish s2 (ctxFor s u w sp i) (addOp { w with drawn := [] } o) 0 []) := by
    rw [hx, run_ready hr, hk]
    exact congrArg _ (finish_withDrawn s2 (ctxFor s u w sp i) [] _ 0 [])
  have hs0 : Holds s s0 u [.deckRelease w.drawn] := holds_one rfl rfl rfl rfl
  have hs2 : Holds s s2 u [.deckRelease w.drawn, .enter 6 e] := holds_app (s1 := s1) hs0 rfl rfl rfl
  have hapart : Apart s s2 u := apart_trans (hold_apart s u u _ _)
    (apart_trans (apart_trans (nextId_apart s0 _ u) (modCore_apart _ _ _ _)) (hold_apart s1 u u _ _))
  exact ⟨_, o, e, hexec, ends_finish hr ht hapart (addOp { w with drawn := [] } o) rfl hs2, rfl, rfl, rfl, rfl, rfl, rfl, rfl⟩

/-- `dtake` with a clean deck: it traps, waits for a place in `qg`, or begins its request. -/
theorem dtake_request {s : State} {u p n : Nat} {w : Wave} {sp : Split} {b : Operand}
    (hc : CleanU (.dtake (.p p) (.v n) b) s u w sp [(b, false)]) :
    let i : Instr := .dtake (.p p) (.v n) b
    let deck := (readU (ctxFor s u w sp i) b).toNat
    let inSet (d : Nat) : Bool := decide (d < 64) && (gridOf s w.grid).launch.decks.getLsbD d
    (inSet deck = false → Traps i s u w sp .illegalDeck (BitVec.ofNat 32 deck)) ∧
    (inSet deck = true → queueRoom s w 6 = false → Waits i s u w sp) ∧
    (inSet deck = true → queueRoom s w 6 = true → Ready i s u w sp → sp.trump = none → ∃ t o e, exec i s = .next t ∧
      Ends i s t u w sp (nextWord sp i) (addOp { w with drawn := [] } o) [.deckRelease w.drawn, .enter 6 e] ∧
      o.flag = flagOf sp i ∧ o.queue = some 6 ∧ e.work = .take deck p (w.wbase + n) (lanesOf (activeMask w sp i)) ∧
      e.wave = u ∧ e.block = w.block ∧ e.pkr = w.pkr ∧ e.ops = [(u, o.id)]) := by
  intro i deck inSet
  have hx := exec_dtake p n b s
  have hclean := clean1 hc s (takeFrom p n b)
  have hall : [6].all (queueRoom s w) = queueRoom s w 6 := Bool.and_true _
  have hin (h : inSet deck = true) : ¬ (!deckOk s (ctxFor s u w sp i) deck) = true := by
    rw [show deckOk s (ctxFor s u w sp i) deck = true from h]
    decide
  refine ⟨fun h => traps_of hx (hclean.trans (if_pos ?_)),
    fun h hroom => waits_of hx (hclean.trans ((if_neg (hin h)).trans (if_neg ?_))),
    fun h hroom => taken_begun hx (hclean.trans ((if_neg (hin h)).trans (if_pos ?_)))⟩
  · rw [show deckOk s (ctxFor s u w sp i) deck = false from h]
    rfl
  · rw [show [6].all (queueRoom s (ctxFor s u w sp i).w) = false from hall.trans hroom]
    decide
  · exact hall.trans hroom

/-! ### `sdwait` -/

/-- `sdwait` once its set is consumed. -/
def awaitFrom (a : Operand) (s : State) (c : Ctx) : State :=
  match allLanes.find? (fun d => (readUPair c a).getLsbD d && !deckOk s c d) with
  | some d => trapAt s c .illegalDeck (BitVec.ofNat 32 d)
  | none => finishPark (dropDrawn s c).2.1 (dropDrawn s c).2.2 (dropDrawn s c).2.2.w
      (.decks (readUPair c a) (dropDrawn s c).1 false) none

theorem exec_sdwait (a : Operand) (s : State) : exec (.sdwait a) s = run (.sdwait a) s (fun s1 c =>
    consumeAll s1 c [tagU c a true] (awaitFrom a)) := rfl

section
variable {s : State} {c : Ctx} {a : Operand}

theorem awaitFrom_outside {d : Nat} (h : allLanes.find? (fun d => (readUPair c a).getLsbD d && !deckOk s c d) = some d) :
    awaitFrom a s c = trapAt s c .illegalDeck (BitVec.ofNat 32 d) := by
  simp only [awaitFrom, h]

theorem awaitFrom_inside (h : allLanes.find? (fun d => (readUPair c a).getLsbD d && !deckOk s c d) = none) :
    awaitFrom a s c = finishPark (hold s c.uid (.deckRelease c.w.drawn) none).2 c { c.w with drawn := [] }
      (.decks (readUPair c a) s.nextId false) none := by
  simp only [awaitFrom, h]
  rfl

end

/-- `sdwait` with a clean set: it traps at the lowest deck outside the grid's set, or parks behind its own release. -/
theorem sdwait_parks {s : State} {u : Nat} {w : Wave} {sp : Split} {a : Operand}
    (hc : CleanU (.sdwait a) s u w sp [(a, true)]) :
    let i : Instr := .sdwait a
    let set := readUPair (ctxFor s u w sp i) a
    let inSet (d : Nat) : Bool := decide (d < 64) && (gridOf s w.grid).launch.decks.getLsbD d
    (∀ x, (List.range 64).find? (fun d => set.getLsbD d && !inSet d) = some x →
      Traps i s u w sp .illegalDeck (BitVec.ofNat 32 x)) ∧
    ((∀ d, d < 64 → set.getLsbD d = true → inSet d = true) →
      Done i s u w sp (parkedAt sp i (.decks set s.nextId false) none) { w with drawn := [] } [.deckRelease w.drawn]) := by
  intro i set inSet
  have hx := exec_sdwait a s
  have hclean := clean1 hc s (awaitFrom a)
  refine ⟨fun x h => traps_of hx (hclean.trans (awaitFrom_outside h)), fun h => ?_⟩
  refine done_hold hx { w with drawn := [] } _ (hclean.trans (awaitFrom_inside (List.find?_eq_none.2 fun d hd hbad => ?_)))
    rfl rfl
  obtain ⟨hset, hout⟩ := (Bool.and_eq_true _ _).mp hbad
  rw [show deckOk s (ctxFor s u w sp i) d = true from h d ((mem_allLanes d).1 hd) hset] at hout
  exact absurd hout (by decide)

/-- Settles O43: the three instructions of decks in turn. -/
theorem decks : Obligations.Decks := by
  unfold Obligations.Decks
  intro s u w sp a b n p inSet
  exact ⟨dput_items, dtake_request, sdwait_parks⟩

end Sys2Proof.Machine.QueuesAndCopies
end

section
/-! PROOF. A slice whose block is not in the state is recorded nowhere (R172), while the statement says that the block lists
it. -/

namespace Sys2Proof.Machine.QueuesAndCopies

open NumberFormats ExecutionContexts

/-- A wave of block 1, its registers a request of 0 bytes with the plain layout. -/
def slicingWave : Wave := { splits := [waitingSplit], block := some 1 }

/-- The wave about to issue in a state without blocks. -/
def blocklessState : State := { State.reset with cur := some (10, 0), waves := [(10, slicingWave)] }

theorem bcpin_ready : Ready (.bcpin (.q 0) (.s 0)) blocklessState 10 slicingWave waitingSplit where
  cur := rfl
  wave := rfl
  split := by decide
  free := by decide
  room := by decide
  clear := by decide
  guard := .inl (by decide)

/-- A supplied slice leaves the blocks' list as it is where its block is not in it. -/
theorem supplySlice_blocks {s : State} {k : Nat} (hk : mget s.blocks k = none) (c : Ctx) (q : Nat) (x : Collective)
    (r : CopyReq) : (supplySlice s c k q x r).blocks = s.blocks := by
  show mmod s.blocks k _ = s.blocks
  simp only [mmod, hk]

/-- The slice issues: it opens a collective, its request passing every check, and no block is there to take it. -/
theorem bcpin_lost : ∃ t, exec (.bcpin (.q 0) (.s 0)) blocklessState = .next t ∧ t.blocks = [] := by
  let c := ctxFor blocklessState 10 slicingWave waitingSplit (.bcpin (.q 0) (.s 0))
  let x : Collective := { id := 0, out := false, count := 0, counted := [], slices := [] }
  have hslice : startSlice (.q 0) (.s 0) false blocklessState c = supplySlice
      (takePlace { blocklessState with nextId := 1 } 0 0 0 (some 1)) c 1 0 x (requestAt slicingWave 0) :=
    (copyThen_clean (n := 0) (by decide) (by decide) _).trans (by
      rw [show (requestChecks slicingWave 0).find? (·.1) = none by decide]
      rfl)
  exact ⟨_, (run_ready bcpin_ready _).trans (congrArg _ hslice), supplySlice_blocks rfl _ _ _ _⟩

/-- Refutes O40: the first slice of a collective issues from a wave whose block the state does not list, and is in no block's
open collectives then; the statement has no hypothesis that the block is there. -/
theorem not_blockCopies : ¬ Obligations.BlockCopies := by
  unfold Obligations.BlockCopies
  intro h
  obtain ⟨-, hattached⟩ := h blocklessState 10 slicingWave waitingSplit 0 0 1 (.bcpin (.q 0) (.s 0)) false (.inl ⟨rfl, rfl⟩)
  obtain ⟨-, hpasses⟩ := hattached rfl (by decide)
  obtain ⟨-, hopens⟩ := hpasses (by decide)
  obtain ⟨t, hexec, o, y, hlisted, -⟩ := (hopens rfl).2 (by decide) bcpin_ready rfl
  obtain ⟨t', hexec', hblocks⟩ := bcpin_lost
  cases hexec.symm.trans hexec'
  rw [blockOf, hblocks] at hlisted
  exact Option.some_ne_none y hlisted.symm

end Sys2Proof.Machine.QueuesAndCopies
end

section
/-! SUPPORT. The entry at the head of an engine queue begins its work (R161): the state it begins in, what its core, its
writes and its queue are afterwards. -/

namespace Sys2Proof.Machine.QueuesAndCopies

open NumberFormats ExecutionContexts

/-! ### Beside memory -/

/-- Everything but memory, the writes on their way to it and the tags. -/
structure SameBesideMemory (s t : State) : Prop where
  held : t.held = s.held
  blocks : t.blocks = s.blocks
  parts : t.parts = s.parts
  grids : t.grids = s.grids
  ctxs : t.ctxs = s.ctxs
  waves : t.waves = s.waves
  upsets : t.upsets = s.upsets
  now : t.now = s.now

theorem syncTo_same (s : State) (d : Nat) (clock : List Nat) : SameBesideMemory s (syncTo s d clock) := by
  have h := syncTo_beside s d clock
  have field {α : Type} (f : State → α) : f (besideMemory (syncTo s d clock)) = f (besideMemory s) := congrArg f h
  exact ⟨field State.held, field State.blocks, field State.parts, field State.grids, field State.ctxs, field State.waves,
    field State.upsets, field State.now⟩

theorem syncTo_cores (s : State) (d : Nat) (clock : List Nat) : (syncTo s d clock).cores = s.cores :=
  (congrArg State.cores (syncTo_beside s d clock) : (besideMemory (syncTo s d clock)).cores = (besideMemory s).cores)

/-! ### The entry at the head -/

/-- Entry `e` heads queue `q` of core `c`, waits to do its work, and may do it now. -/
structure MayPerform (s : State) (c q : Nat) (e : Entry) (rest : List Entry) : Prop where
  head : (queueAt (coreOf s c) q).entries = e :: rest
  waits : e.stage = .waiting
  ready : e.ready ≤ s.now
  runs : coreStalled s c = false

/-- What precedes an entry: its request, and what the queue's older entries wrote. -/
def entryClock (s : State) (c q : Nat) (e : Entry) : List Nat := clockJoin e.clock (queueAt (coreOf s c) q).clock

/-- The state in which what precedes an entry is in its die's view. -/
def synced (s : State) (c q : Nat) (e : Entry) : State := syncTo s (dieOfCore c) (entryClock s c q e)

/-- The state in which an entry does its work. -/
def begun (s : State) (c q : Nat) (e : Entry) : State :=
  modEntryOf (synced s c q e) c q e.id (fun z => { z with clock := entryClock s c q e })

/-- The state in which a copy or gather has read its places, and found the errors there. -/
def afterReading (s : State) (c q : Nat) (e : Entry) (run : State → Produced) : State :=
  readPlaces (begun s c q e) (ctxOf s e.ctx).part (run (begun s c q e)).reads

/-- The state in which a multiply has read its matrix state. -/
def afterMatrix (s : State) (c q : Nat) (e : Entry) : State :=
  (e.block.getD 0 :: (partnerOf (begun s c q e) (e.block.getD 0)).toList).foldl findMatrix (begun s c q e)

/-- What an entry that may do its work leaves, if it can be done. -/
def workDone (s : State) (c q : Nat) (e : Entry) : Option State :=
  match e.work with
  | .copy out reqs =>
    let s1 := afterReading s c q e (fun s => copyAll s c e out reqs)
    some (produced s1 c q e e.pkr (copyAll s1 c e out reqs))
  | .gather size off ls =>
    let s1 := afterReading s c q e (fun s => gatherRun s c e size off ls)
    some (produced s1 c q e e.pkr (gatherRun s1 c e size off ls))
  | .mma _ _ _ _ _ _ _ _ => if mmaMay s c e then some (mmaStart (afterMatrix s c q e) c e) else none
  | .marker _ => none
  | .drain p n => performRound (begun s c q e) c e p n
  | .take deck p v lanes =>
    let r := drawItems (begun s c q e) (ctxOf (begun s c q e) e.ctx).part e.wave deck p v lanes
    some (modEntryOf r.1 c q e.id (readyWith s e 0 r.2.1 r.2.2))

theorem exec_perform {s t : State} {c q : Nat} {e : Entry} {rest : List Entry} (h : MayPerform s c q e rest)
    (ht : workDone s c q e = some t) : exec (.engineEntryPerform c q) s = .next t := by
  have hgo : ¬ (e.stage ≠ .waiting ∨ s.now < e.ready ∨ coreStalled s c = true) := by
    rw [h.waits, h.runs]
    simp [h.ready]
  show execEngineEntryPerform c q s = _
  unfold execEngineEntryPerform
  simp only [h.head]
  rw [if_neg hgo]
  unfold workDone at ht
  cases hw : e.work <;> simp only [hw] at ht ⊢
  case copy => exact congrArg _ (Option.some.inj ht)
  case gather => exact congrArg _ (Option.some.inj ht)
  case take => exact congrArg _ (Option.some.inj ht)
  case marker => cases ht
  case mma =>
    by_cases hm : mmaMay s c e = true
    · rw [if_pos hm] at ht ⊢
      exact congrArg _ (Option.some.inj ht)
    · rw [if_neg hm] at ht
      cases ht
  case drain p n =>
    have hr : performRound (begun s c q e) c e p n = some t := ht
    unfold begun synced entryClock at hr
    rw [hr]

/-! ### Entries of a queue -/

theorem queueAt_setQueue (x : Core) (q : Nat) (y : Queue) (j : Nat) :
    queueAt (setQueue x q y) j = if j = q then y else queueAt x j := nth_nthSet _ _ _ _ _

/-- A change of a queue of a core. -/
theorem queueAt_modCore (s : State) (c q : Nat) (f : Core → Queue) :
    queueAt (coreOf (modCore s c (fun x => setQueue x q (f x))) c) q = f (coreOf s c) := by
  rw [coreOf_modCore, queueAt_setQueue, if_pos rfl]

/-- The entries of a queue after those of a number were changed. -/
theorem entries_modEntryOf (s : State) (c q id : Nat) (f : Entry → Entry) :
    (queueAt (coreOf (modEntryOf s c q id f) c) q).entries =
      (queueAt (coreOf s c) q).entries.map (fun z => if z.id = id then f z else z) :=
  congrArg Queue.entries (queueAt_modCore s c q _)

/-- Every entry numbered `id` has been changed by `f`, which keeps numbers. -/
theorem mem_changed {l : List Entry} {id : Nat} {f : Entry → Entry} {P : Entry → Prop} (hf : ∀ z, P (f z)) :
    ∀ z ∈ l.map (fun z => if z.id = id then f z else z), z.id = id → P z := by
  intro z hz hid
  obtain ⟨y, -, rfl⟩ := List.mem_map.1 hz
  by_cases h : y.id = id
  · rw [if_pos h]
    exact hf y
  · rw [if_neg h] at hid
    exact absurd hid h

theorem begun_same (s : State) (c q : Nat) (e : Entry) : SameBesideMemory s (begun s c q e) := by
  obtain ⟨h1, h2, h3, h4, h5, h6, h7, h8⟩ := syncTo_same s (dieOfCore c) (entryClock s c q e)
  exact ⟨h1, h2, h3, h4, h5, h6, h7, h8⟩

/-- The head entry as it stands while it does its work. -/
theorem begun_entries {s : State} {c q : Nat} {e : Entry} {rest : List Entry} (h : MayPerform s c q e rest) :
    ∃ rest', (queueAt (coreOf (begun s c q e) c) q).entries = { e with clock := entryClock s c q e } :: rest' := by
  have hsync : coreOf (synced s c q e) c = coreOf s c :=
    congrArg (mgetD · c ({} : Core)) (syncTo_cores s (dieOfCore c) (entryClock s c q e))
  have hmap := entries_modEntryOf (synced s c q e) c q e.id (fun z => { z with clock := entryClock s c q e })
  rw [hsync, h.head, List.map_cons, if_pos rfl] at hmap
  exact ⟨_, hmap⟩

end Sys2Proof.Machine.QueuesAndCopies
end

section
/-! SUPPORT. Reading finds errors and records them (R184, R185, R311, R320): the held effects, memory, the grids and the
blocks' partners stand. -/

namespace Sys2Proof.Machine.QueuesAndCopies

open NumberFormats ExecutionContexts

/-- What a search for errors leaves: the held effects, memory, the grids, and each block's grid and partner. -/
def searchView (s : State) : List Held × List Host.Cell × Map Grid × (Nat → Nat × Option Nat) :=
  (s.held, s.mem, s.grids, fun k => ((blockOf s k).grid, (blockOf s k).partner))

/-- A block changed in other fields keeps its grid and partner. -/
theorem modBlock_search (s : State) (k : Nat) (f : Block → Block) (hg : ∀ b, (f b).grid = b.grid)
    (hp : ∀ b, (f b).partner = b.partner) : searchView (modBlock s k f) = searchView s := by
  refine congrArg (fun z => (s.held, s.mem, s.grids, z)) (funext fun j => ?_)
  show ((mgetD (mmod s.blocks k f) j {}).grid, (mgetD (mmod s.blocks k f) j {}).partner) =
    ((mgetD s.blocks j {}).grid, (mgetD s.blocks j {}).partner)
  unfold mgetD
  rw [mget_mmod]
  split
  · next h =>
    subst h
    cases mget s.blocks j with
    | none => rfl
    | some b => exact Prod.ext (hg b) (hp b)
  · rfl

theorem postEvent_search (s : State) (p : Nat) (e : Event) : searchView (postEvent s p e) = searchView s := rfl

theorem modCore_search (s : State) (c : Nat) (f : Core → Core) : searchView (modCore s c f) = searchView s := rfl

theorem findMemory_search (part : Nat) (s : State) (g : Nat) : searchView (findMemory part s g) = searchView s := by
  unfold findMemory
  split <;> rfl

theorem findReg_search (s : State) (u : Nat) (r : RegRef) (l : Nat) : searchView (findReg s u r l) = searchView s := by
  unfold findReg
  split <;> rfl

theorem findTile_search (s : State) (k g : Nat) : searchView (findTile s k g) = searchView s := by
  unfold findTile
  split
  · rfl
  · refine (modBlock_search _ k _ ?_ ?_).trans rfl <;> exact fun _ => rfl

theorem findAcc_search (s : State) (k n : Nat) : searchView (findAcc s k n) = searchView s := by
  unfold findAcc
  split
  · rfl
  · refine (modBlock_search _ k _ ?_ ?_).trans rfl <;> exact fun _ => rfl

theorem findAt_search (part : Nat) (s : State) (x : EngineDest × Nat) : searchView (findAt part s x) = searchView s := by
  unfold findAt
  split
  · exact findMemory_search _ _ _
  · rfl
  · exact findTile_search _ _ _
  · exact findAcc_search _ _ _
  · exact findReg_search _ _ _ _

theorem findMatrix_search (s : State) (k : Nat) : searchView (findMatrix s k) = searchView s := by
  refine foldl_kept searchView _ (fun t y => ?_) _ s
  split
  · split
    · exact findTile_search _ _ _
    · rfl
  · split
    · exact findAcc_search _ _ _
    · rfl
  · rfl

theorem judgeBanks_search (s : State) (part core : Nat) (banks : List Nat) :
    searchView (judgeBanks s part core banks) = searchView s := by
  refine foldl_kept searchView _ (fun t k => ?_) _ s
  dsimp only
  split
  · rfl
  · split
    · rfl
    · split
      · rfl
      · unfold suspectCore
        split <;> rfl

theorem readRowFor_search (scrub : Bool) (s : State) (k row : Nat) : searchView (readRowFor scrub s k row) = searchView s := by
  unfold readRowFor
  dsimp only
  split
  · rfl
  · generalize (if scrub = true then (rowDecoded (coreOf s (blockOf s k).core) (blockOf s k) row).filter (fun x => x.2.isSome)
      else rowDecoded (coreOf s (blockOf s k).core) (blockOf s k) row) = seen
    split
    · rw [postEvent_search, modBlock_search, judgeBanks_search, modCore_search] <;> intro b <;> rfl
    · refine (foldl_kept searchView _ (fun t g => ?_) _ _).trans ?_
      · rw [postEvent_search, modBlock_search]
        · rfl
        · intro b; rfl
        · intro b; rfl
      · rw [modBlock_search, judgeBanks_search, modCore_search] <;> intro b <;> rfl

theorem readRows_search (s : State) (k : Nat) (offs : List Nat) : searchView (readRows s k offs) = searchView s :=
  foldl_kept searchView _ (fun t r => readRowFor_search false t k r) _ s

theorem readPlaces_search (s : State) (part : Nat) (l : List (EngineDest × Nat)) :
    searchView (readPlaces s part l) = searchView s := by
  unfold readPlaces
  refine (foldl_kept searchView _ (fun t k => readRows_search t k _) _ _).trans ?_
  split
  · rfl
  · exact foldl_kept searchView _ (fun t x => findAt_search part t x) _ s

theorem held_of_search {s t : State} (h : searchView t = searchView s) : t.held = s.held := congrArg Prod.fst h

/-- The partner of a block's operation is read from what a search leaves. -/
theorem partnerOf_of_search {s t : State} (h : searchView t = searchView s) (k : Nat) : partnerOf t k = partnerOf s k := by
  have hg : t.grids = s.grids := congrArg (fun z => z.2.2.1) h
  have hk : ((blockOf t k).grid, (blockOf t k).partner) = ((blockOf s k).grid, (blockOf s k).partner) :=
    congrArg (fun z => z.2.2.2 k) h
  unfold partnerOf gridOf
  dsimp only
  rw [hg, (Prod.mk.inj hk).1, (Prod.mk.inj hk).2]

/-! ### Without errors -/

theorem findMatrix_clean (s : State) (h : s.upsets = []) (k : Nat) : findMatrix s k = s := by
  unfold findMatrix
  rw [h]
  rfl

theorem findMatrix_cleans (l : List Nat) (s : State) (h : s.upsets = []) : l.foldl findMatrix s = s := by
  induction l with
  | nil => rfl
  | cons k r ih => rw [List.foldl_cons, findMatrix_clean s h, ih]

/-- What a map with one key set holds. -/
theorem mem_mset {α : Type} {m : Map α} {k : Nat} {x : α} {y : Nat × α} (h : y ∈ mset m k x) : y = (k, x) ∨ y ∈ m := by
  induction m with
  | nil => exact .inl (List.mem_singleton.1 h)
  | cons c r ih =>
    obtain ⟨i, z⟩ := c
    unfold mset at h
    split at h
    · exact (List.mem_cons.1 h).imp_right (List.mem_cons_of_mem _)
    · split at h
      · exact List.mem_cons.1 h
      · rcases List.mem_cons.1 h with rfl | h
        · exact .inr List.mem_cons_self
        · exact (ih h).imp_right (List.mem_cons_of_mem _)

/-- A queue changed leaves the errors of its core's scratchpad. -/
theorem spadErrors_modEntryOf {s : State} (h : ∀ x ∈ s.cores, x.2.spadErrors = []) (c q id : Nat) (f : Entry → Entry) :
    ∀ x ∈ (modEntryOf s c q id f).cores, x.2.spadErrors = [] := by
  intro x hx
  rcases mem_mset hx with rfl | hx
  · exact coreOf_noErrors s h c
  · exact h x hx

/-- The state an entry begins in has no errors where the state before has none. -/
theorem begun_noErrors {s : State} (h : NoErrors s) (c q : Nat) (e : Entry) : NoErrors (begun s c q e) := by
  obtain ⟨hu, hc⟩ := h
  refine ⟨(begun_same s c q e).upsets.trans hu, spadErrors_modEntryOf (fun x hx => ?_) c q e.id _⟩
  rw [show (synced s c q e).cores = s.cores from syncTo_cores _ _ _] at hx
  exact hc x hx

theorem afterReading_clean {s : State} (h : NoErrors s) (c q : Nat) (e : Entry) (run : State → Produced) :
    afterReading s c q e run = begun s c q e :=
  readPlaces_clean _ (begun_noErrors h c q e).1 (begun_noErrors h c q e).2 _ _

theorem afterReading_held (s : State) (c q : Nat) (e : Entry) (run : State → Produced) :
    (afterReading s c q e run).held = s.held :=
  (held_of_search (readPlaces_search _ _ _)).trans (begun_same s c q e).held

theorem afterMatrix_search (s : State) (c q : Nat) (e : Entry) : searchView (afterMatrix s c q e) = searchView (begun s c q e) :=
  foldl_kept searchView _ findMatrix_search _ _

theorem afterMatrix_clean {s : State} (h : NoErrors s) (c q : Nat) (e : Entry) : afterMatrix s c q e = begun s c q e :=
  findMatrix_cleans _ _ (begun_noErrors h c q e).1

end Sys2Proof.Machine.QueuesAndCopies
end

section
/-! SUPPORT. What an entry has produced is held in its core's engine hold-back (R167, R168, R178): every byte of it, in writes
of its entry. -/

namespace Sys2Proof.Machine.QueuesAndCopies

open NumberFormats ExecutionContexts

/-! ### Writes of units and their groups -/

/-- Among the writes `l` is one that writes byte `b` to address `a` of `dest`. -/
def Writes (l : List EngineWrite) (dest : EngineDest) (a : Nat) (b : Byte) : Prop := ∃ x ∈ l, x.dest = dest ∧ (a, b) ∈ x.cells

theorem writes_cons (x : EngineWrite) (l : List EngineWrite) (dest : EngineDest) (a : Nat) (b : Byte) :
    Writes (x :: l) dest a b ↔ (x.dest = dest ∧ (a, b) ∈ x.cells) ∨ Writes l dest a b :=
  by simp only [Writes, List.mem_cons, exists_eq_or_imp]

/-- A byte added to the writes of units is written, and what was written is. -/
theorem writes_addCell (l : List EngineWrite) (x : EngineDest × Nat × Byte × Tag) (dest : EngineDest) (a : Nat) (b : Byte) :
    Writes (addCell l x) dest a b ↔ Writes l dest a b ∨ (x.1 = dest ∧ x.2.1 = a ∧ x.2.2.1 = b) := by
  induction l with
  | nil => simp [addCell, Writes, eq_comm]
  | cons y r ih =>
    unfold addCell
    split
    · next h =>
      rw [writes_cons, writes_cons, List.mem_append, List.mem_singleton, Prod.mk.injEq, h.1]
      tauto
    · rw [writes_cons, writes_cons, ih]
      tauto

/-- The writes of units write the bytes of an entry. -/
theorem writes_unitWrites (l : List (EngineDest × Nat × Byte × Tag)) (dest : EngineDest) (a : Nat) (b : Byte) :
    Writes (unitWrites l) dest a b ↔ ∃ tag, (dest, a, b, tag) ∈ l := by
  have hfold : ∀ (l : List (EngineDest × Nat × Byte × Tag)) (l0 : List EngineWrite),
      Writes (l.foldl addCell l0) dest a b ↔ Writes l0 dest a b ∨ ∃ tag, (dest, a, b, tag) ∈ l := by
    intro l
    induction l with
    | nil => simp
    | cons x r ih =>
      intro l0
      obtain ⟨d', a', b', t'⟩ := x
      rw [List.foldl_cons, ih, writes_addCell]
      simp only [List.mem_cons, Prod.mk.injEq, exists_or]
      constructor
      · rintro ((h | ⟨rfl, rfl, rfl⟩) | h)
        · exact .inl h
        · exact .inr (.inl ⟨t', rfl, rfl, rfl, rfl⟩)
        · exact .inr (.inr h)
      · rintro (h | ⟨-, rfl, rfl, rfl, -⟩ | h)
        · exact .inl (.inl h)
        · exact .inl (.inr ⟨rfl, rfl, rfl⟩)
        · exact .inr h
  exact (hfold l []).trans (or_iff_right (by simp [Writes]))

theorem mem_addToGroup (joins : List Nat) (l : List (List EngineWrite)) (x y : EngineWrite) :
    (∃ g ∈ addToGroup joins l x, y ∈ g) ↔ (∃ g ∈ l, y ∈ g) ∨ y = x := by
  induction l with
  | nil => simp [addToGroup]
  | cons g r ih =>
    unfold addToGroup
    dsimp only
    split
    · simp only [List.mem_cons, exists_eq_or_imp, List.mem_append, List.not_mem_nil, or_false]
      exact or_right_comm
    · simp only [List.mem_cons, exists_eq_or_imp, ih]
      exact or_assoc.symm

/-- The groups hold the writes, and no others. -/
theorem mem_groupWrites (joins : List Nat) (l : List EngineWrite) (y : EngineWrite) :
    (∃ g ∈ groupWrites joins l, y ∈ g) ↔ y ∈ l := by
  have hfold : ∀ (l : List EngineWrite) (l0 : List (List EngineWrite)),
      (∃ g ∈ l.foldl (addToGroup joins) l0, y ∈ g) ↔ (∃ g ∈ l0, y ∈ g) ∨ y ∈ l := by
    intro l
    induction l with
    | nil => simp
    | cons x r ih =>
      intro l0
      rw [List.foldl_cons, ih, mem_addToGroup, List.mem_cons, or_assoc]
  exact (hfold l []).trans (or_iff_right (by simp))

/-! ### The hold-back -/

/-- Held writes of an entry are written out, one group after the other. -/
theorem holdWrites_held (s : State) (core q : Nat) (e : Entry) (delay : Nat) (l : List (List EngineWrite)) :
    ∃ hs, (holdWrites s core q e delay l).held = s.held ++ hs ∧ hs.map (·.eff) = l.map (Effect.engine e.id q) := by
  induction l generalizing s with
  | nil => exact ⟨[], (List.append_nil _).symm, rfl⟩
  | cons x r ih =>
    obtain ⟨hs, hheld, heff⟩ := ih { s with
      nextId := s.nextId + 1
      held := s.held ++ [{ id := s.nextId, issued := s.now + delay, due := s.now + delay + Config.holdback, core := core
                           seat := none, wave := e.wave, block := e.block, eff := .engine e.id q x }] }
    refine ⟨_, hheld.trans (List.append_assoc _ _ _), ?_⟩
    rw [List.singleton_append, List.map_cons, List.map_cons, heff]

theorem holdWrites_blocks (s : State) (core q : Nat) (e : Entry) (delay : Nat) (l : List (List EngineWrite)) :
    (holdWrites s core q e delay l).blocks = s.blocks := by
  unfold holdWrites
  refine foldl_kept State.blocks _ ?_ l s
  exact fun _ _ => rfl

/-- The groups in which the writes of an entry are held. -/
def groupsOf (p : Produced) : List (List EngineWrite) := groupWrites p.joins (p.slices ++ unitWrites p.cells)

theorem produced_held (s : State) (c q : Nat) (e : Entry) (pkr : DWord) (p : Produced) :
    ∃ hs, (produced s c q e pkr p).held = s.held ++ hs ∧ hs.map (·.eff) = (groupsOf p).map (Effect.engine e.id q) := by
  obtain ⟨cs, hcs⟩ := cacheAll_cores s (entryAgent s c e pkr) p.pages
  have h := holdWrites_held { cacheAll s (entryAgent s c e pkr) p.pages with
      tags := absorb (cacheAll s (entryAgent s c e pkr) p.pages).tags (p.pairs ++ unitPairs p.cells) }
    c q e (Config.engineTransfer e.id) (groupsOf p)
  obtain ⟨hs, hheld, heff⟩ := h
  refine ⟨hs, hheld.trans ?_, heff⟩
  rw [hcs]

theorem produced_blocks (s : State) (c q : Nat) (e : Entry) (pkr : DWord) (p : Produced) :
    (produced s c q e pkr p).blocks = s.blocks := by
  obtain ⟨cs, hcs⟩ := cacheAll_cores s (entryAgent s c e pkr) p.pages
  refine (holdWrites_blocks _ c q e _ _).trans ?_
  rw [hcs]

/-- The entry that was performed waits for its writes. -/
theorem produced_stage (s : State) (c q : Nat) (e : Entry) (pkr : DWord) (p : Produced) :
    ∀ z ∈ (queueAt (coreOf (produced s c q e pkr p) c) q).entries, z.id = e.id → z.stage = .releasing := by
  have h := entries_modEntryOf (holdWrites { cacheAll s (entryAgent s c e pkr) p.pages with
      tags := absorb (cacheAll s (entryAgent s c e pkr) p.pages).tags (p.pairs ++ unitPairs p.cells) }
    c q e (Config.engineTransfer e.id) (groupsOf p)) c q e.id
    (fun z => { z with stage := .releasing, fail := p.fail, malformed := p.malformed, grants := p.grants })
  intro z hz
  exact mem_changed (P := fun z => z.stage = .releasing) (fun _ => rfl) z (by rw [← h]; exact hz)

/-- Held effects that are the groups of writes of an entry hold what the writes write. -/
theorem holdsByte_groups {hs : List Held} {id q : Nat} {l : List (List EngineWrite)}
    (h : hs.map (·.eff) = l.map (Effect.engine id q)) (dest : EngineDest) (a : Nat) (b : Byte) :
    HoldsByte hs id q dest a b ↔ ∃ g ∈ l, ∃ x ∈ g, x.dest = dest ∧ (a, b) ∈ x.cells := by
  constructor
  · rintro ⟨y, hy, xs, heff, hx⟩
    have hmem : y.eff ∈ l.map (Effect.engine id q) := h ▸ List.mem_map_of_mem hy
    obtain ⟨g, hg, hgy⟩ := List.mem_map.1 hmem
    rw [heff] at hgy
    cases hgy
    exact ⟨_, hg, hx⟩
  · rintro ⟨g, hg, hx⟩
    have hmem : Effect.engine id q g ∈ hs.map (·.eff) := h ▸ List.mem_map_of_mem hg
    obtain ⟨y, hy, heff⟩ := List.mem_map.1 hmem
    exact ⟨y, hy, g, heff, hx⟩

/-- The held bytes of an entry without earlier slices are those it has produced. -/
theorem holdsByte_cells {hs : List Held} {id q : Nat} {p : Produced} (hp : p.slices = [])
    (h : hs.map (·.eff) = (groupsOf p).map (Effect.engine id q)) (dest : EngineDest) (a : Nat) (b : Byte) :
    HoldsByte hs id q dest a b ↔ ∃ tag, (dest, a, b, tag) ∈ p.cells := by
  have hgroups : ∀ x, (∃ g ∈ groupsOf p, x ∈ g) ↔ x ∈ unitWrites p.cells := by
    intro x
    unfold groupsOf
    rw [hp, List.nil_append]
    exact mem_groupWrites _ _ _
  rw [holdsByte_groups h, ← writes_unitWrites]
  constructor
  · rintro ⟨g, hg, x, hx, hcell⟩
    exact ⟨x, (hgroups x).1 ⟨g, hg, hx⟩, hcell⟩
  · rintro ⟨x, hx, hcell⟩
    obtain ⟨g, hg, hxg⟩ := (hgroups x).2 hx
    exact ⟨g, hg, x, hxg, hcell⟩

/-- Held effects that are groups of writes of an entry are effects of engines. -/
theorem engine_of_groups {hs : List Held} {id q : Nat} {l : List (List EngineWrite)}
    (h : hs.map (·.eff) = l.map (Effect.engine id q)) : ∀ y ∈ hs, ∃ x, y.eff = .engine id q x := by
  intro y hy
  have hmem : y.eff ∈ l.map (Effect.engine id q) := h ▸ List.mem_map_of_mem hy
  obtain ⟨g, -, hg⟩ := List.mem_map.1 hmem
  exact ⟨g, hg.symm⟩

end Sys2Proof.Machine.QueuesAndCopies
end

section
/-! SUPPORT. A change of an entry leaves what the entry's checks and reads see (R201, R210, R211). -/

namespace Sys2Proof.Machine.QueuesAndCopies

open NumberFormats ExecutionContexts

theorem setQueue_tlb (x : Core) (q : Nat) (y : Queue) : (setQueue x q y).tlb = x.tlb := rfl

/-- A change of an entry leaves the cached translations. -/
theorem modEntryOf_tlb (s : State) (c q id : Nat) (f : Entry → Entry) (k : Nat) :
    (coreOf (modEntryOf s c q id f) k).tlb = (coreOf s k).tlb := by
  show (mgetD (mset s.cores c _) k ({} : Core)).tlb = _
  rw [mgetD_mset]
  split
  · next h =>
    rw [h]
    exact setQueue_tlb _ _ _
  · rfl

theorem lookup_modEntryOf (s : State) (c q id : Nat) (f : Entry → Entry) (core part ctx va : Nat) :
    lookup (modEntryOf s c q id f) core part ctx va = lookup s core part ctx va := by
  have hwalk : ∀ l t, walkFrom (modEntryOf s c q id f) va l t = walkFrom s va l t := fun l t =>
    walkFrom_of_mem (s := s) (t := modEntryOf s c q id f) rfl va l t
  have hctx : ctxOf (modEntryOf s c q id f) ctx = ctxOf s ctx := rfl
  unfold lookup
  simp only [hwalk, hctx, modEntryOf_tlb]
  rfl

theorem checkPage_modEntryOf (s : State) (c q id : Nat) (f : Entry → Entry) (g : Agent) (kind : Access) (lane a step : Nat) :
    checkPage (modEntryOf s c q id f) g kind lane a step = checkPage s g kind lane a step := by
  unfold checkPage
  rw [lookup_modEntryOf]
  rfl

theorem checkLanes_modEntryOf (s : State) (c q id : Nat) (f : Entry → Entry) (g : Agent) (kind : Access) (width : Nat)
    (ls : List (Nat × Nat)) : checkLanes (modEntryOf s c q id f) g kind width ls = checkLanes s g kind width ls := by
  unfold checkLanes
  simp only [checkPage_modEntryOf]
  rfl

theorem paOf_modEntryOf (s : State) (c q id : Nat) (f : Entry → Entry) (g : Agent) (va : Nat) :
    paOf (modEntryOf s c q id f) g va = paOf s g va := by
  unfold paOf
  rw [lookup_modEntryOf]

@[simp] theorem engineCheck_modEntryOf (s : State) (c q id : Nat) (f : Entry → Entry) (g : Agent) (kind : Access) (va n : Nat) :
    engineCheck (modEntryOf s c q id f) g kind va n = engineCheck s g kind va n := by
  unfold engineCheck
  rw [checkLanes_modEntryOf, paOf_modEntryOf]

theorem entryBytes_modEntryOf (s : State) (c q id : Nat) (f : Entry → Entry) (core u part pa n : Nat) :
    entryBytes (modEntryOf s c q id f) core u part pa n = entryBytes s core u part pa n := rfl

@[simp] theorem elementAddr_modEntryOf (s : State) (c q id : Nat) (f : Entry → Entry) (g : Agent) (u : Nat) (d : Desc)
    (pos : Nat → Nat) : elementAddr (modEntryOf s c q id f) g u d pos = elementAddr s g u d pos := by
  unfold elementAddr
  simp only [engineCheck_modEntryOf, entryBytes_modEntryOf]

theorem mapCheck_modEntryOf (s : State) (c q id : Nat) (f : Entry → Entry) (grid ma n : Nat) (write : Bool) :
    mapCheck (modEntryOf s c q id f) grid ma n write = mapCheck s grid ma n write := rfl

@[simp] theorem outsideCheck_modEntryOf (s : State) (c q id : Nat) (f : Entry → Entry) (g : Agent) (d : Desc) (a : Nat)
    (write : Bool) : outsideCheck (modEntryOf s c q id f) g d a write = outsideCheck s g d a write := by
  unfold outsideCheck
  rw [engineCheck_modEntryOf, mapCheck_modEntryOf]

end Sys2Proof.Machine.QueuesAndCopies
end

section
/-! SUPPORT. What an entry produces element by element (R166 to R168, R173): the bytes of each element that was checked. -/

namespace Sys2Proof.Machine.QueuesAndCopies

open NumberFormats ExecutionContexts

/-! ### Cells -/

/-- An entry has produced byte `b` for address `a` of `dest`. -/
def HasCell (p : Produced) (dest : EngineDest) (a : Nat) (b : Byte) : Prop := ∃ tag, (dest, a, b, tag) ∈ p.cells

theorem nth_map {α β : Type} (f : α → β) (l : List α) (i : Nat) (d : α) : nth (l.map f) i (f d) = f (nth l i d) := by
  unfold nth
  rw [List.getD_map]

/-- The addresses of bytes rise from the first. -/
theorem mem_addrBytes (l : List Byte) (base a : Nat) (b : Byte) :
    (a, b) ∈ addrBytes base l ↔ ∃ j, j < l.length ∧ a = base + j ∧ b = nth l j 0 := by
  induction l generalizing base with
  | nil => simp [addrBytes]
  | cons x r ih =>
    rw [addrBytes, List.mem_cons, Prod.mk.injEq, ih]
    constructor
    · rintro (⟨rfl, rfl⟩ | ⟨j, hj, rfl, rfl⟩)
      · exact ⟨0, Nat.succ_pos _, rfl, rfl⟩
      · exact ⟨j + 1, Nat.succ_lt_succ hj, by omega, rfl⟩
    · rintro ⟨j, hj, rfl, rfl⟩
      cases j with
      | zero => exact .inl ⟨rfl, rfl⟩
      | succ j => exact .inr ⟨j, Nat.lt_of_succ_lt_succ hj, by omega, rfl⟩

/-- The cells of an element are its bytes from its place on. -/
theorem mem_cellsOf (x : EngineDest × Nat) (v : List (Byte × Tag)) (dest : EngineDest) (a : Nat) (b : Byte) :
    (∃ tag, (dest, a, b, tag) ∈ cellsOf x v) ↔
      ∃ j, j < v.length ∧ dest = x.1 ∧ a = x.2 + j ∧ b = (nth v j (0, .clean)).1 := by
  have hbyte (j : Nat) : nth (v.map (·.1)) j (0 : Byte) = (nth v j (0, .clean)).1 := nth_map (·.1) v j (0, .clean)
  have hcell (tag : Tag) : (dest, a, b, tag) ∈ cellsOf x v ↔
      (a, b) ∈ addrBytes x.2 (v.map (·.1)) ∧ dest = x.1 ∧ tag = mergeTags (v.map (·.2)) := by
    unfold cellsOf
    simp only [List.mem_map, Prod.mk.injEq, Prod.exists]
    constructor
    · rintro ⟨y, z, hy, rfl, rfl, rfl, rfl⟩
      exact ⟨hy, rfl, rfl⟩
    · rintro ⟨hy, rfl, rfl⟩
      exact ⟨a, b, hy, rfl, rfl, rfl, rfl⟩
  simp only [hcell, mem_addrBytes, List.length_map, hbyte]
  constructor
  · rintro ⟨tag, ⟨j, hj, ha, hb⟩, hd, -⟩
    exact ⟨j, hj, hd, ha, hb⟩
  · rintro ⟨j, hj, hd, ha, hb⟩
    exact ⟨_, ⟨j, hj, ha, hb⟩, hd, rfl⟩

/-! ### Steps that add cells -/

/-- What an entry has produced has grown by the cells `E`, without a failure. -/
structure Adds (p p' : Produced) (E : EngineDest → Nat → Byte → Prop) : Prop where
  fail : p'.fail = none
  slices : p'.slices = p.slices
  cells : ∀ dest a b, HasCell p' dest a b ↔ HasCell p dest a b ∨ E dest a b

/-- Cells appended. -/
theorem adds_append {p p' : Produced} {l : List (EngineDest × Nat × Byte × Tag)} (hp : p.fail = none) (hf : p'.fail = p.fail)
    (hs : p'.slices = p.slices) (hc : p'.cells = p.cells ++ l) :
    Adds p p' (fun dest a b => ∃ tag, (dest, a, b, tag) ∈ l) := by
  refine ⟨hf.trans hp, hs, fun dest a b => ?_⟩
  unfold HasCell
  rw [hc]
  simp only [List.mem_append, exists_or]

theorem Adds.congr {p p' : Produced} {E F : EngineDest → Nat → Byte → Prop} (h : Adds p p' E)
    (hE : ∀ dest a b, E dest a b ↔ F dest a b) : Adds p p' F :=
  ⟨h.fail, h.slices, fun dest a b => (h.cells dest a b).trans (or_congr_right (hE dest a b))⟩

/-- An element that is added adds its bytes from its place on. -/
theorem adds_element {p p' : Produced} (x : EngineDest × Nat) (v : List (Byte × Tag)) (hp : p.fail = none)
    (hf : p'.fail = p.fail) (hs : p'.slices = p.slices) (hc : p'.cells = p.cells ++ cellsOf x v) :
    Adds p p' (fun dest a b => ∃ j, j < v.length ∧ dest = x.1 ∧ a = x.2 + j ∧ b = (nth v j (0, .clean)).1) :=
  (adds_append hp hf hs hc).congr (mem_cellsOf x v)

/-- One step after another. -/
theorem adds_foldl {α : Type} {f : Produced → α → Produced} {E : α → EngineDest → Nat → Byte → Prop} {l : List α}
    (h : ∀ p, p.fail = none → ∀ x ∈ l, Adds p (f p x) (E x)) (p : Produced) (hp : p.fail = none) :
    Adds p (l.foldl f p) (fun dest a b => ∃ x ∈ l, E x dest a b) := by
  induction l generalizing p with
  | nil => exact ⟨hp, rfl, fun _ _ _ => by simp⟩
  | cons x r ih =>
    have hx := h p hp x List.mem_cons_self
    have hr := ih (fun p hp y hy => h p hp y (List.mem_cons_of_mem _ hy)) (f p x) hx.fail
    refine ⟨hr.fail, hr.slices.trans hx.slices, fun dest a b => (hr.cells dest a b).trans ?_⟩
    rw [hx.cells]
    simp only [List.mem_cons, exists_eq_or_imp, or_assoc]

/-- Elements none of which fails are taken one after another. -/
theorem eachElement_foldl {f : Nat → Produced → Produced} {l : List Nat}
    (h : ∀ p, p.fail = none → ∀ m ∈ l, (f m p).fail = none) (p : Produced) (hp : p.fail = none) :
    eachElement f l p = l.foldl (fun p m => f m p) p := by
  induction l generalizing p with
  | nil => rfl
  | cons m r ih =>
    rw [eachElement, if_neg (by rw [hp]; decide), List.foldl_cons]
    exact ih (fun p hp y hy => h p hp y (List.mem_cons_of_mem _ hy)) _ (h p hp m List.mem_cons_self)

/-! ### Lengths -/

theorem entryBytes_length (s : State) (core u part pa n : Nat) : (entryBytes s core u part pa n).length = n := by
  unfold entryBytes
  rw [List.length_map, List.length_range]

theorem placeBytes_length (s : State) (core u part : Nat) (x : EngineDest × Nat) (n : Nat) :
    (placeBytes s core u part x n).length = n := by
  unfold placeBytes
  split
  · exact entryBytes_length _ _ _ _ _ _
  · unfold arrayBytes
    split <;> simp_all

theorem toBytes_length (n x : Nat) : (toBytes n x).length = n := by
  induction n generalizing x with
  | zero => rfl
  | succ n ih => rw [toBytes, List.length_cons, ih]

theorem fillBytes_length (d : Desc) : (fillBytes d).length = d.esize := by
  unfold fillBytes
  split
  · next h => rw [List.length_append, toBytes_length, h]
  · exact toBytes_length _ _

/-- A descriptor is that of the element size it was decoded for. -/
theorem descOf_esize {l : List Byte} {n : Nat} {d : Desc} (h : descOf l n = some d) : d.esize = n := by
  unfold descOf at h
  dsimp only at h
  split at h
  · cases h
  · cases h
    rfl

end Sys2Proof.Machine.QueuesAndCopies
end

section
/-! SUPPORT. The bytes of a copy of one request, and of a gather (R166 to R168, R173). -/

namespace Sys2Proof.Machine.QueuesAndCopies

open NumberFormats ExecutionContexts

/-! ### One element of a copy -/

/-- The request's box index of element `m`, and whether its position is in bounds (R167). -/
def Inside (d : Desc) (r : CopyReq) (ext : List Nat) (m : Nat) : Prop := ∀ j, j < d.dims →
  0 ≤ boxPos d r (boxIndex ext m) j ∧ boxPos d r (boxIndex ext m) j < ((nth d.size j 1 : Nat) : Int)

/-- The scratchpad offset of element `m`. -/
def padAt (d : Desc) (r : CopyReq) (ext : List Nat) (m : Nat) : Nat := boxOffset (reqLayout r) d ext (boxIndex ext m)

/-- The checked place of element `m` outside the scratchpad is `x` (R167). -/
def OutsideAt (s : State) (g : Agent) (u : Nat) (out : Bool) (r : CopyReq) (d : Desc) (ext : List Nat) (m : Nat)
    (x : EngineDest × Nat) : Prop :=
  ∃ a word, elementAddr s g u d (fun j => (boxPos d r (boxIndex ext m) j).toNat) = .ok (a, word) ∧
    outsideCheck s g d a out = .ok x

/-- What element `m` of a copy writes: the bytes of its place at the other side, or the fill (R167). -/
def CopyCell (s : State) (g : Agent) (u k : Nat) (out : Bool) (r : CopyReq) (d : Desc) (ext : List Nat) (m : Nat)
    (dest : EngineDest) (a : Nat) (b : Byte) : Prop :=
  ∃ j, j < d.esize ∧
    ((Inside d r ext m ∧ ∃ x, OutsideAt s g u out r d ext m x ∧
      if out then dest = x.1 ∧ a = x.2 + j ∧
        b = (nth (placeBytes s g.core u g.part (.spad k, padAt d r ext m) d.esize) j (0, .clean)).1
      else dest = .spad k ∧ a = padAt d r ext m + j ∧ b = (nth (placeBytes s g.core u g.part x d.esize) j (0, .clean)).1) ∨
    (¬ Inside d r ext m ∧ out = false ∧ dest = .spad k ∧ a = padAt d r ext m + j ∧ b = nth (fillBytes d) j 0))

theorem inside_iff (d : Desc) (r : CopyReq) (ext : List Nat) (m : Nat) :
    ((List.range d.dims).all (fun j => decide (0 ≤ boxPos d r (boxIndex ext m) j ∧
      boxPos d r (boxIndex ext m) j < ((nth d.size j 1 : Nat) : Int)))) = true ↔ Inside d r ext m := by
  simp only [List.all_eq_true, List.mem_range, decide_eq_true_eq, Inside]

theorem outsideAt_unique {s : State} {g : Agent} {u : Nat} {out : Bool} {r : CopyReq} {d : Desc} {ext : List Nat} {m : Nat}
    {x y : EngineDest × Nat} (hx : OutsideAt s g u out r d ext m x) (hy : OutsideAt s g u out r d ext m y) : y = x := by
  obtain ⟨a, word, haddr, hcheck⟩ := hx
  obtain ⟨a', word', haddr', hcheck'⟩ := hy
  cases haddr.symm.trans haddr'
  cases hcheck.symm.trans hcheck'
  rfl

variable {s : State} {g : Agent} {u k : Nat} {out : Bool} {r : CopyReq} {d : Desc} {ext : List Nat}

/-- There is room in the scratchpad. -/
theorem not_short {off : Nat} (h : off + d.esize ≤ (blockOf s k).spadLen) : ¬ (blockOf s k).spadLen < off + d.esize :=
  Nat.not_lt.2 h

/-- An element in bounds adds the bytes of its place. -/
theorem copyElement_inside {m : Nat} {x : EngineDest × Nat} (hroom : padAt d r ext m + d.esize ≤ (blockOf s k).spadLen)
    (hin : Inside d r ext m) (hx : OutsideAt s g u out r d ext m x) (p : Produced) (hp : p.fail = none) :
    Adds p (copyElement s g u k out r d ext m p) (CopyCell s g u k out r d ext m) := by
  have hstep : Adds p (copyElement s g u k out r d ext m p) (fun dest a b => ∃ j, j < (placeBytes s g.core u g.part
      (if out then (.spad k, padAt d r ext m) else x) d.esize).length ∧
      dest = (if out then x else (.spad k, padAt d r ext m)).1 ∧ a = (if out then x else (.spad k, padAt d r ext m)).2 + j ∧
      b = (nth (placeBytes s g.core u g.part (if out then (.spad k, padAt d r ext m) else x) d.esize) j (0, .clean)).1) := by
    obtain ⟨a, word, haddr, hcheck⟩ := hx
    unfold copyElement
    dsimp only
    rw [if_neg (not_short (off := boxOffset (reqLayout r) d ext (boxIndex ext m)) hroom), if_pos ((inside_iff d r ext m).2 hin), haddr]
    dsimp only
    rw [hcheck]
    exact adds_element _ _ hp rfl rfl rfl
  refine hstep.congr (fun dest a b => ?_)
  unfold CopyCell
  rw [placeBytes_length]
  refine exists_congr (fun j => and_congr_right (fun _ => ?_))
  constructor
  · intro h
    refine .inl ⟨hin, x, hx, ?_⟩
    cases out <;> exact h
  · rintro (⟨-, y, hy, h⟩ | ⟨hn, -⟩)
    · rw [outsideAt_unique hx hy] at h
      cases out <;> exact h
    · exact absurd hin hn

/-- An element out of bounds adds the fill, or nothing to the other side. -/
theorem copyElement_outside {m : Nat} (hroom : padAt d r ext m + d.esize ≤ (blockOf s k).spadLen)
    (hin : ¬ Inside d r ext m) (p : Produced) (hp : p.fail = none) :
    Adds p (copyElement s g u k out r d ext m p) (CopyCell s g u k out r d ext m) := by
  have hnot : ∀ dest a b, CopyCell s g u k out r d ext m dest a b ↔
      ∃ j, j < d.esize ∧ out = false ∧ dest = .spad k ∧ a = padAt d r ext m + j ∧ b = nth (fillBytes d) j 0 := by
    intro dest a b
    refine exists_congr (fun j => and_congr_right (fun _ => ?_))
    exact ⟨fun h => (h.resolve_left (fun h => hin h.1)).2, fun h => .inr ⟨hin, h⟩⟩
  unfold copyElement
  dsimp only
  rw [if_neg (not_short (off := boxOffset (reqLayout r) d ext (boxIndex ext m)) hroom), if_neg (fun h => hin ((inside_iff d r ext m).1 h))]
  cases out with
  | true =>
    refine ⟨hp, rfl, fun dest a b => ?_⟩
    rw [hnot]
    simp
  | false =>
    rw [if_neg Bool.false_ne_true]
    refine (adds_element (p' := addElement p (.spad k, padAt d r ext m) _) (.spad k, padAt d r ext m)
      ((fillBytes d).map (fun b => (b, .clean))) hp rfl rfl rfl).congr (fun dest a b => ?_)
    rw [hnot, List.length_map, fillBytes_length]
    refine exists_congr (fun j => and_congr_right (fun _ => ?_))
    rw [nth_map (fun b => (b, Tag.clean))]
    simp

/-- The elements of a request, none of which fails, add what each of them writes. -/
theorem copyElements_adds {n : Nat}
    (hall : ∀ m, m < n → padAt d r ext m + d.esize ≤ (blockOf s k).spadLen ∧
      (Inside d r ext m → ∃ x, OutsideAt s g u out r d ext m x)) (p : Produced) (hp : p.fail = none) :
    Adds p (eachElement (copyElement s g u k out r d ext) (List.range n) p)
      (fun dest a b => ∃ m ∈ List.range n, CopyCell s g u k out r d ext m dest a b) := by
  have hstep : ∀ p, p.fail = none → ∀ m ∈ List.range n,
      Adds p (copyElement s g u k out r d ext m p) (CopyCell s g u k out r d ext m) := by
    intro p hp m hm
    obtain ⟨hroom, hplace⟩ := hall m (List.mem_range.1 hm)
    by_cases hin : Inside d r ext m
    · obtain ⟨x, hx⟩ := hplace hin
      exact copyElement_inside hroom hin hx p hp
    · exact copyElement_outside hroom hin p hp
  rw [eachElement_foldl (fun p hp m hm => (hstep p hp m hm).fail) p hp]
  exact adds_foldl hstep p hp

end Sys2Proof.Machine.QueuesAndCopies
end

section
/-! SUPPORT. What the one request of a copy entry and the lanes of a gather produce, as their statement names it: in the state
in which what precedes the entry is in its die's view (R161, R167, R173). -/

namespace Sys2Proof.Machine.QueuesAndCopies

open NumberFormats ExecutionContexts

theorem sealSlice_empty : sealSlice {} = {} := by
  simp [sealSlice, unitWrites, unitPairs]

theorem copyAll_single (s : State) (c : Nat) (e : Entry) (out : Bool) (u : Nat) (r : CopyReq) :
    copyAll s c e out [(u, r)] = copyRequest s c e out u r {} := by
  unfold copyAll
  rw [List.foldl_cons, List.foldl_nil, sealSlice_empty]
  dsimp only
  rw [List.foldl_nil]

/-- The request of a copy that passes its checks produces the bytes of its elements. -/
theorem copyRequest_adds {s : State} {c u pa : Nat} {e : Entry} {out : Bool} {r : CopyReq} {d : Desc}
    (hn : 0 < r.length / layEsize (reqLayout r)) (hcheck : engineCheck s (entryAgent s c e r.pkr) .load r.desc 64 = .ok pa)
    (hd : descOf ((entryBytes s c u (entryAgent s c e r.pkr).part pa 64).map (·.1)) (layEsize (reqLayout r)) = some d)
    (hlen : r.length / layEsize (reqLayout r) ≤ (extents d r.halo).foldl (· * ·) 1)
    (hall : ∀ m, m < r.length / layEsize (reqLayout r) →
      padAt d r (extents d r.halo) m + d.esize ≤ (blockOf s (e.block.getD 0)).spadLen ∧ (Inside d r (extents d r.halo) m →
        ∃ x, OutsideAt s (entryAgent s c e r.pkr) u out r d (extents d r.halo) m x)) :
    Adds {} (copyRequest s c e out u r {}) (fun dest a b => ∃ m ∈ List.range (r.length / layEsize (reqLayout r)),
      CopyCell s (entryAgent s c e r.pkr) u (e.block.getD 0) out r d (extents d r.halo) m dest a b) := by
  have hstart : ¬ (({} : Produced).fail.isSome = true ∨ r.length / layEsize (reqLayout r) = 0) := by
    rintro (h | h)
    · exact absurd h (by decide)
    · omega
  unfold copyRequest
  dsimp only
  rw [if_neg hstart, hcheck]
  dsimp only
  rw [hd]
  dsimp only
  rw [if_neg (Nat.not_lt.2 hlen)]
  have h := copyElements_adds hall { pages := [r.desc], reads := [(.memory, pa), (.memory, pa + 32)] } rfl
  exact ⟨h.fail, h.slices, h.cells⟩

/-- The lanes of a gather all of which pass their checks produce their elements. -/
theorem gatherRun_adds {s : State} {c size off : Nat} {e : Entry} {ls : List (Nat × Nat)}
    (hall : ∀ l ∈ ls, ∃ pa, engineCheck s (entryAgent s c e e.pkr) .load l.2 size = .ok pa) :
    Adds {} (gatherRun s c e size off ls) (fun dest a b => ∃ l ∈ ls, ∃ pa j,
      engineCheck s (entryAgent s c e e.pkr) .load l.2 size = .ok pa ∧ j < size ∧ dest = .spad (e.block.getD 0) ∧
      a = off + l.1 * size + j ∧ b = (nth (entryBytes s c e.wave (entryAgent s c e e.pkr).part pa size) j (0, .clean)).1) := by
  refine adds_foldl (fun p hp l hl => ?_) {} rfl
  obtain ⟨pa, hpa⟩ := hall l hl
  rw [if_neg (by rw [hp]; decide), hpa]
  dsimp only
  refine (adds_element (p' := { addElement p (.spad (e.block.getD 0), off + l.1 * size) (entryBytes s c e.wave
    (entryAgent s c e e.pkr).part pa size) with pages := l.2 :: p.pages, reads := (.memory, pa) :: p.reads })
    (.spad (e.block.getD 0), off + l.1 * size) (entryBytes s c e.wave (entryAgent s c e e.pkr).part pa size) hp rfl rfl
    rfl).congr (fun dest a b => ?_)
  rw [entryBytes_length]
  constructor
  · rintro ⟨j, hj, hd, ha, hb⟩
    exact ⟨pa, j, rfl, hj, hd, ha, hb⟩
  · rintro ⟨pa', j, hpa', hj, hd, ha, hb⟩
    cases hpa'
    exact ⟨j, hj, hd, ha, hb⟩

/-- The held bytes of an entry are the cells it has added to nothing. -/
theorem holdsByte_adds {hs : List Held} {id q : Nat} {p : Produced} {E : EngineDest → Nat → Byte → Prop} (h : Adds {} p E)
    (heff : hs.map (·.eff) = (groupsOf p).map (Effect.engine id q)) (dest : EngineDest) (a : Nat) (b : Byte) :
    HoldsByte hs id q dest a b ↔ E dest a b :=
  (holdsByte_cells h.slices heff dest a b).trans ((h.cells dest a b).trans (or_iff_right (by simp [HasCell])))

/-! ### The state an entry begins in -/

theorem begun_check (s : State) (c q : Nat) (e : Entry) (g : Agent) (kind : Access) (va n : Nat) :
    engineCheck (begun s c q e) g kind va n = engineCheck (synced s c q e) g kind va n := engineCheck_modEntryOf _ _ _ _ _ _ _ _ _

theorem begun_agent (s : State) (c q : Nat) (e x : Entry) (pkr : DWord) :
    entryAgent (begun s c q e) c x pkr = entryAgent (synced s c q e) c x pkr := rfl

theorem begun_bytes (s : State) (c q : Nat) (e : Entry) (core u part pa n : Nat) :
    entryBytes (begun s c q e) core u part pa n = entryBytes (synced s c q e) core u part pa n := rfl

theorem begun_placeBytes (s : State) (c q : Nat) (e : Entry) (core u part : Nat) (x : EngineDest × Nat) (n : Nat) :
    placeBytes (begun s c q e) core u part x n = placeBytes (synced s c q e) core u part x n := rfl

theorem begun_outsideAt (s : State) (c q : Nat) (e : Entry) (g : Agent) (u : Nat) (out : Bool) (r : CopyReq) (d : Desc)
    (ext : List Nat) (m : Nat) (x : EngineDest × Nat) :
    OutsideAt (begun s c q e) g u out r d ext m x ↔ OutsideAt (synced s c q e) g u out r d ext m x := by
  unfold OutsideAt begun
  simp only [elementAddr_modEntryOf, outsideCheck_modEntryOf]

theorem begun_copyCell (s : State) (c q : Nat) (e : Entry) (g : Agent) (u k : Nat) (out : Bool) (r : CopyReq) (d : Desc)
    (ext : List Nat) (m : Nat) (dest : EngineDest) (a : Nat) (b : Byte) :
    CopyCell (begun s c q e) g u k out r d ext m dest a b ↔ CopyCell (synced s c q e) g u k out r d ext m dest a b := by
  unfold CopyCell
  simp only [begun_outsideAt, begun_placeBytes]

end Sys2Proof.Machine.QueuesAndCopies
end

section
/-! PROOF. Copies, gathers and takes do their work (R161, R166 to R168, R173, R284). -/

namespace Sys2Proof.Machine.QueuesAndCopies

open NumberFormats ExecutionContexts

/-- The entry at the head does its work, of which `P` holds; the scratchpads stand, and the entry waits for its writes. -/
def Performs (s : State) (c q : Nat) (e : Entry) (P : State → Prop) : Prop :=
  Made (.engineEntryPerform c q) s (fun t => P t ∧
    (NoErrors s → ∀ k a, memGet (blockOf t k).spad a = memGet (blockOf s k).spad a) ∧
    ∀ z ∈ (queueAt (coreOf t c) q).entries, z.id = e.id → z.stage = .releasing)

/-- Writes of the entry were held, of which `P` holds. -/
def Holding (s : State) (q : Nat) (e : Entry) (P : List Held → Prop) (t : State) : Prop :=
  ∃ hs, t.held = s.held ++ hs ∧ (∀ h ∈ hs, ∃ x, h.eff = .engine e.id q x) ∧ P hs

variable {s : State} {c q : Nat} {e : Entry} {rest : List Entry}

/-- An entry whose work leaves what it has produced. -/
theorem performs_produced (h : MayPerform s c q e rest) {s1 : State} {pkr : DWord} {p : Produced}
    (hw : workDone s c q e = some (produced s1 c q e pkr p)) (hheld : s1.held = s.held)
    (hblocks : NoErrors s → s1.blocks = s.blocks) {P : List Held → Prop}
    (hP : ∀ hs, hs.map (·.eff) = (groupsOf p).map (Effect.engine e.id q) → P hs) :
    Performs s c q e (Holding s q e P) := by
  obtain ⟨hs, hout, heff⟩ := produced_held s1 c q e pkr p
  refine ⟨_, exec_perform h hw, ⟨hs, hout.trans (by rw [hheld]), engine_of_groups heff, hP hs heff⟩, fun hno k a => ?_,
    produced_stage s1 c q e pkr p⟩
  have hb : (produced s1 c q e pkr p).blocks = s.blocks := (produced_blocks s1 c q e pkr p).trans (hblocks hno)
  exact congrArg (fun b : Map Block => memGet (mgetD b k {}).spad a) hb

theorem workDone_copy {out : Bool} {l : List (Nat × CopyReq)} (hw : e.work = .copy out l) :
    workDone s c q e = some (produced (afterReading s c q e (fun s => copyAll s c e out l)) c q e e.pkr
      (copyAll (afterReading s c q e (fun s => copyAll s c e out l)) c e out l)) := by
  unfold workDone
  rw [hw]

theorem workDone_gather {size off : Nat} {l : List (Nat × Nat)} (hw : e.work = .gather size off l) :
    workDone s c q e = some (produced (afterReading s c q e (fun s => gatherRun s c e size off l)) c q e e.pkr
      (gatherRun (afterReading s c q e (fun s => gatherRun s c e size off l)) c e size off l)) := by
  unfold workDone
  rw [hw]

/-- The blocks stand where reading finds no error. -/
theorem afterReading_blocks (run : State → Produced) (h : NoErrors s) : (afterReading s c q e run).blocks = s.blocks := by
  rw [afterReading_clean h]
  exact (begun_same s c q e).blocks

/-- A copy or gather holds its writes. -/
theorem copies_perform (h : MayPerform s c q e rest)
    (hw : (∃ out l, e.work = .copy out l) ∨ ∃ m f l, e.work = .gather m f l) :
    Performs s c q e (Holding s q e (fun _ => True)) := by
  rcases hw with ⟨out, l, hw⟩ | ⟨m, f, l, hw⟩
  · exact performs_produced h (workDone_copy hw) (afterReading_held _ _ _ _ _) (afterReading_blocks _) (fun _ _ => trivial)
  · exact performs_produced h (workDone_gather hw) (afterReading_held _ _ _ _ _) (afterReading_blocks _) (fun _ _ => trivial)

/-- A copy of one request that passes its checks holds the bytes of its elements. -/
theorem copy_performs (h : MayPerform s c q e rest) {out : Bool} {u pa : Nat} {r : CopyReq} {d : Desc} (hno : NoErrors s)
    (hw : e.work = .copy out [(u, r)]) (hn : 0 < r.length / layEsize (reqLayout r))
    (hcheck : engineCheck (synced s c q e) (entryAgent (synced s c q e) c e r.pkr) .load r.desc 64 = .ok pa)
    (hd : descOf ((entryBytes (synced s c q e) c u (entryAgent (synced s c q e) c e r.pkr).part pa 64).map (·.1))
      (layEsize (reqLayout r)) = some d)
    (hlen : r.length / layEsize (reqLayout r) ≤ (extents d r.halo).foldl (· * ·) 1)
    (hall : ∀ m, m < r.length / layEsize (reqLayout r) →
      padAt d r (extents d r.halo) m + d.esize ≤ (blockOf s (e.block.getD 0)).spadLen ∧ (Inside d r (extents d r.halo) m →
        ∃ x, OutsideAt (synced s c q e) (entryAgent (synced s c q e) c e r.pkr) u out r d (extents d r.halo) m x)) :
    Performs s c q e (Holding s q e (fun hs => ∀ dest a b, HoldsByte hs e.id q dest a b ↔
      ∃ m, m < r.length / layEsize (reqLayout r) ∧ CopyCell (synced s c q e) (entryAgent (synced s c q e) c e r.pkr) u
        (e.block.getD 0) out r d (extents d r.halo) m dest a b)) := by
  have hblock : blockOf (begun s c q e) (e.block.getD 0) = blockOf s (e.block.getD 0) :=
    congrArg (fun b : Map Block => mgetD b (e.block.getD 0) {}) (begun_same s c q e).blocks
  have hadds := copyRequest_adds (s := begun s c q e) hn ((begun_check _ _ _ _ _ _ _ _).trans hcheck) hd hlen (fun m hm => by
    obtain ⟨hroom, hplace⟩ := hall m hm
    refine ⟨by rw [hblock]; exact hroom, fun hin => ?_⟩
    obtain ⟨x, hx⟩ := hplace hin
    exact ⟨x, (begun_outsideAt _ _ _ _ _ _ _ _ _ _ _ _).2 hx⟩)
  have hdone := workDone_copy (s := s) (c := c) (q := q) hw
  rw [afterReading_clean hno, copyAll_single] at hdone
  refine performs_produced h hdone (begun_same s c q e).held (fun _ => (begun_same s c q e).blocks)
    (fun hs heff dest a b => (holdsByte_adds hadds heff dest a b).trans ?_)
  simp only [List.mem_range, begun_copyCell]
  rfl

/-- A gather all of whose lanes pass their checks holds their elements. -/
theorem gather_performs (h : MayPerform s c q e rest) {size start : Nat} {ls : List (Nat × Nat)} (hno : NoErrors s)
    (hw : e.work = .gather size start ls) (hall : ∀ l ∈ ls, ∃ pa,
      engineCheck (synced s c q e) (entryAgent (synced s c q e) c e e.pkr) .load l.2 size = .ok pa) :
    Performs s c q e (Holding s q e (fun hs => ∀ dest a b, HoldsByte hs e.id q dest a b ↔ ∃ l ∈ ls, ∃ pa j,
      engineCheck (synced s c q e) (entryAgent (synced s c q e) c e e.pkr) .load l.2 size = .ok pa ∧ j < size ∧
      dest = .spad (e.block.getD 0) ∧ a = start + l.1 * size + j ∧
      b = (nth (entryBytes (synced s c q e) c e.wave (entryAgent (synced s c q e) c e e.pkr).part pa size) j
        (0, .clean)).1)) := by
  have hadds := gatherRun_adds (s := begun s c q e) (c := c) (size := size) (off := start) (e := e) (ls := ls)
    (fun l hl => by
      obtain ⟨pa, hpa⟩ := hall l hl
      exact ⟨pa, (begun_check _ _ _ _ _ _ _ _).trans hpa⟩)
  have hdone := workDone_gather (s := s) (c := c) (q := q) hw
  rw [afterReading_clean hno] at hdone
  refine performs_produced h hdone (begun_same s c q e).held (fun _ => (begun_same s c q e).blocks)
    (fun hs heff dest a b => (holdsByte_adds hadds heff dest a b).trans ?_)
  simp only [begun_check, begun_agent, begun_bytes]

/-! ### Takes (R284) -/

/-- The items of a deck. -/
def itemsAt (s : State) (p k : Nat) : List Item := (mgetD (partOf s p).decks k {}).items

/-- A change of a deck that takes items from its front. -/
theorem itemsAt_modDeck (s : State) (p k n : Nat) (f : Deck → Deck) (hf : ∀ d, (f d).items = d.items.drop n) :
    itemsAt (modDeck s p k f) p k = (itemsAt s p k).drop n := by
  unfold itemsAt partOf modDeck mgetD
  show ((mget ((mget (mmod s.parts p _) p).getD {}).decks k).getD {}).items = _
  rw [mget_mmod, if_pos rfl]
  cases mget s.parts p with
  | none => exact List.drop_nil.symm
  | some x =>
    show ((mget (mmod x.decks k f) k).getD {}).items = ((mget x.decks k).getD {}).items.drop n
    rw [mget_mmod, if_pos rfl]
    cases mget x.decks k with
    | none => exact List.drop_nil.symm
    | some d => exact hf d

/-- As many items as there are, up to a number, are that number of items. -/
theorem drop_taken {α : Type} (l : List α) (n : Nat) : l.drop (l.take n).length = l.drop n := by
  rw [List.length_take]
  rcases Nat.le_total n l.length with h | h
  · rw [Nat.min_eq_left h]
  · rw [Nat.min_eq_right h, List.drop_length, List.drop_eq_nil_of_le h]

/-- A draw takes an item for each lane while there are items; nothing else of its deck's items changes. -/
theorem drawItems_spec (s : State) (p u k preg v : Nat) (lanes : List Nat) :
    (drawItems s p u k preg v lanes).1.held = s.held ∧ (drawItems s p u k preg v lanes).1.blocks = s.blocks ∧
      itemsAt (drawItems s p u k preg v lanes).1 p k = (itemsAt s p k).drop lanes.length := by
  have hdrop := itemsAt_modDeck s p k ((itemsAt s p k).take lanes.length).length
    (fun d => { d with items := d.items.drop ((itemsAt s p k).take lanes.length).length }) (fun _ => rfl)
  rw [drop_taken] at hdrop
  unfold drawItems
  dsimp only
  split
  · refine ⟨rfl, rfl, ?_⟩
    have hkeep := itemsAt_modDeck (modDeck s p k (fun d =>
        { d with items := d.items.drop ((itemsAt s p k).take lanes.length).length })) p k 0
      (fun d => { d with heldItems := d.heldItems + ((itemsAt s p k).take lanes.length).length }) (fun _ => rfl)
    exact hkeep.trans hdrop
  · exact ⟨rfl, rfl, hdrop⟩

theorem take_performs (h : MayPerform s c q e rest) {k p v : Nat} {lanes : List Nat} (hw : e.work = .take k p v lanes) :
    Performs s c q e (fun t => t.held = s.held ∧
      itemsAt t (ctxOf s e.ctx).part k = (itemsAt s (ctxOf s e.ctx).part k).drop lanes.length) := by
  obtain ⟨hheld, hblocks, hitems⟩ := drawItems_spec (begun s c q e) (ctxOf (begun s c q e) e.ctx).part e.wave k p v lanes
  have hsame := begun_same s c q e
  have hctx : ctxOf (begun s c q e) e.ctx = ctxOf s e.ctx := congrArg (fun m : Map Context => mgetD m e.ctx {}) hsame.ctxs
  have hbegun : itemsAt (begun s c q e) (ctxOf s e.ctx).part k = itemsAt s (ctxOf s e.ctx).part k :=
    congrArg (fun m : Map Partition => (mgetD (mgetD m (ctxOf s e.ctx).part {}).decks k {}).items) hsame.parts
  rw [hctx, hbegun] at hitems
  have hdone : workDone s c q e = some (modEntryOf
      (drawItems (begun s c q e) (ctxOf (begun s c q e) e.ctx).part e.wave k p v lanes).1 c q e.id (readyWith s e 0
      (drawItems (begun s c q e) (ctxOf (begun s c q e) e.ctx).part e.wave k p v lanes).2.1
      (drawItems (begun s c q e) (ctxOf (begun s c q e) e.ctx).part e.wave k p v lanes).2.2)) := by
    unfold workDone
    rw [hw]
  refine ⟨_, exec_perform h hdone, ⟨hheld.trans hsame.held, ?_⟩, fun _ j a => ?_, fun z hz => ?_⟩
  · rw [hctx]
    exact hitems
  · exact congrArg (fun b : Map Block => memGet (mgetD b j {}).spad a) (hblocks.trans hsame.blocks)
  · rw [entries_modEntryOf] at hz
    exact mem_changed (P := fun z => z.stage = .releasing) (fun _ => rfl) z hz

end Sys2Proof.Machine.QueuesAndCopies
end

section
/-! PROOF. The entries of a round do their work (R263 to R265, R280): the root of a drain round writes the converted elements. -/

namespace Sys2Proof.Machine.QueuesAndCopies

open NumberFormats ExecutionContexts

/-! ### The pieces of a drain -/

/-- An element of a list beside its index. -/
theorem mem_zip_range {α : Type} (f : Nat → α) {n j : Nat} (h : j < n) :
    (f j, j) ∈ ((List.range n).map f).zip (List.range ((List.range n).map f).length) := by
  rw [List.length_map, List.length_range, List.zip_map_left]
  refine List.mem_map.2 ⟨(j, j), ?_, rfl⟩
  rw [List.zip_eq_zipWith, List.zipWith_self]
  exact List.mem_map.2 ⟨j, List.mem_range.2 h, rfl⟩

/-- The root of a drain round writes `bytes` to `va`. -/
def Piece (r : Round) (root : Contribution) (va : Nat) (bytes : List Byte) : Prop :=
  ∃ x ∈ drainPieces r root, x.1 = va ∧ x.2.1 = bytes

variable {r : Round} {root : Contribution} {row col : Nat}

/-- A row of a column block that a member drains is among the pieces. -/
theorem piece_of_row (hrow : row < (drainCtl root.ctl.toNat).rows) (hcol : col < 16)
    (hmem : ∃ z ∈ roundWords r.items r.peers, (drainCtl z.2.toNat).col = col) {x : List Byte × Fab Tag} {j : Nat}
    (hx : (x, j) ∈ (drainRow r root col row).zip (List.range (drainRow r root col row).length)) :
    Piece r root (root.dest + 64 * root.pitch * row + 128 * col * outWidth (drainCtl root.ctl.toNat).fmt / 8 +
      j * (if outWidth (drainCtl root.ctl.toNat).fmt = 4 then 1 else outWidth (drainCtl root.ctl.toNat).fmt / 8)) x.1 := by
  refine ⟨_, List.mem_flatMap.2 ⟨row, List.mem_range.2 hrow, List.mem_flatMap.2 ⟨col, List.mem_filter.2
    ⟨List.mem_range.2 hcol, ?_⟩, List.mem_map.2 ⟨_, hx, rfl⟩⟩⟩, rfl, rfl⟩
  obtain ⟨z, hz, hc⟩ := hmem
  exact List.any_eq_true.2 ⟨z, hz, decide_eq_true hc⟩

/-- An element of a row that is no 4-bit element. -/
theorem piece_element (hrow : row < (drainCtl root.ctl.toNat).rows) (hcol : col < 16)
    (hmem : ∃ z ∈ roundWords r.items r.peers, (drainCtl z.2.toNat).col = col)
    (hw : outWidth (drainCtl root.ctl.toNat).fmt ≠ 4) {j : Nat} (hj : j < 128) :
    Piece r root (root.dest + 64 * root.pitch * row + 128 * col * outWidth (drainCtl root.ctl.toNat).fmt / 8 +
      j * (outWidth (drainCtl root.ctl.toNat).fmt / 8)) (toBytes (outWidth (drainCtl root.ctl.toNat).fmt / 8)
        (drainElem r root col (128 * row + j)).x.1) := by
  have hrowEq : drainRow r root col row = (List.range 128).map (fun j =>
      (toBytes (outWidth (drainCtl root.ctl.toNat).fmt / 8) (drainElem r root col (128 * row + j)).x.1,
        { x := (drainElem r root col (128 * row + j)).x.2, sticky := (drainElem r root col (128 * row + j)).sticky
          pairs := (drainElem r root col (128 * row + j)).pairs })) := if_neg hw
  have hp := piece_of_row hrow hcol hmem (hrowEq ▸ mem_zip_range _ hj)
  rwa [if_neg hw] at hp

/-- Two 4-bit elements of a row in their byte. -/
theorem piece_pair (hrow : row < (drainCtl root.ctl.toNat).rows) (hcol : col < 16)
    (hmem : ∃ z ∈ roundWords r.items r.peers, (drainCtl z.2.toNat).col = col)
    (hw : outWidth (drainCtl root.ctl.toNat).fmt = 4) {j : Nat} (hj : j < 64) :
    Piece r root (root.dest + 64 * root.pitch * row + 128 * col * outWidth (drainCtl root.ctl.toNat).fmt / 8 + j)
      [BitVec.ofNat 8 ((drainElem r root col (128 * row + 2 * j)).x.1 % 16 +
        16 * ((drainElem r root col (128 * row + (2 * j + 1))).x.1 % 16))] := by
  have hrowEq : drainRow r root col row = (List.range 64).map (fun j =>
      let a := drainElem r root col (128 * row + 2 * j)
      let b := drainElem r root col (128 * row + (2 * j + 1))
      ([BitVec.ofNat 8 (a.x.1 % 16 + 16 * (b.x.1 % 16))],
        ({ x := mergeTag a.x.2 b.x.2, sticky := a.sticky ||| b.sticky
           pairs := a.pairs ++ b.pairs ++ absorptions [a.x.2, b.x.2] } : Fab Tag))) := if_pos hw
  have hp := piece_of_row hrow hcol hmem (hrowEq ▸ mem_zip_range _ hj)
  rwa [if_pos hw, Nat.mul_one] at hp

/-! ### What the root produces -/

/-- A piece of a drain writes its bytes to its place. -/
def PieceCell (s : State) (g : Agent) (x : Nat × List Byte × Fab Tag) (dest : EngineDest) (a : Nat) (b : Byte) : Prop :=
  ∃ pa j, engineCheck s g .store x.1 x.2.1.length = .ok pa ∧ j < x.2.1.length ∧ dest = .memory ∧ a = pa + j ∧
    b = nth x.2.1 j 0

/-- The pieces of a drain all of which pass their checks are produced. -/
theorem drainRun_adds {s : State} {c : Nat} {e : Entry} (hall : ∀ x ∈ drainPieces r root, ∃ pa,
      engineCheck s (entryAgent s c e e.pkr) .store x.1 x.2.1.length = .ok pa) :
    Adds {} (drainRun s c e r root) (fun dest a b => ∃ x ∈ drainPieces r root,
      PieceCell s (entryAgent s c e e.pkr) x dest a b) := by
  refine adds_foldl (fun p hp x hx => ?_) {} rfl
  obtain ⟨pa, hpa⟩ := hall x hx
  rw [if_neg (by rw [hp]; decide), hpa]
  dsimp only
  refine (adds_element (p' := { p with
    cells := p.cells ++ cellsOf (.memory, pa) (x.2.1.map (fun b => (b, x.2.2.x))), pages := x.1 :: p.pages })
    (.memory, pa) (x.2.1.map (fun b => (b, x.2.2.x))) hp rfl rfl rfl).congr (fun dest a b => ?_)
  have hbyte (j : Nat) (hj : j < x.2.1.length) : (nth (x.2.1.map (fun b => (b, x.2.2.x))) j (0, .clean)).1 = nth x.2.1 j 0 := by
    unfold nth
    rw [List.getD_eq_getElem _ _ (by rw [List.length_map]; exact hj), List.getD_eq_getElem _ _ hj, List.getElem_map]
  rw [List.length_map]
  constructor
  · rintro ⟨j, hj, hd, ha, hb⟩
    exact ⟨pa, j, hpa, hj, hd, ha, hb.trans (hbyte j hj)⟩
  · rintro ⟨pa', j, hpa', hj, hd, ha, hb⟩
    cases hpa.symm.trans hpa'
    exact ⟨j, hj, hd, ha, hb.trans (hbyte j hj).symm⟩

/-! ### The entries of a round -/

/-- A contribution with its values as a partition sees them. -/
def seenItem (see : Tag → Tag) (y : Contribution) : Contribution :=
  { y with elems := y.elems.map (fun x => (x.1, { x.2 with tag := see x.2.tag }))
           lanes := y.lanes.map (fun x => { x with tag := see x.tag }) }

theorem seenRound_items (see : Tag → Tag) (r : Round) : (seenRound see r).items = r.items.map (seenItem see) := rfl

/-- A round whose members agree is seen as one. -/
theorem not_mismatched (see : Tag → Tag) {r : Round} (hm : r.mismatch = false) : ¬ (seenRound see r).mismatch = true :=
  ne_true_of_eq_false hm

theorem not_draining (see : Tag → Tag) {r : Round} (hd : r.drain = false) : ¬ (seenRound see r).drain = true :=
  ne_true_of_eq_false hd

section
variable {s : State} {c p n : Nat} {e : Entry} {r : Round} (hr : roundOf s p n = some r)
include hr

/-- An entry of a round whose members differ only fails. -/
theorem performRound_mismatch (hm : r.mismatch = true) :
    performRound s c e p n = some (modEntryOf s c 5 e.id (fun z => { z with stage := .releasing })) := by
  unfold performRound
  rw [hr]
  exact if_pos hm

/-- The root of a drain round. -/
theorem performRound_root (hm : r.mismatch = false) (hdue : r.due ≤ s.now) (hd : r.drain = true) {root : Contribution}
    {l : List Contribution} (hi : r.items = root :: l) (hid : root.entry.id = e.id) :
    let seen := seenRound (seeTag s.tags p) r
    let root' := seenItem (seeTag s.tags p) root
    performRound s c e p n = some (produced { modPart s p (fun q => { q with
      rounds := mmod q.rounds n (fun r => { r with performed := true, sticky := (drainMarks seen root').1 }) }) with
      tags := absorb s.tags (drainMarks seen root').2 } c 5 e e.pkr (drainRun s c e seen root')) := by
  unfold performRound
  rw [hr]
  refine (if_neg (not_mismatched (seeTag s.tags p) hm)).trans ?_
  refine (if_neg (Nat.not_lt.2 hdue)).trans ((if_pos hd).trans ?_)
  rw [seenRound_items, hi]
  exact if_pos hid

/-- Another member of a drain round only waits. -/
theorem performRound_other (hm : r.mismatch = false) (hdue : r.due ≤ s.now) (hd : r.drain = true) {root : Contribution}
    {l : List Contribution} (hi : r.items = root :: l) (hid : root.entry.id ≠ e.id) :
    performRound s c e p n = some (modEntryOf s c 5 e.id (fun z => { z with stage := .releasing })) := by
  unfold performRound
  rw [hr]
  refine (if_neg (not_mismatched (seeTag s.tags p) hm)).trans ?_
  refine (if_neg (Nat.not_lt.2 hdue)).trans ((if_pos hd).trans ?_)
  rw [seenRound_items, hi]
  exact if_neg hid

/-- A member of a reduction round keeps its lanes for its completion. -/
theorem performRound_reduction (hm : r.mismatch = false) (hdue : r.due ≤ s.now) (hd : r.drain = false)
    (hmem : ∃ y ∈ r.items, y.entry.id = e.id) :
    let out := credLanes (seenRound (seeTag s.tags p) r)
    ∃ z, performRound s c e p n = some (modEntryOf { s with tags := absorb s.tags (out.flatMap (·.pairs)) } c 5 e.id
      (readyWith s e (out.foldl (fun f z => f ||| z.sticky) 0) (credResults (seenRound (seeTag s.tags p) r) z) [])) := by
  obtain ⟨y, hy, hid⟩ := hmem
  obtain ⟨z, hz⟩ : ∃ z, (r.items.map (seenItem (seeTag s.tags p))).find? (fun y => decide (y.entry.id = e.id)) = some z :=
    Option.isSome_iff_exists.1 (List.find?_isSome.2 ⟨_, List.mem_map_of_mem hy, decide_eq_true hid⟩)
  refine ⟨z, ?_⟩
  unfold performRound
  rw [hr]
  refine (if_neg (not_mismatched (seeTag s.tags p) hm)).trans ?_
  refine (if_neg (Nat.not_lt.2 hdue)).trans ((if_neg (not_draining (seeTag s.tags p) hd)).trans ?_)
  rw [seenRound_items, hz]

end

/-- What the root of a drain round holds: the converted elements of each row, and nothing outside its pieces (R264). -/
def DrainHeld (s0 : State) (c : Nat) (e : Entry) (r : Round) (root : Contribution) (hs : List Held) : Prop :=
  let y := drainCtl root.ctl.toNat
  let w := outWidth y.fmt
  let put (va : Nat) (bytes : List Byte) : Prop := ∃ pa,
    engineCheck s0 (entryAgent s0 c e e.pkr) .store va bytes.length = .ok pa ∧
    ∀ j, j < bytes.length → HoldsByte hs e.id 5 .memory (pa + j) (nth bytes j 0)
  let value (col row j : Nat) : Nat := (drainElem r root col (128 * row + j)).x.1
  (∀ row col, row < y.rows → col < 16 → (∃ z ∈ roundWords r.items r.peers, (drainCtl z.2.toNat).col = col) →
    let base := root.dest + 64 * root.pitch * row + 128 * col * w / 8
    (w ≠ 4 → ∀ j, j < 128 → put (base + j * (w / 8)) (toBytes (w / 8) (value col row j))) ∧
    (w = 4 → ∀ j, j < 64 → put (base + j)
      [BitVec.ofNat 8 (value col row (2 * j) % 16 + 16 * (value col row (2 * j + 1) % 16))])) ∧
  ∀ dest a b, HoldsByte hs e.id 5 dest a b → dest = .memory ∧ ∃ x ∈ drainPieces r root, ∃ pa,
    engineCheck s0 (entryAgent s0 c e e.pkr) .store x.1 x.2.1.length = .ok pa ∧ pa ≤ a ∧ a < pa + x.2.1.length

theorem drainHeld_of {s0 : State} {c : Nat} {e : Entry} {r : Round} {root : Contribution} {hs : List Held}
    (hall : ∀ x ∈ drainPieces r root, ∃ pa, engineCheck s0 (entryAgent s0 c e e.pkr) .store x.1 x.2.1.length = .ok pa)
    (hh : ∀ dest a b, HoldsByte hs e.id 5 dest a b ↔ ∃ x ∈ drainPieces r root,
      PieceCell s0 (entryAgent s0 c e e.pkr) x dest a b) : DrainHeld s0 c e r root hs := by
  have hput : ∀ va bytes, Piece r root va bytes → ∃ pa,
      engineCheck s0 (entryAgent s0 c e e.pkr) .store va bytes.length = .ok pa ∧
      ∀ j, j < bytes.length → HoldsByte hs e.id 5 .memory (pa + j) (nth bytes j 0) := by
    rintro va bytes ⟨x, hx, rfl, rfl⟩
    obtain ⟨pa, hpa⟩ := hall x hx
    exact ⟨pa, hpa, fun j hj => (hh _ _ _).2 ⟨x, hx, pa, j, hpa, hj, rfl, rfl, rfl⟩⟩
  refine ⟨fun row col hrow hcol hmem => ⟨fun hw j hj => hput _ _ (piece_element hrow hcol hmem hw hj),
    fun hw j hj => hput _ _ (piece_pair hrow hcol hmem hw hj)⟩, fun dest a b hb => ?_⟩
  obtain ⟨x, hx, pa, j, hpa, hj, hd, rfl, -⟩ := (hh dest a b).1 hb
  exact ⟨hd, x, hx, pa, hpa, Nat.le_add_right _ _, Nat.add_lt_add_left hj _⟩

section
variable {s : State} {c p n : Nat} {e : Entry} {rest : List Entry} {r : Round}

/-- An entry that holds no writes only waits. -/
theorem performs_waiting {q : Nat} (h : MayPerform s c q e rest) {s1 : State} {f : Entry → Entry}
    (hw : workDone s c q e = some (modEntryOf s1 c q e.id f)) (hheld : s1.held = s.held) (hblocks : s1.blocks = s.blocks)
    (hf : ∀ z, (f z).stage = .releasing) {P : List Held → Prop} (hP : P []) :
    Performs s c q e (Holding s q e P) := by
  refine ⟨_, exec_perform h hw, ⟨[], hheld.trans (List.append_nil _).symm, by simp, hP⟩, fun _ k a => ?_, fun z hz => ?_⟩
  · exact congrArg (fun b : Map Block => memGet (mgetD b k {}).spad a) hblocks
  · rw [entries_modEntryOf] at hz
    exact mem_changed (P := fun z => z.stage = .releasing) hf z hz

theorem workDone_drain (hw : e.work = .drain p n) : workDone s c 5 e = performRound (begun s c 5 e) c e p n := by
  unfold workDone
  rw [hw]

/-- An entry of a round does its work. -/
theorem drain_performs (h : MayPerform s c 5 e rest) (hw : e.work = .drain p n) (hr : roundOf s p n = some r)
    (hmay : r.mismatch = true ∨ r.due ≤ s.now ∧ ∃ y ∈ r.items, y.entry.id = e.id) :
    Performs s c 5 e (Holding s 5 e (fun hs =>
      (r.mismatch = true ∨ r.drain = false ∨ (∀ root, r.items.head? = some root → root.entry.id ≠ e.id) → hs = []) ∧
      ∀ root l, (seenRound (seeTag (synced s c 5 e).tags p) r).items = root :: l → root.entry.id = e.id →
        r.mismatch = false → r.drain = true → (∀ x ∈ drainPieces (seenRound (seeTag (synced s c 5 e).tags p) r) root, ∃ pa,
          engineCheck (synced s c 5 e) (entryAgent (synced s c 5 e) c e e.pkr) .store x.1 x.2.1.length = .ok pa) →
        DrainHeld (synced s c 5 e) c e (seenRound (seeTag (synced s c 5 e).tags p) r) root hs)) := by
  have hsame := begun_same s c 5 e
  have hround : roundOf (begun s c 5 e) p n = some r :=
    (congrArg (fun m : Map Partition => mget (mgetD m p {}).rounds n) hsame.parts).trans hr
  have hdone := workDone_drain (s := s) (c := c) hw
  cases hm : r.mismatch with
  | true =>
    rw [performRound_mismatch hround hm] at hdone
    exact performs_waiting h hdone hsame.held hsame.blocks (fun _ => rfl)
      ⟨fun _ => rfl, fun _ _ _ _ h => absurd h (by decide)⟩
  | false =>
    obtain ⟨hnow, hmem⟩ := hmay.resolve_left (by rw [hm]; decide)
    have hdue : r.due ≤ (begun s c 5 e).now := hsame.now ▸ hnow
    cases hd : r.drain with
    | false =>
      obtain ⟨z, hz⟩ := performRound_reduction hround hm hdue hd hmem
      rw [hz] at hdone
      exact performs_waiting h hdone hsame.held hsame.blocks (fun _ => rfl)
        ⟨fun _ => rfl, fun _ _ _ _ _ h => absurd h (by decide)⟩
    | true =>
      cases hi : r.items with
      | nil =>
        obtain ⟨y, hy, -⟩ := hmem
        rw [hi] at hy
        exact absurd hy (by simp)
      | cons root0 l0 =>
        rw [seenRound_items, hi, List.map_cons]
        by_cases hid : root0.entry.id = e.id
        · rw [performRound_root hround hm hdue hd hi hid] at hdone
          refine performs_produced h hdone hsame.held (fun _ => hsame.blocks) (fun hs heff => ⟨?_, ?_⟩)
          · rintro (h | h | h)
            · exact absurd h (by decide)
            · exact absurd h (by decide)
            · exact absurd hid (h root0 rfl)
          · rintro root l hroot hid' - - hall
            obtain ⟨rfl, -⟩ := List.cons.inj hroot
            refine drainHeld_of hall (fun dest a b => ?_)
            have hadds := drainRun_adds (s := begun s c 5 e) (c := c) (e := e) (fun x hx => by
              obtain ⟨pa, hpa⟩ := hall x hx
              exact ⟨pa, (begun_check _ _ _ _ _ _ _ _).trans hpa⟩)
            refine (holdsByte_adds hadds heff dest a b).trans ?_
            simp only [PieceCell, begun_check, begun_agent]
        · rw [performRound_other hround hm hdue hd hi hid] at hdone
          refine performs_waiting h hdone hsame.held hsame.blocks (fun _ => rfl) ⟨fun _ => rfl, fun root l hroot hid' => ?_⟩
          obtain ⟨rfl, -⟩ := List.cons.inj hroot
          exact absurd hid' hid

end

end Sys2Proof.Machine.QueuesAndCopies
end

section
/-! SUPPORT. The product of an array (R63, R64, R256): the accumulator elements of every row of A and of B. -/

namespace Sys2Proof.Machine.QueuesAndCopies

open NumberFormats ExecutionContexts

/-! ### What tags leave -/

/-- Two accumulator elements of the same value, and the same flags. -/
def SameValue (x y : AccElem × Sticky) : Prop := x.1.bits = y.1.bits ∧ x.1.lost = y.1.lost ∧ x.2 = y.2

/-- Steps that keep values the same keep them over a list. -/
theorem sameValue_foldl {α : Type} {f : AccElem × Sticky → α → AccElem × Sticky}
    (hf : ∀ x y l, SameValue x y → SameValue (f x l) (f y l)) (l : List α) {x y : AccElem × Sticky} (h : SameValue x y) :
    SameValue (l.foldl f x) (l.foldl f y) := by
  induction l generalizing x y with
  | nil => exact h
  | cons z r ih => exact ih (hf x y z h)

theorem fixGroup_sameValue (p : Nat) (x y : AccElem × Sticky) (l : List Term) (h : SameValue x y) :
    SameValue (fixGroup p x l) (fixGroup p y l) := by
  obtain ⟨hb, hl, hs⟩ := h
  unfold fixGroup
  dsimp only
  split
  · exact ⟨by dsimp only; rw [hb], by dsimp only; rw [hl], by dsimp only; rw [hb, hs]⟩
  · exact ⟨hb, hl, by dsimp only; rw [hs]⟩

/-- The value an accumulation gives does not depend on tags. -/
theorem accumulate_sameValue (slot : Nat) {x y : AccElem} (hb : x.bits = y.bits) (hl : x.lost = y.lost) (a b : List MElem)
    (s t : Tag) : (accumulate slot x a b s).1.bits = (accumulate slot y a b t).1.bits ∧
      (accumulate slot x a b s).1.lost = (accumulate slot y a b t).1.lost := by
  have hxy : SameValue (x, 0) (y, 0) := ⟨hb, hl, rfl⟩
  unfold accumulate
  dsimp only
  split
  · have h := sameValue_foldl (f := fun (z : AccElem × Sticky) (l : List Term) =>
      let c := chunkSum l
      let s := f96Add z.1.bits.toNat c.1
      ({ z.1 with bits := BitVec.ofNat 96 s.1 }, z.2 ||| c.2 ||| s.2)) (fun x y l h => by
        obtain ⟨hb, hl, hs⟩ := h
        exact ⟨by dsimp only; rw [hb], hl, by dsimp only; rw [hb, hs]⟩)
      (chunksOf 16 ((a.zip b).map (fun y => termOf (fsA slot) (fsB slot) y.1 y.2)).length
        ((a.zip b).map (fun y => termOf (fsA slot) (fsB slot) y.1 y.2))) hxy
    exact ⟨h.1, h.2.1⟩
  · have h := sameValue_foldl (fixGroup_sameValue (fsP slot))
      (chunksOf (if groupSize (fsA slot) (fsScale slot) = 16 ∨ groupSize (fsB slot) (fsScale slot) = 16 then 16 else 32)
        ((a.zip b).map (fun y => termOf (fsA slot) (fsB slot) y.1 y.2)).length
        ((a.zip b).map (fun y => termOf (fsA slot) (fsB slot) y.1 y.2))) hxy
    exact ⟨h.1, h.2.1⟩

/-- A tile row's elements are those of its bytes. -/
theorem tileRow_shown (s : State) (k w f sm r : Nat) :
    (tileRow (shownBlock s k) w f sm r).1 = (tileRow (blockOf s k) w f sm r).1 := by
  unfold tileRow
  dsimp only
  split <;> rfl

/-- An accumulator element as a partition sees it. -/
def seenElem (see : Tag → Tag) (x : AccElem) : AccElem := { x with tag := see x.tag }

/-- An accumulator element as its partition sees it has the same value. -/
theorem acc_shown (s : State) (k n : Nat) :
    (mgetD (shownBlock s k).acc n {}).bits = (mgetD (blockOf s k).acc n {}).bits ∧
      (mgetD (shownBlock s k).acc n {}).lost = (mgetD (blockOf s k).acc n {}).lost := by
  have hmap : mget (shownBlock s k).acc n = (mget (blockOf s k).acc n).map (seenElem (seeTag s.tags (partOfBlock s k))) :=
    mget_map (seenElem (seeTag s.tags (partOfBlock s k))) _ _
  unfold mgetD
  rw [hmap]
  cases mget (blockOf s k).acc n <;> exact ⟨rfl, rfl⟩

/-! ### Rows -/

/-- The operand row of A that the tile rows `rows i` are gathered into, its tag, and whether QX_OVERFLOW is set. -/
def operandRow (b : Block) (ca slot : Nat) (rows : Nat → List Nat) (i : Nat) : List MElem × Tag × Bool :=
  (rows i).foldl (fun x r =>
    let y := tileRow b ca (fsA slot) (fsScale slot) r
    (x.1 ++ y.1, mergeTag x.2.1 y.2.1, x.2.2 || y.2.2)) ([], .clean, false)

theorem operandRow_elements (b : Block) (ca slot : Nat) (rows : Nat → List Nat) (i : Nat) :
    (operandRow b ca slot rows i).1 = (rows i).flatMap (fun x => (tileRow b ca (fsA slot) (fsScale slot) x).1) := by
  have hfold : ∀ (l : List Nat) (x : List MElem × Tag × Bool), (l.foldl (fun x r =>
      let y := tileRow b ca (fsA slot) (fsScale slot) r
      (x.1 ++ y.1, mergeTag x.2.1 y.2.1, x.2.2 || y.2.2)) x).1 =
        x.1 ++ l.flatMap (fun x => (tileRow b ca (fsA slot) (fsScale slot) x).1) := by
    intro l
    induction l with
    | nil => exact fun x => (List.append_nil _).symm
    | cons r l ih => exact fun x => (ih _).trans (by rw [List.flatMap_cons, List.append_assoc])
  exact hfold (rows i) _

/-- An element of one list beside its index in another range. -/
theorem mem_zip_ranges {α : Type} (f : Nat → α) (r n : Nat) (x : α) (j : Nat) :
    (x, j) ∈ ((List.range r).map f).zip (List.range n) ↔ j < r ∧ j < n ∧ x = f j := by
  constructor
  · intro h
    obtain ⟨i, hi, he⟩ := List.mem_iff_getElem.1 h
    rw [List.getElem_zip, List.getElem_map, List.getElem_range, List.getElem_range] at he
    cases he
    rw [List.length_zip, List.length_map, List.length_range, List.length_range] at hi
    exact ⟨by omega, by omega, rfl⟩
  · rintro ⟨hr, hn, rfl⟩
    refine List.mem_iff_getElem.2 ⟨j, ?_, ?_⟩
    · rw [List.length_zip, List.length_map, List.length_range, List.length_range]
      omega
    · rw [List.getElem_zip, List.getElem_map, List.getElem_range, List.getElem_range]

/-- The elements a product gives. -/
theorem mem_productInto (b : Block) (slot cb t m : Nat) (a : Nat → List MElem × Tag × Bool) (p : Nat) (v : AccElem) :
    (p, v) ∈ (productInto b slot cb t m a).1 ↔ ∃ i n, i < m ∧ n < tcRows cb ∧ n < 128 ∧ p = 8192 * t + 128 * i + n ∧
      v = (accumulate slot (mgetD b.acc (8192 * t + 128 * i + n) {}) (a i).1 (tileRow b cb (fsB slot) (fsScale slot) n).1
        (mergeTag (a i).2.1 (tileRow b cb (fsB slot) (fsScale slot) n).2.1)).1 := by
  unfold productInto
  dsimp only
  simp only [List.mem_map, List.mem_flatMap, List.mem_range]
  constructor
  · rintro ⟨z, ⟨i, hi, y, hy, rfl⟩, he⟩
    obtain ⟨hr, hn, hx⟩ := (mem_zip_ranges _ _ _ y.1 y.2).1 hy
    cases he
    exact ⟨i, y.2, hi, hr, hn, rfl, by rw [hx]⟩
  · rintro ⟨i, n, hi, hr, hn, rfl, rfl⟩
    exact ⟨_, ⟨i, hi, (_, n), (mem_zip_ranges _ _ _ _ n).2 ⟨hr, hn, rfl⟩, rfl⟩, rfl⟩

/-- The product of shown blocks is the product of the blocks (R256). -/
theorem product_shown (s : State) (k k2 slot ca cb t m : Nat) (rows : Nat → List Nat) :
    Product (blockOf s k) (blockOf s k2) slot ca cb t m rows
      (productInto (shownBlock s k2) slot cb t m (operandRow (shownBlock s k) ca slot rows)).1 := by
  refine ⟨fun p => ?_, fun i n v hi hr hn hv => ?_⟩
  · simp only [mem_productInto]
    constructor
    · rintro ⟨v, i, n, hi, hr, hn, hp, -⟩
      exact ⟨i, n, hi, hr, hn, hp⟩
    · rintro ⟨i, n, hi, hr, hn, hp⟩
      exact ⟨_, i, n, hi, hr, hn, hp, rfl⟩
  · obtain ⟨i', n', -, -, hn', hp, rfl⟩ := (mem_productInto _ _ _ _ _ _ _ _).1 hv
    obtain ⟨rfl, rfl⟩ : i' = i ∧ n' = n := by omega
    obtain ⟨hbits, hlost⟩ := acc_shown s k2 (8192 * t + 128 * i' + n')
    have hrow : (operandRow (shownBlock s k) ca slot rows i').1 =
        (rows i').flatMap (fun x => (tileRow (blockOf s k) ca (fsA slot) (fsScale slot) x).1) := by
      rw [operandRow_elements]
      simp only [tileRow_shown]
    rw [hrow, tileRow_shown]
    exact accumulate_sameValue slot hbits hlost _ _ _ _

end Sys2Proof.Machine.QueuesAndCopies
end

section
/-! PROOF. A multiply starts (R253, R255 to R257). -/

namespace Sys2Proof.Machine.QueuesAndCopies

open NumberFormats ExecutionContexts

/-- A core whose array an entry has taken until a cycle. -/
def arrayTaken (id until_ : Nat) (x : Core) : Core :=
  { x with array := { x.array with busy := some id, until_ := until_, turn := false } }

/-- A core whose array is granted no more. -/
def unslaved (x : Core) : Core := { x with array := { x.array with slaved := false } }

/-- An entry that has its product. -/
def withProduct (now : Nat) (l : List (Nat × List (Nat × AccElem))) (f : Sticky) (z : Entry) : Entry :=
  { z with stage := .started now, product := l, sticky := f }

/-- An entry whose partner's tile misfits. -/
def misfitted (z : Entry) : Entry := { z with stage := .releasing, fail := some (.tileShape, 0) }

/-- The array of a core taken by an entry at the head of `qm`, which has its product. -/
def startedArray (s : State) (c : Nat) (e : Entry) (now until_ : Nat) (l : List (Nat × List (Nat × AccElem))) (f : Sticky) :
    State :=
  modEntryOf (modCore s c (arrayTaken e.id until_)) c 4 e.id (withProduct now l f)

section
variable {s : State} {c k : Nat} {e : Entry} {win : Bool} {slot ca cb wa : Word} {x y z m kk : Nat} {rows : Nat → List Nat}
  (hw : e.work = .mma win slot x y z ca cb wa) (hk : e.block.getD 0 = k)
include hw

theorem mmaStart_noShape (hs : productShape slot.toNat ca.toNat wa.toNat win = none) : mmaStart s c e = s := by
  unfold mmaStart
  rw [hw]
  dsimp only
  rw [hs]

include hk

/-- A multiply without a partner. -/
theorem mmaStart_own (hs : productShape slot.toNat ca.toNat wa.toNat win = some (m, kk, rows)) (hp : partnerOf s k = none) :
    ∃ tags f, mmaStart s c e = startedArray { s with tags := tags } c e s.now (s.now + arrayTime slot.toNat kk)
      [(k, (productInto (shownBlock s k) slot.toNat cb.toNat x m (operandRow (shownBlock s k) ca.toNat slot.toNat rows)).1)] f := by
  subst hk
  unfold mmaStart
  rw [hw]
  dsimp only
  rw [hs]
  dsimp only
  rw [hp]
  exact ⟨_, _, rfl⟩

/-- The partner block's tile has no shape of the multiply. -/
def Misfits (slot kk cb2 : Nat) : Prop :=
  tcElem cb2 ≠ fsB slot ∨ tcRows cb2 = 0 ∨ tileK cb2 (fsB slot) (fsScale slot) ≠ kk

/-- The configuration of the partner's tile. -/
def partnerConf (s : State) (k2 z : Nat) : Nat := (mgetD (blockOf s k2).tconf z 0).toNat

/-- A multiply whose partner's tile misfits fails. -/
theorem mmaStart_misfits (hs : productShape slot.toNat ca.toNat wa.toNat win = some (m, kk, rows)) {k2 : Nat}
    (hp : partnerOf s k = some k2) (hbad : Misfits slot.toNat kk (partnerConf s k2 z)) :
    mmaStart s c e = modEntryOf (modCore s (shownBlock s k2).core unslaved) c 4 e.id misfitted := by
  subst hk
  unfold mmaStart
  rw [hw]
  dsimp only
  rw [hs]
  dsimp only
  rw [hp]
  exact if_pos hbad

/-- A multiply of both arrays. -/
theorem mmaStart_both (hs : productShape slot.toNat ca.toNat wa.toNat win = some (m, kk, rows)) {k2 : Nat}
    (hp : partnerOf s k = some k2) (hfit : ¬ Misfits slot.toNat kk (partnerConf s k2 z)) :
    ∃ tags f, mmaStart s c e = startedArray { s with tags := tags } c e s.now (s.now + arrayTime slot.toNat kk)
      [(k, (productInto (shownBlock s k) slot.toNat cb.toNat x m (operandRow (shownBlock s k) ca.toNat slot.toNat rows)).1),
       (k2, (productInto (shownBlock s k2) slot.toNat (partnerConf s k2 z) x m
          (operandRow (shownBlock s k) ca.toNat slot.toNat rows)).1)] f := by
  subst hk
  unfold mmaStart
  rw [hw]
  dsimp only
  rw [hs]
  dsimp only
  rw [hp]
  refine ⟨_, _, (if_neg hfit).trans rfl⟩

end

/-! ### What a start leaves -/

/-- A core changed beside its queues. -/
theorem queueAt_modArray (s : State) (j c q : Nat) (f : Core → Core) (hf : ∀ x, (f x).queues = x.queues) :
    queueAt (coreOf (modCore s j f) c) q = queueAt (coreOf s c) q := by
  unfold queueAt
  show nth (mgetD (mset s.cores j (f (coreOf s j))) c {}).queues q {} = _
  rw [mgetD_mset]
  split
  · next h => rw [h, hf]
  · rfl

theorem startedArray_busy (s : State) (c : Nat) (e : Entry) (now until_ : Nat) (l : List (Nat × List (Nat × AccElem)))
    (f : Sticky) : (coreOf (startedArray s c e now until_ l f) c).array.busy = some e.id := by
  unfold startedArray modEntryOf
  rw [coreOf_modCore, coreOf_modCore]
  rfl

/-- The entries of a queue whose head was changed. -/
theorem entries_changedHead {s : State} {c q : Nat} {x : Entry} {rest : List Entry}
    (h : (queueAt (coreOf s c) q).entries = x :: rest) (f : Entry → Entry) :
    ∃ rest', (queueAt (coreOf (modEntryOf s c q x.id f) c) q).entries = f x :: rest' := by
  refine ⟨rest.map (fun z => if z.id = x.id then f z else z), ?_⟩
  rw [entries_modEntryOf, h, List.map_cons, if_pos rfl]

theorem startedArray_entries {s : State} {c : Nat} {e x : Entry} {rest : List Entry} (hid : x.id = e.id)
    (h : (queueAt (coreOf s c) 4).entries = x :: rest) (now until_ : Nat) (l : List (Nat × List (Nat × AccElem))) (f : Sticky) :
    ∃ e' rest', (queueAt (coreOf (startedArray s c e now until_ l f) c) 4).entries = e' :: rest' ∧ e'.id = e.id ∧ e'.product = l := by
  have hq : (queueAt (coreOf (modCore s c (arrayTaken e.id until_)) c) 4).entries = x :: rest :=
    (congrArg Queue.entries (queueAt_modArray s c c 4 (arrayTaken e.id until_) (fun _ => rfl))).trans h
  obtain ⟨rest', hrest⟩ := entries_changedHead hq (withProduct now l f)
  rw [hid] at hrest
  exact ⟨_, rest', hrest, hid, rfl⟩

section
variable {s : State} {c : Nat} {e : Entry} {win : Bool} {slot ca cb wa : Word} {x y z : Nat}
  (hw : e.work = .mma win slot x y z ca cb wa)
include hw

/-- The start of a multiply leaves the held effects and the blocks. -/
theorem mmaStart_keeps : (mmaStart s c e).held = s.held ∧ (mmaStart s c e).blocks = s.blocks := by
  cases hs : productShape slot.toNat ca.toNat wa.toNat win with
  | none =>
    rw [mmaStart_noShape hw hs]
    exact ⟨rfl, rfl⟩
  | some r =>
    obtain ⟨m, kk, rows⟩ := r
    cases hp : partnerOf s (e.block.getD 0) with
    | none =>
      obtain ⟨tags, f, hstart⟩ := mmaStart_own hw rfl hs hp
      rw [hstart]
      exact ⟨rfl, rfl⟩
    | some k2 =>
      by_cases hbad : Misfits slot.toNat kk (partnerConf s k2 z)
      · rw [mmaStart_misfits hw rfl hs hp hbad]
        exact ⟨rfl, rfl⟩
      · obtain ⟨tags, f, hstart⟩ := mmaStart_both hw rfl hs hp hbad
        rw [hstart]
        exact ⟨rfl, rfl⟩

end

/-- The product of block `k` alone, or of it and its partner, in the entry at the head of `qm`; the failure where the
partner's tile misfits (R256, R257). -/
def Multiplied (s t : State) (c : Nat) (e : Entry) (slot ca cb : Word) (x z m kk : Nat) (rows : Nat → List Nat) : Prop :=
  let k := e.block.getD 0
  ∃ e' rest', (queueAt (coreOf t c) 4).entries = e' :: rest' ∧ e'.id = e.id ∧
    (partnerOf s k = none → ∃ l, e'.product = [(k, l)] ∧
      Product (blockOf s k) (blockOf s k) slot.toNat ca.toNat cb.toNat x m rows l) ∧
    (∀ k2, partnerOf s k = some k2 → let cb2 := (mgetD (blockOf s k2).tconf z 0).toNat
      (tcElem cb2 ≠ fsB slot.toNat ∨ tcRows cb2 = 0 ∨ tileK cb2 (fsB slot.toNat) (fsScale slot.toNat) ≠ kk →
        e'.fail = some (.tileShape, 0) ∧ e'.product = e.product) ∧
      (tcElem cb2 = fsB slot.toNat → tcRows cb2 ≠ 0 → tileK cb2 (fsB slot.toNat) (fsScale slot.toNat) = kk →
        ∃ l l2, e'.product = [(k, l), (k2, l2)] ∧
          Product (blockOf s k) (blockOf s k) slot.toNat ca.toNat cb.toNat x m rows l ∧
          Product (blockOf s k) (blockOf s k2) slot.toNat ca.toNat cb2 x m rows l2))

/-- The start of a multiply whose entry heads `qm`. -/
theorem mmaStart_multiplied {s : State} {c : Nat} {e e1 : Entry} {rest : List Entry} {win : Bool} {slot ca cb wa : Word}
    {x y z m kk : Nat} {rows : Nat → List Nat} (hw : e.work = .mma win slot x y z ca cb wa)
    (hs : productShape slot.toNat ca.toNat wa.toNat win = some (m, kk, rows)) (hid : e1.id = e.id)
    (hprod : e1.product = e.product) (h : (queueAt (coreOf s c) 4).entries = e1 :: rest) :
    Multiplied s (mmaStart s c e) c e slot ca cb x z m kk rows := by
  unfold Multiplied
  dsimp only
  cases hp : partnerOf s (e.block.getD 0) with
  | none =>
    obtain ⟨tags, f, hstart⟩ := mmaStart_own hw rfl hs hp
    obtain ⟨e', rest', hent, hid', hl⟩ := startedArray_entries (s := { s with tags := tags }) hid h s.now
      (s.now + arrayTime slot.toNat kk) [(e.block.getD 0, (productInto (shownBlock s (e.block.getD 0)) slot.toNat cb.toNat x m
        (operandRow (shownBlock s (e.block.getD 0)) ca.toNat slot.toNat rows)).1)] f
    rw [hstart]
    exact ⟨e', rest', hent, hid', fun _ => ⟨_, hl, product_shown _ _ _ _ _ _ _ _ _⟩, fun k2 h => absurd h (by simp)⟩
  | some k2 =>
    by_cases hbad : Misfits slot.toNat kk (partnerConf s k2 z)
    · have hq : (queueAt (coreOf (modCore s (shownBlock s k2).core unslaved) c) 4).entries = e1 :: rest :=
        (congrArg Queue.entries (queueAt_modArray s _ c 4 unslaved (fun _ => rfl))).trans h
      obtain ⟨rest', hrest⟩ := entries_changedHead hq misfitted
      rw [hid] at hrest
      rw [mmaStart_misfits hw rfl hs hp hbad]
      refine ⟨_, rest', hrest, hid, fun h => absurd h (by simp), fun k2' h => ?_⟩
      cases h
      exact ⟨fun _ => ⟨rfl, hprod⟩, fun h1 h2 h3 => absurd hbad
        (not_or.2 ⟨not_not_intro h1, not_or.2 ⟨h2, not_not_intro h3⟩⟩)⟩
    · obtain ⟨tags, f, hstart⟩ := mmaStart_both hw rfl hs hp hbad
      obtain ⟨e', rest', hent, hid', hl⟩ := startedArray_entries (s := { s with tags := tags }) hid h s.now
        (s.now + arrayTime slot.toNat kk) [(e.block.getD 0, (productInto (shownBlock s (e.block.getD 0)) slot.toNat cb.toNat x m
          (operandRow (shownBlock s (e.block.getD 0)) ca.toNat slot.toNat rows)).1),
          (k2, (productInto (shownBlock s k2) slot.toNat (partnerConf s k2 z) x m
          (operandRow (shownBlock s (e.block.getD 0)) ca.toNat slot.toNat rows)).1)] f
      rw [hstart]
      refine ⟨e', rest', hent, hid', fun h => absurd h (by simp), fun k2' h => ?_⟩
      cases h
      exact ⟨fun h => absurd h hbad, fun _ _ _ => ⟨_, _, hl, product_shown _ _ _ _ _ _ _ _ _, product_shown _ _ _ _ _ _ _ _ _⟩⟩

/-- What a multiplication is read from: the partnership and the blocks. -/
theorem multiplied_of_same {s s' t : State} (hb : s'.blocks = s.blocks) (hp : ∀ k, partnerOf s' k = partnerOf s k) {c : Nat}
    {e : Entry} {slot ca cb : Word} {x z m kk : Nat} {rows : Nat → List Nat} (h : Multiplied s' t c e slot ca cb x z m kk rows) :
    Multiplied s t c e slot ca cb x z m kk rows := by
  have hblock : ∀ k, blockOf s' k = blockOf s k := fun k => congrArg (fun m : Map Block => mgetD m k {}) hb
  unfold Multiplied at h ⊢
  simp only [hp, hblock] at h
  exact h

/-- A multiply at the head of its queue starts. -/
theorem mma_performs {s : State} {c q : Nat} {e : Entry} {rest : List Entry} (h : MayPerform s c q e rest) {win : Bool}
    {slot ca cb wa : Word} {x y z : Nat} (hw : e.work = .mma win slot x y z ca cb wa) (hmay : mmaMay s c e = true) :
    Made (.engineEntryPerform c q) s (fun t => t.held = s.held ∧ (NoErrors s → t.blocks = s.blocks) ∧
      ((productShape slot.toNat ca.toNat wa.toNat win).isSome = true → partnerOf s (e.block.getD 0) = none →
        (coreOf t c).array.busy = some e.id) ∧
      ∀ m kk rows, NoErrors s → q = 4 → productShape slot.toNat ca.toNat wa.toNat win = some (m, kk, rows) →
        Multiplied s t c e slot ca cb x z m kk rows) := by
  have hsame := begun_same s c q e
  have hsearch := afterMatrix_search s c q e
  have hpartner : ∀ k, partnerOf (afterMatrix s c q e) k = partnerOf s k := fun k => by
    rw [partnerOf_of_search hsearch]
    unfold partnerOf gridOf blockOf
    rw [hsame.grids, hsame.blocks]
  obtain ⟨hheld, hblocks⟩ := mmaStart_keeps (s := afterMatrix s c q e) (c := c) hw
  have hclean : NoErrors s → (afterMatrix s c q e).blocks = s.blocks := fun hno => by
    rw [afterMatrix_clean hno]
    exact hsame.blocks
  have hdone : workDone s c q e = some (mmaStart (afterMatrix s c q e) c e) := by
    unfold workDone
    rw [hw]
    exact if_pos hmay
  refine ⟨_, exec_perform h hdone, hheld.trans ((held_of_search hsearch).trans hsame.held), fun hno => hblocks.trans (hclean hno),
    fun hs hp => ?_, fun m kk rows hno hq hs => ?_⟩
  · obtain ⟨⟨m, kk, rows⟩, hs⟩ := Option.isSome_iff_exists.1 hs
    obtain ⟨tags, f, hstart⟩ := mmaStart_own (c := c) hw rfl hs ((hpartner _).trans hp)
    rw [hstart]
    exact startedArray_busy _ _ _ _ _ _ _
  · subst hq
    obtain ⟨rest', hent⟩ := begun_entries h
    rw [← afterMatrix_clean hno] at hent
    exact multiplied_of_same (hclean hno) hpartner (mmaStart_multiplied (e1 := { e with clock := entryClock s c 4 e })
      hw hs rfl rfl hent)

end Sys2Proof.Machine.QueuesAndCopies
end

section
/-! SUPPORT. What an engine write changes when it leaves the hold-back (R178, R187, R217, R227, R302): never the held effects,
and the bytes of its destination alone. -/

namespace Sys2Proof.Machine.QueuesAndCopies

open NumberFormats ExecutionContexts

/-! ### Memory, the blocks and the held effects -/

/-- The held effects and the blocks. -/
def heldBlocks (s : State) : List Held × Map Block := (s.held, s.blocks)

/-- The held effects, the blocks and memory. -/
def heldBytes (s : State) : List Held × Map Block × List Host.Cell := (s.held, s.blocks, s.mem)

theorem heldBlocks_of_bytes {s t : State} (h : heldBytes t = heldBytes s) : heldBlocks t = heldBlocks s :=
  congrArg (fun z => (z.1, z.2.1)) h

theorem held_of_heldBlocks {s t : State} (h : heldBlocks t = heldBlocks s) : t.held = s.held := congrArg Prod.fst h

theorem blocks_of_heldBlocks {s t : State} (h : heldBlocks t = heldBlocks s) : t.blocks = s.blocks := congrArg Prod.snd h

theorem mem_of_heldBytes {s t : State} (h : heldBytes t = heldBytes s) : t.mem = s.mem := congrArg (fun z => z.2.2) h

theorem heldBlocks_of_beside {s t : State} (h : besideMemory t = besideMemory s) : heldBlocks t = heldBlocks s :=
  Prod.ext (besideMemory_held h) (besideMemory_blocks h)

/-- What holds of both branches holds of the choice. -/
theorem ite_both {α : Type} {P : α → Prop} {c : Prop} [Decidable c] {x y : α} (hx : P x) (hy : P y) : P (if c then x else y) := by
  split
  · exact hx
  · exact hy

/-- What each step over the members of a list leaves, the steps over the list leave. -/
theorem foldl_kept_mem {α β γ : Type} (g : β → γ) (f : β → α → β) (l : List α) (h : ∀ b, ∀ a ∈ l, g (f b a) = g b) (b : β) :
    g (l.foldl f b) = g b := by
  induction l generalizing b with
  | nil => rfl
  | cons x r ih =>
    rw [List.foldl_cons, ih (fun b a ha => h b a (List.mem_cons_of_mem _ ha)), h b x List.mem_cons_self]

/-! ### Ports -/

theorem failStream_heldBlocks (s : State) (x : Nat) : heldBlocks (failStream s x) = heldBlocks s := by
  unfold failStream
  split <;> rfl

theorem landPacket_heldBlocks (s : State) (x : PortWrite) : heldBlocks (landPacket s x) = heldBlocks s := by
  unfold landPacket
  split <;> rfl

theorem sendOn_heldBlocks (s : State) (x : PortWrite) : heldBlocks (sendOn s x) = heldBlocks s := by
  unfold sendOn
  split
  · exact landPacket_heldBlocks s x
  · split
    · exact (failStream_heldBlocks _ _).trans rfl
    · rfl

theorem pumpOnce_heldBlocks (l : List PortWrite) (blocked : List Nat) (s : State) :
    heldBlocks (pumpOnce l blocked s) = heldBlocks s := by
  induction l generalizing blocked s with
  | nil => rfl
  | cons x r ih =>
    unfold pumpOnce
    split
    · exact ih _ _
    · split
      · dsimp only
        split
        · exact (ih _ _).trans rfl
        · exact (ih _ _).trans rfl
        · split
          · exact (ih _ _).trans rfl
          · exact (ih _ _).trans ((sendOn_heldBlocks _ _).trans rfl)
      · exact ih _ _

theorem portWrite_heldBlocks (s : State) (part world : Nat) (bytes : List (Nat × Byte)) (tag : Tag) (clock : List Nat)
    (wave : Option Nat) : heldBlocks (portWrite s part world bytes tag clock wave) = heldBlocks s :=
  (pumpOnce_heldBlocks _ _ _).trans rfl

/-! ### Home memory -/

theorem lastAt_same {l : List (Nat × Byte)} {a : Nat} {d : Byte} (h : ∀ x ∈ l, x.1 = a → x.2 = d) : lastAt l a d = d := by
  induction l with
  | nil => rfl
  | cons x r ih =>
    unfold lastAt
    rw [List.foldl_cons]
    by_cases hx : x.1 = a
    · rw [if_pos hx, h x List.mem_cons_self hx]
      exact ih (fun y hy => h y (List.mem_cons_of_mem _ hy))
    · rw [if_neg hx]
      exact ih (fun y hy => h y (List.mem_cons_of_mem _ hy))

theorem settleFlight_mem (s : State) (n : Nat) : (settleFlight s n).mem = s.mem := by
  unfold settleFlight
  split
  · split <;> rfl
  · rfl

theorem homeBytes_mem (f : Flight) (n : Nat) (others : List Nat) (oldTag : Tag) (l : List (Nat × Byte)) (s : State) :
    (l.foldl (homeByte f n others oldTag) s).mem = memWrite s.mem l := by
  induction l generalizing s with
  | nil => rfl
  | cons x r ih => exact ih _

/-- A write that comes to its home leaves every other byte of memory: the rest of its granule is written as it stands. -/
theorem applyHome_mem (s : State) (f : Flight) (dies : List Nat) {a : Nat} (h : ∀ y ∈ f.bytes, y.1 ≠ a) :
    memGet (applyHome s f dies).mem a = memGet s.mem a := by
  unfold applyHome
  rw [settleFlight_mem]
  dsimp only
  rw [homeBytes_mem, memGet_memWrite]
  refine ite_both (P := fun l => lastAt l a (memGet s.mem a) = memGet s.mem a) (lastAt_untouched h _)
    (lastAt_same (fun x hx hxa => ?_))
  obtain ⟨k, -, rfl⟩ := List.mem_map.1 hx
  dsimp only at hxa ⊢
  rw [hxa]
  split
  · next y hy =>
    exact absurd (by simpa using List.find?_some hy) (h y (List.mem_reverse.1 (List.mem_of_find?_eq_some hy)))
  · rfl

theorem showOwn_heldBytes (f : Flight) (tag : Tag) (s : State) (x : Nat × Byte) : heldBytes (showOwn f tag s x) = heldBytes s := rfl

theorem launchWrite_heldBlocks (s : State) (dies : List Nat) (f : Flight) : heldBlocks (launchWrite s dies f) = heldBlocks s := by
  refine ite_both (P := fun t => heldBlocks t = heldBlocks s) ?_ ?_
  · exact (heldBlocks_of_beside (applyHome_beside _ _ _)).trans rfl
  · exact (heldBlocks_of_bytes (foldl_kept heldBytes _ (showOwn_heldBytes _ _) _ _)).trans rfl

/-- A write put on its way leaves every other byte of memory. -/
theorem launchWrite_mem (s : State) (dies : List Nat) (f : Flight) {a : Nat} (h : ∀ y ∈ f.bytes, y.1 ≠ a) :
    memGet (launchWrite s dies f).mem a = memGet s.mem a := by
  refine ite_both (P := fun t : State => memGet t.mem a = memGet s.mem a) ?_ ?_
  · refine (applyHome_mem _ _ _ ?_).trans rfl
    exact h
  · refine congrArg (fun z => memGet z.2.2 a) ((?_ : heldBytes _ = heldBytes s))
    exact (foldl_kept heldBytes _ (showOwn_heldBytes _ _) _ _).trans rfl

theorem performWrite_heldBlocks (s : State) (part die world : Nat) (bytes : List (Nat × Byte)) (tagOf : Nat → Tag)
    (clock : List Nat) (heads : List Head) (wave : Option Nat) (rmw : Bool) :
    heldBlocks (performWrite s part die world bytes tagOf clock heads wave rmw) = heldBlocks s := by
  refine foldl_kept heldBlocks _ (fun t g => ?_) _ s
  dsimp only
  split
  · rfl
  · split
    · exact launchWrite_heldBlocks _ _ _
    · exact portWrite_heldBlocks _ _ _ _ _ _ _

/-- The bytes of a group are bytes of the list. -/
theorem mem_of_byGranule {l : List (Nat × Byte)} {g : Nat × List (Nat × Byte)} (hg : g ∈ byGranule l) :
    ∀ x ∈ g.2, x ∈ l := by
  intro x hx
  rw [← mgetD_of_rising (byGranule_rising l) [] g hg, byGranule_at] at hx
  exact (List.mem_filter.1 hx).1

/-- A write to global memory leaves every other byte. -/
theorem performWrite_mem (s : State) (part die world : Nat) {bytes : List (Nat × Byte)} (tagOf : Nat → Tag)
    (clock : List Nat) (heads : List Head) (wave : Option Nat) (rmw : Bool) (hregion : ∀ y ∈ bytes, regionOf y.1 = 0) {a : Nat}
    (h : ∀ y ∈ bytes, y.1 ≠ a) :
    memGet (performWrite s part die world bytes tagOf clock heads wave rmw).mem a = memGet s.mem a := by
  refine foldl_kept_mem (fun t : State => memGet t.mem a) _ _ (fun t g hg => ?_) s
  have hsub := mem_of_byGranule hg
  dsimp only
  split
  · rfl
  · next x r hx =>
    rw [if_pos (hregion x (hsub x (by rw [hx]; exact List.mem_cons_self)))]
    exact launchWrite_mem _ _ _ (fun y hy => h y (hsub y hy))

/-! ### Code that is written -/

theorem trumpEvent_heldBytes (s : State) (die what entry region more : Nat) :
    heldBytes (trumpEvent s die what entry region more) = heldBytes s := by
  unfold trumpEvent
  split <;> rfl

theorem freeEntryIf_heldBytes (s : State) (die x : Nat) : heldBytes (freeEntryIf s die x) = heldBytes s := by
  unfold freeEntryIf
  dsimp only
  split <;> rfl

/-- An entry withdrawn for a write to its lines. -/
theorem withdrawEntry_heldBytes (s : State) (die x : Nat) : heldBytes (withdrawEntry s die x 4) = heldBytes s := by
  unfold withdrawEntry
  dsimp only
  split
  · rw [if_neg (show ¬ (4 ≤ 2) by decide), if_neg (show ¬ (4 = 2 ∨ 4 = 3) by decide), freeEntryIf_heldBytes, trumpEvent_heldBytes]
    split <;> rfl
  · rfl

theorem codeWritten_heldBytes (s : State) (part : Nat) (bytes : List (Nat × Byte)) :
    heldBytes (codeWritten s part bytes) = heldBytes s := by
  refine foldl_kept heldBytes _ (fun t d => ?_) _ s
  have hfold (l : List Nat) : heldBytes (l.foldl (fun t x => withdrawEntry t d x 4) t) = heldBytes t :=
    foldl_kept heldBytes _ (fun t x => withdrawEntry_heldBytes t d x) l t
  dsimp only
  split
  · exact hfold _
  · exact Eq.trans rfl (hfold _)

end Sys2Proof.Machine.QueuesAndCopies
end

section
/-! PROOF. Engine writes leave the hold-back and are performed (R178, R187, R217, R301, R302). -/

namespace Sys2Proof.Machine.QueuesAndCopies

open NumberFormats ExecutionContexts

/-! ### Writes to the arrays of a block -/

/-- The held effects and memory. -/
def heldMem (s : State) : List Held × List Host.Cell := (s.held, s.mem)

theorem held_of_heldMem {s t : State} (h : heldMem t = heldMem s) : t.held = s.held := congrArg Prod.fst h

theorem mem_of_heldMem {s t : State} (h : heldMem t = heldMem s) : t.mem = s.mem := congrArg Prod.snd h

/-- An array of a block written granule by granule holds the bytes as they stand in their list. -/
theorem granules_written {step : State → Nat × List (Nat × Byte) → State} {k : Nat} {arr : Block → List Host.Cell}
    (hstep : ∀ s g b, mget s.blocks k = some b → ∃ b', mget (step s g).blocks k = some b' ∧ arr b' = memWrite (arr b) g.2)
    (bytes : List (Nat × Byte)) {s : State} {b : Block} (hb : mget s.blocks k = some b) :
    ∃ b', mget ((byGranule bytes).foldl step s).blocks k = some b' ∧
      ∀ a, memGet (arr b') a = memGet (memWrite (arr b) bytes) a := by
  have hfold : ∀ (gs : List (Nat × List (Nat × Byte))) (s : State) (b : Block), mget s.blocks k = some b →
      ∃ b', mget (gs.foldl step s).blocks k = some b' ∧
        ∀ a, memGet (arr b') a = gs.foldl (fun d g => lastAt g.2 a d) (memGet (arr b) a) := by
    intro gs
    induction gs with
    | nil => exact fun s b hb => ⟨b, hb, fun _ => rfl⟩
    | cons g r ih =>
      intro s b hb
      obtain ⟨b1, hb1, harr⟩ := hstep s g b hb
      obtain ⟨b', hb', hbytes⟩ := ih _ b1 hb1
      refine ⟨b', hb', fun a => (hbytes a).trans ?_⟩
      rw [List.foldl_cons, harr, memGet_memWrite]
  obtain ⟨b', hb', hbytes⟩ := hfold (byGranule bytes) s b hb
  exact ⟨b', hb', fun a => (hbytes a).trans ((byGranule_lastAt bytes a _).trans (memGet_memWrite _ _ _).symm)⟩

theorem blockOf_of_mget {s : State} {k : Nat} {b : Block} (h : mget s.blocks k = some b) : blockOf s k = b := by
  unfold blockOf mgetD
  rw [h]
  rfl

/-! ### The scratchpad -/

theorem spadGranules_heldMem (gs : List (Nat × List (Nat × Byte))) (tag : Nat → Tag) (k : Nat) (s : State) :
    heldMem (gs.foldl (fun t g => spadGranule t k g.1 g.2 (tag g.1)) s) = heldMem s := by
  refine foldl_kept heldMem _ ?_ gs s
  exact fun _ _ => rfl

theorem spadPut_heldMem (s : State) (k : Nat) (bytes : List (Nat × Byte)) (tag : Nat → Tag) (wave : Option Nat)
    (own : List Head) : heldMem (spadPut s k bytes tag wave own) = heldMem s := by
  have hread : heldMem (readRows s k (bytes.map (·.1))) = heldMem s :=
    congrArg (fun z => (z.1, z.2.1)) (readRows_search s k (bytes.map (·.1)))
  exact (Eq.trans rfl (spadGranules_heldMem (byGranule bytes) tag k _)).trans hread

theorem spadGranule_written (tag : Nat → Tag) (k : Nat) (s : State) (g : Nat × List (Nat × Byte)) (b : Block)
    (hb : mget s.blocks k = some b) :
    ∃ b', mget (spadGranule s k g.1 g.2 (tag g.1)).blocks k = some b' ∧ b'.spad = memWrite b.spad g.2 := by
  have h : mget (spadGranule s k g.1 g.2 (tag g.1)).blocks k = (mget s.blocks k).map _ := mget_modBlock_self s k _
  rw [hb] at h
  exact ⟨_, h, rfl⟩

/-- Bytes put into a scratchpad whose core has no errors. -/
theorem spadPut_bytes {s : State} (hno : ∀ c ∈ s.cores, c.2.spadErrors = []) {k : Nat} {b : Block}
    (hb : mget s.blocks k = some b) (bytes : List (Nat × Byte)) (tag : Nat → Tag) (wave : Option Nat) (own : List Head) (a : Nat) :
    memGet (blockOf (spadPut s k bytes tag wave own) k).spad a = memGet (memWrite b.spad bytes) a := by
  obtain ⟨b', hb', hbytes⟩ := granules_written (arr := Block.spad) (spadGranule_written tag k) bytes hb
  unfold spadPut
  rw [readRows_clean s hno]
  dsimp only
  rw [blockOf_modBlock _ hb']
  exact hbytes a

/-! ### Tiles, accumulators and windows -/

theorem tileGranule_held (s : State) (k g : Nat) (bytes : List (Nat × Byte)) (tag : Tag) :
    (tileGranule s k g bytes tag).held = s.held := rfl

theorem tileGranule_bytesSame (s : State) (k g : Nat) (bytes : List (Nat × Byte)) (tag : Tag) :
    BytesSame s (tileGranule s k g bytes tag) := by
  have h := bytesSame_modBlock s k (fun b => { b with
    tile := memWrite b.tile bytes
    tileTags := tagSet b.tileTags g (granMerge (seeTag s.tags (partOfBlock s k) (tagAt (blockOf s k).tileTags g)) tag
      (coversGranule g bytes)).1 }) (fun _ => rfl)
  exact ⟨h.mem, h.spad⟩

theorem tileGranule_written (tag : Tag) (k : Nat) (s : State) (g : Nat × List (Nat × Byte)) (b : Block)
    (hb : mget s.blocks k = some b) :
    ∃ b', mget (tileGranule s k g.1 g.2 tag).blocks k = some b' ∧ b'.tile = memWrite b.tile g.2 := by
  have h : mget (tileGranule s k g.1 g.2 tag).blocks k = (mget s.blocks k).map _ := mget_modBlock_self s k _
  rw [hb] at h
  exact ⟨_, h, rfl⟩

theorem accStore_bytesSame (s : State) (k n : Nat) (x : AccElem) : BytesSame s (accStore s k n x) := by
  have h := bytesSame_modBlock s k (fun b => { b with acc := if x = {} then mdel b.acc n else mset b.acc n x }) (fun _ => rfl)
  exact ⟨h.mem, h.spad⟩

theorem accPut_spec (s : State) (k : Nat) (cells : List (Nat × Byte)) (tag : Tag) :
    (accPut s k cells tag).held = s.held ∧ BytesSame s (accPut s k cells tag) := by
  unfold accPut
  split
  · exact ⟨rfl, bytesSame_of rfl rfl⟩
  · refine ⟨rfl, ?_⟩
    dsimp only
    refine bytesSame_trans ?_ (accStore_bytesSame _ _ _ _)
    exact bytesSame_of rfl rfl

theorem windowPut_spec (s : State) (u base : Nat) (cells : List (Nat × Byte)) (tag : Tag) :
    (windowPut s u base cells tag).held = s.held ∧ BytesSame s (windowPut s u base cells tag) := by
  unfold windowPut
  split
  · exact ⟨rfl, bytesSame_of rfl rfl⟩
  · exact ⟨rfl, bytesSame_of rfl rfl⟩

/-! ### Memory -/

/-- A write of memory, to a port or into the views. -/
def memoryWrite (s : State) (core u : Nat) (clock : List Nat) (x : EngineWrite) : State :=
  let part := (partOfDie s (dieOfCore core)).getD 0
  engineOwned (codeWritten (performWrite s part (dieOfCore core) (ctxOf s (waveOf s u).ctx).world x.cells
    (fun _ => seeTag s.tags part x.tag) clock [] none false) part x.cells) core s.nextId

theorem memoryWrite_heldBlocks (s : State) (core u : Nat) (clock : List Nat) (x : EngineWrite) :
    heldBlocks (memoryWrite s core u clock x) = heldBlocks s :=
  (heldBlocks_of_bytes (codeWritten_heldBytes _ _ _)).trans (performWrite_heldBlocks _ _ _ _ _ _ _ _ _ _)

theorem memoryWrite_mem (s : State) (core u : Nat) (clock : List Nat) {x : EngineWrite}
    (hregion : ∀ y ∈ x.cells, regionOf y.1 = 0) {a : Nat} (h : ∀ y ∈ x.cells, y.1 ≠ a) :
    memGet (memoryWrite s core u clock x).mem a = memGet s.mem a := by
  refine (congrArg (fun m => memGet m a) (mem_of_heldBytes (codeWritten_heldBytes _ _ _))).trans ?_
  exact performWrite_mem _ _ _ _ _ _ _ _ _ hregion h

/-- A write to memory is recorded and dropped, or made. -/
theorem engineWrite_memory {s : State} (core u : Nat) (clock : List Nat) {x : EngineWrite} (hx : x.dest = .memory) :
    heldBytes (engineWrite s core u clock x) = heldBytes s ∨
      heldBytes (engineWrite s core u clock x) = heldBytes (memoryWrite s core u clock x) := by
  unfold engineWrite
  rw [hx]
  dsimp only
  split
  · exact .inl rfl
  · exact .inr rfl

/-! ### Writes of an entry -/

section
variable (s : State) (core u : Nat) (clock : List Nat) {x : EngineWrite}

/-- The tag of an engine write as the partition of its core sees it. -/
def engineTag (x : EngineWrite) : Tag := seeTag s.tags ((partOfDie s (dieOfCore core)).getD 0) x.tag

theorem engineWrite_spad {k : Nat} (hx : x.dest = .spad k) :
    engineWrite s core u clock x = spadPut s k x.cells (fun _ => engineTag s core x) none [] := by
  unfold engineWrite
  rw [hx]
  rfl

theorem engineWrite_tile {k : Nat} (hx : x.dest = .tile k) :
    engineWrite s core u clock x = (byGranule x.cells).foldl (fun t g => tileGranule t k g.1 g.2 (engineTag s core x)) s := by
  unfold engineWrite
  rw [hx]
  rfl

theorem engineWrite_acc {k : Nat} (hx : x.dest = .acc k) :
    engineWrite s core u clock x = accPut s k x.cells (engineTag s core x) := by
  unfold engineWrite
  rw [hx]
  rfl

theorem engineWrite_window {v k : Nat} (hx : x.dest = .window v k) :
    engineWrite s core u clock x = windowPut s v k x.cells (engineTag s core x) := by
  unfold engineWrite
  rw [hx]
  rfl

end

theorem engineWrite_held (s : State) (core u : Nat) (clock : List Nat) (x : EngineWrite) :
    (engineWrite s core u clock x).held = s.held := by
  cases hx : x.dest with
  | memory =>
    rcases engineWrite_memory core u clock hx with h | h
    · exact held_of_heldBlocks (heldBlocks_of_bytes h)
    · exact (held_of_heldBlocks (heldBlocks_of_bytes h)).trans (held_of_heldBlocks (memoryWrite_heldBlocks _ _ _ _ _))
  | spad k =>
    rw [engineWrite_spad s core u clock hx]
    exact held_of_heldMem (spadPut_heldMem _ _ _ _ _ _)
  | tile k =>
    rw [engineWrite_tile s core u clock hx]
    exact foldl_kept State.held _ (fun t (g : Nat × List (Nat × Byte)) => tileGranule_held t k g.1 g.2 _) _ s
  | acc k =>
    rw [engineWrite_acc s core u clock hx]
    exact (accPut_spec _ _ _ _).1
  | window v k =>
    rw [engineWrite_window s core u clock hx]
    exact (windowPut_spec _ _ _ _ _).1

/-- What counts a write for the waves and grids it belongs to leaves bytes and held effects. -/
theorem performEngine_heldBytes (s : State) (core q u : Nat) (waves grids : List Nat) (clock : List Nat) (xs : List EngineWrite) :
    heldBytes (performEngine s core q u waves grids clock xs) =
      heldBytes (xs.foldl (fun t x => engineWrite t core u clock x) s) := by
  refine ite_both (P := fun t => heldBytes t = heldBytes (xs.foldl (fun t x => engineWrite t core u clock x) s)) rfl ?_
  refine (foldl_kept heldBytes _ ?_ waves _).trans ((foldl_kept heldBytes _ ?_ grids _).trans rfl)
  · exact fun _ _ => rfl
  · exact fun _ _ => rfl

theorem performEngine_held (s : State) (core q u : Nat) (waves grids : List Nat) (clock : List Nat) (xs : List EngineWrite) :
    (performEngine s core q u waves grids clock xs).held = s.held :=
  (held_of_heldBlocks (heldBlocks_of_bytes (performEngine_heldBytes s core q u waves grids clock xs))).trans
    (foldl_kept State.held _ (fun t x => engineWrite_held t core u clock x) xs s)

/-- A held effect that was taken out is held no more. -/
theorem heldOf_dropHeld (s : State) (n : Nat) : (dropHeld s n).held.find? (fun x => decide (x.id = n)) = none := by
  refine List.find?_eq_none.2 (fun x hx h => ?_)
  have := (List.mem_filter.1 hx).2
  simp_all

end Sys2Proof.Machine.QueuesAndCopies
end

section
/-! PROOF. A held engine write that may be performed leaves the hold-back (R178, R301): what each destination keeps and takes. -/

namespace Sys2Proof.Machine.QueuesAndCopies

open NumberFormats ExecutionContexts

/-- The held effect `h` is a group of writes of entry `m` of queue `q`, and may leave the hold-back. -/
structure MayRelease (s : State) (n : Nat) (h : Held) (m q : Nat) (xs : List EngineWrite) : Prop where
  held : heldOf s n = some h
  eff : h.eff = .engine m q xs
  due : h.due ≤ s.now
  runs : coreStalled s h.core = false
  matched : matched s h = true
  may : ∀ x ∈ xs, engineMay s x (seeTag s.tags ((partOfDie s (dieOfCore h.core)).getD 0) x.tag) = true

/-- The held effect `n` leaves, of which `P` holds. -/
def Released (s : State) (n : Nat) (P : State → Prop) : Prop :=
  Made (.engineWriteRelease n) s (fun t => heldOf t n = none ∧ P t)

variable {s : State} {n m q : Nat} {h : Held} {xs : List EngineWrite}

theorem exec_release (hr : MayRelease s n h m q xs) : ∃ waves grids clock, exec (.engineWriteRelease n) s =
    .next (performEngine (dropHeld s n) h.core q h.wave waves grids clock xs) := by
  have hmay : h.due ≤ s.now ∧ (!coreStalled s h.core) = true ∧ matched s h = true ∧
      xs.all (fun x => engineMay s x (seeTag s.tags ((partOfDie s (dieOfCore h.core)).getD 0) x.tag)) = true :=
    ⟨hr.due, by rw [hr.runs]; rfl, hr.matched, List.all_eq_true.2 hr.may⟩
  show ∃ waves grids clock, execEngineWriteRelease n s = _
  unfold execEngineWriteRelease
  rw [hr.held]
  dsimp only
  rw [hr.eff]
  exact ⟨_, _, _, if_pos hmay⟩

/-- Writes that leave: what the performance of them leaves. -/
theorem released_of (hr : MayRelease s n h m q xs) {P : State → Prop} (hP : ∀ t clock, heldBytes t =
    heldBytes (xs.foldl (fun t x => engineWrite t h.core h.wave clock x) (dropHeld s n)) → P t) : Released s n P := by
  obtain ⟨waves, grids, clock, hexec⟩ := exec_release hr
  refine ⟨_, hexec, ?_, hP _ clock (performEngine_heldBytes _ _ _ _ _ _ _ _)⟩
  unfold heldOf
  rw [performEngine_held]
  exact heldOf_dropHeld s n

variable {x : EngineWrite}

/-- A write that leaves alone. -/
theorem released_single (hr : MayRelease s n h m q [x]) {P : State → Prop} (hP : ∀ t clock,
    t.blocks = (engineWrite (dropHeld s n) h.core h.wave clock x).blocks →
    t.mem = (engineWrite (dropHeld s n) h.core h.wave clock x).mem → P t) : Released s n P :=
  released_of hr (fun t clock ht => hP t clock (blocks_of_heldBlocks (heldBlocks_of_bytes ht)) (mem_of_heldBytes ht))

theorem blockOf_of_blocks {s t : State} (h : t.blocks = s.blocks) (k : Nat) : blockOf t k = blockOf s k :=
  congrArg (fun b : Map Block => mgetD b k {}) h

/-- Where the write leaves every byte, so does its release. -/
theorem released_same (hr : MayRelease s n h m q [x])
    (hsame : ∀ clock, BytesSame (dropHeld s n) (engineWrite (dropHeld s n) h.core h.wave clock x)) :
    Released s n (fun t => BytesSame s t) :=
  released_single hr (fun _ clock hb hm => bytesSame_trans (bytesSame_trans (dropHeld_bytes s n) (hsame clock))
    (bytesSame_of hm hb))

theorem release_spad (hr : MayRelease s n h m q [x]) {k : Nat} {b : Block} (hx : x.dest = .spad k)
    (hb : mget s.blocks k = some b) : Released s n (fun t => (∀ a, memGet t.mem a = memGet s.mem a) ∧
      (NoErrors s → ∀ a, memGet (blockOf t k).spad a = memGet (memWrite b.spad x.cells) a)) := by
  refine released_single hr (fun t clock hblocks hmem => ?_)
  rw [engineWrite_spad _ _ _ _ hx] at hblocks hmem
  refine ⟨fun a => ?_, fun hno a => ?_⟩
  · rw [hmem, mem_of_heldMem (spadPut_heldMem _ _ _ _ _ _)]
    rfl
  · rw [blockOf_of_blocks hblocks]
    exact spadPut_bytes (s := dropHeld s n) hno.2 hb _ _ _ _ a

theorem release_tile (hr : MayRelease s n h m q [x]) {k : Nat} {b : Block} (hx : x.dest = .tile k)
    (hb : mget s.blocks k = some b) : Released s n (fun t => BytesSame s t ∧
      ∀ a, memGet (blockOf t k).tile a = memGet (memWrite b.tile x.cells) a) := by
  refine released_single hr (fun t clock hblocks hmem => ?_)
  rw [engineWrite_tile _ _ _ _ hx] at hblocks hmem
  have hsame := bytesSame_foldl (fun t (g : Nat × List (Nat × Byte)) =>
    tileGranule t k g.1 g.2 (engineTag (dropHeld s n) h.core x)) (fun t g => tileGranule_bytesSame t k g.1 g.2 _)
    (byGranule x.cells) (dropHeld s n)
  refine ⟨bytesSame_trans (bytesSame_trans (dropHeld_bytes s n) hsame) (bytesSame_of hmem hblocks), fun a => ?_⟩
  obtain ⟨b', hb', hbytes⟩ := granules_written (arr := Block.tile) (s := dropHeld s n)
    (tileGranule_written (engineTag (dropHeld s n) h.core x) k) x.cells hb
  rw [blockOf_of_blocks hblocks, blockOf_of_mget hb']
  exact hbytes a

theorem release_acc (hr : MayRelease s n h m q [x]) {k : Nat} (hx : x.dest = .acc k) : Released s n (fun t => BytesSame s t) := by
  refine released_same hr (fun clock => ?_)
  rw [engineWrite_acc _ _ _ _ hx]
  exact (accPut_spec _ _ _ _).2

theorem release_window (hr : MayRelease s n h m q [x]) {v k : Nat} (hx : x.dest = .window v k) :
    Released s n (fun t => BytesSame s t) := by
  refine released_same hr (fun clock => ?_)
  rw [engineWrite_window _ _ _ _ hx]
  exact (windowPut_spec _ _ _ _ _).2

theorem release_memory (hr : MayRelease s n h m q [x]) (hx : x.dest = .memory) : Released s n (fun t =>
    (∀ k a, memGet (blockOf t k).spad a = memGet (blockOf s k).spad a) ∧ ((∀ y ∈ x.cells, regionOf y.1 = 0) →
      ∀ a, (∀ y ∈ x.cells, y.1 ≠ a) → memGet t.mem a = memGet s.mem a)) := by
  refine released_single hr (fun t clock hblocks hmem => ?_)
  rcases engineWrite_memory h.core h.wave clock hx with hw | hw
  · have hb : t.blocks = (dropHeld s n).blocks := hblocks.trans (blocks_of_heldBlocks (heldBlocks_of_bytes hw))
    have hm : t.mem = (dropHeld s n).mem := hmem.trans (mem_of_heldBytes hw)
    exact ⟨fun k a => by rw [blockOf_of_blocks hb]; rfl, fun _ a _ => by rw [hm]; rfl⟩
  · have hb : t.blocks = (dropHeld s n).blocks := hblocks.trans ((blocks_of_heldBlocks (heldBlocks_of_bytes hw)).trans
      (blocks_of_heldBlocks (memoryWrite_heldBlocks _ _ _ _ _)))
    have hm : t.mem = _ := hmem.trans (mem_of_heldBytes hw)
    refine ⟨fun k a => by rw [blockOf_of_blocks hb]; rfl, fun hregion a ha => ?_⟩
    rw [hm]
    exact memoryWrite_mem (dropHeld s n) _ _ _ hregion ha

end Sys2Proof.Machine.QueuesAndCopies
end

section
/-! PROOF. An entry whose writes are released completes (R161, R163, R171). -/

namespace Sys2Proof.Machine.QueuesAndCopies

open NumberFormats ExecutionContexts

/-! ### Cores and operations -/

/-- The cores, and the operations of every wave. -/
def coresOps (s : State) : Map Core × (Nat → List LongOp) := (s.cores, fun u => (waveOf s u).ops)

theorem cores_of {s t : State} (h : coresOps t = coresOps s) : t.cores = s.cores := congrArg Prod.fst h

theorem ops_of {s t : State} (h : coresOps t = coresOps s) (u : Nat) : (waveOf t u).ops = (waveOf s u).ops :=
  congrArg (fun z => z.2 u) h

/-- A wave changed in other fields keeps its operations. -/
theorem modWave_coresOps (s : State) (u : Nat) (f : Wave → Wave) (hf : ∀ w, (f w).ops = w.ops) :
    coresOps (modWave s u f) = coresOps s := by
  refine congrArg (fun z => (s.cores, z)) (funext fun v => ?_)
  show (mgetD (mmod s.waves u f) v {}).ops = (mgetD s.waves v {}).ops
  unfold mgetD
  rw [mget_mmod]
  split
  · next h =>
    subst h
    cases mget s.waves v with
    | none => rfl
    | some w => exact hf w
  · rfl

theorem postEvent_coresOps (s : State) (p : Nat) (e : Event) : coresOps (postEvent s p e) = coresOps s := rfl

theorem settleSave_coresOps (s : State) (p : Nat) (x : SaveCmd) : coresOps (settleSave s p x) = coresOps s := by
  unfold settleSave
  split <;> rfl

theorem endFollow_coresOps (s : State) (p g : Nat) : coresOps (endFollow s p g) = coresOps s := by
  refine foldl_kept coresOps _ (fun t x => ?_) _ s
  split
  · rfl
  · exact (settleSave_coresOps _ _ _).trans rfl

theorem gridError_coresOps (s : State) (g : Nat) : coresOps (gridError s g) = coresOps s :=
  (endFollow_coresOps _ _ _).trans rfl

theorem faultBlock_coresOps (s : State) (k part : Nat) (e : Event) : coresOps (faultBlock s k part e) = coresOps s := by
  unfold faultBlock
  dsimp only
  split
  · rfl
  · exact (postEvent_coresOps _ _ _).trans ((gridError_coresOps _ _).trans rfl)

theorem faultLoose_coresOps (s : State) (u part : Nat) (e : Event) : coresOps (faultLoose s u part e) = coresOps s := by
  have hfault : coresOps (postEvent (gridError (modWave s u (fun w => { w with state := .faulted })) (waveOf s u).grid) part e) =
      coresOps s := (postEvent_coresOps _ _ _).trans ((gridError_coresOps _ _).trans (modWave_coresOps _ _ _ (fun _ => rfl)))
  exact ite_both (P := fun t => coresOps t = coresOps s) hfault hfault

theorem endWith_coresOps (s : State) (u : Nat) (block : Option Nat) (part : Nat) (e : Event) :
    coresOps (endWith s u block part e) = coresOps s := by
  unfold endWith
  split
  · exact ite_both (P := fun t => coresOps t = coresOps s) rfl (faultBlock_coresOps _ _ _ _)
  · exact faultLoose_coresOps _ _ _ _

theorem entryWalk_coresOps (s : State) (core q : Nat) (e : Entry) (f : Cause × Nat) :
    coresOps (entryWalk s core q e f) = coresOps s := by
  unfold entryWalk
  split <;> rfl

theorem forgetRound_coresOps (s : State) (e : Entry) : coresOps (forgetRound s e) = coresOps s := by
  unfold forgetRound
  split
  · split
    · dsimp only
      split <;> rfl
    · rfl
  · rfl

theorem syncTo_coresOps (s : State) (d : Nat) (clock : List Nat) : coresOps (syncTo s d clock) = coresOps s := by
  unfold coresOps waveOf
  rw [syncTo_cores, (syncTo_same s d clock).waves]

theorem acquireClock_coresOps (s : State) (u : Nat) (clock : List Nat) : coresOps (acquireClock s u clock) = coresOps s :=
  (syncTo_coresOps _ _ _).trans (modWave_coresOps _ _ _ (fun _ => rfl))

/-! ### The operations of an entry -/

theorem writeDone_ops (w : Wave) (d : Dst) (wide : Bool) (x : LaneVal) : (writeDone w d wide x).ops = w.ops := by
  unfold writeDone
  split
  · rfl
  · split <;> rfl
  · split <;> rfl
  · split
    · dsimp only
      split <;> rfl
    · rfl

/-- The operations without those of a number. -/
def opsWithout (l : List LongOp) (n : Nat) : List LongOp := l.filter (fun o => !decide (o.id = n))

theorem opsWithout_absent {l : List LongOp} {n : Nat} (h : l.find? (fun o => decide (o.id = n)) = none) : opsWithout l n = l := by
  refine List.filter_eq_self.2 (fun o ho => ?_)
  have := List.find?_eq_none.1 h o ho
  simpa using this

/-- One operation of an entry completed: its wave has it no more, and nothing else of the operations changed. -/
theorem completeEngineOp_ops (e : Entry) (sticky : Sticky) (s : State) (x : Nat × Nat) :
    (completeEngineOp e sticky s x).cores = s.cores ∧ ∀ u, (waveOf (completeEngineOp e sticky s x) u).ops =
      if u = x.1 then opsWithout (waveOf s u).ops x.2 else (waveOf s u).ops := by
  unfold completeEngineOp
  split
  · next hnone =>
    refine ⟨rfl, fun u => ?_⟩
    split
    · next h =>
      subst h
      have hw : waveOf s x.1 = {} := by
        unfold waveOf mgetD
        rw [hnone]
        rfl
      rw [hw]
      rfl
    · rfl
  · next w hw =>
    split
    · next hnone =>
      refine ⟨rfl, fun u => ?_⟩
      split
      · next h =>
        subst h
        rw [waveOf_eq hw, opsWithout_absent hnone]
      · rfl
    · next o ho =>
      have hid : o.id = x.2 := by simpa using List.find?_some ho
      have hdone : (e.results.foldl (fun w r => writeDone w r.1 false r.2) w).ops = w.ops :=
        foldl_kept Wave.ops _ (fun w (r : Dst × LaneVal) => writeDone_ops w r.1 false r.2) _ _
      dsimp only
      refine ⟨(cores_of (acquireClock_coresOps _ _ _)).trans rfl, fun u => (ops_of (acquireClock_coresOps _ _ _) u).trans ?_⟩
      rw [hdone, hid]
      show (mgetD (mset s.waves x.1 _) u {}).ops = _
      rw [mgetD_mset]
      split
      · next h =>
        subst h
        rw [waveOf_eq hw]
        rfl
      · rfl

/-- The operations of an entry completed one after another. -/
theorem completeEngineOps_ops (e : Entry) (sticky : Sticky) (l : List (Nat × Nat)) (s : State) :
    (l.foldl (completeEngineOp e sticky) s).cores = s.cores ∧
      (∀ u, ∀ o ∈ (waveOf (l.foldl (completeEngineOp e sticky) s) u).ops, o ∈ (waveOf s u).ops) ∧
      ∀ x ∈ l, ∀ o ∈ (waveOf (l.foldl (completeEngineOp e sticky) s) x.1).ops, o.id ≠ x.2 := by
  induction l generalizing s with
  | nil => exact ⟨rfl, fun _ _ h => h, by simp⟩
  | cons x r ih =>
    obtain ⟨hcores, hsub, hgone⟩ := ih (completeEngineOp e sticky s x)
    obtain ⟨hcores1, hops1⟩ := completeEngineOp_ops e sticky s x
    rw [List.foldl_cons]
    refine ⟨hcores.trans hcores1, fun u o ho => ?_, fun y hy o ho => ?_⟩
    · have h := hsub u o ho
      rw [hops1] at h
      split at h
      · exact (List.mem_filter.1 h).1
      · exact h
    · rcases List.mem_cons.1 hy with rfl | hy
      · have h := hsub y.1 o ho
        rw [hops1, if_pos rfl] at h
        simpa using (List.mem_filter.1 h).2
      · exact hgone y hy o ho

/-! ### The completion -/

/-- A queue after its head entry `e` completed. -/
def headDone (e : Entry) (rest : List Entry) (y : Queue) : Queue := { y with entries := rest, completed := BitVec.ofNat 64 e.num }

/-- The head entry of a queue completes with its operations. -/
theorem complete_made {s : State} {c q : Nat} {e : Entry} {rest : List Entry}
    (hhead : (queueAt (coreOf s c) q).entries = e :: rest) (hstage : e.stage = .releasing) (hready : e.ready ≤ s.now)
    (hdone : entryDone s e = true) (hruns : coreStalled s c = false)
    (hseats : ∀ x ∈ e.ops, seatStalled s c (waveOf s x.1).seat = false) :
    Made (.engineEntryComplete c q) s (fun t => (queueAt (coreOf t c) q).entries = rest ∧
      (queueAt (coreOf t c) q).completed = BitVec.ofNat 64 e.num ∧ ∀ x ∈ e.ops, ∀ o ∈ (waveOf t x.1).ops, o.id ≠ x.2) := by
  have hmay : e.stage = .releasing ∧ e.ready ≤ s.now ∧ entryDone s e = true ∧ (!coreStalled s c) = true ∧
      e.ops.all (fun x => !seatStalled s c (waveOf s x.1).seat) = true :=
    ⟨hstage, hready, hdone, by rw [hruns]; rfl, List.all_eq_true.2 (fun x hx => by rw [hseats x hx]; rfl)⟩
  let s1 := modCore s c (fun x => setQueue x q (headDone e rest (queueAt x q)))
  let s2 := forgetRound (e.ops.foldl (completeEngineOp e (entrySticky s e)) s1) e
  have hexec : ∃ t, exec (.engineEntryComplete c q) s = .next t ∧ coresOps t = coresOps s2 := by
    show ∃ t, execEngineEntryComplete c q s = .next t ∧ _
    unfold execEngineEntryComplete
    rw [hhead]
    refine ⟨_, if_pos hmay, ?_⟩
    cases e.fail with
    | none => rfl
    | some f => exact (endWith_coresOps _ _ _ _ _).trans (entryWalk_coresOps _ _ _ _ _)
  obtain ⟨t, ht, hview⟩ := hexec
  obtain ⟨hcores, -, hgone⟩ := completeEngineOps_ops e (entrySticky s e) e.ops s1
  have hround := forgetRound_coresOps (e.ops.foldl (completeEngineOp e (entrySticky s e)) s1) e
  have hcore : coreOf t c = coreOf s1 c :=
    congrArg (fun m : Map Core => mgetD m c {}) ((cores_of hview).trans ((cores_of hround).trans hcores))
  have hqueue : queueAt (coreOf t c) q = headDone e rest (queueAt (coreOf s c) q) := by
    rw [hcore]
    exact queueAt_modCore s c q (fun x => headDone e rest (queueAt x q))
  refine ⟨t, ht, by rw [hqueue]; rfl, by rw [hqueue]; rfl, fun x hx o ho => hgone x hx o ?_⟩
  rwa [ops_of hview, ops_of hround] at ho

end Sys2Proof.Machine.QueuesAndCopies
end

section
/-! PROOF. Markers complete together (R180); an array is granted to a partner, and finishes (R251, R253, R257). -/

namespace Sys2Proof.Machine.QueuesAndCopies

open NumberFormats ExecutionContexts

/-! ### Markers -/

/-- A core after the entry at the head of a queue left it. -/
def headOut (clock : List Nat) (y : Core) (q : Nat) : Core :=
  match (queueAt y q).entries with
  | e :: rest => setQueue y q { queueAt y q with entries := rest, completed := BitVec.ofNat 64 e.num, clock := clock }
  | [] => y

theorem headOut_entries (clock : List Nat) (y : Core) (q j : Nat) : (queueAt (headOut clock y q) j).entries =
    if j = q then (queueAt y j).entries.tail else (queueAt y j).entries := by
  unfold headOut
  split
  · next e rest hq =>
    rw [queueAt_setQueue]
    split
    · next h =>
      rw [h, hq]
      rfl
    · rfl
  · next hq =>
    split
    · next h =>
      rw [h, hq]
      rfl
    · rfl

/-- The heads of different queues leave them. -/
theorem headsOut_entries (clock : List Nat) {l : List Nat} (hl : l.Nodup) (y : Core) (j : Nat) :
    (queueAt (l.foldl (headOut clock) y) j).entries =
      if j ∈ l then (queueAt y j).entries.tail else (queueAt y j).entries := by
  induction l generalizing y with
  | nil => exact (if_neg (by simp)).symm
  | cons q r ih =>
    obtain ⟨hq, hr⟩ := List.nodup_cons.1 hl
    rw [List.foldl_cons, ih hr, headOut_entries]
    by_cases hj : j = q
    · subst hj
      rw [if_neg hq, if_pos rfl, if_pos List.mem_cons_self]
    · rw [if_neg hj]
      simp only [List.mem_cons, hj, false_or]

/-- The markers of a group that head their queues complete together. -/
theorem qfence_made {s : State} {n k : Nat} {x : Core}
    (hfind : s.cores.find? (fun x => !(markedQueues x.2 n).isEmpty) = some (k, x)) (hx : mget s.cores k = some x)
    (hheads : ∀ j ∈ markedQueues x n, ((queueAt x j).entries.head?).map (fun e => e.work) = some (.marker n))
    (hruns : coreStalled s k = false) :
    Made (.qfenceComplete n) s (fun t => BytesSame s t ∧ t.held = s.held ∧ ∀ j, (queueAt (coreOf t k) j).entries =
      if j ∈ markedQueues x n then (queueAt x j).entries.tail else (queueAt x j).entries) := by
  let clock := (markedQueues x n).foldl (fun l q => clockJoin l (queueAt x q).clock) []
  have hmay : ((markedQueues x n).all (fun q =>
      decide (((queueAt x q).entries.head?).map (fun e => e.work) = some (.marker n))) && !coreStalled s k) = true := by
    rw [hruns, Bool.not_false, Bool.and_true]
    exact List.all_eq_true.2 (fun j hj => decide_eq_true (hheads j hj))
  have hcore : coreOf s k = x := by
    unfold coreOf mgetD
    rw [hx]
    rfl
  refine ⟨modCore s k (fun x' => (markedQueues x n).foldl (headOut clock) x'), ?_, bytesSame_of rfl rfl, rfl, fun j => ?_⟩
  · show execQfenceComplete n s = _
    unfold execQfenceComplete
    rw [hfind]
    exact if_pos hmay
  · rw [coreOf_modCore, hcore]
    exact headsOut_entries clock (List.Nodup.filter _ List.nodup_range) x j

/-! ### Arrays -/

theorem grant_made {s : State} {c : Nat} {e : Entry} (hodd : c % 2 = 1) (hhead : qmHead s (c - 1) = some e)
    (hready : mmaReady s e = true) (hidle : (coreOf s (c - 1)).array.busy = none)
    (hpartner : ∃ k, partnerOf s (e.block.getD 0) = some k ∧ (blockOf s k).core = c)
    (hbusy : (coreOf s c).array.busy = none) (hslaved : (coreOf s c).array.slaved = false)
    (hturn : (coreOf s c).array.turn = false ∨ (qmHead s c).any (fun x => mmaReady s x) = false) :
    Made (.arrayGrant c) s (fun t => BytesSame s t ∧ (coreOf t c).array.slaved = true ∧
      (coreOf t c).array.asked = some e.id) := by
  obtain ⟨k, hk, hcore⟩ := hpartner
  refine ⟨modCore s c (fun x => { x with array := { x.array with slaved := true, asked := some e.id } }), ?_,
    bytesSame_of rfl rfl, by rw [coreOf_modCore], by rw [coreOf_modCore]⟩
  show execArrayGrant c s = _
  unfold execArrayGrant
  rw [hhead]
  dsimp only
  rw [hk]
  refine if_pos ⟨?_, by rw [hbusy]; rfl, by rw [hslaved]; rfl, ?_⟩
  · rw [hready, hidle, hodd]
    simp [hcore]
  · rcases hturn with h | h <;> rw [h] <;> simp

/-- The accumulator writes of a product held, one block after the other. -/
theorem heldProduct (c : Nat) (e : Entry) (l : List (Nat × List (Nat × AccElem))) (s : State) :
    let t := l.foldl (fun t p => { t with
      nextId := t.nextId + 1
      held := t.held ++ [{ id := t.nextId, issued := t.now, due := t.now + Config.holdback, core := c, seat := none
                           wave := e.wave, block := some p.1, eff := .matrix (.acc p.2 0), op := some e.id }] }) s
    t.mem = s.mem ∧ t.blocks = s.blocks ∧ t.cores = s.cores ∧ ∃ hs, t.held = s.held ++ hs ∧
      hs.map (·.eff) = l.map (fun p => Effect.matrix (.acc p.2 0)) ∧
      ∀ h ∈ hs, h.due = s.now + Config.holdback ∧ h.wave = e.wave := by
  induction l generalizing s with
  | nil => exact ⟨rfl, rfl, rfl, [], (List.append_nil _).symm, rfl, by simp⟩
  | cons p r ih =>
    obtain ⟨hm, hb, hc, hs, hheld, heff, hall⟩ := ih { s with
      nextId := s.nextId + 1
      held := s.held ++ [{ id := s.nextId, issued := s.now, due := s.now + Config.holdback, core := c, seat := none
                           wave := e.wave, block := some p.1, eff := .matrix (.acc p.2 0), op := some e.id }] }
    refine ⟨hm, hb, hc, _, hheld.trans (List.append_assoc _ _ _), ?_, fun h hh => ?_⟩
    · rw [List.singleton_append, List.map_cons, List.map_cons, heff]
    · rcases List.mem_cons.1 hh with rfl | hh
      · exact ⟨rfl, rfl⟩
      · exact hall h hh

/-- The array of a core freed, its entry waiting for the accumulator writes. -/
def arrayFreed (id : Nat) (x : Core) : Core :=
  setQueue { x with array := { x.array with busy := none, turn := false } } 4
    { queueAt x 4 with entries := (queueAt x 4).entries.map (fun z => if z.id = id then { z with stage := .releasing } else z) }

/-- The array of a partner given back. -/
def givenBack (x : Core) : Core := { x with array := { x.array with slaved := false, turn := true, asked := none } }

theorem busy_givenBack {s : State} {c : Nat} (h : (coreOf s c).array.busy = none) (d : Nat) :
    (coreOf (modCore s d givenBack) c).array.busy = none := by
  show (mgetD (mset s.cores d (givenBack (coreOf s d))) c ({} : Core)).array.busy = none
  rw [mgetD_mset]
  split
  · next hd =>
    subst hd
    exact h
  · exact h

/-- The array of the partner block `o`, if there is one, given back. -/
def partnerFreed (s s1 : State) (o : Option Nat) : State :=
  match o with
  | some k2 => modCore s1 (blockOf s k2).core givenBack
  | none => s1

theorem partnerFreed_spec (s : State) {s1 : State} {c : Nat} (h : (coreOf s1 c).array.busy = none) (o : Option Nat) :
    heldBytes (partnerFreed s s1 o) = heldBytes s1 ∧ (partnerFreed s s1 o).now = s1.now ∧
      (coreOf (partnerFreed s s1 o) c).array.busy = none := by
  cases o with
  | none => exact ⟨rfl, rfl, h⟩
  | some k2 => exact ⟨rfl, rfl, busy_givenBack h _⟩

/-- A multiply whose time is over frees its arrays and holds its accumulator writes. -/
theorem finish_made {s : State} {c : Nat} {e : Entry} (hbusy : (coreOf s c).array.busy = some e.id)
    (hhead : qmHead s c = some e) (huntil : (coreOf s c).array.until_ ≤ s.now) :
    Made (.arrayOpFinish c) s (fun t => BytesSame s t ∧ (coreOf t c).array.busy = none ∧
      ∃ hs, t.held = s.held ++ hs ∧ hs.map (·.eff) = e.product.map (fun p => Effect.matrix (.acc p.2 0)) ∧
        ∀ h ∈ hs, h.due = s.now + Config.holdback ∧ h.wave = e.wave) := by
  let s1 := modCore s c (arrayFreed e.id)
  let s2 := partnerFreed s s1 (partnerOf s (e.block.getD 0))
  have hfree : (coreOf s1 c).array.busy = none := by
    show (coreOf (modCore s c (arrayFreed e.id)) c).array.busy = none
    rw [coreOf_modCore]
    rfl
  obtain ⟨hfreed, hnow, hnone⟩ := partnerFreed_spec s hfree (partnerOf s (e.block.getD 0))
  have hbytes : heldBytes s2 = heldBytes s := hfreed.trans rfl
  obtain ⟨hm, hb, hc, hs, hheld, heff, hall⟩ := heldProduct c e e.product s2
  refine ⟨_, ?_, bytesSame_of (hm.trans (mem_of_heldBytes hbytes))
    (hb.trans (blocks_of_heldBlocks (heldBlocks_of_bytes hbytes))), ?_, hs, hheld.trans ?_, heff, fun h hh => ?_⟩
  · show execArrayOpFinish c s = _
    unfold execArrayOpFinish
    dsimp only
    rw [hbusy, hhead]
    exact if_pos ⟨rfl, huntil⟩
  · exact (congrArg (fun m : Map Core => (mgetD m c {}).array.busy) hc).trans hnone
  · rw [held_of_heldBlocks (heldBlocks_of_bytes hbytes)]
  · exact (hall h hh).imp_left (fun hd => hd.trans (congrArg (· + Config.holdback) hnow))

end Sys2Proof.Machine.QueuesAndCopies
end

section
/-! PROOF. The moves of the engines and the arrays (R161 to R180, R251 to R257, R264, R280, R284), put together. -/

namespace Sys2Proof.Machine.QueuesAndCopies

open NumberFormats ExecutionContexts

/-- The cells of a copy as its statement names them: an element and a byte of it. -/
theorem copyCells_iff {s : State} {g : Agent} {u k n : Nat} {out : Bool} {r : CopyReq} {d : Desc} {ext : List Nat} {size : Nat}
    (hsize : d.esize = size) (dest : EngineDest) (a : Nat) (b : Byte) :
    (∃ m, m < n ∧ CopyCell s g u k out r d ext m dest a b) ↔ ∃ m j, m < n ∧ j < size ∧
      ((Inside d r ext m ∧ ∃ x, OutsideAt s g u out r d ext m x ∧
        if out then dest = x.1 ∧ a = x.2 + j ∧
          b = (nth (placeBytes s g.core u g.part (.spad k, padAt d r ext m) size) j (0, .clean)).1
        else dest = .spad k ∧ a = padAt d r ext m + j ∧ b = (nth (placeBytes s g.core u g.part x size) j (0, .clean)).1) ∨
      (¬ Inside d r ext m ∧ out = false ∧ dest = .spad k ∧ a = padAt d r ext m + j ∧ b = nth (fillBytes d) j 0)) := by
  subst hsize
  unfold CopyCell
  simp only [exists_and_left]

/-- A move made leaves what a weaker statement says. -/
theorem made_mono {i : Instr} {s : State} {P Q : State → Prop} (h : Made i s P) (hPQ : ∀ t, P t → Q t) : Made i s Q := by
  obtain ⟨t, ht, hp⟩ := h
  exact ⟨t, ht, hPQ t hp⟩

/-- Settles O49, move by move. -/
theorem engineMoves : Obligations.EngineMoves := by
  unfold Obligations.EngineMoves
  intro s c q
  refine ⟨fun e rest hhead hwaits hready hruns => ?_, fun n h m xs hheld heff hdue hruns hmatched hmay => ?_,
    fun e rest hhead hstage hready hdone hruns hseats => complete_made hhead hstage hready hdone hruns hseats,
    fun n k x hfind hx hheads hruns => qfence_made hfind hx hheads hruns,
    fun e hodd hhead hready hidle hpartner hbusy hslaved hturn =>
      grant_made hodd hhead hready hidle hpartner hbusy hslaved hturn,
    fun e hbusy hhead huntil => finish_made hbusy hhead huntil⟩
  · have h : MayPerform s c q e rest := ⟨hhead, hwaits, hready, hruns⟩
    refine ⟨copies_perform h, fun out u r pa d hno hw hn hcheck hd hlen hall => ?_, fun size start ls hno hw hall =>
      gather_performs h hno hw hall, fun p n r hw hr hmay hq => ?_, fun k p v lanes hw => take_performs h hw,
      fun win slot x y z ca cb wa hw hmay => made_mono (mma_performs h hw hmay) (fun t ht => ?_)⟩
    · have hsize := descOf_esize hd
      have hperf := copy_performs h hno hw hn hcheck hd hlen (fun m hm => by
        rw [hsize]
        exact hall m hm)
      simp only [copyCells_iff hsize] at hperf
      exact hperf
    · subst hq
      exact drain_performs h hw hr hmay
    · obtain ⟨hheld, hblocks, hbusy, hproduct⟩ := ht
      refine ⟨hheld, hblocks, hbusy, fun m kk rows hno hq hs => ?_⟩
      subst hq
      exact hproduct m kk rows hno rfl hs
  · have hr : MayRelease s n h m q xs := ⟨hheld, heff, hdue, hruns, hmatched, hmay⟩
    refine ⟨released_of hr (fun _ _ _ => trivial), fun x hxs => ?_⟩
    subst hxs
    exact ⟨fun k b hx hb => release_spad hr hx hb, fun k b hx hb => release_tile hr hx hb, fun k hx => release_acc hr hx,
      fun v k hx => release_window hr hx, fun hx => made_mono (release_memory hr hx)
        (fun t ⟨hgone, hspad, hmem⟩ => ⟨hgone, hspad, fun _ => hmem⟩)⟩

end Sys2Proof.Machine.QueuesAndCopies
end

section
/-! PROOF. `wseq` (R222): the trap, the park and the wait that holds, an acquire of the window's gate. -/

namespace Sys2Proof.Machine.AddressSpace

open ExecutionContexts

/-! ### An acquire point (R235) -/

/-- An acquire raises no flag but SCOPE_MISS. -/
theorem missFlag_cases (s : State) (u scope set : Nat) (heads : List (Nat × Head)) :
    missFlag s u scope set heads = 0 ∨ missFlag s u scope set heads = fMISS := by
  unfold missFlag when
  split
  · exact .inr rfl
  · exact .inl rfl

/-- An acquire point changes the clock of its wave, may raise SCOPE_MISS, and changes what its die sees. -/
theorem acquireFrom_wave {s : State} {u : Nat} {w : Wave} (h : mget s.waves u = some w) (scope set : Nat)
    (heads : List (Nat × Head)) : ∃ clock flags, (flags = 0 ∨ flags = fMISS) ∧
      waveOf (acquireFrom s u scope set heads) u = acquired clock flags w := by
  refine ⟨gained s u scope set heads, _, missFlag_cases s u scope set heads, ?_⟩
  unfold waveOf acquireFrom
  rw [besideMemory_waves (syncTo_beside _ _ _)]
  exact waveOf_modWave _ h

theorem regsSame_acquired {w w' : Wave} (h : RegsSame w w') (clock : List Nat) (flags : BitVec 9) :
    RegsSame w (acquired clock flags w') := ⟨h.v, h.s, h.a, h.p⟩

theorem splitOf_acquired (clock : List Nat) (flags : BitVec 9) (w : Wave) (e : Nat) :
    splitOf (acquired clock flags w) e = splitOf w e := rfl

theorem acquired_wstat_cases {x : Wave} {st : Sticky} (hst : x.wstat = st) (clock : List Nat) {flags : BitVec 9}
    (h : flags = 0 ∨ flags = fMISS) :
    (acquired clock flags x).wstat = st ∨ (acquired clock flags x).wstat = st ||| fMISS := by
  subst hst
  rcases h with rfl | rfl
  · exact .inl BitVec.or_zero
  · exact .inr rfl

theorem acquireFrom_blocks (s : State) (u scope set : Nat) (heads : List (Nat × Head)) :
    (acquireFrom s u scope set heads).blocks = s.blocks :=
  (besideMemory_blocks (syncTo_beside _ _ _)).trans rfl

theorem acquireFrom_held (s : State) (u scope set : Nat) (heads : List (Nat × Head)) :
    (acquireFrom s u scope set heads).held = s.held :=
  (besideMemory_held (syncTo_beside _ _ _)).trans rfl

theorem putUPair_wstat (w : Wave) (m : LaneMask) (d : Operand) (x : TVal) : (putUPair w m d x).wstat = w.wstat := by
  unfold putUPair
  split
  · split <;> rfl
  · rfl

/-- An issue at the next word whose wave then acquires: what it writes and leaves. -/
theorem finish_acquiresFrom {i : Instr} {s : State} {u : Nat} {w w' : Wave} {sp : Split} (h : Ready i s u w sp)
    (ht : sp.trump = none) (hw : w'.splits = w.splits) (hstat : w'.wstat = w.wstat) (scope set : Nat)
    (heads : List (Nat × Head)) :
    let t := acquireFrom (finish s (ctxFor s u w sp i) w' 0 []) u scope set heads
    RegsSame w' (waveOf t u) ∧ splitOf (waveOf t u) sp.entry = some (nextWord sp i) ∧ t.held = s.held ∧
      t.blocks = s.blocks ∧ ((waveOf t u).wstat = w.wstat ∨ (waveOf t u).wstat = w.wstat ||| fMISS) := by
  obtain ⟨hissued, -, hregs, hst, -⟩ := ends_finish h ht (apart_refl s u) w' hw (holds_nil rfl)
  generalize hf : finish s (ctxFor s u w sp i) w' 0 [] = t1 at hissued hregs hst
  obtain ⟨clock, flags, hflags, hwave⟩ := acquireFrom_wave hissued.wave scope set heads
  have hheld : t1.held = s.held := hf ▸ rfl
  intro t
  rw [show waveOf t u = _ from hwave]
  exact ⟨regsSame_acquired hregs _ _, (splitOf_acquired _ _ _ _).trans hissued.split,
    (acquireFrom_held _ _ _ _ _).trans hheld, (acquireFrom_blocks _ _ _ _ _).trans hissued.apart.blocks,
    acquired_wstat_cases (hst.trans hstat) clock hflags⟩

/-! ### `wseq` -/

/-- `wseq` once its base is consumed: by the window of the context with that base. -/
def wseqFrom (d a b : Operand) (s : State) (c : Ctx) : State :=
  match windowOf s c.w.part c.w.ctx (readUPair c a).toNat with
  | none => trapAt s c .ingress (BitVec.ofNat 32 (readUPair c a).toNat)
  | some x =>
    if (readUPair c b).toNat ≤ x.c then windowAcquire (finish s c (putPair c.w
      (if c.skip then none else uniformDest d) (BitVec.ofNat 64 x.c)) 0 []) c.uid
    else finishPark s c c.w (.window (readUPair c a).toNat (readUPair c b).toNat
      (if c.skip then none else uniformDest d)) none

theorem exec_wseq (d a b : Operand) (s : State) : exec (.wseq d a b) s = run (.wseq d a b) s (fun s1 c =>
    consumeAll s1 c [tagU c a true] (wseqFrom d a b)) := rfl

theorem wseqFrom_none {d a b : Operand} {s : State} {c : Ctx}
    (h : windowOf s c.w.part c.w.ctx (readUPair c a).toNat = none) :
    wseqFrom d a b s c = trapAt s c .ingress (BitVec.ofNat 32 (readUPair c a).toNat) := by
  unfold wseqFrom
  rw [h]

theorem wseqFrom_some {d a b : Operand} {s : State} {c : Ctx} {x : Window}
    (h : windowOf s c.w.part c.w.ctx (readUPair c a).toNat = some x) :
    wseqFrom d a b s c = if (readUPair c b).toNat ≤ x.c then windowAcquire (finish s c (putPair c.w
        (if c.skip then none else uniformDest d) (BitVec.ofNat 64 x.c)) 0 []) c.uid
      else finishPark s c c.w (.window (readUPair c a).toNat (readUPair c b).toNat
        (if c.skip then none else uniformDest d)) none := by
  unfold wseqFrom
  rw [h]

/-- Settles O34: the window is looked up; without one `wseq` traps, with one it parks, or writes the committed number and
acquires. -/
theorem windowWaits : Obligations.WindowWaits := by
  unfold Obligations.WindowWaits
  intro s u w sp d a b i hc base n open_
  have hx := exec_wseq d a b s
  have hk := clean1 hc s (wseqFrom d a b)
  refine ⟨fun hnone => traps_of hx (hk.trans (wseqFrom_none hnone)), fun x hsome => ⟨fun hlt => ?_, fun hle h ht => ?_⟩⟩
  · have hpark := park_done hx ((hk.trans (wseqFrom_some hsome)).trans (if_neg (Nat.not_le.2 hlt)))
    have hskip : (if (ctxFor s u w sp i).skip = true then none else uniformDest d) =
        if activeMask w sp i = 0 then none else uniformDest d := if_congr decide_eq_true_iff rfl rfl
    rwa [hskip] at hpark
  · have hdone := (hk.trans (wseqFrom_some hsome)).trans (if_pos hle)
    rw [putPair_skip] at hdone
    exact ⟨_, by rw [hx, run_ready h, hdone]; rfl,
      finish_acquiresFrom h ht (putUPair_splits _ _ _ _) (putUPair_wstat _ _ _ _) 3 2 _⟩

end Sys2Proof.Machine.AddressSpace
end

section
/-! PROOF. The checks of a global access (R201, R210), and what a failed check leaves. -/

namespace Sys2Proof.Machine.AddressSpace

/-! ### The first failing step -/

/-- The first answer of a check that answers `g` where `p` fails is that of the first element at which it does. -/
theorem firstSome_find {α β : Type} {f : α → Option β} {p : α → Bool} {g : α → β} {l : List α}
    (hf : ∀ x ∈ l, f x = if p x then none else some (g x)) : firstSome f l = (l.find? (fun x => !p x)).map g := by
  induction l with
  | nil => rfl
  | cons x r ih =>
    have hr := ih (fun y hy => hf y (List.mem_cons_of_mem _ hy))
    unfold firstSome
    rw [hf x List.mem_cons_self, List.find?_cons]
    cases p x
    · rfl
    · exact hr

/-- A check that no element fails answers nothing. -/
theorem find_fails_none {α : Type} {p : α → Bool} {l : List α} (h : ∀ x ∈ l, p x = true) :
    l.find? (fun x => !p x) = none := by
  simpa using h

/-- The entry of a leaf that translates an address satisfies `P`. -/
def leafHas (s : State) (g : Agent) (P : Nat → Nat → Bool) (a : Nat) : Bool :=
  match lookup s g.core g.part g.ctx a with
  | .leaf pte level => P pte.toNat (physical pte level a)
  | _ => false

/-- Whether a leaf permits an access (step 5 of R210). -/
def permits (kind : Access) (x pa : Nat) : Bool :=
  (decide (kind = .store) || x.testBit 1) && (decide (kind = .load) || x.testBit 2) &&
    (decide (kind ≠ .store) || !x.testBit 60) && (decide (kind ≠ .atomic) || decide (regionOf pa = 0))

/-- Whether the protection key of a leaf permits an access (step 6 of R210). -/
def keyOpen (g : Agent) (kind : Access) (x : Nat) : Bool :=
  !g.pkr.getLsbD (2 * (x / 2 ^ 5 % 2 ^ 5)) && (decide (kind = .load) || !g.pkr.getLsbD (2 * (x / 2 ^ 5 % 2 ^ 5) + 1))

/-- Whether the world of a leaf, and the peer it names, permit an access (step 7 of R210). -/
def worldOpenTo (s : State) (g : Agent) (x pa : Nat) : Bool :=
  (x.testBit 61 || decide (x / 2 ^ 52 % 2 ^ 8 = (ctxOf s g.ctx).world)) &&
    (decide (regionOf pa ≠ 2) || (mgetD (partOf s g.part).roster (pa / 2 ^ 44 % 2 ^ 4) {}).present)

theorem fails_align (width : Nat) (ls : List (Nat × Nat)) :
    firstSome (fun x => if x.2 % width = 0 then none else some (⟨.memAlign, x.1, x.2, false, false⟩ : CheckFail)) ls =
      (ls.find? (fun y => !decide (y.2 % width = 0))).map (fun x => ⟨.memAlign, x.1, x.2, false, false⟩) :=
  firstSome_find (p := fun y : Nat × Nat => decide (y.2 % width = 0)) (fun x _ => by simp)

theorem fails_lease (s : State) (g : Agent) (width : Nat) (ls : List (Nat × Nat)) :
    firstSome (fun x => if leased (gridOf s g.grid) x.2 width then none else
        some (⟨.leaseViolation, x.1, x.2, true, false⟩ : CheckFail)) ls =
      (ls.find? (fun y => !leased (gridOf s g.grid) y.2 width)).map (fun x => ⟨.leaseViolation, x.1, x.2, true, false⟩) :=
  firstSome_find (p := fun y : Nat × Nat => leased (gridOf s g.grid) y.2 width) (fun _ _ => rfl)

/-- Step 4 fails at the first address that no leaf translates; the failure says whether the walk met a malformed entry. -/
theorem fails_mapped (s : State) (g : Agent) (kind : Access) (ls : List (Nat × Nat)) :
    firstSome (fun x => checkPage s g kind x.1 x.2 4) ls =
      (ls.find? (fun y => !leafHas s g (fun _ _ => true) y.2)).map (fun x =>
        ⟨.dataFault, x.1, x.2, true, decide (lookup s g.core g.part g.ctx x.2 = .malformed)⟩) := by
  refine firstSome_find (p := fun y : Nat × Nat => leafHas s g (fun _ _ => true) y.2) (fun x _ => ?_)
  unfold checkPage leafHas
  cases lookup s g.core g.part g.ctx x.2 <;> rfl

/-- A later step over addresses that leaves translate fails at the first whose leaf fails its test. -/
theorem fails_leaf {s : State} {g : Agent} {kind : Access} {ls : List (Nat × Nat)} {P : Nat → Nat → Bool} {n : Nat}
    {cause : Cause} (hmapped : ∀ x ∈ ls, leafHas s g (fun _ _ => true) x.2 = true)
    (hstep : ∀ l a pte level, lookup s g.core g.part g.ctx a = .leaf pte level → checkPage s g kind l a n =
      if P pte.toNat (physical pte level a) then none else some ⟨cause, l, a, false, false⟩) :
    firstSome (fun x => checkPage s g kind x.1 x.2 n) ls =
      (ls.find? (fun y => !leafHas s g P y.2)).map (fun x => ⟨cause, x.1, x.2, false, false⟩) := by
  refine firstSome_find (p := fun y : Nat × Nat => leafHas s g P y.2) (fun x hx => ?_)
  have hleaf := hmapped x hx
  unfold leafHas at hleaf ⊢
  cases hl : lookup s g.core g.part g.ctx x.2 with
  | leaf pte level => exact hstep x.1 x.2 pte level hl
  | invalid => simp [hl] at hleaf
  | malformed => simp [hl] at hleaf

/-! ### Steps 5 to 7 at a leaf -/

theorem checkPage_permits {s : State} {g : Agent} {kind : Access} (l a : Nat) (pte : DWord) (level : Nat)
    (h : lookup s g.core g.part g.ctx a = .leaf pte level) : checkPage s g kind l a 5 =
      if permits kind pte.toNat (physical pte level a) then none else some ⟨.accessPerm, l, a, false, false⟩ := by
  unfold checkPage
  rw [h]
  cases kind <;> simp [permits, NumberFormats.bitAt_eq_testBit]

theorem checkPage_key {s : State} {g : Agent} {kind : Access} (l a : Nat) (pte : DWord) (level : Nat)
    (h : lookup s g.core g.part g.ctx a = .leaf pte level) : checkPage s g kind l a 6 =
      if keyOpen g kind pte.toNat then none else some ⟨.keyPerm, l, a, false, false⟩ := by
  unfold checkPage
  rw [h]
  have hdeny (b c : Bool) (x : CheckFail) : (if (b || (decide (kind ≠ .load) && c)) = true then some x else none) =
      if (!b && (decide (kind = .load) || !c)) = true then none else some x := by
    cases b <;> cases c <;> cases kind <;> rfl
  exact hdeny _ _ _

theorem checkPage_world {s : State} {g : Agent} {kind : Access} (l a : Nat) (pte : DWord) (level : Nat)
    (h : lookup s g.core g.part g.ctx a = .leaf pte level) : checkPage s g kind l a 7 =
      if worldOpenTo s g pte.toNat (physical pte level a) then none else some ⟨.world, l, a, false, false⟩ := by
  unfold checkPage
  rw [h]
  unfold worldOpenTo
  rw [← NumberFormats.bitAt_eq_testBit]
  rfl

/-! ### A failed check -/

/-- The stop that a stopped wave's seat holds. -/
theorem stopWave_holds {s : State} {u : Nat} {w : Wave} (hw : mget s.waves u = some w) (cause : Cause) (addr detail : Nat)
    (tag : Tag) : ∃ h ∈ (stopWave s u cause addr detail tag).held, h.wave = u ∧ h.due = s.now + Config.holdback ∧
      h.eff = .stop w.block w.part { waveEvent s w cause 3 with addr := addr, detail := detail, tag := tag } := by
  rw [stopWave, hold_newest]
  refine ⟨_, List.mem_append_right _ List.mem_cons_self, rfl, rfl, ?_⟩
  rw [waveOf_eq hw]

/-- A check that ends the block: the wave stands stopped with its registers, and the stop of its block is held. -/
theorem checkFailed_stops {s : State} {u : Nat} {w : Wave} (hw : mget s.waves u = some w) (i : Instr) (sp : Split)
    {f : CheckFail} (hf : f.ends = true) :
    let t := checkFailed s (ctxFor s u w sp i) f
    (waveOf t u).state = .faulted ∧ (waveOf t u).trapc = w.trapc ∧ RegsSame w (waveOf t u) ∧ Apart s t u ∧
      ∃ h ∈ t.held, h.wave = u ∧ h.due = s.now + Config.holdback ∧ ∃ e, h.eff = .stop w.block w.part e ∧
        e.cause = f.cause ∧ e.addr = f.addr := by
  intro t
  let s1 := charge s (ctxFor s u w sp i)
  obtain ⟨s2, hs⟩ : ∃ s2, s2 = if f.malformed then noteMalformed s1 u f.addr else s1 := ⟨_, rfl⟩
  have ht : t = stopWave s2 u f.cause f.addr (Config.openDetail f.cause.code).toNat := by
    show checkFailed s (ctxFor s u w sp i) f = _
    unfold checkFailed
    rw [if_pos hf, hs]
    rfl
  have hs2 : mget s2.waves u = some w ∧ Apart s s2 u := by
    rw [hs]
    split
    · exact ⟨hw, apart_trans (charge_apart _ _ _) (hold_apart _ _ _ _ _)⟩
    · exact ⟨hw, charge_apart _ _ _⟩
  obtain ⟨hw2, ha2⟩ := hs2
  have hwave := waveOf_eq (stopWave_wave hw2 f.cause f.addr (Config.openDetail f.cause.code).toNat .clean)
  rw [ht, hwave]
  refine ⟨rfl, rfl, regsSame_of rfl rfl rfl rfl, apart_trans ha2 (stopWave_apart _ _ _ _ _ _), ?_⟩
  obtain ⟨h, hmem, hu, hdue, heff⟩ := stopWave_holds hw2 f.cause f.addr (Config.openDetail f.cause.code).toNat .clean
  exact ⟨h, hmem, hu, hdue.trans (congrArg (· + Config.holdback) ha2.now), _, heff, rfl, rfl⟩

/-- Settles O30: step by step, the first step that some lane fails answers, at its lowest lane. -/
theorem accessChecks : Obligations.AccessChecks := by
  unfold Obligations.AccessChecks
  intro s g kind width ls leaf aligned inLease mapped allowed keyed inWorld pass fails
  have h1 : pass aligned → ls.find? (fun y => !decide (y.2 % width = 0)) = none :=
    fun h => find_fails_none (p := fun y : Nat × Nat => aligned y.2) h
  have h2 : pass inLease → ls.find? (fun y => !leased (gridOf s g.grid) y.2 width) = none :=
    fun h => find_fails_none (p := fun y : Nat × Nat => inLease y.2) h
  have h3 : pass mapped → ls.find? (fun y => !leafHas s g (fun _ _ => true) y.2) = none :=
    fun h => find_fails_none (p := fun y : Nat × Nat => mapped y.2) h
  have h4 : pass allowed → ls.find? (fun y => !leafHas s g (permits kind) y.2) = none :=
    fun h => find_fails_none (p := fun y : Nat × Nat => allowed y.2) h
  have h5 : pass keyed → ls.find? (fun y => !leafHas s g (fun x _ => keyOpen g kind x) y.2) = none :=
    fun h => find_fails_none (p := fun y : Nat × Nat => keyed y.2) h
  have h6 : pass inWorld → ls.find? (fun y => !leafHas s g (worldOpenTo s g) y.2) = none :=
    fun h => find_fails_none (p := fun y : Nat × Nat => inWorld y.2) h
  have hperm (m : pass mapped) := fails_leaf (P := permits kind) m checkPage_permits
  have hkey (m : pass mapped) := fails_leaf (kind := kind) (P := fun x _ => keyOpen g kind x) m checkPage_key
  have hworld (m : pass mapped) := fails_leaf (kind := kind) (P := worldOpenTo s g) m checkPage_world
  have hall : checkLanes s g kind width ls = firstSome id [
      (ls.find? (fun y => !decide (y.2 % width = 0))).map (fun x => ⟨.memAlign, x.1, x.2, false, false⟩),
      (ls.find? (fun y => !leased (gridOf s g.grid) y.2 width)).map (fun x => ⟨.leaseViolation, x.1, x.2, true, false⟩),
      (ls.find? (fun y => !leafHas s g (fun _ _ => true) y.2)).map (fun x =>
        ⟨.dataFault, x.1, x.2, true, decide (lookup s g.core g.part g.ctx x.2 = .malformed)⟩),
      firstSome (fun x => checkPage s g kind x.1 x.2 5) ls, firstSome (fun x => checkPage s g kind x.1 x.2 6) ls,
      firstSome (fun x => checkPage s g kind x.1 x.2 7) ls] := by
    rw [← fails_align, ← fails_lease, ← fails_mapped s g kind]
    rfl
  refine ⟨fun x hx => ?_, fun a x hx => ?_, fun a b x hx => ?_, fun a b m x hx => ?_, fun a b m c x hx => ?_,
    fun a b m c d x hx => ?_, fun a b m c d e => ?_, fun i u w sp f hw => ⟨fun hf => ?_, checkFailed_stops hw i sp⟩⟩
  · rw [hall, show ls.find? (fun y => !decide (y.2 % width = 0)) = some x from hx]
    exact ⟨_, rfl, rfl, rfl, rfl, rfl⟩
  · rw [hall, h1 a, show ls.find? (fun y => !leased (gridOf s g.grid) y.2 width) = some x from hx]
    exact ⟨_, rfl, rfl, rfl, rfl, rfl⟩
  · rw [hall, h1 a, h2 b, show ls.find? (fun y => !leafHas s g (fun _ _ => true) y.2) = some x from hx]
    exact ⟨_, rfl, rfl, rfl, rfl, rfl⟩
  · rw [hall, h1 a, h2 b, h3 m, hperm m, show ls.find? (fun y => !leafHas s g (permits kind) y.2) = some x from hx]
    exact ⟨_, rfl, rfl, rfl, rfl, rfl⟩
  · rw [hall, h1 a, h2 b, h3 m, hperm m, h4 c, hkey m,
      show ls.find? (fun y => !leafHas s g (fun x _ => keyOpen g kind x) y.2) = some x from hx]
    exact ⟨_, rfl, rfl, rfl, rfl, rfl⟩
  · rw [hall, h1 a, h2 b, h3 m, hperm m, h4 c, hkey m, h5 d, hworld m,
      show ls.find? (fun y => !leafHas s g (worldOpenTo s g) y.2) = some x from hx]
    exact ⟨_, rfl, rfl, rfl, rfl, rfl⟩
  · rw [hall, h1 a, h2 b, h3 m, hperm m, h4 c, hkey m, h5 d, hworld m, h6 e]
    rfl
  · unfold checkFailed
    rw [if_neg (by rw [hf]; exact Bool.false_ne_true)]

end Sys2Proof.Machine.AddressSpace
end

section
/-! SUPPORT. Global memory under what does not write it: one lemma per function says that it leaves the bytes as they are. -/

namespace Sys2Proof.Machine.AddressSpace

open ExecutionContexts

/-- What each step of a fold leaves of memory, the fold leaves. -/
@[simp] theorem foldl_mem {α : Type} {f : State → α → State} (hf : ∀ t x, (f t x).mem = t.mem) (l : List α)
    (s : State) :
    (l.foldl f s).mem = s.mem := foldl_kept State.mem f hf l s

/-! ### Traps, stalls and the ends of an instruction -/

@[simp] theorem stall_mem (s : State) (u : Nat) : (stall s u).mem = s.mem := rfl

@[simp] theorem stopWave_mem (s : State) (u : Nat) (cause : Cause) (addr detail : Nat) (tag : Tag) :
    (stopWave s u cause addr detail tag).mem = s.mem := rfl

@[simp] theorem takeTrapAt_mem (s : State) (u : Nat) (sp : Split) (cause : Cause) (val : Word) (pc : Nat)
    (noskip : Bool) (back len : Nat) :
    (takeTrapAt s u sp cause val pc noskip back len).mem = s.mem := by
  grind [takeTrapAt, stopWave_mem, Machine.hold_mem, Machine.putWave_mem]

@[simp] theorem takeTrap_mem (s : State) (u : Nat) (sp : Split) (cause : Cause) (val : Word) (pc : Nat)
    (noskip : Bool) (len : Nat) :
    (takeTrap s u sp cause val pc noskip len).mem = s.mem := by
  simp [takeTrap]

@[simp] theorem charge_mem (s : State) (c : Ctx) :
    (charge s c).mem = s.mem := rfl

@[simp] theorem trapAt_mem (s : State) (c : Ctx) (cause : Cause) (val : Word) :
    (trapAt s c cause val).mem = s.mem := by
  simp [trapAt]

@[simp] theorem stallOn_mem (s : State) (u t : Nat) :
    (stallOn s u t).mem = s.mem := rfl

@[simp] theorem afterKill_mem (s : State) (u : Nat) (dead : Map (BitVec 12)) (pc : Nat) :
    (afterKill s u dead pc).mem = s.mem := by
  unfold afterKill
  split
  · rfl
  · dsimp only
    split <;> simp

@[simp] theorem finishBy_mem (s : State) (c : Ctx) (w : Wave) (sticky : Sticky) (pairs : List (Nat × Nat))
    (f : Split → Split) :
    (finishBy s c w sticky pairs f).mem = s.mem := rfl

@[simp] theorem finish_mem (s : State) (c : Ctx) (w : Wave) (sticky : Sticky) (pairs : List (Nat × Nat)) :
    (finish s c w sticky pairs).mem = s.mem := rfl

@[simp] theorem finishNop_mem (s : State) (c : Ctx) :
    (finishNop s c).mem = s.mem := rfl

@[simp] theorem postEvent_mem (s : State) (p : Nat) (e : Event) :
    (postEvent s p e).mem = s.mem := rfl

@[simp] theorem trumpEvent_mem (s : State) (die what entry region more : Nat) :
    (trumpEvent s die what entry region more).mem = s.mem := by
  unfold trumpEvent
  split <;> simp

@[simp] theorem modEntry_mem (s : State) (die x : Nat) (f : TrumpEntry → TrumpEntry) :
    (modEntry s die x f).mem = s.mem := rfl

@[simp] theorem nominate_mem (s : State) (die cls pa : Nat) (sp : Split) (words : List (Nat × Word))
    (is : List Instr) :
    (nominate s die cls pa sp words is).mem = s.mem := by
  grind [nominate, modEntry_mem, trumpEvent_mem]

@[simp] theorem finishAlu_mem (s : State) (c : Ctx) (r : Except (Cause × Word) Alu) :
    (finishAlu s c r).mem = s.mem := by
  unfold finishAlu
  split <;> simp

@[simp] theorem settleFlight_mem (s : State) (n : Nat) : (settleFlight s n).mem = s.mem :=
  QueuesAndCopies.settleFlight_mem s n

@[simp] theorem viewApply_mem (f : Flight) (n d : Nat) (tag : Tag) (s : State) (x : Nat × Byte) :
    (viewApply f n d tag s x).mem = s.mem := by
  grind [viewApply]

@[simp] theorem applyRemote_mem (s : State) (f : Flight) (d : Nat) : (applyRemote s f d).mem = s.mem := by
  simp [applyRemote]

@[simp] theorem finishPark_mem (s : State) (c : Ctx) (w : Wave) (cond : Cond) (target : Option Nat) (runs : Bool) :
    (finishPark s c w cond target runs).mem = s.mem := rfl

@[simp] theorem noteMalformed_mem (s : State) (u va : Nat) :
    (noteMalformed s u va).mem = s.mem := rfl

@[simp] theorem suspend_mem (s0 : State) (u va : Nat) (malformed : Bool) :
    (suspend s0 u va malformed).mem = s0.mem := by
  grind [suspend, noteMalformed_mem, Machine.modWave_mem]

@[simp] theorem finishJump_mem (s : State) (c : Ctx) (w : Wave) (va : Nat) :
    (finishJump s c w va).mem = s.mem := rfl

@[simp] theorem finishWait_mem (s : State) (c : Ctx) (w : Wave) (eff : Effect) :
    (finishWait s c w eff).mem = s.mem := rfl

@[simp] theorem broadcastStop_mem (s : State) (u : Nat) (cohort : Option Nat) :
    (broadcastStop s u cohort).mem = s.mem := rfl

@[simp] theorem trapOpen_mem (s : State) (c : Ctx) (cause : Cause) :
    (trapOpen s c cause).mem = s.mem := by
  simp [trapOpen]

@[simp] theorem startLong_mem (s : State) (c : Ctx) (d : Operand) (wide : Bool) (f : Nat → LaneRes) :
    (startLong s c d wide f).mem = s.mem := rfl

@[simp] theorem divide_mem (s : State) (c : Ctx) (t : LaneMask) (va : Nat) :
    (divide s c t va).mem = s.mem := by
  grind [divide, finishBy_mem, trapOpen_mem, Machine.hold_mem, Machine.modWave_mem, Machine.putWave_mem]

@[simp] theorem branchSplit_mem (s : State) (c : Ctx) (m t : LaneMask) (va : Nat) :
    (branchSplit s c m t va).mem = s.mem := by
  grind [branchSplit, divide_mem, finishJump_mem, finishNop_mem]

/-! ### Windows, records and corrections -/

@[simp] theorem spillRegs_mem (s : State) (u : Nat) (w : Wave) (n : Nat) :
    (spillRegs s u w n).mem = s.mem := rfl

@[simp] theorem newTag_mem (s : State) (p : Nat) :
    (newTag s p).2.mem = s.mem := rfl

@[simp] theorem createPoison_mem (s : State) (part : Nat) (e : Event) :
    (createPoison s part e).2.mem = s.mem := rfl

@[simp] theorem dropUpset_mem (s : State) (x : Upset) :
    (dropUpset s x).mem = s.mem := rfl

@[simp] theorem findMemory_mem (part : Nat) (s : State) (g : Nat) :
    (findMemory part s g).mem = s.mem := by
  unfold findMemory
  split <;> simp

@[simp] theorem readMemory_mem (s : State) (part : Nat) (pas : List Nat) : (readMemory s part pas).mem = s.mem := by
  unfold readMemory
  split <;> simp

@[simp] theorem fillRecord_mem (s : State) (u : Nat) (w : Wave) (newW : Nat) :
    (fillRecord s u w newW).2.mem = s.mem := by
  unfold fillRecord
  split <;> simp

@[simp] theorem shiftWindow_mem (s0 : State) (u : Nat) (w : Wave) (newW : Nat) :
    (shiftWindow s0 u w newW).1.mem = s0.mem := by
  grind [shiftWindow, fillRecord_mem, readMemory_mem, spillRegs_mem]

@[simp] theorem callTo_mem (s : State) (c : Ctx) (f va : Nat) :
    (callTo s c f va).mem = s.mem := by
  grind [callTo, finishJump_mem, shiftWindow_mem, trapAt_mem]

@[simp] theorem deliverHit_mem (s : State) (u e i l pc : Nat) :
    (deliverHit s u e i l pc).mem = s.mem := by
  grind [deliverHit, broadcastStop_mem, takeTrapAt_mem, Machine.modWave_mem]

@[simp] theorem afterAccess_mem (s : State) (c : Ctx) (hit : Option (Nat × Nat)) :
    (afterAccess s c hit).mem = s.mem := by
  unfold afterAccess
  split
  · rfl
  · dsimp only
    split <;> simp

@[simp] theorem occupyM_mem (s : State) (c : Ctx) (n : Nat) :
    (occupyM s c n).mem = s.mem := rfl

/-! ### Long operations and held effects -/

@[simp] theorem startSpadLoad_mem (d : Operand) (s : State) (c : Ctx) (ls : List (Nat × Nat)) :
    (startSpadLoad d s c ls).mem = s.mem := rfl

@[simp] theorem startSpadStore_mem (b : Operand) (s : State) (c : Ctx) (ls : List (Nat × Nat)) :
    (startSpadStore b s c ls).mem = s.mem := rfl

@[simp] theorem startHeld_mem (s : State) (c : Ctx) (d : Operand) (kind : OpKind) (reads : Nat) (acq : Option
    (Nat × Nat)) (eff : Effect) :
    (startHeld s c d kind reads acq eff).mem = s.mem := rfl

@[simp] theorem heldAtomic_mem (s : State) (c : Ctx) (acq : Option Release) (eff : Effect) :
    (heldAtomic s c acq eff).mem = s.mem := rfl

@[simp] theorem startSatomic_mem (op : AtomOp) (d b : Operand) (s : State) (c : Ctx) (ls : List (Nat × Nat)) :
    (startSatomic op d b s c ls).mem = s.mem := by
  unfold startSatomic
  split <;> simp

@[simp] theorem checkFailed_mem (s : State) (c : Ctx) (f : CheckFail) :
    (checkFailed s c f).mem = s.mem := by
  grind [checkFailed, charge_mem, noteMalformed_mem, stopWave_mem, trapAt_mem]

@[simp] theorem cacheWalk_mem (s : State) (core part ctx va : Nat) :
    (cacheWalk s core part ctx va).mem = s.mem := by
  unfold cacheWalk
  split <;> simp

@[simp] theorem cacheAll_mem (s : State) (g : Agent) (vas : List Nat) : (cacheAll s g vas).mem = s.mem := by
  simp [cacheAll]

@[simp] theorem startLoad_mem (d : Operand) (acq : Option (Nat × Nat)) (s : State) (c : Ctx) (ls : List (Nat × Nat)) :
    (startLoad d acq s c ls).mem = s.mem := rfl

@[simp] theorem startGatomic_mem (op : AtomOp) (d b : Operand) (s : State) (c : Ctx) (ls : List (Nat × Nat)) :
    (startGatomic op d b s c ls).mem = s.mem := by
  unfold startGatomic
  split <;> simp

/-! ### Queues and contributions -/

@[simp] theorem takePlace_mem (s : State) (core q id : Nat) (block : Option Nat) :
    (takePlace s core q id block).mem = s.mem := rfl

@[simp] theorem startEngine_mem (s : State) (c : Ctx) (q : Nat) (work : Work) (batch : Bool) :
    (startEngine s c q work batch).mem = s.mem := rfl

@[simp] theorem holdMatrix_mem (s : State) (c : Ctx) (w : MatrixWrite) (sticky : Sticky) :
    (holdMatrix s c w sticky).mem = s.mem := rfl

@[simp] theorem modCohort_mem (s : State) (p idx : Nat) (f : Cohort → Cohort) :
    (modCohort s p idx f).mem = s.mem := rfl

@[simp] theorem startContribution_mem (s : State) (c : Ctx) (x : Contribution) (dests : List RegRef) :
    (startContribution s c x dests).mem = s.mem := rfl

@[simp] theorem supplySlice_mem (s : State) (c : Ctx) (k q : Nat) (x : Collective) (r : CopyReq) :
    (supplySlice s c k q x r).mem = s.mem := rfl

@[simp] theorem dropDrawn_mem (s : State) (c : Ctx) :
    (dropDrawn s c).2.1.mem = s.mem := rfl

/-! ### Fetches -/

@[simp] theorem fetchLogged_mem (s : State) (u : Nat) :
    (fetchLogged s u).mem = s.mem := rfl

@[simp] theorem fetchTrap_mem (s : State) (u : Nat) (sp : Split) (cause : Cause) (val : Word) (pc : Nat) :
    (fetchTrap s u sp cause val pc).mem = s.mem := by
  simp [fetchTrap]

@[simp] theorem cacheLine_mem (s : State) (core pa : Nat) (l : List Word) :
    (cacheLine s core pa l).mem = s.mem := rfl

@[simp] theorem noHeader_mem (s : State) (u : Nat) (sp : Split) (at_ : Nat) (x : Word) :
    (noHeader s u sp at_ x).mem = s.mem := by
  grind [noHeader, fetchLogged_mem, fetchTrap_mem, stopWave_mem]

@[simp] theorem withSplit_mem (s : State) (u e : Nat) (f : Split → Split) :
    (withSplit s u e f).mem = s.mem := rfl

@[simp] theorem fetchSplit_mem (s : State) (u : Nat) (w : Wave) (sp : Split) : (fetchSplit s u w sp).mem = s.mem := by
  have hlines (l : List (Nat × List Word)) (t : State) :
      (l.foldl (fun t x => cacheLine t w.core x.1 x.2) t).mem = t.mem := foldl_mem (by intros; rfl) l t
  unfold fetchSplit
  dsimp only
  split
  · simp
  · simp
  · split
    · simp [hlines]
    · split
      · split <;> simp [hlines]
      · split <;> simp [hlines]

/-! ### Reads and the bits they find -/

@[simp] theorem noteAbsorbed_mem (s : State) :
    (noteAbsorbed s).mem = s.mem := by
  unfold noteAbsorbed
  split <;> simp

@[simp] theorem noteMisses_mem (s : State) :
    (noteMisses s).mem = s.mem := by
  unfold noteMisses
  split <;> simp

@[simp] theorem noteTaken_mem (s : State) :
    (noteTaken s).mem = s.mem := by
  simp [noteTaken]

@[simp] theorem findTile_mem (s : State) (k g : Nat) :
    (findTile s k g).mem = s.mem := by
  unfold findTile
  split <;> simp

@[simp] theorem findAcc_mem (s : State) (k n : Nat) :
    (findAcc s k n).mem = s.mem := by
  unfold findAcc
  split <;> simp

@[simp] theorem findReg_mem (s : State) (u : Nat) (r : RegRef) (l : Nat) :
    (findReg s u r l).mem = s.mem := by
  unfold findReg
  split <;> simp

@[simp] theorem findAt_mem (part : Nat) (s : State) (x : EngineDest × Nat) :
    (findAt part s x).mem = s.mem := by
  unfold findAt
  split <;> simp

@[simp] theorem suspectCore_mem (s : State) (core : Nat) :
    (suspectCore s core).mem = s.mem := by
  unfold suspectCore
  split <;> simp

@[simp] theorem judgeBanks_mem (s : State) (part core : Nat) (banks : List Nat) :
    (judgeBanks s part core banks).mem = s.mem := by
  refine foldl_mem (fun t k => ?_) _ _
  dsimp only
  split
  · rfl
  · split
    · rfl
    · split
      · rfl
      · simp

@[simp] theorem readRowFor_mem (scrub : Bool) (s : State) (k row : Nat) : (readRowFor scrub s k row).mem = s.mem := by
  unfold readRowFor
  dsimp only
  split
  · rfl
  · rw [apply_ite State.mem, foldl_mem (by intros; rfl)]
    simp

@[simp] theorem readRow_mem (s : State) (k row : Nat) :
    (readRow s k row).mem = s.mem := by
  simp [readRow]

@[simp] theorem readRows_mem (s : State) (k : Nat) (offs : List Nat) : (readRows s k offs).mem = s.mem := by
  simp [readRows]

@[simp] theorem readPlaces_mem (s : State) (part : Nat) (l : List (EngineDest × Nat)) :
    (readPlaces s part l).mem = s.mem := by
  unfold readPlaces
  dsimp only
  split <;> simp

theorem decoded_mem {take : State → State} (ht : ∀ t, (take t).mem = t.mem) (s : State) :
    (decoded take s).mem = s.mem := by
  unfold decoded
  split <;> simp [ht]

/-! ### Loads that are served -/

@[simp] theorem serveSeat_mem (s : State) (core seat : Nat) :
    (serveSeat s core seat).mem = s.mem := rfl

@[simp] theorem servedLoad_mem (s : State) (w : Wave) (o : LongOp) :
    (servedLoad s w o).mem = s.mem := by
  unfold servedLoad
  split <;> simp

@[simp] theorem modOlds_mem (s : State) (u : Nat) (p : Wave → Bool) (f : Wave → Wave) :
    (modOlds s u p f).mem = s.mem := rfl

@[simp] theorem servedSeat_mem (s : State) (h : Held) :
    (servedSeat s h).mem = s.mem := by
  unfold servedSeat
  split <;> simp

@[simp] theorem captureBefore_mem (s : State) (u n : Nat) (spad : Bool) (touch : Nat → Bool) :
    (captureBefore s u n spad touch).mem = s.mem :=
  (noteTaken_mem _).trans (decoded_mem (fun _ => modWave_mem _ _ _) s)

/-! ### Tags, streams and the candidates of the search -/

@[simp] theorem journalWrite_mem (s : State) (f : Flight) :
    (journalWrite s f).mem = s.mem := rfl

@[simp] theorem showOwn_mem (f : Flight) (oldTag : Tag) (s : State) (x : Nat × Byte) :
    (showOwn f oldTag s x).mem = s.mem := rfl

@[simp] theorem failStream_mem (s : State) (x : Nat) :
    (failStream s x).mem = s.mem := by
  unfold failStream
  split <;> simp

@[simp] theorem noteWrite_mem (s : State) (u die : Nat) :
    (noteWrite s u die).mem = s.mem := rfl

@[simp] theorem condemnOne_mem (s : State) (t : Nat) :
    (condemnOne s t).mem = s.mem := by
  grind [condemnOne, postEvent_mem, trumpEvent_mem, Machine.modPart_mem]

@[simp] theorem freeEntryIf_mem (s : State) (die x : Nat) :
    (freeEntryIf s die x).mem = s.mem := by
  grind [freeEntryIf, modEntry_mem]

/-! ### The scratchpad -/

@[simp] theorem spadGranule_mem (s : State) (k g : Nat) (bytes : List (Nat × Byte)) (tag : Tag) :
    (spadGranule s k g bytes tag).mem = s.mem := rfl

@[simp] theorem spadPut_mem (s : State) (k : Nat) (bytes : List (Nat × Byte)) (tagOf : Nat → Tag) (wave : Option Nat)
    (own : List Head) : (spadPut s k bytes tagOf wave own).mem = s.mem := by
  unfold spadPut
  exact (foldl_mem (by intros; rfl) _ _).trans (readRows_mem _ _ _)

/-! ### Grants, kills and faults -/

@[simp] theorem releaseGrant_mem (s : State) (h : Held) (index : Nat) (word : Word) (wbase : Nat) :
    (releaseGrant s h index word wbase).mem = s.mem := rfl

@[simp] theorem releaseKills_mem (s : State) (h : Held) (grid part n : Nat) (e : Event) :
    (releaseKills s h grid part n e).mem = s.mem := by
  grind [releaseKills, postEvent_mem, Machine.modCore_mem, Machine.modGrid_mem, Machine.modPart_mem]

@[simp] theorem commandDone_mem (s : State) (p : Nat) (host : Word) (status : Nat) (more : List Nat) :
    (commandDone s p host status more).mem = s.mem := rfl

@[simp] theorem settleSave_mem (s : State) (p : Nat) (x : SaveCmd) :
    (settleSave s p x).mem = s.mem := by
  unfold settleSave
  split <;> simp

@[simp] theorem endFollow_mem (s : State) (p g : Nat) : (endFollow s p g).mem = s.mem := by
  refine foldl_mem (fun t x => ?_) _ _
  split <;> simp

@[simp] theorem gridError_mem (s : State) (g : Nat) :
    (gridError s g).mem = s.mem := by
  simp [gridError]

@[simp] theorem faultBlock_mem (s : State) (k part : Nat) (e : Event) :
    (faultBlock s k part e).mem = s.mem := by
  grind [faultBlock, gridError_mem, postEvent_mem, Machine.modBlock_mem]

@[simp] theorem faultLoose_mem (s : State) (u part : Nat) (e : Event) :
    (faultLoose s u part e).mem = s.mem := by
  grind [faultLoose, gridError_mem, postEvent_mem, Machine.modWave_mem]

@[simp] theorem stopWaves_mem (s : State) (block : Option Nat) (cores : List Nat) (ctx hitAt : Nat) :
    (stopWaves s block cores ctx hitAt).mem = s.mem := rfl

/-! ### Operations that are answered -/

@[simp] theorem answerOp_mem (s : State) (u : Nat) (op : Option Nat) (vals : List LaneVal) (sticky : Sticky)
    (heads : List Head) :
    (answerOp s u op vals sticky heads).mem = s.mem := by
  unfold answerOp
  split <;> simp

@[simp] theorem spadAtomLane_mem (k width : Nat) (op : AtomOp) (own : List Head)
    (x : State × List LaneVal × Sticky × List Head) (l : AtomLane) : (spadAtomLane k width op own x l).1.mem = x.1.mem := by
  simp [spadAtomLane]

@[simp] theorem lockRead_mem (s : State) (u n k width lane off : Nat) (takes : Option Nat) :
    (lockRead s u n k width lane off takes).mem = s.mem := by
  simp [lockRead]

@[simp] theorem lockGo_mem (u n k width : Nat) (l : List (Nat × Nat)) (s : State) :
    (lockGo u n k width l s).mem = s.mem := by
  induction l generalizing s with
  | nil => rfl
  | cons x r ih =>
    unfold lockGo
    dsimp only
    split
    · simp [ih]
    · split <;> simp [ih]

@[simp] theorem stulLane_mem (u k width : Nat) (x : State × List LaneVal) (l : StoreLane) :
    (stulLane u k width x l).1.mem = x.1.mem := by
  unfold stulLane
  dsimp only
  split <;> simp

/-! ### Waves, blocks and grids -/

@[simp] theorem placeWave_mem (s : State) (g core pc start : Nat) (block : Option Nat) (clock : List Nat) :
    (placeWave s g core pc start block clock).2.mem = s.mem := rfl

@[simp] theorem placeWaves_mem (n : Nat) (s : State) (g core pc : Nat) (clock : List Nat) :
    (placeWaves n s g core pc clock).2.mem = s.mem := by
  induction n generalizing s with
  | zero => rfl
  | succ n ih => simp [placeWaves, ih]

@[simp] theorem joinBlock_mem (s : State) (u k : Nat) :
    (joinBlock s u k).mem = s.mem := rfl

@[simp] theorem endVarying_mem (s : State) (g u : Nat) :
    (endVarying s g u).mem = s.mem := rfl

@[simp] theorem supplyEmpty_mem (s : State) (u k : Nat) : (supplyEmpty s u k).mem = s.mem := by
  refine foldl_mem (fun t x => ?_) _ _
  dsimp only
  split
  · split <;> simp
  · rfl

@[simp] theorem leaveBlock_mem (s : State) (u : Nat) :
    (leaveBlock s u).mem = s.mem := by
  grind [leaveBlock, endVarying_mem, supplyEmpty_mem, Machine.modBlock_mem, Machine.modCore_mem, Machine.modGrid_mem, Machine.modWave_mem]

@[simp] theorem releaseDrawn_mem (s : State) (part : Nat) (drawn : Map Nat) :
    (releaseDrawn s part drawn).mem = s.mem := rfl

@[simp] theorem completeGrid_mem (s : State) (n : Nat) :
    (completeGrid s n).mem = s.mem := by
  simp [completeGrid]

@[simp] theorem checkGrid_mem (s : State) (n : Nat) :
    (checkGrid s n).mem = s.mem := by
  unfold checkGrid
  split <;> simp

@[simp] theorem dropWave_mem (s : State) (u : Nat) : (dropWave s u).mem = s.mem := (dropWave_places s u).1

@[simp] theorem endWaveNow_mem (s : State) (u : Nat) :
    (endWaveNow s u).mem = s.mem := by
  simp [endWaveNow]

@[simp] theorem freePlaces_mem (s : State) (k : Nat) :
    (freePlaces s k).mem = s.mem := rfl

@[simp] theorem freeBlock_mem (s : State) (k : Nat) : (freeBlock s k).mem = s.mem := (freeBlock_gone s k).1

@[simp] theorem countSave_mem (s : State) (grid status n : Nat) :
    (countSave s grid status n).mem = s.mem := by
  grind [countSave, settleSave_mem, Machine.modPart_mem]

@[simp] theorem endPreempt_mem (s : State) (k status : Nat) : (endPreempt s k status).mem = s.mem :=
  (endPreempt_places s k status).1

/-! ### Runs of candidates -/

@[simp] theorem promoteIf_mem (s : State) (die x : Nat) :
    (promoteIf s die x).mem = s.mem := by
  grind [promoteIf, modEntry_mem, trumpEvent_mem]

@[simp] theorem sampleRegion_mem (s : State) (w : Wave) (sp : Split) (die pa : Nat) (e : TrumpEntry) :
    (sampleRegion s w sp die pa e).mem = s.mem := by
  grind [sampleRegion, Machine.modCore_mem, Machine.modDie_mem]

@[simp] theorem modSplit_mem (s : State) (u e : Nat) (f : Split → Split) :
    (modSplit s u e f).mem = s.mem := rfl

@[simp] theorem startRun_mem (s : State) (u : Nat) (sp : Split) (x : Nat) (e : TrumpEntry) (tag : Option Nat) :
    (startRun s u sp x e tag).mem = s.mem := rfl

@[simp] theorem promotedRun_mem (s : State) (u : Nat) (w : Wave) (sp : Split) (die x : Nat) (e : TrumpEntry) :
    (promotedRun s u w sp die x e).mem = s.mem := by
  grind [promotedRun, modEntry_mem, startRun_mem, Machine.modDie_mem]

/-! ### Engines -/

@[simp] theorem enterQueue_mem (s : State) (core q : Nat) (e : Entry) :
    (enterQueue s core q e).mem = s.mem := rfl

@[simp] theorem modEntryOf_mem (s : State) (core q id : Nat) (f : Entry → Entry) :
    (modEntryOf s core q id f).mem = s.mem := rfl

@[simp] theorem tileGranule_mem (s : State) (k g : Nat) (bytes : List (Nat × Byte)) (tag : Tag) :
    (tileGranule s k g bytes tag).mem = s.mem := rfl

@[simp] theorem accStore_mem (s : State) (k n : Nat) (x : AccElem) :
    (accStore s k n x).mem = s.mem := rfl

@[simp] theorem accPut_mem (s : State) (k : Nat) (cells : List (Nat × Byte)) (tag : Tag) :
    (accPut s k cells tag).mem = s.mem := by
  unfold accPut
  split <;> simp

@[simp] theorem windowPut_mem (s : State) (u base : Nat) (cells : List (Nat × Byte)) (tag : Tag) :
    (windowPut s u base cells tag).mem = s.mem := by
  unfold windowPut
  split <;> simp

@[simp] theorem showWrite_mem (core : Nat) (s : State) (x : EngineWrite) : (showWrite core s x).mem = s.mem := by
  unfold showWrite
  split
  · split <;> rfl
  · exact foldl_mem (by intros; rfl) _ _
  · exact foldl_mem (by intros; rfl) _ _
  · simp
  · simp

@[simp] theorem holdWrites_mem (s : State) (core q : Nat) (e : Entry) (delay : Nat) (l : List (List EngineWrite)) :
    (holdWrites s core q e delay l).mem = s.mem := by
  exact foldl_mem (by intros; rfl) _ _

@[simp] theorem produced_mem (s : State) (core q : Nat) (e : Entry) (pkr : DWord) (p : Produced) :
    (produced s core q e pkr p).mem = s.mem := by
  simp [produced]

@[simp] theorem findMatrix_mem (s : State) (k : Nat) : (findMatrix s k).mem = s.mem := by
  refine foldl_mem (fun t x => ?_) _ _
  split
  · split <;> simp
  · split <;> simp
  · rfl

@[simp] theorem performRound_mem (s : State) (core : Nat) (e : Entry) (p n : Nat) :
    ∀ t, performRound s core e p n = some t → t.mem = s.mem := by
  grind [performRound, modEntryOf_mem, produced_mem, Machine.modPart_mem]

@[simp] theorem modDeck_mem (s : State) (p d : Nat) (f : Deck → Deck) :
    (modDeck s p d f).mem = s.mem := rfl

@[simp] theorem drawItems_mem (s : State) (p u deck preg v : Nat) (lanes : List Nat) :
    (drawItems s p u deck preg v lanes).1.mem = s.mem := by
  grind [drawItems, modDeck_mem, Machine.modWave_mem]

@[simp] theorem egress_mem (s : State) (core part ctx : Nat) (x : EngineWrite) (tag : Tag) :
    (egress s core part ctx x tag).mem = s.mem := rfl

@[simp] theorem engineOwned_mem (s : State) (core n : Nat) :
    (engineOwned s core n).mem = s.mem := rfl

/-! ### Rounds and the places of an entry -/

@[simp] theorem forgetRound_mem (s : State) (e : Entry) :
    (forgetRound s e).mem = s.mem := by
  grind [forgetRound, Machine.modPart_mem]

@[simp] theorem endWith_mem (s : State) (u : Nat) (block : Option Nat) (part : Nat) (e : Event) :
    (endWith s u block part e).mem = s.mem := by
  unfold endWith
  split
  · split <;> simp
  · simp

@[simp] theorem entryWalk_mem (s : State) (core q : Nat) (e : Entry) (f : Cause × Nat) :
    (entryWalk s core q e f).mem = s.mem := by
  unfold entryWalk
  split <;> simp

@[simp] theorem enterItem_mem (n : Nat) (s : State) (y : Contribution) :
    (enterItem n s y).mem = s.mem := by
  unfold enterItem
  split <;> simp

@[simp] theorem formRound_mem (s : State) (p idx : Nat) (c : Cohort) (drain : Bool) (items : List Contribution) :
    (formRound s p idx c drain items).mem = s.mem := by
  simp [formRound]

@[simp] theorem findPieces_mem (s : State) (w : Wave) (l : List Nat) :
    (findPieces s w l).mem = s.mem := by
  simp [findPieces]

@[simp] theorem listWalk_mem (s : State) (w : Wave) (va : Nat) :
    (listWalk s w va).mem = s.mem := by
  grind [listWalk, postEvent_mem]

/-! ### Placement -/

@[simp] theorem enqueueGrid_mem (s : State) (part ctx q : Nat) (l : List Byte) (list : Option (List Byte))
    (clock : List Nat) :
    (enqueueGrid s part ctx q l list clock).2.2.mem = s.mem := by
  grind [enqueueGrid, Machine.modPart_mem]

@[simp] theorem placeFirst_mem (n : Nat) (s : State) (g core k : Nat) : (placeFirst n s g core k).2.mem = s.mem := by
  induction n generalizing s with
  | zero => rfl
  | succ n ih => simp [placeFirst, ih]

@[simp] theorem modMembers_mem (s : State) (k : Nat) (f : Wave → Wave) :
    (modMembers s k f).mem = s.mem := rfl

/-! ### Saves and restorations -/

@[simp] theorem acceptPreempt_mem (s : State) (k reason : Nat) (cmds : List Nat) :
    (acceptPreempt s k reason cmds).mem = s.mem := rfl

@[simp] theorem followSaves_mem (s : State) (g k : Nat) :
    (followSaves s g k).mem = s.mem := by
  grind [followSaves, acceptPreempt_mem, Machine.modPart_mem]

@[simp] theorem pushCode_mem (s : State) (w : Wave) (entry n : Nat) : (pushCode s w entry n).mem = s.mem := by
  refine foldl_mem (fun t i => ?_) _ _
  split <;> simp

@[simp] theorem leaveQueue_mem (s : State) (g : Nat) :
    (leaveQueue s g).mem = s.mem := by
  grind [leaveQueue, Machine.modPart_mem]

@[simp] theorem dropBody_mem (s : State) (n : Nat) :
    (dropBody s n).mem = s.mem := rfl

@[simp] theorem abandonSave_mem (s : State) (k status : Nat) : (abandonSave s k status).mem = s.mem := by
  refine foldl_mem (fun t j => ?_) _ _
  dsimp only
  split <;> simp

@[simp] theorem discardBlock_mem (s : State) (k : Nat) :
    (discardBlock s k).mem = s.mem := by
  simp [discardBlock]

@[simp] theorem holdBody_mem (s : State) (k ctx n va bytes : Nat) : (holdBody s k ctx n va bytes).mem = s.mem := by
  refine foldl_mem (fun t g => ?_) _ _
  split <;> rfl

@[simp] theorem readBlock_mem (s : State) (k : Nat) : (readBlock s k).mem = s.mem := by
  refine (foldl_mem (fun t y => ?_) _ _).trans (by simp)
  split
  · split <;> simp
  · rfl

@[simp] theorem takeTags_mem (s : State) (n die : Nat) (x : Image) :
    (takeTags s n die x).1.mem = s.mem := rfl

@[simp] theorem restoreWaveOn_mem (s : State) (k core resident : Nat) (x : Nat × Wave) :
    (restoreWaveOn s k core resident x).mem = s.mem := by
  grind [restoreWaveOn, spillRegs_mem, Machine.modWave_mem]

@[simp] theorem joinPartners_mem (s : State) (a b : Nat) :
    (joinPartners s a b).mem = s.mem := rfl

/-! ### Seats, decks and windows -/

@[simp] theorem setStall_mem (s : State) (c : Nat) (seat t : Option Nat) (from_ : Nat) :
    (setStall s c seat t from_).mem = s.mem := rfl

@[simp] theorem arriveItems_mem (s : State) (p die : Nat) (clock : List Nat) (l : List (Nat × List TWord)) :
    (arriveItems s p die clock l).mem = s.mem := by
  exact foldl_mem (by intros; rfl) _ _

@[simp] theorem dropRecord_mem (s : State) (p : Nat) (w : Window) (n : Nat) :
    (dropRecord s p w n).mem = s.mem := rfl

@[simp] theorem modWindow_mem (s : State) (p ix : Nat) (f : Window → Window) :
    (modWindow s p ix f).mem = s.mem := rfl

/-! ### Commands -/

@[simp] theorem skipUnknown_mem (l : List HostRecord) (s : State) (p : Nat) : (skipUnknown l s p).mem = s.mem := by
  induction l generalizing s with
  | nil => rfl
  | cons r rest ih =>
    unfold skipUnknown
    split <;> simp [ih]

@[simp] theorem findBytes_mem (s : State) (p ctx va n : Nat) :
    (findBytes s p ctx va n).mem = s.mem := by
  simp [findBytes]

@[simp] theorem joinSave_mem (s : State) (reason n k : Nat) :
    (joinSave s reason n k).mem = s.mem := by
  unfold joinSave
  split <;> simp

@[simp] theorem checkRecord_mem (s : State) (p ctx va grid block : Nat) :
    (checkRecord s p ctx va grid block).mem = s.mem := rfl

@[simp] theorem foreignGrid_mem (s : State) (p ctx : Nat) (r : List Byte) :
    (foreignGrid s p ctx r).2.mem = s.mem := by
  unfold foreignGrid
  split <;> simp

@[simp] theorem foreignImage_mem (s : State) (p ctx va g : Nat) (r : List Byte) :
    (foreignImage s p ctx va g r).mem = s.mem := rfl

@[simp] theorem takeForeign_mem (s : State) (p ctx va : Nat) (good : Bool) :
    (takeForeign s p ctx va good).mem = s.mem := by
  grind [takeForeign, checkGrid_mem, checkRecord_mem, foreignGrid_mem, foreignImage_mem, gridError_mem]

@[simp] theorem takeImage_mem (ctx p : Nat) (vs : List Nat) (a : State × Nat × Nat) (va : Nat) :
    (takeImage ctx p vs a va).1.mem = a.1.mem := by
  unfold takeImage
  dsimp only
  split
  · split
    · rfl
    · split
      · rfl
      · dsimp only
        split <;> simp
  · simp

@[simp] theorem dropSaved_mem (s : State) (w : Wave) :
    (dropSaved s w).mem = s.mem := rfl

@[simp] theorem dropImage_mem (s : State) (n : Nat) : (dropImage s n).mem = s.mem := by
  have hsaved (l : List (Nat × Wave)) (t : State) : (l.foldl (fun t w => dropSaved t w.2) t).mem = t.mem :=
    foldl_mem (by intros; rfl) l t
  unfold dropImage
  split
  · rfl
  · simp [hsaved]

@[simp] theorem freeTagOf_mem (s : State) (t : Nat) :
    (freeTagOf s t).mem = s.mem := rfl

@[simp] theorem endGrid_mem (s : State) (g : Nat) (e : Event) : (endGrid s g e).mem = s.mem := by
  unfold endGrid
  refine (checkGrid_mem _ _).trans ((foldl_mem (fun t u => ?_) _ _).trans (by simp))
  split <;> rfl

@[simp] theorem fileReply_mem (s : State) (r : Nat) :
    (fileReply s r).mem = s.mem := rfl

@[simp] theorem dropStream_mem (s : State) (x : Nat) :
    (dropStream s x).mem = s.mem := by
  grind [dropStream, failStream_mem]

@[simp] theorem leaveRoster_mem (s : State) (p e : Nat) (gone : Bool) :
    (leaveRoster s p e gone).mem = s.mem := by
  simp [leaveRoster]

/-! ### Rollback -/

@[simp] theorem discardIssued_mem (s : State) (us : List Nat) (from_ : Nat) :
    (discardIssued s us from_).mem = s.mem := by
  simp [discardIssued]

@[simp] theorem dropSearch_mem (c : Nat) (seat : Option Nat) (s : State) :
    (dropSearch c seat s).mem = s.mem := rfl

@[simp] theorem rerunArray_mem (s : State) (c : Nat) :
    (rerunArray s c).mem = s.mem := by
  grind [rerunArray, Machine.modCore_mem]

@[simp] theorem rerunEngines_mem (s : State) (c : Nat) :
    (rerunEngines s c).mem = s.mem := by
  grind [rerunEngines, rerunArray_mem]

@[simp] theorem rollback_mem (s : State) (c : Nat) (seat : Option Nat) (from_ : Nat) :
    (rollback s c seat from_).mem = s.mem := by
  have hbodies (l : List Nat) (t : State) : (l.foldl dropBody t).mem = t.mem := foldl_mem (by intros; rfl) l t
  unfold rollback
  dsimp only
  split <;> simp [hbodies]

@[simp] theorem rolledBack_mem (s : State) (c : Nat) (seat : Option Nat) (from_ : Nat) :
    (rolledBack s c seat from_).mem = s.mem := by
  grind [rolledBack, rollback_mem, setStall_mem, suspectCore_mem, Machine.modCore_mem]

/-! ### Hub dies and peers -/

@[simp] theorem wakeHub_mem (s : State) (h : Nat) :
    (wakeHub s h).mem = s.mem := by
  unfold wakeHub
  split <;> simp

@[simp] theorem modSlot_mem (s : State) (p ix k : Nat) (f : SlotState → SlotState) :
    (modSlot s p ix k f).mem = s.mem := rfl

@[simp] theorem cutFrame_mem (s : State) (p : Nat) (w : Window) (k len : Nat) :
    (cutFrame s p w k len).mem = s.mem := by
  unfold cutFrame
  split <;> simp

@[simp] theorem noteBringUp_mem (s : State) (p : Nat) :
    (noteBringUp s p).mem = s.mem := by
  unfold noteBringUp
  split <;> simp

@[simp] theorem modLink_mem (s : State) (x : Nat) (f : Link → Link) :
    (modLink s x f).mem = s.mem := rfl

@[simp] theorem forged_mem (s : State) (p detail : Nat) :
    (forged s p detail).mem = s.mem := rfl

@[simp] theorem peerArrive_mem (s : State) (p idx e : Nat) :
    (peerArrive s p idx e).mem = s.mem := rfl

@[simp] theorem peerContribute_mem (s : State) (p idx e : Nat) (y : PeerPart) :
    (peerContribute s p idx e y).mem = s.mem := rfl

@[simp] theorem peerValues_mem (s : State) (p idx e : Nat) (bad : Bool) (y : PeerPart) :
    (peerValues s p idx e bad y).mem = s.mem := by
  unfold peerValues
  split <;> simp

@[simp] theorem mismatchTrap_mem (s : State) (u : Nat) (e : Option Nat) :
    (mismatchTrap s u e).mem = s.mem := by
  grind [mismatchTrap, takeTrap_mem, trapAt_mem]

@[simp] theorem mismatch_mem (s : State) (k c : Nat) (h : Held) :
    (mismatch s k c h).mem = s.mem := by
  simp [mismatch]

/-! ### The search and the end of a cycle -/

@[simp] theorem putSearch_mem (s : State) (core seat i : Nat) (x : Option SearchRun) :
    (putSearch s core seat i x).mem = s.mem := rfl

@[simp] theorem searchIssue_mem (s : State) (core seat i : Nat) :
    (searchIssue s core seat i).mem = s.mem := by
  grind [searchIssue, putSearch_mem, Machine.modCore_mem]

@[simp] theorem endRun_mem (s : State) (u en : Nat) :
    (endRun s u en).mem = s.mem := by
  grind [endRun, modSplit_mem, Machine.modWave_mem]

@[simp] theorem afterIssue_mem (u e : Nat) (s : State) :
    (afterIssue u e s).mem = s.mem := by
  unfold afterIssue
  split <;> simp

@[simp] theorem findOperands_mem (s : State) (u e : Nat) (i : Instr) : (findOperands s u e i).mem = s.mem := by
  unfold findOperands
  dsimp only
  split
  · split
    · cases (waveOf s u).block <;> simp
    · simp
  · rfl

@[simp] theorem badWord_mem (s : State) (u : Nat) (sp : Split) (e : DecodeError) :
    (badWord s u sp e).mem = s.mem := by
  unfold badWord
  split <;> simp

@[simp] theorem nextCycle_mem (s : State) :
    (nextCycle s).mem = s.mem := rfl

@[simp] theorem raiseSpad_mem (s : State) : (raiseSpad s).mem = s.mem := by
  refine foldl_mem (fun t y => ?_) _ _
  split
  · split <;> simp
  · rfl

@[simp] theorem servedLoads_mem (s t : State) : (servedLoads s t).mem = t.mem := rfl

@[simp] theorem captureLoads_mem (s : State) : (captureLoads s).mem = s.mem :=
  (noteTaken_mem _).trans (decoded_mem (by intros; rfl) s)

@[simp] theorem takeTask_mem (die : Nat) (s : State) (x : Bool × Nat × List Word) :
    (takeTask die s x).mem = s.mem := by
  grind [takeTask, putSearch_mem]

@[simp] theorem leaveTask_mem (die : Nat) (s : State) (p : Nat × Nat × Nat) :
    (leaveTask die s p).mem = s.mem := by
  grind [leaveTask, putSearch_mem]

@[simp] theorem assignSearch_mem (s : State) : (assignSearch s).mem = s.mem := by
  simp [assignSearch]

end Sys2Proof.Machine.AddressSpace
end

section
/-! SUPPORT. The canonical form of memory under the shared shapes of an instruction and of a move. -/

namespace Sys2Proof.Machine.AddressSpace

open ExecutionContexts

/-- An outcome's next state, if it has one, holds memory in its canonical form. -/
def Keeps : Host.Outcome State Fault Refusal → Prop
  | .next t => Memory.wf t.mem
  | .fault _ => True
  | .refused _ => True

@[simp] theorem keeps_next (t : State) : Keeps (.next t) ↔ Memory.wf t.mem := Iff.rfl
@[simp] theorem keeps_fault (x : Fault) : Keeps (.fault x) := trivial
@[simp] theorem keeps_refused (x : Refusal) : Keeps (.refused x) := trivial

section
variable {s : State} {c : Ctx}

theorem ite_wf {p : Prop} [Decidable p] {t : State} (hs : Memory.wf s.mem) (ht : Memory.wf t.mem) :
    Memory.wf (if p then s else t).mem := by
  split
  · exact hs
  · exact ht

/-! ### Issues -/

theorem unlessFull_wf {t : State} (hs : Memory.wf s.mem) (ht : Memory.wf t.mem) (u : Nat) (w : Wave) (sp : Split)
    (i : Instr) : Memory.wf (unlessFull s t u w sp i).mem := by
  unfold unlessFull
  split
  · exact hs
  · exact ht

/-- The beginning of an issue leaves memory `m`. -/
def IssueLeaves (m : List Host.Cell) : Issue → Prop
  | .refuse => True
  | .done t => t.mem = m
  | .go _ t => t.mem = m

/-- The tests of an issue and the consumption of its guard leave memory. -/
theorem issue_leaves (i : Instr) (s : State) : IssueLeaves s.mem (issue i s) := by
  unfold issue
  split
  · trivial
  · split
    · trivial
    · split
      · trivial
      · split
        · exact stall_mem _ _
        · dsimp only
          split
          · exact trapAt_mem _ _ _ _
          · split
            · split
              · exact stallOn_mem _ _ _
              · exact trapAt_mem _ _ _ _
              · rfl
              · split
                · exact (finish_mem _ _ _ _ _).trans (by simp)
                · exact (afterKill_mem _ _ _ _).trans (putWave_mem _ _ _)
            · rfl

theorem run_keeps {i : Instr} {k : State → Ctx → State} (hk : ∀ t c, Memory.wf t.mem → Memory.wf (k t c).mem)
    (h : Memory.wf s.mem) : Keeps (run i s k) := by
  have hi := issue_leaves i s
  unfold run
  split
  · trivial
  · next t e =>
    rw [e] at hi
    exact (congrArg Memory.wf hi).trans h
  · next c t e =>
    rw [e] at hi
    exact unlessFull_wf h (hk t c ((congrArg Memory.wf hi).trans h)) _ _ _ _

theorem runAlu_keeps {i : Instr} {f : Ctx → Except (Cause × Word) Alu} (h : Memory.wf s.mem) : Keeps (runAlu i s f) :=
  run_keeps (fun t c ht => by rwa [finishAlu_mem]) h

theorem killThen_wf {dead : Map (BitVec 12)} {k : State → Ctx → State}
    (hk : ∀ t c, Memory.wf t.mem → Memory.wf (k t c).mem) (h : Memory.wf s.mem) :
    Memory.wf (killThen s c dead k).mem := by
  unfold killThen
  split
  · exact hk s c h
  · dsimp only
    split
    · simpa using h
    · exact hk _ _ (by simpa using h)

theorem consumeThen_wf {m : LaneMask} {f : Nat → List Tag} {whole : Bool} {k : State → Ctx → State}
    (hk : ∀ t c, Memory.wf t.mem → Memory.wf (k t c).mem) (h : Memory.wf s.mem) :
    Memory.wf (consumeThen s c m f whole k).mem := by
  unfold consumeThen
  split
  · simpa using h
  · simpa using h
  · exact killThen_wf hk h

theorem consumeAll_wf {tags : List Tag} {k : State → Ctx → State}
    (hk : ∀ t c, Memory.wf t.mem → Memory.wf (k t c).mem) (h : Memory.wf s.mem) :
    Memory.wf (consumeAll s c tags k).mem := consumeThen_wf hk h

theorem pairThen_wf {a : Operand} {k : State → Ctx → Nat → State}
    (hk : ∀ t c n, Memory.wf t.mem → Memory.wf (k t c n).mem) (h : Memory.wf s.mem) :
    Memory.wf (pairThen s c a k).mem := consumeAll_wf (fun t c ht => hk t c _ ht) h

theorem withTarget_wf {va : Nat} {k : State → State} (hk : ∀ t, Memory.wf t.mem → Memory.wf (k t).mem)
    (h : Memory.wf s.mem) : Memory.wf (withTarget s c va k).mem := by
  unfold withTarget
  split
  · exact hk s h
  · exact hk s h
  · simpa using h
  · simpa using h

theorem branchThen_wf {p : Operand} {off : BitVec 16} {k : State → Ctx → LaneMask → LaneMask → Nat → State}
    (hk : ∀ t c m one va, Memory.wf t.mem → Memory.wf (k t c m one va).mem) (h : Memory.wf s.mem) :
    Memory.wf (branchThen s c p off k).mem :=
  consumeThen_wf (fun _ c ht => withTarget_wf (fun t ht => hk t c _ _ _ ht) ht) h

theorem attached_wf {k : Nat → State} (hk : ∀ n, Memory.wf (k n).mem) (h : Memory.wf s.mem) :
    Memory.wf (attached s c k).mem := by
  unfold attached
  split
  · exact hk _
  · simpa using h

theorem arriveThen_wf {k : Nat} {a : Operand} {go : Word → State} (hk : ∀ e, Memory.wf (go e).mem)
    (h : Memory.wf s.mem) : Memory.wf (arriveThen s c k a go).mem := by
  unfold arriveThen
  dsimp only
  split
  · exact hk _
  · simpa using h

theorem withPlaces_wf {qs : List Nat} {k : State → State} (hk : Memory.wf (k s).mem) (h : Memory.wf s.mem) :
    Memory.wf (withPlaces s c qs k).mem := by
  unfold withPlaces
  split
  · exact hk
  · simpa using h

theorem slotThen_wf {n : Nat} {k : Nat → State} (hk : ∀ x, Memory.wf (k x).mem) (h : Memory.wf s.mem) :
    Memory.wf (slotThen s c n k).mem := by
  unfold slotThen
  dsimp only
  split
  · simpa using h
  · exact hk _

theorem accThen_wf {k : Nat} {a : Operand} {go : State} (hgo : Memory.wf go.mem) (h : Memory.wf s.mem) :
    Memory.wf (accThen s c k a go).mem := by
  unfold accThen
  split
  · simpa using h
  · exact hgo

theorem accAccess_wf {acc ctl : Operand} {wr : Bool} {go : Nat → Nat → Nat → State}
    (hgo : ∀ k x slot, Memory.wf (go k x slot).mem) (h : Memory.wf s.mem) :
    Memory.wf (accAccess s c acc ctl wr go).mem := by
  refine attached_wf (fun k => ?_) h
  dsimp only
  split
  · simpa using h
  · exact slotThen_wf (fun x => accThen_wf (hgo k _ x) h) h

theorem cohortThen_wf {idx : Nat} {k : Cohort → State} (hk : ∀ x, Memory.wf (k x).mem) (h : Memory.wf s.mem) :
    Memory.wf (cohortThen s c idx k).mem := by
  unfold cohortThen
  split
  · split
    · exact hk _
    · simpa using h
  · simpa using h

theorem copyThen_wf {a : Operand} {k : State → Ctx → CopyReq → State}
    (hk : ∀ t c r, Memory.wf t.mem → Memory.wf (k t c r).mem) (h : Memory.wf s.mem) :
    Memory.wf (copyThen s c a k).mem := by
  refine attached_wf (fun _ => consumeAll_wf (fun t c ht => ?_) h) h
  split
  · simpa using ht
  · exact hk t c _ ht

/-! ### Accesses -/

theorem spadChecked_wf {off : Ctx → Nat → Nat} {wr rd : Bool} {k : State → Ctx → List (Nat × Nat) → State}
    (hk : ∀ ls, Memory.wf (k s c ls).mem) (h : Memory.wf s.mem) : Memory.wf (spadChecked s c off wr rd k).mem := by
  unfold spadChecked
  dsimp only
  split
  · simpa using h
  · split
    · simpa using h
    · split
      · simpa using h
      · simpa using hk _

theorem spadAccess_wf {a : Operand} {wr rd : Bool} {k : State → Ctx → List (Nat × Nat) → State}
    (hk : ∀ t c ls, Memory.wf t.mem → Memory.wf (k t c ls).mem) (h : Memory.wf s.mem) :
    Memory.wf (spadAccess s c a wr rd k).mem :=
  attached_wf (fun _ => consumeThen_wf (fun t c ht => spadChecked_wf (fun ls => hk t c ls ht) ht) h) h

theorem layoutAccess_wf {y n : Operand} {wr rd : Bool} {k : State → Ctx → List (Nat × Nat) → State}
    (hk : ∀ t c ls, Memory.wf t.mem → Memory.wf (k t c ls).mem) (h : Memory.wf s.mem) :
    Memory.wf (layoutAccess s c y n wr rd k).mem := by
  refine attached_wf (fun _ => consumeThen_wf (fun t c ht => ?_) h) h
  dsimp only
  split
  · simpa using ht
  · split
    · simpa using ht
    · exact spadChecked_wf (fun ls => hk t c ls ht) ht

theorem globalAccess_wf {a : Operand} {kind : Access} {k : State → Ctx → List (Nat × Nat) → State}
    (hk : ∀ t c ls, Memory.wf t.mem → Memory.wf (k t c ls).mem) (h : Memory.wf s.mem) :
    Memory.wf (globalAccess s c a kind k).mem := by
  refine consumeThen_wf (fun t c ht => ?_) h
  dsimp only
  split
  · simpa using ht
  · split
    · simpa using ht
    · rw [afterAccess_mem]
      exact hk _ c _ (by simpa using ht)

theorem startStore_wf (b : Operand) (rel : Option Release) (ls : List (Nat × Nat)) (h : Memory.wf s.mem) :
    Memory.wf (startStore b rel s c ls).mem := by
  refine consumeThen_wf (fun t c ht => ?_) h
  dsimp only
  split <;> simpa using ht

/-! ### Requests to engines, grants -/

theorem startMma_wf (n : BitVec 3) (d ta tb : Operand) (window : Bool) (h : Memory.wf s.mem) :
    Memory.wf (startMma n d ta tb window s c).mem := by
  refine attached_wf (fun k => ?_) h
  dsimp only
  split
  · simpa using h
  · split
    · simpa using h
    · exact withPlaces_wf (by simpa using h) h

theorem startCopy_wf (d a : Operand) (out : Bool) (h : Memory.wf s.mem) : Memory.wf (startCopy d a out s c).mem :=
  copyThen_wf (fun _ _ _ ht => withPlaces_wf (by simpa using ht) ht) h

theorem startSlice_wf (d a : Operand) (out : Bool) (h : Memory.wf s.mem) : Memory.wf (startSlice d a out s c).mem := by
  refine copyThen_wf (fun t c r ht => ?_) h
  dsimp only
  split
  · split
    · simpa using ht
    · split <;> simpa using ht
  · exact withPlaces_wf (by simpa using ht) ht

theorem writeGrant_wf (a : Operand) (h : Memory.wf s.mem) : Memory.wf (writeGrant a s c).mem := by
  refine attached_wf (fun k => consumeAll_wf (fun t c ht => ?_) h) h
  dsimp only
  refine ite_wf (by simpa using ht) (ite_wf (by simpa using ht) (by simpa using ht))

/-! ### Moves -/

theorem perform_keeps {n : Nat} {name : String} {f : State → Held → Option State}
    (hf : ∀ t x r, Memory.wf t.mem → f t x = some r → Memory.wf r.mem) (h : Memory.wf s.mem) :
    Keeps (perform s n name f) := by
  unfold perform
  split
  · trivial
  · split
    · split
      · next r e => simpa using hf _ _ r (by simpa using h) e
      · trivial
    · trivial

/-- The state a command answers. -/
def Reply.state : Reply → State
  | .done t _ _ => t
  | .later t => t

theorem command_keeps {p : Nat} {name : String} {f : State → HostRecord → Option Reply}
    (hf : ∀ t x r, Memory.wf t.mem → f t x = some r → Memory.wf (Reply.state r).mem) (h : Memory.wf s.mem) :
    Keeps (command s p name f) := by
  unfold command
  dsimp only
  split
  · split
    · trivial
    · split
      · trivial
      · next r e =>
        have hr := hf _ _ r (by simpa using h) e
        rw [keeps_next, skipUnknown_mem]
        split
        · simpa using h
        · cases r with
          | done t st more => simpa [Reply.state] using hr
          | later t => exact hr
  · trivial

end

end Sys2Proof.Machine.AddressSpace
end

section
/-! SUPPORT. The canonical form of memory under writes: how a write reaches its home, the ports and the windows. -/

namespace Sys2Proof.Machine.AddressSpace

open ExecutionContexts

/-- What each step of a fold keeps of memory's form, the fold keeps. -/
theorem foldl_wf {α : Type} {f : State → α → State} (hf : ∀ t x, Memory.wf t.mem → Memory.wf (f t x).mem)
    (l : List α) :
    ∀ {s : State}, Memory.wf s.mem → Memory.wf (l.foldl f s).mem := by
  induction l with
  | nil => exact fun h => h
  | cons x l ih => exact fun h => ih (hf _ x h)

/-! ### Writes that reach their home -/

section
variable {s : State}

theorem homeByte_wf (f : Flight) (n : Nat) (others : List Nat) (oldTag : Tag) (x : Nat × Byte)
    (h : Memory.wf s.mem) : Memory.wf (homeByte f n others oldTag s x).mem := memSet_wf s.mem x.1 x.2 h

theorem applyHome_wf (f : Flight) (dies : List Nat) (h : Memory.wf s.mem) : Memory.wf (applyHome s f dies).mem := by
  unfold applyHome
  rw [settleFlight_mem]
  exact foldl_wf (fun _ x ht => homeByte_wf _ _ _ _ x ht) _ h

theorem applyLine_wf (f : Flight) (dies : List Nat) (h : Memory.wf s.mem) : Memory.wf (applyLine s f dies).mem := by
  unfold applyLine
  dsimp only
  have h1 := applyHome_wf f dies h
  split
  · split
    · exact applyHome_wf _ dies h1
    · exact h1
  · exact h1

/-- The first half of `bring`: the write of flight `n` reaches its home after the writes before it. -/
def bringHome (k n : Nat) (s : State) (f : Flight) : State :=
  if f.pos.isNone then
    let t := (lineBefore s f).foldl (bring k f.home) s
    match mget t.flights n with
    | some g => if g.pos.isNone then applyLine t g ((g.src :: g.home :: g.todo).eraseDups) else t
    | none => t
  else s

/-- The second half of `bring`: it reaches die `d` after the writes that die lacks. -/
def bringDie (k d n : Nat) (s : State) : State :=
  match mget s.flights n with
  | none => s
  | some g =>
    if g.todo.contains d then
      let t := (missingBefore s g d).foldl (bring k d) s
      match mget t.flights n with
      | some h => if h.todo.contains d then applyRemote t h d else t
      | none => t
    else s

theorem bring_succ (k d : Nat) (s : State) (n : Nat) : bring (k + 1) d s n =
    match mget s.flights n with
    | none => s
    | some f => bringDie k d n (bringHome k n s f) := rfl

theorem bringHome_wf {k : Nat} (ih : ∀ (d n : Nat) (s : State), Memory.wf s.mem → Memory.wf (bring k d s n).mem)
    (n : Nat)
    (f : Flight) (h : Memory.wf s.mem) : Memory.wf (bringHome k n s f).mem := by
  have ht := foldl_wf (fun t m hm => ih f.home m t hm) (lineBefore s f) h
  unfold bringHome
  refine ite_wf ?_ h
  dsimp only
  split
  · exact ite_wf (applyLine_wf _ _ ht) ht
  · exact ht

theorem bringDie_wf {k : Nat} (ih : ∀ (d n : Nat) (s : State), Memory.wf s.mem → Memory.wf (bring k d s n).mem)
    (d n : Nat)
    (h : Memory.wf s.mem) : Memory.wf (bringDie k d n s).mem := by
  unfold bringDie
  split
  · exact h
  · next g _ =>
    have ht := foldl_wf (fun t m hm => ih d m t hm) (missingBefore s g d) h
    refine ite_wf ?_ h
    dsimp only
    split
    · exact ite_wf ((congrArg Memory.wf (applyRemote_mem _ _ _)).trans ht) ht
    · exact ht

theorem bring_wf (k d n : Nat) (s : State) (h : Memory.wf s.mem) : Memory.wf (bring k d s n).mem := by
  induction k generalizing d n s with
  | zero => exact h
  | succ k ih =>
    rw [bring_succ]
    split
    · exact h
    · exact bringDie_wf ih d n (bringHome_wf ih n _ h)

theorem bringAll_wf (d : Nat) (l : List Nat) (h : Memory.wf s.mem) : Memory.wf (bringAll s d l).mem :=
  foldl_wf (fun t n ht => bring_wf _ d n t ht) l h

theorem syncTo_wf (d : Nat) (clock : List Nat) (h : Memory.wf s.mem) : Memory.wf (syncTo s d clock).mem :=
  bringAll_wf d _ h

theorem completeWait_wf (u : Nat) (h : Memory.wf s.mem) : Memory.wf (completeWait s u).mem :=
  syncTo_wf _ _ (by rwa [modWave_mem])

theorem yieldDone_wf (u : Nat) (c : Cond) (h : Memory.wf s.mem) : Memory.wf (yieldDone s u c).mem := by
  unfold yieldDone
  split
  · exact h
  · exact completeWait_wf u h

theorem acquireFrom_wf (u scope set : Nat) (heads : List (Nat × Head)) (h : Memory.wf s.mem) :
    Memory.wf (acquireFrom s u scope set heads).mem := syncTo_wf _ _ (by rwa [modWave_mem])

theorem windowAcquire_wf (u : Nat) (h : Memory.wf s.mem) : Memory.wf (windowAcquire s u).mem :=
  acquireFrom_wf u 3 2 _ h

theorem homeDieWrites_wf (die : Nat) (h : Memory.wf s.mem) : Memory.wf (homeDieWrites s die).mem := bringAll_wf die _ h

theorem acquireClock_wf (u : Nat) (clock : List Nat) (h : Memory.wf s.mem) : Memory.wf (acquireClock s u clock).mem :=
  syncTo_wf _ _ (by rwa [modWave_mem])

theorem homeOlder_wf (die : Nat) (bytes : List (Nat × Byte)) (h : Memory.wf s.mem) :
    Memory.wf (homeOlder s die bytes).mem := bringAll_wf die _ h

theorem launchWrite_wf (dies : List Nat) (f : Flight) (h : Memory.wf s.mem) : Memory.wf
    (launchWrite s dies f).mem := by
  refine ite_wf (applyHome_wf _ dies (by simpa using h)) ?_
  rw [foldl_mem (fun t x => showOwn_mem _ _ t x)]
  simpa using h

/-! ### Port writes -/

theorem landPacket_wf (x : PortWrite) (h : Memory.wf s.mem) : Memory.wf (landPacket s x).mem :=
  ite_wf h (memWrite_wf s.mem _ h)

theorem sendOn_wf (x : PortWrite) (h : Memory.wf s.mem) : Memory.wf (sendOn s x).mem := by
  unfold sendOn
  split
  · exact landPacket_wf x h
  · exact ite_wf (by simpa using h) h

theorem pumpOnce_wf (l : List PortWrite) (blocked : List Nat) (s : State) (h : Memory.wf s.mem) :
    Memory.wf (pumpOnce l blocked s).mem := by
  induction l generalizing blocked s with
  | nil => exact h
  | cons x r ih =>
    unfold pumpOnce
    refine ite_wf (ih _ _ h) (ite_wf ?_ (ih _ _ h))
    dsimp only
    split
    · exact ih _ _ h
    · exact ih _ _ h
    · exact ite_wf (ih _ _ h) (ih _ _ (sendOn_wf x h))

theorem pumpPorts_wf (h : Memory.wf s.mem) : Memory.wf (pumpPorts s).mem := pumpOnce_wf _ _ s h

theorem portJoin_wf (part stream world : Nat) (bytes : List (Nat × Byte)) (tag : Tag) (clock : List Nat)
    (wave : Option Nat) (h : Memory.wf s.mem) : Memory.wf (portJoin s part stream world bytes tag clock wave).mem :=
  pumpPorts_wf (s := { s with nextId := _, ports := _ }) h

theorem performWrite_wf (part die world : Nat) (bytes : List (Nat × Byte)) (tagOf : Nat → Tag) (clock : List Nat)
    (heads : List Head) (wave : Option Nat) (rmw : Bool) (h : Memory.wf s.mem) :
    Memory.wf (performWrite s part die world bytes tagOf clock heads wave rmw).mem := by
  refine foldl_wf (fun t g ht => ?_) _ h
  dsimp only
  split
  · exact ht
  · exact ite_wf (launchWrite_wf _ _ ht) (portJoin_wf _ _ _ _ _ _ _ ht)

theorem condemnAll_wf (l : List Nat) (h : Memory.wf s.mem) : Memory.wf (condemnAll s l).mem :=
  pumpPorts_wf (by rwa [foldl_mem condemnOne_mem])

theorem ackStream_wf (x : Nat) (h : Memory.wf s.mem) : Memory.wf (ackStream s x).mem := by
  unfold ackStream
  split
  · exact h
  · exact foldl_wf (fun _ p ht => landPacket_wf p ht) _ h

theorem ackPorts_wf (h : Memory.wf s.mem) : Memory.wf (ackPorts s).mem :=
  ite_wf h (foldl_wf (fun _ x ht => ackStream_wf x ht) _ h)

theorem sendPeers_wf (part idx : Nat) (tag : Tag) (clock : List Nat) (u : Nat) (h : Memory.wf s.mem) :
    Memory.wf (sendPeers s part idx tag clock u).mem :=
  foldl_wf (fun _ _ ht => portJoin_wf _ _ _ _ _ _ _ ht) _ h

/-! ### Candidates of the search and the code they replace -/

theorem withdrawEntry_wf (die x cause : Nat) (h : Memory.wf s.mem) : Memory.wf (withdrawEntry s die x cause).mem := by
  unfold withdrawEntry
  refine ite_wf ?_ h
  rw [freeEntryIf_mem]
  refine ite_wf (condemnAll_wf _ ?_) ?_
  all_goals
    rw [trumpEvent_mem]
    split
    · rw [modPart_mem]
      exact ite_wf (by simpa using h) (by simpa using h)
    · exact ite_wf (by simpa using h) (by simpa using h)

theorem codeWritten_wf (part : Nat) (bytes : List (Nat × Byte)) (h : Memory.wf s.mem) :
    Memory.wf (codeWritten s part bytes).mem := by
  refine foldl_wf (fun t d ht => ?_) _ h
  have h1 := foldl_wf (fun t x ht => withdrawEntry_wf d x 4 ht)
    ((List.range (dieOf t d).trump.length).filter (fun x =>
      lineMeets (entryOf t d x).lines (bytes.map (fun x => x.1 / 64)).eraseDups)) ht
  exact ite_wf h1 (by simpa using h1)

end

section
variable {s : State}

/-! ### Held memory operations -/

theorem releaseGlobal_wf (x : Held) (bytes : List (Nat × Byte)) (tagOf : Nat → Tag) (clock : List Nat)
    (rel : Option Release) {r : State} (h : Memory.wf s.mem) (e : releaseGlobal s x bytes tagOf clock rel = some r) :
    Memory.wf r.mem := by
  unfold releaseGlobal at e
  dsimp only at e
  split at e
  · cases e
  · cases e
    apply codeWritten_wf
    rw [modOlds_mem, modWave_mem, noteWrite_mem]
    exact performWrite_wf _ _ _ _ _ _ _ _ _ (by simpa using h)

theorem atomStore_wf (dies : List Nat) (f : Flight) (a : Nat) (h : Memory.wf s.mem) :
    Memory.wf (atomStore s dies f a).mem :=
  applyHome_wf _ dies (syncTo_wf _ _ (syncTo_wf _ _ (by simpa using h)))

theorem atomLane_wf (u part die width : Nat) (op : AtomOp) (rel : Option Release) (clock : List Nat)
    (x : State × List LaneVal × Sticky × List Head × List Nat) (l : AtomLane) (h : Memory.wf x.1.mem) :
    Memory.wf (atomLane u part die width op rel clock x l).1.mem := by
  unfold atomLane
  exact atomStore_wf _ _ _ (homeOlder_wf die _ h)

theorem atomLanes_wf (u part die width : Nat) (op : AtomOp) (rel : Option Release) (clock : List Nat)
    (ls : List AtomLane) : ∀ x : State × List LaneVal × Sticky × List Head × List Nat, Memory.wf x.1.mem →
      Memory.wf (ls.foldl (atomLane u part die width op rel clock) x).1.mem := by
  induction ls with
  | nil => exact fun _ h => h
  | cons l ls ih =>
    intro x h
    rw [List.foldl_cons]
    exact ih _ (atomLane_wf u part die width op rel clock x l h)

theorem atomOrder_wf (u die : Nat) (acq : Bool) (rel : Option Release) (clock read : List Nat) (h : Memory.wf s.mem) :
    Memory.wf (atomOrder s u die acq rel clock read).mem := by
  unfold atomOrder
  exact syncTo_wf _ _ (by rwa [modOlds_mem, modWave_mem])

theorem atomDone_wf (x : Held) (cls : Nat) (acq : Option Release) (miss : Bool) (vals : List LaneVal) (sticky : Sticky)
    (heads : List Head) (h : Memory.wf s.mem) : Memory.wf (atomDone s x cls acq miss vals sticky heads).mem := by
  unfold atomDone
  dsimp only
  split
  · simpa using h
  · split
    · exact acquireFrom_wf _ _ _ _ (by simpa using h)
    · simpa using h

/-! ### Wakes and the clauses they open -/

theorem wakeEffect_wf (u : Nat) (c : Cond) (h : Memory.wf s.mem) : Memory.wf (wakeEffect s u c).mem := by
  unfold wakeEffect
  dsimp only
  split
  · exact acquireClock_wf _ _ (by simpa using h)
  · exact h
  · exact acquireClock_wf _ _ (by simpa using h)
  · split
    · exact windowAcquire_wf _ (by simpa using h)
    · exact h
  · exact h
  · exact h
  · exact yieldDone_wf _ _ h

theorem openRegion_wf (u n : Nat) (h : Memory.wf s.mem) : Memory.wf (openRegion s u n).mem := by
  unfold openRegion
  dsimp only
  split
  · exact h
  · split
    · split
      · exact h
      · refine ite_wf (by simpa using h) ?_
        split
        · simpa using h
        · refine ite_wf (withdrawEntry_wf _ _ _ (by simpa using h)) (ite_wf (ite_wf ?_ ?_) ?_)
          all_goals simpa using h
    · exact h

theorem openClause_wf (u n : Nat) (h : Memory.wf s.mem) : Memory.wf (openClause s u n).mem := by
  unfold openClause
  split
  · exact h
  · refine ite_wf h ?_
    rw [withSplit_mem]
    exact openRegion_wf u n (ite_wf (completeWait_wf u h) h)

/-! ### Engines -/

@[simp] theorem mmaStart_mem (s : State) (core : Nat) (e : Entry) : (mmaStart s core e).mem = s.mem := by
  unfold mmaStart
  split
  · dsimp only
    split
    · rfl
    · split
      · rfl
      · split <;> rfl
  · rfl

theorem engineWrite_wf (core u : Nat) (clock : List Nat) (x : EngineWrite) (h : Memory.wf s.mem) :
    Memory.wf (engineWrite s core u clock x).mem := by
  unfold engineWrite
  dsimp only
  split
  · split
    · simpa using h
    · rw [modWave_mem, engineOwned_mem]
      exact codeWritten_wf _ _ (performWrite_wf _ _ _ _ _ _ _ _ _ h)
  · simpa using h
  · rw [foldl_mem (fun t (g : Nat × List (Nat × Byte)) => tileGranule_mem t _ g.1 g.2 _)]
    exact h
  · simpa using h
  · simpa using h

theorem performEngine_wf (core q u : Nat) (waves grids clock : List Nat) (xs : List EngineWrite)
    (h : Memory.wf s.mem) : Memory.wf (performEngine s core q u waves grids clock xs).mem := by
  have h1 := foldl_wf (fun t x ht => engineWrite_wf core u clock x ht) xs h
  refine ite_wf h1 ?_
  rw [foldl_mem (fun t v => modWave_mem t v _), foldl_mem (fun t g => modGrid_mem t g _), modCore_mem]
  exact h1

theorem completeEngineOp_wf (e : Entry) (sticky : Sticky) (x : Nat × Nat) (h : Memory.wf s.mem) :
    Memory.wf (completeEngineOp e sticky s x).mem := by
  unfold completeEngineOp
  split
  · exact h
  · split
    · exact h
    · exact acquireClock_wf _ _ (by simpa using h)

/-! ### Placement, save and restoration -/

theorem placeBlock_wf (g index core : Nat) (kind : PlaceKind) (h : Memory.wf s.mem) :
    Memory.wf (placeBlock s g index core kind).2.mem := by
  unfold placeBlock
  dsimp only
  rw [pushCode_mem, modCore_mem]
  apply syncTo_wf
  rw [followSaves_mem, modBlock_mem, foldl_mem (fun t x => modWave_mem t _ _)]
  simpa using h

theorem placeUnit_wf (g index : Nat) (unit : List Nat) (h : Memory.wf s.mem) :
    Memory.wf (placeUnit s g index unit).mem := by
  unfold placeUnit
  split
  · dsimp only
    rw [modBlock_mem, modBlock_mem]
    exact placeBlock_wf _ _ _ _ (placeBlock_wf _ _ _ _ h)
  · exact placeBlock_wf _ _ _ _ h
  · exact h

theorem contextWrite_wf (part die ctx va : Nat) (l : List Byte) (h : Memory.wf s.mem) :
    Memory.wf (contextWrite s part die ctx va l).mem := by
  unfold contextWrite
  exact performWrite_wf _ _ _ _ _ _ _ _ _ h

theorem saveBlock_wf (k : Nat) (h : Memory.wf s.mem) : Memory.wf (saveBlock s k).mem := by
  unfold saveBlock
  dsimp only
  split
  · exact h
  · split
    · exact h
    · simp only [freePlaces_mem, endPreempt_mem, modGrid_mem]
      refine foldl_wf (fun t w ht => by simpa using ht) _ ?_
      exact contextWrite_wf _ _ _ _ _ (by simpa using h)

theorem restoreImage_wf (n core : Nat) (h : Memory.wf s.mem) : Memory.wf (restoreImage s n core).mem := by
  unfold restoreImage
  split
  · exact h
  · dsimp only
    rw [foldl_mem (fun t c => takePlace_mem t _ _ _ _), modCore_mem, foldl_mem (fun t w => restoreWaveOn_mem t _ _ _ w)]
    simpa using syncTo_wf _ _ h

theorem restoreUnit_wf (ns unit : List Nat) (h : Memory.wf s.mem) : Memory.wf (restoreUnit s ns unit).mem := by
  unfold restoreUnit
  split
  · exact restoreImage_wf _ _ h
  · dsimp only
    rw [joinPartners_mem]
    exact restoreImage_wf _ _ (restoreImage_wf _ _ h)
  · exact h

end

section
variable {s : State}

/-! ### Provenance tags, resets and scrubs -/

theorem condemnAbsorbers_wf (h : Memory.wf s.mem) : Memory.wf (condemnAbsorbers s).mem := by
  unfold condemnAbsorbers
  dsimp only
  split
  · exact h
  · exact condemnAll_wf _ h

theorem settleTag_wf (t : Nat) (h : Memory.wf s.mem) : Memory.wf (settleTag s t).mem := by
  unfold settleTag
  split
  · exact ite_wf (pumpPorts_wf (by simpa using h)) h
  · exact h

theorem settleReady_wf (h : Memory.wf s.mem) : Memory.wf (settleReady s).mem :=
  foldl_wf (fun _ t ht => settleTag_wf t ht) _ (condemnAbsorbers_wf h)

theorem homeWrites_wf (p : Nat) (h : Memory.wf s.mem) : Memory.wf (homeWrites s p).mem := by
  unfold homeWrites
  exact foldl_wf (fun _ f ht => applyHome_wf f.2 _ ht) _ h

theorem resetPart_wf (p : Nat) (h : Memory.wf s.mem) : Memory.wf (resetPart s p).mem := by
  unfold resetPart
  dsimp only
  rw [modPart_mem, foldl_mem (fun t d => modDie_mem t d _)]
  exact homeWrites_wf p h

theorem scrubHalves_wf (p t : Nat) (r : Resolution) (h : Memory.wf s.mem) : Memory.wf (scrubHalves s p t r).mem :=
  memWrite_wf s.mem _ h

theorem scrubTag_wf (t : Nat) (x : ProvTag) (r : Resolution) (h : Memory.wf s.mem) :
    Memory.wf (scrubTag s t x r).mem := by
  unfold scrubTag
  exact scrubHalves_wf _ _ _ h

/-! ### Writes from outside the machine -/

theorem outsideGranule_wf (part : Nat) (tag : Tag) (head : Option Head) (g : Nat) (bytes : List (Nat × Byte))
    (h : Memory.wf s.mem) : Memory.wf (outsideGranule s part tag head g bytes).mem := memWrite_wf s.mem _ h

theorem outsideWrite_wf (part : Nat) (tag : Tag) (head : Option Head) (bytes : List (Nat × Byte))
    (h : Memory.wf s.mem) : Memory.wf (outsideWrite s part tag head bytes).mem :=
  codeWritten_wf _ _ (foldl_wf (fun _ _ ht => outsideGranule_wf _ _ _ _ _ ht) _ h)

theorem arrive_wf (part pa : Nat) (data : List Byte) (bad : Bool) (h : Memory.wf s.mem) :
    Memory.wf (arrive s part pa data bad).mem := by
  unfold arrive
  dsimp only
  split
  · rw [postEvent_mem]
    exact outsideWrite_wf _ _ _ _ (by simpa using h)
  · exact outsideWrite_wf _ _ _ _ (by simpa using h)

/-! ### Ingress windows -/

theorem gateWrite_wf (p : Nat) (w : Window) (tag : Tag) (head : Option Head) (va : Nat) (l : List Byte)
    (h : Memory.wf s.mem) : Memory.wf (gateWrite s p w tag head va l).mem := outsideWrite_wf _ _ _ _ h

theorem advance_wf (n p ix : Nat) (s : State) (h : Memory.wf s.mem) : Memory.wf (advance n s p ix).mem := by
  induction n generalizing s with
  | zero => exact h
  | succ n ih =>
    unfold advance
    split
    · exact h
    · dsimp only
      split
      · exact ite_wf (ih _ (gateWrite_wf _ _ _ _ _ _ (by simpa using h))) h
      · exact h

theorem landSlot_wf (p ix : Nat) (w : Window) (k : Nat) (f : Option (Nat × Nat)) (bytes : Map Byte)
    (ws : List (Nat × List Byte × Tag)) (h : Memory.wf s.mem) : Memory.wf (landSlot s p ix w k f bytes ws).mem :=
  advance_wf _ _ _ _ (foldl_wf (fun _ _ ht => gateWrite_wf _ _ _ _ _ _ ht) _ (by simpa using h))

theorem headedSlot_wf (p ix : Nat) (w : Window) (k n len : Nat) (old : Option (Nat × Nat)) (bytes : Map Byte)
    (ws : List (Nat × List Byte × Tag)) (h : Memory.wf s.mem) :
    Memory.wf (headedSlot s p ix w k n len old bytes ws).1.mem := by
  unfold headedSlot
  split
  · simpa using h
  · split
    · simpa using h
    · split
      · exact h
      · exact landSlot_wf _ _ _ _ _ _ _ h

theorem slotWrite_wf (p ix : Nat) (w : Window) (k o : Nat) (l : List Byte) (tag : Tag) (h : Memory.wf s.mem) :
    Memory.wf (slotWrite s p ix w k o l tag).1.mem := by
  unfold slotWrite
  dsimp only
  split
  · split
    · simpa using h
    · split
      · exact headedSlot_wf _ _ _ _ _ _ _ _ _ h
      · simpa using h
  · split
    · exact headedSlot_wf _ _ _ _ _ _ _ _ _ h
    · exact landSlot_wf _ _ _ _ _ _ _ h

theorem gatePieces_wf (n p ix off : Nat) (l : List Byte) (tag : Tag) (s : State) (h : Memory.wf s.mem) :
    Memory.wf (gatePieces n s p ix off l tag).mem := by
  induction n generalizing s off l with
  | zero => exact h
  | succ n ih =>
    unfold gatePieces
    dsimp only
    split
    · have h1 := fun (w : Window) k o l => slotWrite_wf p ix w k o l tag h
      exact ite_wf (by simpa using h) (ih _ _ _ (ite_wf (by simpa using h1 _ _ _ _) (h1 _ _ _ _)))
    · exact h

theorem gateArrive_wf (p off : Nat) (w : Window) (data : List Byte) (tag : Tag) (h : Memory.wf s.mem) :
    Memory.wf (gateArrive s p off w data tag).mem := by
  unfold gateArrive
  exact ite_wf (gatePieces_wf _ _ _ _ _ _ _ h) (by simpa using h)

theorem retryWaiting_wf (n p ix : Nat) (s : State) (h : Memory.wf s.mem) : Memory.wf (retryWaiting n s p ix).mem := by
  induction n generalizing s with
  | zero => exact h
  | succ n ih =>
    unfold retryWaiting
    dsimp only
    split
    · split
      · exact ite_wf (ih _ (by rw [modWindow_mem]; exact gatePieces_wf _ _ _ _ _ _ _ (by simpa using h))) h
      · exact h
    · exact h

theorem retryWindows_wf (h : Memory.wf s.mem) : Memory.wf (retryWindows s).mem := by
  refine foldl_wf (fun t p ht => foldl_wf (fun t w ht => ?_) _ ht) _ h
  exact ite_wf ht (retryWaiting_wf _ _ _ _ ht)

/-! ### What every step does beside its move -/

theorem settleFences_wf (u : Nat) (h : Memory.wf s.mem) : Memory.wf (settleFences s u).mem := by
  refine ite_wf h (foldl_wf (fun t f ht => ?_) _ (by simpa using h))
  exact ite_wf (acquireFrom_wf _ _ _ _ ht) ht

theorem housekeep_wf (h : Memory.wf s.mem) : Memory.wf (housekeep s).mem := by
  unfold housekeep
  dsimp only
  rw [foldl_mem (fun t u => modWave_mem t u _), assignSearch_mem, foldl_mem checkGrid_mem]
  refine retryWindows_wf (pumpPorts_wf (settleReady_wf ?_))
  rw [captureLoads_mem]
  exact foldl_wf (fun _ u ht => settleFences_wf u ht) _ (ackPorts_wf (by simpa using h))

end

end Sys2Proof.Machine.AddressSpace
end

section
/-! SUPPORT. Each instruction and each move of the machine keeps the canonical form of memory. -/

namespace Sys2Proof.Machine.AddressSpace

open ExecutionContexts

/-- Two states of one memory: the choice between them has it. -/
theorem ite_mem {p : Prop} [Decidable p] (s t : State) : (if p then s else t).mem = if p then s.mem else t.mem :=
  apply_ite State.mem p s t

section
variable {s : State}

/-! ### Instructions of a wave -/

theorem div_keeps (d a b : Operand) (h : Memory.wf s.mem) : Keeps (exec (.div d a b) s) :=
  run_keeps (fun _ _ ht => ht) h

theorem rem_keeps (d a b : Operand) (h : Memory.wf s.mem) : Keeps (exec (.rem d a b) s) :=
  run_keeps (fun _ _ ht => ht) h

theorem fdiv_keeps (d a b : Operand) (h : Memory.wf s.mem) : Keeps (exec (.fdiv d a b) s) :=
  run_keeps (fun _ _ ht => ht) h

theorem fsqrt_keeps (d a : Operand) (h : Memory.wf s.mem) : Keeps (exec (.fsqrt d a) s) :=
  run_keeps (fun _ _ ht => ht) h

theorem brk_keeps (x : Byte) (h : Memory.wf s.mem) : Keeps (exec (.brk x) s) :=
  run_keeps (fun _ _ ht => by simpa [ite_mem] using ht) h

theorem wpset_keeps (a : Operand) (i : Byte) (h : Memory.wf s.mem) : Keeps (exec (.wpset a i) s) := by
  refine run_keeps (fun t c ht => ?_) h
  split
  · split
    · simpa using ht
    · simpa [ite_mem] using ht
  · simpa using ht

theorem wpclr_keeps (m : Byte) (h : Memory.wf s.mem) : Keeps (exec (.wpclr m) s) := by
  refine run_keeps (fun t c ht => ?_) h
  split
  · simpa using ht
  · simpa [ite_mem] using ht

theorem ill_keeps (d a b : Byte) (h : Memory.wf s.mem) : Keeps (exec (.ill d a b) s) :=
  run_keeps (fun _ _ ht => by simpa using ht) h

theorem illegalOpcode_keeps (x : Word) (h : Memory.wf s.mem) : Keeps (exec (.illegalOpcode x) s) :=
  run_keeps (fun _ _ ht => by simpa using ht) h

theorem mode_keeps (m : BitVec 24) (h : Memory.wf s.mem) : Keeps (exec (.mode m) s) :=
  run_keeps (fun _ _ ht => ht) h

theorem omode_keeps (o : Byte) (h : Memory.wf s.mem) : Keeps (exec (.omode o) s) :=
  run_keeps (fun _ _ ht => ht) h

theorem nop_keeps (h : Memory.wf s.mem) : Keeps (exec .nop s) := run_keeps (fun _ _ ht => ht) h

theorem rnote_keeps (regs : DWord) (h : Memory.wf s.mem) : Keeps (exec (.rnote regs) s) := by
  refine run_keeps (fun t c ht => ?_) h
  split
  · simpa using ht
  · exact ht

theorem trap_keeps (k : Byte) (h : Memory.wf s.mem) : Keeps (exec (.trap k) s) :=
  run_keeps (fun _ _ ht => by simpa using ht) h

theorem yield_keeps (h : Memory.wf s.mem) : Keeps (exec .yield s) := run_keeps (fun _ _ ht => ht) h

theorem yieldon_keeps (a b : Operand) (h : Memory.wf s.mem) : Keeps (exec (.yieldon a b) s) := by
  refine run_keeps (fun _ _ ht => consumeAll_wf (fun t c ht => ?_) ht) h
  dsimp only
  split
  · simpa using ht
  · refine ite_wf (ite_wf (yieldDone_wf _ _ ht) ht) (withTarget_wf (fun t ht => ?_) ht)
    exact ite_wf (yieldDone_wf _ _ ht) ht

theorem jmp_keeps (o : BitVec 24) (h : Memory.wf s.mem) : Keeps (exec (.jmp o) s) :=
  run_keeps (fun _ _ ht => withTarget_wf (fun _ ht => ht) ht) h

theorem bp_keeps (p : Operand) (o : BitVec 16) (h : Memory.wf s.mem) : Keeps (exec (.bp p o) s) :=
  run_keeps (fun _ _ ht => branchThen_wf (fun _ _ _ _ _ ht => by simpa using ht) ht) h

theorem bnp_keeps (p : Operand) (o : BitVec 16) (h : Memory.wf s.mem) : Keeps (exec (.bnp p o) s) :=
  run_keeps (fun _ _ ht => branchThen_wf (fun _ _ _ _ _ ht => by simpa using ht) ht) h

theorem bany_keeps (p : Operand) (o : BitVec 16) (h : Memory.wf s.mem) : Keeps (exec (.bany p o) s) :=
  run_keeps (fun _ _ ht => branchThen_wf (fun _ _ _ _ _ ht => ite_wf ht ht) ht) h

theorem ball_keeps (p : Operand) (o : BitVec 16) (h : Memory.wf s.mem) : Keeps (exec (.ball p o) s) :=
  run_keeps (fun _ _ ht => branchThen_wf (fun _ _ _ _ _ ht => ite_wf ht ht) ht) h

theorem bnone_keeps (p : Operand) (o : BitVec 16) (h : Memory.wf s.mem) : Keeps (exec (.bnone p o) s) :=
  run_keeps (fun _ _ ht => branchThen_wf (fun _ _ _ _ _ ht => ite_wf ht ht) ht) h

theorem jmpi_keeps (a : Operand) (h : Memory.wf s.mem) : Keeps (exec (.jmpi a) s) :=
  run_keeps (fun _ _ ht => pairThen_wf (fun _ _ _ ht =>
    ite_wf (by simpa using ht) (withTarget_wf (fun _ ht => ht) ht)) ht) h

theorem call_keeps (f : Byte) (o : BitVec 16) (h : Memory.wf s.mem) : Keeps (exec (.call f o) s) :=
  run_keeps (fun _ _ ht => withTarget_wf (fun _ ht => by simpa using ht) ht) h

theorem calli_keeps (f : Byte) (a : Operand) (h : Memory.wf s.mem) : Keeps (exec (.calli f a) s) :=
  run_keeps (fun _ _ ht => pairThen_wf (fun _ _ _ ht =>
    ite_wf (by simpa using ht) (withTarget_wf (fun _ ht => by simpa using ht) ht)) ht) h

theorem ret_keeps (a : Operand) (h : Memory.wf s.mem) : Keeps (exec (.ret a) s) := by
  refine run_keeps (fun _ _ ht => pairThen_wf (fun t c link ht => ?_) ht) h
  refine ite_wf (by simpa using ht) ?_
  dsimp only
  split
  · simpa using ht
  · simpa using ht
  · simpa [ite_mem] using ht

theorem endWave_keeps (h : Memory.wf s.mem) : Keeps (exec .endWave s) := run_keeps (fun _ _ ht => ht) h

theorem icsync_keeps (h : Memory.wf s.mem) : Keeps (exec .icsync s) :=
  run_keeps (fun _ c ht => homeDieWrites_wf (dieOfCore c.w.core) ht) h

theorem tret_keeps (k : Byte) (h : Memory.wf s.mem) : Keeps (exec (.tret k) s) := by
  refine run_keeps (fun t c ht => ?_) h
  split
  · simpa using ht
  · refine ite_wf (by simpa using ht) ?_
    dsimp only
    split
    · exact ht
    · simpa using ht

theorem grow_keeps (d a b : Operand) (h : Memory.wf s.mem) : Keeps (exec (.grow d a b) s) :=
  run_keeps (fun _ _ ht => attached_wf (fun _ => consumeAll_wf (fun _ _ ht =>
    ite_wf (by simpa using ht) (withTarget_wf (fun _ ht => ht) ht)) ht) ht) h

theorem attach_keeps (d a : Operand) (h : Memory.wf s.mem) : Keeps (exec (.attach d a) s) := by
  refine run_keeps (fun t c ht => ?_) h
  split
  · simpa using ht
  · exact consumeAll_wf (fun _ _ ht => ht) ht

theorem detach_keeps (a : Operand) (h : Memory.wf s.mem) : Keeps (exec (.detach a) s) :=
  run_keeps (fun _ _ ht => attached_wf (fun _ => consumeAll_wf (fun _ _ ht => ite_wf ht (by simpa using ht)) ht) ht) h

theorem shrinkq_keeps (d : Operand) (h : Memory.wf s.mem) : Keeps (exec (.shrinkq d) s) :=
  run_keeps (fun _ _ ht => attached_wf (fun _ => ht) ht) h

theorem bmem_keeps (d a : Operand) (h : Memory.wf s.mem) : Keeps (exec (.bmem d a) s) :=
  run_keeps (fun _ _ ht => attached_wf (fun _ => ht) ht) h

theorem bar_keeps (a : Operand) (h : Memory.wf s.mem) : Keeps (exec (.bar a) s) :=
  run_keeps (fun _ _ ht => attached_wf (fun _ => arriveThen_wf (fun _ => ht) ht) ht) h

theorem barrive_keeps (d a : Operand) (h : Memory.wf s.mem) : Keeps (exec (.barrive d a) s) :=
  run_keeps (fun _ _ ht => attached_wf (fun _ => arriveThen_wf (fun _ => ht) ht) ht) h

theorem bwait_keeps (a b : Operand) (h : Memory.wf s.mem) : Keeps (exec (.bwait a b) s) :=
  run_keeps (fun _ _ ht => attached_wf (fun _ => consumeAll_wf (fun _ _ ht =>
    ite_wf (by simpa using ht) (ite_wf ht ht)) ht) ht) h

/-! ### Accesses -/

theorem lds_keeps (d a : Operand) (h : Memory.wf s.mem) : Keeps (exec (.lds d a) s) :=
  run_keeps (fun _ _ ht => spadAccess_wf (fun _ _ _ ht => by simpa using ht) ht) h

theorem sts_keeps (a b : Operand) (h : Memory.wf s.mem) : Keeps (exec (.sts a b) s) :=
  run_keeps (fun _ _ ht => spadAccess_wf (fun _ _ _ ht => by simpa using ht) ht) h

theorem ldsl_keeps (d a b : Operand) (h : Memory.wf s.mem) : Keeps (exec (.ldsl d a b) s) :=
  run_keeps (fun _ _ ht => layoutAccess_wf (fun _ _ _ ht => by simpa using ht) ht) h

theorem stsl_keeps (d a b : Operand) (h : Memory.wf s.mem) : Keeps (exec (.stsl d a b) s) :=
  run_keeps (fun _ _ ht => layoutAccess_wf (fun _ _ _ ht => by simpa using ht) ht) h

theorem ldlk_keeps (d a : Operand) (h : Memory.wf s.mem) : Keeps (exec (.ldlk d a) s) :=
  run_keeps (fun _ _ ht => spadAccess_wf (fun _ _ _ ht => by simpa using ht) ht) h

theorem stul_keeps (d a b : Operand) (h : Memory.wf s.mem) : Keeps (exec (.stul d a b) s) :=
  run_keeps (fun _ _ ht => spadAccess_wf (fun _ _ _ ht => by simpa using ht) ht) h

/-- An atomic operation on the scratchpad keeps memory's form, whatever the operation. -/
theorem spadAtomic_keeps {i : Instr} {a d b : Operand} {op : Ctx → AtomOp} (h : Memory.wf s.mem) :
    Keeps (run i s (fun s1 c => spadAccess s1 c a true true (fun s2 c ls => startSatomic (op c) d b s2 c ls))) :=
  run_keeps (fun _ _ ht => spadAccess_wf (fun _ _ _ ht => by simpa using ht) ht) h

/-- An atomic operation on global memory is held: its issue keeps memory's form. -/
theorem globalAtomic_keeps {i : Instr} {a d b : Operand} {op : Ctx → AtomOp} (h : Memory.wf s.mem) :
    Keeps (run i s (fun s1 c => globalAccess s1 c a .atomic (fun s2 c ls => startGatomic (op c) d b s2 c ls))) :=
  run_keeps (fun _ _ ht => globalAccess_wf (fun _ _ _ ht => by simpa using ht) ht) h

theorem ld_keeps (d a : Operand) (h : Memory.wf s.mem) : Keeps (exec (.ld d a) s) :=
  run_keeps (fun _ _ ht => globalAccess_wf (fun _ _ _ ht => by simpa using ht) ht) h

theorem ldacq_keeps (d a : Operand) (h : Memory.wf s.mem) : Keeps (exec (.ldacq d a) s) :=
  run_keeps (fun _ _ ht => globalAccess_wf (fun _ _ _ ht => by simpa using ht) ht) h

theorem st_keeps (a b : Operand) (h : Memory.wf s.mem) : Keeps (exec (.st a b) s) :=
  run_keeps (fun _ _ ht => globalAccess_wf (fun _ _ _ ht => startStore_wf _ _ _ ht) ht) h

theorem strel_keeps (a b : Operand) (h : Memory.wf s.mem) : Keeps (exec (.strel a b) s) :=
  run_keeps (fun _ _ ht => globalAccess_wf (fun _ _ _ ht => startStore_wf _ _ _ ht) ht) h

theorem fence_keeps (o : Byte) (h : Memory.wf s.mem) : Keeps (exec (.fence o) s) :=
  run_keeps (fun _ _ ht => by simpa [ite_mem] using ht) h

theorem pref_keeps (a : Operand) (x : Byte) (h : Memory.wf s.mem) : Keeps (exec (.pref a x) s) :=
  run_keeps (fun _ _ ht => ht) h

theorem pkset_keeps (a : Operand) (h : Memory.wf s.mem) : Keeps (exec (.pkset a) s) :=
  run_keeps (fun _ _ ht => consumeAll_wf (fun _ _ ht => ite_wf ht ht) ht) h

theorem wseq_keeps (d a b : Operand) (h : Memory.wf s.mem) : Keeps (exec (.wseq d a b) s) := by
  refine run_keeps (fun _ _ ht => consumeAll_wf (fun t c ht => ?_) ht) h
  dsimp only
  split
  · simpa using ht
  · exact ite_wf (windowAcquire_wf _ ht) ht

/-! ### Requests to engines -/

theorem gath_keeps (d a b : Operand) (h : Memory.wf s.mem) : Keeps (exec (.gath d a b) s) := by
  refine run_keeps (fun _ _ ht => attached_wf (fun _ => consumeThen_wf (fun t c ht => ?_) ht) ht) h
  refine ite_wf ht ?_
  split
  · simpa using ht
  · exact withPlaces_wf (by simpa using ht) ht

theorem cseal_keeps (d : Operand) (h : Memory.wf s.mem) : Keeps (exec (.cseal d) s) :=
  run_keeps (fun _ _ ht => ite_wf ht ht) h

theorem cwait_keeps (n : Byte) (h : Memory.wf s.mem) : Keeps (exec (.cwait n) s) :=
  run_keeps (fun _ _ ht => ite_wf (completeWait_wf _ ht) ht) h

theorem qseq_keeps (d a : Operand) (h : Memory.wf s.mem) : Keeps (exec (.qseq d a) s) :=
  run_keeps (fun _ _ ht => ht) h

theorem qfence_keeps (q : Byte) (h : Memory.wf s.mem) : Keeps (exec (.qfence q) s) := by
  refine run_keeps (fun _ _ ht => attached_wf (fun _ => withPlaces_wf ?_ ht) ht) h
  rw [finishNop_mem, hold_mem, foldl_mem (fun t n => takePlace_mem t _ n _ _)]
  exact ht

theorem tcfg_keeps (d a : Operand) (h : Memory.wf s.mem) : Keeps (exec (.tcfg d a) s) :=
  run_keeps (fun _ _ ht => attached_wf (fun _ => ite_wf (by simpa using ht)
    (ite_wf (by simpa using ht) (by simpa using ht))) ht) h

theorem twin_keeps (d a : Operand) (h : Memory.wf s.mem) : Keeps (exec (.twin d a) s) :=
  run_keeps (fun _ _ ht => attached_wf (fun _ => ite_wf (by simpa using ht) (by simpa using ht)) ht) h

theorem accz_keeps (d : Operand) (h : Memory.wf s.mem) : Keeps (exec (.accz d) s) :=
  run_keeps (fun _ _ ht => attached_wf (fun _ => accThen_wf (by simpa using ht) ht) ht) h

theorem accrd_keeps (d a b : Operand) (h : Memory.wf s.mem) : Keeps (exec (.accrd d a b) s) :=
  run_keeps (fun _ _ ht => accAccess_wf (fun _ _ _ => ht) ht) h

theorem accwr_keeps (d a b : Operand) (h : Memory.wf s.mem) : Keeps (exec (.accwr d a b) s) :=
  run_keeps (fun _ _ ht => accAccess_wf (fun _ _ _ => by simpa using ht) ht) h

theorem hist_keeps (a : Operand) (h : Memory.wf s.mem) : Keeps (exec (.hist a) s) :=
  run_keeps (fun _ _ ht => attached_wf (fun _ => by simpa using ht) ht) h

theorem hclr_keeps (h : Memory.wf s.mem) : Keeps (exec .hclr s) :=
  run_keeps (fun _ _ ht => attached_wf (fun _ => by simpa using ht) ht) h

theorem hscale_keeps (d a : Operand) (h : Memory.wf s.mem) : Keeps (exec (.hscale d a) s) :=
  run_keeps (fun _ _ ht => attached_wf (fun _ => ite_wf (by simpa using ht) ht) ht) h

theorem qcvt_keeps (d a : Operand) (m : BitVec 5) (n : BitVec 3) (h : Memory.wf s.mem) : Keeps (exec
    (.qcvt d a m n) s) :=
  run_keeps (fun _ _ ht => attached_wf (fun _ => ite_wf (by simpa using ht) (ite_wf (by simpa using ht)
    (slotThen_wf (fun _ => by simpa using ht) ht))) ht) h

theorem launch_keeps (d a b : Operand) (h : Memory.wf s.mem) : Keeps (exec (.launch d a b) s) := by
  refine run_keeps (fun _ _ ht => consumeAll_wf (fun t c ht => ?_) ht) h
  refine ite_wf (by simpa using ht) (ite_wf (by simpa using ht) ?_)
  split
  · simpa using ht
  · simpa using ht

theorem lstat_keeps (d a : Operand) (h : Memory.wf s.mem) : Keeps (exec (.lstat d a) s) :=
  run_keeps (fun _ _ ht => consumeAll_wf (fun _ _ ht => acquireClock_wf _ _ ht) ht) h

theorem lwait_keeps (d a : Operand) (h : Memory.wf s.mem) : Keeps (exec (.lwait d a) s) :=
  run_keeps (fun _ _ ht => consumeAll_wf (fun _ _ ht => ite_wf (acquireClock_wf _ _ ht) ht) ht) h

theorem cbar_keeps (d a : Operand) (h : Memory.wf s.mem) : Keeps (exec (.cbar d a) s) :=
  run_keeps (fun _ _ ht => consumeAll_wf (fun _ _ ht => cohortThen_wf (fun _ => ht) ht) ht) h

theorem mdrain_keeps (d a : Operand) (m : BitVec 5) (n : BitVec 3) (h : Memory.wf s.mem) :
    Keeps (exec (.mdrain d a m n) s) := by
  refine run_keeps (fun _ _ ht => attached_wf (fun _ => consumeAll_wf (fun t c ht => ?_) ht) ht) h
  refine ite_wf (by simpa using ht) (ite_wf (by simpa using ht) (ite_wf (by simpa using ht) ?_))
  exact slotThen_wf (fun _ => accThen_wf (cohortThen_wf (fun _ => ite_wf ht (by simpa using ht)) ht) ht) ht

theorem cred_keeps (d a b : Operand) (h : Memory.wf s.mem) : Keeps (exec (.cred d a b) s) := by
  refine run_keeps (fun _ _ ht => consumeAll_wf (fun t c ht => ?_) ht) h
  refine ite_wf ht (ite_wf (by simpa using ht) (ite_wf (by simpa using ht) ?_))
  exact cohortThen_wf (fun _ => ite_wf ht (by simpa using ht)) ht

theorem dput_keeps (a b : Operand) (h : Memory.wf s.mem) : Keeps (exec (.dput a b) s) := by
  refine run_keeps (fun _ _ ht => consumeThen_wf (fun t c ht => ?_) ht) h
  dsimp only
  split
  · simpa using ht
  · exact ite_wf ht (ite_wf ht ht)

theorem dtake_keeps (d a b : Operand) (h : Memory.wf s.mem) : Keeps (exec (.dtake d a b) s) :=
  run_keeps (fun _ _ ht => consumeAll_wf (fun _ _ ht => ite_wf (by simpa using ht)
    (withPlaces_wf (by simpa using ht) ht)) ht) h

theorem sdwait_keeps (a : Operand) (h : Memory.wf s.mem) : Keeps (exec (.sdwait a) s) := by
  refine run_keeps (fun _ _ ht => consumeAll_wf (fun t c ht => ?_) ht) h
  dsimp only
  split
  · simpa using ht
  · simpa using ht

/-! ### Special registers -/

theorem rdsr_keeps (d : Operand) (n : Byte) (h : Memory.wf s.mem) : Keeps (exec (.rdsr d n) s) :=
  run_keeps (fun _ _ ht => ht) h

theorem rdsrTimelo_keeps (d : Operand) (h : Memory.wf s.mem) : Keeps (exec (.rdsrTimelo d) s) :=
  run_keeps (fun _ _ ht => ht) h

theorem wrsr_keeps (a : Operand) (n : Byte) (h : Memory.wf s.mem) : Keeps (exec (.wrsr a n) s) := by
  refine run_keeps (fun _ _ ht => consumeAll_wf (fun t c ht => ite_wf ht ?_) ht) h
  split
  · simpa using ht
  · exact ht

theorem sigWrite_keeps (a : Operand) (h : Memory.wf s.mem) : Keeps (exec (.sigWrite a) s) :=
  run_keeps (fun _ _ ht => consumeAll_wf (fun _ _ ht => ite_wf ht ht) ht) h

theorem qfeat_keeps (d a : Operand) (h : Memory.wf s.mem) : Keeps (exec (.qfeat d a) s) :=
  run_keeps (fun _ _ ht => ite_wf (by simpa using ht) ht) h

@[simp] theorem reachSigck_mem (s : State) (c : Ctx) : (reachSigck s c).mem = s.mem := by
  unfold reachSigck
  rcases c.sp.sampled with _ | n
  all_goals
    dsimp only
    split
    · rfl
    · split
      · split
        · simp [ite_mem]
        · rfl
      · rfl

theorem sigck_keeps (x : Word) (h : Memory.wf s.mem) : Keeps (exec (.sigck x) s) :=
  run_keeps (fun _ _ ht => ite_wf (by simpa using ht) (by simpa using ht)) h

end

/-- A fold over a state and what it gathers keeps memory where each step does. -/
theorem foldl_fst_mem {α β : Type} {f : State × β → α → State × β} (hf : ∀ x a, (f x a).1.mem = x.1.mem) (l : List α) :
    ∀ x : State × β, (l.foldl f x).1.mem = x.1.mem := by
  induction l with
  | nil => exact fun _ => rfl
  | cons a l ih => exact fun x => (ih (f x a)).trans (hf x a)

section
variable {s : State}

/-! ### Held effects -/

theorem growPerform_keeps (n : Nat) (h : Memory.wf s.mem) : Keeps (execGrowPerform n s) := by
  refine perform_keeps (fun t x r ht e => ?_) h
  split at e
  · cases e
    rw [modWave_mem, ite_mem, foldl_mem (fun t u => joinBlock_mem t u _), foldl_mem (fun t u => modWave_mem t u _)]
    simpa using ht
  · cases e

theorem attachPerform_keeps (n : Nat) (h : Memory.wf s.mem) : Keeps (execAttachPerform n s) := by
  refine perform_keeps (fun t x r ht e => ?_) h
  dsimp only at e
  split at e
  · split at e
    · cases e
      exact ht
    · split_ifs at e
      all_goals
        cases e
        simpa using ht
  · cases e

theorem detachPerform_keeps (n : Nat) (h : Memory.wf s.mem) : Keeps (execDetachPerform n s) := by
  refine perform_keeps (fun t x r ht e => ?_) h
  split at e
  · split_ifs at e
    all_goals
      cases e
      simpa using ht
  · cases e

theorem endPerform_keeps (n : Nat) (h : Memory.wf s.mem) : Keeps (execEndPerform n s) := by
  refine perform_keeps (fun t x r ht e => ?_) h
  split at e
  · split_ifs at e
    cases e
    simpa using ht
  · cases e

theorem deadWaveLeave_keeps (n : Nat) (h : Memory.wf s.mem) : Keeps (execDeadWaveLeave n s) := by
  refine perform_keeps (fun t x r ht e => ?_) h
  split at e
  · split_ifs at e
    cases e
    simpa using ht
  · cases e

theorem barrierArrive_keeps (n : Nat) (h : Memory.wf s.mem) : Keeps (execBarrierArrive n s) := by
  refine perform_keeps (fun t x r ht e => ?_) h
  dsimp only at e
  split at e
  · cases e
  · split at e
    · cases e
      exact ht
    · cases e
      exact ht
    · cases e

theorem spadAtomicPerform_keeps (n : Nat) (h : Memory.wf s.mem) : Keeps (execSpadAtomicPerform n s) := by
  refine perform_keeps (fun t x r ht e => ?_) h
  split at e
  · dsimp only at e
    rw [Option.ite_none_right_eq_some] at e
    obtain ⟨-, e⟩ := e
    cases e
    apply atomDone_wf
    rw [foldl_fst_mem (fun x l => spadAtomLane_mem _ _ _ _ x l), captureBefore_mem]
    exact ht
  · cases e

theorem ldlkPerform_keeps (n : Nat) (h : Memory.wf s.mem) : Keeps (execLdlkPerform n s) := by
  refine perform_keeps (fun t x r ht e => ?_) h
  split at e
  · split_ifs at e
    cases e
    simpa using ht
  · cases e

theorem stulPerform_keeps (n : Nat) (h : Memory.wf s.mem) : Keeps (execStulPerform n s) := by
  refine perform_keeps (fun t x r ht e => ?_) h
  split at e
  · dsimp only at e
    split at e
    · cases e
      rw [answerOp_mem, foldl_fst_mem (fun x l => stulLane_mem _ _ _ x l), captureBefore_mem]
      exact ht
    · cases e
  · cases e

theorem pkrContextUpdate_keeps (n : Nat) (h : Memory.wf s.mem) : Keeps (execPkrContextUpdate n s) := by
  refine perform_keeps (fun t x r ht e => ?_) h
  split at e
  · cases e
    exact ht
  · cases e

theorem holdbackRelease_keeps (n : Nat) (h : Memory.wf s.mem) : Keeps (execHoldbackRelease n s) := by
  refine perform_keeps (fun t x r ht e => ?_) h
  split at e
  case h_1 =>
    dsimp only at e
    split at e
    · refine releaseGlobal_wf _ _ _ _ _ ?_ e
      exact ht
    · cases e
  case h_2 =>
    dsimp only at e
    split at e
    · exact releaseGlobal_wf _ _ _ _ _ ht e
    · cases e
  case h_3 =>
    dsimp only at e
    split at e
    · exact releaseGlobal_wf _ _ _ _ _ ht e
    · cases e
      exact ht
  case h_4 =>
    dsimp only at e
    split at e
    · cases e
      simpa using ht
    · cases e
  case h_13 => cases e
  all_goals
    cases e
    simpa using ht

theorem atomicPerform_keeps (n : Nat) (h : Memory.wf s.mem) : Keeps (execAtomicPerform n s) := by
  refine perform_keeps (fun t x r ht e => ?_) h
  split at e
  · dsimp only at e
    split at e
    · cases e
      refine codeWritten_wf _ _ (atomDone_wf _ _ _ _ _ _ _ (atomOrder_wf _ _ _ _ _ _ ?_))
      rw [noteWrite_mem]
      exact atomLanes_wf _ _ _ _ _ _ _ _ _ (syncTo_wf _ _ (by simpa using ht))
    · cases e
  · cases e

theorem collectiveEnter_keeps (n : Nat) (h : Memory.wf s.mem) : Keeps (execCollectiveEnter n s) := by
  refine perform_keeps (fun t x r ht e => ?_) h
  dsimp only at e
  split at e
  · split at e
    · split_ifs at e
      all_goals
        cases e
        simpa using ht
    · cases e
  · cases e

theorem matrixWritePerform_keeps (n : Nat) (h : Memory.wf s.mem) : Keeps (execMatrixWritePerform n s) := by
  refine perform_keeps (fun t x r ht e => ?_) h
  dsimp only at e
  split at e
  · split_ifs at e
    cases e
    exact ht
  · cases e

theorem launchPerform_keeps (n : Nat) (h : Memory.wf s.mem) : Keeps (execLaunchPerform n s) := by
  refine perform_keeps (fun t x r ht e => ?_) h
  dsimp only at e
  split at e
  · rw [← Option.some.inj e, modWave_mem, enqueueGrid_mem, ite_mem, listWalk_mem, findPieces_mem, findPieces_mem,
      findPieces_mem, ite_self]
    exact ht
  · cases e

theorem cohortArrivalPerform_keeps (n : Nat) (h : Memory.wf s.mem) : Keeps (execCohortArrivalPerform n s) := by
  refine perform_keeps (fun t x r ht e => ?_) h
  dsimp only at e
  split at e
  · cases e
    rw [modOlds_mem, modWave_mem]
    exact sendPeers_wf _ _ _ _ _ (by simpa using ht)
  · cases e

theorem deckHoldRelease_keeps (n : Nat) (h : Memory.wf s.mem) : Keeps (execDeckHoldRelease n s) := by
  refine perform_keeps (fun t x r ht e => ?_) h
  split at e
  · cases e
    simpa using ht
  · cases e

theorem engineRequestEnter_keeps (n : Nat) (h : Memory.wf s.mem) : Keeps (execEngineRequestEnter n s) := by
  refine perform_keeps (fun t x r ht e => ?_) h
  dsimp only at e
  split at e
  · cases e
    simpa using ht
  · cases e
    rw [foldl_mem (fun t q => enterQueue_mem t _ q _)]
    exact ht
  · cases e
    split
    · exact sendPeers_wf (s := { modCohort t _ _ _ with tags := _ }) _ _ _ _ _ (by simpa using ht)
    · simpa using ht
  · cases e

end

section
variable {s : State}

/-! ### Commands of the host -/

/-- The state an answer holds, if there is an answer, has memory in its canonical form. -/
def Answers (o : Option Reply) : Prop := ∀ r, o = some r → Memory.wf (Reply.state r).mem

theorem answers_none : Answers none := by
  intro r e
  cases e

theorem answers_done {n : Nat} {l : List Nat} (h : Memory.wf s.mem) : Answers (some (.done s n l)) := by
  intro r e
  rw [← Option.some.inj e]
  exact h

theorem answers_later (h : Memory.wf s.mem) : Answers (some (.later s)) := by
  intro r e
  rw [← Option.some.inj e]
  exact h

theorem answers_refuse (h : Memory.wf s.mem) : Answers (refuse s) := answers_done h

theorem answers_malformed (h : Memory.wf s.mem) : Answers (malformed s) := answers_done h

theorem answers_ite {p : Prop} [Decidable p] {a b : Option Reply} (ha : Answers a) (hb : Answers b) :
    Answers (if p then a else b) := by
  split
  · exact ha
  · exact hb

theorem command_answers {p : Nat} {name : String} {f : State → HostRecord → Option Reply}
    (hf : ∀ t x, Memory.wf t.mem → Answers (f t x)) (h : Memory.wf s.mem) : Keeps (command s p name f) :=
  command_keeps (fun t x r ht e => hf t x ht r e) h

theorem createContext_keeps (p : Nat) (h : Memory.wf s.mem) : Keeps (execCreateContext p s) := by
  refine command_answers (fun t x ht => ?_) h
  split
  · refine answers_ite (answers_malformed ht) (answers_ite (answers_refuse ht) ?_)
    split
    · exact answers_done ht
    · exact answers_refuse ht
  · exact answers_none

theorem launchGrid_keeps (p : Nat) (h : Memory.wf s.mem) : Keeps (execLaunchGrid p s) := by
  refine command_answers (fun t x ht => ?_) h
  split
  · refine answers_ite (answers_malformed ht) (answers_ite (answers_refuse ht) ?_)
    split
    · exact answers_done ht
    · refine answers_done ?_
      rw [enqueueGrid_mem]
      split
      · simpa using ht
      · generalize hostList t _ _ = o
        cases o with
        | none => simpa using ht
        | some x => simpa using ht
  · exact answers_none

theorem save_keeps (p : Nat) (h : Memory.wf s.mem) : Keeps (execSave p s) := by
  refine command_answers (fun t x ht => ?_) h
  split
  · refine answers_ite (answers_malformed ht) (answers_ite (answers_refuse ht) (answers_later ?_))
    rw [settleSave_mem, foldl_mem (fun t k => joinSave_mem t _ _ k)]
    exact ht
  · exact answers_none

theorem launchImage_keeps (p : Nat) (h : Memory.wf s.mem) : Keeps (execLaunchImage p s) := by
  refine command_answers (fun t x ht => ?_) h
  split
  · refine answers_ite (answers_malformed ht) (answers_ite (answers_refuse ht) ?_)
    split
    · exact answers_refuse ht
    · refine answers_ite (answers_malformed ht) ?_
      have h1 : ∀ (ctx : Nat) (vs : List Nat) (t : State), Memory.wf t.mem →
          Memory.wf (vs.foldl (fun t v => findBytes t p ctx v 64) t).mem := fun ctx vs t ht => by
        rwa [foldl_mem (fun t v => findBytes_mem t _ _ v _)]
      refine answers_ite (answers_refuse (h1 _ _ _ (by simpa using ht))) (answers_done ?_)
      rw [foldl_mem dropImage_mem, foldl_fst_mem (takeImage_mem _ _ _)]
      exact h1 _ _ _ (by simpa using ht)
  · exact answers_none

theorem openIngressWindow_keeps (p : Nat) (h : Memory.wf s.mem) : Keeps (execOpenIngressWindow p s) := by
  refine command_answers (fun t x ht => ?_) h
  split
  · refine answers_ite (answers_malformed ht) (answers_ite (answers_refuse ht) ?_)
    dsimp only
    split
    · exact answers_refuse ht
    · exact answers_done (gateWrite_wf _ _ _ _ _ _ (by simpa using ht))
  · exact answers_none

theorem closeIngressWindow_keeps (p : Nat) (h : Memory.wf s.mem) : Keeps (execCloseIngressWindow p s) := by
  refine command_answers (fun t x ht => ?_) h
  split
  · split
    · exact answers_done ht
    · refine answers_ite (answers_refuse ht) (answers_done ?_)
      rw [modWindow_mem, foldl_mem (fun t x => dropRecord_mem t _ _ _), foldl_mem (fun t x => dropRecord_mem t _ _ _)]
      exact ht
  · exact answers_none

theorem configureDeck_keeps (p : Nat) (h : Memory.wf s.mem) : Keeps (execConfigureDeck p s) := by
  refine command_answers (fun t x ht => ?_) h
  split
  · exact answers_ite (answers_malformed ht) (answers_ite (answers_refuse ht) (answers_done ht))
  · exact answers_none

theorem keyStream_keeps (p : Nat) (h : Memory.wf s.mem) : Keeps (execKeyStream p s) := by
  refine command_answers (fun t x ht => ?_) h
  split
  · split
    · exact answers_ite (answers_refuse ht) (answers_ite answers_none (answers_later ht))
    · exact answers_ite (answers_later ht) (answers_refuse ht)
  · exact answers_none

theorem admitPeer_keeps (p : Nat) (y : PeerReport) (h : Memory.wf s.mem) : Keeps (execAdmitPeer p y s) := by
  refine command_answers (fun t x ht => ?_) h
  split
  · exact answers_ite (answers_malformed ht) (answers_ite (answers_refuse ht) (answers_done ht))
  · exact answers_none

theorem removePeer_keeps (p : Nat) (h : Memory.wf s.mem) : Keeps (execRemovePeer p s) := by
  refine command_answers (fun t x ht => ?_) h
  split
  · refine answers_ite (answers_malformed ht) (answers_ite (answers_done ht) (answers_done ?_))
    dsimp only
    rw [modPart_mem]
    exact ite_wf (by simpa using ht) ht
  · exact answers_none

theorem trumpControls_keeps (p : Nat) (h : Memory.wf s.mem) : Keeps (execTrumpControls p s) := by
  refine command_answers (fun t x ht => ?_) h
  split
  · refine answers_ite (answers_malformed ht) (answers_ite (answers_refuse ht) (answers_done ?_))
    refine foldl_wf (fun t d ht => ?_) _ ht
    split
    · rwa [foldl_mem (fun t x => promoteIf_mem t d x)]
    · exact foldl_wf (fun t x ht => withdrawEntry_wf d x 5 ht) _ ht
  · exact answers_none

theorem wakeFilter_keeps (p : Nat) (h : Memory.wf s.mem) : Keeps (execWakeFilterAndIdleInterval p s) := by
  refine command_answers (fun t x ht => ?_) h
  split
  · exact answers_ite (answers_malformed ht) (answers_ite (answers_refuse ht) (answers_done ht))
  · exact answers_none

theorem resetPartition_keeps (p : Nat) (h : Memory.wf s.mem) : Keeps (execResetPartition p s) := by
  refine command_answers (fun t x ht => ?_) h
  split
  · exact answers_done (resetPart_wf _ ht)
  · exact answers_none

end

section
variable {s : State}

/-! ### Moves of the machine -/

theorem ite_keeps {p : Prop} [Decidable p] {a b : Host.Outcome State Fault Refusal} (ha : Keeps a) (hb : Keeps b) :
    Keeps (if p then a else b) := by
  split
  · exact ha
  · exact hb

theorem watchpointUpdate_keeps (n : Nat) (h : Memory.wf s.mem) : Keeps (execWatchpointUpdate n s) := by
  unfold execWatchpointUpdate
  split
  · split
    · exact ite_keeps h trivial
    · trivial
  · trivial

theorem debugAccess_keeps (u : Nat) (x : DebugAccess) (h : Memory.wf s.mem) : Keeps (execDebugAccess u x s) := by
  unfold execDebugAccess
  split
  · exact ite_keeps trivial (ite_keeps h h)
  · trivial

theorem debugResume_keeps (ws : List Nat) (h : Memory.wf s.mem) : Keeps (execDebugResume ws s) := by
  refine ite_keeps ?_ trivial
  rwa [keeps_next, foldl_mem (fun t u => modWave_mem t u _)]

theorem debugStep_keeps (u : Nat) (h : Memory.wf s.mem) : Keeps (execDebugStep u s) := ite_keeps h trivial

theorem debuggerAttach_keeps (x : Nat) (on : Bool) (h : Memory.wf s.mem) : Keeps (execDebuggerAttach x on s) := by
  unfold execDebuggerAttach
  split
  · exact h
  · trivial

theorem blockRetire_keeps (k : Nat) (h : Memory.wf s.mem) : Keeps (execBlockRetire k s) := by
  unfold execBlockRetire
  split
  · refine ite_keeps ?_ trivial
    rwa [keeps_next, checkGrid_mem, foldl_mem (fun t j => (freeBlock_mem _ j).trans (endPreempt_mem t j 2))]
  · trivial

theorem grantEnd_keeps (g x : Nat) (h : Memory.wf s.mem) : Keeps (execGrantEnd g x s) := by
  unfold execGrantEnd
  split
  · exact ite_keeps h trivial
  · trivial

theorem longOpComplete_keeps (n : Nat) (h : Memory.wf s.mem) : Keeps (execLongOpComplete n s) := by
  unfold execLongOpComplete
  split
  · trivial
  · next u w o0 _ =>
    have h0 : ∀ f : State → State, (∀ t, (f t).mem = t.mem) →
        Memory.wf (noteTaken (decoded f (servedLoad s w o0))).mem := fun f hf => by
      rwa [noteTaken_mem, decoded_mem hf, servedLoad_mem]
    dsimp only
    split
    · refine ite_keeps ?_ trivial
      split
      · exact h0 _ (fun t => modWave_mem t u _)
      · refine acquireFrom_wf _ _ _ _ ?_
        rw [modOlds_mem]
        exact h0 _ (fun t => modWave_mem t u _)
    · trivial

theorem lockWaitGrant_keeps (c b : Nat) (h : Memory.wf s.mem) : Keeps (execLockWaitGrant c b s) := by
  unfold execLockWaitGrant
  dsimp only
  split
  · split
    · exact h
    · exact ite_keeps (by simpa using h) (by simpa using h)
  · trivial

theorem lockExpiry_keeps (c b : Nat) (h : Memory.wf s.mem) : Keeps (execLockExpiry c b s) := by
  unfold execLockExpiry
  split
  · exact ite_keeps h trivial
  · trivial

theorem spadScrub_keeps (c r : Nat) (h : Memory.wf s.mem) : Keeps (execSpadScrub c r s) := by
  unfold execSpadScrub
  split
  · simpa using h
  · exact h

theorem writeApplyHome_keeps (n : Nat) (h : Memory.wf s.mem) : Keeps (execWriteApplyHome n s) := by
  unfold execWriteApplyHome
  split
  · exact ite_keeps (pumpPorts_wf (applyLine_wf _ _ h)) trivial
  · trivial

theorem writeApplyRemote_keeps (n d : Nat) (h : Memory.wf s.mem) : Keeps (execWriteApplyRemote n d s) := by
  unfold execWriteApplyRemote
  split
  · exact ite_keeps (pumpPorts_wf (by simpa using h)) trivial
  · trivial

theorem arrayGrant_keeps (c : Nat) (h : Memory.wf s.mem) : Keeps (execArrayGrant c s) := by
  unfold execArrayGrant
  dsimp only
  split
  · exact ite_keeps h trivial
  · trivial

theorem arrayOpFinish_keeps (c : Nat) (h : Memory.wf s.mem) : Keeps (execArrayOpFinish c s) := by
  unfold execArrayOpFinish
  dsimp only
  split
  · refine ite_keeps ?_ trivial
    rw [keeps_next]
    refine foldl_wf ?_ _ ?_
    · exact fun _ _ ht => ht
    · split
      · exact h
      · exact h
  · trivial

theorem placementEvent_keeps (p : Nat) (h : Memory.wf s.mem) : Keeps (execPlacementEvent p s) := by
  refine ite_keeps ?_ trivial
  split
  · rw [keeps_next, leaveQueue_mem, modGrid_mem]
    exact placeUnit_wf _ _ _ (by simpa using h)
  · trivial

theorem gridEligible_keeps (g : Nat) (m : Option Nat) (h : Memory.wf s.mem) : Keeps (execGridEligible g m s) := by
  refine ite_keeps ?_ trivial
  split
  · exact h
  · simpa using h

theorem roundForm_keeps (n : Nat) (h : Memory.wf s.mem) : Keeps (execRoundForm n s) := by
  unfold execRoundForm
  split
  · exact ite_keeps (by simpa using h) trivial
  · split
    · trivial
    · split
      · trivial
      · exact ite_keeps (by simpa using h) trivial

theorem peerGone_keeps (p e : Nat) (h : Memory.wf s.mem) : Keeps (execPeerGone p e s) :=
  ite_keeps (by simpa using h) trivial

theorem deckAppend_keeps (n : Nat) (h : Memory.wf s.mem) : Keeps (execDeckAppend n s) := by
  unfold execDeckAppend
  split
  · exact ite_keeps h trivial
  · refine perform_keeps (fun t x r ht e => ?_) h
    split at e
    · cases e
      simpa using ht
    · cases e

theorem showdownQuiescence_keeps (p : Nat) (set : DWord) (h : Memory.wf s.mem) :
    Keeps (execShowdownQuiescence p set s) := ite_keeps h trivial

theorem engineEntryPerform_keeps (c q : Nat) (h : Memory.wf s.mem) : Keeps (execEngineEntryPerform c q s) := by
  unfold execEngineEntryPerform
  dsimp only
  split
  · trivial
  · next e _ _ =>
    have h0 := syncTo_wf (dieOfCore c) (clockJoin e.clock (queueAt (coreOf s c) q).clock) h
    refine ite_keeps trivial ?_
    split
    · simpa using h0
    · simpa using h0
    · refine ite_keeps ?_ trivial
      rw [keeps_next, mmaStart_mem, foldl_mem findMatrix_mem]
      simpa using h0
    · trivial
    · split
      · next t e =>
        rw [keeps_next, performRound_mem _ _ _ _ _ t e]
        simpa using h0
      · trivial
    · simpa using h0

theorem engineWriteRelease_keeps (n : Nat) (h : Memory.wf s.mem) : Keeps (execEngineWriteRelease n s) := by
  unfold execEngineWriteRelease
  split
  · trivial
  · split
    · exact ite_keeps (performEngine_wf _ _ _ _ _ _ _ (by simpa using h)) trivial
    · trivial

theorem engineEntryComplete_keeps (c q : Nat) (h : Memory.wf s.mem) : Keeps (execEngineEntryComplete c q s) := by
  unfold execEngineEntryComplete
  split
  · trivial
  · next e rest _ =>
    refine ite_keeps ?_ trivial
    have h1 := foldl_wf (fun _ x ht => completeEngineOp_wf e (entrySticky s e) x ht) e.ops
      (s := modCore s c (fun x => setQueue x q { queueAt x q with entries := rest, completed := BitVec.ofNat 64 e.num })) h
    dsimp only
    split
    · simpa using h1
    · simpa using h1

theorem qfenceComplete_keeps (n : Nat) (h : Memory.wf s.mem) : Keeps (execQfenceComplete n s) := by
  unfold execQfenceComplete
  split
  · trivial
  · exact ite_keeps h trivial

/-! ### The search, the tags and the health of cores -/

theorem candidateInstall_keeps (d x : Nat) (cand : List Word) (guards : List (Nat × Word)) (h : Memory.wf s.mem) :
    Keeps (execCandidateInstall d x cand guards s) := ite_keeps (by simpa using h) trivial

theorem candidateExpiry_keeps (d x : Nat) (h : Memory.wf s.mem) : Keeps (execCandidateExpiry d x s) :=
  ite_keeps h trivial

theorem hotnessHalve_keeps (h : Memory.wf s.mem) : Keeps (execHotnessHalve s) := by
  refine ite_keeps trivial ?_
  rwa [keeps_next, foldl_mem (fun t c => modDie_mem t _ _), foldl_mem (fun t c => modCore_mem t c _)]

theorem probationCompare_keeps (n : Nat) (h : Memory.wf s.mem) : Keeps (execProbationCompare n s) := by
  unfold execProbationCompare
  split
  · split
    · refine ite_keeps (ite_keeps h ?_) trivial
      split
      · exact h
      · exact withdrawEntry_wf _ _ _ h
      · simpa using h
    · trivial
  · trivial

theorem auditComplete_keeps (t : Nat) (h : Memory.wf s.mem) : Keeps (execAuditComplete t s) := by
  unfold execAuditComplete
  split
  · next r _ =>
    split
    · have h1 := condemnAll_wf [t] (withdrawEntry_wf r.die r.entry 2 h)
      exact ite_keeps (ite_keeps (settleReady_wf (s := { s with tags := _ }) h) (ite_wf h1 h1)) trivial
    · trivial
  · trivial

theorem auditEscalate_keeps (t : Nat) (h : Memory.wf s.mem) : Keeps (execAuditEscalate t s) := by
  unfold execAuditEscalate
  split
  · exact ite_keeps h trivial
  · trivial

theorem walkAndScrubComplete_keeps (t : Nat) (h : Memory.wf s.mem) : Keeps (execWalkAndScrubComplete t s) := by
  unfold execWalkAndScrubComplete
  split
  · split
    · refine ite_keeps (settleReady_wf ?_) trivial
      rw [freeEntryIf_mem, modEntry_mem, freeTagOf_mem]
      exact scrubTag_wf _ _ _ h
    · trivial
  · trivial

theorem strikeReport_keeps (c : Nat) (seat : Option Nat) (h : Memory.wf s.mem) : Keeps
    (execStrikeReport c seat s) := by
  refine ite_keeps ?_ trivial
  rw [keeps_next]
  split
  · simpa using h
  · simpa using h

theorem rollbackResume_keeps (c : Nat) (seat : Option Nat) (h : Memory.wf s.mem) : Keeps
    (execRollbackResume c seat s) := by
  unfold execRollbackResume
  dsimp only
  split
  · exact ite_keeps (by simpa using h) trivial
  · trivial

theorem healthRecover_keeps (c : Nat) (h : Memory.wf s.mem) : Keeps (execHealthRecover c s) := ite_keeps h trivial

theorem marginPlan_keeps (l : List Nat) (h : Memory.wf s.mem) : Keeps (execMarginPlan l s) := by
  unfold execMarginPlan
  rwa [keeps_next, foldl_mem suspectCore_mem]

theorem coreReset_keeps (c : Nat) (h : Memory.wf s.mem) : Keeps (execCoreReset c s) := ite_keeps h trivial

/-! ### Saves and restorations -/

theorem preemptRequest_keeps (k r : Nat) (h : Memory.wf s.mem) : Keeps (execPreemptRequest k r s) := by
  refine ite_keeps ?_ trivial
  rwa [keeps_next, foldl_mem (fun t j => acceptPreempt_mem t j _ _)]

theorem shrinkRequestPost_keeps (k x : Nat) (h : Memory.wf s.mem) : Keeps (execShrinkRequestPost k x s) := by
  unfold execShrinkRequestPost
  split
  · exact ite_keeps h trivial
  · trivial

theorem shrinkRequestClear_keeps (k : Nat) (h : Memory.wf s.mem) : Keeps (execShrinkRequestClear k s) :=
  ite_keeps h trivial

theorem saveOut_keeps (k : Nat) (h : Memory.wf s.mem) : Keeps (execSaveOut k s) := by
  refine ite_keeps ?_ trivial
  rwa [keeps_next, foldl_mem (fun t j => acceptPreempt_mem t j _ _)]

theorem preemptDraining_keeps (k : Nat) (h : Memory.wf s.mem) : Keeps (execPreemptDraining k s) := ite_keeps h trivial

theorem preemptWriting_keeps (k : Nat) (h : Memory.wf s.mem) : Keeps (execPreemptWriting k s) := by
  refine ite_keeps trivial (ite_keeps (by simpa using h) (ite_keeps trivial (ite_keeps (ite_keeps ?_ trivial) ?_)))
  · rwa [keeps_next, checkGrid_mem, foldl_mem discardBlock_mem]
  · dsimp only
    split
    · rw [keeps_next, foldl_mem (fun t j => modBlock_mem t j _), abandonSave_mem]
      exact h
    · simpa using h

theorem preemptSaved_keeps (k : Nat) (h : Memory.wf s.mem) : Keeps (execPreemptSaved k s) :=
  ite_keeps (foldl_wf (fun _ j ht => saveBlock_wf j ht) _ h) trivial

theorem restorePlacement_keeps (p : Nat) (h : Memory.wf s.mem) : Keeps (execRestorePlacement p s) := by
  unfold execRestorePlacement
  dsimp only
  split
  · refine ite_keeps trivial (ite_keeps ?_ ?_)
    · split
      · exact restoreUnit_wf (s := modPart s p _) _ _ h
      · trivial
    · split
      · exact placeUnit_wf _ _ _ (by simpa using h)
      · trivial
  · trivial

/-! ### Hub dies, streams and partitions -/

theorem hostInboundWrite_keeps (p pa : Nat) (data : List Byte) (bad : Bool) (h : Memory.wf s.mem) :
    Keeps (execHostInboundWrite p pa data bad s) := ite_keeps trivial (ite_keeps (arrive_wf _ _ _ _ h) trivial)

theorem peerFlit_keeps (x : Nat) (ok : Bool) (head : FlitHead) (body : PeerBody) (h : Memory.wf s.mem) :
    Keeps (execPeerFlit x ok head body s) := by
  refine ite_keeps trivial (ite_keeps (by simpa using h) (ite_keeps (by simpa using h) ?_))
  split
  · exact ite_keeps (arrive_wf _ _ _ _ (by simpa using h)) trivial
  · simpa using h
  · simpa using h

theorem linkRetryFail_keeps (x : Nat) (fails : Bool) (h : Memory.wf s.mem) : Keeps (execLinkRetryFail x fails s) :=
  ite_keeps h trivial

theorem nvmeReadComplete_keeps (x pa : Nat) (data : List Byte) (ok : Bool) (h : Memory.wf s.mem) :
    Keeps (execNvmeReadComplete x pa data ok s) := by
  unfold execNvmeReadComplete
  split
  · exact ite_keeps trivial (ite_keeps (arrive_wf _ _ _ _ h) trivial)
  · trivial

theorem ethernetFrameReceive_keeps (n x : Nat) (auth : Bool) (frame : EthFrame) (h : Memory.wf s.mem) :
    Keeps (execEthernetFrameReceive n x auth frame s) :=
  ite_keeps trivial (ite_keeps (by simpa using h)
    (ite_keeps (ite_keeps (ite_keeps h h) (ite_keeps h h)) h))

theorem ingressFrameWrite_keeps (p req off : Nat) (data : Payload) (h : Memory.wf s.mem) :
    Keeps (execIngressFrameWrite p req off data s) := by
  unfold execIngressFrameWrite
  split
  · exact ite_keeps (by simpa using h) (ite_keeps (gateArrive_wf _ _ _ _ _ (by simpa using h))
      (gateArrive_wf _ _ _ _ _ (by simpa using h)))
  · trivial

theorem ingressBackpressureTimeout_keeps (p x : Nat) (h : Memory.wf s.mem) :
    Keeps (execIngressBackpressureTimeout p x s) := by
  unfold execIngressBackpressureTimeout
  split
  · split
    · exact ite_keeps (by simpa using h) trivial
    · trivial
  · trivial

theorem streamDrainComplete_keeps (x : Nat) (h : Memory.wf s.mem) : Keeps (execStreamDrainComplete x s) := by
  unfold execStreamDrainComplete
  split
  · refine ite_keeps ?_ trivial
    rw [keeps_next, commandDone_mem]
    exact pumpPorts_wf (s := { s with streams := _ }) h
  · trivial

theorem streamDrainFail_keeps (x : Nat) (h : Memory.wf s.mem) : Keeps (execStreamDrainFail x s) := by
  unfold execStreamDrainFail
  split
  · exact ite_keeps (by simpa using h) trivial
  · trivial

theorem sharedRequestTimeout_keeps (n : Nat) (h : Memory.wf s.mem) : Keeps (execSharedRequestTimeout n s) := by
  unfold execSharedRequestTimeout
  split
  · exact ite_keeps (pumpPorts_wf (by simpa using h)) trivial
  · trivial

theorem textPageInstall_keeps (r : Nat) (pte : Option DWord) (h : Memory.wf s.mem) :
    Keeps (execTextPageInstall r pte s) := by
  unfold execTextPageInstall
  dsimp only
  split
  · exact h
  · refine ite_keeps trivial ?_
    split
    · simpa using h
    · split
      · rw [keeps_next, fileReply_mem]
        split
        · exact outsideWrite_wf _ _ _ _ h
        · exact h
      · trivial

theorem tlbinv_keeps (p : Nat) (asid : Option Nat) (va len pa : Nat) (pte : DWord) (h : Memory.wf s.mem) :
    Keeps (execTlbinv p asid va len pa pte s) :=
  ite_keeps trivial (ite_keeps trivial (outsideWrite_wf p .clean _ _ h))

theorem hubDieGate_keeps (n : Nat) (h : Memory.wf s.mem) : Keeps (execHubDieGate n s) := by
  refine ite_keeps ?_ trivial
  rwa [keeps_next, foldl_mem (fun t p => modPart_mem t p _)]

theorem hubDieUngate_keeps (n : Nat) (h : Memory.wf s.mem) : Keeps (execHubDieUngate n s) := by
  refine ite_keeps ?_ trivial
  rwa [keeps_next, foldl_mem (fun t p => modPart_mem t p _)]

theorem eventRingWrite_keeps (p : Nat) (h : Memory.wf s.mem) : Keeps (execEventRingWrite p s) := by
  unfold execEventRingWrite
  dsimp only
  split
  · exact ite_keeps trivial (memWrite_wf s.mem _ h)
  · trivial

theorem attestationRequest_keeps (p : Nat) (h : Memory.wf s.mem) : Keeps (execAttestationRequest p s) :=
  ite_keeps (by simpa using h) trivial

theorem tdispAssign_keeps (p : Nat) (world : Option Nat) (h : Memory.wf s.mem) : Keeps (execTdispAssign p world s) :=
  ite_keeps h trivial

theorem controlMismatch_keeps (n : Nat) (h : Memory.wf s.mem) : Keeps (execControlMismatch n s) := by
  refine ite_keeps ?_ trivial
  rw [keeps_next, foldl_mem (fun t p => (postEvent_mem _ p _).trans (modPart_mem t p _)),
    foldl_mem (fun t p => modPart_mem t p _)]
  simpa using h

theorem hubDieReset_keeps (n : Nat) (h : Memory.wf s.mem) : Keeps (execHubDieReset n s) := by
  refine ite_keeps (ite_keeps ?_ h) trivial
  rwa [keeps_next, foldl_mem (fun t p => modPart_mem t p _)]

theorem doorbellWrite_keeps (p : Nat) (l : List (List Byte)) (h : Memory.wf s.mem) : Keeps (execDoorbellWrite p l s) :=
  ite_keeps (by simpa using h) trivial

theorem commandRingStall_keeps (p : Nat) (h : Memory.wf s.mem) : Keeps (execCommandRingStall p s) :=
  ite_keeps (resetPart_wf p h) trivial

theorem partitionForm_keeps (dies : List Nat) (order : FormOrder) (h : Memory.wf s.mem) :
    Keeps (execPartitionForm dies order s) := by
  unfold execPartitionForm
  dsimp only
  split
  · refine ite_keeps ?_ trivial
    rwa [keeps_next, noteBringUp_mem, foldl_mem (fun t d => modDie_mem t d _)]
  · trivial

theorem partitionDissolve_keeps (p : Nat) (h : Memory.wf s.mem) : Keeps (execPartitionDissolve p s) :=
  ite_keeps (resetPart_wf p h) trivial

/-! ### Fetches, wakes and the watchdog -/

theorem clauseFetch_keeps (u n : Nat) (h : Memory.wf s.mem) : Keeps (execClauseFetch u n s) := by
  unfold execClauseFetch
  split
  · split
    · exact ite_keeps (by simpa using h) trivial
    · trivial
  · trivial

theorem waveResumeFetch_keeps (u : Nat) (h : Memory.wf s.mem) : Keeps (execWaveResumeFetch u s) := by
  unfold execWaveResumeFetch
  split
  · exact ite_keeps h trivial
  · trivial

theorem parkedSplitWake_keeps (u n : Nat) (h : Memory.wf s.mem) : Keeps (execParkedSplitWake u n s) := by
  unfold execParkedSplitWake
  split
  · split
    · rw [keeps_next, withSplit_mem]
      exact wakeEffect_wf _ _ h
    · trivial
  · trivial

theorem watchdogExpiry_keeps (u : Nat) (h : Memory.wf s.mem) : Keeps (execWatchdogExpiry u s) := by
  unfold execWatchdogExpiry
  split
  · split
    · split
      · refine ite_keeps ?_ trivial
        rw [keeps_next, trapAt_mem]
        exact openClause_wf _ _ h
      · trivial
    · trivial
  · trivial

end

end Sys2Proof.Machine.AddressSpace
end

section
/-! PROOF. Every step keeps the canonical form of memory (R202). -/

namespace Sys2Proof.Machine.AddressSpace

open ExecutionContexts

section
variable {s : State}

/-! ### Every move, and the step -/

/-- Every instruction and every move keeps the canonical form of memory. -/
theorem exec_keeps (i : Instr) (h : Memory.wf s.mem) : Keeps (exec i s) := by
  cases i with
  | elect | add | sub | neg | mul | mulhi | mad | min | max | abs | dot4 | brev | popc | clz | cmpeq | cmpne
    | cmplt | cmple | and | or | xor | not | shl | shr | sra | bfe | bfi | fadd | fsub | fmul | fma | fneg
    | fabs | fmin | fmax | frcp | frsq | fexp2 | flog2 | fsin | fcos | frnd | fcmpeq | fcmplt | fcmple | fcmpun
    | fclass | cmul | cmad | cvtif | cvtfi | cvtff | cvtn8 | cvtw8 | mov | sel | promote | demote | vall | vany
    | veq | ballot | shfl | shflx | shfldn | shflup | pand | por | pxor | pnot | pchk | ptag =>
    exact runAlu_keeps h
  | sadd | smin | smax | sxchg | scas | sand | sor => exact spadAtomic_keeps h
  | gadd | gmin | gmax | gxchg | gcas | gand | gor => exact globalAtomic_keeps h
  | mma | mmaw => exact run_keeps (fun _ _ ht => startMma_wf _ _ _ _ _ ht) h
  | cpin | cpout => exact run_keeps (fun _ _ ht => startCopy_wf _ _ _ ht) h
  | bcpin | bcpout => exact run_keeps (fun _ _ ht => startSlice_wf _ _ _ ht) h
  | mgrantCreate | mgrantRevoke => exact run_keeps (fun _ _ ht => writeGrant_wf _ ht) h
  | wakeFilterAndIdleInterval p => exact wakeFilter_keeps p h
  | ill d a b => exact ill_keeps d a b h
  | mode m => exact mode_keeps m h
  | omode o => exact omode_keeps o h
  | nop => exact nop_keeps h
  | sigck sig => exact sigck_keeps sig h
  | rnote regs => exact rnote_keeps regs h
  | yield => exact yield_keeps h
  | yieldon a b => exact yieldon_keeps a b h
  | endWave => exact endWave_keeps h
  | trap c => exact trap_keeps c h
  | brk c => exact brk_keeps c h
  | qfeat d a => exact qfeat_keeps d a h
  | rdsr d n => exact rdsr_keeps d n h
  | rdsrTimelo d => exact rdsrTimelo_keeps d h
  | wrsr a n => exact wrsr_keeps a n h
  | sigWrite a => exact sigWrite_keeps a h
  | pkset a => exact pkset_keeps a h
  | div d a b => exact div_keeps d a b h
  | rem d a b => exact rem_keeps d a b h
  | fdiv d a b => exact fdiv_keeps d a b h
  | fsqrt d a => exact fsqrt_keeps d a h
  | jmp o => exact jmp_keeps o h
  | bp p o => exact bp_keeps p o h
  | bnp p o => exact bnp_keeps p o h
  | bany p o => exact bany_keeps p o h
  | ball p o => exact ball_keeps p o h
  | bnone p o => exact bnone_keeps p o h
  | call f o => exact call_keeps f o h
  | ret a => exact ret_keeps a h
  | jmpi a => exact jmpi_keeps a h
  | calli f a => exact calli_keeps f a h
  | bar a => exact bar_keeps a h
  | barrive d a => exact barrive_keeps d a h
  | bwait a b => exact bwait_keeps a b h
  | grow d a b => exact grow_keeps d a b h
  | attach d a => exact attach_keeps d a h
  | detach a => exact detach_keeps a h
  | shrinkq d => exact shrinkq_keeps d h
  | bmem d a => exact bmem_keeps d a h
  | lds d a => exact lds_keeps d a h
  | sts a b => exact sts_keeps a b h
  | ldsl d a b => exact ldsl_keeps d a b h
  | stsl d a b => exact stsl_keeps d a b h
  | ldlk d a => exact ldlk_keeps d a h
  | stul d a b => exact stul_keeps d a b h
  | ld d a => exact ld_keeps d a h
  | st a b => exact st_keeps a b h
  | ldacq d a => exact ldacq_keeps d a h
  | strel a b => exact strel_keeps a b h
  | fence o => exact fence_keeps o h
  | pref a n => exact pref_keeps a n h
  | wseq d a b => exact wseq_keeps d a b h
  | icsync => exact icsync_keeps h
  | tcfg d a => exact tcfg_keeps d a h
  | twin d a => exact twin_keeps d a h
  | accz d => exact accz_keeps d h
  | accrd d a b => exact accrd_keeps d a b h
  | accwr d a b => exact accwr_keeps d a b h
  | mdrain d a m n => exact mdrain_keeps d a m n h
  | hist a => exact hist_keeps a h
  | hclr => exact hclr_keeps h
  | hscale d a => exact hscale_keeps d a h
  | qcvt d a m n => exact qcvt_keeps d a m n h
  | gath d a b => exact gath_keeps d a b h
  | cseal d => exact cseal_keeps d h
  | cwait n => exact cwait_keeps n h
  | qfence q => exact qfence_keeps q h
  | qseq d a => exact qseq_keeps d a h
  | cbar d a => exact cbar_keeps d a h
  | cred d a b => exact cred_keeps d a b h
  | dput a b => exact dput_keeps a b h
  | dtake d a b => exact dtake_keeps d a b h
  | sdwait a => exact sdwait_keeps a h
  | launch d a b => exact launch_keeps d a b h
  | lwait d a => exact lwait_keeps d a h
  | lstat d a => exact lstat_keeps d a h
  | tret k => exact tret_keeps k h
  | wpset a k => exact wpset_keeps a k h
  | wpclr m => exact wpclr_keeps m h
  | clauseFetch w e => exact clauseFetch_keeps w e h
  | waveResumeFetch w => exact waveResumeFetch_keeps w h
  | longOpComplete n => exact longOpComplete_keeps n h
  | holdbackRelease n => exact holdbackRelease_keeps n h
  | writeApplyHome n => exact writeApplyHome_keeps n h
  | writeApplyRemote n d => exact writeApplyRemote_keeps n d h
  | atomicPerform n => exact atomicPerform_keeps n h
  | spadAtomicPerform n => exact spadAtomicPerform_keeps n h
  | ldlkPerform n => exact ldlkPerform_keeps n h
  | lockWaitGrant c l => exact lockWaitGrant_keeps c l h
  | stulPerform n => exact stulPerform_keeps n h
  | lockExpiry c l => exact lockExpiry_keeps c l h
  | growPerform n => exact growPerform_keeps n h
  | attachPerform n => exact attachPerform_keeps n h
  | detachPerform n => exact detachPerform_keeps n h
  | endPerform n => exact endPerform_keeps n h
  | deadWaveLeave n => exact deadWaveLeave_keeps n h
  | barrierArrive n => exact barrierArrive_keeps n h
  | parkedSplitWake w e => exact parkedSplitWake_keeps w e h
  | shrinkRequestClear k => exact shrinkRequestClear_keeps k h
  | blockRetire k => exact blockRetire_keeps k h
  | watchdogExpiry w => exact watchdogExpiry_keeps w h
  | engineRequestEnter n => exact engineRequestEnter_keeps n h
  | collectiveEnter n => exact collectiveEnter_keeps n h
  | engineEntryPerform c q => exact engineEntryPerform_keeps c q h
  | engineWriteRelease n => exact engineWriteRelease_keeps n h
  | engineEntryComplete c q => exact engineEntryComplete_keeps c q h
  | qfenceComplete n => exact qfenceComplete_keeps n h
  | roundForm n => exact roundForm_keeps n h
  | cohortArrivalPerform n => exact cohortArrivalPerform_keeps n h
  | arrayGrant c => exact arrayGrant_keeps c h
  | arrayOpFinish c => exact arrayOpFinish_keeps c h
  | matrixWritePerform n => exact matrixWritePerform_keeps n h
  | pkrContextUpdate n => exact pkrContextUpdate_keeps n h
  | watchpointUpdate n => exact watchpointUpdate_keeps n h
  | grantEnd g x => exact grantEnd_keeps g x h
  | launchPerform n => exact launchPerform_keeps n h
  | placementEvent p => exact placementEvent_keeps p h
  | saveOut k => exact saveOut_keeps k h
  | preemptDraining k => exact preemptDraining_keeps k h
  | preemptWriting k => exact preemptWriting_keeps k h
  | preemptSaved k => exact preemptSaved_keeps k h
  | restorePlacement p => exact restorePlacement_keeps p h
  | rollbackResume c seat => exact rollbackResume_keeps c seat h
  | healthRecover c => exact healthRecover_keeps c h
  | hotnessHalve => exact hotnessHalve_keeps h
  | candidateExpiry d x => exact candidateExpiry_keeps d x h
  | probationCompare n => exact probationCompare_keeps n h
  | auditComplete t => exact auditComplete_keeps t h
  | auditEscalate t => exact auditEscalate_keeps t h
  | deckAppend n => exact deckAppend_keeps n h
  | deckHoldRelease n => exact deckHoldRelease_keeps n h
  | showdownQuiescence p set => exact showdownQuiescence_keeps p set h
  | ingressBackpressureTimeout p x => exact ingressBackpressureTimeout_keeps p x h
  | createContext p => exact createContext_keeps p h
  | launchGrid p => exact launchGrid_keeps p h
  | save p => exact save_keeps p h
  | launchImage p => exact launchImage_keeps p h
  | streamDrainComplete x => exact streamDrainComplete_keeps x h
  | streamDrainFail x => exact streamDrainFail_keeps x h
  | resetPartition p => exact resetPartition_keeps p h
  | commandRingStall p => exact commandRingStall_keeps p h
  | sharedRequestTimeout n => exact sharedRequestTimeout_keeps n h
  | hubDieGate n => exact hubDieGate_keeps n h
  | hubDieUngate n => exact hubDieUngate_keeps n h
  | eventRingWrite p => exact eventRingWrite_keeps p h
  | illegalOpcode w => exact illegalOpcode_keeps w h
  | walkAndScrubComplete t => exact walkAndScrubComplete_keeps t h
  | textPageInstall r pte => exact textPageInstall_keeps r pte h
  | spadScrub c r => exact spadScrub_keeps c r h
  | shrinkRequestPost k x => exact shrinkRequestPost_keeps k x h
  | peerGone p e => exact peerGone_keeps p e h
  | debugAccess w x => exact debugAccess_keeps w x h
  | debugResume ws => exact debugResume_keeps ws h
  | debugStep w => exact debugStep_keeps w h
  | tlbinv p asid va len pa pte => exact tlbinv_keeps p asid va len pa pte h
  | gridEligible g missing => exact gridEligible_keeps g missing h
  | preemptRequest k r => exact preemptRequest_keeps k r h
  | strikeReport c seat => exact strikeReport_keeps c seat h
  | marginPlan uncovered => exact marginPlan_keeps uncovered h
  | candidateInstall d x cand guards => exact candidateInstall_keeps d x cand guards h
  | ingressFrameWrite p req off data => exact ingressFrameWrite_keeps p req off data h
  | doorbellWrite p records => exact doorbellWrite_keeps p records h
  | openIngressWindow p => exact openIngressWindow_keeps p h
  | closeIngressWindow p => exact closeIngressWindow_keeps p h
  | configureDeck p => exact configureDeck_keeps p h
  | keyStream p => exact keyStream_keeps p h
  | admitPeer p report => exact admitPeer_keeps p report h
  | removePeer p => exact removePeer_keeps p h
  | trumpControls p => exact trumpControls_keeps p h
  | partitionForm dies order => exact partitionForm_keeps dies order h
  | hostInboundWrite p pa data bad => exact hostInboundWrite_keeps p pa data bad h
  | peerFlit x ok head body => exact peerFlit_keeps x ok head body h
  | linkRetryFail x fails => exact linkRetryFail_keeps x fails h
  | ethernetFrameReceive n x auth frame => exact ethernetFrameReceive_keeps n x auth frame h
  | nvmeReadComplete x pa data ok => exact nvmeReadComplete_keeps x pa data ok h
  | attestationRequest p => exact attestationRequest_keeps p h
  | controlMismatch n => exact controlMismatch_keeps n h
  | partitionDissolve p => exact partitionDissolve_keeps p h
  | hubDieReset n => exact hubDieReset_keeps n h
  | debuggerAttach x on => exact debuggerAttach_keeps x on h
  | coreReset c => exact coreReset_keeps c h
  | tdispAssign p world => exact tdispAssign_keeps p world h

/-- A move that keeps the canonical form of memory in every state. -/
def KeepsForm (m : Move) : Prop := ∀ s, Memory.wf s.mem → Keeps (m s)

theorem made_wf {m : Move} (hm : KeepsForm m) {t : State} (h : Memory.wf s.mem)
    (e : made m s = some t) : Memory.wf t.mem := by
  have hk := hm s h
  unfold made at e
  split at e
  · next r e1 =>
    cases e
    rwa [e1] at hk
  · cases e

/-- Each move of a list keeps the canonical form of memory. -/
def KeepEach (l : List Move) : Prop := ∀ m ∈ l, KeepsForm m

theorem keepEach_nil : KeepEach [] := fun _ hm => absurd hm List.not_mem_nil

theorem keepEach_cons {m : Move} {l : List Move} (hm : KeepsForm m) (hl : KeepEach l) : KeepEach (m :: l) :=
  List.forall_mem_cons.mpr ⟨hm, hl⟩

theorem keepEach_one {m : Move} (hm : KeepsForm m) : KeepEach [m] := keepEach_cons hm keepEach_nil

theorem keepEach_append {l r : List Move} (hl : KeepEach l) (hr : KeepEach r) : KeepEach (l ++ r) :=
  List.forall_mem_append.mpr ⟨hl, hr⟩

theorem keepEach_map {α : Type} {f : α → Move} (hf : ∀ a, KeepsForm (f a)) (l : List α) : KeepEach (l.map f) :=
  List.forall_mem_map.mpr fun a _ => hf a

theorem keepEach_flatMap {α : Type} {f : α → List Move} (hf : ∀ a, KeepEach (f a)) (l : List α) :
    KeepEach (l.flatMap f) := fun m hm => by
  obtain ⟨a, -, h⟩ := List.mem_flatMap.mp hm
  exact hf a m h

theorem firstMade_wf {l : List Move} {t : State} (hl : KeepEach l) (h : Memory.wf s.mem) (e : firstMade l s = some t) :
    Memory.wf t.mem := by
  induction l with
  | nil => cases e
  | cons m l ih =>
    obtain ⟨hm, hl⟩ := List.forall_mem_cons.mp hl
    unfold firstMade firstSome at e
    split at e
    · next r e1 =>
      cases e
      exact made_wf hm h e1
    · exact ih hl e

theorem heldMove_keepsForm (x : Held) : KeepsForm (heldMove x) := by
  unfold heldMove
  split
  · exact fun _ h => atomicPerform_keeps _ h
  · exact fun _ h => spadAtomicPerform_keeps _ h
  · exact fun _ h => ldlkPerform_keeps _ h
  · exact fun _ h => stulPerform_keeps _ h
  · exact fun _ h => matrixWritePerform_keeps _ h
  · exact fun _ h => growPerform_keeps _ h
  · exact fun _ h => attachPerform_keeps _ h
  · exact fun _ h => detachPerform_keeps _ h
  · exact fun _ h => endPerform_keeps _ h
  · exact fun _ h => deadWaveLeave_keeps _ h
  · exact fun _ h => barrierArrive_keeps _ h
  · exact fun _ h => barrierArrive_keeps _ h
  · exact fun _ h => engineRequestEnter_keeps _ h
  · exact fun _ h => engineRequestEnter_keeps _ h
  · exact fun _ h => engineRequestEnter_keeps _ h
  · exact fun _ h => collectiveEnter_keeps _ h
  · exact fun _ h => launchPerform_keeps _ h
  · exact fun _ h => cohortArrivalPerform_keeps _ h
  · exact fun _ h => deckAppend_keeps _ h
  · exact fun _ h => deckHoldRelease_keeps _ h
  · exact fun _ h => pkrContextUpdate_keeps _ h
  · exact fun _ h => watchpointUpdate_keeps _ h
  · exact fun _ h => engineWriteRelease_keeps _ h
  · exact fun _ h => holdbackRelease_keeps _ h

theorem heldMoves_keepEach (s : State) : KeepEach (heldMoves s) := keepEach_map heldMove_keepsForm _

theorem flightMoves_keepEach (s : State) : KeepEach (flightMoves s) := by
  refine keepEach_append (keepEach_flatMap (fun f => ?_) _) (keepEach_flatMap (fun p => keepEach_flatMap (fun d =>
    keepEach_map (fun g _ h => deckAppend_keeps g.1 h) _) _) _)
  split
  · exact keepEach_one (fun _ h => writeApplyHome_keeps f.1 h)
  · exact keepEach_map (fun d _ h => writeApplyRemote_keeps f.1 d h) _

theorem waveOpMoves_keepEach (s : State) : KeepEach (waveOpMoves s) :=
  keepEach_append
    (keepEach_flatMap (fun _ => keepEach_flatMap (fun _ => keepEach_cons (fun _ h => lockExpiry_keeps _ _ h)
      (keepEach_one (fun _ h => lockWaitGrant_keeps _ _ h))) _) _)
    (keepEach_flatMap (fun _ => keepEach_map (fun _ _ h => longOpComplete_keeps _ h) _) _)

theorem engineMoves_keepEach (s : State) : KeepEach (engineMoves s) :=
  keepEach_append
    (keepEach_append
      (keepEach_flatMap (fun _ => keepEach_append
        (keepEach_append
          (keepEach_flatMap (fun _ => keepEach_cons (fun _ h => engineEntryPerform_keeps _ _ h)
            (keepEach_one (fun _ h => engineEntryComplete_keeps _ _ h))) _)
          (keepEach_map (fun _ _ h => qfenceComplete_keeps _ h) _))
        (keepEach_one (fun _ h => arrayOpFinish_keeps _ h))) _)
      (keepEach_map (fun _ _ h => arrayGrant_keeps _ h) _))
    (keepEach_flatMap (fun _ => keepEach_append
      (keepEach_flatMap (fun _ => keepEach_map (fun _ _ h => roundForm_keeps _ h) _) _)
      (keepEach_flatMap (fun _ => keepEach_map (fun _ _ h => roundForm_keeps _ h) _) _)) _)

theorem blockMoves_keepEach (s : State) : KeepEach (blockMoves s) :=
  keepEach_append
    (keepEach_flatMap (fun _ => keepEach_cons (fun _ h => blockRetire_keeps _ h)
      (keepEach_cons (fun _ h => preemptDraining_keeps _ h) (keepEach_cons (fun _ h => preemptWriting_keeps _ h)
      (keepEach_cons (fun _ h => preemptSaved_keeps _ h) (keepEach_one (fun _ h => shrinkRequestClear_keeps _ h)))))) _)
    (keepEach_flatMap (fun _ => keepEach_cons (fun _ h => gridEligible_keeps _ none h)
      (keepEach_map (fun _ _ h => grantEnd_keeps _ _ h) _)) _)

theorem coreMoves_keepEach (s : State) : KeepEach (coreMoves s) :=
  keepEach_append
    (keepEach_append
      (keepEach_append
        (keepEach_flatMap (fun _ => keepEach_cons (fun _ h => rollbackResume_keeps _ none h)
          (keepEach_cons (fun _ h => healthRecover_keeps _ h)
          (keepEach_map (fun _ _ h => rollbackResume_keeps _ _ h) _))) _)
        (keepEach_flatMap (fun _ => keepEach_append (keepEach_map (fun _ _ h => candidateExpiry_keeps _ _ h) _)
          (keepEach_map (fun _ _ h => probationCompare_keeps _ h) _)) _))
      (keepEach_flatMap (fun _ => keepEach_cons (fun _ h => auditComplete_keeps _ h)
        (keepEach_cons (fun _ h => auditEscalate_keeps _ h) (keepEach_one (fun _ h => walkAndScrubComplete_keeps _ h)))) _))
    (keepEach_one (fun _ h => hotnessHalve_keeps h))

/-- The moves that take a command from a partition's ring. -/
theorem commandMoves_keepEach (p : Nat) : KeepEach
    [execCreateContext p, execLaunchGrid p, execSave p, execLaunchImage p, execOpenIngressWindow p,
      execCloseIngressWindow p, execConfigureDeck p, execKeyStream p, execRemovePeer p, execTrumpControls p,
      execWakeFilterAndIdleInterval p, execResetPartition p, execCommandRingStall p] :=
  keepEach_cons (fun _ h => createContext_keeps _ h) (keepEach_cons (fun _ h => launchGrid_keeps _ h)
  (keepEach_cons (fun _ h => save_keeps _ h) (keepEach_cons (fun _ h => launchImage_keeps _ h)
  (keepEach_cons (fun _ h => openIngressWindow_keeps _ h) (keepEach_cons (fun _ h => closeIngressWindow_keeps _ h)
  (keepEach_cons (fun _ h => configureDeck_keeps _ h) (keepEach_cons (fun _ h => keyStream_keeps _ h)
  (keepEach_cons (fun _ h => removePeer_keeps _ h) (keepEach_cons (fun _ h => trumpControls_keeps _ h)
  (keepEach_cons (fun _ h => wakeFilter_keeps _ h) (keepEach_cons (fun _ h => resetPartition_keeps _ h)
  (keepEach_one (fun _ h => commandRingStall_keeps _ h)))))))))))))

theorem hostMoves_keepEach (s : State) : KeepEach (hostMoves s) := by
  refine keepEach_append (keepEach_append (keepEach_append (keepEach_flatMap (fun p => ?_) _)
    (keepEach_flatMap (fun _ => keepEach_cons (fun _ h => streamDrainComplete_keeps _ h)
      (keepEach_one (fun _ h => streamDrainFail_keeps _ h))) _))
    (keepEach_map (fun _ _ h => sharedRequestTimeout_keeps _ h) _))
    (keepEach_flatMap (fun _ => keepEach_cons (fun _ h => hubDieUngate_keeps _ h)
      (keepEach_one (fun _ h => hubDieGate_keeps _ h))) _)
  refine keepEach_append (keepEach_append ?_ (keepEach_map (fun _ _ h => ingressBackpressureTimeout_keeps _ _ h) _))
    (keepEach_one (fun _ h => eventRingWrite_keeps _ h))
  split
  · exact keepEach_nil
  · exact commandMoves_keepEach p.1

theorem placeMoves_keepEach (s : State) : KeepEach (placeMoves s) :=
  keepEach_flatMap (fun _ => keepEach_cons (fun _ h => restorePlacement_keeps _ h)
    (keepEach_cons (fun _ h => placementEvent_keeps _ h)
    (keepEach_append (keepEach_map (fun _ _ h => saveOut_keeps _ h) _)
      (keepEach_map (fun _ _ h => showdownQuiescence_keeps _ _ h) _)))) _

theorem splitMoves_keepEach (s : State) : KeepEach (splitMoves s) :=
  keepEach_flatMap (fun _ => keepEach_cons (fun _ h => waveResumeFetch_keeps _ h)
    (keepEach_flatMap (fun _ => keepEach_cons (fun _ h => parkedSplitWake_keeps _ _ h)
      (keepEach_one (fun _ h => clauseFetch_keeps _ _ h))) _)) _

theorem ownMoves_keepEach (s : State) : KeepEach (ownMoves s) :=
  keepEach_append (keepEach_append (keepEach_append (keepEach_append (keepEach_append (keepEach_append (keepEach_append
    (keepEach_append (heldMoves_keepEach s) (flightMoves_keepEach s)) (waveOpMoves_keepEach s)) (engineMoves_keepEach s))
    (blockMoves_keepEach s)) (coreMoves_keepEach s)) (hostMoves_keepEach s)) (placeMoves_keepEach s)) (splitMoves_keepEach s)

theorem onNext_keeps {f : State → State} (hf : ∀ t, (f t).mem = t.mem) {o : Host.Outcome State Fault Refusal}
    (ho : Keeps o) : Keeps (onNext f o) := by
  cases o with
  | next t => exact (congrArg Memory.wf (hf t)).trans ho
  | fault x => trivial
  | refused x => trivial

theorem issueMove_keeps (c : Cand) (h : Memory.wf s.mem) : Keeps (issueMove s c) := by
  have h1 := openClause_wf c.uid c.entry h
  unfold issueMove
  dsimp only
  split
  · exact h1
  · refine ite_keeps (by simpa using h1) ?_
    split
    · exact onNext_keeps (afterIssue_mem _ _) (exec_keeps _ (by simpa using h1))
    · simpa using h1

theorem deviceTurn_keeps (h : Memory.wf s.mem) : Keeps (deviceTurn s) := by
  unfold deviceTurn
  split
  · simpa using h
  · split
    · next t e => exact firstMade_wf (ownMoves_keepEach s) h e
    · split
      · split
        · simpa using h
        · exact issueMove_keeps _ h
      · simpa using h

theorem outsideMove_mem {x : Instr × State} (e : outsideMove s = some x) : x.2.mem = s.mem := by
  unfold outsideMove at e
  split at e
  · split_ifs at e
    cases e
    rfl
  · cases e

theorem turn_keeps (h : Memory.wf s.mem) : Keeps (turn s) := by
  unfold turn
  split
  · next x e => exact ite_keeps (deviceTurn_keeps h) (exec_keeps _ (by rwa [outsideMove_mem e]))
  · exact deviceTurn_keeps h

end

/-- Settles O59: each of the step's parts keeps the canonical form of memory, for only writes by `memSet` and `memWrite`
change memory and both keep it. -/
theorem memoryKept : Obligations.MemoryKept := by
  unfold Obligations.MemoryKept
  intro s t h e
  have hk : Keeps (step s) := turn_keeps (housekeep_wf h)
  rwa [e] at hk

end Sys2Proof.Machine.AddressSpace
end


section
/-! PROOF. A frame from a hub die's Ethernet port (R362): the partition it names, and the hub die that partition is homed on. -/

namespace Sys2Proof.Machine.AddressSpace

/-- A state whose list of partitions names number 0 twice: `partOf` reads the first entry, homed on hub die 1, and
`homedOn` also counts the second, homed on hub die 0. -/
def twicePart : State := { State.reset with parts := [(0, { hub := 1 }), (0, { hub := 0 })] }

theorem twicePart_homed : 0 ∈ homedOn twicePart 0 := by decide

theorem twicePart_named : mget twicePart.parts 0 = some (partOf twicePart 0) := rfl

/-- The frame is refused: the partition the state shows under number 0 is homed on the other hub die. -/
theorem twicePart_refuses (auth : Bool) (frame : List Byte) :
    exec (.ethernetFrameReceive 0 0 auth ⟨0, frame⟩) twicePart = .refused (.notEnabled "ETHERNET_FRAME_RECEIVE") := rfl

/-- Refutes O53: its clause on Ethernet frames asks that partition `p` be among those homed on hub die `h`, which any entry
of the list under `p` satisfies, while the move reads the first entry only. Where the list names one number twice, homed on
either die, the move is refused; the statement has no hypothesis that it names each partition once. -/
theorem not_hubMoves : ¬ Obligations.HubMoves := by
  unfold Obligations.HubMoves
  intro h
  obtain ⟨-, -, -, hubs, -⟩ := h twicePart
  obtain ⟨-, -, frames⟩ := hubs 0 (by decide)
  obtain ⟨t, e, -⟩ := frames 0 0 false [] (by decide) twicePart_homed twicePart_named
  rw [twicePart_refuses] at e
  cases e

end Sys2Proof.Machine.AddressSpace
end
